-- ==== Sys2Proof/Word.lean ====
section
/-!
DEFINITION. Words of the Cherok 860: the plain abbreviations and the bit fields of an instruction word (R7, R88).
-/
namespace Sys2Proof

/-- A 64-bit word: a scalar register, an address, a control word. -/
abbrev Word := BitVec 64

/-- One byte. -/
abbrev Byte := BitVec 8

/-- Bits `lo + n - 1` to `lo` of `w`, as a number (R103, bits). -/
abbrev fld (w lo n : Nat) : Nat := w / 2 ^ lo % 2 ^ n

end Sys2Proof
end

