-- ==== Sys2Proof/Config.lean ====
section
/-!
DEFINITION. What an implementation fixes and the spec leaves open: free values. None has a body a proof could see, so a
claim holds whatever they are.
-/
namespace Sys2Proof.Config

/-- A free 64-bit value, one for each count of `State.tick` (the value of an access or result the spec does not give). -/
opaque freeWord : Nat → Word

/-- A free natural number, one for each count: the nanoseconds a step takes, a place in an order left open. -/
opaque freeNat : Nat → Nat

/-- The measurements, signature and check syndromes of R370, R432 and R433, by what they are taken over: free. -/
opaque digest : Nat → Nat → BitVec 512

/-- Whether the boot ROM finds the firmware's signature good (R432), by power-on count: free. -/
opaque firmwareGood : Nat → Bool

/-- The bytes a print engine's encoder makes of a command (R434): free. -/
opaque bitstream : Nat → List Byte

end Sys2Proof.Config
end

