-- ==== Sys2Proof/Syntax.lean ====
section
/-!
DEFINITION. The instruction set: the operands of each format (R89, R91, R95) and the one inductive of operations and
events, a constructor for each row of the opcode table. The rows without a word are the steps of the machine's other
agents; their operands name the agent and carry what comes from outside the device.
-/
namespace Sys2Proof

/-- Operands of a word whose opcode is 0x00 (R89, R95). -/
structure ZeroW where
  rest : BitVec 25
deriving DecidableEq, Repr

/-- Operands of a word of a reserved opcode (R89, R95). -/
structure ResW where
  rest : BitVec 25
  low : BitVec 5
deriving DecidableEq, Repr

/-- Operands of the R format, two scalar sources (R89, R95). -/
structure Alu2 where
  eb : Bool
  ea : Bool
  b : Fin 32
  a : Fin 32
  d : Fin 32
deriving DecidableEq, Repr

/-- Operands of the R format, one scalar source (R89, R95). -/
structure Alu1 where
  ea : Bool
  a : Fin 32
  d : Fin 32
deriving DecidableEq, Repr

/-- Operands of the I format with a 14-bit immediate (R89, R95). -/
structure ImmI where
  imm : BitVec 14
  ea : Bool
  a : Fin 32
  d : Fin 32
deriving DecidableEq, Repr

/-- Operands of the I format with a shift amount (R89, R95). -/
structure ShI where
  amt : BitVec 6
  ea : Bool
  a : Fin 32
  d : Fin 32
deriving DecidableEq, Repr

/-- Operands of the I format with a 13-bit immediate (R89, R95). -/
structure SltI where
  imm : BitVec 13
  ea : Bool
  a : Fin 32
  d : Fin 32
deriving DecidableEq, Repr

/-- Operands of the U format (R89, R95). -/
structure SetK where
  imm : BitVec 16
  slot : Fin 4
  d : Fin 32
deriving DecidableEq, Repr

/-- Operands of the J format (R89, R95). -/
structure OffD where
  off : BitVec 20
  d : Fin 32
deriving DecidableEq, Repr

/-- Operands of the B format (R89, R95). -/
structure BrC where
  off : BitVec 12
  b : Fin 32
  a : Fin 32
deriving DecidableEq, Repr

/-- Operands of the M format (R89, R95). -/
structure BrM where
  off : BitVec 20
  k : Fin 8
deriving DecidableEq, Repr

/-- Operands of the L format (R89, R95). -/
structure LoopR where
  len : BitVec 12
  cnt : Fin 32
deriving DecidableEq, Repr

/-- Operands of the P format (R89, R95). -/
structure RptF where
  sc : Fin 4
  sb : Fin 4
  sa : Fin 4
  sd : Fin 4
  cnt : BitVec 5
  len : BitVec 4
deriving DecidableEq, Repr

/-- Operands of the S format (R89, R95). -/
structure LdSt where
  off : BitVec 11
  e : Bool
  a : Fin 32
  t : Fin 32
deriving DecidableEq, Repr

/-- Operands of the S format of the acquire load (R89, R95). -/
structure LdAcq where
  off : BitVec 8
  sc : Fin 8
  e : Bool
  sign : Bool
  size : Fin 4
  a : Fin 32
  t : Fin 32
deriving DecidableEq, Repr

/-- Operands of the S format of the release store (R89, R95). -/
structure StRel where
  off : BitVec 8
  sc : Fin 8
  e : Bool
  size : Fin 4
  a : Fin 32
  t : Fin 32
deriving DecidableEq, Repr

/-- Operands of the R4 format of the atomic updates (R89, R95). -/
structure AmoF where
  rel : Bool
  e : Bool
  sc : Fin 8
  acq : Bool
  b : Fin 32
  a : Fin 32
  d : Fin 32
deriving DecidableEq, Repr

/-- Operands of the R4 format of the compare and swap (R89, R95). -/
structure CasF where
  e : Bool
  sc : Fin 8
  c : Fin 32
  b : Fin 32
  a : Fin 32
  d : Fin 32
deriving DecidableEq, Repr

/-- Operands of the R format with a scope only (R89, R95). -/
structure ScopeF where
  sc : Fin 8
deriving DecidableEq, Repr

/-- Operands of the R format with a scope and one scalar source (R89, R95). -/
structure ScopeA where
  ea : Bool
  sc : Fin 8
  a : Fin 32
deriving DecidableEq, Repr

/-- Operands of the R4 format of waita (R89, R95). -/
structure WaitaF where
  e : Bool
  cond : Fin 8
  c : Fin 32
  b : Fin 32
  a : Fin 32
  d : Fin 32
deriving DecidableEq, Repr

/-- Operands of the R format of the barriers (R89, R95). -/
structure BarF where
  eb : Bool
  ea : Bool
  sc : Fin 8
  b : Fin 32
  a : Fin 32
  d : Fin 32
deriving DecidableEq, Repr

/-- Operands of the R format of the stash forms but map (R89, R95). -/
structure StashB where
  eb : Bool
  b : Fin 32
  d : Fin 32
deriving DecidableEq, Repr

/-- Operands of the R format of the prefetches (R89, R95). -/
structure PrefF where
  ea : Bool
  a : Fin 32
deriving DecidableEq, Repr

/-- Operands of the I format of rdspr (R89, R95). -/
structure RdSpr where
  spr : BitVec 12
  d : Fin 32
deriving DecidableEq, Repr

/-- Operands of the I format of wrspr (R89, R95). -/
structure WrSpr where
  spr : BitVec 12
  ea : Bool
  a : Fin 32
deriving DecidableEq, Repr

/-- Operands of the R format, governed by a mask, two sources (R89, R95). -/
structure V3 where
  eb : Bool
  ea : Bool
  k : Fin 8
  b : Fin 32
  a : Fin 32
  d : Fin 32
deriving DecidableEq, Repr

/-- Operands of the R format with a signed 5-bit immediate (R89, R95). -/
structure VImm where
  ea : Bool
  k : Fin 8
  imm : BitVec 5
  a : Fin 32
  d : Fin 32
deriving DecidableEq, Repr

/-- Operands of the R format with a 4-bit shift amount (R89, R95). -/
structure VShImm where
  ea : Bool
  k : Fin 8
  amt : BitVec 4
  a : Fin 32
  d : Fin 32
deriving DecidableEq, Repr

/-- Operands of the R format of the compares: d names a mask (R89, R95). -/
structure VCmp where
  eb : Bool
  ea : Bool
  k : Fin 8
  b : Fin 32
  a : Fin 32
  d : Fin 8
deriving DecidableEq, Repr

/-- Operands of the R format of vcvt (R89, R95). -/
structure VCvt where
  rnd : Fin 8
  ea : Bool
  k : Fin 8
  a : Fin 32
  d : Fin 32
deriving DecidableEq, Repr

/-- Operands of the R format of vshrr (R89, R95). -/
structure VShrr where
  scalar : Bool
  narrow : Bool
  eb : Bool
  ea : Bool
  k : Fin 8
  b : Fin 32
  a : Fin 32
  d : Fin 32
deriving DecidableEq, Repr

/-- Operands of the R format, governed by a mask, one source (R89, R95). -/
structure V2 where
  ea : Bool
  k : Fin 8
  a : Fin 32
  d : Fin 32
deriving DecidableEq, Repr

/-- Operands of the R format of the reductions: d names a scalar (R89, R95). -/
structure VRed where
  ord : Bool
  ea : Bool
  k : Fin 8
  a : Fin 32
  d : Fin 32
deriving DecidableEq, Repr

/-- Operands of the R format of vsplati (R89, R95). -/
structure VSplatI where
  k : Fin 8
  imm : BitVec 10
  d : Fin 32
deriving DecidableEq, Repr

/-- Operands of the I format of vtag (R89, R95). -/
structure VTag where
  comp : Fin 32
  scaled : Bool
  grp : Fin 4
  tag : BitVec 5
  d : Fin 32
deriving DecidableEq, Repr

/-- Operands of the I format of setvl (R89, R95). -/
structure SetVl where
  grp : Fin 4
  tag : BitVec 5
  ea : Bool
  a : Fin 32
  d : Fin 32
deriving DecidableEq, Repr

/-- Operands of the R4 format of the slides (R89, R95). -/
structure VSlide where
  e : Bool
  fill : Fin 8
  c : Fin 32
  b : Fin 32
  a : Fin 32
  d : Fin 32
deriving DecidableEq, Repr

/-- Operands of the V format without x (R89, R95). -/
structure VMem where
  pol : Fin 4
  e : Bool
  bb : Bool
  o : Bool
  k : Fin 8
  a : Fin 32
  t : Fin 32
deriving DecidableEq, Repr

/-- Operands of the V format (R89, R95). -/
structure VMemX where
  pol : Fin 4
  e : Bool
  bb : Bool
  o : Bool
  k : Fin 8
  x : Fin 32
  a : Fin 32
  t : Fin 32
deriving DecidableEq, Repr

/-- Operands of the V format without a policy (R89, R95). -/
structure VMemC where
  e : Bool
  bb : Bool
  o : Bool
  k : Fin 8
  x : Fin 32
  a : Fin 32
  t : Fin 32
deriving DecidableEq, Repr

/-- Operands of the R format of the two-source mask forms (R89, R95). -/
structure K3 where
  eb : Bool
  ea : Bool
  b : Fin 8
  a : Fin 8
  d : Fin 8
deriving DecidableEq, Repr

/-- Operands of the R format of knot (R89, R95). -/
structure K2 where
  ea : Bool
  a : Fin 8
  d : Fin 8
deriving DecidableEq, Repr

/-- Operands of the R format: a names a mask, d another register (R89, R95). -/
structure KToR where
  ea : Bool
  a : Fin 8
  d : Fin 32
deriving DecidableEq, Repr

/-- Operands of the R format: d names a mask (R89, R95). -/
structure RToK where
  ea : Bool
  a : Fin 32
  d : Fin 8
deriving DecidableEq, Repr

/-- Operands of the R format of vmcast (R89, R95). -/
structure VMcast where
  eb : Bool
  ea : Bool
  k : Fin 8
  b : Fin 32
  a : Fin 32
deriving DecidableEq, Repr

/-- Operands of the R format of vrecv (R89, R95). -/
structure VRecv where
  d : Fin 32
deriving DecidableEq, Repr

/-- Operands of the R format of viota (R89, R95). -/
structure VIota where
  ea : Bool
  k : Fin 8
  a : Fin 8
  d : Fin 32
deriving DecidableEq, Repr

/-- Operands of the R format with a mask and a destination (R89, R95). -/
structure VD where
  k : Fin 8
  d : Fin 32
deriving DecidableEq, Repr

/-- Operands of the R format with a mask only (R89, R95). -/
structure VK where
  k : Fin 8
deriving DecidableEq, Repr

/-- Operands of the W format of wld and wst (R89, R95). -/
structure WMem where
  p : Bool
  stride : Fin 32
  e : Bool
  k : Fin 8
  v : Fin 32
  w : Fin 4
deriving DecidableEq, Repr

/-- Operands of the W format, two sources (R89, R95). -/
structure W3 where
  p : Bool
  e : Bool
  k : Fin 8
  b : Fin 4
  a : Fin 4
  d : Fin 4
deriving DecidableEq, Repr

/-- Operands of the W format of wchol (R89, R95). -/
structure WChol where
  p : Bool
  res : Fin 8
  e : Bool
  k : Fin 8
  d : Fin 4
deriving DecidableEq, Repr

/-- Operands of the W format of wlu (R89, R95). -/
structure WLu where
  p : Bool
  res : Fin 8
  e : Bool
  k : Fin 8
  v : Fin 32
  d : Fin 4
deriving DecidableEq, Repr

/-- Operands of the W format with v and one source (R89, R95). -/
structure WV where
  p : Bool
  e : Bool
  k : Fin 8
  v : Fin 32
  a : Fin 4
  d : Fin 4
deriving DecidableEq, Repr

/-- Operands of the W format, one source (R89, R95). -/
structure W2 where
  p : Bool
  e : Bool
  k : Fin 8
  a : Fin 4
  d : Fin 4
deriving DecidableEq, Repr

/-- Operands of the W format, no source (R89, R95). -/
structure W1 where
  p : Bool
  e : Bool
  k : Fin 8
  d : Fin 4
deriving DecidableEq, Repr

/-- Operands of the W format of wdim (R89, R95). -/
structure WDim where
  cols : Fin 8
  rows : Fin 8
deriving DecidableEq, Repr

/-- Operands of the W format of wget (R89, R95). -/
structure WGet where
  p : Bool
  col : Fin 8
  row : Fin 8
  e : Bool
  k : Fin 8
  v : Fin 32
  a : Fin 4
deriving DecidableEq, Repr

/-- Operands of the W format of wput (R89, R95). -/
structure WPut where
  p : Bool
  col : Fin 8
  row : Fin 8
  e : Bool
  k : Fin 8
  v : Fin 32
  d : Fin 4
deriving DecidableEq, Repr

/-- Operands of the T format with the tile only (R89, R95). -/
structure TOnly where
  t : Fin 8
deriving DecidableEq, Repr

/-- Operands of the T format of tacc (R89, R95). -/
structure TAcc where
  x : Fin 32
  e : Bool
  t : Fin 8
deriving DecidableEq, Repr

/-- Operands of the T format of tmma (R89, R95). -/
structure TMma where
  ta : BitVec 5
  tb : BitVec 5
  e : Bool
  z : Bool
  kb : Bool
  ka : Bool
  fb : Fin 4
  fa : Fin 4
  t : Fin 8
deriving DecidableEq, Repr

/-- Operands of the T format of tmms (R89, R95). -/
structure TMms where
  tg : BitVec 5
  x : Fin 32
  e : Bool
  z : Bool
  kb : Bool
  ka : Bool
  fb : Fin 4
  fa : Fin 4
  t : Fin 8
deriving DecidableEq, Repr

/-- Operands of the T format with a row (R89, R95). -/
structure TRow where
  row : BitVec 6
  x : Fin 32
  e : Bool
  t : Fin 8
deriving DecidableEq, Repr

/-- Operands of the T format of tepi (R89, R95). -/
structure TEpi where
  act : Fin 8
  row : BitVec 6
  x : Fin 32
  e : Bool
  t : Fin 8
deriving DecidableEq, Repr

/-- Operands of the T format of fopen (R89, R95). -/
structure FOpen where
  x : Fin 32
  e : Bool
  film : Fin 4
deriving DecidableEq, Repr

/-- Operands of the T format with the film only (R89, R95). -/
structure FOnly where
  film : Fin 4
deriving DecidableEq, Repr

/-- Operands of the T format of fstat (R89, R95). -/
structure FStat where
  x : Fin 32
  film : Fin 4
deriving DecidableEq, Repr

/-- Operands of the C format of the copies (R89, R95). -/
structure Copy where
  ch : Fin 8
  e : Bool
  port : BitVec 4
  c : Fin 32
  b : Fin 32
  a : Fin 32
deriving DecidableEq, Repr

/-- Operands of the C format of gath (R89, R95). -/
structure GathF where
  ch : Fin 8
  e : Bool
  dup : Fin 8
  c : Fin 32
  b : Fin 32
  a : Fin 32
deriving DecidableEq, Repr

/-- Operands of the C format of the channel forms with a (R89, R95). -/
structure ChanA where
  e : Bool
  ch : Fin 8
  a : Fin 32
deriving DecidableEq, Repr

/-- Operands of the C format of the other channel forms (R89, R95). -/
structure Chan0 where
  e : Bool
  ch : Fin 8
deriving DecidableEq, Repr

/-- Operands of the C format, three registers (R89, R95). -/
structure C3 where
  e : Bool
  c : Fin 32
  b : Fin 32
  a : Fin 32
deriving DecidableEq, Repr

/-- Operands of the C format of pgrant (R89, R95). -/
structure C1 where
  a : Fin 32
deriving DecidableEq, Repr

/-- Operands of the I format with a code (R89, R95). -/
structure Imm14 where
  code : BitVec 14
deriving DecidableEq, Repr

/-- Operands of the R format of probe (R89, R95). -/
structure Probe where
  kind : Fin 4
  ea : Bool
  a : Fin 32
  d : Fin 32
deriving DecidableEq, Repr

/-- What moves a 32-byte grain: a command of a copy channel (8 x coreid + channel) or a staging channel of an
enlarger (R267, R383). -/
inductive Mover where
  | chan (ch : Nat)
  | stage (enl : Nat) (i : Nat)
deriving DecidableEq, Repr

/-- The kinds of item a core page gives an owner (R342). -/
inductive OwnItem where
  | seq (i : Nat) | pipe (i : Nat) | tile (i : Nat) | film (i : Nat) | chan (i : Nat)
deriving DecidableEq, Repr

/-- Where the host's AtomicOp is one of the three of the PCI Express specification (R396). -/
inductive HostOp where
  | fetchAdd | swap | cas
deriving DecidableEq, Repr

/-- Who a request to the host or a peer was made for: a sequencer or a copy channel. -/
inductive Asker where
  | seq (q : Nat) | chan (ch : Nat) | dist (die : Nat)
deriving DecidableEq, Repr

/-- Permissions to read, to write and to execute: those an access needs, or those a translation grants (R160, R400, R401). -/
structure Rights where
  r : Bool := false
  w : Bool := false
  x : Bool := false
deriving DecidableEq, Repr

/-- An ATS Translation Completion's answer (R401): the host frame with the permissions, or an error. -/
inductive AtsAnswer where
  | translated (hpa : Nat) (rights : Rights)
  | error
deriving DecidableEq, Repr

/-- The response to a Page Request (R402). -/
inductive PriAnswer where
  | success | invalid | failure
deriving DecidableEq, Repr

/-- A detected error (R367): corrected in a unit; uncorrectable in a clean copy of a core's L1 or stash, of the LLC, of a die, in
a TLB entry or in an instruction cache, on an issued path or not (R359); in dirty data of a 32-byte sector; or in the state of a partition. -/
inductive ErrorSite where
  | corrected (unit p a : Nat)
  | coreCopy (c w : Nat)
  | stashPiece (c w : Nat)
  | llcLine (a : Nat)
  | dieCopy (die w : Nat)
  | tlbEntry (i : Nat)
  | instruction (q : Nat) (issued : Bool) (a : Nat)
  | dirty (unit a : Nat)
  | contained (unit p : Nat)
deriving DecidableEq, Repr

/-- What a peer asks for (R408, R409): a read or a write of some bytes, an update, a compare and swap, or an arrival at a
barrier word. `o` of an update numbers add, and, or, xor, min, max, minu, maxu, swap. -/
inductive PeerOp where
  | read (n : Nat)
  | write (n v : Nat)
  | update (o : Fin 9) (n v : Nat)
  | cas (n expected new : Nat)
  | arrive (amount : Nat)
deriving DecidableEq, Repr

/-- A request of a peer (R329, R408): what it asks for, and the grain and protocol slot of the leaf it was made through. -/
structure PeerReq where
  grain : Nat
  slot : Nat
  op : PeerOp
deriving DecidableEq, Repr

/-- The host's answer to a request of a home (R414, R417): the line, and whether its data carries poison. -/
structure HostResp where
  line : Nat
  poison : Bool
deriving DecidableEq, Repr

/-- The operations and events of the Cherok 860: one constructor for each row of the opcode table. -/
inductive Instr where
  /-- R94 -/
  | zeroWord (x : ZeroW)
  /-- R94 -/
  | reservedOpcode (x : ResW)
  /-- R136 -/
  | add (x : Alu2)
  /-- R136 -/
  | sub (x : Alu2)
  /-- R136 -/
  | and (x : Alu2)
  /-- R136 -/
  | or (x : Alu2)
  /-- R136 -/
  | xor (x : Alu2)
  /-- R136 -/
  | andn (x : Alu2)
  /-- R136 -/
  | orn (x : Alu2)
  /-- R136 -/
  | shl (x : Alu2)
  /-- R136 -/
  | shr (x : Alu2)
  /-- R136 -/
  | sar (x : Alu2)
  /-- R136 -/
  | rol (x : Alu2)
  /-- R136 -/
  | ror (x : Alu2)
  /-- R136 -/
  | slt (x : Alu2)
  /-- R136 -/
  | sltu (x : Alu2)
  /-- R136 -/
  | min (x : Alu2)
  /-- R136 -/
  | max (x : Alu2)
  /-- R136 -/
  | minu (x : Alu2)
  /-- R136 -/
  | maxu (x : Alu2)
  /-- R136 -/
  | mul (x : Alu2)
  /-- R136 -/
  | mulh (x : Alu2)
  /-- R136 -/
  | mulhu (x : Alu2)
  /-- R137 -/
  | div (x : Alu2)
  /-- R137 -/
  | divu (x : Alu2)
  /-- R137 -/
  | rem (x : Alu2)
  /-- R137 -/
  | remu (x : Alu2)
  /-- R136 -/
  | clz (x : Alu1)
  /-- R136 -/
  | ctz (x : Alu1)
  /-- R136 -/
  | popc (x : Alu1)
  /-- R136 -/
  | bswap (x : Alu1)
  /-- R136 -/
  | sextB (x : Alu1)
  /-- R136 -/
  | sextH (x : Alu1)
  /-- R136 -/
  | sextW (x : Alu1)
  /-- R136 -/
  | zextW (x : Alu1)
  /-- R139 -/
  | addi (x : ImmI)
  /-- R139 -/
  | andi (x : ImmI)
  /-- R139 -/
  | ori (x : ImmI)
  /-- R139 -/
  | xori (x : ImmI)
  /-- R139 -/
  | shli (x : ShI)
  /-- R139 -/
  | shri (x : ShI)
  /-- R139 -/
  | sari (x : ShI)
  /-- R139 -/
  | roli (x : ShI)
  /-- R139 -/
  | slti (x : SltI)
  /-- R139 -/
  | sltiu (x : SltI)
  /-- R140 -/
  | setk (x : SetK)
  /-- R140 -/
  | setz (x : SetK)
  /-- R141 -/
  | addpc (x : OffD)
  /-- R142 -/
  | brEq (x : BrC)
  /-- R142 -/
  | brNe (x : BrC)
  /-- R142 -/
  | brLt (x : BrC)
  /-- R142 -/
  | brGe (x : BrC)
  /-- R142 -/
  | brLtu (x : BrC)
  /-- R142 -/
  | brGeu (x : BrC)
  /-- R143 -/
  | brmAny (x : BrM)
  /-- R143 -/
  | brmAll (x : BrM)
  /-- R143 -/
  | brmNone (x : BrM)
  /-- R144 -/
  | jal (x : OffD)
  /-- R145 -/
  | jalr (x : ImmI)
  /-- R148 -/
  | loop (x : LoopR)
  /-- R148 -/
  | loopi (x : LoopR)
  /-- R151 -/
  | lbrk
  /-- R155 -/
  | rpt (x : RptF)
  /-- R164 -/
  | ldBz (x : LdSt)
  /-- R164 -/
  | ldBs (x : LdSt)
  /-- R164 -/
  | ldHz (x : LdSt)
  /-- R164 -/
  | ldHs (x : LdSt)
  /-- R164 -/
  | ldWz (x : LdSt)
  /-- R164 -/
  | ldWs (x : LdSt)
  /-- R164 -/
  | ldD (x : LdSt)
  /-- R164 -/
  | stB (x : LdSt)
  /-- R164 -/
  | stH (x : LdSt)
  /-- R164 -/
  | stW (x : LdSt)
  /-- R164 -/
  | stD (x : LdSt)
  /-- R164 -/
  | ldp (x : LdSt)
  /-- R164 -/
  | stp (x : LdSt)
  /-- R166 -/
  | ldacq (x : LdAcq)
  /-- R166 -/
  | strel (x : StRel)
  /-- R167 -/
  | amoAdd (x : AmoF)
  /-- R167 -/
  | amoAnd (x : AmoF)
  /-- R167 -/
  | amoOr (x : AmoF)
  /-- R167 -/
  | amoXor (x : AmoF)
  /-- R167 -/
  | amoMin (x : AmoF)
  /-- R167 -/
  | amoMax (x : AmoF)
  /-- R167 -/
  | amoMinu (x : AmoF)
  /-- R167 -/
  | amoMaxu (x : AmoF)
  /-- R167 -/
  | amoSwap (x : AmoF)
  /-- R168 -/
  | cas (x : CasF)
  /-- R168 -/
  | casQ (x : CasF)
  /-- R170 -/
  | fenceAcq (x : ScopeF)
  /-- R170 -/
  | fenceRel (x : ScopeF)
  /-- R170 -/
  | fenceAr (x : ScopeF)
  /-- R304 -/
  | fenceSc (x : ScopeF)
  /-- R172 -/
  | xfenceAll (x : ScopeF)
  /-- R172 -/
  | xfenceSpace (x : ScopeA)
  /-- R172 -/
  | xfencePage (x : ScopeA)
  /-- R173 -/
  | waita (x : WaitaF)
  /-- R176 -/
  | barArr (x : BarF)
  /-- R176 -/
  | barWait (x : BarF)
  /-- R176 -/
  | barAw (x : BarF)
  /-- R177 -/
  | clineClean (x : ScopeA)
  /-- R177 -/
  | clineInv (x : ScopeA)
  /-- R177 -/
  | clineFlush (x : ScopeA)
  /-- R177 -/
  | clineZero (x : ScopeA)
  /-- R178 -/
  | stashMap (x : Alu2)
  /-- R178 -/
  | stashUnmap (x : StashB)
  /-- R178 -/
  | stashFlush (x : StashB)
  /-- R179 -/
  | stashPin (x : StashB)
  /-- R178 -/
  | stashUnpin (x : StashB)
  /-- R180 -/
  | prefL2 (x : PrefF)
  /-- R180 -/
  | prefLlc (x : PrefF)
  /-- R180 -/
  | prefStash (x : PrefF)
  /-- R181 -/
  | rdspr (x : RdSpr)
  /-- R181 -/
  | wrspr (x : WrSpr)
  /-- R191 -/
  | vadd (x : V3)
  /-- R191 -/
  | vsub (x : V3)
  /-- R191 -/
  | vmul (x : V3)
  /-- R191 -/
  | vmin (x : V3)
  /-- R191 -/
  | vmax (x : V3)
  /-- R191 -/
  | vand (x : V3)
  /-- R191 -/
  | vor (x : V3)
  /-- R191 -/
  | vxor (x : V3)
  /-- R191 -/
  | vshl (x : V3)
  /-- R191 -/
  | vshr (x : V3)
  /-- R191 -/
  | vsar (x : V3)
  /-- R191 -/
  | vabd (x : V3)
  /-- R191 -/
  | vavg (x : V3)
  /-- R191 -/
  | vadds (x : V3)
  /-- R191 -/
  | vsubs (x : V3)
  /-- R191 -/
  | vmulh (x : V3)
  /-- R190 -/
  | vaddS (x : V3)
  /-- R190 -/
  | vsubS (x : V3)
  /-- R190 -/
  | vmulS (x : V3)
  /-- R190 -/
  | vminS (x : V3)
  /-- R190 -/
  | vmaxS (x : V3)
  /-- R190 -/
  | vandS (x : V3)
  /-- R190 -/
  | vorS (x : V3)
  /-- R190 -/
  | vxorS (x : V3)
  /-- R190 -/
  | vshlS (x : V3)
  /-- R190 -/
  | vshrS (x : V3)
  /-- R190 -/
  | vsarS (x : V3)
  /-- R190 -/
  | vabdS (x : V3)
  /-- R190 -/
  | vavgS (x : V3)
  /-- R190 -/
  | vaddsS (x : V3)
  /-- R190 -/
  | vsubsS (x : V3)
  /-- R190 -/
  | vmulhS (x : V3)
  /-- R190 -/
  | vaddI (x : VImm)
  /-- R190 -/
  | vsubI (x : VImm)
  /-- R190 -/
  | vmulI (x : VImm)
  /-- R190 -/
  | vminI (x : VImm)
  /-- R190 -/
  | vmaxI (x : VImm)
  /-- R190 -/
  | vandI (x : VImm)
  /-- R190 -/
  | vorI (x : VImm)
  /-- R190 -/
  | vxorI (x : VImm)
  /-- R187 -/
  | vshlI (x : VShImm)
  /-- R187 -/
  | vshrI (x : VShImm)
  /-- R187 -/
  | vsarI (x : VShImm)
  /-- R190 -/
  | vabdI (x : VImm)
  /-- R190 -/
  | vavgI (x : VImm)
  /-- R190 -/
  | vaddsI (x : VImm)
  /-- R190 -/
  | vsubsI (x : VImm)
  /-- R190 -/
  | vmulhI (x : VImm)
  /-- R193 -/
  | vfma (x : V3)
  /-- R193 -/
  | vfms (x : V3)
  /-- R193 -/
  | vfnma (x : V3)
  /-- R193 -/
  | vfnms (x : V3)
  /-- R194 -/
  | vmacw (x : V3)
  /-- R195 -/
  | vcmpEq (x : VCmp)
  /-- R195 -/
  | vcmpNe (x : VCmp)
  /-- R195 -/
  | vcmpLt (x : VCmp)
  /-- R195 -/
  | vcmpLe (x : VCmp)
  /-- R195 -/
  | vcmpGt (x : VCmp)
  /-- R195 -/
  | vcmpGe (x : VCmp)
  /-- R195 -/
  | vcmpUn (x : VCmp)
  /-- R196 -/
  | vsel (x : V3)
  /-- R197 -/
  | vcvt (x : VCvt)
  /-- R199 -/
  | vshrr (x : VShrr)
  /-- R200 -/
  | vdiv (x : V3)
  /-- R200 -/
  | vsqrt (x : V2)
  /-- R200 -/
  | vrcp (x : V2)
  /-- R200 -/
  | vrsqrt (x : V2)
  /-- R200 -/
  | vexp2 (x : V2)
  /-- R200 -/
  | vlog2 (x : V2)
  /-- R201 -/
  | vdot (x : V3)
  /-- R202 -/
  | vredSum (x : VRed)
  /-- R202 -/
  | vredMax (x : VRed)
  /-- R202 -/
  | vredMin (x : VRed)
  /-- R202 -/
  | vredAnd (x : VRed)
  /-- R202 -/
  | vredOr (x : VRed)
  /-- R202 -/
  | vredXor (x : VRed)
  /-- R203 -/
  | vsign (x : V3)
  /-- R204 -/
  | vmov (x : V2)
  /-- R204 -/
  | vsplat (x : V2)
  /-- R204 -/
  | vsplati (x : VSplatI)
  /-- R205 -/
  | vget (x : Alu2)
  /-- R205 -/
  | vput (x : Alu2)
  /-- R206 -/
  | vtag (x : VTag)
  /-- R207 -/
  | setvl (x : SetVl)
  /-- R208 -/
  | vslideUp (x : VSlide)
  /-- R208 -/
  | vslideDn (x : VSlide)
  /-- R215 -/
  | vld (x : VMem)
  /-- R215 -/
  | vst (x : VMem)
  /-- R215 -/
  | vlds (x : VMemX)
  /-- R215 -/
  | vsts (x : VMemX)
  /-- R216 -/
  | vldx (x : VMemX)
  /-- R218 -/
  | vldxC (x : VMemC)
  /-- R217 -/
  | vldxDup (x : VMemX)
  /-- R216 -/
  | vstx (x : VMemX)
  /-- R219 -/
  | vamoAdd (x : VMemC)
  /-- R219 -/
  | vamoAnd (x : VMemC)
  /-- R219 -/
  | vamoOr (x : VMemC)
  /-- R219 -/
  | vamoXor (x : VMemC)
  /-- R219 -/
  | vamoMin (x : VMemC)
  /-- R219 -/
  | vamoMax (x : VMemC)
  /-- R219 -/
  | vamoMinu (x : VMemC)
  /-- R219 -/
  | vamoMaxu (x : VMemC)
  /-- R219 -/
  | vamoSwap (x : VMemC)
  /-- R220 -/
  | vcomp (x : V2)
  /-- R220 -/
  | vexpand (x : V2)
  /-- R222 -/
  | vperm (x : V3)
  /-- R223 -/
  | vzip (x : V3)
  /-- R223 -/
  | vunzip (x : V3)
  /-- R223 -/
  | vtrn (x : V3)
  /-- R224 -/
  | kand (x : K3)
  /-- R224 -/
  | kor (x : K3)
  /-- R224 -/
  | kxor (x : K3)
  /-- R224 -/
  | knot (x : K2)
  /-- R224 -/
  | kandn (x : K3)
  /-- R224 -/
  | kpopc (x : KToR)
  /-- R224 -/
  | kfirst (x : KToR)
  /-- R224 -/
  | kvl (x : RToK)
  /-- R224 -/
  | kfrom (x : RToK)
  /-- R224 -/
  | vlk (x : KToR)
  /-- R225 -/
  | vmcast (x : VMcast)
  /-- R227 -/
  | vrecv (x : VRecv)
  /-- R228 -/
  | viota (x : VIota)
  /-- R228 -/
  | vidx (x : VD)
  /-- R229 -/
  | vflgRd (x : VD)
  /-- R229 -/
  | vflgClr (x : VK)
  /-- R238 -/
  | wld (x : WMem)
  /-- R239 -/
  | wst (x : WMem)
  /-- R240 -/
  | wmul (x : W3)
  /-- R240 -/
  | wmac (x : W3)
  /-- R240 -/
  | wmult (x : W3)
  /-- R243 -/
  | wchol (x : WChol)
  /-- R245 -/
  | wlu (x : WLu)
  /-- R247 -/
  | wsolveC (x : WV)
  /-- R247 -/
  | wsolveP (x : WV)
  /-- R241 -/
  | wadd (x : W3)
  /-- R241 -/
  | wsub (x : W3)
  /-- R241 -/
  | wscal (x : WV)
  /-- R241 -/
  | wtrn (x : W2)
  /-- R241 -/
  | wid (x : W1)
  /-- R241 -/
  | wcpy (x : W2)
  /-- R234 -/
  | wdim (x : WDim)
  /-- R242 -/
  | wget (x : WGet)
  /-- R242 -/
  | wput (x : WPut)
  /-- R257 -/
  | tclaim (x : TOnly)
  /-- R257 -/
  | trel (x : TOnly)
  /-- R257 -/
  | tacc (x : TAcc)
  /-- R259 -/
  | tmma (x : TMma)
  /-- R260 -/
  | tmms (x : TMms)
  /-- R261 -/
  | tread (x : TRow)
  /-- R261 -/
  | twrite (x : TRow)
  /-- R262 -/
  | twait (x : TOnly)
  /-- R263 -/
  | tepi (x : TEpi)
  /-- R264 -/
  | fopen (x : FOpen)
  /-- R264 -/
  | fclose (x : FOnly)
  /-- R264 -/
  | fdrop (x : FOnly)
  /-- R264 -/
  | fstat (x : FStat)
  /-- R265 -/
  | cpy (x : Copy)
  /-- R270 -/
  | cpyM (x : Copy)
  /-- R273 -/
  | gath (x : GathF)
  /-- R274 -/
  | chanWm (x : ChanA)
  /-- R274 -/
  | chanWait (x : Chan0)
  /-- R272 -/
  | chanCancel (x : Chan0)
  /-- R274 -/
  | chanStat (x : ChanA)
  /-- R279 -/
  | enqTask (x : C3)
  /-- R279 -/
  | enqLaunch (x : C3)
  /-- R280 -/
  | depd (x : C3)
  /-- R282 -/
  | pgrant (x : C1)
  /-- R283 -/
  | tdone
  /-- R285 -/
  | lsplit (x : BrM)
  /-- R286 -/
  | ljoin
  /-- R288 -/
  | yield
  /-- R289 -/
  | trap (x : Imm14)
  /-- R290 -/
  | tret
  /-- R291 -/
  | shut
  /-- R292 -/
  | halt
  /-- R289 -/
  | brk (x : Imm14)
  /-- R293 -/
  | probe (x : Probe)
  /-- R15 -/
  | vectorStart (q : Nat)
  /-- R21 -/
  | groupCommit (q : Nat)
  /-- R186 -/
  | vectorComplete (q : Nat)
  /-- R16 -/
  | heldPerform (q : Nat)
  /-- R163 -/
  | loadReturn (q : Nat) (i : Nat)
  /-- R138 -/
  | divideResult (q : Nat) (i : Nat)
  /-- R254 -/
  | detachedComplete (c : Nat) (t : Nat)
  /-- R259 -/
  | tmmaStart (c : Nat) (t : Nat)
  /-- R226 -/
  | vmcastReserve (q : Nat)
  /-- R226 -/
  | vmcastLand (q : Nat)
  /-- R227 -/
  | vrecvBind (q : Nat)
  /-- R174 -/
  | waitaWake (q : Nat)
  /-- R174 -/
  | waitaPoll (q : Nat)
  /-- R173 -/
  | waitaTimeout (q : Nat)
  /-- R176 -/
  | barWake (q : Nat)
  /-- R267 -/
  | channelCommandStart (ch : Nat)
  /-- R267 -/
  | grainMove (m : Mover)
  /-- R269 -/
  | copyComplete (ch : Nat)
  /-- R354 -/
  | trapInContext (q : Nat)
  /-- R355 -/
  | trapToKeeper (q : Nat)
  /-- R358 -/
  | eventPlace (p : Nat)
  /-- R284 -/
  | successorPlace (i : Nat)
  /-- R361 -/
  | sliceEnd (q : Nat)
  /-- R366 -/
  | resumeSaved (q : Nat)
  /-- R374 -/
  | selection (q : Nat)
  /-- R376 -/
  | bind (q : Nat)
  /-- R381 -/
  | stagingStart (die : Nat) (qu : Nat) (i : Nat)
  /-- R389 -/
  | granuleMove (g : Nat) (stack : Nat)
  /-- R336 -/
  | stopComplete (q : Nat)
  /-- R350 -/
  | ownershipPass (c : Nat) (it : OwnItem)
  /-- R299 -/
  | register (c : Nat) (a : Nat)
  /-- R299 -/
  | exportWord (die : Nat) (a : Nat)
  /-- R299 -/
  | deliver (src : Nat) (dst : Nat)
  /-- R320 -/
  | rd (die : Nat) (line : Nat)
  /-- R320 -/
  | wr (die : Nat) (line : Nat)
  /-- R320 -/
  | wro (die : Nat) (line : Nat)
  /-- R318 -/
  | drop (die : Nat) (line : Nat)
  /-- R318 -/
  | dropl (die : Nat) (line : Nat)
  /-- R321 -/
  | wbl (die : Nat) (line : Nat)
  /-- R318 -/
  | snoop (line : Nat)
  /-- R318 -/
  | cmo (line : Nat)
  /-- R318 -/
  | purge (line : Nat)
  /-- R367 -/
  | errorDetected (e : ErrorSite)
  /-- R336 -/
  | ctlStop (q : Nat)
  /-- R336 -/
  | ctlResume (q : Nat)
  /-- R337 -/
  | ctlStep (q : Nat)
  /-- R337 -/
  | ctlDiscard (q : Nat)
  /-- R339 -/
  | root (q : Nat) (v : Word)
  /-- R340 -/
  | head (qu : Nat) (v : Word)
  /-- R340 -/
  | en (qu : Nat) (v : Word)
  /-- R340 -/
  | counter (qu : Nat) (i : Nat) (v : Word)
  /-- R271 -/
  | channelResume (ch : Nat)
  /-- R272 -/
  | channelCancel (ch : Nat)
  /-- R342 -/
  | coreCommit (c : Nat)
  /-- R369 -/
  | partitionReset (p : Nat)
  /-- R369 -/
  | partitionResetDone (p : Nat)
  /-- R347 -/
  | window (p : Nat) (i : Nat) (v : Word)
  /-- R343 -/
  | qcount (p : Nat) (v : Word)
  /-- R347 -/
  | printmask (p : Nat) (v : Word)
  /-- R351 -/
  | pingran (page : Nat) (v : Word)
  /-- R322 -/
  | load (sl : Nat)
  /-- R323 -/
  | slotDrainDone (sl : Nat)
  /-- R427 -/
  | save
  /-- R427 -/
  | saveDone
  /-- R428 -/
  | restore
  /-- R428 -/
  | restoreDone
  /-- R425 -/
  | abort
  /-- R429 -/
  | fire
  /-- R429 -/
  | rearm
  /-- R430 -/
  | evcount
  /-- R433 -/
  | reportRequest
  /-- R433 -/
  | reportDone
  /-- R435 -/
  | powercap (v : Word)
  /-- R434 -/
  | printCommit (e : Nat)
  /-- R434 -/
  | printStart (e : Nat)
  /-- R434 -/
  | printDone (e : Nat)
  /-- R330 -/
  | registerWrite (a : Nat) (v : Word)
  /-- R435 -/
  | powerOn
  /-- R435 -/
  | coldReset
  /-- R392 -/
  | linkUp (speed : Nat) (width : Nat) (flit : Bool) (cxl : Bool) (atomics : Bool)
  /-- R395 -/
  | bar0Write (fn : Nat) (off : Nat) (size : Nat) (v : Word)
  /-- R395 -/
  | bar0Atomicop (fn : Nat) (off : Nat)
  /-- R396 -/
  | bar2Read (fn : Nat) (off : Nat) (size : Nat)
  /-- R396 -/
  | bar2Write (fn : Nat) (off : Nat) (bytes : List Byte)
  /-- R396 -/
  | bar2Atomicop (fn : Nat) (off : Nat) (size : Nat) (op : HostOp) (v : Nat) (w : Nat)
  /-- R397 -/
  | vfEnable (n : Nat)
  /-- R398 -/
  | vfDisable
  /-- R398 -/
  | vfFlr (p : Nat)
  /-- R398 -/
  | pfFlr
  /-- R401 -/
  | atsCompletion (i : Nat) (r : AtsAnswer)
  /-- R402 -/
  | pageRequestResponse (i : Nat) (r : PriAnswer)
  /-- R402 -/
  | priEnable (fn : Nat) (on : Bool) (alloc : Nat)
  /-- R403 -/
  | invalidateRequest (fn : Nat) (pasid : Option Nat) (lo : Nat) (hi : Nat)
  /-- R403 -/
  | invalidateCompletion
  /-- R404 -/
  | hostCompletionError (who : Asker) (ca : Bool)
  /-- R404 -/
  | completionTimeout (who : Asker)
  /-- R415 -/
  | snpdata (line : Nat)
  /-- R415 -/
  | snpinv (line : Nat)
  /-- R415 -/
  | snpcur (line : Nat)
  /-- R416 -/
  | hostCacheResponse (r : HostResp)
  /-- R418 -/
  | m2sReq (line : Nat)
  /-- R419 -/
  | m2sRwd (line : Nat) (bytes : List Byte)
  /-- R418 -/
  | birsp (line : Nat)
  /-- R420 -/
  | mode (v : Nat) (size : Nat)
  /-- R421 -/
  | flipToDeviceBias
  /-- R422 -/
  | flipToHostBias
  /-- R422 -/
  | flipDone
  /-- R405 -/
  | portUp (port : Nat) (up : Bool)
  /-- R408 -/
  | peerRequest (dev : Nat) (spart : Nat) (a : Nat) (r : PeerReq)
  /-- R405 -/
  | peerCompletion (who : Asker) (refused : Bool)
  /-- R407 -/
  | peerTimeout (who : Asker)
  /-- R96 -/
  | illegal (w : BitVec 32)
  /-- R413 -/
  | cxlCacheEnable
deriving DecidableEq, Repr

end Sys2Proof
end

