-- ==== Sys2Proof/WellFormed.lean ====
section
/-!
DEFINITION. Which instructions are well formed: the reserved field values of R95, R98, R99, R101 and R102, the even
registers and the bounds that make a word of a row illegal (R96).
-/
namespace Sys2Proof

/-- The scope of an xfence (R171): grp and code 7 are illegal. -/
def xfenceScopeOk (sc : Fin 8) : Bool := sc.val < 6

/-- Code 7 of a scope field is reserved (R98). -/
def scopeOk (c : Fin 8) : Bool := c.val < 7

/-- The tag codes 0x0B to 0x0F and 0x1A to 0x1F are reserved (R101). -/
def tagOk (t : BitVec 5) : Bool := t.toNat < 0x0B || (0x10 ≤ t.toNat && t.toNat < 0x1A)

/-- With P = 1 a lane-matrix field names a pair, so it must be even (R95). -/
def pairOk (p : Bool) (w : Fin 4) : Bool := !p || w.val % 2 == 0

/-- The instruction has no reserved value and no register outside its class (R95, R96). A machine step has no word that
could be illegal. -/
def Instr.wf (i : Instr) : Bool :=
  match i with
  | .zeroWord _ => true
  | .reservedOpcode _ => true
  | .add _ => true
  | .sub _ => true
  | .and _ => true
  | .or _ => true
  | .xor _ => true
  | .andn _ => true
  | .orn _ => true
  | .shl _ => true
  | .shr _ => true
  | .sar _ => true
  | .rol _ => true
  | .ror _ => true
  | .slt _ => true
  | .sltu _ => true
  | .min _ => true
  | .max _ => true
  | .minu _ => true
  | .maxu _ => true
  | .mul _ => true
  | .mulh _ => true
  | .mulhu _ => true
  | .div _ => true
  | .divu _ => true
  | .rem _ => true
  | .remu _ => true
  | .clz _ => true
  | .ctz _ => true
  | .popc _ => true
  | .bswap _ => true
  | .sextB _ => true
  | .sextH _ => true
  | .sextW _ => true
  | .zextW _ => true
  | .addi _ => true
  | .andi _ => true
  | .ori _ => true
  | .xori _ => true
  | .shli _ => true
  | .shri _ => true
  | .sari _ => true
  | .roli _ => true
  | .slti _ => true
  | .sltiu _ => true
  | .setk _ => true
  | .setz _ => true
  | .addpc _ => true
  | .brEq _ => true
  | .brNe _ => true
  | .brLt _ => true
  | .brGe _ => true
  | .brLtu _ => true
  | .brGeu _ => true
  | .brmAny _ => true
  | .brmAll _ => true
  | .brmNone _ => true
  | .jal _ => true
  | .jalr _ => true
  | .loop x => x.len != 0
  | .loopi x => x.len != 0 && x.cnt != 0
  | .lbrk => true
  | .rpt _ => true
  | .ldBz _ => true
  | .ldBs _ => true
  | .ldHz _ => true
  | .ldHs _ => true
  | .ldWz _ => true
  | .ldWs _ => true
  | .ldD _ => true
  | .stB _ => true
  | .stH _ => true
  | .stW _ => true
  | .stD _ => true
  | .ldp x => x.t.val % 2 == 0
  | .stp x => x.t.val % 2 == 0
  | .ldacq x => scopeOk x.sc && !(x.size == 3 && x.sign)
  | .strel x => scopeOk x.sc
  | .amoAdd x => scopeOk x.sc
  | .amoAnd x => scopeOk x.sc
  | .amoOr x => scopeOk x.sc
  | .amoXor x => scopeOk x.sc
  | .amoMin x => scopeOk x.sc
  | .amoMax x => scopeOk x.sc
  | .amoMinu x => scopeOk x.sc
  | .amoMaxu x => scopeOk x.sc
  | .amoSwap x => scopeOk x.sc
  | .cas x => scopeOk x.sc
  | .casQ x => scopeOk x.sc && x.b.val % 2 == 0 && x.c.val % 2 == 0 && x.d.val % 2 == 0
  | .fenceAcq x => scopeOk x.sc
  | .fenceRel x => scopeOk x.sc
  | .fenceAr x => scopeOk x.sc
  | .fenceSc x => scopeOk x.sc
  | .xfenceAll x => xfenceScopeOk x.sc
  | .xfenceSpace x => xfenceScopeOk x.sc
  | .xfencePage x => xfenceScopeOk x.sc
  | .waita x => x.cond.val < 4
  | .barArr x => scopeOk x.sc
  | .barWait x => scopeOk x.sc
  | .barAw x => scopeOk x.sc
  | .clineClean x => scopeOk x.sc
  | .clineInv x => scopeOk x.sc
  | .clineFlush x => scopeOk x.sc
  | .clineZero x => scopeOk x.sc
  | .stashMap _ => true
  | .stashUnmap _ => true
  | .stashFlush _ => true
  | .stashPin _ => true
  | .stashUnpin _ => true
  | .prefL2 _ => true
  | .prefLlc _ => true
  | .prefStash _ => true
  | .rdspr _ => true
  | .wrspr _ => true
  | .vadd _ => true
  | .vsub _ => true
  | .vmul _ => true
  | .vmin _ => true
  | .vmax _ => true
  | .vand _ => true
  | .vor _ => true
  | .vxor _ => true
  | .vshl _ => true
  | .vshr _ => true
  | .vsar _ => true
  | .vabd _ => true
  | .vavg _ => true
  | .vadds _ => true
  | .vsubs _ => true
  | .vmulh _ => true
  | .vaddS _ => true
  | .vsubS _ => true
  | .vmulS _ => true
  | .vminS _ => true
  | .vmaxS _ => true
  | .vandS _ => true
  | .vorS _ => true
  | .vxorS _ => true
  | .vshlS _ => true
  | .vshrS _ => true
  | .vsarS _ => true
  | .vabdS _ => true
  | .vavgS _ => true
  | .vaddsS _ => true
  | .vsubsS _ => true
  | .vmulhS _ => true
  | .vaddI _ => true
  | .vsubI _ => true
  | .vmulI _ => true
  | .vminI _ => true
  | .vmaxI _ => true
  | .vandI _ => true
  | .vorI _ => true
  | .vxorI _ => true
  | .vshlI _ => true
  | .vshrI _ => true
  | .vsarI _ => true
  | .vabdI _ => true
  | .vavgI _ => true
  | .vaddsI _ => true
  | .vsubsI _ => true
  | .vmulhI _ => true
  | .vfma _ => true
  | .vfms _ => true
  | .vfnma _ => true
  | .vfnms _ => true
  | .vmacw _ => true
  | .vcmpEq _ => true
  | .vcmpNe _ => true
  | .vcmpLt _ => true
  | .vcmpLe _ => true
  | .vcmpGt _ => true
  | .vcmpGe _ => true
  | .vcmpUn _ => true
  | .vsel _ => true
  | .vcvt x => x.rnd.val != 6
  | .vshrr _ => true
  | .vdiv _ => true
  | .vsqrt _ => true
  | .vrcp _ => true
  | .vrsqrt _ => true
  | .vexp2 _ => true
  | .vlog2 _ => true
  | .vdot _ => true
  | .vredSum _ => true
  | .vredMax _ => true
  | .vredMin _ => true
  | .vredAnd _ => true
  | .vredOr _ => true
  | .vredXor _ => true
  | .vsign _ => true
  | .vmov _ => true
  | .vsplat _ => true
  | .vsplati _ => true
  | .vget _ => true
  | .vput _ => true
  | .vtag x => tagOk x.tag && x.d.val % 2 ^ x.grp.val == 0 && decide (x.d.val + 2 ^ x.grp.val ≤ 32) && (x.scaled || x.comp == 0)
  | .setvl x => tagOk x.tag
  | .vslideUp x => x.fill.val < 3 && (x.fill == 2 || x.c == 0)
  | .vslideDn x => x.fill.val < 3 && (x.fill == 2 || x.c == 0)
  | .vld x => x.pol.val < 3
  | .vst x => x.pol.val < 3
  | .vlds x => x.pol.val < 3
  | .vsts x => x.pol.val < 3
  | .vldx x => x.pol.val < 3
  | .vldxC _ => true
  | .vldxDup x => x.pol.val < 3
  | .vstx x => x.pol.val < 3
  | .vamoAdd _ => true
  | .vamoAnd _ => true
  | .vamoOr _ => true
  | .vamoXor _ => true
  | .vamoMin _ => true
  | .vamoMax _ => true
  | .vamoMinu _ => true
  | .vamoMaxu _ => true
  | .vamoSwap _ => true
  | .vcomp _ => true
  | .vexpand _ => true
  | .vperm _ => true
  | .vzip _ => true
  | .vunzip _ => true
  | .vtrn _ => true
  | .kand _ => true
  | .kor _ => true
  | .kxor _ => true
  | .knot _ => true
  | .kandn _ => true
  | .kpopc _ => true
  | .kfirst _ => true
  | .kvl _ => true
  | .kfrom _ => true
  | .vlk _ => true
  | .vmcast _ => true
  | .vrecv _ => true
  | .viota _ => true
  | .vidx _ => true
  | .vflgRd _ => true
  | .vflgClr _ => true
  | .wld x => pairOk x.p x.w
  | .wst x => pairOk x.p x.w
  | .wmul x => pairOk x.p x.d && pairOk x.p x.a && pairOk x.p x.b
  | .wmac x => pairOk x.p x.d && pairOk x.p x.a && pairOk x.p x.b
  | .wmult x => pairOk x.p x.d && pairOk x.p x.a && pairOk x.p x.b
  | .wchol x => pairOk x.p x.d
  | .wlu x => pairOk x.p x.d
  | .wsolveC x => pairOk x.p x.d && pairOk x.p x.a
  | .wsolveP x => pairOk x.p x.d && pairOk x.p x.a
  | .wadd x => pairOk x.p x.d && pairOk x.p x.a && pairOk x.p x.b
  | .wsub x => pairOk x.p x.d && pairOk x.p x.a && pairOk x.p x.b
  | .wscal x => pairOk x.p x.d && pairOk x.p x.a
  | .wtrn x => pairOk x.p x.d && pairOk x.p x.a
  | .wid x => pairOk x.p x.d
  | .wcpy x => pairOk x.p x.d && pairOk x.p x.a
  | .wdim x => 0 < x.rows.val && x.rows.val < 7 && 0 < x.cols.val && x.cols.val < 7
  | .wget x => pairOk x.p x.a && x.row.val < 6 && x.col.val < 6
  | .wput x => pairOk x.p x.d && x.row.val < 6 && x.col.val < 6
  | .tclaim _ => true
  | .trel _ => true
  | .tacc _ => true
  | .tmma x => x.fa != x.fb && tagOk x.ta && tagOk x.tb
  | .tmms x => x.fa != x.fb && tagOk x.tg
  | .tread _ => true
  | .twrite _ => true
  | .twait _ => true
  | .tepi x => x.act.val < 4 && x.x.val < 31
  | .fopen _ => true
  | .fclose _ => true
  | .fdrop _ => true
  | .fstat _ => true
  | .cpy _ => true
  | .cpyM _ => true
  | .gath _ => true
  | .chanWm x => !x.e
  | .chanWait x => !x.e
  | .chanCancel x => !x.e
  | .chanStat x => !x.e
  | .enqTask _ => true
  | .enqLaunch _ => true
  | .depd _ => true
  | .pgrant _ => true
  | .tdone => true
  | .lsplit _ => true
  | .ljoin => true
  | .yield => true
  | .trap _ => true
  | .tret => true
  | .shut => true
  | .halt => true
  | .brk _ => true
  | .probe _ => true
  | .vectorStart _ => true
  | .groupCommit _ => true
  | .vectorComplete _ => true
  | .heldPerform _ => true
  | .loadReturn _ _ => true
  | .divideResult _ _ => true
  | .detachedComplete _ _ => true
  | .tmmaStart _ _ => true
  | .vmcastReserve _ => true
  | .vmcastLand _ => true
  | .vrecvBind _ => true
  | .waitaWake _ => true
  | .waitaPoll _ => true
  | .waitaTimeout _ => true
  | .barWake _ => true
  | .channelCommandStart _ => true
  | .grainMove _ => true
  | .copyComplete _ => true
  | .trapInContext _ => true
  | .trapToKeeper _ => true
  | .eventPlace _ => true
  | .successorPlace _ => true
  | .sliceEnd _ => true
  | .resumeSaved _ => true
  | .selection _ => true
  | .bind _ => true
  | .stagingStart _ _ _ => true
  | .granuleMove _ _ => true
  | .stopComplete _ => true
  | .ownershipPass _ _ => true
  | .register _ _ => true
  | .exportWord _ _ => true
  | .deliver _ _ => true
  | .rd _ _ => true
  | .wr _ _ => true
  | .wro _ _ => true
  | .drop _ _ => true
  | .dropl _ _ => true
  | .wbl _ _ => true
  | .snoop _ => true
  | .cmo _ => true
  | .purge _ => true
  | .errorDetected _ => true
  | .ctlStop _ => true
  | .ctlResume _ => true
  | .ctlStep _ => true
  | .ctlDiscard _ => true
  | .root _ _ => true
  | .head _ _ => true
  | .en _ _ => true
  | .counter _ _ _ => true
  | .channelResume _ => true
  | .channelCancel _ => true
  | .coreCommit _ => true
  | .partitionReset _ => true
  | .partitionResetDone _ => true
  | .window _ _ _ => true
  | .qcount _ _ => true
  | .printmask _ _ => true
  | .pingran _ _ => true
  | .load _ => true
  | .slotDrainDone _ => true
  | .save => true
  | .saveDone => true
  | .restore => true
  | .restoreDone => true
  | .abort => true
  | .fire => true
  | .rearm => true
  | .evcount => true
  | .reportRequest => true
  | .reportDone => true
  | .powercap _ => true
  | .printCommit _ => true
  | .printStart _ => true
  | .printDone _ => true
  | .registerWrite _ _ => true
  | .powerOn => true
  | .coldReset => true
  | .linkUp _ _ _ _ _ => true
  | .bar0Write _ _ _ _ => true
  | .bar0Atomicop _ _ => true
  | .bar2Read _ _ _ => true
  | .bar2Write _ _ _ => true
  | .bar2Atomicop _ _ _ _ _ _ => true
  | .vfEnable _ => true
  | .vfDisable => true
  | .vfFlr _ => true
  | .pfFlr => true
  | .atsCompletion _ _ => true
  | .pageRequestResponse _ _ => true
  | .priEnable _ _ _ => true
  | .invalidateRequest _ _ _ _ => true
  | .invalidateCompletion => true
  | .hostCompletionError _ _ => true
  | .completionTimeout _ => true
  | .snpdata _ => true
  | .snpinv _ => true
  | .snpcur _ => true
  | .hostCacheResponse _ => true
  | .m2sReq _ => true
  | .m2sRwd _ _ => true
  | .birsp _ => true
  | .mode _ _ => true
  | .flipToDeviceBias => true
  | .flipToHostBias => true
  | .flipDone => true
  | .portUp _ _ => true
  | .peerRequest _ _ _ _ => true
  | .peerCompletion _ _ => true
  | .peerTimeout _ => true
  | .illegal _ => false
  | .cxlCacheEnable => true

end Sys2Proof
end

