-- ==== Sys2Proof/Decode.lean ====
section
/-!
DEFINITION. The decoder: the operands of each format, the row of the opcode table a word is of (R88 to R95), the fate of
illegal words (R96), and fetching from bytes (R7, R88); after it the encoder, from the same tables.
-/
namespace Sys2Proof

/-- The operands of a word whose opcode is 0x00 (R89). -/
def ZeroW.dec (w : Nat) : ZeroW where
  rest := BitVec.ofNat 25 (w / 2 ^ 7)

/-- The bits those operands take in a word (R89). -/
def ZeroW.enc (x : ZeroW) : Nat :=
  x.rest.toNat * 128

/-- The operands of a word of a reserved opcode (R89). -/
def ResW.dec (w : Nat) : ResW where
  rest := BitVec.ofNat 25 (w / 2 ^ 7)
  low := BitVec.ofNat 5 (w / 2 ^ 0)

/-- The bits those operands take in a word (R89). -/
def ResW.enc (x : ResW) : Nat :=
  x.rest.toNat * 128 + x.low.toNat * 1

/-- The operands of a word of the R format, two scalar sources (R89). -/
def Alu2.dec (w : Nat) : Alu2 where
  eb := decide (w / 2 ^ 26 % 2 = 1)
  ea := decide (w / 2 ^ 25 % 2 = 1)
  b := Fin.ofNat 32 (w / 2 ^ 17)
  a := Fin.ofNat 32 (w / 2 ^ 12)
  d := Fin.ofNat 32 (w / 2 ^ 7)

/-- The bits those operands take in a word (R89). -/
def Alu2.enc (x : Alu2) : Nat :=
  x.eb.toNat * 67108864 + x.ea.toNat * 33554432 + x.b.val * 131072 + x.a.val * 4096 + x.d.val * 128

/-- The operands of a word of the R format, one scalar source (R89). -/
def Alu1.dec (w : Nat) : Alu1 where
  ea := decide (w / 2 ^ 25 % 2 = 1)
  a := Fin.ofNat 32 (w / 2 ^ 12)
  d := Fin.ofNat 32 (w / 2 ^ 7)

/-- The bits those operands take in a word (R89). -/
def Alu1.enc (x : Alu1) : Nat :=
  x.ea.toNat * 33554432 + x.a.val * 4096 + x.d.val * 128

/-- The operands of a word of the I format with a 14-bit immediate (R89). -/
def ImmI.dec (w : Nat) : ImmI where
  imm := BitVec.ofNat 14 (w / 2 ^ 18)
  ea := decide (w / 2 ^ 17 % 2 = 1)
  a := Fin.ofNat 32 (w / 2 ^ 12)
  d := Fin.ofNat 32 (w / 2 ^ 7)

/-- The bits those operands take in a word (R89). -/
def ImmI.enc (x : ImmI) : Nat :=
  x.imm.toNat * 262144 + x.ea.toNat * 131072 + x.a.val * 4096 + x.d.val * 128

/-- The operands of a word of the I format with a shift amount (R89). -/
def ShI.dec (w : Nat) : ShI where
  amt := BitVec.ofNat 6 (w / 2 ^ 18)
  ea := decide (w / 2 ^ 17 % 2 = 1)
  a := Fin.ofNat 32 (w / 2 ^ 12)
  d := Fin.ofNat 32 (w / 2 ^ 7)

/-- The bits those operands take in a word (R89). -/
def ShI.enc (x : ShI) : Nat :=
  x.amt.toNat * 262144 + x.ea.toNat * 131072 + x.a.val * 4096 + x.d.val * 128

/-- The operands of a word of the I format with a 13-bit immediate (R89). -/
def SltI.dec (w : Nat) : SltI where
  imm := BitVec.ofNat 13 (w / 2 ^ 18)
  ea := decide (w / 2 ^ 17 % 2 = 1)
  a := Fin.ofNat 32 (w / 2 ^ 12)
  d := Fin.ofNat 32 (w / 2 ^ 7)

/-- The bits those operands take in a word (R89). -/
def SltI.enc (x : SltI) : Nat :=
  x.imm.toNat * 262144 + x.ea.toNat * 131072 + x.a.val * 4096 + x.d.val * 128

/-- The operands of a word of the U format (R89). -/
def SetK.dec (w : Nat) : SetK where
  imm := BitVec.ofNat 16 (w / 2 ^ 15)
  slot := Fin.ofNat 4 (w / 2 ^ 12)
  d := Fin.ofNat 32 (w / 2 ^ 7)

/-- The bits those operands take in a word (R89). -/
def SetK.enc (x : SetK) : Nat :=
  x.imm.toNat * 32768 + x.slot.val * 4096 + x.d.val * 128

/-- The operands of a word of the J format (R89). -/
def OffD.dec (w : Nat) : OffD where
  off := BitVec.ofNat 20 (w / 2 ^ 12)
  d := Fin.ofNat 32 (w / 2 ^ 7)

/-- The bits those operands take in a word (R89). -/
def OffD.enc (x : OffD) : Nat :=
  x.off.toNat * 4096 + x.d.val * 128

/-- The operands of a word of the B format (R89). -/
def BrC.dec (w : Nat) : BrC where
  off := BitVec.ofNat 12 (w / 2 ^ 20)
  b := Fin.ofNat 32 (w / 2 ^ 12)
  a := Fin.ofNat 32 (w / 2 ^ 7)

/-- The bits those operands take in a word (R89). -/
def BrC.enc (x : BrC) : Nat :=
  x.off.toNat * 1048576 + x.b.val * 4096 + x.a.val * 128

/-- The operands of a word of the M format (R89). -/
def BrM.dec (w : Nat) : BrM where
  off := BitVec.ofNat 20 (w / 2 ^ 12)
  k := Fin.ofNat 8 (w / 2 ^ 7)

/-- The bits those operands take in a word (R89). -/
def BrM.enc (x : BrM) : Nat :=
  x.off.toNat * 4096 + x.k.val * 128

/-- The operands of a word of the L format (R89). -/
def LoopR.dec (w : Nat) : LoopR where
  len := BitVec.ofNat 12 (w / 2 ^ 13)
  cnt := Fin.ofNat 32 (w / 2 ^ 7)

/-- The bits those operands take in a word (R89). -/
def LoopR.enc (x : LoopR) : Nat :=
  x.len.toNat * 8192 + x.cnt.val * 128

/-- The operands of a word of the P format (R89). -/
def RptF.dec (w : Nat) : RptF where
  sc := Fin.ofNat 4 (w / 2 ^ 22)
  sb := Fin.ofNat 4 (w / 2 ^ 20)
  sa := Fin.ofNat 4 (w / 2 ^ 18)
  sd := Fin.ofNat 4 (w / 2 ^ 16)
  cnt := BitVec.ofNat 5 (w / 2 ^ 11)
  len := BitVec.ofNat 4 (w / 2 ^ 7)

/-- The bits those operands take in a word (R89). -/
def RptF.enc (x : RptF) : Nat :=
  x.sc.val * 4194304 + x.sb.val * 1048576 + x.sa.val * 262144 + x.sd.val * 65536 + x.cnt.toNat * 2048 + x.len.toNat * 128

/-- The operands of a word of the S format (R89). -/
def LdSt.dec (w : Nat) : LdSt where
  off := BitVec.ofNat 11 (w / 2 ^ 21)
  e := decide (w / 2 ^ 20 % 2 = 1)
  a := Fin.ofNat 32 (w / 2 ^ 12)
  t := Fin.ofNat 32 (w / 2 ^ 7)

/-- The bits those operands take in a word (R89). -/
def LdSt.enc (x : LdSt) : Nat :=
  x.off.toNat * 2097152 + x.e.toNat * 1048576 + x.a.val * 4096 + x.t.val * 128

/-- The operands of a word of the S format of the acquire load (R89). -/
def LdAcq.dec (w : Nat) : LdAcq where
  off := BitVec.ofNat 8 (w / 2 ^ 24)
  sc := Fin.ofNat 8 (w / 2 ^ 21)
  e := decide (w / 2 ^ 20 % 2 = 1)
  sign := decide (w / 2 ^ 19 % 2 = 1)
  size := Fin.ofNat 4 (w / 2 ^ 17)
  a := Fin.ofNat 32 (w / 2 ^ 12)
  t := Fin.ofNat 32 (w / 2 ^ 7)

/-- The bits those operands take in a word (R89). -/
def LdAcq.enc (x : LdAcq) : Nat :=
  x.off.toNat * 16777216 + x.sc.val * 2097152 + x.e.toNat * 1048576 + x.sign.toNat * 524288 + x.size.val * 131072 + x.a.val * 4096 + x.t.val * 128

/-- The operands of a word of the S format of the release store (R89). -/
def StRel.dec (w : Nat) : StRel where
  off := BitVec.ofNat 8 (w / 2 ^ 24)
  sc := Fin.ofNat 8 (w / 2 ^ 21)
  e := decide (w / 2 ^ 20 % 2 = 1)
  size := Fin.ofNat 4 (w / 2 ^ 17)
  a := Fin.ofNat 32 (w / 2 ^ 12)
  t := Fin.ofNat 32 (w / 2 ^ 7)

/-- The bits those operands take in a word (R89). -/
def StRel.enc (x : StRel) : Nat :=
  x.off.toNat * 16777216 + x.sc.val * 2097152 + x.e.toNat * 1048576 + x.size.val * 131072 + x.a.val * 4096 + x.t.val * 128

/-- The operands of a word of the R4 format of the atomic updates (R89). -/
def AmoF.dec (w : Nat) : AmoF where
  rel := decide (w / 2 ^ 31 % 2 = 1)
  e := decide (w / 2 ^ 30 % 2 = 1)
  sc := Fin.ofNat 8 (w / 2 ^ 27)
  acq := decide (w / 2 ^ 26 % 2 = 1)
  b := Fin.ofNat 32 (w / 2 ^ 17)
  a := Fin.ofNat 32 (w / 2 ^ 12)
  d := Fin.ofNat 32 (w / 2 ^ 7)

/-- The bits those operands take in a word (R89). -/
def AmoF.enc (x : AmoF) : Nat :=
  x.rel.toNat * 2147483648 + x.e.toNat * 1073741824 + x.sc.val * 134217728 + x.acq.toNat * 67108864 + x.b.val * 131072 + x.a.val * 4096 + x.d.val * 128

/-- The operands of a word of the R4 format of the compare and swap (R89). -/
def CasF.dec (w : Nat) : CasF where
  e := decide (w / 2 ^ 30 % 2 = 1)
  sc := Fin.ofNat 8 (w / 2 ^ 27)
  c := Fin.ofNat 32 (w / 2 ^ 22)
  b := Fin.ofNat 32 (w / 2 ^ 17)
  a := Fin.ofNat 32 (w / 2 ^ 12)
  d := Fin.ofNat 32 (w / 2 ^ 7)

/-- The bits those operands take in a word (R89). -/
def CasF.enc (x : CasF) : Nat :=
  x.e.toNat * 1073741824 + x.sc.val * 134217728 + x.c.val * 4194304 + x.b.val * 131072 + x.a.val * 4096 + x.d.val * 128

/-- The operands of a word of the R format with a scope only (R89). -/
def ScopeF.dec (w : Nat) : ScopeF where
  sc := Fin.ofNat 8 (w / 2 ^ 22)

/-- The bits those operands take in a word (R89). -/
def ScopeF.enc (x : ScopeF) : Nat :=
  x.sc.val * 4194304

/-- The operands of a word of the R format with a scope and one scalar source (R89). -/
def ScopeA.dec (w : Nat) : ScopeA where
  ea := decide (w / 2 ^ 25 % 2 = 1)
  sc := Fin.ofNat 8 (w / 2 ^ 22)
  a := Fin.ofNat 32 (w / 2 ^ 12)

/-- The bits those operands take in a word (R89). -/
def ScopeA.enc (x : ScopeA) : Nat :=
  x.ea.toNat * 33554432 + x.sc.val * 4194304 + x.a.val * 4096

/-- The operands of a word of the R4 format of waita (R89). -/
def WaitaF.dec (w : Nat) : WaitaF where
  e := decide (w / 2 ^ 30 % 2 = 1)
  cond := Fin.ofNat 8 (w / 2 ^ 27)
  c := Fin.ofNat 32 (w / 2 ^ 22)
  b := Fin.ofNat 32 (w / 2 ^ 17)
  a := Fin.ofNat 32 (w / 2 ^ 12)
  d := Fin.ofNat 32 (w / 2 ^ 7)

/-- The bits those operands take in a word (R89). -/
def WaitaF.enc (x : WaitaF) : Nat :=
  x.e.toNat * 1073741824 + x.cond.val * 134217728 + x.c.val * 4194304 + x.b.val * 131072 + x.a.val * 4096 + x.d.val * 128

/-- The operands of a word of the R format of the barriers (R89). -/
def BarF.dec (w : Nat) : BarF where
  eb := decide (w / 2 ^ 26 % 2 = 1)
  ea := decide (w / 2 ^ 25 % 2 = 1)
  sc := Fin.ofNat 8 (w / 2 ^ 22)
  b := Fin.ofNat 32 (w / 2 ^ 17)
  a := Fin.ofNat 32 (w / 2 ^ 12)
  d := Fin.ofNat 32 (w / 2 ^ 7)

/-- The bits those operands take in a word (R89). -/
def BarF.enc (x : BarF) : Nat :=
  x.eb.toNat * 67108864 + x.ea.toNat * 33554432 + x.sc.val * 4194304 + x.b.val * 131072 + x.a.val * 4096 + x.d.val * 128

/-- The operands of a word of the R format of the stash forms but map (R89). -/
def StashB.dec (w : Nat) : StashB where
  eb := decide (w / 2 ^ 26 % 2 = 1)
  b := Fin.ofNat 32 (w / 2 ^ 17)
  d := Fin.ofNat 32 (w / 2 ^ 7)

/-- The bits those operands take in a word (R89). -/
def StashB.enc (x : StashB) : Nat :=
  x.eb.toNat * 67108864 + x.b.val * 131072 + x.d.val * 128

/-- The operands of a word of the R format of the prefetches (R89). -/
def PrefF.dec (w : Nat) : PrefF where
  ea := decide (w / 2 ^ 25 % 2 = 1)
  a := Fin.ofNat 32 (w / 2 ^ 12)

/-- The bits those operands take in a word (R89). -/
def PrefF.enc (x : PrefF) : Nat :=
  x.ea.toNat * 33554432 + x.a.val * 4096

/-- The operands of a word of the I format of rdspr (R89). -/
def RdSpr.dec (w : Nat) : RdSpr where
  spr := BitVec.ofNat 12 (w / 2 ^ 18)
  d := Fin.ofNat 32 (w / 2 ^ 7)

/-- The bits those operands take in a word (R89). -/
def RdSpr.enc (x : RdSpr) : Nat :=
  x.spr.toNat * 262144 + x.d.val * 128

/-- The operands of a word of the I format of wrspr (R89). -/
def WrSpr.dec (w : Nat) : WrSpr where
  spr := BitVec.ofNat 12 (w / 2 ^ 18)
  ea := decide (w / 2 ^ 17 % 2 = 1)
  a := Fin.ofNat 32 (w / 2 ^ 12)

/-- The bits those operands take in a word (R89). -/
def WrSpr.enc (x : WrSpr) : Nat :=
  x.spr.toNat * 262144 + x.ea.toNat * 131072 + x.a.val * 4096

/-- The operands of a word of the R format, governed by a mask, two sources (R89). -/
def V3.dec (w : Nat) : V3 where
  eb := decide (w / 2 ^ 26 % 2 = 1)
  ea := decide (w / 2 ^ 25 % 2 = 1)
  k := Fin.ofNat 8 (w / 2 ^ 22)
  b := Fin.ofNat 32 (w / 2 ^ 17)
  a := Fin.ofNat 32 (w / 2 ^ 12)
  d := Fin.ofNat 32 (w / 2 ^ 7)

/-- The bits those operands take in a word (R89). -/
def V3.enc (x : V3) : Nat :=
  x.eb.toNat * 67108864 + x.ea.toNat * 33554432 + x.k.val * 4194304 + x.b.val * 131072 + x.a.val * 4096 + x.d.val * 128

/-- The operands of a word of the R format with a signed 5-bit immediate (R89). -/
def VImm.dec (w : Nat) : VImm where
  ea := decide (w / 2 ^ 25 % 2 = 1)
  k := Fin.ofNat 8 (w / 2 ^ 22)
  imm := BitVec.ofNat 5 (w / 2 ^ 17)
  a := Fin.ofNat 32 (w / 2 ^ 12)
  d := Fin.ofNat 32 (w / 2 ^ 7)

/-- The bits those operands take in a word (R89). -/
def VImm.enc (x : VImm) : Nat :=
  x.ea.toNat * 33554432 + x.k.val * 4194304 + x.imm.toNat * 131072 + x.a.val * 4096 + x.d.val * 128

/-- The operands of a word of the R format with a 4-bit shift amount (R89). -/
def VShImm.dec (w : Nat) : VShImm where
  ea := decide (w / 2 ^ 25 % 2 = 1)
  k := Fin.ofNat 8 (w / 2 ^ 22)
  amt := BitVec.ofNat 4 (w / 2 ^ 17)
  a := Fin.ofNat 32 (w / 2 ^ 12)
  d := Fin.ofNat 32 (w / 2 ^ 7)

/-- The bits those operands take in a word (R89). -/
def VShImm.enc (x : VShImm) : Nat :=
  x.ea.toNat * 33554432 + x.k.val * 4194304 + x.amt.toNat * 131072 + x.a.val * 4096 + x.d.val * 128

/-- The operands of a word of the R format of the compares: d names a mask (R89). -/
def VCmp.dec (w : Nat) : VCmp where
  eb := decide (w / 2 ^ 26 % 2 = 1)
  ea := decide (w / 2 ^ 25 % 2 = 1)
  k := Fin.ofNat 8 (w / 2 ^ 22)
  b := Fin.ofNat 32 (w / 2 ^ 17)
  a := Fin.ofNat 32 (w / 2 ^ 12)
  d := Fin.ofNat 8 (w / 2 ^ 7)

/-- The bits those operands take in a word (R89). -/
def VCmp.enc (x : VCmp) : Nat :=
  x.eb.toNat * 67108864 + x.ea.toNat * 33554432 + x.k.val * 4194304 + x.b.val * 131072 + x.a.val * 4096 + x.d.val * 128

/-- The operands of a word of the R format of vcvt (R89). -/
def VCvt.dec (w : Nat) : VCvt where
  rnd := Fin.ofNat 8 (w / 2 ^ 27)
  ea := decide (w / 2 ^ 25 % 2 = 1)
  k := Fin.ofNat 8 (w / 2 ^ 22)
  a := Fin.ofNat 32 (w / 2 ^ 12)
  d := Fin.ofNat 32 (w / 2 ^ 7)

/-- The bits those operands take in a word (R89). -/
def VCvt.enc (x : VCvt) : Nat :=
  x.rnd.val * 134217728 + x.ea.toNat * 33554432 + x.k.val * 4194304 + x.a.val * 4096 + x.d.val * 128

/-- The operands of a word of the R format of vshrr (R89). -/
def VShrr.dec (w : Nat) : VShrr where
  scalar := decide (w / 2 ^ 28 % 2 = 1)
  narrow := decide (w / 2 ^ 27 % 2 = 1)
  eb := decide (w / 2 ^ 26 % 2 = 1)
  ea := decide (w / 2 ^ 25 % 2 = 1)
  k := Fin.ofNat 8 (w / 2 ^ 22)
  b := Fin.ofNat 32 (w / 2 ^ 17)
  a := Fin.ofNat 32 (w / 2 ^ 12)
  d := Fin.ofNat 32 (w / 2 ^ 7)

/-- The bits those operands take in a word (R89). -/
def VShrr.enc (x : VShrr) : Nat :=
  x.scalar.toNat * 268435456 + x.narrow.toNat * 134217728 + x.eb.toNat * 67108864 + x.ea.toNat * 33554432 + x.k.val * 4194304 + x.b.val * 131072 + x.a.val * 4096 + x.d.val * 128

/-- The operands of a word of the R format, governed by a mask, one source (R89). -/
def V2.dec (w : Nat) : V2 where
  ea := decide (w / 2 ^ 25 % 2 = 1)
  k := Fin.ofNat 8 (w / 2 ^ 22)
  a := Fin.ofNat 32 (w / 2 ^ 12)
  d := Fin.ofNat 32 (w / 2 ^ 7)

/-- The bits those operands take in a word (R89). -/
def V2.enc (x : V2) : Nat :=
  x.ea.toNat * 33554432 + x.k.val * 4194304 + x.a.val * 4096 + x.d.val * 128

/-- The operands of a word of the R format of the reductions: d names a scalar (R89). -/
def VRed.dec (w : Nat) : VRed where
  ord := decide (w / 2 ^ 30 % 2 = 1)
  ea := decide (w / 2 ^ 25 % 2 = 1)
  k := Fin.ofNat 8 (w / 2 ^ 22)
  a := Fin.ofNat 32 (w / 2 ^ 12)
  d := Fin.ofNat 32 (w / 2 ^ 7)

/-- The bits those operands take in a word (R89). -/
def VRed.enc (x : VRed) : Nat :=
  x.ord.toNat * 1073741824 + x.ea.toNat * 33554432 + x.k.val * 4194304 + x.a.val * 4096 + x.d.val * 128

/-- The operands of a word of the R format of vsplati (R89). -/
def VSplatI.dec (w : Nat) : VSplatI where
  k := Fin.ofNat 8 (w / 2 ^ 22)
  imm := BitVec.ofNat 10 (w / 2 ^ 12)
  d := Fin.ofNat 32 (w / 2 ^ 7)

/-- The bits those operands take in a word (R89). -/
def VSplatI.enc (x : VSplatI) : Nat :=
  x.k.val * 4194304 + x.imm.toNat * 4096 + x.d.val * 128

/-- The operands of a word of the I format of vtag (R89). -/
def VTag.dec (w : Nat) : VTag where
  comp := Fin.ofNat 32 (w / 2 ^ 26)
  scaled := decide (w / 2 ^ 25 % 2 = 1)
  grp := Fin.ofNat 4 (w / 2 ^ 23)
  tag := BitVec.ofNat 5 (w / 2 ^ 18)
  d := Fin.ofNat 32 (w / 2 ^ 7)

/-- The bits those operands take in a word (R89). -/
def VTag.enc (x : VTag) : Nat :=
  x.comp.val * 67108864 + x.scaled.toNat * 33554432 + x.grp.val * 8388608 + x.tag.toNat * 262144 + x.d.val * 128

/-- The operands of a word of the I format of setvl (R89). -/
def SetVl.dec (w : Nat) : SetVl where
  grp := Fin.ofNat 4 (w / 2 ^ 23)
  tag := BitVec.ofNat 5 (w / 2 ^ 18)
  ea := decide (w / 2 ^ 17 % 2 = 1)
  a := Fin.ofNat 32 (w / 2 ^ 12)
  d := Fin.ofNat 32 (w / 2 ^ 7)

/-- The bits those operands take in a word (R89). -/
def SetVl.enc (x : SetVl) : Nat :=
  x.grp.val * 8388608 + x.tag.toNat * 262144 + x.ea.toNat * 131072 + x.a.val * 4096 + x.d.val * 128

/-- The operands of a word of the R4 format of the slides (R89). -/
def VSlide.dec (w : Nat) : VSlide where
  e := decide (w / 2 ^ 30 % 2 = 1)
  fill := Fin.ofNat 8 (w / 2 ^ 27)
  c := Fin.ofNat 32 (w / 2 ^ 22)
  b := Fin.ofNat 32 (w / 2 ^ 17)
  a := Fin.ofNat 32 (w / 2 ^ 12)
  d := Fin.ofNat 32 (w / 2 ^ 7)

/-- The bits those operands take in a word (R89). -/
def VSlide.enc (x : VSlide) : Nat :=
  x.e.toNat * 1073741824 + x.fill.val * 134217728 + x.c.val * 4194304 + x.b.val * 131072 + x.a.val * 4096 + x.d.val * 128

/-- The operands of a word of the V format without x (R89). -/
def VMem.dec (w : Nat) : VMem where
  pol := Fin.ofNat 4 (w / 2 ^ 28)
  e := decide (w / 2 ^ 27 % 2 = 1)
  bb := decide (w / 2 ^ 26 % 2 = 1)
  o := decide (w / 2 ^ 25 % 2 = 1)
  k := Fin.ofNat 8 (w / 2 ^ 22)
  a := Fin.ofNat 32 (w / 2 ^ 12)
  t := Fin.ofNat 32 (w / 2 ^ 7)

/-- The bits those operands take in a word (R89). -/
def VMem.enc (x : VMem) : Nat :=
  x.pol.val * 268435456 + x.e.toNat * 134217728 + x.bb.toNat * 67108864 + x.o.toNat * 33554432 + x.k.val * 4194304 + x.a.val * 4096 + x.t.val * 128

/-- The operands of a word of the V format (R89). -/
def VMemX.dec (w : Nat) : VMemX where
  pol := Fin.ofNat 4 (w / 2 ^ 28)
  e := decide (w / 2 ^ 27 % 2 = 1)
  bb := decide (w / 2 ^ 26 % 2 = 1)
  o := decide (w / 2 ^ 25 % 2 = 1)
  k := Fin.ofNat 8 (w / 2 ^ 22)
  x := Fin.ofNat 32 (w / 2 ^ 17)
  a := Fin.ofNat 32 (w / 2 ^ 12)
  t := Fin.ofNat 32 (w / 2 ^ 7)

/-- The bits those operands take in a word (R89). -/
def VMemX.enc (x : VMemX) : Nat :=
  x.pol.val * 268435456 + x.e.toNat * 134217728 + x.bb.toNat * 67108864 + x.o.toNat * 33554432 + x.k.val * 4194304 + x.x.val * 131072 + x.a.val * 4096 + x.t.val * 128

/-- The operands of a word of the V format without a policy (R89). -/
def VMemC.dec (w : Nat) : VMemC where
  e := decide (w / 2 ^ 27 % 2 = 1)
  bb := decide (w / 2 ^ 26 % 2 = 1)
  o := decide (w / 2 ^ 25 % 2 = 1)
  k := Fin.ofNat 8 (w / 2 ^ 22)
  x := Fin.ofNat 32 (w / 2 ^ 17)
  a := Fin.ofNat 32 (w / 2 ^ 12)
  t := Fin.ofNat 32 (w / 2 ^ 7)

/-- The bits those operands take in a word (R89). -/
def VMemC.enc (x : VMemC) : Nat :=
  x.e.toNat * 134217728 + x.bb.toNat * 67108864 + x.o.toNat * 33554432 + x.k.val * 4194304 + x.x.val * 131072 + x.a.val * 4096 + x.t.val * 128

/-- The operands of a word of the R format of the two-source mask forms (R89). -/
def K3.dec (w : Nat) : K3 where
  eb := decide (w / 2 ^ 26 % 2 = 1)
  ea := decide (w / 2 ^ 25 % 2 = 1)
  b := Fin.ofNat 8 (w / 2 ^ 17)
  a := Fin.ofNat 8 (w / 2 ^ 12)
  d := Fin.ofNat 8 (w / 2 ^ 7)

/-- The bits those operands take in a word (R89). -/
def K3.enc (x : K3) : Nat :=
  x.eb.toNat * 67108864 + x.ea.toNat * 33554432 + x.b.val * 131072 + x.a.val * 4096 + x.d.val * 128

/-- The operands of a word of the R format of knot (R89). -/
def K2.dec (w : Nat) : K2 where
  ea := decide (w / 2 ^ 25 % 2 = 1)
  a := Fin.ofNat 8 (w / 2 ^ 12)
  d := Fin.ofNat 8 (w / 2 ^ 7)

/-- The bits those operands take in a word (R89). -/
def K2.enc (x : K2) : Nat :=
  x.ea.toNat * 33554432 + x.a.val * 4096 + x.d.val * 128

/-- The operands of a word of the R format: a names a mask, d another register (R89). -/
def KToR.dec (w : Nat) : KToR where
  ea := decide (w / 2 ^ 25 % 2 = 1)
  a := Fin.ofNat 8 (w / 2 ^ 12)
  d := Fin.ofNat 32 (w / 2 ^ 7)

/-- The bits those operands take in a word (R89). -/
def KToR.enc (x : KToR) : Nat :=
  x.ea.toNat * 33554432 + x.a.val * 4096 + x.d.val * 128

/-- The operands of a word of the R format: d names a mask (R89). -/
def RToK.dec (w : Nat) : RToK where
  ea := decide (w / 2 ^ 25 % 2 = 1)
  a := Fin.ofNat 32 (w / 2 ^ 12)
  d := Fin.ofNat 8 (w / 2 ^ 7)

/-- The bits those operands take in a word (R89). -/
def RToK.enc (x : RToK) : Nat :=
  x.ea.toNat * 33554432 + x.a.val * 4096 + x.d.val * 128

/-- The operands of a word of the R format of vmcast (R89). -/
def VMcast.dec (w : Nat) : VMcast where
  eb := decide (w / 2 ^ 26 % 2 = 1)
  ea := decide (w / 2 ^ 25 % 2 = 1)
  k := Fin.ofNat 8 (w / 2 ^ 22)
  b := Fin.ofNat 32 (w / 2 ^ 17)
  a := Fin.ofNat 32 (w / 2 ^ 12)

/-- The bits those operands take in a word (R89). -/
def VMcast.enc (x : VMcast) : Nat :=
  x.eb.toNat * 67108864 + x.ea.toNat * 33554432 + x.k.val * 4194304 + x.b.val * 131072 + x.a.val * 4096

/-- The operands of a word of the R format of vrecv (R89). -/
def VRecv.dec (w : Nat) : VRecv where
  d := Fin.ofNat 32 (w / 2 ^ 7)

/-- The bits those operands take in a word (R89). -/
def VRecv.enc (x : VRecv) : Nat :=
  x.d.val * 128

/-- The operands of a word of the R format of viota (R89). -/
def VIota.dec (w : Nat) : VIota where
  ea := decide (w / 2 ^ 25 % 2 = 1)
  k := Fin.ofNat 8 (w / 2 ^ 22)
  a := Fin.ofNat 8 (w / 2 ^ 12)
  d := Fin.ofNat 32 (w / 2 ^ 7)

/-- The bits those operands take in a word (R89). -/
def VIota.enc (x : VIota) : Nat :=
  x.ea.toNat * 33554432 + x.k.val * 4194304 + x.a.val * 4096 + x.d.val * 128

/-- The operands of a word of the R format with a mask and a destination (R89). -/
def VD.dec (w : Nat) : VD where
  k := Fin.ofNat 8 (w / 2 ^ 22)
  d := Fin.ofNat 32 (w / 2 ^ 7)

/-- The bits those operands take in a word (R89). -/
def VD.enc (x : VD) : Nat :=
  x.k.val * 4194304 + x.d.val * 128

/-- The operands of a word of the R format with a mask only (R89). -/
def VK.dec (w : Nat) : VK where
  k := Fin.ofNat 8 (w / 2 ^ 22)

/-- The bits those operands take in a word (R89). -/
def VK.enc (x : VK) : Nat :=
  x.k.val * 4194304

/-- The operands of a word of the W format of wld and wst (R89). -/
def WMem.dec (w : Nat) : WMem where
  p := decide (w / 2 ^ 31 % 2 = 1)
  stride := Fin.ofNat 32 (w / 2 ^ 25)
  e := decide (w / 2 ^ 21 % 2 = 1)
  k := Fin.ofNat 8 (w / 2 ^ 18)
  v := Fin.ofNat 32 (w / 2 ^ 13)
  w := Fin.ofNat 4 (w / 2 ^ 7)

/-- The bits those operands take in a word (R89). -/
def WMem.enc (x : WMem) : Nat :=
  x.p.toNat * 2147483648 + x.stride.val * 33554432 + x.e.toNat * 2097152 + x.k.val * 262144 + x.v.val * 8192 + x.w.val * 128

/-- The operands of a word of the W format, two sources (R89). -/
def W3.dec (w : Nat) : W3 where
  p := decide (w / 2 ^ 31 % 2 = 1)
  e := decide (w / 2 ^ 21 % 2 = 1)
  k := Fin.ofNat 8 (w / 2 ^ 18)
  b := Fin.ofNat 4 (w / 2 ^ 11)
  a := Fin.ofNat 4 (w / 2 ^ 9)
  d := Fin.ofNat 4 (w / 2 ^ 7)

/-- The bits those operands take in a word (R89). -/
def W3.enc (x : W3) : Nat :=
  x.p.toNat * 2147483648 + x.e.toNat * 2097152 + x.k.val * 262144 + x.b.val * 2048 + x.a.val * 512 + x.d.val * 128

/-- The operands of a word of the W format of wchol (R89). -/
def WChol.dec (w : Nat) : WChol where
  p := decide (w / 2 ^ 31 % 2 = 1)
  res := Fin.ofNat 8 (w / 2 ^ 22)
  e := decide (w / 2 ^ 21 % 2 = 1)
  k := Fin.ofNat 8 (w / 2 ^ 18)
  d := Fin.ofNat 4 (w / 2 ^ 7)

/-- The bits those operands take in a word (R89). -/
def WChol.enc (x : WChol) : Nat :=
  x.p.toNat * 2147483648 + x.res.val * 4194304 + x.e.toNat * 2097152 + x.k.val * 262144 + x.d.val * 128

/-- The operands of a word of the W format of wlu (R89). -/
def WLu.dec (w : Nat) : WLu where
  p := decide (w / 2 ^ 31 % 2 = 1)
  res := Fin.ofNat 8 (w / 2 ^ 22)
  e := decide (w / 2 ^ 21 % 2 = 1)
  k := Fin.ofNat 8 (w / 2 ^ 18)
  v := Fin.ofNat 32 (w / 2 ^ 13)
  d := Fin.ofNat 4 (w / 2 ^ 7)

/-- The bits those operands take in a word (R89). -/
def WLu.enc (x : WLu) : Nat :=
  x.p.toNat * 2147483648 + x.res.val * 4194304 + x.e.toNat * 2097152 + x.k.val * 262144 + x.v.val * 8192 + x.d.val * 128

/-- The operands of a word of the W format with v and one source (R89). -/
def WV.dec (w : Nat) : WV where
  p := decide (w / 2 ^ 31 % 2 = 1)
  e := decide (w / 2 ^ 21 % 2 = 1)
  k := Fin.ofNat 8 (w / 2 ^ 18)
  v := Fin.ofNat 32 (w / 2 ^ 13)
  a := Fin.ofNat 4 (w / 2 ^ 9)
  d := Fin.ofNat 4 (w / 2 ^ 7)

/-- The bits those operands take in a word (R89). -/
def WV.enc (x : WV) : Nat :=
  x.p.toNat * 2147483648 + x.e.toNat * 2097152 + x.k.val * 262144 + x.v.val * 8192 + x.a.val * 512 + x.d.val * 128

/-- The operands of a word of the W format, one source (R89). -/
def W2.dec (w : Nat) : W2 where
  p := decide (w / 2 ^ 31 % 2 = 1)
  e := decide (w / 2 ^ 21 % 2 = 1)
  k := Fin.ofNat 8 (w / 2 ^ 18)
  a := Fin.ofNat 4 (w / 2 ^ 9)
  d := Fin.ofNat 4 (w / 2 ^ 7)

/-- The bits those operands take in a word (R89). -/
def W2.enc (x : W2) : Nat :=
  x.p.toNat * 2147483648 + x.e.toNat * 2097152 + x.k.val * 262144 + x.a.val * 512 + x.d.val * 128

/-- The operands of a word of the W format, no source (R89). -/
def W1.dec (w : Nat) : W1 where
  p := decide (w / 2 ^ 31 % 2 = 1)
  e := decide (w / 2 ^ 21 % 2 = 1)
  k := Fin.ofNat 8 (w / 2 ^ 18)
  d := Fin.ofNat 4 (w / 2 ^ 7)

/-- The bits those operands take in a word (R89). -/
def W1.enc (x : W1) : Nat :=
  x.p.toNat * 2147483648 + x.e.toNat * 2097152 + x.k.val * 262144 + x.d.val * 128

/-- The operands of a word of the W format of wdim (R89). -/
def WDim.dec (w : Nat) : WDim where
  cols := Fin.ofNat 8 (w / 2 ^ 28)
  rows := Fin.ofNat 8 (w / 2 ^ 25)

/-- The bits those operands take in a word (R89). -/
def WDim.enc (x : WDim) : Nat :=
  x.cols.val * 268435456 + x.rows.val * 33554432

/-- The operands of a word of the W format of wget (R89). -/
def WGet.dec (w : Nat) : WGet where
  p := decide (w / 2 ^ 31 % 2 = 1)
  col := Fin.ofNat 8 (w / 2 ^ 28)
  row := Fin.ofNat 8 (w / 2 ^ 25)
  e := decide (w / 2 ^ 21 % 2 = 1)
  k := Fin.ofNat 8 (w / 2 ^ 18)
  v := Fin.ofNat 32 (w / 2 ^ 13)
  a := Fin.ofNat 4 (w / 2 ^ 9)

/-- The bits those operands take in a word (R89). -/
def WGet.enc (x : WGet) : Nat :=
  x.p.toNat * 2147483648 + x.col.val * 268435456 + x.row.val * 33554432 + x.e.toNat * 2097152 + x.k.val * 262144 + x.v.val * 8192 + x.a.val * 512

/-- The operands of a word of the W format of wput (R89). -/
def WPut.dec (w : Nat) : WPut where
  p := decide (w / 2 ^ 31 % 2 = 1)
  col := Fin.ofNat 8 (w / 2 ^ 28)
  row := Fin.ofNat 8 (w / 2 ^ 25)
  e := decide (w / 2 ^ 21 % 2 = 1)
  k := Fin.ofNat 8 (w / 2 ^ 18)
  v := Fin.ofNat 32 (w / 2 ^ 13)
  d := Fin.ofNat 4 (w / 2 ^ 7)

/-- The bits those operands take in a word (R89). -/
def WPut.enc (x : WPut) : Nat :=
  x.p.toNat * 2147483648 + x.col.val * 268435456 + x.row.val * 33554432 + x.e.toNat * 2097152 + x.k.val * 262144 + x.v.val * 8192 + x.d.val * 128

/-- The operands of a word of the T format with the tile only (R89). -/
def TOnly.dec (w : Nat) : TOnly where
  t := Fin.ofNat 8 (w / 2 ^ 7)

/-- The bits those operands take in a word (R89). -/
def TOnly.enc (x : TOnly) : Nat :=
  x.t.val * 128

/-- The operands of a word of the T format of tacc (R89). -/
def TAcc.dec (w : Nat) : TAcc where
  x := Fin.ofNat 32 (w / 2 ^ 18)
  e := decide (w / 2 ^ 17 % 2 = 1)
  t := Fin.ofNat 8 (w / 2 ^ 7)

/-- The bits those operands take in a word (R89). -/
def TAcc.enc (x : TAcc) : Nat :=
  x.x.val * 262144 + x.e.toNat * 131072 + x.t.val * 128

/-- The operands of a word of the T format of tmma (R89). -/
def TMma.dec (w : Nat) : TMma where
  ta := BitVec.ofNat 5 (w / 2 ^ 23)
  tb := BitVec.ofNat 5 (w / 2 ^ 18)
  e := decide (w / 2 ^ 17 % 2 = 1)
  z := decide (w / 2 ^ 16 % 2 = 1)
  kb := decide (w / 2 ^ 15 % 2 = 1)
  ka := decide (w / 2 ^ 14 % 2 = 1)
  fb := Fin.ofNat 4 (w / 2 ^ 12)
  fa := Fin.ofNat 4 (w / 2 ^ 10)
  t := Fin.ofNat 8 (w / 2 ^ 7)

/-- The bits those operands take in a word (R89). -/
def TMma.enc (x : TMma) : Nat :=
  x.ta.toNat * 8388608 + x.tb.toNat * 262144 + x.e.toNat * 131072 + x.z.toNat * 65536 + x.kb.toNat * 32768 + x.ka.toNat * 16384 + x.fb.val * 4096 + x.fa.val * 1024 + x.t.val * 128

/-- The operands of a word of the T format of tmms (R89). -/
def TMms.dec (w : Nat) : TMms where
  tg := BitVec.ofNat 5 (w / 2 ^ 23)
  x := Fin.ofNat 32 (w / 2 ^ 18)
  e := decide (w / 2 ^ 17 % 2 = 1)
  z := decide (w / 2 ^ 16 % 2 = 1)
  kb := decide (w / 2 ^ 15 % 2 = 1)
  ka := decide (w / 2 ^ 14 % 2 = 1)
  fb := Fin.ofNat 4 (w / 2 ^ 12)
  fa := Fin.ofNat 4 (w / 2 ^ 10)
  t := Fin.ofNat 8 (w / 2 ^ 7)

/-- The bits those operands take in a word (R89). -/
def TMms.enc (x : TMms) : Nat :=
  x.tg.toNat * 8388608 + x.x.val * 262144 + x.e.toNat * 131072 + x.z.toNat * 65536 + x.kb.toNat * 32768 + x.ka.toNat * 16384 + x.fb.val * 4096 + x.fa.val * 1024 + x.t.val * 128

/-- The operands of a word of the T format with a row (R89). -/
def TRow.dec (w : Nat) : TRow where
  row := BitVec.ofNat 6 (w / 2 ^ 23)
  x := Fin.ofNat 32 (w / 2 ^ 18)
  e := decide (w / 2 ^ 17 % 2 = 1)
  t := Fin.ofNat 8 (w / 2 ^ 7)

/-- The bits those operands take in a word (R89). -/
def TRow.enc (x : TRow) : Nat :=
  x.row.toNat * 8388608 + x.x.val * 262144 + x.e.toNat * 131072 + x.t.val * 128

/-- The operands of a word of the T format of tepi (R89). -/
def TEpi.dec (w : Nat) : TEpi where
  act := Fin.ofNat 8 (w / 2 ^ 29)
  row := BitVec.ofNat 6 (w / 2 ^ 23)
  x := Fin.ofNat 32 (w / 2 ^ 18)
  e := decide (w / 2 ^ 17 % 2 = 1)
  t := Fin.ofNat 8 (w / 2 ^ 7)

/-- The bits those operands take in a word (R89). -/
def TEpi.enc (x : TEpi) : Nat :=
  x.act.val * 536870912 + x.row.toNat * 8388608 + x.x.val * 262144 + x.e.toNat * 131072 + x.t.val * 128

/-- The operands of a word of the T format of fopen (R89). -/
def FOpen.dec (w : Nat) : FOpen where
  x := Fin.ofNat 32 (w / 2 ^ 18)
  e := decide (w / 2 ^ 17 % 2 = 1)
  film := Fin.ofNat 4 (w / 2 ^ 10)

/-- The bits those operands take in a word (R89). -/
def FOpen.enc (x : FOpen) : Nat :=
  x.x.val * 262144 + x.e.toNat * 131072 + x.film.val * 1024

/-- The operands of a word of the T format with the film only (R89). -/
def FOnly.dec (w : Nat) : FOnly where
  film := Fin.ofNat 4 (w / 2 ^ 10)

/-- The bits those operands take in a word (R89). -/
def FOnly.enc (x : FOnly) : Nat :=
  x.film.val * 1024

/-- The operands of a word of the T format of fstat (R89). -/
def FStat.dec (w : Nat) : FStat where
  x := Fin.ofNat 32 (w / 2 ^ 18)
  film := Fin.ofNat 4 (w / 2 ^ 10)

/-- The bits those operands take in a word (R89). -/
def FStat.enc (x : FStat) : Nat :=
  x.x.val * 262144 + x.film.val * 1024

/-- The operands of a word of the C format of the copies (R89). -/
def Copy.dec (w : Nat) : Copy where
  ch := Fin.ofNat 8 (w / 2 ^ 28)
  e := decide (w / 2 ^ 27 % 2 = 1)
  port := BitVec.ofNat 4 (w / 2 ^ 22)
  c := Fin.ofNat 32 (w / 2 ^ 17)
  b := Fin.ofNat 32 (w / 2 ^ 12)
  a := Fin.ofNat 32 (w / 2 ^ 7)

/-- The bits those operands take in a word (R89). -/
def Copy.enc (x : Copy) : Nat :=
  x.ch.val * 268435456 + x.e.toNat * 134217728 + x.port.toNat * 4194304 + x.c.val * 131072 + x.b.val * 4096 + x.a.val * 128

/-- The operands of a word of the C format of gath (R89). -/
def GathF.dec (w : Nat) : GathF where
  ch := Fin.ofNat 8 (w / 2 ^ 28)
  e := decide (w / 2 ^ 27 % 2 = 1)
  dup := Fin.ofNat 8 (w / 2 ^ 22)
  c := Fin.ofNat 32 (w / 2 ^ 17)
  b := Fin.ofNat 32 (w / 2 ^ 12)
  a := Fin.ofNat 32 (w / 2 ^ 7)

/-- The bits those operands take in a word (R89). -/
def GathF.enc (x : GathF) : Nat :=
  x.ch.val * 268435456 + x.e.toNat * 134217728 + x.dup.val * 4194304 + x.c.val * 131072 + x.b.val * 4096 + x.a.val * 128

/-- The operands of a word of the C format of the channel forms with a (R89). -/
def ChanA.dec (w : Nat) : ChanA where
  e := decide (w / 2 ^ 27 % 2 = 1)
  ch := Fin.ofNat 8 (w / 2 ^ 22)
  a := Fin.ofNat 32 (w / 2 ^ 7)

/-- The bits those operands take in a word (R89). -/
def ChanA.enc (x : ChanA) : Nat :=
  x.e.toNat * 134217728 + x.ch.val * 4194304 + x.a.val * 128

/-- The operands of a word of the C format of the other channel forms (R89). -/
def Chan0.dec (w : Nat) : Chan0 where
  e := decide (w / 2 ^ 27 % 2 = 1)
  ch := Fin.ofNat 8 (w / 2 ^ 22)

/-- The bits those operands take in a word (R89). -/
def Chan0.enc (x : Chan0) : Nat :=
  x.e.toNat * 134217728 + x.ch.val * 4194304

/-- The operands of a word of the C format, three registers (R89). -/
def C3.dec (w : Nat) : C3 where
  e := decide (w / 2 ^ 27 % 2 = 1)
  c := Fin.ofNat 32 (w / 2 ^ 17)
  b := Fin.ofNat 32 (w / 2 ^ 12)
  a := Fin.ofNat 32 (w / 2 ^ 7)

/-- The bits those operands take in a word (R89). -/
def C3.enc (x : C3) : Nat :=
  x.e.toNat * 134217728 + x.c.val * 131072 + x.b.val * 4096 + x.a.val * 128

/-- The operands of a word of the C format of pgrant (R89). -/
def C1.dec (w : Nat) : C1 where
  a := Fin.ofNat 32 (w / 2 ^ 7)

/-- The bits those operands take in a word (R89). -/
def C1.enc (x : C1) : Nat :=
  x.a.val * 128

/-- The operands of a word of the I format with a code (R89). -/
def Imm14.dec (w : Nat) : Imm14 where
  code := BitVec.ofNat 14 (w / 2 ^ 18)

/-- The bits those operands take in a word (R89). -/
def Imm14.enc (x : Imm14) : Nat :=
  x.code.toNat * 262144

/-- The operands of a word of the R format of probe (R89). -/
def Probe.dec (w : Nat) : Probe where
  kind := Fin.ofNat 4 (w / 2 ^ 27)
  ea := decide (w / 2 ^ 25 % 2 = 1)
  a := Fin.ofNat 32 (w / 2 ^ 12)
  d := Fin.ofNat 32 (w / 2 ^ 7)

/-- The bits those operands take in a word (R89). -/
def Probe.enc (x : Probe) : Nat :=
  x.kind.val * 134217728 + x.ea.toNat * 33554432 + x.a.val * 4096 + x.d.val * 128

/-- The row of opcode 0x01 that the word is of, or none: a reserved selector, or a nonzero bit in a field
marked 0 (R95). -/
def rowAlu (w : Nat) : Option Instr :=
  if fld w 27 5 = 0 ∧ fld w 22 3 = 0 then some (.add (.dec w))
  else if fld w 27 5 = 1 ∧ fld w 22 3 = 0 then some (.sub (.dec w))
  else if fld w 27 5 = 2 ∧ fld w 22 3 = 0 then some (.and (.dec w))
  else if fld w 27 5 = 3 ∧ fld w 22 3 = 0 then some (.or (.dec w))
  else if fld w 27 5 = 4 ∧ fld w 22 3 = 0 then some (.xor (.dec w))
  else if fld w 27 5 = 5 ∧ fld w 22 3 = 0 then some (.andn (.dec w))
  else if fld w 27 5 = 6 ∧ fld w 22 3 = 0 then some (.orn (.dec w))
  else if fld w 27 5 = 7 ∧ fld w 22 3 = 0 then some (.shl (.dec w))
  else if fld w 27 5 = 8 ∧ fld w 22 3 = 0 then some (.shr (.dec w))
  else if fld w 27 5 = 9 ∧ fld w 22 3 = 0 then some (.sar (.dec w))
  else if fld w 27 5 = 10 ∧ fld w 22 3 = 0 then some (.rol (.dec w))
  else if fld w 27 5 = 11 ∧ fld w 22 3 = 0 then some (.ror (.dec w))
  else if fld w 27 5 = 12 ∧ fld w 22 3 = 0 then some (.slt (.dec w))
  else if fld w 27 5 = 13 ∧ fld w 22 3 = 0 then some (.sltu (.dec w))
  else if fld w 27 5 = 14 ∧ fld w 22 3 = 0 then some (.min (.dec w))
  else if fld w 27 5 = 15 ∧ fld w 22 3 = 0 then some (.max (.dec w))
  else if fld w 27 5 = 16 ∧ fld w 22 3 = 0 then some (.minu (.dec w))
  else if fld w 27 5 = 17 ∧ fld w 22 3 = 0 then some (.maxu (.dec w))
  else if fld w 27 5 = 18 ∧ fld w 22 3 = 0 then some (.mul (.dec w))
  else if fld w 27 5 = 19 ∧ fld w 22 3 = 0 then some (.mulh (.dec w))
  else if fld w 27 5 = 20 ∧ fld w 22 3 = 0 then some (.mulhu (.dec w))
  else if fld w 27 5 = 21 ∧ fld w 22 3 = 0 then some (.div (.dec w))
  else if fld w 27 5 = 22 ∧ fld w 22 3 = 0 then some (.divu (.dec w))
  else if fld w 27 5 = 23 ∧ fld w 22 3 = 0 then some (.rem (.dec w))
  else if fld w 27 5 = 24 ∧ fld w 22 3 = 0 then some (.remu (.dec w))
  else if fld w 26 6 = 62 ∧ fld w 17 8 = 0 then some (.clz (.dec w))
  else if fld w 26 6 = 62 ∧ fld w 17 8 = 1 then some (.ctz (.dec w))
  else if fld w 26 6 = 62 ∧ fld w 17 8 = 2 then some (.popc (.dec w))
  else if fld w 26 6 = 62 ∧ fld w 17 8 = 3 then some (.bswap (.dec w))
  else if fld w 26 6 = 62 ∧ fld w 17 8 = 4 then some (.sextB (.dec w))
  else if fld w 26 6 = 62 ∧ fld w 17 8 = 5 then some (.sextH (.dec w))
  else if fld w 26 6 = 62 ∧ fld w 17 8 = 6 then some (.sextW (.dec w))
  else if fld w 26 6 = 62 ∧ fld w 17 8 = 7 then some (.zextW (.dec w))
  else none

/-- The row of opcode 0x02 that the word is of, or none: a reserved selector, or a nonzero bit in a field
marked 0 (R95). -/
def rowAddi (w : Nat) : Option Instr :=
  some (.addi (.dec w))

/-- The row of opcode 0x03 that the word is of, or none: a reserved selector, or a nonzero bit in a field
marked 0 (R95). -/
def rowAndi (w : Nat) : Option Instr :=
  some (.andi (.dec w))

/-- The row of opcode 0x04 that the word is of, or none: a reserved selector, or a nonzero bit in a field
marked 0 (R95). -/
def rowOri (w : Nat) : Option Instr :=
  some (.ori (.dec w))

/-- The row of opcode 0x05 that the word is of, or none: a reserved selector, or a nonzero bit in a field
marked 0 (R95). -/
def rowXori (w : Nat) : Option Instr :=
  some (.xori (.dec w))

/-- The row of opcode 0x06 that the word is of, or none: a reserved selector, or a nonzero bit in a field
marked 0 (R95). -/
def rowShiftI (w : Nat) : Option Instr :=
  if fld w 24 8 = 0 then some (.shli (.dec w))
  else if fld w 24 8 = 1 then some (.shri (.dec w))
  else if fld w 24 8 = 2 then some (.sari (.dec w))
  else if fld w 24 8 = 3 then some (.roli (.dec w))
  else none

/-- The row of opcode 0x07 that the word is of, or none: a reserved selector, or a nonzero bit in a field
marked 0 (R95). -/
def rowSlti (w : Nat) : Option Instr :=
  if fld w 31 1 = 0 then some (.slti (.dec w))
  else if fld w 31 1 = 1 then some (.sltiu (.dec w))
  else none

/-- The row of opcode 0x08 that the word is of, or none: a reserved selector, or a nonzero bit in a field
marked 0 (R95). -/
def rowSetK (w : Nat) : Option Instr :=
  if fld w 31 1 = 0 ∧ fld w 14 1 = 0 then some (.setk (.dec w))
  else if fld w 31 1 = 0 ∧ fld w 14 1 = 1 then some (.setz (.dec w))
  else none

/-- The row of opcode 0x09 that the word is of, or none: a reserved selector, or a nonzero bit in a field
marked 0 (R95). -/
def rowAddpc (w : Nat) : Option Instr :=
  some (.addpc (.dec w))

/-- The row of opcode 0x0A that the word is of, or none: a reserved selector, or a nonzero bit in a field
marked 0 (R95). -/
def rowBr (w : Nat) : Option Instr :=
  if fld w 17 3 = 0 then some (.brEq (.dec w))
  else if fld w 17 3 = 1 then some (.brNe (.dec w))
  else if fld w 17 3 = 2 then some (.brLt (.dec w))
  else if fld w 17 3 = 3 then some (.brGe (.dec w))
  else if fld w 17 3 = 4 then some (.brLtu (.dec w))
  else if fld w 17 3 = 5 then some (.brGeu (.dec w))
  else none

/-- The row of opcode 0x0B that the word is of, or none: a reserved selector, or a nonzero bit in a field
marked 0 (R95). -/
def rowBrm (w : Nat) : Option Instr :=
  if fld w 10 2 = 0 then some (.brmAny (.dec w))
  else if fld w 10 2 = 1 then some (.brmAll (.dec w))
  else if fld w 10 2 = 2 then some (.brmNone (.dec w))
  else none

/-- The row of opcode 0x0C that the word is of, or none: a reserved selector, or a nonzero bit in a field
marked 0 (R95). -/
def rowJal (w : Nat) : Option Instr :=
  some (.jal (.dec w))

/-- The row of opcode 0x0D that the word is of, or none: a reserved selector, or a nonzero bit in a field
marked 0 (R95). -/
def rowJalr (w : Nat) : Option Instr :=
  some (.jalr (.dec w))

/-- The row of opcode 0x0E that the word is of, or none: a reserved selector, or a nonzero bit in a field
marked 0 (R95). -/
def rowLoop (w : Nat) : Option Instr :=
  if fld w 25 7 = 0 ∧ fld w 12 1 = 0 then some (.loop (.dec w))
  else if fld w 25 7 = 0 ∧ fld w 12 1 = 1 then some (.loopi (.dec w))
  else if fld w 7 25 = 262144 then some (.lbrk)
  else none

/-- The row of opcode 0x0F that the word is of, or none: a reserved selector, or a nonzero bit in a field
marked 0 (R95). -/
def rowRpt (w : Nat) : Option Instr :=
  if fld w 24 8 = 0 then some (.rpt (.dec w))
  else none

/-- The row of opcode 0x10 that the word is of, or none: a reserved selector, or a nonzero bit in a field
marked 0 (R95). -/
def rowLd (w : Nat) : Option Instr :=
  if fld w 17 3 = 0 then some (.ldBz (.dec w))
  else if fld w 17 3 = 4 then some (.ldBs (.dec w))
  else if fld w 17 3 = 1 then some (.ldHz (.dec w))
  else if fld w 17 3 = 5 then some (.ldHs (.dec w))
  else if fld w 17 3 = 2 then some (.ldWz (.dec w))
  else if fld w 17 3 = 6 then some (.ldWs (.dec w))
  else if fld w 17 3 = 3 then some (.ldD (.dec w))
  else none

/-- The row of opcode 0x11 that the word is of, or none: a reserved selector, or a nonzero bit in a field
marked 0 (R95). -/
def rowSt (w : Nat) : Option Instr :=
  if fld w 17 3 = 0 then some (.stB (.dec w))
  else if fld w 17 3 = 1 then some (.stH (.dec w))
  else if fld w 17 3 = 2 then some (.stW (.dec w))
  else if fld w 17 3 = 3 then some (.stD (.dec w))
  else none

/-- The row of opcode 0x12 that the word is of, or none: a reserved selector, or a nonzero bit in a field
marked 0 (R95). -/
def rowLdp (w : Nat) : Option Instr :=
  if fld w 17 3 = 3 then some (.ldp (.dec w))
  else none

/-- The row of opcode 0x13 that the word is of, or none: a reserved selector, or a nonzero bit in a field
marked 0 (R95). -/
def rowStp (w : Nat) : Option Instr :=
  if fld w 17 3 = 3 then some (.stp (.dec w))
  else none

/-- The row of opcode 0x14 that the word is of, or none: a reserved selector, or a nonzero bit in a field
marked 0 (R95). -/
def rowLdacq (w : Nat) : Option Instr :=
  some (.ldacq (.dec w))

/-- The row of opcode 0x15 that the word is of, or none: a reserved selector, or a nonzero bit in a field
marked 0 (R95). -/
def rowStrel (w : Nat) : Option Instr :=
  if fld w 19 1 = 0 then some (.strel (.dec w))
  else none

/-- The row of opcode 0x16 that the word is of, or none: a reserved selector, or a nonzero bit in a field
marked 0 (R95). -/
def rowAmo (w : Nat) : Option Instr :=
  if fld w 22 4 = 0 then some (.amoAdd (.dec w))
  else if fld w 22 4 = 1 then some (.amoAnd (.dec w))
  else if fld w 22 4 = 2 then some (.amoOr (.dec w))
  else if fld w 22 4 = 3 then some (.amoXor (.dec w))
  else if fld w 22 4 = 4 then some (.amoMin (.dec w))
  else if fld w 22 4 = 5 then some (.amoMax (.dec w))
  else if fld w 22 4 = 6 then some (.amoMinu (.dec w))
  else if fld w 22 4 = 7 then some (.amoMaxu (.dec w))
  else if fld w 22 4 = 8 then some (.amoSwap (.dec w))
  else none

/-- The row of opcode 0x17 that the word is of, or none: a reserved selector, or a nonzero bit in a field
marked 0 (R95). -/
def rowCas (w : Nat) : Option Instr :=
  if fld w 31 1 = 0 then some (.cas (.dec w))
  else if fld w 31 1 = 1 then some (.casQ (.dec w))
  else none

/-- The row of opcode 0x18 that the word is of, or none: a reserved selector, or a nonzero bit in a field
marked 0 (R95). -/
def rowFence (w : Nat) : Option Instr :=
  if fld w 25 7 = 0 ∧ fld w 7 15 = 0 then some (.fenceAcq (.dec w))
  else if fld w 25 7 = 4 ∧ fld w 7 15 = 0 then some (.fenceRel (.dec w))
  else if fld w 25 7 = 8 ∧ fld w 7 15 = 0 then some (.fenceAr (.dec w))
  else if fld w 25 7 = 12 ∧ fld w 7 15 = 0 then some (.fenceSc (.dec w))
  else none

/-- The row of opcode 0x19 that the word is of, or none: a reserved selector, or a nonzero bit in a field
marked 0 (R95). -/
def rowXfence (w : Nat) : Option Instr :=
  if fld w 25 7 = 0 ∧ fld w 7 15 = 0 then some (.xfenceAll (.dec w))
  else if fld w 26 6 = 2 ∧ fld w 17 5 = 0 ∧ fld w 7 5 = 0 then some (.xfenceSpace (.dec w))
  else if fld w 26 6 = 4 ∧ fld w 17 5 = 0 ∧ fld w 7 5 = 0 then some (.xfencePage (.dec w))
  else none

/-- The row of opcode 0x1A that the word is of, or none: a reserved selector, or a nonzero bit in a field
marked 0 (R95). -/
def rowWaita (w : Nat) : Option Instr :=
  if fld w 31 1 = 0 then some (.waita (.dec w))
  else none

/-- The row of opcode 0x1B that the word is of, or none: a reserved selector, or a nonzero bit in a field
marked 0 (R95). -/
def rowBar (w : Nat) : Option Instr :=
  if fld w 27 5 = 0 then some (.barArr (.dec w))
  else if fld w 27 5 = 1 then some (.barWait (.dec w))
  else if fld w 27 5 = 2 then some (.barAw (.dec w))
  else none

/-- The row of opcode 0x1C that the word is of, or none: a reserved selector, or a nonzero bit in a field
marked 0 (R95). -/
def rowCline (w : Nat) : Option Instr :=
  if fld w 26 6 = 0 ∧ fld w 17 5 = 0 ∧ fld w 7 5 = 0 then some (.clineClean (.dec w))
  else if fld w 26 6 = 2 ∧ fld w 17 5 = 0 ∧ fld w 7 5 = 0 then some (.clineInv (.dec w))
  else if fld w 26 6 = 4 ∧ fld w 17 5 = 0 ∧ fld w 7 5 = 0 then some (.clineFlush (.dec w))
  else if fld w 26 6 = 6 ∧ fld w 17 5 = 0 ∧ fld w 7 5 = 0 then some (.clineZero (.dec w))
  else none

/-- The row of opcode 0x1D that the word is of, or none: a reserved selector, or a nonzero bit in a field
marked 0 (R95). -/
def rowStash (w : Nat) : Option Instr :=
  if fld w 27 5 = 0 ∧ fld w 22 3 = 0 then some (.stashMap (.dec w))
  else if fld w 27 5 = 1 ∧ fld w 22 4 = 0 ∧ fld w 12 5 = 0 then some (.stashUnmap (.dec w))
  else if fld w 27 5 = 2 ∧ fld w 22 4 = 0 ∧ fld w 12 5 = 0 then some (.stashFlush (.dec w))
  else if fld w 27 5 = 3 ∧ fld w 22 4 = 0 ∧ fld w 12 5 = 0 then some (.stashPin (.dec w))
  else if fld w 27 5 = 4 ∧ fld w 22 4 = 0 ∧ fld w 12 5 = 0 then some (.stashUnpin (.dec w))
  else none

/-- The row of opcode 0x1E that the word is of, or none: a reserved selector, or a nonzero bit in a field
marked 0 (R95). -/
def rowPref (w : Nat) : Option Instr :=
  if fld w 26 6 = 0 ∧ fld w 17 8 = 0 ∧ fld w 7 5 = 0 then some (.prefL2 (.dec w))
  else if fld w 26 6 = 2 ∧ fld w 17 8 = 0 ∧ fld w 7 5 = 0 then some (.prefLlc (.dec w))
  else if fld w 26 6 = 4 ∧ fld w 17 8 = 0 ∧ fld w 7 5 = 0 then some (.prefStash (.dec w))
  else none

/-- The row of opcode 0x1F that the word is of, or none: a reserved selector, or a nonzero bit in a field
marked 0 (R95). -/
def rowSpr (w : Nat) : Option Instr :=
  if fld w 30 2 = 0 ∧ fld w 12 6 = 0 then some (.rdspr (.dec w))
  else if fld w 30 2 = 1 ∧ fld w 7 5 = 0 then some (.wrspr (.dec w))
  else none

/-- The row of opcode 0x20 that the word is of, or none: a reserved selector, or a nonzero bit in a field
marked 0 (R95). -/
def rowVv (w : Nat) : Option Instr :=
  if fld w 27 5 = 0 then some (.vadd (.dec w))
  else if fld w 27 5 = 1 then some (.vsub (.dec w))
  else if fld w 27 5 = 2 then some (.vmul (.dec w))
  else if fld w 27 5 = 3 then some (.vmin (.dec w))
  else if fld w 27 5 = 4 then some (.vmax (.dec w))
  else if fld w 27 5 = 5 then some (.vand (.dec w))
  else if fld w 27 5 = 6 then some (.vor (.dec w))
  else if fld w 27 5 = 7 then some (.vxor (.dec w))
  else if fld w 27 5 = 8 then some (.vshl (.dec w))
  else if fld w 27 5 = 9 then some (.vshr (.dec w))
  else if fld w 27 5 = 10 then some (.vsar (.dec w))
  else if fld w 27 5 = 11 then some (.vabd (.dec w))
  else if fld w 27 5 = 12 then some (.vavg (.dec w))
  else if fld w 27 5 = 13 then some (.vadds (.dec w))
  else if fld w 27 5 = 14 then some (.vsubs (.dec w))
  else if fld w 27 5 = 15 then some (.vmulh (.dec w))
  else none

/-- The row of opcode 0x21 that the word is of, or none: a reserved selector, or a nonzero bit in a field
marked 0 (R95). -/
def rowVs (w : Nat) : Option Instr :=
  if fld w 27 5 = 0 then some (.vaddS (.dec w))
  else if fld w 27 5 = 1 then some (.vsubS (.dec w))
  else if fld w 27 5 = 2 then some (.vmulS (.dec w))
  else if fld w 27 5 = 3 then some (.vminS (.dec w))
  else if fld w 27 5 = 4 then some (.vmaxS (.dec w))
  else if fld w 27 5 = 5 then some (.vandS (.dec w))
  else if fld w 27 5 = 6 then some (.vorS (.dec w))
  else if fld w 27 5 = 7 then some (.vxorS (.dec w))
  else if fld w 27 5 = 8 then some (.vshlS (.dec w))
  else if fld w 27 5 = 9 then some (.vshrS (.dec w))
  else if fld w 27 5 = 10 then some (.vsarS (.dec w))
  else if fld w 27 5 = 11 then some (.vabdS (.dec w))
  else if fld w 27 5 = 12 then some (.vavgS (.dec w))
  else if fld w 27 5 = 13 then some (.vaddsS (.dec w))
  else if fld w 27 5 = 14 then some (.vsubsS (.dec w))
  else if fld w 27 5 = 15 then some (.vmulhS (.dec w))
  else none

/-- The row of opcode 0x22 that the word is of, or none: a reserved selector, or a nonzero bit in a field
marked 0 (R95). -/
def rowVi (w : Nat) : Option Instr :=
  if fld w 26 6 = 0 then some (.vaddI (.dec w))
  else if fld w 26 6 = 2 then some (.vsubI (.dec w))
  else if fld w 26 6 = 4 then some (.vmulI (.dec w))
  else if fld w 26 6 = 6 then some (.vminI (.dec w))
  else if fld w 26 6 = 8 then some (.vmaxI (.dec w))
  else if fld w 26 6 = 10 then some (.vandI (.dec w))
  else if fld w 26 6 = 12 then some (.vorI (.dec w))
  else if fld w 26 6 = 14 then some (.vxorI (.dec w))
  else if fld w 26 6 = 16 ∧ fld w 21 1 = 0 then some (.vshlI (.dec w))
  else if fld w 26 6 = 18 ∧ fld w 21 1 = 0 then some (.vshrI (.dec w))
  else if fld w 26 6 = 20 ∧ fld w 21 1 = 0 then some (.vsarI (.dec w))
  else if fld w 26 6 = 22 then some (.vabdI (.dec w))
  else if fld w 26 6 = 24 then some (.vavgI (.dec w))
  else if fld w 26 6 = 26 then some (.vaddsI (.dec w))
  else if fld w 26 6 = 28 then some (.vsubsI (.dec w))
  else if fld w 26 6 = 30 then some (.vmulhI (.dec w))
  else none

/-- The row of opcode 0x23 that the word is of, or none: a reserved selector, or a nonzero bit in a field
marked 0 (R95). -/
def rowVfma (w : Nat) : Option Instr :=
  if fld w 27 5 = 0 then some (.vfma (.dec w))
  else if fld w 27 5 = 1 then some (.vfms (.dec w))
  else if fld w 27 5 = 2 then some (.vfnma (.dec w))
  else if fld w 27 5 = 3 then some (.vfnms (.dec w))
  else none

/-- The row of opcode 0x24 that the word is of, or none: a reserved selector, or a nonzero bit in a field
marked 0 (R95). -/
def rowVmacw (w : Nat) : Option Instr :=
  if fld w 27 5 = 0 then some (.vmacw (.dec w))
  else none

/-- The row of opcode 0x25 that the word is of, or none: a reserved selector, or a nonzero bit in a field
marked 0 (R95). -/
def rowVcmp (w : Nat) : Option Instr :=
  if fld w 27 5 = 0 ∧ fld w 10 2 = 0 then some (.vcmpEq (.dec w))
  else if fld w 27 5 = 1 ∧ fld w 10 2 = 0 then some (.vcmpNe (.dec w))
  else if fld w 27 5 = 2 ∧ fld w 10 2 = 0 then some (.vcmpLt (.dec w))
  else if fld w 27 5 = 3 ∧ fld w 10 2 = 0 then some (.vcmpLe (.dec w))
  else if fld w 27 5 = 4 ∧ fld w 10 2 = 0 then some (.vcmpGt (.dec w))
  else if fld w 27 5 = 5 ∧ fld w 10 2 = 0 then some (.vcmpGe (.dec w))
  else if fld w 27 5 = 6 ∧ fld w 10 2 = 0 then some (.vcmpUn (.dec w))
  else none

/-- The row of opcode 0x26 that the word is of, or none: a reserved selector, or a nonzero bit in a field
marked 0 (R95). -/
def rowVsel (w : Nat) : Option Instr :=
  if fld w 27 5 = 0 then some (.vsel (.dec w))
  else none

/-- The row of opcode 0x27 that the word is of, or none: a reserved selector, or a nonzero bit in a field
marked 0 (R95). -/
def rowVcvt (w : Nat) : Option Instr :=
  if fld w 30 2 = 0 ∧ fld w 26 1 = 0 ∧ fld w 17 5 = 0 then some (.vcvt (.dec w))
  else none

/-- The row of opcode 0x28 that the word is of, or none: a reserved selector, or a nonzero bit in a field
marked 0 (R95). -/
def rowVshrr (w : Nat) : Option Instr :=
  if fld w 29 3 = 0 then some (.vshrr (.dec w))
  else none

/-- The row of opcode 0x29 that the word is of, or none: a reserved selector, or a nonzero bit in a field
marked 0 (R95). -/
def rowMath (w : Nat) : Option Instr :=
  if fld w 27 5 = 0 then some (.vdiv (.dec w))
  else if fld w 26 6 = 2 ∧ fld w 17 5 = 0 then some (.vsqrt (.dec w))
  else if fld w 26 6 = 4 ∧ fld w 17 5 = 0 then some (.vrcp (.dec w))
  else if fld w 26 6 = 6 ∧ fld w 17 5 = 0 then some (.vrsqrt (.dec w))
  else if fld w 26 6 = 8 ∧ fld w 17 5 = 0 then some (.vexp2 (.dec w))
  else if fld w 26 6 = 10 ∧ fld w 17 5 = 0 then some (.vlog2 (.dec w))
  else none

/-- The row of opcode 0x2A that the word is of, or none: a reserved selector, or a nonzero bit in a field
marked 0 (R95). -/
def rowVdot (w : Nat) : Option Instr :=
  if fld w 27 5 = 0 then some (.vdot (.dec w))
  else none

/-- The row of opcode 0x2B that the word is of, or none: a reserved selector, or a nonzero bit in a field
marked 0 (R95). -/
def rowVred (w : Nat) : Option Instr :=
  if fld w 31 1 = 0 ∧ fld w 26 4 = 0 ∧ fld w 17 5 = 0 then some (.vredSum (.dec w))
  else if fld w 31 1 = 0 ∧ fld w 26 4 = 2 ∧ fld w 17 5 = 0 then some (.vredMax (.dec w))
  else if fld w 31 1 = 0 ∧ fld w 26 4 = 4 ∧ fld w 17 5 = 0 then some (.vredMin (.dec w))
  else if fld w 31 1 = 0 ∧ fld w 26 4 = 6 ∧ fld w 17 5 = 0 then some (.vredAnd (.dec w))
  else if fld w 31 1 = 0 ∧ fld w 26 4 = 8 ∧ fld w 17 5 = 0 then some (.vredOr (.dec w))
  else if fld w 31 1 = 0 ∧ fld w 26 4 = 10 ∧ fld w 17 5 = 0 then some (.vredXor (.dec w))
  else none

/-- The row of opcode 0x2C that the word is of, or none: a reserved selector, or a nonzero bit in a field
marked 0 (R95). -/
def rowVsign (w : Nat) : Option Instr :=
  if fld w 27 5 = 0 then some (.vsign (.dec w))
  else none

/-- The row of opcode 0x2D that the word is of, or none: a reserved selector, or a nonzero bit in a field
marked 0 (R95). Of b and Eb of vmov and of Eb of vsplat the spec says nothing; a word with one of them nonzero is illegal here
(DESIGN CHOICE, log entry 74). -/
def rowVmov (w : Nat) : Option Instr :=
  if fld w 26 6 = 0 ∧ fld w 17 5 = 0 then some (.vmov (.dec w))
  else if fld w 26 6 = 2 ∧ fld w 17 5 = 0 then some (.vsplat (.dec w))
  else if fld w 25 7 = 8 then some (.vsplati (.dec w))
  else if fld w 27 5 = 3 ∧ fld w 22 3 = 0 then some (.vget (.dec w))
  else if fld w 27 5 = 4 ∧ fld w 22 3 = 0 then some (.vput (.dec w))
  else none

/-- The row of opcode 0x2E that the word is of, or none: a reserved selector, or a nonzero bit in a field
marked 0 (R95). -/
def rowVtag (w : Nat) : Option Instr :=
  if fld w 31 1 = 0 ∧ fld w 12 6 = 0 then some (.vtag (.dec w))
  else if fld w 25 7 = 64 then some (.setvl (.dec w))
  else none

/-- The row of opcode 0x2F that the word is of, or none: a reserved selector, or a nonzero bit in a field
marked 0 (R95). -/
def rowVslide (w : Nat) : Option Instr :=
  if fld w 31 1 = 0 then some (.vslideUp (.dec w))
  else if fld w 31 1 = 1 then some (.vslideDn (.dec w))
  else none

/-- The row of opcode 0x30 that the word is of, or none: a reserved selector, or a nonzero bit in a field
marked 0 (R95). -/
def rowVld (w : Nat) : Option Instr :=
  if fld w 30 2 = 0 ∧ fld w 17 5 = 0 then some (.vld (.dec w))
  else none

/-- The row of opcode 0x31 that the word is of, or none: a reserved selector, or a nonzero bit in a field
marked 0 (R95). -/
def rowVst (w : Nat) : Option Instr :=
  if fld w 30 2 = 0 ∧ fld w 17 5 = 0 then some (.vst (.dec w))
  else none

/-- The row of opcode 0x32 that the word is of, or none: a reserved selector, or a nonzero bit in a field
marked 0 (R95). -/
def rowVlds (w : Nat) : Option Instr :=
  if fld w 30 2 = 0 then some (.vlds (.dec w))
  else none

/-- The row of opcode 0x33 that the word is of, or none: a reserved selector, or a nonzero bit in a field
marked 0 (R95). -/
def rowVsts (w : Nat) : Option Instr :=
  if fld w 30 2 = 0 then some (.vsts (.dec w))
  else none

/-- The row of opcode 0x34 that the word is of, or none: a reserved selector, or a nonzero bit in a field
marked 0 (R95). -/
def rowVldx (w : Nat) : Option Instr :=
  if fld w 30 2 = 0 then some (.vldx (.dec w))
  else if fld w 28 4 = 4 then some (.vldxC (.dec w))
  else if fld w 30 2 = 2 then some (.vldxDup (.dec w))
  else none

/-- The row of opcode 0x35 that the word is of, or none: a reserved selector, or a nonzero bit in a field
marked 0 (R95). -/
def rowVstx (w : Nat) : Option Instr :=
  if fld w 30 2 = 0 then some (.vstx (.dec w))
  else none

/-- The row of opcode 0x36 that the word is of, or none: a reserved selector, or a nonzero bit in a field
marked 0 (R95). -/
def rowVamo (w : Nat) : Option Instr :=
  if fld w 28 4 = 0 then some (.vamoAdd (.dec w))
  else if fld w 28 4 = 1 then some (.vamoAnd (.dec w))
  else if fld w 28 4 = 2 then some (.vamoOr (.dec w))
  else if fld w 28 4 = 3 then some (.vamoXor (.dec w))
  else if fld w 28 4 = 4 then some (.vamoMin (.dec w))
  else if fld w 28 4 = 5 then some (.vamoMax (.dec w))
  else if fld w 28 4 = 6 then some (.vamoMinu (.dec w))
  else if fld w 28 4 = 7 then some (.vamoMaxu (.dec w))
  else if fld w 28 4 = 8 then some (.vamoSwap (.dec w))
  else none

/-- The row of opcode 0x37 that the word is of, or none: a reserved selector, or a nonzero bit in a field
marked 0 (R95). -/
def rowVcomp (w : Nat) : Option Instr :=
  if fld w 26 6 = 0 ∧ fld w 17 5 = 0 then some (.vcomp (.dec w))
  else if fld w 26 6 = 2 ∧ fld w 17 5 = 0 then some (.vexpand (.dec w))
  else none

/-- The row of opcode 0x38 that the word is of, or none: a reserved selector, or a nonzero bit in a field
marked 0 (R95). -/
def rowVperm (w : Nat) : Option Instr :=
  if fld w 27 5 = 0 then some (.vperm (.dec w))
  else none

/-- The row of opcode 0x39 that the word is of, or none: a reserved selector, or a nonzero bit in a field
marked 0 (R95). -/
def rowVzip (w : Nat) : Option Instr :=
  if fld w 27 5 = 0 then some (.vzip (.dec w))
  else if fld w 27 5 = 1 then some (.vunzip (.dec w))
  else if fld w 27 5 = 2 then some (.vtrn (.dec w))
  else none

/-- The row of opcode 0x3A that the word is of, or none: a reserved selector, or a nonzero bit in a field
marked 0 (R95). -/
def rowKlog (w : Nat) : Option Instr :=
  if fld w 27 5 = 0 ∧ fld w 20 5 = 0 ∧ fld w 15 2 = 0 ∧ fld w 10 2 = 0 then some (.kand (.dec w))
  else if fld w 27 5 = 1 ∧ fld w 20 5 = 0 ∧ fld w 15 2 = 0 ∧ fld w 10 2 = 0 then some (.kor (.dec w))
  else if fld w 27 5 = 2 ∧ fld w 20 5 = 0 ∧ fld w 15 2 = 0 ∧ fld w 10 2 = 0 then some (.kxor (.dec w))
  else if fld w 26 6 = 6 ∧ fld w 15 10 = 0 ∧ fld w 10 2 = 0 then some (.knot (.dec w))
  else if fld w 27 5 = 4 ∧ fld w 20 5 = 0 ∧ fld w 15 2 = 0 ∧ fld w 10 2 = 0 then some (.kandn (.dec w))
  else if fld w 26 6 = 10 ∧ fld w 15 10 = 0 then some (.kpopc (.dec w))
  else if fld w 26 6 = 12 ∧ fld w 15 10 = 0 then some (.kfirst (.dec w))
  else none

/-- The row of opcode 0x3B that the word is of, or none: a reserved selector, or a nonzero bit in a field
marked 0 (R95). -/
def rowKvl (w : Nat) : Option Instr :=
  if fld w 26 6 = 0 ∧ fld w 17 8 = 0 ∧ fld w 10 2 = 0 then some (.kvl (.dec w))
  else if fld w 26 6 = 2 ∧ fld w 17 8 = 0 ∧ fld w 10 2 = 0 then some (.kfrom (.dec w))
  else if fld w 26 6 = 4 ∧ fld w 15 10 = 0 then some (.vlk (.dec w))
  else none

/-- The row of opcode 0x3C that the word is of, or none: a reserved selector, or a nonzero bit in a field
marked 0 (R95). -/
def rowVmcast (w : Nat) : Option Instr :=
  if fld w 27 5 = 0 ∧ fld w 7 5 = 0 then some (.vmcast (.dec w))
  else none

/-- The row of opcode 0x3D that the word is of, or none: a reserved selector, or a nonzero bit in a field
marked 0 (R95). -/
def rowVrecv (w : Nat) : Option Instr :=
  if fld w 12 20 = 0 then some (.vrecv (.dec w))
  else none

/-- The row of opcode 0x3E that the word is of, or none: a reserved selector, or a nonzero bit in a field
marked 0 (R95). -/
def rowViota (w : Nat) : Option Instr :=
  if fld w 26 6 = 0 ∧ fld w 15 7 = 0 then some (.viota (.dec w))
  else if fld w 25 7 = 4 ∧ fld w 12 10 = 0 then some (.vidx (.dec w))
  else none

/-- The row of opcode 0x3F that the word is of, or none: a reserved selector, or a nonzero bit in a field
marked 0 (R95). -/
def rowVflg (w : Nat) : Option Instr :=
  if fld w 25 7 = 0 ∧ fld w 12 10 = 0 then some (.vflgRd (.dec w))
  else if fld w 25 7 = 4 ∧ fld w 7 15 = 0 then some (.vflgClr (.dec w))
  else none

/-- The row of opcode 0x40 that the word is of, or none: a reserved selector, or a nonzero bit in a field
marked 0 (R95). -/
def rowWld (w : Nat) : Option Instr :=
  if fld w 30 1 = 0 ∧ fld w 22 3 = 0 ∧ fld w 9 4 = 0 then some (.wld (.dec w))
  else none

/-- The row of opcode 0x41 that the word is of, or none: a reserved selector, or a nonzero bit in a field
marked 0 (R95). -/
def rowWst (w : Nat) : Option Instr :=
  if fld w 30 1 = 0 ∧ fld w 22 3 = 0 ∧ fld w 9 4 = 0 then some (.wst (.dec w))
  else none

/-- The row of opcode 0x42 that the word is of, or none: a reserved selector, or a nonzero bit in a field
marked 0 (R95). -/
noncomputable def rowWmul (w : Nat) : Option Instr :=
  if fld w 22 9 = 0 ∧ fld w 13 5 = 0 then some (.wmul (.dec w))
  else if fld w 22 9 = 1 ∧ fld w 13 5 = 0 then some (.wmac (.dec w))
  else if fld w 22 9 = 2 ∧ fld w 13 5 = 0 then some (.wmult (.dec w))
  else none

/-- The row of opcode 0x43 that the word is of, or none: a reserved selector, or a nonzero bit in a field
marked 0 (R95). -/
noncomputable def rowWchol (w : Nat) : Option Instr :=
  if fld w 25 6 = 0 ∧ fld w 9 9 = 0 then some (.wchol (.dec w))
  else none

/-- The row of opcode 0x44 that the word is of, or none: a reserved selector, or a nonzero bit in a field
marked 0 (R95). -/
noncomputable def rowWlu (w : Nat) : Option Instr :=
  if fld w 25 6 = 0 ∧ fld w 9 4 = 0 then some (.wlu (.dec w))
  else none

/-- The row of opcode 0x45 that the word is of, or none: a reserved selector, or a nonzero bit in a field
marked 0 (R95). -/
noncomputable def rowWsolve (w : Nat) : Option Instr :=
  if fld w 22 9 = 0 ∧ fld w 11 2 = 0 then some (.wsolveC (.dec w))
  else if fld w 22 9 = 8 ∧ fld w 11 2 = 0 then some (.wsolveP (.dec w))
  else none

/-- The row of opcode 0x46 that the word is of, or none: a reserved selector, or a nonzero bit in a field
marked 0 (R95). -/
noncomputable def rowWadd (w : Nat) : Option Instr :=
  if fld w 22 9 = 0 ∧ fld w 13 5 = 0 then some (.wadd (.dec w))
  else if fld w 22 9 = 1 ∧ fld w 13 5 = 0 then some (.wsub (.dec w))
  else if fld w 22 9 = 2 ∧ fld w 11 2 = 0 then some (.wscal (.dec w))
  else if fld w 22 9 = 3 ∧ fld w 11 7 = 0 then some (.wtrn (.dec w))
  else if fld w 22 9 = 4 ∧ fld w 9 9 = 0 then some (.wid (.dec w))
  else if fld w 22 9 = 5 ∧ fld w 11 7 = 0 then some (.wcpy (.dec w))
  else if fld w 31 1 = 0 ∧ fld w 7 18 = 196608 then some (.wdim (.dec w))
  else none

/-- The row of opcode 0x47 that the word is of, or none: a reserved selector, or a nonzero bit in a field
marked 0 (R95). -/
noncomputable def rowWget (w : Nat) : Option Instr :=
  if fld w 22 3 = 0 ∧ fld w 11 2 = 0 ∧ fld w 7 2 = 0 then some (.wget (.dec w))
  else if fld w 22 3 = 1 ∧ fld w 9 4 = 0 then some (.wput (.dec w))
  else none

/-- The row of opcode 0x48 that the word is of, or none: a reserved selector, or a nonzero bit in a field
marked 0 (R95). -/
noncomputable def rowTclaim (w : Nat) : Option Instr :=
  if fld w 10 22 = 0 then some (.tclaim (.dec w))
  else if fld w 10 22 = 8192 then some (.trel (.dec w))
  else if fld w 23 9 = 2 ∧ fld w 10 7 = 0 then some (.tacc (.dec w))
  else none

/-- The row of opcode 0x49 that the word is of, or none: a reserved selector, or a nonzero bit in a field
marked 0 (R95). -/
noncomputable def rowTmma (w : Nat) : Option Instr :=
  if fld w 28 4 = 0 then some (.tmma (.dec w))
  else none

/-- The row of opcode 0x4A that the word is of, or none: a reserved selector, or a nonzero bit in a field
marked 0 (R95). -/
noncomputable def rowTmms (w : Nat) : Option Instr :=
  if fld w 28 4 = 0 then some (.tmms (.dec w))
  else none

/-- The row of opcode 0x4B that the word is of, or none: a reserved selector, or a nonzero bit in a field
marked 0 (R95). -/
noncomputable def rowTread (w : Nat) : Option Instr :=
  if fld w 29 3 = 0 ∧ fld w 10 7 = 0 then some (.tread (.dec w))
  else none

/-- The row of opcode 0x4C that the word is of, or none: a reserved selector, or a nonzero bit in a field
marked 0 (R95). -/
noncomputable def rowTwrite (w : Nat) : Option Instr :=
  if fld w 29 3 = 0 ∧ fld w 10 7 = 0 then some (.twrite (.dec w))
  else none

/-- The row of opcode 0x4D that the word is of, or none: a reserved selector, or a nonzero bit in a field
marked 0 (R95). -/
noncomputable def rowTwait (w : Nat) : Option Instr :=
  if fld w 10 22 = 0 then some (.twait (.dec w))
  else none

/-- The row of opcode 0x4E that the word is of, or none: a reserved selector, or a nonzero bit in a field
marked 0 (R95). -/
noncomputable def rowTepi (w : Nat) : Option Instr :=
  if fld w 10 7 = 0 then some (.tepi (.dec w))
  else none

/-- The row of opcode 0x4F that the word is of, or none: a reserved selector, or a nonzero bit in a field
marked 0 (R95). -/
noncomputable def rowFilm (w : Nat) : Option Instr :=
  if fld w 23 9 = 0 ∧ fld w 12 5 = 0 ∧ fld w 7 3 = 0 then some (.fopen (.dec w))
  else if fld w 12 20 = 2048 ∧ fld w 7 3 = 0 then some (.fclose (.dec w))
  else if fld w 12 20 = 4096 ∧ fld w 7 3 = 0 then some (.fdrop (.dec w))
  else if fld w 23 9 = 3 ∧ fld w 12 6 = 0 ∧ fld w 7 3 = 0 then some (.fstat (.dec w))
  else none

/-- The row of opcode 0x50 that the word is of, or none: a reserved selector, or a nonzero bit in a field
marked 0 (R95). -/
noncomputable def rowCpy (w : Nat) : Option Instr :=
  if fld w 31 1 = 0 ∧ fld w 26 1 = 0 then some (.cpy (.dec w))
  else if fld w 31 1 = 0 ∧ fld w 26 1 = 1 then some (.cpyM (.dec w))
  else none

/-- The row of opcode 0x51 that the word is of, or none: a reserved selector, or a nonzero bit in a field
marked 0 (R95). -/
noncomputable def rowGath (w : Nat) : Option Instr :=
  if fld w 31 1 = 0 ∧ fld w 25 2 = 0 then some (.gath (.dec w))
  else none

/-- The row of opcode 0x52 that the word is of, or none: a reserved selector, or a nonzero bit in a field
marked 0 (R95). -/
noncomputable def rowChan (w : Nat) : Option Instr :=
  if fld w 28 4 = 0 ∧ fld w 25 2 = 0 ∧ fld w 12 10 = 0 then some (.chanWm (.dec w))
  else if fld w 28 4 = 1 ∧ fld w 25 2 = 0 ∧ fld w 7 15 = 0 then some (.chanWait (.dec w))
  else if fld w 28 4 = 2 ∧ fld w 25 2 = 0 ∧ fld w 7 15 = 0 then some (.chanCancel (.dec w))
  else if fld w 28 4 = 3 ∧ fld w 25 2 = 0 ∧ fld w 12 10 = 0 then some (.chanStat (.dec w))
  else none

/-- The row of opcode 0x53 that the word is of, or none: a reserved selector, or a nonzero bit in a field
marked 0 (R95). -/
noncomputable def rowEnq (w : Nat) : Option Instr :=
  if fld w 28 4 = 0 ∧ fld w 22 5 = 0 then some (.enqTask (.dec w))
  else if fld w 28 4 = 1 ∧ fld w 22 5 = 0 then some (.enqLaunch (.dec w))
  else none

/-- The row of opcode 0x54 that the word is of, or none: a reserved selector, or a nonzero bit in a field
marked 0 (R95). -/
noncomputable def rowDepd (w : Nat) : Option Instr :=
  if fld w 28 4 = 0 ∧ fld w 22 5 = 0 then some (.depd (.dec w))
  else none

/-- The row of opcode 0x55 that the word is of, or none: a reserved selector, or a nonzero bit in a field
marked 0 (R95). -/
noncomputable def rowPgrant (w : Nat) : Option Instr :=
  if fld w 12 20 = 0 then some (.pgrant (.dec w))
  else none

/-- The row of opcode 0x56 that the word is of, or none: a reserved selector, or a nonzero bit in a field
marked 0 (R95). -/
noncomputable def rowTdone (w : Nat) : Option Instr :=
  if fld w 7 25 = 0 then some (.tdone)
  else none

/-- The row of opcode 0x57 that the word is of, or none: a reserved selector, or a nonzero bit in a field
marked 0 (R95). -/
noncomputable def rowLsplit (w : Nat) : Option Instr :=
  if fld w 10 2 = 0 then some (.lsplit (.dec w))
  else none

/-- The row of opcode 0x58 that the word is of, or none: a reserved selector, or a nonzero bit in a field
marked 0 (R95). -/
noncomputable def rowLjoin (w : Nat) : Option Instr :=
  if fld w 7 25 = 0 then some (.ljoin)
  else none

/-- The row of opcode 0x59 that the word is of, or none: a reserved selector, or a nonzero bit in a field
marked 0 (R95). -/
noncomputable def rowYield (w : Nat) : Option Instr :=
  if fld w 7 25 = 0 then some (.yield)
  else none

/-- The row of opcode 0x5A that the word is of, or none: a reserved selector, or a nonzero bit in a field
marked 0 (R95). -/
noncomputable def rowTrap (w : Nat) : Option Instr :=
  if fld w 7 11 = 0 then some (.trap (.dec w))
  else none

/-- The row of opcode 0x5B that the word is of, or none: a reserved selector, or a nonzero bit in a field
marked 0 (R95). -/
noncomputable def rowTret (w : Nat) : Option Instr :=
  if fld w 7 25 = 0 then some (.tret)
  else none

/-- The row of opcode 0x5C that the word is of, or none: a reserved selector, or a nonzero bit in a field
marked 0 (R95). -/
noncomputable def rowShut (w : Nat) : Option Instr :=
  if fld w 7 25 = 0 then some (.shut)
  else none

/-- The row of opcode 0x5D that the word is of, or none: a reserved selector, or a nonzero bit in a field
marked 0 (R95). -/
noncomputable def rowHalt (w : Nat) : Option Instr :=
  if fld w 7 25 = 0 then some (.halt)
  else none

/-- The row of opcode 0x5E that the word is of, or none: a reserved selector, or a nonzero bit in a field
marked 0 (R95). -/
noncomputable def rowBrk (w : Nat) : Option Instr :=
  if fld w 7 11 = 0 then some (.brk (.dec w))
  else none

/-- The row of opcode 0x5F that the word is of, or none: a reserved selector, or a nonzero bit in a field
marked 0 (R95). -/
noncomputable def rowProbe (w : Nat) : Option Instr :=
  if fld w 29 3 = 0 ∧ fld w 26 1 = 0 ∧ fld w 17 8 = 0 then some (.probe (.dec w))
  else none

/-- The row of the opcode table a word is of (R93 to R95): none where no row of its opcode admits the word. -/
noncomputable def rowOf (w : Nat) : Option Instr :=
  match w % 128 with
  | 0x00 => some (.zeroWord (.dec w))
  | 0x01 => rowAlu w
  | 0x02 => rowAddi w
  | 0x03 => rowAndi w
  | 0x04 => rowOri w
  | 0x05 => rowXori w
  | 0x06 => rowShiftI w
  | 0x07 => rowSlti w
  | 0x08 => rowSetK w
  | 0x09 => rowAddpc w
  | 0x0A => rowBr w
  | 0x0B => rowBrm w
  | 0x0C => rowJal w
  | 0x0D => rowJalr w
  | 0x0E => rowLoop w
  | 0x0F => rowRpt w
  | 0x10 => rowLd w
  | 0x11 => rowSt w
  | 0x12 => rowLdp w
  | 0x13 => rowStp w
  | 0x14 => rowLdacq w
  | 0x15 => rowStrel w
  | 0x16 => rowAmo w
  | 0x17 => rowCas w
  | 0x18 => rowFence w
  | 0x19 => rowXfence w
  | 0x1A => rowWaita w
  | 0x1B => rowBar w
  | 0x1C => rowCline w
  | 0x1D => rowStash w
  | 0x1E => rowPref w
  | 0x1F => rowSpr w
  | 0x20 => rowVv w
  | 0x21 => rowVs w
  | 0x22 => rowVi w
  | 0x23 => rowVfma w
  | 0x24 => rowVmacw w
  | 0x25 => rowVcmp w
  | 0x26 => rowVsel w
  | 0x27 => rowVcvt w
  | 0x28 => rowVshrr w
  | 0x29 => rowMath w
  | 0x2A => rowVdot w
  | 0x2B => rowVred w
  | 0x2C => rowVsign w
  | 0x2D => rowVmov w
  | 0x2E => rowVtag w
  | 0x2F => rowVslide w
  | 0x30 => rowVld w
  | 0x31 => rowVst w
  | 0x32 => rowVlds w
  | 0x33 => rowVsts w
  | 0x34 => rowVldx w
  | 0x35 => rowVstx w
  | 0x36 => rowVamo w
  | 0x37 => rowVcomp w
  | 0x38 => rowVperm w
  | 0x39 => rowVzip w
  | 0x3A => rowKlog w
  | 0x3B => rowKvl w
  | 0x3C => rowVmcast w
  | 0x3D => rowVrecv w
  | 0x3E => rowViota w
  | 0x3F => rowVflg w
  | 0x40 => rowWld w
  | 0x41 => rowWst w
  | 0x42 => rowWmul w
  | 0x43 => rowWchol w
  | 0x44 => rowWlu w
  | 0x45 => rowWsolve w
  | 0x46 => rowWadd w
  | 0x47 => rowWget w
  | 0x48 => rowTclaim w
  | 0x49 => rowTmma w
  | 0x4A => rowTmms w
  | 0x4B => rowTread w
  | 0x4C => rowTwrite w
  | 0x4D => rowTwait w
  | 0x4E => rowTepi w
  | 0x4F => rowFilm w
  | 0x50 => rowCpy w
  | 0x51 => rowGath w
  | 0x52 => rowChan w
  | 0x53 => rowEnq w
  | 0x54 => rowDepd w
  | 0x55 => rowPgrant w
  | 0x56 => rowTdone w
  | 0x57 => rowLsplit w
  | 0x58 => rowLjoin w
  | 0x59 => rowYield w
  | 0x5A => rowTrap w
  | 0x5B => rowTret w
  | 0x5C => rowShut w
  | 0x5D => rowHalt w
  | 0x5E => rowBrk w
  | 0x5F => rowProbe w
  | _ => some (.reservedOpcode (.dec w))

/-- The instruction a word stands for. A word of no row, or of a row with a reserved value, a register outside its class
or an odd register where an even one is required, is illegal (R96). -/
noncomputable def decode (w : BitVec 32) : Instr :=
  match rowOf w.toNat with
  | some i => if i.wf then i else .illegal w
  | none => .illegal w

/-- Why bytes hold no instruction word. -/
inductive DecodeError where
  /-- fewer than four bytes are left (R88) -/
  | truncated
deriving DecidableEq, Repr

/-- The word in four bytes, the first byte lowest (R7, R88). -/
def wordOfBytes (b0 b1 b2 b3 : Byte) : BitVec 32 :=
  BitVec.ofNat 32 (b0.toNat + 256 * b1.toNat + 65536 * b2.toNat + 16777216 * b3.toNat)

/-- The instruction in the first four bytes, with the bytes left over: total on any bytes. -/
noncomputable def decodeBytes (bs : List Byte) : Except DecodeError (Instr × List Byte) :=
  match bs with
  | b0 :: b1 :: b2 :: b3 :: rest => .ok (decode (wordOfBytes b0 b1 b2 b3), rest)
  | _ => .error .truncated

/-- The four bytes of a word as memory holds them, lowest address first (R7, R88). -/
def bytesOfWord (w : BitVec 32) : List Byte :=
  [w.setWidth 8, (w >>> 8).setWidth 8, (w >>> 16).setWidth 8, (w >>> 24).setWidth 8]

/-- What the decoder reads from an instruction whose bits, numbered as the opcode table numbers them, are `w`: one word
of 32 bits. -/
noncomputable def decodeTableWord (nbits w : Nat) : Option Instr :=
  if nbits ≤ 32 then
    match decodeBytes (bytesOfWord (BitVec.ofNat 32 w)) with
    | .ok (i, _) => some i
    | .error _ => none
  else none

/-- The word of an instruction (R88, R89): its fixed bits and the bits of its operands. A machine step has no word. -/
def encode (i : Instr) : Option (BitVec 32) :=
  match i with
  | .zeroWord x => some (BitVec.ofNat 32 (0x00000000 + x.enc))
  | .reservedOpcode x => some (BitVec.ofNat 32 (0x00000060 + x.enc))
  | .add x => some (BitVec.ofNat 32 (0x00000001 + x.enc))
  | .sub x => some (BitVec.ofNat 32 (0x08000001 + x.enc))
  | .and x => some (BitVec.ofNat 32 (0x10000001 + x.enc))
  | .or x => some (BitVec.ofNat 32 (0x18000001 + x.enc))
  | .xor x => some (BitVec.ofNat 32 (0x20000001 + x.enc))
  | .andn x => some (BitVec.ofNat 32 (0x28000001 + x.enc))
  | .orn x => some (BitVec.ofNat 32 (0x30000001 + x.enc))
  | .shl x => some (BitVec.ofNat 32 (0x38000001 + x.enc))
  | .shr x => some (BitVec.ofNat 32 (0x40000001 + x.enc))
  | .sar x => some (BitVec.ofNat 32 (0x48000001 + x.enc))
  | .rol x => some (BitVec.ofNat 32 (0x50000001 + x.enc))
  | .ror x => some (BitVec.ofNat 32 (0x58000001 + x.enc))
  | .slt x => some (BitVec.ofNat 32 (0x60000001 + x.enc))
  | .sltu x => some (BitVec.ofNat 32 (0x68000001 + x.enc))
  | .min x => some (BitVec.ofNat 32 (0x70000001 + x.enc))
  | .max x => some (BitVec.ofNat 32 (0x78000001 + x.enc))
  | .minu x => some (BitVec.ofNat 32 (0x80000001 + x.enc))
  | .maxu x => some (BitVec.ofNat 32 (0x88000001 + x.enc))
  | .mul x => some (BitVec.ofNat 32 (0x90000001 + x.enc))
  | .mulh x => some (BitVec.ofNat 32 (0x98000001 + x.enc))
  | .mulhu x => some (BitVec.ofNat 32 (0xA0000001 + x.enc))
  | .div x => some (BitVec.ofNat 32 (0xA8000001 + x.enc))
  | .divu x => some (BitVec.ofNat 32 (0xB0000001 + x.enc))
  | .rem x => some (BitVec.ofNat 32 (0xB8000001 + x.enc))
  | .remu x => some (BitVec.ofNat 32 (0xC0000001 + x.enc))
  | .clz x => some (BitVec.ofNat 32 (0xF8000001 + x.enc))
  | .ctz x => some (BitVec.ofNat 32 (0xF8020001 + x.enc))
  | .popc x => some (BitVec.ofNat 32 (0xF8040001 + x.enc))
  | .bswap x => some (BitVec.ofNat 32 (0xF8060001 + x.enc))
  | .sextB x => some (BitVec.ofNat 32 (0xF8080001 + x.enc))
  | .sextH x => some (BitVec.ofNat 32 (0xF80A0001 + x.enc))
  | .sextW x => some (BitVec.ofNat 32 (0xF80C0001 + x.enc))
  | .zextW x => some (BitVec.ofNat 32 (0xF80E0001 + x.enc))
  | .addi x => some (BitVec.ofNat 32 (0x00000002 + x.enc))
  | .andi x => some (BitVec.ofNat 32 (0x00000003 + x.enc))
  | .ori x => some (BitVec.ofNat 32 (0x00000004 + x.enc))
  | .xori x => some (BitVec.ofNat 32 (0x00000005 + x.enc))
  | .shli x => some (BitVec.ofNat 32 (0x00000006 + x.enc))
  | .shri x => some (BitVec.ofNat 32 (0x01000006 + x.enc))
  | .sari x => some (BitVec.ofNat 32 (0x02000006 + x.enc))
  | .roli x => some (BitVec.ofNat 32 (0x03000006 + x.enc))
  | .slti x => some (BitVec.ofNat 32 (0x00000007 + x.enc))
  | .sltiu x => some (BitVec.ofNat 32 (0x80000007 + x.enc))
  | .setk x => some (BitVec.ofNat 32 (0x00000008 + x.enc))
  | .setz x => some (BitVec.ofNat 32 (0x00004008 + x.enc))
  | .addpc x => some (BitVec.ofNat 32 (0x00000009 + x.enc))
  | .brEq x => some (BitVec.ofNat 32 (0x0000000A + x.enc))
  | .brNe x => some (BitVec.ofNat 32 (0x0002000A + x.enc))
  | .brLt x => some (BitVec.ofNat 32 (0x0004000A + x.enc))
  | .brGe x => some (BitVec.ofNat 32 (0x0006000A + x.enc))
  | .brLtu x => some (BitVec.ofNat 32 (0x0008000A + x.enc))
  | .brGeu x => some (BitVec.ofNat 32 (0x000A000A + x.enc))
  | .brmAny x => some (BitVec.ofNat 32 (0x0000000B + x.enc))
  | .brmAll x => some (BitVec.ofNat 32 (0x0000040B + x.enc))
  | .brmNone x => some (BitVec.ofNat 32 (0x0000080B + x.enc))
  | .jal x => some (BitVec.ofNat 32 (0x0000000C + x.enc))
  | .jalr x => some (BitVec.ofNat 32 (0x0000000D + x.enc))
  | .loop x => some (BitVec.ofNat 32 (0x0000000E + x.enc))
  | .loopi x => some (BitVec.ofNat 32 (0x0000100E + x.enc))
  | .lbrk => some (BitVec.ofNat 32 0x0200000E)
  | .rpt x => some (BitVec.ofNat 32 (0x0000000F + x.enc))
  | .ldBz x => some (BitVec.ofNat 32 (0x00000010 + x.enc))
  | .ldBs x => some (BitVec.ofNat 32 (0x00080010 + x.enc))
  | .ldHz x => some (BitVec.ofNat 32 (0x00020010 + x.enc))
  | .ldHs x => some (BitVec.ofNat 32 (0x000A0010 + x.enc))
  | .ldWz x => some (BitVec.ofNat 32 (0x00040010 + x.enc))
  | .ldWs x => some (BitVec.ofNat 32 (0x000C0010 + x.enc))
  | .ldD x => some (BitVec.ofNat 32 (0x00060010 + x.enc))
  | .stB x => some (BitVec.ofNat 32 (0x00000011 + x.enc))
  | .stH x => some (BitVec.ofNat 32 (0x00020011 + x.enc))
  | .stW x => some (BitVec.ofNat 32 (0x00040011 + x.enc))
  | .stD x => some (BitVec.ofNat 32 (0x00060011 + x.enc))
  | .ldp x => some (BitVec.ofNat 32 (0x00060012 + x.enc))
  | .stp x => some (BitVec.ofNat 32 (0x00060013 + x.enc))
  | .ldacq x => some (BitVec.ofNat 32 (0x00000014 + x.enc))
  | .strel x => some (BitVec.ofNat 32 (0x00000015 + x.enc))
  | .amoAdd x => some (BitVec.ofNat 32 (0x00000016 + x.enc))
  | .amoAnd x => some (BitVec.ofNat 32 (0x00400016 + x.enc))
  | .amoOr x => some (BitVec.ofNat 32 (0x00800016 + x.enc))
  | .amoXor x => some (BitVec.ofNat 32 (0x00C00016 + x.enc))
  | .amoMin x => some (BitVec.ofNat 32 (0x01000016 + x.enc))
  | .amoMax x => some (BitVec.ofNat 32 (0x01400016 + x.enc))
  | .amoMinu x => some (BitVec.ofNat 32 (0x01800016 + x.enc))
  | .amoMaxu x => some (BitVec.ofNat 32 (0x01C00016 + x.enc))
  | .amoSwap x => some (BitVec.ofNat 32 (0x02000016 + x.enc))
  | .cas x => some (BitVec.ofNat 32 (0x00000017 + x.enc))
  | .casQ x => some (BitVec.ofNat 32 (0x80000017 + x.enc))
  | .fenceAcq x => some (BitVec.ofNat 32 (0x00000018 + x.enc))
  | .fenceRel x => some (BitVec.ofNat 32 (0x08000018 + x.enc))
  | .fenceAr x => some (BitVec.ofNat 32 (0x10000018 + x.enc))
  | .fenceSc x => some (BitVec.ofNat 32 (0x18000018 + x.enc))
  | .xfenceAll x => some (BitVec.ofNat 32 (0x00000019 + x.enc))
  | .xfenceSpace x => some (BitVec.ofNat 32 (0x08000019 + x.enc))
  | .xfencePage x => some (BitVec.ofNat 32 (0x10000019 + x.enc))
  | .waita x => some (BitVec.ofNat 32 (0x0000001A + x.enc))
  | .barArr x => some (BitVec.ofNat 32 (0x0000001B + x.enc))
  | .barWait x => some (BitVec.ofNat 32 (0x0800001B + x.enc))
  | .barAw x => some (BitVec.ofNat 32 (0x1000001B + x.enc))
  | .clineClean x => some (BitVec.ofNat 32 (0x0000001C + x.enc))
  | .clineInv x => some (BitVec.ofNat 32 (0x0800001C + x.enc))
  | .clineFlush x => some (BitVec.ofNat 32 (0x1000001C + x.enc))
  | .clineZero x => some (BitVec.ofNat 32 (0x1800001C + x.enc))
  | .stashMap x => some (BitVec.ofNat 32 (0x0000001D + x.enc))
  | .stashUnmap x => some (BitVec.ofNat 32 (0x0800001D + x.enc))
  | .stashFlush x => some (BitVec.ofNat 32 (0x1000001D + x.enc))
  | .stashPin x => some (BitVec.ofNat 32 (0x1800001D + x.enc))
  | .stashUnpin x => some (BitVec.ofNat 32 (0x2000001D + x.enc))
  | .prefL2 x => some (BitVec.ofNat 32 (0x0000001E + x.enc))
  | .prefLlc x => some (BitVec.ofNat 32 (0x0800001E + x.enc))
  | .prefStash x => some (BitVec.ofNat 32 (0x1000001E + x.enc))
  | .rdspr x => some (BitVec.ofNat 32 (0x0000001F + x.enc))
  | .wrspr x => some (BitVec.ofNat 32 (0x4000001F + x.enc))
  | .vadd x => some (BitVec.ofNat 32 (0x00000020 + x.enc))
  | .vsub x => some (BitVec.ofNat 32 (0x08000020 + x.enc))
  | .vmul x => some (BitVec.ofNat 32 (0x10000020 + x.enc))
  | .vmin x => some (BitVec.ofNat 32 (0x18000020 + x.enc))
  | .vmax x => some (BitVec.ofNat 32 (0x20000020 + x.enc))
  | .vand x => some (BitVec.ofNat 32 (0x28000020 + x.enc))
  | .vor x => some (BitVec.ofNat 32 (0x30000020 + x.enc))
  | .vxor x => some (BitVec.ofNat 32 (0x38000020 + x.enc))
  | .vshl x => some (BitVec.ofNat 32 (0x40000020 + x.enc))
  | .vshr x => some (BitVec.ofNat 32 (0x48000020 + x.enc))
  | .vsar x => some (BitVec.ofNat 32 (0x50000020 + x.enc))
  | .vabd x => some (BitVec.ofNat 32 (0x58000020 + x.enc))
  | .vavg x => some (BitVec.ofNat 32 (0x60000020 + x.enc))
  | .vadds x => some (BitVec.ofNat 32 (0x68000020 + x.enc))
  | .vsubs x => some (BitVec.ofNat 32 (0x70000020 + x.enc))
  | .vmulh x => some (BitVec.ofNat 32 (0x78000020 + x.enc))
  | .vaddS x => some (BitVec.ofNat 32 (0x00000021 + x.enc))
  | .vsubS x => some (BitVec.ofNat 32 (0x08000021 + x.enc))
  | .vmulS x => some (BitVec.ofNat 32 (0x10000021 + x.enc))
  | .vminS x => some (BitVec.ofNat 32 (0x18000021 + x.enc))
  | .vmaxS x => some (BitVec.ofNat 32 (0x20000021 + x.enc))
  | .vandS x => some (BitVec.ofNat 32 (0x28000021 + x.enc))
  | .vorS x => some (BitVec.ofNat 32 (0x30000021 + x.enc))
  | .vxorS x => some (BitVec.ofNat 32 (0x38000021 + x.enc))
  | .vshlS x => some (BitVec.ofNat 32 (0x40000021 + x.enc))
  | .vshrS x => some (BitVec.ofNat 32 (0x48000021 + x.enc))
  | .vsarS x => some (BitVec.ofNat 32 (0x50000021 + x.enc))
  | .vabdS x => some (BitVec.ofNat 32 (0x58000021 + x.enc))
  | .vavgS x => some (BitVec.ofNat 32 (0x60000021 + x.enc))
  | .vaddsS x => some (BitVec.ofNat 32 (0x68000021 + x.enc))
  | .vsubsS x => some (BitVec.ofNat 32 (0x70000021 + x.enc))
  | .vmulhS x => some (BitVec.ofNat 32 (0x78000021 + x.enc))
  | .vaddI x => some (BitVec.ofNat 32 (0x00000022 + x.enc))
  | .vsubI x => some (BitVec.ofNat 32 (0x08000022 + x.enc))
  | .vmulI x => some (BitVec.ofNat 32 (0x10000022 + x.enc))
  | .vminI x => some (BitVec.ofNat 32 (0x18000022 + x.enc))
  | .vmaxI x => some (BitVec.ofNat 32 (0x20000022 + x.enc))
  | .vandI x => some (BitVec.ofNat 32 (0x28000022 + x.enc))
  | .vorI x => some (BitVec.ofNat 32 (0x30000022 + x.enc))
  | .vxorI x => some (BitVec.ofNat 32 (0x38000022 + x.enc))
  | .vshlI x => some (BitVec.ofNat 32 (0x40000022 + x.enc))
  | .vshrI x => some (BitVec.ofNat 32 (0x48000022 + x.enc))
  | .vsarI x => some (BitVec.ofNat 32 (0x50000022 + x.enc))
  | .vabdI x => some (BitVec.ofNat 32 (0x58000022 + x.enc))
  | .vavgI x => some (BitVec.ofNat 32 (0x60000022 + x.enc))
  | .vaddsI x => some (BitVec.ofNat 32 (0x68000022 + x.enc))
  | .vsubsI x => some (BitVec.ofNat 32 (0x70000022 + x.enc))
  | .vmulhI x => some (BitVec.ofNat 32 (0x78000022 + x.enc))
  | .vfma x => some (BitVec.ofNat 32 (0x00000023 + x.enc))
  | .vfms x => some (BitVec.ofNat 32 (0x08000023 + x.enc))
  | .vfnma x => some (BitVec.ofNat 32 (0x10000023 + x.enc))
  | .vfnms x => some (BitVec.ofNat 32 (0x18000023 + x.enc))
  | .vmacw x => some (BitVec.ofNat 32 (0x00000024 + x.enc))
  | .vcmpEq x => some (BitVec.ofNat 32 (0x00000025 + x.enc))
  | .vcmpNe x => some (BitVec.ofNat 32 (0x08000025 + x.enc))
  | .vcmpLt x => some (BitVec.ofNat 32 (0x10000025 + x.enc))
  | .vcmpLe x => some (BitVec.ofNat 32 (0x18000025 + x.enc))
  | .vcmpGt x => some (BitVec.ofNat 32 (0x20000025 + x.enc))
  | .vcmpGe x => some (BitVec.ofNat 32 (0x28000025 + x.enc))
  | .vcmpUn x => some (BitVec.ofNat 32 (0x30000025 + x.enc))
  | .vsel x => some (BitVec.ofNat 32 (0x00000026 + x.enc))
  | .vcvt x => some (BitVec.ofNat 32 (0x00000027 + x.enc))
  | .vshrr x => some (BitVec.ofNat 32 (0x00000028 + x.enc))
  | .vdiv x => some (BitVec.ofNat 32 (0x00000029 + x.enc))
  | .vsqrt x => some (BitVec.ofNat 32 (0x08000029 + x.enc))
  | .vrcp x => some (BitVec.ofNat 32 (0x10000029 + x.enc))
  | .vrsqrt x => some (BitVec.ofNat 32 (0x18000029 + x.enc))
  | .vexp2 x => some (BitVec.ofNat 32 (0x20000029 + x.enc))
  | .vlog2 x => some (BitVec.ofNat 32 (0x28000029 + x.enc))
  | .vdot x => some (BitVec.ofNat 32 (0x0000002A + x.enc))
  | .vredSum x => some (BitVec.ofNat 32 (0x0000002B + x.enc))
  | .vredMax x => some (BitVec.ofNat 32 (0x0800002B + x.enc))
  | .vredMin x => some (BitVec.ofNat 32 (0x1000002B + x.enc))
  | .vredAnd x => some (BitVec.ofNat 32 (0x1800002B + x.enc))
  | .vredOr x => some (BitVec.ofNat 32 (0x2000002B + x.enc))
  | .vredXor x => some (BitVec.ofNat 32 (0x2800002B + x.enc))
  | .vsign x => some (BitVec.ofNat 32 (0x0000002C + x.enc))
  | .vmov x => some (BitVec.ofNat 32 (0x0000002D + x.enc))
  | .vsplat x => some (BitVec.ofNat 32 (0x0800002D + x.enc))
  | .vsplati x => some (BitVec.ofNat 32 (0x1000002D + x.enc))
  | .vget x => some (BitVec.ofNat 32 (0x1800002D + x.enc))
  | .vput x => some (BitVec.ofNat 32 (0x2000002D + x.enc))
  | .vtag x => some (BitVec.ofNat 32 (0x0000002E + x.enc))
  | .setvl x => some (BitVec.ofNat 32 (0x8000002E + x.enc))
  | .vslideUp x => some (BitVec.ofNat 32 (0x0000002F + x.enc))
  | .vslideDn x => some (BitVec.ofNat 32 (0x8000002F + x.enc))
  | .vld x => some (BitVec.ofNat 32 (0x00000030 + x.enc))
  | .vst x => some (BitVec.ofNat 32 (0x00000031 + x.enc))
  | .vlds x => some (BitVec.ofNat 32 (0x00000032 + x.enc))
  | .vsts x => some (BitVec.ofNat 32 (0x00000033 + x.enc))
  | .vldx x => some (BitVec.ofNat 32 (0x00000034 + x.enc))
  | .vldxC x => some (BitVec.ofNat 32 (0x40000034 + x.enc))
  | .vldxDup x => some (BitVec.ofNat 32 (0x80000034 + x.enc))
  | .vstx x => some (BitVec.ofNat 32 (0x00000035 + x.enc))
  | .vamoAdd x => some (BitVec.ofNat 32 (0x00000036 + x.enc))
  | .vamoAnd x => some (BitVec.ofNat 32 (0x10000036 + x.enc))
  | .vamoOr x => some (BitVec.ofNat 32 (0x20000036 + x.enc))
  | .vamoXor x => some (BitVec.ofNat 32 (0x30000036 + x.enc))
  | .vamoMin x => some (BitVec.ofNat 32 (0x40000036 + x.enc))
  | .vamoMax x => some (BitVec.ofNat 32 (0x50000036 + x.enc))
  | .vamoMinu x => some (BitVec.ofNat 32 (0x60000036 + x.enc))
  | .vamoMaxu x => some (BitVec.ofNat 32 (0x70000036 + x.enc))
  | .vamoSwap x => some (BitVec.ofNat 32 (0x80000036 + x.enc))
  | .vcomp x => some (BitVec.ofNat 32 (0x00000037 + x.enc))
  | .vexpand x => some (BitVec.ofNat 32 (0x08000037 + x.enc))
  | .vperm x => some (BitVec.ofNat 32 (0x00000038 + x.enc))
  | .vzip x => some (BitVec.ofNat 32 (0x00000039 + x.enc))
  | .vunzip x => some (BitVec.ofNat 32 (0x08000039 + x.enc))
  | .vtrn x => some (BitVec.ofNat 32 (0x10000039 + x.enc))
  | .kand x => some (BitVec.ofNat 32 (0x0000003A + x.enc))
  | .kor x => some (BitVec.ofNat 32 (0x0800003A + x.enc))
  | .kxor x => some (BitVec.ofNat 32 (0x1000003A + x.enc))
  | .knot x => some (BitVec.ofNat 32 (0x1800003A + x.enc))
  | .kandn x => some (BitVec.ofNat 32 (0x2000003A + x.enc))
  | .kpopc x => some (BitVec.ofNat 32 (0x2800003A + x.enc))
  | .kfirst x => some (BitVec.ofNat 32 (0x3000003A + x.enc))
  | .kvl x => some (BitVec.ofNat 32 (0x0000003B + x.enc))
  | .kfrom x => some (BitVec.ofNat 32 (0x0800003B + x.enc))
  | .vlk x => some (BitVec.ofNat 32 (0x1000003B + x.enc))
  | .vmcast x => some (BitVec.ofNat 32 (0x0000003C + x.enc))
  | .vrecv x => some (BitVec.ofNat 32 (0x0000003D + x.enc))
  | .viota x => some (BitVec.ofNat 32 (0x0000003E + x.enc))
  | .vidx x => some (BitVec.ofNat 32 (0x0800003E + x.enc))
  | .vflgRd x => some (BitVec.ofNat 32 (0x0000003F + x.enc))
  | .vflgClr x => some (BitVec.ofNat 32 (0x0800003F + x.enc))
  | .wld x => some (BitVec.ofNat 32 (0x00000040 + x.enc))
  | .wst x => some (BitVec.ofNat 32 (0x00000041 + x.enc))
  | .wmul x => some (BitVec.ofNat 32 (0x00000042 + x.enc))
  | .wmac x => some (BitVec.ofNat 32 (0x00400042 + x.enc))
  | .wmult x => some (BitVec.ofNat 32 (0x00800042 + x.enc))
  | .wchol x => some (BitVec.ofNat 32 (0x00000043 + x.enc))
  | .wlu x => some (BitVec.ofNat 32 (0x00000044 + x.enc))
  | .wsolveC x => some (BitVec.ofNat 32 (0x00000045 + x.enc))
  | .wsolveP x => some (BitVec.ofNat 32 (0x02000045 + x.enc))
  | .wadd x => some (BitVec.ofNat 32 (0x00000046 + x.enc))
  | .wsub x => some (BitVec.ofNat 32 (0x00400046 + x.enc))
  | .wscal x => some (BitVec.ofNat 32 (0x00800046 + x.enc))
  | .wtrn x => some (BitVec.ofNat 32 (0x00C00046 + x.enc))
  | .wid x => some (BitVec.ofNat 32 (0x01000046 + x.enc))
  | .wcpy x => some (BitVec.ofNat 32 (0x01400046 + x.enc))
  | .wdim x => some (BitVec.ofNat 32 (0x01800046 + x.enc))
  | .wget x => some (BitVec.ofNat 32 (0x00000047 + x.enc))
  | .wput x => some (BitVec.ofNat 32 (0x00400047 + x.enc))
  | .tclaim x => some (BitVec.ofNat 32 (0x00000048 + x.enc))
  | .trel x => some (BitVec.ofNat 32 (0x00800048 + x.enc))
  | .tacc x => some (BitVec.ofNat 32 (0x01000048 + x.enc))
  | .tmma x => some (BitVec.ofNat 32 (0x00000049 + x.enc))
  | .tmms x => some (BitVec.ofNat 32 (0x0000004A + x.enc))
  | .tread x => some (BitVec.ofNat 32 (0x0000004B + x.enc))
  | .twrite x => some (BitVec.ofNat 32 (0x0000004C + x.enc))
  | .twait x => some (BitVec.ofNat 32 (0x0000004D + x.enc))
  | .tepi x => some (BitVec.ofNat 32 (0x0000004E + x.enc))
  | .fopen x => some (BitVec.ofNat 32 (0x0000004F + x.enc))
  | .fclose x => some (BitVec.ofNat 32 (0x0080004F + x.enc))
  | .fdrop x => some (BitVec.ofNat 32 (0x0100004F + x.enc))
  | .fstat x => some (BitVec.ofNat 32 (0x0180004F + x.enc))
  | .cpy x => some (BitVec.ofNat 32 (0x00000050 + x.enc))
  | .cpyM x => some (BitVec.ofNat 32 (0x04000050 + x.enc))
  | .gath x => some (BitVec.ofNat 32 (0x00000051 + x.enc))
  | .chanWm x => some (BitVec.ofNat 32 (0x00000052 + x.enc))
  | .chanWait x => some (BitVec.ofNat 32 (0x10000052 + x.enc))
  | .chanCancel x => some (BitVec.ofNat 32 (0x20000052 + x.enc))
  | .chanStat x => some (BitVec.ofNat 32 (0x30000052 + x.enc))
  | .enqTask x => some (BitVec.ofNat 32 (0x00000053 + x.enc))
  | .enqLaunch x => some (BitVec.ofNat 32 (0x10000053 + x.enc))
  | .depd x => some (BitVec.ofNat 32 (0x00000054 + x.enc))
  | .pgrant x => some (BitVec.ofNat 32 (0x00000055 + x.enc))
  | .tdone => some (BitVec.ofNat 32 0x00000056)
  | .lsplit x => some (BitVec.ofNat 32 (0x00000057 + x.enc))
  | .ljoin => some (BitVec.ofNat 32 0x00000058)
  | .yield => some (BitVec.ofNat 32 0x00000059)
  | .trap x => some (BitVec.ofNat 32 (0x0000005A + x.enc))
  | .tret => some (BitVec.ofNat 32 0x0000005B)
  | .shut => some (BitVec.ofNat 32 0x0000005C)
  | .halt => some (BitVec.ofNat 32 0x0000005D)
  | .brk x => some (BitVec.ofNat 32 (0x0000005E + x.enc))
  | .probe x => some (BitVec.ofNat 32 (0x0000005F + x.enc))
  | .vectorStart _ => none
  | .groupCommit _ => none
  | .vectorComplete _ => none
  | .heldPerform _ => none
  | .loadReturn _ _ => none
  | .divideResult _ _ => none
  | .detachedComplete _ _ => none
  | .tmmaStart _ _ => none
  | .vmcastReserve _ => none
  | .vmcastLand _ => none
  | .vrecvBind _ => none
  | .waitaWake _ => none
  | .waitaPoll _ => none
  | .waitaTimeout _ => none
  | .barWake _ => none
  | .channelCommandStart _ => none
  | .grainMove _ => none
  | .copyComplete _ => none
  | .trapInContext _ => none
  | .trapToKeeper _ => none
  | .eventPlace _ => none
  | .successorPlace _ => none
  | .sliceEnd _ => none
  | .resumeSaved _ => none
  | .selection _ => none
  | .bind _ => none
  | .stagingStart _ _ _ => none
  | .granuleMove _ _ => none
  | .stopComplete _ => none
  | .ownershipPass _ _ => none
  | .register _ _ => none
  | .exportWord _ _ => none
  | .deliver _ _ => none
  | .rd _ _ => none
  | .wr _ _ => none
  | .wro _ _ => none
  | .drop _ _ => none
  | .dropl _ _ => none
  | .wbl _ _ => none
  | .snoop _ => none
  | .cmo _ => none
  | .purge _ => none
  | .errorDetected _ => none
  | .ctlStop _ => none
  | .ctlResume _ => none
  | .ctlStep _ => none
  | .ctlDiscard _ => none
  | .root _ _ => none
  | .head _ _ => none
  | .en _ _ => none
  | .counter _ _ _ => none
  | .channelResume _ => none
  | .channelCancel _ => none
  | .coreCommit _ => none
  | .partitionReset _ => none
  | .partitionResetDone _ => none
  | .window _ _ _ => none
  | .qcount _ _ => none
  | .printmask _ _ => none
  | .pingran _ _ => none
  | .load _ => none
  | .slotDrainDone _ => none
  | .save => none
  | .saveDone => none
  | .restore => none
  | .restoreDone => none
  | .abort => none
  | .fire => none
  | .rearm => none
  | .evcount => none
  | .reportRequest => none
  | .reportDone => none
  | .powercap _ => none
  | .printCommit _ => none
  | .printStart _ => none
  | .printDone _ => none
  | .registerWrite _ _ => none
  | .powerOn => none
  | .coldReset => none
  | .linkUp _ _ _ _ _ => none
  | .bar0Write _ _ _ _ => none
  | .bar0Atomicop _ _ => none
  | .bar2Read _ _ _ => none
  | .bar2Write _ _ _ => none
  | .bar2Atomicop _ _ _ _ _ _ => none
  | .vfEnable _ => none
  | .vfDisable => none
  | .vfFlr _ => none
  | .pfFlr => none
  | .atsCompletion _ _ => none
  | .pageRequestResponse _ _ => none
  | .priEnable _ _ _ => none
  | .invalidateRequest _ _ _ _ => none
  | .invalidateCompletion => none
  | .hostCompletionError _ _ => none
  | .completionTimeout _ => none
  | .snpdata _ => none
  | .snpinv _ => none
  | .snpcur _ => none
  | .hostCacheResponse _ => none
  | .m2sReq _ => none
  | .m2sRwd _ _ => none
  | .birsp _ => none
  | .mode _ _ => none
  | .flipToDeviceBias => none
  | .flipToHostBias => none
  | .flipDone => none
  | .portUp _ _ => none
  | .peerRequest _ _ _ _ => none
  | .peerCompletion _ _ => none
  | .peerTimeout _ => none
  | .illegal w => some w
  | .cxlCacheEnable => none

end Sys2Proof
end

