-- ==== Sys2Proof/Machine/State.lean ====
section
/-!
DEFINITION. The state of the whole device as plain data: every sequencer context, core, channel, memory, control page
and link the spec names, and the machine right after reset. Registers of which the spec gives no reset value hold the
value the assumption log names.
-/
namespace Sys2Proof.Machine

/-! ## Vector-queue instructions as the queue holds them (R13 to R15) -/

/-- The two-source element operations of opcodes 0x20 to 0x22 (R191). -/
inductive BinOp where
  | add | sub | mul | min | max | and | or | xor | shl | shr | sar | abd | avg | adds | subs | mulh
deriving DecidableEq, Repr

/-- Where the second source of an element operation comes from (R190). -/
inductive Src2 where
  | vec | scal | imm
deriving DecidableEq, Repr

/-- The compares of R195. -/
inductive CmpOp where
  | eq | ne | lt | le | gt | ge | un
deriving DecidableEq, Repr

/-- The math forms of R200. -/
inductive MathOp where
  | div | sqrt | rcp | rsqrt | exp2 | log2
deriving DecidableEq, Repr

/-- The reductions of R202. -/
inductive RedOp where
  | sum | max | min | and | or | xor
deriving DecidableEq, Repr

/-- The atomic updates of R167. -/
inductive AmoOp where
  | add | and | or | xor | min | max | minu | maxu | swap
deriving DecidableEq, Repr

/-- How a vector memory form makes its element addresses (R215, R216). -/
inductive Stride where
  | unit | strided | indexed
deriving DecidableEq, Repr

/-- The mask operations of R224. -/
inductive KOp where
  | and | or | xor | not | andn
deriving DecidableEq, Repr

/-- The products of R240. -/
inductive WMulOp where
  | mul | mac | mult
deriving DecidableEq, Repr

/-- What a vector-queue instruction does: one constructor per shape of the instruction chapters. -/
inductive VOp where
  | bin (o : BinOp) (src : Src2)
  | fma (negProd negAcc : Bool)
  | macw
  | cmp (o : CmpOp)
  | sel
  | cvt (rnd : Fin 8)
  | shrr (scalar narrow : Bool)
  | math (o : MathOp)
  | dot
  | red (o : RedOp) (ordered : Bool)
  | sign
  | mov
  | splat
  | splati
  | vget
  | vput
  | slide (up : Bool) (fill : Fin 8)
  | ld (m : Stride) (b o : Bool)
  | ldxc (b o : Bool)
  | ldxdup (b o : Bool)
  | st (m : Stride) (b o : Bool)
  | amo (o : AmoOp) (b ord : Bool)
  | comp
  | expand
  | perm
  | zip
  | unzip
  | trn
  | klog (o : KOp)
  | kpopc
  | kfirst
  | kvl
  | kfrom
  | vlk
  | mcast
  | recv
  | iota
  | idx
  | flgRd
  | flgClr
  | wld
  | wst
  | wmul (o : WMulOp)
  | wchol
  | wlu
  | wsolve (pivots : Bool)
  | wadd (sub : Bool)
  | wscal
  | wtrn
  | wid
  | wcpy
  | wdim
  | wget
  | wput
  | tacc
  | tmma
  | tmms
  | tread
  | twrite
  | tepi
deriving DecidableEq, Repr

/-- A decoded vector-queue instruction: the operation, its register numbers by field, its governing mask, its E bits,
its immediate, and its word as issued (R42). In memory forms `d` is the field t and `c` the field x; in the
lane-matrix forms `c` is the field v; in the tile forms `c` is the field x, `d` the tile and `a`, `b` the films. -/
structure VForm where
  word : BitVec 32
  op : VOp
  d : Nat := 0
  a : Nat := 0
  b : Nat := 0
  c : Nat := 0
  k : Nat := 0
  ea : Bool := false
  eb : Bool := false
  imm : Int := 0
  p : Bool := false
  res : Nat := 0
deriving DecidableEq, Repr

/-! ## The sequencer context -/

/-- One loop-stack entry (R11); COUNT 0 marks it empty (R12). -/
structure LoopEntry where
  start : Word := 0
  last : Word := 0
  count : Word := 0
  index : Word := 0
deriving DecidableEq, Repr

/-- The configuration of one vector register (R334, VCFG r). -/
structure VCfg where
  tag : BitVec 5 := 0
  grp : Fin 4 := 0
  scaled : Bool := false
  comp : Fin 32 := 0
deriving DecidableEq, Repr

/-- The scalar-side state a squash rolls back (R24 step 4): scalars, special registers, loop stack, repeat-frame
position, vl, tags, groups and scaled markings. `rptRun` says that the repeat buffer supplies the next instruction; a
handler runs with it false while RPT_ACT still names the frame it interrupted (R157). -/
structure Scal where
  s : Vector Word 32 := Vector.replicate 32 0
  pc : Word := 0
  loops : Vector LoopEntry 6 := Vector.replicate 6 {}
  rptAct : Bool := false
  rptRun : Bool := false
  rptI : Nat := 0
  rptJ : Nat := 0
  rptBuf : List (BitVec 32) := []
  rptCnt : Nat := 0
  rptSd : Nat := 0
  rptSa : Nat := 0
  rptSb : Nat := 0
  vl : Nat := 0
  vstart : BitVec 16 := 0
  chain : BitVec 6 := 0
  armed : Bool := false
  rm : BitVec 3 := 0
  tvec : Word := 0
  tcause : BitVec 16 := 0
  tval : Word := 0
  tepc : Word := 0
  tsave : Word := 0
  curRow : BitVec 32 := 0
  curCol : BitVec 32 := 0
  cfgTag : BitVec 5 := 0
  cfgGrp : Fin 4 := 0
  rows : Fin 8 := 6
  cols : Fin 8 := 6
  vcfg : Vector VCfg 32 := Vector.replicate 32 {}
deriving DecidableEq, Repr

/-- A translated access (R345): the physical address, what the leaf says of it, and the virtual address it was made at. -/
structure Xl where
  pa : Nat := 0
  va : Word := 0
  ctl : Bool := false
  host : Bool := false
  dev : Nat := 0
  grain : Nat := 0
  slot : Nat := 0
deriving DecidableEq, Repr

/-- A vector-queue instruction accepted into the VIQ, with the configuration it captured (R14). `late1` and `late2` name
the scalars whose producers are older instructions of the same VIQ: their values are taken at the start (R31). `pipes`
holds the pipes its partition owned with no COMMIT under way (R350). -/
structure VqEntry where
  form : VForm
  ipc : Word
  vl : Nat
  rm : BitVec 3
  start : Nat
  resumed : Bool
  cfg : Vector VCfg 32
  x1 : Word
  x2 : Word
  late1 : Nat := 0
  late2 : Nat := 0
  rows : Fin 8
  cols : Fin 8
  tsave : Word
  pipes : BitVec 8 := 0
  snap : Scal
  ord : Nat
deriving DecidableEq, Repr

/-- The instructions whose outward effect the scalar store buffer holds (R16), with their captured operands and, where
they access memory, the translation fixed when they executed (R18). `before` of a chan.wait, once it has begun to wait, is
the order number below which commands of its channel were issued before it. -/
inductive HeldOp where
  | store (va : Word) (x : Xl) (n : Nat) (v : Nat)
  | strel (va : Word) (x : Xl) (n : Nat) (v : Nat) (sc : Nat)
  | amo (o : AmoOp) (va : Word) (x : Xl) (v : Word) (acq rel : Bool) (sc : Nat) (d : Nat)
  | cas (n : Nat) (va : Word) (x : Xl) (exp new : Nat) (sc : Nat) (d : Nat)
  | fence (kind sc : Nat)
  | xfence (kind : Nat) (arg : Word) (sc : Nat)
  | barArr (va : Word) (x : Xl) (amt : BitVec 32) (sc : Nat) (d : Nat)
  | barAw (va : Word) (x : Xl) (amt : BitVec 32) (sc : Nat) (d : Nat)
  | cline (form : Nat) (va : Word) (x : Xl) (sc : Nat)
  | stash (form : Nat) (base : Word) (desc : Word) (d : Nat)
  | pref (level : Nat) (va : Word) (x : Option Xl)
  | tclaim (t : Nat)
  | trel (t : Nat)
  | fopen (f : Nat) (w : Word)
  | fclose (f : Nat)
  | fdrop (f : Nat)
  | fstat (f : Nat) (d : Nat)
  | copy (ch port : Nat) (src dst shape : Word) (follow : Option (VqEntry × List Nat))
  | gath (ch : Nat) (base : Word) (idx : List Nat) (dst : Word) (kd : Nat)
  | chanWm (ch d : Nat)
  | chanWait (ch : Nat) (before : Option Nat)
  | chanCancel (ch : Nat)
  | chanStat (ch d : Nat)
  | enq (launch : Bool) (qu rec : Word) (d : Nat)
  | depd (qu ctr amt : Word)
  | tdone
  | shut
deriving DecidableEq, Repr

/-- A held instruction: what it does, and where it stands (R18). -/
structure Held where
  op : HeldOp
  ipc : Word
  word : BitVec 32
  snap : Scal
  ord : Nat
deriving DecidableEq, Repr

/-- A scalar load whose data has not returned (R18, R163). `pair` for ldp, `acq` for the scope of an ldacq, `probe` for the kind
of a probe, which reads no data (R293). -/
structure Load where
  d : Nat
  va : Word
  x : Xl
  n : Nat
  sign : Bool
  pair : Bool
  acq : Option Nat
  ipc : Word
  word : BitVec 32
  snap : Scal
  ord : Nat
  probe : Option Nat := none
deriving DecidableEq, Repr

/-- A trap or stop of one instruction (R353): for class A `tval` is the trap value, for class B `addr` is FAULT_ADDR.
`late`: younger instructions may have executed, and the scalar side rolls back (R18, R24). -/
structure Trap where
  cause : Nat
  sub : Nat := 0
  classB : Bool := false
  late : Bool := false
  tval : Word := 0
  tepc : Word := 0
  addr : Word := 0
deriving DecidableEq, Repr

/-- What a sleeping instruction waits for (R173, R176, R257, R264, R274, R402): `aw` of a bar for a bar.aw that has arrived. -/
inductive Wait where
  | waita (d : Nat) (cond : Nat) (va : Word) (x : Xl) (cmp : Word) (limit : Option Nat)
  | bar (d : Nat) (va : Word) (x : Xl) (gen : BitVec 16) (sc : Nat) (aw : Bool)
  | tile (t : Nat)
  | film (f : Nat)
  | chan (ch : Nat)
  | pri (i : Nat)
deriving DecidableEq, Repr

/-- Chain record entry with its extension (R27). `rows` is the shape a squash in this device captured, which the pages do not
show. -/
structure ChainRec where
  ipc : Word := 0
  word : BitVec 32 := 0
  vl : BitVec 32 := 0
  cfg : BitVec 32 := 0
  comp : BitVec 29 := 0
  scalar : Word := 0
  scalar2 : Word := 0
  rm : BitVec 3 := 0
  rows : Option (Fin 8 × Fin 8) := none
deriving DecidableEq, Repr

/-- The task or launch instance a context runs (R47, R49, R283, R373): the queue and slot index it came from, its record,
its instance number, and the deadline and priority it was selected with. -/
structure TaskRef where
  queue : Nat
  slot : Nat
  launch : Bool
  record : BitVec 1024
  inst : Nat
  deadline : Nat
  tprio : Nat
deriving DecidableEq, Repr

/-- The states of a context (R333). -/
inductive CtxState where
  | empty | running | stopping | stopped | trapped | waiting | saved
deriving DecidableEq, Repr

/-- One sequencer's context (R10, R332 to R335, R287) and its run-ahead: the VIQ, the started chain, the scalar store
buffer, the outstanding loads and divides. `stepNeed` is the count at which a STEP has run its instruction; `retry` says
that the next instruction runs again after a RESUME or STEP (R271); `runArith` is the place in the chain and the address of its
oldest member that has set an enabled flag (R125), `runFill` the bytes of each poisoned sector that its store has written so far
(R368); `sliceUsed` counts the nanoseconds of the slice
(R360), `worked` says that an element group has been committed since the context was last resumed, `began` is the place in
program order it was then resumed at, and `idle` says that its next instruction has been found blocked since it last moved on (R35).
`laneBase` and `laneBuf` are the lane instruction buffer (R37): where its 256 instructions start, and the
words of them it holds. `ahead` holds words fetched ahead, by address (R436). -/
structure Ctx where
  sc : Scal := {}
  flags : BitVec 15 := 0
  lfsr : BitVec 32 := 1
  cycles : Word := 0
  feS : BitVec 32 := BitVec.allOnes 32
  feV : BitVec 32 := BitVec.allOnes 32
  feK : BitVec 8 := BitVec.allOnes 8
  feW : BitVec 4 := BitVec.allOnes 4
  v : Vector (BitVec 4096) 32 := Vector.replicate 32 0
  k : Vector (BitVec 8192) 8 := Vector.replicate 8 0
  w : Vector (BitVec 73728) 4 := Vector.replicate 4 0
  lflag : Vector (BitVec 7) 64 := Vector.replicate 64 0
  lpc : Vector Word 64 := Vector.replicate 64 0
  split : BitVec 64 := 0
  arrived : BitVec 64 := 0
  lmode : Bool := false
  trapv : Bool := false
  trapLane : Fin 64 := 0
  handler : Bool := false
  laneTurn : Fin 64 := 0
  laneBase : Option Word := none
  laneBuf : List (Nat × BitVec 32) := []
  ahead : List (Nat × BitVec 32) := []
  viq : List VqEntry := []
  run : List VqEntry := []
  runG : Nat := 0
  runArith : Option (Nat × Word) := none
  runFill : List (Nat × BitVec 32) := []
  sb : List Held := []
  loads : List Load := []
  divs : List (Nat × Word × Nat) := []
  pend : Option Trap := none
  ord : Nat := 0
  state : CtxState := .empty
  wait : Option Wait := none
  stepping : Bool := false
  stepNeed : Nat := 0
  retry : Bool := false
  resume : Word := 0
  vstartF : BitVec 16 := 0
  chainF : BitVec 6 := 0
  chainRec : Vector ChainRec 6 := Vector.replicate 6 {}
  awDone : Bool := false
  awGen : BitVec 16 := 0
  root : BitVec 36 := 0
  space : BitVec 16 := 0
  cause : BitVec 8 := 0
  subcode : BitVec 8 := 0
  cls : BitVec 2 := 0
  faultAddr : Word := 0
  keeper : BitVec 12 := 0
  kv : Bool := false
  task : Option TaskRef := none
  free : Bool := false
  reserved : Bool := false
  sliceUsed : Nat := 0
  worked : Bool := false
  began : Nat := 0
  idle : Bool := false
  beats : Nat := 0
  mcSent : Nat := 0
deriving DecidableEq, Repr

/-! ## Cores, channels and the ordering machine -/

/-- A Detached operation a tile has accepted and its engine carries (R23, R253, R254): the instruction with its
captured configuration, the captured index list of a tmms, whether it has started, its next 32-element block, whether
a saved context brought it back, so that it completes a block before it is saved again (R35), and whether its start is still to
be charged (R386). -/
structure TileOp where
  e : VqEntry
  seq : Nat
  idx : List Nat
  started : Bool
  next : Nat
  resumed : Bool := false
  owed : Bool := false
deriving DecidableEq, Repr

/-- A tile (R252, R257): elements, tag, claiming sequencer, gathered flags (NV, OF, TR, SAT), and the accepted Detached
operations still outstanding, oldest first. It is full when none is outstanding (R253). -/
structure Tile where
  acc : BitVec 131072 := 0
  tag : BitVec 5 := 0x11
  claim : Option Nat := none
  gathered : BitVec 4 := 0
  ops : List TileOp := []
deriving DecidableEq, Repr

/-- A film (R255, R256): the sequencer that holds it open, its configuration, the bytes that have landed and not yet
been popped, and whether the head frame was kept. -/
structure Film where
  holder : Option Nat := none
  rowb : Fin 4 := 0
  sb : Fin 4 := 0
  data : BitVec 557056 := 0
  fill : Nat := 0
  kept : Bool := false
  parts : List (Nat × Nat) := []
deriving DecidableEq, Repr

/-- A stash window (R178, R179, R342), the task that mapped it, the tables it was mapped under, and its filled pieces with
the place each holds (R179). -/
structure Win where
  base : Word := 0
  offset : Nat := 0
  pieces : Nat := 0
  part : Nat := 0
  valid : Bool := false
  pinned : Bool := false
  space : BitVec 16 := 0
  byTask : Option Nat := none
  root : BitVec 36 := 0
  filled : List (Nat × Xl) := []
deriving DecidableEq, Repr

/-- A strip of a vmcast (R226): its sender, its members, the tag and vl it carries, its elements, and whether it has
landed at every member. -/
structure Strip where
  id : Nat
  sender : Nat
  tag : BitVec 5
  grp : Fin 4
  vl : Nat
  data : List (BitVec 4096)
  landed : Bool
deriving DecidableEq, Repr

/-- The receive queue of one partition in a core (R226). -/
structure RecvQ where
  strips : List Strip := []
deriving DecidableEq, Repr

/-- The ownership bytes of a core page (R342): sequencers, pipes, tiles, films, channels. -/
structure Owners where
  seq : Vector Byte 4 := Vector.replicate 4 0x80
  pipe : Vector Byte 8 := Vector.replicate 8 0x80
  tile : Vector Byte 8 := Vector.replicate 8 0x80
  film : Vector Byte 4 := Vector.replicate 4 0x80
  chan : Vector Byte 8 := Vector.replicate 8 0x80
deriving DecidableEq, Repr

/-- One core (R2, R342): staged and active ownership, the ownership in service until an item has passed (R350), tiles,
films, stash windows, and the vmcast receive queues of each partition. -/
structure Core where
  staged : Owners := {}
  active : Owners := {}
  inForce : Owners := {}
  tiles : Vector Tile 8 := Vector.replicate 8 {}
  films : Vector Film 4 := Vector.replicate 4 {}
  wins : Vector Win 4 := Vector.replicate 4 {}
  recvq : List (Nat × RecvQ) := []
deriving DecidableEq, Repr

/-- A command of a copy channel (R265 to R273) where it stands: `kind` 1 cpy, 2 cpy.m, 3 gath; the address of the
current source row, the rows left with the current one, the bytes of it landed, the destination address at the watermark;
bytes landed and bytes credited of the whole command; the device-memory ranges it registered above the watermark, as
physical address, length and the landed count at their start (R268, R299); for a gath the addresses of the elements
left, and what it has fetched for later elements of the same address. -/
structure Cmd where
  kind : Nat
  seq : Nat
  part : Nat
  port : Nat
  src : Word
  dst : Word
  rows : Nat
  rowb : Nat
  stride : Word
  bar : Word
  root : BitVec 36
  space : BitVec 16
  off : Nat := 0
  done : Nat := 0
  credited : Nat := 0
  regs : List (Nat × Nat × Nat) := []
  follow : Option (VqEntry × List Nat) := none
  kd : Nat := 0
  esz : Nat := 1
  idx : List Nat := []
  got : List (Nat × Nat) := []
  order : Nat := 0
deriving DecidableEq, Repr

/-- A copy channel (R267 to R274): its queue with the running command first, the BAR word, the fault it stands
in, and the credits of cancelled commands still to be sent, each the command and its bytes (R272). -/
structure Chan where
  cmds : List Cmd := []
  busy : Bool := false
  bar : Word := 0
  wm : Word := 0
  faulted : Bool := false
  cancelled : Bool := false
  cause : Nat := 0
  sub : Nat := 0
  faultAddr : Word := 0
  port : Nat := 0
  owed : List (Cmd × Nat) := []
deriving DecidableEq, Repr

/-- A word of a core registry (R298): the bytes the core holds of it, whether the core is registered for it, whether
its value has been placed at the home (R299 step 5), the grain and slot of the leaf it was written through, and the address
it was written at. `atom` names the words of its 16-byte block that single-copy atomic stores bind it to until it is placed
(R162, R310), by their places in the block; `stamp` is one number for the copy words that hold the values of one moment.
`placed` is the word's last value in coherence order, where its die owns it and a newer write is not yet placed (R319); `first`
marks a word that leaves first (R99). -/
structure RegWord where
  val : BitVec 32
  mask : BitVec 4
  registered : Bool
  exported : Bool
  grain : Nat
  slot : Nat
  atom : BitVec 4 := 0
  stamp : Nat := 0
  va : Word := 0
  placed : Option (BitVec 32) := none
  first : Bool := false
deriving DecidableEq, Repr

/-- What a die point holds of a word (R298, R299): its value, or the core registered for it. A word registered to a copy
channel is one its command holds (`Cmd.regs`). -/
inductive DieWord where
  | value (v : BitVec 32)
  | core (c : Nat)
deriving DecidableEq, Repr

/-- A line at its home (R312, R315 to R321): grain and slot it was taken under, protocol state, holder dies, owner,
version, the partition tag of one that a peer's request brought in (R408), and the dies whose L2 has it marked first for
eviction (R99). -/
structure Line where
  grain : Nat
  slot : Nat
  state : Nat
  holders : BitVec 8
  owner : Option Nat
  version : BitVec 8
  tag : Option Nat := none
  first : BitVec 8 := 0
deriving DecidableEq, Repr

/-- An entry of an inter-die queue (R298): an invalidation of a grain (no update), or an update of the words of one store,
on its way from the home stack `src` to the die point `dst`, under the version of the line. -/
structure Delivery where
  src : Nat
  dst : Nat
  addr : Nat
  update : Option (List (Nat × BitVec 32))
  len : Nat
  ver : BitVec 8 := 0
deriving DecidableEq, Repr

/-- A protocol slot (R316): LOAD result, table bits and attributes, staged and active. -/
structure Slot where
  reason : Nat := 0
  active : Bool := false
  draining : Bool := false
  faulting : Bool := false
  whereF : Nat := 0
  sattr : Word := 0
  aattr : Word := 0
  sent : Vector (BitVec 16) 128 := Vector.replicate 128 0
  aent : Vector (BitVec 16) 128 := Vector.replicate 128 0
deriving DecidableEq, Repr

/-- A cached translation (R4, R347) in the TLB of one unit: level 0 the L1 of a core, 1 a cluster's, 2 a die's, 3 an
engine's. -/
structure TlbEntry where
  level : Nat
  unit : Nat
  part : Nat
  space : BitVec 16
  va : Nat
  size : Nat
  entry : Word
deriving DecidableEq, Repr

/-! ## Queues, partitions and the scheduler -/

/-- A queue page (R340) but for its slots, which are memory. -/
structure Queue where
  base : Word := 0
  capacity : Nat := 0
  en : Bool := false
  head : Word := 0
  tail : Word := 0
  prio : BitVec 4 := 0
  cls : BitVec 2 := 0
  share : BitVec 16 := 1
  dlmode : BitVec 2 := 0
  dloff : BitVec 32 := 0
  nextStage : BitVec 12 := 0
  nsv : Bool := false
  underflow : Bool := false
  overflow : Bool := false
  charge : Word := 0
  troot : BitVec 36 := 0
  tspace : BitVec 16 := 0
  tkeeper : BitVec 12 := 0
  template : BitVec 512 := 0
  counters : List (Nat × BitVec 16) := []
  enqTime : List (Nat × Nat) := []
  instBound : List (Nat × Nat) := []
  doneCount : Nat := 0
deriving DecidableEq, Repr

/-- A keeper event on its way to a queue (R357, R358). -/
structure Event where
  part : Nat
  queue : Nat
  body : BitVec 1024
deriving DecidableEq, Repr

/-- A completion post kept because its queue was full (R284). -/
structure Post where
  queue : Nat
  record : BitVec 512
deriving DecidableEq, Repr

/-- A partition page (R343, R344). -/
structure Part where
  pstate : Nat := 0
  func : Nat := 0
  qbase : Nat := 0
  qcount : Nat := 0
  dkeeper : BitVec 12 := 0
  l2budget : Word := 0
  stashbudget : Nat := 768
  lookahead : Nat := 4
  urgency : Word := 0
  slice : Word := 1000000
  savebase : Word := 0
  savesize : Word := 0
  printmask : BitVec 8 := 0
  windows : Vector (Word × Word) 16 := Vector.replicate 16 (0, 0)
  saveFullPosted : Bool := false
  removing : Bool := false
deriving DecidableEq, Repr

/-- A placement page (R351). -/
structure Placement where
  stackMask : BitVec 8 := 0xFF
  migrate : Bool := true
  clusters : BitVec 64 := BitVec.allOnes 64
deriving DecidableEq, Repr

/-- A 2 MiB granule of device DRAM (R351, R388, R389): the stack it lies on, the partition that pinned it, and the time
of its last move. -/
structure Granule where
  stack : Nat
  pinned : Option Nat := none
  moved : Option Nat := none
deriving DecidableEq, Repr

/-- A log entry (R370). -/
structure LogEntry where
  kind : BitVec 4
  unit : BitVec 4
  part : BitVec 5
  seq : BitVec 11
  time : Word
  paddr : BitVec 52
  syndrome : Word
deriving DecidableEq, Repr

/-- An error log page (R370). -/
structure ErrLog where
  corrected : BitVec 32 := 0
  recovered : BitVec 32 := 0
  poisoned : BitVec 32 := 0
  discarded : BitVec 32 := 0
  lost : BitVec 32 := 0
  next : Nat := 0
  entries : List (Nat × LogEntry) := []
deriving DecidableEq, Repr

/-- A candidate the distributor has selected and not yet bound (R374 to R376): the sequencer reserved for it, or the core
its pinned window keeps it for, its queue, and its slot index or the place of the saved context it is. -/
structure Selected where
  seq : Option Nat
  pin : Option Nat
  queue : Nat
  slot : Nat
  saved : Option Nat
  inst : Nat
  deadline : Nat
  prio : Nat
deriving DecidableEq, Repr

/-- A saved context in the pool (R361, R362, R366): its image's place and size, its partition, the sequencer that saved it
and whether that one still shows it, and its task; `loaded`, once a resume whose checks failed has taken it up, until that
sequencer runs. -/
structure Saved where
  base : Nat
  size : Nat
  seq : Nat
  part : Nat
  shown : Bool
  task : Option TaskRef
  loaded : Bool := false
deriving DecidableEq, Repr

/-- A valid working-set entry (R378): its kind, its base, rows and bytes per row, the row stride, the bytes of it
gone through so far, and whether it needs no staging, a pinned window holding it already (R379). -/
structure WsEntry where
  kind : Nat
  base : Nat
  rows : Nat
  extent : Nat
  stride : Nat
  off : Nat := 0
  pinned : Bool := false
deriving DecidableEq, Repr

/-- A staged task (R378 to R385): the slot it stages, or the place of its saved context; the task's partition and priority class,
its target die and core, the bytes and pieces it reserves, its entries, the bytes landed, those of them in the stash, the words of
its clean stash pieces, and the sequencer it was bound to. -/
structure Stage where
  queue : Nat
  slot : Nat
  part : Nat
  prio : Nat
  die : Nat
  core : Nat
  l2 : Nat
  pieces : Nat
  todo : List WsEntry
  landed : Nat := 0
  stashed : Nat := 0
  clean : List Nat := []
  bound : Option Nat := none
  saved : Option Nat := none
deriving DecidableEq, Repr

/-! ## Links, checkpoint and bring-up -/

/-- The host link page (R410) and the enables of the functions' PCIe capabilities (R397, R402, R404). `failing` names the
agents whose next request on the plain host path (false) or to a peer (true) fails, with its subcode (R404, R405, R407). -/
structure HostLink where
  speed : Nat := 0
  width : Nat := 0
  flit : Bool := false
  cxl : Bool := false
  bar2base : Word := 0
  bar2size : Nat := 2 ^ 30
  numvf : Nat := 0
  vfe : Bool := false
  badhost : BitVec 32 := 0
  atsinv : BitVec 32 := 0
  hcoh : BitVec 32 := 0
  devid : BitVec 10 := 0
  portup : BitVec 36 := 0
  portdis : BitVec 36 := 0
  route : List (Nat × BitVec 36) := []
  ingress : List (Nat × (Word × Word × Word)) := []
  priEnable : BitVec 32 := 0
  priFailed : BitVec 32 := 0
  priAlloc : Nat := 512
  atomicEnable : Bool := false
  reads : List (Nat × Nat) := []
  failing : List (Asker × Bool × Nat) := []
deriving DecidableEq, Repr

/-- An entry of the device's address translation cache (R401): function, PASID, page, host frame and rights; `vas`
holds the virtual pages whose accesses have used it, which an xfence names (R172). -/
structure AtcEntry where
  fn : Nat
  pasid : Nat
  page : Nat
  hpa : Nat
  rights : Rights
  vas : List Nat := []
deriving DecidableEq, Repr

/-- An ATS Translation Request or Page Request outstanding (R401, R402). `needs` is what its access needs, for which Execute
Requested is set where it is a fetch (R400). `stale`: an invalidation covering the page
arrived after it was sent. `done`: the answer that serves the one access that asked. `fail`: the cause and subcode that
access stops with. `gone`: the access was squashed, and the response that later arrives is discarded. -/
structure AtsReq where
  id : Nat
  who : Asker
  fn : Nat
  pasid : Nat
  page : Nat
  needs : Rights
  va : Nat := 0
  isPri : Bool
  sent : Bool
  stale : Bool
  done : Option (Nat × Rights)
  meetings : Nat
  fail : Option (Nat × Nat) := none
  gone : Bool := false
deriving DecidableEq, Repr

/-- The CXL.cache state of a 64-byte host line at its home (R414). -/
inductive CxlState where
  | s | e | m
deriving DecidableEq, Repr

/-- What a home asks of the host for a line (R412, R414). -/
inductive HostReq where
  | rdShared | rdOwn | rdOwnNoData
deriving DecidableEq, Repr

/-- The CXL page and the homes' CXL state (R413 to R422): host lines and host-bias lines held, requests to the host, snoops
queued behind them, device lines the host may hold (true: in M), back-invalidations under way, and the data the host's reads of
device memory have been answered with (S2M DRS, R412), each the line and its 64 bytes. -/
structure Cxl where
  mode : Nat := 0
  cache : Bool := false
  hdmbase : Word := 0
  hdmsize : Word := 0
  biastab : Word := 0
  flipaddr : Word := 0
  flipcnt : BitVec 32 := 0
  flipdir : Bool := false
  flipbusy : Bool := false
  flipres : Nat := 0
  biconf : BitVec 32 := 0
  flipPages : List Nat := []
  flipToHost : Bool := false
  hostLines : List (Nat × CxlState) := []
  pendReq : List (Nat × HostReq) := []
  snoops : List (Nat × Nat) := []
  snoopFilter : List (Nat × Bool) := []
  biWait : List (Nat × Bool) := []
  drs : List (Nat × Nat) := []
deriving DecidableEq, Repr

/-- A shard of the negative store (R427). -/
structure Shard where
  job : Word
  step : Word
  index : Nat
  count : Nat
  form : Nat
  base : Nat
  len : Nat
  payload : List Byte
  digest : BitVec 512
  complete : Bool
deriving DecidableEq, Repr

/-- A command of the negative store controller as its CMD write captured it (R307, R425 to R428): the job, the step, the DONEBAR
word, a save's regions, and its place in issue order (R298). -/
structure NegCmd where
  job : Word := 0
  step : Word := 0
  donebar : Word := 0
  regions : List (Word × Word × Word) := []
  order : Nat := 0
deriving DecidableEq, Repr

/-- The negative store controller page and its store (R425 to R428); `cmd` is the command that runs, and `taken` holds the bytes
a running save has read. -/
structure NegStore where
  status : Nat := 0
  job : Word := 0
  step : Word := 0
  nreg : Nat := 0
  progress : Word := 0
  faddr : BitVec 52 := 0
  donebar : Word := 0
  nreport : Nat := 0
  regions : List (Nat × (Word × Word × Word)) := []
  reports : List (Nat × Word) := []
  running : Option Bool := none
  cmd : NegCmd := {}
  taken : List Byte := []
  shards : List Shard := []
deriving DecidableEq, Repr

/-- The shutter page and the latched stills (R429, R430); `due` holds the blocks whose stills have still to latch, each with its
time; `reached` says that the count of events has just reached EVCOUNT. -/
structure Shutter where
  arm : BitVec 4 := 0
  shutpart : BitVec 32 := 0
  taddr : BitVec 52 := 0
  tmask : BitVec 52 := 0
  evsel : BitVec 8 := 0
  evcount : BitVec 32 := 0
  seen : Nat := 0
  reached : Bool := false
  fired : Bool := false
  source : BitVec 3 := 0
  ftime : Word := 0
  stills : List (Nat × Word) := []
  due : List (Nat × Nat) := []
deriving DecidableEq, Repr

/-- The board page (R433, R435); `asked` is the nonce a running report was requested with (R307). -/
structure Board where
  nonce : BitVec 256 := 0
  asked : BitVec 256 := 0
  busy : Bool := false
  status : Nat := 0
  report : List (Nat × Word) := []
  leaf : Nat := 0
  powercap : Nat := 3400
  bootSig : Bool := false
deriving DecidableEq, Repr

/-- A print engine page (R434): the staged words, the queued commands with their places in issue order, whether the first runs,
the open streams with their size, and what the running command writes, as far as it has written it: its watermark (R298). -/
structure Print where
  staged : Vector Word 8 := Vector.replicate 8 0
  queue : List (Vector Word 8) := []
  orders : List Nat := []
  busy : Bool := false
  error : Nat := 0
  streams : List (Nat × Bool) := []
  out : Option (List Byte) := none
  mark : Nat := 0
deriving DecidableEq, Repr

/-! ## The whole machine -/

/-- What moves next (R299): the fetch of a sequencer, a step of another agent (a row of the opcode table), time passing
by some nanoseconds, a cache bringing in or dropping a copy word, an instruction word or a cached translation, a sequencer
fetching a word ahead (R436), the LLC writing a dirty word to DRAM, the host storing to its own memory (R423), a peer purging a line
of its own or this device dropping its copy of one (R329), the negative store reading or writing one grain (R427), a print engine
writing one (R434), or the host reading through a BAR0 (R395) or choosing the size of BAR2 (R393). The
order is open in the spec, so it is data: `State.agenda`. -/
inductive Act where
  | fetch (q : Nat)
  | event (i : Instr)
  | pass (ns : Nat)
  | keepCopy (core : Nat) (word : Nat)
  | evict (core : Nat) (word : Nat)
  | keepCode (core : Nat) (word : Nat)
  | evictCode (core : Nat) (word : Nat)
  | fetchAhead (q : Nat) (va : Word)
  | hostStore (a : Nat) (bytes : List Byte)
  | evictLlc (word : Nat)
  | peerPurge (line : Nat)
  | peerDrop (line : Nat)
  | dropTlb (i : Nat)
  | negGrain
  | printGrain (e : Nat)
  | bar0Read (fn off : Nat)
  | resizeBar2 (k : Nat)
deriving DecidableEq, Repr

/-- The state of the device. Contexts, cores, channels, queues, partitions, logs and pages are held by number, in
lists of pairs with rising keys; an item not listed is as at reset. `uses` holds the accesses of granules of the last 10 ms as
granule, time and die, 8 for an agent of no die (R389). `recent` holds the element-beats of the last 100 µs as
time, sequencer and number (R376). `dieVer` is the version of a line each die point holds (R298), `wbls` the write-backs of
owners that their homes have not answered, with their versions (R321), `icache` the words of the cores' instruction caches
(R436), `llc` what DRAM holds of each word whose LLC copy is dirty (R177), `peerW` the peer lines in state W of slot 3 and
`peerCopies` those of them the device keeps a copy of (R329). `considered` holds the tasks and saved contexts under consideration for
staging in the order in which they came under it, each its queue, a saved context's image or none, and its slot (R381, R382). `stamp` and `orders` are the model's own counters, of copy words
brought in together and of channel commands. -/
structure State where
  seqs : List (Nat × Ctx) := []
  cores : List (Nat × Core) := []
  chans : List (Nat × Chan) := []
  ports : List (Nat × Nat) := []
  reg : List (Nat × RegWord) := []
  die : List (Nat × DieWord) := []
  lines : List (Nat × Line) := []
  idq : List Delivery := []
  dieVer : List (Nat × BitVec 8) := []
  wbls : List (Nat × Nat × BitVec 8) := []
  icache : List (Nat × BitVec 32) := []
  llc : List (Nat × BitVec 32) := []
  stamp : Nat := 0
  mem : List Host.Cell := []
  hostMem : List Host.Cell := []
  peerMem : List Host.Cell := []
  peerW : List Nat := []
  peerCopies : List Nat := []
  poison : List Nat := []
  slots : Vector Slot 8 := Vector.replicate 8 {}
  tlb : List TlbEntry := []
  queues : List (Nat × Queue) := []
  parts : List (Nat × Part) := []
  places : List (Nat × Placement) := []
  granules : List (Nat × Granule) := []
  uses : List (Nat × Nat × Nat) := []
  logs : List (Nat × ErrLog) := []
  events : List Event := []
  posts : List Post := []
  selected : List Selected := []
  saved : List Saved := []
  stages : List Stage := []
  considered : List (Nat × Option Nat × Nat) := []
  recent : List (Nat × Nat × Nat) := []
  link : HostLink := {}
  atc : List AtcEntry := []
  ats : List AtsReq := []
  cxl : Cxl := {}
  neg : NegStore := {}
  shutter : Shutter := {}
  board : Board := {}
  prints : List (Nat × Print) := []
  invPending : Nat := 0
  time : Nat := 0
  dead : Bool := false
  cur : Nat := 0
  agenda : List Act := []
  runAhead : Bool := false
  tick : Nat := 0
  orders : Nat := 0
deriving DecidableEq, Repr

/-- The steps that stop the machine. -/
inductive Fault where
  /-- A step names an agent the device does not have (a sequencer from 2,048, a core from 512, and the like): raised by
  the meanings of the rows without a word. Safe: the device has no such step. -/
  | noSuchAgent
deriving DecidableEq, Repr

/-- Why a step is refused. -/
inductive Refusal where
  /-- The instruction has no meaning yet: raised by the arms of Dispatch.lean alone. Safe: nothing is claimed of it. -/
  | notModelled (mnemonic : String)
deriving DecidableEq, Repr

/-! ## Reset (R435, R323 to R327, R343) -/

/-- A table entry of R317: next state, action bits, valid. -/
def protoEntry (next : Nat) (act : Nat) : BitVec 16 := BitVec.ofNat 16 (next + 8 * act + 0x8000)

/-- The action bits of R319. -/
abbrev actADDH : Nat := 1
abbrev actDROPH : Nat := 2
abbrev actSETO : Nat := 4
abbrev actCLRO : Nat := 8
abbrev actINV : Nat := 16
abbrev actUPD : Nat := 32
abbrev actFWD : Nat := 64
abbrev actWB : Nat := 128
abbrev actFAULT : Nat := 256

/-- A table's entries from the rows of its states, nine events each, padded to sixteen events and eight states. -/
def protoTable (rows : List (List (BitVec 16))) : Vector (BitVec 16) 128 :=
  Vector.ofFn fun i => ((rows.getD (i.val / 16) []).getD (i.val % 16) 0)

/-- Slot 0, Invalidate (R324). -/
def slotInvalidate : Slot where
  active := true
  aattr := 0x030101
  aent := protoTable
    [ [protoEntry 1 actADDH, protoEntry 2 (actADDH + actSETO + actINV), protoEntry 0 0, protoEntry 0 0, protoEntry 0 0,
        protoEntry 0 0, protoEntry 0 0, protoEntry 0 0, protoEntry 0 0],
      [protoEntry 1 actADDH, protoEntry 2 (actADDH + actSETO + actINV), protoEntry 1 0, protoEntry 1 actDROPH,
        protoEntry 0 actDROPH, protoEntry 0 actDROPH, protoEntry 0 (actDROPH + actINV), protoEntry 1 0,
        protoEntry 0 (actDROPH + actINV)],
      [protoEntry 1 (actADDH + actCLRO + actFWD + actWB), protoEntry 2 (actADDH + actSETO + actINV + actFWD),
        protoEntry 2 0, protoEntry 2 0, protoEntry 0 (actDROPH + actCLRO), protoEntry 0 (actDROPH + actCLRO + actWB),
        protoEntry 0 (actDROPH + actCLRO + actINV + actWB), protoEntry 1 (actCLRO + actWB),
        protoEntry 0 (actDROPH + actCLRO + actINV + actWB)] ]

/-- Slot 1, Update (R325). -/
def slotUpdate : Slot where
  active := true
  aattr := 0x0101
  aent := protoTable
    [ [protoEntry 1 actADDH, protoEntry 1 actADDH, protoEntry 0 0, protoEntry 0 0, protoEntry 0 0, protoEntry 0 0,
        protoEntry 0 0, protoEntry 0 0, protoEntry 0 0],
      [protoEntry 1 actADDH, protoEntry 1 (actADDH + actUPD), protoEntry 1 0, protoEntry 1 actDROPH,
        protoEntry 0 actDROPH, protoEntry 0 actDROPH, protoEntry 0 (actDROPH + actINV), protoEntry 1 0,
        protoEntry 0 (actDROPH + actINV)] ]

/-- Slot 2, Migratory (R326). -/
def slotMigratory : Slot where
  active := true
  aattr := 0x0301
  aent := protoTable
    [ [protoEntry 1 (actADDH + actSETO + actINV), protoEntry 1 (actADDH + actSETO + actINV), protoEntry 0 0,
        protoEntry 0 0, protoEntry 0 0, protoEntry 0 0, protoEntry 0 0, protoEntry 0 0, protoEntry 0 0],
      [protoEntry 1 (actADDH + actSETO + actINV + actFWD), protoEntry 1 (actADDH + actSETO + actINV + actFWD),
        protoEntry 1 0, protoEntry 1 0, protoEntry 0 (actDROPH + actCLRO), protoEntry 0 (actDROPH + actCLRO + actWB),
        protoEntry 0 (actDROPH + actCLRO + actINV + actWB), protoEntry 1 actWB,
        protoEntry 0 (actDROPH + actCLRO + actINV + actWB)] ]

/-- Slot 3, Write-once (R327). -/
def slotWriteOnce : Slot where
  active := true
  faulting := true
  aattr := 0x010101
  aent := protoTable
    [ [protoEntry 1 actADDH, protoEntry 2 (actADDH + actINV), protoEntry 0 0, protoEntry 0 0, protoEntry 0 0,
        protoEntry 0 0, protoEntry 0 0, protoEntry 0 0, protoEntry 0 0],
      [protoEntry 1 actADDH, protoEntry 2 (actADDH + actINV), protoEntry 1 0, protoEntry 1 actDROPH,
        protoEntry 0 actDROPH, protoEntry 0 actDROPH, protoEntry 0 (actDROPH + actINV), protoEntry 1 0,
        protoEntry 0 (actDROPH + actINV)],
      [protoEntry 2 actADDH, protoEntry 2 actFAULT, protoEntry 2 0, protoEntry 2 actDROPH, protoEntry 2 actDROPH,
        protoEntry 2 actDROPH, protoEntry 0 (actDROPH + actINV), protoEntry 2 0, protoEntry 0 (actDROPH + actINV)] ]

/-- The slots after reset: 0 to 3 hold the tables of R324 to R327, 4 to 7 are empty (R323). -/
def resetSlots : Vector Slot 8 :=
  #v[slotInvalidate, slotUpdate, slotMigratory, slotWriteOnce, {}, {}, {}, {}]

/-- The root partition after reset (R343): active, every queue, every print engine, window 0 all of device DRAM. -/
def rootPart : Part where
  pstate := 1
  qcount := 4096
  printmask := 0xFF
  windows := (Vector.replicate 16 ((0 : Word), (0 : Word))).set 0 (1, 0x5FFFFFF000)

/-- The machine right after power-on (R435): DRAM scrubbed, slots loaded, device time 0, the root partition active,
every context EMPTY. -/
def State.reset : State where
  slots := resetSlots
  parts := [(0, rootPart)]

end Sys2Proof.Machine
end

