-- ==== Sys2Proof/Machine/Num.lean ====
section
/-!
DEFINITION. Number formats and arithmetic (R106 to R133): the exact value of an element, rounding once into a format,
integer saturation, scaled blocks, the functions of R200 and R263, and the sticky flags each sets.
-/
namespace Sys2Proof.Machine

/-- The tag codes of R101. -/
abbrev tNONE : Nat := 0x00
abbrev tI8 : Nat := 0x01
abbrev tI16 : Nat := 0x02
abbrev tI32 : Nat := 0x03
abbrev tI64 : Nat := 0x04
abbrev tN8 : Nat := 0x05
abbrev tN64 : Nat := 0x08
abbrev tI16X2 : Nat := 0x09
abbrev tT2 : Nat := 0x0A
abbrev tFP64 : Nat := 0x10
abbrev tFP32 : Nat := 0x11
abbrev tFP16 : Nat := 0x12
abbrev tBF16 : Nat := 0x13
abbrev tE4M3 : Nat := 0x14
abbrev tE5M2 : Nat := 0x15
abbrev tE3M2 : Nat := 0x16
abbrev tE2M3 : Nat := 0x17
abbrev tE2M1 : Nat := 0x18
abbrev tE8M0 : Nat := 0x19

/-- A tag code R101 does not reserve. -/
def tagKnown (t : Nat) : Bool := decide (t < 0x0B) || (decide (0x10 ≤ t) && decide (t < 0x1A))

/-- The tag classes of R189. -/
def isINT (t : Nat) : Bool := decide (1 ≤ t) && decide (t ≤ 8)
def isSigned (t : Nat) : Bool := decide (1 ≤ t) && decide (t ≤ 4)
def isFPW (t : Nat) : Bool := decide (0x10 ≤ t) && decide (t ≤ 0x13)
def isFPN (t : Nat) : Bool := decide (0x14 ≤ t) && decide (t ≤ 0x18)

/-- Element width in bits (R106). -/
def ewOf (t : Nat) : Nat :=
  match t with
  | 0x01 | 0x05 | 0x14 | 0x15 | 0x16 | 0x17 | 0x19 => 8
  | 0x02 | 0x06 | 0x12 | 0x13 => 16
  | 0x03 | 0x07 | 0x09 | 0x11 => 32
  | 0x18 => 4
  | 0x0A => 2
  | _ => 64

/-- vlmax of a tag and a group given as its log2 (R104). -/
def vlmax (t g : Nat) : Nat := min 8192 (2 ^ g * 4096 / ewOf t)

/-- The seven sticky flags as bits 6:0 of flags (R123). -/
abbrev FlagSet := BitVec 7
abbrev fNV : FlagSet := 1
abbrev fDZ : FlagSet := 2
abbrev fOF : FlagSet := 4
abbrev fUF : FlagSet := 8
abbrev fIX : FlagSet := 16
abbrev fSAT : FlagSet := 32
abbrev fTR : FlagSet := 64

/-- Exponent and mantissa widths and bias of a floating tag (R110). -/
structure Fmt where
  eb : Nat
  mb : Nat
  bias : Nat
deriving DecidableEq, Repr

/-- The fields of R110. -/
def fmtOf (t : Nat) : Fmt :=
  match t with
  | 0x10 => ⟨11, 52, 1023⟩
  | 0x11 => ⟨8, 23, 127⟩
  | 0x12 => ⟨5, 10, 15⟩
  | 0x13 => ⟨8, 7, 127⟩
  | 0x14 => ⟨4, 3, 7⟩
  | 0x15 => ⟨5, 2, 15⟩
  | 0x16 => ⟨3, 2, 3⟩
  | 0x17 => ⟨2, 3, 1⟩
  | _ => ⟨2, 1, 1⟩

/-- The tag has infinities (R110). -/
def hasInf (t : Nat) : Bool := isFPW t || t == 0x15

/-- The canonical NaN of a tag, if it has one (R110, R112). -/
def canonNaN (t : Nat) : Option Nat :=
  match t with
  | 0x10 => some 0x7FF8000000000000
  | 0x11 => some 0x7FC00000
  | 0x12 => some 0x7E00
  | 0x13 => some 0x7FC0
  | 0x14 => some 0x7F
  | 0x15 => some 0x7E
  | 0x19 => some 0xFF
  | _ => none

/-- The code of the largest finite value of a floating tag (R111). -/
def maxFinite (t : Nat) : Nat :=
  let f := fmtOf t
  if hasInf t then (2 ^ f.eb - 1) * 2 ^ f.mb - 1
  else if t = 0x14 then 0x7E
  else 2 ^ (f.eb + f.mb) - 1

/-- An exact value: NaN (signalling or quiet), an infinity, or the finite ± n / d × 2^e with d not 0; n = 0 is a signed
zero. -/
inductive Val where
  | nan (sig : Bool)
  | inf (neg : Bool)
  | fin (neg : Bool) (n d : Nat) (e : Int)
deriving DecidableEq, Repr

/-- Two's complement value of the low `ew` bits. -/
def signedOf (ew n : Nat) : Int :=
  if n % 2 ^ ew < 2 ^ (ew - 1) then (n % 2 ^ ew : Nat) else (n % 2 ^ ew : Nat) - (2 ^ ew : Nat)

/-- Low `ew` bits of an integer. -/
def wrapTo (ew : Nat) (i : Int) : Nat := (i % (2 ^ ew : Nat)).toNat

/-- An integer as an exact value; 0 is +0. -/
def Val.ofInt (i : Int) : Val := .fin (decide (i < 0)) i.natAbs 1 0

/-- The integer an INT element stands for (R108). -/
def intOf (t n : Nat) : Int := if isSigned t then signedOf (ewOf t) n else ((n % 2 ^ ewOf t : Nat) : Int)

/-- The value of a floating, E8M0 or integer element (R108, R110, R112). -/
def valOf (t n : Nat) : Val :=
  if isINT t then .ofInt (intOf t n)
  else if t = 0x19 then (if n % 256 = 255 then .nan false else .fin false 1 1 ((n % 256 : Nat) - 127 : Int))
  else
    let f := fmtOf t
    let neg := n / 2 ^ (f.eb + f.mb) % 2 = 1
    let ex := n / 2 ^ f.mb % 2 ^ f.eb
    let m := n % 2 ^ f.mb
    if hasInf t ∧ ex = 2 ^ f.eb - 1 then
      (if m = 0 then .inf (decide neg) else .nan (isFPW t && decide (m < 2 ^ (f.mb - 1))))
    else if t = 0x14 ∧ ex = 15 ∧ m = 7 then .nan false
    else if ex = 0 then .fin (decide neg) m 1 (1 - (f.bias : Int) - f.mb)
    else .fin (decide neg) (2 ^ f.mb + m) 1 ((ex : Int) - f.bias - f.mb)

/-- floor(log2(n / d)) for positive n and d. -/
def floorLog2 (n d : Nat) : Int :=
  let k : Int := (Nat.log2 n : Int) - Nat.log2 d
  if 0 ≤ k then (if n < d * 2 ^ k.toNat then k - 1 else k)
  else (if n * 2 ^ (-k).toNat < d then k - 1 else k)

/-- n / d × 2^e as a fraction. -/
def scaleFrac (n d : Nat) (e : Int) : Nat × Nat :=
  if 0 ≤ e then (n * 2 ^ e.toNat, d) else (n, d * 2 ^ (-e).toNat)

/-- The integer neighbour of n / d that a rounding mode chooses (R114), for a value of the given sign; under RSR by the
lfsr value `l` (R121). The flag is set where the fraction is not an integer. -/
def roundNat (n d : Nat) (neg : Bool) (rm l : Nat) : Nat × Bool :=
  let q := n / d
  let r := n % d
  let up := match rm with
    | 0 => decide (d < 2 * r) || (decide (2 * r = d) && q % 2 == 1)
    | 1 => false
    | 2 => neg
    | 3 => !neg
    | 4 => decide (d ≤ 2 * r)
    | _ => decide (l < 2 ^ 32 * r / d)
  (if decide (r ≠ 0) && up then q + 1 else q, decide (r ≠ 0))

/-- An exact value is rounded into E8M0 (R117). -/
def roundE8M0 (x : Val) (rm : Nat) : Nat × FlagSet :=
  match x with
  | .nan sig => (0xFF, if sig then fNV else 0)
  | .inf _ => (0xFE, fOF ||| fIX)
  | .fin _ n d e =>
    if n = 0 then (0x00, fUF ||| fIX)
    else
      let k := floorLog2 n d
      let (a, b) := scaleFrac n d (-k)
      let exact := decide (a = b)
      let up := match rm with
        | 1 | 2 => false
        | 3 => !exact
        | _ => decide (3 * b ≤ 2 * a)
      let c := k + e + (if up then 1 else 0)
      if 127 < c then (0xFE, fOF ||| fIX)
      else if c < -127 then (0x00, fUF ||| fIX)
      else ((c + 127).toNat, if exact then 0 else fIX)

/-- An exact value is rounded once into a floating tag or E8M0 (R114 to R117): the code and the flags. -/
def roundTo (t : Nat) (x : Val) (rm l : Nat) : Nat × FlagSet :=
  if t = 0x19 then roundE8M0 x rm
  else
    let f := fmtOf t
    let sb := fun (neg : Bool) => if neg then 2 ^ (f.eb + f.mb) else 0
    match x with
    | .nan sig => match canonNaN t with
      | some c => (c, if sig then fNV else 0)
      | none => (0, fNV)
    | .inf neg =>
      if hasInf t then (sb neg + maxFinite t + 1, 0) else (sb neg + maxFinite t, fOF ||| fIX)
    | .fin neg n d e =>
      if n = 0 then (sb neg, 0)
      else
        let emin : Int := 1 - f.bias
        let q := max (floorLog2 n d + e) emin - f.mb
        let (a, b) := scaleFrac n d (e - q)
        let (m, inex) := roundNat a b neg rm l
        let code :=
          if m < 2 ^ f.mb then m
          else if m < 2 ^ (f.mb + 1) then ((q + f.mb + f.bias).toNat) * 2 ^ f.mb + (m - 2 ^ f.mb)
          else ((q + f.mb + 1 + f.bias).toNat) * 2 ^ f.mb + (m / 2 - 2 ^ f.mb)
        if maxFinite t < code then
          let toInf := hasInf t && (rm == 0 || rm == 4 || rm == 5 || (rm == 2 && neg) || (rm == 3 && !neg))
          (sb neg + maxFinite t + (if toInf then 1 else 0), fOF ||| fIX)
        else
          (sb neg + code, (if inex then fIX else 0) ||| (if inex && decide (code < 2 ^ f.mb) then fUF else 0))

/-- The range of an INT tag (R108). -/
def intRange (t : Nat) : Int × Int :=
  if isSigned t then (-(2 ^ (ewOf t - 1) : Nat), (2 ^ (ewOf t - 1) : Nat) - 1) else (0, (2 ^ ewOf t : Nat) - 1)

/-- sat(x, tag) as raw bits, with SAT where it clamps (R104, R108). -/
def satTo (t : Nat) (x : Int) : Nat × FlagSet :=
  let (lo, hi) := intRange t
  if x < lo then (wrapTo (ewOf t) lo, fSAT)
  else if hi < x then (wrapTo (ewOf t) hi, fSAT)
  else (wrapTo (ewOf t) x, 0)

/-- A floating value is converted into an INT tag (R118). -/
def floatToInt (t : Nat) (x : Val) (rm l : Nat) : Nat × FlagSet :=
  let (lo, hi) := intRange t
  match x with
  | .nan _ => (0, fNV)
  | .inf neg => (wrapTo (ewOf t) (if neg then lo else hi), fNV)
  | .fin neg n d e =>
    let (a, b) := scaleFrac n d e
    let (m, inex) := roundNat a b neg rm l
    let i : Int := if neg then -(m : Int) else m
    if i < lo then (wrapTo (ewOf t) lo, fNV)
    else if hi < i then (wrapTo (ewOf t) hi, fNV)
    else (wrapTo (ewOf t) i, if inex then fIX else 0)

/-- An operand that is a signalling NaN sets NV (R113). -/
def sigFlag (x : Val) : FlagSet := match x with | .nan true => fNV | _ => 0

/-- A value is NaN. -/
def Val.isNaN (x : Val) : Bool := match x with | .nan _ => true | _ => false

/-- A value is a zero. -/
def Val.isZero (x : Val) : Bool := match x with | .fin _ n _ _ => n == 0 | _ => false

/-- The sign of a value. -/
def Val.neg? (x : Val) : Bool := match x with | .inf s => s | .fin s _ _ _ => s | .nan _ => false

/-- The negated value. -/
def Val.negate (x : Val) : Val := match x with | .inf s => .inf !s | .fin s n d e => .fin (!s) n d e | .nan g => .nan g

/-- The absolute value. -/
def Val.abs (x : Val) : Val := match x with | .inf _ => .inf false | .fin _ n d e => .fin false n d e | .nan g => .nan g

/-- The exact sum, with NV for ∞ − ∞; a zero sum takes its sign as R114 step 4 gives. -/
def addVal (x y : Val) (rm : Nat) : Val × FlagSet :=
  match x, y with
  | .nan a, .nan b => (.nan false, if a || b then fNV else 0)
  | .nan a, _ => (.nan false, if a then fNV else 0)
  | _, .nan b => (.nan false, if b then fNV else 0)
  | .inf a, .inf b => if a = b then (.inf a, 0) else (.nan false, fNV)
  | .inf a, .fin .. => (.inf a, 0)
  | .fin .., .inf b => (.inf b, 0)
  | .fin s n d e, .fin s' n' d' e' =>
    let m := min e e'
    let a : Int := n * 2 ^ (e - m).toNat * d'
    let b : Int := n' * 2 ^ (e' - m).toNat * d
    let r := (if s then -a else a) + (if s' then -b else b)
    if r = 0 then
      (.fin (if n = 0 ∧ n' = 0 ∧ s = s' then s else rm == 2) 0 1 0, 0)
    else (.fin (decide (r < 0)) r.natAbs (d * d') m, 0)

/-- The exact product, with NV for 0 × ∞ (R113). -/
def mulVal (x y : Val) : Val × FlagSet :=
  match x, y with
  | .nan a, .nan b => (.nan false, if a || b then fNV else 0)
  | .nan a, _ => (.nan false, if a then fNV else 0)
  | _, .nan b => (.nan false, if b then fNV else 0)
  | .inf a, .inf b => (.inf (a != b), 0)
  | .inf a, .fin s n _ _ => if n = 0 then (.nan false, fNV) else (.inf (a != s), 0)
  | .fin s n _ _, .inf b => if n = 0 then (.nan false, fNV) else (.inf (s != b), 0)
  | .fin s n d e, .fin s' n' d' e' => (.fin (s != s') (n * n') (d * d') (e + e'), 0)

/-- The exact quotient, with DZ and NV as R200 gives. -/
def divVal (x y : Val) : Val × FlagSet :=
  match x, y with
  | .nan a, .nan b => (.nan false, if a || b then fNV else 0)
  | .nan a, _ => (.nan false, if a then fNV else 0)
  | _, .nan b => (.nan false, if b then fNV else 0)
  | .inf _, .inf _ => (.nan false, fNV)
  | .inf a, .fin s _ _ _ => (.inf (a != s), 0)
  | .fin s _ _ _, .inf b => (.fin (s != b) 0 1 0, 0)
  | .fin s n d e, .fin s' n' d' e' =>
    if n' = 0 then (if n = 0 then (.nan false, fNV) else (.inf (s != s'), fDZ))
    else (.fin (s != s') (n * d') (d * n') (e - e'), 0)

/-- p + c with p the exact product, signs as the form gives (R193): a product 0 × ∞ is NaN with NV whatever c holds. -/
def fmaVal (x y c : Val) (negProd negAcc : Bool) (rm : Nat) : Val × FlagSet :=
  let (p, f) := mulVal x y
  let p := if negProd then p.negate else p
  let c' := if negAcc then c.negate else c
  let (r, g) := addVal p c' rm
  (r, f ||| g ||| sigFlag c)

/-- x < y for values that are not NaN; −0 equals +0 unless `zeros` orders −0 below +0. -/
def ltVal (x y : Val) (zeros : Bool) : Bool :=
  match x, y with
  | .inf a, .inf b => a && !b
  | .inf a, .fin .. => a
  | .fin .., .inf b => !b
  | .fin s n d e, .fin s' n' d' e' =>
    if n = 0 ∧ n' = 0 then zeros && s && !s'
    else
      let m := min e e'
      let a : Int := n * 2 ^ (e - m).toNat * d'
      let b : Int := n' * 2 ^ (e' - m).toNat * d
      decide ((if s then -a else a) < (if s' then -b else b))
  | _, _ => false

/-- Largest r with r × r ≤ n, by binary digits. -/
def isqrtFrom (n : Nat) : Nat → Nat → Nat
  | 0, r => r
  | k + 1, r => if (r + 2 ^ k) * (r + 2 ^ k) ≤ n then isqrtFrom n k (r + 2 ^ k) else isqrtFrom n k r

/-- floor(√n). -/
def isqrt (n : Nat) : Nat := isqrtFrom n (Nat.log2 n / 2 + 1) 0

/-- √(n / d × 2^e) for n > 0 as an exact value, or, where it is irrational, as a value between the two neighbours on a
grid of at least 160 significant bits, which rounds as the root does in every mode. -/
def sqrtPos (n d : Nat) (e : Int) : Val :=
  let k0 : Int := 330 - floorLog2 n d
  let k := if (e - k0) % 2 = 0 then k0 else k0 + 1
  let (a, b) := scaleFrac n d k
  let r := isqrt (a / b)
  let h := (e - k) / 2
  if r * r * b = a then .fin false r 1 h else .fin false (2 * r + 1) 2 h

/-- A positive irrational value given by a floor on a fine grid: strictly between r and r + 1 grid steps. -/
def between (neg : Bool) (r : Nat) (e : Int) : Val := .fin neg (2 * r + 1) 2 e

/-- Fixed-point fraction bits of the series below. -/
abbrev fxBits : Nat := 700

/-- Σ z^(2i+1) / (2i+1) in fixed point: atanh of z, for z² = zz. -/
def atanhSum (zz : Nat) : Nat → Nat → Nat → Nat → Nat
  | 0, _, _, acc => acc
  | k + 1, i, p, acc => atanhSum zz k (i + 2) (p * zz / 2 ^ fxBits) (acc + p / i)

/-- ln of a fraction a / b between 1 and 2, in fixed point. -/
def lnFx (a b : Nat) : Nat :=
  let z := (a - b) * 2 ^ fxBits / (a + b)
  2 * atanhSum (z * z / 2 ^ fxBits) 230 1 z 0

/-- ln 2 in fixed point. -/
def ln2Fx : Nat := lnFx 2 1

/-- Σ x^i / i! in fixed point. -/
def expSum (x : Nat) : Nat → Nat → Nat → Nat → Nat
  | 0, _, _, acc => acc
  | k + 1, i, p, acc => expSum x k (i + 1) (p * x / 2 ^ fxBits / i) (acc + p)

/-- e^x for a fixed-point x below 1, in fixed point. -/
def expFx (x : Nat) : Nat := expSum x 180 1 (2 ^ fxBits) 0

/-- 2^x (R200): exact for an integer x, else a value that rounds as the exact one. -/
def exp2Val (x : Val) : Val × FlagSet :=
  match x with
  | .nan g => (.nan false, if g then fNV else 0)
  | .inf true => (.fin false 0 1 0, 0)
  | .inf false => (.inf false, 0)
  | .fin neg n d e =>
    let big := decide (12 < floorLog2 n d + e) && decide (n ≠ 0)
    if big then (if neg then (between false 1 (-5000), 0) else (between false 1 5000, 0))
    else
      let (a, b) := scaleFrac n d e
      let i : Int := if neg then -((a + b - 1) / b : Nat) else (a / b : Nat)
      let fr := if neg then ((a + b - 1) / b) * b - a else a % b
      if fr = 0 then (.fin false 1 1 i, 0)
      else (between false (expFx (fr * ln2Fx / b) / 2 ^ 100) (i - (fxBits : Int) + 100), 0)

/-- log2 x (R200). -/
def log2Val (x : Val) : Val × FlagSet :=
  match x with
  | .nan g => (.nan false, if g then fNV else 0)
  | .inf true => (.nan false, fNV)
  | .inf false => (.inf false, 0)
  | .fin neg n d e =>
    if n = 0 then (.inf true, fDZ)
    else if neg then (.nan false, fNV)
    else
      let k := floorLog2 n d
      let (a, b) := scaleFrac n d (-k)
      if a = b then (.ofInt (k + e), 0)
      else
        let fr := lnFx a b * 2 ^ fxBits / ln2Fx
        let t : Int := (k + e) * (2 ^ fxBits : Nat) + fr
        if 0 ≤ t then (between false (t.toNat / 2 ^ 100) (100 - (fxBits : Int)), 0)
        else (between true ((-t).toNat / 2 ^ 100) (100 - (fxBits : Int)), 0)

/-- √x and 1 / √x (R200). -/
def sqrtVal (x : Val) : Val × FlagSet :=
  match x with
  | .nan g => (.nan false, if g then fNV else 0)
  | .inf true => (.nan false, fNV)
  | .inf false => (.inf false, 0)
  | .fin neg n d e =>
    if n = 0 then (.fin neg 0 1 0, 0) else if neg then (.nan false, fNV) else (sqrtPos n d e, 0)

def rsqrtVal (x : Val) : Val × FlagSet :=
  match x with
  | .nan g => (.nan false, if g then fNV else 0)
  | .inf true => (.nan false, fNV)
  | .inf false => (.fin false 0 1 0, 0)
  | .fin neg n d e =>
    if n = 0 then (.inf neg, fDZ) else if neg then (.nan false, fNV) else (sqrtPos d n (-e), 0)

/-- arctan(1 / k) in fixed point, for Machin's formula. -/
def arctanInv (k : Nat) : Nat → Nat → Nat → Int → Int
  | 0, _, _, acc => acc
  | m + 1, i, p, acc => arctanInv k m (i + 1) (p / (k * k)) (if i % 2 = 0 then acc + (p / (2 * i + 1) : Nat) else acc - (p / (2 * i + 1) : Nat))

/-- π in fixed point. -/
def piFx : Nat :=
  (16 * arctanInv 5 160 0 (2 ^ fxBits / 5) 0 - 4 * arctanInv 239 60 0 (2 ^ fxBits / 239) 0).toNat

/-- Σ (−1)^i y^(2i+1) / (2^i i! (2i+1)) in fixed point, for y² / 2 = hh. -/
def phiSum (hh : Nat) : Nat → Nat → Nat → Int → Int
  | 0, _, _, acc => acc
  | m + 1, i, p, acc =>
    phiSum hh m (i + 1) (p * hh / 2 ^ fxBits / (i + 1)) (if i % 2 = 0 then acc + (p / (2 * i + 1) : Nat) else acc - (p / (2 * i + 1) : Nat))

/-- y × Φ(y) of a finite y (R263), as a value that rounds to FP32 under RNE as the exact one. -/
def geluFin (neg : Bool) (n d : Nat) (e : Int) : Val :=
  if n = 0 then .fin neg 0 1 0
  else if 4 ≤ floorLog2 n d + e then
    -- |y| at least 16: Φ(y) is 1 less, or 0 more, than anything FP32 can tell
    (if neg then between true 1 (-400) else between false (2 * (n * 2 ^ 200 / d) - 1) (e - 201))
  else if floorLog2 n d + e < -160 then between neg (n * 2 ^ 200 / d) (e - 201)
  else
    let (a, b) := scaleFrac n d (e + fxBits)
    let y := a / b
    let hh := y * y / 2 ^ (fxBits + 1)
    let c := isqrt (2 ^ (3 * fxBits) / (2 * piFx))
    let s := phiSum hh 700 0 y 0
    let half : Int := (2 ^ (fxBits - 1) : Nat)
    let t : Int := s * c / (2 ^ fxBits : Nat)
    let phi := if neg then half - t else half + t
    between neg (y * phi.toNat / 2 ^ (fxBits + 100)) (100 - (fxBits : Int))

/-- y / (1 + e^−y) of a finite y (R263), as a value that rounds to FP32 under RNE as the exact one. -/
def siluFin (neg : Bool) (n d : Nat) (e : Int) : Val :=
  if n = 0 then .fin neg 0 1 0
  else if 8 ≤ floorLog2 n d + e then
    (if neg then between true 1 (-400) else between false (2 * (n * 2 ^ 200 / d) - 1) (e - 201))
  else if floorLog2 n d + e < -160 then between neg (n * 2 ^ 200 / d) (e - 201)
  else
    let (a, b) := scaleFrac n d (e + fxBits)
    let y := a / b
    let k := y / ln2Fx
    let ex := expFx (y % ln2Fx) * 2 ^ k
    let one := 2 ^ fxBits
    -- 1 / (1 + e^-y) is e^y / (1 + e^y) for y > 0, and 1 / (1 + e^|y|) for y < 0
    let num := if neg then one else ex
    between neg (y * num / (one + ex) / 2 ^ 100) (100 - (fxBits : Int))

/-- The linear feedback step of R120. -/
def lfsrStep (l : BitVec 32) : BitVec 32 :=
  let fb := l.getLsbD 31 ^^ l.getLsbD 21 ^^ l.getLsbD 1 ^^ l.getLsbD 0
  (l <<< 1) ||| (if fb then 1 else 0)

/-- `lfsrStep` applied `n` times. -/
def lfsrSteps (l : BitVec 32) : Nat → BitVec 32
  | 0 => l
  | n + 1 => lfsrSteps (lfsrStep l) n

/-- The value of a T2 code, with TR for 0b10 (R109). -/
def t2Val (n : Nat) : Int × FlagSet :=
  match n % 4 with
  | 1 => (1, 0)
  | 3 => (-1, 0)
  | 2 => (0, fTR)
  | _ => (0, 0)

/-- An element's value before scaling in vdot and the tile products (R128): I8 is MXINT8, the integer × 2^−6. -/
def mxVal (t n : Nat) : Val :=
  if t = 0x01 then match Val.ofInt (intOf t n) with
    | .fin s m d _ => .fin s m d (-6)
    | v => v
  else valOf t n

/-- `x` times 2^e. -/
def Val.shift (x : Val) (e : Int) : Val := match x with | .fin s n d f => .fin s n d (f + e) | v => v

/-- Sum of products of a block, exact: none where the block makes a NaN (R130). Which zero an exact sum of −0 products alone is the
spec does not say: the sum starts at +0 and stays there, a DESIGN CHOICE (log entry 98). -/
def blockSum (xs : List (Val × Val)) : Option Val :=
  xs.foldl (fun acc (a, b) =>
    match acc with
    | none => none
    | some p =>
      let (m, _) := mulVal a b
      match (addVal p m 0).1 with
      | .nan _ => none
      | v => some v) (some (.fin false 0 1 0))

/-- One block step of R130 into an FP32 accumulator: the new accumulator and the flags. -/
def blockStep (acc : Nat) (xs : List (Val × Val)) (sa sb : Nat) : Nat × FlagSet :=
  if sa = 255 ∨ sb = 255 then (0x7FC00000, fNV)
  else match blockSum xs with
    | none => (0x7FC00000, fNV)
    | some p =>
      let (r, f) := addVal (valOf 0x11 acc) (p.shift ((sa : Int) - 127 + ((sb : Int) - 127))) 0
      let (c, g) := roundTo 0x11 r 0 0
      (c, f ||| g)

/-- One block step of R131 into an I32 accumulator. -/
def blockStepInt (acc : Nat) (p : Int) : Nat × FlagSet := satTo 0x03 (signedOf 32 acc + p)

end Sys2Proof.Machine
end

