-- ==== Sys2Proof/Machine/Map.lean ====
section
/-!
DEFINITION. Sparse maps as sorted lists of pairs, and byte memories in one canonical form: addresses strictly rising and
no entry equal to 0, which is what an unlisted address reads as (device DRAM is scrubbed to zero, R435).
-/
namespace Sys2Proof.Machine

/-- The item numbered `k`, or `d` where none is listed. -/
def get {α : Type} (m : List (Nat × α)) (k : Nat) (d : α) : α :=
  match m with
  | [] => d
  | (j, v) :: r => if j = k then v else get r k d

/-- The item numbered `k`, if listed. -/
def find {α : Type} (m : List (Nat × α)) (k : Nat) : Option α :=
  match m with
  | [] => none
  | (j, v) :: r => if j = k then some v else find r k

/-- Item `k` becomes `v`; keys stay rising. -/
def put {α : Type} (m : List (Nat × α)) (k : Nat) (v : α) : List (Nat × α) :=
  match m with
  | [] => [(k, v)]
  | (j, u) :: r => if k < j then (k, v) :: (j, u) :: r else if j = k then (k, v) :: r else (j, u) :: put r k v

/-- Item `k` is listed no more. -/
def del {α : Type} (m : List (Nat × α)) (k : Nat) : List (Nat × α) :=
  match m with
  | [] => []
  | (j, u) :: r => if j = k then r else (j, u) :: del r k

/-- The keys are strictly rising. -/
def sortedFrom {α : Type} (lo : Nat) (m : List (Nat × α)) : Bool :=
  match m with
  | [] => true
  | (j, _) :: r => decide (lo ≤ j) && sortedFrom (j + 1) r

/-- A byte memory's canonical form. -/
def Memory.wf (m : List Host.Cell) : Bool := sortedFrom 0 m && m.all fun c => c.2 != 0

/-- The byte at an address; an unlisted address reads as 0. -/
def Memory.read (m : List Host.Cell) (a : Nat) : Byte := get m a 0

/-- A byte is written; writing 0 removes the entry, so equal memories are equal lists. -/
def Memory.write (m : List Host.Cell) (a : Nat) (b : Byte) : List Host.Cell :=
  if b = 0 then del m a else put m a b

/-- `n` bytes from an address, the lowest least significant (R7). -/
def Memory.readN (m : List Host.Cell) (a : Nat) : Nat → Nat
  | 0 => 0
  | n + 1 => (Memory.read m a).toNat + 256 * Memory.readN m (a + 1) n

/-- The low `n` bytes of `v` are written from an address up (R7). -/
def Memory.writeN (m : List Host.Cell) (a : Nat) : Nat → Nat → List Host.Cell
  | 0, _ => m
  | n + 1, v => Memory.writeN (Memory.write m a (BitVec.ofNat 8 v)) (a + 1) n (v / 256)

/-- `f` applied `n` times with a running index. -/
def iterate {α : Type} (f : Nat → α → α) : Nat → Nat → α → α
  | 0, _, x => x
  | n + 1, i, x => iterate f n (i + 1) (f i x)

/-- Bits `lo + n - 1` to `lo` of a 64-bit word, as a number. -/
abbrev bits (w : Word) (lo n : Nat) : Nat := w.toNat / 2 ^ lo % 2 ^ n

/-- A word from a number. -/
abbrev word (n : Nat) : Word := BitVec.ofNat 64 n

/-- Item `i` of a vector, or the default beyond its end. -/
def vget {α : Type} {n : Nat} (v : Vector α n) (i : Nat) (d : α) : α := v.getD i d

/-- Item `i` of a vector becomes `x`; beyond its end nothing changes. -/
def vset {α : Type} {n : Nat} (v : Vector α n) (i : Nat) (x : α) : Vector α n := v.setIfInBounds i x

end Sys2Proof.Machine
end

