-- ==== Sys2Proof/Machine/Mem.lean ====
section
/-!
DEFINITION. The ordering machine (R297 to R329): core registries, die points, homes with their protocol tables, and the
inter-die queues. A die that holds a line and has no entry of its own for a word sees the home value; an entry is made
where the die point's value may differ from it.
-/
namespace Sys2Proof.Machine

/-- Why an access is not performed now: it waits (with what it has left behind, such as a request sent), or it stops its
issuer with a class B cause and subcode, at the address of a write made before where that is the one refused, and with what a
refused write's event has done at its line (R319). -/
inductive MErr where
  | wait (s : State)
  | stop (cause sub : Nat) (addr : Option Word := none) (left : Option State := none)
deriving Repr

/-- Key of a word at a die point or in a core registry. -/
abbrev unitKey (u a : Nat) : Nat := u * 2 ^ 56 + a

/-- Host lines on the coherent path lie above this address in the ordering machine, so that their homes and dies follow
the same steps as device lines (R414). -/
abbrev hostTag : Nat := 2 ^ 55

/-- Bytes of a grain (R312). -/
def grainBytes (g : Nat) : Nat := 32 * 4 ^ g

/-- The aligned grain holding an address. -/
def grainBase (g a : Nat) : Nat := a / grainBytes g * grainBytes g

/-- The line that holds an address at its home, with its base (R312, R315). -/
def lineAt (s : State) (a : Nat) : Option (Nat × Line) :=
  let try_ := fun (g : Nat) =>
    match find s.lines (grainBase g a) with
    | some l => if l.grain = g then some (grainBase g a, l) else none
    | none => none
  match try_ 0 with
  | some r => some r
  | none => match try_ 1 with
    | some r => some r
    | none => try_ 2

/-- The word at its home: DRAM and LLC as one, or host memory for a coherent host line (R298, R416). -/
def homeWord (s : State) (w : Nat) : BitVec 32 :=
  if hostTag ≤ w then BitVec.ofNat 32 (Memory.readN s.hostMem (w - hostTag) 4)
  else BitVec.ofNat 32 (Memory.readN s.mem w 4)

/-- The LLC writes a dirty word to DRAM (R319): DRAM and LLC agree again. -/
def cleanLlc (s : State) (w : Nat) : State := { s with llc := del s.llc w }

/-- The LLC's copy of a word is discarded, and DRAM's value stands, or the host's (R177). -/
def discardLlc (s : State) (w : Nat) : State :=
  match find s.llc w with
  | some v =>
    if hostTag ≤ w then { s with hostMem := Memory.writeN s.hostMem (w - hostTag) 4 v.toNat, llc := del s.llc w }
    else { s with mem := Memory.writeN s.mem w 4 v.toNat, llc := del s.llc w }
  | none => s

/-- The partition in whose device-memory window a frame lies, the lowest-numbered other than the root first (R344). -/
def inWindow (p : Part) (kind dev frame : Nat) : Bool :=
  p.windows.toList.any fun (w0, w1) =>
    bits w0 0 2 == kind && bits w0 2 10 == 0 && bits w0 52 12 == 0 && bits w1 0 12 == 0 && bits w1 62 2 == 0
      && (bits w1 52 10 == if kind == 2 then dev else 0)
      && decide (bits w0 12 40 ≤ frame) && decide (frame ≤ bits w1 12 40)
      && decide (bits w0 12 40 ≤ bits w1 12 40) && (kind != 1 || decide (bits w1 12 40 ≤ 0x5FFFFFF))

/-- The partition page of `p` (R343): an absent one as at reset. -/
def State.part (s : State) (p : Nat) : Part := get s.parts p {}

/-- The partition whose windows hold a frame of device DRAM, for placement: the first of those listed other than the
root, else the root. -/
def partOfFrame (s : State) (frame : Nat) : Nat :=
  match s.parts.find? fun (n, p) => n != 0 && inWindow p 1 0 frame with
  | some (n, _) => n
  | none => 0

/-- The granules of 2 MiB that fill the 48 GiB of one stack (R2, R351). -/
abbrev stackGranules : Nat := 24576

/-- The granules that lie on a stack. -/
def stackCount (s : State) (st : Nat) : Nat := (s.granules.filter fun (_, g) => g.stack == st).length

/-- A stack has DRAM left for one more granule (R2). -/
abbrev stackRoom (s : State) (st : Nat) : Bool := decide (stackCount s st < stackGranules)

/-- The stacks a partition's granules may be placed on; the mask 0 acts as 0xFF (R351). -/
def stacksOf (s : State) (p : Nat) : BitVec 8 :=
  let m := (get s.places p {}).stackMask
  if m = 0 then 0xFF else m

/-- The stack a granule first touched from a die is placed on (R388), among those with free DRAM (R2). Where every stack the
mask allows is full the spec says nothing, and one outside the mask is taken: a DESIGN CHOICE (log entry 65). -/
def chooseStack (s : State) (die a : Nat) : Nat :=
  let free := (List.range 8).filter (stackRoom s)
  let m := stacksOf s (partOfFrame s (a / 4096))
  let ok := match free.filter (m.getLsbD ·) with
    | [] => free
    | l => l
  if ok.contains die then die
  else (ok.foldl (fun best st => match best with
    | none => some st
    | some b => if stackCount s st < stackCount s b then some st else some b) none).getD 0

/-- An access of a die to a granule at its home, 8 for an agent of no die: the granule is placed at the first (R388), and each
counts among its accesses (R389). -/
def touchGranule (s : State) (die a : Nat) : State :=
  if hostTag ≤ a then s
  else
    let t := { s with uses := (a / 2 ^ 21, s.time, die) :: s.uses }
    match find s.granules (a / 2 ^ 21) with
    | some _ => t
    | none => { t with granules := put s.granules (a / 2 ^ 21) { stack := chooseStack s die a } }

/-- The home stack of an address (R298, R351). Which hash of its address gives a host line's (R414) the spec does not say: here
address / 512 mod 8, a DESIGN CHOICE (log entry 72). -/
def homeStack (s : State) (a : Nat) : Nat :=
  if hostTag ≤ a then a / 512 % 8
  else match find s.granules (a / 2 ^ 21) with
  | some g => g.stack
  | none => 0

/-- Words that the LLC of one stack holds: 512 MiB (R4). -/
abbrev llcWords : Nat := 134217728

/-- The LLC's copy of a word differs from now on from DRAM, or from host memory: what stands there is kept (R177). A stack whose LLC is
full of such words writes one to DRAM first; that it is the lowest is a DESIGN CHOICE (log entry 66). -/
def dirtyLlc (s : State) (w : Nat) : State :=
  match find s.llc w with
  | some _ => s
  | none =>
    let here := s.llc.filter fun (u, _) => homeStack s u == homeStack s w
    let l := if s.llc.length < llcWords ∨ here.length < llcWords then s.llc
      else match here with
        | (u, _) :: _ => del s.llc u
        | [] => s.llc
    { s with llc := put l w (homeWord s w) }

/-- A word is written at its home. -/
def setHomeWord (s : State) (w : Nat) (v : BitVec 32) : State :=
  let s := dirtyLlc s w
  if hostTag ≤ w then { s with hostMem := Memory.writeN s.hostMem (w - hostTag) 4 v.toNat }
  else { s with mem := Memory.writeN s.mem w 4 v.toNat }

/-- The core's registration of a word ends and its entry becomes a copy (R299 step 4). -/
def unregister (s : State) (c w : Nat) : State :=
  match find s.reg (unitKey c w) with
  | some r => { s with reg := put s.reg (unitKey c w) { r with registered := false, atom := 0, stamp := s.stamp, placed := none } }
  | none => s

/-- The placed value that a core's word keeps beside a newer write becomes `v` (R319). -/
def setPlaced (s : State) (c w : Nat) (v : Option (BitVec 32)) : State :=
  match find s.reg (unitKey c w) with
  | some r => { s with reg := put s.reg (unitKey c w) { r with placed := v } }
  | none => s

/-- The last placed value of a registered word, where its core holds it (R299 step 5, R319). -/
def RegWord.atHome (r : RegWord) : Option (BitVec 32) :=
  if !r.registered then none else if r.exported then some r.val else r.placed

/-- Whether a registered word of a core still has a write not placed at its home. -/
def pendingExport (s : State) (c w : Nat) : Bool :=
  match find s.reg (unitKey c w) with
  | some r => r.registered && !r.exported
  | none => false

/-- A die point drops its copy of a word; a write not yet placed is later in coherence order and stays (R299 step 6). -/
def dropDieWord (s : State) (d w : Nat) : State :=
  match find s.die (unitKey d w) with
  | some (.value _) => { s with die := del s.die (unitKey d w) }
  | some (.core c) =>
    if pendingExport s c w then setPlaced s c w none
    else { (unregister s c w) with die := del s.die (unitKey d w) }
  | _ => s

/-- A die point takes back the placed value of a word from the core registered for it, which keeps a copy. -/
def giveDie (s : State) (d w : Nat) : State :=
  match find s.die (unitKey d w) with
  | some (.core c) =>
    match find s.reg (unitKey c w) with
    | some r =>
      if r.registered && !r.exported then s
      else
        let s := unregister s c w
        { s with die := if r.val = homeWord s w then del s.die (unitKey d w) else put s.die (unitKey d w) (.value r.val) }
    | none => { s with die := del s.die (unitKey d w) }
  | _ => s

/-- `f` at each word of a range. -/
def overWords (f : State → Nat → State) (s : State) (base len : Nat) : State :=
  iterate (fun i s => f s (base + 4 * i)) (len / 4) 0 s

/-- A delivery concerns a word. -/
def Delivery.touches (d : Delivery) (w : Nat) : Bool :=
  match d.update with
  | none => decide (d.addr ≤ w) && decide (w < d.addr + d.len)
  | some l => l.any fun u => u.1 == w

/-- A die point's copy of a word becomes the value of an update; it is the home's value again once nothing more is on its way to
it. -/
def updateDie (s : State) (dst w : Nat) (v : BitVec 32) : State :=
  { s with die := if s.idq.any fun e => e.dst == dst && e.touches w then put s.die (unitKey dst w) (.value v)
      else del s.die (unitKey dst w) }

/-- The value of an update reaches a die point: it replaces the copy of the word there, also one that a core of the die was
registered for; a later write of a core of the die stays (R299 step 6). -/
def applyUpdate (s : State) (dst w : Nat) (v : BitVec 32) : State :=
  match find s.die (unitKey dst w) with
  | some (.value _) => updateDie s dst w v
  | some (.core c) => if pendingExport s c w then setPlaced s c w none else updateDie (unregister s c w) dst w v
  | _ => s

/-- The version `v` of a line is later than `u`: versions count modulo 256, and no more than half of them are ever on their
way (R321). -/
def laterVersion (v u : BitVec 8) : Bool := decide (0 < (v - u).toNat) && decide ((v - u).toNat < 128)

/-- The head of an inter-die queue is applied at its die point, unless the die has taken the line under a later version
since (R299 step 6, R301). -/
def applyDelivery (s : State) (d : Delivery) : State :=
  if (match find s.dieVer (unitKey d.dst (match lineAt s d.addr with
      | some (b, _) => b
      | none => d.addr)) with
    | some v => laterVersion v d.ver
    | none => false) then s
  else
    let s := { s with stamp := s.stamp + 1 }
    match d.update with
    | none => overWords (fun s w => dropDieWord s d.dst w) s d.addr d.len
    | some l => l.foldl (fun s u => applyUpdate s d.dst u.1 u.2) s

/-- The queue from one home stack to one die loses its head, which is returned. -/
def popDelivery (q : List Delivery) (src dst : Nat) : Option (Delivery × List Delivery) :=
  match q with
  | [] => none
  | d :: r =>
    if d.src = src ∧ d.dst = dst then some (d, r)
    else match popDelivery r src dst with
      | some (e, r') => some (e, d :: r')
      | none => none

/-- Step 6 for one queue: deliver its head, if any (R299). -/
def deliverOne (s : State) (src dst : Nat) : State :=
  match popDelivery s.idq src dst with
  | some (d, q) => applyDelivery { s with idq := q } d
  | none => s

/-- What is on its way to a die under a test, and what stands before it in its queue, is delivered. -/
def flushFor (s : State) (dst : Nat) (p : Delivery → Bool) : State :=
  iterate (fun _ s => match s.idq.find? fun e => e.dst == dst && p e with
    | some e => deliverOne s e.src dst
    | none => s) s.idq.length 0 s

/-- What is on its way to a die for one word is delivered: a die point that fetches the word or updates it has applied every
older write the home sent it, in order (R301). -/
def flushWord (s : State) (dst w : Nat) : State := flushFor s dst (·.touches w)

/-- A delivery concerns a word of a line. -/
def Delivery.inLine (d : Delivery) (base len : Nat) : Bool :=
  match d.update with
  | none => decide (d.addr < base + len) && decide (base < d.addr + d.len)
  | some l => l.any fun u => decide (base ≤ u.1) && decide (u.1 < base + len)

/-- What is on its way to a die for a line is delivered: a die that becomes a holder or the owner of the line has applied every
older write of it (R301). -/
def flushLine (s : State) (dst base len : Nat) : State := flushFor s dst (·.inLine base len)

/-- Every inter-die queue is drained, each in its own order. -/
def flushAll (s : State) : State :=
  iterate (fun _ s => match s.idq with
    | d :: q => applyDelivery { s with idq := q } d
    | [] => s) s.idq.length 0 s

/-- The owner die's dirty words of a line are written to the home (action WB, R319). -/
def writeBack (s : State) (base : Nat) (l : Line) : State :=
  match l.owner with
  | none => s
  | some d => overWords (fun s w =>
      match find s.die (unitKey d w) with
      | some (.value v) => { (setHomeWord s w v) with die := del s.die (unitKey d w) }
      | some (.core c) =>
        match (find s.reg (unitKey c w)).bind RegWord.atHome with
        | some v => setHomeWord s w v
        | none => s
      | _ => s) s base (grainBytes l.grain)

/-- The owner die's words pass to the requester die without the home (action FWD, R319). -/
def forwardWords (s : State) (base : Nat) (l : Line) (dst : Nat) : State :=
  match l.owner with
  | none => s
  | some d =>
    if d = dst then s
    else overWords (fun s w =>
      let move := fun (v : BitVec 32) (s : State) =>
        match find s.die (unitKey dst w) with
        | some (.core c) => if pendingExport s c w then setPlaced s c w (some v) else s
        | _ => { s with die := put s.die (unitKey dst w) (.value v) }
      match find s.die (unitKey d w) with
      | some (.value v) => { (move v s) with die := del (move v s).die (unitKey d w) }
      | some (.core c) =>
        match (find s.reg (unitKey c w)).bind RegWord.atHome with
        | some v => move v s
        | none => s
      | _ => s) s base (grainBytes l.grain)

/-- An invalidation of a line sets out toward each die of a set (action INV, R319). -/
def queueInv (s : State) (base len : Nat) (dies : BitVec 8) (ver : BitVec 8) : State :=
  let new := (List.range 8).filterMap fun d =>
    if dies.getLsbD d then some { src := homeStack s base, dst := d, addr := base, update := none, len := len, ver := ver }
    else none
  { s with idq := s.idq ++ new }

/-- The events of R318, by code. -/
abbrev evRD : Nat := 0
abbrev evWR : Nat := 1
abbrev evWRO : Nat := 2
abbrev evDROP : Nat := 3
abbrev evDROPL : Nat := 4
abbrev evWBL : Nat := 5
abbrev evSNOOP : Nat := 6
abbrev evCMO : Nat := 7
abbrev evPURGE : Nat := 8

/-- The table entry of an event at a line (R317). -/
def entryFor (s : State) (l : Line) (ev : Nat) : BitVec 16 :=
  vget (vget s.slots l.slot {}).aent (16 * l.state + ev) 0

/-- The action bits of an entry (R317, R319). -/
def entryActs (e : BitVec 16) : Nat := e.toNat / 8 % 512

/-- A line after an event (R317, R319, R321): its next state, holders and owner, and its version, which grows where SETO names
another die or CLRO clears an owner. Requester, INV and the SNP classes as R319 gives them. -/
def Line.after (l : Line) (e : BitVec 16) (ev : Nat) (req : Option Nat) : Line :=
  let act := entryActs e
  let self : BitVec 8 := match req with
    | some d => BitVec.ofNat 8 (2 ^ d)
    | none => 0
  let holders := if act.testBit 4 then l.holders &&& self else l.holders
  let holders := if act.testBit 1 then if 3 ≤ ev ∧ ev ≤ 5 then holders &&& ~~~self else 0 else holders
  let holders := if act.testBit 0 then holders ||| self else holders
  let bump := (act.testBit 2 && decide (l.owner ≠ req)) || (!act.testBit 2 && act.testBit 3 && l.owner.isSome)
  { l with
    state := e.toNat % 8
    holders := holders
    owner := if act.testBit 2 then req else if act.testBit 3 then none else l.owner
    version := if bump then l.version + 1 else l.version }

/-- The home applies an event to one of its lines (R319 to R321): `req` is the die that caused it. Every action of the entry
is done; the flag is set where it refuses the requester's write (FAULT). -/
def applyEvent (s : State) (base ev : Nat) (req : Option Nat) : State × Bool :=
  match find s.lines base with
  | none => (s, false)
  | some l =>
    let e := entryFor s l ev
    let act := entryActs e
    let l' := l.after e ev req
    let s := if act.testBit 7 then writeBack s base l else s
    let s := match req with
      | some d => if act.testBit 6 && !act.testBit 7 then forwardWords s base l d else s
      | none => s
    let self : BitVec 8 := match req with
      | some d => BitVec.ofNat 8 (2 ^ d)
      | none => 0
    let s := if act.testBit 4 then queueInv s base (grainBytes l.grain) (l.holders &&& ~~~self) l'.version else s
    let s := match req with
      | some d => if act.testBit 0 || act.testBit 2 then { s with dieVer := put s.dieVer (unitKey d base) l'.version } else s
      | none => s
    let s := if ev = evPURGE ∨ ev = evCMO then
        { s with llc := s.llc.filter fun (w, _) => !(decide (base ≤ w) && decide (w < base + grainBytes l.grain)) }
      else s
    if ev = evPURGE ∧ l'.state = 0 then ({ s with lines := del s.lines base }, act.testBit 8)
    else ({ s with lines := put s.lines base l' }, act.testBit 8)

/-- A line no die holds (state 0, R317). -/
def freshLine (g sl : Nat) : Line :=
  { grain := g, slot := sl, state := 0, holders := 0, owner := none, version := 0 }

/-- The line of an address is taken under a grain and slot; lines held under others that overlap it are purged first
(R315). -/
def takeLine (s : State) (g sl a : Nat) : State × Nat :=
  let base := grainBase g a
  match find s.lines base with
  | some l =>
    if l.grain = g ∧ l.slot = sl then (s, base)
    else
      let old := s.lines.filter fun (b, m) => decide (b < base + grainBytes g) && decide (base < b + grainBytes m.grain)
      let s := old.foldl (fun s (b, _) => (applyEvent s b evPURGE none).1) s
      ({ s with lines := put s.lines base (freshLine g sl) }, base)
  | none =>
    let old := s.lines.filter fun (b, m) => decide (b < base + grainBytes g) && decide (base < b + grainBytes m.grain)
    let s := old.foldl (fun s (b, _) => (applyEvent s b evPURGE none).1) s
    ({ s with lines := put s.lines base (freshLine g sl) }, base)

/-- A die holds the line of a word under the given grain and slot. -/
def holds (s : State) (d w g sl : Nat) : Bool :=
  match lineAt s w with
  | some (_, l) => l.grain == g && l.slot == sl && l.holders.getLsbD d
  | none => false

/-- The shutter fires (R430): the first trigger, with its source, unless it has fired already. Of triggers in one step, before
`latchStills` latches the stills, the lowest source counts, as of those of one cycle. -/
def fireShutter (s : State) (source : Nat) : State :=
  if s.shutter.fired && (!s.shutter.stills.isEmpty || !s.shutter.due.isEmpty || decide (s.shutter.source.toNat ≤ source)) then s
  else { s with shutter := { s.shutter with fired := true, source := BitVec.ofNat 3 source, ftime := word s.time } }

/-- The event trigger fires, once, after the count has reached EVCOUNT (R429, R430). -/
def eventTrigger (s : State) : State :=
  if s.shutter.reached then fireShutter { s with shutter := { s.shutter with reached := false } } 3 else s

/-- An event of a kind EVSEL may name is counted: 0 keeper events, 1 log entries, 2 slice ends, 3 channel faults; the count reaches
EVCOUNT under an armed trigger (R429). One of 0 it never reaches, a DESIGN CHOICE (log entry 88). -/
def countEvent (s : State) (kind : Nat) : State :=
  let x := s.shutter
  if x.evsel.toNat = kind then { s with shutter := { x with
      seen := x.seen + 1, reached := x.reached || (x.arm.getLsbD 2 && x.evcount.toNat == x.seen + 1) } }
  else s

/-- An access of `n` bytes at a home slice, one of whose addresses matches TADDR under TMASK, fires an armed shutter (R429). -/
def addressTrigger (s : State) (a n : Nat) : State :=
  if s.shutter.arm.getLsbD 1 && (List.range n).any (fun i =>
      BitVec.ofNat 52 (a + i) &&& s.shutter.tmask == s.shutter.taddr &&& s.shutter.tmask) then fireShutter s 2
  else s

/-- The HDM range holds an address (R413, R418). -/
def inHdm (s : State) (a : Nat) : Bool :=
  decide (bits s.cxl.hdmbase 21 31 * 2 ^ 21 ≤ a) && decide (a < bits s.cxl.hdmbase 21 31 * 2 ^ 21 + s.cxl.hdmsize.toNat)

/-- The bias bit of a page of the HDM range: true for host bias (R413, R420). -/
def hostBias (s : State) (a : Nat) : Bool :=
  let n := (a - bits s.cxl.hdmbase 21 31 * 2 ^ 21) / 4096
  (Memory.read s.mem (bits s.cxl.biastab 12 40 * 4096 + n / 8)).getLsbD (n % 8)

/-- The home asks the host home agent for a line, once (R414, R420). -/
def askHost (s : State) (line : Nat) (r : HostReq) : State :=
  if s.cxl.pendReq.any fun p => p.1 == line then s
  else { s with cxl := { s.cxl with pendReq := s.cxl.pendReq ++ [(line, r)] } }

/-- The CXL line is held at its home as the access needs (R414): S to read, E or M to write; otherwise the request goes
out and the access waits. A line to be overwritten whole is asked for without its data. -/
def cxlHold (s : State) (line : Nat) (write whole : Bool) : Except MErr State :=
  let r : HostReq := if !write then .rdShared else if whole then .rdOwnNoData else .rdOwn
  match find s.cxl.hostLines line with
  | some .s => if write then .error (.wait (askHost s line r)) else .ok s
  | some .e => .ok (if write then { s with cxl := { s.cxl with hostLines := put s.cxl.hostLines line .m } } else s)
  | some .m => .ok s
  | none => .error (.wait (askHost s line r))

/-- The CXL lines of 64 bytes that the grain of an address lies in (R414). -/
def grainLines (g a : Nat) : List Nat := (List.range ((grainBytes g + 63) / 64)).map fun i => grainBase g a / 64 * 64 + 64 * i

/-- A back-invalidation of a line sets out, once (R418). -/
def sendBi (s : State) (line : Nat) (write : Bool) : State :=
  if s.cxl.biWait.any fun p => p.1 == line then s
  else { s with cxl := { s.cxl with biWait := s.cxl.biWait ++ [(line, write)] } }

/-- A device address lies in a page whose bias is being flipped (R421, R422). -/
def flipping (s : State) (a : Nat) : Bool := decide (a < hostTag) && s.cxl.flipPages.contains (a / 4096)

/-- What the host's caches let a home do with the grain of an address now (R414, R418, R420, R421): go on, or wait with the
back-invalidations or the requests to the host home agent sent; accesses to a page being flipped wait. `write` for an event that
writes or hands ownership to a die, `ws` the words it overwrites. -/
def hostGate (s : State) (g a : Nat) (write : Bool) (ws : List Nat := []) : Except MErr State :=
  let whole := fun (line : Nat) => (List.range 16).all fun i => ws.contains (line + 4 * i)
  if hostTag ≤ a then
    if !s.cxl.cache then .error (.stop 0x26 0x09)
    else (grainLines g a).foldlM (fun s l => cxlHold s l write (whole l)) s
  else if flipping s a then .error (.wait s)
  else if s.cxl.mode = 2 then
    match (grainLines g a).filter fun l => s.cxl.snoopFilter.any fun p => p.1 == l && (write || p.2) with
    | [] => .ok s
    | ls => .error (.wait (ls.foldl (fun s l => sendBi s l write) s))
  else if s.cxl.mode = 1 then
    (grainLines g a).foldlM (fun s l => if inHdm s l && hostBias s l then cxlHold s l write (whole l) else .ok s) s
  else .ok s

/-- A command is registered for a word above its watermark (R268, R299 step 9). -/
def Cmd.holds (m : Cmd) (w : Nat) : Bool :=
  m.regs.any fun (a, n, d) => decide (a < w + 4) && decide (w < a + n) && decide (m.done < d + (w + 4 - a))

/-- The destination of a print command, in whole grains: a base and a length (R306, R311, R434). -/
def printDest (c : Vector Word 8) : Nat × Nat :=
  if bits (vget c 1 0) 32 16 = 0 then (0, 0)
  else
    let a := (vget c 3 0).toNat / 32 * 32
    (a, ((vget c 3 0).toNat + (vget c 4 0).toNat + 31) / 32 * 32 - a)

/-- Ranges of bytes, each a base and a length, without the first `k` bytes of them all. -/
def dropRanges : List (Nat × Nat) → Nat → List (Nat × Nat)
  | [], _ => []
  | (b, n) :: r, k => if n ≤ k then dropRanges r (k - n) else (b + k, n - k) :: r

/-- What a running restore has still to write of its regions (R306, R428). -/
def NegStore.dests (n : NegStore) : List (Nat × Nat) :=
  if n.running = some false then
    dropRanges ((n.shards.filter fun t => t.job == n.cmd.job && t.complete).map fun t => (t.base, t.len)) n.progress.toNat
  else []

/-- What the commands of a print engine are registered for, each a base, a length and its place in issue order: the running
command from its watermark on (R298, R306). -/
def Print.dests (p : Print) : List (Nat × Nat × Nat) :=
  p.queue.zipIdx.map fun (c, i) =>
    let (a, n) := printDest c
    let k := if i = 0 then min n (((vget c 3 0).toNat + p.mark) / 32 * 32 - a) else 0
    (a + k, n - k, p.orders.getD i 0)

/-- Two ranges of bytes meet. -/
def meet (a n b k : Nat) : Bool := decide (a < b + k) && decide (b < a + n)

/-- A print engine is registered for a byte of a range by a command that `sel` names by its place in issue order (R306). -/
def printHolds (s : State) (a n : Nat) (sel : Nat → Bool := fun _ => true) : Bool :=
  s.prints.any fun (_, p) => p.dests.any fun (b, k, o) => sel o && meet a n b k

/-- The negative store controller's restore is registered for a byte of a range (R306). -/
def storeHolds (s : State) (a n : Nat) : Bool := s.neg.dests.any fun (b, k) => meet a n b k

/-- An engine other than a copy channel is registered for a word: the print engines and the negative store controller, from
the issue of a command until it has written its destination (R306). -/
def deviceHolds (s : State) (w : Nat) : Bool := printHolds s w 4 || storeHolds s w 4

/-- A copy channel is registered for a byte of a range (R268). -/
def chanHolds (s : State) (a n : Nat) : Bool :=
  s.chans.any fun (_, c) => c.cmds.any fun m => m.regs.any fun (b, k, d) =>
    decide (b < a + n) && decide (a < b + k) && decide (m.done < d + (min (a + n) (b + k) - b))

/-- A write of a print engine or of a restore waits for the engines registered for its bytes by commands issued before its own
(R306): a channel's command is in its queue only once no other engine is registered. -/
def heldBefore (s : State) (order a n : Nat) : Bool :=
  chanHolds s a n || printHolds s a n (decide <| · < order) || (decide (s.neg.cmd.order < order) && storeHolds s a n)

/-- An engine is registered for a word, so that every other access to it waits (R268, R299 step 9, R306). -/
def engineHolds (s : State) (w : Nat) : Bool :=
  (s.chans.any fun (_, ch) => ch.cmds.any (·.holds w)) || deviceHolds s w

/-- A die whose write-back of a word's line its home has not answered (R320, R321). -/
def wblWaits (s : State) (d w : Nat) : Bool :=
  !s.wbls.isEmpty && match lineAt s w with
    | some (b, _) => s.wbls.any fun x => x.1 == d && x.2.1 == b
    | none => false

/-- Bytes of a die's L2 (R2). -/
abbrev l2Size : Nat := 2 ^ 28

/-- A line's words. -/
def lineWords (b : Nat) (l : Line) : List Nat := (List.range (grainBytes l.grain / 4)).map fun i => b + 4 * i

/-- A die has a write to a line under way. -/
def writesUnderWay (s : State) (die line : Nat) (l : Line) : Bool :=
  (lineWords line l).any fun w => match find s.die (unitKey die w) with
    | some (.core c) => pendingExport s c w
    | _ => false

/-- A die gives up a line (R318): as its owner by a write-back, which the home accepts, else by DROP or, as its last holder, by
DROPL. -/
def leaveLine (s : State) (d b : Nat) (l : Line) : State :=
  let ev := if l.owner = some d then evWBL else if l.holders = BitVec.ofNat 8 (2 ^ d) then evDROPL else evDROP
  (lineWords b l).foldl (fun s w => dropDieWord s d w) (applyEvent s b ev (some d)).1

/-- A die's L2 makes room for one more line of a grain (R2, R4): a line without a write under way leaves, one marked first before
others (R99), and else the lowest: a DESIGN CHOICE (log entry 66). -/
def roomDie (s : State) (d g : Nat) : State :=
  if s.lines.length < l2Size / 512 then s
  else
    let mine := s.lines.filter fun (_, l) => l.holders.getLsbD d
    if mine.foldl (fun n (_, l) => n + grainBytes l.grain) 0 + grainBytes g ≤ l2Size then s
    else
      let can := mine.filter fun (b, l) => !writesUnderWay s d b l && !s.wbls.any fun x => x.1 == d && x.2.1 == b
      match can.find? fun (_, l) => l.first.getLsbD d with
      | some (b, l) => leaveLine s d b l
      | none => match can with
        | (b, l) :: _ => leaveLine s d b l
        | [] => s

/-- A read or write of a line by a die hands it ownership, so that the host must give up every copy (R418, R420). -/
def handsOver (s : State) (g sl w : Nat) (ev : Nat) : Bool :=
  let l := match lineAt s w with
    | some (_, l) => if l.grain = g ∧ l.slot = sl then l else freshLine g sl
    | none => freshLine g sl
  (entryActs (entryFor s l ev)).testBit 2

/-- The value a die point returns for a word (R299 step 2, R311): its entry, the registrant core's value, or the home's
once the die is a holder; a word of a page being flipped waits (R421, R422). -/
def dieFetch (s : State) (d w g sl : Nat) : Except MErr (State × BitVec 32) :=
  if flipping s w then .error (.wait s)
  else match find s.die (unitKey d w) with
  | some (.value v) => .ok (s, v)
  | some (.core c) => .ok (s, match find s.reg (unitKey c w) with
      | some r => r.val
      | none => homeWord s w)
  | none =>
    if holds s d w g sl then .ok (s, homeWord s w)
    else do
      if wblWaits s d w then throw (.wait s)
      let s := addressTrigger (touchGranule s d w) w 4
      let s ← hostGate s g w (handsOver s g sl w evRD)
      let (s, base) := takeLine (roomDie s d g) g sl w
      let s := flushLine s d base (grainBytes g)
      let s := (applyEvent s base evRD (some d)).1
      return (s, match find s.die (unitKey d w) with
        | some (.value v) => v
        | _ => homeWord s w)

/-- The value a die point returns for a word, once no engine is registered for it (R268, R299 step 2). -/
def dieRead (s : State) (d w g sl : Nat) : Except MErr (State × BitVec 32) :=
  if engineHolds s w then .error (.wait s) else dieFetch s d w g sl

/-- The words of one store that lie in one line, written by a die, are placed at the home as one write (R299 step 5, R320):
the protocol's entry is applied, and the values stay at the owner die of a writable state or go to the home and, with UPD,
toward the other holders as one delivery. A write is one event at its line however many words it has (R318, R328): `under` is
none for the first of them, and for the others whether that event's entry has UPD; the answer is what the next words need.
`home` makes the write at the home slice whatever the state (R169). The stop is PROTOCOL where the entry refuses the write,
whose event is applied all the same. -/
def placeGroup (s : State) (d g sl : Nat) (ws : List (Nat × BitVec 32)) (under : Option Bool) (home : Bool := false) :
    Except MErr (State × Bool) :=
  match ws with
  | [] => .ok (s, under.getD false)
  | (w0, _) :: _ => do
    if wblWaits s d w0 then throw (.wait s)
    let s := ws.foldl (fun s u => addressTrigger s u.1 4) (touchGranule s d w0)
    let s ← hostGate s g w0 true (ws.map (·.1))
    let (s, base) := takeLine (if holds s d w0 g sl then s else roomDie s d g) g sl w0
    let s := flushLine s d base (grainBytes g)
    match find s.lines base with
    | none => return (s, false)
    | some l =>
      let others := l.holders &&& ~~~(BitVec.ofNat 8 (2 ^ d))
      let old := ws.map fun u => (u.1, homeWord s u.1)
      let s := iterate (fun h s =>
        if others.getLsbD h then old.foldl (fun s u => match find s.die (unitKey h u.1) with
          | none => { s with die := put s.die (unitKey h u.1) (.value u.2) }
          | some _ => s) s
        else s) 8 0 s
      let ev := if l.owner = some d then evWRO else evWR
      let upd := under.getD ((entryActs (entryFor s l ev)).testBit 5)
      let (s, refused) := match under with
        | none => applyEvent s base ev (some d)
        | some _ => (s, false)
      if refused then throw (.stop 0x24 0 none (some s))
      else
        let l' := (find s.lines base).getD l
        let keeps := l'.owner == some d && (bits (vget s.slots sl {}).aattr (8 * l'.state + 1) 1 == 1) && !home
        let s := ws.foldl (fun s u =>
          if keeps then
            match find s.die (unitKey d u.1) with
            | some (.core _) => s
            | _ => { s with die := put s.die (unitKey d u.1) (.value u.2) }
          else
            let s := setHomeWord s u.1 u.2
            match find s.die (unitKey d u.1) with
            | some (.value _) => { s with die := del s.die (unitKey d u.1) }
            | _ => s) s
        let s := if upd then
            { s with idq := s.idq ++ (List.range 8).filterMap fun h =>
                if others.getLsbD h then
                  some { src := homeStack s w0, dst := h, addr := w0, update := some ws, len := 4 * ws.length, ver := l'.version }
                else none }
          else s
        return (s, upd)

/-- Where a write of several words stands: the line of the last words placed, and whether that line's event has UPD. -/
def sameLine (g w : Nat) (at_ : Option (Nat × Bool)) : Option Bool :=
  match at_ with
  | some (b, upd) => if b = grainBase g w then some upd else none
  | none => none

/-- The die of a core (R2). -/
abbrev coreDie (c : Nat) : Nat := c / 64

/-! ### Single-copy atomic stores (R162, R310) -/

/-- The words of the 16-byte block of a word. -/
def quadWords (w : Nat) : List Nat := (List.range 4).map fun i => w / 16 * 16 + 4 * i

/-- The place of a word in its 16-byte block, as one bit. -/
def quadBit (w : Nat) : BitVec 4 := BitVec.ofNat 4 (2 ^ (w / 4 % 4))

/-- The words of a block bound to a word through the atoms of its entries: `ent` gives the entry of a word, where it counts. -/
def boundTo (ent : Nat → Option RegWord) (w : Nat) : List Nat :=
  let grow := fun (_ : Nat) (m : BitVec 4) => (quadWords w).foldl (fun n u =>
    if (m &&& quadBit u) = 0 then n else match ent u with
      | some r => n ||| r.atom
      | none => n) m
  let m := iterate grow 4 0 (quadBit w)
  (quadWords w).filter fun u => (m &&& quadBit u) != 0 && (u == w || (ent u).isSome)

/-- A word's entry in a core registry that is registered and not at the die point (R299 step 4). -/
def unregisteredAt (s : State) (c w : Nat) : Option RegWord :=
  match find s.reg (unitKey c w), find s.die (unitKey (coreDie c) w) with
  | some r, some (.core c') => if r.registered && c' != c then some r else none
  | some r, _ => if r.registered then some r else none
  | none, _ => none

/-- The entry of the core registered at a die point for a word, where its value is not yet placed at the home. -/
def unplacedAt (s : State) (d w : Nat) : Option RegWord :=
  match find s.die (unitKey d w) with
  | some (.core c) => match find s.reg (unitKey c w) with
    | some r => if r.registered && !r.exported then some r else none
    | none => none
  | _ => none

/-- A word's bytes, those a core has written from its entry and the others from an older value (R310). -/
def mergeBytes (r : RegWord) (old : BitVec 32) : BitVec 32 :=
  BitVec.ofNat 32 ((List.range 4).foldl (fun n i =>
    n + 256 ^ i * ((if r.mask.getLsbD i then r.val else old).toNat / 256 ^ i % 256)) 0)

/-- What a word of a core takes over as it is registered (R310, R311): the value its unwritten bytes come from, of the previous
registrant or the die point, and the words that registrant's store bound it to. -/
def olderWord (s : State) (c w : Nat) (r : RegWord) : Except MErr (State × BitVec 32 × BitVec 4) :=
  match find s.die (unitKey (coreDie c) w) with
  | some (.core c') => match find s.reg (unitKey c' w) with
    | some r' => .ok (s, r'.val, if r'.registered && !r'.exported then r'.atom else 0)
    | none => .ok (s, homeWord s w, 0)
  | _ =>
    if r.mask = 15 then .ok (s, 0, 0)
    else (dieRead s (coreDie c) w r.grain r.slot).map fun x => (x.1, x.2, 0)

/-- Step 4 for one word (R299, R310, R311): the die point records the core as registrant; another core's registration of the
word ends, and its place in an atomic store passes on; bytes the core did not write come from the previous registrant or the
die point. -/
def registerOne (s : State) (c w : Nat) : Except MErr State :=
  match unregisteredAt s c w with
  | none => .ok s
  | some r => do
    let (s, old, bound) ← olderWord s c w r
    let placed := match find s.die (unitKey (coreDie c) w) with
      | some (.core c') => (find s.reg (unitKey c' w)).bind RegWord.atHome
      | some (.value v) => some v
      | none => none
    let s := match find s.die (unitKey (coreDie c) w) with
      | some (.core c') => unregister s c' w
      | _ => s
    return { s with
      reg := put s.reg (unitKey c w) { r with val := mergeBytes r old, mask := 15, atom := r.atom ||| bound, placed := placed }
      die := put s.die (unitKey (coreDie c) w) (.core c) }

/-- What step 4 of some words needs: no engine registered for them, and the lines of words written in part (R268, R310). -/
def registerReady (s : State) (c : Nat) (ws : List Nat) : Except MErr State :=
  ws.foldlM (fun s w =>
    if engineHolds s w then .error (.wait s)
    else match unregisteredAt s c w, find s.die (unitKey (coreDie c) w) with
      | some _, some (.core _) => .ok s
      | some r, _ => if r.mask = 15 then .ok s else do
        let (s, _) ← dieRead s (coreDie c) w r.grain r.slot
        return s
      | none, _ => .ok s) s

/-- Step 4 (R299): a word not yet at its die point is registered there, with every word that a single-copy atomic store binds
it to (R310). -/
def registerWord (s : State) (c w : Nat) : Except MErr (State × Unit) :=
  match unregisteredAt s c w with
  | none => .ok (s, ())
  | some _ => do
    let ws := boundTo (unregisteredAt s c) w
    let s ← registerReady s c ws
    let s ← ws.foldlM (fun s w => registerOne s c w) { s with stamp := s.stamp + 1 }
    return (s, ())

/-- A write that the protocol refuses is not performed (R320, R328): the words leave the core registry, and the die point has its
placed value again. -/
def undoWords (s : State) (d : Nat) (us : List Nat) : State :=
  us.foldl (fun s u => match find s.die (unitKey d u) with
    | some (.core c) =>
      let p := (find s.reg (unitKey c u)).bind (·.placed)
      { s with
        reg := del s.reg (unitKey c u)
        die := match p with
          | some v => put s.die (unitKey d u) (.value v)
          | none => del s.die (unitKey d u) }
    | _ => s) s

/-- Step 5 for a word whose registrant's value is not yet placed (R299): it and the words bound to it are placed at the home in
one step, as one write. A refused one is undone, and names the address the word was written at. `at_` says where a longer write
stands. -/
def exportPart (s : State) (d w : Nat) (at_ : Option (Nat × Bool)) : Except MErr (State × Option (Nat × Bool)) :=
  match unplacedAt s d w with
  | none => .ok (s, at_)
  | some r => do
    let us := boundTo (unplacedAt s d) w
    let ws := us.map fun u => (u, match unplacedAt s d u with
      | some x => x.val
      | none => homeWord s u)
    let (s, upd) ← match placeGroup s d r.grain r.slot ws (sameLine r.grain w at_) with
      | .error (.stop c sub _ left) => Except.error (MErr.stop c sub (some r.va) (left.map fun s => undoWords s d us))
      | x => x
    let s := us.foldl (fun s u => match find s.die (unitKey d u) with
      | some (.core c) => match find s.reg (unitKey c u) with
        | some x => { s with reg := put s.reg (unitKey c u) { x with exported := true, atom := 0, placed := none } }
        | none => s
      | _ => s) s
    return (s, some (grainBase r.grain w, upd))

/-- Step 5: a word a core of the die is registered for is placed at the home (R299). -/
def exportWord (s : State) (d w : Nat) : Except MErr (State × Unit) := do
  let (s, _) ← exportPart s d w none
  return (s, ())

/-- What a core's read of a word returns after its held stores (R299 step 2): its registry, then its die point. -/
def coreRead (s : State) (c w g sl : Nat) : Except MErr (State × BitVec 32) :=
  if engineHolds s w || flipping s w then .error (.wait s)
  else match find s.reg (unitKey c w) with
  | some r =>
    if r.mask = 15 then .ok (s, r.val)
    else do
      let (s, old) ← dieRead s (coreDie c) w g sl
      return (s, mergeBytes r old)
  | none => dieRead s (coreDie c) w g sl

/-- A single-copy atomic read of 8 or 16 bytes takes copy words from the core registry only where they hold the values of one
moment; otherwise it goes to the die point for them, and they are dropped (R162). -/
def readReady (s : State) (c a n : Nat) : State :=
  if n < 8 then s
  else
    let ws := (List.range (n / 4)).map fun i => a + 4 * i
    let es := ws.map fun w => find s.reg (unitKey c w)
    let copies := es.filterMap fun e => match e with
      | some r => if r.registered then none else some r.stamp
      | none => none
    if copies.isEmpty || (copies.length == ws.length && copies.all (· == copies.headD 0)) then s
    else ws.foldl (fun s w => match find s.reg (unitKey c w) with
      | some r => if r.registered then s else { s with reg := del s.reg (unitKey c w) }
      | none => s) s

/-- `k` words from a word address, by a read of one word, the lowest least significant. -/
def readWords (rd : State → Nat → Except MErr (State × BitVec 32)) (s : State) (w : Nat) : Nat → Except MErr (State × Nat)
  | 0 => .ok (s, 0)
  | k + 1 => do
    let (s, v) ← rd s w
    let (s, n) ← readWords rd s (w + 4) k
    return (s, v.toNat + 2 ^ 32 * n)

/-- A sector of a byte range is poisoned (R368). -/
def poisoned (s : State) (a n : Nat) : Bool :=
  s.poison.any fun p => decide (p < a + n) && decide (a < p + 32)

/-- A write of some bytes as one store or one grain clears the marks of the sectors it fills whole (R368). -/
def clearPoison (s : State) (a n : Nat) : State :=
  { s with poison := s.poison.filter fun p => !(decide (a ≤ p) && decide (p + 32 ≤ a + n)) }

/-- `n` bytes from an address by a read of one word: a poisoned sector stops the reader (R368). -/
def readBytes (rd : State → Nat → Except MErr (State × BitVec 32)) (s : State) (a n : Nat) : Except MErr (State × Nat) :=
  if poisoned s a n then .error (.stop 0x30 0)
  else do
    let w := a / 4 * 4
    let (s, v) ← readWords rd s w ((a + n - w + 3) / 4)
    return (s, v / 2 ^ (8 * (a - w)) % 2 ^ (8 * n))

/-- Words a core's L1 data cache holds: 128 KiB (R3). -/
abbrev l1Words : Nat := 32768

/-- A word lies in a filled piece of a stash window of a core, whose 384 KiB hold it apart from the L1 (R3, R179). -/
def inStash (s : State) (c w : Nat) : Bool :=
  (get s.cores c {}).wins.toList.any fun i => i.filled.any fun f =>
    let a := if f.2.host then hostTag + f.2.pa else f.2.pa
    decide (a ≤ w) && decide (w < a + 512)

/-- The word of a core's L1 that leaves first: a marked copy, any copy, a marked word, any word, each time the lowest (R99). That
order is a DESIGN CHOICE (log entry 66). -/
def leavesFirst (mine : List (Nat × RegWord)) : Option (Nat × RegWord) :=
  let first := fun (p : RegWord → Bool) => mine.find? fun (_, r) => p r
  match first fun r => !r.registered && r.first with
  | some x => some x
  | none => match first fun r => !r.registered with
    | some x => some x
    | none => match first fun r => r.first with
      | some x => some x
      | none => mine.head?

/-- A core's L1 makes room for a word that it does not hold: where it is full, a copy word is dropped, or a registered word is
placed at its home and goes to its die point. -/
def evictWord (s : State) (c w : Nat) : Except MErr State :=
  if s.reg.length < l1Words || (find s.reg (unitKey c w)).isSome || inStash s c w then .ok s
  else
    let mine := s.reg.filter fun (k, _) => k / 2 ^ 56 == c && !inStash s c (k % 2 ^ 56)
    if mine.length < l1Words then .ok s
    else match leavesFirst mine with
      | none => .ok s
      | some (k, r) =>
        if !r.registered then .ok { s with reg := del s.reg k }
        else do
          let u := k % 2 ^ 56
          let (s, _) ← registerWord s c u
          let (s, _) ← exportWord s (coreDie c) u
          let s := giveDie s (coreDie c) u
          return { s with reg := del s.reg k }

/-- A core's cache brings in a copy word from its die point (R298), where it has room or makes it; one it holds already stays. -/
def keepCopy (s : State) (c w g sl : Nat) : State :=
  match find s.reg (unitKey c w) with
  | some _ => s
  | none => match evictWord s c w with
    | .error _ => s
    | .ok s => match dieRead s (coreDie c) w g sl with
      | .ok (s, v) =>
        let r : RegWord := { val := v, mask := 15, registered := false, exported := false, grain := g, slot := sl, stamp := s.stamp }
        { s with reg := put s.reg (unitKey c w) r }
      | .error _ => s

/-- Words read under the policy .lu are marked first for eviction, in the core's L1 and at its die (R99). -/
def markFirst (s : State) (c : Nat) (ws : List Nat) : State :=
  ws.foldl (fun s w =>
    let s := match find s.reg (unitKey c w) with
      | some r => { s with reg := put s.reg (unitKey c w) { r with first := true } }
      | none => s
    match lineAt s w with
    | some (b, l) =>
      if l.holders.getLsbD (coreDie c) then
        { s with lines := put s.lines b { l with first := l.first ||| BitVec.ofNat 8 (2 ^ coreDie c) } }
      else s
    | none => s) s

/-- A core's store of some bytes of a word enters its registry (R299 step 3, R310), bound to the words `atom` of its block. -/
def enterWord (s : State) (c w : Nat) (v : BitVec 32) (mask : BitVec 4) (g sl : Nat) (atom : BitVec 4) (va : Word) : State :=
  let old := match find s.reg (unitKey c w) with
    | some r => r
    | none => { val := 0, mask := 0, registered := false, exported := false, grain := g, slot := sl }
  let val := BitVec.ofNat 32 ((List.range 4).foldl (fun n i =>
    n + 256 ^ i * ((if mask.getLsbD i then v else old.val).toNat / 256 ^ i % 256)) 0)
  let r : RegWord :=
    { val, mask := if old.registered then old.mask ||| mask else mask, registered := true, exported := false, grain := g,
      slot := sl, atom := (if old.registered && !old.exported then old.atom else 0) ||| atom, va, placed := old.atHome }
  { s with reg := put s.reg (unitKey c w) r }

/-- A core's store of `n` bytes enters its registry, word by word (R299 step 3): one of 8 bytes or more binds its words
together (R162, R310). -/
def enterBytes (s : State) (c a n v g sl : Nat) (va : Word) : State :=
  let w0 := a / 4 * 4
  let k := (a + n - w0 + 3) / 4
  let m := (2 ^ n - 1) * 2 ^ (a - w0)
  let vv := v % 2 ^ (8 * n) * 2 ^ (8 * (a - w0))
  let atom := fun (w : Nat) =>
    if n ≤ 4 ∨ 16 < n then quadBit w else (List.range k).foldl (fun b i => b ||| quadBit (w0 + 4 * i)) 0
  iterate (fun i s => enterWord s c (w0 + 4 * i) (BitVec.ofNat 32 (vv / 2 ^ (32 * i))) (BitVec.ofNat 4 (m / 2 ^ (4 * i)))
    g sl (atom (w0 + 4 * i)) (if i = 0 then va else va + word (w0 + 4 * i - a))) k 0 s

/-- A single-copy atomic store of 8 or 16 bytes some of whose words the die point names this core for, and others not, enters
the registry and the die point in one step, so that no reader sees part of it (R162, R310). -/
def splitStore (s : State) (c a n : Nat) : Bool :=
  decide (8 ≤ n) && decide (n ≤ 16) &&
    let at_ := (List.range (n / 4)).map fun i => match find s.die (unitKey (coreDie c) (a + 4 * i)) with
      | some (.core c') => c' == c
      | _ => false
    at_.any id && !at_.all id

/-- A core's store of `n` bytes is performed at core (R299 step 3), in a registry that has room. -/
def enterStore (s : State) (c a n v g sl : Nat) (va : Word) : Except MErr State := do
  if flipping s a then throw (.wait s)
  let s ← (List.range ((a % 4 + n + 3) / 4)).foldlM (fun s i => evictWord s c (a / 4 * 4 + 4 * i)) s
  if splitStore s c a n then
    let ws := quadWords a
    let s ← ws.foldlM (fun s w => do
      let (s, _) ← registerWord s c w
      return s) s
    if ws.any (engineHolds s) then throw (.wait s)
    let (s, _) ← registerWord (enterBytes s c a n v g sl va) c a
    (List.range (n / 4)).foldlM (fun s i => do
      let (s, _) ← registerWord s c (a + 4 * i)
      return s) s
  else return enterBytes s c a n v g sl va

/-- Step 7: an acquire removes every copy word from the core's registry (R299). -/
def selfInvalidate (s : State) (c : Nat) : State :=
  { s with reg := s.reg.filter fun (k, r) => k / 2 ^ 56 != c || r.registered }

/-- Some words of a core not yet at the die point are registered. -/
def registerWords (s : State) (c : Nat) (ws : List Nat) : Except MErr State :=
  ws.foldlM (fun s w => do
    let (s, _) ← registerWord s c w
    return s) s

/-- The words of a core not yet at the die point are registered (what "performed at die" waits for, R300). -/
def registerAll (s : State) (c : Nat) : Except MErr State :=
  registerWords s c ((s.reg.filter fun (k, r) => k / 2 ^ 56 == c && r.registered).map fun (k, _) => k % 2 ^ 56)

/-- Every word registered at a die point is placed at its home, and every queue drained ("performed at pkg", R300). -/
def exportAll (s : State) (d : Nat) : Except MErr State := do
  let ws := s.die.filter fun (k, e) => k / 2 ^ 56 == d && (match e with | .core _ => true | _ => false)
  let s ← ws.foldlM (fun s (k, _) => do
    let (s, _) ← exportWord s d (k % 2 ^ 56)
    return s) s
  return flushAll s

/-- The context of a sequencer; one not listed is as at reset. -/
def State.ctx (s : State) (q : Nat) : Ctx := get s.seqs q {}

/-- The context of a sequencer becomes `c`. -/
def State.setCtx (s : State) (q : Nat) (c : Ctx) : State := { s with seqs := put s.seqs q c }

/-- A release of a sequencer at a scope (R166, R300, R303): what its core wrote is performed at the scope, and with it whatever it
has read, which came from its core's registry or stood at the die point. Scopes 0 and 1 need step 3 alone; 2 and 3 step 4; wider
ones step 5 and the deliveries. -/
def releaseAt (s : State) (q sc : Nat) : Except MErr State :=
  if sc < 2 then .ok s
  else do
    let s ← registerAll s (q / 4)
    if sc < 4 then return s else exportAll s (coreDie (q / 4))

/-- An acquire of a sequencer at a scope (R166, R299 step 7). At sys every invalidation of a host line on its way to the die has
been delivered (R416). At die and wider it discards the words its instruction cache and
its lane instruction buffer hold and those it has fetched ahead, none of which it can show to be current (R436). -/
def acquireAt (s : State) (q sc : Nat) : State :=
  let s := selfInvalidate (if 5 ≤ sc then flushFor s (coreDie (q / 4)) fun e => decide (hostTag ≤ e.addr) else s) (q / 4)
  if sc < 3 then s
  else
    let s := { s with icache := s.icache.filter fun (k, _) => k / 2 ^ 56 != q / 4 }
    if (s.ctx q).laneBuf.isEmpty && (s.ctx q).ahead.isEmpty then s else s.setCtx q { s.ctx q with laneBuf := [], ahead := [] }

/-- The writes of a line's words that stand at the die points are placed at the home. -/
def exportLine (s : State) (b g : Nat) : State :=
  iterate (fun i s => iterate (fun d s => match exportWord s d (b + 4 * i) with
    | .ok (s, _) => s
    | .error _ => s) 8 0 s) (grainBytes g / 4) 0 s

/-- A back-invalidation by the host, or a bias flip, takes a line from every die (event SNOOP, R318): its copies are written back
and dropped everywhere. -/
def recallLine (s : State) (a : Nat) : State :=
  match lineAt s a with
  | some (b, l) => flushAll (applyEvent (exportLine s b l.grain) b evSNOOP none).1
  | none => s

/-- Where a write at the home slice stands: the line of its last grain, whether that line's entry refuses the write, and whether
it sends updates (UPD). -/
structure HomeAt where
  line : Nat
  refused : Bool
  upd : Bool
deriving DecidableEq, Repr

/-- A write made at the home slice by an agent that is no die (R396, R419): older writes of the line's words are placed, what an
owner holds is written to the home, the line's WR entry is applied, and what it sends toward the dies arrives. -/
def homeEvent (s : State) (b g : Nat) : State × HomeAt :=
  let s := exportLine s b g
  let s := match find s.lines b with
    | some l => writeBack s b l
    | none => s
  let upd := match find s.lines b with
    | some l => (entryActs (entryFor s l evWR)).testBit 5
    | none => false
  let (s, refused) := applyEvent s b evWR none
  (flushAll s, { line := b, refused := refused, upd := upd })

/-- The event of a write at the home slice that reaches a grain of 32 bytes: one for each line, however many of its grains the
write covers; `at_` is where the write stood before. -/
def homeGrain (s : State) (at_ : Option HomeAt) (a : Nat) : State × Option HomeAt :=
  match lineAt s a with
  | none => (s, none)
  | some (b, l) =>
    if at_.map (·.line) = some b then (s, at_)
    else
      let (s, x) := homeEvent s b l.grain
      (s, some x)

/-- Older writes of the words of some bytes are placed at their home, before an update is made there (R396, R408). -/
def homeSettle (s : State) (a n : Nat) : State :=
  iterate (fun i s => match lineAt s (a / 32 * 32 + 32 * i) with
    | some (b, l) => exportLine s b l.grain
    | none => s) ((a % 32 + n + 31) / 32) 0 s

/-- What the host's caches give up where bytes of the HDM range are accessed at the home by an agent of no die: the
back-invalidations under mode 2 (R418), and the lines of host-bias pages that the home obtains under mode 1 (R420). Their answers
come in the same step (log entry 80). -/
def recallHost (s : State) (a n : Nat) (write : Bool) : State :=
  if s.cxl.mode = 2 then
    { s with cxl := { s.cxl with snoopFilter := s.cxl.snoopFilter.filterMap fun p =>
        if p.1 < a + n ∧ a < p.1 + 64 then if write then none else some (p.1, false) else some p } }
  else if s.cxl.mode = 1 then
    iterate (fun i s =>
      let line := a / 64 * 64 + 64 * i
      if inHdm s line && hostBias s line && (write || (find s.cxl.hostLines line).isNone) then
        { s with cxl := { s.cxl with hostLines := put s.cxl.hostLines line (if write then .m else .s) } }
      else s) ((a % 64 + n + 63) / 64) 0 s
  else s

/-- Bytes read at the home slice, by the host, the walker's images or the device itself (R396): the owner die's dirty
grain is asked for first. -/
def homeRead (s : State) (a n : Nat) : State × Nat :=
  let s := recallHost (touchGranule s 8 a) a n false
  let s := iterate (fun i s =>
    match lineAt s (a / 32 * 32 + 32 * i) with
    | some (b, l) => writeBack s b l
    | none => s) ((a % 32 + n + 31) / 32) 0 s
  (addressTrigger s a n, Memory.readN s.mem a n)

/-- Bytes of device memory are written in the LLC. -/
def llcWrite (s : State) (a n v : Nat) : State :=
  let s := iterate (fun i s => dirtyLlc s (a / 4 * 4 + 4 * i)) ((a % 4 + n + 3) / 4) 0 s
  { s with mem := Memory.writeN s.mem a n v }

/-- The updates of a write made at the home slice reach every die point, at once (UPD, R319): none holds an older value of its
words. -/
def updateDies (s : State) (a n : Nat) : State :=
  overWords (fun s w => iterate (fun d s => dropDieWord s d w) 8 0 s) s (a / 4 * 4) ((a % 4 + n + 3) / 4 * 4)

/-- The part of a write of `n` bytes at `a` that lies in the grain of 32 bytes at `g`, at the home slice. -/
def homePart (a n v g : Nat) (x : State × Option HomeAt) : State × Option HomeAt :=
  let (s, at_) := homeGrain x.1 x.2 g
  let lo := max a g
  let k := min (a + n) (g + 32) - lo
  match at_ with
  | some h =>
    if h.refused then (s, at_)
    else
      let s := llcWrite s lo k (v / 256 ^ (lo - a))
      (if h.upd then updateDies s lo k else s, at_)
  | none => (llcWrite s lo k (v / 256 ^ (lo - a)), at_)

/-- Bytes written at the home slice (R396, R419), each line under its protocol, and performed at pkg. -/
def homeWrite (s : State) (a n v : Nat) : State :=
  let s := recallHost (addressTrigger (touchGranule s 8 a) a n) a n true
  let x := iterate (fun i x => homePart a n v (a / 32 * 32 + 32 * i) x) ((a % 32 + n + 31) / 32) 0 (s, (none : Option HomeAt))
  clearPoison x.1 a n

/-- No core keeps a copy of some bytes that an engine has written: every later access sees its value or a later one (R306). -/
def dropCopies (s : State) (a n : Nat) : State :=
  { s with reg := s.reg.filter fun (k, r) => r.registered || decide (k % 2 ^ 56 + 4 ≤ a) || decide (a + n ≤ k % 2 ^ 56) }

/-- An engine other than a copy channel writes bytes at their home (R306, R428, R434). -/
def engineHomeWrite (s : State) (a n v : Nat) : State := dropCopies (homeWrite s a n v) a n

end Sys2Proof.Machine
end

