-- ==== Sys2Proof/Machine/Xlate.lean ====
section
/-!
DEFINITION. Ownership, reach and translation: who owns a sequencer or a queue (R343, R349), which control pages a
partition reaches (R331), the walk with its checks (R345 to R347), the TLBs, and host translation on the plain path
(R400 to R402).
-/
namespace Sys2Proof.Machine

/-- A core; one not listed is as at reset. -/
def State.core (s : State) (c : Nat) : Core := get s.cores c {}

/-- A core becomes `x`. -/
def State.setCore (s : State) (c : Nat) (x : Core) : State := { s with cores := put s.cores c x }

/-- A copy channel, numbered 8 x coreid + channel. -/
def State.chan (s : State) (ch : Nat) : Chan := get s.chans ch {}

/-- A copy channel becomes `x`. -/
def State.setChan (s : State) (ch : Nat) (x : Chan) : State := { s with chans := put s.chans ch x }

/-- A queue page. -/
def State.queue (s : State) (n : Nat) : Queue := get s.queues n {}

/-- A queue page becomes `x`. -/
def State.setQueue (s : State) (n : Nat) (x : Queue) : State := { s with queues := put s.queues n x }

/-- A partition page becomes `x`. -/
def State.setPart (s : State) (n : Nat) (x : Part) : State := { s with parts := put s.parts n x }

/-- The owner an ownership byte names (R342): bits 4:0, where bit 7 OWNED is set. -/
def ownerOf (b : Byte) : Option Nat := if b.getLsbD 7 then some (b.toNat % 32) else none

/-- The partition a sequencer serves now (R349, R350). -/
def State.partOfSeq (s : State) (q : Nat) : Option Nat := ownerOf (vget (s.core (q / 4)).inForce.seq (q % 4) 0)

/-- The partition number a sequencer's accesses carry; 32, which owns nothing, where no partition owns it. -/
def State.pnum (s : State) (q : Nat) : Nat := (s.partOfSeq q).getD 32

/-- The partition that owns a queue (R343): the one other than the root whose range holds it, else the root. -/
def State.queueOwner (s : State) (n : Nat) : Option Nat :=
  match s.parts.find? fun (i, p) => i != 0 && decide (p.qbase ≤ n) && decide (n < p.qbase + p.qcount) with
  | some (i, _) => some i
  | none =>
    let r := s.part 0
    if r.qbase ≤ n ∧ n < r.qbase + r.qcount then some 0 else none

/-- Whether a partition owns any resource of a core (R331). -/
def ownsInCore (x : Core) (p : Nat) : Bool :=
  let has := fun (l : List Byte) => l.any fun b => ownerOf b == some p
  has x.inForce.seq.toList || has x.inForce.pipe.toList || has x.inForce.tile.toList || has x.inForce.film.toList
    || has x.inForce.chan.toList

/-- Control space starts at 0xF_0000_0000_0000 (R330). -/
abbrev ctlBase : Nat := 0xF000000000000

/-- Whether a partition reaches the control page of a physical address, and if so whether it may write it (R331). -/
def reach (s : State) (p pa : Nat) : Option Bool :=
  if p = 0 then some true
  else
    let reg := pa / 2 ^ 44 % 16
    let off := pa % 2 ^ 44
    if reg = 0 then
      let q := off / 2 ^ 17
      if q < 2048 ∧ s.partOfSeq q = some p then some true else none
    else if reg = 1 then
      if off / 4096 < 4096 ∧ s.queueOwner (off / 4096) = some p then some true else none
    else if reg = 2 then
      let ch := off / 4096
      if ch < 4096 ∧ ownerOf (vget (s.core (ch / 8)).inForce.chan (ch % 8) 0) = some p then some true else none
    else if reg = 3 then
      if off / 4096 < 512 ∧ ownsInCore (s.core (off / 4096)) p then some false else none
    else if reg = 4 then if off / 65536 = p then some false else none
    else if reg = 5 then if off / 4096 < 8 then some false else none
    else if reg = 7 then if off / 4096 = p then some false else none
    else if reg = 8 then if off / 4096 = p then some false else none
    else if reg = 10 then
      if off / 4096 < 8 ∧ (s.part p).printmask.getLsbD (off / 4096) then some true else none
    else none

/-- What an access needs of the leaf (R160, R293). -/
inductive Need where
  | r | w | rw | x | any
deriving DecidableEq, Repr

/-- Bits of a translation entry (R345). -/
abbrev teV (e : Word) : Bool := e.getLsbD 0
abbrev teR (e : Word) : Bool := e.getLsbD 1
abbrev teW (e : Word) : Bool := e.getLsbD 2
abbrev teX (e : Word) : Bool := e.getLsbD 3
abbrev teC (e : Word) : Bool := e.getLsbD 4
abbrev teG (e : Word) : Bool := e.getLsbD 10
abbrev teLeaf (e : Word) : Bool := e.getLsbD 11
abbrev teH (e : Word) : Bool := e.getLsbD 62
abbrev teGrain (e : Word) : Nat := bits e 5 2
abbrev teSlot (e : Word) : Nat := bits e 7 3
abbrev teFrame (e : Word) : Nat := bits e 12 40
abbrev teDev (e : Word) : Nat := bits e 52 10

/-- Bytes a walker or the device reads by physical address at a die point, under the line's recorded grain and slot, or
grain 0 and slot 0 for a line no home holds. -/
def dieReadBytes (s : State) (die a n : Nat) : Except MErr (State × Nat) :=
  readBytes (fun s w => match lineAt s w with
    | some (_, l) => dieRead s die w l.grain l.slot
    | none => dieRead s die w 0 0) s a n

/-- How a walk ends (R345): a leaf with its level, or the cause of the failure. -/
inductive WalkEnd where
  | leaf (e : Word) (level : Nat)
  | fail (cause : Nat)
deriving DecidableEq, Repr

/-- The walk of R345 from a table at `t` of level `level`; `fuel` counts the levels left. -/
def walkFrom (s : State) (die p va : Nat) : Nat → Nat → Nat → Except MErr (State × WalkEnd)
  | 0, _, _ => .ok (s, .fail 0x20)
  | fuel + 1, level, t =>
    if !inWindow (s.part p) 1 0 (t / 4096) then .ok (s, .fail 0x22)
    else do
      let idx := va % 2 ^ 56 / 2 ^ (12 + 9 * level) % (if level = 4 then 256 else 512)
      let (s, n) ← dieReadBytes s die (t + 8 * idx) 8
      let e := word n
      if !teV e || e.getLsbD 63 then return (s, .fail 0x20)
      else if !teLeaf e then
        if level = 0 ∨ bits e 1 10 ≠ 0 ∨ bits e 52 11 ≠ 0 then return (s, .fail 0x20)
        else walkFrom s die p va fuel (level - 1) (teFrame e * 4096)
      else if 3 ≤ level ∨ teGrain e = 3 then return (s, .fail 0x20)
      else if (level = 2 ∧ bits e 12 18 ≠ 0) ∨ (level = 1 ∧ bits e 12 9 ≠ 0) then return (s, .fail 0x20)
      else return (s, .leaf e level)

/-- A TLB entry serves an access of a unit chain (core, cluster, die) of a partition and space (R347). -/
def tlbHit (core p : Nat) (space : BitVec 16) (va : Nat) (t : TlbEntry) : Bool :=
  t.part == p && (teG t.entry || t.space == space)
    && ((t.level == 0 && t.unit == core) || (t.level == 1 && t.unit == core / 8) || (t.level == 2 && t.unit == core / 64))
    && t.va == va % 2 ^ 56 / 2 ^ (12 + 9 * t.size)

/-- The checks of R345 after a leaf is found: class, window or reach, and permission, for the frame the access
reaches. -/
def leafCheck (s : State) (p : Nat) (e : Word) (pa : Nat) (need : Need) : Option Nat :=
  let f := pa / 4096
  let ctlFrame := decide (ctlBase ≤ pa)
  let dram := decide (pa ≤ 0x5FFFFFFFFF)
  if teC e && (!ctlFrame || teDev e != 0 || teH e) then some 0x20
  else if (!teC e && ctlFrame && teDev e == 0 && !teH e) || (!teC e && ctlFrame) || (teH e && teDev e != 0) then some 0x20
  else if !teC e && teDev e == 0 && !teH e && !dram then some 0x20
  else if teC e && (reach s p pa).isNone then some 0x22
  else if !teC e && !inWindow (s.part p) (if teH e then 3 else if teDev e != 0 then 2 else 1) (teDev e) f then some 0x22
  else
    let ok := match need with
      | .r => teR e
      | .w => teW e
      | .rw => teR e && teW e
      | .x => teX e && teDev e == 0
      | .any => true
    if ok then none else some 0x21

/-- What a translation finds: the leaf with its level and the address, and the failing cause if a check fails. -/
structure Found where
  entry : Option (Word × Nat)
  pa : Nat
  fail : Option Nat
deriving DecidableEq, Repr

/-- A translation enters the TLB of a unit, which holds so many entries (R4). The die TLB has 16,384 sets of 16: that the page number
modulo 16,384 chooses the set, that the L1 and cluster TLBs are fully associative, and that the oldest entry of a full set leaves
are DESIGN CHOICES (log entry 66). -/
def tlbInsert (l : List TlbEntry) (t : TlbEntry) : List TlbEntry :=
  let cap := match t.level with | 0 => 256 | 1 => 4096 | _ => 16
  let mine := fun (u : TlbEntry) => u.level == t.level && u.unit == t.unit && (t.level != 2 || u.va % 16384 == t.va % 16384)
  if l.countP mine < cap then l ++ [t] else l.eraseP mine ++ [t]

/-- The walk or TLB hit of an access by a unit of a core (R345 to R347); a leaf found by a walk whose checks pass is cached at
the core, its cluster and its die: a walk failure is never cached (R347). -/
def lookup (s : State) (core p root : Nat) (space : BitVec 16) (va : Word) (need : Need) :
    Except MErr (State × Found) :=
  let a := va.toNat
  if a / 2 ^ 56 ≠ 0 then .ok (s, { entry := none, pa := 0, fail := some 0x20 })
  else
    match s.tlb.find? (tlbHit core p space a) with
    | some t =>
      let pa := teFrame t.entry * 4096 + a % 2 ^ (12 + 9 * t.size)
      .ok (s, { entry := some (t.entry, t.size), pa := pa, fail := leafCheck s p t.entry pa need })
    | none => do
      let (s, w) ← walkFrom s (core / 64) p a 5 4 (root * 4096)
      match w with
      | .fail c => return (s, { entry := none, pa := 0, fail := some c })
      | .leaf e lv =>
        let page := a / 2 ^ (12 + 9 * lv)
        let mk := fun (l u : Nat) =>
          ({ level := l, unit := u, part := p, space := space, va := page, size := lv, entry := e } : TlbEntry)
        let pa := teFrame e * 4096 + a % 2 ^ (12 + 9 * lv)
        let fail := leafCheck s p e pa need
        let s := if fail.isSome then s
          else { s with tlb := [mk 0 core, mk 1 (core / 8), mk 2 (core / 64)].foldl tlbInsert s.tlb }
        return (s, { entry := some (e, lv), pa := pa, fail := fail })

/-- An access at an address through a leaf as later steps need it. -/
def xlOf (e : Word) (pa : Nat) (va : Word) : Xl :=
  { pa := pa, va := va, ctl := teC e, host := teH e, dev := teDev e, grain := teGrain e, slot := teSlot e }

/-- The protocol slot of a leaf must hold a table: PROTOCOL, NO_TABLE otherwise (R314); accesses to a draining slot wait
(R323). -/
def slotCheck (s : State) (x : Xl) : Except MErr Unit :=
  let sl := vget s.slots x.slot {}
  if x.ctl then .ok ()
  else if sl.draining then .error (.wait s)
  else if !sl.active then .error (.stop 0x24 1)
  else .ok ()

/-- The translation of an access of a sequencer (R160): a failed check is a class B stop. -/
def translate (s : State) (q : Nat) (va : Word) (need : Need) : Except MErr (State × Xl) := do
  let c := s.ctx q
  let (s, f) ← lookup s (q / 4) (s.pnum q) c.root.toNat c.space va need
  match f.fail, f.entry with
  | some cause, _ => throw (.stop cause 0)
  | none, some (e, _) => return (s, xlOf e f.pa va)
  | none, none => throw (.stop 0x20 0)

/-- The function number of a partition's requests (R400). -/
abbrev fnOf (p : Nat) : Nat := p

/-- A request of an agent on the plain host path, or to a peer, fails where its completion is to (R404, R405, R407). -/
def requestOk (s : State) (who : Asker) (peer : Bool) : Except MErr Unit :=
  match s.link.failing.find? fun f => f.1 == who && f.2.1 == peer with
  | some f => .error (.stop 0x26 f.2.2)
  | none => .ok ()

/-- The requests of an agent whose access is squashed: a page request the host has is outstanding until its response arrives,
which is then discarded (R402, R410); what else there is goes. -/
def giveUp (l : List AtsReq) (who : Asker) : List AtsReq :=
  l.filterMap fun r => if r.who != who then some r else if r.isPri && r.sent then some { r with gone := true } else none

/-- The permissions an access has grant what it needs. -/
def grants (a n : Rights) : Bool := (a.r || !n.r) && (a.w || !n.w) && (a.x || !n.x)

/-- What an access needs, as rights (R160). -/
def Need.rights (n : Need) : Rights :=
  match n with
  | .r => { r := true }
  | .w => { w := true }
  | .rw => { r := true, w := true }
  | .x => { x := true }
  | .any => {}

/-- Host translation on the plain path of an access at a virtual address (R401): a cached entry with the rights it needs serves;
an answer that came for this very access serves it once, a failure stops it; otherwise a request goes out and the access
waits. -/
def atsLookup (s : State) (who : Asker) (fn pasid iova : Nat) (va : Word) (n : Need) : Except MErr (State × Nat) := do
  if !n.rights.w then requestOk s who false
  let page := iova / 4096
  let v := va.toNat / 4096
  match s.atc.find? fun e => e.fn == fn && e.pasid == pasid && e.page == page && grants e.rights n.rights with
  | some e =>
    let s := if e.vas.contains v then s
      else { s with atc := s.atc.map fun x => if x = e then { x with vas := v :: x.vas } else x }
    .ok (s, e.hpa * 4096 + iova % 4096)
  | none =>
    match s.ats.find? fun r => !r.gone && r.who == who && r.page == page && r.fn == fn && r.pasid == pasid && r.needs == n.rights with
    | some r =>
      match r.fail with
      | some (cause, sub) => .error (.stop cause sub)
      | none =>
      match r.done with
      | some (hpa, rights) =>
        if grants rights n.rights then
          .ok ({ s with ats := s.ats.filter fun e => e.id != r.id }, hpa * 4096 + iova % 4096)
        else .error (.wait s)
      | none => .error (.wait s)
    | none =>
      let id := (s.ats.map (·.id)).foldl Nat.max 0 + 1
      let r : AtsReq :=
        { id := id, who := who, fn := fn, pasid := pasid, page := page, needs := n.rights, va := v, isPri := false, sent := true,
          stale := false, done := none, meetings := 0 }
      .error (.wait { s with ats := s.ats ++ [r] })

/-- Key of a byte of peer memory: the device and its physical address (R406). -/
abbrev peerKey (dev a : Nat) : Nat := dev * 2 ^ 52 + a

/-- The line of a peer access under slot 3, whose grains the peer home keeps in state W once written (R327, R329). -/
def peerLine (x : Xl) : Option Nat := if x.slot = 3 then some (grainBase x.grain (peerKey x.dev x.pa)) else none

/-- A peer home refuses a write to a slot-3 line in W with PROTOCOL, and takes any other such line to W (R327, R329). -/
def peerWrite (s : State) (line : Option Nat) : Except MErr State :=
  match line with
  | none => .ok s
  | some b => if s.peerW.contains b then .error (.stop 0x24 0) else .ok { s with peerW := b :: s.peerW }

/-- The device keeps a copy of a slot-3 peer line only in state W (R329). -/
def peerKeep (s : State) (line : Option Nat) : State :=
  match line with
  | some b => if s.peerW.contains b && !s.peerCopies.contains b then { s with peerCopies := b :: s.peerCopies } else s
  | none => s

/-- The next request of an agent to a peer will not be acknowledged (R407). -/
def timedOut (s : State) (who : Asker) : Bool := s.link.failing.any fun f => f.1 == who && f.2.1 && f.2.2 == 0x11

/-- A peer is reached by a route with a usable port (R407); otherwise PEER_NO_ROUTE. A write that will not be acknowledged is sent
all the same. -/
def peerRoute (s : State) (who : Asker) (dev : Nat) (write : Bool) : Except MErr Nat := do
  if !(write && timedOut s who) then requestOk s who true
  let target := (s.link.devid.toNat + dev) % 1024
  if (get s.link.route target 0 &&& s.link.portup &&& ~~~s.link.portdis) = 0 then .error (.stop 0x26 0x10)
  else .ok target

end Sys2Proof.Machine
end

