-- ==== Sys2Proof/Machine/Forms.lean ====
section
/-!
DEFINITION. What each vector-queue form is: its pipe class and restart class (R19), the registers it names by role with
the E bit that covers each (R91), and the shape of its immediate field.
-/
namespace Sys2Proof.Machine

/-- The pipe classes of R19. -/
inductive Pipe where
  | ma | pm | ld | st | ldpm | ldst | lm | te
deriving DecidableEq, Repr

/-- The restart classes of R19. -/
inductive Restart where
  | element | whole | complete | detached
deriving DecidableEq, Repr

/-- The pipe class of a form (R19). -/
def VOp.pipe (o : VOp) : Pipe :=
  match o with
  | .bin .. | .fma .. | .macw | .cmp _ | .sel | .cvt _ | .shrr .. | .math _ | .dot | .sign | .mov | .splat | .splati
  | .idx => .ma
  | .ld .. => .ld
  | .ldxc .. | .ldxdup .. => .ldpm
  | .st .. | .wst => .st
  | .wld => .ld
  | .amo .. => .ldst
  | .wmul _ | .wchol | .wlu | .wsolve _ | .wadd _ | .wscal | .wtrn | .wid | .wcpy | .wdim | .wget | .wput => .lm
  | .tacc | .tmma | .tmms | .tread | .twrite | .tepi => .te
  | .red .. | .vget | .vput | .slide .. | .comp | .expand | .perm | .zip | .unzip | .trn | .klog _ | .kpopc | .kfirst
  | .kvl | .kfrom | .vlk | .mcast | .recv | .iota | .flgRd | .flgClr => .pm

/-- The restart class of a form (R19). -/
def VOp.restart (o : VOp) : Restart :=
  match o with
  | .bin .. | .fma .. | .macw | .cmp _ | .sel | .cvt _ | .shrr .. | .math _ | .sign | .mov | .splat | .splati | .idx
  | .ld .. | .st .. | .amo .. | .klog _ | .kvl | .kfrom | .vlk => .element
  | .wst | .wmul _ | .wchol | .wlu | .wsolve _ | .wadd _ | .wscal | .wtrn | .wid | .wcpy | .wdim | .wget | .wput =>
    .complete
  | .tacc | .tmma | .tmms | .twrite => .detached
  | .dot | .red .. | .vget | .vput | .slide .. | .ldxc .. | .ldxdup .. | .comp | .expand | .perm | .zip | .unzip | .trn
  | .kpopc | .kfirst | .mcast | .recv | .iota | .flgRd | .flgClr | .wld | .tread | .tepi => .whole

/-- The registers a form names: vector destination (`vacc` where it is read too), vector sources, mask destination,
masks read, scalar destination, scalars captured in the field order a, b, c, x, lane-matrix destination and sources, the
tile written by a Detached form and the tile read. A flag beside a source is its E bit (R91). -/
structure Roles where
  vd : Option Nat := none
  vacc : Bool := false
  vs : List (Nat × Bool) := []
  kd : Option Nat := none
  ks : List (Nat × Bool) := []
  sd : Option Nat := none
  ss : List (Nat × Bool) := []
  wd : Option Nat := none
  ws : List (Nat × Bool) := []
  tw : Option Nat := none
  tr : Option (Nat × Bool) := none
deriving DecidableEq, Repr

/-- Registers of a lane vector of `n` components (R235). -/
def laneRun (p : Bool) (n : Nat) : Nat := if p then n else (n + 1) / 2

/-- The keep bits, zero bit and A tag of a tile product as `imm` packs them. -/
abbrev VForm.aTag (f : VForm) : Nat := f.imm.toNat % 32
abbrev VForm.keepA (f : VForm) : Bool := f.imm.toNat.testBit 5
abbrev VForm.keepB (f : VForm) : Bool := f.imm.toNat.testBit 6
abbrev VForm.zero (f : VForm) : Bool := f.imm.toNat.testBit 7

/-- The policy of a load or store in the V format, bits 29:28 of its word (R89, R99). -/
def VForm.pol (f : VForm) : Nat := f.word.toNat / 2 ^ 28 % 4

/-- The row of tread, twrite and tepi, and the function of tepi. -/
abbrev VForm.row (f : VForm) : Nat := f.imm.toNat % 64
abbrev VForm.act (f : VForm) : Nat := f.imm.toNat / 64

/-- The lane-matrix registers a W field names: a pair under P = 1 (R233). -/
def wRegs (p : Bool) (r : Nat) (e : Bool) : List (Nat × Bool) := if p then [(r, e), (r + 1, e)] else [(r, e)]

/-- The pivot register and the right-hand sides of a wsolve of `n` rows (R246). -/
def solveRegs (f : VForm) (pivots : Bool) (n : Nat) : List Nat :=
  let cnt := if f.p then f.d / 2 + 1 else f.d + 1
  let v0 := if pivots then f.c + 1 else f.c
  (List.range (cnt * laneRun f.p n)).map (v0 + ·)

/-- The registers of a form by role (R189 to R264). `n` and `m` are the captured shape. The governing mask is read under
E = 0. -/
def VForm.roles (f : VForm) (n : Nat) : Roles :=
  let gk := [(f.k, false)]
  match f.op with
  | .bin _ .vec => { vd := some f.d, vs := [(f.a, f.ea), (f.b, f.eb)], ks := gk }
  | .bin _ .scal => { vd := some f.d, vs := [(f.a, f.ea)], ss := [(f.b, f.eb)], ks := gk }
  | .bin _ .imm => { vd := some f.d, vs := [(f.a, f.ea)], ks := gk }
  | .fma .. | .macw => { vd := some f.d, vacc := true, vs := [(f.a, f.ea), (f.b, f.eb), (f.d, f.eb)], ks := gk }
  | .cmp _ => { kd := some f.d, vs := [(f.a, f.ea), (f.b, f.eb)], ks := gk }
  | .sel => { vd := some f.d, vs := [(f.a, f.ea), (f.b, f.eb)], ks := gk }
  | .cvt _ => { vd := some f.d, vs := [(f.a, f.ea)], ks := gk }
  | .shrr true _ => { vd := some f.d, vs := [(f.a, f.ea)], ss := [(f.b, f.eb)], ks := gk }
  | .shrr false _ => { vd := some f.d, vs := [(f.a, f.ea), (f.b, f.eb)], ks := gk }
  | .math .div => { vd := some f.d, vs := [(f.a, f.ea), (f.b, f.eb)], ks := gk }
  | .math _ => { vd := some f.d, vs := [(f.a, f.ea)], ks := gk }
  | .dot | .sign => { vd := some f.d, vacc := true, vs := [(f.a, f.ea), (f.b, f.eb), (f.d, f.eb)], ks := gk }
  | .red .. => { sd := some f.d, vs := [(f.a, f.ea)], ks := gk }
  | .mov => { vd := some f.d, vs := [(f.a, f.ea)], ks := gk }
  | .splat => { vd := some f.d, ss := [(f.a, f.ea)], ks := gk }
  | .splati => { vd := some f.d, ks := gk }
  | .vget => { sd := some f.d, vs := [(f.a, f.ea)], ss := [(f.b, f.eb)] }
  | .vput => { vd := some f.d, ss := [(f.a, f.ea), (f.b, f.eb)] }
  | .slide _ fill =>
    { vd := some f.d, vs := [(f.a, f.ea)], ss := (f.b, f.ea) :: (if fill.val = 2 then [(f.c, f.ea)] else []) }
  | .ld .strided .. => { vd := some f.d, ss := [(f.a, f.ea), (f.c, f.ea)], ks := gk }
  | .ld .indexed .. => { vd := some f.d, vs := [(f.c, f.ea)], ss := [(f.a, f.ea)], ks := gk }
  | .ld .unit .. => { vd := some f.d, ss := [(f.a, f.ea)], ks := gk }
  | .ldxc .. => { vd := some f.d, vs := [(f.c, f.ea)], ss := [(f.a, f.ea)], ks := gk }
  | .ldxdup .. => { vd := some f.d, kd := some f.k, vs := [(f.c, f.ea)], ss := [(f.a, f.ea)] }
  | .st .unit .. => { vs := [(f.d, f.ea)], ss := [(f.a, f.ea)], ks := gk }
  | .st .strided .. => { vs := [(f.d, f.ea)], ss := [(f.a, f.ea), (f.c, f.ea)], ks := gk }
  | .st .indexed .. => { vs := [(f.d, f.ea), (f.c, f.ea)], ss := [(f.a, f.ea)], ks := gk }
  | .amo .. => { vd := some f.d, vacc := true, vs := [(f.c, f.ea), (f.d, f.ea)], ss := [(f.a, f.ea)], ks := gk }
  | .comp | .expand => { vd := some f.d, vs := [(f.a, f.ea)], ks := gk }
  | .perm | .zip | .unzip | .trn => { vd := some f.d, vs := [(f.a, f.ea), (f.b, f.eb)], ks := gk }
  | .klog .not => { kd := some f.d, ks := [(f.a, f.ea)] }
  | .klog _ => { kd := some f.d, ks := [(f.a, f.ea), (f.b, f.eb)] }
  | .kpopc | .kfirst => { sd := some f.d, ks := [(f.a, f.ea)] }
  | .kvl => { kd := some f.d, ss := [(f.a, f.ea)] }
  | .kfrom => { kd := some f.d, vs := [(f.a, f.ea)] }
  | .vlk => { vd := some f.d, ks := [(f.a, f.ea)] }
  | .mcast => { vs := [(f.a, f.ea)], ss := [(f.b, f.eb)], ks := gk }
  | .recv => { vd := some f.d }
  | .iota => { vd := some f.d, ks := [(f.a, f.ea), (f.k, false)] }
  | .idx | .flgRd => { vd := some f.d, ks := gk }
  | .flgClr => { ks := gk }
  | .wld => { wd := some f.d, ss := [(f.c, f.ea), (f.b, false)], ks := gk }
  | .wst => { ws := wRegs f.p f.d f.ea, ss := [(f.c, f.ea), (f.b, false)], ks := gk }
  | .wmul .mac =>
    { wd := some f.d, ws := wRegs f.p f.a f.ea ++ wRegs f.p f.b f.ea ++ wRegs f.p f.d f.ea, ks := gk }
  | .wmul _ | .wadd _ => { wd := some f.d, ws := wRegs f.p f.a f.ea ++ wRegs f.p f.b f.ea, ks := gk }
  | .wchol => { wd := some f.d, ws := wRegs f.p f.d f.ea, kd := some f.res, ks := gk }
  | .wlu => { wd := some f.d, ws := wRegs f.p f.d f.ea, kd := some f.res, vd := some f.c, ks := gk }
  | .wsolve piv =>
    { ws := wRegs f.p f.a f.ea, ks := gk
      vs := (if piv then [(f.c, f.ea)] else []) ++ (solveRegs f piv n).map fun r => (r, f.ea) }
  | .wscal => { wd := some f.d, ws := wRegs f.p f.a f.ea, ss := [(f.c, f.ea)], ks := gk }
  | .wtrn | .wcpy => { wd := some f.d, ws := wRegs f.p f.a f.ea, ks := gk }
  | .wid => { wd := some f.d, ks := gk }
  | .wdim => {}
  | .wget => { vd := some f.c, ws := wRegs f.p f.a f.ea, ks := gk }
  | .wput => { wd := some f.d, ws := wRegs f.p f.d f.ea, vs := [(f.c, f.ea)], ks := gk }
  | .tacc => { tw := some f.d, vs := [(f.c, f.ea)] }
  | .tmma => { tw := some f.d, tr := if f.zero then none else some (f.d, f.ea) }
  | .tmms => { tw := some f.d, tr := if f.zero then none else some (f.d, f.ea), vs := [(f.c, f.ea)] }
  | .twrite => { tw := some f.d, vs := [(f.c, f.ea)] }
  | .tread => { vd := some f.c, tr := some (f.d, f.ea) }
  | .tepi => { vd := some f.c, tr := some (f.d, f.ea), vs := [(f.c + 1, f.ea)] }

/-- The forms that read and write memory element by element. -/
def VOp.isLoad (o : VOp) : Bool := match o with | .ld .. | .ldxc .. | .ldxdup .. | .wld => true | _ => false
def VOp.isStore (o : VOp) : Bool := match o with | .st .. | .wst => true | _ => false
def VOp.isAmo (o : VOp) : Bool := match o with | .amo .. => true | _ => false
def VOp.isMem (o : VOp) : Bool := o.isLoad || o.isStore || o.isAmo

/-- The B bit of a memory form (R213). -/
def VOp.bBit (o : VOp) : Bool :=
  match o with | .ld _ b _ | .st _ b _ | .ldxc b _ | .ldxdup b _ | .amo _ b _ => b | _ => false

/-- A form that may round with rm (R119, R188): the element-wise floating forms, and the conversions of vcvt and tepi. -/
def VOp.usesRm (o : VOp) : Bool :=
  match o with
  | .bin .. | .fma .. | .macw | .math _ | .tepi => true
  | .cvt rnd => rnd.val == 7
  | _ => false

/-- The rounding mode of a form with captured rm (R102, R119). -/
def VOp.mode (o : VOp) (rm : Nat) : Nat := match o with | .cvt rnd => if rnd.val = 7 then rm else rnd.val | _ => rm

/-- The vector forms that mark their destination empty at acceptance (R30, R200, R227). The tile operations of R30 are taken to be
the Detached ones, whose destination is a tile: tread and tepi do not mark their vector register (DESIGN CHOICE, log entry 73). -/
def VForm.emptiesV (f : VForm) : Bool :=
  match f.op with
  | .ld .. | .ldxc .. => !(f.d == 0 && f.k == 0)
  | .ldxdup .. => f.d != 0
  | .math .div | .recv => true
  | _ => false

/-- A load whose destination is v0 with the mask k0 is a touch: its data are discarded (R34, R212, R217). -/
def VForm.touch (f : VForm) : Bool :=
  match f.op with
  | .ld .. | .ldxc .. => f.d == 0 && f.k == 0
  | .ldxdup .. => f.d == 0
  | _ => false

end Sys2Proof.Machine
end

