-- ==== Sys2Proof/Machine/Ops.lean ====
section
/-!
DEFINITION. What the meanings share: reading and writing the registers of a sequencer or a lane thread under full/empty
bits (R30 to R34, R38, R52), moving the program counter with its loop test and repeat frame (R149, R156), queue squash
(R24), keeper events (R357, R358), taking a trap (R353 to R355) and returning from one (R290), and the memory accesses
of a core, a channel or a walker but those of control pages.
-/
namespace Sys2Proof.Machine

/-- The outcome of a step. -/
abbrev Out := Host.Outcome State Fault Refusal

/-- Why an instruction does not complete now: it waits, with what it has left behind, or it meets a trap or stop, with what a
refused write has done at its home (R319). -/
inductive Stop where
  | wait (s : State)
  | trap (t : Trap) (left : Option State := none)
deriving Repr

/-- The cause codes of R353. -/
abbrev cILLEGAL : Nat := 0x01
abbrev cZERO_WORD : Nat := 0x02
abbrev cTAG : Nat := 0x03
abbrev cEMPTY_READ : Nat := 0x04
abbrev cARITH : Nat := 0x05
abbrev cSOFTWARE : Nat := 0x06
abbrev cBREAKPOINT : Nat := 0x07
abbrev cMISALIGNED : Nat := 0x08
abbrev cLANE_MODE : Nat := 0x09
abbrev cRPT_ILLEGAL : Nat := 0x0A
abbrev cPIPE_UNOWNED : Nat := 0x0B
abbrev cLOOP_DEPTH : Nat := 0x0C
abbrev cXLATE_INVALID : Nat := 0x20
abbrev cCONTROL_VIOLATION : Nat := 0x23
abbrev cPROTOCOL : Nat := 0x24
abbrev cPRI_FAILED : Nat := 0x25
abbrev cHOST_ABORT : Nat := 0x26
abbrev cPOISON : Nat := 0x30

/-- A class A trap of the instruction at `pc` (R353). -/
def classA (cause sub : Nat) (tval pc : Word) : Trap := { cause := cause, sub := sub, tval := tval, tepc := pc }

/-- A class B stop of the instruction at `pc` at a faulting address (R353). -/
def classB (cause sub : Nat) (addr pc : Word) : Trap :=
  { cause := cause, sub := sub, classB := true, addr := addr, tepc := pc }

/-- A memory error of an access at `va` by the instruction at `pc`. -/
def liftB {α : Type} (va pc : Word) (m : Except MErr α) : Except Stop α :=
  match m with
  | .ok x => .ok x
  | .error (.wait s) => .error (.wait s)
  | .error (.stop c sub at_ left) => .error (.trap (classB c sub (at_.getD va) pc) left)

/-! ## The current context -/

/-- The context of the sequencer whose instruction is next. -/
abbrev State.c (s : State) : Ctx := s.ctx s.cur

/-- The current context becomes `c`. -/
abbrev State.withC (s : State) (c : Ctx) : State := s.setCtx s.cur c

/-- Lane threads execute: lane mode, and no handler of one of their traps runs (R38, R287). -/
def Ctx.laneOn (c : Ctx) : Bool := c.lmode && !c.handler

/-- The program counter of the instruction being executed: the lane's in lane mode (R38). -/
def Ctx.at (c : Ctx) : Word := if c.laneOn then vget c.lpc c.laneTurn.val 0 else c.sc.pc

/-- The program counter of the instruction that executes now. -/
abbrev State.pc (s : State) : Word := s.c.at

/-- The roles of a queued instruction. -/
abbrev VqEntry.roles (e : VqEntry) : Roles := e.form.roles e.rows.val

/-- The older vector-queue instructions not yet complete, Detached ones in their tiles apart. -/
def Ctx.older (c : Ctx) : List VqEntry := c.run ++ c.viq

/-- An older vector-queue instruction writes scalar `n` (R52). -/
def Ctx.vqWritesS (c : Ctx) (n : Nat) : Bool := c.older.any fun e => e.roles.sd == some n

/-- An older vector-queue instruction writes mask `n` (R52). -/
def Ctx.vqWritesK (c : Ctx) (n : Nat) : Bool := c.older.any fun e => e.roles.kd == some n

/-- The vector registers a queued instruction writes: its destination's group, a scaled destination's companion, and for a
lane-matrix solve the registers of its vectors (R197, R246). -/
def VqEntry.writesV (e : VqEntry) (n : Nat) : Bool :=
  match e.form.op with
  | .wsolve piv => (solveRegs e.form piv e.rows.val).contains n
  | .wlu => e.form.c == n
  | _ => match e.roles.vd with
    | some d => (decide (d ≤ n) && decide (n < d + 2 ^ (vget e.cfg d {}).grp.val))
        || ((vget e.cfg d {}).scaled && (vget e.cfg d {}).comp.val == n)
    | none => false

/-- An older vector-queue instruction writes vector register `n` (R52). -/
def Ctx.vqWritesV (c : Ctx) (n : Nat) : Bool := c.older.any fun e => e.writesV n

/-- An older vcomp has yet to write vl (R221). -/
def Ctx.vqWritesVl (c : Ctx) : Bool := c.older.any fun e => e.form.op == .comp

/-- Nothing the sequencer accepted is outstanding. -/
def Ctx.quiet (c : Ctx) : Bool :=
  c.viq.isEmpty && c.run.isEmpty && c.sb.isEmpty && c.loads.isEmpty && c.divs.isEmpty && c.pend.isNone

/-- The 8-byte slot of a lane in a vector register (R38). -/
def Ctx.slot (c : Ctx) (lane r : Nat) : Word := BitVec.ofNat 64 ((vget c.v r 0).toNat / 2 ^ (64 * lane))

/-- The field of `w` bits at `lo` of a number becomes `x`. -/
def setField (n lo w x : Nat) : Nat :=
  n / 2 ^ (lo + w) * 2 ^ (lo + w) + x % 2 ^ w * 2 ^ lo + n % 2 ^ lo

/-- A lane's slot of a vector register is written (R38, R285): tag and full/empty bit stay. -/
def Ctx.setSlot (c : Ctx) (lane r : Nat) (x : Word) : Ctx :=
  { c with v := vset c.v r (BitVec.ofNat 4096 (setField (vget c.v r 0).toNat (64 * lane) 64 x.toNat)) }

/-- A scalar register; s0 reads as zero (R135). -/
def Ctx.getS (c : Ctx) (n : Nat) : Word := if n = 0 then 0 else vget c.sc.s n 0

/-- A scalar register is written; a result written to s0 is discarded (R135). -/
def Ctx.setS (c : Ctx) (n : Nat) (x : Word) : Ctx :=
  if n = 0 then c else { c with sc := { c.sc with s := vset c.sc.s n x } }

/-- A mask register; k0 reads as all ones (R224). -/
def Ctx.getK (c : Ctx) (n : Nat) : BitVec 8192 := if n = 0 then BitVec.allOnes 8192 else vget c.k n 0

/-- A mask register is written; a write to k0 is discarded (R224). -/
def Ctx.setK (c : Ctx) (n : Nat) (x : BitVec 8192) : Ctx := if n = 0 then c else { c with k := vset c.k n x }

/-- A bit of a word becomes `b`. -/
def setBit {n : Nat} (x : BitVec n) (i : Nat) (b : Bool) : BitVec n :=
  if b then x ||| BitVec.ofNat n (2 ^ i) else x &&& ~~~(BitVec.ofNat n (2 ^ i))

/-- A scalar destination is written and becomes full (R30). -/
def Ctx.fill (c : Ctx) (d : Nat) (x : Word) : Ctx := { (c.setS d x) with feS := setBit c.feS d true }

/-- A scalar destination is marked empty; s0 is always full (R30, R135). -/
def Ctx.empty (c : Ctx) (d : Nat) : Ctx := if d = 0 then c else { c with feS := setBit c.feS d false }

/-- Every position that a squash may roll back to past instruction `ord` changes by `f`. -/
def Ctx.later (c : Ctx) (ord : Nat) (f : Scal → Scal) : Ctx :=
  { c with
    viq := c.viq.map fun e => if ord < e.ord then { e with snap := f e.snap } else e
    sb := c.sb.map fun h => if ord < h.ord then { h with snap := f h.snap } else h
    loads := c.loads.map fun l => if ord < l.ord then { l with snap := f l.snap } else l
    run := c.run.map fun e => if ord < e.ord then { e with snap := f e.snap } else e }

/-- The result of instruction `ord` reaches its scalar register, which becomes full; the positions younger instructions
roll back to hold it too. -/
def Ctx.deliver (c : Ctx) (d : Nat) (x : Word) (ord : Nat) : Ctx :=
  if d = 0 then c.fill 0 0
  else (c.fill d x).later ord fun p => { p with s := vset p.s d x }

/-- The current sequencer carries each instruction through in one step: nothing is outstanding, and it does not run ahead, or
lane threads execute, or one instruction is stepped (R337). -/
def State.lockstep (s : State) : Bool := s.c.quiet && (!s.runAhead || s.c.laneOn || s.c.stepping)

/-- A result is written to a destination that is full: the register, or in lane mode the lane's slot. -/
def Ctx.put (c : Ctx) (r : Nat) (x : Word) : Ctx :=
  if c.laneOn then c.setSlot c.laneTurn.val r x else c.setS r x

/-- A scalar source is read at execution (R31, R38, R52): `w` is the instruction word, for the trap. -/
def readS (s : State) (n : Nat) (e : Bool) (w : Nat) : Except Stop Word :=
  let c := s.c
  if c.laneOn then .ok (c.slot c.laneTurn.val n)
  else if n = 0 then .ok 0
  else if c.vqWritesS n then .error (.wait s)
  else if c.feS.getLsbD n then .ok (c.getS n)
  else if e then .error (.trap (classA cEMPTY_READ 0 (word w) c.at))
  else .error (.wait s)

/-- A mask source is read at execution on the scalar side, with E = 0 (R143, R52). -/
def readK (s : State) (n : Nat) : Except Stop (BitVec 8192) :=
  let c := s.c
  if n = 0 then .ok (c.getK 0)
  else if c.vqWritesK n then .error (.wait s)
  else if c.feK.getLsbD n then .ok (c.getK n)
  else .error (.wait s)

/-- A destination must be full before a new producer takes it (R32). -/
def freeDest (s : State) (n : Nat) : Except Stop Unit :=
  let c := s.c
  if c.laneOn ∨ n = 0 ∨ c.feS.getLsbD n then .ok () else .error (.wait s)

/-- Forms that are not legal in lane mode trap with LANE_MODE; tval is the lane number (R38, R287). -/
def notLane (s : State) : Except Stop Unit :=
  let c := s.c
  if c.laneOn then .error (.trap (classA cLANE_MODE 0 (word c.laneTurn.val) c.at)) else .ok ()

/-! ## Moving the program counter -/

/-- The loop stack without entry 0 (R11, R149). -/
def popLoop (l : Vector LoopEntry 6) : Vector LoopEntry 6 :=
  Vector.ofFn fun i => if i.val = 5 then {} else vget l (i.val + 1) {}

/-- The loop stack with a new innermost entry (R148). -/
def pushLoop (l : Vector LoopEntry 6) (e : LoopEntry) : Vector LoopEntry 6 :=
  Vector.ofFn fun i => if i.val = 0 then e else vget l (i.val - 1) {}

/-- The innermost loop-stack entry. -/
abbrev Scal.loop0 (x : Scal) : LoopEntry := vget x.loops 0 {}

/-- The end test of R149 for an instruction at `a` that completed without transferring control; at most six entries can
end. -/
def endTest : Nat → Scal → Word → Scal
  | 0, x, a => { x with pc := a + 4 }
  | n + 1, x, a =>
    let e := x.loop0
    if e.count ≠ 0 ∧ a = e.last then
      if e.index.toNat + 1 < e.count.toNat then
        { x with loops := vset x.loops 0 { e with index := e.index + 1 }, pc := e.start }
      else endTest n { x with loops := popLoop x.loops } a
    else { x with pc := a + 4 }

/-- The scalar side after an instruction that completed without transferring control: the next word of the repeat frame
(R156), or the next instruction by the end test. -/
def Scal.next (x : Scal) : Scal :=
  if x.rptRun then
    let n := x.rptBuf.length
    if x.rptI + 1 < n then { x with rptI := x.rptI + 1, pc := x.pc + 4 }
    else if x.rptJ + 1 < x.rptCnt then
      { x with rptI := 0, rptJ := x.rptJ + 1, pc := x.pc - word (4 * x.rptI) }
    else endTest 6 { x with rptAct := false, rptRun := false, rptBuf := [] } x.pc
  else endTest 6 x x.pc

/-- The turn passes to the next lane (R37). -/
def Ctx.passTurn (c : Ctx) : Ctx := { c with laneTurn := c.laneTurn + 1 }

/-- The instruction completed without transferring control. In lane mode no end test of R149 is made, should a lane's instruction
stand at the END of an active loop of the sequencer: the spec does not say, a DESIGN CHOICE (log entry 96). -/
def Ctx.advance (c : Ctx) : Ctx :=
  let c := { c with ord := c.ord + 1 }
  if c.laneOn then { c with lpc := vset c.lpc c.laneTurn.val (c.at + 4) }.passTurn
  else { c with sc := c.sc.next }

/-- The instruction transferred control to `t`; no end test is made (R149). -/
def Ctx.jump (c : Ctx) (t : Word) : Ctx :=
  let c := { c with ord := c.ord + 1 }
  if c.laneOn then { c with lpc := vset c.lpc c.laneTurn.val t }.passTurn
  else { c with sc := { c.sc with pc := t } }

/-! ## Keeper events (R357, R358) -/

/-- What a keeper event says (R357). -/
structure EventWord where
  event : Nat
  cause : Nat := 0
  sub : Nat := 0
  cls : Nat := 0
  part : Nat := 0
  seq : Nat := 0
  pc : Word := 0
  addr : Word := 0
  tval : Word := 0
  queue : Nat := 0
  counter : Nat := 0
  chan : Nat := 0
  core : Nat := 0

/-- The 128 bytes of a keeper event at a device time (R357). -/
def EventWord.body (e : EventWord) (time : Nat) : BitVec 1024 :=
  BitVec.ofNat 1024 (
    (e.event % 256 + 2 ^ 8 * (e.cause % 256) + 2 ^ 16 * (e.sub % 256) + 2 ^ 24 * (e.cls % 4) + 2 ^ 32 * (e.part % 32)
      + 2 ^ 48 * (e.seq % 2048))
    + 2 ^ 64 * e.pc.toNat + 2 ^ 128 * e.addr.toNat + 2 ^ 192 * e.tval.toNat + 2 ^ 256 * (time % 2 ^ 64)
    + 2 ^ 320 * (e.queue % 4096 + 2 ^ 12 * (e.counter % 256) + 2 ^ 20 * (e.chan % 8) + 2 ^ 32 * (e.core % 512))
    + 2 ^ 1016 * 0xE0)

/-- Slots of a queue (R340). -/
abbrev Queue.slots (x : Queue) : Nat := 2 ^ x.capacity

/-- A queue has no free slot (R279). -/
def Queue.full (x : Queue) : Bool := decide (x.slots ≤ (x.tail - x.head).toNat)

/-- The physical address of the slot of an index (R279). -/
def Queue.slotAt (x : Queue) (i : Word) : Nat := bits x.base 12 40 * 4096 + 128 * (i.toNat % x.slots)

/-- TAIL passes the slot that has been filled. -/
def passTail (s : State) (qn : Nat) : State :=
  let x := s.queue qn
  s.setQueue qn { x with tail := x.tail + 1, instBound := del x.instBound (x.tail.toNat), enqTime := put x.enqTime x.tail.toNat s.time }

/-- 128 bytes are placed at the tail of a queue that has room (R281). -/
def placeSlot (s : State) (qn : Nat) (body : BitVec 1024) : State :=
  passTail (homeWrite s ((s.queue qn).slotAt (s.queue qn).tail) 128 body.toNat) qn

/-- The error log page of a partition. -/
abbrev State.log (s : State) (p : Nat) : ErrLog := get s.logs p {}

/-- An event is placed, or waits behind the partition's pending events, or is counted in LOST (R358): one that finds its queue
full and waits sets OVERFLOW. -/
def postTo (s : State) (p qn : Nat) (body : BitVec 1024) : State :=
  let s := countEvent s 0
  let waiting := s.events.filter fun e => e.part == p
  if !(s.queue qn).full && !(waiting.any fun e => e.queue == qn) then placeSlot s qn body
  else if waiting.length < 256 then
    let x := s.queue qn
    { s.setQueue qn { x with overflow := x.overflow || x.full } with events := s.events ++ [{ part := p, queue := qn, body := body }] }
  else { s with logs := put s.logs p { s.log p with lost := (s.log p).lost + 1 } }

/-- The keeper queue of a context: its KEEPER where KV is set and its partition owns that queue, else the partition's
DKEEPER (R358). -/
def keeperOf (s : State) (q : Nat) : Nat :=
  let c := s.ctx q
  if c.kv ∧ s.queueOwner c.keeper.toNat = some (s.pnum q) then c.keeper.toNat else (s.part (s.pnum q)).dkeeper.toNat

/-- An event about a context is posted to its keeper (R358). -/
def postKeeper (s : State) (q : Nat) (e : EventWord) : State :=
  let e := { e with part := s.pnum q, seq := q }
  postTo s (s.pnum q) (keeperOf s q) (e.body s.time)

/-! ## Queue squash (R24, R27) -/

/-- A configuration as a chain record byte holds it (R27). -/
def cfgByte (v : VCfg) : Nat := v.tag.toNat + 32 * v.grp.val + 128 * v.scaled.toNat

/-- The vector registers the d, a, b and c columns of a chain record describe (R27): t stands for d, and the other vector
field of a memory, tile or lane-matrix form for b. That the c column of a tepi describes v[x + 1], which no field names, is a DESIGN
CHOICE (log entry 89). -/
def VForm.recRegs (f : VForm) : List (Option Nat) :=
  match f.op with
  | .bin _ .vec | .fma .. | .macw | .sel | .shrr false _ | .math .div | .dot | .sign | .perm | .zip | .unzip | .trn =>
    [some f.d, some f.a, some f.b]
  | .cmp _ => [none, some f.a, some f.b]
  | .bin .. | .cvt _ | .shrr true _ | .math _ | .mov | .slide .. | .comp | .expand => [some f.d, some f.a]
  | .splat | .splati | .vput | .vlk | .recv | .iota | .idx | .flgRd => [some f.d]
  | .red .. | .vget | .kfrom | .mcast => [none, some f.a]
  | .ld .indexed .. | .st .indexed .. | .ldxc .. | .ldxdup .. | .amo .. => [some f.d, none, some f.c]
  | .ld .. | .st .. => [some f.d]
  | .wlu | .wsolve _ | .wget | .wput | .tacc | .tmms | .twrite | .tread => [none, none, some f.c]
  | .tepi => [none, none, some f.c, some (f.c + 1)]
  | _ => []

/-- A recorded instruction (R27): columns without a register, and companions of unscaled ones, are zero. -/
def VqEntry.toRec (e : VqEntry) : ChainRec :=
  let vs := e.form.recRegs.map fun o => match o with
    | some r => vget e.cfg r {}
    | none => {}
  { ipc := e.ipc
    word := e.form.word
    vl := BitVec.ofNat 32 e.vl
    cfg := BitVec.ofNat 32 (vs.foldr (fun v n => cfgByte v + 256 * n) 0)
    comp := BitVec.ofNat 29 (vs.foldr (fun v n => (if v.scaled then v.comp.val else 0) + 256 * n) 0)
    scalar := e.x1
    scalar2 := e.x2
    rm := e.rm
    rows := some (e.rows, e.cols) }

/-- The scalars a held instruction writes when it is performed. -/
def HeldOp.dests : HeldOp → List Nat
  | .amo _ _ _ _ _ _ _ d | .barArr _ _ _ _ d | .barAw _ _ _ _ d | .stash _ _ _ d | .fstat _ d | .chanWm _ d | .chanStat _ d | .enq _ _ _ d => [d]
  | .cas n _ _ _ _ _ d => if n = 16 then [d, d + 1] else [d]
  | _ => []

/-- The full/empty bits of a queued instruction's vector, lane-matrix and scalar destinations, set or cleared (R30, R227,
R238). -/
def Ctx.mark (c : Ctx) (e : VqEntry) (full : Bool) : Ctx :=
  let c := match e.roles.sd with
    | some d => if d = 0 then c else { c with feS := setBit c.feS d full }
    | none => c
  let c := if e.form.emptiesV then
      { c with feV := (List.range (2 ^ (vget e.cfg e.form.d {}).grp.val)).foldl (fun m i => setBit m (e.form.d + i) full) c.feV }
    else c
  match e.form.op with
  | .wld => { c with feW := (wRegs e.form.p e.form.d false).foldl (fun m r => setBit m r.1 full) c.feW }
  | _ => c

/-- The full/empty bits that instructions outside the started chain cleared are set again, as a squash sets them (R24 step 4):
the destinations of what the queue, the store buffer, the loads and the divides hold. -/
def Ctx.fullBits (c : Ctx) : Ctx :=
  let ds := c.sb.flatMap (·.op.dests) ++ c.loads.flatMap (fun l => if l.pair then [l.d, l.d + 1] else [l.d]) ++ c.divs.map (·.1)
  let ks := c.sb.filterMap fun h => match h.op with
    | .gath _ _ _ _ kd => some kd
    | _ => none
  let c := c.viq.foldl (fun c e => c.mark e true) c
  { c with feS := ds.foldl (fun m d => setBit m d true) c.feS, feK := ks.foldl (fun m k => setBit m k true) c.feK }

/-- The mask destinations of a sequencer's gathers still on their channels (R273). -/
def gathMasks (s : State) (q : Nat) : List Nat :=
  s.chans.flatMap fun (_, ch) => ch.cmds.filterMap fun m => if m.kind = 3 ∧ m.seq = q then some m.kd else none

/-- The oldest instruction a squash discards: its program-order number and the scalar side before it. -/
def Ctx.oldestDiscarded (c : Ctx) : Option (Nat × Scal) :=
  let xs := c.viq.map (fun e => (e.ord, e.snap)) ++ c.sb.map (fun h => (h.ord, h.snap))
    ++ c.loads.map fun l => (l.ord, l.snap)
  xs.foldl (fun m x => match m with
    | none => some x
    | some y => if x.1 < y.1 then some x else some y) none

/-- The started instructions a squash records; a Complete-class one runs on to its end instead (R24). -/
def Ctx.recorded (c : Ctx) : List VqEntry := c.run.filter fun e => e.form.op.restart != Restart.complete

/-- G: the element at which recorded instructions restart (R24 step 2). -/
def Ctx.commitPoint (c : Ctx) : Nat :=
  match c.recorded with
  | e :: _ => if e.form.op.restart = .whole then 0 else c.runG
  | [] => 0

/-- A sleep is given up: its destination is full again (R24), and the arrival a bar.aw has made stands (R176). -/
def Ctx.woken (c : Ctx) : Ctx :=
  match c.wait with
  | some (.waita d ..) => { c with wait := none, feS := setBit c.feS d true }
  | some (.bar d _ _ gen _ aw) =>
    { c with wait := none, feS := setBit c.feS d true, awDone := c.awDone || aw, awGen := if aw then gen else c.awGen }
  | _ => { c with wait := none }

/-- The queue squash of R24 with a given position to roll the scalar side back to: unstarted work is discarded and the chain
recorded. Divides older than that point keep their results; younger ones are undone with it. A started Complete-class
instruction stays. An ARITH that a recorded chain has raised stays with it until it has run to its end (R125). -/
def Ctx.squashAt (c : Ctx) (old : Option (Nat × Scal)) : Ctx :=
  let recd := c.recorded
  let n := recd.length
  let g := c.commitPoint
  let sc := match old with
    | some (_, x) => x
    | none => c.sc
  let keep := c.divs.filter fun d => match old with
    | some (o, _) => decide (d.2.2 < o)
    | none => true
  let sc := keep.foldl (fun (x : Scal) d => if d.1 ≠ 0 then { x with s := vset x.s d.1 d.2.1 } else x) sc
  let sc := { sc with vstart := BitVec.ofNat 16 g, chain := BitVec.ofNat 6 n, armed := false, rptRun := false }
  let c := c.fullBits.woken
  { c with
    sc := sc
    viq := []
    run := c.run.filter fun e => e.form.op.restart == Restart.complete
    runG := 0
    runArith := if n = 0 then none else c.runArith
    sb := []
    loads := []
    divs := []
    pend := none
    vstartF := BitVec.ofNat 16 g
    chainF := BitVec.ofNat 6 n
    chainRec := Vector.ofFn fun i => match recd[i.val]? with
      | some e => e.toRec
      | none => {}
    resume := sc.pc }

/-- The queue squash of R24: the scalar side rolls back to the oldest discarded instruction. -/
def Ctx.squash (c : Ctx) : Ctx := c.squashAt c.oldestDiscarded

/-! ## Outstanding work of tiles (R253, R254, R270) -/

/-- Tile `t` of a core becomes `x`. -/
def setTile (s : State) (core t : Nat) (x : Tile) : State :=
  s.setCore core { s.core core with tiles := vset (s.core core).tiles t x }

/-- A follow-on of a cpy.m, older than a number, that has not reached its tile (R270): held, or with its command on a
channel. -/
def followOns (s : State) (q t ord : Nat) : Bool :=
  let names := fun (f : Option (VqEntry × List Nat)) => match f with
    | some (e, _) => e.form.d == t && decide (e.ord < ord)
    | none => false
  ((s.ctx q).sb.any fun h => match h.op with
    | .copy _ _ _ _ _ f => names f
    | _ => false)
  || s.chans.any fun (_, ch) => ch.cmds.any fun m => m.seq == q && names m.follow

/-- A use of a tile older than a number that has not reached it: a queued operation on it, a read of it not yet complete, or a
follow-on (R253, R270). -/
def tileAhead (s : State) (q t ord : Nat) : Bool :=
  ((s.ctx q).older.any fun e => decide (e.ord < ord) && (e.roles.tw == some t || e.roles.tr.map (·.1) == some t))
    || followOns s q t ord

/-- A Detached operation on a tile older than a number has not completed (R253). -/
def tileBusy (s : State) (q t ord : Nat) : Bool :=
  ((vget (s.core (q / 4)).tiles t {}).ops.any fun o => decide (o.e.ord < ord))
    || ((s.ctx q).viq.any fun e => decide (e.ord < ord) && e.roles.tw == some t)
    || followOns s q t ord

/-- The bits of flags that gathered flags set. -/
def gatheredFlags (g : BitVec 4) : BitVec 15 :=
  BitVec.ofNat 15 ((g.getLsbD 0).toNat + 4 * (g.getLsbD 1).toNat + 64 * (g.getLsbD 2).toNat + 32 * (g.getLsbD 3).toNat)

/-- A tile's gathered flags are set in the claiming sequencer (R126, R254). -/
def giveFlags (s : State) (core t : Nat) : State :=
  let tl := vget (s.core core).tiles t {}
  match tl.claim with
  | some q =>
    if tl.gathered = 0 then s
    else
      let c := s.ctx q
      setTile (s.setCtx q { c with flags := c.flags ||| gatheredFlags tl.gathered }) core t { tl with gathered := 0 }
  | none => s

/-- The gathered flags of a tile that is full, a completion, a squash or a cancellation having ended the last operation it
waited for (R254). -/
def tileFlags (s : State) (core t : Nat) : State :=
  match (vget (s.core core).tiles t {}).claim with
  | some q => if tileBusy s q t (s.ctx q).ord then s else giveFlags s core t
  | none => s

/-- The tiles of a sequencer whose last operation a squash has ended become full (R24, R254). -/
def fullTiles (s : State) (q : Nat) : State := iterate (fun t s => tileFlags s (q / 4) t) 8 0 s

/-! ## Taking a trap and returning from one -/

/-- Strips that an abandoned vmcast had reserved and not landed are released (R226). -/
def dropStrips (s : State) (q : Nat) : State :=
  { s with cores := s.cores.map fun (n, x) =>
      (n, { x with recvq := x.recvq.map fun (p, r) =>
        (p, { r with strips := r.strips.filter fun t => !(t.sender == q && !t.landed) }) }) }

/-- The context after a squash made for a trap taken in context: a chain in progress is given up, the scalar side standing
at its oldest member, and vstart reads G (R24, R28, R354). -/
def Ctx.rollBack (c : Ctx) (old : Option (Nat × Scal)) : Ctx :=
  let d := c.squashAt old
  match c.recorded with
  | [] => d
  | e :: _ =>
    let x := { e.snap with vstart := BitVec.ofNat 16 c.commitPoint, chain := 0, armed := false, rptRun := false }
    let d := { d with sc := x, chainF := 0, chainRec := Vector.replicate 6 {} }
    c.recorded.foldl (fun d e => d.mark e true) d

/-- What a context has done is performed at pkg as it comes to rest (R307), if it can be now: then it rests as `f` leaves it, and
else it does not yet. A write that the protocol refuses is lost. -/
def restAs (s : State) (q : Nat) (f : State → State) : State :=
  match releaseAt s q 4 with
  | .ok s => f s
  | .error (.wait s) => s
  | .error (.stop _ _ _ left) => f (left.getD s)

/-- What a context has done is performed at pkg as its own instruction brings it to rest, or the instruction waits (R307). A write
that the protocol refuses is lost. -/
def restReady (s : State) (q : Nat) : Except Stop State :=
  match releaseAt s q 4 with
  | .ok s => .ok s
  | .error (.wait s) => .error (.wait s)
  | .error (.stop _ _ _ left) => .ok (left.getD s)

/-- What a context has done is performed at pkg as it comes to rest (R307). -/
def restRelease (s : State) (q : Nat) : State := restAs s q id

/-- What the host or a peer was to answer to a sequencer's squashed accesses is given up (R361, R402, R403). -/
def dropRequests (s : State) (q : Nat) : State :=
  { s with
    ats := giveUp s.ats (.seq q)
    link := { s.link with failing := s.link.failing.filter fun f => f.1 != .seq q } }

/-- The position just after a vector-queue instruction that has completed: what its acceptance left, the end test made, with the
scalars that some instructions have produced (R28, R125, R149); after a recorded one that a resume issued, RESUME (R26). -/
def Ctx.behind (c : Ctx) (e : VqEntry) (es : List VqEntry) : Scal :=
  let x := e.snap
  let x := if x.armed ∧ !e.resumed then { x with vstart := 0, chain := 0, armed := false } else x
  let x := (es.filterMap fun e => e.roles.sd).foldl (fun (x : Scal) d => if d = 0 then x else { x with s := vset x.s d (c.getS d) }) x
  let x := if es.any fun e => e.form.op == .comp then { x with vl := c.sc.vl } else x
  if e.resumed then x else x.next

/-- A trap is taken in context (R354): class A with tvec.EN set. One that ends a STEP leaves the context TRAPPED instead (R337). -/
def Ctx.inContext (c : Ctx) (t : Trap) : Bool := !t.classB && c.sc.tvec.getLsbD 0 && !c.stepping

/-- Taking a trap (R353 to R355) whose scalar side rolls back, where it is late, to a given position: in context where the cause is
class A, tvec.EN is 1 and no STEP runs (log entry 94); otherwise the squash is completed, the cause recorded in context page 0, STATE becomes TRAPPED and a TRAP event goes to the keeper. RESUME names
the address of the tepc column, or for a class B stop the position the squash leaves. -/
def takeTrapAt (s : State) (q : Nat) (t : Trap) (old : Option (Nat × Scal)) : State :=
  let c := s.ctx q
  let lane := c.laneOn
  let c := if lane then { c with trapv := true, trapLane := c.laneTurn } else c
  let c := if t.cause = cSOFTWARE ∧ !lane then { c with sc := c.sc.next } else c
  let r := if t.late then c.rollBack old else c
  if r.inContext t then
    let x := { r.sc with
      tcause := BitVec.ofNat 16 (t.sub * 256 + t.cause)
      tval := t.tval
      tepc := if t.late ∨ t.cause = cSOFTWARE then r.sc.pc else t.tepc
      tvec := setBit r.sc.tvec 0 false
      rptRun := false
      pc := r.sc.tvec &&& ~~~(3 : Word) }
    let r := { r with sc := x, pend := none, retry := false, handler := r.handler || lane }
    if t.late then fullTiles ((dropStrips s q).setCtx q r) q else s.setCtx q r
  else
    let c := c.squashAt old
    let res := if lane ∨ t.late ∨ t.classB ∨ t.cause = cSOFTWARE then c.resume else t.tepc
    let pc0 := match c.chainF.toNat with
      | 0 => res
      | _ => (vget c.chainRec 0 {}).ipc
    let c := { c with
      sc := { c.sc with pc := pc0 }
      resume := res
      cause := BitVec.ofNat 8 t.cause
      subcode := BitVec.ofNat 8 t.sub
      cls := if t.classB then 2 else 1
      faultAddr := if t.classB then t.addr else c.faultAddr
      state := .trapped
      stepping := false }
    let s := dropRequests s q
    postKeeper (restRelease (fullTiles ((dropStrips s q).setCtx q c) q) q) q
      { event := 1, cause := t.cause, sub := t.sub, cls := if t.classB then 2 else 1, pc := pc0, addr := c.faultAddr,
        tval := if t.classB then 0 else t.tval }

/-- Taking a trap (R353 to R355): the scalar side of a late one rolls back to the oldest discarded instruction (R24). -/
def takeTrap (s : State) (q : Nat) (t : Trap) : State := takeTrapAt s q t (s.ctx q).oldestDiscarded

/-- A trap can be delivered: every older vector-queue instruction has completed (R17), and for the keeper every held
instruction and load too, the trapping instruction being the oldest not performed; a lane's trap follows the lanes' held stores,
which no squash could roll a lane back to. -/
def Ctx.canTake (c : Ctx) (t : Trap) : Bool :=
  c.viq.isEmpty && c.run.isEmpty && (c.inContext t && !c.laneOn || (c.sb.isEmpty && c.loads.isEmpty))

/-- A trap of a scalar-side instruction: taken now, or kept until older instructions have completed (R17, R354) and, for the
keeper, what the context has written can be performed at pkg, so that it rests with nothing left to follow (R307). -/
def raise (s : State) (q : Nat) (t : Trap) : State :=
  let keep := fun (s : State) => s.setCtx q { s.ctx q with pend := some t }
  if !(s.ctx q).canTake t then keep s
  else if (s.ctx q).inContext t then takeTrap s q t
  else match releaseAt s q 4 with
    | .error (.wait s) => keep s
    | _ => takeTrap s q t

/-- A trap is delivered by `f` to a state: in context at once, and to the keeper once what the context has written can be performed
at pkg (R307). Until then the machine stands at `s`, with what it has asked of the host, and nothing of the trap is seen. -/
def takeGated (s t : State) (q : Nat) (trap : Trap) (f : State → State) : State :=
  if (s.ctx q).inContext trap then f t
  else match releaseAt t q 4 with
    | .error (.wait u) => { s with cxl := u.cxl }
    | _ => f t

/-- A trap that has waited is delivered; `left` is what the trapping access leaves behind. -/
def takeReady (s : State) (q : Nat) (t : Trap) (left : Option State) : State :=
  takeGated s (left.getD s) q t fun s => takeTrap s q t

/-- The outcome of an instruction of the current sequencer: it went on, it waits, or it traps. A lane thread that waits gives
its turn to the next (R37). -/
def settle (s : State) (m : Except Stop State) : Out :=
  match m with
  | .ok s' => .next s'
  | .error (.wait s') => .next (if s.c.laneOn then s'.withC s'.c.passTurn else s')
  | .error (.trap t left) => .next (raise (left.getD s) s.cur t)

/-- The return from a trap (R290): EN is set again, and the lane threads resume, the trapping lane at T, or execution
continues at T. Whether the repeat frame resumes (R157) is decided by the caller. -/
def returnFrom (c : Ctx) : Ctx :=
  let t := c.sc.tepc &&& ~~~(3 : Word)
  let c := { c with sc := { c.sc with tvec := setBit c.sc.tvec 0 true }, ord := c.ord + 1 }
  if c.lmode then
    { c with lpc := vset c.lpc c.trapLane.val t, trapv := false, handler := false }
  else { c with sc := { c.sc with pc := t } }

/-! ## Memory accesses -/

/-- Who makes an access: the core it is made from, its partition and space, and whom a host translation would hold. -/
structure Agent where
  core : Nat
  part : Nat
  space : BitVec 16
  who : Asker

/-- A sequencer as the maker of an access. -/
def State.agent (s : State) (q : Nat) : Agent :=
  { core := q / 4, part := s.pnum q, space := (s.ctx q).space, who := .seq q }

/-- The coherent host path is the partition's (R400, R414). -/
def coherent (s : State) (p : Nat) : Bool := s.link.hcoh.getLsbD p

/-- The place in the ordering machine of an access of a partition: device memory, or a host line on the coherent path (R298). -/
def cachedPlace (s : State) (p : Nat) (x : Xl) : Option Nat :=
  if x.ctl || x.dev != 0 then none
  else if x.host then if coherent s p && s.cxl.cache then some (hostTag + x.pa) else none
  else some x.pa

/-- Where the bytes of an access are: a word of the ordering machine, device memory or a coherent host line, under a
grain and slot; host memory at a translated address; peer memory. -/
inductive Target where
  | line (a grain slot : Nat) (va : Word)
  | plain (hpa : Nat)
  | peer (key : Nat) (line : Option Nat)
deriving Repr

/-- An access may need an answer of the host: it is of host memory, or of a host-bias page of the HDM range (R400, R420). -/
def asksHost (s : State) (x : Xl) : Bool :=
  x.host || (!x.ctl && x.dev == 0 && s.cxl.mode == 1 && inHdm s x.pa && hostBias s x.pa)

/-- The place of an access: device memory and coherent host lines through the core's registry and its die (R299), host
memory on the plain path by translated requests (R401), peer memory over the link (R409). -/
def resolve (s : State) (g : Agent) (x : Xl) (n : Need) : Except MErr (State × Target) := do
  slotCheck s x
  if asksHost s x && (!x.host || coherent s g.part) then requestOk s g.who false
  if x.host then
    if coherent s g.part then
      if !s.cxl.cache then throw (.stop cHOST_ABORT 0x09)
      else return (s, .line (hostTag + x.pa) x.grain x.slot x.va)
    else do
      let (s, h) ← atsLookup s g.who (fnOf g.part) g.space.toNat x.pa x.va n
      return (s, .plain h)
  else if x.dev ≠ 0 then do
    if !n.rights.w && (match peerLine x with | some b => s.peerCopies.contains b | none => false) then
      return (s, .peer (peerKey ((s.link.devid.toNat + x.dev) % 1024) x.pa) none)
    let d ← peerRoute s g.who x.dev n.rights.w
    return (s, .peer (peerKey d x.pa) (peerLine x))
  else return (s, .line x.pa x.grain x.slot x.va)

/-- The bytes at a place. -/
def readAt (s : State) (g : Agent) (n : Nat) : Target → Except MErr (State × Nat)
  | .line a gr sl _ => readBytes (fun s w => coreRead s g.core w gr sl) (readReady s g.core a n) a n
  | .plain h => .ok (s, Memory.readN s.hostMem h n)
  | .peer k line => .ok (peerKeep s line, Memory.readN s.peerMem k n)

/-- The words of a byte range are registered and placed at their homes at once, as one write (R328). -/
def placeNow (s : State) (core a n : Nat) : Except MErr State := do
  let w0 := a / 4 * 4
  let (s, _) ← (List.range ((a + n - w0 + 3) / 4)).foldlM (fun (s, at_) i => do
    let (s, _) ← registerWord s core (w0 + 4 * i)
    exportPart s (coreDie core) (w0 + 4 * i) at_) (s, (none : Option (Nat × Bool)))
  return s

/-- A store that must be placed at once can be: no engine is registered for its words, and the homes hold what they need
from the host. -/
def placeReady (s : State) (grain a n : Nat) : Except MErr State :=
  let w0 := a / 4 * 4
  (List.range ((a + n - w0 + 3) / 4)).foldlM (fun s i =>
    if engineHolds s (w0 + 4 * i) then throw (.wait s) else hostGate s grain (w0 + 4 * i) true) s

/-- A store to a line is placed at once on a coherent host line and on a page of a faulting protocol slot, so that a
refused write stops its issuer (R328). -/
def atOnce (s : State) (a slot : Nat) : Bool := decide (hostTag ≤ a) || (vget s.slots slot {}).faulting

/-- What a store needs before any of it is performed. -/
def writeReady (s : State) (n : Nat) : Target → Except MErr State
  | .line a gr sl _ => if atOnce s a sl then placeReady s gr a n else .ok s
  | _ => .ok s

/-- A write or an update that a peer has not acknowledged stops its issuer, and whether the peer performed it, as `f` does, is a free
bit (R407). -/
def inDoubt (s : State) (f : State → State) : MErr :=
  let t := { s with tick := s.tick + 1 }
  .stop cHOST_ABORT 0x11 none (some (if Config.freeNat s.tick % 2 = 1 then f t else t))

/-- Bytes are written at a peer's home, if it does not refuse them (R329). -/
def peerStore (s : State) (k n v : Nat) (line : Option Nat) : State :=
  match peerWrite s line with
  | .ok s => { s with peerMem := Memory.writeN s.peerMem k n v }
  | .error _ => s

/-- A store of `n` bytes at a place (R299 step 3). -/
def writeAt (s : State) (g : Agent) (n v : Nat) : Target → Except MErr State
  | .line a gr sl va => do
    let t ← enterStore s g.core a n v gr sl va
    let t := if 32 ≤ n then clearPoison t a n else t
    if atOnce s a sl then placeNow t g.core a n else return t
  | .plain h => .ok { s with hostMem := Memory.writeN s.hostMem h n v }
  | .peer k line => do
    if timedOut s g.who then throw (inDoubt s fun s => peerStore s k n v line)
    let s ← peerWrite s line
    return { s with peerMem := Memory.writeN s.peerMem k n v }

/-- The bytes of an access. -/
def accRead (s : State) (g : Agent) (x : Xl) (n : Nat) : Except MErr (State × Nat) := do
  let (s, t) ← resolve s g x .r
  readAt s g n t

/-- A store of `n` bytes (R299 step 3). -/
def accWrite (s : State) (g : Agent) (x : Xl) (n v : Nat) : Except MErr State := do
  let (s, t) ← resolve s g x .w
  let s ← writeReady s n t
  writeAt s g n v t

/-- A die point takes a word back from the core registered for it, so that an update can be made at the die, or a core's word
written to the L2 (R169, R177); the core that has it done keeps no older copy either (R301). -/
def dieTake (s : State) (core w : Nat) : Except MErr State := do
  let (s, _) ← registerWord s core w
  let (s, _) ← exportWord s (coreDie core) w
  match find s.die (unitKey (coreDie core) w) with
  | some (.core c) =>
    match find s.reg (unitKey c w) with
    | some r =>
      return { s with
        reg := del (del s.reg (unitKey c w)) (unitKey core w)
        die := put s.die (unitKey (coreDie core) w) (.value r.val) }
    | none => return { s with reg := del s.reg (unitKey core w), die := del s.die (unitKey (coreDie core) w) }
  | _ => return { s with reg := del s.reg (unitKey core w) }

/-- An indivisible update in device memory or a coherent host line (R169): every older write to the words is placed, the
newest value is read, and the new one, if any, is placed in the same step: up to scope die at the L2 slice of the issuing die,
where the value stays if the die owns the line in a writable state, and wider at the home slice; on a coherent host line while
the home holds it in E or M (R416). -/
def homeUpdate (s : State) (core a n : Nat) (grain slot sc : Nat) (f : Nat → Option Nat) : Except MErr (State × Nat) := do
  if poisoned s a n then throw (.stop cPOISON 0)
  let d := coreDie core
  let ws := (List.range (n / 4)).map fun i => a + 4 * i
  let s ← if hostTag ≤ a then hostGate s grain a true else .ok s
  let s ← ws.foldlM (fun s w => dieTake s core w) s
  let s := ws.foldl (fun s w => flushWord s d w) s
  let (s, old) ← readWords (fun s w => dieRead s d w grain slot) s a (n / 4)
  match f old with
  | none => return (s, old)
  | some new =>
    let (s, _) ← placeGroup s d grain slot ((List.range (n / 4)).map fun i => (a + 4 * i, BitVec.ofNat 32 (new / 2 ^ (32 * i))))
      none (4 ≤ sc && a < hostTag)
    return (s, old)

/-- What a request on the plain PCIe path can carry (R169). -/
inductive HostAtom where
  | op | none | bar
deriving DecidableEq, Repr

/-- What the plain PCIe path refuses of an update (R169, R176, R404): the requester has FetchAdd and Swap of 64 bits and CAS alone
(R392), so that a 32-bit amo is one it lacks: DEDUCED (log entry 58). -/
def atomRefused (s : State) (h : HostAtom) (n : Nat) : Except MErr Unit :=
  match h with
  | .none => .error (.stop cHOST_ABORT 0x02)
  | .bar => .error (.stop cHOST_ABORT 0x03)
  | .op =>
    if n < 8 then .error (.stop cHOST_ABORT 0x02)
    else if !s.link.atomicEnable then .error (.stop cHOST_ABORT 0x08)
    else .ok ()

/-- An atomic request on the plain path fails where its completion is to; Unsupported Request of one of 16 bytes says that the
completer has no 128-bit CAS (R169, R404). -/
def atomOk (s : State) (who : Asker) (n : Nat) : Except MErr Unit :=
  match requestOk s who false with
  | .error (.stop c sub a l) => .error (.stop c (if n = 16 ∧ sub = 0x05 then 0x01 else sub) a l)
  | r => r

/-- An indivisible update of `n` bytes at the place R169 gives for its scope; `f` gives the new value, or none to write
nothing. -/
def accUpdate (s : State) (g : Agent) (x : Xl) (n sc : Nat) (h : HostAtom) (f : Nat → Option Nat) :
    Except MErr (State × Nat) := do
  slotCheck s x
  if asksHost s x && (!x.host || coherent s g.part) then requestOk s g.who false
  if x.host then
    if coherent s g.part then
      if !s.cxl.cache then throw (.stop cHOST_ABORT 0x09)
      else homeUpdate s g.core (hostTag + x.pa) n x.grain x.slot sc f
    else do
      atomRefused s h n
      atomOk s g.who n
      let (s, h) ← atsLookup s g.who (fnOf g.part) g.space.toNat x.pa x.va .rw
      let old := Memory.readN s.hostMem h n
      return (match f old with
        | some v => { s with hostMem := Memory.writeN s.hostMem h n v }
        | none => s, old)
  else if x.dev ≠ 0 then do
    let d ← peerRoute s g.who x.dev true
    let old := Memory.readN s.peerMem (peerKey d x.pa) n
    if timedOut s g.who then
      throw (inDoubt s fun s => match f old with
        | some v => peerStore s (peerKey d x.pa) n v (peerLine x)
        | none => s)
    match f old with
    | some v => do
      let s ← peerWrite s (peerLine x)
      return ({ s with peerMem := Memory.writeN s.peerMem (peerKey d x.pa) n v }, old)
    | none => return (s, old)
  else homeUpdate s g.core x.pa n x.grain x.slot sc f

/-- The new value of an atomic update at a width of `n` bytes (R167, R219). -/
def amoResult (o : AmoOp) (n old v : Nat) : Nat :=
  let m := 2 ^ (8 * n)
  let sg := fun (x : Nat) => signedOf (8 * n) x
  match o with
  | .add => (old + v) % m
  | .and => Nat.land old (v % m)
  | .or => Nat.lor old (v % m)
  | .xor => Nat.xor old (v % m)
  | .min => if sg v < sg old then v % m else old
  | .max => if sg old < sg v then v % m else old
  | .minu => min old (v % m)
  | .maxu => max old (v % m)
  | .swap => v % m

/-- An amo other than add and swap has no PCIe AtomicOp (R169). -/
def AmoOp.hostAtom (o : AmoOp) : HostAtom := match o with | .add | .swap => .op | _ => .none

/-- An arrival of `amt` at a barrier word (R176): none where the word does not change. -/
def arriveWord (w amt : Nat) : Option Nat :=
  let rem := w % 2 ^ 32
  let gen := w / 2 ^ 32 % 2 ^ 16
  if amt = 0 then none
  else if rem = 0 then some (setField w 56 1 1)
  else if rem < amt then some (setField (setField (setField w 56 1 1) 0 32 0) 32 16 (gen + 1))
  else
    let w' := setField w 0 32 (rem - amt)
    some (if rem = amt then setField w' 32 16 (gen + 1) else w')

/-! ## Stash pieces (R179) -/

/-- The words an access covers. -/
def wordsOf (a n : Nat) : List Nat := (List.range ((a % 4 + n + 3) / 4)).map fun i => a / 4 * 4 + 4 * i

/-- The words of the 512-byte block of an address. -/
def blockWords (a : Nat) : List Nat := (List.range 128).map fun i => a / 512 * 512 + 4 * i

/-- The ordering machine holds the bytes of an access: device memory, or a host line on the coherent path (R298). -/
def cachedAt (s : State) (q : Nat) (x : Xl) : Option Nat := cachedPlace s (s.pnum q) x

/-- The window of a core, by number, and its piece that an address of a partition and space lies in (R179). -/
def pieceAt (s : State) (core p : Nat) (space : BitVec 16) (va : Word) : Option (Nat × Nat) :=
  ((List.range 4).find? fun i =>
    let w := vget (s.core core).wins i {}
    w.valid && w.part == p && w.space == space && decide (w.base.toNat ≤ va.toNat)
      && decide (va.toNat < w.base.toNat + 512 * w.pieces)).map fun i =>
    (i, (va.toNat - (vget (s.core core).wins i {}).base.toNat) / 512)

/-- A window of a core becomes `w`. -/
def setWin (s : State) (core i : Nat) (w : Win) : State :=
  s.setCore core { s.core core with wins := vset (s.core core).wins i w }

/-- A piece fills on first touch (R179): its words enter the core's registry as copies, and the window keeps where it lies. -/
def fillFor (s : State) (q core : Nat) (space : BitVec 16) (x : Xl) : State :=
  match pieceAt s core (s.pnum q) space x.va, cachedAt s q x with
  | some (i, k), some a =>
    let w := vget (s.core core).wins i {}
    if w.filled.any fun f => f.1 == k then s
    else
      let s := setWin s core i { w with filled := put w.filled k { x with pa := x.pa / 512 * 512, va := x.va &&& ~~~(511 : Word) } }
      (blockWords a).foldl (fun s u => keepCopy s core u x.grain x.slot) { s with stamp := s.stamp + 1 }
  | _, _ => s

/-- An access of a sequencer touches the piece it lies in. -/
def fillPiece (s : State) (q : Nat) (x : Xl) : State := fillFor s q (q / 4) (s.ctx q).space x

/-- The dirty words of a filled piece are written back to the die point and placed at their homes (R179); the core keeps copies of
them, or with `drop` the piece leaves the registry. -/
def pieceBack (s : State) (q core : Nat) (drop : Bool) (x : Xl) : Except MErr State :=
  match cachedAt s q x with
  | none => .ok s
  | some a => (blockWords a).foldlM (fun s w => do
      match find s.reg (unitKey core w) with
      | none => return s
      | some r =>
        if !r.registered then return if drop then { s with reg := del s.reg (unitKey core w) } else s
        else if drop then dieTake s core w
        else do
          let (s, _) ← registerWord s core w
          let (s, _) ← exportWord s (coreDie core) w
          return giveDie s (coreDie core) w) s

/-- The pieces of a window that a test names are written back and dropped. -/
def dropPieces (s : State) (q core i : Nat) (p : Nat → Bool) : Except MErr State := do
  let w := vget (s.core core).wins i {}
  let s ← (w.filled.filter fun f => p f.1).foldlM (fun s f => pieceBack s q core true f.2) s
  return setWin s core i { w with filled := w.filled.filter fun f => !p f.1 }

end Sys2Proof.Machine
end

