-- ==== Sys2Proof/Machine/Alu.lean ====
section
/-!
DEFINITION. Scalar arithmetic (R135 to R141): the register and immediate forms of opcodes 0x01 to 0x09. In lane mode they
act on the lane's slots (R38).
-/
namespace Sys2Proof.Machine

/-- A two-source form (R136): both sources are read, then the result written. -/
def alu2 (w : Nat) (x : Alu2) (f : Word → Word → Word) (s : State) : Out := settle s do
  let a ← readS s x.a.val x.ea w
  let b ← readS s x.b.val x.eb w
  freeDest s x.d.val
  return s.withC (s.c.put x.d.val (f a b)).advance

/-- A one-source form with a value computed from it (R136, R139). -/
def alu1 (w a d : Nat) (e : Bool) (f : Word → Word) (s : State) : Out := settle s do
  let v ← readS s a e w
  freeDest s d
  return s.withC (s.c.put d (f v)).advance

/-- A divide or remainder (R137, R138): the destination is empty until the result is written; in lockstep that is at
once, and in lane mode before the lane issues again. -/
def divide (w : Nat) (x : Alu2) (f : Word → Word → Word) (s : State) : Out := settle s do
  let a ← readS s x.a.val x.ea w
  let b ← readS s x.b.val x.eb w
  freeDest s x.d.val
  let c := s.c
  if s.lockstep || c.laneOn then return s.withC (c.put x.d.val (f a b)).advance
  else return s.withC ({ c with divs := c.divs ++ [(x.d.val, f a b, c.ord)] }.empty x.d.val).advance

/-- The shift amount: bits 5:0 (R136). -/
abbrev amount (b : Word) : Nat := b.toNat % 64

/-- 1 if the condition holds, else 0. -/
abbrev flagWord (b : Bool) : Word := if b then 1 else 0

/-- The two's complement value of a word. -/
abbrev sgn (a : Word) : Int := a.toInt

/-- A word of an integer, modulo 2^64. -/
abbrev ofI (i : Int) : Word := BitVec.ofInt 64 i

/-- Signed quotient and remainder (R137). -/
def sdivRem (a b : Word) : Word × Word :=
  if b = 0 then (BitVec.allOnes 64, a)
  else if sgn a = -(2 ^ 63 : Int) ∧ sgn b = -1 then (a, 0)
  else (ofI (Int.tdiv (sgn a) (sgn b)), ofI (Int.tmod (sgn a) (sgn b)))

/-- Unsigned quotient and remainder (R137). -/
def udivRem (a b : Word) : Word × Word :=
  if b = 0 then (BitVec.allOnes 64, a) else (word (a.toNat / b.toNat), word (a.toNat % b.toNat))

/-- Leading zero bits, 64 for zero (R136). -/
def clzOf (a : Word) : Word := if a = 0 then 64 else word (63 - Nat.log2 a.toNat)

/-- Trailing zero bits counted over at most `k` bits. -/
def ctzFrom : Nat → Nat → Nat
  | 0, _ => 0
  | k + 1, n => if n % 2 = 1 then 0 else 1 + ctzFrom k (n / 2)

/-- One bits among the low `k` bits. -/
def popFrom : Nat → Nat → Nat
  | 0, _ => 0
  | k + 1, n => n % 2 + popFrom k (n / 2)

/-- The low `k` bytes of `n` in reverse order, above `acc`. -/
def swapBytes : Nat → Nat → Nat → Nat
  | 0, _, acc => acc
  | k + 1, n, acc => swapBytes k (n / 256) (acc * 256 + n % 256)

/-- The low `k` bits of a word, sign-extended. -/
def sextBits (k : Nat) (a : Word) : Word := ofI (signedOf k a.toNat)

/-- A signed immediate as a word (R88). -/
abbrev immWord {n : Nat} (i : BitVec n) : Word := i.signExtend 64

/-- setk keeps the other slots, setz clears them (R140); setk reads s[d] with E = 0. -/
def setConst (w : Nat) (x : SetK) (keep : Bool) (s : State) : Out := settle s do
  let old ← if keep then readS s x.d.val false w else .ok 0
  freeDest s x.d.val
  return s.withC (s.c.put x.d.val (word (setField (if keep then old.toNat else 0) (16 * x.slot.val) 16 x.imm.toNat))).advance

/-- add (R136). -/
def execAdd (x : Alu2) (s : State) : Out := alu2 (0x00000001 + x.enc) x (fun a b => a + b) s

/-- sub (R136). -/
def execSub (x : Alu2) (s : State) : Out := alu2 (0x08000001 + x.enc) x (fun a b => a - b) s

/-- and (R136). -/
def execAnd (x : Alu2) (s : State) : Out := alu2 (0x10000001 + x.enc) x (fun a b => a &&& b) s

/-- or (R136). -/
def execOr (x : Alu2) (s : State) : Out := alu2 (0x18000001 + x.enc) x (fun a b => a ||| b) s

/-- xor (R136). -/
def execXor (x : Alu2) (s : State) : Out := alu2 (0x20000001 + x.enc) x (fun a b => a ^^^ b) s

/-- andn (R136). -/
def execAndn (x : Alu2) (s : State) : Out := alu2 (0x28000001 + x.enc) x (fun a b => a &&& ~~~b) s

/-- orn (R136). -/
def execOrn (x : Alu2) (s : State) : Out := alu2 (0x30000001 + x.enc) x (fun a b => a ||| ~~~b) s

/-- shl (R136). -/
def execShl (x : Alu2) (s : State) : Out := alu2 (0x38000001 + x.enc) x (fun a b => a <<< amount b) s

/-- shr (R136). -/
def execShr (x : Alu2) (s : State) : Out := alu2 (0x40000001 + x.enc) x (fun a b => a >>> amount b) s

/-- sar (R136). -/
def execSar (x : Alu2) (s : State) : Out := alu2 (0x48000001 + x.enc) x (fun a b => a.sshiftRight (amount b)) s

/-- rol (R136). -/
def execRol (x : Alu2) (s : State) : Out := alu2 (0x50000001 + x.enc) x (fun a b => a.rotateLeft (amount b)) s

/-- ror (R136). -/
def execRor (x : Alu2) (s : State) : Out := alu2 (0x58000001 + x.enc) x (fun a b => a.rotateRight (amount b)) s

/-- slt (R136). -/
def execSlt (x : Alu2) (s : State) : Out := alu2 (0x60000001 + x.enc) x (fun a b => flagWord (a.slt b)) s

/-- sltu (R136). -/
def execSltu (x : Alu2) (s : State) : Out := alu2 (0x68000001 + x.enc) x (fun a b => flagWord (a.ult b)) s

/-- min (R136). -/
def execMin (x : Alu2) (s : State) : Out := alu2 (0x70000001 + x.enc) x (fun a b => if b.slt a then b else a) s

/-- max (R136). -/
def execMax (x : Alu2) (s : State) : Out := alu2 (0x78000001 + x.enc) x (fun a b => if a.slt b then b else a) s

/-- minu (R136). -/
def execMinu (x : Alu2) (s : State) : Out := alu2 (0x80000001 + x.enc) x (fun a b => if b.ult a then b else a) s

/-- maxu (R136). -/
def execMaxu (x : Alu2) (s : State) : Out := alu2 (0x88000001 + x.enc) x (fun a b => if a.ult b then b else a) s

/-- mul (R136). -/
def execMul (x : Alu2) (s : State) : Out := alu2 (0x90000001 + x.enc) x (fun a b => a * b) s

/-- mulh (R136). -/
def execMulh (x : Alu2) (s : State) : Out := alu2 (0x98000001 + x.enc) x (fun a b => ofI (sgn a * sgn b / 2 ^ 64)) s

/-- mulhu (R136). -/
def execMulhu (x : Alu2) (s : State) : Out := alu2 (0xA0000001 + x.enc) x (fun a b => word (a.toNat * b.toNat / 2 ^ 64)) s

/-- div (R137). -/
def execDiv (x : Alu2) (s : State) : Out := divide (0xA8000001 + x.enc) x (fun a b => (sdivRem a b).1) s

/-- divu (R137). -/
def execDivu (x : Alu2) (s : State) : Out := divide (0xB0000001 + x.enc) x (fun a b => (udivRem a b).1) s

/-- rem (R137). -/
def execRem (x : Alu2) (s : State) : Out := divide (0xB8000001 + x.enc) x (fun a b => (sdivRem a b).2) s

/-- remu (R137). -/
def execRemu (x : Alu2) (s : State) : Out := divide (0xC0000001 + x.enc) x (fun a b => (udivRem a b).2) s

/-- clz (R136). -/
def execClz (x : Alu1) (s : State) : Out := alu1 (0xF8000001 + x.enc) x.a.val x.d.val x.ea clzOf s

/-- ctz (R136). -/
def execCtz (x : Alu1) (s : State) : Out := alu1 (0xF8020001 + x.enc) x.a.val x.d.val x.ea (fun a => word (ctzFrom 64 a.toNat)) s

/-- popc (R136). -/
def execPopc (x : Alu1) (s : State) : Out := alu1 (0xF8040001 + x.enc) x.a.val x.d.val x.ea (fun a => word (popFrom 64 a.toNat)) s

/-- bswap (R136). -/
def execBswap (x : Alu1) (s : State) : Out := alu1 (0xF8060001 + x.enc) x.a.val x.d.val x.ea (fun a => word (swapBytes 8 a.toNat 0)) s

/-- sext.b (R136). -/
def execSextB (x : Alu1) (s : State) : Out := alu1 (0xF8080001 + x.enc) x.a.val x.d.val x.ea (sextBits 8) s

/-- sext.h (R136). -/
def execSextH (x : Alu1) (s : State) : Out := alu1 (0xF80A0001 + x.enc) x.a.val x.d.val x.ea (sextBits 16) s

/-- sext.w (R136). -/
def execSextW (x : Alu1) (s : State) : Out := alu1 (0xF80C0001 + x.enc) x.a.val x.d.val x.ea (sextBits 32) s

/-- zext.w (R136). -/
def execZextW (x : Alu1) (s : State) : Out := alu1 (0xF80E0001 + x.enc) x.a.val x.d.val x.ea (fun a => word (a.toNat % 2 ^ 32)) s

/-- addi (R139). -/
def execAddi (x : ImmI) (s : State) : Out := 
  alu1 (0x00000002 + x.enc) x.a.val x.d.val x.ea (fun a => a + immWord x.imm) s

/-- andi (R139). -/
def execAndi (x : ImmI) (s : State) : Out := 
  alu1 (0x00000003 + x.enc) x.a.val x.d.val x.ea (fun a => a &&& immWord x.imm) s

/-- ori (R139). -/
def execOri (x : ImmI) (s : State) : Out := 
  alu1 (0x00000004 + x.enc) x.a.val x.d.val x.ea (fun a => a ||| immWord x.imm) s

/-- xori (R139). -/
def execXori (x : ImmI) (s : State) : Out := 
  alu1 (0x00000005 + x.enc) x.a.val x.d.val x.ea (fun a => a ^^^ immWord x.imm) s

/-- shli (R139). -/
def execShli (x : ShI) (s : State) : Out := 
  alu1 (0x00000006 + x.enc) x.a.val x.d.val x.ea (fun a => a <<< x.amt.toNat) s

/-- shri (R139). -/
def execShri (x : ShI) (s : State) : Out := 
  alu1 (0x01000006 + x.enc) x.a.val x.d.val x.ea (fun a => a >>> x.amt.toNat) s

/-- sari (R139). -/
def execSari (x : ShI) (s : State) : Out := 
  alu1 (0x02000006 + x.enc) x.a.val x.d.val x.ea (fun a => a.sshiftRight x.amt.toNat) s

/-- roli (R139). -/
def execRoli (x : ShI) (s : State) : Out := 
  alu1 (0x03000006 + x.enc) x.a.val x.d.val x.ea (fun a => a.rotateLeft x.amt.toNat) s

/-- slti (R139). -/
def execSlti (x : SltI) (s : State) : Out := 
  alu1 (0x00000007 + x.enc) x.a.val x.d.val x.ea (fun a => flagWord (a.slt (immWord x.imm))) s

/-- sltiu (R139). -/
def execSltiu (x : SltI) (s : State) : Out := 
  alu1 (0x80000007 + x.enc) x.a.val x.d.val x.ea (fun a => flagWord (a.ult (immWord x.imm))) s

/-- setk (R140). -/
def execSetk (x : SetK) (s : State) : Out := setConst (0x00000008 + x.enc) x true s

/-- setz (R140). -/
def execSetz (x : SetK) (s : State) : Out := setConst (0x00004008 + x.enc) x false s

/-- addpc (R141). -/
def execAddpc (x : OffD) (s : State) : Out := settle s do
  freeDest s x.d.val
  return s.withC (s.c.put x.d.val ((s.pc &&& ~~~(0xFFF : Word)) + (immWord x.off <<< 12))).advance

end Sys2Proof.Machine
end

