-- ==== Sys2Proof/Machine/VElem.lean ====
section
/-!
DEFINITION. Vector arithmetic on elements (R106, R187 to R208, R220 to R224, R228): the value of each operation at an
element, the flags it sets and the lane they enter (R124), reductions (R132, R133) and the whole-register forms.
-/
namespace Sys2Proof.Machine

/-! ## Elements of registers -/

/-- The captured configuration of a register. -/
abbrev VqEntry.reg (e : VqEntry) (r : Nat) : VCfg := vget e.cfg r {}
abbrev VqEntry.tag (e : VqEntry) (r : Nat) : Nat := (e.reg r).tag.toNat
abbrev VqEntry.grp (e : VqEntry) (r : Nat) : Nat := (e.reg r).grp.val

/-- Element `i` of width `ew` of the group at `r` (R106). -/
def elemGet (v : Vector (BitVec 4096) 32) (r i ew : Nat) : Nat :=
  (vget v (r + i / (4096 / ew)) 0).toNat / 2 ^ (ew * (i % (4096 / ew))) % 2 ^ ew

/-- Element `i` of width `ew` of the group at `r` becomes `x` (R106). -/
def elemPut (v : Vector (BitVec 4096) 32) (r i ew x : Nat) : Vector (BitVec 4096) 32 :=
  let j := r + i / (4096 / ew)
  vset v j (BitVec.ofNat 4096 (setField (vget v j 0).toNat (ew * (i % (4096 / ew))) ew x))

/-- The lane that holds element `i` of width `ew` (R106). -/
def laneOf (ew i : Nat) : Nat := i % (4096 / ew) * ew / 64

/-- An element of a register under an instruction's captured configuration. -/
def Ctx.elem (c : Ctx) (e : VqEntry) (r i : Nat) : Nat := elemGet c.v r i (ewOf (e.tag r))

/-- Bits 7:6 of an E3M2 or E2M3 element are written as zero (R106). -/
def cutElem (t x : Nat) : Nat := if t = tE3M2 ∨ t = tE2M3 then x % 64 else x

/-- Element `i` is active under the governing mask (R104). -/
def Ctx.active (c : Ctx) (e : VqEntry) (i : Nat) : Bool := (c.getK e.form.k).getLsbD i

/-- An ARITH raised by a member of the chain at a place from its oldest on: the oldest raising member keeps it (R125). -/
def olderArith (a : Option (Nat × Word)) (i : Nat) (ipc : Word) : Option (Nat × Word) :=
  match a with
  | some (j, pc) => if i < j then some (i, ipc) else some (j, pc)
  | none => some (i, ipc)

/-- Flags set for an element enter flags and the record of its lane; an enabled one raises ARITH for the oldest raising
member (R123 to R125). -/
def Ctx.sticky (c : Ctx) (e : VqEntry) (lane : Nat) (f : FlagSet) : Ctx :=
  if f = 0 then c
  else { c with
    flags := c.flags ||| f.setWidth 15
    lflag := vset c.lflag lane (vget c.lflag lane 0 ||| f)
    runArith := if (f &&& (c.flags >>> 8).setWidth 7) ≠ 0 then olderArith c.runArith (c.run.findIdx (·.ord == e.ord)) e.ipc
      else c.runArith }

/-- An element is written; FP6 elements are written with bits 7:6 zero (R106), and a T2 element that would be 0b10, which reads
as 0, is written as 0 with TR (R109). -/
def Ctx.putElem (c : Ctx) (e : VqEntry) (r i x : Nat) : Ctx :=
  let t := e.tag r
  if t = tT2 ∧ x % 4 = 2 then ({ c with v := elemPut c.v r i 2 0 } : Ctx).sticky e (laneOf 2 i) fTR
  else { c with v := elemPut c.v r i (ewOf t) (cutElem t x) }

/-- An element is written with raw bits as they are, and no flag is set (R196, R208, R223): what R109 says of the codes an
instruction writes is taken not to reach these forms, DEDUCED (log entry 32). -/
def Ctx.putRaw (c : Ctx) (e : VqEntry) (r i x : Nat) : Ctx := { c with v := elemPut c.v r i (ewOf (e.tag r)) x }

/-- An element is written with the flags it sets, in the lane of the destination (R124). -/
def Ctx.result (c : Ctx) (e : VqEntry) (i : Nat) (r : Nat × FlagSet) : Ctx :=
  (c.putElem e e.form.d i r.1).sticky e (laneOf (ewOf (e.tag e.form.d)) i) r.2

/-- A mask bit is written; a write to k0 is discarded. -/
def Ctx.putBit (c : Ctx) (k i : Nat) (b : Bool) : Ctx := c.setK k (setBit (c.getK k) i b)

/-! ## Operations -/

/-- An operation on I16X2 works on each half as I16 (R108, R191). -/
def onHalves (f : Nat → Nat → Nat × FlagSet) (a b : Nat) : Nat × FlagSet :=
  let (x, p) := f (a % 2 ^ 16) (b % 2 ^ 16)
  let (y, q) := f (a / 2 ^ 16 % 2 ^ 16) (b / 2 ^ 16 % 2 ^ 16)
  (x % 2 ^ 16 + 2 ^ 16 * (y % 2 ^ 16), p ||| q)

/-- The integer operations of R191 at a tag of one integer. -/
def intBin (o : BinOp) (t a b : Nat) : Nat × FlagSet :=
  let ew := ewOf t
  let x := intOf t a
  let y := intOf t b
  let sh := b % ew
  match o with
  | .add => (wrapTo ew (x + y), 0)
  | .sub => (wrapTo ew (x - y), 0)
  | .mul => (wrapTo ew (x * y), 0)
  | .min => (wrapTo ew (min x y), 0)
  | .max => (wrapTo ew (max x y), 0)
  | .and => (Nat.land a b, 0)
  | .or => (Nat.lor a b, 0)
  | .xor => (Nat.xor a b, 0)
  | .shl => (a * 2 ^ sh % 2 ^ ew, 0)
  | .shr => (a / 2 ^ sh, 0)
  | .sar => (wrapTo ew (signedOf ew a / (2 ^ sh : Nat)), 0)
  | .abd => satTo t |x - y|
  | .avg => (wrapTo ew ((x + y + 1) / 2), 0)
  | .adds => satTo t (x + y)
  | .subs => satTo t (x - y)
  | .mulh => (wrapTo ew (x * y / (2 ^ ew : Nat)), 0)

/-- The floating operations of R192. -/
def floatBin (o : BinOp) (t a b rm l : Nat) : Nat × FlagSet :=
  let x := valOf t a
  let y := valOf t b
  let rounded := fun (r : Val × FlagSet) =>
    let (n, f) := roundTo t r.1 rm l
    (n, f ||| r.2)
  let pick := fun (lesser : Bool) =>
    if x.isNaN || y.isNaN then ((canonNaN t).getD 0, sigFlag x ||| sigFlag y)
    else (if ltVal y x true == lesser then b else a, (0 : FlagSet))
  match o with
  | .add => rounded (addVal x y rm)
  | .sub => rounded (addVal x y.negate rm)
  | .mul => rounded (mulVal x y)
  | .abd => let (v, f) := addVal x y.negate rm
    rounded (v.abs, f)
  | .avg => let (v, f) := addVal x y rm
    rounded (v.shift (-1), f)
  | .min => pick true
  | .max => pick false
  | _ => (0, 0)

/-- An element operation of opcodes 0x20 to 0x22 at a tag (R191, R192). -/
def binOp (o : BinOp) (t a b rm l : Nat) : Nat × FlagSet :=
  if t = tI16X2 then onHalves (intBin o tI16) a b
  else if isINT t then intBin o t a b
  else floatBin o t a b rm l

/-- An immediate of opcode 0x22 as raw bits of a tag (R187). -/
def immBits (t : Nat) (i : Int) : Nat :=
  if t = tI16X2 then wrapTo 16 i + 2 ^ 16 * wrapTo 16 i
  else if isFPW t then (roundTo t (.ofInt i) 0 0).1
  else wrapTo (ewOf t) i

/-- The fused forms of R193. -/
def fmaOp (negProd negAcc : Bool) (t a b c rm l : Nat) : Nat × FlagSet :=
  let one := fun (u a b c : Nat) =>
    let p := intOf u a * intOf u b
    let s := if negProd then -p else p
    wrapTo (ewOf u) (if negAcc then s - intOf u c else s + intOf u c)
  if t = tI16X2 then
    (one tI16 (a % 2 ^ 16) (b % 2 ^ 16) (c % 2 ^ 16)
      + 2 ^ 16 * one tI16 (a / 2 ^ 16) (b / 2 ^ 16) (c / 2 ^ 16), 0)
  else if isINT t then (one t a b c, 0)
  else
    let (v, f) := fmaVal (valOf t a) (valOf t b) (valOf t c) negProd negAcc rm
    let (n, g) := roundTo t v rm l
    (n, f ||| g)

/-- The widening multiply-add of R194. -/
def macwOp (ta td a b c rm l : Nat) : Nat × FlagSet :=
  if ta = tI16X2 then
    satTo tI32 (signedOf 16 a * signedOf 16 b + signedOf 16 (a / 2 ^ 16) * signedOf 16 (b / 2 ^ 16) + signedOf 32 c)
  else if isINT ta then satTo td (intOf ta a * intOf ta b + intOf td c)
  else
    let (v, f) := fmaVal (valOf ta a) (valOf ta b) (valOf td c) false false rm
    let (n, g) := roundTo td v rm l
    (n, f ||| g)

/-- The compares of R195. -/
def cmpElem (o : CmpOp) (t a b : Nat) : Bool × FlagSet :=
  let x := valOf t a
  let y := valOf t b
  let nan := x.isNaN || y.isNaN
  let lt := ltVal x y false
  let gt := ltVal y x false
  let quiet := sigFlag x ||| sigFlag y
  let loud : FlagSet := if nan then fNV else 0
  match o with
  | .eq => (!nan && !lt && !gt, quiet)
  | .ne => (nan || lt || gt, quiet)
  | .lt => (!nan && lt, loud)
  | .le => (!nan && !gt, loud)
  | .gt => (!nan && gt, loud)
  | .ge => (!nan && !lt, loud)
  | .un => (nan, quiet)

/-- The value of a source element of vcvt (R128, R197): `s` is the scale code of a scaled source. One that goes to an unscaled
destination of its own tag is read so too and rounded, not copied: R197 says both of equal tags, a DESIGN CHOICE (log entry 98). -/
def cvtSource (ta n : Nat) (s : Option Nat) : Val :=
  match s with
  | none => valOf ta n
  | some sc => if sc = 255 then .nan false else (mxVal ta n).shift ((sc : Int) - 127)

/-- A conversion of a value to an element (R114 to R118, R197); integers go through sat. -/
def cvtTo (td : Nat) (x : Val) (int : Option Int) (rm l : Nat) : Nat × FlagSet :=
  if isINT td then
    match int with
    | some i => satTo td i
    | none => floatToInt td x rm l
  else roundTo td x rm l

/-- The rounding right shift of R199. -/
def shrrOp (ta td a b : Nat) : Nat × FlagSet :=
  let one := fun (u d a b : Nat) =>
    let m := b % ewOf u
    let x := intOf u a
    satTo d (if m = 0 then x else (x + (2 ^ (m - 1) : Nat)) / (2 ^ m : Nat))
  if ta = tI16X2 then onHalves (one tI16 tI16) a b else one ta td a b

/-- The math forms of R200. -/
def mathOp (o : MathOp) (t a b rm l : Nat) : Nat × FlagSet :=
  if isINT t then
    let x := intOf t a
    let y := intOf t b
    (if y = 0 then 2 ^ ewOf t - 1 else wrapTo (ewOf t) (Int.tdiv x y), 0)
  else
    let x := valOf t a
    let (v, f) := match o with
      | .div => divVal x (valOf t b)
      | .sqrt => sqrtVal x
      | .rcp => divVal (.ofInt 1) x
      | .rsqrt => rsqrtVal x
      | .exp2 => exp2Val x
      | .log2 => log2Val x
    let (n, g) := roundTo t v rm l
    (n, f ||| g)

/-- Raw bits as the moves of R204 write them: FP6 bits 7:6 zero; the T2 code 0b10 becomes 0b00 and sets TR. -/
def moveBits (t n : Nat) : Nat × FlagSet :=
  if t = tT2 ∧ n % 4 = 2 then (0, fTR)
  else if t = tE3M2 ∨ t = tE2M3 then (n % 64, 0)
  else (n % 2 ^ ewOf t, 0)

/-- The immediate of vsplati at a tag (R204); none where a T2 register cannot hold it. -/
def splatBits (t : Nat) (i : Int) : Option (Nat × FlagSet) :=
  if t = tT2 then
    if i = 0 then some (0, 0) else if i = 1 then some (1, 0) else if i = -1 then some (3, 0) else none
  else if t = tI16X2 then some (wrapTo 16 i + 2 ^ 16 * wrapTo 16 i, 0)
  else if isINT t ∨ t = tNONE then some (wrapTo (ewOf t) i, 0)
  else some (roundTo t (.ofInt i) 0 0)

/-- Ternary products of a block of 32 (R203): `t` holds the T2 source and `x` the I8 source. -/
def signBlock (v : Vector (BitVec 4096) 32) (t x i : Nat) : Int × FlagSet :=
  (List.range 32).foldl (fun (p, f) k =>
    let (w, g) := t2Val (elemGet v t (32 * i + k) 2)
    (p + w * signedOf 8 (elemGet v x (32 * i + k) 8), f ||| g)) (0, 0)

/-- Whether an element counts as non-zero in kfrom (R224). -/
def nonZero (t n : Nat) : Bool × FlagSet :=
  if t = tT2 then (n % 4 == 1 || n % 4 == 3, if n % 4 = 2 then fTR else 0)
  else if isFPW t ∨ isFPN t then (!(valOf t n).isZero, 0)
  else (n != 0, 0)

/-- The scale code of block `j` of a scaled register: byte `j` of its companion's group (R127). -/
def scaleOf (c : Ctx) (e : VqEntry) (r j : Nat) : Option Nat :=
  if (e.reg r).scaled then some (elemGet c.v (e.reg r).comp.val j 8) else none

/-- The element's integer value where the source is an unscaled integer. -/
def intSource (ta n : Nat) (scaled : Bool) : Option Int := if isINT ta && !scaled then some (intOf ta n) else none

/-- Whether an instruction draws from lfsr (R121, R122): it rounds with RSR, on a floating tag, or is a vcvt under RSR
whatever its tags (R197). -/
def VqEntry.rsr (e : VqEntry) : Bool :=
  let f := e.form
  let fl := fun t => isFPW t || isFPN t || t == tE8M0
  f.op.mode e.rm.toNat == 5 && match f.op with
    | .bin .. | .fma .. | .macw | .math _ => fl (e.tag f.d)
    | .cvt _ | .tepi => true
    | _ => false

/-- L_i: lfsr stepped `i` times from its value at the start (R121). -/
def draw (c : Ctx) (e : VqEntry) (i : Nat) : Nat := if e.rsr then (lfsrSteps c.lfsr i).toNat else 0

/-- One element of an Element-class form that touches no memory (R190 to R204, R224, R228). -/
def Ctx.element (c : Ctx) (e : VqEntry) (i : Nat) : Ctx :=
  let f := e.form
  let rm := f.op.mode e.rm.toNat
  let td := e.tag f.d
  let ta := e.tag f.a
  let a := fun (_ : Unit) => c.elem e f.a i
  let b := fun (_ : Unit) => c.elem e f.b i
  let d := fun (_ : Unit) => c.elem e f.d i
  let l := fun (_ : Unit) => draw c e i
  let on := c.active e i
  match f.op with
  | .bin o src =>
    if on then
      let y := match src with
        | .vec => b ()
        | .scal => e.x1.toNat % 2 ^ ewOf td
        | .imm => match o with
          | .shl | .shr | .sar =>
            if td = tI16X2 then f.imm.toNat + 2 ^ 16 * f.imm.toNat else f.imm.toNat
          | _ => immBits td f.imm
      c.result e i (binOp o td (a ()) y rm (l ()))
    else c
  | .fma p n => if on then c.result e i (fmaOp p n td (a ()) (b ()) (d ()) rm (l ())) else c
  | .macw => if on then c.result e i (macwOp ta td (a ()) (b ()) (d ()) rm (l ())) else c
  | .cmp o =>
    if on then
      let (r, g) := cmpElem o ta (a ()) (b ())
      (c.putBit f.d i r).sticky e (laneOf (ewOf ta) i) g
    else c
  | .sel => c.putRaw e f.d i (if on then b () else a ())
  | .cvt _ =>
    if on then
      let s := scaleOf c e f.a (i / 32)
      c.result e i (cvtTo td (cvtSource ta (a ()) s) (intSource ta (a ()) s.isSome) rm (l ()))
    else c
  | .shrr sc _ => if on then c.result e i (shrrOp ta td (a ()) (if sc then e.x1.toNat % 2 ^ ewOf ta else b ())) else c
  | .math o => if on then c.result e i (mathOp o td (a ()) (if o = .div then b () else 0) rm (l ())) else c
  | .sign =>
    if on then
      let (p, g) := if ta = tT2 then signBlock c.v f.a f.b i else signBlock c.v f.b f.a i
      let (n, h) := satTo tI32 (signedOf 32 (d ()) + p)
      c.result e i (n, g ||| h)
    else c
  | .mov => if on then c.result e i (moveBits td (a ())) else c
  | .splat => if on then c.result e i (moveBits td (e.x1.toNat % 2 ^ ewOf td)) else c
  | .splati => if on then
      match splatBits td f.imm with
      | some r => c.result e i r
      | none => c
    else c
  | .klog o =>
    let x := (c.getK f.a).getLsbD i
    let y := (c.getK f.b).getLsbD i
    c.putBit f.d i (match o with
      | .and => x && y
      | .or => x || y
      | .xor => x ^^ y
      | .not => !x
      | .andn => x && !y)
  | .kfrom =>
    let (r, g) := nonZero ta (a ())
    (c.putBit f.d i r).sticky e (laneOf (ewOf ta) i) g
  | .vlk =>
    match splatBits td (if (c.getK f.a).getLsbD i then 1 else 0) with
    | some r => c.result e i r
    | none => c
  | .idx => if on then c.putElem e f.d i (i % 2 ^ ewOf td) else c
  | _ => c

/-! ## Encoding into a scaled destination (R129, R198) -/

/-- emax of an MX format (R129). -/
def emaxOf (t : Nat) : Int :=
  match t with
  | 0x14 => 8
  | 0x15 => 15
  | 0x16 => 4
  | 0x17 | 0x18 => 2
  | _ => 0

/-- The binary exponent of a block's largest magnitude, an infinity counting as beyond every finite value: none for a
block of zeros. -/
def blockExp (xs : List Val) : Option Int :=
  xs.foldl (fun m x =>
    let k : Option Int := match x with
      | .fin _ n d e => if n = 0 then none else some (floorLog2 n d + e)
      | .inf _ => some 100000
      | .nan _ => none
    match m, k with
    | some a, some b => some (max a b)
    | none, r => r
    | r, none => r) none

/-- One element of an encoded block of scale exponent `u` (R129): an infinity is as a finite value beyond the largest of every MX
format. -/
def encodeMx (t : Nat) (x : Val) (u : Int) (rm l : Nat) : Nat × FlagSet :=
  if t = tI8 then
    match x with
    | .inf neg => ((if neg then 0x80 else 0x7F), fSAT)
    | .fin neg n d e =>
      let (a, b) := scaleFrac n d (e + 6 - u)
      let (m, inex) := roundNat a b neg rm l
      let (r, f) := satTo tI8 (if neg then -(m : Int) else m)
      (r, f ||| if inex then fIX else 0)
    | .nan _ => (0, 0)
  else match x with
    | .inf neg => roundTo t (.fin neg 1 1 64) rm l
    | v => roundTo t (v.shift (-u)) rm l

/-- Block `j` of a vcvt into a scaled destination: elements active below vl are encoded and the scale code written to
byte `j` of the companion (R198); a block with no such element does not change. The flags of a block that holds a NaN R129 does
not give: NV where an element is a signalling NaN, and no other (DESIGN CHOICE, log entry 75). -/
def Ctx.encodeBlock (c : Ctx) (e : VqEntry) (j : Nat) : Ctx :=
  let f := e.form
  let ta := e.tag f.a
  let td := e.tag f.d
  let rm := f.op.mode e.rm.toNat
  let is := (List.range 32).map (32 * j + ·) |>.filter fun i => decide (i < e.vl) && c.active e i
  let xs := is.map fun i => (i, cvtSource ta (c.elem e f.a i) (scaleOf c e f.a j))
  let comp := (e.reg f.d).comp.val
  let code := fun (c : Ctx) (s : Nat) => { c with v := elemPut c.v comp j 8 s }
  if xs.isEmpty then c
  else if xs.any fun x => x.2.isNaN then
    code (xs.foldl (fun d x => d.result e x.1 (0, sigFlag x.2)) c) 255
  else match blockExp (xs.map (·.2)) with
    | none => code (xs.foldl (fun d x => d.result e x.1 (0, 0)) c) 127
    | some m =>
      let u := max (-127) (min 127 (m - emaxOf td))
      code (xs.foldl (fun d x => d.result e x.1 (encodeMx td x.2 u rm (draw c e x.1))) c) (u + 127).toNat

/-! ## Whole-register forms -/

/-- The combination of two partial results of a reduction (R133). -/
def redStep (o : RedOp) (t a b : Nat) : Nat × FlagSet :=
  match o with
  | .sum =>
    if isINT t then satTo t (intOf t a + intOf t b)
    else
      let (v, f) := addVal (valOf t a) (valOf t b) 0
      let (n, g) := roundTo t v 0 0
      (n, f ||| g)
  | .max => binOp .max t a b 0 0
  | .min => binOp .min t a b 0 0
  | .and => (Nat.land a b, 0)
  | .or => (Nat.lor a b, 0)
  | .xor => (Nat.xor a b, 0)

/-- The identity of a reduction (R132). -/
def redIdent (o : RedOp) (t : Nat) : Nat :=
  let sign := 2 ^ (ewOf t - 1)
  match o with
  | .sum => if isINT t then 0 else sign
  | .max => if isINT t then wrapTo (ewOf t) (intRange t).1 else sign + maxFinite t + 1
  | .min => if isINT t then wrapTo (ewOf t) (intRange t).2 else maxFinite t + 1
  | .and => 2 ^ ewOf t - 1
  | .or | .xor => 0

/-- One level of the tree of R132, whose items each cover `w` elements: pairs are combined, the flags entering the lane
of the lowest element covered. -/
def redLevel (o : RedOp) (t w : Nat) : Nat → List Nat → List Nat × List (Nat × FlagSet)
  | i, a :: b :: r =>
    let (x, f) := redStep o t a b
    let (xs, fs) := redLevel o t w (i + 2) r
    (x :: xs, (i * w, f) :: fs)
  | _, [a] => ([a], [])
  | _, [] => ([], [])

/-- The levels of the tree until one item is left. -/
def redTree (o : RedOp) (t : Nat) : Nat → Nat → List Nat → Nat × List (Nat × FlagSet)
  | 0, _, xs => (xs.headD 0, [])
  | n + 1, w, xs =>
    let (ys, fs) := redLevel o t w 0 xs
    let (r, gs) := redTree o t n (2 * w) ys
    (r, fs ++ gs)

/-- log2 of vl rounded up to a power of two. -/
def ceilLog2 (n : Nat) : Nat := if n ≤ 1 then 0 else Nat.log2 (n - 1) + 1

/-- A reduction over the elements below vl, inactive ones replaced by the identity (R132): the result and the flags by
element. A tree of one item has no level, and the item is consumed all the same (R113). -/
def reduce (o : RedOp) (t : Nat) (ordered : Bool) (xs : List (Bool × Nat)) : Nat × List (Nat × FlagSet) :=
  let id := redIdent o t
  if ordered then
    let (r, fs, _) := xs.foldl (fun (acc, fs, i) (on, x) =>
      if on then
        let (y, f) := redStep o t acc x
        (y, (i, f) :: fs, i + 1)
      else (acc, fs, i + 1)) (id, [], 0)
    (r, fs)
  else if xs.isEmpty then (id, [])
  else
    let k := ceilLog2 xs.length
    let ys := xs.map fun (on, x) => if on then x else id
    if k = 0 then (ys.headD id, if isFPW t then [(0, sigFlag (valOf t (ys.headD id)))] else [])
    else redTree o t k 1 (ys ++ List.replicate (2 ^ k - xs.length) id)

/-- A NaN result in canonical form (R113). -/
def canonical (t n : Nat) : Nat := if isFPW t ∧ (valOf t n).isNaN then (canonNaN t).getD 0 else n

/-- An element as a 64-bit scalar: sign-extended for I tags, else zero-extended (R202, R205). -/
def scalarOf (t n : Nat) : Word := if isSigned t then ofInt64 (signedOf (ewOf t) n) else word n
where
  /-- Two's complement of an integer. -/
  ofInt64 (i : Int) : Word := BitVec.ofInt 64 i

/-- The set bits of a mask below `n`. -/
def popBelow (k : BitVec 8192) (n : Nat) : Nat := (List.range n).foldl (fun m i => if k.getLsbD i then m + 1 else m) 0

/-- Elements written in order from a list of index and value. -/
def Ctx.putAll (c : Ctx) (e : VqEntry) (xs : List (Nat × Nat)) : Ctx :=
  xs.foldl (fun d x => d.putElem e e.form.d x.1 x.2) c

/-- Elements written in order from a list of index and raw bits. -/
def Ctx.rawAll (c : Ctx) (e : VqEntry) (xs : List (Nat × Nat)) : Ctx :=
  xs.foldl (fun d x => d.putRaw e e.form.d x.1 x.2) c

/-- The active indices below vl, in ascending order. -/
def Ctx.actives (c : Ctx) (e : VqEntry) : List Nat := (List.range e.vl).filter (c.active e ·)

/-- The effect at completion of a Whole-class form that works on registers alone (R201, R202, R205, R208, R220 to R224,
R228, R229). -/
def Ctx.whole (c : Ctx) (e : VqEntry) : Ctx :=
  let f := e.form
  let ta := e.tag f.a
  let td := e.tag f.d
  match f.op with
  | .dot =>
    let tb := e.tag f.b
    (c.actives e).foldl (fun d i =>
      let sa := (scaleOf c e f.a i).getD 127
      let sb := (scaleOf c e f.b i).getD 127
      let ks := (List.range 32).map (32 * i + ·)
      if td = tI32 then
        let p := ks.foldl (fun p k => p + signedOf 8 (c.elem e f.a k) * signedOf 8 (c.elem e f.b k)) (0 : Int)
        d.result e i (blockStepInt (c.elem e f.d i) p)
      else
        d.result e i (blockStep (c.elem e f.d i) (ks.map fun k => (mxVal ta (c.elem e f.a k), mxVal tb (c.elem e f.b k)))
          sa sb)) c
  | .red o ordered =>
    let xs := (List.range e.vl).map fun i => (c.active e i, c.elem e f.a i)
    let (r, fs) := reduce o ta ordered xs
    (fs.foldl (fun d x => d.sticky e (laneOf (ewOf ta) x.1) x.2) c).fill f.d (scalarOf ta (canonical ta r))
  | .vget =>
    let n := e.x1.toNat
    if vlmax ta (e.grp f.a) ≤ n then c.fill f.d 0
    else if ta = tT2 then
      let (v, g) := t2Val (c.elem e f.a n)
      (c.sticky e (laneOf 2 n) g).fill f.d (BitVec.ofInt 64 v)
    else c.fill f.d (scalarOf ta (c.elem e f.a n))
  | .vput =>
    let n := e.x2.toNat
    if vlmax td (e.grp f.d) ≤ n then c else c.result e n (moveBits td (e.x1.toNat % 2 ^ ewOf td))
  | .slide up fill =>
    let m : Int := e.x1.toNat
    let edge := c.elem e f.a (if up then 0 else e.vl - 1)
    let fillV := if fill.val = 0 then 0 else if fill.val = 2 then e.x2.toNat % 2 ^ ewOf td else edge
    c.rawAll e ((List.range e.vl).map fun (i : Nat) =>
      let j : Int := if up then (i : Int) - m else i + m
      (i, if 0 ≤ j ∧ j < e.vl then c.elem e f.a j.toNat else fillV))
  | .comp =>
    let xs := (c.actives e).map (c.elem e f.a ·)
    let d := c.putAll e ((List.range xs.length).zip xs)
    { d with sc := { d.sc with vl := xs.length } }
  | .expand =>
    let is := c.actives e
    c.putAll e (is.zip ((List.range is.length).map (c.elem e f.a ·)))
  | .perm =>
    let tb := e.tag f.b
    c.putAll e ((c.actives e).map fun i =>
      let x := intOf tb (c.elem e f.b i)
      (i, if 0 ≤ x ∧ x < e.vl then c.elem e f.a x.toNat else 0))
  | .zip => c.rawAll e ((c.actives e).map fun i => (i, if i % 2 = 0 then c.elem e f.a (i / 2) else c.elem e f.b ((i - 1) / 2)))
  | .unzip => c.rawAll e ((c.actives e).map fun i =>
      (i, if 2 * i < e.vl then c.elem e f.a (2 * i) else c.elem e f.b (2 * i - e.vl)))
  | .trn => c.rawAll e ((c.actives e).map fun i => (i, if i % 2 = 0 then c.elem e f.a i else c.elem e f.b (i - 1)))
  | .kpopc => c.fill f.d (word (popBelow (c.getK f.a) e.vl))
  | .kfirst =>
    c.fill f.d (match (List.range e.vl).find? (c.getK f.a).getLsbD with
      | some i => word i
      | none => BitVec.allOnes 64)
  | .iota => c.putAll e ((c.actives e).map fun i => (i, popBelow (c.getK f.a) i % 2 ^ ewOf td))
  | .flgRd => c.putAll e (((List.range 64).filter (c.active e ·)).map fun l => (l, (vget c.lflag l 0).toNat))
  | .flgClr => { c with lflag := Vector.ofFn fun l => if c.active e l.val then 0 else vget c.lflag l.val 0 }
  | _ => c

/-- kvl writes all 8,192 bits (R224). -/
def Ctx.writeKvl (c : Ctx) (e : VqEntry) : Ctx :=
  c.setK e.form.d (BitVec.ofNat 8192 (2 ^ (min 8192 e.x1.toNat) - 1))

end Sys2Proof.Machine
end

