-- ==== Sys2Proof/Machine/Accept.lean ====
section
/-!
DEFINITION. Acceptance into the VIQ (R14, R30, R31, R184, R185): the checks of each form's registers, shapes, tiles and
films in the order of R96, what an instruction captures, and the full/empty bits it clears.
-/
namespace Sys2Proof.Machine

/-! ## Register checks (R184, R211) -/

/-- Register `r` passes R184 with `cnt` elements addressed: its number fits its group, the group agrees, the tag is known
and the elements lie below vlmax. -/
def regOk (cfg : Vector VCfg 32) (r cnt : Nat) : Bool :=
  let v := vget cfg r {}
  let g := 2 ^ v.grp.val
  r % g == 0 && decide (r + g ≤ 32) && (List.range g).all (fun i => vget cfg (r + i) {} == v) && tagKnown v.tag.toNat
    && decide (cnt ≤ vlmax v.tag.toNat v.grp.val)

/-- How many elements of each vector register a form addresses, from its first (R184, R201, R203, R211, R223). -/
def VForm.counts (f : VForm) (n vl start : Nat) : List (Nat × Nat) :=
  let base := if f.op.restart = .element then (if start < vl then vl else 0) else vl
  let r := f.roles n
  let all := fun (k : Nat) => (r.vd.toList ++ r.vs.map (·.1)).map fun x => (x, k)
  match f.op with
  | .vget | .vput | .recv | .flgRd | .tacc | .tread | .twrite | .tepi | .wlu | .wsolve _ | .wget | .wput => all 0
  | .dot => [(f.a, 32 * vl), (f.b, 32 * vl), (f.d, vl)]
  | .sign => [(f.a, 32 * base), (f.b, 32 * base), (f.d, base)]
  | .zip => [(f.a, (vl + 1) / 2), (f.b, vl / 2), (f.d, vl)]
  | .unzip => [(f.a, (vl + 1) / 2 * 2 - 1), (f.b, vl - 1), (f.d, vl)]
  | .trn => [(f.a, (vl + 1) / 2 * 2 - 1), (f.b, vl / 2 * 2 - 1), (f.d, vl)]
  | .ld .indexed .. | .st .indexed .. | .amo .. => [(f.d, base), (f.c, vl)]
  | _ => all base

/-- The MX formats a register may be marked scaled in (R127). -/
def isMX (t : Nat) : Bool := isFPN t || t == tI8

/-- A scaled register's companion: an E8M0 register outside its group that holds `need` scale codes (R127, R184). -/
def companionOk (cfg : Vector VCfg 32) (r need : Nat) : Bool :=
  let v := vget cfg r {}
  let c := v.comp.val
  !v.scaled || (isMX v.tag.toNat && (vget cfg c {}).tag.toNat == tE8M0 && !(decide (r ≤ c) && decide (c < r + 2 ^ v.grp.val))
    && (need == 0 || regOk cfg c need))

/-- Scale codes a form reads or writes beside register `r` (R197, R198, R201). -/
def VForm.scales (f : VForm) (vl start r : Nat) : Nat :=
  match f.op with
  | .cvt _ => if start < vl ∧ (r = f.a ∨ r = f.d) then (vl + 31) / 32 else 0
  | .dot => if r = f.a ∨ r = f.b then vl else 0
  | _ => 0

/-! ## Tags (R107, R112, R133, R189, R199 to R211) -/

/-- Tags of the memory forms other than vld and vst: any of at least a byte (R210). -/
def wideTag (t : Nat) : Bool := tagKnown t && decide (8 ≤ ewOf t)

/-- The pairs of vmacw (R107). -/
def macwTags (a d : Nat) : Bool :=
  [(tI8, tI16), (tI16, tI32), (tI32, tI64), (tN8, 6), (6, 7), (7, tN64), (tI16X2, tI32), (tFP16, tFP32), (tBF16, tFP32),
    (tFP32, tFP64)].contains (a, d)

/-- Two block sources with their accumulator in vdot, tmma and tmms (R107). -/
def blockTags (a b d : Nat) : Bool :=
  let fp8 := fun (t : Nat) => decide (0x14 ≤ t) && decide (t ≤ 0x17)
  (fp8 a && fp8 b && d == tFP32) || (a == tE2M1 && b == tE2M1 && d == tFP32)
    || (a == tI8 && b == tI8 && (d == tI32 || d == tFP32))

/-- The narrowing pairs of vshrr.n (R199). -/
def narrowTags (a d : Nat) : Bool :=
  [(tI16, tI8), (tI32, tI16), (tI64, tI32), (6, tN8), (7, 6), (tN64, 7), (tI16, tN8), (tI32, 6), (tI64, 7)].contains (a, d)

/-- The tags an element operation of R191 and R192 takes. -/
def binTags (o : BinOp) (t : Nat) : Bool :=
  isINT t || t == tI16X2 || (isFPW t && (match o with
    | .add | .sub | .mul | .min | .max | .abd | .avg => true
    | _ => false))

/-- A lane vector's registers carry FP32, or FP64 under P = 1, in group 1 and unscaled (R235). -/
def laneTag (cfg : Vector VCfg 32) (p : Bool) (r : Nat) : Bool :=
  let v := vget cfg r {}
  v.tag.toNat == (if p then tFP64 else tFP32) && v.grp == 0 && !v.scaled

/-- The pivot register of wlu and wsolve.p: N8, group 1, unscaled (R245, R246). -/
def pivotTag (cfg : Vector VCfg 32) (r : Nat) : Bool :=
  let v := vget cfg r {}
  v.tag.toNat == tN8 && v.grp == 0 && !v.scaled

/-- The tags of the registers a form names are ones it accepts; tiles and films apart. A register of tag NONE or E8M0 receives no
strip: NONE is legal only in moves and memory forms, and vrecv is no form that R112 lists. -/
def VForm.tagsOk (f : VForm) (cfg : Vector VCfg 32) (n vl : Nat) : Bool :=
  let t := fun r => (vget cfg r {}).tag.toNat
  let one := fun r => (vget cfg r {}).grp == 0
  let d := t f.d
  let a := t f.a
  let b := t f.b
  let c := t f.c
  match f.op with
  | .bin o .vec => binTags o d && a == d && b == d
  | .bin o _ => binTags o d && a == d
  | .fma .. => (isINT d || d == tI16X2 || isFPW d) && a == d && b == d
  | .macw => a == b && macwTags a d
  | .cmp _ => a == b && (isINT a || isFPW a || isFPN a || a == tE8M0)
  | .sel => d != tNONE && a == d && b == d
  | .cvt _ =>
    let ok := fun (x : Nat) => x != tNONE && x != tT2 && x != tI16X2
    ok a && ok d
  | .shrr sc nr => (if nr then narrowTags a d else a == d && (isINT d || d == tI16X2)) && (sc || b == a)
  | .math .div => (isINT d || isFPW d) && a == d && b == d
  | .math _ => isFPW d && a == d
  | .dot => blockTags a b d
  | .red o _ => isINT a || (isFPW a && (o == .sum || o == .max || o == .min))
  | .sign => ((a == tT2 && b == tI8) || (a == tI8 && b == tT2)) && d == tI32
  | .mov => a == d
  | .splat | .vget | .vput => true
  | .recv => d != tE8M0 && d != tNONE
  | .splati => (splatBits d f.imm).isSome
  | .slide .. => d != tNONE && a == d
  | .ld .unit .. => true
  | .st .unit .. => 8 ≤ ewOf d || (f.k == 0 && vl % (8 / ewOf d) == 0)
  | .ld .strided .. | .st .strided .. => wideTag d
  | .ld .indexed .. | .st .indexed .. | .ldxc .. | .ldxdup .. => wideTag d && isINT c
  | .amo .. => (d == tI32 || d == 7 || d == tI64 || d == tN64) && isINT c
  | .comp | .expand => d != tNONE && a == d
  | .perm => d != tNONE && a == d && isINT b
  | .zip | .unzip | .trn => d != tNONE && a == d && b == d
  | .klog _ | .kpopc | .kfirst | .kvl | .flgClr | .wdim => true
  | .kfrom => a != tE8M0
  | .vlk => d != tE8M0
  | .mcast => a != tE8M0 && a != tNONE
  | .iota | .idx => isINT d
  | .flgRd => (d == tI64 || d == tN64) && one f.d
  | .wld | .wst | .wmul _ | .wchol | .wadd _ | .wscal | .wtrn | .wid | .wcpy => true
  | .wlu => pivotTag cfg f.c
  | .wsolve piv => (!piv || pivotTag cfg f.c) && (solveRegs f piv n).all (laneTag cfg f.p)
  | .wget | .wput => laneTag cfg f.p f.c
  | .tacc => (c == tFP32 || c == tI32) && one f.c
  | .tread | .twrite | .tmma | .tmms => true
  | .tepi =>
    t (f.c + 1) == tFP32 && one (f.c + 1) && one f.c && !(vget cfg f.c {}).scaled
      && [tFP32, tFP16, tBF16, tE4M3, tE5M2, tI8, tI16, tI32].contains c

/-- Every register check of R184 and R127 and the form's tags. -/
def VForm.regsOk (f : VForm) (cfg : Vector VCfg 32) (n vl start : Nat) : Bool :=
  (f.counts n vl start).all (fun (r, k) => regOk cfg r k)
    && ((f.roles n).vs.map (·.1)).all (fun r => companionOk cfg r (f.scales vl start r))
    && (match f.op with
      | .cvt _ => companionOk cfg f.d (f.scales vl start f.d)
      | _ => true)
    && f.tagsOk cfg n vl

/-! ## Overlap (R22, R185) -/

/-- Vector destinations: the register and, of a vcvt into a scaled one, its companion. -/
def VForm.vDests (f : VForm) (cfg : Vector VCfg 32) (n : Nat) : List Nat :=
  match (f.roles n).vd with
  | none => []
  | some d => match f.op with
    | .cvt _ => if (vget cfg d {}).scaled then [d, (vget cfg d {}).comp.val] else [d]
    | _ => [d]

/-- Vector sources other than an accumulator, with the companions that vcvt and vdot read. -/
def VForm.vSources (f : VForm) (cfg : Vector VCfg 32) (n : Nat) : List Nat :=
  let r := f.roles n
  let vs := r.vs.map (·.1)
  let vs := if r.vacc then vs.dropLast else vs
  match f.op with
  | .cvt _ | .dot => vs ++ vs.filterMap fun x => if (vget cfg x {}).scaled then some (vget cfg x {}).comp.val else none
  | _ => vs

/-- Two groups share a register. -/
def groupsMeet (cfg : Vector VCfg 32) (x y : Nat) : Bool :=
  decide (x < y + 2 ^ (vget cfg y {}).grp.val) && decide (y < x + 2 ^ (vget cfg x {}).grp.val)

/-- An overlap that R185, or for a Whole-class form R22, forbids. Register s0, which discards writes and reads as zero, is taken to
overlap nothing: a DESIGN CHOICE (log entry 90). -/
def VForm.overlap (f : VForm) (cfg : Vector VCfg 32) (n : Nat) : Bool :=
  let r := f.roles n
  let ew := fun x => ewOf (vget cfg x {}).tag.toNat
  let same := fun (d x : Nat) => d == x && ew d == ew x
  let vec := fun (bad : Nat → Nat → Bool) => (f.vDests cfg n).any fun d => (f.vSources cfg n).any (bad d)
  match f.op.restart with
  | .element => vec fun d x => groupsMeet cfg d x && !same d x
  | .whole =>
    vec (groupsMeet cfg) || (match r.sd with
      | some d => d != 0 && r.ss.any (·.1 == d)
      | none => false)
  | _ => false

/-! ## Tiles and films as an instruction being accepted sees them (R252, R257, R264, R390) -/

/-- What an older instruction not yet performed does to a tile or film. -/
inductive ResAct where
  | tclaim (t : Nat)
  | trel (t : Nat)
  | tacc (t : Nat) (tag : BitVec 5)
  | fopen (f : Nat) (w : Word)
  | fclose (f : Nat)
deriving Repr

/-- An item enters a list that rises by its number. -/
def insertBy {α : Type} (x : Nat × α) : List (Nat × α) → List (Nat × α)
  | [] => [x]
  | y :: r => if x.1 < y.1 then x :: y :: r else y :: insertBy x r

/-- The acts of the held instructions and of the tacc forms in the VIQ, in program order. -/
def Ctx.resActs (c : Ctx) : List ResAct :=
  let held := c.sb.filterMap fun h => match h.op with
    | .tclaim t => some (h.ord, ResAct.tclaim t)
    | .trel t => some (h.ord, .trel t)
    | .fopen f w => some (h.ord, .fopen f w)
    | .fclose f => some (h.ord, .fclose f)
    | _ => none
  let vq := c.viq.filterMap fun e => match e.form.op with
    | .tacc => some (e.ord, ResAct.tacc e.form.d (e.reg e.form.c).tag)
    | _ => none
  ((vq ++ held).foldl (fun l x => insertBy x l) []).map (·.2)

/-- The tag a tile will have for what is accepted behind its operations: that of its last tacc not yet started (R257). -/
def Tile.nextTag (x : Tile) : BitVec 5 :=
  match (x.ops.filter fun o => !o.started && o.e.form.op == .tacc).getLast? with
  | some o => (o.e.reg o.e.form.c).tag
  | none => x.tag

/-- The tag of a tile, which a tacc sets as it is accepted (R257). -/
def tileTag (s : State) (q t : Nat) : BitVec 5 :=
  match ((s.ctx q).viq.filter fun e => e.form.op == .tacc && e.form.d == t).getLast? with
  | some e => (e.reg e.form.c).tag
  | none => (vget (s.core (q / 4)).tiles t {}).nextTag

/-- Whether a sequencer will have a tile claimed, and with which tag, once its older instructions are performed. -/
def tileView (s : State) (q t : Nat) : Bool × BitVec 5 :=
  let x := vget (s.core (q / 4)).tiles t {}
  (s.ctx q).resActs.foldl (fun (c, g) a => match a with
    | .tclaim u => if u = t ∧ !c then (true, 0x11) else (c, g)
    | .trel u => if u = t then (false, g) else (c, g)
    | .tacc u h => if u = t then (c, h) else (c, g)
    | _ => (c, g)) (x.claim == some q, x.nextTag)

/-- The geometry of a film a sequencer will hold open once its older instructions are performed. -/
def filmView (s : State) (q f : Nat) : Option (Nat × Nat) :=
  let x := vget (s.core (q / 4)).films f {}
  (s.ctx q).resActs.foldl (fun o a => match a with
    | .fopen g w => if g = f then some (bits w 0 2, bits w 2 2) else o
    | .fclose g => if g = f then none else o
    | _ => o) (if x.holder = some q then some (x.rowb.val, x.sb.val) else none)

/-- A tile of the sequencer's core is owned by its partition. -/
def tileOwned (s : State) (q t : Nat) : Bool :=
  ownerOf (vget (s.core (q / 4)).inForce.tile t 0) == s.partOfSeq q && (s.partOfSeq q).isSome

/-- A film of the sequencer's core is owned by its partition. -/
def filmOwned (s : State) (q f : Nat) : Bool :=
  ownerOf (vget (s.core (q / 4)).inForce.film f 0) == s.partOfSeq q && (s.partOfSeq q).isSome

/-- The subcode of a form's check of a tile it names: TILE_UNOWNED, TILE_UNCLAIMED, or none. -/
def tileCheck (s : State) (q t : Nat) : Option Nat :=
  if !tileOwned s q t then some 2 else if !(tileView s q t).1 then some 3 else none

/-- K, the steps of a product and the steps of a block by tag (R258). -/
def frameK (t : Nat) : Nat :=
  if t = tE2M1 then 1024 else if t = tBF16 ∨ t = tFP16 then 256 else if t = tFP32 then 128 else 512

/-- A row of the table of R258: A tag, B tag, tile tag, and the geometry of the two films. -/
def tmmaRow (ta tb td : Nat) (fa fb : Nat × Nat) : Bool :=
  let plain := fa.1 == 0 && fb.1 == 0
  let fp8 := fun (t : Nat) => decide (0x14 ≤ t) && decide (t ≤ 0x17)
  let sb := fun (n : Nat) => (fa.2 == 0 || fa.2 == n) && (fb.2 == 0 || fb.2 == n)
  (fp8 ta && fp8 tb && td == tFP32 && plain && sb 1)
    || (ta == tE2M1 && tb == tE2M1 && td == tFP32 && plain && sb 2)
    || (ta == tI8 && tb == tI8 && td == tFP32 && plain && sb 1)
    || (ta == tI8 && tb == tI8 && td == tI32 && plain)
    || (ta == tb && (ta == tBF16 || ta == tFP16 || ta == tFP32) && td == tFP32 && plain)
    || (ta == tT2 && tb == tI8 && td == tI32 && fa.1 == 1 && fb.1 == 0)
    || (ta == tI8 && tb == tT2 && td == tI32 && fa.1 == 0 && fb.1 == 1)

/-- The tag of a tile operation's A and B frames: a tmms has one for both. -/
def VForm.frameTags (f : VForm) : Nat × Nat := if f.op = .tmma then (f.aTag, f.c) else (f.aTag, f.aTag)

/-- The geometries of two films that some row of the table names. -/
def filmPairs : List ((Nat × Nat) × (Nat × Nat)) :=
  [((0, 0), (0, 0)), ((0, 1), (0, 1)), ((0, 2), (0, 2)), ((1, 0), (0, 0)), ((0, 0), (1, 0))]

/-- The TAG checks of a tile form that need no tile and no film: its row register's, its index register's, and a pair of frame
tags that some row of R258 has (R96: TAG first). -/
def VForm.tileTags (f : VForm) (cfg : Vector VCfg 32) (vl : Nat) : Bool :=
  let one := (vget cfg f.c {}).grp == 0
  match f.op with
  | .tread | .twrite => one && ((vget cfg f.c {}).tag == 0x11 || (vget cfg f.c {}).tag.toNat == tI32)
  | .tmma | .tmms =>
    let (ta, tb) := f.frameTags
    (f.op == .tmma || (isINT (vget cfg f.c {}).tag.toNat && decide (vl ≤ frameK ta)))
      && filmPairs.any fun (fa, fb) => tmmaRow ta tb tFP32 fa fb || tmmaRow ta tb tI32 fa fb
  | _ => true

/-- The geometries of a film that the table of R258 may ask for: those of an open one alone. -/
def filmGeoms (o : Option (Nat × Nat)) : List (Nat × Nat) :=
  match o with
  | some g => [g]
  | none => [(0, 0), (0, 1), (0, 2), (1, 0), (1, 1), (1, 2)]

/-- The TAG check of a tile form against the tag of the tile it names and the films it reads, as far as these are open (R258, R260,
R261). -/
def tileTagOk (s : State) (q : Nat) (f : VForm) (cfg : Vector VCfg 32) : Bool :=
  let tag := (tileView s q f.d).2
  match f.op with
  | .tread | .twrite => (vget cfg f.c {}).tag == tag && (vget cfg f.c {}).grp == 0
  | .tmma | .tmms =>
    let (ta, tb) := f.frameTags
    (filmGeoms (filmView s q f.a)).any fun fa => (filmGeoms (filmView s q f.b)).any fun fb => tmmaRow ta tb tag.toNat fa fb
  | _ => true

/-- The tile and film checks of a tile form: the cause and subcode of the first that fails (R252, R258, R260, R261,
R263). TAG comes first (R96), compared with the tag of a tile the partition owns, claimed or not, and with the geometry of the films
that are open: DEDUCED (log entry 67). -/
def tileForm (s : State) (q : Nat) (f : VForm) (cfg : Vector VCfg 32) (vl : Nat) : Option (Nat × Nat) :=
  let needs := match f.op with
    | .tacc | .tmma | .tmms | .tread | .twrite | .tepi => true
    | _ => false
  if !needs then none
  else if !f.tileTags cfg vl then some (cTAG, 0)
  else if tileOwned s q f.d && !tileTagOk s q f cfg then some (cTAG, 0)
  else match tileCheck s q f.d with
    | some sub => some (cILLEGAL, sub)
    | none =>
      match f.op with
      | .tmma | .tmms => if (filmView s q f.a).isSome && (filmView s q f.b).isSome then none else some (cILLEGAL, 4)
      | _ => none

/-! ## Acceptance -/

/-- A vector run or register pair passes v31, so the word is illegal (R237, R263). -/
def VForm.runsPast (f : VForm) (n : Nat) : Bool :=
  match f.op with
  | .wsolve piv => (solveRegs f piv n).any fun r => decide (31 < r)
  | .tepi => f.c == 31
  | _ => false

/-- A square-only form under a shape that is not square, or any form that captures a shape that is none (R234, R237). -/
def VForm.badShape (f : VForm) (n m : Nat) : Bool :=
  let lane := match f.op with
    | .wld | .wst | .wmul _ | .wchol | .wlu | .wsolve _ | .wadd _ | .wscal | .wtrn | .wid | .wcpy | .wget | .wput => true
    | _ => false
  let square := match f.op with
    | .wchol | .wlu | .wsolve _ => true
    | _ => false
  lane && (n == 0 || n == 7 || m == 0 || m == 7 || (square && n != m))

/-- The pipes a partition owns with no change of them under way (R350). -/
def ownedPipes (s : State) (q : Nat) : BitVec 8 :=
  let x := s.core (q / 4)
  BitVec.ofNat 8 ((List.range 8).foldl (fun m i =>
    if (s.partOfSeq q).isSome && ownerOf (vget x.inForce.pipe i 0) == s.partOfSeq q
        && ownerOf (vget x.active.pipe i 0) == s.partOfSeq q then m + 2 ^ i else m) 0)

/-- The shape a form captures: wdim sets it at its acceptance (R234). -/
def VForm.shape (f : VForm) (x : Scal) : Fin 8 × Fin 8 :=
  match f.op with
  | .wdim => (⟨f.a % 8, Nat.mod_lt _ (by decide)⟩, ⟨f.b % 8, Nat.mod_lt _ (by decide)⟩)
  | _ => (x.rows, x.cols)

/-- A form's configuration at its acceptance: the vl, start element, rm, tsave, registers and shape it captures. -/
structure Capture where
  vl : Nat
  start : Nat
  resumed : Bool
  rm : BitVec 3
  tsave : Word
  cfg : Vector VCfg 32
  rows : Fin 8
  cols : Fin 8

/-- The capture of an instruction that the scalar side issues (R14, R28). -/
def Ctx.capture (c : Ctx) (f : VForm) : Capture :=
  let x := c.sc
  { vl := x.vl, start := if x.armed then x.vstart.toNat else 0, resumed := false, rm := x.rm, tsave := x.tsave,
    cfg := x.vcfg, rows := (f.shape x).1, cols := (f.shape x).2 }

/-- The acceptance checks of R96 and R237 in their order, after those of decoding and lane mode: the cause and subcode of
the first that fails. SHAPE stands before TAG as R237 lists them, though R96 names TAG first: a DESIGN CHOICE (log entry 90). -/
def formCheck (s : State) (q : Nat) (f : VForm) (p : Capture) : Option (Nat × Nat) :=
  if f.badShape p.rows.val p.cols.val then some (cILLEGAL, 1)
  else if !f.regsOk p.cfg p.rows.val p.vl p.start then some (cTAG, 0)
  else match tileForm s q f p.cfg p.vl with
    | some e => some e
    | none => if f.overlap p.cfg p.rows.val then some (cILLEGAL, 0) else none

/-- A scalar operand at acceptance: its value, or the number of a scalar an older vector-queue instruction produces
(R14, R31). -/
def captureScalar (s : State) (q n : Nat) (e : Bool) (word : Word) : Except Stop (Word × Nat) :=
  let c := s.ctx q
  if n = 0 then .ok (0, 0)
  else if c.vqWritesS n then .ok (0, n)
  else if c.feS.getLsbD n then .ok (c.getS n, 0)
  else if e then .error (.trap (classA cEMPTY_READ 0 word c.sc.pc))
  else .error (.wait s)

/-- A scalar destination is free for its producer: full, or filled in order by an older vector-queue instruction
(R32). -/
def Ctx.sdFree (c : Ctx) (r : Roles) : Bool :=
  match r.sd with
  | some d => d == 0 || c.feS.getLsbD d || c.vqWritesS d
  | none => true

/-- The full/empty bits that acceptance clears (R30, R227, R238). -/
def Ctx.emptied (c : Ctx) (e : VqEntry) : Ctx := c.mark e false

/-- A form is accepted at `ipc`: its checks, its capture, its place in the VIQ (R14, R15, R96, R221). -/
def accept (s : State) (q : Nat) (f : VForm) (ipc : Word) (p : Capture) : Except Stop VqEntry := do
  let c := s.ctx q
  let w := f.word.setWidth 64
  if f.runsPast p.rows.val then throw (.trap (classA cILLEGAL 0 w ipc))
  if c.laneOn then throw (.trap (classA cLANE_MODE 0 (word c.laneTurn.val) c.at))
  if c.vqWritesVl ∨ 32 ≤ c.viq.length then throw (.wait s)
  match formCheck s q f p with
  | some (cause, sub) => throw (.trap (classA cause sub w ipc))
  | none =>
    let r := f.roles p.rows.val
    let sc := fun (i : Nat) => match r.ss[i]? with
      | some (n, e) => captureScalar s q n e w
      | none => .ok (0, 0)
    let (x1, l1) ← sc 0
    let (x2, l2) ← sc 1
    if !c.sdFree r then throw (.wait s)
    return { form := f, ipc := ipc, vl := p.vl, rm := p.rm, start := p.start, resumed := p.resumed, cfg := p.cfg,
             x1 := x1, x2 := x2, late1 := l1, late2 := l2, rows := p.rows, cols := p.cols, tsave := p.tsave,
             pipes := ownedPipes s q, snap := c.sc, ord := c.ord }

/-- An accepted instruction enters the VIQ: its destinations are marked empty, a wdim sets the shape, and armed vstart and
chain are taken (R28, R30, R234). -/
def Ctx.enqueue (c : Ctx) (e : VqEntry) : Ctx :=
  let c := c.emptied e
  let x := c.sc
  let x := if x.armed then { x with vstart := 0, chain := 0, armed := false } else x
  let x := match e.form.op with
    | .wdim => { x with rows := e.rows, cols := e.cols }
    | _ => x
  { c with sc := x, viq := c.viq ++ [e] }

end Sys2Proof.Machine
end

