-- ==== Sys2Proof/Machine/VAccess.lean ====
section
/-!
DEFINITION. The memory accesses of vector-queue instructions (R210 to R219, R238, R239): element addresses, the checks of
R212 in their order, loads, stores and atomic updates of elements, gathers from stashes, and the lane-matrix loads and
stores.
-/
namespace Sys2Proof.Machine

/-- A trap of a vector-queue instruction: younger instructions may have executed (R24). -/
def Stop.late : Stop → Stop
  | .trap t left => .trap { t with late := true } left
  | w => w

/-- Failures of an access by a vector-queue instruction. -/
def lateErr {α : Type} (m : Except Stop α) : Except Stop α :=
  match m with
  | .ok x => .ok x
  | .error e => .error e.late

/-- Elements that share the byte of an access: one, but for E2M1 and T2 (R210). -/
def VqEntry.perByte (e : VqEntry) : Nat := if ewOf (e.tag e.form.d) < 8 then 8 / ewOf (e.tag e.form.d) else 1

/-- Bytes of an element access (R210). -/
def VqEntry.esz (e : VqEntry) : Nat := max 1 (ewOf (e.tag e.form.d) / 8)

/-- The index of element `i`, extended (R211). -/
def Ctx.index (c : Ctx) (e : VqEntry) (r i : Nat) : Int := intOf (e.tag r) (c.elem e r i)

/-- The address of element `i` (R215, R216). -/
def Ctx.ea (c : Ctx) (e : VqEntry) (i : Nat) : Word :=
  match e.form.op with
  | .ld .unit .. | .st .unit .. => e.x1 + word (i * ewOf (e.tag e.form.d) / 8)
  | .ld .strided .. | .st .strided .. => e.x1 + word i * e.x2
  | _ => e.x1 + BitVec.ofInt 64 (c.index e e.form.c i * e.esz)

/-- What an access of a form needs of the leaf (R212). -/
def VOp.need (o : VOp) : Need := if o.isAmo then .rw else if o.isStore then .w else .r

/-- The checks of one access in the order of R212, up to its place: alignment, translation, the control-class rule. -/
def checkAccess (s : State) (q : Nat) (ipc ea : Word) (n : Nat) (need : Need) : Except Stop (State × Xl × Target) :=
  lateErr do
    if ea.toNat % n ≠ 0 then throw (.trap (classA cMISALIGNED 0 ea ipc))
    let (s, x) ← liftB ea ipc (translate s q ea need)
    if x.ctl then throw (.trap (classB cCONTROL_VIOLATION 0 ea ipc))
    let (s, t) ← liftB ea ipc (resolve s (s.agent q) x need)
    return (s, x, t)

/-- `n` bytes are read for a vector-queue instruction (R212). -/
def loadAt (s : State) (q : Nat) (ipc ea : Word) (n : Nat) : Except Stop (State × Nat) := lateErr do
  let (s, x, t) ← checkAccess s q ipc ea n .r
  liftB ea ipc (readAt (fillPiece s q x) (s.agent q) n t)

/-- The words of a read under the policy .lu are marked first for eviction (R99). -/
def lastUse (s : State) (q : Nat) (pol : Nat) (ea : Word) (n : Nat) : State :=
  if pol != 2 then s
  else match translate s q ea .r with
    | .ok (_, x) => match cachedAt s q x with
      | some a => markFirst s (q / 4) (wordsOf a n)
      | none => s
    | .error _ => s

/-- A loaded element as its register takes it: a sub-byte element's bits of the byte, FP6 bits 7:6 cleared (R210). -/
def VqEntry.loaded (e : VqEntry) (i n : Nat) : Nat :=
  let ew := ewOf (e.tag e.form.d)
  if ew < 8 then n / 2 ^ (i * ew % 8) % 2 ^ ew else n

/-- Loads of elements `is`: the context with them written, unless the form is a touch (R34, R215). -/
def loadElems (s : State) (q : Nat) (e : VqEntry) (c : Ctx) (is : List Nat) : Except Stop (State × Ctx) :=
  is.foldlM (fun (s, c) i =>
    if !c.active e i && !(match e.form.op with | .ldxdup .. => true | _ => false) then return (s, c)
    else do
      let (s, n) ← loadAt s q e.ipc (c.ea e i) e.esz
      let s := lastUse s q e.form.pol (c.ea e i) e.esz
      return (s, if e.form.touch then c else c.putElem e e.form.d i (e.loaded i n))) (s, c)

/-- The accesses of a store or update among elements `is`: each with its first element, address and, for a store, its
bytes (R215). A store passes the raw code 0b10 of a T2 element on and sets no TR, a DESIGN CHOICE (log entry 32). -/
def Ctx.writes (c : Ctx) (e : VqEntry) (is : List Nat) : List (Nat × Word × Nat) :=
  let k := e.perByte
  (is.filter fun i => c.active e i && (i % k == 0 || is.head? == some i)).map fun i =>
    (i, c.ea e i, if k = 1 then cutElem (e.tag e.form.d) (c.elem e e.form.d i)
      else (List.range k).foldl (fun m j => m + c.elem e e.form.d (i / k * k + j) * 2 ^ (ewOf (e.tag e.form.d) * j)) 0)

/-- What the plain host path refuses of an element update is found among its checks (R219). -/
def updateCheck (s : State) (e : VqEntry) (t : Target) : Except MErr Unit :=
  match e.form.op, t with
  | .amo o .., .plain _ => atomRefused s o.hostAtom e.esz
  | _, _ => .ok ()

/-- Every access of a group is checked before any is performed (R212, R219). -/
def checkWrites (s : State) (q : Nat) (e : VqEntry) (ws : List (Nat × Word × Nat)) :
    Except Stop (State × List (Nat × Word × Nat × Xl × Target)) :=
  ws.foldlM (fun (s, l) (i, ea, v) => do
    let (s, x, t) ← checkAccess s q e.ipc ea e.esz e.form.op.need
    lateErr (liftB ea e.ipc (updateCheck s e t))
    let s ← lateErr (liftB ea e.ipc (writeReady s e.esz t))
    return (s, l ++ [(i, ea, v, x, t)])) (s, [])

/-- The end of a group's writes or updates: all performed, or refused at an element with those below it performed (R219,
R328). -/
inductive Performed where
  | all (s : State) (c : Ctx)
  | at (s : State) (c : Ctx) (i : Nat) (stop : Stop)

/-- The words a store under the policy .st leaves in the core's L1, which it does not allocate in, are marked first for eviction
(R99). -/
def streamed (s : State) (q pol n : Nat) (t : Target) : State :=
  match t with
  | .line a .. => if pol = 1 then (wordsOf a n).foldl (fun s w => match find s.reg (unitKey (q / 4) w) with
      | some r => { s with reg := put s.reg (unitKey (q / 4) w) { r with first := true } }
      | none => s) s else s
  | _ => s

/-- Stores of a group, performed in element order (R215, R216). -/
def performStores (q : Nat) (e : VqEntry) : State → Ctx → List (Nat × Word × Nat × Xl × Target) → Performed
  | s, c, [] => .all s c
  | s, c, (i, ea, v, _, t) :: r =>
    match liftB ea e.ipc (writeAt s (s.agent q) e.esz v t) with
    | .ok s' => performStores q e (streamed s' q e.form.pol e.esz t) c r
    | .error st => .at s c i st.late

/-- The poisoned sectors that stores of `n` bytes at some addresses, with bytes written before, fill whole: the marks go, and the
bytes written of the others are kept (R368). -/
def fillSectors (s : State) (old : List (Nat × BitVec 32)) (n : Nat) (at_ : List Nat) : State × List (Nat × BitVec 32) :=
  let got := s.poison.map fun p => (p, (List.range 32).foldl (fun (m : BitVec 32) i =>
    if at_.any fun a => decide (a ≤ p + i) && decide (p + i < a + n) then setBit m i true else m) (get old p 0))
  ({ s with poison := s.poison.filter fun p => get got p 0 != BitVec.allOnes 32 },
    got.filter fun x => x.2 != 0 && x.2 != BitVec.allOnes 32)

/-- The bytes of device memory that the stores of a group write. -/
def lineStarts (ts : List Target) : List Nat :=
  ts.filterMap fun t => match t with
    | .line a .. => some a
    | _ => none

/-- The 32-byte sectors of device memory that one instruction's stores fill whole, over all its groups, lose their poison
(R368). -/
def filledSectors (s : State) (c : Ctx) (esz : Nat) (ws : List (Nat × Word × Nat × Xl × Target)) : State × Ctx :=
  if s.poison.isEmpty then (s, c)
  else
    let (s, got) := fillSectors s c.runFill esz (lineStarts (ws.map fun w => w.2.2.2.2))
    (s, { c with runFill := got })

/-- Updates of a group, performed in element order (R219). -/
def performUpdates (q : Nat) (e : VqEntry) (o : AmoOp) : State → Ctx → List (Nat × Word × Nat × Xl × Target) → Performed
  | s, c, [] => .all s c
  | s, c, (i, ea, v, x, _) :: r =>
    match liftB ea e.ipc (accUpdate s (s.agent q) x e.esz 3 o.hostAtom (fun old => some (amoResult o e.esz old v))) with
    | .ok (s', old) => performUpdates q e o s' (c.putElem e e.form.d i old) r
    | .error st => .at s c i st.late

/-- The memory side of elements `is` of an Element-class form (R212, R215, R216, R219). -/
def memElems (s : State) (q : Nat) (e : VqEntry) (c : Ctx) (is : List Nat) : Except Stop Performed :=
  match e.form.op with
  | .ld .. => do
    let (s, c) ← loadElems s q e c is
    return .all s c
  | .st .. => do
    let (s, ws) ← checkWrites s q e (c.writes e is)
    return match performStores q e s c ws with
      | .all s c => let (s, c) := filledSectors s c e.esz ws; .all s c
      | p => p
  | .amo o .. => do
    let (s, ws) ← checkWrites s q e (c.writes e is)
    return performUpdates q e o s c ws
  | _ => .ok (.all s c)

/-- vldx.dup at completion: the elements and the duplicate mask (R217). -/
def loadDup (s : State) (q : Nat) (e : VqEntry) (c : Ctx) : Except Stop (State × Ctx) := do
  let is := List.range e.vl
  let (s, d) ← loadElems s q e c is
  let dup := fun (i : Nat) => (List.range i).any fun j => c.ea e j == c.ea e i
  return (s, is.foldl (fun d i => d.putBit e.form.k i (dup i)) d)

/-- A word that another core's stash gives to a reader stands at the die point first, with the reader's own store of it after it,
and no older copy of it is read (R301, R303, R304). -/
def shareWord (s : State) (own core w : Nat) : Except MErr State := do
  let (s, _) ← registerWord s core w
  let (s, _) ← registerWord s own w
  let fresh := fun (s : State) (c : Nat) => match find s.reg (unitKey c w) with
    | some r => if r.registered then s else { s with reg := del s.reg (unitKey c w) }
    | none => s
  return fresh (fresh s core) own

/-- The stash window of a core that a partition has mapped over a byte offset (R218). -/
def windowAt (x : Core) (p off : Nat) : Option Win :=
  x.wins.toList.find? fun w => w.valid && w.part == p && decide (512 * w.offset ≤ off)
    && decide (off < 512 * (w.offset + w.pieces))

/-- One element of a gather from the stashes of the cluster: a plain read of the piece's address in the owning core, through the
tables and in the space the window was mapped under, the piece filled first (R218). -/
def stashRead (s : State) (q : Nat) (ipc o : Word) (n : Nat) : Except Stop (State × Nat) := lateErr do
  if o.toNat % n ≠ 0 then throw (.trap (classA cMISALIGNED 0 o ipc))
  let bad := Stop.trap (classB cXLATE_INVALID 0 o ipc)
  let off := bits o 0 19
  let core := q / 32 * 8 + bits o 19 3
  let p := s.pnum q
  if o.toNat / 2 ^ 22 ≠ 0 ∨ 393216 ≤ off then throw bad
  if !((List.range 4).any fun i => ownerOf (vget (s.core core).inForce.seq i 0) == some p) then throw bad
  match windowAt (s.core core) p off with
  | none => throw bad
  | some w =>
    let va := w.base + word (off - 512 * w.offset)
    let (s, f) ← liftB o ipc (lookup s core p w.root.toNat w.space va .r)
    match f.fail, f.entry with
    | none, some (e, _) =>
      let g : Agent := { core := core, part := p, space := w.space, who := .seq q }
      let x := xlOf e f.pa va
      if x.ctl then throw (.trap (classB cCONTROL_VIOLATION 0 o ipc))
      let s := fillFor s q core w.space x
      let (s, t) ← liftB o ipc (resolve s g x .r)
      let s ← liftB o ipc ((match cachedAt s q x with
        | some a => wordsOf a n
        | none => []).foldlM (fun s w => shareWord s (q / 4) core w) s)
      liftB o ipc (readAt s g n t)
    | cause, _ => throw (.trap (classB (cause.getD cXLATE_INVALID) 0 o ipc))

/-- vldx.c at completion (R218). -/
def loadStash (s : State) (q : Nat) (e : VqEntry) (c : Ctx) : Except Stop (State × Ctx) :=
  (c.actives e).foldlM (fun (s, d) i => do
    let (s, n) ← stashRead s q e.ipc (c.ea e i) e.esz
    return (s, if e.form.touch then d else d.putElem e e.form.d i n)) (s, c)

/-! ## Lane matrices in memory (R238, R239) -/

/-- Element (i, j) of lane `l` of a lane matrix: of one register, or under P = 1 of a pair (R233). -/
def matGet (w : Vector (BitVec 73728) 4) (p : Bool) (r l i j : Nat) : Nat :=
  let at32 := fun (r : Nat) => (vget w r 0).toNat / 2 ^ (32 * (36 * l + 6 * i + j)) % 2 ^ 32
  if p then at32 r + 2 ^ 32 * at32 (r + 1) else at32 r

/-- Element (i, j) of lane `l` becomes `x` (R233). -/
def matPut (w : Vector (BitVec 73728) 4) (p : Bool) (r l i j x : Nat) : Vector (BitVec 73728) 4 :=
  let put32 := fun (w : Vector (BitVec 73728) 4) (r x : Nat) =>
    vset w r (BitVec.ofNat 73728 (setField (vget w r 0).toNat (32 * (36 * l + 6 * i + j)) 32 x))
  if p then put32 (put32 w r x) (r + 1) (x / 2 ^ 32) else put32 w r x

/-- The active lanes of a form (R237). -/
def Ctx.lanes (c : Ctx) (e : VqEntry) : List Nat := (List.range 64).filter (c.active e ·)

/-- Lane, row, column and address of each element a wld or wst accesses (R238). -/
def Ctx.laneElems (c : Ctx) (e : VqEntry) : List (Nat × Nat × Nat × Word) :=
  let esz := if e.form.p then 8 else 4
  let m := e.cols.val
  (c.lanes e).flatMap fun l => (List.range e.rows.val).flatMap fun i => (List.range m).map fun j =>
    (l, i, j, e.x1 + word l * e.x2 + word ((i * m + j) * esz))

/-- wld at completion (R238). -/
def loadLanes (s : State) (q : Nat) (e : VqEntry) (c : Ctx) : Except Stop (State × Ctx) :=
  (c.laneElems e).foldlM (fun (s, c) (l, i, j, ea) => do
    let (s, n) ← loadAt s q e.ipc ea (if e.form.p then 8 else 4)
    return (s, { c with w := matPut c.w e.form.p e.form.d l i j n })) (s, c)

/-- wst starts: every check of every access, then all its writes, the highest-numbered lane's last. A failed check or a
refused write leaves nothing written: where one is refused, the machine stands as before the first (R239, R328). The sectors it
fills whole lose their poison (R368). -/
def storeLanes (s : State) (q : Nat) (e : VqEntry) : Except Stop State := do
  let c := s.ctx q
  let n := if e.form.p then 8 else 4
  let (s, ws) ← (c.laneElems e).foldlM (fun (s, acc) (l, i, j, ea) => do
    let (s, _, t) ← checkAccess s q e.ipc ea n .w
    let s ← lateErr (liftB ea e.ipc (writeReady s n t))
    return (s, (ea, matGet c.w e.form.p e.form.d l i j, t) :: acc)) (s, ([] : List (Word × Nat × Target)))
  let t ← match ws.foldrM (fun (ea, v, t) s => lateErr (liftB ea e.ipc (writeAt s (s.agent q) n v t))) s with
    | .error (.trap t _) => throw (.trap t)
    | .error (.wait u) => throw (.wait { s with cxl := u.cxl })
    | .ok u => .ok u
  return (fillSectors t [] n (lineStarts (ws.map (·.2.2)))).1

end Sys2Proof.Machine
end

