-- ==== Sys2Proof/Machine/LaneMat.lean ====
section
/-!
DEFINITION. Lane-matrix arithmetic (R233 to R247): products, element-wise and structural forms, element access, Cholesky
and LU factorisation and the solves, each lane on its own matrix.
-/
namespace Sys2Proof.Machine

/-- The format of a form's arithmetic: FP32, or FP64 under P = 1. -/
abbrev laneFmt (p : Bool) : Nat := if p then tFP64 else tFP32

/-- x + a × b, rounded once in RNE (R237). -/
def fmaF (t x a b : Nat) : Nat × FlagSet := fmaOp false false t a b x 0 0

/-- x − a × b, rounded once in RNE (R237). -/
def fmsF (t x a b : Nat) : Nat × FlagSet := fmaOp true false t a b x 0 0

/-- Fused steps over pairs in order, from `x` (R240, R247). -/
def chainF (step : Nat → Nat → Nat → Nat × FlagSet) (x : Nat) (ps : List (Nat × Nat)) : Nat × FlagSet :=
  ps.foldl (fun (x, f) (a, b) => let (y, g) := step x a b; (y, f ||| g)) (x, 0)

/-- A lane's 6 × 6 matrix by rows. -/
abbrev Mat := Vector Nat 36

abbrev Mat.at (m : Mat) (i j : Nat) : Nat := vget m (6 * i + j) 0
abbrev Mat.put (m : Mat) (i j x : Nat) : Mat := if j < 6 then vset m (6 * i + j) x else m

/-- A lane's matrix in a register or pair. -/
def matLoad (w : Vector (BitVec 73728) 4) (p : Bool) (r l : Nat) : Mat :=
  Vector.ofFn fun k => matGet w p r l (k.val / 6) (k.val % 6)

/-- A lane's matrix is written back. -/
def matStore (w : Vector (BitVec 73728) 4) (p : Bool) (r l : Nat) (m : Mat) : Vector (BitVec 73728) 4 :=
  (List.range 36).foldl (fun w k => matPut w p r l (k / 6) (k % 6) (vget m k 0)) w

/-- Every place of an n × m block. -/
def places (n m : Nat) : List (Nat × Nat) := (List.range n).flatMap fun i => (List.range m).map fun j => (i, j)

/-- The elements of a block computed one by one, with their flags. -/
def fillBlock (d : Mat) (n m : Nat) (f : Nat → Nat → Nat × FlagSet) : Mat × FlagSet :=
  (places n m).foldl (fun (d, g) (i, j) => let (x, h) := f i j; (d.put i j x, g ||| h)) (d, 0)

/-- Component `r` of a lane vector that starts at register `vb` (R235). -/
def compGet (v : Vector (BitVec 4096) 32) (p : Bool) (vb l r : Nat) : Nat :=
  if p then elemGet v (vb + r) l 64 else elemGet v (vb + r / 2) (2 * l + r % 2) 32

/-- A component of a lane vector becomes `x` (R235). -/
def compPut (v : Vector (BitVec 4096) 32) (p : Bool) (vb l r x : Nat) : Vector (BitVec 4096) 32 :=
  if p then elemPut v (vb + r) l 64 x else elemPut v (vb + r / 2) (2 * l + r % 2) 32 x

/-- The progress of a factorisation of one lane: its matrix, the flags set, and whether it has stopped. -/
structure Fact where
  m : Mat
  f : FlagSet := 0
  failed : Bool := false
  piv : List Nat := []

/-- Column `j` of a Cholesky factorisation (R243, R244). -/
def cholColumn (t n θ : Nat) (s : Fact) (j : Nat) : Fact :=
  if s.failed then s
  else
    let row := fun (i : Nat) => (List.range j).map fun k => s.m.at i k
    let (d, f) := chainF (fmsF t) (s.m.at j j) ((row j).zip (row j))
    let x := valOf t d
    let h := valOf t θ
    let pos := !x.isNaN && ltVal (.ofInt 0) x false
    if !pos || (!h.isNaN && ltVal x h false) then { s with m := s.m.put j j d, f := s.f ||| f, failed := true }
    else
      let (ljj, g) := mathOp .sqrt t d 0 0 0
      let m := s.m.put j j ljj
      (List.range n).foldl (fun s i =>
        if i ≤ j then s
        else
          let (x, f) := chainF (fmsF t) (s.m.at i j) ((row i).zip (row j))
          let (y, g) := mathOp .div t x ljj 0 0
          { s with m := s.m.put i j y, f := s.f ||| f ||| g }) { s with m := m, f := s.f ||| f ||| g }

/-- a is greater in magnitude than b, a NaN being greater than every number (R245). -/
def pivotGreater (t a b : Nat) : Bool :=
  let x := valOf t a
  let y := valOf t b
  if y.isNaN then false else if x.isNaN then true else ltVal y.abs x.abs false

/-- Column `j` of an LU factorisation with partial pivoting (R245). -/
def luColumn (t n : Nat) (s : Fact) (j : Nat) : Fact :=
  let p := (List.range n).foldl (fun p i => if j < i ∧ pivotGreater t (s.m.at i j) (s.m.at p j) then i else p) j
  let m := (List.range n).foldl (fun m c => (m.put j c (s.m.at p c)).put p c (s.m.at j c)) s.m
  let m := if p = j then s.m else m
  let s := { s with m := m, piv := s.piv ++ [p] }
  if (valOf t (s.m.at j j)).isZero then { s with failed := true }
  else (List.range n).foldl (fun s i =>
    if i ≤ j then s
    else
      let (mul, f) := mathOp .div t (s.m.at i j) (s.m.at j j) 0 0
      let s := { s with m := s.m.put i j mul, f := s.f ||| f }
      (List.range n).foldl (fun s c =>
        if c ≤ j then s
        else
          let (x, g) := fmsF t (s.m.at i c) mul (s.m.at j c)
          { s with m := s.m.put i c x, f := s.f ||| g }) s) s

/-- Forward or backward substitution over the rows in `order`: row `i` takes the products its factor gives with the
components already found, then divides where `diag` names a divisor (R247). -/
def substitute (t : Nat) (order : List Nat) (coef : Nat → Nat → Nat) (uses : Nat → List Nat) (diag : Nat → Option Nat)
    (b : List Nat × FlagSet) : List Nat × FlagSet :=
  order.foldl (fun (b, f) i =>
    let (x, g) := chainF (fmsF t) (b.getD i 0) ((uses i).map fun k => (coef i k, b.getD k 0))
    let (y, h) := match diag i with
      | some d => mathOp .div t x d 0 0
      | none => (x, 0)
    (b.set i y, f ||| g ||| h)) b

/-- A solve of one right-hand side of `n` components by Cholesky (R247). -/
def solveChol (t n : Nat) (m : Mat) (b : List Nat) : List Nat × FlagSet :=
  let below := fun (i : Nat) => List.range i
  let above := fun (i : Nat) => (List.range n).filter fun k => decide (i < k)
  let y := substitute t (List.range n) (fun i k => m.at i k) below (fun i => some (m.at i i)) (b, 0)
  substitute t (List.range n).reverse (fun i k => m.at k i) above (fun i => some (m.at i i)) y

/-- A solve of one right-hand side by LU with the lane's pivots (R247). -/
def solveLu (t n : Nat) (m : Mat) (piv : Nat → Nat) (b : List Nat) : List Nat × FlagSet :=
  let below := fun (i : Nat) => List.range i
  let above := fun (i : Nat) => (List.range n).filter fun k => decide (i < k)
  let b := (List.range n).foldl (fun (b, f) j =>
    let p := piv j
    if p < j ∨ n ≤ p then (b, f ||| fNV)
    else ((b.set j (b.getD p 0)).set p (b.getD j 0), f)) (b, (0 : FlagSet))
  let y := substitute t (List.range n) (fun i k => m.at i k) below (fun _ => none) b
  substitute t (List.range n).reverse (fun i k => m.at i k) above (fun i => some (m.at i i)) y

/-- One active lane of a lane-matrix form (R240 to R247): `c` holds the results of the lanes before it, `c0` every source. -/
def laneStep (e : VqEntry) (c0 c : Ctx) (l : Nat) : Ctx :=
  let f := e.form
  let p := f.p
  let t := laneFmt p
  let n := e.rows.val
  let m := e.cols.val
  let src := fun r => matLoad c0.w p r l
  let a := src f.a
  let b := src f.b
  let out := fun (r : Mat × FlagSet) => ({ c with w := matStore c.w p f.d l r.1 } : Ctx).sticky e l r.2
  match f.op with
  | .wmul .mul =>
    out (fillBlock (src f.d) n m fun i j => chainF (fmaF t) 0 ((List.range m).map fun k => (a.at i k, b.at k j)))
  | .wmul .mac =>
    out (fillBlock (src f.d) n m fun i j =>
      chainF (fmaF t) ((src f.d).at i j) ((List.range m).map fun k => (a.at i k, b.at k j)))
  | .wmul .mult =>
    out (fillBlock (src f.d) n n fun i j => chainF (fmaF t) 0 ((List.range m).map fun k => (a.at i k, b.at j k)))
  | .wadd sub => out (fillBlock (src f.d) n m fun i j => floatBin (if sub then .sub else .add) t (a.at i j) (b.at i j) 0 0)
  | .wscal =>
    let x := e.x1.toNat % 2 ^ ewOf t
    out (fillBlock (src f.d) n m fun i j => floatBin .mul t (a.at i j) x 0 0)
  | .wtrn => out (fillBlock (src f.d) m n fun i j => (a.at j i, 0))
  | .wid => out (fillBlock (src f.d) n m fun i j => (if i = j then (roundTo t (.ofInt 1) 0 0).1 else 0, 0))
  | .wcpy => out (fillBlock (src f.d) n m fun i j => (a.at i j, 0))
  | .wget => { c with v := compPut c.v p f.c l 0 (a.at (f.imm.toNat % 8) (f.imm.toNat / 8)) }
  | .wput => { c with w := matPut c.w p f.d l (f.imm.toNat % 8) (f.imm.toNat / 8) (compGet c0.v p f.c l 0) }
  | .wchol =>
    let r := (List.range n).foldl (cholColumn t n (e.tsave.toNat % 2 ^ ewOf t)) { m := src f.d }
    (out (r.m, r.f)).putBit f.res l r.failed
  | .wlu =>
    let r := (List.range n).foldl (luColumn t n) { m := src f.d }
    let c := (out (r.m, r.f)).putBit f.res l r.failed
    { c with v := (List.range 8).foldl (fun v k => elemPut v f.c (8 * l + k) 8 (r.piv.getD k 0)) c.v }
  | .wsolve piv =>
    let cnt := if p then f.d / 2 + 1 else f.d + 1
    let v0 := if piv then f.c + 1 else f.c
    (List.range cnt).foldl (fun c q =>
      let vb := v0 + q * laneRun p n
      let rhs := (List.range n).map fun r => compGet c0.v p vb l r
      let (x, g) := if piv then solveLu t n a (fun j => elemGet c0.v f.c (8 * l + j) 8) rhs else solveChol t n a rhs
      ({ c with v := (List.range n).foldl (fun v r => compPut v p vb l r (x.getD r 0)) c.v } : Ctx).sticky e l g) c
  | _ => c

/-- A lane-matrix form at completion. -/
def Ctx.laneMatrix (c : Ctx) (e : VqEntry) : Ctx := (c.lanes e).foldl (laneStep e c) c

end Sys2Proof.Machine
end

