-- ==== Sys2Proof/Machine/Tile.lean ====
section
/-!
DEFINITION. The tile engine (R252 to R263): films and their frames, the block steps of tmma and tmms, the Detached
operations of a tile in their order, and what tread and tepi read.
-/
namespace Sys2Proof.Machine

/-! ## Films (R255, R256) -/

/-- Bytes of a frame row, and of a frame's side band (R255). -/
def Film.rowBytes (f : Film) : Nat := if f.rowb = 1 then 128 else 512
def Film.sideBytes (f : Film) : Nat := if f.sb = 1 then 1024 else if f.sb = 2 then 2048 else 0

/-- Bytes of a frame, and the frames a film holds (R255). -/
def Film.frameBytes (f : Film) : Nat := 64 * f.rowBytes + f.sideBytes
def Film.cap (f : Film) : Nat :=
  let n := 65536 / (64 * f.rowBytes)
  if f.sideBytes = 0 then n else min n (4096 / f.sideBytes)

/-- Complete frames (R256). -/
def Film.ready (f : Film) : Nat := f.fill / f.frameBytes

/-- The head frame is freed (R256). -/
def Film.pop (f : Film) : Film :=
  if f.ready = 0 then f
  else { f with
    data := BitVec.ofNat 557056 (f.data.toNat / 2 ^ (8 * f.frameBytes))
    fill := f.fill - f.frameBytes
    kept := false }

/-- Bytes that land are appended, and counted to their command until the frame they fill is complete (R256, R272). -/
def Film.append (f : Film) (n v order : Nat) : Film :=
  { f with
    data := BitVec.ofNat 557056 (setField f.data.toNat (8 * f.fill) (8 * n) v)
    fill := f.fill + n
    parts := if (f.fill + n) % f.frameBytes = 0 then [] else put f.parts order (get f.parts order 0 + n) }

/-- There is room for `n` more bytes (R256). -/
def Film.room (f : Film) (n : Nat) : Bool := decide (f.fill + n ≤ f.cap * f.frameBytes)

/-- Element `k` of row `r` of the head frame, for a tag (R256). -/
def Film.elem (f : Film) (t r k : Nat) : Nat :=
  f.data.toNat / 2 ^ (8 * r * f.rowBytes + k * ewOf t) % 2 ^ ewOf t

/-- The scale code of block `b` of row `r` of the head frame; 127 where the film has no side band (R256, R258). -/
def Film.scale (f : Film) (t r b : Nat) : Nat :=
  if f.sb = 0 then 127
  else f.data.toNat / 2 ^ (8 * (64 * f.rowBytes + r * (frameK t / 32) + b)) % 2 ^ 8

/-! ## Tiles -/

/-- Element (i, j) of a tile (R252). -/
def Tile.at (t : Tile) (i j : Nat) : Nat := t.acc.toNat / 2 ^ (32 * (64 * i + j)) % 2 ^ 32

/-- A tile's elements from a list of 4,096 in row order. -/
def tileOf (xs : List Nat) : BitVec 131072 := BitVec.ofNat 131072 (xs.foldr (fun x n => x % 2 ^ 32 + 2 ^ 32 * n) 0)

/-- The flags a Detached operation gathers, of those it sets: NV, OF, TR and SAT (R126, R254). -/
def gatherOf (f : FlagSet) : BitVec 4 :=
  BitVec.ofNat 4 ((f.getLsbD 0).toNat + 2 * (f.getLsbD 2).toNat + 4 * (f.getLsbD 6).toNat + 8 * (f.getLsbD 5).toNat)

/-- Whether scales apply to a product (R258). -/
def scalesUsed (ta td : Nat) : Bool := td == tFP32 && isMX ta

/-- One element's block step: pairs of elements with the scale codes of the block, into an FP32 or I32 tile (R130, R131,
R259). -/
def tileStep (ta tb td acc : Nat) (xs : List (Nat × Nat)) (sa sb : Nat) : Nat × FlagSet :=
  if td = tI32 then
    let (p, f) := xs.foldl (fun (p, f) (x, y) =>
      let val := fun (t n : Nat) => if t = tT2 then t2Val n else (signedOf 8 n, (0 : FlagSet))
      let (u, g) := val ta x
      let (v, h) := val tb y
      (p + u * v, f ||| g ||| h)) ((0 : Int), (0 : FlagSet))
    let (r, g) := blockStepInt acc p
    (r, f ||| g)
  else blockStep acc (xs.map fun (x, y) => (mxVal ta x, mxVal tb y)) sa sb

/-- Block `b` of a tmma at element (i, j) (R259). -/
def mmaElem (fa fb : Film) (ta tb td b i j acc : Nat) : Nat × FlagSet :=
  let ks := (List.range 32).map (32 * b + ·)
  let u := scalesUsed ta td
  tileStep ta tb td acc (ks.map fun k => (fa.elem ta i k, fb.elem tb j k)) (if u then fa.scale ta i b else 127)
    (if u then fb.scale tb j b else 127)

/-- Block `b` of a tmms at element (i, j): the index list names the columns of B (R260). -/
def mmsElem (fa fb : Film) (t td b i j acc : Nat) (idx : List Int) : Nat × FlagSet :=
  let ks := (List.range 32).map (32 * b + ·) |>.filter (decide <| · < idx.length)
  let u := scalesUsed t td
  let ins := ks.filterMap fun k =>
    let x := idx.getD k 0
    if 0 ≤ x ∧ x < frameK t then some (k, x.toNat) else none
  let bad : FlagSet := if ins.length < ks.length then fNV else 0
  let (r, f) :=
    if td = tI32 then tileStep t t td acc (ins.map fun (k, x) => (fa.elem t i k, fb.elem t j x)) 127 127
    else blockStep acc (ins.map fun (k, x) =>
      let sb := if u then fb.scale t j (x / 32) else 127
      (mxVal t (fa.elem t i k), if sb = 255 then .nan false else (mxVal t (fb.elem t j x)).shift ((sb : Int) - 127)))
      (if u then fa.scale t i b else 127) 127
  (r, f ||| bad)

/-- Blocks of a Detached operation (R23, R259, R260). -/
def TileOp.blocks (o : TileOp) : Nat :=
  match o.e.form.op with
  | .tmma => frameK o.e.form.aTag / 32
  | .tmms => (o.idx.length + 31) / 32
  | _ => 1

/-- The captured indices of a tmms as numbers (R211). -/
def TileOp.indices (o : TileOp) : List Int := o.idx.map fun n => intOf (o.e.tag o.e.form.c) n

/-- The next block of a tile's running operation is done (R257, R259 to R261). -/
def blockDone (x : Core) (t : Nat) (o : TileOp) : Core × TileOp :=
  let tl := vget x.tiles t {}
  let f := o.e.form
  let td := tl.tag.toNat
  let prod := fun (g : Nat → Nat → Nat → Nat × FlagSet) =>
    let rs := (List.range 4096).map fun k =>
      let old := if f.zero ∧ o.next = 0 then 0 else tl.at (k / 64) (k % 64)
      g (k / 64) (k % 64) old
    { tl with
      acc := tileOf (rs.map (·.1))
      gathered := tl.gathered ||| gatherOf (rs.foldl (fun m r => m ||| r.2) 0) }
  let (ta, tb) := f.frameTags
  let tl' := match f.op with
    | .tmma =>
      prod fun i j acc => mmaElem (vget x.films f.a {}) (vget x.films f.b {}) ta tb td o.next i j acc
    | .tmms =>
      prod fun i j acc => mmsElem (vget x.films f.a {}) (vget x.films f.b {}) ta td o.next i j acc o.indices
    | .tacc => { tl with acc := tileOf ((List.range 4096).map fun k => o.idx.getD (k % 64) 0) }
    | .twrite =>
      { tl with acc := tileOf ((List.range 4096).map fun k =>
          if k / 64 = f.row then o.idx.getD (k % 64) 0 else tl.at (k / 64) (k % 64)) }
    | _ => tl
  ({ x with tiles := vset x.tiles t tl' }, { o with next := o.next + 1, resumed := false })

/-- `n` further blocks of a tile's running operation. -/
def runBlocks : Nat → Core → Nat → TileOp → Core × TileOp
  | 0, x, _, o => (x, o)
  | n + 1, x, t, o => if o.next < o.blocks then let (x, o) := blockDone x t o; runBlocks n x t o else (x, o)

/-- A tmms of no blocks still zeroes its tile under z (R260). -/
def zeroTile (x : Core) (t : Nat) (o : TileOp) : Core :=
  if o.blocks = 0 ∧ o.e.form.zero then { x with tiles := vset x.tiles t { vget x.tiles t {} with acc := 0 } } else x

/-- The frames of a finished product are popped or kept (R259, R260). -/
def popFrames (x : Core) (f : VForm) : Core :=
  let one := fun (x : Core) (n : Nat) (keep : Bool) =>
    let fl := vget x.films n {}
    { x with films := vset x.films n (if keep then { fl with kept := true } else fl.pop) }
  match f.op with
  | .tmma | .tmms => one (one x f.a f.keepA) f.b f.keepB
  | _ => x

/-- The films a product reads each have a complete head frame (R259). -/
def framesReady (x : Core) (f : VForm) : Bool :=
  match f.op with
  | .tmma | .tmms => decide (0 < (vget x.films f.a {}).ready) && decide (0 < (vget x.films f.b {}).ready)
  | _ => true

/-- The data a Detached operation takes from a vector register when it starts: the indices of a tmms, the row of tacc and
twrite. -/
def Ctx.tileData (c : Ctx) (e : VqEntry) : List Nat :=
  match e.form.op with
  | .tmms => (List.range e.vl).map fun i => c.elem e e.form.c i
  | .tacc | .twrite => (List.range 64).map fun j => elemGet c.v e.form.c j 32
  | _ => []

/-! ## The engine (R253, R254, R259) -/

/-- A product reads films and adds to its tile. -/
def TileOp.product (o : TileOp) : Bool := o.e.form.op == .tmma || o.e.form.op == .tmms

/-- The engine of a core runs a product (R259): it has one. -/
def engineBusy (x : Core) : Bool := x.tiles.toList.any fun t => t.ops.any fun o => o.started && o.product

/-- A product that another tile holds half run, as a save image brought it back, goes on before any other starts: the frames it
has read stand at the heads of its films (R254). -/
def halfRun (x : Core) (t : Nat) : Bool :=
  (List.range 8).any fun i => i != t && match (vget x.tiles i {}).ops with
    | o :: _ => !o.started && o.product && decide (0 < o.next)
    | [] => false

/-- A Detached operation reaches its tile (R253): it stands behind those accepted before it. -/
def Tile.take (tl : Tile) (o : TileOp) : Tile :=
  let p := fun (a : TileOp) => a.started || decide (a.e.ord ≤ o.e.ord)
  { tl with ops := tl.ops.takeWhile p ++ [o] ++ tl.ops.dropWhile p }

/-- Steps of a tile product (R258, R260), of `n` elements of a tmms. -/
def productSteps (e : VqEntry) : Nat :=
  let (ta, tb) := e.form.frameTags
  let perBlock := if ta = tT2 ∨ tb = tT2 then 2 else if ta = tE2M1 then 4 else if ta = tBF16 ∨ ta = tFP16 then 16
    else if ta = tFP32 then 128 else 8
  if e.form.op = .tmma then frameK ta / 32 * perBlock else (e.vl + 31) / 32 * perBlock

/-- Element-beats are charged to a sequencer and to the queue its task came from (R376, R386). -/
def chargeBeats (s : State) (q n : Nat) : State :=
  let c := s.ctx q
  let s := { s.setCtx q { c with beats := c.beats + n } with
    recent := s.recent.filter (fun r => decide (s.time < r.1 + 100000)) ++ [(s.time, q, n)] }
  match c.task with
  | some t => s.setQueue t.queue { s.queue t.queue with charge := (s.queue t.queue).charge + word n }
  | none => s

/-- Element-beats of a product for the blocks it has still to run (R386). -/
def TileOp.beats (o : TileOp) : Nat := 64 * (productSteps o.e * (o.blocks - o.next) / max 1 o.blocks)

/-- The oldest Detached operation of a tile starts, unless one is already running, an older use of the tile is still to come, or
the frames or the engine of a product are not ready (R253, R259). A follow-on with E = 1 waits for its tile like one with E = 0: how
an EMPTY_READ would be reported there the spec does not say, a DESIGN CHOICE (log entry 90). One that came with a copy or from a save image is charged
now (R386). -/
def startTile (s : State) (core t : Nat) : State :=
  let x := s.core core
  let tl := vget x.tiles t {}
  match tl.ops with
  | [] => s
  | o :: r =>
    if o.started || !framesReady x o.e.form || (o.product && (engineBusy x || halfRun x t)) || tileAhead s o.seq t o.e.ord then s
    else
      let tl := match o.e.form.op with
        | .tacc => { tl with tag := (o.e.reg o.e.form.c).tag }
        | _ => tl
      let s := s.setCore core { x with tiles := vset x.tiles t { tl with ops := { o with started := true, owed := false } :: r } }
      if o.owed then chargeBeats s o.seq o.beats else s

/-- The running operation of a tile completes; as the tile becomes full its gathered flags are set in the claiming
sequencer (R126, R253, R254). -/
def completeTile (s : State) (core t : Nat) : State :=
  let x := s.core core
  let tl := vget x.tiles t {}
  match tl.ops with
  | [] => tileFlags s core t
  | o :: r =>
    if !o.started then s
    else
      let (x, o) := runBlocks o.blocks (zeroTile x t o) t o
      let x := popFrames x o.e.form
      tileFlags (s.setCore core { x with tiles := vset x.tiles t { vget x.tiles t {} with ops := r } }) core t

/-! ## tread and tepi (R261, R263) -/

/-- relu, gelu or silu of an FP32 value (R263). The spec states no value of gelu and silu at −∞: `free` stands for it. -/
def activation (act n : Nat) (free : Word) : Nat × FlagSet :=
  let y := valOf tFP32 n
  if act = 0 then (n, 0)
  else match y with
    | .nan g => (0x7FC00000, if g then fNV else 0)
    | .inf false => (0x7F800000, 0)
    | .inf true => if act = 1 then (0, 0) else (free.toNat % 2 ^ 32, 0)
    | .fin neg a b e =>
      if act = 1 then (if neg then 0 else n, 0)
      else roundTo tFP32 (if act = 2 then geluFin neg a b e else siluFin neg a b e) 0 0

/-- tread copies a row of its tile, and tepi converts one, at completion (R261, R263). -/
def Ctx.readTile (c : Ctx) (e : VqEntry) (tl : Tile) (tick : Nat) : Ctx :=
  let f := e.form
  match f.op with
  | .tread => { c with v := (List.range 64).foldl (fun v j => elemPut v f.c j 32 (tl.at f.row j)) c.v }
  | .tepi =>
    let td := e.tag f.c
    let rm := e.rm.toNat
    (List.range 64).foldl (fun d j =>
      let (a, g0) := if tl.tag.toNat = tI32 then roundTo tFP32 (.ofInt (signedOf 32 (tl.at f.row j))) 0 0
        else (tl.at f.row j, 0)
      let bias := elemGet c.v (f.c + 1) j 32
      let scale := elemGet c.v (f.c + 1) (64 + j) 32
      let (y, g1) := fmaF tFP32 bias a scale
      let (z, g2) := activation f.act y (Config.freeWord (tick + j))
      let (r, g3) := cvtTo td (valOf tFP32 z) none rm (draw c e j)
      ({ d with v := elemPut d.v f.c j (ewOf td) r } : Ctx).sticky e (laneOf (ewOf td) j) (g0 ||| g1 ||| g2 ||| g3)) c
  | _ => c

end Sys2Proof.Machine
end

