-- ==== Sys2Proof/Machine/BackEnd.lean ====
section
/-!
DEFINITION. The back end (R15, R19 to R23, R31): when the head of the VIQ starts, alone or joining the chain, what it is
charged (R386), the commit of element groups (R21, R53, R198), completion with the writes, flags and traps it brings
(R125, R186, R221), and the issue of a vector-queue instruction by the scalar side.
-/
namespace Sys2Proof.Machine

/-! ## Pipes and charges -/

/-- Pipes of each class, in the order MA0, MA1, LD0, LD1, ST0, PM0, LM0, TE0 (R19, R342). -/
def Pipe.sets (p : Pipe) : List (List Nat) :=
  match p with
  | .ma => [[0, 1]]
  | .ld => [[2, 3]]
  | .st => [[4]]
  | .pm => [[5]]
  | .ldpm => [[2, 3], [5]]
  | .ldst => [[2, 3], [4]]
  | .lm => [[6]]
  | .te => [[7]]

/-- An accepted instruction may count a pipe as its partition's: it is in service for it, and no COMMIT since its acceptance
has taken it away (R350). -/
def pipeOf (s : State) (q : Nat) (e : VqEntry) (i : Nat) : Bool :=
  let x := s.core (q / 4)
  (s.partOfSeq q).isSome && ownerOf (vget x.inForce.pipe i 0) == s.partOfSeq q
    && (e.pipes.getLsbD i || ownerOf (vget x.active.pipe i 0) == s.partOfSeq q)

/-- Each pipe class of an instruction has a pipe it may use (R19). -/
def pipesOk (s : State) (q : Nat) (e : VqEntry) : Bool := e.form.op.pipe.sets.all fun l => l.any (pipeOf s q e)

/-- A chain's members can each have a pipe of their own (R20). -/
def pipesFit (s : State) (q : Nat) (es : List VqEntry) : Bool :=
  let need := fun (l : List Nat) => (es.filter fun e => e.form.op.pipe.sets.contains l).length
  [[0, 1], [2, 3], [4], [5]].all fun l => match es with
    | e :: _ => decide (need l ≤ (l.filter (pipeOf s q e)).length)
    | [] => true

/-- The latency of a lane-matrix form on registers alone (R250). -/
def laneLatency (e : VqEntry) : Nat :=
  let n := e.rows.val
  let k := match e.form.op with
    | .wdim => 1
    | .wget | .wput => 3
    | .wmul _ => 4 + 4 * e.cols.val
    | .wchol => 30 * n
    | .wlu => 36 * n
    | .wsolve _ => 20 * n * (if e.form.p then e.form.d / 2 + 1 else e.form.d + 1)
    | _ => 4
  if e.form.p then 2 * k else k

/-- The width that charges an instruction (R386). -/
def chargeWidth (e : VqEntry) : Nat :=
  let f := e.form
  match f.op with
  | .klog _ | .kpopc | .kfirst | .kvl => 1
  | .cmp _ | .red .. | .kfrom | .mcast | .vget => ewOf (e.tag f.a)
  | _ => ewOf (e.tag f.d)

/-- Element-beats of one pipe class (R386): an instruction that starts at a vstart charges for the elements from there, and a form
that ignores vstart (R186, R224) for all. The
latency of wld and wst is not fixed by the spec: `free` stands for it. -/
def chargeOf (e : VqEntry) (free : Nat) : Nat :=
  let vl := if e.form.op.restart == .element && e.form.op != .kvl then e.vl - e.start else e.vl
  match e.form.op with
  | .wld | .wst => free
  | .wmul _ | .wchol | .wlu | .wsolve _ | .wadd _ | .wscal | .wtrn | .wid | .wcpy | .wdim | .wget | .wput => laneLatency e
  | .tacc | .twrite | .tread | .tepi => 64
  | .tmma | .tmms => 64 * productSteps e
  | .flgRd | .flgClr => 1
  | _ => max 1 ((vl * chargeWidth e + 63) / 64)

/-- A started instruction is charged (R386). -/
def chargeStart (s : State) (q : Nat) (e : VqEntry) : State :=
  chargeBeats { s with tick := s.tick + 1 } q (chargeOf e (Config.freeNat s.tick) * e.form.op.pipe.sets.length)

/-! ## Starting -/

/-- A vector register that started instructions will fill, or that the queue's own instructions, none older than its head,
have emptied at their acceptance (R30, R31). -/
def Ctx.queueFillsV (c : Ctx) (r : Nat) : Bool :=
  (c.run ++ c.viq).any fun e => e.form.emptiesV && decide (e.form.d ≤ r) && decide (r < e.form.d + 2 ^ e.grp e.form.d)

/-- A vector source group counts as full (R31). -/
def Ctx.vFull (c : Ctx) (e : VqEntry) (r : Nat) : Bool :=
  (List.range (2 ^ e.grp r)).all fun i => c.feV.getLsbD (r + i) || c.queueFillsV (r + i)

/-- A lane-matrix source counts as full: one that only the queue's own instructions have emptied does (R30, R31). -/
def Ctx.wFull (c : Ctx) (r : Nat) : Bool :=
  c.feW.getLsbD r || c.viq.any fun e => match e.form.op with
    | .wld => (wRegs e.form.p e.form.d false).any (·.1 == r)
    | _ => false

/-- A mask source counts as full: one that only a younger held gath has emptied does (R31, R273). -/
def Ctx.kFull (c : Ctx) (e : VqEntry) (k : Nat) : Bool :=
  k == 0 || c.feK.getLsbD k || c.sb.any fun h => decide (e.ord < h.ord) && match h.op with
    | .gath _ _ _ _ kd => kd == k
    | _ => false

/-- Every older held instruction and load has been performed (R18). -/
def Ctx.clearBefore (c : Ctx) (ord : Nat) : Bool :=
  (c.sb.all fun h => decide (ord ≤ h.ord)) && c.loads.all fun l => decide (ord ≤ l.ord)

/-- The E bits of an instruction's empty sources, with registers numbered as they stand (R31). -/
def emptySources (s : State) (q : Nat) (e : VqEntry) : List Bool :=
  let c := s.ctx q
  let r := e.roles
  (r.vs.filter fun x => !c.vFull e x.1).map (·.2)
    ++ (r.ks.filter fun x => !c.kFull e x.1).map (·.2)
    ++ (r.ws.filter fun x => !c.wFull x.1).map (·.2)
    ++ (match r.tr with
      | some (t, b) => if tileBusy s q t e.ord then [b] else []
      | none => [])

/-- Cores a vmcast's gang names (R225). -/
def gangOf (q : Nat) (e : VqEntry) : List Nat :=
  (List.range 8).filterMap fun i => if e.x1.getLsbD i then some (q / 32 * 8 + i) else none

/-- A partition owns a sequencer of a core. -/
def ownsSeqIn (s : State) (core p : Nat) : Bool :=
  (List.range 4).any fun i => ownerOf (vget (s.core core).inForce.seq i 0) == some p

/-- Registers free in a core's receive pool (R226). -/
def poolFree (x : Core) : Nat :=
  64 - x.recvq.foldl (fun n r => n + r.2.strips.foldl (fun m t => m + 2 ^ t.grp.val) 0) 0

/-- The first landed strip of a partition's receive queue (R227). -/
def headStrip (s : State) (q : Nat) : Option Strip :=
  (get (s.core (q / 4)).recvq (s.pnum q) {}).strips.find? (·.landed)

/-- The conditions of a start beyond its sources: a stop is the trap it takes, or a wait (R19, R20, R22, R225 to R229,
R259). -/
def startCheck (s : State) (q : Nat) (e : VqEntry) : Except Stop Unit :=
  let c := s.ctx q
  let trap := fun cause sub tval => Except.error (.trap { classA cause sub tval e.ipc with late := true })
  let w := e.form.word.setWidth 64
  if !c.clearBefore e.ord then .error (.wait s)
  else if !pipesOk s q e then trap cPIPE_UNOWNED 0 w
  else
    let es := emptySources s q e
    if !es.isEmpty then (if es.contains true then trap cEMPTY_READ 0 w else .error (.wait s))
    else
      let kdBusy := match e.roles.kd with
        | some k => k != 0 && !c.feK.getLsbD k && (gathMasks s q).contains k
        | none => false
      let twBusy := match e.roles.tw with
        | some t => tileBusy s q t e.ord
        | none => false
      let x := s.core (q / 4)
      let product := e.form.op == .tmma || e.form.op == .tmms
      if kdBusy || twBusy || !framesReady x e.form || (product && (engineBusy x || halfRun x e.form.d)) then .error (.wait s)
      else match e.form.op with
        | .mcast =>
          if (gangOf q e).any fun n => !ownsSeqIn s n (s.pnum q) then trap cILLEGAL 0 e.x1
          else if (gangOf q e).all fun n => decide (2 ^ e.grp e.form.a ≤ poolFree (s.core n)) then .ok ()
          else .error (.wait s)
        | .recv => match headStrip s q with
          | none => .error (.wait s)
          | some t =>
            if t.tag = (e.reg e.form.d).tag ∧ t.grp = (e.reg e.form.d).grp then .ok () else trap cTAG 0 w
        | _ => .ok ()

/-- Where an element of a memory form lies, as far as it translates: its place without its address, and that. -/
def elemPlace (s : State) (q : Nat) (e : VqEntry) (i : Nat) : Option ((Bool × Nat) × Nat) :=
  match translate s q ((s.ctx q).ea e i) .any with
  | .ok (_, x) => some ((x.host, x.dev), x.pa)
  | .error _ => none

/-- The elements of two memory forms share no byte, whatever their masks will be when they are accessed, and through whatever
pages (R214): only so do two of them stand in one chain. Where one does not translate, they are told apart by nothing. -/
def apart (s : State) (q : Nat) (a b : VqEntry) : Bool :=
  let places := fun (e : VqEntry) => (List.range e.vl).map fun i => elemPlace s q e i
  (places a).all fun x => (places b).all fun y => match x, y with
    | some (p, m), some (r, n) => p != r || decide (m + a.esz ≤ n) || decide (n + b.esz ≤ m)
    | _, _ => false

/-- Registers of one instruction that another writes are named by both in one shape. -/
def sameShape (a b : VqEntry) : Bool :=
  let regs := fun (e : VqEntry) => e.roles.vd.toList ++ e.roles.vs.map (·.1)
  a.roles.vd.toList.all fun d => (regs b).all fun r =>
    let meet := decide (d < r + 2 ^ b.grp r) && decide (r < d + 2 ^ a.grp d)
    !meet || (d == r && a.grp d == b.grp r && ewOf (a.tag d) == ewOf (b.tag r))

/-- The forms of the Element class that stand alone here: updates, those whose elements span blocks or that write beyond vl,
and accesses that meet an alignment trap. -/
def soloForm (c : Ctx) (e : VqEntry) : Bool :=
  match e.form.op with
  | .sign | .kvl | .amo .. => true
  | .cvt _ => (e.reg e.form.d).scaled || (e.reg e.form.a).scaled
  | .ld .. | .st .. => (List.range e.vl).any fun i => c.active e i && (c.ea e i).toNat % e.esz != 0
  | _ => false

/-- An instruction may join the chain in progress (R20, R122, R214); a resumed one is joined by none, so that it completes its
start element alone before it may fault again (R35, R53). -/
def joins (s : State) (q : Nat) (e : VqEntry) : Bool :=
  let c := s.ctx q
  match c.run with
  | [] => false
  | r0 :: _ =>
    (e :: c.run).all (fun x => x.form.op.restart == .element && !soloForm c x && x.start == r0.start && !x.resumed)
      && c.runG == r0.start && pipesFit s q (c.run ++ [e])
      && !(e.rsr && c.run.any (·.rsr))
      && c.run.all (fun x => sameShape x e && sameShape e x)
      && (!(e.form.op.isLoad || e.form.op.isAmo) || c.run.all fun x => !(x.form.op.isStore || x.form.op.isAmo))
      && (!e.form.op.isMem || c.run.all fun x => !x.form.op.isMem || (x.form.op.isLoad && e.form.op.isLoad) || apart s q x e)
      && (match e.form.op with
        | .ld .indexed .. | .st .indexed .. | .amo .. => c.run.all fun x => x.roles.vd != some e.form.c
        | _ => true)

/-- The head of the VIQ leaves it. -/
def Ctx.dequeue (c : Ctx) : Ctx := { c with viq := c.viq.tail }

/-- The elements a vmcast sends: the whole group, elements inactive or from vl on as zero (R225). -/
def Ctx.stripData (c : Ctx) (e : VqEntry) : List (BitVec 4096) :=
  let r := e.form.a
  let g := 2 ^ e.grp r
  let ew := ewOf (e.tag r)
  let per := 4096 / ew
  (List.range g).map fun j => BitVec.ofNat 4096 ((List.range per).foldr (fun k n =>
    let i := j * per + k
    (if i < e.vl ∧ c.active e i then cutElem (e.tag r) (elemGet c.v r i ew) else 0) + 2 ^ ew * n) 0)

/-- A strip is reserved at a member (R226). -/
def reserveAt (p : Nat) (t : Strip) (s : State) (core : Nat) : State :=
  let x := s.core core
  let r := get x.recvq p {}
  s.setCore core { x with recvq := put x.recvq p { r with strips := r.strips ++ [t] } }

/-- The head strip of the receive queue is bound to a register's group, which becomes full (R227): the bits it carries are the
register's, whatever they are (R225). -/
def bindStrip (s : State) (q : Nat) (e : VqEntry) : State :=
  match headStrip s q with
  | none => s
  | some t =>
    let x := s.core (q / 4)
    let p := s.pnum q
    let r := get x.recvq p {}
    let s := s.setCore (q / 4) { x with recvq := put x.recvq p { r with strips := r.strips.filter fun u => u.id != t.id } }
    let c := s.ctx q
    let d := e.form.d
    let v := (List.range t.data.length).foldl (fun v i => vset v (d + i) (t.data.getD i 0)) c.v
    let fe := (List.range t.data.length).foldl (fun m i => setBit m (d + i) true) c.feV
    s.setCtx q { c with v := v, feV := fe }

/-- The head of the VIQ starts: alone, joining the chain, or leaving for its tile; a wst performs its writes, a vmcast
reserves and a vrecv takes its strip (R15, R20, R23, R226, R227, R239). -/
def startHead (s : State) (q : Nat) : Except Stop State := do
  let c := s.ctx q
  match c.viq with
  | [] => throw (.wait s)
  | e :: _ =>
    match startCheck s q e with
    | .error (.wait s') => throw (.wait s')
    | .error (.trap t _) => if c.run.isEmpty then throw (.trap t) else throw (.wait s)
    | .ok () =>
      if !c.run.isEmpty then
        if joins s q e then
          let s := s.setCtx q { c.dequeue with run := c.run ++ [e] }
          return chargeStart s q e
        else throw (.wait s)
      else
        let begin_ := fun (s : State) => (chargeStart (s.setCtx q { (s.ctx q).dequeue with run := [e], runG := e.start, runArith := none, runFill := [] }) q e)
        match e.form.op with
        | .tacc | .tmma | .tmms | .twrite =>
          let o : TileOp := { e := e, seq := q, idx := c.tileData e, started := false, next := 0 }
          let s := setTile (s.setCtx q c.dequeue) (q / 4) e.form.d ((vget (s.core (q / 4)).tiles e.form.d {}).take o)
          return chargeStart (startTile s (q / 4) e.form.d) q e
        | .wst =>
          let s ← storeLanes s q e
          return begin_ s
        | .mcast =>
          let t : Strip := { id := 2048 * c.mcSent + q, sender := q, tag := (e.reg e.form.a).tag, grp := (e.reg e.form.a).grp,
                             vl := e.vl, data := c.stripData e, landed := false }
          let s := (gangOf q e).foldl (reserveAt (s.pnum q) t) s
          let s := s.setCtx q { s.ctx q with mcSent := c.mcSent + 1 }
          return begin_ s
        | .recv =>
          let s := bindStrip s q e
          return chargeStart (s.setCtx q (s.ctx q).dequeue) q e
        | _ => return begin_ s

/-! ## The order of ready heads (R387) -/

/-- The deadline of a sequencer's task, where it lies within its partition's URGENCY of the device time (R387). -/
def urgentDeadline (s : State) (q : Nat) : Option Nat :=
  match (s.ctx q).task with
  | some t => if t.deadline < 2 ^ 64 - 1 ∧ t.deadline ≤ s.time + (s.part (s.pnum q)).urgency.toNat then some t.deadline else none
  | none => none

/-- The CHARGE and SHARE of the queue a sequencer's task came from: 0 and 1 where it has none (R387). -/
def virtualTime (s : State) (q : Nat) : Nat × Nat :=
  match (s.ctx q).task with
  | some t => ((s.queue t.queue).charge.toNat, max 1 (s.queue t.queue).share.toNat)
  | none => (0, 1)

/-- The head of one sequencer is taken before that of another: by deadline, by CHARGE ÷ SHARE, by number (R387). -/
def takenBefore (s : State) (a b : Nat) : Bool :=
  let rest :=
    let (c, n) := virtualTime s a
    let (d, m) := virtualTime s b
    decide (c * m < d * n) || (c * m == d * n && decide (a < b))
  match urgentDeadline s a, urgentDeadline s b with
  | some x, some y => decide (x < y) || (x == y && rest)
  | some _, none => true
  | none, some _ => false
  | none, none => rest

/-- A sequencer's head is ready: it would start now, or meet its trap. -/
def headReady (s : State) (q : Nat) : Bool :=
  !(s.ctx q).viq.isEmpty && match startHead s q with
    | .error (.wait _) => false
    | _ => true

/-- A ready head of another sequencer in the issue queue of the core and partition is taken first (R387). -/
def headOutranked (s : State) (q : Nat) : Bool :=
  (List.range 4).any fun i =>
    let p := q / 4 * 4 + i
    p != q && s.pnum p == s.pnum q && takenBefore s p q && headReady s p

/-- The head of a sequencer's VIQ starts in its turn among those of its core and partition (R387). -/
def startNext (s : State) (q : Nat) : Except Stop State := if headOutranked s q then .error (.wait s) else startHead s q

/-! ## Committing and completing -/

/-- Where a member stops: kvl writes its mask at completion. -/
def VqEntry.stop (e : VqEntry) : Nat := if e.form.op = .kvl then 0 else e.vl

/-- The elements of the chain in progress, to the longest member's. -/
def Ctx.runEnd (c : Ctx) : Nat := c.run.foldl (fun n e => max n e.stop) 0

/-- The next commit boundary: a group of eight, a block of 32 where scale codes are written, and for a single resumed
instruction one element, or the elements of one byte of a memory form, up to its first boundary (R21, R53, R198, R210). -/
def Ctx.boundary (c : Ctx) : Nat :=
  match c.run with
  | [e] =>
    let block := match e.form.op with
      | .cvt _ => (e.reg e.form.d).scaled
      | _ => false
    if block then (c.runG / 32 + 1) * 32
    else if e.resumed ∧ c.runG < (e.start / 8 + 1) * 8 then
      let k := if e.form.op.isMem then e.perByte else 1
      (c.runG / k + 1) * k
    else (c.runG / 8 + 1) * 8
  | _ => (c.runG / 8 + 1) * 8

/-- One member's part of a group, from `lo` to below `hi`. -/
def memberGroup (s : State) (q : Nat) (e : VqEntry) (c : Ctx) (lo hi : Nat) : Except Stop Performed :=
  let is := (List.range (min hi e.stop - lo)).map (lo + ·)
  if e.form.op.isMem then memElems s q e c is
  else match e.form.op with
    | .cvt _ =>
      if (e.reg e.form.d).scaled then .ok (.all s (if is.isEmpty then c else c.encodeBlock e (lo / 32)))
      else .ok (.all s (is.foldl (fun c i => c.element e i) c))
    | _ => .ok (.all s (is.foldl (fun c i => c.element e i) c))

/-- Every member's part of the next group, oldest member first. -/
def groupMembers (q : Nat) (lo hi : Nat) : List VqEntry → State → Ctx → Except Stop Performed
  | [], s, c => .ok (.all s c)
  | e :: r, s, c => do
    match ← memberGroup s q e c lo hi with
    | .all s c => groupMembers q lo hi r s c
    | .at s c i st => return .at s c i st

/-- The next element group of the chain commits (R21), and the chain stands at its boundary (R24 step 2). A refused
write or a poisoned update leaves the elements below it performed, and the chain stands there (R219, R328). -/
def commitGroup (s : State) (q : Nat) : Except Stop State := do
  let c := s.ctx q
  let hi := min c.boundary c.runEnd
  match ← groupMembers q c.runG hi c.run s c with
  | .all s d => return s.setCtx q { d with runG := c.boundary, worked := true }
  | .at s d i (.trap t left) =>
    let (s, d) := match c.run with
      | [_] => (s, d)
      | _ => match groupMembers q c.runG i (c.run.filter fun x => !x.form.op.isStore) s c with
        | .ok (.all s d) => (s, d)
        | _ => (s, d)
    throw (.trap t (some ((left.getD s).setCtx q { d with runG := i })))
  | .at _ d i (.wait s) =>
    throw (.wait (match c.run with
      | [_] => s.setCtx q { d with runG := i }
      | _ => s))

/-- A scalar produced by a vector-queue instruction reaches the younger ones that wait for it, up to the next that writes
the same register (R31). -/
def supply (d : Nat) (x : Word) : List VqEntry → List VqEntry
  | [] => []
  | e :: r =>
    let e := if e.late1 = d then { e with x1 := x, late1 := 0 } else e
    let e := if e.late2 = d then { e with x2 := x, late2 := 0 } else e
    if e.roles.sd = some d then e :: r else e :: supply d x r

/-- What every completion does: destinations fill, scalars reach their readers, lfsr steps, kvl writes, a vcomp's vl holds
for younger positions (R30, R31, R121, R221, R224). -/
def Ctx.finish (c : Ctx) (e : VqEntry) : Ctx :=
  let f := e.form
  let c := match f.op with
    | .kvl => c.writeKvl e
    | _ => c
  let c := if f.emptiesV then
      { c with feV := (List.range (2 ^ e.grp f.d)).foldl (fun m i => setBit m (f.d + i) true) c.feV }
    else c
  let c := match f.op with
    | .wld => { c with feW := (wRegs f.p f.d false).foldl (fun m r => setBit m r.1 true) c.feW }
    | .comp => c.later e.ord fun p => { p with vl := c.sc.vl }
    | _ => c
  let c := match e.roles.sd with
    | some d => if d = 0 then c else
        let x := c.getS d
        let c := c.deliver d x e.ord
        { c with viq := supply d x c.viq }
    | none => c
  if e.rsr then { c with lfsr := lfsrSteps c.lfsr (if f.op = .tepi then 64 else e.vl) } else c

/-- The ARITH trap of a chain that has run to its end (R125), or none. -/
def Ctx.arith (c : Ctx) : Option Trap :=
  c.runArith.map fun a => { classA cARITH 0 a.2 a.2 with late := true }

/-- Where the scalar side stands behind a chain: after its youngest member (R125). -/
def Ctx.arithPoint (c : Ctx) (es : List VqEntry) : Option (Nat × Scal) :=
  es.getLast?.map fun e => (e.ord + 1, c.behind e es)

/-- The chain in progress retires, having left machine `s` and context `c`; an enabled flag it raised traps now, and younger
instructions outside the chain have had no effect (R125). Where the trap goes to the keeper and what was written cannot yet be
performed at pkg, nothing of it is seen and the machine stands at `s0` (R307). -/
def retire (s0 s : State) (q : Nat) (c : Ctx) : State :=
  let es := c.run
  let c := es.foldl (fun c e => c.finish e) { c with run := [], runG := 0 }
  let t := c.arith
  let s := s.setCtx q { c with runArith := none, runFill := [] }
  match t with
  | some t => takeGated s0 s q t fun s => takeTrapAt s q t (c.arithPoint es)
  | none => s

/-- The strip a vmcast reserved lands at every member together (R226). -/
def landStrip (s : State) (q : Nat) : State :=
  { s with cores := s.cores.map fun (n, x) =>
      (n, { x with recvq := x.recvq.map fun (p, r) =>
        let (mine, rest) := r.strips.partition fun t => t.sender == q && !t.landed
        (p, { r with strips := rest ++ mine.map fun t => { t with landed := true } }) }) }

/-- The instruction or chain in progress completes (R186): an Element-class chain once every group has committed, the other
classes with all of their effect. -/
def completeRun (s : State) (q : Nat) : Except Stop State := do
  let s0 := s
  let c := s.ctx q
  match c.run with
  | [] => throw (.wait s)
  | e :: _ =>
    match e.form.op.restart with
    | .element => if c.runEnd ≤ c.runG then return retire s0 s q c else throw (.wait s)
    | _ =>
      match e.form.op with
      | .ldxdup .. =>
        let (s, c) ← loadDup s q e c
        return retire s0 s q c
      | .ldxc .. =>
        let (s, c) ← loadStash s q e c
        return retire s0 s q c
      | .wld =>
        let (s, c) ← loadLanes s q e c
        return retire s0 s q c
      | .mcast => return retire s0 (landStrip s q) q c
      | .tread | .tepi =>
        let tl := vget (s.core (q / 4)).tiles e.form.d {}
        return retire s0 { s with tick := s.tick + 64 } q (c.readTile e tl s.tick)
      | .wmul _ | .wchol | .wlu | .wsolve _ | .wadd _ | .wscal | .wtrn | .wid | .wcpy | .wget | .wput =>
        return retire s0 s q (c.laneMatrix e)
      | .wst | .wdim => return retire s0 s q c
      | _ => return retire s0 s q (c.whole e)

/-- The steps of the back end: a wait changes nothing but what it left behind, a trap is taken (R17, R24, R307). -/
def backEnd (s : State) (q : Nat) (f : State → Nat → Except Stop State) : State :=
  match f s q with
  | .ok s' => s'
  | .error (.wait s') => s'
  | .error (.trap t left) => takeReady s q t left

/-- Groups still to commit, as many as the chain has at most. A trap is taken where its group stands, those before it having
committed (R21, R24). -/
def commitAll (q : Nat) : Nat → State → Except Stop State
  | 0, s => .ok s
  | n + 1, s =>
    if (s.ctx q).runEnd ≤ (s.ctx q).runG then .ok s
    else match commitGroup s q with
      | .ok s => commitAll q n s
      | .error (.trap t left) => .error (.wait (takeReady s q t left))
      | .error (.wait s) => .error (.wait s)

/-- A started instruction is carried to its end: its groups, then its completion. -/
def carry (s : State) (q : Nat) : Except Stop State := do
  match (s.ctx q).run with
  | [] => return s
  | e :: _ =>
    let s ← if e.form.op.restart = .element then commitAll q ((s.ctx q).runEnd - (s.ctx q).runG) s else .ok s
    completeRun s q

/-- A vector-queue instruction issued by the scalar side (R14): it is accepted and the scalar side moves on; in lockstep the
back end then carries it through in the same step, as far as it can go. -/
def issueVector (f : VForm) (s : State) : Out :=
  let q := s.cur
  match accept s q f s.c.at (s.c.capture f) with
  | .error (.wait s') => .next s'
  | .error (.trap t _) => .next (raise s q t)
  | .ok e =>
    let lock := s.lockstep
    let s := s.withC (s.c.enqueue e).advance
    if lock then
      let s := backEnd s q startNext
      .next (if (s.ctx q).run.isEmpty then s else backEnd s q carry)
    else .next s

end Sys2Proof.Machine
end

