-- ==== Sys2Proof/Machine/Copy.lean ====
section
/-!
DEFINITION. Copy channels (R265 to R274): a command enters its channel and registers its destination, starts, moves grain
by grain, credits its barrier word, completes, faults, and is cancelled.
-/
namespace Sys2Proof.Machine

/-- The core of a channel, numbered 8 x coreid + channel, and its enlarger's die. -/
abbrev chanCore (ch : Nat) : Nat := ch / 8
abbrev chanDie (ch : Nat) : Nat := coreDie (ch / 8)

/-- A command's port and channel use: a film port is 0 to 3. -/
abbrev Cmd.film (m : Cmd) : Bool := decide (m.port < 4) && m.kind != 3

/-- A word's owner at a die gives it up before an engine writes it: its value is placed, and stays at the die point where the die
owns the line, and its registration ends. A value whose placing the protocol refuses is lost. -/
def dropOwner (s : State) (d w : Nat) : Except MErr State := do
  let s ← match exportWord s d w with
    | .ok (s, _) => .ok s
    | .error (.wait s) => .error (.wait s)
    | .error (.stop _ _ _ left) => .ok (left.getD s)
  return giveDie s d w

/-- An engine has written a word: no core keeps an older copy of it, and what is on its way to the dies has arrived, so that from
the watermark on every access sees the copy's value or a later one (R268, R306). -/
def settleWord (s : State) (w : Nat) : State :=
  let s := { s with reg := s.reg.filter fun (k, r) => k % 2 ^ 56 != w || r.registered }
  iterate (fun d s => flushWord s d w) 8 0 s

/-- A word is held for an engine before a command: one that the command has itself registered was held for no other then (R268,
R306). -/
def othersHold (s : State) (m : Cmd) (w : Nat) : Bool := !m.holds w && engineHolds s w

/-- A command's read of a word waits for the engine registered for it (R268, R306): not for the command itself, and not for one
issued later that has not started, which may wait for this one, so that every command runs (R309; log entry 93). -/
def readHeld (s : State) (m : Cmd) (w : Nat) : Bool :=
  !m.holds w && (deviceHolds s w || s.chans.any fun (_, c) => c.cmds.zipIdx.any fun (o, i) =>
    o.holds w && (decide (o.order < m.order) || (c.busy && i == 0)))

/-! ## Addresses of a command -/

/-- A translation by the enlarger in the issuer's space (R267). -/
def enlarge (s : State) (ch : Nat) (m : Cmd) (va : Word) (need : Need) : Except MErr (State × Xl) := do
  let (s, f) ← lookup s (chanCore ch) m.part m.root.toNat m.space va need
  match f.fail, f.entry with
  | some cause, _ => throw (.stop cause 0)
  | none, some (e, _) => if teC e then throw (.stop cCONTROL_VIOLATION 0) else return (s, xlOf e f.pa va)
  | none, none => throw (.stop cXLATE_INVALID 0)

/-- The command as the maker of accesses. -/
def Cmd.agent (m : Cmd) (ch : Nat) : Agent := { core := chanCore ch, part := m.part, space := m.space, who := .chan ch }

/-- The key of a core's port among the ports in use. -/
abbrev portKey (ch port : Nat) : Nat := chanCore ch * 16 + port

/-- A gather goes to the stash, on no port. -/
def Cmd.usesPort (m : Cmd) : Bool := m.kind != 3

/-- A grain of a command may move from or to a peer: over its own port of 12 to 15, or one of them that is free (R409). -/
def peerPort (s : State) (ch : Nat) (m : Cmd) : Bool :=
  (m.usesPort && decide (12 ≤ m.port)) || (List.range 4).any fun i => (find s.ports (portKey ch (12 + i))).isNone

/-- Bytes read for an engine at its die point, never from a core's copy word (R299 step 10). -/
def engineRead (s : State) (ch : Nat) (m : Cmd) (va : Word) (n : Nat) : Except MErr (State × Nat) := do
  let (s, x) ← enlarge s ch m va .r
  let (s, t) ← resolve s (m.agent ch) x .r
  match t with
  | .line a gr sl _ =>
    if (wordsOf a n).any (readHeld s m) then throw (.wait s)
    readBytes (fun s w => dieFetch s (chanDie ch) w gr sl) s a n
  | _ => if x.dev ≠ 0 ∧ !peerPort s ch m then throw (.wait s) else readAt s (m.agent ch) n t

/-- A word with the bytes an access of `n` bytes at `a` writes. -/
def patchWord (a n v w : Nat) (old : BitVec 32) : BitVec 32 :=
  BitVec.ofNat 32 ((List.range 4).foldl (fun acc b =>
    acc + 256 ^ b * (if a ≤ w + b ∧ w + b < a + n then v / 256 ^ (w + b - a) % 256 else old.toNat / 256 ^ b % 256)) 0)

/-- A copy's port allocates its destination in no L2: 9, the LLC only, and 10, DRAM without allocation (R100). -/
def Cmd.pastL2 (m : Cmd) : Bool := m.usesPort && (m.port == 9 || m.port == 10)

/-- A die that did not hold a word's line before a write gives it up again, unless a write of its own is under way there. -/
def leaveAgain (s : State) (d w : Nat) : State :=
  match lineAt s w with
  | some (b, l) => if writesUnderWay s d b l then s else leaveLine s d b l
  | none => s

/-- What a copy's port leaves of the words it has written (R100): with 9 and 10 the die's L2 does not take the line in, and with 10
the LLC does not either. `held`: the die held the line before. -/
def allocate (s : State) (m : Cmd) (d : Nat) (ws : List Nat) (held : Bool) : State :=
  let s := match ws with
    | w :: _ => if m.pastL2 && !held then leaveAgain s d w else s
    | [] => s
  if m.pastL2 && m.port == 10 then ws.foldl cleanLlc s else s

/-- Bytes written by an engine: in the ordering machine they are placed at their homes at once, as one write, and performed at
pkg before the watermark passes them (R268, R299 step 10), with the word's newest value about them. They wait for another engine's
registration. -/
def engineWrite (s : State) (ch : Nat) (m : Cmd) (va : Word) (n v : Nat) : Except MErr State := do
  let (s, x) ← enlarge s ch m va .w
  let (s, t) ← resolve s (m.agent ch) x .w
  match t with
  | .line a gr sl _ =>
    let d := chanDie ch
    let ws := wordsOf a n
    if ws.any (othersHold s m) then throw (.wait s)
    let held := holds s d a gr sl
    let s ← ws.foldlM (fun s w => dropOwner s d w) s
    let (s, us) ← ws.foldlM (fun (s, us) w => do
      let (s, o) ← if a ≤ w ∧ w + 4 ≤ a + n then pure (s, 0) else dieFetch s d w gr sl
      return (s, us ++ [(w, patchWord a n v w o)])) (s, [])
    let (s, _) ← placeGroup s d gr sl us none m.pastL2
    return allocate (clearPoison (ws.foldl settleWord s) a n) m d ws held
  | _ => if x.dev ≠ 0 ∧ !peerPort s ch m then throw (.wait s) else writeAt s (m.agent ch) n v t

/-- The destination ranges in device memory of a command, page by page, as far as they translate (R268, R299 step 9). -/
def destRanges (s : State) (ch : Nat) (m : Cmd) : Nat → Word → Nat → Nat → State × List (Nat × Nat × Nat)
  | 0, _, _, _ => (s, [])
  | k + 1, va, len, d =>
    if len = 0 then (s, [])
    else
      let n := min len (4096 - va.toNat % 4096)
      let (s, here) := match enlarge s ch m va .w with
        | .ok (s, x) => if x.host || x.dev != 0 then (s, []) else (s, [(x.pa, n, d)])
        | .error (.wait s) => (s, [])
        | .error (.stop ..) => (s, [])
      let (s, more) := destRanges s ch m k (va + word n) (len - n) (d + n)
      (s, here ++ more)

/-- Bytes a command has still to land. -/
def Cmd.left (m : Cmd) : Nat :=
  if m.kind = 3 then m.esz * m.idx.length else if m.rows = 0 then 0 else m.rows * m.rowb - m.off

/-- The bytes a command registers from its watermark on, to the end of a grain of 32 bytes (R268, R273); those of the first
grain that lie below the watermark it has passed. -/
def Cmd.span (m : Cmd) : Nat :=
  if m.left = 0 then 0 else (m.dst.toNat % 32 + m.left + 31) / 32 * 32 - m.dst.toNat % 32

/-- A command enters its channel's queue (R266 to R268, R299 step 9): it captures the BAR word and registers its
destination, once no other engine is registered there; CANCELLED clears. -/
def enterChannel (s : State) (ch : Nat) (m : Cmd) (captureBar : Bool) : Except MErr State := do
  let c := s.chan ch
  let m := { m with bar := if captureBar then c.bar else m.bar, order := s.orders }
  let (s, regs) := if m.film then (s, []) else destRanges s ch m (m.span / 4096 + 2) m.dst m.span m.done
  let ws := regs.flatMap fun r => wordsOf r.1 r.2.1
  if ws.any (engineHolds s) then throw (.wait s)
  let s ← ws.foldlM (fun s w => dropOwner s (chanDie ch) w) s
  let c := s.chan ch
  return { s.setChan ch { c with cmds := c.cmds ++ [{ m with regs := regs }], cancelled := false } with orders := s.orders + 1 }

/-! ## Starting -/

/-- The head command of a channel may start: a port of a core runs one command at a time, and takes the head commands that wait for
it in issue order (R267). -/
def mayStart (s : State) (ch : Nat) : Bool :=
  let c := s.chan ch
  match c.cmds with
  | [] => false
  | m :: _ =>
    !c.busy && !c.faulted && (!m.usesPort || ((find s.ports (portKey ch m.port)).isNone && s.chans.all fun (n, o) =>
      chanCore n != chanCore ch || n == ch || o.busy || o.faulted || match o.cmds with
        | h :: _ => !h.usesPort || h.port != m.port || decide (m.order < h.order)
        | [] => true))

/-- The watermark a channel shows for a command (R268, R273). -/
def Cmd.mark (m : Cmd) : Word := if m.film then word m.done else m.dst

/-- The enlarger starts a channel's head command (R267). -/
def startCommand (s : State) (ch : Nat) : State :=
  if !mayStart s ch then s
  else
    let c := s.chan ch
    match c.cmds with
    | [] => s
    | m :: _ =>
      let s := s.setChan ch { c with busy := true, wm := m.mark, port := m.port }
      if m.usesPort then { s with ports := put s.ports (portKey ch m.port) ch } else s

/-- A channel's head command becomes `m`, and the watermark shows it. -/
def setHead (s : State) (ch : Nat) (m : Cmd) : State :=
  let c := s.chan ch
  s.setChan ch { c with cmds := m :: c.cmds.tail, wm := m.mark }

/-- A channel gives up its command's port (R267). -/
def freePort (s : State) (ch : Nat) (m : Cmd) : State :=
  if m.usesPort ∧ find s.ports (portKey ch m.port) = some ch then { s with ports := del s.ports (portKey ch m.port) } else s

/-- A fault stops the running command at its grain boundary: the port is given up, the channel is FAULTED, and the keeper
hears of it (R271). -/
def chanFault (s : State) (ch cause sub : Nat) (addr : Word) : State :=
  let c := s.chan ch
  match c.cmds with
  | [] => s
  | m :: _ =>
    let s := countEvent (freePort { s with ats := giveUp s.ats (.chan ch) } ch m) 3
    let s := s.setChan ch { s.chan ch with busy := false, faulted := true, cause := cause, sub := sub, faultAddr := addr }
    postKeeper s m.seq { event := 5, cause := cause, sub := sub, addr := addr, chan := ch % 8, core := chanCore ch }

/-! ## Credits (R269) -/

/-- The scope of a BAR word's credits. -/
def barScope (b : Word) : Nat := if 6 ≤ bits b 0 3 then 3 else bits b 0 3

/-- A credit of `n` bytes is sent to a command's barrier word (R269): a release of what has landed, then the arrival of
R176. -/
def sendCredit (s : State) (ch : Nat) (m : Cmd) (n : Nat) (final : Bool) : Except MErr State :=
  if !m.bar.getLsbD 63 ∨ (n = 0 ∧ !final) then .ok s
  else do
    let va := word (bits m.bar 3 53 * 8)
    let (s, x) ← enlarge s ch m va .rw
    let s := if 4 ≤ barScope m.bar then flushAll s else s
    let (s, _) ← accUpdate s (m.agent ch) x 8 (barScope m.bar) .bar fun w =>
      if w / 2 ^ 48 % 256 = 1 then arriveWord w n else if final then arriveWord w 1 else none
    return s

/-- The bytes a film-port command has landed in the frame its film is still filling (R256, R272). -/
def partFrame (s : State) (ch : Nat) (m : Cmd) : Nat :=
  if m.film then min m.done (get (vget (s.core (chanCore ch)).films m.port {}).parts m.order 0) else 0

/-- The bytes of a command that a credit may count before it completes: those below its watermark, and on a film port below the
first incomplete frame, so that no byte of a frame that a save discards has been credited (R269, R272, R364; log entry 93). -/
def creditable (s : State) (ch : Nat) (m : Cmd) : Nat := m.done - partFrame s ch m

/-- A command credits what it may and has not yet credited, and all that has landed as it completes (R269). -/
def creditNow (s : State) (ch : Nat) (m : Cmd) (final : Bool) : Except MErr (State × Cmd) := do
  let upto := if final then m.done else creditable s ch m
  let s ← sendCredit s ch m (upto - m.credited) final
  return (s, { m with credited := max m.credited upto })

/-- The credits that cancelled commands of a channel still owe are sent, in their order, as far as they can be now; one that
meets a fault is dropped (R272). -/
def sendOwed (s : State) (ch : Nat) : State :=
  iterate (fun _ s => match (s.chan ch).owed with
    | [] => s
    | (m, n) :: r => match sendCredit s ch m n false with
      | .ok s => s.setChan ch { s.chan ch with owed := r }
      | .error (.wait s) => s
      | .error (.stop ..) => s.setChan ch { s.chan ch with owed := r }) (s.chan ch).owed.length 0 s

/-! ## Moving -/

/-- The follow-on of a cpy.m is issued to its tile once the copy has landed (R270). -/
def issueFollow (s : State) (ch : Nat) (m : Cmd) : State × Cmd :=
  match m.follow with
  | none => (s, m)
  | some (e, idx) =>
    let c := chanCore ch
    let o : TileOp := { e := e, seq := m.seq, idx := idx, started := false, next := 0, owed := true }
    (startTile (setTile s c e.form.d ((vget (s.core c).tiles e.form.d {}).take o)) c e.form.d, { m with follow := none })

/-- A command past one landed grain. -/
def Cmd.step (m : Cmd) : Cmd :=
  let m := { m with off := m.off + 32, done := m.done + 32, dst := if m.film then m.dst else m.dst + 32 }
  if m.rowb ≤ m.off then { m with off := 0, rows := m.rows - 1, src := m.src + m.stride } else m

/-- An access with the address it is made at, for a fault to name. -/
def withAddr {α : Type} (va : Word) (r : Except MErr α) : Except (MErr × Word) α :=
  match r with
  | .ok x => .ok x
  | .error e => .error (e, va)

/-- One grain of a copy lands, or one element of a gather, fetched once for all the elements of its address (R267, R268,
R273). -/
def moveGrain (s : State) (ch : Nat) (m : Cmd) : Except (MErr × Word) (State × Cmd) :=
  if m.kind = 3 then
    match m.idx with
    | [] => .ok (s, m)
    | ea :: r => do
      let (s, v) ← match find m.got ea with
        | some v => .ok (s, v)
        | none => withAddr (word ea) (engineRead s ch m (word ea) m.esz)
      let s ← withAddr m.dst (engineWrite s ch m m.dst m.esz v)
      let got := if r.contains ea then put m.got ea v else del m.got ea
      return (s, { m with idx := r, got := got, dst := m.dst + word m.esz, done := m.done + m.esz })
  else if m.left = 0 then .ok (s, m)
  else do
    let va := m.src + word m.off
    let (s, v) ← withAddr va (engineRead s ch m va 32)
    if m.film then
      let x := s.core (chanCore ch)
      let f := vget x.films m.port {}
      if f.room 32 then
        return (s.setCore (chanCore ch) { x with films := vset x.films m.port (f.append 32 v m.order) }, m.step)
      else throw (MErr.wait s, va)
    else
      let s ← withAddr m.dst (engineWrite s ch m m.dst 32 v)
      return (s, m.step)

/-- 4 KiB of a command that a credit may count are not yet credited: a credit is due before another grain moves (R269). -/
def creditDue (s : State) (ch : Nat) (m : Cmd) : Bool := decide (4096 ≤ creditable s ch m - m.credited)

/-- A running command credits what it may; a fault at its barrier word stops it (R269, R271). -/
def creditStep (s : State) (ch : Nat) (m : Cmd) : State :=
  match creditNow s ch m false with
  | .ok (s, m) => setHead s ch m
  | .error (.wait s) => s
  | .error (.stop cause sub _ left) => chanFault (left.getD s) ch cause sub (word (bits m.bar 3 53 * 8))

/-- GRAIN_MOVE for a channel: the running command sends the credit that is due, or moves a grain, credits at least every 4 KiB, and
issues its follow-on when its last byte lands; a fault stops it (R267 to R271). -/
def grainStep (s : State) (ch : Nat) : State :=
  let c := s.chan ch
  match c.cmds with
  | [] => s
  | m :: _ =>
    if !c.busy then s
    else if creditDue s ch m then creditStep s ch m
    else match moveGrain s ch m with
      | .error (.wait s, _) => s
      | .error (.stop cause sub _ left, va) => chanFault (left.getD s) ch cause sub va
      | .ok (s, m) =>
        let s := setHead s ch m
        let more := creditDue s ch m || Config.freeNat s.tick % 2 == 1
        let s := { s with tick := s.tick + 1 }
        let s := if more && m.left != 0 then creditStep s ch m else s
        match (s.chan ch).cmds with
        | m :: _ => if m.left = 0 then let (s, m) := issueFollow s ch m; setHead s ch m else s
        | [] => s

/-- COPY_COMPLETE: a command whose bytes have all landed sends its final credit and leaves its channel; a gath's mask becomes
full (R269, R270, R273). -/
def completeCommand (s : State) (ch : Nat) : State :=
  let c := s.chan ch
  match c.cmds with
  | [] => s
  | m :: _ =>
    if !c.busy || m.left != 0 then s
    else match creditNow s ch m true with
      | .error (.wait s) => s
      | .error (.stop cause sub _ left) => chanFault (left.getD s) ch cause sub (word (bits m.bar 3 53 * 8))
      | .ok (s, m) =>
        let (s, m) := issueFollow s ch m
        let s := freePort s ch m
        let s := s.setChan ch { s.chan ch with cmds := (s.chan ch).cmds.tail, busy := false, wm := m.mark }
        if m.kind = 3 ∧ m.kd ≠ 0 then s.setCtx m.seq { s.ctx m.seq with feK := setBit (s.ctx m.seq).feK m.kd true } else s

/-! ## Cancellation (R272) -/

/-- A film-port command goes back by `n` landed bytes (R272, R364). -/
def Cmd.back (m : Cmd) (n : Nat) : Cmd :=
  if n ≤ m.off then { m with off := m.off - n, done := m.done - n }
  else
    let k := (n - m.off + m.rowb - 1) / m.rowb
    { m with off := m.off + k * m.rowb - n, rows := m.rows + k, src := m.src - m.stride * word k, done := m.done - n }

/-- One command of a channel is cancelled: its place, as it would be recorded, and the machine without it. Its credits go
up to its watermark with no final flag; a film-port command that is recorded goes back to the start of its first incomplete
frame. A credit that has to wait is owed, and one that fails is dropped (R272). A discarded follow-on ends for its tile (R254,
R270). -/
def cancelOne (s : State) (ch : Nat) (m : Cmd) (record : Bool) : State × Cmd :=
  let c := s.chan ch
  let head := c.cmds.head?.map (·.order) == some m.order
  let running := c.busy && head
  let m' := if record && m.rowb != 0 then m.back (partFrame s ch m) else m
  let s := if running then freePort { s with ats := giveUp s.ats (.chan ch) } ch m else s
  let s := s.setChan ch { s.chan ch with owed := (s.chan ch).owed ++ [(m', m'.done - m'.credited)] }
  let s := sendOwed s ch
  let m' := { m' with credited := max m'.credited m'.done }
  let c := s.chan ch
  let s := s.setChan ch { c with
      cmds := c.cmds.filter fun x => x.order != m.order
      busy := if running then false else c.busy
      faulted := if head then false else c.faulted
      cancelled := true
      wm := if head && (running || c.faulted) then m'.mark else c.wm }
  (match m.follow with
    | some (e, _) => if record then s else tileFlags s (chanCore ch) e.form.d
    | none => s, m')

/-- Every command of a channel that `sel` names is cancelled, in queue order. -/
def cancelChan (s : State) (ch : Nat) (sel : Cmd → Bool) (record : Bool) : State × List (Nat × Cmd × Bool) :=
  let c := s.chan ch
  let busy := c.busy || c.faulted
  let first := c.cmds.head?.map (·.order)
  (c.cmds.filter sel).foldl (fun (s, l) m =>
    let (s, m') := cancelOne s ch m record
    (s, l ++ [(ch, m', busy && first == some m.order)])) (s, [])

/-- Every command of a context is cancelled, on whatever channel, in channel order (R272). -/
def cancelContext (s : State) (q : Nat) (record : Bool) : State × List (Nat × Cmd × Bool) :=
  s.chans.foldl (fun (s, l) (ch, _) =>
    let (s, r) := cancelChan s ch (fun m => m.seq == q) record
    (s, l ++ r)) (s, [])

/-- A faulted channel's command continues from its watermark: it waits for its port like any head command (R267, R271). -/
def continueChan (s : State) (ch : Nat) : State :=
  let c := s.chan ch
  if c.faulted then s.setChan ch { c with faulted := false, cause := 0, sub := 0 } else s

end Sys2Proof.Machine
end

