-- ==== Sys2Proof/Machine/Queue.lean ====
section
/-!
DEFINITION. Queues (R278 to R284, R340, R371 to R373): records and their rules (R45, R46, R49), enq, depd, the grants of
pgrant (R50), the successors of a pipeline (R51), kept posts and events, and what releasing a context's items does.
-/
namespace Sys2Proof.Machine

/-! ## Records -/

/-- A 64-bit word of a record. -/
abbrev recWord (r off : Nat) : Word := word (r / 2 ^ (8 * off))

/-- A panel task record keeps the layout of R49. -/
def taskOk (r : Nat) : Bool :=
  let c := recWord r 0x20
  let n := recWord r 0x38
  bits c 8 8 == 0 && bits c 38 26 == 0 && bits n 13 3 == 0 && bits n 25 39 == 0
    && bits (recWord r 0x10) 0 32 != 0 && bits (recWord r 0x10) 32 32 != 0

/-- The level words in use of a launch record. -/
def levels (r : Nat) : List Word := (List.range (bits (recWord r 0x10) 0 8)).map fun i => recWord r (0x18 + 8 * i)

/-- Domain, scope and members of a level. -/
abbrev lvDomain (w : Word) : Nat := bits w 0 4
abbrev lvScope (w : Word) : Nat := bits w 4 4
abbrev lvCount (w : Word) : Nat := bits w 8 24

/-- The narrowest scope a level of a domain may have (R46). -/
def domainScope (d : Nat) : Nat := match d with | 0 => 6 | 1 => 4 | 2 => 3 | 3 => 2 | 4 => 1 | _ => 0

/-- Domains never become coarser (R46). -/
def finer : List Word → Bool
  | a :: b :: r => decide (lvDomain a ≤ lvDomain b) && finer (b :: r)
  | _ => true

/-- A launch record keeps the layout of R45 and the rules of R46. -/
def launchOk (r queue : Nat) : Bool :=
  let h := recWord r 0x10
  let ls := levels r
  decide (1 ≤ bits h 0 8) && decide (bits h 0 8 ≤ 8) && bits h 11 53 == 0
    && ls.all (fun w => decide (lvDomain w ≤ 6) && decide (lvScope w ≤ 6) && lvCount w != 0 && bits w 32 32 == 0
      && decide (domainScope (lvDomain w) ≤ lvScope w))
    && finer ls && ls.any (fun w => lvDomain w == 5)
    && decide ((ls.filter fun w => lvDomain w == 6).foldl (fun n w => n * lvCount w) 1 ≤ 64)
    && recWord r 0x58 == word queue && bits (recWord r 0x70) 24 40 == 0 && recWord r 0x78 == 0

/-- The instances of a launch: the members of its levels down to the sequencer level (R47). -/
def instances (r : Nat) : Nat := ((levels r).filter fun w => lvDomain w != 6).foldl (fun n w => n * lvCount w) 1

/-- The scope of an instance's completion: that of the finest level that is no lane level (R48). -/
def finalScope (r : Nat) : Nat := match ((levels r).filter fun w => lvDomain w != 6).getLast? with
  | some w => lvScope w
  | none => 0

/-! ## Slots and counters -/

/-- The 128 bytes of a slot, as the device reads them. -/
def slotRec (s : State) (qn i : Nat) : Nat := (homeRead s ((s.queue qn).slotAt (word i)) 128).2

/-- Kind and state of a slot (R371). -/
abbrev slotKind (r : Nat) : Nat := r / 2 ^ 1016 % 256
abbrev slotState (r : Nat) : Nat := r / 2 ^ 1008 % 256

/-- The state byte of a slot is written (R371). -/
def setSlotState (s : State) (qn i st : Nat) : State := homeWrite s ((s.queue qn).slotAt (word i) + 126) 1 st

/-- A dependence counter. -/
abbrev Queue.counter (x : Queue) (i : Nat) : BitVec 16 := get x.counters i 0

/-- A dependence counter becomes `v`. -/
def Queue.setCounter (x : Queue) (i : Nat) (v : BitVec 16) : Queue :=
  { x with counters := if v = 0 then del x.counters i else put x.counters i v }

/-- The counter a slot names, and its initial value (R372, R279). -/
def recCounter (launch : Bool) (r : Nat) : Nat × BitVec 16 :=
  if launch then (bits (recWord r 0x70) 0 8, BitVec.ofNat 16 (bits (recWord r 0x70) 8 16))
  else (bits (recWord r 0x20) 0 8, BitVec.ofNat 16 (bits (recWord r 0x20) 16 16))

/-- A record is placed at the tail of a queue that has room, and sets its counter (R279): a task's record fills 64 bytes of the
slot, whose state and kind are marked at its end (R371). -/
def placeRecord (s : State) (qn : Nat) (launch : Bool) (r : Nat) : State :=
  let a := (s.queue qn).slotAt (s.queue qn).tail
  let s := if launch then homeWrite s a 126 (r % 2 ^ 1008) else homeWrite s a 64 (r % 2 ^ 512)
  let s := passTail (homeWrite s (a + 126) 2 (2 ^ 8 * (if launch then 2 else 1))) qn
  let (i, v) := recCounter launch r
  s.setQueue qn ((s.queue qn).setCounter i v)

/-! ## Kept posts and events -/

/-- SUCCESSOR_PLACE: the oldest post kept for a queue is placed if there is room (R284). -/
def placePost (s : State) (qn : Nat) : State :=
  if (s.queue qn).full then s
  else match s.posts.find? fun p => p.queue == qn with
    | none => s
    | some p => placeRecord { s with posts := s.posts.erase p } qn false p.record.toNat

/-- EVENT_PLACE: the oldest pending event of a partition whose queue has room is placed; a partition's events for one queue
stay in order (R358). -/
def placeEvent (s : State) (p : Nat) : State :=
  match s.events.find? fun e => e.part == p && !(s.queue e.queue).full with
  | none => s
  | some e => placeSlot { s with events := s.events.erase e } e.queue e.body

/-! ## Instructions -/

/-- A partition other than the root is absent unless VF Enable has made it active (R397). -/
def absent (s : State) (p : Nat) : Bool := p != 0 && (s.part p).pstate == 0

/-- The status of an enq (R279, R397): the first of NOQUEUE, BADREC, STAGEFULL and FULL that applies, else OK. -/
def enqStatus (s : State) (p : Nat) (launch : Bool) (qu : Word) (r : Nat) : Nat :=
  let qn := bits qu 0 12
  let x := s.queue qn
  if bits qu 12 52 ≠ 0 ∨ s.queueOwner qn ≠ some p ∨ !x.en ∨ absent s p then 2
  else if !(if launch then launchOk r qn else taskOk r) then 3
  else if launch ∧ (recWord r 0x10).getLsbD 9 ∧ x.slots < instances r then 4
  else if x.full then 1
  else 0

/-- enq at the queue (R279): the state and the value of s[c]. -/
def enqueueRecord (s : State) (p : Nat) (launch : Bool) (qu : Word) (r : Nat) : State × Word :=
  let qn := bits qu 0 12
  let x := s.queue qn
  match enqStatus s p launch qu r with
  | 0 => (placeRecord s qn launch r, x.tail <<< 32)
  | 1 => (s.setQueue qn { x with overflow := true }, 1)
  | n => (s, word n)

/-- enq when it is performed (R278, R279): alignment, the release at pkg, the record read, then the queue's part. -/
def enqPerform (s : State) (q : Nat) (pc : Word) (launch : Bool) (qu rec : Word) : Except Stop (State × Word) := do
  let n := if launch then 128 else 64
  if rec.toNat % n ≠ 0 then throw (.trap (classA cMISALIGNED 0 rec pc))
  let s ← liftB rec pc (releaseAt s q 4)
  let (s, x) ← liftB rec pc (translate s q rec .r)
  if x.ctl then throw (.trap (classB cCONTROL_VIOLATION 0 rec pc))
  let (s, r) ← liftB rec pc (accRead s (s.agent q) x n)
  return enqueueRecord s (s.pnum q) launch qu r

/-- A decrement of a counter with the arithmetic of R280; an underflow posts its event to the issuing context's keeper. -/
def decrement (s : State) (q qn ctr amt : Nat) : State :=
  let x := s.queue qn
  let n := (x.counter ctr).toNat
  if amt = 0 then s
  else if n = 0 ∨ n < amt then
    postKeeper (s.setQueue qn { x.setCounter ctr 0 with underflow := true }) q { event := 3, queue := qn, counter := ctr }
  else s.setQueue qn (x.setCounter ctr (BitVec.ofNat 16 (n - amt)))

/-- depd when it is performed (R280): `w` is its word, for the trap. -/
def depdPerform (s : State) (q : Nat) (pc w : Word) (qu ctr amt : Word) : Except Stop State := do
  if bits qu 12 52 ≠ 0 ∨ s.queueOwner (bits qu 0 12) ≠ some (s.pnum q) then throw (.trap (classA cILLEGAL 0x09 w pc))
  if 256 ≤ ctr.toNat then throw (.trap (classA cILLEGAL 0x0A w pc))
  let s ← liftB 0 pc (releaseAt s q 4)
  return decrement s q (bits qu 0 12) ctr.toNat (bits amt 0 16)

/-- The grant of R50 on a cursor, for a panel of `rows` x `cols` and strips of at most `most` elements: the vl granted, the
rows granted, and the new cursor. -/
def grant (row col rows cols most : Nat) : Nat × Nat × Nat × Nat :=
  let (row, col) := if row < rows ∧ cols ≤ col then (row + min (rows - row) 64, 0) else (row, col)
  if rows ≤ row then (0, 0, row, col)
  else
    let n := min (rows - row) 64
    let vl := min (cols - col) most
    if col + vl = cols then (vl, n, row + n, 0) else (vl, n, row, col + vl)

/-! ## Completion (R51, R283, R284) -/

/-- The successor a queue's template makes (R51): its reserved fields as zero, the finishing work's ARGP, a finishing panel
task's geometry, and 1 for a dimension of 0. -/
def successor (x : Queue) (r : Nat) (panel : Bool) : BitVec 512 :=
  let t := x.template.toNat
  let w10 := if panel then recWord r 0x10 else recWord t 0x10
  let w18 := if panel then recWord r 0x18 else recWord t 0x18
  let dim := fun (n : Nat) => if n = 0 then 1 else n
  let w20 := recWord t 0x20 &&& 0x3FFFFF00FF
  let w38 := recWord t 0x38 &&& 0x1FF1FFF
  BitVec.ofNat 512 ((recWord t 0).toNat + 2 ^ 64 * (recWord r 8).toNat
    + 2 ^ 128 * (dim (bits w10 0 32) + 2 ^ 32 * dim (bits w10 32 32)) + 2 ^ 192 * w18.toNat + 2 ^ 256 * w20.toNat
    + 2 ^ 320 * (recWord t 0x28).toNat + 2 ^ 384 * (recWord t 0x30).toNat + 2 ^ 448 * w38.toNat)

/-- A completion post: it is placed, or kept behind the posts already kept for its queue (R51, R284). -/
def postSuccessor (s : State) (q qn r : Nat) (panel : Bool) : State :=
  let x := s.queue qn
  let t := successor x r panel
  if !x.full && !(s.posts.any fun p => p.queue == qn) then placeRecord s qn false t.toNat
  else
    let s := { s.setQueue qn { x with overflow := true } with posts := s.posts ++ [{ queue := qn, record := t }] }
    postKeeper s q { event := 4, queue := qn }

/-- What finishing a context's task posts, decrements and counts (R51, R283 step 4). -/
def countCompletion (s : State) (q : Nat) (t : TaskRef) : State :=
  let r := t.record.toNat
  let n := recWord r 0x38
  if t.launch then
    let x := s.queue t.queue
    let s := s.setQueue t.queue { x with doneCount := x.doneCount + 1 }
    if (recWord r 0x10).getLsbD 9 && x.nsv then postSuccessor s q x.nextStage.toNat r false else s
  else
    let s := if n.getLsbD 12 then postSuccessor s q (bits n 0 12) r true else s
    if n.getLsbD 24 then decrement s q (bits n 0 12) (bits n 16 8) 1 else s

/-- What finishing a task posts or decrements is performed as a release at pkg (R51). -/
def postsAt (s : State) (t : Option TaskRef) : Bool := match t with
  | some t => t.launch && (recWord t.record.toNat 0x10).getLsbD 9 && (s.queue t.queue).nsv
  | none => false

/-- The scope of a task's completion release (R283 step 3). -/
def doneScope (t : Option TaskRef) : Nat := match t with
  | some t => if t.launch then finalScope t.record.toNat else 4
  | none => 4

/-! ## Items a context holds -/

/-- A tile as trel leaves it: contents discarded, unclaimed, full (R257). -/
def Tile.released (_ : Tile) : Tile := {}

/-- A film as fclose leaves it: frames discarded, no holder (R264). -/
def Film.closed (_ : Film) : Film := {}

/-- A stash window as unmap leaves it (R179). -/
def Win.unmapped (_ : Win) : Win := {}

/-- The dirty pieces of the windows a sequencer's work mapped and did not pin are written back and dropped as they are unmapped
(R179): one whose write has to wait stays what it is, coherent content of the core. -/
def flushWins (s : State) (q : Nat) : State :=
  iterate (fun i s =>
    let w := vget (s.core (q / 4)).wins i {}
    if w.valid && !w.pinned && w.byTask == some q then
      match dropPieces s q (q / 4) i fun _ => true with
      | .ok s => s
      | .error (.wait s) => s
      | .error (.stop _ _ _ left) => left.getD s
    else s) 4 0 s

/-- Every claimed tile and open film of a sequencer is released, and every unpinned window its work mapped is unmapped
(R283 step 2, R337). -/
def releaseItems (s : State) (q : Nat) : State :=
  let s := flushWins s q
  let x := s.core (q / 4)
  s.setCore (q / 4) { x with
    tiles := x.tiles.map fun t => if t.claim = some q then t.released else t
    films := x.films.map fun f => if f.holder = some q then f.closed else f
    wins := x.wins.map fun w => if w.valid && !w.pinned && w.byTask == some q then w.unmapped else w }

/-- Staging reservations of the task bound to a sequencer are released (R385). -/
def releaseStages (s : State) (q : Nat) : State :=
  { s with stages := s.stages.filter fun t => t.bound != some q }

/-- Commands a sequencer has issued and not completed stand on some channel. -/
def commandsOf (s : State) (q : Nat) : Bool := s.chans.any fun (_, c) => c.cmds.any fun m => m.seq == q

/-- Detached operations of a sequencer are outstanding on its tiles. -/
def detachedOf (s : State) (q : Nat) : Bool := (s.core (q / 4)).tiles.toList.any fun t => t.ops.any fun o => o.seq == q

/-- tdone's waits are over (R283 step 1): nothing older is outstanding, Detached operations, follow-ons, copies and gathers
included. -/
def tdoneReady (s : State) (q ord : Nat) : Bool :=
  let c := s.ctx q
  c.viq.all (fun e => decide (ord ≤ e.ord)) && c.run.isEmpty && c.clearBefore ord && !commandsOf s q && !detachedOf s q

/-- A context ends and its sequencer becomes EMPTY; its registers stay as they are (R283 step 5). -/
def Ctx.ended (c : Ctx) : Ctx :=
  { c with state := .empty, task := none, free := false, wait := none, pend := none, stepping := false, viq := [], sb := [],
           loads := [], divs := [], run := [], runG := 0, runArith := none }

/-- tdone when it is performed, after its waits (R283 steps 2 to 5, R338). -/
def tdonePerform (s : State) (q : Nat) (pc : Word) : Except Stop State := do
  let s := releaseItems s q
  let t := (s.ctx q).task
  let s ← liftB 0 pc (releaseAt s q (doneScope t))
  let s ← if postsAt s t then liftB 0 pc (releaseAt s q 4) else .ok s
  let s := match t with
    | some t => countCompletion s q t
    | none => s
  let s := releaseStages s q
  return s.setCtx q (s.ctx q).ended

end Sys2Proof.Machine
end

