-- ==== Sys2Proof/Machine/Context.lean ====
section
/-!
DEFINITION. Special registers (R181, R182) and the context pages of a sequencer as 64-bit words (R27, R287, R332 to R335,
R236).
-/
namespace Sys2Proof.Machine

/-- A word of zeros and fields: the fields are given as value and lowest bit. -/
def packW (l : List (Nat × Nat)) : Word := word (l.foldl (fun n (v, lo) => n + v * 2 ^ lo) 0)

/-! ## Special registers -/

/-- A special register as it reads on a sequencer (R181); none where the number is not in the table. -/
def readSpr (s : State) (q n : Nat) : Option Word :=
  let c := s.ctx q
  let x := c.sc
  match n with
  | 0x000 => some (word x.vl)
  | 0x001 => some (x.vstart.setWidth 64)
  | 0x002 => some (x.chain.setWidth 64)
  | 0x003 => some (c.flags.setWidth 64)
  | 0x004 => some (x.rm.setWidth 64)
  | 0x005 => some (c.lfsr.setWidth 64)
  | 0x010 => some x.tvec
  | 0x011 => some (x.tcause.setWidth 64)
  | 0x012 => some x.tval
  | 0x013 => some x.tepc
  | 0x014 => some x.tsave
  | 0x020 | 0x021 | 0x022 | 0x023 | 0x024 | 0x025 =>
    let e := vget x.loops (n - 0x20) {}
    some (if e.count = 0 then 0 else e.index)
  | 0x030 => some (word q)
  | 0x031 => some (word (q / 4))
  | 0x032 => some (word (q / 256))
  | 0x033 => some (word (s.pnum q % 32))
  | 0x034 => some (s.link.devid.setWidth 64)
  | 0x040 => some (word s.time)
  | 0x041 => some c.cycles
  | 0x050 => some (c.space.setWidth 64)
  | 0x051 => some (c.root.setWidth 64 <<< 12)
  | 0x060 => some (x.curRow.setWidth 64)
  | 0x061 => some (x.curCol.setWidth 64)
  | _ => none

/-- A special register that may be written (R181). -/
def sprWritable (n : Nat) : Bool :=
  decide (n ≤ 5) || (decide (0x10 ≤ n) && decide (n ≤ 0x14)) || (decide (0x20 ≤ n) && decide (n ≤ 0x25))
    || n == 0x60 || n == 0x61

/-- A write of a special register as it stores (R28, R102, R120, R123, R152, R181, R207): bits outside the register are
ignored, a reserved rounding mode is not stored, and vl is bounded by the setvl configuration. `arm` says that the write
is a wrspr, which arms vstart and chain. A write of vl through its page under a reserved cfg_tag is accepted (R334), and what it
stores the spec does not say: a free value (log entry 23). -/
def Ctx.writeSpr (c : Ctx) (n : Nat) (v : Word) (arm : Bool) : Ctx :=
  let x := c.sc
  let withX := fun (x : Scal) => { c with sc := x }
  match n with
  | 0x000 => withX { x with vl := if tagKnown x.cfgTag.toNat then min v.toNat (vlmax x.cfgTag.toNat x.cfgGrp.val)
      else (Config.freeWord v.toNat).toNat % 2 ^ 14 }
  | 0x001 => withX { x with vstart := v.setWidth 16, armed := x.armed || arm }
  | 0x002 => withX { x with chain := v.setWidth 6, armed := x.armed || arm }
  | 0x003 => { c with flags := (v &&& 0x7F7F).setWidth 15 }
  | 0x004 => if v.toNat % 8 < 6 then withX { x with rm := v.setWidth 3 } else c
  | 0x005 => { c with lfsr := if v.setWidth 32 = 0 then 1 else v.setWidth 32 }
  | 0x010 => withX { x with tvec := v &&& ~~~(2 : Word) }
  | 0x011 => withX { x with tcause := v.setWidth 16 }
  | 0x012 => withX { x with tval := v }
  | 0x013 => withX { x with tepc := v }
  | 0x014 => withX { x with tsave := v }
  | 0x020 | 0x021 | 0x022 | 0x023 | 0x024 | 0x025 =>
    let e := vget x.loops (n - 0x20) {}
    if e.count = 0 then c else withX { x with loops := vset x.loops (n - 0x20) { e with index := v } }
  | 0x060 => withX { x with curRow := v.setWidth 32 }
  | 0x061 => withX { x with curCol := v.setWidth 32 }
  | _ => c

/-! ## The words of context pages -/

/-- The code of a context's STATE (R333). -/
def CtxState.code (x : CtxState) : Nat :=
  match x with
  | .empty => 0 | .running => 1 | .stopping => 2 | .stopped => 3 | .trapped => 4 | .waiting => 5 | .saved => 6

/-- The REASON a context waits for (R333). -/
def Wait.code (w : Wait) : Nat :=
  match w with
  | .pri _ => 1 | .waita .. => 2 | .bar .. => 3 | .tile _ => 4 | .film _ => 5 | .chan _ => 6

/-- What a context waits for: what it sleeps on, or the oldest held instruction that sleeps (R257, R264, R274),
or the host page it has asked for (R402). -/
def waitReason (s : State) (q : Nat) : Option Wait :=
  let c := s.ctx q
  match c.wait, s.ats.find? (fun r => r.isPri && !r.gone && r.who == .seq q) with
  | some w, _ => some w
  | none, some r => some (.pri r.id)
  | none, none => match c.sb with
    | h :: _ =>
      if !(c.viq.all fun e => decide (h.ord ≤ e.ord)) then none
      else match h.op with
      | .tclaim t =>
        let o := (vget (s.core (q / 4)).tiles t {}).claim
        if o.isSome ∧ o ≠ some q then some (.tile t) else none
      | .fopen f _ =>
        let o := (vget (s.core (q / 4)).films f {}).holder
        if o.isSome ∧ o ≠ some q then some (.film f) else none
      | .chanWait ch _ => if (s.chan ch).cmds.isEmpty then none else some (.chan ch)
      | _ => none
    | [] => none

/-- The STATE a context shows: a running context that sleeps shows WAITING (R333). -/
def shownState (s : State) (q : Nat) : CtxState :=
  let c := s.ctx q
  if c.state = .running ∧ (waitReason s q).isSome then .waiting else c.state

/-- Register images may be read and written (R27, R330). -/
def Ctx.resting (c : Ctx) : Bool := c.state == .stopped || c.state == .trapped || c.state == .saved

/-- VSTART, CHAIN and RPT fields (R27). -/
def Ctx.squashWord (c : Ctx) : Word :=
  packW [(c.vstartF.toNat, 0), (c.chainF.toNat, 16), (c.sc.rptI % 16, 24), (c.sc.rptJ % 32, 28), (c.sc.rptAct.toNat, 33),
    (c.awDone.toNat, 34), (c.awGen.toNat, 35)]

/-- A word of a chain record entry or its extension (R27). -/
def ChainRec.column (r : ChainRec) (ext : Bool) (i : Nat) : Word :=
  match ext, i with
  | false, 0 => r.ipc
  | false, 1 => packW [(r.word.toNat, 0), (r.vl.toNat, 32)]
  | false, 2 => packW [(r.cfg.toNat, 0), (r.comp.toNat, 32)]
  | false, 3 => r.scalar
  | true, 0 => r.scalar2
  | true, 1 => r.rm.setWidth 64
  | _, _ => 0

/-- A word of a chain record entry is written (R27). -/
def ChainRec.setColumn (r : ChainRec) (ext : Bool) (i : Nat) (v : Word) : ChainRec :=
  match ext, i with
  | false, 0 => { r with ipc := v }
  | false, 1 => { r with word := v.setWidth 32, vl := (v >>> 32).setWidth 32 }
  | false, 2 => { r with cfg := v.setWidth 32, comp := ((v >>> 32) &&& 0x1F1F1F1F).setWidth 29 }
  | false, 3 => { r with scalar := v }
  | true, 0 => { r with scalar2 := v }
  | true, 1 => { r with rm := v.setWidth 3 }
  | _, _ => r

/-- A word of a loop-stack entry (R12). -/
def LoopEntry.word (e : LoopEntry) (i : Nat) : Word :=
  match i with | 0 => e.start | 1 => e.last | 2 => e.count | _ => e.index

/-- A word of a loop-stack entry is written (R12). -/
def LoopEntry.setWord (e : LoopEntry) (i : Nat) (v : Word) : LoopEntry :=
  match i with
  | 0 => { e with start := v }
  | 1 => { e with last := v }
  | 2 => { e with count := v }
  | _ => { e with index := v }

/-- Word `i` of a bit vector's bytes. -/
abbrev wordOf {n : Nat} (x : BitVec n) (i : Nat) : Word := BitVec.ofNat 64 (x.toNat / 2 ^ (64 * i))

/-- Word `i` of a bit vector becomes `v`. -/
abbrev setWordOf {n : Nat} (x : BitVec n) (i : Nat) (v : Word) : BitVec n :=
  BitVec.ofNat n (setField x.toNat (64 * i) 64 v.toNat)

/-- A word of a context's register images, pages 1 to 19 and the squash fields and loop stack of page 0, by its byte offset
(R27, R287, R334 to R236). -/
def imageWord (s : State) (q off : Nat) : Word :=
  let c := s.ctx q
  if off = 0x010 then c.sc.pc
  else if off = 0x030 then c.squashWord
  else if off = 0x048 then c.resume
  else if 0x100 ≤ off ∧ off < 0x1C0 then (vget c.sc.loops ((off - 0x100) / 0x20) {}).word (off % 0x20 / 8)
  else if off < 0x1000 then 0
  else if off < 0x1100 then c.getS ((off - 0x1000) / 8)
  else if 0x1400 ≤ off ∧ off < 0x1800 then (readSpr s q ((off - 0x1400) / 8)).getD 0
  else if off = 0x1800 then c.feS.setWidth 64
  else if off = 0x1808 then c.feV.setWidth 64
  else if off = 0x1810 then c.feK.setWidth 64
  else if off = 0x1818 then c.feW.setWidth 64
  else if 0x1A00 ≤ off ∧ off < 0x1B00 then
    let v := vget c.sc.vcfg ((off - 0x1A00) / 8) {}
    packW [(cfgByte v, 0), (v.comp.val, 8)]
  else if off = 0x1B00 then packW [(c.sc.cfgTag.toNat, 0), (c.sc.cfgGrp.val, 5)]
  else if off = 0x1B08 then packW [(c.sc.rows.val, 0), (c.sc.cols.val, 3)]
  else if 0x1C00 ≤ off ∧ off < 0x1C40 then
    word ((List.range 8).foldl (fun n i => n + 256 ^ i * (vget c.lflag (off - 0x1C00 + i) 0).toNat) 0)
  else if off < 0x2000 then 0
  else if off < 0x6000 then wordOf (vget c.v ((off - 0x2000) / 0x200) 0) (off % 0x200 / 8)
  else if off < 0x8000 then wordOf (c.getK ((off - 0x6000) / 0x400)) (off % 0x400 / 8)
  else if off < 0x11000 then wordOf (vget c.w ((off - 0x8000) / 9216) 0) ((off - 0x8000) % 9216 / 8)
  else if off < 0x11200 then vget c.lpc ((off - 0x11000) / 8) 0
  else if off = 0x12000 then c.split.setWidth 64
  else if off = 0x12008 then c.arrived.setWidth 64
  else if off = 0x12010 then packW [(c.lmode.toNat, 0), (c.trapv.toNat, 1), (c.trapLane.val, 8)]
  else if 0x13000 ≤ off ∧ off < 0x130C0 then (vget c.chainRec ((off - 0x13000) / 0x20) {}).column false (off % 0x20 / 8)
  else if 0x13100 ≤ off ∧ off < 0x131C0 then (vget c.chainRec ((off - 0x13100) / 0x20) {}).column true (off % 0x20 / 8)
  else 0

/-- A word of a context's register images is written (R27, R287, R334 to R236). -/
def Ctx.setImageWord (c : Ctx) (off : Nat) (v : Word) : Ctx :=
  let x := c.sc
  if off = 0x010 then { c with sc := { x with pc := v } }
  else if off = 0x030 then
    { c with
      vstartF := v.setWidth 16
      chainF := (v >>> 16).setWidth 6
      sc := { x with rptI := bits v 24 4, rptJ := bits v 28 5, rptAct := v.getLsbD 33 }
      awDone := v.getLsbD 34
      awGen := (v >>> 35).setWidth 16 }
  else if off = 0x048 then { c with resume := v }
  else if 0x100 ≤ off ∧ off < 0x1C0 then
    let i := (off - 0x100) / 0x20
    { c with sc := { x with loops := vset x.loops i ((vget x.loops i {}).setWord (off % 0x20 / 8) v) } }
  else if off < 0x1000 then c
  else if off < 0x1100 then c.setS ((off - 0x1000) / 8) v
  else if 0x1400 ≤ off ∧ off < 0x1800 then c.writeSpr ((off - 0x1400) / 8) v false
  else if off = 0x1800 then { c with feS := setBit (v.setWidth 32) 0 true }
  else if off = 0x1808 then { c with feV := v.setWidth 32 }
  else if off = 0x1810 then { c with feK := setBit (v.setWidth 8) 0 true }
  else if off = 0x1818 then { c with feW := v.setWidth 4 }
  else if 0x1A00 ≤ off ∧ off < 0x1B00 then
    let g : VCfg :=
      { tag := v.setWidth 5, grp := Fin.ofNat 4 (bits v 5 2), scaled := v.getLsbD 7, comp := Fin.ofNat 32 (bits v 8 5) }
    { c with sc := { x with vcfg := vset x.vcfg ((off - 0x1A00) / 8) g } }
  else if off = 0x1B00 then { c with sc := { x with cfgTag := v.setWidth 5, cfgGrp := Fin.ofNat 4 (bits v 5 2) } }
  else if off = 0x1B08 then { c with sc := { x with rows := Fin.ofNat 8 (bits v 0 3), cols := Fin.ofNat 8 (bits v 3 3) } }
  else if 0x1C00 ≤ off ∧ off < 0x1C40 then
    { c with lflag := (List.range 8).foldl (fun l i => vset l (off - 0x1C00 + i) (BitVec.ofNat 7 (bits v (8 * i) 7))) c.lflag }
  else if off < 0x2000 then c
  else if off < 0x6000 then
    let r := (off - 0x2000) / 0x200
    { c with v := vset c.v r (setWordOf (vget c.v r 0) (off % 0x200 / 8) v) }
  else if off < 0x8000 then
    let n := (off - 0x6000) / 0x400
    c.setK n (setWordOf (vget c.k n 0) (off % 0x400 / 8) v)
  else if off < 0x11000 then
    let r := (off - 0x8000) / 9216
    { c with w := vset c.w r (setWordOf (vget c.w r 0) ((off - 0x8000) % 9216 / 8) v) }
  else if off < 0x11200 then { c with lpc := vset c.lpc ((off - 0x11000) / 8) v }
  else if off = 0x12000 then { c with split := v }
  else if off = 0x12008 then { c with arrived := v }
  else if off = 0x12010 then { c with lmode := v.getLsbD 0, trapv := v.getLsbD 1, trapLane := Fin.ofNat 64 (bits v 8 6) }
  else if 0x13000 ≤ off ∧ off < 0x130C0 then
    let i := (off - 0x13000) / 0x20
    { c with chainRec := vset c.chainRec i ((vget c.chainRec i {}).setColumn false (off % 0x20 / 8) v) }
  else if 0x13100 ≤ off ∧ off < 0x131C0 then
    let i := (off - 0x13100) / 0x20
    { c with chainRec := vset c.chainRec i ((vget c.chainRec i {}).setColumn true (off % 0x20 / 8) v) }
  else c

/-- The saved context that a sequencer still shows, if any (R361). -/
def shownImage (s : State) (q : Nat) : Option Saved := s.saved.find? fun x => x.shown && x.seq == q

/-- A word of the save image that a sequencer still shows (R361), if its context is saved. -/
def imageRead (s : State) (q off : Nat) : Option Word :=
  if (s.ctx q).state = .saved then (shownImage s q).map fun x => word (homeRead s (x.base + 0x1000 + off) 8).2 else none

/-- A word of a context page read by its byte offset in the 32 pages (R332, R333): the live fields of page 0, or a register
image, which reads as zero unless the context rests; a saved context's image is in the pool (R361). -/
def contextRead (s : State) (q off : Nat) : Word :=
  let c := s.ctx q
  let saved := fun (v : Word) => (imageRead s q off).getD v
  if off = 0x000 then 0
  else if off = 0x008 then packW [((shownState s q).code, 0),
    (if shownState s q = .waiting then ((waitReason s q).map Wait.code).getD 0 else 0, 8)]
  else if off = 0x018 then saved (packW [(c.root.toNat, 12), (c.space.toNat, 48)])
  else if off = 0x020 then saved (packW [(c.cause.toNat, 0), (c.subcode.toNat, 8), (c.cls.toNat, 16)])
  else if off = 0x028 then saved c.faultAddr
  else if off = 0x038 then saved (packW [(c.keeper.toNat, 0), (c.kv.toNat, 63)])
  else if off = 0x040 then word (s.pnum q % 32)
  else if !c.resting then 0
  else if 0x14000 ≤ off then 0
  else saved (imageWord s q off)

end Sys2Proof.Machine
end

