-- ==== Sys2Proof/Machine/Fetch.lean ====
section
/-!
DEFINITION. Instruction fetch (R436) and the repeat frame: capture, its checks, the staggered words (R40, R41, R153 to
R156), and taking a frame up again (R158).
-/
namespace Sys2Proof.Machine

/-- A sequencer fetches the word at an address: a read at scope die, from the die point and never from the core's own
registry (R436). A word fetched ahead or held by the core's instruction cache comes from there. A leaf without X, of control
class, or on a peer faults (R161, R409). -/
def fetchWord (s : State) (q : Nat) (va : Word) : Except MErr (State × Nat) := do
  let (s, x) ← translate s q va .x
  if x.ctl then throw (.stop cCONTROL_VIOLATION 0)
  slotCheck s x
  if asksHost s x && (!x.host || coherent s (s.pnum q)) then requestOk s (.seq q) false
  if x.host ∧ !coherent s (s.pnum q) then
    let (s, h) ← atsLookup s (.seq q) (fnOf (s.pnum q)) (s.ctx q).space.toNat x.pa x.va .x
    return (s, Memory.readN s.hostMem h 4)
  else
    let a := if x.host then hostTag + x.pa else x.pa
    match find (s.ctx q).ahead a, find s.icache (unitKey (q / 4) a) with
    | some w, _ => return (s.setCtx q { s.ctx q with ahead := del (s.ctx q).ahead a }, w.toNat)
    | none, some w => return (s, w.toNat)
    | none, none => readBytes (fun s w => dieRead s (coreDie (q / 4)) w x.grain x.slot) s a 4

/-- A sequencer fetches the word at an address ahead of its execution and keeps it (R436). Which words, and when, is open: the
agenda says it. -/
def fetchAhead (s : State) (q : Nat) (va : Word) : State :=
  match translate s q va .x with
  | .error (.wait s) => s
  | .error (.stop ..) => s
  | .ok (s, x) =>
    match cachedPlace s (s.pnum q) x, fetchWord s q va with
    | some a, .ok (s, w) => s.setCtx q { s.ctx q with ahead := put (s.ctx q).ahead a (BitVec.ofNat 32 w) }
    | _, _ => s

/-- The window of 256 instructions that a lane instruction buffer holds, if an address lies in it (R37). -/
def Ctx.laneWindow (c : Ctx) (pc : Word) : Option Word := c.laneBase.filter fun b => decide ((pc - b).toNat < 1024)

/-- A lane thread fetches from the sequencer's lane instruction buffer, which is filled as its words are asked for and begins
again at a program counter that leaves it (R37, R436; log entry 69). -/
def laneFetch (s : State) (q : Nat) (pc : Word) : Except MErr (State × Nat) :=
  let c := s.ctx q
  let base := (c.laneWindow pc).getD pc
  let buf := if (c.laneWindow pc).isSome then c.laneBuf else []
  match find buf ((pc - base).toNat / 4) with
  | some w => .ok (s, w.toNat)
  | none => do
    let (s, w) ← fetchWord s q pc
    return (s.setCtx q { s.ctx q with laneBase := some base, laneBuf := put buf ((pc - base).toNat / 4) (BitVec.ofNat 32 w) }, w)

/-- Consecutive words from an address; a stop names the word it met. -/
def fetchWords (s : State) (q : Nat) (va pc : Word) : Nat → Except Stop (State × List (BitVec 32))
  | 0 => .ok (s, [])
  | n + 1 => do
    let (s, w) ← liftB va pc (fetchWord s q va)
    let (s, ws) ← fetchWords s q (va + 4) pc n
    return (s, BitVec.ofNat 32 w :: ws)

/-- The register fields of a capturable word that a frame staggers: d, a, and b where it names a register (R154,
R189). -/
def staggersB (w : Nat) : Bool :=
  match w % 128 with
  | 0x01 => fld w 27 5 != 31
  | 0x20 | 0x21 | 0x23 | 0x24 | 0x25 | 0x26 | 0x28 | 0x2C => true
  | 0x29 => fld w 27 5 == 0
  | _ => false

/-- The word of replay `j`: each staggered field grows by `j` times its stagger, with no carry into another (R154). -/
def stagger (w j sd sa sb : Nat) : Nat :=
  let w := setField w 7 5 (fld w 7 5 + j * sd)
  let w := setField w 12 5 (fld w 12 5 + j * sa)
  if staggersB w then setField w 17 5 (fld w 17 5 + j * sb) else w

/-- A staggered field passes 31 at replay `j` (R41). -/
def passes31 (w j sd sa sb : Nat) : Bool :=
  decide (31 < fld w 7 5 + j * sd) || decide (31 < fld w 12 5 + j * sa)
    || (staggersB w && decide (31 < fld w 17 5 + j * sb))

/-- A capturable word that is legal: opcodes 0x01 to 0x07, 0x20 to 0x29 and 0x2C (R41, R155). -/
def legalCapture (w : Nat) : Bool :=
  let r := match w % 128 with
    | 0x01 => rowAlu w
    | 0x02 => rowAddi w
    | 0x03 => rowAndi w
    | 0x04 => rowOri w
    | 0x05 => rowXori w
    | 0x06 => rowShiftI w
    | 0x07 => rowSlti w
    | 0x20 => rowVv w
    | 0x21 => rowVs w
    | 0x22 => rowVi w
    | 0x23 => rowVfma w
    | 0x24 => rowVmacw w
    | 0x25 => rowVcmp w
    | 0x26 => rowVsel w
    | 0x27 => rowVcvt w
    | 0x28 => rowVshrr w
    | 0x29 => rowMath w
    | 0x2C => rowVsign w
    | _ => none
  match r with
  | some i => i.wf
  | none => false

/-- The value RPT_ILLEGAL leaves in tval (R155). -/
def rptTval (w i j : Nat) (isEnd : Bool) : Word :=
  word (w % 2 ^ 32 + 2 ^ 32 * (i % 16) + 2 ^ 36 * (j % 32) + 2 ^ 41 * isEnd.toNat)

/-- The first of a list's items that a test fails on. -/
def firstBad {α : Type} (l : List α) (bad : α → Option Word) : Option Word := l.findSome? bad

/-- The capture check of R41 and R155 of a frame at `pc`: the tval of the first failure, replay by replay, or none. The spec says
not which failure is reported where the END of a loop and a bad word fail together, nor the index of an END at the rpt itself: an
END is reported first, at the rpt as the rpt's word with index 0 (DESIGN CHOICE, log entry 70). -/
def captureCheck (x : Scal) (pc : Word) (rptWord : Nat) (ws : List (BitVec 32)) (cnt sd sa sb : Nat) : Option Word :=
  let ends := x.loops.toList.filterMap fun e => if e.count ≠ 0 then some e.last else none
  let n := ws.length
  let endAt := firstBad (List.range n) fun i =>
    if ends.contains (pc + word (4 * i)) then
      some (rptTval (if i = 0 then rptWord else (ws.getD (i - 1) 0).toNat) (i - 1) 0 true)
    else none
  match endAt with
  | some t => some t
  | none => firstBad (List.range cnt) fun j => firstBad (List.range n) fun i =>
      let w := (ws.getD i 0).toNat
      let v := stagger w j sd sa sb
      if passes31 w j sd sa sb || !legalCapture v then some (rptTval v i j false) else none

/-- A frame is captured at the rpt at `pc`, whose word is `w`, and continues at replay `j`, word `i` (R155, R158). The
trap of a failed check stands at the rpt. `again`: a frame is already active where none may be; where no word fails, R155 names
no word for tval, and it holds the rpt's own with i and j 0 (DESIGN CHOICE, log entry 70). That a position past the frame's
words or replays, which R27 refuses at RESUME and STEP alone, is taken as it stands by a tret is a DESIGN CHOICE too (log entry
70). -/
def enterFrame (s : State) (q : Nat) (pc : Word) (w i j : Nat) (again : Bool := false) : Except Stop State := do
  let f := RptF.dec w
  let n := f.len.toNat + 1
  let cnt := f.cnt.toNat + 1
  let (s, ws) ← fetchWords s q (pc + 4) pc n
  let c := s.ctx q
  match captureCheck c.sc pc w ws cnt f.sd.val f.sa.val f.sb.val with
  | some t => throw (.trap (classA cRPT_ILLEGAL 0 t pc))
  | none =>
    if again then throw (.trap (classA cRPT_ILLEGAL 0 (rptTval w 0 0 false) pc))
    return s.setCtx q { c with sc := { c.sc with
      rptAct := true
      rptRun := true
      rptI := i
      rptJ := j
      rptBuf := ws
      rptCnt := cnt
      rptSd := f.sd.val
      rptSa := f.sa.val
      rptSb := f.sb.val
      pc := pc + word (4 * (i + 1)) } }

/-- A word of opcode 0x0F whose bits 31:24 are zero (R153). -/
def isRpt (w : Nat) : Bool := w % 128 == 0x0F && w / 2 ^ 24 == 0

/-- A sequencer with RPT_ACT = 1 takes its frame up again at the position it stands at (R158); a word there that is no
rpt fails like a failed check. What RPT_ACT, RPT_I and RPT_J hold after a failed check the spec does not say: they stay as they
stood (DESIGN CHOICE, log entry 70). -/
def resumeFrame (s : State) (q : Nat) : Except Stop State := do
  let x := (s.ctx q).sc
  let pc := x.pc - word (4 * (x.rptI + 1))
  let (s, w) ← liftB pc pc (fetchWord s q pc)
  if isRpt w then enterFrame s q pc w x.rptI x.rptJ
  else throw (.trap (classA cRPT_ILLEGAL 0 (rptTval w 0 0 false) pc))

/-- The word that executes now: the repeat buffer's, staggered, inside a frame (R42, R156), a lane thread's (R37), else the
fetched one. -/
def nextWord (s : State) : Except Stop (State × Nat) :=
  let x := s.c.sc
  if !s.c.laneOn && x.rptRun then
    .ok (s, stagger (x.rptBuf.getD x.rptI 0).toNat x.rptJ x.rptSd x.rptSa x.rptSb)
  else if s.c.laneOn then liftB s.pc s.pc (laneFetch s s.cur s.pc)
  else liftB s.pc s.pc (fetchWord s s.cur s.pc)

end Sys2Proof.Machine
end

