-- ==== Sys2Proof/Machine/Lane.lean ====
section
/-!
DEFINITION. The lane-matrix forms (R233 to R247): the form of each and its issue by the scalar side.
-/
namespace Sys2Proof.Machine

/-- wld (R238), as the queue holds it. -/
def wldForm (x : WMem) : VForm :=
  { word := BitVec.ofNat 32 (0x00000040 + x.enc), op := .wld, d := x.w.val, b := x.stride.val, c := x.v.val, k := x.k.val, ea := x.e, p := x.p }

/-- wld (R238). -/
def execWld (x : WMem) (s : State) : Out := issueVector (wldForm x) s

/-- wst (R239), as the queue holds it. -/
def wstForm (x : WMem) : VForm :=
  { word := BitVec.ofNat 32 (0x00000041 + x.enc), op := .wst, d := x.w.val, b := x.stride.val, c := x.v.val, k := x.k.val, ea := x.e, p := x.p }

/-- wst (R239). -/
def execWst (x : WMem) (s : State) : Out := issueVector (wstForm x) s

/-- wmul (R240), as the queue holds it. -/
def wmulForm (x : W3) : VForm :=
  { word := BitVec.ofNat 32 (0x00000042 + x.enc), op := .wmul .mul, d := x.d.val, a := x.a.val, b := x.b.val, k := x.k.val, ea := x.e, p := x.p }

/-- wmul (R240). -/
def execWmul (x : W3) (s : State) : Out := issueVector (wmulForm x) s

/-- wmac (R240), as the queue holds it. -/
def wmacForm (x : W3) : VForm :=
  { word := BitVec.ofNat 32 (0x00400042 + x.enc), op := .wmul .mac, d := x.d.val, a := x.a.val, b := x.b.val, k := x.k.val, ea := x.e, p := x.p }

/-- wmac (R240). -/
def execWmac (x : W3) (s : State) : Out := issueVector (wmacForm x) s

/-- wmult (R240), as the queue holds it. -/
def wmultForm (x : W3) : VForm :=
  { word := BitVec.ofNat 32 (0x00800042 + x.enc), op := .wmul .mult, d := x.d.val, a := x.a.val, b := x.b.val, k := x.k.val, ea := x.e, p := x.p }

/-- wmult (R240). -/
def execWmult (x : W3) (s : State) : Out := issueVector (wmultForm x) s

/-- wchol (R243), as the queue holds it. -/
def wcholForm (x : WChol) : VForm :=
  { word := BitVec.ofNat 32 (0x00000043 + x.enc), op := .wchol, d := x.d.val, k := x.k.val, ea := x.e, p := x.p, res := x.res.val }

/-- wchol (R243). -/
def execWchol (x : WChol) (s : State) : Out := issueVector (wcholForm x) s

/-- wlu (R245), as the queue holds it. -/
def wluForm (x : WLu) : VForm :=
  { word := BitVec.ofNat 32 (0x00000044 + x.enc), op := .wlu, d := x.d.val, c := x.v.val, k := x.k.val, ea := x.e, p := x.p, res := x.res.val }

/-- wlu (R245). -/
def execWlu (x : WLu) (s : State) : Out := issueVector (wluForm x) s

/-- wsolve.c (R247), as the queue holds it. -/
def wsolveCForm (x : WV) : VForm :=
  { word := BitVec.ofNat 32 (0x00000045 + x.enc), op := .wsolve false, d := x.d.val, a := x.a.val, c := x.v.val, k := x.k.val, ea := x.e, p := x.p }

/-- wsolve.c (R247). -/
def execWsolveC (x : WV) (s : State) : Out := issueVector (wsolveCForm x) s

/-- wsolve.p (R247), as the queue holds it. -/
def wsolvePForm (x : WV) : VForm :=
  { word := BitVec.ofNat 32 (0x02000045 + x.enc), op := .wsolve true, d := x.d.val, a := x.a.val, c := x.v.val, k := x.k.val, ea := x.e, p := x.p }

/-- wsolve.p (R247). -/
def execWsolveP (x : WV) (s : State) : Out := issueVector (wsolvePForm x) s

/-- wadd (R241), as the queue holds it. -/
def waddForm (x : W3) : VForm :=
  { word := BitVec.ofNat 32 (0x00000046 + x.enc), op := .wadd false, d := x.d.val, a := x.a.val, b := x.b.val, k := x.k.val, ea := x.e, p := x.p }

/-- wadd (R241). -/
def execWadd (x : W3) (s : State) : Out := issueVector (waddForm x) s

/-- wsub (R241), as the queue holds it. -/
def wsubForm (x : W3) : VForm :=
  { word := BitVec.ofNat 32 (0x00400046 + x.enc), op := .wadd true, d := x.d.val, a := x.a.val, b := x.b.val, k := x.k.val, ea := x.e, p := x.p }

/-- wsub (R241). -/
def execWsub (x : W3) (s : State) : Out := issueVector (wsubForm x) s

/-- wscal (R241), as the queue holds it. -/
def wscalForm (x : WV) : VForm :=
  { word := BitVec.ofNat 32 (0x00800046 + x.enc), op := .wscal, d := x.d.val, a := x.a.val, c := x.v.val, k := x.k.val, ea := x.e, p := x.p }

/-- wscal (R241). -/
def execWscal (x : WV) (s : State) : Out := issueVector (wscalForm x) s

/-- wtrn (R241), as the queue holds it. -/
def wtrnForm (x : W2) : VForm :=
  { word := BitVec.ofNat 32 (0x00C00046 + x.enc), op := .wtrn, d := x.d.val, a := x.a.val, k := x.k.val, ea := x.e, p := x.p }

/-- wtrn (R241). -/
def execWtrn (x : W2) (s : State) : Out := issueVector (wtrnForm x) s

/-- wid (R241), as the queue holds it. -/
def widForm (x : W1) : VForm :=
  { word := BitVec.ofNat 32 (0x01000046 + x.enc), op := .wid, d := x.d.val, k := x.k.val, ea := x.e, p := x.p }

/-- wid (R241). -/
def execWid (x : W1) (s : State) : Out := issueVector (widForm x) s

/-- wcpy (R241), as the queue holds it. -/
def wcpyForm (x : W2) : VForm :=
  { word := BitVec.ofNat 32 (0x01400046 + x.enc), op := .wcpy, d := x.d.val, a := x.a.val, k := x.k.val, ea := x.e, p := x.p }

/-- wcpy (R241). -/
def execWcpy (x : W2) (s : State) : Out := issueVector (wcpyForm x) s

/-- wdim (R234), as the queue holds it. -/
def wdimForm (x : WDim) : VForm :=
  { word := BitVec.ofNat 32 (0x01800046 + x.enc), op := .wdim, a := x.rows.val, b := x.cols.val }

/-- wdim (R234). -/
def execWdim (x : WDim) (s : State) : Out := issueVector (wdimForm x) s

/-- wget (R242), as the queue holds it. -/
def wgetForm (x : WGet) : VForm :=
  { word := BitVec.ofNat 32 (0x00000047 + x.enc), op := .wget, a := x.a.val, c := x.v.val, k := x.k.val, ea := x.e, p := x.p, imm := x.row.val + 8 * x.col.val }

/-- wget (R242). -/
def execWget (x : WGet) (s : State) : Out := issueVector (wgetForm x) s

/-- wput (R242), as the queue holds it. -/
def wputForm (x : WPut) : VForm :=
  { word := BitVec.ofNat 32 (0x00400047 + x.enc), op := .wput, d := x.d.val, c := x.v.val, k := x.k.val, ea := x.e, p := x.p, imm := x.row.val + 8 * x.col.val }

/-- wput (R242). -/
def execWput (x : WPut) (s : State) : Out := issueVector (wputForm x) s

end Sys2Proof.Machine
end

