-- ==== Sys2Proof/Machine/TileForms.lean ====
section
/-!
DEFINITION. The tile-engine forms of the vector queue (R257 to R263): the form of each and its issue by the scalar side.
-/
namespace Sys2Proof.Machine

/-- The A tag, keep bits and zero bit of a product, as a form packs them. -/
def productImm (t : BitVec 5) (ka kb z : Bool) : Int := t.toNat + 32 * ka.toNat + 64 * kb.toNat + 128 * z.toNat

/-- tacc (R257), as the queue holds it. -/
def taccForm (x : TAcc) : VForm :=
  { word := BitVec.ofNat 32 (0x01000048 + x.enc), op := .tacc, d := x.t.val, c := x.x.val, ea := x.e }

/-- tacc (R257). -/
def execTacc (x : TAcc) (s : State) : Out := issueVector (taccForm x) s

/-- tmma (R259), as the queue holds it. -/
def tmmaForm (x : TMma) : VForm :=
  { word := BitVec.ofNat 32 (0x00000049 + x.enc), op := .tmma, d := x.t.val, a := x.fa.val, b := x.fb.val, c := x.tb.toNat, ea := x.e,
    imm := productImm x.ta x.ka x.kb x.z }

/-- tmma (R259). -/
def execTmma (x : TMma) (s : State) : Out := issueVector (tmmaForm x) s

/-- tmms (R260), as the queue holds it. -/
def tmmsForm (x : TMms) : VForm :=
  { word := BitVec.ofNat 32 (0x0000004A + x.enc), op := .tmms, d := x.t.val, a := x.fa.val, b := x.fb.val, c := x.x.val, ea := x.e, imm := productImm x.tg x.ka x.kb x.z }

/-- tmms (R260). -/
def execTmms (x : TMms) (s : State) : Out := issueVector (tmmsForm x) s

/-- tread (R261), as the queue holds it. -/
def treadForm (x : TRow) : VForm :=
  { word := BitVec.ofNat 32 (0x0000004B + x.enc), op := .tread, d := x.t.val, c := x.x.val, ea := x.e, imm := x.row.toNat }

/-- tread (R261). -/
def execTread (x : TRow) (s : State) : Out := issueVector (treadForm x) s

/-- twrite (R261), as the queue holds it. -/
def twriteForm (x : TRow) : VForm :=
  { word := BitVec.ofNat 32 (0x0000004C + x.enc), op := .twrite, d := x.t.val, c := x.x.val, ea := x.e, imm := x.row.toNat }

/-- twrite (R261). -/
def execTwrite (x : TRow) (s : State) : Out := issueVector (twriteForm x) s

/-- tepi (R263), as the queue holds it. -/
def tepiForm (x : TEpi) : VForm :=
  { word := BitVec.ofNat 32 (0x0000004E + x.enc), op := .tepi, d := x.t.val, c := x.x.val, ea := x.e, imm := x.row.toNat + 64 * x.act.val }

/-- tepi (R263). -/
def execTepi (x : TEpi) (s : State) : Out := issueVector (tepiForm x) s

end Sys2Proof.Machine
end

