-- ==== Sys2Proof/Machine/VArith.lean ====
section
/-!
DEFINITION. The vector arithmetic (R184 to R208): the form of each and its issue by the scalar side.
-/
namespace Sys2Proof.Machine

/-- vadd (R191), as the queue holds it. -/
def vaddForm (x : V3) : VForm :=
  { word := BitVec.ofNat 32 (0x00000020 + x.enc), op := .bin .add .vec, d := x.d.val, a := x.a.val, b := x.b.val, k := x.k.val, ea := x.ea, eb := x.eb }

/-- vadd (R191). -/
def execVadd (x : V3) (s : State) : Out := issueVector (vaddForm x) s

/-- vsub (R191), as the queue holds it. -/
def vsubForm (x : V3) : VForm :=
  { word := BitVec.ofNat 32 (0x08000020 + x.enc), op := .bin .sub .vec, d := x.d.val, a := x.a.val, b := x.b.val, k := x.k.val, ea := x.ea, eb := x.eb }

/-- vsub (R191). -/
def execVsub (x : V3) (s : State) : Out := issueVector (vsubForm x) s

/-- vmul (R191), as the queue holds it. -/
def vmulForm (x : V3) : VForm :=
  { word := BitVec.ofNat 32 (0x10000020 + x.enc), op := .bin .mul .vec, d := x.d.val, a := x.a.val, b := x.b.val, k := x.k.val, ea := x.ea, eb := x.eb }

/-- vmul (R191). -/
def execVmul (x : V3) (s : State) : Out := issueVector (vmulForm x) s

/-- vmin (R191), as the queue holds it. -/
def vminForm (x : V3) : VForm :=
  { word := BitVec.ofNat 32 (0x18000020 + x.enc), op := .bin .min .vec, d := x.d.val, a := x.a.val, b := x.b.val, k := x.k.val, ea := x.ea, eb := x.eb }

/-- vmin (R191). -/
def execVmin (x : V3) (s : State) : Out := issueVector (vminForm x) s

/-- vmax (R191), as the queue holds it. -/
def vmaxForm (x : V3) : VForm :=
  { word := BitVec.ofNat 32 (0x20000020 + x.enc), op := .bin .max .vec, d := x.d.val, a := x.a.val, b := x.b.val, k := x.k.val, ea := x.ea, eb := x.eb }

/-- vmax (R191). -/
def execVmax (x : V3) (s : State) : Out := issueVector (vmaxForm x) s

/-- vand (R191), as the queue holds it. -/
def vandForm (x : V3) : VForm :=
  { word := BitVec.ofNat 32 (0x28000020 + x.enc), op := .bin .and .vec, d := x.d.val, a := x.a.val, b := x.b.val, k := x.k.val, ea := x.ea, eb := x.eb }

/-- vand (R191). -/
def execVand (x : V3) (s : State) : Out := issueVector (vandForm x) s

/-- vor (R191), as the queue holds it. -/
def vorForm (x : V3) : VForm :=
  { word := BitVec.ofNat 32 (0x30000020 + x.enc), op := .bin .or .vec, d := x.d.val, a := x.a.val, b := x.b.val, k := x.k.val, ea := x.ea, eb := x.eb }

/-- vor (R191). -/
def execVor (x : V3) (s : State) : Out := issueVector (vorForm x) s

/-- vxor (R191), as the queue holds it. -/
def vxorForm (x : V3) : VForm :=
  { word := BitVec.ofNat 32 (0x38000020 + x.enc), op := .bin .xor .vec, d := x.d.val, a := x.a.val, b := x.b.val, k := x.k.val, ea := x.ea, eb := x.eb }

/-- vxor (R191). -/
def execVxor (x : V3) (s : State) : Out := issueVector (vxorForm x) s

/-- vshl (R191), as the queue holds it. -/
def vshlForm (x : V3) : VForm :=
  { word := BitVec.ofNat 32 (0x40000020 + x.enc), op := .bin .shl .vec, d := x.d.val, a := x.a.val, b := x.b.val, k := x.k.val, ea := x.ea, eb := x.eb }

/-- vshl (R191). -/
def execVshl (x : V3) (s : State) : Out := issueVector (vshlForm x) s

/-- vshr (R191), as the queue holds it. -/
def vshrForm (x : V3) : VForm :=
  { word := BitVec.ofNat 32 (0x48000020 + x.enc), op := .bin .shr .vec, d := x.d.val, a := x.a.val, b := x.b.val, k := x.k.val, ea := x.ea, eb := x.eb }

/-- vshr (R191). -/
def execVshr (x : V3) (s : State) : Out := issueVector (vshrForm x) s

/-- vsar (R191), as the queue holds it. -/
def vsarForm (x : V3) : VForm :=
  { word := BitVec.ofNat 32 (0x50000020 + x.enc), op := .bin .sar .vec, d := x.d.val, a := x.a.val, b := x.b.val, k := x.k.val, ea := x.ea, eb := x.eb }

/-- vsar (R191). -/
def execVsar (x : V3) (s : State) : Out := issueVector (vsarForm x) s

/-- vabd (R191), as the queue holds it. -/
def vabdForm (x : V3) : VForm :=
  { word := BitVec.ofNat 32 (0x58000020 + x.enc), op := .bin .abd .vec, d := x.d.val, a := x.a.val, b := x.b.val, k := x.k.val, ea := x.ea, eb := x.eb }

/-- vabd (R191). -/
def execVabd (x : V3) (s : State) : Out := issueVector (vabdForm x) s

/-- vavg (R191), as the queue holds it. -/
def vavgForm (x : V3) : VForm :=
  { word := BitVec.ofNat 32 (0x60000020 + x.enc), op := .bin .avg .vec, d := x.d.val, a := x.a.val, b := x.b.val, k := x.k.val, ea := x.ea, eb := x.eb }

/-- vavg (R191). -/
def execVavg (x : V3) (s : State) : Out := issueVector (vavgForm x) s

/-- vadds (R191), as the queue holds it. -/
def vaddsForm (x : V3) : VForm :=
  { word := BitVec.ofNat 32 (0x68000020 + x.enc), op := .bin .adds .vec, d := x.d.val, a := x.a.val, b := x.b.val, k := x.k.val, ea := x.ea, eb := x.eb }

/-- vadds (R191). -/
def execVadds (x : V3) (s : State) : Out := issueVector (vaddsForm x) s

/-- vsubs (R191), as the queue holds it. -/
def vsubsForm (x : V3) : VForm :=
  { word := BitVec.ofNat 32 (0x70000020 + x.enc), op := .bin .subs .vec, d := x.d.val, a := x.a.val, b := x.b.val, k := x.k.val, ea := x.ea, eb := x.eb }

/-- vsubs (R191). -/
def execVsubs (x : V3) (s : State) : Out := issueVector (vsubsForm x) s

/-- vmulh (R191), as the queue holds it. -/
def vmulhForm (x : V3) : VForm :=
  { word := BitVec.ofNat 32 (0x78000020 + x.enc), op := .bin .mulh .vec, d := x.d.val, a := x.a.val, b := x.b.val, k := x.k.val, ea := x.ea, eb := x.eb }

/-- vmulh (R191). -/
def execVmulh (x : V3) (s : State) : Out := issueVector (vmulhForm x) s

/-- vadd.s (R190), as the queue holds it. -/
def vaddSForm (x : V3) : VForm :=
  { word := BitVec.ofNat 32 (0x00000021 + x.enc), op := .bin .add .scal, d := x.d.val, a := x.a.val, b := x.b.val, k := x.k.val, ea := x.ea, eb := x.eb }

/-- vadd.s (R190). -/
def execVaddS (x : V3) (s : State) : Out := issueVector (vaddSForm x) s

/-- vsub.s (R190), as the queue holds it. -/
def vsubSForm (x : V3) : VForm :=
  { word := BitVec.ofNat 32 (0x08000021 + x.enc), op := .bin .sub .scal, d := x.d.val, a := x.a.val, b := x.b.val, k := x.k.val, ea := x.ea, eb := x.eb }

/-- vsub.s (R190). -/
def execVsubS (x : V3) (s : State) : Out := issueVector (vsubSForm x) s

/-- vmul.s (R190), as the queue holds it. -/
def vmulSForm (x : V3) : VForm :=
  { word := BitVec.ofNat 32 (0x10000021 + x.enc), op := .bin .mul .scal, d := x.d.val, a := x.a.val, b := x.b.val, k := x.k.val, ea := x.ea, eb := x.eb }

/-- vmul.s (R190). -/
def execVmulS (x : V3) (s : State) : Out := issueVector (vmulSForm x) s

/-- vmin.s (R190), as the queue holds it. -/
def vminSForm (x : V3) : VForm :=
  { word := BitVec.ofNat 32 (0x18000021 + x.enc), op := .bin .min .scal, d := x.d.val, a := x.a.val, b := x.b.val, k := x.k.val, ea := x.ea, eb := x.eb }

/-- vmin.s (R190). -/
def execVminS (x : V3) (s : State) : Out := issueVector (vminSForm x) s

/-- vmax.s (R190), as the queue holds it. -/
def vmaxSForm (x : V3) : VForm :=
  { word := BitVec.ofNat 32 (0x20000021 + x.enc), op := .bin .max .scal, d := x.d.val, a := x.a.val, b := x.b.val, k := x.k.val, ea := x.ea, eb := x.eb }

/-- vmax.s (R190). -/
def execVmaxS (x : V3) (s : State) : Out := issueVector (vmaxSForm x) s

/-- vand.s (R190), as the queue holds it. -/
def vandSForm (x : V3) : VForm :=
  { word := BitVec.ofNat 32 (0x28000021 + x.enc), op := .bin .and .scal, d := x.d.val, a := x.a.val, b := x.b.val, k := x.k.val, ea := x.ea, eb := x.eb }

/-- vand.s (R190). -/
def execVandS (x : V3) (s : State) : Out := issueVector (vandSForm x) s

/-- vor.s (R190), as the queue holds it. -/
def vorSForm (x : V3) : VForm :=
  { word := BitVec.ofNat 32 (0x30000021 + x.enc), op := .bin .or .scal, d := x.d.val, a := x.a.val, b := x.b.val, k := x.k.val, ea := x.ea, eb := x.eb }

/-- vor.s (R190). -/
def execVorS (x : V3) (s : State) : Out := issueVector (vorSForm x) s

/-- vxor.s (R190), as the queue holds it. -/
def vxorSForm (x : V3) : VForm :=
  { word := BitVec.ofNat 32 (0x38000021 + x.enc), op := .bin .xor .scal, d := x.d.val, a := x.a.val, b := x.b.val, k := x.k.val, ea := x.ea, eb := x.eb }

/-- vxor.s (R190). -/
def execVxorS (x : V3) (s : State) : Out := issueVector (vxorSForm x) s

/-- vshl.s (R190), as the queue holds it. -/
def vshlSForm (x : V3) : VForm :=
  { word := BitVec.ofNat 32 (0x40000021 + x.enc), op := .bin .shl .scal, d := x.d.val, a := x.a.val, b := x.b.val, k := x.k.val, ea := x.ea, eb := x.eb }

/-- vshl.s (R190). -/
def execVshlS (x : V3) (s : State) : Out := issueVector (vshlSForm x) s

/-- vshr.s (R190), as the queue holds it. -/
def vshrSForm (x : V3) : VForm :=
  { word := BitVec.ofNat 32 (0x48000021 + x.enc), op := .bin .shr .scal, d := x.d.val, a := x.a.val, b := x.b.val, k := x.k.val, ea := x.ea, eb := x.eb }

/-- vshr.s (R190). -/
def execVshrS (x : V3) (s : State) : Out := issueVector (vshrSForm x) s

/-- vsar.s (R190), as the queue holds it. -/
def vsarSForm (x : V3) : VForm :=
  { word := BitVec.ofNat 32 (0x50000021 + x.enc), op := .bin .sar .scal, d := x.d.val, a := x.a.val, b := x.b.val, k := x.k.val, ea := x.ea, eb := x.eb }

/-- vsar.s (R190). -/
def execVsarS (x : V3) (s : State) : Out := issueVector (vsarSForm x) s

/-- vabd.s (R190), as the queue holds it. -/
def vabdSForm (x : V3) : VForm :=
  { word := BitVec.ofNat 32 (0x58000021 + x.enc), op := .bin .abd .scal, d := x.d.val, a := x.a.val, b := x.b.val, k := x.k.val, ea := x.ea, eb := x.eb }

/-- vabd.s (R190). -/
def execVabdS (x : V3) (s : State) : Out := issueVector (vabdSForm x) s

/-- vavg.s (R190), as the queue holds it. -/
def vavgSForm (x : V3) : VForm :=
  { word := BitVec.ofNat 32 (0x60000021 + x.enc), op := .bin .avg .scal, d := x.d.val, a := x.a.val, b := x.b.val, k := x.k.val, ea := x.ea, eb := x.eb }

/-- vavg.s (R190). -/
def execVavgS (x : V3) (s : State) : Out := issueVector (vavgSForm x) s

/-- vadds.s (R190), as the queue holds it. -/
def vaddsSForm (x : V3) : VForm :=
  { word := BitVec.ofNat 32 (0x68000021 + x.enc), op := .bin .adds .scal, d := x.d.val, a := x.a.val, b := x.b.val, k := x.k.val, ea := x.ea, eb := x.eb }

/-- vadds.s (R190). -/
def execVaddsS (x : V3) (s : State) : Out := issueVector (vaddsSForm x) s

/-- vsubs.s (R190), as the queue holds it. -/
def vsubsSForm (x : V3) : VForm :=
  { word := BitVec.ofNat 32 (0x70000021 + x.enc), op := .bin .subs .scal, d := x.d.val, a := x.a.val, b := x.b.val, k := x.k.val, ea := x.ea, eb := x.eb }

/-- vsubs.s (R190). -/
def execVsubsS (x : V3) (s : State) : Out := issueVector (vsubsSForm x) s

/-- vmulh.s (R190), as the queue holds it. -/
def vmulhSForm (x : V3) : VForm :=
  { word := BitVec.ofNat 32 (0x78000021 + x.enc), op := .bin .mulh .scal, d := x.d.val, a := x.a.val, b := x.b.val, k := x.k.val, ea := x.ea, eb := x.eb }

/-- vmulh.s (R190). -/
def execVmulhS (x : V3) (s : State) : Out := issueVector (vmulhSForm x) s

/-- vadd.i (R190), as the queue holds it. -/
def vaddIForm (x : VImm) : VForm :=
  { word := BitVec.ofNat 32 (0x00000022 + x.enc), op := .bin .add .imm, d := x.d.val, a := x.a.val, k := x.k.val, ea := x.ea, imm := x.imm.toInt }

/-- vadd.i (R190). -/
def execVaddI (x : VImm) (s : State) : Out := issueVector (vaddIForm x) s

/-- vsub.i (R190), as the queue holds it. -/
def vsubIForm (x : VImm) : VForm :=
  { word := BitVec.ofNat 32 (0x08000022 + x.enc), op := .bin .sub .imm, d := x.d.val, a := x.a.val, k := x.k.val, ea := x.ea, imm := x.imm.toInt }

/-- vsub.i (R190). -/
def execVsubI (x : VImm) (s : State) : Out := issueVector (vsubIForm x) s

/-- vmul.i (R190), as the queue holds it. -/
def vmulIForm (x : VImm) : VForm :=
  { word := BitVec.ofNat 32 (0x10000022 + x.enc), op := .bin .mul .imm, d := x.d.val, a := x.a.val, k := x.k.val, ea := x.ea, imm := x.imm.toInt }

/-- vmul.i (R190). -/
def execVmulI (x : VImm) (s : State) : Out := issueVector (vmulIForm x) s

/-- vmin.i (R190), as the queue holds it. -/
def vminIForm (x : VImm) : VForm :=
  { word := BitVec.ofNat 32 (0x18000022 + x.enc), op := .bin .min .imm, d := x.d.val, a := x.a.val, k := x.k.val, ea := x.ea, imm := x.imm.toInt }

/-- vmin.i (R190). -/
def execVminI (x : VImm) (s : State) : Out := issueVector (vminIForm x) s

/-- vmax.i (R190), as the queue holds it. -/
def vmaxIForm (x : VImm) : VForm :=
  { word := BitVec.ofNat 32 (0x20000022 + x.enc), op := .bin .max .imm, d := x.d.val, a := x.a.val, k := x.k.val, ea := x.ea, imm := x.imm.toInt }

/-- vmax.i (R190). -/
def execVmaxI (x : VImm) (s : State) : Out := issueVector (vmaxIForm x) s

/-- vand.i (R190), as the queue holds it. -/
def vandIForm (x : VImm) : VForm :=
  { word := BitVec.ofNat 32 (0x28000022 + x.enc), op := .bin .and .imm, d := x.d.val, a := x.a.val, k := x.k.val, ea := x.ea, imm := x.imm.toInt }

/-- vand.i (R190). -/
def execVandI (x : VImm) (s : State) : Out := issueVector (vandIForm x) s

/-- vor.i (R190), as the queue holds it. -/
def vorIForm (x : VImm) : VForm :=
  { word := BitVec.ofNat 32 (0x30000022 + x.enc), op := .bin .or .imm, d := x.d.val, a := x.a.val, k := x.k.val, ea := x.ea, imm := x.imm.toInt }

/-- vor.i (R190). -/
def execVorI (x : VImm) (s : State) : Out := issueVector (vorIForm x) s

/-- vxor.i (R190), as the queue holds it. -/
def vxorIForm (x : VImm) : VForm :=
  { word := BitVec.ofNat 32 (0x38000022 + x.enc), op := .bin .xor .imm, d := x.d.val, a := x.a.val, k := x.k.val, ea := x.ea, imm := x.imm.toInt }

/-- vxor.i (R190). -/
def execVxorI (x : VImm) (s : State) : Out := issueVector (vxorIForm x) s

/-- vshl.i (R187), as the queue holds it. -/
def vshlIForm (x : VShImm) : VForm :=
  { word := BitVec.ofNat 32 (0x40000022 + x.enc), op := .bin .shl .imm, d := x.d.val, a := x.a.val, k := x.k.val, ea := x.ea, imm := x.amt.toNat }

/-- vshl.i (R187). -/
def execVshlI (x : VShImm) (s : State) : Out := issueVector (vshlIForm x) s

/-- vshr.i (R187), as the queue holds it. -/
def vshrIForm (x : VShImm) : VForm :=
  { word := BitVec.ofNat 32 (0x48000022 + x.enc), op := .bin .shr .imm, d := x.d.val, a := x.a.val, k := x.k.val, ea := x.ea, imm := x.amt.toNat }

/-- vshr.i (R187). -/
def execVshrI (x : VShImm) (s : State) : Out := issueVector (vshrIForm x) s

/-- vsar.i (R187), as the queue holds it. -/
def vsarIForm (x : VShImm) : VForm :=
  { word := BitVec.ofNat 32 (0x50000022 + x.enc), op := .bin .sar .imm, d := x.d.val, a := x.a.val, k := x.k.val, ea := x.ea, imm := x.amt.toNat }

/-- vsar.i (R187). -/
def execVsarI (x : VShImm) (s : State) : Out := issueVector (vsarIForm x) s

/-- vabd.i (R190), as the queue holds it. -/
def vabdIForm (x : VImm) : VForm :=
  { word := BitVec.ofNat 32 (0x58000022 + x.enc), op := .bin .abd .imm, d := x.d.val, a := x.a.val, k := x.k.val, ea := x.ea, imm := x.imm.toInt }

/-- vabd.i (R190). -/
def execVabdI (x : VImm) (s : State) : Out := issueVector (vabdIForm x) s

/-- vavg.i (R190), as the queue holds it. -/
def vavgIForm (x : VImm) : VForm :=
  { word := BitVec.ofNat 32 (0x60000022 + x.enc), op := .bin .avg .imm, d := x.d.val, a := x.a.val, k := x.k.val, ea := x.ea, imm := x.imm.toInt }

/-- vavg.i (R190). -/
def execVavgI (x : VImm) (s : State) : Out := issueVector (vavgIForm x) s

/-- vadds.i (R190), as the queue holds it. -/
def vaddsIForm (x : VImm) : VForm :=
  { word := BitVec.ofNat 32 (0x68000022 + x.enc), op := .bin .adds .imm, d := x.d.val, a := x.a.val, k := x.k.val, ea := x.ea, imm := x.imm.toInt }

/-- vadds.i (R190). -/
def execVaddsI (x : VImm) (s : State) : Out := issueVector (vaddsIForm x) s

/-- vsubs.i (R190), as the queue holds it. -/
def vsubsIForm (x : VImm) : VForm :=
  { word := BitVec.ofNat 32 (0x70000022 + x.enc), op := .bin .subs .imm, d := x.d.val, a := x.a.val, k := x.k.val, ea := x.ea, imm := x.imm.toInt }

/-- vsubs.i (R190). -/
def execVsubsI (x : VImm) (s : State) : Out := issueVector (vsubsIForm x) s

/-- vmulh.i (R190), as the queue holds it. -/
def vmulhIForm (x : VImm) : VForm :=
  { word := BitVec.ofNat 32 (0x78000022 + x.enc), op := .bin .mulh .imm, d := x.d.val, a := x.a.val, k := x.k.val, ea := x.ea, imm := x.imm.toInt }

/-- vmulh.i (R190). -/
def execVmulhI (x : VImm) (s : State) : Out := issueVector (vmulhIForm x) s

/-- vfma (R193), as the queue holds it. -/
def vfmaForm (x : V3) : VForm :=
  { word := BitVec.ofNat 32 (0x00000023 + x.enc), op := .fma false false, d := x.d.val, a := x.a.val, b := x.b.val, k := x.k.val, ea := x.ea, eb := x.eb }

/-- vfma (R193). -/
def execVfma (x : V3) (s : State) : Out := issueVector (vfmaForm x) s

/-- vfms (R193), as the queue holds it. -/
def vfmsForm (x : V3) : VForm :=
  { word := BitVec.ofNat 32 (0x08000023 + x.enc), op := .fma false true, d := x.d.val, a := x.a.val, b := x.b.val, k := x.k.val, ea := x.ea, eb := x.eb }

/-- vfms (R193). -/
def execVfms (x : V3) (s : State) : Out := issueVector (vfmsForm x) s

/-- vfnma (R193), as the queue holds it. -/
def vfnmaForm (x : V3) : VForm :=
  { word := BitVec.ofNat 32 (0x10000023 + x.enc), op := .fma true true, d := x.d.val, a := x.a.val, b := x.b.val, k := x.k.val, ea := x.ea, eb := x.eb }

/-- vfnma (R193). -/
def execVfnma (x : V3) (s : State) : Out := issueVector (vfnmaForm x) s

/-- vfnms (R193), as the queue holds it. -/
def vfnmsForm (x : V3) : VForm :=
  { word := BitVec.ofNat 32 (0x18000023 + x.enc), op := .fma true false, d := x.d.val, a := x.a.val, b := x.b.val, k := x.k.val, ea := x.ea, eb := x.eb }

/-- vfnms (R193). -/
def execVfnms (x : V3) (s : State) : Out := issueVector (vfnmsForm x) s

/-- vmacw (R194), as the queue holds it. -/
def vmacwForm (x : V3) : VForm :=
  { word := BitVec.ofNat 32 (0x00000024 + x.enc), op := .macw, d := x.d.val, a := x.a.val, b := x.b.val, k := x.k.val, ea := x.ea, eb := x.eb }

/-- vmacw (R194). -/
def execVmacw (x : V3) (s : State) : Out := issueVector (vmacwForm x) s

/-- vcmp.eq (R195), as the queue holds it. -/
def vcmpEqForm (x : VCmp) : VForm :=
  { word := BitVec.ofNat 32 (0x00000025 + x.enc), op := .cmp .eq, d := x.d.val, a := x.a.val, b := x.b.val, k := x.k.val, ea := x.ea, eb := x.eb }

/-- vcmp.eq (R195). -/
def execVcmpEq (x : VCmp) (s : State) : Out := issueVector (vcmpEqForm x) s

/-- vcmp.ne (R195), as the queue holds it. -/
def vcmpNeForm (x : VCmp) : VForm :=
  { word := BitVec.ofNat 32 (0x08000025 + x.enc), op := .cmp .ne, d := x.d.val, a := x.a.val, b := x.b.val, k := x.k.val, ea := x.ea, eb := x.eb }

/-- vcmp.ne (R195). -/
def execVcmpNe (x : VCmp) (s : State) : Out := issueVector (vcmpNeForm x) s

/-- vcmp.lt (R195), as the queue holds it. -/
def vcmpLtForm (x : VCmp) : VForm :=
  { word := BitVec.ofNat 32 (0x10000025 + x.enc), op := .cmp .lt, d := x.d.val, a := x.a.val, b := x.b.val, k := x.k.val, ea := x.ea, eb := x.eb }

/-- vcmp.lt (R195). -/
def execVcmpLt (x : VCmp) (s : State) : Out := issueVector (vcmpLtForm x) s

/-- vcmp.le (R195), as the queue holds it. -/
def vcmpLeForm (x : VCmp) : VForm :=
  { word := BitVec.ofNat 32 (0x18000025 + x.enc), op := .cmp .le, d := x.d.val, a := x.a.val, b := x.b.val, k := x.k.val, ea := x.ea, eb := x.eb }

/-- vcmp.le (R195). -/
def execVcmpLe (x : VCmp) (s : State) : Out := issueVector (vcmpLeForm x) s

/-- vcmp.gt (R195), as the queue holds it. -/
def vcmpGtForm (x : VCmp) : VForm :=
  { word := BitVec.ofNat 32 (0x20000025 + x.enc), op := .cmp .gt, d := x.d.val, a := x.a.val, b := x.b.val, k := x.k.val, ea := x.ea, eb := x.eb }

/-- vcmp.gt (R195). -/
def execVcmpGt (x : VCmp) (s : State) : Out := issueVector (vcmpGtForm x) s

/-- vcmp.ge (R195), as the queue holds it. -/
def vcmpGeForm (x : VCmp) : VForm :=
  { word := BitVec.ofNat 32 (0x28000025 + x.enc), op := .cmp .ge, d := x.d.val, a := x.a.val, b := x.b.val, k := x.k.val, ea := x.ea, eb := x.eb }

/-- vcmp.ge (R195). -/
def execVcmpGe (x : VCmp) (s : State) : Out := issueVector (vcmpGeForm x) s

/-- vcmp.un (R195), as the queue holds it. -/
def vcmpUnForm (x : VCmp) : VForm :=
  { word := BitVec.ofNat 32 (0x30000025 + x.enc), op := .cmp .un, d := x.d.val, a := x.a.val, b := x.b.val, k := x.k.val, ea := x.ea, eb := x.eb }

/-- vcmp.un (R195). -/
def execVcmpUn (x : VCmp) (s : State) : Out := issueVector (vcmpUnForm x) s

/-- vsel (R196), as the queue holds it. -/
def vselForm (x : V3) : VForm :=
  { word := BitVec.ofNat 32 (0x00000026 + x.enc), op := .sel, d := x.d.val, a := x.a.val, b := x.b.val, k := x.k.val, ea := x.ea, eb := x.eb }

/-- vsel (R196). -/
def execVsel (x : V3) (s : State) : Out := issueVector (vselForm x) s

/-- vcvt (R197), as the queue holds it. -/
def vcvtForm (x : VCvt) : VForm :=
  { word := BitVec.ofNat 32 (0x00000027 + x.enc), op := .cvt x.rnd, d := x.d.val, a := x.a.val, k := x.k.val, ea := x.ea }

/-- vcvt (R197). -/
def execVcvt (x : VCvt) (s : State) : Out := issueVector (vcvtForm x) s

/-- vshrr (R199), as the queue holds it. -/
def vshrrForm (x : VShrr) : VForm :=
  { word := BitVec.ofNat 32 (0x00000028 + x.enc), op := .shrr x.scalar x.narrow, d := x.d.val, a := x.a.val, b := x.b.val, k := x.k.val, ea := x.ea, eb := x.eb }

/-- vshrr (R199). -/
def execVshrr (x : VShrr) (s : State) : Out := issueVector (vshrrForm x) s

/-- vdiv (R200), as the queue holds it. -/
def vdivForm (x : V3) : VForm :=
  { word := BitVec.ofNat 32 (0x00000029 + x.enc), op := .math .div, d := x.d.val, a := x.a.val, b := x.b.val, k := x.k.val, ea := x.ea, eb := x.eb }

/-- vdiv (R200). -/
def execVdiv (x : V3) (s : State) : Out := issueVector (vdivForm x) s

/-- vsqrt (R200), as the queue holds it. -/
def vsqrtForm (x : V2) : VForm :=
  { word := BitVec.ofNat 32 (0x08000029 + x.enc), op := .math .sqrt, d := x.d.val, a := x.a.val, k := x.k.val, ea := x.ea }

/-- vsqrt (R200). -/
def execVsqrt (x : V2) (s : State) : Out := issueVector (vsqrtForm x) s

/-- vrcp (R200), as the queue holds it. -/
def vrcpForm (x : V2) : VForm :=
  { word := BitVec.ofNat 32 (0x10000029 + x.enc), op := .math .rcp, d := x.d.val, a := x.a.val, k := x.k.val, ea := x.ea }

/-- vrcp (R200). -/
def execVrcp (x : V2) (s : State) : Out := issueVector (vrcpForm x) s

/-- vrsqrt (R200), as the queue holds it. -/
def vrsqrtForm (x : V2) : VForm :=
  { word := BitVec.ofNat 32 (0x18000029 + x.enc), op := .math .rsqrt, d := x.d.val, a := x.a.val, k := x.k.val, ea := x.ea }

/-- vrsqrt (R200). -/
def execVrsqrt (x : V2) (s : State) : Out := issueVector (vrsqrtForm x) s

/-- vexp2 (R200), as the queue holds it. -/
def vexp2Form (x : V2) : VForm :=
  { word := BitVec.ofNat 32 (0x20000029 + x.enc), op := .math .exp2, d := x.d.val, a := x.a.val, k := x.k.val, ea := x.ea }

/-- vexp2 (R200). -/
def execVexp2 (x : V2) (s : State) : Out := issueVector (vexp2Form x) s

/-- vlog2 (R200), as the queue holds it. -/
def vlog2Form (x : V2) : VForm :=
  { word := BitVec.ofNat 32 (0x28000029 + x.enc), op := .math .log2, d := x.d.val, a := x.a.val, k := x.k.val, ea := x.ea }

/-- vlog2 (R200). -/
def execVlog2 (x : V2) (s : State) : Out := issueVector (vlog2Form x) s

/-- vdot (R201), as the queue holds it. -/
def vdotForm (x : V3) : VForm :=
  { word := BitVec.ofNat 32 (0x0000002A + x.enc), op := .dot, d := x.d.val, a := x.a.val, b := x.b.val, k := x.k.val, ea := x.ea, eb := x.eb }

/-- vdot (R201). -/
def execVdot (x : V3) (s : State) : Out := issueVector (vdotForm x) s

/-- vred.sum (R202), as the queue holds it. -/
def vredSumForm (x : VRed) : VForm :=
  { word := BitVec.ofNat 32 (0x0000002B + x.enc), op := .red .sum x.ord, d := x.d.val, a := x.a.val, k := x.k.val, ea := x.ea }

/-- vred.sum (R202). -/
def execVredSum (x : VRed) (s : State) : Out := issueVector (vredSumForm x) s

/-- vred.max (R202), as the queue holds it. -/
def vredMaxForm (x : VRed) : VForm :=
  { word := BitVec.ofNat 32 (0x0800002B + x.enc), op := .red .max x.ord, d := x.d.val, a := x.a.val, k := x.k.val, ea := x.ea }

/-- vred.max (R202). -/
def execVredMax (x : VRed) (s : State) : Out := issueVector (vredMaxForm x) s

/-- vred.min (R202), as the queue holds it. -/
def vredMinForm (x : VRed) : VForm :=
  { word := BitVec.ofNat 32 (0x1000002B + x.enc), op := .red .min x.ord, d := x.d.val, a := x.a.val, k := x.k.val, ea := x.ea }

/-- vred.min (R202). -/
def execVredMin (x : VRed) (s : State) : Out := issueVector (vredMinForm x) s

/-- vred.and (R202), as the queue holds it. -/
def vredAndForm (x : VRed) : VForm :=
  { word := BitVec.ofNat 32 (0x1800002B + x.enc), op := .red .and x.ord, d := x.d.val, a := x.a.val, k := x.k.val, ea := x.ea }

/-- vred.and (R202). -/
def execVredAnd (x : VRed) (s : State) : Out := issueVector (vredAndForm x) s

/-- vred.or (R202), as the queue holds it. -/
def vredOrForm (x : VRed) : VForm :=
  { word := BitVec.ofNat 32 (0x2000002B + x.enc), op := .red .or x.ord, d := x.d.val, a := x.a.val, k := x.k.val, ea := x.ea }

/-- vred.or (R202). -/
def execVredOr (x : VRed) (s : State) : Out := issueVector (vredOrForm x) s

/-- vred.xor (R202), as the queue holds it. -/
def vredXorForm (x : VRed) : VForm :=
  { word := BitVec.ofNat 32 (0x2800002B + x.enc), op := .red .xor x.ord, d := x.d.val, a := x.a.val, k := x.k.val, ea := x.ea }

/-- vred.xor (R202). -/
def execVredXor (x : VRed) (s : State) : Out := issueVector (vredXorForm x) s

/-- vsign (R203), as the queue holds it. -/
def vsignForm (x : V3) : VForm :=
  { word := BitVec.ofNat 32 (0x0000002C + x.enc), op := .sign, d := x.d.val, a := x.a.val, b := x.b.val, k := x.k.val, ea := x.ea, eb := x.eb }

/-- vsign (R203). -/
def execVsign (x : V3) (s : State) : Out := issueVector (vsignForm x) s

/-- vmov (R204), as the queue holds it. -/
def vmovForm (x : V2) : VForm :=
  { word := BitVec.ofNat 32 (0x0000002D + x.enc), op := .mov, d := x.d.val, a := x.a.val, k := x.k.val, ea := x.ea }

/-- vmov (R204). -/
def execVmov (x : V2) (s : State) : Out := issueVector (vmovForm x) s

/-- vsplat (R204), as the queue holds it. -/
def vsplatForm (x : V2) : VForm :=
  { word := BitVec.ofNat 32 (0x0800002D + x.enc), op := .splat, d := x.d.val, a := x.a.val, k := x.k.val, ea := x.ea }

/-- vsplat (R204). -/
def execVsplat (x : V2) (s : State) : Out := issueVector (vsplatForm x) s

/-- vsplati (R204), as the queue holds it. -/
def vsplatiForm (x : VSplatI) : VForm :=
  { word := BitVec.ofNat 32 (0x1000002D + x.enc), op := .splati, d := x.d.val, k := x.k.val, imm := x.imm.toInt }

/-- vsplati (R204). -/
def execVsplati (x : VSplatI) (s : State) : Out := issueVector (vsplatiForm x) s

/-- vget (R205), as the queue holds it. -/
def vgetForm (x : Alu2) : VForm :=
  { word := BitVec.ofNat 32 (0x1800002D + x.enc), op := .vget, d := x.d.val, a := x.a.val, b := x.b.val, ea := x.ea, eb := x.eb }

/-- vget (R205). -/
def execVget (x : Alu2) (s : State) : Out := issueVector (vgetForm x) s

/-- vput (R205), as the queue holds it. -/
def vputForm (x : Alu2) : VForm :=
  { word := BitVec.ofNat 32 (0x2000002D + x.enc), op := .vput, d := x.d.val, a := x.a.val, b := x.b.val, ea := x.ea, eb := x.eb }

/-- vput (R205). -/
def execVput (x : Alu2) (s : State) : Out := issueVector (vputForm x) s

/-- vslide.up (R208), as the queue holds it. -/
def vslideUpForm (x : VSlide) : VForm :=
  { word := BitVec.ofNat 32 (0x0000002F + x.enc), op := .slide true x.fill, d := x.d.val, a := x.a.val, b := x.b.val, c := x.c.val, ea := x.e }

/-- vslide.up (R208). -/
def execVslideUp (x : VSlide) (s : State) : Out := issueVector (vslideUpForm x) s

/-- vslide.dn (R208), as the queue holds it. -/
def vslideDnForm (x : VSlide) : VForm :=
  { word := BitVec.ofNat 32 (0x8000002F + x.enc), op := .slide false x.fill, d := x.d.val, a := x.a.val, b := x.b.val, c := x.c.val, ea := x.e }

/-- vslide.dn (R208). -/
def execVslideDn (x : VSlide) (s : State) : Out := issueVector (vslideDnForm x) s

end Sys2Proof.Machine
end

