-- ==== Sys2Proof/Machine/VMem.lean ====
section
/-!
DEFINITION. The vector memory forms (R210 to R219): the form of each and its issue by the scalar side.
-/
namespace Sys2Proof.Machine

/-- vld (R215), as the queue holds it. -/
def vldForm (x : VMem) : VForm :=
  { word := BitVec.ofNat 32 (0x00000030 + x.enc), op := .ld .unit x.bb x.o, d := x.t.val, a := x.a.val, k := x.k.val, ea := x.e }

/-- vld (R215). -/
def execVld (x : VMem) (s : State) : Out := issueVector (vldForm x) s

/-- vst (R215), as the queue holds it. -/
def vstForm (x : VMem) : VForm :=
  { word := BitVec.ofNat 32 (0x00000031 + x.enc), op := .st .unit x.bb x.o, d := x.t.val, a := x.a.val, k := x.k.val, ea := x.e }

/-- vst (R215). -/
def execVst (x : VMem) (s : State) : Out := issueVector (vstForm x) s

/-- vlds (R215), as the queue holds it. -/
def vldsForm (x : VMemX) : VForm :=
  { word := BitVec.ofNat 32 (0x00000032 + x.enc), op := .ld .strided x.bb x.o, d := x.t.val, a := x.a.val, c := x.x.val, k := x.k.val, ea := x.e }

/-- vlds (R215). -/
def execVlds (x : VMemX) (s : State) : Out := issueVector (vldsForm x) s

/-- vsts (R215), as the queue holds it. -/
def vstsForm (x : VMemX) : VForm :=
  { word := BitVec.ofNat 32 (0x00000033 + x.enc), op := .st .strided x.bb x.o, d := x.t.val, a := x.a.val, c := x.x.val, k := x.k.val, ea := x.e }

/-- vsts (R215). -/
def execVsts (x : VMemX) (s : State) : Out := issueVector (vstsForm x) s

/-- vldx (R216), as the queue holds it. -/
def vldxForm (x : VMemX) : VForm :=
  { word := BitVec.ofNat 32 (0x00000034 + x.enc), op := .ld .indexed x.bb x.o, d := x.t.val, a := x.a.val, c := x.x.val, k := x.k.val, ea := x.e }

/-- vldx (R216). -/
def execVldx (x : VMemX) (s : State) : Out := issueVector (vldxForm x) s

/-- vldx.c (R218), as the queue holds it. -/
def vldxCForm (x : VMemC) : VForm :=
  { word := BitVec.ofNat 32 (0x40000034 + x.enc), op := .ldxc x.bb x.o, d := x.t.val, a := x.a.val, c := x.x.val, k := x.k.val, ea := x.e }

/-- vldx.c (R218). -/
def execVldxC (x : VMemC) (s : State) : Out := issueVector (vldxCForm x) s

/-- vldx.dup (R217), as the queue holds it. -/
def vldxDupForm (x : VMemX) : VForm :=
  { word := BitVec.ofNat 32 (0x80000034 + x.enc), op := .ldxdup x.bb x.o, d := x.t.val, a := x.a.val, c := x.x.val, k := x.k.val, ea := x.e }

/-- vldx.dup (R217). -/
def execVldxDup (x : VMemX) (s : State) : Out := issueVector (vldxDupForm x) s

/-- vstx (R216), as the queue holds it. -/
def vstxForm (x : VMemX) : VForm :=
  { word := BitVec.ofNat 32 (0x00000035 + x.enc), op := .st .indexed x.bb x.o, d := x.t.val, a := x.a.val, c := x.x.val, k := x.k.val, ea := x.e }

/-- vstx (R216). -/
def execVstx (x : VMemX) (s : State) : Out := issueVector (vstxForm x) s

/-- vamo.add (R219), as the queue holds it. -/
def vamoAddForm (x : VMemC) : VForm :=
  { word := BitVec.ofNat 32 (0x00000036 + x.enc), op := .amo .add x.bb x.o, d := x.t.val, a := x.a.val, c := x.x.val, k := x.k.val, ea := x.e }

/-- vamo.add (R219). -/
def execVamoAdd (x : VMemC) (s : State) : Out := issueVector (vamoAddForm x) s

/-- vamo.and (R219), as the queue holds it. -/
def vamoAndForm (x : VMemC) : VForm :=
  { word := BitVec.ofNat 32 (0x10000036 + x.enc), op := .amo .and x.bb x.o, d := x.t.val, a := x.a.val, c := x.x.val, k := x.k.val, ea := x.e }

/-- vamo.and (R219). -/
def execVamoAnd (x : VMemC) (s : State) : Out := issueVector (vamoAndForm x) s

/-- vamo.or (R219), as the queue holds it. -/
def vamoOrForm (x : VMemC) : VForm :=
  { word := BitVec.ofNat 32 (0x20000036 + x.enc), op := .amo .or x.bb x.o, d := x.t.val, a := x.a.val, c := x.x.val, k := x.k.val, ea := x.e }

/-- vamo.or (R219). -/
def execVamoOr (x : VMemC) (s : State) : Out := issueVector (vamoOrForm x) s

/-- vamo.xor (R219), as the queue holds it. -/
def vamoXorForm (x : VMemC) : VForm :=
  { word := BitVec.ofNat 32 (0x30000036 + x.enc), op := .amo .xor x.bb x.o, d := x.t.val, a := x.a.val, c := x.x.val, k := x.k.val, ea := x.e }

/-- vamo.xor (R219). -/
def execVamoXor (x : VMemC) (s : State) : Out := issueVector (vamoXorForm x) s

/-- vamo.min (R219), as the queue holds it. -/
def vamoMinForm (x : VMemC) : VForm :=
  { word := BitVec.ofNat 32 (0x40000036 + x.enc), op := .amo .min x.bb x.o, d := x.t.val, a := x.a.val, c := x.x.val, k := x.k.val, ea := x.e }

/-- vamo.min (R219). -/
def execVamoMin (x : VMemC) (s : State) : Out := issueVector (vamoMinForm x) s

/-- vamo.max (R219), as the queue holds it. -/
def vamoMaxForm (x : VMemC) : VForm :=
  { word := BitVec.ofNat 32 (0x50000036 + x.enc), op := .amo .max x.bb x.o, d := x.t.val, a := x.a.val, c := x.x.val, k := x.k.val, ea := x.e }

/-- vamo.max (R219). -/
def execVamoMax (x : VMemC) (s : State) : Out := issueVector (vamoMaxForm x) s

/-- vamo.minu (R219), as the queue holds it. -/
def vamoMinuForm (x : VMemC) : VForm :=
  { word := BitVec.ofNat 32 (0x60000036 + x.enc), op := .amo .minu x.bb x.o, d := x.t.val, a := x.a.val, c := x.x.val, k := x.k.val, ea := x.e }

/-- vamo.minu (R219). -/
def execVamoMinu (x : VMemC) (s : State) : Out := issueVector (vamoMinuForm x) s

/-- vamo.maxu (R219), as the queue holds it. -/
def vamoMaxuForm (x : VMemC) : VForm :=
  { word := BitVec.ofNat 32 (0x70000036 + x.enc), op := .amo .maxu x.bb x.o, d := x.t.val, a := x.a.val, c := x.x.val, k := x.k.val, ea := x.e }

/-- vamo.maxu (R219). -/
def execVamoMaxu (x : VMemC) (s : State) : Out := issueVector (vamoMaxuForm x) s

/-- vamo.swap (R219), as the queue holds it. -/
def vamoSwapForm (x : VMemC) : VForm :=
  { word := BitVec.ofNat 32 (0x80000036 + x.enc), op := .amo .swap x.bb x.o, d := x.t.val, a := x.a.val, c := x.x.val, k := x.k.val, ea := x.e }

/-- vamo.swap (R219). -/
def execVamoSwap (x : VMemC) (s : State) : Out := issueVector (vamoSwapForm x) s

end Sys2Proof.Machine
end

