-- ==== Sys2Proof/Machine/VPerm.lean ====
section
/-!
DEFINITION. The permutes, masks, strips between cores, position vectors and the lane flag record (R220 to R229): the form of each and its issue by the scalar side.
-/
namespace Sys2Proof.Machine

/-- vcomp (R220), as the queue holds it. -/
def vcompForm (x : V2) : VForm :=
  { word := BitVec.ofNat 32 (0x00000037 + x.enc), op := .comp, d := x.d.val, a := x.a.val, k := x.k.val, ea := x.ea }

/-- vcomp (R220). -/
def execVcomp (x : V2) (s : State) : Out := issueVector (vcompForm x) s

/-- vexpand (R220), as the queue holds it. -/
def vexpandForm (x : V2) : VForm :=
  { word := BitVec.ofNat 32 (0x08000037 + x.enc), op := .expand, d := x.d.val, a := x.a.val, k := x.k.val, ea := x.ea }

/-- vexpand (R220). -/
def execVexpand (x : V2) (s : State) : Out := issueVector (vexpandForm x) s

/-- vperm (R222), as the queue holds it. -/
def vpermForm (x : V3) : VForm :=
  { word := BitVec.ofNat 32 (0x00000038 + x.enc), op := .perm, d := x.d.val, a := x.a.val, b := x.b.val, k := x.k.val, ea := x.ea, eb := x.eb }

/-- vperm (R222). -/
def execVperm (x : V3) (s : State) : Out := issueVector (vpermForm x) s

/-- vzip (R223), as the queue holds it. -/
def vzipForm (x : V3) : VForm :=
  { word := BitVec.ofNat 32 (0x00000039 + x.enc), op := .zip, d := x.d.val, a := x.a.val, b := x.b.val, k := x.k.val, ea := x.ea, eb := x.eb }

/-- vzip (R223). -/
def execVzip (x : V3) (s : State) : Out := issueVector (vzipForm x) s

/-- vunzip (R223), as the queue holds it. -/
def vunzipForm (x : V3) : VForm :=
  { word := BitVec.ofNat 32 (0x08000039 + x.enc), op := .unzip, d := x.d.val, a := x.a.val, b := x.b.val, k := x.k.val, ea := x.ea, eb := x.eb }

/-- vunzip (R223). -/
def execVunzip (x : V3) (s : State) : Out := issueVector (vunzipForm x) s

/-- vtrn (R223), as the queue holds it. -/
def vtrnForm (x : V3) : VForm :=
  { word := BitVec.ofNat 32 (0x10000039 + x.enc), op := .trn, d := x.d.val, a := x.a.val, b := x.b.val, k := x.k.val, ea := x.ea, eb := x.eb }

/-- vtrn (R223). -/
def execVtrn (x : V3) (s : State) : Out := issueVector (vtrnForm x) s

/-- kand (R224), as the queue holds it. -/
def kandForm (x : K3) : VForm :=
  { word := BitVec.ofNat 32 (0x0000003A + x.enc), op := .klog .and, d := x.d.val, a := x.a.val, b := x.b.val, ea := x.ea, eb := x.eb }

/-- kand (R224). -/
def execKand (x : K3) (s : State) : Out := issueVector (kandForm x) s

/-- kor (R224), as the queue holds it. -/
def korForm (x : K3) : VForm :=
  { word := BitVec.ofNat 32 (0x0800003A + x.enc), op := .klog .or, d := x.d.val, a := x.a.val, b := x.b.val, ea := x.ea, eb := x.eb }

/-- kor (R224). -/
def execKor (x : K3) (s : State) : Out := issueVector (korForm x) s

/-- kxor (R224), as the queue holds it. -/
def kxorForm (x : K3) : VForm :=
  { word := BitVec.ofNat 32 (0x1000003A + x.enc), op := .klog .xor, d := x.d.val, a := x.a.val, b := x.b.val, ea := x.ea, eb := x.eb }

/-- kxor (R224). -/
def execKxor (x : K3) (s : State) : Out := issueVector (kxorForm x) s

/-- knot (R224), as the queue holds it. -/
def knotForm (x : K2) : VForm :=
  { word := BitVec.ofNat 32 (0x1800003A + x.enc), op := .klog .not, d := x.d.val, a := x.a.val, ea := x.ea }

/-- knot (R224). -/
def execKnot (x : K2) (s : State) : Out := issueVector (knotForm x) s

/-- kandn (R224), as the queue holds it. -/
def kandnForm (x : K3) : VForm :=
  { word := BitVec.ofNat 32 (0x2000003A + x.enc), op := .klog .andn, d := x.d.val, a := x.a.val, b := x.b.val, ea := x.ea, eb := x.eb }

/-- kandn (R224). -/
def execKandn (x : K3) (s : State) : Out := issueVector (kandnForm x) s

/-- kpopc (R224), as the queue holds it. -/
def kpopcForm (x : KToR) : VForm :=
  { word := BitVec.ofNat 32 (0x2800003A + x.enc), op := .kpopc, d := x.d.val, a := x.a.val, ea := x.ea }

/-- kpopc (R224). -/
def execKpopc (x : KToR) (s : State) : Out := issueVector (kpopcForm x) s

/-- kfirst (R224), as the queue holds it. -/
def kfirstForm (x : KToR) : VForm :=
  { word := BitVec.ofNat 32 (0x3000003A + x.enc), op := .kfirst, d := x.d.val, a := x.a.val, ea := x.ea }

/-- kfirst (R224). -/
def execKfirst (x : KToR) (s : State) : Out := issueVector (kfirstForm x) s

/-- kvl (R224), as the queue holds it. -/
def kvlForm (x : RToK) : VForm :=
  { word := BitVec.ofNat 32 (0x0000003B + x.enc), op := .kvl, d := x.d.val, a := x.a.val, ea := x.ea }

/-- kvl (R224). -/
def execKvl (x : RToK) (s : State) : Out := issueVector (kvlForm x) s

/-- kfrom (R224), as the queue holds it. -/
def kfromForm (x : RToK) : VForm :=
  { word := BitVec.ofNat 32 (0x0800003B + x.enc), op := .kfrom, d := x.d.val, a := x.a.val, ea := x.ea }

/-- kfrom (R224). -/
def execKfrom (x : RToK) (s : State) : Out := issueVector (kfromForm x) s

/-- vlk (R224), as the queue holds it. -/
def vlkForm (x : KToR) : VForm :=
  { word := BitVec.ofNat 32 (0x1000003B + x.enc), op := .vlk, d := x.d.val, a := x.a.val, ea := x.ea }

/-- vlk (R224). -/
def execVlk (x : KToR) (s : State) : Out := issueVector (vlkForm x) s

/-- vmcast (R225), as the queue holds it. -/
def vmcastForm (x : VMcast) : VForm :=
  { word := BitVec.ofNat 32 (0x0000003C + x.enc), op := .mcast, a := x.a.val, b := x.b.val, k := x.k.val, ea := x.ea, eb := x.eb }

/-- vmcast (R225). -/
def execVmcast (x : VMcast) (s : State) : Out := issueVector (vmcastForm x) s

/-- vrecv (R227), as the queue holds it. -/
def vrecvForm (x : VRecv) : VForm :=
  { word := BitVec.ofNat 32 (0x0000003D + x.enc), op := .recv, d := x.d.val }

/-- vrecv (R227). -/
def execVrecv (x : VRecv) (s : State) : Out := issueVector (vrecvForm x) s

/-- viota (R228), as the queue holds it. -/
def viotaForm (x : VIota) : VForm :=
  { word := BitVec.ofNat 32 (0x0000003E + x.enc), op := .iota, d := x.d.val, a := x.a.val, k := x.k.val, ea := x.ea }

/-- viota (R228). -/
def execViota (x : VIota) (s : State) : Out := issueVector (viotaForm x) s

/-- vidx (R228), as the queue holds it. -/
def vidxForm (x : VD) : VForm :=
  { word := BitVec.ofNat 32 (0x0800003E + x.enc), op := .idx, d := x.d.val, k := x.k.val }

/-- vidx (R228). -/
def execVidx (x : VD) (s : State) : Out := issueVector (vidxForm x) s

/-- vflg.rd (R229), as the queue holds it. -/
def vflgRdForm (x : VD) : VForm :=
  { word := BitVec.ofNat 32 (0x0000003F + x.enc), op := .flgRd, d := x.d.val, k := x.k.val }

/-- vflg.rd (R229). -/
def execVflgRd (x : VD) (s : State) : Out := issueVector (vflgRdForm x) s

/-- vflg.clr (R229), as the queue holds it. -/
def vflgClrForm (x : VK) : VForm :=
  { word := BitVec.ofNat 32 (0x0800003F + x.enc), op := .flgClr, k := x.k.val }

/-- vflg.clr (R229). -/
def execVflgClr (x : VK) (s : State) : Out := issueVector (vflgClrForm x) s

end Sys2Proof.Machine
end

