-- ==== Sys2Proof/Machine/FormOf.lean ====
section
/-!
DEFINITION. The form of a decoded vector-queue instruction, for a word taken from a chain record (R26) or a follow-on
(R270).
-/
namespace Sys2Proof.Machine

/-- The form of an instruction of the vector queue; none for the others. -/
def formOf (i : Instr) : Option VForm :=
  match i with
  | .vadd x => some (vaddForm x)
  | .vsub x => some (vsubForm x)
  | .vmul x => some (vmulForm x)
  | .vmin x => some (vminForm x)
  | .vmax x => some (vmaxForm x)
  | .vand x => some (vandForm x)
  | .vor x => some (vorForm x)
  | .vxor x => some (vxorForm x)
  | .vshl x => some (vshlForm x)
  | .vshr x => some (vshrForm x)
  | .vsar x => some (vsarForm x)
  | .vabd x => some (vabdForm x)
  | .vavg x => some (vavgForm x)
  | .vadds x => some (vaddsForm x)
  | .vsubs x => some (vsubsForm x)
  | .vmulh x => some (vmulhForm x)
  | .vaddS x => some (vaddSForm x)
  | .vsubS x => some (vsubSForm x)
  | .vmulS x => some (vmulSForm x)
  | .vminS x => some (vminSForm x)
  | .vmaxS x => some (vmaxSForm x)
  | .vandS x => some (vandSForm x)
  | .vorS x => some (vorSForm x)
  | .vxorS x => some (vxorSForm x)
  | .vshlS x => some (vshlSForm x)
  | .vshrS x => some (vshrSForm x)
  | .vsarS x => some (vsarSForm x)
  | .vabdS x => some (vabdSForm x)
  | .vavgS x => some (vavgSForm x)
  | .vaddsS x => some (vaddsSForm x)
  | .vsubsS x => some (vsubsSForm x)
  | .vmulhS x => some (vmulhSForm x)
  | .vaddI x => some (vaddIForm x)
  | .vsubI x => some (vsubIForm x)
  | .vmulI x => some (vmulIForm x)
  | .vminI x => some (vminIForm x)
  | .vmaxI x => some (vmaxIForm x)
  | .vandI x => some (vandIForm x)
  | .vorI x => some (vorIForm x)
  | .vxorI x => some (vxorIForm x)
  | .vshlI x => some (vshlIForm x)
  | .vshrI x => some (vshrIForm x)
  | .vsarI x => some (vsarIForm x)
  | .vabdI x => some (vabdIForm x)
  | .vavgI x => some (vavgIForm x)
  | .vaddsI x => some (vaddsIForm x)
  | .vsubsI x => some (vsubsIForm x)
  | .vmulhI x => some (vmulhIForm x)
  | .vfma x => some (vfmaForm x)
  | .vfms x => some (vfmsForm x)
  | .vfnma x => some (vfnmaForm x)
  | .vfnms x => some (vfnmsForm x)
  | .vmacw x => some (vmacwForm x)
  | .vcmpEq x => some (vcmpEqForm x)
  | .vcmpNe x => some (vcmpNeForm x)
  | .vcmpLt x => some (vcmpLtForm x)
  | .vcmpLe x => some (vcmpLeForm x)
  | .vcmpGt x => some (vcmpGtForm x)
  | .vcmpGe x => some (vcmpGeForm x)
  | .vcmpUn x => some (vcmpUnForm x)
  | .vsel x => some (vselForm x)
  | .vcvt x => some (vcvtForm x)
  | .vshrr x => some (vshrrForm x)
  | .vdiv x => some (vdivForm x)
  | .vsqrt x => some (vsqrtForm x)
  | .vrcp x => some (vrcpForm x)
  | .vrsqrt x => some (vrsqrtForm x)
  | .vexp2 x => some (vexp2Form x)
  | .vlog2 x => some (vlog2Form x)
  | .vdot x => some (vdotForm x)
  | .vredSum x => some (vredSumForm x)
  | .vredMax x => some (vredMaxForm x)
  | .vredMin x => some (vredMinForm x)
  | .vredAnd x => some (vredAndForm x)
  | .vredOr x => some (vredOrForm x)
  | .vredXor x => some (vredXorForm x)
  | .vsign x => some (vsignForm x)
  | .vmov x => some (vmovForm x)
  | .vsplat x => some (vsplatForm x)
  | .vsplati x => some (vsplatiForm x)
  | .vget x => some (vgetForm x)
  | .vput x => some (vputForm x)
  | .vslideUp x => some (vslideUpForm x)
  | .vslideDn x => some (vslideDnForm x)
  | .vld x => some (vldForm x)
  | .vst x => some (vstForm x)
  | .vlds x => some (vldsForm x)
  | .vsts x => some (vstsForm x)
  | .vldx x => some (vldxForm x)
  | .vldxC x => some (vldxCForm x)
  | .vldxDup x => some (vldxDupForm x)
  | .vstx x => some (vstxForm x)
  | .vamoAdd x => some (vamoAddForm x)
  | .vamoAnd x => some (vamoAndForm x)
  | .vamoOr x => some (vamoOrForm x)
  | .vamoXor x => some (vamoXorForm x)
  | .vamoMin x => some (vamoMinForm x)
  | .vamoMax x => some (vamoMaxForm x)
  | .vamoMinu x => some (vamoMinuForm x)
  | .vamoMaxu x => some (vamoMaxuForm x)
  | .vamoSwap x => some (vamoSwapForm x)
  | .vcomp x => some (vcompForm x)
  | .vexpand x => some (vexpandForm x)
  | .vperm x => some (vpermForm x)
  | .vzip x => some (vzipForm x)
  | .vunzip x => some (vunzipForm x)
  | .vtrn x => some (vtrnForm x)
  | .kand x => some (kandForm x)
  | .kor x => some (korForm x)
  | .kxor x => some (kxorForm x)
  | .knot x => some (knotForm x)
  | .kandn x => some (kandnForm x)
  | .kpopc x => some (kpopcForm x)
  | .kfirst x => some (kfirstForm x)
  | .kvl x => some (kvlForm x)
  | .kfrom x => some (kfromForm x)
  | .vlk x => some (vlkForm x)
  | .vmcast x => some (vmcastForm x)
  | .vrecv x => some (vrecvForm x)
  | .viota x => some (viotaForm x)
  | .vidx x => some (vidxForm x)
  | .vflgRd x => some (vflgRdForm x)
  | .vflgClr x => some (vflgClrForm x)
  | .wld x => some (wldForm x)
  | .wst x => some (wstForm x)
  | .wmul x => some (wmulForm x)
  | .wmac x => some (wmacForm x)
  | .wmult x => some (wmultForm x)
  | .wchol x => some (wcholForm x)
  | .wlu x => some (wluForm x)
  | .wsolveC x => some (wsolveCForm x)
  | .wsolveP x => some (wsolvePForm x)
  | .wadd x => some (waddForm x)
  | .wsub x => some (wsubForm x)
  | .wscal x => some (wscalForm x)
  | .wtrn x => some (wtrnForm x)
  | .wid x => some (widForm x)
  | .wcpy x => some (wcpyForm x)
  | .wdim x => some (wdimForm x)
  | .wget x => some (wgetForm x)
  | .wput x => some (wputForm x)
  | .tacc x => some (taccForm x)
  | .tmma x => some (tmmaForm x)
  | .tmms x => some (tmmsForm x)
  | .tread x => some (treadForm x)
  | .twrite x => some (twriteForm x)
  | .tepi x => some (tepiForm x)
  | _ => none

end Sys2Proof.Machine
end

