-- ==== Sys2Proof/Machine/Stop.lean ====
section
/-!
DEFINITION. Stopping and running a context (R26, R27, R287, R336 to R338, R366): the stop with its squash, the checks of a
resume, the recorded instructions issued again, STEP, DISCARD, and the reset of a partition (R369).
-/
namespace Sys2Proof.Machine

/-! ## Stopping -/

/-- Lane threads have stores that are held (R302). -/
def Ctx.laneHeld (c : Ctx) : Bool := c.laneOn && !c.sb.isEmpty

/-- The squash of a stop, of a slice end and of a yield, with the position it records (R24, R27, R336): strips not landed
are given up, and the answer to an outstanding page request is dropped. -/
def stopSquash (s : State) (q : Nat) : State :=
  let c := (s.ctx q).squash
  let pc0 := if c.chainF = 0 then c.resume else (vget c.chainRec 0 {}).ipc
  let s := (dropStrips s q).setCtx q { c with sc := { c.sc with pc := pc0 }, stepping := false, retry := false }
  dropRequests (fullTiles s q) q

/-- STOP on a running or waiting context: it is STOPPING until its started Complete-class instructions have ended (R24,
R336). Stores of lane threads that are still held are performed first, as no lane could be rolled back to one: `stopComplete` then
squashes (log entry 6). -/
def stopContext (s : State) (q : Nat) : State :=
  let s := if (s.ctx q).laneHeld then s else stopSquash s q
  s.setCtx q { s.ctx q with state := .stopping }

/-- STOP_COMPLETE (R307, R336): STOPPING becomes STOPPED once nothing started is left and what the context has written is
performed at pkg. -/
def stopComplete (s : State) (q : Nat) : State :=
  let c := s.ctx q
  if c.state = .stopping ∧ c.run.isEmpty ∧ !c.laneHeld then
    restAs (if c.laneOn then stopSquash s q else s) q fun s => s.setCtx q { s.ctx q with state := .stopped }
  else s

/-- CTL STOP (R336, R338). -/
def ctlStop (s : State) (q : Nat) : State :=
  let c := s.ctx q
  match c.state with
  | .empty =>
    s.setCtx q { c with
      state := .stopped, free := true, task := none, chainF := 0, lmode := false, handler := false, trapv := false,
      sc := { c.sc with rptAct := false, rptRun := false } }
  | .running | .waiting => stopComplete (stopContext s q) q
  | _ => s

/-! ## Running -/

/-- The configuration a recorded instruction is issued with (R26, R27): the columns of its record over the groups of their
registers. The companion of a scaled column holds scale codes, as it did at the acceptance; nothing is taken from the
context. -/
def recCfg (f : VForm) (r : ChainRec) : Vector VCfg 32 :=
  let col := fun (i : Nat) =>
    let g := r.cfg.toNat / 256 ^ i
    ({ tag := BitVec.ofNat 5 g, grp := Fin.ofNat 4 (g / 32 % 4), scaled := g / 128 % 2 == 1,
       comp := Fin.ofNat 32 (r.comp.toNat / 256 ^ i % 32) } : VCfg)
  let cs := f.recRegs.zipIdx
  let scales := cs.foldl (fun m (o, i) =>
    if o.isSome && (col i).scaled then vset m (col i).comp.val { tag := BitVec.ofNat 5 tE8M0 } else m) (Vector.replicate 32 {})
  cs.foldl (fun m (o, i) => match o with
    | some n => (List.range (2 ^ (col i).grp.val)).foldl (fun m j => vset m (n + j) (col i)) m
    | none => m) scales

/-- Recorded instruction `i` of a chain as it is issued again, or the trap its acceptance meets (R26). The pages of a record have
no place for a shape: one that a squash in this device captured stands beside it, else it is the context's (log entry 14). -/
noncomputable def reissue (s : State) (q : Nat) (r : ChainRec) (i : Nat) : Except Stop VqEntry :=
  let c := s.ctx q
  let w := r.word.setWidth 64
  match formOf (decode r.word) with
  | none => .error (.trap (classA cILLEGAL 0 w r.ipc))
  | some f =>
    let p : Capture :=
      { vl := r.vl.toNat, start := c.vstartF.toNat, resumed := true, rm := r.rm, tsave := 0, cfg := recCfg f r,
        rows := (r.rows.map (·.1)).getD c.sc.rows, cols := (r.rows.map (·.2)).getD c.sc.cols }
    match formCheck s q f p with
    | some (cause, sub) => .error (.trap (classA cause sub w r.ipc))
    | none =>
      .ok { form := f, ipc := r.ipc, vl := p.vl, rm := p.rm, start := p.start, resumed := true, cfg := p.cfg,
            x1 := r.scalar, x2 := r.scalar2, rows := p.rows, cols := p.cols, tsave := p.tsave,
            pipes := ownedPipes s q, snap := c.sc, ord := c.ord + i }

/-- The recorded instructions of a context, oldest first (R27). -/
def Ctx.records (c : Ctx) : List ChainRec := c.chainRec.toList.take c.chainF.toNat

/-- A context runs from its recorded position (R26): the recorded instructions are started again at once, as the chain they
were, and execution goes on at RESUME, inside the repeat frame if one is active (R158). -/
noncomputable def runRecorded (s : State) (q : Nat) : State :=
  let c := s.ctx q
  let x := { c.sc with pc := c.resume, rptRun := c.sc.rptAct, rptBuf := [] }
  let n := c.ord + max 1 c.records.length
  let s := s.setCtx q
    { c with sc := x, ord := n, worked := false, began := if c.records.isEmpty then n else c.ord, idle := false }
  match c.records.zipIdx.mapM fun r => reissue (s.setCtx q { s.ctx q with ord := c.ord }) q r.1 r.2 with
  | .error (.trap t _) => takeTrap s q t
  | .error (.wait s) => s
  | .ok es =>
    let chained := match es with
      | [_] => true
      | _ => es.all fun e => e.form.op.restart == .element
    let c := s.ctx q
    let c := es.foldl (fun c e => (c.emptied e)) c
    match es with
    | [] => s
    | e :: _ =>
      if chained && e.form.op.restart != .detached && e.form.op.restart != .complete then
        match es.find? fun e => !pipesOk s q e with
        | some e => takeTrap s q (classA cPIPE_UNOWNED 0 (e.form.word.setWidth 64) e.ipc)
        | none => es.foldl (fun s e => chargeStart s q e) (s.setCtx q { c with run := es, runG := e.start })
      else s.setCtx q { c with viq := es }

/-- The repeat position of a resume lies in the frame at RESUME − 4 × (RPT_I + 1) (R27). A frame that cannot be read is
left to its capture. -/
def frameFits (s : State) (q : Nat) : Bool :=
  let c := s.ctx q
  if !c.sc.rptAct then true
  else match fetchWord s q (c.resume - word (4 * (c.sc.rptI + 1))) with
    | .ok (_, w) =>
      let f := RptF.dec w
      !isRpt w || (decide (c.sc.rptI ≤ f.len.toNat) && decide (c.sc.rptJ ≤ f.cnt.toNat))
    | .error _ => true

/-- The checks of R27 and R287 that a RESUME or STEP makes. -/
def resumeOk (s : State) (q : Nat) : Bool :=
  let c := s.ctx q
  decide (c.chainF.toNat ≤ 6) && (decide (c.chainF.toNat ≤ 1) || c.vstartF.toNat % 8 == 0)
    && c.sc.pc.toNat % 4 == 0 && c.resume.toNat % 4 == 0
    && c.records.all (fun r => r.ipc.toNat % 4 == 0 && decide (r.rm.toNat < 6))
    && (c.arrived &&& ~~~c.split) == 0 && !(c.lmode && c.split == 0)
    && (List.range 64).all (fun l => !c.split.getLsbD l || (vget c.lpc l 0).toNat % 4 == 0)
    && frameFits s q

/-- A resume whose checks fail leaves STATE TRAPPED with cause ILLEGAL (R27). -/
def failResume (s : State) (q : Nat) : State :=
  let c := s.ctx q
  s.setCtx q { c with state := .trapped, cause := BitVec.ofNat 8 cILLEGAL, subcode := 0, cls := 1, stepping := false }

/-- A context starts running: an acquire at pkg (R307), lane threads as they stood or in their handler, and its recorded
position (R26, R287). TRAPLANE stands only while a handler of a lane's trap runs; the image the context was loaded from is freed
(R366). -/
noncomputable def startRunning (s : State) (q : Nat) (fromTrap : Bool) : State :=
  let c := s.ctx q
  let h := if fromTrap then c.handler && c.trapv else c.trapv && c.lmode
  let s := acquireAt (s.setCtx q { c with state := .running, handler := h, trapv := h, wait := none, pend := none }) q 4
  runRecorded { s with saved := s.saved.filter fun v => !(v.loaded && v.seq == q) } q

/-- A sequencer's partition serves: it is neither absent nor being reset (R397, R399). -/
def serves (s : State) (q : Nat) : Bool := !absent s (s.pnum q) && (s.part (s.pnum q)).pstate != 2

/-- CTL RESUME from STOPPED or TRAPPED (R336), while the partition serves (R397, R399): the next instruction, if a chan.wait or tdone, continues its faulted command
(R271). -/
noncomputable def ctlResume (s : State) (q : Nat) : State :=
  let c := s.ctx q
  if serves s q ∧ (c.state = .stopped ∨ c.state = .trapped) then
    if resumeOk s q then startRunning (s.setCtx q { c with retry := true }) q (c.state == .trapped) else failResume s q
  else s

/-- CTL STEP (R337): the context runs until one instruction, or the recorded chain, has been stepped. -/
noncomputable def ctlStep (s : State) (q : Nat) : State :=
  let c := s.ctx q
  if serves s q ∧ (c.state = .stopped ∨ c.state = .trapped) then
    if resumeOk s q then
      let need := c.ord + 1 + (if c.chainF = 0 then 1 else 0)
      startRunning (s.setCtx q { c with retry := true, stepping := true, stepNeed := need }) q (c.state == .trapped)
    else failResume s q
  else s

/-- The instruction a STEP runs has been stepped (R337): a scalar-side one has executed, and a vector-queue one has completed or, if
Detached, started. The stop waits for what a scalar-side one has left outstanding, which its squash would undo and which no resting
context may still perform (R307; log entry 94). -/
def stepDone (s : State) (q : Nat) : Bool :=
  let c := s.ctx q
  c.stepping && c.state == .running && decide (c.stepNeed ≤ c.ord) && c.viq.isEmpty && c.run.isEmpty
    && c.sb.isEmpty && c.loads.isEmpty && c.divs.isEmpty

/-- A step that has run its instruction stops as STOP does (R337). -/
def endStep (s : State) (q : Nat) : State := if stepDone s q then stopComplete (stopContext s q) q else s

/-! ## Discarding and partition reset -/

/-- Staging of a task is cancelled: its reservations go and its slot, if not yet bound, is in state 0 again (R384). -/
def cancelStage (s : State) (t : Stage) : State :=
  let s := { s with stages := s.stages.erase t }
  let st := slotState (slotRec s t.queue t.slot)
  if t.bound.isNone ∧ t.saved.isNone ∧ (st = 1 ∨ st = 2) then setSlotState s t.queue t.slot 0 else s

/-- Staging of the tasks that `sel` names is cancelled (R384). -/
def cancelStages (s : State) (sel : Stage → Bool) : State := (s.stages.filter sel).foldl cancelStage s

/-- CTL DISCARD (R337): the task is abandoned with its tiles, films, commands and unpinned windows; a saved context's image
is freed. -/
def ctlDiscard (s : State) (q : Nat) : State :=
  let c := s.ctx q
  match c.state with
  | .stopped | .trapped =>
    let (s, _) := cancelContext s q false
    let s := cancelStages (releaseItems s q) fun t => t.bound == some q
    { s.setCtx q { (s.ctx q).ended with lmode := false, handler := false } with
      saved := s.saved.filter fun x => !(x.loaded && x.seq == q) }
  | .saved =>
    let mine := fun (x : Saved) => x.shown && x.seq == q
    let s := cancelStages s fun t => s.saved.any fun x => mine x && t.saved == some x.base
    { (s.setCtx q c.ended) with saved := s.saved.filter fun x => !mine x }
  | _ => s

/-- The translations of a partition are removed from every TLB of the package (R347, R369). -/
def dropPartTlb (s : State) (p : Nat) : State := { s with tlb := s.tlb.filter fun t => t.part != p }

/-- Every line of device memory in a partition's windows is purged (R318, R369): what its dies hold is written to the homes. -/
def purgePart (s : State) (p : Nat) : State :=
  let ls := s.lines.filter fun (b, _) => decide (b < hostTag) && s.parts.any fun (n, x) => n == p && inWindow x 1 0 (b / 4096)
  flushAll (ls.foldl (fun s (b, l) => (applyEvent (exportLine s b l.grain) b evPURGE none).1) s)

/-- PARTITION_RESET (R369): contexts, images, commands, staging, tiles, films, pinned windows, receive queues, queue pages
and translations of the partition go, and its lines are purged; PSTATE reads 2. What the host holds of its page requests stays
outstanding, and its other requests are forgotten (R399, R402). An absent partition serves nothing, and only VF Enable makes it
active (R397): it is not reset. -/
def resetPartition (s : State) (p : Nat) : State :=
  if absent s p then s else
  let mine := fun (b : Byte) => ownerOf b == some p
  let qs := (s.seqs.map (·.1)).filter fun q => s.partOfSeq q == some p
  let qn := fun (n : Nat) => s.queueOwner n == some p
  let s := purgePart (cancelStages s fun t => t.part == p) p
  let seqs := s.seqs.map fun (q, c) => if qs.contains q then
      (q, { c.ended with reserved := false, lmode := false, handler := false, beats := c.beats }) else (q, c)
  let chans := s.chans.map fun (n, ch) =>
    let own := mine (vget (s.core (n / 8)).inForce.chan (n % 8) 0)
    let left := ch.cmds.filter fun m => m.part != p && !own
    let cut := ch.cmds.head?.map (·.order) != left.head?.map (·.order)
    (n, { ch with cmds := left, busy := ch.busy && !cut, faulted := ch.faulted && !cut, owed := ch.owed.filter fun o => o.1.part != p })
  let ports := s.ports.filter fun (_, n) => (get chans n {}).busy
  let cores := s.cores.map fun (n, x) => (n, { x with
    tiles := Vector.ofFn fun i => if mine (vget x.inForce.tile i.val 0) then (vget x.tiles i.val {}).released
      else vget x.tiles i.val {}
    films := Vector.ofFn fun i => if mine (vget x.inForce.film i.val 0) then (vget x.films i.val {}).closed
      else vget x.films i.val {}
    wins := x.wins.map fun w => if w.valid && w.part == p then w.unmapped else w
    recvq := del x.recvq p })
  dropPartTlb ({ s with
    seqs := seqs
    chans := chans
    ports := ports
    cores := cores
    queues := s.queues.filter fun (n, _) => !qn n
    events := s.events.filter fun e => e.part != p
    posts := s.posts.filter fun t => !qn t.queue
    selected := s.selected.filter fun t => !qn t.queue
    saved := s.saved.filter fun x => x.part != p
    ats := s.ats.filterMap fun r =>
      if r.fn != p then some r else if r.isPri && r.sent then some { r with gone := true } else none
    parts := put s.parts p { s.part p with pstate := 2, saveFullPosted := false } }) p

/-- PARTITION_RESET_DONE (R369, R398): PSTATE returns to 1, or to 0 for a partition that is going, and a RESET event goes to
the root's default keeper. -/
def resetDone (s : State) (p : Nat) : State :=
  let x := s.part p
  if x.pstate ≠ 2 then s
  else
    let s := s.setPart p { x with pstate := if x.removing then 0 else 1, removing := false }
    let e : EventWord := { event := 7, part := p }
    postTo s 0 (s.part 0).dkeeper.toNat (e.body s.time)

end Sys2Proof.Machine
end

