-- ==== Sys2Proof/Machine/Save.lean ====
section
/-!
DEFINITION. Saving a context at a slice end or a yield and resuming it (R360 to R366, R288): the save image in the pool,
word by word, and its loading.
-/
namespace Sys2Proof.Machine

/-! ## Writing an image -/

/-- A word is written in the pool. -/
abbrev putW (s : State) (a : Nat) (v : Word) : State := homeWrite s a 8 v.toNat

/-- A word is read from the pool. -/
abbrev getW (s : State) (a : Nat) : Word := word (homeRead s a 8).2

/-- Words from a list are written from an address up. -/
def putWords (s : State) (a : Nat) : List Word → State
  | [] => s
  | w :: r => putWords (putW s a w) (a + 8) r

/-- `n` words are read from an address up. -/
def getWords (s : State) (a : Nat) : Nat → List Word
  | 0 => []
  | n + 1 => getW s a :: getWords s (a + 8) n

/-- A core page's window words (R342). -/
def Win.words (w : Win) : List Word :=
  [w.base, packW [(w.offset, 0), (w.pieces, 10), (w.part, 20), (w.valid.toNat, 25), (w.pinned.toNat, 26), (w.space.toNat, 32)]]

/-- The index of a gather's element: address = base + index x element size (R273). -/
def gatherIndex (m : Cmd) (ea : Nat) : Word := (word ea - m.src).sshiftRight (Nat.log2 m.esz)

/-- A captured index as a save holds it: 16 bits, at or above K stored as 0xFFFF (R363, R365). -/
def savedIndex (o : TileOp) (i : Int) : Nat :=
  if 0 ≤ i ∧ i < frameK (o.e.form.frameTags).1 then i.toNat else 0xFFFF

/-- 16-bit values packed four to a word. -/
def packIdx : List Nat → List Word
  | [] => []
  | [a] => [packW [(a, 0)]]
  | [a, b] => [packW [(a, 0), (b, 16)]]
  | [a, b, c] => [packW [(a, 0), (b, 16), (c, 32)]]
  | a :: b :: c :: d :: r => packW [(a, 0), (b, 16), (c, 32), (d, 48)] :: packIdx r

/-- `n` 16-bit values are unpacked. -/
def unpackIdx (ws : List Word) (n : Nat) : List Nat := (List.range n).map fun i => bits (ws.getD (i / 4) 0) (16 * (i % 4)) 16

/-- The captured index list of a follow-on, as the image holds it. -/
def followIdx (m : Cmd) : List Nat := match m.follow with
  | some (e, idx) =>
    let o : TileOp := { e := e, seq := m.seq, idx := idx, started := false, next := 0 }
    if e.form.op = .tmms then o.indices.map (savedIndex o) else []
  | none => []

/-- The index list of a restart record, in words, and its length in items (R365). -/
def recordIdx (m : Cmd) : List Word × Nat :=
  if m.kind = 3 then (m.idx.map (gatherIndex m), m.idx.length)
  else (packIdx (followIdx m), (followIdx m).length)

/-- A restart record whose index list stands at `off` of the image (R365). -/
def recordWords (ch : Nat) (m : Cmd) (run : Bool) (off : Nat) : List Word :=
  let (l, n) := recordIdx m
  let f := m.follow.map (·.1)
  [ packW [(m.kind, 0), (ch % 8, 8), (m.port, 12), (run.toNat, 16), (m.kd, 20), (Nat.log2 m.esz, 24)],
    m.src,
    if m.film then 0 else m.dst,
    packW [(m.rows % 2 ^ 16, 0), (m.rowb % 2 ^ 16, 16), (m.stride.toNat % 2 ^ 32, 32)],
    word m.off, word m.done, word m.credited, m.bar,
    packW [((f.map fun e => e.form.word.toNat).getD 0, 0), (f.isSome.toNat, 32)],
    packW [((f.map fun e => e.vl).getD 0, 0), ((f.map fun e => e.rm.toNat).getD 0, 16)],
    if l.isEmpty then 0 else word off,
    word n, 0, 0, 0, 0 ]

/-- Restart records from an address up, with their index lists from `off` of the image at `base` (R362, R365). -/
def putRecords (s : State) (base a off : Nat) : List (Nat × Cmd × Bool) → State
  | [] => s
  | (ch, m, run) :: r =>
    let l := (recordIdx m).1
    let s := putWords (putWords s a (recordWords ch m run off)) (base + off) l
    putRecords s base (a + 128) (off + 8 * l.length) r

/-- Bytes of the index lists of restart records. -/
def idxBytes (l : List (Nat × Cmd × Bool)) : Nat := l.foldl (fun n x => n + 8 * (recordIdx x.2.1).1.length) 0

/-- A tile's elements and progress page (R362, R363). Owed at bits 19:16 are keep of A, keep of B, pop of A, pop of B; the
tile's tag, for which R363 names no place, stands above the gathered flags. -/
def tileWords (t : Tile) : List Word × List Word :=
  let data := (List.range 2048).map fun i => wordOf t.acc i
  let prog := match t.ops with
    | [] => [0, 0, 0, packW [(t.gathered.toNat, 0), (t.tag.toNat, 8)]]
    | o :: _ =>
      let f := o.e.form
      let prod := f.op == .tmma || f.op == .tmms
      let owed := (prod && f.keepA).toNat + 2 * (prod && f.keepB).toNat + 4 * (prod && !f.keepA).toNat
        + 8 * (prod && !f.keepB).toNat
      [packW [(f.word.toNat, 0), (1, 32)], packW [(o.next, 0)],
        packW [((if f.op = .tmms then o.idx.length else 0), 0), (owed, 16)], packW [(t.gathered.toNat, 0), (t.tag.toNat, 8)]]
        ++ List.replicate 28 0 ++ (if f.op = .tmms then packIdx (o.indices.map (savedIndex o)) else [])
  (data, prog)

/-- A film's configuration word (R255). -/
def Film.config (f : Film) : Word := packW [(f.rowb.val, 0), (f.sb.val, 2)]

/-- A film's entry header and complete frames (R362, R363). -/
def filmWords (f : Film) : List Word × List Word :=
  ([f.config, packW [(f.ready, 0), (f.kept.toNat, 4)]],
    (List.range (f.ready * f.frameBytes / 8)).map fun i => wordOf f.data i)

/-! ## Saving -/

/-- The first place in a partition's pool where an image of `n` bytes fits (R362). -/
def fitImage (s : State) (p n : Nat) : Option Nat :=
  let x := s.part p
  let lo := bits x.savebase 12 40 * 4096
  let hi := lo + x.savesize.toNat
  let imgs := s.saved.filter fun v => v.part == p
  let cands := lo :: imgs.map fun v => (v.base + v.size + 4095) / 4096 * 4096
  let ok := fun (a : Nat) => decide (lo ≤ a) && decide (a + n ≤ hi)
    && imgs.all fun v => decide (a + n ≤ v.base) || decide (v.base + v.size ≤ a)
  (cands.filter ok).foldl (fun m a => match m with
    | none => some a
    | some b => some (min a b)) none

/-- Blocks a Detached operation goes on for before the save stops it: free, but one at least of an operation brought back
by a resume (R23, R35, R361). -/
def blocksBeforeSave (o : TileOp) (free : Nat) : Nat :=
  let n := free % (o.blocks + 1)
  if o.resumed then max 1 n else n

/-- The Detached operations of a claimed tile before a save: a started tacc or twrite runs to its end, a product stops at a
block boundary (R361). -/
def settleTile (s : State) (core t : Nat) : State :=
  match (vget (s.core core).tiles t {}).ops with
  | [] => s
  | o :: _ =>
    match o.e.form.op with
    | .tacc | .twrite => if o.started then completeTile s core t else s
    | _ =>
      if o.started then
        let (x, o') := runBlocks (blocksBeforeSave o (Config.freeNat s.tick)) (s.core core) t o
        let s := { s with tick := s.tick + 1 }
        let tl := vget x.tiles t {}
        s.setCore core { x with tiles := vset x.tiles t { tl with ops := o' :: tl.ops.tail } }
      else s

/-- The deadline of a task, 2^64 − 1 for none (R362, R373). -/
def taskDeadline (t : Option TaskRef) : Nat := match t with
  | some t => t.deadline
  | none => 2 ^ 64 - 1

/-- The PRIO of a saved panel task's record; 0 for a launch instance (R362). -/
def taskPrio (t : Option TaskRef) : Nat := match t with
  | some t => if t.launch then 0 else bits (recWord t.record.toNat 0x20) 32 4
  | none => 0

/-- Tiles and films of a sequencer, by number. -/
def tilesOf (x : Core) (q : Nat) : List Nat := (List.range 8).filter fun i => (vget x.tiles i {}).claim == some q
def filmsOf (x : Core) (q : Nat) : List Nat := (List.range 4).filter fun i => (vget x.films i {}).holder == some q

/-- Windows a context mapped and did not pin, by number. -/
def winsOf (x : Core) (q : Nat) : List Nat := (List.range 4).filter fun i =>
  let w := vget x.wins i {}
  w.valid && !w.pinned && w.byTask == some q

/-- A set of numbers as bits. -/
def maskOf (l : List Nat) : Nat := l.foldl (fun n i => n ||| 2 ^ i) 0

/-- The save image is written at `base` (R362, R363, R365): the header, the context pages, the restart records, the tiles
and the films. -/
def writeImage (s : State) (q base size : Nat) (recs : List (Nat × Cmd × Bool)) : State :=
  let c := s.ctx q
  let x := s.core (q / 4)
  let ts := tilesOf x q
  let fs := filmsOf x q
  let qu := match c.task with | some t => t.queue | none => 0
  let header := [ (0x56535952 : Word), packW [(q, 0), (s.pnum q, 16), (qu, 32)], word s.time,
    packW [(maskOf ts, 0), (maskOf fs, 8), (recs.length, 16), (maskOf (recs.map fun r => r.1 % 8), 24)], word size,
    word (taskPrio c.task), word (taskDeadline c.task), 0 ]
  let wins := (List.range 4).flatMap fun i =>
    if (winsOf x q).contains i then (vget x.wins i {}).words else [0, 0]
  let s0 := s
  let s := putWords s base (header ++ wins)
  let pages := (List.range 10240).map fun i =>
    if i = 1 then 0 else if i = 3 then packW [(c.root.toNat, 12), (c.space.toNat, 48)]
    else if i = 4 then packW [(c.cause.toNat, 0), (c.subcode.toNat, 8), (c.cls.toNat, 16)]
    else if i = 5 then c.faultAddr
    else if i = 7 then packW [(c.keeper.toNat, 0), (c.kv.toNat, 63)]
    else imageWord s0 q (8 * i)
  let s := putWords s (base + 0x1000) pages
  let s := putRecords s base (base + 0x15000) 0x90000 recs
  let s := homeWrite s (base + 0x87000) 0x9000 0
  let s := ts.foldl (fun s i =>
    let (d, p) := tileWords (vget x.tiles i {})
    putWords (putWords s (base + 0x17000 + 0x5000 * i) d) (base + 0x17000 + 0x5000 * i + 0x4000) p) s
  fs.foldl (fun s i =>
    let (h, d) := filmWords (vget x.films i {})
    putWords (putWords s (base + 0x3F000 + 0x12000 * i) h) (base + 0x3F000 + 0x12000 * i + 0x1000) d) s

/-- A context with more than one Detached operation on a tile is not saved before all but one have completed. -/
def tilesSettled (s : State) (q : Nat) : Bool :=
  let x := s.core (q / 4)
  (tilesOf x q).all fun i => decide ((vget x.tiles i {}).ops.length ≤ 1)

/-- The context is saved, if an image fits in the pool (R361, R362): squash, cancellation with restart records, tiles,
films, windows, and STATE SAVED. None where it does not fit. -/
def saveContext (s : State) (q : Nat) : Option State :=
  let s := stopSquash s q
  let (s, recs) := cancelContext s q true
  let s := (tilesOf (s.core (q / 4)) q).foldl (fun s t => settleTile s (q / 4) t) s
  let size := 0x90000 + idxBytes recs
  match fitImage s (s.pnum q) size with
  | none => none
  | some base =>
    let s := writeImage s q base size recs
    let c := s.ctx q
    let s := cancelStages (releaseItems s q) fun t => t.bound == some q
    let img : Saved := { base := base, size := size, seq := q, part := s.pnum q, shown := true, task := c.task }
    let s := { s with
      saved := s.saved ++ [img]
      parts := put s.parts (s.pnum q) { s.part (s.pnum q) with saveFullPosted := false } }
    some (restRelease (s.setCtx q { c with state := .saved, handler := false }) q)

/-- The slice is renewed for want of room, with one SAVEFULL event until a save succeeds (R360). -/
def saveFull (s : State) (q : Nat) : State :=
  let p := s.pnum q
  let x := s.part p
  let s := s.setCtx q { s.ctx q with sliceUsed := 0 }
  if x.saveFullPosted then s
  else
    let e : EventWord := { event := 6, part := p, seq := q }
    postTo (s.setPart p { x with saveFullPosted := true }) p x.dkeeper.toNat (e.body s.time)

/-- A slice end with work waiting saves the context (R360, R361), once what it has written is performed at pkg (R307); a started
Complete-class instruction first runs to its end (R24). -/
def saveAtSliceEnd (s : State) (q : Nat) : State :=
  let c := s.ctx q
  if c.free ∨ c.state ≠ .running then s
  else if (c.run.any fun e => e.form.op.restart == .complete) || !tilesSettled s q then s
  else restAs s q fun s => match saveContext s q with
    | some s => countEvent s 2
    | none => saveFull s q

/-! ## Resuming (R366) -/

/-- A command from its restart record (R365, R366). An image holds no order between the follow-ons that commands of two channels
have for one tile: they run in the order in which their copies land, a DESIGN CHOICE (log entry 90). -/
noncomputable def readRecord (s : State) (q base a : Nat) : Nat × Cmd :=
  let c := s.ctx q
  let w := fun i => getW s (a + 8 * i)
  let h := w 0
  let n := (w 11).toNat
  let src := w 1
  let esz := 2 ^ bits h 24 2
  let kind := bits h 0 2
  let list := getWords s (base + (w 10).toNat) (if kind = 3 then n else (n + 3) / 4)
  let follow := if (w 8).getLsbD 32 then
      match formOf (decode (BitVec.ofNat 32 (w 8).toNat)) with
      | some f =>
        let cfg := vset c.sc.vcfg f.c { vget c.sc.vcfg f.c {} with tag := BitVec.ofNat 5 tI32 }
        let e : VqEntry :=
          { form := f, ipc := 0, vl := bits (w 9) 0 14, rm := BitVec.ofNat 3 (bits (w 9) 16 3), start := 0, resumed := true,
            cfg := if f.op = .tmms then cfg else c.sc.vcfg, x1 := 0, x2 := 0, rows := c.sc.rows, cols := c.sc.cols,
            tsave := 0, snap := c.sc, ord := c.ord }
        some (e, unpackIdx list n)
      | none => none
    else none
  let m : Cmd :=
    { kind := kind, seq := q, part := s.pnum q, port := bits h 12 4, src := src, dst := w 2, rows := bits (w 3) 0 16,
      rowb := bits (w 3) 16 16, stride := BitVec.signExtend 64 (BitVec.ofNat 32 (bits (w 3) 32 32)), bar := w 7,
      root := c.root, space := c.space, off := (w 4).toNat % 2 ^ 32, done := (w 5).toNat, credited := (w 6).toNat,
      follow := follow, kd := bits h 20 3, esz := esz,
      idx := if kind = 3 then list.map fun i => (src + i * word esz).toNat else [] }
  (q / 4 * 8 + bits h 8 3, m)

/-- A tile is claimed and loaded from its place in the image, with its producer resumed at its next block (R363, R366). -/
noncomputable def loadTile (s : State) (q base i : Nat) : State :=
  let c := s.ctx q
  let a := base + 0x17000 + 0x5000 * i
  let data := getWords s a 2048
  let w := fun j => getW s (a + 0x4000 + 8 * j)
  let x := s.core (q / 4)
  let acc := BitVec.ofNat 131072 (data.foldr (fun v n => v.toNat + 2 ^ 64 * n) 0)
  let ops := if (w 0).getLsbD 32 then
      match formOf (decode (BitVec.ofNat 32 (w 0).toNat)) with
      | some f =>
        let n := bits (w 2) 0 16
        let idx := unpackIdx (getWords s (a + 0x4100) ((n + 3) / 4)) n
        let cfg := vset c.sc.vcfg f.c { vget c.sc.vcfg f.c {} with tag := BitVec.ofNat 5 tI32 }
        let e : VqEntry :=
          { form := f, ipc := 0, vl := n, rm := 0, start := 0, resumed := true, cfg := cfg, x1 := 0, x2 := 0,
            rows := c.sc.rows, cols := c.sc.cols, tsave := 0, snap := c.sc, ord := c.ord }
        [({ e := e, seq := q, idx := idx, started := false, next := bits (w 1) 0 16, resumed := true, owed := true } : TileOp)]
      | none => []
    else []
  let t : Tile := { acc := acc, tag := BitVec.ofNat 5 (bits (w 3) 8 5), claim := some q, gathered := BitVec.ofNat 4 (bits (w 3) 0 4), ops := ops }
  startTile (s.setCore (q / 4) { x with tiles := vset x.tiles i t }) (q / 4) i

/-- A film is opened and loaded from its place in the image (R363, R366). -/
def loadFilm (s : State) (q base i : Nat) : State :=
  let a := base + 0x3F000 + 0x12000 * i
  let cfg := getW s a
  let st := getW s (a + 8)
  let f : Film := { holder := some q, rowb := Fin.ofNat 4 (bits cfg 0 2), sb := Fin.ofNat 4 (bits cfg 2 2) }
  let n := bits st 0 4 * f.frameBytes
  let data := getWords s (a + 0x1000) (n / 8)
  let f := { f with
    data := BitVec.ofNat 557056 (data.foldr (fun v n => v.toNat + 2 ^ 64 * n) 0)
    fill := n
    kept := st.getLsbD 4 }
  let x := s.core (q / 4)
  s.setCore (q / 4) { x with films := vset x.films i f }

/-- Pieces a partition's windows and staging reservations take in a core (R178, R382). -/
def piecesUsed (s : State) (core p : Nat) : Nat :=
  (s.core core).wins.toList.foldl (fun n w => if w.valid && w.part == p then n + w.pieces else n) 0
    + s.stages.foldl (fun n t => if t.core = core ∧ t.part = p then n + t.pieces else n) 0

/-- Why a window cannot be mapped (R178): its status code, or 0. Where several codes apply the spec gives no order, and RANGE,
BUSY, OVERLAP and BUDGET are tried in that order: a DESIGN CHOICE (log entry 68). OVERLAP is a range of virtual addresses or of pieces
that meets any other window of the core. -/
def mapStatus (s : State) (core p w off pieces base : Nat) : Nat :=
  let x := s.core core
  if pieces = 0 ∨ 768 < off + pieces then 6
  else if (vget x.wins w {}).valid then 1
  else if x.wins.toList.any fun v => v.valid
      && ((decide (off < v.offset + v.pieces) && decide (v.offset < off + pieces))
        || (decide (base < v.base.toNat + 512 * v.pieces) && decide (v.base.toNat < base + 512 * pieces))) then 3
  else if (s.part p).stashbudget < piecesUsed s core p + pieces then 4
  else 0

/-- A recorded window is mapped again at its number where its mapping is allowed (R366). -/
def loadWindow (s : State) (q base i : Nat) : State :=
  let w0 := getW s (base + 0x40 + 16 * i)
  let w1 := getW s (base + 0x48 + 16 * i)
  let p := s.pnum q
  let sp := BitVec.ofNat 16 (bits w1 32 16)
  if !w1.getLsbD 25 || mapStatus s (q / 4) p i (bits w1 0 10) (bits w1 10 10) w0.toNat != 0 then s
  else
    let x := s.core (q / 4)
    let w : Win := { base := w0, offset := bits w1 0 10, pieces := bits w1 10 10, part := p, valid := true, pinned := false,
                     space := sp, byTask := some q, root := (s.ctx q).root }
    s.setCore (q / 4) { x with wins := vset x.wins i w }

/-- The context pages of an image are loaded (R366): vl as it was saved, and the cycle count with it. -/
def loadPages (s : State) (q base : Nat) : State :=
  let w := fun off => getW s (base + 0x1000 + off)
  let c := (List.range 10240).foldl (fun (c : Ctx) i => c.setImageWord (8 * i) (w (8 * i))) (s.ctx q)
  s.setCtx q { c with
    sc := { c.sc with vl := min 8192 (w 0x1400).toNat, armed := false }
    cycles := w (0x1400 + 8 * 0x41)
    root := BitVec.ofNat 36 (bits (w 0x018) 12 36)
    space := BitVec.ofNat 16 (bits (w 0x018) 48 16)
    cause := BitVec.ofNat 8 (bits (w 0x020) 0 8)
    subcode := BitVec.ofNat 8 (bits (w 0x020) 8 8)
    cls := BitVec.ofNat 2 (bits (w 0x020) 16 2)
    faultAddr := w 0x028
    keeper := BitVec.ofNat 12 (bits (w 0x038) 0 12)
    kv := (w 0x038).getLsbD 63 }

/-- What an image needs of a core: tiles, films and channels, owned by the partition and free (R366). -/
def imageFits (s : State) (core : Nat) (v : Saved) : Bool :=
  let x := s.core core
  let h := getW s (v.base + 0x18)
  let own := fun (b : Byte) => ownerOf b == some v.part
  (List.range 8).all (fun i => !h.getLsbD i || (own (vget x.inForce.tile i 0) && (vget x.tiles i {}).claim.isNone))
    && (List.range 4).all (fun i => !h.getLsbD (8 + i) || (own (vget x.inForce.film i 0) && (vget x.films i {}).holder.isNone))
    && (List.range 8).all fun i => !h.getLsbD (24 + i)
      || (own (vget x.inForce.chan i 0) && (s.chan (8 * core + i)).cmds.isEmpty)

/-- The restart records of an image are issued to their channels, in their order (R366). -/
noncomputable def issueRecords (s : State) (q : Nat) (v : Saved) : Except MErr State :=
  (List.range (bits (getW s (v.base + 0x18)) 16 7)).foldlM (fun s i =>
    let (ch, m) := readRecord s q v.base (v.base + 0x15000 + 128 * i)
    enterChannel s ch m false) s

/-- A saved context is resumed on a sequencer (R366), in the order of that rule, once its commands can be registered: none where
they cannot yet. The image is freed when the context runs; one whose checks fail keeps it, and the context that it was loaded
into has it. -/
noncomputable def resumeSaved (s : State) (q : Nat) (v : Saved) : Option State :=
  let mine := { v with seq := q, shown := false, loaded := true }
  let s := { s with saved := s.saved.map fun x => if x = v then mine else if x.seq = q then { x with shown := false } else x }
  let s := loadPages s q v.base
  let c := s.ctx q
  let s := s.setCtx q { c.ended with task := v.task, reserved := false, sliceUsed := 0, handler := false }
  if !resumeOk s q then some (failResume s q)
  else
    let h := getW s (v.base + 0x18)
    let s := (List.range 8).foldl (fun s i => if h.getLsbD i then loadTile s q v.base i else s) s
    let s := (List.range 4).foldl (fun s i => if h.getLsbD (8 + i) then loadFilm s q v.base i else s) s
    let s := (List.range 4).foldl (fun s i => loadWindow s q v.base i) s
    match issueRecords s q v with
    | .ok s => some (startRunning s q false)
    | .error _ => none

end Sys2Proof.Machine
end

