-- ==== Sys2Proof/Machine/Sched.lean ====
section
/-!
DEFINITION. The distributor (R371 to R389): eligibility, priority and deadline, selection by the keys, staging, binding and
the start of a task, and the placement and moves of granules.
-/
namespace Sys2Proof.Machine

/-! ## Working sets (R378, R379) -/

/-- An entry of a working-set block, if valid: `rows` is the panel task's ROWS, or 1 (R378). -/
def wsEntry (w0 w1 : Word) (rows : Nat) : Option WsEntry :=
  let kind := bits w0 56 4
  let level := bits w0 60 4
  let base := bits w0 0 56
  let ext := bits w1 0 32
  let stride := bits w1 32 32
  let strided := decide (stride ≠ 0)
  let n := if strided then rows else 1
  let bytes := if strided then (n - 1) * stride + ext else ext
  if kind = 0 ∨ 5 < kind ∨ 1 < level ∨ (kind ≤ 3 ∧ level = 1) ∨ (4 ≤ kind ∧ level = 0) ∨ base % 32 ≠ 0 ∨ ext = 0
      ∨ ext % 32 ≠ 0 ∨ stride % 32 ≠ 0 ∨ (4 ≤ kind ∧ 768 < (base % 512 + bytes + 511) / 512) then none
  else some { kind := kind, base := base, rows := n, extent := ext, stride := stride }

/-- Bytes an entry declares, and the stash pieces of its range. -/
def WsEntry.bytes (e : WsEntry) : Nat := e.rows * e.extent
def WsEntry.span (e : WsEntry) : Nat := if e.stride = 0 then e.extent else (e.rows - 1) * e.stride + e.extent
def WsEntry.pieces (e : WsEntry) : Nat := (e.base % 512 + e.span + 511) / 512

/-- A translation for a queue's tasks (R378): none where it fails. -/
def queueXlate (s : State) (qn core : Nat) (va : Nat) : Except MErr (State × Option Xl) :=
  let x := s.queue qn
  match s.queueOwner qn with
  | none => .ok (s, none)
  | some p => do
    let (s, f) ← lookup s core p x.troot.toNat x.tspace (word va) .r
    return (s, match f.fail, f.entry with
      | none, some (e, _) => if teC e then none else some (xlOf e f.pa (word va))
      | _, _ => none)

/-- The distributor of a core's die as the maker of an access for a queue's tasks. -/
def distAgent (s : State) (qn core : Nat) : Agent :=
  { core := core, part := (s.queueOwner qn).getD 0, space := (s.queue qn).tspace, who := .dist (coreDie core) }

/-- What an access for a queue's tasks gives if it does not fail: one that has to wait does. -/
def unlessFailed {α : Type} (s : State) (m : Except MErr (State × α)) : Except MErr (State × Option α) :=
  match m with
  | .ok (s, x) => .ok (s, some x)
  | .error (.wait s) => .error (.wait s)
  | .error (.stop ..) => .ok (s, none)

/-- Bytes read for a queue's tasks, device memory and coherent host lines at the die point (R378): none where the access
fails. -/
def taskRead (s : State) (qn core va n : Nat) : Except MErr (State × Option Nat) := do
  match ← unlessFailed s (queueXlate s qn core va) with
  | (s, some (some x)) =>
    let g := distAgent s qn core
    unlessFailed s do
      let (s, t) ← resolve s g x .r
      match t with
      | .line a gr sl _ => readBytes (fun s w => dieRead s (coreDie core) w gr sl) s a n
      | t => readAt s g n t
  | (s, _) => return (s, none)

/-- A task's record names a working-set block (R45, R49), and where. -/
def hasWset (launch : Bool) (r : Nat) : Bool := if launch then (recWord r 0x10).getLsbD 8 else (recWord r 0x20).getLsbD 37
def wsetAt (launch : Bool) (r : Nat) : Nat := if launch then (recWord r 0x68).toNat else (recWord r 0x30).toNat

/-- The valid entries of a task's working-set block, read with its queue's tables (R378): none where the block fails
translation. -/
def readWset (s : State) (qn core : Nat) (launch : Bool) (r : Nat) : Except MErr (State × List WsEntry) := do
  let a := wsetAt launch r
  if !hasWset launch r || a % 64 != 0 then return (s, [])
  else
    let (s, n) ← taskRead s qn core a 64
    return (s, match n with
      | none => []
      | some n => (List.range 4).filterMap fun i =>
          wsEntry (word (n / 2 ^ (128 * i))) (word (n / 2 ^ (128 * i + 64))) (if launch then 1 else bits (recWord r 0x10) 0 32))

/-! ## Candidates (R371 to R375) -/

/-- The deadline of a slot's task (R373). -/
def slotDeadline (x : Queue) (i : Nat) (launch : Bool) (r : Nat) : Nat :=
  if x.dlmode = 1 then
    let dl := if launch then (recWord r 0x10).getLsbD 10 else (recWord r 0x20).getLsbD 36
    if dl then (if launch then (recWord r 0x60).toNat else (recWord r 0x28).toNat) else 2 ^ 64 - 1
  else if x.dlmode = 2 then get x.enqTime i 0 + x.dloff.toNat
  else 2 ^ 64 - 1

/-- The priority of a slot's task (R373). -/
def slotPrio (x : Queue) (launch : Bool) (r : Nat) : Nat :=
  if launch then x.prio.toNat else max x.prio.toNat (bits (recWord r 0x20) 32 4)

/-- Instances of a slot bound or selected so far. -/
def taken (s : State) (qn i : Nat) : Nat :=
  get (s.queue qn).instBound i 0 + (s.selected.filter fun t => t.queue == qn && t.slot == i && t.saved.isNone).length

/-- The first eligible slot of a queue from index `i` on, with `n` slots of the window left (R372): one already selected,
or whose instances all are, is passed by. -/
def firstEligible (s : State) (qn : Nat) : Nat → Nat → Option (Nat × Bool × Nat)
  | 0, _ => none
  | n + 1, i =>
    let x := s.queue qn
    let r := slotRec s qn i
    let k := slotKind r
    if k = 0xE0 then none
    else
      let launch := k == 2
      let todo := if launch then decide (taken s qn i < instances r) else decide (taken s qn i = 0)
      if (k = 1 ∨ k = 2) ∧ slotState r ≤ 2 ∧ x.counter (recCounter launch r).1 = 0 ∧ todo then some (i, launch, r)
      else firstEligible s qn n (i + 1)

/-- Tasks of a queue bound and not yet finished, saved ones included (R51). -/
def unfinished (s : State) (qn : Nat) : Nat :=
  let own := fun (t : Option TaskRef) => match t with | some t => t.queue == qn | none => false
  (s.seqs.filter fun (_, c) => own c.task && c.state != .saved).length
    + (s.saved.filter fun v => own v.task && !v.loaded).length

/-- A stage's next stage is full for one more task, counting the tasks of the stage bound and not yet finished but `but` of them
(R51). Which queues are stages R51 says only of the pipeline a launch declares: every queue that names a next stage (NSV 1) counts
here, whatever its CLASS, a DESIGN CHOICE (log entry 68). -/
def stageFull (s : State) (qn but : Nat) : Bool :=
  let x := s.queue qn
  let n := s.queue x.nextStage.toNat
  x.nsv && decide (n.slots ≤ (n.tail - n.head).toNat + (unfinished s qn - but))

/-- A queue's candidate (R372): its oldest saved context not yet selected, else its oldest eligible slot. A saved context is bound
already and takes the place in the next stage that it is counted for (R51). -/
def candidate (s : State) (qn : Nat) : Option Selected :=
  let x := s.queue qn
  match s.saved.find? fun v => !v.loaded && bits (getW s (v.base + 8)) 32 12 == qn
      && !(s.selected.any fun t => t.saved == some v.base) with
  | some v =>
    if stageFull s qn 1 then none else
    let h := fun off => getW s (v.base + off)
    some { seq := none, pin := none, queue := qn, slot := 0, saved := some v.base, inst := 0,
           deadline := (h 0x30).toNat, prio := max x.prio.toNat (bits (h 0x28) 0 4) }
  | none =>
    if !x.en || stageFull s qn 0 then none
    else match firstEligible s qn (min 64 (x.tail - x.head).toNat) x.head.toNat with
    | none => none
    | some (i, launch, r) =>
      some { seq := none, pin := none, queue := qn, slot := i, saved := none, inst := taken s qn i,
             deadline := slotDeadline x i launch r, prio := slotPrio x launch r }

/-- Whether a candidate comes before another by the keys of R374. -/
def before (s : State) (a b : Selected) : Bool :=
  let x := s.queue a.queue
  let y := s.queue b.queue
  let dl := fun (x : Queue) => x.cls == 1
  let crowded := fun (x : Queue) => x.cls == 2 && decide (x.slots < 2 * (x.tail - x.head).toNat)
  let fill := fun (x : Queue) => (x.tail - x.head).toNat
  if a.prio ≠ b.prio then decide (b.prio < a.prio)
  else if dl x ≠ dl y then dl x
  else if dl x ∧ a.deadline ≠ b.deadline then decide (a.deadline < b.deadline)
  else if crowded x ≠ crowded y then crowded x
  else if crowded x ∧ fill x * y.slots ≠ fill y * x.slots then decide (fill y * x.slots < fill x * y.slots)
  else if x.charge.toNat * y.share.toNat ≠ y.charge.toNat * x.share.toNat then
    decide (x.charge.toNat * y.share.toNat < y.charge.toNat * x.share.toNat)
  else decide (a.queue < b.queue)

/-- Candidates in the order of the keys. -/
def insertCand (s : State) (a : Selected) : List Selected → List Selected
  | [] => [a]
  | b :: r => if before s a b then a :: b :: r else b :: insertCand s a r

/-- The candidates of a partition, best first: queues that hold something, and those a saved context names. -/
def candidates (s : State) (p : Nat) : List Selected :=
  let qs := (s.queues.map (·.1)) ++ ((s.saved.map fun v => bits (getW s (v.base + 8)) 32 12).filter
    fun n => (find s.queues n).isNone)
  (qs.filterMap fun n => if s.queueOwner n = some p then candidate s n else none).foldl (fun l c => insertCand s c l) []

/-- The partition owns a pipe of a core. -/
def ownsPipe (s : State) (core p : Nat) : Bool := (s.core core).inForce.pipe.toList.any fun b => ownerOf b == some p

/-- A sequencer may take a task of a partition as far as its place goes (R376). -/
def placeOk (s : State) (q p : Nat) : Bool :=
  s.partOfSeq q == some p && (get s.places p {}).clusters.getLsbD (q / 32) && ownsPipe s (q / 4) p

/-- A sequencer is free (R374). -/
def seqFree (s : State) (q : Nat) : Bool :=
  let c := s.ctx q
  (c.state == .empty || c.state == .saved) && !c.reserved

/-- The core of a pinned window of a partition that a PIN entry matches (R376, R379). -/
def pinMatch (s : State) (p : Nat) (space : BitVec 16) (e : WsEntry) : Option Nat :=
  if e.kind ≠ 5 then none
  else (s.cores.find? fun (_, x) => x.wins.toList.any fun w =>
    w.valid && w.pinned && w.part == p && w.space == space && w.base.toNat == e.base / 512 * 512 && w.pieces == e.pieces).map
      (·.1)

/-- The core of a pinned window that a PIN entry of a task matches (R376, R379). -/
def pinnedCore (s : State) (p : Nat) (space : BitVec 16) (es : List WsEntry) : Option Nat := es.findSome? (pinMatch s p space)

/-- The staging of a candidate's task. -/
def stageOf (s : State) (t : Selected) : Option Stage :=
  s.stages.find? fun g => g.queue == t.queue && g.saved == t.saved && (t.saved.isSome || g.slot == t.slot)

/-- The entries of a candidate's task: those staged, else those its block holds (R378). -/
def entriesOf (s : State) (core : Nat) (t : Selected) : Except MErr (State × List WsEntry) :=
  match stageOf s t, t.saved with
  | some g, _ => .ok (s, g.todo)
  | none, none => let r := slotRec s t.queue t.slot; readWset s t.queue core (slotKind r == 2) r
  | none, some b => match s.saved.find? fun v => v.base == b with
    | some v => match v.task with
      | some k => readWset s t.queue core k.launch k.record.toNat
      | none => .ok (s, [])
    | none => .ok (s, [])

/-- A sequencer of a partition can take a candidate as far as places go (R366, R376). -/
def canTake (s : State) (q p : Nat) (t : Selected) : Bool :=
  placeOk s q p && match t.saved with
    | some b => match s.saved.find? fun v => v.base == b with
      | some v => imageFits s (q / 4) v
      | none => false
    | none => true

/-- A candidate is selected: its slot is BINDING, and a sequencer is reserved for it (R371, R374). -/
def select (s : State) (t : Selected) : State :=
  let s := { s with selected := s.selected ++ [t] }
  let s := if t.saved.isNone ∧ slotState (slotRec s t.queue t.slot) < 2 then setSlotState s t.queue t.slot 2 else s
  match t.seq with
  | some q => s.setCtx q { s.ctx q with reserved := true }
  | none => s

/-- The candidates offered to a free sequencer, in order (R374): one with a matching pinned window elsewhere stays selected
for that core, one that cannot bind here is passed over. -/
def offer (s : State) (q p : Nat) : List Selected → State
  | [] => s
  | t :: r =>
    match entriesOf s (q / 4) t with
    | .error (.wait s) => s
    | .error (.stop ..) => s
    | .ok (s, es) =>
      match pinnedCore s p (s.queue t.queue).tspace es with
      | some core =>
        if core = q / 4 ∧ canTake s q p t then select s { t with seq := some q, pin := some core }
        else offer (select s { t with pin := some core }) q p r
      | none => if canTake s q p t then select s { t with seq := some q } else offer s q p r

/-- A poisoned slot of a partition's selection windows stops its distributor, which resets the partition (R368). -/
def poisonedSlot (s : State) (p : Nat) : Bool :=
  s.queues.any fun (n, x) => s.queueOwner n == some p && (List.range (min 64 (x.tail - x.head).toNat)).any fun i =>
    poisoned s (x.slotAt (x.head + word i)) 128

/-- SELECTION for a sequencer that became free (R374). -/
def selectFor (s : State) (q : Nat) : State :=
  match s.partOfSeq q with
  | none => s
  | some p =>
    if !seqFree s q || (s.part p).pstate != 1 then s
    else if poisonedSlot s p then resetPartition s p
    else offer s q p (candidates s p)

/-! ## Staging (R378 to R385) -/

/-- A device address lies on a stack by granule placement: one whose granule is not yet placed lies on none (R351, R381). -/
def placedOn (s : State) (a stack : Nat) : Bool := match find s.granules (a / 2 ^ 21) with
  | some g => g.stack == stack
  | none => false

/-- Bytes of a working set that lie on a die's stack, page by page (R381). -/
def dieBytes (s : State) (qn : Nat) (es : List WsEntry) (die : Nat) : Nat :=
  es.foldl (fun n e => n + ((List.range e.rows).foldl (fun n r =>
    let a := e.base + r * e.stride
    n + ((List.range ((a % 4096 + e.extent + 4095) / 4096)).foldl (fun n k =>
      let lo := max a ((a / 4096 + k) * 4096)
      let hi := min (a + e.extent) ((a / 4096 + k + 1) * 4096)
      match queueXlate s qn (64 * die) lo with
      | .ok (_, some x) => if !x.host && x.dev == 0 && placedOn s x.pa die then n + (hi - lo) else n
      | _ => n) 0)) 0)) 0

/-- The greatest of a list by a measure, the earliest among equals. -/
def bestBy {α : Type} (f : α → Nat) : List α → Option α
  | [] => none
  | a :: r => match bestBy f r with
    | some b => if f a < f b then some b else some a
    | none => some a

/-- The least of a list by a measure, the earliest among equals. -/
def leastBy {α : Type} (f : α → Nat) : List α → Option α
  | [] => none
  | a :: r => match leastBy f r with
    | some b => if f b < f a then some b else some a
    | none => some a

/-- Element-beats that a partition's sequencers of a cluster have charged in the last 100 µs (R376). -/
def clusterCharge (s : State) (p cl : Nat) : Nat :=
  s.recent.foldl (fun n (t, q, b) => if s.time < t + 100000 ∧ q / 32 = cl ∧ s.partOfSeq q = some p then n + b else n) 0

/-- Element-beats charged by a core's sequencers (R376). -/
def coreCharge (s : State) (core : Nat) : Nat := (List.range 4).foldl (fun n i => n + (s.ctx (4 * core + i)).beats) 0

/-- The target of a task's staging (R381): die and core. -/
def stageTarget (s : State) (qn p : Nat) (es : List WsEntry) : Nat × Nat :=
  match pinnedCore s p (s.queue qn).tspace es with
  | some core => (coreDie core, core)
  | none =>
    let cl := (get s.places p {}).clusters
    let dies := (List.range 8).filter fun d => (List.range 8).any fun k => cl.getLsbD (8 * d + k)
    let die := (bestBy (dieBytes s qn es) dies).getD 0
    let cluster := (leastBy (clusterCharge s p) ((List.range 8).map (8 * die + ·) |>.filter fun k => cl.getLsbD k)).getD (8 * die)
    let free := fun core => 768 - (s.core core).wins.toList.foldl (fun n w => if w.valid then n + w.pieces else n) 0
      - s.stages.foldl (fun n t => if t.core = core then n + t.pieces else n) 0
    (die, (bestBy free ((List.range 8).map (8 * cluster + ·))).getD (8 * cluster))

/-- L2 bytes of a partition admitted on a die. -/
def l2Used (s : State) (die p : Nat) : Nat :=
  s.stages.foldl (fun n t => if t.die = die ∧ t.part = p then n + t.l2 else n) 0

/-- A staged task fits (R382). -/
def stageFits (s : State) (g : Stage) : Bool :=
  decide (l2Used s g.die g.part + g.l2 ≤ (s.part g.part).l2budget.toNat)
    && decide (piecesUsed s g.core g.part + g.pieces ≤ (s.part g.part).stashbudget)

/-- Staging of unbound lower-class tasks on the same die or core is displaced, newest first, until the task fits
(R382). -/
def displace : Nat → State → Stage → State
  | 0, s, _ => s
  | n + 1, s, g =>
    if stageFits s g then s
    else match s.stages.reverse.find? fun t => t.part == g.part && t.bound.isNone && decide (t.prio < g.prio)
        && (t.die == g.die || t.core == g.core) with
      | some t => displace n (cancelStage s t) g
      | none => s

/-- A task that is considered for staging (R381): the place of its saved context or its slot, its kind and record, and its
priority class. -/
structure Waiting where
  saved : Option Nat
  slot : Nat
  launch : Bool
  record : Nat
  prio : Nat

/-- A slot of a queue is considered for staging: within LOOKAHEAD, with its counter at 1 or below, not bound (R381). -/
def slotWaits (s : State) (qn p j : Nat) : Bool :=
  let x := s.queue qn
  let r := slotRec s qn j
  decide (x.head.toNat ≤ j) && decide (j < x.tail.toNat) && decide (j - x.head.toNat < (s.part p).lookahead)
    && (slotKind r == 1 || slotKind r == 2) && decide ((x.counter (recCounter (slotKind r == 2) r).1).toNat ≤ 1)
    && hasWset (slotKind r == 2) r && decide (slotState r < 3)

/-- The tasks of a queue under consideration for staging, staged ones too: a saved context that is the queue's candidate stands ahead
of the slots (R372, R381). -/
def underConsideration (s : State) (qn p : Nat) : List Waiting :=
  let x := s.queue qn
  let img : Option Waiting := match candidate s qn with
    | some { saved := some b, prio := pr, .. } =>
      match s.saved.find? fun v => v.base == b with
      | some v => match v.task with
        | some k => if hasWset k.launch k.record.toNat && decide (0 < (s.part p).lookahead) then
            some { saved := some b, slot := k.slot, launch := k.launch, record := k.record.toNat, prio := pr }
          else none
        | none => none
      | none => none
    | _ => none
  img.toList ++ if !x.en || (s.part p).lookahead == 0 then []
    else ((List.range (min 255 (x.tail - x.head).toNat)).filter fun k => slotWaits s qn p (x.head.toNat + k)).map
      fun k =>
        let r := slotRec s qn (x.head.toNat + k)
        { saved := none, slot := x.head.toNat + k, launch := slotKind r == 2, record := r, prio := slotPrio x (slotKind r == 2) r }

/-- What `considered` holds of a task. -/
abbrev Waiting.key (w : Waiting) (qn : Nat) : Nat × Option Nat × Nat := (qn, w.saved, if w.saved.isSome then 0 else w.slot)

/-- Tasks that come under consideration together stand by priority class, and in one class as they come (R382). -/
def byClass : List ((Nat × Option Nat × Nat) × Nat) → List ((Nat × Option Nat × Nat) × Nat)
  | [] => []
  | a :: r =>
    let l := byClass r
    l.takeWhile (fun b => decide (a.2 < b.2)) ++ a :: l.dropWhile fun b => decide (a.2 < b.2)

/-- The order in which tasks have come under consideration goes on: those that no longer are leave it, and the new ones follow (R381,
R382). -/
def consider (s : State) : State :=
  let now := s.queues.flatMap fun (n, _) => match s.queueOwner n with
    | some p => (underConsideration s n p).map fun w => (w.key n, w.prio)
    | none => []
  let old := s.considered.filter fun k => now.any (·.1 == k)
  { s with considered := old ++ (byClass (now.filter fun k => !old.contains k.1)).map (·.1) }

/-- A task is staged already. -/
def isStaged (s : State) (qn : Nat) (w : Waiting) : Bool :=
  s.stages.any fun g => g.queue == qn && g.saved == w.saved && (w.saved.isSome || g.slot == w.slot)

/-- The first task of a queue that is considered and not yet staged, in the order in which they came under consideration (R382). -/
def firstWaiting (s : State) (qn p : Nat) : Option Waiting :=
  let l := (underConsideration s qn p).filter fun w => !isStaged s qn w
  match s.considered.findSome? fun k => l.find? fun w => w.key qn == k with
  | some w => some w
  | none => l.head?

/-- The staging a considered task asks for, its target chosen (R381, R382): a PIN entry that a pinned window matches asks for
nothing. -/
def stagePlan (s : State) (qn p : Nat) (w : Waiting) : Except MErr (State × Stage) := do
  let sp := (s.queue qn).tspace
  let (s, es) ← readWset s qn 0 w.launch w.record
  let (die, core) := stageTarget s qn p es
  let es := es.map fun e => { e with pinned := (pinMatch s p sp e).isSome }
  return (s, { queue := qn, slot := w.slot, part := p, prio := w.prio, die := die, core := core, saved := w.saved
               l2 := es.foldl (fun n e => if e.kind ≤ 3 then n + e.bytes else n) 0
               pieces := es.foldl (fun n e => if 4 ≤ e.kind ∧ !e.pinned then n + e.pieces else n) 0
               todo := es })

/-- A staged task is admitted, once what gives way to it has (R382). -/
def admits (s : State) (g : Stage) : Bool := stageFits (displace s.stages.length s g) g

/-- A task came under consideration before another, or together with it and stands before it by priority class or queue (R382). -/
def cameBefore (s : State) (a b : (Nat × Option Nat × Nat) × Nat) : Bool :=
  let i := s.considered.idxOf a.1
  let j := s.considered.idxOf b.1
  decide (i < j) || (i == j && (decide (b.2 < a.2) || (b.2 == a.2 && decide (a.1.1 < b.1.1))))

/-- A task of another queue of the partition that is considered too comes before this one, and it has not been refused (R382). -/
def outranked (s : State) (p : Nat) (g : Stage) (w0 : Waiting) : Bool :=
  s.queues.any fun (n, _) => n != g.queue && s.queueOwner n == some p && match firstWaiting s n p with
    | some w => cameBefore s (w.key n, w.prio) (w0.key g.queue, w0.prio) && match stagePlan s n p w with
      | .ok (s, h) => admits s h
      | .error _ => false
    | none => false

/-- STAGING_START: the first task of a queue that is considered has its target chosen, and is admitted if it fits (R381,
R382). -/
def stageSlot (s : State) (qn i : Nat) : State :=
  match s.queueOwner qn with
  | none => s
  | some p => match firstWaiting s qn p with
    | none => s
    | some w =>
      if w.saved.isNone ∧ w.slot ≠ i then s
      else match stagePlan s qn p w with
        | .error (.wait s) => s
        | .error (.stop ..) => s
        | .ok (s, g) =>
          if outranked s p g w then s
          else
            let s := displace s.stages.length s g
            if stageFits s g then
              let s := { s with stages := s.stages ++ [g] }
              if w.saved.isNone ∧ slotState w.record = 0 then setSlotState s qn w.slot 1 else s
            else s

/-- An entry with grains still to bring: WRITE moves nothing, nor does a PIN that a pinned window holds (R379). -/
def WsEntry.left (e : WsEntry) : Bool := e.kind != 3 && !e.pinned && decide (e.off < e.bytes)

/-- A grain is brought to the target die as a copy there, and for a stash entry into the core's stash as clean words (R380): the
answer is its words, if it has landed. One whose translation, permission or window check fails is skipped, and host and peer memory on
the plain path is held by no cache. -/
def landGrain (s : State) (g : Stage) (e : WsEntry) (va : Nat) : Except MErr (State × List Nat) := do
  match ← unlessFailed s (queueXlate s g.queue g.core va) with
  | (s, some (some x)) =>
    let r ← unlessFailed s do
      let (s, t) ← resolve s (distAgent s g.queue g.core) x .r
      match t with
      | .line a gr sl _ =>
        let (s, _) ← readBytes (fun s w => dieRead s g.die w gr sl) s a 32
        return (if 4 ≤ e.kind then (wordsOf a 32).foldl (fun s w => keepCopy s g.core w gr sl) s else s, wordsOf a 32)
      | _ => return (s, [])
    return (r.1, r.2.getD [])
  | (s, _) => return (s, [])

/-- The next grain of a staged task (R380). -/
def stageGrain (s : State) (g : Stage) : State :=
  match g.todo.find? (·.left) with
  | none => s
  | some e =>
    match landGrain s g e (e.base + e.off / e.extent * e.stride + e.off % e.extent) with
    | .error (.wait s) => s
    | .error (.stop ..) => s
    | .ok (s, ws) =>
      let n := if ws.isEmpty then 0 else 32
      let g' := { g with
        landed := g.landed + n
        stashed := g.stashed + (if 4 ≤ e.kind then n else 0)
        clean := if 4 ≤ e.kind then g.clean ++ ws else g.clean
        todo := g.todo.map fun f => if f = e then { e with off := e.off + 32 } else f }
      { s with stages := s.stages.map fun t => if t = g then g' else t }

/-- GRAIN_MOVE on a staging channel of a cluster's enlarger: of the eight tasks it stages at once, the `i`-th moves one grain
(R383). -/
def stageMove (s : State) (enl i : Nat) : State :=
  match ((s.stages.filter fun g => g.core / 8 == enl && g.todo.any (·.left)).take 8)[i]? with
  | some g => stageGrain s g
  | none => s

/-! ## Binding (R376, R377) -/

/-- HEAD passes every slot at it whose state is BOUND (R371); `n` bounds the slots looked at. -/
def advanceHead (s : State) (qn : Nat) : Nat → State
  | 0 => s
  | n + 1 =>
    let x := s.queue qn
    if x.head = x.tail then s
    else
      let r := slotRec s qn x.head.toNat
      if slotKind r ≠ 0xE0 ∧ slotState r = 3 then
        let i := x.head.toNat
        advanceHead (s.setQueue qn { x with head := x.head + 1, instBound := del x.instBound i, enqTime := del x.enqTime i }) qn n
      else s

/-- The free sequencers a candidate may be bound to, the reserved one among them. -/
def bindable (s : State) (t : Selected) (p : Nat) : List Nat :=
  (List.range 2048).filter fun q =>
    canTake s q p t && (seqFree s q || (t.seq == some q && ((s.ctx q).state == .empty || (s.ctx q).state == .saved)))
      && (match t.pin with | some core => q / 4 == core | none => true)

/-- The bytes of a staged task that count for its placement: those landed, and those of its WRITE entries, which nothing moves (R376,
R379). -/
def Stage.placed (g : Stage) : Nat := g.landed + g.todo.foldl (fun n e => if e.kind = 3 then n + e.bytes else n) 0

/-- The sequencer of R376: die and cluster of the landed staging, then the cluster charged least, then the core of the stash
reservation or the one charged least, then the lowest number. -/
def chooseSeq (s : State) (t : Selected) (p : Nat) : Option Nat :=
  let qs := bindable s t p
  let st := stageOf s t
  let inDie := match st with
    | some g =>
      let near := if 0 < g.placed then qs.filter fun q => q / 256 == g.die else []
      let cl := if 0 < g.stashed then near.filter fun q => q / 32 == g.core / 8 else []
      if !cl.isEmpty then cl else if !near.isEmpty then near else qs
    | none => qs
  match leastBy (fun q => clusterCharge s p (q / 32)) inDie with
  | none => none
  | some q0 =>
    let inCl := inDie.filter fun q => q / 32 == q0 / 32
    let held := match st with
      | some g => if 0 < g.pieces then inCl.filter fun q => q / 4 == g.core else []
      | none => []
    leastBy (fun q => if held.isEmpty then coreCharge s (q / 4) else 0) (if held.isEmpty then inCl else held)

/-- The lowest place for a window of some pieces in a core's stash. -/
def stashPlace (x : Core) (n : Nat) : Option Nat :=
  (List.range 769).find? fun o => decide (o + n ≤ 768) && x.wins.toList.all fun w =>
    !w.valid || decide (o + n ≤ w.offset) || decide (w.offset + w.pieces ≤ o)

/-- The windows a task's STASH and PIN entries give it at its start (R379). -/
def startWindows (s : State) (q p : Nat) (space : BitVec 16) (es : List WsEntry) : State :=
  es.foldl (fun s e =>
    let x := s.core (q / 4)
    let base := e.base / 512 * 512
    let have_ := x.wins.toList.any fun w => w.valid && w.pinned && w.part == p && w.space == space
      && w.base.toNat == base && w.pieces == e.pieces
    if e.kind < 4 ∨ (e.kind = 5 ∧ have_) then s
    else match (List.range 4).find? fun i => !(vget x.wins i {}).valid, stashPlace x e.pieces with
      | some i, some o =>
        if mapStatus s (q / 4) p i o e.pieces base ≠ 0 then s
        else
          let w : Win := { base := word base, offset := o, pieces := e.pieces, part := p, valid := true,
                           pinned := e.kind == 5, space := space, byTask := some q, root := (s.ctx q).root }
          s.setCore (q / 4) { x with wins := vset x.wins i w }
      | _, _ => s) s

/-- A task starts on a sequencer (R377): the acquire at pkg, its tables and keeper, the registers of R47 or R49, the panel
cursor cleared, its windows, STATE RUNNING. -/
def startTask (s : State) (q p : Nat) (t : TaskRef) (es : List WsEntry) : State :=
  let x := s.queue t.queue
  let r := t.record.toNat
  let c := s.ctx q
  let c := if t.launch then
      ((c.fill 3 (recWord r 8)).fill 4 (word t.inst)).fill 5 (word (instances r))
    else
      ((((c.fill 3 (recWord r 8)).fill 4 (word (bits (recWord r 0x10) 0 32))).fill 5 (word (bits (recWord r 0x10) 32 32))).fill 6
        (word (bits (recWord r 0x18) 0 32))).fill 7 (word (bits (recWord r 0x18) 32 32))
  let c := { c with
    sc := { c.sc with pc := recWord r 0, curRow := 0, curCol := 0, loops := Vector.replicate 6 {}, rptAct := false,
                      rptRun := false, rptBuf := [], armed := false }
    root := x.troot, space := x.tspace, keeper := x.tkeeper, kv := true, state := .running, task := some t, free := false,
    reserved := false, sliceUsed := 0, worked := false, began := c.ord + 1, idle := false, wait := none, pend := none, chainF := 0, lmode := false,
    handler := false, trapv := false, split := 0, arrived := 0, ord := c.ord + 1, awDone := false, retry := false,
    stepping := false }
  startWindows (acquireAt (s.setCtx q c) q 4) q p x.tspace es

/-- The saved context a sequencer still shows is seen there no more (R361, R374). -/
def detachImage (s : State) (q : Nat) : State :=
  { s with saved := s.saved.map fun x => if x.seq = q then { x with shown := false } else x }

/-- The clean words that staging has brought into a core leave it (R385). -/
def dropClean (s : State) (g : Stage) : State :=
  g.clean.foldl (fun s w => match find s.reg (unitKey g.core w) with
    | some r => if r.registered then s else { s with reg := del s.reg (unitKey g.core w) }
    | none => s) s

/-- Staging is bound to a sequencer: its windows take the place of its stash reservation, and outside the core that holds it the clean
pieces are dropped (R385). -/
def bindStages (s : State) (q : Nat) (sel : Stage → Bool) : State :=
  let s := (s.stages.filter sel).foldl (fun s g => if g.core = q / 4 then s else dropClean s g) s
  { s with stages := s.stages.map fun g => if sel g then { g with bound := some q, pieces := 0, clean := [] } else g }

/-- A candidate for a slot is bound to a sequencer, with the entries of its working set (R371, R376, R377, R385). -/
def bindSlot (s : State) (q p : Nat) (t : Selected) (es : List WsEntry) : State :=
  let qn := t.queue
  let x := s.queue qn
  let r := slotRec s qn t.slot
  let launch := slotKind r == 2
  let n := get x.instBound t.slot 0 + 1
  let all := !launch || decide (instances r ≤ n)
  let s := s.setQueue qn { x with instBound := put x.instBound t.slot n }
  let s := if all then setSlotState s qn t.slot 3 else s
  let s := advanceHead s qn 64
  let s := detachImage s q
  let s := bindStages s q fun g => g.queue == qn && g.slot == t.slot && g.bound.isNone
  startTask s q p { queue := qn, slot := t.slot, launch := launch, record := BitVec.ofNat 1024 r, inst := n - 1,
                    deadline := t.deadline, tprio := t.prio } es

/-- A selection is over: its entry goes and the reserved sequencer is free again. -/
def unselect (s : State) (t : Selected) : State :=
  let s := { s with selected := s.selected.erase t }
  match t.seq with
  | some q => s.setCtx q { s.ctx q with reserved := false }
  | none => s

/-- The selected candidate that waits for a sequencer: the one it is reserved for, or one kept for its core. -/
def selectedFor (s : State) (q : Nat) (saved : Bool) : Option Selected :=
  s.selected.find? fun t => t.saved.isSome == saved
    && (t.seq == some q || (t.seq == none && t.pin == some (q / 4) && seqFree s q))

/-- BIND: the selected candidate is bound to a free sequencer (R376), unless its next stage is full (R51). -/
def bindFor (s : State) (q : Nat) : State :=
  match selectedFor s q false with
  | none => s
  | some t =>
    match s.queueOwner t.queue with
    | none => unselect s t
    | some p =>
      if stageFull s t.queue 0 then s
      else match chooseSeq s t p with
        | none => s
        | some q' => match entriesOf s (q' / 4) t with
          | .ok (s, es) => bindSlot (unselect s t) q' p t es
          | .error (.wait s) => s
          | .error (.stop ..) => s

/-- RESUME_SAVED: a selected saved context is resumed on the sequencer chosen for it (R366, R376). -/
noncomputable def resumeFor (s : State) (q : Nat) : State :=
  match selectedFor s q true with
  | none => s
  | some t => match s.queueOwner t.queue, s.saved.find? fun v => some v.base == t.saved with
    | some p, some v => match chooseSeq s t p with
      | none => s
      | some q' =>
        (resumeSaved (bindStages (unselect s t) q' fun g => g.saved == t.saved && t.saved.isSome) q' v).getD s
    | _, _ => unselect s t

/-! ## Slices and granules -/

/-- A task or saved context of a partition waits that no EMPTY sequencer can take (R360). -/
def contended (s : State) (p : Nat) : Bool :=
  (candidates s p).any fun t => !(List.range 2048).any fun q =>
    (s.ctx q).state == .empty && !(s.ctx q).reserved && canTake s q p t && match entriesOf s (q / 4) t with
      | .ok (s, es) => match pinnedCore s p (s.queue t.queue).tspace es with
        | some core => core == q / 4
        | none => true
      | .error _ => true

/-- A context's position has advanced since it was last resumed: an element group is committed, or every instruction from there up to
a later one has taken effect, so that a squash does not bring it back (R35). -/
def Ctx.movedOn (c : Ctx) : Bool :=
  c.worked || match c.oldestDiscarded with
    | some (o, _) => decide (c.began < o)
    | none => decide (c.began < c.ord)

/-- The head of a context's VIQ waits for more than the tile engine (R32, R33, R259). -/
def headStuck (s : State) (q : Nat) : Bool :=
  match (s.ctx q).viq with
  | [] => (s.ctx q).idle
  | e :: _ =>
    let x := s.core (q / 4)
    !headReady s q && !((e.form.op == .tmma || e.form.op == .tmms) && (emptySources s q e).isEmpty
      && (engineBusy x || halfRun x e.form.d))

/-- A context is blocked (R35): it sleeps, or nothing of it is under way and its next instruction cannot go on. -/
def stuck (s : State) (q : Nat) : Bool :=
  let c := s.ctx q
  (waitReason s q).isSome || (c.run.isEmpty && c.sb.isEmpty && c.loads.isEmpty && c.divs.isEmpty && headStuck s q)

/-- SLICE_END (R360): at the limit the context is saved where work waits, and the slice is renewed where none does. A context that has
not moved on since it was resumed and is not blocked goes on until it has (R35). -/
def sliceEnd (s : State) (q : Nat) : State :=
  let c := s.ctx q
  let p := s.pnum q
  let limit := (s.part p).slice.toNat
  if c.free ∨ c.state ≠ .running ∨ limit = 0 ∨ c.sliceUsed < limit then s
  else if !contended s p then s.setCtx q { c with sliceUsed := 0 }
  else if c.laneHeld || (!c.movedOn && !stuck s q) then s
  else saveAtSliceEnd s q

/-- The die of a stack made at least three quarters of a granule's accesses over the last 10 ms (R389). -/
def mostUsed (s : State) (g stack : Nat) : Bool :=
  let l := s.uses.filter fun u => u.1 == g && decide (s.time < u.2.1 + 10000000)
  !l.isEmpty && decide (3 * l.length ≤ 4 * (l.countP fun u => u.2.2 == stack))

/-- GRANULE_MOVE (R351, R389): a granule that may move does, to a stack its partition allows that has free DRAM and whose die made
most of its accesses, at most once in 10 ms; no value changes. -/
def moveGranule (s : State) (g stack : Nat) : State :=
  match find s.granules g with
  | none => s
  | some x =>
    let p := partOfFrame s (g * 512)
    let pl := get s.places p {}
    let early := match x.moved with | some t => decide (s.time < t + 10000000) | none => false
    let may := x.pinned.isNone && pl.migrate && !early && decide (stack < 8) && mostUsed s g stack && (stacksOf s p).getLsbD stack
      && decide (stackCount s stack < stackGranules)
    let s := if may then flushAll s else s
    if may then { s with granules := put s.granules g { x with stack := stack, moved := some s.time } } else s

end Sys2Proof.Machine
end

