-- ==== Sys2Proof/Machine/Board.lean ====
section
/-!
DEFINITION. The negative store (R425 to R428), the shutter and its stills (R429, R430), attestation and the power cap
(R432, R433, R435), and the print engines (R434).
-/
namespace Sys2Proof.Machine

/-- An arrival of 1 at a barrier word by physical address, as a release at pkg (R176, R427, R434): none while an engine is registered
for the word (R306). -/
def deviceArrive (s : State) (a : Nat) : Option State :=
  if (wordsOf a 8).any (engineHolds s) then none
  else
    let s := flushAll s
    let (s, w) := homeRead (homeSettle s a 8) a 8
    match arriveWord w 1 with
    | some v => some (homeWrite s a 8 v)
    | none => some s

/-! ## The negative store -/

/-- A region's base, length and form (R425). -/
abbrev regionBase (r : Word × Word × Word) : Nat := bits r.1 5 47 * 32
abbrev regionLen (r : Word × Word × Word) : Nat := r.2.1.toNat
abbrev regionForm (r : Word × Word × Word) : Nat := bits r.2.2 0 2

/-- The command that a CMD write captures from the page (R307): a region rewritten later is no part of it. -/
def NegStore.capture (n : NegStore) (order : Nat) : NegCmd :=
  { job := n.job, step := n.step, donebar := n.donebar, order := order
    regions := (List.range n.nreg).map fun i => get n.regions i (0, 0, 0) }

/-- The regions the running command works on. -/
abbrev NegStore.listed (n : NegStore) : List (Word × Word × Word) := n.cmd.regions

/-- A region breaks the length rule of its form or leaves device DRAM (R426). -/
def badRegion (r : Word × Word × Word) : Bool :=
  let unit := match regionForm r with | 0 => 32 | 1 => 4 | 2 => 128 | _ => 4096
  regionLen r % unit != 0 || decide (0x6000000000 < regionBase r + regionLen r)

/-- The address of the first region that breaks its rule or overlaps an earlier one, sharing a byte with it (R426). -/
def regionFault : List (Word × Word × Word) → List (Word × Word × Word) → Option Nat
  | _, [] => none
  | seen, r :: rest =>
    let meets := seen.any fun t =>
      meet (regionBase t) (regionLen t) (regionBase r) (regionLen r) && regionLen t != 0 && regionLen r != 0
    if badRegion r || meets then some (regionBase r) else regionFault (seen ++ [r]) rest

/-- A block of 32 FP32 values as R129 encodes it with E4M3 and RNE: 32 element bytes and the scale byte (R426). -/
def htmxBlock (xs : List Nat) : List Byte :=
  let vs := xs.map (valOf tFP32)
  if vs.any (·.isNaN) then List.replicate 32 0 ++ [255]
  else match blockExp vs with
    | none => List.replicate 32 0 ++ [127]
    | some m =>
      let u := max (-127) (min 127 (m - emaxOf tE4M3))
      vs.map (fun x => BitVec.ofNat 8 (encodeMx tE4M3 x u 0 0).1) ++ [BitVec.ofNat 8 (u + 127).toNat]

/-- A number's low bytes. -/
def bytesOf (n : Nat) : Nat → List Byte
  | 0 => []
  | k + 1 => BitVec.ofNat 8 n :: bytesOf (n / 256) k

/-- The number bytes stand for, the first lowest. -/
def numOf (bs : List Byte) : Nat := bs.foldr (fun b n => b.toNat + 256 * n) 0

/-- `n` bytes of a list from a place on, and the 32-bit words of bytes. -/
def slice (bs : List Byte) (i n : Nat) : List Byte := (bs.drop i).take n
def words32 (bs : List Byte) : List Nat := (List.range (bs.length / 4)).map fun i => numOf (slice bs (4 * i) 4)

/-- The payload of a region's bytes in a form (R426). -/
def payload (form : Nat) (bs : List Byte) : List Byte :=
  match form with
  | 0 => bs
  | 1 => (words32 bs).flatMap fun w => bytesOf (roundTo tBF16 (valOf tFP32 w) 0 0).1 2
  | 2 => (List.range (bs.length / 128)).flatMap fun b => htmxBlock (words32 (slice bs (128 * b) 128))
  | _ =>
    let pages := List.range (bs.length / 4096)
    let live := fun p => (slice bs (4096 * p) 4096).any (· != 0)
    bytesOf (maskOf (pages.filter live)) ((bs.length / 4096 + 7) / 8)
      ++ (pages.filter live).flatMap fun p => slice bs (4096 * p) 4096

/-- The bytes a payload restores (R426, R128). -/
def unpayload (form n : Nat) (p : List Byte) : List Byte :=
  match form with
  | 0 => p
  | 1 => (List.range (n / 4)).flatMap fun i => bytesOf (numOf ((p.drop (2 * i)).take 2) * 65536) 4
  | 2 => (List.range (n / 128)).flatMap fun b =>
    let blk := (p.drop (33 * b)).take 33
    let sc := (blk.getD 32 0).toNat
    (List.range 32).flatMap fun i => bytesOf (if sc = 255 then 0x7FC00000
      else (roundTo tFP32 ((valOf tE4M3 (blk.getD i 0).toNat).shift ((sc : Int) - 127)) 0 0).1) 4
  | _ =>
    let k := (n / 4096 + 7) / 8
    let map := numOf (p.take k)
    ((List.range (n / 4096)).foldl (fun (acc : List Byte × List Byte) i =>
      if map.testBit i then (acc.1 ++ acc.2.take 4096, acc.2.drop 4096) else (acc.1 ++ List.replicate 4096 0, acc.2))
      ([], p.drop k)).1

/-- Bytes 0x00 to 0x3F of a shard's header (R427). -/
def Shard.header (t : Shard) : Nat :=
  0x534E5952 + 2 ^ 32 * 1 + 2 ^ 64 * t.job.toNat + 2 ^ 128 * t.step.toNat
    + 2 ^ 192 * (t.index % 2 ^ 16 + 2 ^ 16 * (t.count % 2 ^ 16) + 2 ^ 32 * t.form) + 2 ^ 256 * t.base + 2 ^ 320 * t.len
    + 2 ^ 384 * t.payload.length

/-! ### SHAKE256 (FIPS 202), which R427 names -/

/-- A lane of 64 bits, rotated left. -/
def rotl (v : Word) (n : Nat) : Word := (v <<< n) ||| (v >>> (64 - n))

/-- The rotation offsets of the lanes, by x + 5y. -/
def keccakOffsets : List Nat :=
  [0, 1, 62, 28, 27, 36, 44, 6, 55, 20, 3, 10, 43, 25, 39, 41, 45, 15, 21, 8, 18, 2, 61, 56, 14]

/-- The round constants. -/
def keccakConstants : List Word :=
  [0x0000000000000001, 0x0000000000008082, 0x800000000000808A, 0x8000000080008000, 0x000000000000808B, 0x0000000080000001,
    0x8000000080008081, 0x8000000000008009, 0x000000000000008A, 0x0000000000000088, 0x0000000080008009, 0x000000008000000A]
  ++ [0x000000008000808B, 0x800000000000008B, 0x8000000000008089, 0x8000000000008003, 0x8000000000008002, 0x8000000000000080,
    0x000000000000800A, 0x800000008000000A, 0x8000000080008081, 0x8000000000008080, 0x0000000080000001, 0x8000000080008008]

/-- One round of the permutation on the 25 lanes, lane (x, y) at x + 5y. -/
def keccakRound (a : List Word) (rc : Word) : List Word :=
  let c := (List.range 5).map fun x => (List.range 5).foldl (fun n y => n ^^^ a.getD (x + 5 * y) 0) 0
  let d := (List.range 5).map fun x => c.getD ((x + 4) % 5) 0 ^^^ rotl (c.getD ((x + 1) % 5) 0) 1
  let b := (List.range 25).map fun i =>
    let x := (i % 5 + 3 * (i / 5)) % 5
    let j := x + 5 * (i % 5)
    rotl (a.getD j 0 ^^^ d.getD x 0) (keccakOffsets.getD j 0)
  let e := (List.range 25).map fun i =>
    b.getD i 0 ^^^ (~~~(b.getD ((i + 1) % 5 + 5 * (i / 5)) 0) &&& b.getD ((i + 2) % 5 + 5 * (i / 5)) 0)
  match e with
  | l :: r => (l ^^^ rc) :: r
  | [] => []

/-- The permutation. -/
def keccak (a : List Word) : List Word := keccakConstants.foldl keccakRound a

/-- The blocks of 136 bytes of a padded message are absorbed, `n` of them. -/
def absorb : Nat → List Word → List Byte → List Word
  | 0, a, _ => a
  | n + 1, a, m =>
    let a := a.zipIdx.map fun (l, i) => if i < 17 then l ^^^ word (numOf (slice m (8 * i) 8)) else l
    absorb n (keccak a) (m.drop 136)

/-- SHAKE256 of bytes, 512 bits of it, the first byte lowest. -/
def shake256 (m : List Byte) : BitVec 512 :=
  let k := m.length / 136 + 1
  let p := m ++ [0x1F] ++ List.replicate (136 * k - m.length - 1) 0
  let p := p.set (136 * k - 1) (p.getD (136 * k - 1) 0 ||| 0x80)
  BitVec.ofNat 512 (((absorb k (List.replicate 25 0) p).take 8).foldr (fun l n => l.toNat + 2 ^ 64 * n) 0)

/-- A shard's digest over bytes 0x00 to 0x3F of its header and its payload (R427). -/
def Shard.digestOf (t : Shard) : BitVec 512 := shake256 (bytesOf t.header 64 ++ t.payload)

/-- A command ends with a status, and its failing address. -/
def negEnd (s : State) (status addr : Nat) : State :=
  { s with neg := { s.neg with status := status, running := none, faddr := BitVec.ofNat 52 addr } }

/-- A command ends with DONE and its arrival (R427, R428): none while that has to wait. -/
def negDone (s : State) : Option State :=
  let s := { s with neg := { s.neg with status := 2, running := none } }
  if s.neg.cmd.donebar.getLsbD 63 then deviceArrive s (bits s.neg.cmd.donebar 3 49 * 8) else some s

/-- CMD SAVE or RESTORE (R425, R426): BUSY with the page's fields as they stand (R307), unless a region of a save ends it at once. -/
def negStart (s : State) (save : Bool) : State :=
  if s.neg.status = 1 then s
  else
    let s := { s with
      neg := { s.neg with status := 1, running := some save, cmd := s.neg.capture s.orders, progress := 0, faddr := 0, nreport := 0,
                          taken := [] }
      orders := s.orders + 1 }
    if !save then s
    else match regionFault [] s.neg.listed with
      | some a => negEnd s 7 a
      | none => if s.neg.nreg = 0 ∨ 16 < s.neg.nreg then negEnd s 7 0 else s

/-- The bytes of a shard in the store: its header and its payload (R427). -/
def Shard.size (t : Shard) : Nat := 128 + t.payload.length

/-- The bytes the store holds: 512 GiB (R1). -/
abbrev storeBytes : Nat := 2 ^ 39

/-- The bytes of some ranges, and the grains of 32 bytes they take. -/
def totalBytes (l : List (Nat × Nat)) : Nat := (l.map (·.2)).sum
def totalGrains (l : List (Nat × Nat)) : Nat := (l.map fun r => (r.2 + 31) / 32).sum

/-- The grain at which the bytes of some ranges go on after the first `k`: its address, and the bytes of it. -/
def nextGrain (l : List (Nat × Nat)) (k : Nat) : Option (Nat × Nat) :=
  match dropRanges l k with
  | (a, n) :: _ => some (a, min n (32 - a % 32))
  | [] => none

/-- The regions listed, as ranges. -/
def NegStore.ranges (n : NegStore) : List (Nat × Nat) := n.listed.map fun r => (regionBase r, regionLen r)

/-- A running save reads the next grain, once, at its home (R306, R427); a poisoned sector ends it. Words an engine is registered
for make it wait. -/
def saveGrain (s : State) : State :=
  if s.neg.running ≠ some true then s
  else match nextGrain s.neg.ranges s.neg.progress.toNat with
    | none => s
    | some (a, n) =>
      if chanHolds s a n || printHolds s a n then s
      else if poisoned s a n then negEnd s 8 (a / 32 * 32)
      else
        let (s, v) := homeRead s a n
        { s with neg := { s.neg with taken := s.neg.taken ++ bytesOf v n, progress := s.neg.progress + word n } }

/-- The shards of a save from the bytes read (R427). -/
def NegStore.newShards (n : NegStore) : List Shard :=
  (List.range n.listed.length).map fun i =>
    let r := n.listed.getD i (0, 0, 0)
    let bs := slice n.taken (totalBytes (n.ranges.take i)) (regionLen r)
    let t : Shard := { job := n.cmd.job, step := n.cmd.step, index := i, count := n.listed.length, form := regionForm r,
                       base := regionBase r, len := regionLen r, payload := payload (regionForm r) bs, digest := 0, complete := true }
    { t with digest := t.digestOf }

/-- SAVE_DONE (R427): the grains that are left are read, and each region is stored as its shard, its header last; a store that
cannot hold the shards (R1) ends the save with nothing complete. -/
def saveDone (s : State) : State :=
  let s := iterate (fun _ s => saveGrain s) (totalGrains s.neg.ranges) 0 s
  if s.neg.running ≠ some true ∨ s.neg.progress.toNat < totalBytes s.neg.ranges then s
  else
    let new := s.neg.newShards
    let keep := s.neg.shards.filter fun t =>
      !(t.job == s.neg.cmd.job && t.step == s.neg.cmd.step && decide (t.index < s.neg.listed.length))
    if storeBytes < ((keep ++ new).map (·.size)).sum then negEnd s 6 0
    else (negDone { s with neg := { s.neg with shards := keep ++ new, taken := [] } }).getD s

/-- The report of a restore lists shards with their steps (R428). -/
def negReport (s : State) (l : List Shard) : State :=
  let l := l.take 64
  { s with neg := { s.neg with
      nreport := l.length
      reports := (List.range l.length).flatMap fun i => match l[i]? with
        | some t => [(2 * i, word (t.index % 2 ^ 16)), (2 * i + 1, t.step)]
        | none => [] } }

/-- The complete shards of the command's job (R428). -/
def NegStore.ofJob (n : NegStore) : List Shard := n.shards.filter fun t => t.job == n.cmd.job && t.complete

/-- How a restore ends if one of its three checks fails (R428). -/
def restoreFails (s : State) : Option State :=
  let l := s.neg.ofJob
  let count := match l with | t :: _ => t.count | [] => 1
  let bad := l.filter fun t => t.digest != t.digestOf
  if l.any fun t => l.any fun u => t.step != u.step then some (negReport (negEnd s 3 0) l)
  else if (List.range count).any fun i => !(l.any fun t => t.index == i) then some (negEnd s 4 0)
  else if !bad.isEmpty then some (negReport (negEnd s 5 0) bad)
  else none

/-- The regions of a restore, as ranges. -/
def NegStore.restored (n : NegStore) : List (Nat × Nat) := n.ofJob.map fun t => (t.base, t.len)

/-- A running restore whose checks pass writes the next grain as an engine at pkg (R428), once no engine is registered there by an
older command (R306). -/
def restoreGrain (s : State) : State :=
  if s.neg.running ≠ some false ∨ (restoreFails s).isSome then s
  else match nextGrain s.neg.restored s.neg.progress.toNat with
    | none => s
    | some (a, n) =>
      if heldBefore s s.neg.cmd.order a n then s
      else
        let bs := slice (s.neg.ofJob.flatMap fun t => unpayload t.form t.len t.payload) s.neg.progress.toNat n
        let s := engineHomeWrite s a n (numOf bs)
        { s with neg := { s.neg with progress := s.neg.progress + word n } }

/-- RESTORE_DONE (R428): the three checks, then what is left of every region is written back. -/
def restoreDone (s : State) : State :=
  if s.neg.running ≠ some false then s
  else match restoreFails s with
    | some t => t
    | none =>
      let s := iterate (fun _ s => restoreGrain s) (totalGrains s.neg.restored) 0 s
      if s.neg.progress.toNat < totalBytes s.neg.restored then s else (negDone s).getD s

/-- CMD ABORT ends a running save or restore (R425). -/
def negAbort (s : State) : State := if s.neg.status = 1 then negEnd s 9 0 else s

/-! ## Stills -/

/-- chan.stat's word of a channel (R274). -/
def chanStatWord (c : Chan) : Word :=
  packW [(c.cmds.length - c.busy.toNat, 0), (c.busy.toNat, 4), (c.faulted.toNat, 5), (c.cancelled.toNat, 6), (c.cause % 256, 8),
    (c.port % 16, 16)]

/-- A print engine's STATUS word (R434). -/
def Print.statusWord (p : Print) : Word := packW [(p.queue.length, 0), (p.busy.toNat, 8), (p.error, 12)]

/-- Pipes of a core at work, by number (R430): each started instruction has the first pipe of each class it needs that its partition
owns and no other has, and the tile engine works while a Detached operation of a tile has started. -/
def busyPipes (s : State) (core : Nat) : Nat :=
  let es := (List.range 4).flatMap fun i => (s.ctx (4 * core + i)).run.map fun e => (4 * core + i, e)
  let used := es.foldl (fun l (q, e) => e.form.op.pipe.sets.foldl (fun l c =>
    match c.find? fun i => pipeOf s q e i && !l.contains i with
    | some i => i :: l
    | none => l) l) []
  maskOf (if (s.core core).tiles.toList.any fun t => t.ops.any (·.started) then 7 :: used else used)

/-- The lines of a home slice that wait for an owner, the host home agent or the host's caches (R430). -/
def busyLines (s : State) (stack slice : Nat) : Nat :=
  let l := s.wbls.map (·.2.1) ++ s.cxl.pendReq.map (·.1) ++ s.cxl.biWait.map (·.1)
  (l.eraseDups.filter fun a => homeStack s a == stack && a / 512 % 8 == slice).length

/-- The words of block `b`'s still after its time, by word offset (R430). Which of a stack's eight home slices serves a device
address the spec does not say: here slice address / 512 mod 8 (DESIGN CHOICE, log entry 72). -/
def stillWords (s : State) (b : Nat) : List (Nat × Word) :=
  if b < 512 then
    ((List.range 4).flatMap fun i =>
      let q := 4 * b + i
      let c := s.ctx q
      let o := 2 + 4 * i
      [(o, contextRead s q 0x008), (o + 1, c.sc.pc), (o + 2, word c.viq.length), (o + 3, c.resume)])
      ++ [(0x20, word (busyPipes s b))]
  else if b < 576 then
    (List.range 64).flatMap fun k =>
      let ch := s.chan (8 * (8 * (b - 512)) + k)
      [(2 + 2 * k, ch.wm), (3 + 2 * k, chanStatWord ch)]
  else if b < 584 then
    let d := b - 576
    let sel := s.selected.find? fun t => match t.seq with | some q => q / 256 == d | none => false
    [(2, word ((sel.map (·.queue)).getD 0)), (3, word ((sel.bind (·.seq)).getD 0)),
      (4, word (s.stages.foldl (fun n t => if t.die = d then n + t.l2 else n) 0))]
  else if b < 648 then
    let src := (b - 584) / 8
    (2, word (busyLines s src ((b - 584) % 8))) :: (List.range 8).map fun d =>
      (3 + d, word (s.idq.filter fun e => e.src == src && e.dst == d && e.addr / 512 % 8 == (b - 584) % 8).length)
  else if b = 648 then [(2, word ((s.ats.filter (·.sent)).length + s.cxl.pendReq.length))]
  else
    let p := get s.prints (b - 649) {}
    [(2, match p.queue with | c :: _ => vget c 0 0 | [] => 0), (3, p.statusWord)]

/-- The times at which the stills latch, once the shutter has fired: each within 200 ns of the fire (R430). -/
def dueStills (s : State) : State :=
  if !s.shutter.fired || !s.shutter.stills.isEmpty || !s.shutter.due.isEmpty then s
  else
    let l := (List.range 657).map fun b => (b, s.shutter.ftime.toNat + Config.freeNat (s.tick + b) % 201)
    { s with shutter := { s.shutter with due := l }, tick := s.tick + 657 }

/-- The stills whose time has come latch with what their units then hold, and record that time (R430). -/
def latchStills (s : State) : State :=
  if s.shutter.due.isEmpty then s
  else
    let (now, later) := s.shutter.due.partition fun x => decide (x.2 ≤ s.time)
    let l := now.flatMap fun (b, t) => (512 * b, word t) :: (stillWords s b).map fun (o, w) => (512 * b + o, w)
    { s with shutter := { s.shutter with stills := s.shutter.stills ++ l, due := later } }

/-- shut when it is performed (R291). -/
def shutPerform (s : State) (q : Nat) : State :=
  if s.shutter.arm.getLsbD 0 && s.shutter.shutpart.getLsbD (s.pnum q) then fireShutter s 1 else s

/-- REARM clears FIRED and every still (R429). -/
def rearm (s : State) : State :=
  { s with shutter := { s.shutter with fired := false, reached := false, stills := [], due := [] } }

/-! ## The board -/

/-- A write of 1 to 0x020 starts a report with the nonce as it stands (R307, R433). -/
def reportStart (s : State) : State := { s with board := { s.board with busy := true, status := 0, asked := s.board.nonce } }

/-- The report (R433): nonce, three measurements, leaf index, signature; a key used up answers KEY_EXHAUSTED (R432). -/
def reportDone (s : State) : State :=
  let b := s.board
  if !b.busy then s
  else if 2 ^ 20 ≤ b.leaf then { s with board := { b with busy := false, status := 2 } }
  else
    let tables := (s.slots.toList.flatMap fun t => t.aattr.toNat :: t.aent.toList.map (·.toNat)).foldl
      (fun n x => 2 ^ 64 * n + x) 0
    let ms := [Config.digest 1 0, Config.digest 2 0, Config.digest 3 tables].flatMap fun d => (List.range 8).map (wordOf d ·)
    let sig := (List.range 353).map fun i => Config.freeWord (s.tick + i)
    let ws := (List.range 4).map (wordOf b.asked ·) ++ ms ++ [word b.leaf] ++ sig
    { s with
      board := { b with busy := false, status := 1, leaf := b.leaf + 1,
                        report := (List.range ws.length).map fun i => (i, ws.getD i 0) }
      tick := s.tick + 353 }

/-- POWERCAP (R435): 1,000 to 3,400 W; timing only. -/
def setPowercap (s : State) (v : Nat) : State :=
  if 1000 ≤ v ∧ v ≤ 3400 then { s with board := { s.board with powercap := v } } else s

/-! ## Print engines -/

/-- A print engine. -/
abbrev State.print (s : State) (e : Nat) : Print := get s.prints e {}

/-- COMMIT queues the staged command, up to 16 (R434). -/
def printCommit (s : State) (e : Nat) : State :=
  let p := s.print e
  if 16 ≤ p.queue.length then s
  else { s with
    prints := put s.prints e { p with queue := p.queue ++ [p.staged], orders := p.orders ++ [s.orders] }
    orders := s.orders + 1 }

/-- The head command of an engine starts once WAITBAR's GENERATION differs, with an acquire at pkg (R434); its read waits for an engine
registered for the word (R306). -/
def printStart (s : State) (e : Nat) : State :=
  let p := s.print e
  match p.queue with
  | [] => s
  | c :: _ =>
    let bar := vget c 5 0
    let gen := bits (word (homeRead s bar.toNat 8).2) 32 16
    if p.busy ∨ (bar ≠ 0 ∧ ((wordsOf bar.toNat 8).any (engineHolds s) ∨ gen = bits (vget c 6 0) 0 16)) then s
    else { flushAll s with prints := put s.prints e { p with busy := true } }

/-- The error a command ends with, before any encoding (R434): 1 FORMAT, 3 LOAD, or 0. Of the two FORMAT comes first, a DESIGN
CHOICE (log entry 88). -/
def printError (p : Print) (c : Vector Word 8) : Nat :=
  let w := bits (vget c 1 0) 32 16 * 8
  let h := bits (vget c 1 0) 48 16 * 8
  let n := bits (vget c 2 0) 8 4
  let big := decide (1920 < w) || decide (1088 < h)
  let others := p.streams.filter fun t => t.1 != n
  if 1 < bits (vget c 0 0) 56 8 ∨ 1 < bits (vget c 2 0) 0 8 then 1
  else if 7680 < w ∨ 4320 < h ∨ 8 ≤ others.length ∨ others.any (·.2) ∨ (big ∧ !others.isEmpty) then 3
  else 0

/-- A command that encodes a picture: its width is not 0, and no error ends it before (R434). -/
def Print.encodes (p : Print) (c : Vector Word 8) : Bool := bits (vget c 1 0) 32 16 != 0 && printError p c == 0

/-- The bitstream of the running command is there after its length, or is made now; what a picture encodes to the spec does not say
(R434). -/
def printOut (s : State) (e : Nat) : State :=
  let p := s.print e
  match p.out with
  | some _ => s
  | none =>
    let bs := Config.bitstream s.tick
    { s with prints := put s.prints e { p with out := some (bytesOf bs.length 8 ++ bs) }, tick := s.tick + 1 }

/-- What the running command of an engine has still to write: nothing where its buffer is too small (R434). -/
def Print.rest (p : Print) (c : Vector Word 8) : List (Nat × Nat) :=
  let n := (p.out.getD []).length
  if (vget c 4 0).toNat < n then [] else dropRanges [((vget c 3 0).toNat, n)] p.mark

/-- A running command writes the next grain of its bitstream, once no engine is registered there by an older command (R306, R434). -/
def printGrain (s : State) (e : Nat) : State :=
  match (s.print e).queue with
  | [] => s
  | c :: _ =>
    if !(s.print e).busy || !(s.print e).encodes c then s
    else
      let s := printOut s e
      let p := s.print e
      match nextGrain (p.rest c) 0 with
      | none => s
      | some (a, n) =>
        if heldBefore s (p.orders.headD 0) a n then s
        else
          let s := engineHomeWrite s a n (numOf (slice (p.out.getD []) p.mark n))
          { s with prints := put s.prints e { p with mark := p.mark + n } }

/-- The command of an engine leaves it (R434): its error, and its stream open or closed. -/
def printEnd (p : Print) (c : Vector Word 8) (r : List (Vector Word 8)) : Print :=
  let n := bits (vget c 2 0) 8 4
  let big := decide (1920 < bits (vget c 1 0) 32 16 * 8) || decide (1088 < bits (vget c 1 0) 48 16 * 8)
  let others := p.streams.filter fun t => t.1 != n
  let err := printError p c
  let p := if bits (vget c 1 0) 32 16 = 0 then { p with streams := others, error := 0 }
    else if err ≠ 0 then { p with error := err }
    else { p with streams := others ++ [(n, big)], error := if (vget c 4 0).toNat < (p.out.getD []).length then 2 else 0 }
  { p with queue := r, orders := p.orders.tail, busy := false, out := none, mark := 0 }

/-- PRINT_DONE (R434): what is left of the bitstream is written, and the command completes and credits DONEBAR, whatever its error; it
waits for engines registered before (R306). -/
def printDone (s : State) (e : Nat) : State :=
  match (s.print e).queue with
  | [] => s
  | c :: r =>
    if !(s.print e).busy then s
    else
      let s := printGrain s e
      let s := iterate (fun _ s => printGrain s e) (totalGrains ((s.print e).rest c) + 1) 0 s
      let p := s.print e
      if p.encodes c && !(p.rest c).isEmpty then s
      else (deviceArrive { s with prints := put s.prints e (printEnd p c r) } (vget c 7 0).toNat).getD s

end Sys2Proof.Machine
end

