-- ==== Sys2Proof/Machine/Ctl.lean ====
section
/-!
DEFINITION. Control space (R330 to R344, R351): what a read of a control word returns and what a write does, page by page;
the validator of protocol tables (R322, R323).
-/
namespace Sys2Proof.Machine

/-! ## Protocol slots (R316, R322, R323) -/

/-- A table entry of a list of entries by state and event. -/
abbrev entAt (t : Vector (BitVec 16) 128) (st ev : Nat) : Nat := (vget t (16 * st + ev) 0).toNat

/-- The attribute byte of a state. -/
abbrev attrAt (a : Word) (st : Nat) : Nat := bits a (8 * st) 8

/-- Action bits an event's class allows (R319). -/
def classActs (ev : Nat) : Nat :=
  if ev < 3 then 0x1FD else if ev < 6 then 0x08A else 0x09A

/-- The lowest item of a list that fails a test. -/
def lowest (l : List Nat) (bad : Nat → Bool) : Option Nat := l.find? bad

/-- All states with all events, in the order of their WHERE values. -/
def allEntries : List Nat := List.range 128

/-- The validator's answer for a staged table: reason and where (R322). -/
def validate (sl : Nat) (draining : Bool) (a : Word) (t : Vector (BitVec 16) 128) : Nat × Nat :=
  let used := fun st => (attrAt a st).testBit 0
  let wr := fun st => (attrAt a st).testBit 1
  let ent := fun i => entAt t (i / 16) (i % 16)
  let act := fun i => ent i / 8 % 512
  let next := fun i => ent i % 8
  let rsvEntry := lowest allEntries fun i =>
    ent i / 2 ^ 12 % 8 != 0 || ((decide (9 ≤ i % 16) || !used (i / 16)) && ent i != 0)
  let rsvAttr := lowest (List.range 8) fun st =>
    decide (3 < attrAt a st) || (st == 0 && (!used 0 || wr 0))
  let live := allEntries.filter fun i => used (i / 16) && decide (i % 16 < 9)
  let incomplete := lowest live fun i => ent i < 2 ^ 15 || !used (next i)
  let noEvict := lowest live fun i => i % 16 == evPURGE && next i != 0
  let multi := lowest live fun i =>
    let st := i / 16
    let ev := i % 16
    (wr (next i) && (decide (ev < 2) || next i != st) && (!(act i).testBit 2 || !(act i).testBit 4))
      || (decide (ev < 2) && wr st && (!(act i).testBit 6 || (!wr (next i) && !(act i).testBit 3)))
      || ((act i).testBit 5 && (wr st || wr (next i)))
  let badClass := lowest live fun i => Nat.land (act i) (511 - classActs (i % 16)) != 0
  if sl = 0 then (1, 0)
  else if draining then (2, 0)
  else match rsvEntry, rsvAttr with
    | some i, _ => (3, i)
    | none, some st => (3, 0x80 + st)
    | none, none => match incomplete, noEvict, multi, badClass with
      | some i, _, _, _ => (4, i)
      | none, some i, _, _ => (5, i)
      | none, none, some i, _ => (6, i)
      | none, none, none, some i => (7, i)
      | none, none, none, none => (0, 0)

/-- LOAD (R322): the staged table is validated and, where accepted, the drain begins. -/
def loadSlot (s : State) (sl : Nat) : State :=
  let t := vget s.slots sl {}
  let (r, w) := validate sl t.draining t.sattr t.sent
  { s with slots := vset s.slots sl { t with reason := r, whereF := w, draining := t.draining || r == 0 } }

/-- SLOT_DRAIN_DONE (R323): every line of the slot is purged under the old table, and the staged one becomes active. -/
def drainDone (s : State) (sl : Nat) : State :=
  let t := vget s.slots sl {}
  if !t.draining then s
  else
    let ls := s.lines.filter fun (_, l) => l.slot == sl
    let s := ls.foldl (fun s (b, l) => (applyEvent (exportLine s b l.grain) b evPURGE none).1) s
    let s := flushAll s
    let s := { s with lines := s.lines.filter fun (_, l) => l.slot != sl }
    let f := (t.sent.toList).any fun e => (entryActs e).testBit 8
    { s with slots := vset s.slots sl { t with
        active := true, draining := false, faulting := f, aattr := t.sattr, aent := t.sent } }

/-! ## Queue pages (R340) -/

/-- A range of device memory lies in a partition's device windows. -/
def rangeInWindows (s : State) (p a n : Nat) : Bool :=
  (List.range ((a % 4096 + n + 4095) / 4096)).all fun i => inWindow (s.part p) 1 0 (a / 4096 + i)

/-- The word at 0x008 of a queue page: CAPACITY changes only while EN is 0; clearing EN cancels the queue's staging, of its tasks
not yet bound and of bound ones still staging (R340, R384). -/
def queueEnable (s : State) (n : Nat) (v : Word) : State :=
  let x := s.queue n
  let cap := if x.en then x.capacity else min 12 (bits v 0 4)
  let s := s.setQueue n { x with capacity := cap, en := v.getLsbD 8 }
  if v.getLsbD 8 then s else cancelStages s fun t => t.queue == n && (t.bound.isNone || t.todo.any (·.left))

/-- A store to HEAD (R340): free while EN is 0, else only past keeper events. -/
def queueHead (s : State) (n : Nat) (v : Word) : State :=
  let x := s.queue n
  let d := (v - x.head).toNat
  if !x.en then s.setQueue n { x with head := v }
  else if d ≠ 0 ∧ d ≤ (x.tail - x.head).toNat
      ∧ (List.range d).all fun i => slotKind (slotRec s n (x.head + word i).toNat) == 0xE0 then
    s.setQueue n { x with head := v }
  else s

/-- A word of a queue page is read (R340). -/
def queueRead (s : State) (n off : Nat) : Word :=
  let x := s.queue n
  if 0x100 ≤ off ∧ off < 0x140 then wordOf x.template ((off - 0x100) / 8)
  else if 0x800 ≤ off then (x.counter ((off - 0x800) / 8)).setWidth 64
  else match off with
    | 0x000 => packW [(bits x.base 12 40, 12)]
    | 0x008 => packW [(x.capacity, 0), (x.en.toNat, 8)]
    | 0x010 => x.head
    | 0x018 => x.tail
    | 0x020 => packW [(x.prio.toNat, 0), (x.cls.toNat, 4), (x.share.toNat, 16)]
    | 0x028 => packW [(x.dlmode.toNat, 0), (x.dloff.toNat, 32)]
    | 0x030 => packW [(x.nextStage.toNat, 0), (x.nsv.toNat, 12)]
    | 0x038 => packW [(x.underflow.toNat, 0), (x.overflow.toNat, 1)]
    | 0x040 => x.charge
    | 0x048 => packW [(x.troot.toNat, 12), (x.tspace.toNat, 48)]
    | 0x050 => x.tkeeper.setWidth 64
    | _ => 0

/-- A word of a queue page is written (R340). -/
def queueWrite (s : State) (n off : Nat) (v : Word) : State :=
  let x := s.queue n
  if 0x100 ≤ off ∧ off < 0x140 then s.setQueue n { x with template := setWordOf x.template ((off - 0x100) / 8) v }
  else if 0x800 ≤ off then s.setQueue n (x.setCounter ((off - 0x800) / 8) (v.setWidth 16))
  else match off with
    | 0x000 =>
      let ok := match s.queueOwner n with
        | some p => rangeInWindows s p (bits v 12 40 * 4096) (128 * x.slots)
        | none => false
      if x.en || !ok then s else s.setQueue n { x with base := v }
    | 0x008 => queueEnable s n v
    | 0x010 => queueHead s n v
    | 0x018 => if x.en then s else s.setQueue n { x with tail := v }
    | 0x020 => s.setQueue n { x with
        prio := v.setWidth 4, cls := (v >>> 4).setWidth 2, share := if (v >>> 16).setWidth 16 = (0 : BitVec 16) then 1
          else (v >>> 16).setWidth 16 }
    | 0x028 => s.setQueue n { x with dlmode := v.setWidth 2, dloff := (v >>> 32).setWidth 32 }
    | 0x030 => s.setQueue n { x with nextStage := v.setWidth 12, nsv := v.getLsbD 12 }
    | 0x038 => s.setQueue n { x with underflow := x.underflow && !v.getLsbD 0, overflow := x.overflow && !v.getLsbD 1 }
    | 0x040 => s.setQueue n { x with charge := v }
    | 0x048 => s.setQueue n { x with troot := (v >>> 12).setWidth 36, tspace := (v >>> 48).setWidth 16 }
    | 0x050 => s.setQueue n { x with tkeeper := v.setWidth 12 }
    | _ => s

/-! ## Core pages (R342, R350) -/

/-- The five ownership fields of a core, by word. -/
def Owners.row (o : Owners) (i : Nat) : List Byte :=
  match i with
  | 0 => o.seq.toList | 1 => o.pipe.toList | 2 => o.tile.toList | 3 => o.film.toList | _ => o.chan.toList

/-- A staged ownership field is written, byte by byte; bits 6:5 are unnamed. -/
def Owners.setRow (o : Owners) (i : Nat) (v : Word) : Owners :=
  let b := fun (j : Nat) => BitVec.ofNat 8 (bits v (8 * j) 8) &&& 0x9F
  match i with
  | 0 => { o with seq := Vector.ofFn fun j => b j.val }
  | 1 => { o with pipe := Vector.ofFn fun j => b j.val }
  | 2 => { o with tile := Vector.ofFn fun j => b j.val }
  | 3 => { o with film := Vector.ofFn fun j => b j.val }
  | _ => { o with chan := Vector.ofFn fun j => b j.val }

/-- Partitions whose ownership in a core a COMMIT changes. -/
def changedParts (a b : Owners) : List Nat :=
  (List.range 5).flatMap fun i => (List.zip (a.row i) (b.row i)).flatMap fun (x, y) =>
    if x = y then [] else (ownerOf x).toList ++ (ownerOf y).toList

/-- COMMIT (R342, R347): the staged fields become the active ones, and the TLBs lose the entries of every partition whose
ownership changes. -/
def coreCommit (s : State) (c : Nat) : State :=
  let x := s.core c
  (changedParts x.active x.staged).foldl dropPartTlb (s.setCore c { x with active := x.staged })

/-- A vector-queue instruction accepted before the COMMIT needs a pipe's class (R350): queued, started, or a Detached operation
its tile, or the command it follows, still holds. -/
def pipeNeeded (s : State) (c i p : Nat) : Bool :=
  let needs := fun (e : VqEntry) => e.pipes.getLsbD i && e.form.op.pipe.sets.any fun l => l.contains i
  let follows := fun (f : Option (VqEntry × List Nat)) => match f with
    | some (e, _) => needs e
    | none => false
  ((List.range 4).any fun k => s.partOfSeq (4 * c + k) == some p && ((s.ctx (4 * c + k)).older.any needs
      || (s.ctx (4 * c + k)).sb.any fun h => match h.op with
        | .copy _ _ _ _ _ f => follows f
        | _ => false))
    || ((s.core c).tiles.toList.any fun t => t.ops.any fun o => s.partOfSeq o.seq == some p && needs o.e)
    || (List.range 8).any fun k => (s.chan (8 * c + k)).cmds.any fun m => m.part == p && follows m.follow

/-- OWNERSHIP_PASS (R350): an item whose owner changed passes to its new owner once it is idle. -/
def passItem (s : State) (c : Nat) (it : OwnItem) : State :=
  let x := s.core c
  let f := x.inForce
  match it with
  | .seq i =>
    let st := (s.ctx (4 * c + i)).state
    if st = .empty ∨ st = .saved then s.setCore c { x with inForce := { f with seq := vset f.seq i (vget x.active.seq i 0) } } else s
  | .pipe i =>
    let busy := match ownerOf (vget f.pipe i 0) with
      | some p => pipeNeeded s c i p
      | none => false
    if busy then s else s.setCore c { x with inForce := { f with pipe := vset f.pipe i (vget x.active.pipe i 0) } }
  | .tile i =>
    if (vget x.tiles i {}).claim.isSome then s
    else s.setCore c { x with inForce := { f with tile := vset f.tile i (vget x.active.tile i 0) } }
  | .film i =>
    if (vget x.films i {}).holder.isSome then s
    else s.setCore c { x with inForce := { f with film := vset f.film i (vget x.active.film i 0) } }
  | .chan i =>
    if !(s.chan (8 * c + i)).cmds.isEmpty then s
    else s.setCore c { x with inForce := { f with chan := vset f.chan i (vget x.active.chan i 0) } }

/-- fstat's word of a film, as its holder reads it (R264). -/
def fstatWord (f : Film) (q : Nat) : Word :=
  if f.holder.isNone then 0
  else packW [(f.ready, 0), (f.cap, 4), (f.fill % f.frameBytes, 8), ((f.holder == some q).toNat, 28), (f.kept.toNat, 29),
    (f.rowb.val, 30), (f.sb.val, 32)]

/-- A tile that a sequencer has claimed is full: no Detached operation of it is outstanding, a follow-on not yet issued included
(R253). -/
def tileFull (s : State) (q t : Nat) : Bool := !tileBusy s q t (s.ctx q).ord

/-- A word of a core page is read (R342). -/
def coreRead' (s : State) (c off : Nat) : Word :=
  let x := s.core c
  let row := fun (o : Owners) (i : Nat) => word (numOf (o.row i))
  if off < 0x28 then row x.staged (off / 8)
  else if 0x100 ≤ off ∧ off < 0x128 then row x.active ((off - 0x100) / 8)
  else if 0x200 ≤ off ∧ off < 0x240 then
    let i := (off - 0x200) / 8
    let t := vget x.tiles i {}
    match t.claim with
    | some q => packW [(1, 0), ((tileFull s q i).toNat, 1), ((tileTag s q i).toNat, 2), (q, 8)]
    | none => 0
  else if 0x240 ≤ off ∧ off < 0x260 then
    let f := vget x.films ((off - 0x240) / 8) {}
    match f.holder with
    | some q => packW [(1, 0), (q, 8), ((fstatWord f q).toNat % 4096, 20), (f.rowb.val, 32), (f.sb.val, 34)]
    | none => 0
  else if 0x280 ≤ off ∧ off < 0x2C0 then ((vget x.wins ((off - 0x280) / 16) {}).words).getD (off % 16 / 8) 0
  else 0

/-- A word of a core page is written (R342). -/
def coreWrite (s : State) (c off : Nat) (v : Word) : State :=
  let x := s.core c
  if off < 0x28 then s.setCore c { x with staged := x.staged.setRow (off / 8) v }
  else if off = 0x0F8 ∧ v.getLsbD 0 then coreCommit s c
  else s

/-! ## Partition, placement and log pages (R343, R344, R351, R370) -/

/-- A write of QBASE and QCOUNT (R343): ignored where it breaks the bound or overlaps another non-root partition's range. -/
def setQueues (s : State) (p : Nat) (v : Word) : State :=
  let b := bits v 0 12
  let n := bits v 16 13
  let x := s.part p
  let meets := p != 0 && n != 0 && s.parts.any fun (i, y) =>
    i != 0 && i != p && y.qcount != 0 && decide (y.qbase < b + n) && decide (b < y.qbase + y.qcount)
  if 4096 < b + n ∨ meets then s else dropPartTlb (s.setPart p { x with qbase := b, qcount := n }) p

/-- A write of a window word (R344, R347). -/
def setWindow (s : State) (p i : Nat) (v : Word) : State :=
  let x := s.part p
  let (a, b) := vget x.windows (i / 2) (0, 0)
  dropPartTlb (s.setPart p { x with windows := vset x.windows (i / 2) (if i % 2 = 0 then (v, b) else (a, v)) }) p

/-- A write of PRINTMASK (R347). -/
def setPrintmask (s : State) (p : Nat) (v : Word) : State :=
  dropPartTlb (s.setPart p { s.part p with printmask := v.setWidth 8 }) p

/-- A word of a partition page is read (R343). -/
def partRead (s : State) (p off : Nat) : Word :=
  let x := s.part p
  if 0x100 ≤ off ∧ off < 0x200 then
    let (a, b) := vget x.windows ((off - 0x100) / 16) (0, 0)
    if off % 16 < 8 then a else b
  else match off with
    | 0x000 => packW [(x.pstate, 0), (x.func, 2)]
    | 0x010 => packW [(x.qbase, 0), (x.qcount, 16)]
    | 0x018 => x.dkeeper.setWidth 64
    | 0x020 => x.l2budget
    | 0x028 => word x.stashbudget
    | 0x030 => word x.lookahead
    | 0x038 => x.urgency
    | 0x040 => x.slice
    | 0x048 => packW [(bits x.savebase 12 40, 12)]
    | 0x050 => x.savesize
    | 0x058 => x.printmask.setWidth 64
    | _ => 0

/-- A word of a partition page is written (R343): a RESET of a partition that is absent does nothing, VF Enable alone making one
active. -/
def partWrite (s : State) (p off : Nat) (v : Word) : State :=
  let x := s.part p
  if 0x100 ≤ off ∧ off < 0x200 then setWindow s p ((off - 0x100) / 8) v
  else match off with
    | 0x008 => if v.getLsbD 0 ∧ x.pstate ≠ 0 then resetPartition s p else s
    | 0x010 => setQueues s p v
    | 0x018 => s.setPart p { x with dkeeper := v.setWidth 12 }
    | 0x020 => s.setPart p { x with l2budget := v }
    | 0x028 => s.setPart p { x with stashbudget := min 768 (bits v 0 10) }
    | 0x030 => s.setPart p { x with lookahead := bits v 0 8 }
    | 0x038 => s.setPart p { x with urgency := v }
    | 0x040 => s.setPart p { x with slice := v }
    | 0x048 => s.setPart p { x with savebase := packW [(bits v 12 40, 12)] }
    | 0x050 => s.setPart p { x with savesize := v }
    | 0x058 => setPrintmask s p v
    | _ => s

/-- A write of PINGRAN and PINSTACK (R351): a pin outside the partition's device windows, or beyond 4,096, is ignored. So is one to a
stack whose DRAM is full (R2), of which R351 says nothing: a DESIGN CHOICE (log entry 65). -/
def pinGranule (s : State) (p : Nat) (v : Word) : State :=
  let g := bits v 21 31
  let x := get s.granules g { stack := bits v 0 3 }
  if v.getLsbD 3 then
    if x.pinned = some p then { s with granules := put s.granules g { x with pinned := none } } else s
  else
    let n := (s.granules.filter fun (i, y) => y.pinned == some p && i != g).length
    let here := (find s.granules g).isSome && x.stack == bits v 0 3
    if !rangeInWindows s p (g * 2 ^ 21) (2 ^ 21) || decide (4096 ≤ n) || !(here || stackRoom s (bits v 0 3)) then s
    else
      let s := flushAll s
      { s with granules := put s.granules g { x with stack := bits v 0 3, pinned := some p } }

/-- A word of a placement page is read and written (R351). -/
def placementRead (s : State) (p off : Nat) : Word :=
  let x := get s.places p {}
  match off with
  | 0x000 => packW [(x.stackMask.toNat, 0), (x.migrate.toNat, 8)]
  | 0x008 => x.clusters
  | 0x018 => word (s.granules.filter fun (_, g) => g.pinned == some p).length
  | _ => 0

def placementWrite (s : State) (p off : Nat) (v : Word) : State :=
  let x := get s.places p {}
  match off with
  | 0x000 => { s with places := put s.places p { x with stackMask := v.setWidth 8, migrate := v.getLsbD 8 } }
  | 0x008 => { s with places := put s.places p { x with clusters := v } }
  | 0x010 => pinGranule s p v
  | _ => s

/-- A word of an error log page is read (R370). -/
def logRead (s : State) (n off : Nat) : Word :=
  let x := s.log n
  if 0x040 ≤ off ∧ off < 0x1000 then
    match find x.entries ((off - 0x40) / 32) with
    | none => 0
    | some e => match (off - 0x40) % 32 / 8 with
      | 0 => packW [(e.kind.toNat, 0), (e.unit.toNat, 8), (e.part.toNat, 16), (e.seq.toNat, 32)]
      | 1 => e.time
      | 2 => e.paddr.setWidth 64
      | _ => e.syndrome
  else match off with
    | 0x000 => x.corrected.setWidth 64
    | 0x008 => x.recovered.setWidth 64
    | 0x010 => x.poisoned.setWidth 64
    | 0x018 => x.discarded.setWidth 64
    | 0x020 => x.lost.setWidth 64
    | 0x028 => word x.next
    | _ => 0

/-- A count of an error log page is written: writing a bit as 1 clears it (R370). -/
def logWrite (s : State) (n off : Nat) (v : Word) : State :=
  let x := s.log n
  let m : BitVec 32 := ~~~(v.setWidth 32)
  let set := fun y => { s with logs := put s.logs n y }
  match off with
  | 0x000 => set { x with corrected := x.corrected &&& m }
  | 0x008 => set { x with recovered := x.recovered &&& m }
  | 0x010 => set { x with poisoned := x.poisoned &&& m }
  | 0x018 => set { x with discarded := x.discarded &&& m }
  | 0x020 => set { x with lost := x.lost &&& m }
  | _ => s

/-! ## Slot, channel and context pages -/

/-- Four table entries as a word. -/
def entWord (t : Vector (BitVec 16) 128) (i : Nat) : Word :=
  packW ((List.range 4).map fun k => ((vget t (4 * i + k) 0).toNat, 16 * k))

/-- A word of a slot page is read (R316): events are 16 to a state, 32 bytes. -/
def slotRead (s : State) (sl off : Nat) : Word :=
  let t := vget s.slots sl {}
  if 0x100 ≤ off ∧ off < 0x200 then entWord t.sent ((off - 0x100) / 8)
  else if 0x200 ≤ off ∧ off < 0x300 then entWord t.aent ((off - 0x200) / 8)
  else match off with
    | 0x000 => packW [(t.reason, 0), (t.active.toNat, 8), (t.draining.toNat, 9), (t.faulting.toNat, 10), (t.whereF, 16)]
    | 0x010 => t.sattr
    | 0x018 => t.aattr
    | _ => 0

/-- A word of a slot page is written (R316). -/
def slotWrite (s : State) (sl off : Nat) (v : Word) : State :=
  let t := vget s.slots sl {}
  if 0x100 ≤ off ∧ off < 0x200 then
    let i := (off - 0x100) / 8
    let e := (List.range 4).foldl (fun e k => vset e (4 * i + k) (BitVec.ofNat 16 (bits v (16 * k) 16))) t.sent
    { s with slots := vset s.slots sl { t with sent := e } }
  else if off = 0x008 then (if v.getLsbD 0 then loadSlot s sl else s)
  else if off = 0x010 then { s with slots := vset s.slots sl { t with sattr := v } }
  else s

/-- CANCEL of a channel (R272). -/
def channelCancel (s : State) (ch : Nat) : State :=
  let (s, _) := cancelChan s ch (fun _ => true) false
  s.setChan ch { s.chan ch with cancelled := true }

/-- A word of a channel page is read and written (R269). -/
def chanRead (s : State) (ch off : Nat) : Word :=
  let c := s.chan ch
  match off with
  | 0x000 => c.wm
  | 0x008 => chanStatWord c
  | 0x010 => c.bar
  | _ => 0

def chanWrite (s : State) (ch off : Nat) (v : Word) : State :=
  match off with
  | 0x010 => s.setChan ch { s.chan ch with bar := v &&& 0x80FFFFFFFFFFFFFF }
  | 0x018 =>
    let s := if v.getLsbD 0 then continueChan s ch else s
    if v.getLsbD 1 then channelCancel s ch else s
  | _ => s

/-- A write of ROOT and SPACE (R339). -/
def setRoot (s : State) (q : Nat) (v : Word) : State :=
  s.setCtx q { s.ctx q with root := (v >>> 12).setWidth 36, space := (v >>> 48).setWidth 16 }

/-- A word of a context page is written by its byte offset in the 32 pages (R332 to R336, R361). -/
noncomputable def contextWrite (s : State) (q off : Nat) (v : Word) : State :=
  let toImage := fun (s : State) => match shownImage s q with
    | some x => if (s.ctx q).state = .saved then putW s (x.base + 0x1000 + off) v else s
    | none => s
  match off with
  | 0x000 => match v.toNat with
    | 1 => ctlStop s q
    | 2 => ctlResume s q
    | 4 => ctlStep s q
    | 8 => ctlDiscard s q
    | _ => s
  | 0x018 => toImage (setRoot s q v)
  | 0x038 => toImage (s.setCtx q { s.ctx q with keeper := v.setWidth 12, kv := v.getLsbD 63 })
  | _ =>
    if off = 0x008 ∨ off = 0x020 ∨ off = 0x028 ∨ off = 0x040 ∨ !(s.ctx q).resting ∨ 0x14000 ≤ off then s
    else
      let t := s.setCtx q ((s.ctx q).setImageWord off v)
      match shownImage s q with
      | some x =>
        if (s.ctx q).state = .saved then
          if 0x1400 ≤ off ∧ off < 0x1800 ∧ !sprWritable ((off - 0x1400) / 8) then s
          else putW t (x.base + 0x1000 + off) (imageWord t q off)
        else t
      | none => t

/-! ## Links, stills, store, board and engines -/

/-- A word of the host link pages is read (R410). -/
def linkRead (s : State) (off : Nat) : Word :=
  let l := s.link
  if 0x2000 ≤ off ∧ off < 0x4000 then (get l.route ((off - 0x2000) / 8) 0).setWidth 64
  else if 0x4000 ≤ off ∧ off < 0x4400 then
    let (a, b, _) := get l.ingress ((off - 0x4000) / 16) (0, 0, 0)
    if off % 16 < 8 then a else b
  else if 0x4800 ≤ off ∧ off < 0x4A00 then (get l.ingress ((off - 0x4800) / 8) (0, 0, 0)).2.2
  else match off with
    | 0x000 => packW [(l.speed, 0), (l.width, 4), (l.flit.toNat, 9), (l.cxl.toNat, 10)]
    | 0x008 => l.bar2base
    | 0x010 => packW [(l.numvf, 0), (l.vfe.toNat, 8)]
    | 0x018 => l.badhost.setWidth 64
    | 0x020 => l.atsinv.setWidth 64
    | 0x028 => word (s.ats.filter fun r => r.isPri && r.sent && r.done.isNone).length
    | 0x030 => l.hcoh.setWidth 64
    | 0x800 => l.devid.setWidth 64
    | 0x808 => l.portup.setWidth 64
    | 0x810 => l.portdis.setWidth 64
    | _ => 0

/-- A word of the host link pages is written (R410). -/
def linkWrite (s : State) (off : Nat) (v : Word) : State :=
  let l := s.link
  let set := fun l => { s with link := l }
  if 0x2000 ≤ off ∧ off < 0x4000 then set { l with route := put l.route ((off - 0x2000) / 8) (v.setWidth 36) }
  else if 0x4000 ≤ off ∧ off < 0x4400 then
    let i := (off - 0x4000) / 16
    let (a, b, c) := get l.ingress i (0, 0, 0)
    let new := if off % 16 < 8 then (v &&& 0x7FFBFF, b, c) else (a, packW [(bits v 12 40, 12)], c)
    set { l with ingress := put l.ingress i new }
  else if 0x4800 ≤ off ∧ off < 0x4A00 then
    let i := (off - 0x4800) / 8
    let (a, b, _) := get l.ingress i (0, 0, 0)
    set { l with ingress := put l.ingress i (a, b, packW [(bits v 12 40, 12)]) }
  else match off with
    | 0x008 => set { l with bar2base := packW [(bits v 30 22, 30)] }
    | 0x018 => set { l with badhost := l.badhost &&& ~~~(v.setWidth 32) }
    | 0x020 => set { l with atsinv := l.atsinv &&& ~~~(v.setWidth 32) }
    | 0x030 => set { l with hcoh := v.setWidth 32 }
    | 0x800 => if l.portup = 0 then set { l with devid := v.setWidth 10 } else s
    | 0x810 => set { l with portdis := v.setWidth 36, portup := l.portup &&& ~~~(v.setWidth 36) }
    | _ => s

/-- FLIPGO (R413, R421, R422): a flip starts over FLIPCNT pages, or is refused by MODE or RANGE, in this order, a DESIGN CHOICE
(log entry 88). -/
def flipGo (s : State) : State :=
  let x := s.cxl
  let a := bits x.flipaddr 12 40
  let n := x.flipcnt.toNat
  let lo := bits x.hdmbase 21 31 * 512
  if x.flipbusy then s
  else if x.mode ≠ 1 then { s with cxl := { x with flipres := 2 } }
  else if a < lo ∨ lo + x.hdmsize.toNat / 4096 < a + n then { s with cxl := { x with flipres := 1 } }
  else { s with cxl := { x with
      flipbusy := true, flipres := 0, flipToHost := x.flipdir, flipPages := (List.range n).map (a + ·) } }

/-- A word of the CXL page is read and written (R413). -/
def cxlRead (s : State) (off : Nat) : Word :=
  let x := s.cxl
  match off with
  | 0x000 => packW [(x.mode, 0), (x.cache.toNat, 8)]
  | 0x008 => x.hdmbase
  | 0x010 => x.hdmsize
  | 0x018 => x.biastab
  | 0x020 => x.flipaddr
  | 0x028 => packW [(x.flipcnt.toNat, 0), (x.flipdir.toNat, 32)]
  | 0x038 => packW [(x.flipbusy.toNat, 0), (x.flipres, 4)]
  | 0x040 => x.biconf.setWidth 64
  | _ => 0

def cxlWrite (s : State) (off : Nat) (v : Word) : State :=
  let x := s.cxl
  match off with
  | 0x008 => if x.mode = 0 then { s with cxl := { x with hdmbase := packW [(bits v 21 31, 21)] } } else s
  | 0x018 => if x.mode = 0 then { s with cxl := { x with biastab := packW [(bits v 12 40, 12)] } } else s
  | 0x020 => { s with cxl := { x with flipaddr := packW [(bits v 12 40, 12)] } }
  | 0x028 => { s with cxl := { x with flipcnt := v.setWidth 32, flipdir := v.getLsbD 32 } }
  | 0x030 => if v.getLsbD 0 then flipGo s else s
  | 0x040 => { s with cxl := { x with biconf := x.biconf &&& ~~~(v.setWidth 32) } }
  | _ => s

/-- A word of the board page is read and written (R433, R435). -/
def boardRead (s : State) (off : Nat) : Word :=
  if off < 0x20 then wordOf s.board.nonce (off / 8)
  else if 0x100 ≤ off then get s.board.report ((off - 0x100) / 8) 0
  else match off with
    | 0x028 => word s.board.status
    | 0x030 => word s.board.powercap
    | _ => 0

def boardWrite (s : State) (off : Nat) (v : Word) : State :=
  if off < 0x20 then { s with board := { s.board with nonce := setWordOf s.board.nonce (off / 8) v } }
  else match off with
    | 0x020 => if v = 1 then reportStart s else s
    | 0x030 => setPowercap s v.toNat
    | _ => s

/-- A word of the shutter page is read and written (R429). -/
def shutterRead (s : State) (off : Nat) : Word :=
  let x := s.shutter
  match off with
  | 0x000 => x.arm.setWidth 64
  | 0x008 => x.shutpart.setWidth 64
  | 0x010 => x.taddr.setWidth 64
  | 0x018 => x.tmask.setWidth 64
  | 0x020 => x.evsel.setWidth 64
  | 0x028 => x.evcount.setWidth 64
  | 0x038 => packW [(x.fired.toNat, 0), (x.source.toNat, 8)]
  | 0x040 => x.ftime
  | _ => 0

def shutterWrite (s : State) (off : Nat) (v : Word) : State :=
  let x := s.shutter
  let set := fun x => { s with shutter := x }
  match off with
  | 0x000 => set { x with arm := v.setWidth 4 }
  | 0x008 => set { x with shutpart := v.setWidth 32 }
  | 0x010 => set { x with taddr := v.setWidth 52 }
  | 0x018 => set { x with tmask := v.setWidth 52 }
  | 0x020 => set { x with evsel := v.setWidth 8 }
  | 0x028 => set { x with evcount := v.setWidth 32, seen := 0 }
  | 0x030 => if v.getLsbD 0 then fireShutter s 4 else s
  | 0x048 => if v.getLsbD 0 then rearm s else s
  | _ => s

/-- A word of the negative store controller page is read and written (R425). -/
def negRead (s : State) (off : Nat) : Word :=
  let n := s.neg
  if 0x100 ≤ off ∧ off < 0x300 then
    let (a, b, c) := get n.regions ((off - 0x100) / 32) (0, 0, 0)
    match off % 32 / 8 with | 0 => a | 1 => b | 2 => c | _ => 0
  else if 0x800 ≤ off ∧ off < 0xC00 then get n.reports ((off - 0x800) / 8) 0
  else match off with
    | 0x008 => word n.status
    | 0x010 => n.job
    | 0x018 => n.step
    | 0x020 => word n.nreg
    | 0x028 => n.progress
    | 0x030 => n.faddr.setWidth 64
    | 0x038 => n.donebar
    | 0x040 => word n.nreport
    | _ => 0

def negWrite (s : State) (off : Nat) (v : Word) : State :=
  let n := s.neg
  let set := fun n => { s with neg := n }
  if 0x100 ≤ off ∧ off < 0x300 then
    let i := (off - 0x100) / 32
    let (a, b, c) := get n.regions i (0, 0, 0)
    let new := match off % 32 / 8 with
      | 0 => (packW [(bits v 5 47, 5)], b, c)
      | 1 => (a, v, c)
      | 2 => (a, b, v &&& 3)
      | _ => (a, b, c)
    set { n with regions := put n.regions i new }
  else match off with
    | 0x000 => match bits v 0 2 with
      | 1 => negStart s true
      | 2 => negStart s false
      | 3 => negAbort s
      | _ => s
    | 0x010 => set { n with job := v }
    | 0x018 => set { n with step := v }
    | 0x020 => set { n with nreg := bits v 0 5 }
    | 0x038 => set { n with donebar := v &&& 0x800FFFFFFFFFFFF8 }
    | _ => s

/-- A word of a print engine page is read and written (R434). -/
def printRead (s : State) (e off : Nat) : Word :=
  if off < 0x40 then vget (s.print e).staged (off / 8) 0 else if off = 0x048 then (s.print e).statusWord else 0

def printWrite (s : State) (e off : Nat) (v : Word) : State :=
  if off < 0x40 then
    let p := s.print e
    { s with prints := put s.prints e { p with staged := vset p.staged (off / 8) v } }
  else if off = 0x040 ∧ v = 1 then printCommit s e
  else s

/-! ## The map (R330) -/

/-- Reading the control word at an 8-byte aligned physical address (R330). -/
def ctlRead (s : State) (pa : Nat) : Word :=
  let o := pa % 2 ^ 44
  match pa / 2 ^ 44 % 16 with
  | 0 => if o / 2 ^ 17 < 2048 then contextRead s (o / 2 ^ 17) (o % 2 ^ 17) else 0
  | 1 => if o / 4096 < 4096 then queueRead s (o / 4096) (o % 4096) else 0
  | 2 => if o / 4096 < 4096 then chanRead s (o / 4096) (o % 4096) else 0
  | 3 => if o / 4096 < 512 then coreRead' s (o / 4096) (o % 4096) else 0
  | 4 => if o / 65536 < 32 then partRead s (o / 65536) (o % 65536) else 0
  | 5 => if o / 4096 < 8 then slotRead s (o / 4096) (o % 4096) else 0
  | 6 => if o < 4096 then shutterRead s o else get s.shutter.stills ((o / 4096 - 1) * 512 + o % 4096 / 8) 0
  | 7 => if o / 4096 < 33 then logRead s (o / 4096) (o % 4096) else 0
  | 8 => if o / 4096 < 32 then placementRead s (o / 4096) (o % 4096) else 0
  | 9 => if o < 0x10000 then linkRead s o else if o / 4096 = 0x10 then cxlRead s (o % 4096)
      else if o / 4096 = 0x20 then boardRead s (o % 4096) else 0
  | 10 => if o / 4096 < 8 then printRead s (o / 4096) (o % 4096) else if o / 4096 = 8 then negRead s (o % 4096) else 0
  | _ => 0

/-- Writing the control word at an 8-byte aligned physical address (R330). -/
noncomputable def ctlWrite (s : State) (pa : Nat) (v : Word) : State :=
  let o := pa % 2 ^ 44
  match pa / 2 ^ 44 % 16 with
  | 0 => if o / 2 ^ 17 < 2048 then contextWrite s (o / 2 ^ 17) (o % 2 ^ 17) v else s
  | 1 => if o / 4096 < 4096 then queueWrite s (o / 4096) (o % 4096) v else s
  | 2 => if o / 4096 < 4096 then chanWrite s (o / 4096) (o % 4096) v else s
  | 3 => if o / 4096 < 512 then coreWrite s (o / 4096) (o % 4096) v else s
  | 4 => if o / 65536 < 32 then partWrite s (o / 65536) (o % 65536) v else s
  | 5 => if o / 4096 < 8 then slotWrite s (o / 4096) (o % 4096) v else s
  | 6 => if o < 4096 then shutterWrite s o v else s
  | 7 => if o / 4096 < 33 then logWrite s (o / 4096) (o % 4096) v else s
  | 8 => if o / 4096 < 32 then placementWrite s (o / 4096) (o % 4096) v else s
  | 9 => if o < 0x10000 then linkWrite s o v else if o / 4096 = 0x10 then cxlWrite s (o % 4096) v
      else if o / 4096 = 0x20 then boardWrite s (o % 4096) v else s
  | 10 => if o / 4096 < 8 then printWrite s (o / 4096) (o % 4096) v else if o / 4096 = 8 then negWrite s (o % 4096) v else s
  | _ => s

/-- A control word whose write is a release at pkg by the writer: CTL of a context, CMD of the negative store (R307,
R425). -/
def releasing (pa : Nat) : Bool :=
  (pa / 2 ^ 44 % 16 == 0 && pa % 2 ^ 17 == 0) || pa == 0xFA00000008000

/-- The STATE word of a context (R333), whose read may be an acquire (R307). -/
def stateWord (pa : Nat) : Bool := pa / 2 ^ 44 % 16 == 0 && pa % 2 ^ 17 == 8

/-- A read of STATE that returns a resting value is an acquire at pkg by the reader (R307). -/
def acquiring (s : State) (pa : Nat) : Bool :=
  stateWord pa && (s.ctx (pa % 2 ^ 44 / 2 ^ 17)).resting

/-- A sequencer reads a control word (R161, R307). -/
def ctlLoad (s : State) (q : Nat) (pa : Nat) : State × Word :=
  let v := ctlRead s pa
  (if acquiring s pa then acquireAt s q 4 else s, v)

/-- A sequencer's write of a control word is performed (R161, R307); what its partition reaches was checked as the store
executed, and a change since then does not stop it (R347, R348). -/
noncomputable def ctlStore (s : State) (q : Nat) (pa : Nat) (v : Word) : Except MErr State := do
  let s ← if releasing pa then releaseAt s q 4 else .ok s
  return ctlWrite s pa v

end Sys2Proof.Machine
end

