-- ==== Sys2Proof/Machine/Held.lean ====
section
/-!
DEFINITION. Held instructions and loads (R16, R18, R163, R302, R390): what each held instruction does when it is performed,
when it may be, the data of a load, and how the scalar side issues either.
-/
namespace Sys2Proof.Machine

/-! ## Places and order -/

/-- Two translated accesses are of the same memory. -/
def Xl.alike (x y : Xl) : Bool := x.host == y.host && x.dev == y.dev && x.ctl == y.ctl

/-- Byte ranges of two translated accesses meet. -/
def Xl.meets (x : Xl) (n : Nat) (y : Xl) (m : Nat) : Bool :=
  x.alike y && decide (x.pa < y.pa + m) && decide (y.pa < x.pa + n)

/-- The bytes a held instruction accesses, if it accesses memory through a translation of its own. -/
def HeldOp.place (o : HeldOp) : Option (Xl × Nat) :=
  match o with
  | .store _ x n _ | .strel _ x n _ _ => some (x, n)
  | .amo _ _ x _ _ _ _ _ => some (x, 8)
  | .cas n _ x _ _ _ _ => some (x, n)
  | .barArr _ x _ _ _ | .barAw _ x _ _ _ => some (x, 8)
  | .cline _ _ x _ => some ({ x with pa := x.pa / 512 * 512 }, 512)
  | _ => none

/-- The address a held access was made at, for xfence (R172). -/
def HeldOp.va (o : HeldOp) : Option Word :=
  match o with
  | .store va _ _ _ | .strel va _ _ _ _ | .amo _ va _ _ _ _ _ _ | .cas _ va _ _ _ _ _ | .barArr va _ _ _ _
  | .barAw va _ _ _ _ | .cline _ va _ _ => some va
  | _ => none

/-- A held instruction that orders every younger access behind it (R166, R170, R172, R179, R274). -/
def HeldOp.acquires (o : HeldOp) : Bool :=
  match o with
  | .amo _ _ _ _ acq _ _ _ => acq
  | .cas .. | .xfence .. | .stash .. | .chanWait .. => true
  | .fence kind _ => kind != 1
  | _ => false

/-- A held instruction that waits for every older element access (R166, R170, R172, R179, R279, R280, R283): the releases,
those control-class stores that release among them (R307), and the engine commands, whose source is no older than any write of
their issuer (R306). -/
def HeldOp.releases (o : HeldOp) : Bool :=
  match o with
  | .strel .. | .cas .. | .fence .. | .xfence .. | .barArr .. | .barAw .. | .stash .. | .enq .. | .depd .. | .tdone | .copy ..
  | .gath .. => true
  | .store _ x _ _ => x.ctl && releasing x.pa
  | .amo _ _ _ _ _ rel _ _ => rel
  | _ => false

/-- The scope a held instruction acquires at (R166, R168, R170, R176, R274). -/
def HeldOp.acquireScope (o : HeldOp) : Option Nat :=
  match o with
  | .amo _ _ _ _ acq _ sc _ => if acq then some sc else none
  | .cas _ _ _ _ _ sc _ => some sc
  | .fence kind sc => if kind = 1 then none else some sc
  | .barAw _ _ _ sc _ => some sc
  | .chanWait .. => some 3
  | _ => none

/-- A held plain store, whose bytes a younger load takes (R163). -/
def HeldOp.isStore (o : HeldOp) : Bool := match o with | .store .. | .strel .. => true | _ => false

/-- An older vector-queue memory form that a scalar access waits for: one with B = 0 (R213), or for a release any
(R166). -/
def Ctx.elementsAhead (c : Ctx) (ord : Nat) (all : Bool) : Bool :=
  c.older.any fun e => decide (e.ord < ord) && e.form.op.isMem && (all || !e.form.op.bBit)

/-- A started older instruction may still raise ARITH, before which nothing younger has an effect (R125): one is pending, or an
enable bit is set. -/
def Ctx.arithAhead (c : Ctx) (ord : Nat) : Bool :=
  (c.runArith.isSome || (c.flags >>> 8) != 0) && c.run.any fun e => decide (e.ord < ord)

/-- The oldest held instruction may be performed (R16, R18, R125, R302): older vector-queue instructions have started and raise
nothing any more, older loads have their data, and the element accesses it is ordered behind are performed. -/
def Ctx.mayPerform (c : Ctx) (h : Held) : Bool :=
  (c.viq.all fun e => decide (h.ord ≤ e.ord)) && (c.loads.all fun l => decide (h.ord ≤ l.ord))
    && !c.elementsAhead h.ord h.op.releases && !c.arithAhead h.ord

/-- The byte at `i` of an access, from the youngest held store older than `ord` that covers it (R163). -/
def heldByte (sb : List Held) (ord : Nat) (x : Xl) (i : Nat) : Option Nat :=
  sb.foldl (fun r h => match h.op with
    | .store _ y n v | .strel _ y n v _ =>
      if h.ord < ord ∧ x.alike y ∧ y.pa ≤ x.pa + i ∧ x.pa + i < y.pa + n then some (v / 256 ^ (x.pa + i - y.pa) % 256) else r
    | _ => r) none

/-- A held fence.rel, behind which a younger scalar access keeps its order with older vector accesses (R213). -/
def Ctx.fenceAhead (c : Ctx) (h : Held) : Bool :=
  match h.op with
  | .fence 1 _ => c.elementsAhead h.ord true
  | _ => false

/-- An access younger than `ord` waits for an older held instruction: an acquiring one, a fence.rel that older element accesses
hold, one that is no store on its bytes, and for control space any (R163, R166, R213, R302, R307). -/
def Ctx.heldAhead (c : Ctx) (ord : Nat) (x : Xl) (n : Nat) : Bool :=
  c.sb.any fun h => decide (h.ord < ord) && (h.op.acquires || c.fenceAhead h || match h.op.place with
    | some (y, m) => (x.ctl && y.ctl) || (!h.op.isStore && x.meets n y m)
    | none => false)

/-- A load that may acquire: ldacq, or a read of a STATE word (R166, R307). -/
def Load.acquires (l : Load) : Bool := l.acq.isSome || (l.x.ctl && stateWord l.x.pa)

/-- An acquire at die or wider is outstanding, which a later fetch follows (R436). -/
def Ctx.acquiring (c : Ctx) : Bool :=
  (c.sb.any fun h => (h.op.acquireScope.getD 0) ≥ 3)
    || c.loads.any fun l => decide (3 ≤ l.acq.getD 0) || (l.acq.isNone && l.acquires)

/-- A read waits for older loads that acquire, meet its bytes or share control space with it. -/
def Ctx.loadsAhead (c : Ctx) (ord : Nat) (x : Xl) (n : Nat) : Bool :=
  c.loads.any fun l => decide (l.ord < ord) && (l.acquires || (x.ctl && l.x.ctl) || x.meets n l.x l.n)

/-- A read of the sequencer may be made now (R302). -/
def Ctx.mayRead (c : Ctx) (ord : Nat) (x : Xl) (n : Nat) : Bool :=
  !c.elementsAhead ord false && !c.heldAhead ord x n && !c.loadsAhead ord x n

/-- The bytes a sequencer reads at a place: those its older held stores cover from them, the others from memory or the
control block (R163). -/
def readHere (s : State) (q ord : Nat) (x : Xl) (n : Nat) : Except MErr (State × Nat) :=
  if x.ctl then let (s, v) := ctlLoad s q x.pa; .ok (s, v.toNat)
  else
    let s := fillPiece s q x
    let hs := (List.range n).map fun i => heldByte (s.ctx q).sb ord x i
    if hs.all (·.isSome) then .ok (s, hs.foldr (fun b m => b.getD 0 + 256 * m) 0)
    else do
      let (s, v) ← accRead s (s.agent q) x n
      return (s, (List.range n).foldl (fun m i => m + 256 ^ i * ((hs.getD i none).getD (v / 256 ^ i % 256))) 0)

/-! ## Cache maintenance (R177) -/

/-- Cores inside a scope of a core, for caches: 0 and 1 the core, 2 its cluster, 3 its die, wider all. -/
def inScope (core sc c : Nat) : Bool :=
  if sc < 2 then c == core else if sc = 2 then c / 8 == core / 8 else if sc = 3 then c / 64 == core / 64 else true

/-- Die points inside a scope. -/
def dieInScope (core sc d : Nat) : Bool := if sc < 3 then false else if sc = 3 then d == coreDie core else true

/-- A word a core is registered for goes to the L2 of its die, and the core keeps a copy (R177). -/
def wordToDie (s : State) (c w : Nat) : Except MErr State := do
  let s := { s with stamp := s.stamp + 1 }
  let old := find s.reg (unitKey c w)
  let s ← dieTake s c w
  return match old, find s.die (unitKey (coreDie c) w) with
    | some r, some (.value v) =>
      { s with reg := put s.reg (unitKey c w) { r with val := v, mask := 15, registered := false, atom := 0, stamp := s.stamp } }
    | _, _ => s

/-- Every dirty copy of a block inside a scope goes to the first level outside it; copies stay valid (R177): words of cores to
the L2 of their die, for scope die words of the L2 to the home, and wider those of the LLC to DRAM. `d` is the die of the
issuer. -/
def cleanBlock (s : State) (core sc a : Nat) : Except MErr State := do
  let cores := (s.reg.filter fun (_, r) => r.registered).map fun (k, _) => (k / 2 ^ 56, k % 2 ^ 56)
  let mine := cores.filter fun (c, w) => inScope core sc c && w / 512 == a / 512
  let s ← mine.foldlM (fun s (c, w) => wordToDie s c w) s
  if sc < 3 then return s
  else
    let bs := (s.lines.map (·.1)).filter fun b => b / 512 == a / 512 || (b ≤ a && a < b + 512)
    let s := bs.foldl (fun s b => match find s.lines b with
      | some l => match l.owner with
        | some d => if dieInScope core sc d then writeBack s b l else s
        | none => s
      | none => s) s
    return if sc < 4 then s
      else
        let s := flushAll (bs.foldl (fun s b => (applyEvent s b evCMO (some (coreDie core))).1) s)
        (blockWords a).foldl cleanLlc s

/-- Every copy of a block inside a scope is discarded without write-back, and words registered to its cores lose their
registration (R177); from scope pkg on the LLC's copies too, so that DRAM's bytes stand. -/
def dropBlock (s : State) (core sc a : Nat) : State :=
  let gone := fun (k : Nat) => inScope core sc (k / 2 ^ 56) && k % 2 ^ 56 / 512 == a / 512
  let reg := s.reg.filter fun (k, _) => !gone k
  let die := s.die.filter fun (k, e) => !(k % 2 ^ 56 / 512 == a / 512 && (match e with
    | .core c => inScope core sc c
    | .value _ => dieInScope core sc (k / 2 ^ 56)))
  let s := { s with reg := reg, die := die }
  if sc < 4 then s else (blockWords a).foldl discardLlc s

/-- The lines of a block whose words the issuer's die owns are written to the home: the L2's copies go to the LLC. -/
def homeBlock (s : State) (core a : Nat) : State :=
  (s.lines.filter fun (b, _) => b / 512 == a / 512).foldl (fun s (b, l) =>
    if l.owner = some (coreDie core) then writeBack s b l else s) s

/-- The 512 bytes of a zeroed block, which stand in the issuer's registry, go to the level that the scope names: they stay for seq
and core, and go to the L2 for clu and die and to the LLC for the wider (R177). -/
def allocBlock (s : State) (core sc a : Nat) : Except MErr State :=
  if sc < 2 then .ok s
  else do
    let s ← placeNow s core a 512
    let s := (blockWords a).foldl (fun s w => giveDie s (coreDie core) w) s
    return if sc < 4 then s else homeBlock s core a

/-- The lines of a block of host memory that a home holds are given back to the host: CLFlush (R412). That an inv and a flush wide
enough to reach the home's copy do so is DEDUCED (log entry 95). -/
def flushHost (s : State) (a : Nat) : State :=
  if hostTag ≤ a then
    { s with cxl := { s.cxl with hostLines := s.cxl.hostLines.filter fun (b, _) => b / 512 != a / 512 } }
  else s

/-- The device's copies of slot-3 peer lines in a block are dropped (R177, R329), at the scopes that reach a die's L2. -/
def dropPeer (s : State) (sc : Nat) (x : Xl) : State :=
  let a := peerKey x.dev x.pa
  if sc < 3 then s else { s with peerCopies := s.peerCopies.filter fun b => !meet b (grainBytes x.grain) a 512 }

/-- A cline at its place (R177): host memory on the plain path is held in no cache and peer memory only in slot 3, whose copies
need no write-back, so there clean does nothing. -/
def cacheOp (s : State) (g : Agent) (form sc : Nat) (x : Xl) : Except MErr State := do
  let x := { x with pa := x.pa / 512 * 512 }
  if form = 3 then
    let (s, t) ← resolve s g x .w
    let s ← writeReady s 512 t
    let s ← writeAt s g 512 0 t
    match t with
    | .line a _ _ _ => allocBlock s g.core sc a
    | _ => return s
  else if x.dev ≠ 0 then return if form = 0 then s else dropPeer s sc x
  else
    let (s, t) ← resolve s g x .r
    match t with
    | .line a _ _ _ =>
      if (blockWords a).any (engineHolds s) then throw (.wait s)
      let s ← if form = 1 then .ok s else cleanBlock s g.core sc a
      return if form = 0 then s else
        let s := dropBlock s g.core sc a
        if sc < 4 then s else flushHost s a
    | _ => return s

/-! ## Translation fences (R171, R172) -/

/-- A TLB unit lies inside a scope of a core (R171). -/
def tlbInScope (core sc : Nat) (t : TlbEntry) : Bool :=
  if sc < 2 then t.level == 0 && t.unit == core
  else if sc = 2 then (t.level == 0 && t.unit / 8 == core / 8) || (t.level == 1 && t.unit == core / 8)
  else if sc = 3 then
    (t.level == 0 && t.unit / 64 == core / 64) || (t.level == 1 && t.unit / 8 == core / 64)
      || (t.level == 2 && t.unit == core / 64)
  else true

/-- The entries an xfence removes (R172): all of the partition, those of a space that are not global, or those of the
current space over an address, global ones included. -/
def xfenceHits (s : State) (q kind : Nat) (arg : Word) (t : TlbEntry) : Bool :=
  t.part == s.pnum q && (match kind with
    | 0 => true
    | 1 => t.space == arg.setWidth 16 && !teG t.entry
    | _ => (teG t.entry || t.space == (s.ctx q).space) && t.va == arg.toNat % 2 ^ 56 / 2 ^ (12 + 9 * t.size))

/-- An address is translated by a cached entry. -/
def TlbEntry.covers (t : TlbEntry) (space : BitVec 16) (va : Word) : Bool :=
  (teG t.entry || t.space == space) && t.va == va.toNat % 2 ^ 56 / 2 ^ (12 + 9 * t.size)

/-- An access of another sequencer of the partition inside the scope, translated through one of the entries, is still
held (R172, R348). A sleeping waita or bar translates anew at each of its reads (R173), so it holds none. -/
def stillHeld (s : State) (q sc : Nat) (ts : List TlbEntry) : Bool :=
  s.seqs.any fun (n, c) => n != q && inScope (q / 4) sc (n / 4) && s.pnum n == s.pnum q
    && ((c.sb.any fun h => match h.op.va with
        | some va => ts.any (·.covers c.space va)
        | none => false)
      || c.loads.any fun l => ts.any (·.covers c.space l.va))

/-- The pieces of the partition's windows inside a scope that lie in the page of a removed entry are written back and dropped
(R172). -/
def dropStale (s : State) (q sc : Nat) (t : TlbEntry) : Except MErr State :=
  (s.cores.filter fun (n, _) => inScope (q / 4) sc n).foldlM (fun s (n, x) =>
    (List.range 4).foldlM (fun s i =>
      let w := vget x.wins i {}
      if w.valid && w.part == t.part && (teG t.entry || t.space == w.space) then
        dropPieces s q n i fun k => (w.base.toNat + 512 * k) / 2 ^ (12 + 9 * t.size) == t.va
      else .ok s) s) s

/-- An entry of the device's cache of host translations that an xfence at sys removes (R171, R172): one of the partition, of the
space it names, or one that an access in the page it names has used or that lies under a removed entry. -/
def xfenceAtc (s : State) (q kind : Nat) (arg : Word) (gone : List TlbEntry) (e : AtcEntry) : Bool :=
  e.fn == fnOf (s.pnum q) && (match kind with
    | 0 => true
    | 1 => e.pasid == arg.toNat % 2 ^ 16
    | _ => e.pasid == (s.ctx q).space.toNat && (e.vas.contains (arg.toNat % 2 ^ 56 / 4096) || gone.any fun t =>
        teH t.entry && decide (teFrame t.entry ≤ e.page) && decide (e.page < teFrame t.entry + 2 ^ (9 * t.size))))

/-- xfence when it is performed (R172); at sys and wider the device's cache of host translations goes too. -/
def xfencePerform (s : State) (q kind sc : Nat) (arg : Word) : Except MErr State := do
  let s ← releaseAt s q sc
  let hit := fun (t : TlbEntry) => tlbInScope (q / 4) sc t && xfenceHits s q kind arg t
  let gone := s.tlb.filter hit
  if stillHeld s q sc gone then throw (.wait s)
  let s ← gone.foldlM (fun s t => dropStale s q sc t) s
  return { s with
    tlb := s.tlb.filter fun t => !hit t
    atc := if 5 ≤ sc then s.atc.filter fun e => !xfenceAtc s q kind arg gone e else s.atc }

/-! ## Stash forms (R178, R179) -/

/-- A window descriptor's reserved bits, for map and for the other forms (R178). -/
def stashBad (form : Nat) (d : Word) : Bool :=
  bits d 2 14 != 0 || bits d 26 6 != 0 || bits d 42 22 != 0
    || (form == 0 && (bits d 32 10 == 0 || decide (768 < bits d 16 10 + bits d 32 10)))

/-- The window a stash.unmap or stash.flush that is granted writes back first (R179). -/
def stashBack (s : State) (q form : Nat) (d : Word) : Except MErr State :=
  let w := bits d 0 2
  let v := vget (s.core (q / 4)).wins w {}
  if stashBad form d || !v.valid || v.part != s.pnum q then .ok s
  else if form = 1 ∧ !v.pinned then dropPieces s q (q / 4) w fun _ => true
  else if form = 2 then v.filled.foldlM (fun s f => pieceBack s q (q / 4) false f.2) s
  else .ok s

/-- A stash form when it is performed: the state and its status (R178, R179). -/
def stashPerform (s : State) (q form : Nat) (base d : Word) : State × Word :=
  let p := s.pnum q
  let w := bits d 0 2
  let x := s.core (q / 4)
  let v := vget x.wins w {}
  let set := fun (v : Win) => s.setCore (q / 4) { x with wins := vset x.wins w v }
  if stashBad form d then (s, 6)
  else if form = 0 then
    let sp := (s.ctx q).space
    match mapStatus s (q / 4) p w (bits d 16 10) (bits d 32 10) base.toNat with
    | 0 => (set { base := base, offset := bits d 16 10, pieces := bits d 32 10, part := p, valid := true, pinned := false,
                  space := sp, byTask := some q, root := (s.ctx q).root }, 0)
    | n => (s, word n)
  else if !v.valid || v.part != p then (s, 2)
  else match form with
    | 1 => if v.pinned then (s, 5) else (set v.unmapped, 0)
    | 3 => (set { v with pinned := true }, 0)
    | 4 => (set { v with pinned := false }, 0)
    | _ => (s, 0)

/-! ## Tiles and films (R257, R264) -/

/-- A Detached operation or a follow-on of a sequencer still has to read a film. -/
def filmReaders (s : State) (q f : Nat) : Bool :=
  let reads := fun (e : VqEntry) => match e.form.op with
    | .tmma | .tmms => e.form.a == f || e.form.b == f
    | _ => false
  ((s.core (q / 4)).tiles.toList.any fun t => t.ops.any fun o => o.seq == q && reads o.e)
    || s.chans.any fun (_, c) => c.cmds.any fun m => m.seq == q && match m.follow with
      | some (e, _) => reads e
      | none => false

/-- A sequencer's commands to a film's port stand on some channel of its core. -/
def filmCommands (s : State) (q f : Nat) : Bool :=
  s.chans.any fun (n, c) => chanCore n == q / 4 && c.cmds.any fun m => m.seq == q && m.film && m.port == f

/-- Film `f` of a core becomes `x`. -/
def setFilm (s : State) (core f : Nat) (x : Film) : State :=
  s.setCore core { s.core core with films := vset (s.core core).films f x }

/-- A tile as tclaim leaves it (R257). -/
def claimedTile (q : Nat) : Tile := { acc := 0, tag := 0x11, claim := some q, gathered := 0, ops := [] }

/-- A film as fopen leaves it (R255, R264). -/
def openedFilm (q : Nat) (w : Word) : Film :=
  { holder := some q, rowb := Fin.ofNat 4 (bits w 0 2), sb := Fin.ofNat 4 (bits w 2 2) }

/-! ## Copies and channels -/

/-- The command of a cpy or cpy.m (R265, R267). -/
def copyCmd (s : State) (q ch port : Nat) (src dst shape : Word) (follow : Option (VqEntry × List Nat)) : Cmd :=
  let c := s.ctx q
  { kind := if follow.isSome then 2 else 1, seq := q, part := s.pnum q, port := port, src := src, dst := dst,
    rows := bits shape 0 16, rowb := bits shape 16 16, stride := sextBits 32 (shape >>> 32), bar := (s.chan ch).bar,
    root := c.root, space := c.space, follow := follow }

/-- The command of a gath (R273): `idx` holds its element addresses. -/
def gathCmd (s : State) (q ch : Nat) (base : Word) (idx : List Nat) (dst : Word) (kd : Nat) : Cmd :=
  let c := s.ctx q
  { kind := 3, seq := q, part := s.pnum q, port := 0, src := base, dst := word (bits dst 0 56), rows := 0, rowb := 0,
    stride := 0, bar := (s.chan ch).bar, root := c.root, space := c.space, kd := kd, esz := 2 ^ bits dst 56 2, idx := idx }

/-- The duplicate mask of a gather's addresses (R273). -/
def dupMask (idx : List Nat) (old : BitVec 8192) : BitVec 8192 :=
  (List.range idx.length).foldl (fun k i => setBit k i ((idx.take i).contains (idx.getD i 0))) old

/-- A faulted channel stops the sequencer that waits for it (R271). -/
def chanStop (s : State) (ch : Nat) (pc : Word) : Trap :=
  let c := s.chan ch
  classB c.cause c.sub c.faultAddr pc

/-- A faulted channel that holds a command of a sequencer, be it the faulted one or one that waits behind it (R271, R283). -/
def faultedOf (s : State) (q : Nat) : Option Nat :=
  (s.chans.find? fun (_, c) => c.faulted && c.cmds.any (·.seq == q)).map (·.1)

/-- A prefetch brings its block to the die point where it can (pref.l2), or fills the piece of a window it lies in
(pref.stash), and leaves nothing otherwise; the LLC is part of the home (R180). -/
def prefetch (s : State) (q level : Nat) (x : Xl) : State :=
  match level, slotCheck s x, cachedAt s q x with
  | 0, .ok (), some a => (blockWords a).foldl (fun s w => match dieRead s (coreDie (q / 4)) w x.grain x.slot with
      | .ok (t, _) => t
      | .error _ => s) s
  | 2, .ok (), some _ => fillPiece s q x
  | _, _, _ => s

/-! ## Performing -/

/-- The pairs of destinations and values of a result of `n` bytes: one register, or an even pair. -/
def results (d n v : Nat) : List (Nat × Word) :=
  if n = 16 then [(d, word v), (d + 1, word (v / 2 ^ 64))] else [(d, word v)]

/-- An ldp or stp through an entry with H set or a nonzero DEV: two accesses of 8 bytes, the low word first (R162). -/
def farPair (x : Xl) (n : Nat) : Bool := n == 16 && (x.host || x.dev != 0)

/-- The second of those accesses. -/
def Xl.high (x : Xl) : Xl := { x with pa := x.pa + 8, va := x.va + 8 }

/-- A store when it is performed (R161, R299 step 3). -/
noncomputable def storePerform (s : State) (q : Nat) (x : Xl) (n v : Nat) : Except MErr State :=
  if x.ctl then ctlStore s q x.pa (word v)
  else if farPair x n then do
    let s ← accWrite s (s.agent q) x 8 (v % 2 ^ 64)
    accWrite s (s.agent q) x.high 8 (v / 2 ^ 64)
  else accWrite (fillPiece s q x) (s.agent q) x n v

/-- An amo when it is performed (R166, R167, R169): the state and the old value. -/
def amoPerform (s : State) (q : Nat) (o : AmoOp) (x : Xl) (v : Word) (acq rel : Bool) (sc : Nat) :
    Except MErr (State × Nat) := do
  let s ← if rel then releaseAt s q sc else .ok s
  let (s, old) ← accUpdate s (s.agent q) x 8 sc o.hostAtom fun old => some (amoResult o 8 old v.toNat)
  return (if acq then acquireAt s q sc else s, old)

/-- A cas when it is performed (R168, R169): one that fails performs only its acquire. -/
def casPerform (s : State) (q n : Nat) (x : Xl) (exp new sc : Nat) : Except MErr (State × Nat) := do
  let f := fun (old : Nat) => if old = exp then some new else none
  let (t, old) ← accUpdate s (s.agent q) x n sc .op f
  if old ≠ exp then return (acquireAt t q sc, old)
  else do
    let s ← releaseAt s q sc
    let (s, old) ← accUpdate s (s.agent q) x n sc .op f
    return (acquireAt s q sc, old)

/-- A fence when it is performed (R170, R304, R305): kinds 1, 2 and 3 release, and 0, 2 and 3 acquire. Before an acquire the core's
words are registered at the die, so that no read made before it took a value the die's other cores see later. -/
def fencePerform (s : State) (q kind sc : Nat) : Except MErr State := do
  let s ← if kind = 0 then .ok s else releaseAt s q sc
  if kind = 1 then return s
  else do
    let s ← registerAll s (q / 4)
    return acquireAt s q sc

/-- An arrival at a barrier word when it is performed (R176): a release, then the update; the word before it is given. -/
def arrivePerform (s : State) (q : Nat) (x : Xl) (amt sc : Nat) : Except MErr (State × Nat) := do
  let s ← releaseAt s q sc
  accUpdate s (s.agent q) x 8 sc .bar fun w => arriveWord w amt

/-- What a held instruction does when it is performed, and the values its destinations receive. The trap or wait stands at
the instruction. -/
noncomputable def perform (s : State) (q : Nat) (h : Held) : Except Stop (State × List (Nat × Word)) :=
  let pc := h.ipc
  let none_ := fun (m : Except Stop State) => (do return (← m, []) : Except Stop (State × List (Nat × Word)))
  match h.op with
  | .store va x n v => none_ (liftB va pc (storePerform s q x n v))
  | .strel va x n v sc => none_ do
    let s ← liftB va pc (releaseAt s q sc)
    liftB va pc (storePerform s q x n v)
  | .amo o va x v acq rel sc d => do
    let (s, old) ← liftB va pc (amoPerform s q o x v acq rel sc)
    return (s, [(d, word old)])
  | .cas n va x exp new sc d => do
    let (s, old) ← liftB va pc (casPerform s q n x exp new sc)
    return (s, results d n old)
  | .fence kind sc => none_ (liftB 0 pc (fencePerform s q kind sc))
  | .xfence kind arg sc => none_ (liftB arg pc (xfencePerform s q kind sc arg))
  | .barArr va x amt sc d => do
    let (s, w) ← liftB va pc (arrivePerform s q x amt.toNat sc)
    return (s, [(d, word w)])
  | .barAw va x amt sc d => do
    let (s, w) ← liftB va pc (arrivePerform s q x amt.toNat sc)
    let gen := BitVec.ofNat 16 (w / 2 ^ 32)
    return (s.setCtx q { s.ctx q with wait := some (.bar d va x gen sc true) }, [])
  | .cline form va x sc => none_ (liftB va pc (cacheOp s (s.agent q) form sc x))
  | .stash form base desc d => do
    let s ← liftB base pc (releaseAt s q 1)
    let s ← liftB base pc (stashBack s q form desc)
    let (s, v) := stashPerform s q form base desc
    return (acquireAt s q 1, [(d, v)])
  | .pref level _ x => .ok (match x with
    | some x => prefetch s q level x
    | none => s, [])
  | .tclaim t =>
    let tl := vget (s.core (q / 4)).tiles t {}
    if tl.claim = some q then .ok (s, [])
    else if tl.claim.isSome then .error (.wait s)
    else .ok (setTile s (q / 4) t (claimedTile q), [])
  | .trel t =>
    let tl := vget (s.core (q / 4)).tiles t {}
    if tileBusy s q t h.ord ∨ tileAhead s q t h.ord then .error (.wait s)
    else .ok (setTile (giveFlags s (q / 4) t) (q / 4) t tl.released, [])
  | .fopen f w =>
    let fl := vget (s.core (q / 4)).films f {}
    if fl.holder.isSome ∧ fl.holder ≠ some q then .error (.wait s)
    else if fl.holder = some q ∧ (filmReaders s q f ∨ filmCommands s q f) then .error (.wait s)
    else .ok (setFilm s (q / 4) f (openedFilm q w), [])
  | .fclose f =>
    if filmReaders s q f ∨ filmCommands s q f then .error (.wait s)
    else .ok (setFilm s (q / 4) f (vget (s.core (q / 4)).films f {}).closed, [])
  | .fdrop f =>
    if filmReaders s q f then .error (.wait s)
    else .ok (setFilm s (q / 4) f (vget (s.core (q / 4)).films f {}).pop, [])
  | .fstat f d => .ok (s, [(d, fstatWord (vget (s.core (q / 4)).films f {}) q)])
  | .copy ch port src dst shape follow =>
    if 8 ≤ (s.chan ch).cmds.length then .error (.wait s)
    else none_ do
      let s ← liftB src pc (registerAll s (q / 4))
      liftB src pc (enterChannel s ch (copyCmd s q ch port src dst shape follow) true)
  | .gath ch base idx dst kd =>
    if 8 ≤ (s.chan ch).cmds.length ∨ (s.ctx q).run.any (fun e => e.roles.ks.any fun k => k.1 == kd) then .error (.wait s)
    else none_ do
      let s ← liftB base pc (registerAll s (q / 4))
      let s ← liftB base pc (enterChannel s ch (gathCmd s q ch base idx dst kd) true)
      return s.setCtx q ((s.ctx q).setK kd (dupMask idx (vget (s.ctx q).k kd 0)))
  | .chanWm ch d => .ok (s, [(d, (s.chan ch).wm)])
  | .chanWait ch before =>
    let n := before.getD s.orders
    let c := s.chan ch
    if !(c.cmds.any fun m => decide (m.order < n)) then .ok (acquireAt s q 3, [])
    else if c.faulted then .error (.trap (chanStop s ch pc))
    else .error (.wait s)
  | .chanCancel ch => .ok (channelCancel s ch, [])
  | .chanStat ch d => .ok (s, [(d, chanStatWord (s.chan ch))])
  | .enq launch qu rec d => do
    let (s, v) ← enqPerform s q pc launch qu rec
    return (s, [(d, v)])
  | .depd qu ctr amt => none_ (depdPerform s q pc (h.word.setWidth 64) qu ctr amt)
  | .tdone =>
    match faultedOf s q with
    | some ch => .error (.trap (chanStop s ch pc))
    | none => if tdoneReady s q h.ord ∧ (s.ctx q).divs.isEmpty then none_ (tdonePerform s q pc) else .error (.wait s)
  | .shut => .ok (shutPerform s q, [])

/-- The part of a held instruction that is performed next, and what is left of it: of an stp to host or peer memory the low word,
then the high one (R162). -/
def Held.halves (h : Held) : Held × Option Held :=
  match h.op with
  | .store va x n v =>
    if farPair x n then ({ h with op := .store va x 8 (v % 2 ^ 64) }, some { h with op := .store (va + 8) x.high 8 (v / 2 ^ 64) })
    else (h, none)
  | _ => (h, none)

/-- HELD_PERFORM (R16, R18): the oldest held instruction is performed if it may be. A fault waits until the started older
vector-queue instructions have completed (R17). -/
noncomputable def heldStep (s : State) (q : Nat) : Except Stop State :=
  let c := s.ctx q
  match c.sb with
  | [] => .ok s
  | h :: r =>
    if !c.mayPerform h then .error (.wait s)
    else
      let keep := fun (t : State) => match h.op with
        | .chanWait ch none => t.setCtx q { t.ctx q with sb := { h with op := .chanWait ch (some s.orders) } :: r }
        | _ => t
      let (h, more) := h.halves
      match perform s q h with
      | .ok (t, rs) =>
        let d := { t.ctx q with sb := more.toList ++ (t.ctx q).sb.drop 1 }
        .ok (t.setCtx q (rs.foldl (fun d (r, x) => d.deliver r x h.ord) d))
      | .error (.wait t) => .error (.wait (keep t))
      | .error (.trap t left) =>
        if c.run.isEmpty then .error (.trap { t with late := true, tepc := h.ipc } left) else .error (.wait s)

/-! ## Loads (R164, R166) and probes (R293) -/

/-- The outcome word of a probe (R293). -/
def outcomeWord (fail : Nat) (e : Option (Word × Nat)) (pa : Nat) : Word :=
  match e with
  | some (t, size) => packW [((fail == 0).toNat, 0), (fail, 1), (size, 4), ((teR t).toNat, 6), ((teW t).toNat, 7),
      ((teX t).toNat, 8), ((teC t).toNat, 9), ((teH t).toNat, 10), ((teG t).toNat, 11), (pa / 4096 % 2 ^ 40, 12),
      (teSlot t, 52), (teGrain t, 55), ((teDev t != 0).toNat, 57)]
  | none => packW [(fail, 1), (3, 4)]

/-- A probe translates and reports (R293): a walk that meets an uncorrectable table entry finds no valid leaf. -/
def probeWord (s : State) (q kind : Nat) (va : Word) : Except MErr (State × Word) :=
  let c := s.ctx q
  let need : Need := match kind with | 0 => .r | 1 => .w | 2 => .x | _ => .any
  if va.toNat / 2 ^ 56 ≠ 0 then .ok (s, outcomeWord 1 none 0)
  else match lookup s (q / 4) (s.pnum q) c.root.toNat c.space va need with
    | .error (.wait s) => .error (.wait s)
    | .error (.stop ..) => .ok (s, outcomeWord 2 none 0)
    | .ok (s, f) => match f.fail with
      | none => .ok (s, outcomeWord 0 f.entry f.pa)
      | some 0x21 => .ok (s, outcomeWord 3 f.entry f.pa)
      | some 0x22 => .ok (s, outcomeWord 4 f.entry f.pa)
      | some _ => .ok (s, outcomeWord 2 none 0)

/-- The read of an acquire (R300, R305): at seq before step 7, wider after it; the core's own words are registered at the die point
first, so that it takes no value there that the die's other cores see later. -/
def acquireRead (s : State) (q ord : Nat) (x : Xl) (n sc : Nat) : Except MErr (State × Nat) := do
  let s ← match cachedAt s q x with
    | some a => registerWords s (q / 4) (wordsOf a n)
    | none => .ok s
  if sc = 0 then
    let (s, v) ← readHere s q ord x n
    return (acquireAt s q sc, v)
  else readHere (acquireAt s q sc) q ord x n

/-- The data of a load of `n` bytes: its destinations and their values; an acquire is performed with it. -/
def accessData (s : State) (q : Nat) (l : Load) : Except MErr (State × List (Nat × Word)) := do
  let (s, v) ← match l.acq with
    | some sc => acquireRead s q l.ord l.x l.n sc
    | none => readHere s q l.ord l.x l.n
  return (s, if l.pair then results l.d 16 v
    else [(l.d, if l.sign then sextBits (8 * l.n) (word v) else word v)])

/-- What an outstanding load returns, or a probe, whose walk is over (R163, R293). -/
def loadData (s : State) (q : Nat) (l : Load) : Except MErr (State × List (Nat × Word)) :=
  match l.probe with
  | none => accessData s q l
  | some k => (probeWord s q k l.va).map fun r => (r.1, [(l.d, r.2)])

/-- An acquire at clu or wider reads the die point, so it waits for the sequencer's own older store of its bytes (R300). -/
def Ctx.ownAhead (c : Ctx) (ord : Nat) (x : Xl) (n sc : Nat) : Bool :=
  decide (2 ≤ sc) && c.sb.any fun h => decide (h.ord < ord) && match h.op.place with
    | some (y, m) => x.meets n y m
    | none => false

/-- A load that acquires waits so. -/
def Ctx.acquireWaits (c : Ctx) (l : Load) : Bool :=
  match l.acq with
  | some sc => c.ownAhead l.ord l.x l.n sc
  | none => false

/-- The part of a load that is read next, and what is left of it: of an ldp from host or peer memory the low word, then the high
one (R162). -/
def Load.halves (l : Load) : Load × Option Load :=
  if farPair l.x l.n then
    ({ l with n := 8, pair := false }, some { l with d := l.d + 1, va := l.va + 8, x := l.x.high, n := 8, pair := false })
  else (l, none)

/-- LOAD_RETURN (R163): outstanding load `i` takes its data and fills its destinations. A fault is taken once every older
instruction has been performed (R18). -/
def loadStep (s : State) (q i : Nat) : Except Stop State :=
  let c := s.ctx q
  match c.loads[i]? with
  | none => .ok s
  | some l =>
    if l.probe.isNone && (!c.mayRead l.ord l.x l.n || c.acquireWaits l) then .error (.wait s)
    else
      let (l, more) := l.halves
      match liftB l.va l.ipc (loadData s q l) with
      | .ok (t, rs) =>
        let d := { t.ctx q with loads := (t.ctx q).loads.take i ++ more.toList ++ (t.ctx q).loads.drop (i + 1) }
        .ok (t.setCtx q (rs.foldl (fun d (r, x) => d.deliver r x l.ord) d))
      | .error (.wait t) => .error (.wait t)
      | .error (.trap t _) =>
        if c.run.isEmpty && (c.viq.all fun e => decide (l.ord ≤ e.ord)) && c.clearBefore l.ord then
          .error (.trap { t with late := true, tepc := l.ipc })
        else .error (.wait s)

/-! ## Issue by the scalar side -/

/-- The destinations are free for their producers (R32). -/
def freeDests (s : State) (ds : List Nat) : Except Stop Unit := ds.forM fun d => freeDest s d

/-- Results enter their destinations at once: in lane mode the lane's slots. -/
def putAll (c : Ctx) (rs : List (Nat × Word)) : Ctx := rs.foldl (fun c (r, x) => c.put r x) c

/-- A lane thread's store that the store buffer holds, where other lanes may read it (R302): a plain one that nothing can refuse
once it has executed, on a sequencer that runs ahead. -/
def laneHolds (s : State) (op : HeldOp) : Bool :=
  s.runAhead && !s.c.stepping && match op with
    | .store _ x _ _ => match cachedAt s s.cur x with
      | some a => !atOnce s a x.slot
      | none => false
    | _ => false

/-- A held instruction executes (R16, R163): it enters the store buffer with its destinations marked empty; in lockstep it
is performed in the same step if it can be, and in lane mode before the turn passes, but for the stores of `laneHolds`, which the
others follow. `move` is how the scalar side goes on. -/
noncomputable def hold (s : State) (op : HeldOp) (w : Nat) (ds : List Nat) (move : Ctx → Ctx := Ctx.advance) :
    Except Stop State := do
  freeDests s ds
  let q := s.cur
  let c := s.c
  let h : Held := { op := op, ipc := c.at, word := BitVec.ofNat 32 w, snap := c.sc, ord := c.ord }
  if c.laneOn && laneHolds s op then
    if 16 ≤ c.sb.length then throw (.wait s) else return s.withC ({ c with sb := c.sb ++ [h] } : Ctx).advance
  else if c.laneOn then
    if !c.sb.isEmpty then throw (.wait s)
    let (s, rs) ← perform s q h
    return s.withC (putAll s.c rs).advance
  else if 16 ≤ c.sb.length then throw (.wait s)
  else
    let lock := s.lockstep
    let c := ds.foldl (fun c d => c.empty d) { c with sb := c.sb ++ [h] }
    let s := s.withC (move c)
    return if lock then backEnd s q heldStep else s

/-- A load executes (R163): its data returns at once in lockstep and in lane mode, where one that acquires follows the lanes' held
stores. -/
def issueLoad (s : State) (l : Load) (ds : List Nat) : Except Stop State := do
  freeDests s ds
  let q := s.cur
  let c := s.c
  if c.laneOn then
    if l.acq.isSome && !c.sb.isEmpty then throw (.wait s)
    let (s, rs) ← liftB l.va l.ipc (loadData s q l)
    return s.withC (putAll s.c rs).advance
  else
    let lock := s.lockstep
    let c := ds.foldl (fun c d => c.empty d) { c with loads := c.loads ++ [l] }
    let s := s.withC c.advance
    return if lock then backEnd s q fun s q => loadStep s q 0 else s

/-- An xfence is held, which younger translations wait for (R172). -/
def Ctx.xfenceHeld (c : Ctx) : Bool := c.sb.any fun h => match h.op with
  | .xfence .. => true
  | _ => false

/-- The translation of an access of the instruction at `pc`, with the check of a control-class leaf (R160, R161). -/
def accessPlace (s : State) (q : Nat) (pc va : Word) (need : Need) (ctlOk : Bool) : Except Stop (State × Xl) := do
  if (s.ctx q).xfenceHeld then throw (.wait s)
  let (s, x) ← liftB va pc (translate s q va need)
  if x.ctl && (!ctlOk || (need == .w && reach s (s.pnum q) x.pa != some true)) then
    throw (.trap (classB cCONTROL_VIOLATION 0 va pc))
  return (s, x)

/-- The checks of a scalar access in the order of R160, and its translation. -/
def scalarAccess (s : State) (va : Word) (n : Nat) (need : Need) (ctlOk : Bool) : Except Stop (State × Xl) := do
  let pc := s.pc
  if va.toNat % n ≠ 0 then throw (.trap (classA cMISALIGNED 0 va pc))
  accessPlace s s.cur pc va need ctlOk

end Sys2Proof.Machine
end

