-- ==== Sys2Proof/Machine/ScalarMem.lean ====
section
/-!
DEFINITION. The scalar memory, atomic and synchronisation forms (R160 to R180): their operands and checks, and what they
hand to the store buffer, the outstanding loads, or a sleep.
-/
namespace Sys2Proof.Machine

/-! ## Loads, stores and atomics -/

/-- A load as it enters the outstanding ones. -/
def newLoad (s : State) (w d : Nat) (va : Word) (p : Xl) (n : Nat) (sign pair : Bool) (acq : Option Nat) : Load :=
  { d := d, va := va, x := p, n := n, sign := sign, pair := pair, acq := acq, ipc := s.pc, word := BitVec.ofNat 32 w,
    snap := s.c.sc, ord := s.c.ord }

/-- A plain load of `n` bytes (R164). -/
def plainLoad (w : Nat) (x : LdSt) (n : Nat) (sign : Bool) (s : State) : Out := settle s do
  let b ← readS s x.a.val x.e w
  let va := b + immWord x.off * word n
  let (s, p) ← scalarAccess s va n .r (n == 8)
  issueLoad s (newLoad s w x.t.val va p n sign false none) [x.t.val]

/-- A plain store of `n` bytes (R164). -/
noncomputable def plainStore (w : Nat) (x : LdSt) (n : Nat) (s : State) : Out := settle s do
  let b ← readS s x.a.val x.e w
  let v ← readS s x.t.val x.e w
  let va := b + immWord x.off * word n
  let (s, p) ← scalarAccess s va n .w (n == 8)
  hold s (.store va p n (v.toNat % 2 ^ (8 * n))) w []

/-- An amo (R167). -/
noncomputable def atomic (w : Nat) (x : AmoF) (o : AmoOp) (s : State) : Out := settle s do
  let a ← readS s x.a.val x.e w
  let b ← readS s x.b.val x.e w
  let (s, p) ← scalarAccess s a 8 .rw false
  hold s (.amo o a p b x.acq x.rel x.sc.val x.d.val) w [x.d.val]

/-- A scalar register, or for 16 bytes an even pair with its low half in the even register (R168). -/
def readPair (s : State) (r n : Nat) (e : Bool) (w : Nat) : Except Stop Nat := do
  let lo ← readS s r e w
  let hi ← if n = 16 then readS s (r + 1) e w else .ok 0
  return lo.toNat + 2 ^ 64 * hi.toNat

/-- cas and cas.q (R168). -/
noncomputable def compareSwap (w : Nat) (x : CasF) (n : Nat) (s : State) : Out := settle s do
  let a ← readS s x.a.val x.e w
  let b ← readPair s x.b.val n x.e w
  let c ← readPair s x.c.val n x.e w
  let (s, p) ← scalarAccess s a n .rw false
  hold s (.cas n a p b c x.sc.val x.d.val) w (if n = 16 then [x.d.val, x.d.val + 1] else [x.d.val])

/-! ## Sleeping (R173, R174, R176) -/

/-- The limit of a waita has passed (R173). -/
def pastLimit (s : State) (limit : Option Nat) : Bool :=
  match limit with
  | some t => decide (t ≤ s.time)
  | none => false

/-- A condition of waita (R173). -/
def waitaCond (k : Nat) (x y : Word) : Bool :=
  match k with
  | 0 => x == y
  | 1 => x != y
  | 2 => !x.slt y
  | _ => !x.ult y

/-- The result of a sleep: it ends, its destination fills, and the scalar side moves on. -/
def Ctx.awake (c : Ctx) (d : Nat) (x : Word) : Ctx := ({ c with wait := none }.fill d x).advance

/-- The core of a sequencer keeps no copy of the word that it watches, so that the read which follows asks the die point, and for a
coherent host line the host (R174, R417). -/
def watchAnew (s : State) (q : Nat) (x : Xl) : State :=
  match cachedAt s q x with
  | some a => (wordsOf a 8).foldl (fun s w => match find s.reg (unitKey (q / 4) w) with
      | some r => if r.registered then s else { s with reg := del s.reg (unitKey (q / 4) w) }
      | none => s) s
  | none => s

/-- One read of a sleeping waita (R173), which translates anew: the sleep ends when the condition holds or the limit has passed. -/
def waitaRead (s : State) (q : Nat) : Except Stop State :=
  let c := s.ctx q
  match c.wait with
  | some (.waita d k va _ cmp limit) => do
    let (s, x) ← accessPlace s q c.sc.pc va .r true
    let s := s.setCtx q { s.ctx q with wait := some (.waita d k va x cmp limit) }
    if !(s.ctx q).mayRead c.ord x 8 then throw (.wait s)
    let (s, v) ← liftB va c.sc.pc (readHere (watchAnew s q x) q c.ord x 8)
    return if waitaCond k (word v) cmp || pastLimit s limit then s.setCtx q ((s.ctx q).awake d (word v)) else s
  | _ => .ok s

/-- One read of a barrier word a sequencer waits on (R176), which translates anew: past the generation, the wait ends with an
acquire, whose read gives the word. A bar form does not reach host memory on the plain path. -/
def barRead (s : State) (q : Nat) : Except Stop State :=
  let c := s.ctx q
  match c.wait with
  | some (.bar d va _ gen sc aw) => do
    let (s, x) ← accessPlace s q c.sc.pc va .r false
    let s := s.setCtx q { s.ctx q with wait := some (.bar d va x gen sc aw) }
    if x.host ∧ !coherent s (s.pnum q) then throw (.trap (classB cHOST_ABORT 0x03 va c.sc.pc))
    if !(s.ctx q).mayRead c.ord x 8 then throw (.wait s)
    let (s, v) ← liftB va c.sc.pc (readHere (watchAnew s q x) q c.ord x 8)
    if BitVec.ofNat 16 (v / 2 ^ 32) = gen then return s
    if (s.ctx q).ownAhead c.ord x 8 sc then throw (.wait s)
    let (s, v) ← liftB va c.sc.pc (acquireRead s q c.ord x 8 sc)
    return if BitVec.ofNat 16 (v / 2 ^ 32) = gen then s else s.setCtx q ((s.ctx q).awake d (word v))
  | _ => .ok s

/-- A sleeping instruction reads its word again; a fault ends the sleep, and its destination is full as before. -/
def readAgain (s : State) (q : Nat) (f : State → Nat → Except Stop State) : State :=
  match f s q with
  | .ok s => s
  | .error (.wait s) => s
  | .error (.trap t left) => raise ((left.getD s).setCtx q ((left.getD s).ctx q).woken) q t

/-- The current sequencer sleeps on a word with its destination empty (R163), unless its first read ends the sleep at once. -/
def sleepOn (s : State) (d : Nat) (w : Wait) (f : State → Nat → Except Stop State) : State :=
  readAgain (s.withC { s.c.empty d with wait := some w }) s.cur f

/-! ## Caches and stashes -/

/-- A cline (R177). -/
noncomputable def maintain (w : Nat) (x : ScopeA) (form : Nat) (need : Need) (s : State) : Out := settle s do
  notLane s
  let a ← readS s x.a.val x.ea w
  let (s, p) ← scalarAccess s a 1 need false
  hold s (.cline form a p x.sc.val) w []

/-- The stash forms but map (R178). -/
noncomputable def stashForm (w : Nat) (x : StashB) (form : Nat) (s : State) : Out := settle s do
  notLane s
  let b ← readS s x.b.val x.eb w
  hold s (.stash form 0 b x.d.val) w [x.d.val]

/-- A prefetch (R180): it traps on nothing, and a failed check, an empty address register or lane mode drops it. -/
noncomputable def prefForm (w : Nat) (x : PrefF) (level : Nat) (s : State) : Out := settle s do
  let access := do
    notLane s
    let a ← readS s x.a.val x.ea w
    scalarAccess s a 1 .r false
  match access with
  | .ok (s, p) => hold s (.pref level p.va (some p)) w []
  | .error (.wait s) => throw (.wait s)
  | .error (.trap _ _) => hold s (.pref level 0 none) w []

/-! ## The forms -/

/-- ld.bz (R164). -/
def execLdBz (x : LdSt) (s : State) : Out := plainLoad (0x00000010 + x.enc) x 1 false s

/-- ld.bs (R164). -/
def execLdBs (x : LdSt) (s : State) : Out := plainLoad (0x00080010 + x.enc) x 1 true s

/-- ld.hz (R164). -/
def execLdHz (x : LdSt) (s : State) : Out := plainLoad (0x00020010 + x.enc) x 2 false s

/-- ld.hs (R164). -/
def execLdHs (x : LdSt) (s : State) : Out := plainLoad (0x000A0010 + x.enc) x 2 true s

/-- ld.wz (R164). -/
def execLdWz (x : LdSt) (s : State) : Out := plainLoad (0x00040010 + x.enc) x 4 false s

/-- ld.ws (R164). -/
def execLdWs (x : LdSt) (s : State) : Out := plainLoad (0x000C0010 + x.enc) x 4 true s

/-- ld.d (R164). -/
def execLdD (x : LdSt) (s : State) : Out := plainLoad (0x00060010 + x.enc) x 8 false s

/-- st.b (R164). -/
noncomputable def execStB (x : LdSt) (s : State) : Out := plainStore (0x00000011 + x.enc) x 1 s

/-- st.h (R164). -/
noncomputable def execStH (x : LdSt) (s : State) : Out := plainStore (0x00020011 + x.enc) x 2 s

/-- st.w (R164). -/
noncomputable def execStW (x : LdSt) (s : State) : Out := plainStore (0x00040011 + x.enc) x 4 s

/-- st.d (R164). -/
noncomputable def execStD (x : LdSt) (s : State) : Out := plainStore (0x00060011 + x.enc) x 8 s

/-- ldp (R164). -/
def execLdp (x : LdSt) (s : State) : Out := settle s do
  let b ← readS s x.a.val x.e (0x00060012 + x.enc)
  let va := b + immWord x.off * 16
  let (s, p) ← scalarAccess s va 16 .r false
  issueLoad s (newLoad s (0x00060012 + x.enc) x.t.val va p 16 false true none) [x.t.val, x.t.val + 1]

/-- stp (R164). -/
noncomputable def execStp (x : LdSt) (s : State) : Out := settle s do
  let b ← readS s x.a.val x.e (0x00060013 + x.enc)
  let v0 ← readS s x.t.val x.e (0x00060013 + x.enc)
  let v1 ← readS s (x.t.val + 1) x.e (0x00060013 + x.enc)
  let va := b + immWord x.off * 16
  let (s, p) ← scalarAccess s va 16 .w false
  hold s (.store va p 16 (v0.toNat + 2 ^ 64 * v1.toNat)) (0x00060013 + x.enc) []

/-- ldacq (R166). -/
def execLdacq (x : LdAcq) (s : State) : Out := settle s do
  notLane s
  let b ← readS s x.a.val x.e (0x00000014 + x.enc)
  let n := 2 ^ x.size.val
  let va := b + immWord x.off * word n
  let (s, p) ← scalarAccess s va n .r (n == 8)
  issueLoad s (newLoad s (0x00000014 + x.enc) x.t.val va p n x.sign false (some x.sc.val)) [x.t.val]

/-- strel (R166). -/
noncomputable def execStrel (x : StRel) (s : State) : Out := settle s do
  notLane s
  let b ← readS s x.a.val x.e (0x00000015 + x.enc)
  let v ← readS s x.t.val x.e (0x00000015 + x.enc)
  let n := 2 ^ x.size.val
  let va := b + immWord x.off * word n
  let (s, p) ← scalarAccess s va n .w (n == 8)
  hold s (.strel va p n (v.toNat % 2 ^ (8 * n)) x.sc.val) (0x00000015 + x.enc) []

/-- amo.add (R167). -/
noncomputable def execAmoAdd (x : AmoF) (s : State) : Out := atomic (0x00000016 + x.enc) x .add s

/-- amo.and (R167). -/
noncomputable def execAmoAnd (x : AmoF) (s : State) : Out := atomic (0x00400016 + x.enc) x .and s

/-- amo.or (R167). -/
noncomputable def execAmoOr (x : AmoF) (s : State) : Out := atomic (0x00800016 + x.enc) x .or s

/-- amo.xor (R167). -/
noncomputable def execAmoXor (x : AmoF) (s : State) : Out := atomic (0x00C00016 + x.enc) x .xor s

/-- amo.min (R167). -/
noncomputable def execAmoMin (x : AmoF) (s : State) : Out := atomic (0x01000016 + x.enc) x .min s

/-- amo.max (R167). -/
noncomputable def execAmoMax (x : AmoF) (s : State) : Out := atomic (0x01400016 + x.enc) x .max s

/-- amo.minu (R167). -/
noncomputable def execAmoMinu (x : AmoF) (s : State) : Out := atomic (0x01800016 + x.enc) x .minu s

/-- amo.maxu (R167). -/
noncomputable def execAmoMaxu (x : AmoF) (s : State) : Out := atomic (0x01C00016 + x.enc) x .maxu s

/-- amo.swap (R167). -/
noncomputable def execAmoSwap (x : AmoF) (s : State) : Out := atomic (0x02000016 + x.enc) x .swap s

/-- cas (R168). -/
noncomputable def execCas (x : CasF) (s : State) : Out := compareSwap (0x00000017 + x.enc) x 8 s

/-- cas.q (R168). -/
noncomputable def execCasQ (x : CasF) (s : State) : Out := compareSwap (0x80000017 + x.enc) x 16 s

/-- fence.acq (R170). -/
noncomputable def execFenceAcq (x : ScopeF) (s : State) : Out := settle s do
  notLane s
  hold s (.fence 0 x.sc.val) (0x00000018 + x.enc) []

/-- fence.rel (R170). -/
noncomputable def execFenceRel (x : ScopeF) (s : State) : Out := settle s do
  notLane s
  hold s (.fence 1 x.sc.val) (0x08000018 + x.enc) []

/-- fence.ar (R170). -/
noncomputable def execFenceAr (x : ScopeF) (s : State) : Out := settle s do
  notLane s
  hold s (.fence 2 x.sc.val) (0x10000018 + x.enc) []

/-- fence.sc (R304). -/
noncomputable def execFenceSc (x : ScopeF) (s : State) : Out := settle s do
  notLane s
  hold s (.fence 3 x.sc.val) (0x18000018 + x.enc) []

/-- xfence.all (R172). -/
noncomputable def execXfenceAll (x : ScopeF) (s : State) : Out := settle s do
  notLane s
  hold s (.xfence 0 0 x.sc.val) (0x00000019 + x.enc) []

/-- xfence.space (R172). -/
noncomputable def execXfenceSpace (x : ScopeA) (s : State) : Out := settle s do
  notLane s
  let a ← readS s x.a.val x.ea (0x08000019 + x.enc)
  hold s (.xfence 1 a x.sc.val) (0x08000019 + x.enc) []

/-- xfence.page (R172). -/
noncomputable def execXfencePage (x : ScopeA) (s : State) : Out := settle s do
  notLane s
  let a ← readS s x.a.val x.ea (0x10000019 + x.enc)
  hold s (.xfence 2 a x.sc.val) (0x10000019 + x.enc) []

/-- waita (R173). -/
def execWaita (x : WaitaF) (s : State) : Out := settle s do
  notLane s
  let a ← readS s x.a.val x.e (0x0000001A + x.enc)
  let b ← readS s x.b.val x.e (0x0000001A + x.enc)
  let t ← readS s x.c.val x.e (0x0000001A + x.enc)
  freeDest s x.d.val
  let (s, p) ← scalarAccess s a 8 .r true
  let limit := if t = BitVec.allOnes 64 then none else some (s.time + t.toNat)
  return sleepOn s x.d.val (.waita x.d.val x.cond.val a p b limit) waitaRead

/-- bar.arr (R176). -/
noncomputable def execBarArr (x : BarF) (s : State) : Out := settle s do
  notLane s
  let a ← readS s x.a.val x.ea (0x0000001B + x.enc)
  let b ← readS s x.b.val x.eb (0x0000001B + x.enc)
  let (s, p) ← scalarAccess s a 8 .rw false
  hold s (.barArr a p (b.setWidth 32) x.sc.val x.d.val) (0x0000001B + x.enc) [x.d.val]

/-- bar.wait (R176). -/
def execBarWait (x : BarF) (s : State) : Out := settle s do
  notLane s
  let a ← readS s x.a.val x.ea (0x0800001B + x.enc)
  let b ← readS s x.b.val x.eb (0x0800001B + x.enc)
  freeDest s x.d.val
  let (s, p) ← scalarAccess s a 8 .r false
  return sleepOn s x.d.val (.bar x.d.val a p (b.setWidth 16) x.sc.val false) barRead

/-- bar.aw (R176): its arrival is held, and the scalar side stands at it until it has slept. One whose arrival a squash has kept
only waits. -/
noncomputable def execBarAw (x : BarF) (s : State) : Out := settle s do
  notLane s
  let a ← readS s x.a.val x.ea (0x1000001B + x.enc)
  let b ← readS s x.b.val x.eb (0x1000001B + x.enc)
  freeDest s x.d.val
  let (s, p) ← scalarAccess s a 8 .rw false
  if s.c.awDone then
    let s := s.withC { s.c with awDone := false }
    return sleepOn s x.d.val (.bar x.d.val a p s.c.awGen x.sc.val true) barRead
  else
    let s ← hold s (.barAw a p (b.setWidth 32) x.sc.val x.d.val) (0x1000001B + x.enc) [x.d.val] id
    return if s.c.wait.isSome then readAgain s s.cur barRead else s

/-- cline.clean (R177). -/
noncomputable def execClineClean (x : ScopeA) (s : State) : Out := maintain (0x0000001C + x.enc) x 0 .r s

/-- cline.inv (R177). -/
noncomputable def execClineInv (x : ScopeA) (s : State) : Out := maintain (0x0800001C + x.enc) x 1 .w s

/-- cline.flush (R177). -/
noncomputable def execClineFlush (x : ScopeA) (s : State) : Out := maintain (0x1000001C + x.enc) x 2 .r s

/-- cline.zero (R177). -/
noncomputable def execClineZero (x : ScopeA) (s : State) : Out := maintain (0x1800001C + x.enc) x 3 .w s

/-- stash.map (R178). -/
noncomputable def execStashMap (x : Alu2) (s : State) : Out := settle s do
  notLane s
  let a ← readS s x.a.val x.ea (0x0000001D + x.enc)
  let b ← readS s x.b.val x.eb (0x0000001D + x.enc)
  if a.toNat % 512 ≠ 0 then throw (.trap (classA cMISALIGNED 0 a s.pc))
  hold s (.stash 0 a b x.d.val) (0x0000001D + x.enc) [x.d.val]

/-- stash.unmap (R178). -/
noncomputable def execStashUnmap (x : StashB) (s : State) : Out := stashForm (0x0800001D + x.enc) x 1 s

/-- stash.flush (R178). -/
noncomputable def execStashFlush (x : StashB) (s : State) : Out := stashForm (0x1000001D + x.enc) x 2 s

/-- stash.pin (R179). -/
noncomputable def execStashPin (x : StashB) (s : State) : Out := stashForm (0x1800001D + x.enc) x 3 s

/-- stash.unpin (R178). -/
noncomputable def execStashUnpin (x : StashB) (s : State) : Out := stashForm (0x2000001D + x.enc) x 4 s

/-- pref.l2 (R180). -/
noncomputable def execPrefL2 (x : PrefF) (s : State) : Out := prefForm (0x0000001E + x.enc) x 0 s

/-- pref.llc (R180). -/
noncomputable def execPrefLlc (x : PrefF) (s : State) : Out := prefForm (0x0800001E + x.enc) x 1 s

/-- pref.stash (R180). -/
noncomputable def execPrefStash (x : PrefF) (s : State) : Out := prefForm (0x1000001E + x.enc) x 2 s

end Sys2Proof.Machine
end

