-- ==== Sys2Proof/Machine/Task.lean ====
section
/-!
DEFINITION. The task forms (R278 to R283): enq, depd, pgrant and tdone.
-/
namespace Sys2Proof.Machine

/-- Every faulted channel that holds a command of a sequencer continues (R271). -/
def continueAll (s : State) (q : Nat) : State :=
  s.chans.foldl (fun s (ch, c) => if c.cmds.any (·.seq == q) then continueChan s ch else s) s

/-- enq.task (R279). -/
noncomputable def execEnqTask (x : C3) (s : State) : Out := settle s do
  notLane s
  let a ← readS s x.a.val x.e (0x00000053 + x.enc)
  let b ← readS s x.b.val x.e (0x00000053 + x.enc)
  hold s (.enq false a b x.c.val) (0x00000053 + x.enc) [x.c.val]

/-- enq.launch (R279). -/
noncomputable def execEnqLaunch (x : C3) (s : State) : Out := settle s do
  notLane s
  let a ← readS s x.a.val x.e (0x10000053 + x.enc)
  let b ← readS s x.b.val x.e (0x10000053 + x.enc)
  hold s (.enq true a b x.c.val) (0x10000053 + x.enc) [x.c.val]

/-- depd (R280). -/
noncomputable def execDepd (x : C3) (s : State) : Out := settle s do
  notLane s
  let a ← readS s x.a.val x.e (0x00000054 + x.enc)
  let b ← readS s x.b.val x.e (0x00000054 + x.enc)
  let c ← readS s x.c.val x.e (0x00000054 + x.enc)
  hold s (.depd a b c) (0x00000054 + x.enc) []

/-- pgrant (R282). -/
def execPgrant (x : C1) (s : State) : Out := settle s do
  notLane s
  if s.c.vqWritesVl then throw (.wait s)
  let c := s.c
  let t := fun (cause sub : Nat) => Stop.trap (classA cause sub (word (0x00000055 + x.enc)) s.pc)
  match c.task.filter (fun t => !t.launch) with
  | none => throw (t cILLEGAL 0x0B)
  | some p =>
    if !tagKnown c.sc.cfgTag.toNat then throw (t cTAG 0)
    freeDest s x.a.val
    let dims := recWord p.record.toNat 0x10
    let (vl, n, row, col) := grant c.sc.curRow.toNat c.sc.curCol.toNat (bits dims 0 32) (bits dims 32 32)
      (vlmax c.sc.cfgTag.toNat c.sc.cfgGrp.val)
    let y := { c.sc with vl := vl, curRow := BitVec.ofNat 32 row, curCol := BitVec.ofNat 32 col }
    return s.withC ({ c with sc := y }.put x.a.val (word n)).advance

/-- tdone (R283). -/
noncomputable def execTdone (s : State) : Out := settle s do
  notLane s
  let s := if s.c.retry then continueAll s s.cur else s
  hold s .tdone 0x00000056 []

end Sys2Proof.Machine
end

