-- ==== Sys2Proof/Machine/BackEvents.lean ====
section
/-!
DEFINITION. The steps of the back end of a sequencer and of the tile engines (R15 to R23, R163, R173 to R176, R226, R253,
R354, R355), and the shared check that a step's agent exists. A step that cannot happen now changes nothing.
-/
namespace Sys2Proof.Machine

/-! ## The agents of the device (R2, R3) -/

/-- A step of an agent: the device has it, or the step is none of the device's. -/
def stepOf (there : Bool) (s : State) : Out := if there then .next s else .fault .noSuchAgent

/-- Sequencers, cores, channels, queues, partitions, dies and print engines by number. -/
abbrev isSeq (q : Nat) : Bool := decide (q < 2048)
abbrev isCore (c : Nat) : Bool := decide (c < 512)
abbrev isChan (ch : Nat) : Bool := decide (ch < 4096)
abbrev isQueue (n : Nat) : Bool := decide (n < 4096)
abbrev isPart (p : Nat) : Bool := decide (p < 32)
abbrev isDie (d : Nat) : Bool := decide (d < 8)
abbrev isPrint (e : Nat) : Bool := decide (e < 8)

/-- Who made a request is of the device. -/
def isAsker : Asker → Bool
  | .seq q => isSeq q
  | .chan ch => isChan ch
  | .dist d => isDie d

/-! ## Vector-queue instructions -/

/-- The operation at the head of the VIQ. -/
def headOp (s : State) (q : Nat) : Option VOp := ((s.ctx q).viq.head?).map fun e => e.form.op

/-- VECTOR_START (R15, R20, R387): the head of the VIQ starts in its turn, alone or in the chain; the multicast forms start by steps of their
own. -/
def execVectorStart (q : Nat) (s : State) : Out :=
  stepOf (isSeq q) (if headOp s q = some .mcast ∨ headOp s q = some .recv then s else backEnd s q startNext)

/-- VMCAST_RESERVE (R226). -/
def execVmcastReserve (q : Nat) (s : State) : Out :=
  stepOf (isSeq q) (if headOp s q = some .mcast then backEnd s q startNext else s)

/-- VRECV_BIND (R227). -/
def execVrecvBind (q : Nat) (s : State) : Out :=
  stepOf (isSeq q) (if headOp s q = some .recv then backEnd s q startNext else s)

/-- The chain in progress is of the Element class and has a group left to commit. -/
def groupLeft (c : Ctx) : Bool :=
  (match c.run with
    | e :: _ => e.form.op.restart == .element
    | [] => false) && decide (c.runG < c.runEnd)

/-- GROUP_COMMIT (R21). -/
def execGroupCommit (q : Nat) (s : State) : Out :=
  stepOf (isSeq q) (if groupLeft (s.ctx q) then backEnd s q commitGroup else s)

/-- The started instruction is a vmcast. -/
def sending (s : State) (q : Nat) : Bool :=
  match (s.ctx q).run with
  | e :: _ => e.form.op == .mcast
  | [] => false

/-- VECTOR_COMPLETE (R186). -/
def execVectorComplete (q : Nat) (s : State) : Out :=
  stepOf (isSeq q) (if sending s q then s else backEnd s q completeRun)

/-- VMCAST_LAND (R226). -/
def execVmcastLand (q : Nat) (s : State) : Out :=
  stepOf (isSeq q) (if sending s q then backEnd s q completeRun else s)

/-! ## The scalar side's outstanding instructions -/

/-- HELD_PERFORM (R16, R18). -/
noncomputable def execHeldPerform (q : Nat) (s : State) : Out := stepOf (isSeq q) (backEnd s q heldStep)

/-- LOAD_RETURN (R163). -/
def execLoadReturn (q i : Nat) (s : State) : Out := stepOf (isSeq q) (backEnd s q fun s q => loadStep s q i)

/-- The `i`-th outstanding divide or remainder writes its result and fills its destination (R138). -/
def divideReturn (s : State) (q i : Nat) : State :=
  let c := s.ctx q
  match c.divs[i]? with
  | none => s
  | some (d, x, ord) => s.setCtx q ({ c with divs := c.divs.eraseIdx i }.deliver d x ord)

/-- DIVIDE_RESULT (R138). -/
def execDivideResult (q i : Nat) (s : State) : Out := stepOf (isSeq q) (divideReturn s q i)

/-! ## Tiles (R23, R253, R254, R259) -/

/-- DETACHED_COMPLETE (R254). -/
def execDetachedComplete (c t : Nat) (s : State) : Out := stepOf (isCore c && decide (t < 8)) (completeTile s c t)

/-- TMMA_START (R259): the oldest operation a tile holds starts once both head frames are complete. -/
def execTmmaStart (c t : Nat) (s : State) : Out := stepOf (isCore c && decide (t < 8)) (startTile s c t)

/-! ## Sleepers (R173, R174, R176) -/

/-- The place a sleeping waita watches. -/
def watched (s : State) (q : Nat) : Option Xl :=
  match (s.ctx q).wait with
  | some (.waita _ _ _ x ..) => some x
  | _ => none

/-- A watched word lies in host, peer or control memory, where a waita polls (R174); a coherent host line is watched. -/
def polled (s : State) (q : Nat) (x : Xl) : Bool := x.ctl || x.dev != 0 || (x.host && !coherent s (s.pnum q))

/-- WAITA_WAKE (R174). -/
def execWaitaWake (q : Nat) (s : State) : Out :=
  stepOf (isSeq q) (match watched s q with
    | some x => if polled s q x then s else readAgain s q waitaRead
    | none => s)

/-- WAITA_POLL (R174). -/
def execWaitaPoll (q : Nat) (s : State) : Out :=
  stepOf (isSeq q) (match watched s q with
    | some x => if polled s q x then readAgain s q waitaRead else s
    | none => s)

/-- The limit of a sleeping waita has passed (R173). -/
def limitPassed (s : State) (q : Nat) : Bool :=
  match (s.ctx q).wait with
  | some (.waita _ _ _ _ _ limit) => pastLimit s limit
  | _ => false

/-- WAITA_TIMEOUT (R173). -/
def execWaitaTimeout (q : Nat) (s : State) : Out :=
  stepOf (isSeq q) (if limitPassed s q then readAgain s q waitaRead else s)

/-- BAR_WAKE (R176). -/
def execBarWake (q : Nat) (s : State) : Out := stepOf (isSeq q) (readAgain s q barRead)

/-! ## Traps (R354, R355) -/

/-- The trap a sequencer holds until older instructions have completed, if it can be delivered now; in context or not. -/
def deliverable (c : Ctx) (inContext : Bool) : Option Trap :=
  match c.pend with
  | some t => if c.canTake t && c.inContext t == inContext then some t else none
  | none => none

/-- A held trap is delivered, if it can be (R307). -/
def deliverTrap (s : State) (q : Nat) (inContext : Bool) : State :=
  match deliverable (s.ctx q) inContext with
  | some t => takeReady s q t (some (s.setCtx q { s.ctx q with pend := none }))
  | none => s

/-- TRAP_IN_CONTEXT (R354). -/
def execTrapInContext (q : Nat) (s : State) : Out := stepOf (isSeq q) (deliverTrap s q true)

/-- TRAP_TO_KEEPER (R355). -/
def execTrapToKeeper (q : Nat) (s : State) : Out := stepOf (isSeq q) (deliverTrap s q false)

/-- STOP_COMPLETE (R336). -/
def execStopComplete (q : Nat) (s : State) : Out := stepOf (isSeq q) (stopComplete s q)

end Sys2Proof.Machine
end

