-- ==== Sys2Proof/Machine/CtlEvents.lean ====
section
/-!
DEFINITION. The steps of the control pages that have a row of their own (R322, R323, R336 to R351, R369). A write of any
other control field is REGISTER_WRITE (R330).
-/
namespace Sys2Proof.Machine

/-- CTL STOP (R336). -/
def execCtlStop (q : Nat) (s : State) : Out := stepOf (isSeq q) (ctlStop s q)

/-- CTL RESUME (R336). -/
noncomputable def execCtlResume (q : Nat) (s : State) : Out := stepOf (isSeq q) (ctlResume s q)

/-- CTL STEP (R337). -/
noncomputable def execCtlStep (q : Nat) (s : State) : Out := stepOf (isSeq q) (ctlStep s q)

/-- CTL DISCARD (R337). -/
def execCtlDiscard (q : Nat) (s : State) : Out := stepOf (isSeq q) (ctlDiscard s q)

/-- A write of ROOT and SPACE (R339), which reaches the image of a saved context too (R361). -/
noncomputable def execRoot (q : Nat) (v : Word) (s : State) : Out := stepOf (isSeq q) (contextWrite s q 0x018 v)

/-- A store to HEAD (R340). -/
def execHead (qu : Nat) (v : Word) (s : State) : Out := stepOf (isQueue qu) (queueHead s qu v)

/-- A store to EN (R340). -/
def execEn (qu : Nat) (v : Word) (s : State) : Out := stepOf (isQueue qu) (queueEnable s qu v)

/-- A store to a dependence counter (R340). -/
def execCounter (qu i : Nat) (v : Word) (s : State) : Out :=
  stepOf (isQueue qu && decide (i < 256)) (queueWrite s qu (0x800 + 8 * i) v)

/-- COMMIT of a core page (R342). -/
def execCoreCommit (c : Nat) (s : State) : Out := stepOf (isCore c) (coreCommit s c)

/-- OWNERSHIP_PASS (R350). -/
def execOwnershipPass (c : Nat) (it : OwnItem) (s : State) : Out :=
  let there := match it with
    | .seq i | .film i => decide (i < 4)
    | .pipe i | .tile i | .chan i => decide (i < 8)
  stepOf (isCore c && there) (passItem s c it)

/-- PARTITION_RESET (R369). -/
def execPartitionReset (p : Nat) (s : State) : Out := stepOf (isPart p) (resetPartition s p)

/-- PARTITION_RESET_DONE (R369). -/
def execPartitionResetDone (p : Nat) (s : State) : Out := stepOf (isPart p) (resetDone s p)

/-- A write of a window word (R347): word `i` of the sixteen pairs. -/
def execWindow (p i : Nat) (v : Word) (s : State) : Out := stepOf (isPart p && decide (i < 32)) (setWindow s p i v)

/-- A write of QBASE and QCOUNT (R343). -/
def execQcount (p : Nat) (v : Word) (s : State) : Out := stepOf (isPart p) (setQueues s p v)

/-- A write of PRINTMASK (R347). -/
def execPrintmask (p : Nat) (v : Word) (s : State) : Out := stepOf (isPart p) (setPrintmask s p v)

/-- A write of PINGRAN in a placement page (R351). -/
def execPingran (page : Nat) (v : Word) (s : State) : Out := stepOf (isPart page) (pinGranule s page v)

/-- LOAD of a protocol slot (R322). -/
def execLoad (sl : Nat) (s : State) : Out := stepOf (decide (sl < 8)) (loadSlot s sl)

/-- SLOT_DRAIN_DONE (R323). -/
def execSlotDrainDone (sl : Nat) (s : State) : Out := stepOf (decide (sl < 8)) (drainDone s sl)

/-- A write of a control word (R330, R331): an aligned 8-byte write by the root. -/
noncomputable def execRegisterWrite (a : Nat) (v : Word) (s : State) : Out :=
  stepOf true (if ctlBase ≤ a ∧ a < 2 ^ 52 ∧ a % 8 = 0 then ctlWrite s a v else s)

end Sys2Proof.Machine
end

