-- ==== Sys2Proof/Machine/BoardEvents.lean ====
section
/-!
DEFINITION. The steps of the negative store (R425 to R428), the shutter (R429, R430), the board controller (R432, R433,
R435) and the print engines (R434).
-/
namespace Sys2Proof.Machine

/-- SAVE (R427). -/
def execSave (s : State) : Out := .next (negStart s true)

/-- SAVE_DONE (R427). -/
def execSaveDone (s : State) : Out := .next (if s.neg.running = some true then saveDone s else s)

/-- RESTORE (R428). -/
def execRestore (s : State) : Out := .next (negStart s false)

/-- RESTORE_DONE (R428). -/
def execRestoreDone (s : State) : Out := .next (if s.neg.running = some false then restoreDone s else s)

/-- ABORT (R425). -/
def execAbort (s : State) : Out := .next (negAbort s)

/-- FIRE by the host, whatever ARM holds (R429). -/
def execFire (s : State) : Out := .next (fireShutter s 4)

/-- REARM (R429). -/
def execRearm (s : State) : Out := .next (rearm s)

/-- EVCOUNT (R430): the count of the selected events has reached EVCOUNT. -/
def execEvcount (s : State) : Out := .next (eventTrigger s)

/-- REPORT_REQUEST (R433). -/
def execReportRequest (s : State) : Out := .next (reportStart s)

/-- REPORT_DONE (R433). -/
def execReportDone (s : State) : Out := .next (reportDone s)

/-- POWERCAP (R435). -/
def execPowercap (v : Word) (s : State) : Out := .next (setPowercap s v.toNat)

/-- PRINT_COMMIT (R434). -/
def execPrintCommit (e : Nat) (s : State) : Out := stepOf (isPrint e) (printCommit s e)

/-- PRINT_START (R434). -/
def execPrintStart (e : Nat) (s : State) : Out := stepOf (isPrint e) (printStart s e)

/-- PRINT_DONE (R434). -/
def execPrintDone (e : Nat) (s : State) : Out := stepOf (isPrint e) (printDone s e)

/-- The machine after the steps of R435. What lies outside the device stays, and so do the shards of the negative store and
the signatures the identity key has spent (R432). -/
def freshStart (s : State) : State :=
  { State.reset with
    hostMem := s.hostMem, peerMem := s.peerMem, neg := { shards := s.neg.shards }, board := { leaf := s.board.leaf },
    agenda := s.agenda, runAhead := s.runAhead, tick := s.tick + 1 }

/-- Power-on (R435): firmware whose signature fails leaves the device in reset, reporting BOOT_SIG (R432). -/
def powerUp (s : State) : State :=
  if Config.firmwareGood s.tick then freshStart s
  else { freshStart s with dead := true, board := { leaf := s.board.leaf, bootSig := true } }

/-- POWER_ON (R435). -/
def execPowerOn (s : State) : Out := .next (powerUp s)

/-- COLD_RESET (R435) repeats every step of power-on. -/
def execColdReset (s : State) : Out := .next (powerUp s)

end Sys2Proof.Machine
end

