-- ==== Sys2Proof/Machine/Control.lean ====
section
/-!
DEFINITION. What steers the program counter (R142 to R158): branches, jumps, hardware loops and the repeat frame; and the
words that are no instruction (R94, R96).
-/
namespace Sys2Proof.Machine

/-- A byte offset of words (R90). -/
abbrev wordOff {n : Nat} (o : BitVec n) : Word := immWord o <<< 2

/-- A compare branch (R142): both registers are read with E = 0. -/
def branch (w : Nat) (x : BrC) (cond : Word → Word → Bool) (s : State) : Out := settle s do
  let a ← readS s x.a.val false w
  let b ← readS s x.b.val false w
  let c := s.c
  return s.withC (if cond a b then c.jump (c.at + wordOff x.off) else c.advance)

/-- The bits of a mask below vl, as a number. -/
def maskBelow (k : BitVec 8192) (vl : Nat) : Nat := k.toNat % 2 ^ vl

/-- A mask branch (R143): it waits for an older vcomp, which writes vl (R221). -/
def maskBranch (x : BrM) (cond : Nat → Nat → Bool) (s : State) : Out := settle s do
  notLane s
  if s.c.vqWritesVl then throw (.wait s)
  let k ← readK s x.k.val
  let c := s.c
  return s.withC (if cond (maskBelow k c.sc.vl) c.sc.vl then c.jump (c.at + wordOff x.off) else c.advance)

/-- A loop may not stand at the end of the loop around it, whatever its count (R148). -/
def loopPlace (w : Nat) (s : State) : Except Stop Unit :=
  let e0 := s.c.sc.loop0
  if e0.count ≠ 0 ∧ s.c.at = e0.last then .error (.trap (classA cILLEGAL 0 (word w) s.c.at)) else .ok ()

/-- Entering a loop with a count (R148). -/
def enterLoop (len : Nat) (s : State) (cnt : Word) : Except Stop State :=
  let c := s.c
  let pc := c.at
  if cnt = 0 then .ok (s.withC (c.jump (pc + word (4 * (len + 1)))))
  else if (vget c.sc.loops 5 {}).count ≠ 0 then .error (.trap (classA cLOOP_DEPTH 0 6 pc))
  else
    let e : LoopEntry := { start := pc + 4, last := pc + word (4 * len), count := cnt, index := 0 }
    .ok (s.withC { c with sc := { c.sc with loops := pushLoop c.sc.loops e } }.advance)

/-- Leaving the innermost loop at once (R151). -/
def leaveLoop (s : State) : Except Stop State :=
  let c := s.c
  let e := c.sc.loop0
  if e.count = 0 then .error (.trap (classA cLOOP_DEPTH 0 0 c.at))
  else
    let x := { c.sc with loops := popLoop c.sc.loops }
    .ok (s.withC { c with sc := endTest 5 x e.last, ord := c.ord + 1 })

/-- zero.word (R94). -/
def execZeroWord (x : ZeroW) (s : State) : Out := settle s (.error (.trap (classA cZERO_WORD 0 (word (0x00000000 + x.enc)) s.pc)))

/-- reserved.opcode (R94). -/
def execReservedOpcode (x : ResW) (s : State) : Out := settle s (.error (.trap (classA cILLEGAL 0 (word (x.enc + 0x60)) s.pc)))

/-- An illegal word (R96, R97): tval holds the word. -/
def execIllegal (w : BitVec 32) (s : State) : Out :=
  settle s (.error (.trap (classA cILLEGAL 0 (w.setWidth 64) s.pc)))

/-- br.eq (R142). -/
def execBrEq (x : BrC) (s : State) : Out := branch (0x0000000A + x.enc) x (fun a b => a == b) s

/-- br.ne (R142). -/
def execBrNe (x : BrC) (s : State) : Out := branch (0x0002000A + x.enc) x (fun a b => a != b) s

/-- br.lt (R142). -/
def execBrLt (x : BrC) (s : State) : Out := branch (0x0004000A + x.enc) x (fun a b => a.slt b) s

/-- br.ge (R142). -/
def execBrGe (x : BrC) (s : State) : Out := branch (0x0006000A + x.enc) x (fun a b => !a.slt b) s

/-- br.ltu (R142). -/
def execBrLtu (x : BrC) (s : State) : Out := branch (0x0008000A + x.enc) x (fun a b => a.ult b) s

/-- br.geu (R142). -/
def execBrGeu (x : BrC) (s : State) : Out := branch (0x000A000A + x.enc) x (fun a b => !a.ult b) s

/-- brm.any (R143). -/
def execBrmAny (x : BrM) (s : State) : Out := maskBranch x (fun v _ => v != 0) s

/-- brm.all (R143). -/
def execBrmAll (x : BrM) (s : State) : Out := maskBranch x (fun v vl => v == 2 ^ vl - 1) s

/-- brm.none (R143). -/
def execBrmNone (x : BrM) (s : State) : Out := maskBranch x (fun v _ => v == 0) s

/-- jal (R144). -/
def execJal (x : OffD) (s : State) : Out := settle s do
  freeDest s x.d.val
  let c := s.c
  return s.withC ((c.put x.d.val (c.at + 4)).jump (c.at + wordOff x.off))

/-- jalr (R145). -/
def execJalr (x : ImmI) (s : State) : Out := settle s do
  notLane s
  let a ← readS s x.a.val x.ea (0x0000000D + x.enc)
  freeDest s x.d.val
  let c := s.c
  let t := a + immWord x.imm
  if t.toNat % 4 ≠ 0 then throw (.trap (classA cMISALIGNED 0 t c.at))
  else return s.withC ((c.put x.d.val (c.at + 4)).jump t)

/-- loop (R148). -/
def execLoop (x : LoopR) (s : State) : Out := settle s do
  notLane s
  loopPlace (0x0000000E + x.enc) s
  let n ← readS s x.cnt.val false (0x0000000E + x.enc)
  enterLoop x.len.toNat s n

/-- loopi (R148). -/
def execLoopi (x : LoopR) (s : State) : Out := settle s do
  notLane s
  loopPlace (0x0000100E + x.enc) s
  enterLoop x.len.toNat s (word x.cnt.val)

/-- lbrk (R151). -/
def execLbrk (s : State) : Out := settle s do
  notLane s
  leaveLoop s

/-- rpt (R155). -/
def execRpt (x : RptF) (s : State) : Out := settle s do
  notLane s
  let q := s.cur
  let t ← enterFrame s q s.c.at (0x0000000F + x.enc) 0 0 s.c.sc.rptAct
  return t.setCtx q { t.ctx q with ord := (t.ctx q).ord + 1 }

end Sys2Proof.Machine
end

