-- ==== Sys2Proof/Machine/CopyEvents.lean ====
section
/-!
DEFINITION. The steps of the copy engines (R267 to R273) and of the scheduler (R281, R284, R358, R360 to R389).
-/
namespace Sys2Proof.Machine

/-! ## Copy channels -/

/-- CHANNEL_COMMAND_START (R267): credits that cancelled commands of the channel still owe go first (R272). -/
def execChannelCommandStart (ch : Nat) (s : State) : Out := stepOf (isChan ch) (startCommand (sendOwed s ch) ch)

/-- GRAIN_MOVE (R267, R383). -/
def execGrainMove (m : Mover) (s : State) : Out :=
  match m with
  | .chan ch => stepOf (isChan ch) (grainStep s ch)
  | .stage enl i => stepOf (decide (enl < 64)) (stageMove s enl i)

/-- COPY_COMPLETE (R269). -/
def execCopyComplete (ch : Nat) (s : State) : Out := stepOf (isChan ch) (completeCommand s ch)

/-- CHANNEL_RESUME (R271). -/
def execChannelResume (ch : Nat) (s : State) : Out := stepOf (isChan ch) (continueChan s ch)

/-- CHANNEL_CANCEL (R272). -/
def execChannelCancel (ch : Nat) (s : State) : Out := stepOf (isChan ch) (channelCancel s ch)

/-! ## Queues -/

/-- EVENT_PLACE (R358): an event a partition keeps is placed as its queue has room. -/
def execEventPlace (p : Nat) (s : State) : Out := stepOf (isPart p) (placeEvent s p)

/-- SUCCESSOR_PLACE (R284): a completion post kept for a queue is placed as the queue has room. -/
def execSuccessorPlace (i : Nat) (s : State) : Out := stepOf (isQueue i) (placePost s i)

/-! ## The distributors -/

/-- SLICE_END (R361). -/
def execSliceEnd (q : Nat) (s : State) : Out := stepOf (isSeq q) (sliceEnd s q)

/-- RESUME_SAVED (R366). -/
noncomputable def execResumeSaved (q : Nat) (s : State) : Out := stepOf (isSeq q) (resumeFor s q)

/-- SELECTION (R374). -/
def execSelection (q : Nat) (s : State) : Out := stepOf (isSeq q) (selectFor s q)

/-- BIND (R376). -/
def execBind (q : Nat) (s : State) : Out := stepOf (isSeq q) (bindFor s q)

/-- STAGING_START (R381): a distributor considers the task in a slot. -/
def execStagingStart (die qu i : Nat) (s : State) : Out := stepOf (isDie die && isQueue qu) (stageSlot s qu i)

/-- GRANULE_MOVE (R389). -/
def execGranuleMove (g stack : Nat) (s : State) : Out := stepOf (decide (stack < 8)) (moveGranule s g stack)

end Sys2Proof.Machine
end

