-- ==== Sys2Proof/Machine/CopyForms.lean ====
section
/-!
DEFINITION. The copy and channel forms (R265, R266, R270, R273, R274): their operands, the checks in the order of R266, and
the follow-on a cpy.m captures.
-/
namespace Sys2Proof.Machine

/-- A channel of the sequencer's core is owned by its partition (R266). -/
def chanOwned (s : State) (q k : Nat) : Bool :=
  ownerOf (vget (s.core (q / 4)).inForce.chan k 0) == s.partOfSeq q && (s.partOfSeq q).isSome

/-- Source, destination and shape of a copy (R265). -/
def copyOperands (s : State) (x : Copy) (w : Nat) : Except Stop (Word × Word × Word) := do
  let a ← readS s x.a.val x.e w
  let b ← readS s x.b.val x.e w
  let c ← readS s x.c.val x.e w
  return (a, b, c)

/-- A window's range holds `n` bytes from an address, mapped by the sequencer's partition in its space (R179). -/
def Win.spans (w : Win) (s : State) (q va n : Nat) : Bool :=
  w.valid && w.part == s.pnum q && w.space == (s.ctx q).space && decide (w.base.toNat ≤ va)
    && decide (va + n ≤ w.base.toNat + 512 * w.pieces)

/-- Some window of the core holds the bytes. -/
def inSomeWindow (s : State) (q va n : Nat) : Bool := (s.core (q / 4)).wins.toList.any fun w => w.spans s q va n

/-- A check of a stash window waits for older stash forms, which may map it (R179). -/
def stashSettled (s : State) : Except Stop Unit :=
  if s.c.sb.any (fun h => match h.op with | .stash .. => true | _ => false) then .error (.wait s) else .ok ()

/-- The checks of R266 in their order. Ports 8 to 11 with a destination on the host or a peer, and
12 to 15 with one in device memory, meet no check: the spec names none, and the copy goes where the translation says (DESIGN
CHOICE, log entry 71). -/
def copyChecks (s : State) (x : Copy) (w : Nat) (a b c : Word) : Except Stop Unit := do
  let pc := s.pc
  let port := x.port.toNat
  let rowb := bits c 16 16
  let ill := fun (sub : Nat) (tval : Word) => Stop.trap (classA cILLEGAL sub tval pc)
  if !chanOwned s s.cur x.ch.val then throw (ill 7 (word w))
  match [a, b, word rowb, sextBits 32 (c >>> 32)].find? fun v => v.toNat % 32 != 0 with
  | some v => throw (.trap (classA cMISALIGNED 0 v pc))
  | none =>
    if port < 4 then
      if (filmView s s.cur port).isNone then throw (ill 4 (word w))
      else if b ≠ 0 then throw (ill 8 b)
      else return ()
    else if port < 8 then do
      stashSettled s
      let win := vget (s.core (s.cur / 4)).wins (port - 4) {}
      if win.spans s s.cur b.toNat (bits c 0 16 * rowb) then return () else throw (ill 8 (word w))
    else return ()

/-- A form that names a tile or a film needs TE0 (R349), the last of its checks (R96). -/
def te0Check (s : State) (w : Nat) : Except Stop Unit :=
  if (ownedPipes s s.cur).getLsbD 7 then .ok () else .error (.trap (classA cPIPE_UNOWNED 0 (word w) s.pc))

/-- The follow-on of a cpy.m, accepted as the cpy.m executes (R270): its word stands after the cpy.m, inside the loop body,
is a tmma or tmms, and passes its own checks; a failure traps the cpy.m with tval the follow-on's word. The indices of a
tmms are read now. -/
noncomputable def followOn (s : State) (w2 : Nat) : Except Stop (State × (VqEntry × List Nat)) :=
  let c := s.c
  let pc := s.pc
  let e0 := c.sc.loop0
  let ill := fun (sub : Nat) => Except.error (Stop.trap (classA cILLEGAL sub (word w2) pc))
  if (e0.count ≠ 0 ∧ pc = e0.last) ∨ !(w2 % 128 == 0x49 || w2 % 128 == 0x4A) then ill 6
  else match formOf (decode (BitVec.ofNat 32 w2)) with
    | none => ill 0
    | some f => do
      let e ← accept s s.cur f pc (c.capture f)
      if f.op == .tmms then
        if (List.range (2 ^ e.grp f.c)).any fun i => c.vqWritesV (f.c + i) then throw (.wait s)
        if !(List.range (2 ^ e.grp f.c)).all (fun i => c.feV.getLsbD (f.c + i)) then
          if f.ea then throw (.trap (classA cEMPTY_READ 0 (word w2) pc)) else throw (.wait s)
      let x := if c.sc.armed then { c.sc with vstart := 0, chain := 0, armed := false } else c.sc
      return (s.withC { c with sc := x }, ({ e with ipc := pc + 4 }, c.tileData e))

/-- A cpy.m and its follow-on count as one instruction: the end test is made at the follow-on's address (R270). -/
def Ctx.advanceTwo (c : Ctx) : Ctx := { c with ord := c.ord + 1, sc := endTest 6 c.sc (c.sc.pc + 4) }

/-- The indices of a gath (R211, R273): read when it executes, once an older vector-queue instruction has written them. -/
def indexOperand (s : State) (r : Nat) (e : Bool) (w : Nat) : Except Stop (List Int) :=
  let c := s.c
  let cfg := c.sc.vcfg
  let n := c.sc.vl
  let t := (vget cfg r {}).tag.toNat
  let g := 2 ^ (vget cfg r {}).grp.val
  if c.vqWritesVl then .error (.wait s)
  else if !(regOk cfg r n && isINT t) then .error (.trap (classA cTAG 0 (word w) s.pc))
  else if (List.range g).any fun i => c.vqWritesV (r + i) then .error (.wait s)
  else if !(List.range g).all fun i => c.feV.getLsbD (r + i) then
    .error (if e then .trap (classA cEMPTY_READ 0 (word w) s.pc) else .wait s)
  else .ok ((List.range n).map fun i => intOf t (elemGet c.v r i (ewOf t)))

/-- cpy (R265). -/
noncomputable def execCpy (x : Copy) (s : State) : Out := settle s do
  notLane s
  let (a, b, c) ← copyOperands s x (0x00000050 + x.enc)
  copyChecks s x (0x00000050 + x.enc) a b c
  if x.port.toNat < 4 then te0Check s (0x00000050 + x.enc)
  hold s (.copy (8 * (s.cur / 4) + x.ch.val) x.port.toNat a b c none) (0x00000050 + x.enc) []

/-- cpy.m (R270). -/
noncomputable def execCpyM (x : Copy) (s : State) : Out := settle s do
  notLane s
  let pc := s.pc
  let (a, b, c) ← copyOperands s x (0x04000050 + x.enc)
  let (s, w2) ← liftB (pc + 4) pc (fetchWord s s.cur (pc + 4))
  copyChecks s x (0x04000050 + x.enc) a b c
  if 16 ≤ s.c.sb.length then throw (.wait s)
  let (s, f) ← followOn s w2
  if x.port.toNat < 4 then te0Check s (0x04000050 + x.enc)
  te0Check s w2
  hold s (.copy (8 * (s.cur / 4) + x.ch.val) x.port.toNat a b c (some f)) (0x04000050 + x.enc) [] Ctx.advanceTwo

/-- gath (R273). -/
noncomputable def execGath (x : GathF) (s : State) : Out := settle s do
  notLane s
  let a ← readS s x.a.val x.e (0x00000051 + x.enc)
  let c ← readS s x.c.val x.e (0x00000051 + x.enc)
  let ints ← indexOperand s x.b.val x.e (0x00000051 + x.enc)
  if !chanOwned s s.cur x.ch.val then throw (.trap (classA cILLEGAL 7 (word (0x00000051 + x.enc)) s.pc))
  let n := 2 ^ bits c 56 2
  if a.toNat % n ≠ 0 then throw (.trap (classA cMISALIGNED 0 a s.pc))
  if c.toNat % n ≠ 0 then throw (.trap (classA cMISALIGNED 0 c s.pc))
  stashSettled s
  if bits c 58 6 ≠ 0 ∨ !inSomeWindow s s.cur (bits c 0 56) (n * ints.length) then
    throw (.trap (classA cILLEGAL 8 c s.pc))
  let k := x.dup.val
  if 16 ≤ s.c.sb.length ∨ (k ≠ 0 ∧ (!s.c.feK.getLsbD k ∨ s.c.vqWritesK k)) then throw (.wait s)
  let s := if k = 0 then s else s.withC { s.c with feK := setBit s.c.feK k false }
  hold s (.gath (8 * (s.cur / 4) + x.ch.val) a (ints.map fun i => (a + BitVec.ofInt 64 (i * n)).toNat) c k) (0x00000051 + x.enc) []

/-- chan.wm (R274). -/
noncomputable def execChanWm (x : ChanA) (s : State) : Out := settle s do
  notLane s
  if !chanOwned s s.cur x.ch.val then throw (.trap (classA cILLEGAL 7 (word (0x00000052 + x.enc)) s.pc))
  hold s (.chanWm (8 * (s.cur / 4) + x.ch.val) x.a.val) (0x00000052 + x.enc) [x.a.val]

/-- chan.wait (R274). -/
noncomputable def execChanWait (x : Chan0) (s : State) : Out := settle s do
  notLane s
  if !chanOwned s s.cur x.ch.val then throw (.trap (classA cILLEGAL 7 (word (0x10000052 + x.enc)) s.pc))
  let s := if s.c.retry then continueChan s (8 * (s.cur / 4) + x.ch.val) else s
  hold s (.chanWait (8 * (s.cur / 4) + x.ch.val) none) (0x10000052 + x.enc) []

/-- chan.cancel (R272). -/
noncomputable def execChanCancel (x : Chan0) (s : State) : Out := settle s do
  notLane s
  if !chanOwned s s.cur x.ch.val then throw (.trap (classA cILLEGAL 7 (word (0x20000052 + x.enc)) s.pc))
  hold s (.chanCancel (8 * (s.cur / 4) + x.ch.val)) (0x20000052 + x.enc) []

/-- chan.stat (R274). -/
noncomputable def execChanStat (x : ChanA) (s : State) : Out := settle s do
  notLane s
  if !chanOwned s s.cur x.ch.val then throw (.trap (classA cILLEGAL 7 (word (0x30000052 + x.enc)) s.pc))
  hold s (.chanStat (8 * (s.cur / 4) + x.ch.val) x.a.val) (0x30000052 + x.enc) [x.a.val]

end Sys2Proof.Machine
end

