-- ==== Sys2Proof/Machine/HostEvents.lean ====
section
/-!
DEFINITION. The steps of the host link (R392 to R404): link training, accesses through the BARs, virtual functions, the
address translation and page request services, and failed completions.
-/
namespace Sys2Proof.Machine

/-! ## Link and BARs (R392 to R396, R399) -/

/-- A link may train so (R392): the width is 1, 2, 4, 8 or 16; flit mode goes with 64 GT/s; CXL needs flit mode at x8 or
x16. -/
def linkOk (speed width : Nat) (flit cxl : Bool) : Bool :=
  decide (1 ≤ speed) && decide (speed ≤ 6) && [1, 2, 4, 8, 16].contains width && (flit == (speed == 6))
    && (!cxl || (flit && decide (8 ≤ width)))

/-- LINK_UP (R392): the host link trains, and the host sets AtomicOp Requester Enable (R404) or leaves it clear. -/
def execLinkUp (speed width : Nat) (flit cxl atomics : Bool) (s : State) : Out :=
  .next (if linkOk speed width flit cxl then
    { s with link := { s.link with speed := speed, width := width, flit := flit, cxl := cxl, atomicEnable := atomics } }
  else s)

/-- A function exists: the physical function, or a virtual function while VF Enable is set (R397). -/
def functionOn (s : State) (fn : Nat) : Bool := fn == 0 || (s.link.vfe && decide (fn ≤ s.link.numvf))

/-- A function's partition is not being reset (R399). -/
def functionUp (s : State) (fn : Nat) : Bool := functionOn s fn && (s.part fn).pstate != 2

/-- The control address of an offset in a BAR0 (R393). -/
def bar0Addr (off : Nat) : Nat := ctlBase + off / 2 ^ 30 % 16 * 2 ^ 44 + off % 2 ^ 30

/-- A write through a BAR0 (R394, R395): an aligned 8-byte one is a control access where the function's partition may write
the page; any other is discarded and counted. -/
noncomputable def bar0Store (s : State) (fn off size : Nat) (v : Word) : State :=
  if !functionUp s fn then s
  else if size ≠ 8 ∨ off % 8 ≠ 0 then { s with link := { s.link with badhost := s.link.badhost + 1 } }
  else if reach s fn (bar0Addr off) = some true then ctlWrite s (bar0Addr off) v else s

/-- BAR0_WRITE (R395). -/
noncomputable def execBar0Write (fn off size : Nat) (v : Word) (s : State) : Out :=
  stepOf (isPart fn && decide (off < 2 ^ 34)) (bar0Store s fn off size v)

/-- The completion a requester last had, by function, or by peer device from 32 on. -/
def answer (s : State) (who v : Nat) : State := { s with link := { s.link with reads := put s.link.reads who v } }

/-- A request of a function that is there completes with Unsupported Request: no data, and no effect (R394, R395, R399). -/
def unsupported (s : State) (fn : Nat) : State :=
  if functionOn s fn then { s with link := { s.link with reads := del s.link.reads fn } } else s

/-- BAR0_ATOMICOP (R395): it completes with Unsupported Request and does nothing. -/
def execBar0Atomicop (fn off : Nat) (s : State) : Out := stepOf (isPart fn && decide (off < 2 ^ 34)) (unsupported s fn)

/-- A read through a BAR0 (R394, R395): of whatever size and alignment, it returns the aligned 8-byte word that holds its bytes,
read as one control access where the function's partition reaches the page, and zero elsewhere. -/
def bar0Load (s : State) (fn off : Nat) : State :=
  if !functionUp s fn then unsupported s fn
  else
    let a := bar0Addr off / 8 * 8
    answer s fn (if (reach s fn a).isSome then (ctlRead s a).toNat else 0)

/-- Bytes of device DRAM. -/
abbrev dramBytes : Nat := 0x6000000000

/-- The device physical address of an offset in a function's BAR2, where device memory lies there (R393, R394). -/
def bar2Addr (s : State) (fn off n : Nat) : Option Nat :=
  if fn = 0 then
    let a := bits s.link.bar2base 30 22 * 2 ^ 30 + off % s.link.bar2size
    if a + n ≤ dramBytes then some a else none
  else
    let lies := fun (a : Nat) => (s.part fn).windows.toList.any fun w =>
      inWindow { (s.part fn) with windows := Vector.replicate 16 w } 1 0 (a / 4096)
    if lies off ∧ lies (off + n - 1) then some off else none

/-- The words of an access are registered to no copy channel (R268). -/
def engineFree (s : State) (a n : Nat) : Bool :=
  (List.range ((a + n - a / 4 * 4 + 3) / 4)).all fun i => !engineHolds s (a / 4 * 4 + 4 * i)

/-- The value the host reads: that of a poisoned sector is free. -/
def hostRead (s : State) (a n : Nat) : State × Nat :=
  let (s, v) := homeRead s a n
  if poisoned s a n then ({ s with tick := s.tick + 1 }, (Config.freeWord s.tick).toNat) else (s, v)

/-- A read through a BAR2 (R394, R396): it waits for words registered to a channel, and reads as zero where nothing is. -/
def bar2Load (s : State) (fn off n : Nat) : State :=
  if !functionUp s fn then unsupported s fn
  else match bar2Addr s fn off n with
    | none => answer s fn 0
    | some a => if engineFree s a n then (let (s, v) := hostRead s a n; answer s fn v) else s

/-- BAR2_READ (R396). -/
def execBar2Read (fn off size : Nat) (s : State) : Out := stepOf (isPart fn) (bar2Load s fn off size)

/-- A posted write through a BAR2, performed at pkg (R396). -/
def bar2Store (s : State) (fn off : Nat) (bytes : List Byte) : State :=
  if !functionUp s fn then s
  else match bar2Addr s fn off bytes.length with
    | none => s
    | some a => if engineFree s a bytes.length then homeWrite s a bytes.length (numOf bytes) else s

/-- BAR2_WRITE (R396). -/
def execBar2Write (fn off : Nat) (bytes : List Byte) (s : State) : Out := stepOf (isPart fn) (bar2Store s fn off bytes)

/-- A host AtomicOp's widths (R392). -/
def hostOpWidths : HostOp → List Nat
  | .fetchAdd | .swap => [4, 8]
  | .cas => [4, 8, 16]

/-- The new value of a host AtomicOp: of a compare and swap, none where the comparison fails. -/
def hostOpResult (o : HostOp) (n old v w : Nat) : Option Nat :=
  match o with
  | .fetchAdd => some ((old + v) % 2 ^ (8 * n))
  | .swap => some (v % 2 ^ (8 * n))
  | .cas => if old = v % 2 ^ (8 * n) then some (w % 2 ^ (8 * n)) else none

/-- An AtomicOp through a BAR2 is one step at the home slice (R396). One of another width, and one of a virtual function outside
its windows, completes with Unsupported Request (R392, R394); where the physical function's BAR2 reaches nothing it reads zero
and writes nothing (R393). -/
def bar2Atomic (s : State) (fn off n : Nat) (o : HostOp) (v w : Nat) : State :=
  if !functionUp s fn ∨ !(hostOpWidths o).contains n then unsupported s fn
  else match bar2Addr s fn off n with
    | none => if fn = 0 then answer s fn 0 else unsupported s fn
    | some a =>
      if !engineFree s a n then s
      else
        let (s, old) := hostRead (homeSettle s a n) a n
        answer (match hostOpResult o n old v w with
          | some x => homeWrite s a n x
          | none => s) fn old

/-- BAR2_ATOMICOP (R396). -/
def execBar2Atomicop (fn off size : Nat) (o : HostOp) (v w : Nat) (s : State) : Out :=
  stepOf (isPart fn) (bar2Atomic s fn off size o v w)

/-! ## Virtual functions (R397, R398) -/

/-- VF Enable with NumVFs = n (R397); while it is set, and for 0 or more than 31 functions, nothing changes, a DESIGN CHOICE (log
entry 88). A partition still being reset stays so, and is there once that has ended (R398). -/
def enableVfs (s : State) (n : Nat) : State :=
  if s.link.vfe ∨ n = 0 ∨ 31 < n then s
  else
    let s := { s with link := { s.link with vfe := true, numvf := n } }
    (List.range n).foldl (fun s i =>
      let x := s.part (i + 1)
      s.setPart (i + 1) { x with pstate := if x.pstate = 2 then 2 else 1, removing := false, func := i + 1 }) s

/-- Clearing VF Enable resets every partition from 1 to 31 that is there, and each then goes (R398). -/
def disableVfs (s : State) : State :=
  let s := { s with link := { s.link with vfe := false } }
  (List.range 31).foldl (fun s i =>
    if (s.part (i + 1)).pstate = 0 then s
    else
      let s := resetPartition s (i + 1)
      s.setPart (i + 1) { s.part (i + 1) with removing := true }) s

/-- VF_ENABLE (R397). -/
def execVfEnable (n : Nat) (s : State) : Out := .next (enableVfs s n)

/-- VF_DISABLE (R398). -/
def execVfDisable (s : State) : Out := .next (if s.link.vfe then disableVfs s else s)

/-- VF_FLR (R398). -/
def execVfFlr (p : Nat) (s : State) : Out :=
  stepOf (isPart p && decide (1 ≤ p)) (if (s.part p).pstate = 0 then s else resetPartition s p)

/-- PF_FLR (R398): the root is reset and VF Enable cleared. -/
def execPfFlr (s : State) : Out := .next (resetPartition (if s.link.vfe then disableVfs s else s) 0)

/-! ## ATS and PRI (R401 to R403) -/

/-- A request of the translation services changes, or goes. -/
def setAts (s : State) (i : Nat) (f : AtsReq → AtsReq) : State :=
  { s with ats := s.ats.map fun r => if r.id = i then f r else r }

/-- The access that asked stops with a cause (R401, R402). -/
def AtsReq.failed (r : AtsReq) (cause sub : Nat) : AtsReq :=
  { r with isPri := false, sent := true, done := none, fail := some (cause, sub) }

/-- Page requests the device has outstanding. -/
def priOut (s : State) : Nat := (s.ats.filter fun r => r.isPri && r.sent).length

/-- Page requests that waited for the host's allocation are sent, oldest first, as it allows; at most 512 (R392, R402). -/
def sendPri (s : State) : State :=
  let room := min s.link.priAlloc 512 - priOut s
  let ids := ((s.ats.filter fun r => r.isPri && !r.sent).map (·.id)).take room
  { s with ats := s.ats.map fun r => if ids.contains r.id then { r with sent := true } else r }

/-- A meeting with a page that is not resident (R402): a page request, or the failure that stops the access. -/
def meetAbsent (s : State) (r : AtsReq) : State :=
  let n := r.meetings + 1
  if 4 ≤ n then setAts s r.id fun r => r.failed cPRI_FAILED 0x04
  else if s.link.priFailed.getLsbD r.fn then setAts s r.id fun r => r.failed cPRI_FAILED 0x02
  else if !s.link.priEnable.getLsbD r.fn then setAts s r.id fun r => r.failed cPRI_FAILED 0x03
  else sendPri (setAts s r.id fun r => { r with isPri := true, sent := false, stale := false, meetings := n })

/-- The completion of a translation request (R401): a translation with the permissions that the access needs is cached, or where an invalidation
came after the request serves the one access; the cache holds 16,384 entries. -/
def atsAnswer (s : State) (r : AtsReq) (a : AtsAnswer) : State :=
  match a with
  | .error => setAts s r.id fun r => r.failed cHOST_ABORT 0x04
  | .translated hpa rights =>
    if !grants rights r.needs then meetAbsent s r
    else if r.stale then setAts s r.id fun r => { r with done := some (hpa, rights) }
    else
      let e : AtcEntry := { fn := r.fn, pasid := r.pasid, page := r.page, hpa := hpa, rights := rights, vas := [r.va] }
      let rest := s.atc.filter fun x => !(x.fn == r.fn && x.pasid == r.pasid && x.page == r.page)
      { s with atc := (rest.drop (rest.length - 16383)) ++ [e], ats := s.ats.filter fun x => x.id != r.id }

/-- ATS_COMPLETION (R401), of the request numbered `i`. -/
def execAtsCompletion (i : Nat) (a : AtsAnswer) (s : State) : Out :=
  .next (match s.ats.find? fun r => r.id == i && !r.isPri && r.done.isNone && r.fail.isNone with
    | some r => atsAnswer s r a
    | none => s)

/-- The page requests of a function that stop at once with a subcode of PRI_FAILED, those of squashed accesses gone (R402). -/
def stopPri (l : List AtsReq) (fn sub : Nat) : List AtsReq :=
  (l.filter fun r => !(r.gone && r.isPri && r.fn == fn)).map fun r => if r.isPri ∧ r.fn = fn then r.failed cPRI_FAILED sub else r

/-- The response to a page request (R402); one whose access was squashed is discarded, but a Response Failure still stops the
function's requests. -/
def priAnswer (s : State) (r : AtsReq) (a : PriAnswer) : State :=
  match a with
  | .success | .invalid =>
    if r.gone then sendPri { s with ats := s.ats.filter fun x => x.id != r.id }
    else if a = .success then sendPri (setAts s r.id fun r => { r with isPri := false, sent := true, stale := false })
    else sendPri (setAts s r.id fun r => r.failed cPRI_FAILED 0x01)
  | .failure =>
    sendPri { s with
      ats := stopPri s.ats r.fn 0x02
      link := { s.link with priFailed := setBit s.link.priFailed r.fn true } }

/-- PAGE_REQUEST_RESPONSE (R402), to the request numbered `i`. -/
def execPageRequestResponse (i : Nat) (a : PriAnswer) (s : State) : Out :=
  .next (match s.ats.find? fun r => r.id == i && r.isPri && r.sent with
    | some r => priAnswer s r a
    | none => s)

/-- PRI Enable of a function changes (R402): clear, its outstanding page requests fail; set again, a Response Failure is
over; `alloc` is the host's allocation. -/
def setPri (s : State) (fn : Nat) (on : Bool) (alloc : Nat) : State :=
  let was := s.link.priEnable.getLsbD fn
  let l := { s.link with
    priEnable := setBit s.link.priEnable fn on
    priFailed := if on && !was then setBit s.link.priFailed fn false else s.link.priFailed
    priAlloc := alloc }
  sendPri { s with
    link := l
    ats := if on then s.ats else stopPri s.ats fn 0x03 }

/-- PRI_ENABLE (R402): a function whose partition is being reset answers the configuration request with a retry status (R399). -/
def execPriEnable (fn : Nat) (on : Bool) (alloc : Nat) (s : State) : Out :=
  stepOf (isPart fn) (if (s.part fn).pstate = 2 then s else setPri s fn on alloc)

/-- An Invalidate Request names a page of a function's PASID, or of all its PASIDs (R403). -/
def invHits (fn : Nat) (pasid : Option Nat) (lo hi f p page : Nat) : Bool :=
  f == fn && (pasid == none || pasid == some p) && decide (lo ≤ page) && decide (page ≤ hi)

/-- INVALIDATE_REQUEST (R403): the matching entries go, and translations under way are not cached (R401). The host has no more of
them unanswered than the device's queue holds, 32 (R392). -/
def execInvalidateRequest (fn : Nat) (pasid : Option Nat) (lo hi : Nat) (s : State) : Out :=
  .next <| if 32 ≤ s.invPending then s else { s with
    atc := s.atc.filter fun e => !invHits fn pasid lo hi e.fn e.pasid e.page
    ats := s.ats.map fun r => if !r.isPri ∧ invHits fn pasid lo hi r.fn r.pasid r.page then { r with stale := true } else r
    invPending := s.invPending + 1 }

/-- INVALIDATE_COMPLETION (R403): once every access that holds a translation it has not used has been sent. -/
def execInvalidateCompletion (s : State) : Out :=
  .next (if 0 < s.invPending ∧ s.ats.all (·.done.isNone) then
    { s with invPending := s.invPending - 1, link := { s.link with atsinv := s.link.atsinv + 1 } }
  else s)

/-! ## Failed completions (R404) -/

/-- The requests a failed completion may be for: those of a place, and whether a store's counts. -/
abbrev Failing := Xl → Bool → Bool

/-- The oldest outstanding load of a sequencer from a place that a completion may be for. -/
def loadWhere (c : Ctx) (p : Failing) : Option Load := c.loads.find? fun l => p l.x false

/-- The oldest held instruction of a sequencer, where it accesses such a place. -/
def heldWhere (c : Ctx) (p : Failing) : Option (Held × Word) :=
  match c.sb.head? with
  | some h => match h.op.place, h.op.va with
    | some (x, _), some va => if p x h.op.isStore then some (h, va) else none
    | _, _ => none
  | none => none

/-- A request of a sequencer on the host path, or to a peer, will fail: an outstanding access stops as it is made, once everything
older has completed (R18), and where none is outstanding, the next that its fetch, its vector queue or its sleep makes. -/
def failAccess (s : State) (q : Nat) (peer : Bool) (p : Failing) (sub : Nat) : State :=
  let c := s.ctx q
  let f := (Asker.seq q, peer, sub)
  if ((loadWhere c p).isSome || (heldWhere c p).isSome || c.state == .running) && !s.link.failing.contains f then
    { s with link := { s.link with failing := f :: s.link.failing } }
  else s

/-- The address a command reads next: a gather's next element, or the next byte of its row. -/
def Cmd.from (m : Cmd) : Option Word := if m.kind = 3 then m.idx.head?.map word else some (m.src + word m.off)

/-- The running command of a channel reads from, writes to, or has a credit to send to, a place that a completion may be for; its
address there. -/
def chanWhere (s : State) (ch : Nat) (p : Failing) : Option Word :=
  let c := s.chan ch
  match c.cmds with
  | [] => none
  | m :: _ =>
    let at_ := fun (va : Word) (need : Need) (store : Bool) => match enlarge s ch m va need with
      | .ok (_, x) => p x store
      | .error _ => false
    let bar := word (bits m.bar 3 53 * 8)
    if !c.busy then none
    else match m.from.filter fun a => at_ a .r false with
      | some a => some a
      | none =>
        if !m.film && at_ m.dst .w true then some m.dst
        else if m.bar.getLsbD 63 && m.done != m.credited && at_ bar .rw false then some bar
        else none

/-- An outstanding request to the host or a peer fails with a subcode of HOST_ABORT: a sequencer stops, a channel faults. What the
distributor reads for a queue it reads in one step (R377). -/
def failRequest (s : State) (who : Asker) (peer : Bool) (p : Failing) (sub : Nat) : State :=
  match who with
  | .seq q => failAccess s q peer p sub
  | .chan ch => match chanWhere s ch p with
    | some va => chanFault s ch cHOST_ABORT sub va
    | none => s
  | .dist _ => s

/-- The partition an agent makes its requests for. -/
def askerPart (s : State) (who : Asker) : Nat :=
  match who with
  | .seq q => s.pnum q
  | .chan ch => ((s.chan ch).cmds.head?.map (·.part)).getD 0
  | .dist _ => 0

/-- HOST_COMPLETION_ERROR (R404): Unsupported Request or Completer Abort, on the plain path alone, where a posted write gets no
completion. -/
def execHostCompletionError (who : Asker) (ca : Bool) (s : State) : Out :=
  stepOf (isAsker who) (if coherent s (askerPart s who) then s
    else failRequest s who false (fun x store => x.host && !store) (if ca then 0x06 else 0x05))

/-- COMPLETION_TIMEOUT (R404, R417): on the coherent path a write has a request to the host too. -/
def execCompletionTimeout (who : Asker) (s : State) : Out :=
  stepOf (isAsker who) (failRequest s who false
    (fun x store => asksHost s x && !(store && x.host && !coherent s (askerPart s who))) 0x07)

end Sys2Proof.Machine
end

