-- ==== Sys2Proof/Machine/MemEvents.lean ====
section
/-!
DEFINITION. The steps of the ordering machine (R299), the events of the homes (R318 to R321), and detected errors (R359, R367
to R370).
-/
namespace Sys2Proof.Machine

/-! ## The ordering machine -/

/-- A memory step that waits leaves what it has sent; a refused write is undone (R320). -/
def memStep (s : State) (m : Except MErr (State × Unit)) : State :=
  match m with
  | .ok (s, _) => s
  | .error (.wait s) => s
  | .error (.stop _ _ _ left) => left.getD s

/-- REGISTER (R299 step 4). -/
def execRegister (c a : Nat) (s : State) : Out := stepOf (isCore c) (memStep s (registerWord s c (a / 4 * 4)))

/-- EXPORT (R299 step 5). -/
def execExportWord (die a : Nat) (s : State) : Out := stepOf (isDie die) (memStep s (exportWord s die (a / 4 * 4)))

/-- DELIVER (R299 step 6). -/
def execDeliver (src dst : Nat) (s : State) : Out := stepOf (isDie src && isDie dst) (deliverOne s src dst)

/-- A die that does not hold a line fetches it (R318, R320). -/
def fetchLine (s : State) (die line : Nat) : State :=
  match find s.lines line with
  | none => s
  | some l =>
    if l.holders.getLsbD die then s
    else match dieRead s die line l.grain l.slot with
      | .ok (s, _) => s
      | .error (.wait s) => s
      | .error (.stop ..) => s

/-- A die exports its words of a line, as the owner or as another (R318, R320). -/
def dieExport (s : State) (die line : Nat) (asOwner : Bool) : State :=
  match find s.lines line with
  | none => if asOwner then s else memStep s (exportWord s die line)
  | some l =>
    if (l.owner == some die) != asOwner then s
    else (lineWords line l).foldl (fun s w => memStep s (exportWord s die w)) s

/-- A die's words of a line that its home does not hold yet. -/
def dirtyWords (s : State) (die line : Nat) (l : Line) : Bool :=
  l.owner == some die && (lineWords line l).any fun w => match find s.die (unitKey die w) with
    | some (.value v) => v != homeWord s w
    | some (.core c) => match find s.reg (unitKey c w) with
      | some r => r.registered && r.val != homeWord s w
      | none => false
    | none => false

/-- A holder drops its clean copy of a line (R318): DROP while others remain, DROPL as the last. -/
def dropLine (s : State) (die line ev : Nat) : State :=
  match find s.lines line with
  | none => s
  | some l =>
    let last := l.holders == BitVec.ofNat 8 (2 ^ die)
    if !l.holders.getLsbD die || writesUnderWay s die line l || dirtyWords s die line l || last != (ev == evDROPL) then s
    else
      let s := (applyEvent s line ev (some die)).1
      (lineWords line l).foldl (fun s w => dropDieWord s die w) s

/-- The owner of a line sends its dirty data to the home under the version it owns the line by (WBL), and keeps its grain until
the home answers (R318, R320, R321). -/
def sendWbl (s : State) (die line : Nat) : State :=
  match find s.lines line with
  | none => s
  | some l =>
    if !l.holders.getLsbD die || writesUnderWay s die line l || !dirtyWords s die line l then s
    else { s with wbls := s.wbls ++ [(die, line, (find s.dieVer (unitKey die line)).getD l.version)] }

/-- The home answers a write-back (R321): under the version of the line its data are written, else it is cancelled, the data
discarded and the sender answered STALE; in both cases the sender's grain goes. -/
def answerWbl (s : State) (die line : Nat) (v : BitVec 8) : State :=
  let s := { s with wbls := s.wbls.filter fun x => !(x.1 == die && x.2.1 == line) }
  match find s.lines line with
  | none => s
  | some l =>
    let s := if l.version = v ∧ l.owner = some die then (applyEvent s line evWBL (some die)).1 else s
    (lineWords line l).foldl (fun s w => dropDieWord s die w) s

/-- WBL (R318, R320, R321): the owner sends it, and then the home answers it. -/
def wblStep (s : State) (die line : Nat) : State :=
  match s.wbls.find? fun x => x.1 == die && x.2.1 == line with
  | some (_, _, v) => answerWbl s die line v
  | none => sendWbl s die line

/-- RD (R318, R320). -/
def execRd (die line : Nat) (s : State) : Out := stepOf (isDie die) (fetchLine s die line)

/-- WR (R318, R320). -/
def execWr (die line : Nat) (s : State) : Out := stepOf (isDie die) (dieExport s die line false)

/-- WRO (R318, R320). -/
def execWro (die line : Nat) (s : State) : Out := stepOf (isDie die) (dieExport s die line true)

/-- DROP (R318). -/
def execDrop (die line : Nat) (s : State) : Out := stepOf (isDie die) (dropLine s die line evDROP)

/-- DROPL (R318). -/
def execDropl (die line : Nat) (s : State) : Out := stepOf (isDie die) (dropLine s die line evDROPL)

/-- WBL (R318, R321). -/
def execWbl (die line : Nat) (s : State) : Out := stepOf (isDie die) (wblStep s die line)

/-- SNOOP (R318). -/
def execSnoop (line : Nat) (s : State) : Out := .next (applyEvent s line evSNOOP none).1

/-- CMO (R318). -/
def execCmo (line : Nat) (s : State) : Out := .next (applyEvent s line evCMO none).1

/-- The LLC evicts a host line (R414): PURGE at every grain of the CXL lines it covers, whose data goes to the host with a
DirtyEvict or a CleanEvict, and the home holds those CXL lines no more. -/
def purgeHost (s : State) (line : Nat) : State :=
  let n := match find s.lines line with
    | some l => grainBytes l.grain
    | none => 32
  let lo := line / 64 * 64
  let ks := (List.range ((line + n - lo + 63) / 64)).map fun i => lo + 64 * i
  let s := ks.foldl (fun s k => (applyEvent (applyEvent s k evPURGE none).1 (k + 32) evPURGE none).1) s
  { s with cxl := { s.cxl with hostLines := s.cxl.hostLines.filter fun p => !ks.contains p.1 } }

/-- PURGE (R318). -/
def execPurge (line : Nat) (s : State) : Out :=
  .next (if hostTag ≤ line then purgeHost s line else (applyEvent s line evPURGE none).1)

/-! ## Detected errors (R359, R367 to R370) -/

/-- The log page of an error: its partition's, or page 32 (R370). -/
abbrev logPage (p : Nat) : Nat := if p < 32 then p else 32

/-- One more of a kind is counted in a log page (R370); RESET and CONSUMED have no count. -/
def ErrLog.count (l : ErrLog) (kind : Nat) : ErrLog :=
  match kind with
  | 1 => { l with corrected := l.corrected + 1 }
  | 2 => { l with recovered := l.recovered + 1 }
  | 3 => { l with poisoned := l.poisoned + 1 }
  | 5 => { l with discarded := l.discarded + 1 }
  | _ => l

/-- An entry is written to a log page, the oldest overwritten first; its syndrome is free (R370). An armed error trigger
fires the shutter (R429). -/
def logError (s : State) (kind unit p seq a : Nat) : State :=
  let l := (s.log (logPage p)).count kind
  let e : LogEntry :=
    { kind := BitVec.ofNat 4 kind, unit := BitVec.ofNat 4 unit, part := BitVec.ofNat 5 p, seq := BitVec.ofNat 11 seq,
      time := word s.time, paddr := BitVec.ofNat 52 a, syndrome := Config.freeWord s.tick }
  let s := { s with
    tick := s.tick + 1
    logs := put s.logs (logPage p) { l with next := (l.next + 1) % 126, entries := put l.entries l.next e } }
  let s := countEvent s 1
  if s.shutter.arm.getLsbD 3 then fireShutter s 5 else s

/-- The partition an address belongs to: that of its page's window (R368). -/
abbrev partOfAddr (s : State) (a : Nat) : Nat := if hostTag ≤ a then 0 else partOfFrame s (a / 4096)

/-- The partition an error at an address belongs to (R368): that of the tag of a line in the LLC, else that of its page's window. A
line's tag is its page's partition unless a peer's request brought it in (R408). -/
def errorPart (s : State) (a : Nat) : Nat :=
  match lineAt s a with
  | some (_, l) => l.tag.getD (partOfAddr s a)
  | none => partOfAddr s a

/-- A 32-byte sector is marked poisoned at its home; the first mark on a line posts an ERROR event to its partition's keeper
(R367, R368). -/
def poisonSector (s : State) (unit a : Nat) : State :=
  let sec := a / 32 * 32
  let (b, n) := match lineAt s sec with
    | some (b, l) => (b, grainBytes l.grain)
    | none => (sec, 32)
  let p := errorPart s sec
  let first := !poisoned s b n
  let s := if s.poison.contains sec then s else { s with poison := s.poison ++ [sec] }
  let s := logError s 3 unit p 0x7FF sec
  if first then
    let e : EventWord := { event := 8, part := p, addr := word sec }
    postTo s p (s.part p).dkeeper.toNat (e.body s.time)
  else s

/-- A copy word of a core is dropped, to be fetched again; a registered word is no clean copy (R367). -/
def dropCoreCopy (s : State) (c w unit : Nat) : State :=
  match find s.reg (unitKey c (w / 4 * 4)) with
  | some r =>
    if r.registered then s
    else logError { s with reg := del s.reg (unitKey c (w / 4 * 4)) } 2 unit (partOfAddr s w) 0x7FF (w % 2 ^ 52)
  | none => logError s 2 unit (partOfAddr s w) 0x7FF (w % 2 ^ 52)

/-- The copies of instruction words in the line of an address, a block of 512 bytes, leave a core's instruction cache and what its
sequencer has fetched ahead, to be fetched again (R359). -/
def dropCode (s : State) (q a : Nat) : State :=
  let here := fun (w : Nat) => w % 2 ^ 56 / 512 == a / 512
  let s := { s with icache := s.icache.filter fun (k, _) => !(k / 2 ^ 56 == q / 4 && here k) }
  s.setCtx q { s.ctx q with ahead := (s.ctx q).ahead.filter fun x => !here x.1 }

/-- ERROR_DETECTED (R359, R367): corrected in place; recovered by dropping a clean copy; discarded on a path never issued;
poisoned; or contained by the reset of the partition. An entry that is no clean copy is not recovered. -/
def detect (s : State) (e : ErrorSite) : State :=
  match e with
  | .corrected unit p a => logError s 1 unit p 0x7FF a
  | .coreCopy c w => dropCoreCopy s c w 4
  | .stashPiece c w => dropCoreCopy s c w 6
  | .llcLine a => if (find s.llc (a / 4 * 4)).isSome then s else logError s 2 2 (errorPart s a) 0x7FF (a % 2 ^ 52)
  | .dieCopy die w =>
    match find s.die (unitKey die (w / 4 * 4)) with
    | some (.core _) => s
    | some (.value _) =>
      let owner := match lineAt s w with
        | some (_, l) => l.owner == some die
        | none => false
      if owner then s
      else logError { s with die := del s.die (unitKey die (w / 4 * 4)) } 2 3 (partOfAddr s w) 0x7FF (w % 2 ^ 52)
    | none => logError s 2 3 (partOfAddr s w) 0x7FF (w % 2 ^ 52)
  | .tlbEntry i =>
    match s.tlb[i]? with
    | some t => logError { s with tlb := s.tlb.eraseIdx i } 2 13 t.part 0x7FF 0
    | none => s
  | .instruction q issued a => logError (dropCode s q a) (if issued then 2 else 5) 5 (s.pnum q) q 0
  | .dirty unit a => poisonSector s unit a
  | .contained unit p => logError (if p < 32 then resetPartition s p else s) 6 unit p 0x7FF 0

/-- ERROR_DETECTED (R367). -/
def execErrorDetected (e : ErrorSite) (s : State) : Out := .next (detect s e)

end Sys2Proof.Machine
end

