-- ==== Sys2Proof/Machine/CxlEvents.lean ====
section
/-!
DEFINITION. The steps of host-shared memory under CXL (R412 to R423). A line is named by its key: a device line by its
physical address, a host line by its host physical address above `hostTag`.
-/
namespace Sys2Proof.Machine

/-- The 64-byte CXL line of an address. -/
abbrev cxlLine (a : Nat) : Nat := a / 64 * 64

/-- Every grain of a CXL line has SNOOP applied at its home, once, dirty data with it (R415). -/
def snoopLine (s : State) (line : Nat) : State :=
  if (lineAt s line).map (·.1) = (lineAt s (line + 32)).map (·.1) then recallLine s line
  else recallLine (recallLine s line) (line + 32)

/-- The home's dirty data of a host line has gone to the host (R415). -/
def cleanHost (s : State) (line : Nat) : State :=
  { s with llc := s.llc.filter fun (w, _) => !(decide (hostTag ≤ w) && decide (line ≤ w) && decide (w < line + 64)) }

/-- A snoop of the host is served (R415): 0 SnpData, 1 SnpInv, 2 SnpCur. -/
def serveSnoop (s : State) (line kind : Nat) : State :=
  let s := if kind = 2 then snoopLine s line else cleanHost (snoopLine s line) line
  let l := s.cxl.hostLines
  let l := match kind, find l line with
    | 0, some _ => put l line .s
    | 1, _ => del l line
    | _, _ => l
  { s with cxl := { s.cxl with hostLines := l } }

/-- A snoop arrives: it queues behind the home's own request for the line (R415). -/
def hostSnoop (s : State) (line kind : Nat) : State :=
  if s.cxl.pendReq.any fun p => p.1 == line then { s with cxl := { s.cxl with snoops := s.cxl.snoops ++ [(line, kind)] } }
  else serveSnoop s line kind

/-- The host stores bytes to its own memory (R423): its home agent first takes the lines back from the device with SnpInv (R415),
and serves a request of the device for one of them before. -/
def hostStore (s : State) (a : Nat) (bytes : List Byte) : State :=
  let n := bytes.length
  let ls := (List.range ((a % 64 + n + 63) / 64)).map fun i => hostTag + cxlLine a + 64 * i
  if ls.any (fun l => s.cxl.pendReq.any fun p => p.1 == l) ∨ hostTag < a + n then s
  else
    let s := ls.foldl (fun s l => if (find s.cxl.hostLines l).isSome then serveSnoop s l 1 else s) s
    { s with hostMem := Memory.writeN s.hostMem a n (numOf bytes) }

/-- SNPDATA (R415). -/
def execSnpdata (line : Nat) (s : State) : Out := .next (hostSnoop s (cxlLine line) 0)

/-- SNPINV (R415). -/
def execSnpinv (line : Nat) (s : State) : Out := .next (hostSnoop s (cxlLine line) 1)

/-- SNPCUR (R415). -/
def execSnpcur (line : Nat) (s : State) : Out := .next (hostSnoop s (cxlLine line) 2)

/-- The host answers a RdShared with S, a RdOwn or RdOwnNoData with E; the queued snoops are served after it (R414, R415). Poisoned data marks
both sectors of the line (R417). -/
def hostGrant (s : State) (line : Nat) : State :=
  match s.cxl.pendReq.find? fun p => p.1 == line with
  | none => s
  | some (_, r) =>
    let kinds := (s.cxl.snoops.filter fun p => p.1 == line).map (·.2)
    let s := { s with cxl := { s.cxl with
      pendReq := s.cxl.pendReq.filter fun p => p.1 != line
      snoops := s.cxl.snoops.filter fun p => p.1 != line
      hostLines := put s.cxl.hostLines line (if r = .rdShared then .s else .e) } }
    kinds.foldl (fun s k => serveSnoop s line k) s

/-- HOST_CACHE_RESPONSE (R416, R417): only an answer to a request that the home has sent brings data, and to RdOwnNoData none
does. -/
def execHostCacheResponse (r : HostResp) (s : State) : Out :=
  let line := cxlLine r.line
  .next (hostGrant (if r.poison && s.cxl.pendReq.any (fun p => p.1 == line && p.2 != .rdOwnNoData) then poisonSector (poisonSector s 10 line) 10 (line + 32)
    else s) line)

/-- CXL_CACHE_ENABLE (R413): with CXL negotiated on the link. -/
def execCxlCacheEnable (s : State) : Out := .next (if s.link.cxl then { s with cxl := { s.cxl with cache := true } } else s)

/-! ## Bias (R420 to R422) -/

/-- The bias bit of a page of the HDM range is written (R413). -/
def setBias (s : State) (page : Nat) (host : Bool) : State :=
  let n := page - bits s.cxl.hdmbase 21 31 * 512
  let a := bits s.cxl.biastab 12 40 * 4096 + n / 8
  { s with mem := Memory.write s.mem a (setBit (Memory.read s.mem a) (n % 8) host) }

/-- Every copy of a page in L1, stash, L2 and LLC goes back to DRAM, with SNOOP applied at its lines (R422). Words a channel
holds registered stay with it. -/
def cleanPage (s : State) (page : Nat) : State :=
  let here := fun (k : Nat) => k % 2 ^ 56 / 4096 == page
  let s := ((s.reg.map (·.1)).filter here).foldl (fun s k => match registerWord s (k / 2 ^ 56) (k % 2 ^ 56) with
    | .ok (s, _) => s
    | .error _ => s) s
  let s := ((s.die.map (·.1)).filter here).foldl (fun s k => match exportWord s (k / 2 ^ 56) (k % 2 ^ 56) with
    | .ok (s, _) => s
    | .error _ => s) s
  let s := ((s.lines.map (·.1)).filter here).foldl (fun s b => recallLine s b) s
  { s with llc := s.llc.filter fun (w, _) => !here w }

/-- A page goes to host bias (R422): copies back, then the bit. -/
def toHostBias (s : State) (page : Nat) : State := setBias (cleanPage s page) page true

/-- A page goes to device bias (R421): the host's copies are removed, then the bit; the device needs no permission there. -/
def toDeviceBias (s : State) (page : Nat) : State :=
  setBias { s with cxl := { s.cxl with hostLines := s.cxl.hostLines.filter fun p => p.1 / 4096 != page } } page false

/-- A flip ends (R421, R422). -/
def endFlip (s : State) : State :=
  if !s.cxl.flipbusy then s
  else
    let ps := s.cxl.flipPages
    let host := s.cxl.flipToHost
    let s := { s with cxl := { s.cxl with flipPages := [], flipbusy := false } }
    ps.foldl (fun s p => if host then toHostBias s p else toDeviceBias s p) s

/-- FLIP_TO_DEVICE_BIAS (R421): FLIPGO with FLIPDIR 0. -/
def execFlipToDeviceBias (s : State) : Out := .next (if s.cxl.flipdir then s else flipGo s)

/-- FLIP_TO_HOST_BIAS (R422): FLIPGO with FLIPDIR 1. -/
def execFlipToHostBias (s : State) : Out := .next (if s.cxl.flipdir then flipGo s else s)

/-- FLIP_DONE (R422). -/
def execFlipDone (s : State) : Out := .next (endFlip s)

/-- The host sets the memory mode and the size its HDM decoder decodes (R413): under mode 1 every page starts in host bias
(R420); other modes than 2 keep no snoop filter. -/
def setMode (s : State) (v size : Nat) : State :=
  let x := { s.cxl with mode := v, hdmsize := word size }
  let x := if v = 2 then x else { x with snoopFilter := [], biWait := [] }
  let t := { s with cxl := x }
  if v = 1 ∧ s.cxl.mode ≠ 1 then
    iterate (fun i t => setBias t (bits x.hdmbase 21 31 * 512 + i) true) (size / 4096) 0 t
  else t

/-- MODE (R420): CXL.mem needs CXL negotiated on the link. -/
def execMode (v size : Nat) (s : State) : Out :=
  .next (if s.link.cxl ∧ v ≤ 2 ∧ size < 2 ^ 64 then setMode s v size else s)

/-! ## The host's accesses to device memory (R418, R419, R421) -/

/-- The page of a host access under mode 1 is brought to host bias first; a page being flipped makes it wait. -/
def hostBiasFirst (s : State) (line : Nat) : Option State :=
  if s.cxl.mode ≠ 1 then some s
  else if s.cxl.flipPages.contains (line / 4096) then none
  else some (if hostBias s line then s else toHostBias s (line / 4096))

/-- The host's own request meets a back-invalidation of the line: it is completed, and the snoop goes out again (R418). A write
of the host is none: it may be the write-back of the data that the back-invalidation asks for. -/
def biConflict (s : State) (line : Nat) : State :=
  if s.cxl.biWait.any fun p => p.1 == line then { s with cxl := { s.cxl with biconf := s.cxl.biconf + 1 } } else s

/-- The data of a read that the host makes; that of a poisoned sector is free (R368). -/
def hdmData (s : State) (line : Nat) : Nat :=
  if poisoned s line 64 then (Config.freeWord s.tick).toNat else Memory.readN s.mem line 64

/-- A host read of HDM (R418, R421): the home takes the newest data and answers with it (S2M DRS, R412); under mode 2 the host then
holds a copy, in E or M it may be. -/
def hdmRead (s : State) (line : Nat) : State :=
  if s.cxl.mode = 0 ∨ !inHdm s line ∨ !engineFree s line 64 then s
  else match hostBiasFirst s line with
    | none => s
    | some s =>
      let s := biConflict (serveSnoop s line 1) line
      let s := { s with cxl := { s.cxl with drs := put s.cxl.drs line (hdmData s line) } }
      if s.cxl.mode = 2 then
        { s with cxl := { s.cxl with snoopFilter := (line, true) :: s.cxl.snoopFilter.filter fun p => p.1 != line } }
      else s

/-- M2S_REQ (R418). -/
def execM2sReq (line : Nat) (s : State) : Out := .next (hdmRead s (cxlLine line))

/-- A host write of HDM is placed at the home (R396, R419); a line registered to a channel makes it wait. What the host holds
of the line afterwards is its own matter. -/
def hdmWrite (s : State) (line : Nat) (bytes : List Byte) : State :=
  if s.cxl.mode = 0 ∨ !inHdm s line ∨ !engineFree s line 64 then s
  else match hostBiasFirst s line with
    | none => s
    | some s =>
      let s := if (find s.cxl.hostLines line).isSome then serveSnoop s line 1 else s
      { homeWrite s line 64 (numOf (bytes.take 64)) with cxl := s.cxl }

/-- M2S_RWD (R419). -/
def execM2sRwd (line : Nat) (bytes : List Byte) (s : State) : Out := .next (hdmWrite s (cxlLine line) bytes)

/-- A BIRsp (R418): the host keeps at most a clean copy after BISnpData, none after BISnpInv, and the waiting event goes on. -/
def biDone (s : State) (line : Nat) : State :=
  match s.cxl.biWait.find? fun p => p.1 == line with
  | none => s
  | some (_, write) =>
    let rest := s.cxl.snoopFilter.filter fun p => p.1 != line
    { s with cxl := { s.cxl with
      biWait := s.cxl.biWait.filter fun p => p.1 != line
      snoopFilter := if write then rest else (line, false) :: rest } }

/-- BIRSP (R418). -/
def execBirsp (line : Nat) (s : State) : Out := .next (biDone s (cxlLine line))

end Sys2Proof.Machine
end

