-- ==== Sys2Proof/Machine/LaneThread.lean ====
section
/-!
DEFINITION. Entering and leaving lane mode (R285, R286).
-/
namespace Sys2Proof.Machine

/-- lsplit (R285). -/
def execLsplit (x : BrM) (s : State) : Out := settle s do
  notLane s
  if !s.c.quiet then throw (.wait s)
  let k ← readK s x.k.val
  let c := s.c
  let lanes : BitVec 64 := k.setWidth 64
  if lanes = 0 then return s.withC c.advance
  else
    let t := c.at + wordOff x.off
    return s.withC { c with
      ord := c.ord + 1
      split := lanes
      arrived := 0
      lpc := Vector.ofFn fun l => if lanes.getLsbD l.val then t else vget c.lpc l.val 0
      lmode := true
      trapv := false
      handler := false
      laneTurn := 0 }

/-- ljoin (R286). The one that completes the join waits until the lanes' held stores have been performed (R302). The end test of
R149 is not made as the vector is re-formed, should the ljoin stand at the END of an active loop: R149 names it neither as an
instruction that completes there nor as a transfer, and R286 says only plus 4: a DESIGN CHOICE (log entry 96). -/
def execLjoin (s : State) : Out := settle s do
  let c := s.c
  if !c.laneOn then throw (.trap (classA cILLEGAL 0x0C (word 0x00000058) s.pc))
  let arrived := setBit c.arrived c.laneTurn.val true
  let c := { c with ord := c.ord + 1, arrived := arrived }.passTurn
  if arrived &&& c.split = c.split then
    if !s.c.sb.isEmpty then throw (.wait s)
    return s.withC { c with lmode := false, sc := { c.sc with pc := vget c.lpc (ctzFrom 64 c.split.toNat) 0 + 4 } }
  else return s.withC c

end Sys2Proof.Machine
end

