-- ==== Sys2Proof/Machine/PeerEvents.lean ====
section
/-!
DEFINITION. The steps of the Epbin link (R405 to R409): ports, requests from peers, and the answers of peers.
-/
namespace Sys2Proof.Machine

/-- PORT_UP (R405, R410): a port trains unless it is held down, or goes down. -/
def execPortUp (port : Nat) (up : Bool) (s : State) : Out :=
  stepOf (decide (port < 36))
    (if up && s.link.portdis.getLsbD port then s
     else { s with link := { s.link with portup := setBit s.link.portup port up } })

/-- Whether a peer's request reads and whether it writes (R408): an update needs both. -/
def peerAccess : PeerOp → Bool × Bool
  | .read _ => (true, false)
  | .write .. => (false, true)
  | _ => (true, true)

/-- The bytes a peer's request covers. -/
def peerSize : PeerOp → Nat
  | .read n | .write n _ | .update _ n _ | .cas n .. => n
  | .arrive _ => 8

/-- The INGRESS entry that admits a request (R408). -/
def ingressOf (s : State) (dev spart a : Nat) (o : PeerOp) : Option (Nat × (Word × Word × Word)) :=
  s.link.ingress.find? fun (i, w, b, l) =>
    decide (i < 64) && bits w 0 10 == dev && bits w 11 5 == spart
      && (!(peerAccess o).1 || w.getLsbD 21) && (!(peerAccess o).2 || w.getLsbD 22) && bits w 21 2 != 0
      && decide (bits b 12 40 ≤ a / 4096) && decide ((a + peerSize o - 1) / 4096 ≤ bits l 12 40)

/-- An INGRESS entry admits a request (R408). -/
def admitted (s : State) (dev spart a : Nat) (o : PeerOp) : Bool := (ingressOf s dev spart a o).isSome

/-- The local partition of the entry that admits a request, the tag of a line it brings into the LLC (R408). -/
def ingressPart (s : State) (dev spart a : Nat) (o : PeerOp) : Nat :=
  match ingressOf s dev spart a o with
  | some (_, w, _, _) => bits w 16 5
  | none => 0

/-- The home refuses a write to the line of an address (R328, R329). -/
def homeRefuses (s : State) (a : Nat) : Bool :=
  match lineAt s a with
  | some (_, l) => (entryActs (entryFor s l evWR)).testBit 8
  | none => false

/-- The update of R167 that a number names. -/
def amoOf (o : Fin 9) : AmoOp := [AmoOp.add, .and, .or, .xor, .min, .max, .minu, .maxu, .swap].getD o.val .add

/-- The value a peer's request leaves, if it writes. -/
def peerResult (o : PeerOp) (old : Nat) : Option Nat :=
  match o with
  | .read _ => none
  | .write n v => some (v % 2 ^ (8 * n))
  | .update k n v => some (amoResult (amoOf k) n old v)
  | .cas n e w => if old = e % 2 ^ (8 * n) then some (w % 2 ^ (8 * n)) else none
  | .arrive amt => arriveWord old (amt % 2 ^ 32)

/-- The lines of a request's bytes are taken under the grain and slot of the requester's leaf (R315, R408); one that was not in
the LLC enters it with a partition tag. -/
def peerLines (s : State) (g sl p a n : Nat) : State :=
  iterate (fun i s =>
    let w := a / 32 * 32 + 32 * i
    let (t, b) := takeLine (touchGranule s 8 w) g sl w
    if (lineAt s w).isSome then t
    else match find t.lines b with
      | some l => { t with lines := put t.lines b { l with tag := some p } }
      | none => t) ((a % 32 + n + 31) / 32) 0 s

/-- What a home answers a peer: the value before, and for slot 3 the line's state (R329). -/
def peerAnswer (s : State) (dev a sl v : Nat) : State :=
  let s := answer s (32 + dev) v
  if sl = 3 then answer s (2048 + dev) (match lineAt s a with
    | some (_, l) => l.state
    | none => 0)
  else s

/-- A request from a peer is performed at the home slice if it is admitted, under the protocol slot of the requester's leaf
(R329, R408); a request to control space is refused, and one to words registered to an engine or to a draining slot waits. -/
def peerServe (s : State) (dev spart a g sl : Nat) (o : PeerOp) : State :=
  let n := peerSize o
  if ctlBase ≤ a + n ∨ !admitted s dev spart a o then s
  else if !engineFree s a n ∨ (vget s.slots sl {}).draining ∨ !(vget s.slots sl {}).active then s
  else
    let s := homeSettle (peerLines s g sl (ingressPart s dev spart a o) a n) a n
    if (peerAccess o).2 && homeRefuses s a then s
    else
      let (s, old) := hostRead s a n
      let s := if (peerAccess o).1 then peerAnswer s dev a sl old else s
      match peerResult o old with
      | some v => homeWrite s a n v
      | none => s

/-- PEER_REQUEST (R408). -/
def execPeerRequest (dev spart a : Nat) (r : PeerReq) (s : State) : Out :=
  stepOf (decide (dev < 1024)) (if r.grain < 3 ∧ r.slot < 8 then peerServe s dev spart a r.grain r.slot r.op else s)

/-- A place on a peer (R345). -/
abbrev onPeer (x : Xl) (_store : Bool) : Bool := !x.host && x.dev != 0

/-- The outstanding load of a sequencer on a peer, by place in its list. -/
def peerLoad (c : Ctx) : Option Nat := c.loads.findIdx? fun l => onPeer l.x false

/-- An answer of a peer performs what was asked: a load returns, a held instruction is performed (R405). -/
noncomputable def peerAnswered (s : State) (who : Asker) : State :=
  match who with
  | .chan ch => grainStep s ch
  | .seq q => match peerLoad (s.ctx q) with
    | some i => backEnd s q fun s q => loadStep s q i
    | none => match heldWhere (s.ctx q) onPeer with
      | some _ => backEnd s q heldStep
      | none => s
  | .dist _ => s

/-- PEER_COMPLETION (R405, R408). -/
noncomputable def execPeerCompletion (who : Asker) (refused : Bool) (s : State) : Out :=
  stepOf (isAsker who) (if refused then failRequest s who true onPeer 0x12 else peerAnswered s who)

/-- What a peer holds after a grain it did not acknowledge (R407): whether it performed the request is not known, a free bit. -/
noncomputable def outcomeUnknown (s : State) (ch : Nat) : State :=
  let s := { s with tick := s.tick + 1 }
  if Config.freeNat s.tick % 2 = 1 then { s with peerMem := (grainStep s ch).peerMem } else s

/-- PEER_TIMEOUT (R407): of a sequencer's write or update, what the peer has done is settled as the access stops (`inDoubt`). -/
noncomputable def execPeerTimeout (who : Asker) (s : State) : Out :=
  stepOf (isAsker who) (match who with
    | .chan ch => if (chanWhere s ch onPeer).isSome then failRequest (outcomeUnknown s ch) who true onPeer 0x11 else s
    | _ => failRequest s who true onPeer 0x11)

end Sys2Proof.Machine
end

