-- ==== Sys2Proof/Machine/Spr.lean ====
section
/-!
DEFINITION. The special-register forms and the vector configuration of the scalar side (R181, R182, R206, R207).
-/
namespace Sys2Proof.Machine

/-- A read of a special register waits: flags for older instructions that are not Detached, lfsr for older ones that round
with RSR, vl for an older vcomp (R122, R182, R221). -/
def Ctx.sprBusy (c : Ctx) (n : Nat) : Bool :=
  match n with
  | 0 => c.vqWritesVl
  | 3 => c.older.any fun e => e.form.op.restart != .detached
  | 5 => c.older.any (·.rsr)
  | _ => false

/-- A write of a special register waits: as a read does, and for the two registers that a squash does not roll back until
nothing older could be discarded (R24, R122, R182). -/
def Ctx.sprHolds (c : Ctx) (n : Nat) : Bool :=
  c.sprBusy n || ((n == 3 || n == 5) && !(c.viq.isEmpty && c.sb.isEmpty && c.loads.isEmpty))

/-- rdspr (R181); an unknown number is ILLEGAL before lane mode is looked at (R96). -/
def execRdspr (x : RdSpr) (s : State) : Out := settle s do
  match readSpr s s.cur x.spr.toNat with
  | none => throw (.trap (classA cILLEGAL 0 (word (0x0000001F + x.enc)) s.pc))
  | some v =>
    notLane s
    if s.c.sprBusy x.spr.toNat then throw (.wait s)
    freeDest s x.d.val
    return s.withC (s.c.put x.d.val v).advance

/-- wrspr (R181). -/
def execWrspr (x : WrSpr) (s : State) : Out := settle s do
  let n := x.spr.toNat
  let trap := fun (cause : Nat) => Stop.trap (classA cause 0 (word (0x4000001F + x.enc)) s.pc)
  if !sprWritable n then throw (trap cILLEGAL)
  notLane s
  let v ← readS s x.a.val x.ea (0x4000001F + x.enc)
  if s.c.sprHolds n then throw (.wait s)
  if n = 0 ∧ !tagKnown s.c.sc.cfgTag.toNat then throw (trap cTAG)
  if n = 4 ∧ 6 ≤ v.toNat % 8 then throw (trap cILLEGAL)
  return s.withC (s.c.writeSpr n v true).advance

/-- vtag (R206). -/
def execVtag (x : VTag) (s : State) : Out := settle s do
  notLane s
  let g : VCfg := { tag := x.tag, grp := x.grp, scaled := x.scaled, comp := x.comp }
  let c := s.c
  let v := (List.range (2 ^ x.grp.val)).foldl (fun v i => vset v (x.d.val + i) g) c.sc.vcfg
  return s.withC { c with sc := { c.sc with vcfg := v } }.advance

/-- setvl (R207). -/
def execSetvl (x : SetVl) (s : State) : Out := settle s do
  notLane s
  let a ← readS s x.a.val x.ea (0x8000002E + x.enc)
  if s.c.vqWritesVl then throw (.wait s)
  freeDest s x.d.val
  let n := min a.toNat (vlmax x.tag.toNat x.grp.val)
  let c := s.c.put x.d.val (word n)
  return s.withC { c with sc := { c.sc with vl := n, cfgTag := x.tag, cfgGrp := x.grp } }.advance

end Sys2Proof.Machine
end

