-- ==== Sys2Proof/Machine/System.lean ====
section
/-!
DEFINITION. The system forms (R288 to R293): yield, trap, tret, shut, halt, brk and probe.
-/
namespace Sys2Proof.Machine

/-- yield (R288): it waits until nothing older could be discarded by its squash, so that RESUME is its own next instruction, and
what the context has written can be performed at pkg (log entry 58). -/
def execYield (s : State) : Out := settle s do
  notLane s
  let c := s.c
  let q := s.cur
  if (c.run.any fun e => e.form.op.restart == .complete) || !tilesSettled s q then throw (.wait s)
  if !(c.viq.isEmpty && c.sb.isEmpty && c.loads.isEmpty) then throw (.wait s)
  let s ← restReady s q
  let s := s.withC s.c.advance
  if c.free then return s
  else match saveContext s q with
    | some t => return countEvent t 2
    | none => return saveFull s q

/-- trap (R289). -/
def execTrap (x : Imm14) (s : State) : Out := settle s do
  notLane s
  throw (.trap (classA cSOFTWARE 0 (x.code.setWidth 64) s.pc))

/-- tret (R290). -/
def execTret (s : State) : Out := settle s do
  notLane s
  if s.c.lmode && !s.c.quiet then throw (.wait s)
  let c := returnFrom s.c
  if c.lmode || !c.sc.rptAct then return s.withC c
  else
    let q := s.cur
    match fetchWord s q (c.sc.pc - word (4 * (c.sc.rptI + 1))) with
    | .ok (s, w) => return s.withC { c with sc := { c.sc with rptAct := isRpt w, rptRun := isRpt w, rptBuf := [] } }
    | .error (.wait s) => throw (.wait s)
    | .error (.stop ..) => return s.withC { c with sc := { c.sc with rptAct := false, rptRun := false } }

/-- shut (R291). -/
noncomputable def execShut (s : State) : Out := settle s do
  notLane s
  hold s .shut 0x0000005C []

/-- halt (R292). -/
def execHalt (s : State) : Out := settle s do
  notLane s
  if !s.c.quiet then throw (.wait s)
  let q := s.cur
  let s ← restReady s q
  let c := s.c.advance
  let s := s.withC { c with state := .stopped, resume := c.sc.pc, chainF := 0, stepping := false }
  return postKeeper s q { event := 2, pc := c.sc.pc }

/-- brk (R289). -/
def execBrk (x : Imm14) (s : State) : Out := settle s do
  notLane s
  throw (.trap (classA cBREAKPOINT 0 (x.code.setWidth 64) s.pc))

/-- probe (R293): its destination is empty until the walk completes. -/
def execProbe (x : Probe) (s : State) : Out := settle s do
  notLane s
  let a ← readS s x.a.val x.ea (0x0000005F + x.enc)
  if s.c.xfenceHeld then throw (.wait s)
  let l : Load :=
    { d := x.d.val, va := a, x := {}, n := 0, sign := false, pair := false, acq := none, ipc := s.pc
      word := BitVec.ofNat 32 (0x0000005F + x.enc), snap := s.c.sc, ord := s.c.ord, probe := some x.kind.val }
  issueLoad s l [x.d.val]

end Sys2Proof.Machine
end

