-- ==== Sys2Proof/Machine/TileFilm.lean ====
section
/-!
DEFINITION. The scalar-side tile and film forms (R257, R262, R264): tclaim, trel, twait and the film forms.
-/
namespace Sys2Proof.Machine

/-- The checks of a scalar-side form that names a tile: owned by the partition, claimed by the sequencer, older held claims
counting (R252, R390). -/
def namesTile (s : State) (t w : Nat) : Except Stop Unit :=
  match tileCheck s s.cur t with
  | some sub => .error (.trap (classA cILLEGAL sub (word w) s.pc))
  | none => .ok ()

/-- A film form other than fopen names a film the sequencer holds (R264, R390). -/
def namesFilm (s : State) (f w : Nat) : Except Stop Unit :=
  if (filmView s s.cur f).isSome then .ok () else .error (.trap (classA cILLEGAL 4 (word w) s.pc))

/-- A form that names a tile or film of a partition without TE0 traps with PIPE_UNOWNED, the last of its checks (R96, R349). -/
def ownsEngine (s : State) (w : Nat) : Except Stop Unit :=
  if (ownedPipes s s.cur).getLsbD 7 then .ok () else .error (.trap (classA cPIPE_UNOWNED 0 (word w) s.pc))

/-- A claim of a tile is still held (R390). -/
def Ctx.claimHeld (c : Ctx) (t : Nat) : Bool :=
  c.sb.any fun h => match h.op with
    | .tclaim u => u == t
    | _ => false

/-- A film configuration word with a reserved value, or a side band beside 128-byte rows (R255). -/
def badFilm (v : Word) : Bool :=
  decide (2 ≤ bits v 0 2) || bits v 2 2 == 3 || bits v 4 60 != 0 || (bits v 0 2 == 1 && bits v 2 2 != 0)

/-- tclaim (R257). -/
noncomputable def execTclaim (x : TOnly) (s : State) : Out := settle s do
  notLane s
  if !tileOwned s s.cur x.t.val then throw (.trap (classA cILLEGAL 2 (word (0x00000048 + x.enc)) s.pc))
  ownsEngine s (0x00000048 + x.enc)
  hold s (.tclaim x.t.val) (0x00000048 + x.enc) []

/-- trel (R257). -/
noncomputable def execTrel (x : TOnly) (s : State) : Out := settle s do
  notLane s
  namesTile s x.t.val (0x00800048 + x.enc)
  ownsEngine s (0x00800048 + x.enc)
  hold s (.trel x.t.val) (0x00800048 + x.enc) []

/-- twait (R262). -/
def execTwait (x : TOnly) (s : State) : Out := settle s do
  notLane s
  namesTile s x.t.val (0x0000004D + x.enc)
  ownsEngine s (0x0000004D + x.enc)
  if s.c.claimHeld x.t.val || tileBusy s s.cur x.t.val s.c.ord then
    return s.withC { s.c with wait := some (.tile x.t.val) }
  else return s.withC { s.c with wait := none }.advance

/-- fopen (R264). -/
noncomputable def execFopen (x : FOpen) (s : State) : Out := settle s do
  notLane s
  let v ← readS s x.x.val x.e (0x0000004F + x.enc)
  if !filmOwned s s.cur x.film.val then throw (.trap (classA cILLEGAL 2 (word (0x0000004F + x.enc)) s.pc))
  if badFilm v then throw (.trap (classA cILLEGAL 5 v s.pc))
  ownsEngine s (0x0000004F + x.enc)
  hold s (.fopen x.film.val v) (0x0000004F + x.enc) []

/-- fclose (R264). -/
noncomputable def execFclose (x : FOnly) (s : State) : Out := settle s do
  notLane s
  namesFilm s x.film.val (0x0080004F + x.enc)
  ownsEngine s (0x0080004F + x.enc)
  hold s (.fclose x.film.val) (0x0080004F + x.enc) []

/-- fdrop (R264). -/
noncomputable def execFdrop (x : FOnly) (s : State) : Out := settle s do
  notLane s
  namesFilm s x.film.val (0x0100004F + x.enc)
  ownsEngine s (0x0100004F + x.enc)
  hold s (.fdrop x.film.val) (0x0100004F + x.enc) []

/-- fstat (R264). -/
noncomputable def execFstat (x : FStat) (s : State) : Out := settle s do
  notLane s
  namesFilm s x.film.val (0x0180004F + x.enc)
  ownsEngine s (0x0180004F + x.enc)
  hold s (.fstat x.film.val x.x.val) (0x0180004F + x.enc) [x.x.val]

end Sys2Proof.Machine
end

