-- ==== Sys2Proof/Machine/Dispatch.lean ====
section
/-!
DEFINITION. The meaning of every row of the opcode table: one arm for each constructor of `Instr`, one call in each.
-/
namespace Sys2Proof.Machine

open Sys2Proof in /-- One operation of the current sequencer, or one step of another agent. -/ noncomputable
def exec (i : Instr) (s : State) : Host.Outcome State Fault Refusal :=
  match i with
  | .zeroWord x => Sys2Proof.Machine.execZeroWord x s
  | .reservedOpcode x => Sys2Proof.Machine.execReservedOpcode x s
  | .add x => Sys2Proof.Machine.execAdd x s
  | .sub x => Sys2Proof.Machine.execSub x s
  | .and x => Sys2Proof.Machine.execAnd x s
  | .or x => Sys2Proof.Machine.execOr x s
  | .xor x => Sys2Proof.Machine.execXor x s
  | .andn x => Sys2Proof.Machine.execAndn x s
  | .orn x => Sys2Proof.Machine.execOrn x s
  | .shl x => Sys2Proof.Machine.execShl x s
  | .shr x => Sys2Proof.Machine.execShr x s
  | .sar x => Sys2Proof.Machine.execSar x s
  | .rol x => Sys2Proof.Machine.execRol x s
  | .ror x => Sys2Proof.Machine.execRor x s
  | .slt x => Sys2Proof.Machine.execSlt x s
  | .sltu x => Sys2Proof.Machine.execSltu x s
  | .min x => Sys2Proof.Machine.execMin x s
  | .max x => Sys2Proof.Machine.execMax x s
  | .minu x => Sys2Proof.Machine.execMinu x s
  | .maxu x => Sys2Proof.Machine.execMaxu x s
  | .mul x => Sys2Proof.Machine.execMul x s
  | .mulh x => Sys2Proof.Machine.execMulh x s
  | .mulhu x => Sys2Proof.Machine.execMulhu x s
  | .div x => Sys2Proof.Machine.execDiv x s
  | .divu x => Sys2Proof.Machine.execDivu x s
  | .rem x => Sys2Proof.Machine.execRem x s
  | .remu x => Sys2Proof.Machine.execRemu x s
  | .clz x => Sys2Proof.Machine.execClz x s
  | .ctz x => Sys2Proof.Machine.execCtz x s
  | .popc x => Sys2Proof.Machine.execPopc x s
  | .bswap x => Sys2Proof.Machine.execBswap x s
  | .sextB x => Sys2Proof.Machine.execSextB x s
  | .sextH x => Sys2Proof.Machine.execSextH x s
  | .sextW x => Sys2Proof.Machine.execSextW x s
  | .zextW x => Sys2Proof.Machine.execZextW x s
  | .addi x => Sys2Proof.Machine.execAddi x s
  | .andi x => Sys2Proof.Machine.execAndi x s
  | .ori x => Sys2Proof.Machine.execOri x s
  | .xori x => Sys2Proof.Machine.execXori x s
  | .shli x => Sys2Proof.Machine.execShli x s
  | .shri x => Sys2Proof.Machine.execShri x s
  | .sari x => Sys2Proof.Machine.execSari x s
  | .roli x => Sys2Proof.Machine.execRoli x s
  | .slti x => Sys2Proof.Machine.execSlti x s
  | .sltiu x => Sys2Proof.Machine.execSltiu x s
  | .setk x => Sys2Proof.Machine.execSetk x s
  | .setz x => Sys2Proof.Machine.execSetz x s
  | .addpc x => Sys2Proof.Machine.execAddpc x s
  | .brEq x => Sys2Proof.Machine.execBrEq x s
  | .brNe x => Sys2Proof.Machine.execBrNe x s
  | .brLt x => Sys2Proof.Machine.execBrLt x s
  | .brGe x => Sys2Proof.Machine.execBrGe x s
  | .brLtu x => Sys2Proof.Machine.execBrLtu x s
  | .brGeu x => Sys2Proof.Machine.execBrGeu x s
  | .brmAny x => Sys2Proof.Machine.execBrmAny x s
  | .brmAll x => Sys2Proof.Machine.execBrmAll x s
  | .brmNone x => Sys2Proof.Machine.execBrmNone x s
  | .jal x => Sys2Proof.Machine.execJal x s
  | .jalr x => Sys2Proof.Machine.execJalr x s
  | .loop x => Sys2Proof.Machine.execLoop x s
  | .loopi x => Sys2Proof.Machine.execLoopi x s
  | .lbrk => Sys2Proof.Machine.execLbrk s
  | .rpt x => Sys2Proof.Machine.execRpt x s
  | .ldBz x => Sys2Proof.Machine.execLdBz x s
  | .ldBs x => Sys2Proof.Machine.execLdBs x s
  | .ldHz x => Sys2Proof.Machine.execLdHz x s
  | .ldHs x => Sys2Proof.Machine.execLdHs x s
  | .ldWz x => Sys2Proof.Machine.execLdWz x s
  | .ldWs x => Sys2Proof.Machine.execLdWs x s
  | .ldD x => Sys2Proof.Machine.execLdD x s
  | .stB x => Sys2Proof.Machine.execStB x s
  | .stH x => Sys2Proof.Machine.execStH x s
  | .stW x => Sys2Proof.Machine.execStW x s
  | .stD x => Sys2Proof.Machine.execStD x s
  | .ldp x => Sys2Proof.Machine.execLdp x s
  | .stp x => Sys2Proof.Machine.execStp x s
  | .ldacq x => Sys2Proof.Machine.execLdacq x s
  | .strel x => Sys2Proof.Machine.execStrel x s
  | .amoAdd x => Sys2Proof.Machine.execAmoAdd x s
  | .amoAnd x => Sys2Proof.Machine.execAmoAnd x s
  | .amoOr x => Sys2Proof.Machine.execAmoOr x s
  | .amoXor x => Sys2Proof.Machine.execAmoXor x s
  | .amoMin x => Sys2Proof.Machine.execAmoMin x s
  | .amoMax x => Sys2Proof.Machine.execAmoMax x s
  | .amoMinu x => Sys2Proof.Machine.execAmoMinu x s
  | .amoMaxu x => Sys2Proof.Machine.execAmoMaxu x s
  | .amoSwap x => Sys2Proof.Machine.execAmoSwap x s
  | .cas x => Sys2Proof.Machine.execCas x s
  | .casQ x => Sys2Proof.Machine.execCasQ x s
  | .fenceAcq x => Sys2Proof.Machine.execFenceAcq x s
  | .fenceRel x => Sys2Proof.Machine.execFenceRel x s
  | .fenceAr x => Sys2Proof.Machine.execFenceAr x s
  | .fenceSc x => Sys2Proof.Machine.execFenceSc x s
  | .xfenceAll x => Sys2Proof.Machine.execXfenceAll x s
  | .xfenceSpace x => Sys2Proof.Machine.execXfenceSpace x s
  | .xfencePage x => Sys2Proof.Machine.execXfencePage x s
  | .waita x => Sys2Proof.Machine.execWaita x s
  | .barArr x => Sys2Proof.Machine.execBarArr x s
  | .barWait x => Sys2Proof.Machine.execBarWait x s
  | .barAw x => Sys2Proof.Machine.execBarAw x s
  | .clineClean x => Sys2Proof.Machine.execClineClean x s
  | .clineInv x => Sys2Proof.Machine.execClineInv x s
  | .clineFlush x => Sys2Proof.Machine.execClineFlush x s
  | .clineZero x => Sys2Proof.Machine.execClineZero x s
  | .stashMap x => Sys2Proof.Machine.execStashMap x s
  | .stashUnmap x => Sys2Proof.Machine.execStashUnmap x s
  | .stashFlush x => Sys2Proof.Machine.execStashFlush x s
  | .stashPin x => Sys2Proof.Machine.execStashPin x s
  | .stashUnpin x => Sys2Proof.Machine.execStashUnpin x s
  | .prefL2 x => Sys2Proof.Machine.execPrefL2 x s
  | .prefLlc x => Sys2Proof.Machine.execPrefLlc x s
  | .prefStash x => Sys2Proof.Machine.execPrefStash x s
  | .rdspr x => Sys2Proof.Machine.execRdspr x s
  | .wrspr x => Sys2Proof.Machine.execWrspr x s
  | .vadd x => Sys2Proof.Machine.execVadd x s
  | .vsub x => Sys2Proof.Machine.execVsub x s
  | .vmul x => Sys2Proof.Machine.execVmul x s
  | .vmin x => Sys2Proof.Machine.execVmin x s
  | .vmax x => Sys2Proof.Machine.execVmax x s
  | .vand x => Sys2Proof.Machine.execVand x s
  | .vor x => Sys2Proof.Machine.execVor x s
  | .vxor x => Sys2Proof.Machine.execVxor x s
  | .vshl x => Sys2Proof.Machine.execVshl x s
  | .vshr x => Sys2Proof.Machine.execVshr x s
  | .vsar x => Sys2Proof.Machine.execVsar x s
  | .vabd x => Sys2Proof.Machine.execVabd x s
  | .vavg x => Sys2Proof.Machine.execVavg x s
  | .vadds x => Sys2Proof.Machine.execVadds x s
  | .vsubs x => Sys2Proof.Machine.execVsubs x s
  | .vmulh x => Sys2Proof.Machine.execVmulh x s
  | .vaddS x => Sys2Proof.Machine.execVaddS x s
  | .vsubS x => Sys2Proof.Machine.execVsubS x s
  | .vmulS x => Sys2Proof.Machine.execVmulS x s
  | .vminS x => Sys2Proof.Machine.execVminS x s
  | .vmaxS x => Sys2Proof.Machine.execVmaxS x s
  | .vandS x => Sys2Proof.Machine.execVandS x s
  | .vorS x => Sys2Proof.Machine.execVorS x s
  | .vxorS x => Sys2Proof.Machine.execVxorS x s
  | .vshlS x => Sys2Proof.Machine.execVshlS x s
  | .vshrS x => Sys2Proof.Machine.execVshrS x s
  | .vsarS x => Sys2Proof.Machine.execVsarS x s
  | .vabdS x => Sys2Proof.Machine.execVabdS x s
  | .vavgS x => Sys2Proof.Machine.execVavgS x s
  | .vaddsS x => Sys2Proof.Machine.execVaddsS x s
  | .vsubsS x => Sys2Proof.Machine.execVsubsS x s
  | .vmulhS x => Sys2Proof.Machine.execVmulhS x s
  | .vaddI x => Sys2Proof.Machine.execVaddI x s
  | .vsubI x => Sys2Proof.Machine.execVsubI x s
  | .vmulI x => Sys2Proof.Machine.execVmulI x s
  | .vminI x => Sys2Proof.Machine.execVminI x s
  | .vmaxI x => Sys2Proof.Machine.execVmaxI x s
  | .vandI x => Sys2Proof.Machine.execVandI x s
  | .vorI x => Sys2Proof.Machine.execVorI x s
  | .vxorI x => Sys2Proof.Machine.execVxorI x s
  | .vshlI x => Sys2Proof.Machine.execVshlI x s
  | .vshrI x => Sys2Proof.Machine.execVshrI x s
  | .vsarI x => Sys2Proof.Machine.execVsarI x s
  | .vabdI x => Sys2Proof.Machine.execVabdI x s
  | .vavgI x => Sys2Proof.Machine.execVavgI x s
  | .vaddsI x => Sys2Proof.Machine.execVaddsI x s
  | .vsubsI x => Sys2Proof.Machine.execVsubsI x s
  | .vmulhI x => Sys2Proof.Machine.execVmulhI x s
  | .vfma x => Sys2Proof.Machine.execVfma x s
  | .vfms x => Sys2Proof.Machine.execVfms x s
  | .vfnma x => Sys2Proof.Machine.execVfnma x s
  | .vfnms x => Sys2Proof.Machine.execVfnms x s
  | .vmacw x => Sys2Proof.Machine.execVmacw x s
  | .vcmpEq x => Sys2Proof.Machine.execVcmpEq x s
  | .vcmpNe x => Sys2Proof.Machine.execVcmpNe x s
  | .vcmpLt x => Sys2Proof.Machine.execVcmpLt x s
  | .vcmpLe x => Sys2Proof.Machine.execVcmpLe x s
  | .vcmpGt x => Sys2Proof.Machine.execVcmpGt x s
  | .vcmpGe x => Sys2Proof.Machine.execVcmpGe x s
  | .vcmpUn x => Sys2Proof.Machine.execVcmpUn x s
  | .vsel x => Sys2Proof.Machine.execVsel x s
  | .vcvt x => Sys2Proof.Machine.execVcvt x s
  | .vshrr x => Sys2Proof.Machine.execVshrr x s
  | .vdiv x => Sys2Proof.Machine.execVdiv x s
  | .vsqrt x => Sys2Proof.Machine.execVsqrt x s
  | .vrcp x => Sys2Proof.Machine.execVrcp x s
  | .vrsqrt x => Sys2Proof.Machine.execVrsqrt x s
  | .vexp2 x => Sys2Proof.Machine.execVexp2 x s
  | .vlog2 x => Sys2Proof.Machine.execVlog2 x s
  | .vdot x => Sys2Proof.Machine.execVdot x s
  | .vredSum x => Sys2Proof.Machine.execVredSum x s
  | .vredMax x => Sys2Proof.Machine.execVredMax x s
  | .vredMin x => Sys2Proof.Machine.execVredMin x s
  | .vredAnd x => Sys2Proof.Machine.execVredAnd x s
  | .vredOr x => Sys2Proof.Machine.execVredOr x s
  | .vredXor x => Sys2Proof.Machine.execVredXor x s
  | .vsign x => Sys2Proof.Machine.execVsign x s
  | .vmov x => Sys2Proof.Machine.execVmov x s
  | .vsplat x => Sys2Proof.Machine.execVsplat x s
  | .vsplati x => Sys2Proof.Machine.execVsplati x s
  | .vget x => Sys2Proof.Machine.execVget x s
  | .vput x => Sys2Proof.Machine.execVput x s
  | .vtag x => Sys2Proof.Machine.execVtag x s
  | .setvl x => Sys2Proof.Machine.execSetvl x s
  | .vslideUp x => Sys2Proof.Machine.execVslideUp x s
  | .vslideDn x => Sys2Proof.Machine.execVslideDn x s
  | .vld x => Sys2Proof.Machine.execVld x s
  | .vst x => Sys2Proof.Machine.execVst x s
  | .vlds x => Sys2Proof.Machine.execVlds x s
  | .vsts x => Sys2Proof.Machine.execVsts x s
  | .vldx x => Sys2Proof.Machine.execVldx x s
  | .vldxC x => Sys2Proof.Machine.execVldxC x s
  | .vldxDup x => Sys2Proof.Machine.execVldxDup x s
  | .vstx x => Sys2Proof.Machine.execVstx x s
  | .vamoAdd x => Sys2Proof.Machine.execVamoAdd x s
  | .vamoAnd x => Sys2Proof.Machine.execVamoAnd x s
  | .vamoOr x => Sys2Proof.Machine.execVamoOr x s
  | .vamoXor x => Sys2Proof.Machine.execVamoXor x s
  | .vamoMin x => Sys2Proof.Machine.execVamoMin x s
  | .vamoMax x => Sys2Proof.Machine.execVamoMax x s
  | .vamoMinu x => Sys2Proof.Machine.execVamoMinu x s
  | .vamoMaxu x => Sys2Proof.Machine.execVamoMaxu x s
  | .vamoSwap x => Sys2Proof.Machine.execVamoSwap x s
  | .vcomp x => Sys2Proof.Machine.execVcomp x s
  | .vexpand x => Sys2Proof.Machine.execVexpand x s
  | .vperm x => Sys2Proof.Machine.execVperm x s
  | .vzip x => Sys2Proof.Machine.execVzip x s
  | .vunzip x => Sys2Proof.Machine.execVunzip x s
  | .vtrn x => Sys2Proof.Machine.execVtrn x s
  | .kand x => Sys2Proof.Machine.execKand x s
  | .kor x => Sys2Proof.Machine.execKor x s
  | .kxor x => Sys2Proof.Machine.execKxor x s
  | .knot x => Sys2Proof.Machine.execKnot x s
  | .kandn x => Sys2Proof.Machine.execKandn x s
  | .kpopc x => Sys2Proof.Machine.execKpopc x s
  | .kfirst x => Sys2Proof.Machine.execKfirst x s
  | .kvl x => Sys2Proof.Machine.execKvl x s
  | .kfrom x => Sys2Proof.Machine.execKfrom x s
  | .vlk x => Sys2Proof.Machine.execVlk x s
  | .vmcast x => Sys2Proof.Machine.execVmcast x s
  | .vrecv x => Sys2Proof.Machine.execVrecv x s
  | .viota x => Sys2Proof.Machine.execViota x s
  | .vidx x => Sys2Proof.Machine.execVidx x s
  | .vflgRd x => Sys2Proof.Machine.execVflgRd x s
  | .vflgClr x => Sys2Proof.Machine.execVflgClr x s
  | .wld x => Sys2Proof.Machine.execWld x s
  | .wst x => Sys2Proof.Machine.execWst x s
  | .wmul x => Sys2Proof.Machine.execWmul x s
  | .wmac x => Sys2Proof.Machine.execWmac x s
  | .wmult x => Sys2Proof.Machine.execWmult x s
  | .wchol x => Sys2Proof.Machine.execWchol x s
  | .wlu x => Sys2Proof.Machine.execWlu x s
  | .wsolveC x => Sys2Proof.Machine.execWsolveC x s
  | .wsolveP x => Sys2Proof.Machine.execWsolveP x s
  | .wadd x => Sys2Proof.Machine.execWadd x s
  | .wsub x => Sys2Proof.Machine.execWsub x s
  | .wscal x => Sys2Proof.Machine.execWscal x s
  | .wtrn x => Sys2Proof.Machine.execWtrn x s
  | .wid x => Sys2Proof.Machine.execWid x s
  | .wcpy x => Sys2Proof.Machine.execWcpy x s
  | .wdim x => Sys2Proof.Machine.execWdim x s
  | .wget x => Sys2Proof.Machine.execWget x s
  | .wput x => Sys2Proof.Machine.execWput x s
  | .tclaim x => Sys2Proof.Machine.execTclaim x s
  | .trel x => Sys2Proof.Machine.execTrel x s
  | .tacc x => Sys2Proof.Machine.execTacc x s
  | .tmma x => Sys2Proof.Machine.execTmma x s
  | .tmms x => Sys2Proof.Machine.execTmms x s
  | .tread x => Sys2Proof.Machine.execTread x s
  | .twrite x => Sys2Proof.Machine.execTwrite x s
  | .twait x => Sys2Proof.Machine.execTwait x s
  | .tepi x => Sys2Proof.Machine.execTepi x s
  | .fopen x => Sys2Proof.Machine.execFopen x s
  | .fclose x => Sys2Proof.Machine.execFclose x s
  | .fdrop x => Sys2Proof.Machine.execFdrop x s
  | .fstat x => Sys2Proof.Machine.execFstat x s
  | .cpy x => Sys2Proof.Machine.execCpy x s
  | .cpyM x => Sys2Proof.Machine.execCpyM x s
  | .gath x => Sys2Proof.Machine.execGath x s
  | .chanWm x => Sys2Proof.Machine.execChanWm x s
  | .chanWait x => Sys2Proof.Machine.execChanWait x s
  | .chanCancel x => Sys2Proof.Machine.execChanCancel x s
  | .chanStat x => Sys2Proof.Machine.execChanStat x s
  | .enqTask x => Sys2Proof.Machine.execEnqTask x s
  | .enqLaunch x => Sys2Proof.Machine.execEnqLaunch x s
  | .depd x => Sys2Proof.Machine.execDepd x s
  | .pgrant x => Sys2Proof.Machine.execPgrant x s
  | .tdone => Sys2Proof.Machine.execTdone s
  | .lsplit x => Sys2Proof.Machine.execLsplit x s
  | .ljoin => Sys2Proof.Machine.execLjoin s
  | .yield => Sys2Proof.Machine.execYield s
  | .trap x => Sys2Proof.Machine.execTrap x s
  | .tret => Sys2Proof.Machine.execTret s
  | .shut => Sys2Proof.Machine.execShut s
  | .halt => Sys2Proof.Machine.execHalt s
  | .brk x => Sys2Proof.Machine.execBrk x s
  | .probe x => Sys2Proof.Machine.execProbe x s
  | .vectorStart q => Sys2Proof.Machine.execVectorStart q s
  | .groupCommit q => Sys2Proof.Machine.execGroupCommit q s
  | .vectorComplete q => Sys2Proof.Machine.execVectorComplete q s
  | .heldPerform q => Sys2Proof.Machine.execHeldPerform q s
  | .loadReturn q n => Sys2Proof.Machine.execLoadReturn q n s
  | .divideResult q n => Sys2Proof.Machine.execDivideResult q n s
  | .detachedComplete c t => Sys2Proof.Machine.execDetachedComplete c t s
  | .tmmaStart c t => Sys2Proof.Machine.execTmmaStart c t s
  | .vmcastReserve q => Sys2Proof.Machine.execVmcastReserve q s
  | .vmcastLand q => Sys2Proof.Machine.execVmcastLand q s
  | .vrecvBind q => Sys2Proof.Machine.execVrecvBind q s
  | .waitaWake q => Sys2Proof.Machine.execWaitaWake q s
  | .waitaPoll q => Sys2Proof.Machine.execWaitaPoll q s
  | .waitaTimeout q => Sys2Proof.Machine.execWaitaTimeout q s
  | .barWake q => Sys2Proof.Machine.execBarWake q s
  | .channelCommandStart ch => Sys2Proof.Machine.execChannelCommandStart ch s
  | .grainMove m => Sys2Proof.Machine.execGrainMove m s
  | .copyComplete ch => Sys2Proof.Machine.execCopyComplete ch s
  | .trapInContext q => Sys2Proof.Machine.execTrapInContext q s
  | .trapToKeeper q => Sys2Proof.Machine.execTrapToKeeper q s
  | .eventPlace p => Sys2Proof.Machine.execEventPlace p s
  | .successorPlace n => Sys2Proof.Machine.execSuccessorPlace n s
  | .sliceEnd q => Sys2Proof.Machine.execSliceEnd q s
  | .resumeSaved q => Sys2Proof.Machine.execResumeSaved q s
  | .selection q => Sys2Proof.Machine.execSelection q s
  | .bind q => Sys2Proof.Machine.execBind q s
  | .stagingStart die qu n => Sys2Proof.Machine.execStagingStart die qu n s
  | .granuleMove g stack => Sys2Proof.Machine.execGranuleMove g stack s
  | .stopComplete q => Sys2Proof.Machine.execStopComplete q s
  | .ownershipPass c it => Sys2Proof.Machine.execOwnershipPass c it s
  | .register c a => Sys2Proof.Machine.execRegister c a s
  | .exportWord die a => Sys2Proof.Machine.execExportWord die a s
  | .deliver src dst => Sys2Proof.Machine.execDeliver src dst s
  | .rd die line => Sys2Proof.Machine.execRd die line s
  | .wr die line => Sys2Proof.Machine.execWr die line s
  | .wro die line => Sys2Proof.Machine.execWro die line s
  | .drop die line => Sys2Proof.Machine.execDrop die line s
  | .dropl die line => Sys2Proof.Machine.execDropl die line s
  | .wbl die line => Sys2Proof.Machine.execWbl die line s
  | .snoop line => Sys2Proof.Machine.execSnoop line s
  | .cmo line => Sys2Proof.Machine.execCmo line s
  | .purge line => Sys2Proof.Machine.execPurge line s
  | .errorDetected e => Sys2Proof.Machine.execErrorDetected e s
  | .ctlStop q => Sys2Proof.Machine.execCtlStop q s
  | .ctlResume q => Sys2Proof.Machine.execCtlResume q s
  | .ctlStep q => Sys2Proof.Machine.execCtlStep q s
  | .ctlDiscard q => Sys2Proof.Machine.execCtlDiscard q s
  | .root q v => Sys2Proof.Machine.execRoot q v s
  | .head qu v => Sys2Proof.Machine.execHead qu v s
  | .en qu v => Sys2Proof.Machine.execEn qu v s
  | .counter qu n v => Sys2Proof.Machine.execCounter qu n v s
  | .channelResume ch => Sys2Proof.Machine.execChannelResume ch s
  | .channelCancel ch => Sys2Proof.Machine.execChannelCancel ch s
  | .coreCommit c => Sys2Proof.Machine.execCoreCommit c s
  | .partitionReset p => Sys2Proof.Machine.execPartitionReset p s
  | .partitionResetDone p => Sys2Proof.Machine.execPartitionResetDone p s
  | .window p n v => Sys2Proof.Machine.execWindow p n v s
  | .qcount p v => Sys2Proof.Machine.execQcount p v s
  | .printmask p v => Sys2Proof.Machine.execPrintmask p v s
  | .pingran page v => Sys2Proof.Machine.execPingran page v s
  | .load sl => Sys2Proof.Machine.execLoad sl s
  | .slotDrainDone sl => Sys2Proof.Machine.execSlotDrainDone sl s
  | .save => Sys2Proof.Machine.execSave s
  | .saveDone => Sys2Proof.Machine.execSaveDone s
  | .restore => Sys2Proof.Machine.execRestore s
  | .restoreDone => Sys2Proof.Machine.execRestoreDone s
  | .abort => Sys2Proof.Machine.execAbort s
  | .fire => Sys2Proof.Machine.execFire s
  | .rearm => Sys2Proof.Machine.execRearm s
  | .evcount => Sys2Proof.Machine.execEvcount s
  | .reportRequest => Sys2Proof.Machine.execReportRequest s
  | .reportDone => Sys2Proof.Machine.execReportDone s
  | .powercap v => Sys2Proof.Machine.execPowercap v s
  | .printCommit e => Sys2Proof.Machine.execPrintCommit e s
  | .printStart e => Sys2Proof.Machine.execPrintStart e s
  | .printDone e => Sys2Proof.Machine.execPrintDone e s
  | .registerWrite a v => Sys2Proof.Machine.execRegisterWrite a v s
  | .powerOn => Sys2Proof.Machine.execPowerOn s
  | .coldReset => Sys2Proof.Machine.execColdReset s
  | .linkUp speed width flit cxl atomics => Sys2Proof.Machine.execLinkUp speed width flit cxl atomics s
  | .bar0Write fn off size v => Sys2Proof.Machine.execBar0Write fn off size v s
  | .bar0Atomicop fn off => Sys2Proof.Machine.execBar0Atomicop fn off s
  | .bar2Read fn off size => Sys2Proof.Machine.execBar2Read fn off size s
  | .bar2Write fn off bytes => Sys2Proof.Machine.execBar2Write fn off bytes s
  | .bar2Atomicop fn off size op v w => Sys2Proof.Machine.execBar2Atomicop fn off size op v w s
  | .vfEnable n => Sys2Proof.Machine.execVfEnable n s
  | .vfDisable => Sys2Proof.Machine.execVfDisable s
  | .vfFlr p => Sys2Proof.Machine.execVfFlr p s
  | .pfFlr => Sys2Proof.Machine.execPfFlr s
  | .atsCompletion n r => Sys2Proof.Machine.execAtsCompletion n r s
  | .pageRequestResponse n r => Sys2Proof.Machine.execPageRequestResponse n r s
  | .priEnable fn on alloc => Sys2Proof.Machine.execPriEnable fn on alloc s
  | .invalidateRequest fn pasid lo hi => Sys2Proof.Machine.execInvalidateRequest fn pasid lo hi s
  | .invalidateCompletion => Sys2Proof.Machine.execInvalidateCompletion s
  | .hostCompletionError who ca => Sys2Proof.Machine.execHostCompletionError who ca s
  | .completionTimeout who => Sys2Proof.Machine.execCompletionTimeout who s
  | .snpdata line => Sys2Proof.Machine.execSnpdata line s
  | .snpinv line => Sys2Proof.Machine.execSnpinv line s
  | .snpcur line => Sys2Proof.Machine.execSnpcur line s
  | .hostCacheResponse r => Sys2Proof.Machine.execHostCacheResponse r s
  | .m2sReq line => Sys2Proof.Machine.execM2sReq line s
  | .m2sRwd line bytes => Sys2Proof.Machine.execM2sRwd line bytes s
  | .birsp line => Sys2Proof.Machine.execBirsp line s
  | .mode v size => Sys2Proof.Machine.execMode v size s
  | .flipToDeviceBias => Sys2Proof.Machine.execFlipToDeviceBias s
  | .flipToHostBias => Sys2Proof.Machine.execFlipToHostBias s
  | .flipDone => Sys2Proof.Machine.execFlipDone s
  | .portUp port up => Sys2Proof.Machine.execPortUp port up s
  | .peerRequest dev spart a r => Sys2Proof.Machine.execPeerRequest dev spart a r s
  | .peerCompletion who refused => Sys2Proof.Machine.execPeerCompletion who refused s
  | .peerTimeout who => Sys2Proof.Machine.execPeerTimeout who s
  | .illegal w => Sys2Proof.Machine.execIllegal w s
  | .cxlCacheEnable => Sys2Proof.Machine.execCxlCacheEnable s

end Sys2Proof.Machine
end

