-- ==== Sys2Proof/Machine/Run.lean ====
section
/-!
DEFINITION. What a step of the machine calls: the fetch of one sequencer and what it needs (R15, R37, R42, R157, R158), the
other moves of the agenda, the round of steps the machine takes where its agenda says nothing, and the passing of time (R5).
-/
namespace Sys2Proof.Machine

/-! ## Fetch -/

/-- The lane whose turn it is: the first from `laneTurn` on that is split and has not arrived (R37, R39). -/
def laneFor (c : Ctx) : Option (Fin 64) :=
  ((List.range 64).map fun i => Fin.ofNat 64 (c.laneTurn.val + i)).find? fun l =>
    c.split.getLsbD l.val && !c.arrived.getLsbD l.val

/-- Scalar-side instructions executed since the oldest vector-queue instruction that has not started (R15). -/
def runAheadCount (c : Ctx) : Nat :=
  match c.viq with
  | [] => 0
  | e :: _ => c.ord - e.ord - c.viq.length

/-- A held tdone ends what the context runs. -/
def endsTask (c : Ctx) : Bool := c.sb.any fun h => h.op == .tdone

/-- A held arrival of a bar.aw, at which the scalar side stands (R176). -/
def arrivalHeld (c : Ctx) : Bool := c.sb.any fun h => match h.op with
  | .barAw .. => true
  | _ => false

/-- A sequencer may execute its next instruction: it runs, sleeps on no word, holds no trap, has run less than 256
scalar-side instructions ahead (R15: a full VIQ stalls only the next instruction that would enter it, and scalar-side ones go on
past it up to that number, a DESIGN CHOICE, log entry 97), follows no outstanding acquire at die or wider, whose writes its fetch is to see (R436), and
a STEP has not run its instruction (R337). A twait, which sleeps, looks again. -/
def canFetch (s : State) (q : Nat) : Bool :=
  let c := s.ctx q
  let awake := match c.wait with
    | none => true
    | some (.tile _) => true
    | some _ => false
  (c.state == .running) && awake && c.pend.isNone && !endsTask c && !arrivalHeld c && !c.acquiring
    && decide (runAheadCount c < 256)
    && !(c.stepping && decide (c.stepNeed ≤ c.ord)) && (!c.laneOn || (laneFor c).isSome)

/-- The sequencer whose instruction executes is the current one, and in lane mode the lane in turn. -/
def prepare (s : State) (q : Nat) : State :=
  let c := s.ctx q
  let c := if c.laneOn then { c with laneTurn := (laneFor c).getD c.laneTurn } else c
  { s.setCtx q c with cur := q }

/-- The instruction word that executes next: a repeat frame that a resume has brought back is captured again first (R158). -/
def fetchNext (s : State) : Except Stop (State × Nat) := do
  let s ← if !s.c.laneOn && s.c.sc.rptRun && s.c.sc.rptBuf.isEmpty then resumeFrame s s.cur else .ok s
  nextWord s

/-- A RESUME whose instruction is no bar.aw clears the arrival a bar.aw has made (R176); one that is a bar.aw has run again. -/
def keepArrival (i : Instr) (c : Ctx) : Ctx :=
  match i with
  | .barAw _ => { c with retry := false }
  | _ => if c.retry then { c with awDone := false } else c

/-- An instruction of the current sequencer executes. -/
noncomputable def runInstr (i : Instr) (s : State) : Out := exec i (s.withC (keepArrival i s.c))

/-- After an instruction of a sequencer that stood at place `ord` of its program: once it has moved on no command is continued any
more (R271); one that has not is blocked for the time being (R35). -/
def movedOn (s : State) (q ord : Nat) : State :=
  let c := s.ctx q
  if c.ord = ord then s.setCtx q { c with idle := c.state == .running } else s.setCtx q { c with idle := false, retry := false }

/-- The next instruction of the current sequencer: fetched, decoded and executed. -/
noncomputable def executeNext (s : State) : Out :=
  match fetchNext s with
  | .error e => settle s (.error e)
  | .ok (t, w) =>
    match runInstr (decode (BitVec.ofNat 32 w)) t with
    | .next u => .next (movedOn u s.cur s.c.ord)
    | r => r

/-- A sequencer executes one instruction, if it may. -/
noncomputable def fetchStep (s : State) (q : Nat) : Out :=
  if canFetch s q then executeNext (prepare s q) else .next s

/-! ## Caches and time -/

/-- A core's cache brings in a copy word from its die point (R298): only where the die holds the line. -/
def bringCopy (s : State) (c w : Nat) : State :=
  match lineAt s w with
  | some (_, l) => if l.holders.getLsbD (coreDie c) then keepCopy { s with stamp := s.stamp + 1 } c w l.grain l.slot else s
  | none => s

/-- The words a core's instruction cache holds: 64 KiB (R3). -/
abbrev codeWords : Nat := 16384

/-- A core's instruction cache brings in a word from its die point, where the die holds the line and the cache has room (R3,
R436). -/
def bringCode (s : State) (c w : Nat) : State :=
  match lineAt s w with
  | some (_, l) =>
    if l.holders.getLsbD (coreDie c) && decide ((s.icache.countP fun x => x.1 / 2 ^ 56 == c) < codeWords) then
      match dieRead s (coreDie c) w l.grain l.slot with
      | .ok (s, v) => { s with icache := put s.icache (unitKey c w) v }
      | .error _ => s
    else s
  | none => s

/-- A core's cache drops a copy word (R298); a registered word stays. -/
def dropCopy (s : State) (c w : Nat) : State :=
  match find s.reg (unitKey c w) with
  | some r => if r.registered then s else { s with reg := del s.reg (unitKey c w) }
  | none => s

/-- Device time, 64 bits wide, and the cycles of running contexts advance by free amounts; slices count device time (R5, R360). -/
def elapse (s : State) (ns : Nat) : State :=
  { s with
    time := (s.time + ns) % 2 ^ 64
    tick := s.tick + 2049
    uses := s.uses.filter fun u => decide (s.time < u.2.1 + 10000000)
    seqs := s.seqs.map fun (q, c) =>
      if c.state = .running then
        (q, { c with cycles := c.cycles + word (Config.freeNat (s.tick + 1 + q)), sliceUsed := c.sliceUsed + ns })
      else (q, c) }

/-! ## The moves of the agenda -/

/-- One move. -/
noncomputable def move (a : Act) (s : State) : Out :=
  match a with
  | .fetch q => fetchStep s q
  | .event i => exec i s
  | .pass ns => .next (elapse s ns)
  | .keepCopy c w => .next (bringCopy s c (w / 4 * 4))
  | .evict c w => .next (dropCopy s c (w / 4 * 4))
  | .keepCode c w => .next (bringCode s c (w / 4 * 4))
  | .evictCode c w => .next { s with icache := del s.icache (unitKey c (w / 4 * 4)) }
  | .fetchAhead q va => .next (fetchAhead s q va)
  | .hostStore a bytes => .next (hostStore s a bytes)
  | .evictLlc w => .next (if hostTag ≤ w then s else cleanLlc s (w / 4 * 4))
  | .peerPurge b => .next { s with peerW := s.peerW.filter (· != b), peerCopies := s.peerCopies.filter (· != b) }
  | .peerDrop b => .next { s with peerCopies := s.peerCopies.filter (· != b) }
  | .dropTlb i => .next { s with tlb := s.tlb.eraseIdx i }
  | .negGrain => .next (restoreGrain (saveGrain s))
  | .printGrain e => .next (if e < 8 then printGrain s e else s)
  | .bar0Read fn off => .next (bar0Load s fn off)
  | .resizeBar2 k => .next (if k ≤ 9 then { s with link := { s.link with bar2size := 2 ^ (30 + k) } } else s)

/-! ## The round the machine takes by itself -/

/-- The steps a sequencer may have to take. -/
noncomputable def seqRound (q : Nat) : List Instr :=
  [Instr.vectorStart q, Instr.vmcastReserve q, Instr.vrecvBind q, Instr.groupCommit q, Instr.vectorComplete q, Instr.vmcastLand q, Instr.heldPerform q,
    Instr.loadReturn q 0, Instr.divideResult q 0, Instr.trapInContext q, Instr.trapToKeeper q, Instr.waitaWake q, Instr.waitaPoll q, Instr.waitaTimeout q,
    Instr.barWake q, Instr.stopComplete q, Instr.sliceEnd q]

/-- The items of a core page whose owner is to change. -/
noncomputable def itemRound (c : Nat) (x : Core) : List Instr :=
  if x.active = x.inForce then []
  else (List.range 4).map (fun i => Instr.ownershipPass c (.seq i)) ++ (List.range 8).map (fun i => Instr.ownershipPass c (.pipe i))
    ++ (List.range 8).map (fun i => Instr.ownershipPass c (.tile i)) ++ (List.range 4).map (fun i => Instr.ownershipPass c (.film i))
    ++ (List.range 8).map fun i => Instr.ownershipPass c (.chan i)

/-- The operations of a core's tiles. -/
noncomputable def tileRound (c : Nat) (x : Core) : List Instr :=
  (List.range 8).flatMap fun t =>
    if (vget x.tiles t {}).ops.isEmpty && (vget x.tiles t {}).gathered == 0 then [] else [Instr.tmmaStart c t, Instr.detachedComplete c t]

/-- The steps of the ordering machine that are due. -/
noncomputable def memRound (s : State) : List Instr :=
  ((s.reg.filter fun (_, r) => r.registered && !r.exported).map fun (k, _) => Instr.register (k / 2 ^ 56) (k % 2 ^ 56))
    ++ (s.die.filterMap fun (k, e) => match e with
      | .core _ => some (Instr.exportWord (k / 2 ^ 56) (k % 2 ^ 56))
      | .value _ => none)
    ++ (s.wbls.map fun x => Instr.wbl x.1 x.2.1)
    ++ s.idq.map fun d => Instr.deliver d.src d.dst

/-- A partition has tasks that are not bound, or a saved context. -/
def workWaits (s : State) (p : Nat) : Bool :=
  (s.saved.any fun v => v.part == p) || s.queues.any fun (n, x) => x.en && x.head != x.tail && s.queueOwner n == some p

/-- Selections that are due: for each partition with work, at its first free sequencer, and at the first that each of its
saved contexts can resume on. -/
noncomputable def selectRound (s : State) : List Instr :=
  let free := fun (p : Nat) (ok : Nat → Bool) => (List.range 2048).find? fun q => seqFree s q && placeOk s q p && ok q
  let ps := s.parts.filterMap fun (p, x) => if x.pstate = 1 ∧ workWaits s p then free p fun _ => true else none
  (ps ++ s.saved.filterMap fun v => free v.part fun q => imageFits s (q / 4) v).map Instr.selection

/-- The steps of the scheduler that are due. -/
noncomputable def schedRound (s : State) : List Instr :=
  selectRound s
    ++ (s.selected.flatMap fun t => match t.seq, t.pin with
      | some q, _ => [Instr.bind q, Instr.resumeSaved q]
      | none, some c => (List.range 4).flatMap fun i => [Instr.bind (4 * c + i), Instr.resumeSaved (4 * c + i)]
      | none, none => [])
    ++ (s.queues.filterMap fun (n, _) =>
      (s.queueOwner n).bind fun p => (firstWaiting s n p).map fun w => Instr.stagingStart 0 n w.slot)
    ++ (s.stages.map fun g => Instr.grainMove (.stage (g.core / 8) 0))
    ++ (s.events.map fun e => Instr.eventPlace e.part) ++ s.posts.map fun p => Instr.successorPlace p.queue

/-- The steps of the other agents that are due. -/
noncomputable def boardRound (s : State) : List Instr :=
  (s.parts.filterMap fun (p, x) => if x.pstate = 2 then some (Instr.partitionResetDone p) else none)
    ++ ((List.range 8).filterMap fun i => if (vget s.slots i {}).draining then some (Instr.slotDrainDone i) else none)
    ++ (s.prints.flatMap fun (e, _) => [Instr.printStart e, Instr.printDone e])
    ++ (match s.neg.running with
      | some true => [Instr.saveDone]
      | some false => [Instr.restoreDone]
      | none => [])
    ++ (if s.shutter.reached then [Instr.evcount] else [])
    ++ (if s.board.busy then [Instr.reportDone] else []) ++ (if s.cxl.flipbusy then [Instr.flipDone] else [])
    ++ (if 0 < s.invPending then [Instr.invalidateCompletion] else [])

/-- The steps due, one of each agent that has something to do. -/
noncomputable def roundOf (s : State) : List Instr :=
  (s.seqs.flatMap fun (q, _) => seqRound q)
    ++ (s.chans.flatMap fun (ch, _) => [Instr.channelCommandStart ch, Instr.grainMove (.chan ch), Instr.copyComplete ch])
    ++ (s.cores.flatMap fun (c, x) => tileRound c x ++ itemRound c x)
    ++ memRound s ++ schedRound s ++ boardRound s

/-- A step of the round; one that names no agent of the device changes nothing. -/
noncomputable def take (s : State) (i : Instr) : State :=
  match exec i s with
  | .next t => t
  | _ => s

/-- The sequencer that fetches next: the first that may, after the current one, going round. -/
def nextFetch (s : State) : Option Nat :=
  let qs := (s.seqs.map (·.1)).filter (canFetch s)
  match qs.find? fun q => decide (s.cur < q) with
  | some q => some q
  | none => qs.head?

/-- What a die point shows of a word: its entry, its registrant's value, or the home's. -/
def dieView (s : State) (d w : Nat) : BitVec 32 :=
  match find s.die (unitKey d w) with
  | some (.value v) => v
  | some (.core c) => match find s.reg (unitKey c w) with
    | some r => r.val
    | none => homeWord s w
  | none => homeWord s w

/-- No core keeps a copy word for ever that its die point has replaced, nor an instruction word, nor a sequencer one it has fetched
ahead (R309). -/
def dropOld (s : State) : State :=
  { s with
    seqs := s.seqs.map fun (q, c) => (q, { c with ahead := c.ahead.filter fun (a, v) => v == dieView s (coreDie (q / 4)) a })
    reg := s.reg.filter fun (k, r) => r.registered || r.val == dieView s (coreDie (k / 2 ^ 56)) (k % 2 ^ 56)
    icache := s.icache.filter fun (k, v) => v == dieView s (coreDie (k / 2 ^ 56)) (k % 2 ^ 56) }

/-- Where the agenda is empty: a round of the steps that are due, then one instruction of the sequencer in turn. -/
noncomputable def roundStep (s : State) : Out :=
  let s := (roundOf (dropOld s)).foldl take (dropOld s)
  match nextFetch s with
  | some q => fetchStep s q
  | none => .next s

/-! ## Around a move -/

/-- After a move: a STEP that has run its instruction stops (R337), tasks come under consideration for staging (R382), a free time
passes, and the stills latch that are due (R430). -/
def closeStep (s : State) : State :=
  let s := consider (s.seqs.foldl (fun s (q, _) => endStep s q) s)
  let s := latchStills (dueStills s)
  latchStills (elapse { s with tick := s.tick + 1 } (Config.freeNat s.tick))

/-- A device that stays in reset (R432) makes no move but power-on and cold reset. -/
def wakes (a : Act) : Bool := a == .event .powerOn || a == .event .coldReset

/-- The move that comes next and the state without it. -/
noncomputable def nextMove (s : State) : Out :=
  match s.agenda with
  | [] => if s.dead then .next s else roundStep s
  | a :: r =>
    let t := { s with agenda := r }
    if s.dead && !wakes a then .next t else move a t

/-! ## An instruction placed where the next step fetches -/

/-- The first frame of the tables that `loadWordAt` builds: three pages high in device DRAM. -/
abbrev tableFrame : Nat := 0x5F80000

/-- The 1 GiB of device DRAM that those tables map the program counter's own 1 GiB onto. -/
abbrev codeBase : Nat := 0x5FC0000000

/-- A word of 8 or 4 bytes is stored at its home, in a sector that is not poisoned. -/
def placeBytes (s : State) (a n v : Nat) : State := homeWrite (clearPoison s (a / 32 * 32) 32) a n v

/-- A translation entry of a table, over an address (R345). -/
def placeEntry (s : State) (va level frame flags : Nat) : State :=
  placeBytes s ((tableFrame + 4 - level) * 4096 + 8 * (va / 2 ^ (12 + 9 * level) % 512)) 8 (frame * 4096 + flags)

/-- A context that runs free-standing (R338) with nothing outstanding, at a program counter. -/
def freeRunning (c : Ctx) (pc : Word) : Ctx :=
  { c with
    sc := { c.sc with pc := pc, rptAct := false, rptRun := false }
    viq := [], run := [], sb := [], loads := [], divs := [], pend := none, wait := none, lmode := false, handler := false
    trapv := false, stepping := false, ahead := [], state := .running, root := BitVec.ofNat 36 tableFrame, free := c.task.isNone }

/-- An instruction word where the next step fetches: sequencer 0 of the root partition runs, its tables map its program
counter onto the word, and its fetch is the next move. -/
def loadWordAt (s : State) (w : Nat) : State :=
  let c := s.ctx 0
  let pc := if c.sc.pc.toNat % 4 = 0 ∧ c.sc.pc.toNat < 2 ^ 56 then c.sc.pc else 0
  let va := pc.toNat
  let s := placeBytes s (codeBase + va % 2 ^ 30) 4 (w % 2 ^ 32)
  let s := placeEntry s va 4 (tableFrame + 1) 0x001
  let s := placeEntry s va 3 (tableFrame + 2) 0x001
  let s := placeEntry s va 2 (codeBase / 4096) 0x80F
  let x := s.core 0
  let s := s.setCore 0 { x with inForce := { x.inForce with seq := vset x.inForce.seq 0 0x80 } }
  { s.setCtx 0 (freeRunning c pc) with tlb := [], icache := [], agenda := [.fetch 0], cur := 0, dead := false }

end Sys2Proof.Machine
end

