-- ==== Sys2Proof/Machine/Step.lean ====
section
/-!
DEFINITION. One step of the machine, and the placing of an instruction where the next step fetches.
-/
namespace Sys2Proof.Machine

/-- One step: the next move, and what follows every move. -/
noncomputable def step (s : State) : Host.Outcome State Fault Refusal :=
  match nextMove s with
  | .next t => .next (closeStep t)
  | r => r

/-- The instruction of `nbits` bits in `w` stored where the next step fetches; every instruction is one 32-bit word. -/
def State.withFetchWord (s : State) (nbits w : Nat) : State := loadWordAt s (w % 2 ^ nbits)

end Sys2Proof.Machine
end

