-- ==== Sys2Proof/Safety.lean ====
section
/-!
DEFINITION. The terms claims are stated in: a safe run, memories in canonical form, operands that are readable and
destinations that are free, the states an instruction leaves, the byte a core reads, and what a result keeps.
-/
namespace Sys2Proof.Machine

/-! ## Runs -/

/-- The machine goes on for `n` steps. -/
def runs : Nat → State → Prop
  | 0, _ => True
  | n + 1, s => ∃ t, step s = .next t ∧ runs n t

/-- A run is safe where no step stops the machine. -/
def SafeRun (s : State) : Prop := ∀ n, runs n s

/-- Device, host and peer memory have their canonical form. -/
def State.memOk (s : State) : Prop :=
  Memory.wf s.mem = true ∧ Memory.wf s.hostMem = true ∧ Memory.wf s.peerMem = true

/-! ## Operands -/

/-- Scalar operand `n` of the next instruction reads as `x` now, whatever its E bit (R31, R38). -/
def Reads (s : State) (n : Nat) (x : Word) : Prop := ∀ e w, readS s n e w = .ok x

/-- Mask operand `n` reads as `k` now. -/
def ReadsMask (s : State) (n : Nat) (k : BitVec 8192) : Prop := readK s n = .ok k

/-- Scalar destination `n` is free for a producer (R32). -/
def Ready (s : State) (n : Nat) : Prop := freeDest s n = .ok ()

/-- The sequencer itself executes, no lane thread. -/
def OnScalar (s : State) : Prop := s.c.laneOn = false

/-- Scalar `n` is empty, and no older vector-queue instruction fills it in order (R31). -/
def Empty (s : State) (n : Nat) : Prop :=
  s.c.laneOn = false ∧ n ≠ 0 ∧ s.c.vqWritesS n = false ∧ s.c.feS.getLsbD n = false

/-- Mask `n` is empty, or an older vector-queue instruction has yet to write it (R31, R52). -/
def MaskAwaited (s : State) (n : Nat) : Prop := n ≠ 0 ∧ (s.c.vqWritesK n = true ∨ s.c.feK.getLsbD n = false)

/-- The sequencer itself executes, with nothing outstanding, and carries each instruction through. -/
def InStep (s : State) : Prop := s.c.laneOn = false ∧ s.lockstep = true

/-- The sequencer itself executes and runs ahead of what it holds, with room in its store buffer. -/
def Ahead (s : State) : Prop := s.c.laneOn = false ∧ s.lockstep = false ∧ s.c.sb.length < 16

/-- A lane thread executes. -/
def InLane (s : State) : Prop := s.c.laneOn = true

/-! ## What an instruction leaves -/

/-- A result in a destination, and the next instruction: nothing else changes. -/
def wrote (s : State) (d : Nat) (x : Word) : State := s.withC (s.c.put d x).advance

/-- A transfer of control: nothing else changes. -/
def jumped (s : State) (t : Word) : State := s.withC (s.c.jump t)

/-- The next instruction: nothing else changes. -/
def passed (s : State) : State := s.withC s.c.advance

/-- A class A trap of the next instruction (R353), taken or held until older instructions have completed. -/
def trapped (s : State) (cause sub : Nat) (tval : Word) : State := raise s s.cur (classA cause sub tval s.pc)

/-- A class B stop of the next instruction at an address (R353). -/
def stopped (s : State) (cause sub : Nat) (addr : Word) : State := raise s s.cur (classB cause sub addr s.pc)

/-- A scalar-side instruction with an outward effect, as the store buffer holds it (R16). -/
def heldAs (s : State) (op : HeldOp) (w : Nat) : Held :=
  { op := op, ipc := s.c.at, word := BitVec.ofNat 32 w, snap := s.c.sc, ord := s.c.ord }

/-- That instruction held, its destinations empty, and the scalar side gone on as `move` says (R16, R30). -/
def heldState (s : State) (op : HeldOp) (w : Nat) (ds : List Nat) (move : Ctx → Ctx) : State :=
  s.withC (move (ds.foldl (fun (c : Ctx) d => c.empty d) { s.c with sb := s.c.sb ++ [heldAs s op w] }))

/-- A held instruction performed: it leaves the buffer, or what is left of an stp in two accesses takes its place there (R162),
and its results fill their destinations (R18, R30). -/
def performedState (t : State) (q ord : Nat) (rs : List (Nat × Word)) (more : Option Held := none) : State :=
  t.setCtx q (rs.foldl (fun (d : Ctx) r => d.deliver r.1 r.2 ord)
    { t.ctx q with sb := more.toList ++ (t.ctx q).sb.drop 1 })

/-- Instruction `i` hands `op` to the store buffer. Running ahead it enters the buffer; in step it is performed at once,
where performing it answers, an stp to host or peer memory its low word. `s` is the state with the translation of its access, if any, made. -/
def Holds (i : Instr) (s0 s : State) (op : HeldOp) (w : Nat) (ds : List Nat) (move : Ctx → Ctx := Ctx.advance) : Prop :=
  (Ahead s → exec i s0 = .next (heldState s op w ds move))
  ∧ ∀ t rs, InStep s → perform (heldState s op w ds move) s.cur (heldAs s op w).halves.1 = .ok (t, rs) →
      exec i s0 = .next (performedState t s.cur s.c.ord rs (heldAs s op w).halves.2)

/-- A lane thread's store in the store buffer, and the turn passed (R302). -/
def laneHeldState (s : State) (op : HeldOp) (w : Nat) : State :=
  s.withC ({ s.c with sb := s.c.sb ++ [heldAs s op w] } : Ctx).advance

/-- In lane mode instruction `i` hands a store that the store buffer may hold to it, where there is room (R302); any other `op` it
performs before the turn passes, its results in the lane's slots (R38), once no held store is left. -/
def PerformsInLane (i : Instr) (s0 s : State) (op : HeldOp) (w : Nat) : Prop :=
  (InLane s → laneHolds s op = true → s.c.sb.length < 16 → exec i s0 = .next (laneHeldState s op w))
  ∧ ∀ t rs, InLane s → laneHolds s op = false → s.c.sb = [] → perform s s.cur (heldAs s op w) = .ok (t, rs) →
      exec i s0 = .next (t.withC (putAll t.c rs).advance)

/-- A load as it is issued: outstanding, its destinations empty (R163). -/
def issuedState (s : State) (l : Load) (ds : List Nat) : State :=
  s.withC (ds.foldl (fun (c : Ctx) d => c.empty d) { s.c with loads := s.c.loads ++ [l] }).advance

/-- The destinations are free for a producer. -/
def AllReady (s : State) (ds : List Nat) : Prop := ∀ d ∈ ds, Ready s d

/-- No translation fence of the sequencer is still held (R172). -/
def NoFenceHeld (s : State) : Prop := s.c.sb.all (fun h => match h.op with | .xfence .. => false | _ => true) = true

/-- A load whose data have returned, or the low word of an ldp in two accesses: its destinations are filled (R162, R163). -/
def returnedState (t : State) (q ord : Nat) (rs : List (Nat × Word)) (more : Option Load := none) : State :=
  t.setCtx q (rs.foldl (fun (d : Ctx) r => d.deliver r.1 r.2 ord)
    { t.ctx q with loads := more.toList ++ (t.ctx q).loads.drop 1 })

/-- The access of the next instruction at `va` passes the checks of R160 and R161, with the translation `x`. -/
def Translates (s : State) (va : Word) (n : Nat) (need : Need) (ctlOk : Bool) (t : State) (x : Xl) : Prop :=
  scalarAccess s va n need ctlOk = .ok (t, x)

/-- A vector-queue instruction accepted, the scalar side gone on (R14, R15). -/
def acceptedState (s : State) (e : VqEntry) : State := s.withC (s.c.enqueue e).advance

/-- The head of the VIQ started alone on a pipe, and charged (R20, R386). -/
def startedState (s : State) (q : Nat) (e : VqEntry) : State :=
  chargeStart (s.setCtx q { (s.ctx q).dequeue with run := [e], runG := e.start, runArith := none, runFill := [] }) q e

/-- The elements an Element-class form performs, from its start element to below its end. -/
def elementsOf (e : VqEntry) : List Nat := (List.range (e.stop - e.start)).map (e.start + ·)

/-- Instruction `i` issues the load `l`: outstanding where the sequencer runs ahead, its data returned at once where it does
not, and in lane mode before the turn passes, an acquire once no held store is left. `s` is the state with the translation made. -/
def Loads (i : Instr) (s0 s : State) (l : Load) (ds : List Nat) : Prop :=
  (s.c.laneOn = false → s.lockstep = false → exec i s0 = .next (issuedState s l ds))
  ∧ (∀ t rs, InStep s → loadData (issuedState s l ds) s.cur l.halves.1 = .ok (t, rs) →
      exec i s0 = .next (returnedState t s.cur l.ord rs l.halves.2))
  ∧ ∀ t rs, InLane s → l.acq = none ∨ s.c.sb = [] → loadData s s.cur l = .ok (t, rs) → exec i s0 = .next (t.withC (putAll t.c rs).advance)

/-! ## The end test -/

/-- The end test of R149 for an instruction at `a`: what the loop stack and the next program counter become, turn by turn of
its while loop. -/
inductive Ends : Scal → Word → Scal → Prop where
  /-- no loop is active, or entry 0 does not end here -/
  | none (x : Scal) (a : Word) : ¬(x.loop0.count ≠ 0 ∧ a = x.loop0.last) → Ends x a { x with pc := a + 4 }
  /-- entry 0 ends here and has a pass left -/
  | again (x : Scal) (a : Word) : x.loop0.count ≠ 0 → a = x.loop0.last → x.loop0.index.toNat + 1 < x.loop0.count.toNat →
      Ends x a { x with loops := vset x.loops 0 { x.loop0 with index := x.loop0.index + 1 }, pc := x.loop0.start }
  /-- entry 0 ends here with its last pass: it goes, and the test is made of the entry below -/
  | ended (x y : Scal) (a : Word) (l : Vector LoopEntry 6) : x.loop0.count ≠ 0 → a = x.loop0.last →
      ¬x.loop0.index.toNat + 1 < x.loop0.count.toNat →
      (∀ i < 5, vget l i {} = vget x.loops (i + 1) {}) → vget l 5 {} = {} → Ends { x with loops := l } a y → Ends x a y

/-! ## Memory as a core reads it -/

/-- The byte of a word that a core's registry does not hold: the die point's, or that of the core registered there, or the
home's where the die holds the line (R298, R299 step 2). None where an engine is registered for the word, its page's bias is being
flipped (R421), or the die has yet to fetch it. -/
def dieByte (s : State) (die a g sl : Nat) : Option Nat :=
  let w := a / 4 * 4
  let byte := fun (v : BitVec 32) => v.toNat / 2 ^ (8 * (a - w)) % 256
  if engineHolds s w || flipping s w then none
  else match find s.die (unitKey die w) with
  | some (.value v) => some (byte v)
  | some (.core c) => some (byte (match find s.reg (unitKey c w) with
      | some r => r.val
      | none => homeWord s w))
  | none => if holds s die w g sl then some (byte (homeWord s w)) else none

/-- The byte at an address as a core reads it without a fetch from a home (R299 step 2). -/
def coreByte (s : State) (core a g sl : Nat) : Option Nat :=
  let w := a / 4 * 4
  if engineHolds s w || flipping s w then none
  else match find s.reg (unitKey core w) with
  | some r =>
    if r.mask.getLsbD (a - w) then some (r.val.toNat / 2 ^ (8 * (a - w)) % 256)
    else dieByte s (coreDie core) a g sl
  | none => dieByte s (coreDie core) a g sl

/-- The shutter has fired only with its stills latched or due (R430), and no context still runs whose STEP has run its instruction
(R337). -/
def Settled (s : State) : Prop := (s.shutter.fired = true → s.shutter.stills ≠ [] ∨ s.shutter.due ≠ []) ∧ ∀ q, stepDone s q = false

/-- Every part of the machine that memory is read through stays as it was. -/
def SameMemory (s t : State) : Prop :=
  t.mem = s.mem ∧ t.hostMem = s.hostMem ∧ t.peerMem = s.peerMem ∧ t.reg = s.reg ∧ t.die = s.die ∧ t.lines = s.lines
    ∧ t.idq = s.idq ∧ t.poison = s.poison ∧ t.chans = s.chans

/-- Two contexts agree but for the scalars, the program counter with its loops and repeat frame, and the order number. -/
def SameButScalars (c d : Ctx) : Prop :=
  { c with sc := { c.sc with s := d.sc.s, pc := d.sc.pc, loops := d.sc.loops, rptAct := d.sc.rptAct, rptRun := d.sc.rptRun,
                             rptI := d.sc.rptI, rptJ := d.sc.rptJ, rptBuf := d.sc.rptBuf }, ord := d.ord } = d

end Sys2Proof.Machine
end

