-- ==== Sys2Proof/Certificates/Slice0/Obligations.lean ====
section
/-!
DEFINITION. The statements for the provers. Each says which rules of the spec it formalises. Whether a sequencer carries each
instruction through in the step that issues it (`lockstep`, `InStep`), or runs ahead and leaves completion to a later step
(`Ahead`), is the model's own schedule (log entry 1): the spec leaves the order of ready steps open (R299).
-/
open Sys2Proof Sys2Proof.Machine

/-! ## Encoding -/

/-- R88, R89, R95: the word of a well-formed instruction decodes to that instruction, every operand at every value the
encoding admits. -/
def Obligations.EncodeThenDecode : Prop :=
  ∀ i w, i.wf = true → encode i = some w → decode w = i

/-- R88, R89, R95, R96: the other direction. A word that is not illegal is the word of the instruction it decodes to, so no
bit of it is left unread, and that instruction is well-formed. -/
def Obligations.DecodeThenEncode : Prop :=
  ∀ w, decode w = .illegal w ∨ ((decode w).wf = true ∧ encode (decode w) = some w)

/-- R89, R93, R95: words written out from the encoding tables, at least one instruction of each of the fourteen formats, and
words with a reserved field, a reserved selector or an odd register where an even one is required. -/
def Obligations.SampleWords : Prop :=
  decode 0x00000056 = .tdone
  ∧ decode 0x000005D5 = .pgrant { a := 11 }
  ∧ decode 0x00310081 = .add { eb := false, ea := false, b := 24, a := 16, d := 1 }
  ∧ decode 0xFFFC1082 = .addi { imm := -1, ea := false, a := 1, d := 1 }
  ∧ decode 0x80000209 = .addpc { off := 0x80000, d := 4 }
  ∧ decode 0xFFFFF08C = .jal { off := -1, d := 1 }
  ∧ decode 0xFFE2218A = .brNe { off := 0xFFE, b := 2, a := 3 }
  ∧ decode 0x04C41220 = .vadd { eb := true, ea := false, k := 3, b := 2, a := 1, d := 4 }
  ∧ decode 0xDC0C4516 = .amoAdd { acq := true, rel := true, sc := 3, e := true, b := 6, a := 4, d := 10 }
  ∧ decode 0x5D5B3508 = .setk { imm := 0xBAB6, slot := 3, d := 10 }
  ∧ decode 0x56D64110 = .ldD { off := 0x2B6, e := true, a := 4, t := 2 }
  ∧ decode 0x2F404130 = .vld ⟨2, true, true, true, 5, 4, 2⟩
  ∧ decode 0x5BAB628B = .brmAny { off := 0x5BAB6, k := 5 }
  ∧ decode 0x0156CD8E = .loop { len := 0xAB6, cnt := 27 }
  ∧ decode 0x00F65A8F = .rpt ⟨3, 3, 1, 2, 11, 5⟩
  ∧ decode 0x0953E549 = .tmma ⟨18, 20, true, true, true, true, 2, 1, 2⟩
  ∧ decode 0x363561C0 = .wld ⟨false, 27, true, 5, 11, 3⟩
  ∧ decode 0x6B646250 = .cpy { ch := 6, e := true, port := 13, c := 18, b := 6, a := 4 }
  ∧ decode 0x00000000 = .zeroWord { rest := 0 }
  ∧ decode 0xC8000001 = .illegal 0xC8000001
  ∧ decode 0x00400001 = .illegal 0x00400001
  ∧ decode 0x00060092 = .illegal 0x00060092

/-- R94: a word of opcode 0x00 traps with ZERO_WORD whatever its other bits, and a word whose opcode lies from 0x60 to 0x7F
with ILLEGAL. R96, R97: an illegal word traps with ILLEGAL, tval the word, and has no other effect: where the trap must wait
for older instructions it is held, and nothing else changes. -/
def Obligations.WordsThatTrap : Prop :=
  ((∀ (w : BitVec 32) s, w.toNat % 128 = 0 →
      ∃ x, decode w = .zeroWord x ∧ exec (.zeroWord x) s = .next (trapped s cZERO_WORD 0 (w.setWidth 64)))
    ∧ ∀ (w : BitVec 32) s, 0x60 ≤ w.toNat % 128 →
      ∃ x, decode w = .reservedOpcode x ∧ exec (.reservedOpcode x) s = .next (trapped s cILLEGAL 0 (w.setWidth 64)))
  ∧ (∀ w s, exec (.illegal w) s = .next (trapped s cILLEGAL 0 (w.setWidth 64))
      ∧ ((s.ctx s.cur).canTake (classA cILLEGAL 0 (w.setWidth 64) s.pc) = false →
        trapped s cILLEGAL 0 (w.setWidth 64)
          = s.setCtx s.cur { s.c with pend := some (classA cILLEGAL 0 (w.setWidth 64) s.pc) }))

/-! ## The step -/

/-- Which move comes next stands in State.agenda, the model's own schedule (log entry 1: R299 leaves the order open). R14: where it
is the fetch of a sequencer that may execute, the step is what the decoded word does, and
then what follows every move; a fetch that meets a trap takes it, and one that waits leaves what it has looked up, a lane
thread's giving the turn to the next (R37). The arrival of a bar.aw is kept over a RESUME only by that bar.aw (R176).
A step of another agent that comes next is made, and a step that names no agent of the device stops the machine (the model's
choice, log entry 8); the passing of time only advances clocks. In reset (R432) nothing moves but power-on and cold reset. -/
def Obligations.StepRuns : Prop :=
  (∀ s q r, s.dead = false → s.agenda = .fetch q :: r → canFetch { s with agenda := r } q = true →
      (∀ t w u, fetchNext (prepare { s with agenda := r } q) = .ok (t, w) →
        exec (decode (BitVec.ofNat 32 w)) (t.withC (keepArrival (decode (BitVec.ofNat 32 w)) t.c)) = .next u →
        step s = .next (closeStep (movedOn u q (s.ctx q).ord)))
      ∧ (∀ t f, fetchNext (prepare { s with agenda := r } q) = .error (.trap t f) →
        step s = .next (closeStep (raise (f.getD (prepare { s with agenda := r } q)) q t)))
      ∧ ∀ t, fetchNext (prepare { s with agenda := r } q) = .error (.wait t) →
        step s = .next (closeStep (if (s.ctx q).laneOn then t.withC t.c.passTurn else t)))
  ∧ ((∀ s i r u, s.dead = false → s.agenda = .event i :: r → exec i { s with agenda := r } = .next u →
      step s = .next (closeStep u))
    ∧ (∀ s i r, s.dead = false → s.agenda = .event i :: r → exec i { s with agenda := r } = .fault .noSuchAgent →
      step s = .fault .noSuchAgent)
    ∧ (∀ s ns r, s.dead = false → s.agenda = .pass ns :: r → step s = .next (closeStep (elapse { s with agenda := r } ns)))
    ∧ ∀ s a r, s.dead = true → s.agenda = a :: r → a ≠ .event .powerOn → a ≠ .event .coldReset →
      step s = .next (closeStep { s with agenda := r }))

/-- Every instruction word goes on to a next state, and every step of another agent does too unless it names an agent the
device does not have: the model refuses nothing (the model's own promise; log entry 8). -/
def Obligations.NothingRefused : Prop :=
  (∀ i s, (encode i).isSome = true → ∃ t, exec i s = .next t)
  ∧ ∀ i s, (∃ t, exec i s = .next t) ∨ exec i s = .fault .noSuchAgent

/-! ## Scalar arithmetic -/

/-- R136: the two-source forms but the divisions, from readable sources into a free destination, on the scalar side and in
lane mode (R38). Nothing else changes. -/
def Obligations.TwoSourceResults : Prop :=
  ∀ (x : Alu2) s a b, Reads s x.a.val a → Reads s x.b.val b → Ready s x.d.val →
    let gives := fun (r : Word) => Host.Outcome.next (wrote s x.d.val r)
    exec (.add x) s = gives (a + b) ∧ exec (.sub x) s = gives (a - b)
    ∧ exec (.and x) s = gives (a &&& b) ∧ exec (.or x) s = gives (a ||| b) ∧ exec (.xor x) s = gives (a ^^^ b)
    ∧ exec (.andn x) s = gives (a &&& ~~~b) ∧ exec (.orn x) s = gives (a ||| ~~~b)
    ∧ exec (.shl x) s = gives (a <<< (b.toNat % 64)) ∧ exec (.shr x) s = gives (a >>> (b.toNat % 64))
    ∧ exec (.sar x) s = gives (a.sshiftRight (b.toNat % 64))
    ∧ exec (.rol x) s = gives (a <<< (b.toNat % 64) ||| a >>> (64 - b.toNat % 64))
    ∧ exec (.ror x) s = gives (a >>> (b.toNat % 64) ||| a <<< (64 - b.toNat % 64))
    ∧ exec (.slt x) s = gives (if a.toInt < b.toInt then 1 else 0)
    ∧ exec (.sltu x) s = gives (if a.toNat < b.toNat then 1 else 0)
    ∧ exec (.min x) s = gives (if a.toInt ≤ b.toInt then a else b) ∧ exec (.max x) s = gives (if a.toInt ≤ b.toInt then b else a)
    ∧ exec (.minu x) s = gives (if a.toNat ≤ b.toNat then a else b)
    ∧ exec (.maxu x) s = gives (if a.toNat ≤ b.toNat then b else a)
    ∧ exec (.mul x) s = gives (a * b)
    ∧ exec (.mulh x) s = gives (((a.signExtend 128 * b.signExtend 128) >>> 64).setWidth 64)
    ∧ exec (.mulhu x) s = gives (((a.setWidth 128 * b.setWidth 128) >>> 64).setWidth 64)

/-- R136: the unary forms. The counts are said by the bits they count, bswap byte by byte. -/
def Obligations.UnaryResults : Prop :=
  ∀ (x : Alu1) s a, Reads s x.a.val a → Ready s x.d.val →
    let gives := fun (r : Word) => Host.Outcome.next (wrote s x.d.val r)
    (∃ n ≤ 64, exec (.clz x) s = gives (word n) ∧ (∀ i < 64, 64 - n ≤ i → a.getLsbD i = false)
      ∧ (n < 64 → a.getLsbD (63 - n) = true))
    ∧ (∃ n ≤ 64, exec (.ctz x) s = gives (word n) ∧ (∀ i < n, a.getLsbD i = false) ∧ (n < 64 → a.getLsbD n = true))
    ∧ exec (.popc x) s = gives (word ((List.range 64).filter fun i => a.getLsbD i).length)
    ∧ (∃ r : Word, exec (.bswap x) s = gives r ∧ ∀ i < 8, r.toNat / 256 ^ i % 256 = a.toNat / 256 ^ (7 - i) % 256)
    ∧ exec (.sextB x) s = gives ((a.setWidth 8).signExtend 64) ∧ exec (.sextH x) s = gives ((a.setWidth 16).signExtend 64)
    ∧ exec (.sextW x) s = gives ((a.setWidth 32).signExtend 64) ∧ exec (.zextW x) s = gives ((a.setWidth 32).setWidth 64)

/-- R137: quotient and remainder. The signed forms truncate toward zero; division by zero and the one overflow give what the
rule says; nothing traps. In step, and in lane mode, the result is written at once (R138). -/
def Obligations.DivideResults : Prop :=
  ∀ (x : Alu2) s a b, Reads s x.a.val a → Reads s x.b.val b → Ready s x.d.val → s.lockstep = true ∨ s.c.laneOn = true →
    ∃ q r uq ur : Word,
      exec (.div x) s = .next (wrote s x.d.val q) ∧ exec (.rem x) s = .next (wrote s x.d.val r)
      ∧ exec (.divu x) s = .next (wrote s x.d.val uq) ∧ exec (.remu x) s = .next (wrote s x.d.val ur)
      ∧ (b = 0 → q = BitVec.allOnes 64 ∧ r = a ∧ uq = BitVec.allOnes 64 ∧ ur = a)
      ∧ (b ≠ 0 → a.toInt = -2 ^ 63 → b.toInt = -1 → q = a ∧ r = 0)
      ∧ (b ≠ 0 → ¬(a.toInt = -2 ^ 63 ∧ b.toInt = -1) →
          a.toInt = q.toInt * b.toInt + r.toInt ∧ r.toInt.natAbs < b.toInt.natAbs ∧ (r.toInt = 0 ∨ (r.toInt < 0 ↔ a.toInt < 0)))
      ∧ (b ≠ 0 → a.toNat = uq.toNat * b.toNat + ur.toNat ∧ ur.toNat < b.toNat)

/-- R138: where the sequencer runs ahead, a division marks its destination empty and goes on, and DIVIDE_RESULT later writes
the same result as in step and fills it. -/
def Obligations.DivideRunsAhead : Prop :=
  (∀ (x : Alu2) s a b, OnScalar s → Reads s x.a.val a → Reads s x.b.val b → Ready s x.d.val → s.lockstep = false →
    let gives := fun (r : Word) => Host.Outcome.next (s.withC ({ s.c with divs := s.c.divs ++ [(x.d.val, r, s.c.ord)] }.empty x.d.val).advance)
    exec (.div x) s = gives (sdivRem a b).1 ∧ exec (.rem x) s = gives (sdivRem a b).2
    ∧ exec (.divu x) s = gives (udivRem a b).1 ∧ exec (.remu x) s = gives (udivRem a b).2)
  ∧ ∀ s q n d r o, q < 2048 → d < 32 → (s.ctx q).divs[n]? = some (d, r, o) →
    ∃ c, exec (.divideResult q n) s = .next (s.setCtx q c) ∧ c.getS d = (if d = 0 then 0 else r)
      ∧ c.feS.getLsbD d = true ∧ c.divs = (s.ctx q).divs.eraseIdx n

/-- R139: the immediate forms. R141: addpc writes the page of its address plus 4,096 times the signed offset, modulo 2^64. -/
def Obligations.ImmediateForms : Prop :=
  ((∀ (x : ImmI) s a, Reads s x.a.val a → Ready s x.d.val →
      let gives := fun (r : Word) => Host.Outcome.next (wrote s x.d.val r)
      exec (.addi x) s = gives (a + x.imm.signExtend 64) ∧ exec (.andi x) s = gives (a &&& x.imm.signExtend 64)
      ∧ exec (.ori x) s = gives (a ||| x.imm.signExtend 64) ∧ exec (.xori x) s = gives (a ^^^ x.imm.signExtend 64))
    ∧ (∀ (x : ShI) s a, Reads s x.a.val a → Ready s x.d.val →
      let gives := fun (r : Word) => Host.Outcome.next (wrote s x.d.val r)
      exec (.shli x) s = gives (a <<< x.amt.toNat) ∧ exec (.shri x) s = gives (a >>> x.amt.toNat)
      ∧ exec (.sari x) s = gives (a.sshiftRight x.amt.toNat)
      ∧ exec (.roli x) s = gives (a <<< x.amt.toNat ||| a >>> (64 - x.amt.toNat)))
    ∧ ∀ (x : SltI) s a, Reads s x.a.val a → Ready s x.d.val →
      let gives := fun (r : Word) => Host.Outcome.next (wrote s x.d.val r)
      exec (.slti x) s = gives (if a.toInt < x.imm.toInt then 1 else 0)
      ∧ exec (.sltiu x) s = gives (if a.toNat < (x.imm.signExtend 64).toNat then 1 else 0))
  ∧ (∀ (x : OffD) s, Ready s x.d.val →
      exec (.addpc x) s = .next (wrote s x.d.val ((s.pc &&& ~~~(0xFFF : Word)) + 4096 * x.off.signExtend 64)))

/-- R140: setk changes the one 16-bit slot, having waited for the register to be full; setz clears the others and reads
nothing. Bit 31 of the word must be zero. -/
def Obligations.SetConstants : Prop :=
  (∀ (x : SetK) s v, Reads s x.d.val v → Ready s x.d.val →
    exec (.setk x) s = .next (wrote s x.d.val
      (v &&& ~~~((0xFFFF : Word) <<< (16 * x.slot.val)) ||| x.imm.setWidth 64 <<< (16 * x.slot.val))))
  ∧ (∀ (x : SetK) s, Ready s x.d.val → exec (.setz x) s = .next (wrote s x.d.val (x.imm.setWidth 64 <<< (16 * x.slot.val))))
  ∧ (∀ (x : SetK) s, Empty s x.d.val → exec (.setk x) s = .next s)
  ∧ (∀ x : SetK, encode (.setk x) = some (BitVec.ofNat 32 (8 + 128 * x.d.val + 4096 * x.slot.val + 32768 * x.imm.toNat)))
  ∧ (∀ x : SetK, encode (.setz x)
      = some (BitVec.ofNat 32 (8 + 128 * x.d.val + 4096 * x.slot.val + 16384 + 32768 * x.imm.toNat)))
  ∧ ∀ w : BitVec 32, w.toNat % 128 = 8 → w.getLsbD 31 = true → decode w = .illegal w

/-- R30 to R34, R135: s0 reads as zero whatever the register file holds, a result for it is discarded and leaves it full, and
any other scalar reads back the result, every other scalar unchanged. R31, R32: an empty source makes an instruction wait
under E = 0 and trap with EMPTY_READ under E = 1, before it has any effect, and an empty destination makes it wait; said of
add, in the scalar side. -/
def Obligations.ScalarFile : Prop :=
  (∀ s : State, OnScalar s →
      Reads s 0 0 ∧ Ready s 0
      ∧ (∀ r, wrote s 0 r = passed s)
      ∧ ∀ d < 32, ∀ r, d ≠ 0 →
          (wrote s d r).c.getS d = r ∧ (∀ n < 32, n ≠ d → (wrote s d r).c.getS n = s.c.getS n)
          ∧ (wrote s d r).c.feS = s.c.feS ∧ (wrote s d r).c.feV = s.c.feV ∧ SameMemory s (wrote s d r))
  ∧ ((∀ (x : Alu2) s, Empty s x.a.val → x.ea = false → exec (.add x) s = .next s)
    ∧ (∀ (x : Alu2) s, Empty s x.a.val → x.ea = true →
        exec (.add x) s = .next (trapped s cEMPTY_READ 0 (word (1 + x.enc))))
    ∧ (∀ (x : Alu2) s a, Reads s x.a.val a → Empty s x.b.val → x.eb = false → exec (.add x) s = .next s)
    ∧ (∀ (x : Alu2) s a, Reads s x.a.val a → Empty s x.b.val → x.eb = true →
        exec (.add x) s = .next (trapped s cEMPTY_READ 0 (word (1 + x.enc))))
    ∧ ∀ (x : Alu2) s a b, Reads s x.a.val a → Reads s x.b.val b → s.c.laneOn = false → x.d.val ≠ 0 →
        s.c.feS.getLsbD x.d.val = false → exec (.add x) s = .next s)

/-! ## Branches, jumps and loops -/

/-- R142: the compare branches, their encoding, and the reserved conditions. A taken branch leaves the loop stack and the
repeat-frame position; both registers are read with E = 0. -/
def Obligations.CompareBranches : Prop :=
  (∀ (x : BrC) s a b, Reads s x.a.val a → Reads s x.b.val b →
    let gives := fun (taken : Prop) [Decidable taken] =>
      Host.Outcome.next (if taken then jumped s (s.pc + 4 * x.off.signExtend 64) else passed s)
    exec (.brEq x) s = gives (a = b) ∧ exec (.brNe x) s = gives (a ≠ b)
    ∧ exec (.brLt x) s = gives (a.toInt < b.toInt) ∧ exec (.brGe x) s = gives (b.toInt ≤ a.toInt)
    ∧ exec (.brLtu x) s = gives (a.toNat < b.toNat) ∧ exec (.brGeu x) s = gives (b.toNat ≤ a.toNat))
  ∧ (∀ s t, OnScalar s → (jumped s t).c.sc = { s.c.sc with pc := t })
  ∧ (∀ (x : BrC) s, Empty s x.a.val → exec (.brEq x) s = .next s ∧ exec (.brNe x) s = .next s ∧ exec (.brLt x) s = .next s
      ∧ exec (.brGe x) s = .next s ∧ exec (.brLtu x) s = .next s ∧ exec (.brGeu x) s = .next s)
  ∧ (∀ (x : BrC) s a, Reads s x.a.val a → Empty s x.b.val →
      exec (.brEq x) s = .next s ∧ exec (.brNe x) s = .next s ∧ exec (.brLt x) s = .next s
      ∧ exec (.brGe x) s = .next s ∧ exec (.brLtu x) s = .next s ∧ exec (.brGeu x) s = .next s)
  ∧ (∀ x : BrC, let w := fun c => some (BitVec.ofNat 32 (10 + 128 * x.a.val + 4096 * x.b.val + 131072 * c + 1048576 * x.off.toNat))
      encode (.brEq x) = w 0 ∧ encode (.brNe x) = w 1 ∧ encode (.brLt x) = w 2 ∧ encode (.brGe x) = w 3
      ∧ encode (.brLtu x) = w 4 ∧ encode (.brGeu x) = w 5)
  ∧ ∀ w : BitVec 32, w.toNat % 128 = 10 → 6 ≤ w.toNat / 131072 % 8 → decode w = .illegal w

/-- R143: the mask branches look at the bits of the mask below vl; k0 reads as all ones; an empty mask, or one an older
vector-queue instruction has yet to write, makes them wait; their encoding, and the reserved form. -/
def Obligations.MaskBranches : Prop :=
  (∀ (x : BrM) s k, OnScalar s → s.c.vqWritesVl = false → ReadsMask s x.k.val k →
    ((∃ i < s.c.sc.vl, k.getLsbD i = true) → exec (.brmAny x) s = .next (jumped s (s.pc + 4 * x.off.signExtend 64)))
    ∧ ((∀ i < s.c.sc.vl, k.getLsbD i = false) → exec (.brmAny x) s = .next (passed s))
    ∧ ((∀ i < s.c.sc.vl, k.getLsbD i = true) → exec (.brmAll x) s = .next (jumped s (s.pc + 4 * x.off.signExtend 64)))
    ∧ ((∃ i < s.c.sc.vl, k.getLsbD i = false) → exec (.brmAll x) s = .next (passed s))
    ∧ ((∀ i < s.c.sc.vl, k.getLsbD i = false) → exec (.brmNone x) s = .next (jumped s (s.pc + 4 * x.off.signExtend 64)))
    ∧ ((∃ i < s.c.sc.vl, k.getLsbD i = true) → exec (.brmNone x) s = .next (passed s)))
  ∧ (∀ s, ReadsMask s 0 (BitVec.allOnes 8192))
  ∧ (∀ (x : BrM) s, OnScalar s → MaskAwaited s x.k.val →
      exec (.brmAny x) s = .next s ∧ exec (.brmAll x) s = .next s ∧ exec (.brmNone x) s = .next s)
  ∧ (∀ x : BrM, let w := fun f => some (BitVec.ofNat 32 (11 + 128 * x.k.val + 1024 * f + 4096 * x.off.toNat))
      encode (.brmAny x) = w 0 ∧ encode (.brmAll x) = w 1 ∧ encode (.brmNone x) = w 2)
  ∧ ∀ w : BitVec 32, w.toNat % 128 = 11 → w.toNat / 1024 % 4 = 3 → decode w = .illegal w

/-- R144: jal writes the address of the next word and transfers control; with s0 it is the unconditional jump. R145: jalr
takes its target from the register before it writes the link, so the two may be one register; a target that is no multiple of
4 traps with MISALIGNED and writes nothing. -/
def Obligations.Jumps : Prop :=
  ((∀ (x : OffD) s, Ready s x.d.val →
      exec (.jal x) s = .next (s.withC ((s.c.put x.d.val (s.pc + 4)).jump (s.pc + 4 * x.off.signExtend 64))))
    ∧ (∀ (x : OffD) s, OnScalar s → x.d = 0 → exec (.jal x) s = .next (jumped s (s.pc + 4 * x.off.signExtend 64)))
    ∧ ∀ x : OffD, encode (.jal x) = some (BitVec.ofNat 32 (12 + 128 * x.d.val + 4096 * x.off.toNat)))
  ∧ (∀ (x : ImmI) s a, OnScalar s → Reads s x.a.val a → Ready s x.d.val →
      ((a + x.imm.signExtend 64).toNat % 4 = 0 →
        exec (.jalr x) s = .next (s.withC ((s.c.put x.d.val (s.pc + 4)).jump (a + x.imm.signExtend 64))))
      ∧ ((a + x.imm.signExtend 64).toNat % 4 ≠ 0 →
        exec (.jalr x) s = .next (trapped s cMISALIGNED 0 (a + x.imm.signExtend 64))))

/-- R148: entering a loop. A loop at the END of the loop around it is ILLEGAL whatever its count; a count of 0 skips the
body, with no end test; a full stack traps with LOOP_DEPTH; else the new entry stands above the five below it. loop reads its
count with E = 0. -/
def Obligations.EnterLoop : Prop :=
  ∀ (x : LoopR) s, OnScalar s →
    let e0 := s.c.sc.loop0
    let after := fun (cnt : Word) (o : Host.Outcome State Fault Refusal) =>
      ¬(e0.count ≠ 0 ∧ s.pc = e0.last) →
      (cnt = 0 → o = .next (jumped s (s.pc + 4 * (x.len.setWidth 64 + 1))))
      ∧ (cnt ≠ 0 → (vget s.c.sc.loops 5 {}).count ≠ 0 → o = .next (trapped s cLOOP_DEPTH 0 6))
      ∧ (cnt ≠ 0 → (vget s.c.sc.loops 5 {}).count = 0 → ∃ l,
          o = .next (s.withC { s.c with sc := { s.c.sc with loops := l } }.advance)
          ∧ vget l 0 {} = { start := s.pc + 4, last := s.pc + 4 * x.len.setWidth 64, count := cnt, index := 0 }
          ∧ ∀ i < 5, vget l (i + 1) {} = vget s.c.sc.loops i {})
    (e0.count ≠ 0 → s.pc = e0.last →
      exec (.loop x) s = .next (trapped s cILLEGAL 0 (word (14 + x.enc)))
      ∧ exec (.loopi x) s = .next (trapped s cILLEGAL 0 (word (0x100E + x.enc))))
    ∧ (∀ cnt, Reads s x.cnt.val cnt → after cnt (exec (.loop x) s))
    ∧ after (word x.cnt.val) (exec (.loopi x) s)
    ∧ (Empty s x.cnt.val → ¬(e0.count ≠ 0 ∧ s.pc = e0.last) → exec (.loop x) s = .next s)

/-- R149: where no repeat frame runs, an instruction that completes without transferring control leaves the loop stack and
the program counter as the end test says. Loops that end on one instruction are all tested in the one step. -/
def Obligations.EndTest : Prop :=
  ∀ s, OnScalar s → s.c.sc.rptRun = false →
    Ends s.c.sc s.pc (passed s).c.sc ∧ ∀ x, Ends s.c.sc s.pc x → (passed s).c.sc = x

/-- R151: lbrk ends loop entry 0, and the enclosing loop that shares its END is tested there; with no loop it traps with
LOOP_DEPTH. -/
def Obligations.LoopBreak : Prop :=
  ∀ s, OnScalar s →
    (s.c.sc.loop0.count = 0 → exec .lbrk s = .next (trapped s cLOOP_DEPTH 0 0))
    ∧ (s.c.sc.loop0.count ≠ 0 → ∃ l x, (∀ i < 5, vget l i {} = vget s.c.sc.loops (i + 1) {}) ∧ vget l 5 {} = {}
        ∧ Ends { s.c.sc with loops := l } s.c.sc.loop0.last x
        ∧ exec .lbrk s = .next (s.withC { s.c with sc := x, ord := s.c.ord + 1 }))

/-- R41, R155: rpt fetches the words after it first; a failed capture check, and an active frame, then trap with RPT_ILLEGAL and
take nothing; else the words stand in its buffer as fetched, at word 0 of replay 0. R42, R154, R156: the words of a frame
execute in order, replay by replay, staggered, each at the address of its captured word; after the last replay the frame is
over, its last position standing, and the end test is made once. What tval holds for an active frame is the model's choice (log
entry 70). -/
def Obligations.RepeatFrames : Prop :=
  (∀ (x : RptF) s, OnScalar s →
      (∀ b f, fetchWords s s.cur (s.pc + 4) s.pc (x.len.toNat + 1) = .error (.trap b f) →
          exec (.rpt x) s = .next (raise (f.getD s) s.cur b))
      ∧ (∀ t ws,
          fetchWords s s.cur (s.pc + 4) s.pc (x.len.toNat + 1) = .ok (t, ws) →
          let bad := captureCheck (t.ctx s.cur).sc s.pc (15 + x.enc) ws (x.cnt.toNat + 1) x.sd.val x.sa.val x.sb.val
          (∀ v, bad = some v → exec (.rpt x) s = .next (trapped s cRPT_ILLEGAL 0 v))
          ∧ (bad = none → s.c.sc.rptAct = true → exec (.rpt x) s = .next (trapped s cRPT_ILLEGAL 0 (rptTval (15 + x.enc) 0 0 false)))
          ∧ (bad = none → s.c.sc.rptAct = false → ∃ c, exec (.rpt x) s = .next (t.setCtx s.cur c) ∧ c.ord = (t.ctx s.cur).ord + 1
              ∧ c.sc = { (t.ctx s.cur).sc with
                  rptAct := true, rptRun := true, rptI := 0, rptJ := 0, rptBuf := ws, rptCnt := x.cnt.toNat + 1,
                  rptSd := x.sd.val, rptSa := x.sa.val, rptSb := x.sb.val, pc := s.pc + 4 })))
  ∧ (∀ s, OnScalar s → s.c.sc.rptRun = true →
      let x := s.c.sc
      let y := (passed s).c.sc
      nextWord s = .ok (s, stagger (x.rptBuf.getD x.rptI 0).toNat x.rptJ x.rptSd x.rptSa x.rptSb)
      ∧ (x.rptI + 1 < x.rptBuf.length → y = { x with rptI := x.rptI + 1, pc := x.pc + 4 })
      ∧ (x.rptI + 1 = x.rptBuf.length → x.rptJ + 1 < x.rptCnt →
          y = { x with rptI := 0, rptJ := x.rptJ + 1, pc := x.pc - 4 * BitVec.ofNat 64 x.rptI })
      ∧ (x.rptI + 1 = x.rptBuf.length → x.rptJ + 1 = x.rptCnt →
          Ends { x with rptAct := false, rptRun := false, rptBuf := [] } x.pc y))

/-! ## Lane mode -/

/-- R38, R287: in lane mode every instruction but the scalar ALU forms, the scalar loads and stores, the atomics, br, jal and
ljoin traps with LANE_MODE, tval the lane; words that are illegal, runs past v31, and numbers of special registers that rdspr
or wrspr does not take, come first (R96). A prefetch, which traps on nothing but an illegal word (R180), is dropped
(log entry 39). -/
def Obligations.LaneModeTraps : Prop :=
  ∀ i w s, i.wf = true → encode i = some w → InLane s →
    (∀ f, formOf i = some f → f.runsPast s.c.sc.rows.val = false) →
    (∀ x, i = .rdspr x → (readSpr s s.cur x.spr.toNat).isSome = true) → (∀ x, i = .wrspr x → sprWritable x.spr.toNat = true) →
    let op := w.toNat % 128
    0x01 ≤ op → op < 0x60 →
    ¬(op ≤ 0x09 ∨ op = 0x0A ∨ op = 0x0C ∨ (0x10 ≤ op ∧ op ≤ 0x13) ∨ op = 0x16 ∨ op = 0x17 ∨ op = 0x1E ∨ op = 0x58) →
    exec i s = .next (trapped s cLANE_MODE 0 (word s.c.laneTurn.val))

/-- R38, R285: in lane mode a register field names the lane's 8-byte slot, field 0 too. A result changes that slot and no
other bit of any vector register, no scalar, tag, mask, lane-matrix register or full/empty bit, and no byte of memory. -/
def Obligations.LaneSlots : Prop :=
  ∀ (s : State) (d : Fin 32) r, InLane s →
    let l := s.c.laneTurn.val
    let t := wrote s d.val r
    (∀ n : Fin 32, Reads s n.val (((vget s.c.v n.val 0) >>> (64 * l)).setWidth 64)) ∧ (∀ n, Ready s n)
    ∧ t.c.slot l d.val = r
    ∧ (∀ n : Fin 32, ∀ j < 4096, n ≠ d ∨ j / 64 ≠ l → (vget t.c.v n.val 0).getLsbD j = (vget s.c.v n.val 0).getLsbD j)
    ∧ t.c.sc = s.c.sc ∧ t.c.feV = s.c.feV ∧ t.c.feS = s.c.feS ∧ t.c.feK = s.c.feK ∧ t.c.feW = s.c.feW
    ∧ t.c.k = s.c.k ∧ t.c.w = s.c.w ∧ vget t.c.lpc l 0 = s.pc + 4 ∧ SameMemory s t

/-- R285: lsplit waits for the older vector-queue instructions that are not Detached, and, in this model, until the store
buffer, the loads and the divides are quiet too (log entry 42); with no bit set it goes on at the next word; else the lanes of the
mask start at the target and lane mode begins, the sequencer's own program counter staying at the lsplit. R286: ljoin marks
its lane; when every split lane has arrived, lane mode ends and the sequencer goes on after the join of the lowest lane, once the
lanes' held stores have been performed (the model's choice, log entries 6 and 96). Outside lane mode it is ILLEGAL, subcode
0x0C. -/
def Obligations.LaneThreads : Prop :=
  (∀ (x : BrM) s k, OnScalar s →
      (s.c.quiet = false → exec (.lsplit x) s = .next s)
      ∧ (s.c.quiet = true → ReadsMask s x.k.val k → (∀ i < 64, k.getLsbD i = false) → exec (.lsplit x) s = .next (passed s))
      ∧ (s.c.quiet = true → ReadsMask s x.k.val k → (∃ i < 64, k.getLsbD i = true) →
          ∃ c, exec (.lsplit x) s = .next (s.withC c) ∧ c.lmode = true ∧ c.laneOn = true ∧ c.split = k.setWidth 64 ∧ c.arrived = 0
            ∧ c.sc = s.c.sc ∧ c.v = s.c.v ∧ c.k = s.c.k
            ∧ ∀ i < 64, vget c.lpc i 0 = if k.getLsbD i then s.pc + 4 * x.off.signExtend 64 else vget s.c.lpc i 0))
  ∧ (∀ s,
      (OnScalar s → exec .ljoin s = .next (trapped s cILLEGAL 0x0C (word 0x58)))
      ∧ (InLane s → s.c.sb ≠ [] → (∀ i < 64, s.c.split.getLsbD i = true → s.c.arrived.getLsbD i = true ∨ i = s.c.laneTurn.val) →
          exec .ljoin s = .next (s.withC s.c.passTurn))
      ∧ (InLane s → s.c.sb = [] ∨ (∃ i < 64, s.c.split.getLsbD i = true ∧ s.c.arrived.getLsbD i = false ∧ i ≠ s.c.laneTurn.val) →
        ∃ c, exec .ljoin s = .next (s.withC c)
          ∧ (∀ i < 64, c.arrived.getLsbD i = (s.c.arrived.getLsbD i || i == s.c.laneTurn.val))
          ∧ c.lpc = s.c.lpc ∧ c.v = s.c.v
          ∧ ((∃ i < 64, s.c.split.getLsbD i = true ∧ c.arrived.getLsbD i = false) → c.lmode = true ∧ c.sc = s.c.sc)
          ∧ (∀ l < 64, (∀ i < 64, s.c.split.getLsbD i = true → c.arrived.getLsbD i = true) → s.c.split.getLsbD l = true →
              (∀ i < l, s.c.split.getLsbD i = false) →
              c.lmode = false ∧ c.sc = { s.c.sc with pc := vget s.c.lpc l 0 + 4 })))

/-! ## Scalar memory -/

/-- R160: the checks of a scalar access in their order. A misaligned address traps with MISALIGNED, tval the address; an
address whose bits 63:56 are not zero stops with XLATE_INVALID at it. -/
def Obligations.AccessChecks : Prop :=
  (∀ (x : LdSt) s b, Reads s x.a.val b →
    let mis := fun (n : Word) => Host.Outcome.next (trapped s cMISALIGNED 0 (b + x.off.signExtend 64 * n))
    let off := fun (n : Word) => (b + x.off.signExtend 64 * n).toNat % n.toNat ≠ 0
    (off 2 → exec (.ldHz x) s = mis 2 ∧ exec (.ldHs x) s = mis 2)
    ∧ (off 4 → exec (.ldWz x) s = mis 4 ∧ exec (.ldWs x) s = mis 4) ∧ (off 8 → exec (.ldD x) s = mis 8)
    ∧ (off 16 → exec (.ldp x) s = mis 16)
    ∧ ∀ v, Reads s x.t.val v →
      (off 2 → exec (.stH x) s = mis 2) ∧ (off 4 → exec (.stW x) s = mis 4) ∧ (off 8 → exec (.stD x) s = mis 8)
      ∧ ∀ v1, Reads s (x.t.val + 1) v1 → off 16 → exec (.stp x) s = mis 16)
  ∧ (∀ (x : AmoF) s a b, Reads s x.a.val a → Reads s x.b.val b → a.toNat % 8 ≠ 0 →
      exec (.amoAdd x) s = .next (trapped s cMISALIGNED 0 a) ∧ exec (.amoSwap x) s = .next (trapped s cMISALIGNED 0 a))
  ∧ ∀ (x : LdSt) s b, Reads s x.a.val b → NoFenceHeld s →
      let va := b + x.off.signExtend 64 * 8
      va.toNat % 8 = 0 → 2 ^ 56 ≤ va.toNat →
      exec (.ldD x) s = .next (stopped s cXLATE_INVALID 0 va)
      ∧ ∀ v, Reads s x.t.val v → exec (.stD x) s = .next (stopped s cXLATE_INVALID 0 va)

/-- R163, R164, R166: the loads. The address is the base plus the scaled offset, modulo 2^64; the destination is empty until
the data arrive; ldp fills a pair and ldacq acquires at its scope. R164: what a load delivers, from the `8 * n` bits it read:
zero- or sign-extended, and for ldp the low half in the even register. R300, R305: before the read of an acquire the words of it
that the core has written go to the die point; an acquire at seq follows its read, and a wider one precedes it. R162: an
ldp from host or peer memory is two accesses of eight bytes, the low word first, and every other load is one. -/
def Obligations.LoadForms : Prop :=
  ((∀ (x : LdSt) s b t p, Reads s x.a.val b →
      let one := fun (i : Instr) (w n : Nat) (sign : Bool) =>
        let va := b + x.off.signExtend 64 * word n
        Translates s va n .r (n == 8) t p → Ready t x.t.val →
        Loads i s t (newLoad t (w + x.enc) x.t.val va p n sign false none) [x.t.val]
      one (.ldBz x) 0x10 1 false ∧ one (.ldBs x) 0x80010 1 true ∧ one (.ldHz x) 0x20010 2 false
      ∧ one (.ldHs x) 0xA0010 2 true ∧ one (.ldWz x) 0x40010 4 false ∧ one (.ldWs x) 0xC0010 4 true
      ∧ one (.ldD x) 0x60010 8 false
      ∧ (let va := b + x.off.signExtend 64 * 16
         Translates s va 16 .r false t p → AllReady t [x.t.val, x.t.val + 1] →
         Loads (.ldp x) s t (newLoad t (0x60012 + x.enc) x.t.val va p 16 false true none) [x.t.val, x.t.val + 1]))
    ∧ ∀ (x : LdAcq) s b t p, OnScalar s → Reads s x.a.val b →
        let n := 2 ^ x.size.val
        let va := b + x.off.signExtend 64 * word n
        Translates s va n .r (n == 8) t p → Ready t x.t.val →
        Loads (.ldacq x) s t (newLoad t (0x14 + x.enc) x.t.val va p n x.sign false (some x.sc.val)) [x.t.val])
  ∧ (∀ s q l u v, l.probe = none →
      (match l.acq with
        | some sc => acquireRead s q l.ord l.x l.n sc
        | none => readHere s q l.ord l.x l.n) = .ok (u, v) →
      ∃ rs, loadData s q l = .ok (u, rs)
        ∧ (l.pair = true → rs = [(l.d, word v), (l.d + 1, word (v / 2 ^ 64))])
        ∧ (l.pair = false → l.sign = false → rs = [(l.d, word v)])
        ∧ (l.pair = false → l.sign = true → l.n = 1 → rs = [(l.d, (BitVec.ofNat 8 v).signExtend 64)])
        ∧ (l.pair = false → l.sign = true → l.n = 2 → rs = [(l.d, (BitVec.ofNat 16 v).signExtend 64)])
        ∧ (l.pair = false → l.sign = true → l.n = 4 → rs = [(l.d, (BitVec.ofNat 32 v).signExtend 64)]))
  ∧ (∀ s q ord x n sc t,
      (match cachedAt s q x with
        | some a => registerWords s (q / 4) (wordsOf a n)
        | none => .ok s) = .ok t →
      (sc ≠ 0 → acquireRead s q ord x n sc = readHere (acquireAt t q sc) q ord x n)
      ∧ ∀ u v, readHere t q ord x n = .ok (u, v) → acquireRead s q ord x n 0 = .ok (acquireAt u q 0, v))
  ∧ (∀ l : Load, (l.x.host = true ∨ l.x.dev ≠ 0) → l.n = 16 → ∃ hi : Load, l.halves = ({ l with n := 8, pair := false }, some hi)
      ∧ hi.d = l.d + 1 ∧ hi.n = 8 ∧ hi.pair = false ∧ hi.va = l.va + 8 ∧ hi.x.pa = l.x.pa + 8 ∧ hi.ord = l.ord)
  ∧ (∀ l : Load, l.n ≠ 16 ∨ (l.x.host = false ∧ l.x.dev = 0) → l.halves = (l, none))

/-- R163: each byte of a load comes from the youngest older held store that covers it, and the others from memory, the piece
of a stash window that it touches filled (R179). That a store covers a byte by the place it lies in, not by its virtual address, is
the model's reading (log entry 41). -/
def Obligations.LoadForwarding : Prop :=
  ∀ s q ord x n u m, x.ctl = false → accRead (fillPiece s q x) ((fillPiece s q x).agent q) x n = .ok (u, m) →
    ∃ t v, readHere s q ord x n = .ok (t, v) ∧ ∀ i < n, v / 256 ^ i % 256 =
      match ((s.ctx q).sb.filter fun h => decide (h.ord < ord) && (match h.op with
        | .store _ y k _ | .strel _ y k _ _ => x.alike y && decide (y.pa ≤ x.pa + i) && decide (x.pa + i < y.pa + k)
        | _ => false)).getLast? with
      | some h => (match h.op with
        | .store _ y _ w | .strel _ y _ w _ => w / 256 ^ (x.pa + i - y.pa) % 256
        | _ => 0)
      | none => m / 256 ^ i % 256

/-- R16, R164, R166: the stores. Each enters the store buffer with its bytes and its translation; stp stores the pair, the
even register at the lower address; strel releases at its scope. R302: in lane mode a plain store that nothing can refuse any more
enters it too, where the sequencer runs ahead (which stores wait there is the model's choice, log entry 6). -/
def Obligations.StoresHeld : Prop :=
  (∀ (x : LdSt) s b v t p, Reads s x.a.val b → Reads s x.t.val v →
    let one := fun (i : Instr) (w n : Nat) =>
      let va := b + x.off.signExtend 64 * word n
      let op : HeldOp := .store va p n (v.toNat % 2 ^ (8 * n))
      Translates s va n .w (n == 8) t p → Holds i s t op (w + x.enc) [] ∧ PerformsInLane i s t op (w + x.enc)
    one (.stB x) 0x11 1 ∧ one (.stH x) 0x20011 2 ∧ one (.stW x) 0x40011 4 ∧ one (.stD x) 0x60011 8
    ∧ ∀ v1, Reads s (x.t.val + 1) v1 →
      let va := b + x.off.signExtend 64 * 16
      let op : HeldOp := .store va p 16 (v.toNat + 2 ^ 64 * v1.toNat)
      Translates s va 16 .w false t p → Holds (.stp x) s t op (0x60013 + x.enc) [] ∧ PerformsInLane (.stp x) s t op (0x60013 + x.enc))
  ∧ ∀ (x : StRel) s b v t p, OnScalar s → Reads s x.a.val b → Reads s x.t.val v →
      let n := 2 ^ x.size.val
      let va := b + x.off.signExtend 64 * word n
      Translates s va n .w (n == 8) t p →
      Holds (.strel x) s t (.strel va p n (v.toNat % 2 ^ (8 * n)) x.sc.val) (0x15 + x.enc) []

/-- R167, R168: the atomics, held with their operands; the old value goes to the destination, for cas.q to a pair. -/
def Obligations.AtomicsHeld : Prop :=
  (∀ (x : AmoF) s a b t p, Reads s x.a.val a → Reads s x.b.val b → Translates s a 8 .rw false t p → Ready t x.d.val →
    let one := fun (i : Instr) (w : Nat) (o : AmoOp) =>
      let op : HeldOp := .amo o a p b x.acq x.rel x.sc.val x.d.val
      Holds i s t op (w + x.enc) [x.d.val] ∧ PerformsInLane i s t op (w + x.enc)
    one (.amoAdd x) 0x16 .add ∧ one (.amoAnd x) 0x400016 .and ∧ one (.amoOr x) 0x800016 .or
    ∧ one (.amoXor x) 0xC00016 .xor ∧ one (.amoMin x) 0x1000016 .min ∧ one (.amoMax x) 0x1400016 .max
    ∧ one (.amoMinu x) 0x1800016 .minu ∧ one (.amoMaxu x) 0x1C00016 .maxu ∧ one (.amoSwap x) 0x2000016 .swap)
  ∧ ∀ (x : CasF) s a b c t p, Reads s x.a.val a → Reads s x.b.val b → Reads s x.c.val c →
      (Translates s a 8 .rw false t p → Ready t x.d.val →
        let op : HeldOp := .cas 8 a p b.toNat c.toNat x.sc.val x.d.val
        Holds (.cas x) s t op (0x17 + x.enc) [x.d.val] ∧ PerformsInLane (.cas x) s t op (0x17 + x.enc))
      ∧ ∀ b1 c1, Reads s (x.b.val + 1) b1 → Reads s (x.c.val + 1) c1 → Translates s a 16 .rw false t p →
        AllReady t [x.d.val, x.d.val + 1] →
        let op : HeldOp := .cas 16 a p (b.toNat + 2 ^ 64 * b1.toNat) (c.toNat + 2 ^ 64 * c1.toNat) x.sc.val x.d.val
        Holds (.casQ x) s t op (0x80000017 + x.enc) [x.d.val, x.d.val + 1]
        ∧ PerformsInLane (.casQ x) s t op (0x80000017 + x.enc)

/-- R170, R172, R176, R177, R178, R180: the fences, translation fences, barrier arrival, cache maintenance, stash forms and
prefetches, as they are held. A prefetch whose checks fail, whose address register is empty, or that stands in lane mode is
held with no place and does nothing: it traps on nothing (R180; that it is so dropped in lane mode and with an empty register is
the model's reading, log entry 39). -/
def Obligations.OrderingFormsHeld : Prop :=
  (∀ (x : ScopeF) s, OnScalar s →
    Holds (.fenceAcq x) s s (.fence 0 x.sc.val) (0x18 + x.enc) [] ∧ Holds (.fenceRel x) s s (.fence 1 x.sc.val) (0x8000018 + x.enc) []
    ∧ Holds (.fenceAr x) s s (.fence 2 x.sc.val) (0x10000018 + x.enc) []
    ∧ Holds (.fenceSc x) s s (.fence 3 x.sc.val) (0x18000018 + x.enc) []
    ∧ Holds (.xfenceAll x) s s (.xfence 0 0 x.sc.val) (0x19 + x.enc) [])
  ∧ (∀ (x : ScopeA) s a, OnScalar s → Reads s x.a.val a →
    Holds (.xfenceSpace x) s s (.xfence 1 a x.sc.val) (0x8000019 + x.enc) []
    ∧ Holds (.xfencePage x) s s (.xfence 2 a x.sc.val) (0x10000019 + x.enc) []
    ∧ (∀ t p, Translates s a 1 .r false t p →
        Holds (.clineClean x) s t (.cline 0 a p x.sc.val) (0x1C + x.enc) []
        ∧ Holds (.clineFlush x) s t (.cline 2 a p x.sc.val) (0x1000001C + x.enc) [])
    ∧ ∀ t p, Translates s a 1 .w false t p →
        Holds (.clineInv x) s t (.cline 1 a p x.sc.val) (0x800001C + x.enc) []
        ∧ Holds (.clineZero x) s t (.cline 3 a p x.sc.val) (0x1800001C + x.enc) [])
  ∧ (∀ (x : BarF) s a b t p, OnScalar s → Reads s x.a.val a → Reads s x.b.val b → Translates s a 8 .rw false t p →
    Ready t x.d.val → Holds (.barArr x) s t (.barArr a p (b.setWidth 32) x.sc.val x.d.val) (0x1B + x.enc) [x.d.val])
  ∧ (∀ (x : Alu2) s a b, OnScalar s → Reads s x.a.val a → Reads s x.b.val b → Ready s x.d.val →
    (a.toNat % 512 = 0 → Holds (.stashMap x) s s (.stash 0 a b x.d.val) (0x1D + x.enc) [x.d.val])
    ∧ (a.toNat % 512 ≠ 0 → exec (.stashMap x) s = .next (trapped s cMISALIGNED 0 a)))
  ∧ (∀ (x : StashB) s b, OnScalar s → Reads s x.b.val b → Ready s x.d.val →
    Holds (.stashUnmap x) s s (.stash 1 0 b x.d.val) (0x800001D + x.enc) [x.d.val]
    ∧ Holds (.stashFlush x) s s (.stash 2 0 b x.d.val) (0x1000001D + x.enc) [x.d.val]
    ∧ Holds (.stashPin x) s s (.stash 3 0 b x.d.val) (0x1800001D + x.enc) [x.d.val]
    ∧ Holds (.stashUnpin x) s s (.stash 4 0 b x.d.val) (0x2000001D + x.enc) [x.d.val])
  ∧ (∀ (x : PrefF) s a, OnScalar s → Reads s x.a.val a →
    let one := fun (i : Instr) (w level : Nat) =>
      (∀ t p, Translates s a 1 .r false t p → Holds i s t (.pref level p.va (some p)) (w + x.enc) [])
      ∧ ∀ e f, scalarAccess s a 1 .r false = .error (.trap e f) → Holds i s s (.pref level 0 none) (w + x.enc) []
    one (.prefL2 x) 0x1E 0 ∧ one (.prefLlc x) 0x800001E 1 ∧ one (.prefStash x) 0x1000001E 2)
  ∧ (∀ (x : PrefF) s,
    let drops := fun (i : Instr) (w level : Nat) =>
      (Empty s x.a.val → x.ea = true → Holds i s s (.pref level 0 none) (w + x.enc) [])
      ∧ PerformsInLane i s s (.pref level 0 none) (w + x.enc)
    drops (.prefL2 x) 0x1E 0 ∧ drops (.prefLlc x) 0x800001E 1 ∧ drops (.prefStash x) 0x1000001E 2)
  ∧ ∀ s q h level a, h.op = .pref level a none → perform s q h = .ok (s, [])

/-- R299 step 3, R401, R405: what a held store does when it is performed, the piece of a stash window that it touches filled
(R179). On device memory its bytes enter its core's registry, which first makes room for them, and at once their home where the
protocol may refuse a write; a store of 32 bytes or more clears the poison of the sectors it fills (R368); on the plain host
path and on a peer the bytes are written there. Nothing else changes but what finding the place left. R162: an stp to host or
peer memory is performed as two stores of eight bytes, the low word first. R299 steps 2 and 3, R310: the frame of a store in a core's
registry. The core reads the stored bytes back. Every byte of every other word reads as before, by every core; so does, by
that core, every other byte of the stored words unless the core held the word as a copy it has not registered, whose other
bytes then come from the die point. Nothing outside the registry changes. -/
def Obligations.StoresPerformed : Prop :=
  (∀ s q va x n v h, h.op = .store va x n v → x.ctl = false → farPair x n = false →
      let core := q / 4
      let r := fillPiece s q x
      let clears := fun (t : State) a => if 32 ≤ n then clearPoison t a n else t
      (∀ u a g sl av t, resolve r (s.agent q) x .w = .ok (u, .line a g sl av) → atOnce u a sl = false →
        enterStore u core a n v g sl av = .ok t → perform s q h = .ok (clears t a, []))
      ∧ (∀ u a g sl av u1 t u2, resolve r (s.agent q) x .w = .ok (u, .line a g sl av) → atOnce u a sl = true →
        placeReady u g a n = .ok u1 → atOnce u1 a sl = true → enterStore u1 core a n v g sl av = .ok t →
        placeNow (clears t a) core a n = .ok u2 → perform s q h = .ok (u2, []))
      ∧ (∀ u a, resolve r (s.agent q) x .w = .ok (u, .plain a) →
        perform s q h = .ok ({ u with hostMem := Memory.writeN u.hostMem a n v }, []))
      ∧ ∀ u k l u1, resolve r (s.agent q) x .w = .ok (u, .peer k l) → timedOut u (.seq q) = false → peerWrite u l = .ok u1 →
        perform s q h = .ok ({ u1 with peerMem := Memory.writeN u1.peerMem k n v }, []))
  ∧ (∀ (h : Held) va x v, h.op = .store va x 16 v → (x.host = true ∨ x.dev ≠ 0) → ∃ y : Xl, y.pa = x.pa + 8 ∧ y.host = x.host
      ∧ y.dev = x.dev ∧ h.halves = ({ h with op := .store va x 8 (v % 2 ^ 64) }, some { h with op := .store (va + 8) y 8 (v / 2 ^ 64) }))
  ∧ (∀ s core a n v g sl va, s.reg.length < l1Words → flipping s a = false → splitStore s core a n = false →
      enterStore s core a n v g sl va = .ok (enterBytes s core a n v g sl va))
  ∧ (∀ s core a n v g sl va, a + n < 2 ^ 56 → core < 512 → 0 < n →
      let t := enterBytes s core a n v g sl va
      (∀ i < n, engineHolds s ((a + i) / 4 * 4) = false → flipping s ((a + i) / 4 * 4) = false →
        coreByte t core (a + i) g sl = some (v / 256 ^ i % 256))
      ∧ (∀ c b g' sl', c < 512 → b < 2 ^ 56 → b / 4 < a / 4 ∨ (a + n - 1) / 4 < b / 4 → coreByte t c b g' sl' = coreByte s c b g' sl')
      ∧ (∀ b g' sl', b < 2 ^ 56 → b < a ∨ a + n ≤ b →
          (∀ r, find s.reg (unitKey core (b / 4 * 4)) = some r → r.registered = true) →
          (find s.reg (unitKey core (b / 4 * 4)) = none → find s.die (unitKey (coreDie core) (b / 4 * 4)) ≠ some (.core core)) →
          coreByte t core b g' sl' = coreByte s core b g' sl')
      ∧ t.mem = s.mem ∧ t.hostMem = s.hostMem ∧ t.peerMem = s.peerMem ∧ t.die = s.die ∧ t.lines = s.lines ∧ t.seqs = s.seqs)

/-- R167: the new value of each atomic update of eight bytes. R167 to R169, R176: amo, cas, cas.q and bar.arr release first where
they do, read, write and answer in one step, and acquire where they do: the destination receives the value before, and a cas
writes only where the comparison holds. On a peer the eight or sixteen bytes become the new value and no other byte of any memory
changes; a write to a line of slot 3 that is in state W is refused with PROTOCOL, and any other leaves it so (R329). On the plain
host path only add, swap and the compare have a request; any other stops with HOST_ABORT. In device memory the issuing core's die
point first takes back each word, so that neither a core is registered for it nor the issuing core holds a copy; the value before
is what that die point then reads, and the new words are placed as one write, at scope pkg and wider at the home. Placing words on
a line that the die holds and nobody owns leaves each of them at the die point or at the home, every other word and every other
memory as before. R176: an arrival at a barrier word, by its fields: REMAINING, GENERATION and OVR. An arrival of 0 changes
nothing. -/
def Obligations.UpdatesPerformed : Prop :=
  (∀ a b : Word,
      let new := fun (o : AmoOp) => amoResult o 8 a.toNat b.toNat
      new .add = (a + b).toNat ∧ new .and = (a &&& b).toNat ∧ new .or = (a ||| b).toNat ∧ new .xor = (a ^^^ b).toNat
      ∧ new .swap = b.toNat
      ∧ new .min = (if a.toInt ≤ b.toInt then a else b).toNat ∧ new .max = (if a.toInt ≤ b.toInt then b else a).toNat
      ∧ new .minu = (if a.toNat ≤ b.toNat then a else b).toNat ∧ new .maxu = (if a.toNat ≤ b.toNat then b else a).toNat)
  ∧ ((∀ s q h o va x v acq rel sc d, h.op = .amo o va x v acq rel sc d → x.ctl = false →
      let acquired := fun (t : State) => if acq then acquireAt t q sc else t
      ∀ t, (if rel then releaseAt s q sc else .ok s) = .ok t → slotCheck t x = .ok () →
        (x.host = false → x.dev ≠ 0 → ∀ p u, peerRoute t (.seq q) x.dev true = .ok p → timedOut t (.seq q) = false →
          peerWrite t (peerLine x) = .ok u →
          let old := Memory.readN t.peerMem (peerKey p x.pa) 8
          perform s q h = .ok (acquired
            { u with peerMem := Memory.writeN u.peerMem (peerKey p x.pa) 8 (amoResult o 8 old v.toNat) }, [(d, word old)]))
        ∧ (x.host = false → x.dev = 0 → asksHost t x = false → ∀ u old,
            homeUpdate t (q / 4) x.pa 8 x.grain x.slot sc (fun old => some (amoResult o 8 old v.toNat)) = .ok (u, old) →
            perform s q h = .ok (acquired u, [(d, word old)]))
        ∧ (x.host = true → coherent t (t.pnum q) = false →
            (o ≠ .add → o ≠ .swap → perform s q h = .error (.trap (classB cHOST_ABORT 0x02 va h.ipc)))
            ∧ (o = .add ∨ o = .swap → t.link.atomicEnable = true → atomOk t (.seq q) 8 = .ok () → ∀ u a,
                atsLookup t (.seq q) (fnOf (t.pnum q)) (t.ctx q).space.toNat x.pa x.va .rw = .ok (u, a) →
                let old := Memory.readN u.hostMem a 8
                perform s q h = .ok (acquired { u with hostMem := Memory.writeN u.hostMem a 8 (amoResult o 8 old v.toNat) },
                  [(d, word old)]))))
    ∧ (∀ s q h n va x e w sc d, h.op = .cas n va x e w sc d → x.ctl = false → x.host = false → slotCheck s x = .ok () →
      (x.dev ≠ 0 → ∀ p, peerRoute s (.seq q) x.dev true = .ok p → timedOut s (.seq q) = false →
        let old := Memory.readN s.peerMem (peerKey p x.pa) n
        (old ≠ e → perform s q h = .ok (acquireAt s q sc, results d n old))
        ∧ ∀ u t v, old = e → peerWrite s (peerLine x) = .ok u → releaseAt s q sc = .ok t → slotCheck t x = .ok () →
          peerRoute t (.seq q) x.dev true = .ok p → timedOut t (.seq q) = false → peerWrite t (peerLine x) = .ok v →
          Memory.readN t.peerMem (peerKey p x.pa) n = e →
          perform s q h = .ok (acquireAt { v with peerMem := Memory.writeN v.peerMem (peerKey p x.pa) n w } q sc, results d n e))
      ∧ (x.dev = 0 → asksHost s x = false → ∀ u old,
        let f := fun (old : Nat) => if old = e then some w else none
        homeUpdate s (q / 4) x.pa n x.grain x.slot sc f = .ok (u, old) →
        (old ≠ e → perform s q h = .ok (acquireAt u q sc, results d n old))
        ∧ ∀ t v old2, old = e → releaseAt s q sc = .ok t → slotCheck t x = .ok () → asksHost t x = false →
          homeUpdate t (q / 4) x.pa n x.grain x.slot sc f = .ok (v, old2) →
          perform s q h = .ok (acquireAt v q sc, results d n old2)))
    ∧ (∀ s q x amt sc t u old, releaseAt s q sc = .ok t → slotCheck t x = .ok () → x.host = false → x.dev = 0 →
      asksHost t x = false → homeUpdate t (q / 4) x.pa 8 x.grain x.slot sc (fun w => arriveWord w amt) = .ok (u, old) →
      arrivePerform s q x amt sc = .ok (u, old))
    ∧ (∀ s core a n g sl sc f, a < hostTag → poisoned s a n = false →
      let ws := (List.range (n / 4)).map fun i => a + 4 * i
      ∀ t, ws.foldlM (fun s w => dieTake s core w) s = .ok t →
        let u := ws.foldl (fun s w => flushWord s (coreDie core) w) t
        ∀ r old, readWords (fun s w => dieRead s (coreDie core) w g sl) u a (n / 4) = .ok (r, old) →
          (f old = none → homeUpdate s core a n g sl sc f = .ok (r, old))
          ∧ ∀ new y b, f old = some new →
            placeGroup r (coreDie core) g sl ((List.range (n / 4)).map fun i => (a + 4 * i, BitVec.ofNat 32 (new / 2 ^ (32 * i))))
              none (decide (4 ≤ sc)) = .ok (y, b) →
            homeUpdate s core a n g sl sc f = .ok (y, old))
    ∧ (∀ s core w t, dieTake s core w = .ok t → find t.reg (unitKey core w) = none
        ∧ ∀ c, find t.die (unitKey (coreDie core) w) ≠ some (.core c))
    ∧ (∀ s d w g sl, engineHolds s w = false → flipping s w = false →
        (∀ v, find s.die (unitKey d w) = some (.value v) → dieRead s d w g sl = .ok (s, v))
        ∧ (find s.die (unitKey d w) = none → holds s d w g sl = true → dieRead s d w g sl = .ok (s, homeWord s w)))
    ∧ (∀ s d a g sl l (ws : List (Nat × BitVec 32)) home t b, d < 8 → g < 3 → s.memOk → a < hostTag → a % 4 = 0 →
      find s.lines (grainBase g a) = some l → l.owner = none → holds s d a g sl = true → s.idq = [] →
      ws.map (·.1) = (List.range ws.length).map (fun i => a + 4 * i) → ws ≠ [] → a + 4 * ws.length ≤ grainBase g a + grainBytes g →
      (∀ x ∈ ws, ∀ c, find s.die (unitKey d x.1) ≠ some (.core c)) →
      placeGroup s d g sl ws none home = .ok (t, b) →
      (∀ x ∈ ws, find t.die (unitKey d x.1) = some (.value x.2) ∨ (find t.die (unitKey d x.1) = none ∧ homeWord t x.1 = x.2))
      ∧ (∀ u, u % 4 = 0 → u < hostTag → u ∉ ws.map (·.1) → homeWord t u = homeWord s u
          ∧ ∀ k < 8, find t.die (unitKey k u) = find s.die (unitKey k u))
      ∧ t.reg = s.reg ∧ t.hostMem = s.hostMem ∧ t.peerMem = s.peerMem ∧ t.seqs = s.seqs)
    ∧ ∀ s, peerWrite s none = .ok s ∧ ∀ b, (b ∉ s.peerW → peerWrite s (some b) = .ok { s with peerW := b :: s.peerW })
        ∧ (b ∈ s.peerW → peerWrite s (some b) = .error (.stop cPROTOCOL 0)))
  ∧ (∀ w amt, w < 2 ^ 64 → amt < 2 ^ 32 →
      let rem := w % 2 ^ 32
      let gen := w / 2 ^ 32 % 2 ^ 16
      (amt = 0 → arriveWord w amt = none)
      ∧ (amt ≠ 0 → ∃ n, arriveWord w amt = some n ∧ n < 2 ^ 64
          ∧ n % 2 ^ 32 = (if amt ≤ rem then rem - amt else 0)
          ∧ n / 2 ^ 32 % 2 ^ 16 = (if rem ≠ 0 ∧ rem ≤ amt then (gen + 1) % 2 ^ 16 else gen)
          ∧ n.testBit 56 = (w.testBit 56 || decide (rem < amt))
          ∧ ∀ i, 48 ≤ i → i ≠ 56 → n.testBit i = w.testBit i))

/-- R16, R18, R30: a held instruction performed, wherever the sequencer runs ahead: the oldest one, once what it is ordered
behind is done. It leaves the buffer, its destinations fill, and the positions a squash may return to hold its results too.
R163: LOAD_RETURN. An outstanding load whose older accesses allow it takes its data and fills its destinations. R162: of an stp
or ldp in two accesses the high word stays, and is performed next. R293: a probe is answered so, once its walk is over. -/
def Obligations.ResultsDelivered : Prop :=
  (∀ s q h r t rs, q < 2048 → (s.ctx q).sb = h :: r → (s.ctx q).mayPerform h = true → perform s q h.halves.1 = .ok (t, rs) →
      exec (.heldPerform q) s = .next (performedState t q h.ord rs h.halves.2)
      ∧ ((t.ctx q).sb = h :: r → (performedState t q h.ord [] h.halves.2).ctx q = { t.ctx q with sb := h.halves.2.toList ++ r }))
  ∧ (∀ s q n l t rs, q < 2048 → (s.ctx q).loads[n]? = some l →
      (l.probe.isSome = true ∨ ((s.ctx q).mayRead l.ord l.x l.n = true ∧ (s.ctx q).acquireWaits l = false)) →
      loadData s q l.halves.1 = .ok (t, rs) →
      exec (.loadReturn q n) s = .next (t.setCtx q (rs.foldl (fun (d : Ctx) r => d.deliver r.1 r.2 l.ord)
        { t.ctx q with loads := (t.ctx q).loads.take n ++ l.halves.2.toList ++ (t.ctx q).loads.drop (n + 1) })))

/-- R163, R173, R174, R176: the sleeping forms mark their destination empty and read once as they execute, translating anew at
each read, past any copy of the word that the core keeps. Where the condition holds, or waita's limit has passed, the value observed goes to the destination and the next
instruction follows; else the sequencer sleeps, its program counter standing, until a wake, a poll or the limit reads again.
The bar forms go on past a generation, with an acquire whose read gives the word; on the plain host path they stop with
HOST_ABORT, subcode 0x03. The arrival of a bar.aw is held (R163), and
the scalar side stands at it; performed, it starts the sleep; where a squash has kept the arrival (R176), it only sleeps. -/
def Obligations.Sleepers : Prop :=
  (∀ (x : WaitaF) s a b c t p, OnScalar s → Reads s x.a.val a → Reads s x.b.val b → Reads s x.c.val c → Ready s x.d.val →
    Translates s a 8 .r true t p →
    let q := t.cur
    let limit := if c = BitVec.allOnes 64 then none else some (t.time + c.toNat)
    let sleeps := fun (y : Xl) => some (Wait.waita x.d.val x.cond.val a y b limit)
    let u := t.withC { t.c.empty x.d.val with wait := sleeps p }
    ∀ u1 p1, accessPlace u q (u.ctx q).sc.pc a .r true = .ok (u1, p1) →
      let w := u1.setCtx q { u1.ctx q with wait := sleeps p1 }
      ∀ u' v, (w.ctx q).mayRead (u.ctx q).ord p1 8 = true → readHere (watchAnew w q p1) q (u.ctx q).ord p1 8 = .ok (u', v) →
      let holds := match x.cond.val with
        | 0 => word v = b
        | 1 => word v ≠ b
        | 2 => b.toInt ≤ (word v).toInt
        | _ => b.toNat ≤ (word v).toNat
      (holds ∨ (∃ l, limit = some l ∧ l ≤ u'.time) → exec (.waita x) s = .next (u'.setCtx q ((u'.ctx q).awake x.d.val (word v))))
      ∧ (¬holds → (∀ l, limit = some l → u'.time < l) → exec (.waita x) s = .next u'))
  ∧ (∀ (x : BarF) s a b t p, OnScalar s → Reads s x.a.val a → Reads s x.b.val b → Ready s x.d.val → Translates s a 8 .r false t p →
    let q := t.cur
    let gen : BitVec 16 := b.setWidth 16
    let sleeps := fun (y : Xl) => some (Wait.bar x.d.val a y gen x.sc.val false)
    let u := t.withC { t.c.empty x.d.val with wait := sleeps p }
    ∀ u1 p1, accessPlace u q (u.ctx q).sc.pc a .r false = .ok (u1, p1) →
      let w := u1.setCtx q { u1.ctx q with wait := sleeps p1 }
      (p1.host = true → coherent w (w.pnum q) = false → exec (.barWait x) s
        = .next (raise (u.setCtx q (u.ctx q).woken) q (classB cHOST_ABORT 0x03 a (u.ctx q).sc.pc)))
      ∧ ∀ u' v, (p1.host = false ∨ coherent w (w.pnum q) = true) →
      (w.ctx q).mayRead (u.ctx q).ord p1 8 = true → readHere (watchAnew w q p1) q (u.ctx q).ord p1 8 = .ok (u', v) →
      (BitVec.ofNat 16 (v / 2 ^ 32) = gen → exec (.barWait x) s = .next u')
      ∧ ∀ y v2, BitVec.ofNat 16 (v / 2 ^ 32) ≠ gen → (u'.ctx q).ownAhead (u.ctx q).ord p1 8 x.sc.val = false →
          acquireRead u' q (u.ctx q).ord p1 8 x.sc.val = .ok (y, v2) →
          (BitVec.ofNat 16 (v2 / 2 ^ 32) = gen → exec (.barWait x) s = .next y)
          ∧ (BitVec.ofNat 16 (v2 / 2 ^ 32) ≠ gen → exec (.barWait x) s = .next (y.setCtx q ((y.ctx q).awake x.d.val (word v2)))))
  ∧ (∀ (x : BarF) s a b t p, OnScalar s → Reads s x.a.val a → Reads s x.b.val b → Ready s x.d.val →
      Translates s a 8 .rw false t p →
      let op : HeldOp := .barAw a p (b.setWidth 32) x.sc.val x.d.val
      let held := heldState t op (0x1000001B + x.enc) [x.d.val] id
      (t.c.awDone = false → Ready t x.d.val →
        (Ahead t → t.c.wait = none → exec (.barAw x) s = .next held)
        ∧ ∀ y rs, InStep t → perform held t.cur (heldAs t op (0x1000001B + x.enc)) = .ok (y, rs) →
            let z := performedState y t.cur t.c.ord rs
            exec (.barAw x) s = .next (if z.c.wait.isSome then readAgain z z.cur barRead else z))
      ∧ (t.c.awDone = true → exec (.barAw x) s = .next (sleepOn (t.withC { t.c with awDone := false }) x.d.val
          (.bar x.d.val a p t.c.awGen x.sc.val true) barRead)))
  ∧ (∀ s q h va x n sc d t, h.op = .barArr va x n sc d ∨ h.op = .barAw va x n sc d → x.host = true → releaseAt s q sc = .ok t →
      slotCheck t x = .ok () → coherent t (t.pnum q) = false → perform s q h = .error (.trap (classB cHOST_ABORT 0x03 va h.ipc)))
  ∧ ∀ s q h va x amt sc d t w, arrivePerform s q x amt sc = .ok (t, w) → ∀ n : BitVec 32, n.toNat = amt →
      (h.op = .barArr va x n sc d → perform s q h = .ok (t, [(d, word w)]))
      ∧ (h.op = .barAw va x n sc d → perform s q h
          = .ok (t.setCtx q { t.ctx q with wait := some (.bar d va x (BitVec.ofNat 16 (w / 2 ^ 32)) sc true) }, []))

/-! ## Special registers and the vector configuration -/

/-- R181: rdspr writes a special register to its destination, register by register; a number not in the table is ILLEGAL. -/
def Obligations.SpecialReads : Prop :=
  ∀ (x : RdSpr) s, OnScalar s → Ready s x.d.val →
    let c := s.c
    let gives := fun (n : Nat) (v : Word) => x.spr.toNat = n → c.sprBusy n = false → exec (.rdspr x) s = .next (wrote s x.d.val v)
    let li := fun (i : Nat) => if (vget c.sc.loops i {}).count = 0 then 0 else (vget c.sc.loops i {}).index
    gives 0x000 (word c.sc.vl) ∧ gives 0x001 (c.sc.vstart.setWidth 64) ∧ gives 0x002 (c.sc.chain.setWidth 64)
    ∧ gives 0x003 (c.flags.setWidth 64) ∧ gives 0x004 (c.sc.rm.setWidth 64) ∧ gives 0x005 (c.lfsr.setWidth 64)
    ∧ gives 0x010 c.sc.tvec ∧ gives 0x011 (c.sc.tcause.setWidth 64) ∧ gives 0x012 c.sc.tval ∧ gives 0x013 c.sc.tepc
    ∧ gives 0x014 c.sc.tsave ∧ (∀ i < 6, gives (0x020 + i) (li i))
    ∧ gives 0x030 (word s.cur) ∧ gives 0x031 (word (s.cur / 4)) ∧ gives 0x032 (word (s.cur / 256))
    ∧ gives 0x033 (word (s.pnum s.cur % 32)) ∧ gives 0x034 (s.link.devid.setWidth 64) ∧ gives 0x040 (word s.time) ∧ gives 0x041 c.cycles
    ∧ gives 0x050 (c.space.setWidth 64) ∧ gives 0x051 (4096 * c.root.setWidth 64)
    ∧ gives 0x060 (c.sc.curRow.setWidth 64) ∧ gives 0x061 (c.sc.curCol.setWidth 64)
    ∧ (readSpr s s.cur x.spr.toNat = none → exec (.rdspr x) s = .next (trapped s cILLEGAL 0 (word (0x1F + x.enc))))
    ∧ ((readSpr s s.cur x.spr.toNat).isSome = true ↔ x.spr.toNat ∈ [0, 1, 2, 3, 4, 5, 0x10, 0x11, 0x12, 0x13, 0x14, 0x20, 0x21,
        0x22, 0x23, 0x24, 0x25, 0x30, 0x31, 0x32, 0x33, 0x34, 0x40, 0x41, 0x50, 0x51, 0x60, 0x61])

/-- R28, R181, R182, R207: wrspr writes the bits the register has; vl is bounded by the setvl configuration, a reserved tag
there traps with TAG; a write of vstart or chain arms both; a write of 6 or 7 to rm leaves it and traps with ILLEGAL (R102); a
write of the index of an empty loop entry is ignored (R152); a read-only register, and one not in the table, is ILLEGAL. -/
def Obligations.SpecialWrites : Prop :=
  ∀ (x : WrSpr) s v, OnScalar s → Reads s x.a.val v →
    let c := s.c
    let gives := fun (n : Nat) (y : Scal) => x.spr.toNat = n → c.sprHolds n = false →
      exec (.wrspr x) s = .next (s.withC { c with sc := y }.advance)
    (tagKnown c.sc.cfgTag.toNat = true →
      gives 0x000 { c.sc with vl := min v.toNat (vlmax c.sc.cfgTag.toNat c.sc.cfgGrp.val) })
    ∧ (tagKnown c.sc.cfgTag.toNat = false → x.spr = 0 → c.sprHolds 0 = false →
        exec (.wrspr x) s = .next (trapped s cTAG 0 (word (0x4000001F + x.enc))))
    ∧ gives 0x001 { c.sc with vstart := v.setWidth 16, armed := true } ∧ gives 0x002 { c.sc with chain := v.setWidth 6, armed := true }
    ∧ (x.spr = 3 → c.sprHolds 3 = false → ∃ f, exec (.wrspr x) s = .next (s.withC { c with flags := f }.advance)
        ∧ ∀ i < 15, f.getLsbD i = (v.getLsbD i && i != 7))
    ∧ (v.toNat % 8 < 6 → gives 0x004 { c.sc with rm := v.setWidth 3 })
    ∧ (6 ≤ v.toNat % 8 → x.spr = 4 → exec (.wrspr x) s = .next (trapped s cILLEGAL 0 (word (0x4000001F + x.enc))))
    ∧ (x.spr = 5 → c.sprHolds 5 = false →
        exec (.wrspr x) s = .next (s.withC { c with lfsr := if v.setWidth 32 = 0 then 1 else v.setWidth 32 }.advance))
    ∧ (∃ y : Word, gives 0x010 { c.sc with tvec := y } ∧ ∀ i < 64, y.getLsbD i = (v.getLsbD i && i != 1))
    ∧ gives 0x011 { c.sc with tcause := v.setWidth 16 } ∧ gives 0x012 { c.sc with tval := v }
    ∧ gives 0x013 { c.sc with tepc := v } ∧ gives 0x014 { c.sc with tsave := v }
    ∧ (∀ i < 6, (vget c.sc.loops i {}).count ≠ 0 →
        gives (0x020 + i) { c.sc with loops := vset c.sc.loops i { vget c.sc.loops i {} with index := v } })
    ∧ (∀ i < 6, (vget c.sc.loops i {}).count = 0 → gives (0x020 + i) c.sc)
    ∧ gives 0x060 { c.sc with curRow := v.setWidth 32 } ∧ gives 0x061 { c.sc with curCol := v.setWidth 32 }
    ∧ (x.spr.toNat ∉ [0, 1, 2, 3, 4, 5, 0x10, 0x11, 0x12, 0x13, 0x14, 0x20, 0x21, 0x22, 0x23, 0x24, 0x25, 0x60, 0x61] →
        exec (.wrspr x) s = .next (trapped s cILLEGAL 0 (word (0x4000001F + x.enc))))

/-- R206, R207: vtag sets tag, group, scaled marking and companion of each register of its group and of no other, and leaves
their contents and full/empty bits; setvl bounds vl, returns it, and keeps its configuration. -/
def Obligations.VectorConfiguration : Prop :=
  (∀ (x : VTag) s, OnScalar s → x.d.val + 2 ^ x.grp.val ≤ 32 → ∃ v,
    exec (.vtag x) s = .next (s.withC { s.c with sc := { s.c.sc with vcfg := v } }.advance)
    ∧ ∀ r < 32, vget v r {} = if x.d.val ≤ r ∧ r < x.d.val + 2 ^ x.grp.val
        then { tag := x.tag, grp := x.grp, scaled := x.scaled, comp := x.comp } else vget s.c.sc.vcfg r {})
  ∧ ∀ (x : SetVl) s a, OnScalar s → Reads s x.a.val a → s.c.vqWritesVl = false → Ready s x.d.val →
      let n := min a.toNat (vlmax x.tag.toNat x.grp.val)
      ∃ c : Ctx, exec (.setvl x) s = .next (s.withC c.advance) ∧ c.getS x.d.val = (if x.d = 0 then 0 else word n)
        ∧ c.sc.vl = n ∧ c.sc.cfgTag = x.tag ∧ c.sc.cfgGrp = x.grp ∧ c.sc.vcfg = s.c.sc.vcfg
        ∧ (∀ r < 32, r ≠ x.d.val → c.getS r = s.c.getS r) ∧ c.v = s.c.v ∧ c.feV = s.c.feV

/-! ## The vector queue -/

/-- R14, R15, R28, R30: where the sequencer runs ahead, a vector-queue instruction that passes its checks enters the VIQ with
what it captured, its destinations marked empty, and the scalar side goes on. Said of every instruction of the vector queue:
vadd, vsub, vmul, vmin, vmax, vand, vor, vxor, vshl, vshr, vsar, vabd, vavg, vadds, vsubs and vmulh with a vector, a scalar
or an immediate; vfma, vfms, vfnma, vfnms, vmacw, vcmp, vsel, vcvt, vshrr, vdiv, vsqrt, vrcp, vrsqrt, vexp2, vlog2, vdot, vred,
vsign, vmov, vsplat, vsplati, vget, vput, vslide; vld, vst, vlds, vsts, vldx, vldx.c, vldx.dup, vstx, vamo, vcomp, vexpand,
vperm, vzip, vunzip, vtrn; kand, kor, kxor, knot, kandn, kpopc, kfirst, kvl, kfrom, vlk, vmcast, vrecv, viota, vidx, vflg; wld,
wst, wmul, wmac, wmult, wchol, wlu, wsolve, wadd, wsub, wscal, wtrn, wid, wcpy, wdim, wget, wput; tacc, tmma, tmms, tread,
twrite and tepi. -/
def Obligations.VectorAccepted : Prop :=
  ∀ i f s e, formOf i = some f → s.lockstep = false → accept s s.cur f s.pc (s.c.capture f) = .ok e →
    exec i s = .next (acceptedState s e)
    ∧ e.form = f ∧ e.ipc = s.pc ∧ e.vl = s.c.sc.vl ∧ e.rm = s.c.sc.rm ∧ e.cfg = s.c.sc.vcfg ∧ e.tsave = s.c.sc.tsave
    ∧ e.start = (if s.c.sc.armed then s.c.sc.vstart.toNat else 0) ∧ e.ord = s.c.ord ∧ e.resumed = false

/-- R96, R184, R234, R237: the acceptance checks in their order. A run of registers past v31 is ILLEGAL; a shape that is none
is ILLEGAL with SHAPE; a register that fails R184 or carries a tag the form does not take traps with TAG; then the tile and
film checks; an overlap that R22 or R185 forbids is ILLEGAL. The instruction then has no other effect. -/
def Obligations.VectorChecks : Prop :=
  ∀ i f s, formOf i = some f → OnScalar s →
    let p := s.c.capture f
    let n := p.rows.val
    let traps := fun cause sub => exec i s = .next (trapped s cause sub (f.word.setWidth 64))
    (f.runsPast n = true → traps cILLEGAL 0)
    ∧ (f.runsPast n = false → s.c.vqWritesVl = false → s.c.viq.length < 32 →
        (f.badShape n p.cols.val = true → traps cILLEGAL 1)
        ∧ (f.badShape n p.cols.val = false → f.regsOk p.cfg n p.vl p.start = false → traps cTAG 0)
        ∧ (f.badShape n p.cols.val = false → f.regsOk p.cfg n p.vl p.start = true →
            (∀ cause sub, tileForm s s.cur f p.cfg p.vl = some (cause, sub) → traps cause sub)
            ∧ (tileForm s s.cur f p.cfg p.vl = none → f.overlap p.cfg n = true → traps cILLEGAL 0)))
    ∧ (f.runsPast n = false → (s.c.vqWritesVl = true ∨ 32 ≤ s.c.viq.length) → exec i s = .next s)

/-- R20, R21, R53, R186, R191 to R204, R224, R228: an Element-class instruction on registers alone, carried through in step:
its elements from its start element to below vl are performed in order, and it retires. A vcvt into a scaled destination is
performed block by block (R198). It starts in its turn: no other sequencer of its core and partition has a ready head that is
taken first (R387). -/
def Obligations.VectorElementwise : Prop :=
  ∀ i f s e, formOf i = some f → s.lockstep = true → accept s s.cur f s.pc (s.c.capture f) = .ok e →
    f.op.restart = .element → f.op.isMem = false →
    startCheck (acceptedState s e) s.cur e = .ok () → headOutranked (acceptedState s e) s.cur = false →
    let t := startedState (acceptedState s e) s.cur e
    let blocks := match f.op with
      | .cvt _ => (e.reg f.d).scaled
      | _ => false
    let ends := fun (k : Nat) (c : Ctx) =>
      let u := t.setCtx s.cur { c with
        worked := c.worked || decide (e.start < e.stop), runG := if e.start < e.stop then ((e.stop - 1) / k + 1) * k else e.start }
      Host.Outcome.next (retire u u s.cur (u.ctx s.cur))
    (blocks = false → exec i s = ends 8 ((elementsOf e).foldl (fun c n => c.element e n) (t.ctx s.cur)))
    ∧ (blocks = true → e.start < e.vl →
      exec i s = ends 32 (((List.range ((e.vl + 31) / 32 - e.start / 32)).map (e.start / 32 + ·)).foldl
        (fun c n => c.encodeBlock e n) (t.ctx s.cur)))

/-- R22, R186, R201, R202, R205, R208, R220 to R224, R228, R229: a Whole-class instruction on registers alone, carried
through in step, has its effect at completion. R23, R226, R227, R234, R239 to R247, R253, R261, R263: the lane-matrix forms
on registers, the shape, the tile forms and the multicast forms, carried through in step. A Detached form leaves the queue
for its tile; tread and tepi read it; a vmcast reserves its strip at every member and lands it; a vrecv binds the head strip.
-/
def Obligations.VectorCompletes : Prop :=
  (∀ i f s e, formOf i = some f → s.lockstep = true → accept s s.cur f s.pc (s.c.capture f) = .ok e →
      (match f.op with
        | .dot | .red .. | .vget | .vput | .slide .. | .comp | .expand | .perm | .zip | .unzip | .trn | .kpopc | .kfirst
        | .iota | .flgRd | .flgClr => True
        | _ => False) →
      startCheck (acceptedState s e) s.cur e = .ok () → headOutranked (acceptedState s e) s.cur = false →
      let t := startedState (acceptedState s e) s.cur e
      exec i s = .next (retire t t s.cur ((t.ctx s.cur).whole e)))
  ∧ (∀ i f s e, formOf i = some f → s.lockstep = true → accept s s.cur f s.pc (s.c.capture f) = .ok e →
      startCheck (acceptedState s e) s.cur e = .ok () → headOutranked (acceptedState s e) s.cur = false →
      let a := acceptedState s e
      let q := s.cur
      let t := startedState a q e
      ((match f.op with
        | .wmul _ | .wchol | .wlu | .wsolve _ | .wadd _ | .wscal | .wtrn | .wid | .wcpy | .wget | .wput => True
        | _ => False) → exec i s = .next (retire t t q ((t.ctx q).laneMatrix e)))
      ∧ (f.op = .wdim → exec i s = .next (retire t t q (t.ctx q)) ∧ (a.ctx q).sc.rows = e.rows ∧ (a.ctx q).sc.cols = e.cols)
      ∧ ((f.op = .tread ∨ f.op = .tepi) →
          exec i s = .next (retire t { t with tick := t.tick + 64 } q ((t.ctx q).readTile e (vget (t.core (q / 4)).tiles f.d {}) t.tick)))
      ∧ ((f.op = .tacc ∨ f.op = .tmma ∨ f.op = .tmms ∨ f.op = .twrite) →
          let o : TileOp := { e := e, seq := q, idx := (a.ctx q).tileData e, started := false, next := 0 }
          let b := setTile (a.setCtx q (a.ctx q).dequeue) (q / 4) f.d ((vget (a.core (q / 4)).tiles f.d {}).take o)
          exec i s = .next (chargeStart (startTile b (q / 4) f.d) q e))
      ∧ (f.op = .recv → exec i s = .next (chargeStart ((bindStrip a q e).setCtx q ((bindStrip a q e).ctx q).dequeue) q e))
      ∧ (f.op = .mcast →
          let strip : Strip := { id := 2048 * (a.ctx q).mcSent + q, sender := q, tag := (e.reg f.a).tag, grp := (e.reg f.a).grp,
                                 vl := e.vl, data := (a.ctx q).stripData e, landed := false }
          let r := (gangOf q e).foldl (reserveAt (a.pnum q) strip) a
          let b := startedState (r.setCtx q { r.ctx q with mcSent := (a.ctx q).mcSent + 1 }) q e
          exec i s = .next (retire b (landStrip b q) q (b.ctx q))))

/-- R212, R215 to R219, R238, R239: the vector memory forms, carried through in step where every access is performed: the
element groups of vld, vst and their kin and of vamo in order, the whole of vldx.c, vldx.dup and wld at completion, and the
writes of wst at its start. R210, R212, R215, R216: the address of each element of a vector memory form, and the access of
one element of a load: an active one reads its bytes there and writes its element, an inactive one makes no access; R99: under
.lu what was read is marked to leave first. -/
def Obligations.VectorAccesses : Prop :=
  (∀ i f s e u, formOf i = some f → s.lockstep = true → accept s s.cur f s.pc (s.c.capture f) = .ok e →
      startCheck (acceptedState s e) s.cur e = .ok () → headOutranked (acceptedState s e) s.cur = false →
      let a := acceptedState s e
      let q := s.cur
      let t := startedState a q e
      let c := t.ctx q
      (f.op.restart = .element → f.op.isMem = true → commitAll q (c.runEnd - c.runG) t = .ok u → (u.ctx q).run = [e] →
        (u.ctx q).runEnd ≤ (u.ctx q).runG → exec i s = .next (retire u u q (u.ctx q)))
      ∧ (∀ b d, f.op = .ldxc b d → ∀ y, loadStash t q e c = .ok (u, y) → exec i s = .next (retire t u q y))
      ∧ (∀ b d, f.op = .ldxdup b d → ∀ y, loadDup t q e c = .ok (u, y) → exec i s = .next (retire t u q y))
      ∧ (f.op = .wld → ∀ y, loadLanes t q e c = .ok (u, y) → exec i s = .next (retire t u q y))
      ∧ (f.op = .wst → storeLanes a q e = .ok u →
          let v := startedState u q e
          exec i s = .next (retire v v q (v.ctx q))))
  ∧ ((∀ (c : Ctx) e i,
      let w := ewOf (e.tag e.form.d)
      ((∃ b o, e.form.op = .ld .unit b o ∨ e.form.op = .st .unit b o) → c.ea e i = e.x1 + word (i * w / 8))
      ∧ ((∃ b o, e.form.op = .ld .strided b o ∨ e.form.op = .st .strided b o) → c.ea e i = e.x1 + word i * e.x2)
      ∧ ((∃ b o, e.form.op = .ld .indexed b o ∨ e.form.op = .st .indexed b o) → 8 ≤ w →
          c.ea e i = e.x1 + BitVec.ofInt 64 (intOf (e.tag e.form.c) (c.elem e e.form.c i) * (w / 8 : Nat))))
    ∧ ∀ s q e (c : Ctx) i, (∃ m b o, e.form.op = .ld m b o) →
        (c.active e i = false → loadElems s q e c [i] = .ok (s, c))
        ∧ (∀ t n, c.active e i = true → e.form.touch = false → loadAt s q e.ipc (c.ea e i) e.esz = .ok (t, n) →
            let w := ewOf (e.tag e.form.d)
            loadElems s q e c [i] = .ok (lastUse t q e.form.pol (c.ea e i) e.esz,
              c.putElem e e.form.d i (if w < 8 then n / 2 ^ (i * w % 8) % 2 ^ w else n)))
        ∧ (∀ t n, c.active e i = true → e.form.touch = true → loadAt s q e.ipc (c.ea e i) e.esz = .ok (t, n) →
            loadElems s q e c [i] = .ok (lastUse t q e.form.pol (c.ea e i) e.esz, c))
        ∧ ∀ t, e.form.pol ≠ 2 → lastUse t q e.form.pol (c.ea e i) e.esz = t)

/-- R191: the integer operations, on the elements' values: add, subtract and multiply modulo 2^ew; minimum, maximum, average,
absolute difference, saturating and high-half forms on signed values of the I tags and unsigned values of the N tags; shifts
by the low log2(ew) bits; on I16X2 each half as I16. -/
def Obligations.IntegerOperations : Prop :=
  (∀ t a b rm l, isINT t = true → a < 2 ^ ewOf t → b < 2 ^ ewOf t →
    let w := ewOf t
    let x := intOf t a
    let y := intOf t b
    let sh := b % w
    let r := fun (o : BinOp) => (binOp o t a b rm l).1
    let val := fun (o : BinOp) => intOf t (r o)
    let clamp := fun (z : Int) => max (intRange t).1 (min (intRange t).2 z)
    let sets := fun (o : BinOp) (z : Int) => (binOp o t a b rm l).2 = if clamp z = z then 0 else fSAT
    r .add = (a + b) % 2 ^ w ∧ r .sub = (2 ^ w + a - b) % 2 ^ w ∧ r .mul = a * b % 2 ^ w
    ∧ val .min = min x y ∧ val .max = max x y ∧ r .and = a &&& b ∧ r .or = a ||| b ∧ r .xor = a ^^^ b
    ∧ r .shl = a * 2 ^ sh % 2 ^ w ∧ r .shr = a / 2 ^ sh ∧ signedOf w (r .sar) = signedOf w a / 2 ^ sh
    ∧ val .abd = clamp |x - y| ∧ sets .abd |x - y| ∧ val .avg = (x + y + 1) / 2
    ∧ val .adds = clamp (x + y) ∧ sets .adds (x + y) ∧ val .subs = clamp (x - y) ∧ sets .subs (x - y)
    ∧ val .mulh = x * y / 2 ^ w
    ∧ ∀ o, r o < 2 ^ w)
  ∧ ∀ o a b rm l, a < 2 ^ 32 → b < 2 ^ 32 →
      let lo := binOp o tI16 (a % 2 ^ 16) (b % 2 ^ 16) rm l
      let hi := binOp o tI16 (a / 2 ^ 16) (b / 2 ^ 16) rm l
      binOp o tI16X2 a b rm l = (lo.1 + 2 ^ 16 * hi.1, lo.2 ||| hi.2)

/-- R106: an element written is read back cut to its width, every other element of its register and every other register keep
their bits, and a tag's width is what the table gives. R104, R106, R124, R188: the frame of an element of an Element-class
form. It changes no element of its destination but its own, none at all where the mask makes it inactive and the form is
governed by its mask, and no scalar, other mask, lane-matrix register, full/empty bit or queue; flags are only added. -/
def Obligations.Elements : Prop :=
  ((∀ (v : Vector (BitVec 4096) 32) r i j ew x, ew ∈ [2, 4, 8, 16, 32, 64] → r + i / (4096 / ew) < 32 →
      let u := elemPut v r i ew x
      elemGet u r i ew = x % 2 ^ ew ∧ (j ≠ i → r + j / (4096 / ew) < 32 → elemGet u r j ew = elemGet v r j ew)
      ∧ ∀ n < 32, n ≠ r + i / (4096 / ew) → vget u n 0 = vget v n 0)
    ∧ (∀ (v : Vector (BitVec 4096) 32) r i ew, ew ∈ [2, 4, 8, 16, 32, 64] → ∀ k < ew,
        (elemGet v r i ew).testBit k = (vget v (r + i / (4096 / ew)) 0).getLsbD (ew * (i % (4096 / ew)) + k))
    ∧ (List.range 0x1A).map ewOf
        = [64, 8, 16, 32, 64, 8, 16, 32, 64, 32, 2, 64, 64, 64, 64, 64, 64, 32, 16, 16, 8, 8, 8, 8, 4, 8])
  ∧ (∀ (c : Ctx) e i, e.form.op.restart = .element → e.form.op.isMem = false → e.form.d < 32 →
      let d := c.element e i
      (∀ r n, r < 32 → n ≠ e.form.d + i / (4096 / ewOf (e.tag e.form.d)) → n < 32 → vget d.v n 0 = vget c.v n 0)
      ∧ (∀ j, j ≠ i → e.form.d + j / (4096 / ewOf (e.tag e.form.d)) < 32 →
          d.elem e e.form.d j = c.elem e e.form.d j)
      ∧ (c.active e i = false → (match e.form.op with | .sel | .klog _ | .kfrom | .vlk => False | _ => True) → d = c)
      ∧ (∀ n < 8, n ≠ e.form.d → vget d.k n 0 = vget c.k n 0) ∧ d.getK 0 = BitVec.allOnes 8192
      ∧ d.sc = c.sc ∧ d.w = c.w ∧ d.lfsr = c.lfsr ∧ d.feS = c.feS ∧ d.feV = c.feV ∧ d.feK = c.feK ∧ d.feW = c.feW
      ∧ d.viq = c.viq ∧ d.run = c.run ∧ d.sb = c.sb ∧ d.loads = c.loads ∧ d.flags ||| c.flags = d.flags)

/-- R224: kpopc counts the set bits below vl and kfirst finds the lowest, or gives all ones; kvl writes every bit of its
mask, those below the scalar as ones; k0 discards a write and reads as all ones. R205, R220, R221, R223: the permuting forms,
element by element: which source element each active destination element below vl takes, and the vl a vcomp leaves. vzip, vunzip
and vtrn move raw bits (R223). A vperm writes no T2 element as 0b10 (R109), and one of six bits with the bits above them 0 (R106):
that these rules reach the vperm and not the raw moves is the model's reading (log entry 32). -/
def Obligations.MaskAndPermuteForms : Prop :=
  (∀ (c : Ctx) e,
      (e.form.op = .kpopc → e.form.d ≠ 0 → e.form.d < 32 →
        (c.whole e).getS e.form.d = word ((List.range e.vl).filter fun i => (c.getK e.form.a).getLsbD i).length)
      ∧ (e.form.op = .kfirst → e.form.d ≠ 0 → e.form.d < 32 →
        (∀ n < e.vl, (c.getK e.form.a).getLsbD n = true → (∀ i < n, (c.getK e.form.a).getLsbD i = false) →
          (c.whole e).getS e.form.d = word n)
        ∧ ((∀ i < e.vl, (c.getK e.form.a).getLsbD i = false) → (c.whole e).getS e.form.d = BitVec.allOnes 64))
      ∧ (e.form.d ≠ 0 → e.form.d < 8 → ∀ i < 8192, ((c.writeKvl e).getK e.form.d).getLsbD i = decide (i < e.x1.toNat))
      ∧ c.getK 0 = BitVec.allOnes 8192 ∧ ∀ k, c.setK 0 k = c)
  ∧ (∀ (c : Ctx) e, e.form.d < 32 →
      let f := e.form
      let on := fun i => c.active e i = true
      let fits := ∀ i < e.vl, f.d + i / (4096 / ewOf (e.tag f.d)) < 32
      let kept := fun (x : Nat) => if e.tag f.d = tT2 ∧ x = 2 then 0 else if e.tag f.d = tE3M2 ∨ e.tag f.d = tE2M3 then x % 64 else x
      fits → ewOf (e.tag f.a) = ewOf (e.tag f.d) → e.tag f.b = e.tag f.d ∨ f.op = .perm →
      (f.op = .zip → ∀ i < e.vl, on i →
          (c.whole e).elem e f.d i = if i % 2 = 0 then c.elem e f.a (i / 2) else c.elem e f.b (i / 2))
      ∧ (f.op = .unzip → ∀ i < e.vl, on i →
          (c.whole e).elem e f.d i = if 2 * i < e.vl then c.elem e f.a (2 * i) else c.elem e f.b (2 * i - e.vl))
      ∧ (f.op = .trn → ∀ i < e.vl, on i →
          (c.whole e).elem e f.d i = if i % 2 = 0 then c.elem e f.a i else c.elem e f.b (i - 1))
      ∧ (f.op = .perm → ∀ i < e.vl, on i →
          let x := intOf (e.tag f.b) (c.elem e f.b i)
          (c.whole e).elem e f.d i = kept (if 0 ≤ x ∧ x < e.vl then c.elem e f.a x.toNat else 0))
      ∧ (f.op = .comp → (c.whole e).sc.vl = ((List.range e.vl).filter fun i => c.active e i).length)
      ∧ ∀ i < e.vl, c.active e i = false → f.op = .zip ∨ f.op = .unzip ∨ f.op = .trn ∨ f.op = .perm →
          (c.whole e).elem e f.d i = c.elem e f.d i)

/-- R30, R31, R121, R125, R186: retiring one instruction. Its destinations fill, its scalar result reaches its register, RSR
rounding steps lfsr once an element; and where an enabled flag was raised, the ARITH trap is taken with tval the address of the oldest
instruction that raised one, to the keeper once what the context has written can be performed at pkg (R307), and what the scalar side
has done past the chain is rolled back: it stands just behind it (R125, R353). -/
def Obligations.Retirement : Prop :=
  ∀ s0 s q (c : Ctx) e, c.run = [e] →
    (c.runArith = none → ∃ d, retire s0 s q c = s.setCtx q d ∧ d.run = [] ∧ d.runArith = none
      ∧ (e.form.emptiesV = true → e.form.d + 2 ^ e.grp e.form.d ≤ 32 → ∀ n, e.form.d ≤ n → n < e.form.d + 2 ^ e.grp e.form.d → d.feV.getLsbD n = true)
      ∧ (∀ n < 32, e.roles.sd = some n → d.feS.getLsbD n = true ∨ n = 0)
      ∧ d.lfsr = (if e.rsr then lfsrSteps c.lfsr (if e.form.op = .tepi then 64 else e.vl) else c.lfsr)
      ∧ d.v = c.v ∧ d.w = c.w ∧ d.sb.length = c.sb.length)
    ∧ (∀ n pc, c.runArith = some (n, pc) → ∃ d, d.run = [] ∧ d.runArith = none ∧
        (let t := { classA cARITH 0 pc pc with late := true }
         retire s0 s q c = takeGated s0 (s.setCtx q d) q t fun u => takeTrapAt u q t (some (e.ord + 1, d.behind e [e])))
        ∧ (e.resumed = false → e.snap.armed = false → e.form.op ≠ .comp → e.roles.sd = none → d.behind e [e] = e.snap.next))

/-! ## Tiles, films, channels, tasks -/

/-- R252, R257, R262, R264, R349: the tile and film forms of the scalar side. They check ownership, the claim or the open film,
for fopen the configuration, and last that the partition has TE0; each but twait is held; twait goes on once the tile is full
and sleeps until then. What each does when it is performed; a trel gives the tile's gathered flags to its claimant first
(R254), and waits for older reads of the tile in the vector queue, which the model's order of effects asks for (R31). -/
def Obligations.TileAndFilmForms : Prop :=
  (∀ (x : TOnly) s, OnScalar s →
    let traps := fun (i : Instr) (sub w : Nat) => exec i s = .next (trapped s cILLEGAL sub (word (w + x.enc)))
    let noEngine := fun (i : Instr) (w : Nat) => exec i s = .next (trapped s cPIPE_UNOWNED 0 (word (w + x.enc)))
    let te0 := (ownedPipes s s.cur).getLsbD 7
    (tileOwned s s.cur x.t.val = false → traps (.tclaim x) 2 0x48)
    ∧ (tileOwned s s.cur x.t.val = true → (te0 = false → noEngine (.tclaim x) 0x48)
        ∧ (te0 = true → Holds (.tclaim x) s s (.tclaim x.t.val) (0x48 + x.enc) []))
    ∧ (∀ sub, tileCheck s s.cur x.t.val = some sub → traps (.trel x) sub 0x800048 ∧ traps (.twait x) sub 0x4D)
    ∧ (tileCheck s s.cur x.t.val = none → te0 = false → noEngine (.trel x) 0x800048 ∧ noEngine (.twait x) 0x4D)
    ∧ (tileCheck s s.cur x.t.val = none → te0 = true →
        Holds (.trel x) s s (.trel x.t.val) (0x800048 + x.enc) []
        ∧ (s.c.claimHeld x.t.val = false → tileBusy s s.cur x.t.val s.c.ord = false →
            exec (.twait x) s = .next (s.withC { s.c with wait := none }.advance))
        ∧ (s.c.claimHeld x.t.val = true ∨ tileBusy s s.cur x.t.val s.c.ord = true →
            exec (.twait x) s = .next (s.withC { s.c with wait := some (.tile x.t.val) }))))
  ∧ (∀ (x : FOpen) s v, OnScalar s → Reads s x.x.val v →
    let te0 := (ownedPipes s s.cur).getLsbD 7
    (filmOwned s s.cur x.film.val = false → exec (.fopen x) s = .next (trapped s cILLEGAL 2 (word (0x4F + x.enc))))
    ∧ (filmOwned s s.cur x.film.val = true → badFilm v = true → exec (.fopen x) s = .next (trapped s cILLEGAL 5 v))
    ∧ (filmOwned s s.cur x.film.val = true → badFilm v = false → te0 = false →
        exec (.fopen x) s = .next (trapped s cPIPE_UNOWNED 0 (word (0x4F + x.enc))))
    ∧ (filmOwned s s.cur x.film.val = true → badFilm v = false → te0 = true →
        Holds (.fopen x) s s (.fopen x.film.val v) (0x4F + x.enc) []))
  ∧ (∀ (x : FOnly) s, OnScalar s →
    let te0 := (ownedPipes s s.cur).getLsbD 7
    let both := fun (cause sub : Nat) => exec (.fclose x) s = .next (trapped s cause sub (word (0x80004F + x.enc)))
      ∧ exec (.fdrop x) s = .next (trapped s cause sub (word (0x100004F + x.enc)))
    (filmView s s.cur x.film.val = none → both cILLEGAL 4)
    ∧ ((filmView s s.cur x.film.val).isSome = true → (te0 = false → both cPIPE_UNOWNED 0)
      ∧ (te0 = true → Holds (.fclose x) s s (.fclose x.film.val) (0x80004F + x.enc) []
        ∧ Holds (.fdrop x) s s (.fdrop x.film.val) (0x100004F + x.enc) [])))
  ∧ (∀ (x : FStat) s, OnScalar s →
    let te0 := (ownedPipes s s.cur).getLsbD 7
    (filmView s s.cur x.film.val = none → exec (.fstat x) s = .next (trapped s cILLEGAL 4 (word (0x180004F + x.enc))))
    ∧ ((filmView s s.cur x.film.val).isSome = true →
        (te0 = false → exec (.fstat x) s = .next (trapped s cPIPE_UNOWNED 0 (word (0x180004F + x.enc))))
        ∧ (te0 = true → Ready s x.x.val → Holds (.fstat x) s s (.fstat x.film.val x.x.val) (0x180004F + x.enc) [x.x.val])))
  ∧ ∀ s q h n,
    let tile := vget (s.core (q / 4)).tiles n {}
    let film := vget (s.core (q / 4)).films n {}
    (h.op = .tclaim n → tile.claim = some q → perform s q h = .ok (s, []))
    ∧ (h.op = .tclaim n → tile.claim = none → perform s q h
        = .ok (setTile s (q / 4) n { acc := 0, tag := 0x11, claim := some q, gathered := 0, ops := [] }, []))
    ∧ (∀ o, h.op = .tclaim n → tile.claim = some o → o ≠ q → perform s q h = .error (.wait s))
    ∧ (h.op = .trel n → tileBusy s q n h.ord = false → tileAhead s q n h.ord = false → perform s q h
        = .ok (setTile (giveFlags s (q / 4) n) (q / 4) n { acc := 0, tag := 0x11, claim := none, gathered := 0, ops := [] }, []))
    ∧ (h.op = .trel n → tileBusy s q n h.ord = true ∨ tileAhead s q n h.ord = true → perform s q h = .error (.wait s))
    ∧ (tile.claim = none ∨ tile.gathered = 0 → giveFlags s (q / 4) n = s)
    ∧ (∀ o, tile.claim = some o →
        ((giveFlags s (q / 4) n).ctx o).flags = (s.ctx o).flags ||| gatheredFlags tile.gathered)
    ∧ (∀ w, h.op = .fopen n w → film.holder = none → perform s q h = .ok (setFilm s (q / 4) n
        { holder := some q, rowb := Fin.ofNat 4 (w.toNat % 4), sb := Fin.ofNat 4 (w.toNat / 4 % 4) }, []))
    ∧ (∀ w o, h.op = .fopen n w → film.holder = some o → o ≠ q → perform s q h = .error (.wait s))
    ∧ (h.op = .fclose n → filmReaders s q n = false → filmCommands s q n = false →
        perform s q h = .ok (setFilm s (q / 4) n {}, []))
    ∧ (h.op = .fdrop n → filmReaders s q n = false → perform s q h = .ok (setFilm s (q / 4) n film.pop, []))
    ∧ ∀ d, h.op = .fstat n d → perform s q h = .ok (s, [(d, fstatWord film q)])

/-- R265, R266, R270, R272 to R274: the copy and channel forms. A channel of another partition traps with CHAN_UNOWNED before
anything else; a misaligned source, destination, row length or stride with MISALIGNED; last, one that names a film, and every
cpy.m for its follow-on, needs TE0 (R96, R349); a copy that passes its checks is held, a cpy.m with the follow-on accepted from the
word after it, a gath with its element addresses read. What each does when it is performed. -/
def Obligations.CopyAndChannelForms : Prop :=
  (∀ (x : Copy) s a b c, OnScalar s → Reads s x.a.val a → Reads s x.b.val b → Reads s x.c.val c →
    let ch := 8 * (s.cur / 4) + x.ch.val
    (chanOwned s s.cur x.ch.val = false → exec (.cpy x) s = .next (trapped s cILLEGAL 7 (word (0x50 + x.enc))))
    ∧ (chanOwned s s.cur x.ch.val = true → ∀ v,
        [a, b, ((c >>> 16).setWidth 16).setWidth 64, ((c >>> 32).setWidth 32).signExtend 64].find? (fun v => v.toNat % 32 != 0) = some v →
        exec (.cpy x) s = .next (trapped s cMISALIGNED 0 v))
    ∧ (copyChecks s x (0x50 + x.enc) a b c = .ok () →
        (4 ≤ x.port.toNat ∨ (ownedPipes s s.cur).getLsbD 7 = true →
          Holds (.cpy x) s s (.copy ch x.port.toNat a b c none) (0x50 + x.enc) [])
        ∧ (x.port.toNat < 4 → (ownedPipes s s.cur).getLsbD 7 = false →
          exec (.cpy x) s = .next (trapped s cPIPE_UNOWNED 0 (word (0x50 + x.enc)))))
    ∧ ∀ t w2 u f, liftB (s.pc + 4) s.pc (fetchWord s s.cur (s.pc + 4)) = .ok (t, w2) →
        copyChecks t x (0x4000050 + x.enc) a b c = .ok () → t.c.sb.length < 16 → followOn t w2 = .ok (u, f) →
        ((ownedPipes u u.cur).getLsbD 7 = false → exec (.cpyM x) s = .next (raise s s.cur
          (classA cPIPE_UNOWNED 0 (word (if x.port.toNat < 4 then 0x4000050 + x.enc else w2)) u.pc)))
        ∧ ((ownedPipes u u.cur).getLsbD 7 = true →
          Holds (.cpyM x) s u (.copy (8 * (u.cur / 4) + x.ch.val) x.port.toNat a b c (some f)) (0x4000050 + x.enc) [] Ctx.advanceTwo))
  ∧ (∀ (x : GathF) s a c is, OnScalar s → Reads s x.a.val a → Reads s x.c.val c →
    indexOperand s x.b.val x.e (0x51 + x.enc) = .ok is → chanOwned s s.cur x.ch.val = true →
    let n := 2 ^ (c.toNat / 2 ^ 56 % 4)
    let k := x.dup.val
    (a.toNat % n ≠ 0 → exec (.gath x) s = .next (trapped s cMISALIGNED 0 a))
    ∧ (a.toNat % n = 0 → c.toNat % n = 0 → c.toNat < 2 ^ 58 → stashSettled s = .ok () →
        inSomeWindow s s.cur (c.toNat % 2 ^ 56) (n * is.length) = true → s.c.sb.length < 16 →
        (k ≠ 0 → s.c.feK.getLsbD k = true ∧ s.c.vqWritesK k = false) →
        Holds (.gath x) s (if k = 0 then s else s.withC { s.c with feK := setBit s.c.feK k false })
          (.gath (8 * (s.cur / 4) + x.ch.val) a (is.map fun i => (a + BitVec.ofInt 64 (i * n)).toNat) c k) (0x51 + x.enc) []))
  ∧ (∀ (x : ChanA) s, OnScalar s → chanOwned s s.cur x.ch.val = true → Ready s x.a.val →
    let ch := 8 * (s.cur / 4) + x.ch.val
    Holds (.chanWm x) s s (.chanWm ch x.a.val) (0x52 + x.enc) [x.a.val]
    ∧ Holds (.chanStat x) s s (.chanStat ch x.a.val) (0x30000052 + x.enc) [x.a.val])
  ∧ (∀ (x : Chan0) s, OnScalar s → chanOwned s s.cur x.ch.val = true →
    let ch := 8 * (s.cur / 4) + x.ch.val
    Holds (.chanCancel x) s s (.chanCancel ch) (0x20000052 + x.enc) []
    ∧ (s.c.retry = false → Holds (.chanWait x) s s (.chanWait ch none) (0x10000052 + x.enc) [])
    ∧ (s.c.retry = true → Holds (.chanWait x) s (continueChan s ch) (.chanWait ch none) (0x10000052 + x.enc) []))
  ∧ ∀ s q h ch,
    (∀ port a b c f t u, h.op = .copy ch port a b c f → (s.chan ch).cmds.length < 8 → registerAll s (q / 4) = .ok t →
      enterChannel t ch (copyCmd t q ch port a b c f) true = .ok u → perform s q h = .ok (u, []))
    ∧ (∀ a is c k t u, h.op = .gath ch a is c k → (s.chan ch).cmds.length < 8 →
      (∀ e ∈ (s.ctx q).run, ∀ m ∈ e.roles.ks, m.1 ≠ k) → registerAll s (q / 4) = .ok t →
      enterChannel t ch (gathCmd t q ch a is c k) true = .ok u →
      ∃ m : BitVec 8192, perform s q h = .ok (u.setCtx q ((u.ctx q).setK k m), [])
        ∧ ∀ i < is.length, i < 8192 → (m.getLsbD i = true ↔ is.getD i 0 ∈ is.take i))
    ∧ (∀ m bar, m.film = true → enterChannel s ch m bar = .ok { s.setChan ch { s.chan ch with
        cmds := (s.chan ch).cmds ++ [{ m with bar := if bar then (s.chan ch).bar else m.bar, order := s.orders, regs := [] }],
        cancelled := false } with orders := s.orders + 1 })
    ∧ (∀ port a b c f, h.op = .copy ch port a b c f → 8 ≤ (s.chan ch).cmds.length → perform s q h = .error (.wait s))
    ∧ (∀ d, h.op = .chanWm ch d → perform s q h = .ok (s, [(d, (s.chan ch).wm)]))
    ∧ (∀ d, h.op = .chanStat ch d → perform s q h = .ok (s, [(d, chanStatWord (s.chan ch))]))
    ∧ (h.op = .chanCancel ch → perform s q h = .ok (channelCancel s ch, []))
    ∧ (∀ n, h.op = .chanWait ch (some n) →
        ((∀ m ∈ (s.chan ch).cmds, n ≤ m.order) → perform s q h = .ok (acquireAt s q 3, []))
        ∧ ((∃ m ∈ (s.chan ch).cmds, m.order < n) → (s.chan ch).faulted = false → perform s q h = .error (.wait s))
        ∧ ((∃ m ∈ (s.chan ch).cmds, m.order < n) → (s.chan ch).faulted = true → ∃ t, perform s q h = .error (.trap t)
            ∧ t.classB = true ∧ t.cause = (s.chan ch).cause ∧ t.sub = (s.chan ch).sub ∧ t.addr = (s.chan ch).faultAddr))

/-- R50, R278 to R283, R291: the task forms and shut. enq and depd are held with their operands; what each does at its queue
when it is performed; pgrant grants the strip at the cursor; tdone waits for everything outstanding, releases what the context
holds, releases at the scope of its task, at pkg where it posts (R51), counts its completion and ends the task. -/
def Obligations.TaskForms : Prop :=
  (∀ (x : C3) s a b, OnScalar s → Reads s x.a.val a → Reads s x.b.val b →
    (Ready s x.c.val → Holds (.enqTask x) s s (.enq false a b x.c.val) (0x53 + x.enc) [x.c.val]
      ∧ Holds (.enqLaunch x) s s (.enq true a b x.c.val) (0x10000053 + x.enc) [x.c.val])
    ∧ ∀ c, Reads s x.c.val c → Holds (.depd x) s s (.depd a b c) (0x54 + x.enc) [])
  ∧ (∀ s, OnScalar s → s.c.retry = false → Holds .tdone s s .tdone 0x56 [] ∧ Holds .shut s s .shut 0x5C [])
  ∧ (∀ (x : C1) s, OnScalar s → s.c.vqWritesVl = false →
    let t := fun (cause sub : Nat) => exec (.pgrant x) s = .next (trapped s cause sub (word (0x55 + x.enc)))
    let lim := vlmax s.c.sc.cfgTag.toNat s.c.sc.cfgGrp.val
    ((∀ p, s.c.task = some p → p.launch = true) → t cILLEGAL 0x0B)
    ∧ ∀ p, s.c.task = some p → p.launch = false →
        (tagKnown s.c.sc.cfgTag.toNat = false → t cTAG 0)
        ∧ (tagKnown s.c.sc.cfgTag.toNat = true → Ready s x.a.val →
            let rows := p.record.toNat / 2 ^ 128 % 2 ^ 32
            let cols := p.record.toNat / 2 ^ 160 % 2 ^ 32
            let past := decide (s.c.sc.curRow.toNat < rows) && decide (cols ≤ s.c.sc.curCol.toNat)
            let row := if past then s.c.sc.curRow.toNat + min (rows - s.c.sc.curRow.toNat) 64 else s.c.sc.curRow.toNat
            let col := if past then 0 else s.c.sc.curCol.toNat
            let gives := fun (vl n r k : Nat) => exec (.pgrant x) s = .next (s.withC (({ s.c with
              sc := { s.c.sc with vl := vl, curRow := BitVec.ofNat 32 r, curCol := BitVec.ofNat 32 k } } : Ctx).put x.a.val (word n)).advance)
            let vl := min (cols - col) lim
            (rows ≤ row → gives 0 0 row col)
            ∧ (row < rows → col + vl = cols → gives vl (min (rows - row) 64) (row + min (rows - row) 64) 0)
            ∧ (row < rows → col + vl ≠ cols → gives vl (min (rows - row) 64) row (col + vl))))
  ∧ (∀ s q h launch qu r d, h.op = .enq launch qu r d →
    (r.toNat % (if launch then 128 else 64) ≠ 0 → perform s q h = .error (.trap (classA cMISALIGNED 0 r h.ipc)))
    ∧ ∀ t u x v b, r.toNat % (if launch then 128 else 64) = 0 → releaseAt s q 4 = .ok t → translate t q r .r = .ok (u, x) →
        x.ctl = false → accRead u (u.agent q) x (if launch then 128 else 64) = .ok (v, b) →
        let n := qu.toNat % 4096
        let st := enqStatus v (v.pnum q) launch qu b
        (st = 0 → perform s q h = .ok (placeRecord v n launch b, [(d, (v.queue n).tail <<< 32)]))
        ∧ (st = 1 → perform s q h = .ok (v.setQueue n { v.queue n with overflow := true }, [(d, 1)]))
        ∧ (2 ≤ st → perform s q h = .ok (v, [(d, word st)]))
        ∧ (2 ^ 12 ≤ qu.toNat ∨ v.queueOwner n ≠ some (v.pnum q) → st = 2))
  ∧ (∀ s q h qu ctr amt, h.op = .depd qu ctr amt →
    let bad := 2 ^ 12 ≤ qu.toNat ∨ s.queueOwner (qu.toNat % 4096) ≠ some (s.pnum q)
    (bad → perform s q h = .error (.trap (classA cILLEGAL 9 (h.word.setWidth 64) h.ipc)))
    ∧ (¬bad → 256 ≤ ctr.toNat → perform s q h = .error (.trap (classA cILLEGAL 10 (h.word.setWidth 64) h.ipc)))
    ∧ ∀ t, ¬bad → ctr.toNat < 256 → releaseAt s q 4 = .ok t →
        let n := qu.toNat % 4096
        let have_ := ((t.queue n).counter ctr.toNat).toNat
        let by_ := amt.toNat % 2 ^ 16
        (by_ = 0 → perform s q h = .ok (t, []))
        ∧ (by_ ≠ 0 → by_ ≤ have_ →
            perform s q h = .ok (t.setQueue n ((t.queue n).setCounter ctr.toNat (BitVec.ofNat 16 (have_ - by_))), []))
        ∧ (have_ < by_ → perform s q h = .ok (postKeeper (t.setQueue n { (t.queue n).setCounter ctr.toNat 0 with underflow := true }) q
            { event := 3, queue := n, counter := ctr.toNat }, [])))
  ∧ (∀ s q h u v, h.op = .tdone → faultedOf s q = none → tdoneReady s q h.ord = true → (s.ctx q).divs = [] →
      let task := ((releaseItems s q).ctx q).task
      releaseAt (releaseItems s q) q (match task with
        | some t => if t.launch then finalScope t.record.toNat else 4
        | none => 4) = .ok u →
      (if postsAt u task then releaseAt u q 4 else .ok u) = .ok v →
      let y := releaseStages (match task with
        | some t => countCompletion v q t
        | none => v) q
      perform s q h = .ok (y.setCtx q (y.ctx q).ended, [])
      ∧ (y.ctx q).ended.state = .empty ∧ (y.ctx q).ended.task = none ∧ (y.ctx q).ended.sc = (y.ctx q).sc)
  ∧ ∀ s q h, h.op = .shut → ∃ t, perform s q h = .ok (t, [])
      ∧ (s.shutter.arm.getLsbD 0 = true → s.shutter.shutpart.getLsbD (s.pnum q) = true → s.shutter.fired = false →
          t = { s with shutter := { s.shutter with fired := true, source := 1, ftime := word s.time } })
      ∧ (s.shutter.arm.getLsbD 0 = false ∨ s.shutter.shutpart.getLsbD (s.pnum q) = false → t = s)

/-! ## System forms and traps -/

/-- R157, R288 to R290, R292, R293: trap and brk raise their causes with the code as tval; tret sets EN and goes on at tepc;
halt stops the context after the halt and posts a HALT event; yield ends the slice; both come to rest with what the context has
written performed at pkg (R307). probe's destination is empty until its walk completes; it writes the outcome of a translation
and never traps on it. The model's own: a tret into lane mode, and halt, wait until nothing is outstanding, lane stores among it
(log entry 42); a tret inside a replay whose rpt word cannot be fetched goes on without the replay (log entry 70); yield waits
for what is outstanding, so that its squash discards nothing older (log entry 58), does nothing more for a free-standing
context, and counts as a slice end (log entry 50); probe answers a walk that meets a poisoned table with 0x34 (log entry 45). -/
def Obligations.SystemForms : Prop :=
  (∀ (x : Imm14) s, OnScalar s →
    exec (.trap x) s = .next (trapped s cSOFTWARE 0 (x.code.setWidth 64))
    ∧ exec (.brk x) s = .next (trapped s cBREAKPOINT 0 (x.code.setWidth 64)))
  ∧ (∀ s, OnScalar s →
    let t := s.c.sc.tepc &&& ~~~(3 : Word)
    let x := { s.c.sc with tvec := setBit s.c.sc.tvec 0 true }
    (s.c.lmode = true → s.c.quiet = false → exec .tret s = .next s)
    ∧ (s.c.lmode = true → s.c.quiet = true → exec .tret s = .next (s.withC { s.c with
        sc := x, ord := s.c.ord + 1, lpc := vset s.c.lpc s.c.trapLane.val t, trapv := false, handler := false }))
    ∧ (s.c.lmode = false → s.c.sc.rptAct = false →
        exec .tret s = .next (s.withC { s.c with sc := { x with pc := t }, ord := s.c.ord + 1 }))
    ∧ (s.c.lmode = false → s.c.sc.rptAct = true →
        let r := fetchWord s s.cur (t - word (4 * (s.c.sc.rptI + 1)))
        (∀ u w, r = .ok (u, w) → exec .tret s = .next (u.withC { s.c with
          sc := { x with pc := t, rptAct := isRpt w, rptRun := isRpt w, rptBuf := [] }, ord := s.c.ord + 1 }))
        ∧ (∀ u, r = .error (.wait u) → exec .tret s = .next u)
        ∧ ∀ c sub a left, r = .error (.stop c sub a left) → exec .tret s = .next (s.withC { s.c with
          sc := { x with pc := t, rptAct := false, rptRun := false }, ord := s.c.ord + 1 })))
  ∧ (∀ s, OnScalar s →
    (s.c.quiet = false → exec .halt s = .next s)
    ∧ (s.c.quiet = true →
        (∀ t, restReady s s.cur = .error (.wait t) → exec .halt s = .next t)
        ∧ ∀ u, restReady s s.cur = .ok u →
          let c := (u.ctx u.cur).advance
          exec .halt s = .next (postKeeper (u.withC { c with
            state := .stopped, resume := c.sc.pc, chainF := 0, stepping := false }) s.cur { event := 2, pc := c.sc.pc })))
  ∧ (∀ s, OnScalar s →
    ((s.c.run.any fun e => e.form.op.restart == .complete) = true ∨ tilesSettled s s.cur = false ∨ s.c.viq ≠ [] ∨ s.c.sb ≠ []
      ∨ s.c.loads ≠ [] → exec .yield s = .next s)
    ∧ ((s.c.run.any fun e => e.form.op.restart == .complete) = false → tilesSettled s s.cur = true → s.c.viq = [] → s.c.sb = [] →
      s.c.loads = [] →
        (∀ t, restReady s s.cur = .error (.wait t) → exec .yield s = .next t)
        ∧ ∀ u, restReady s s.cur = .ok u →
          (s.c.free = true → exec .yield s = .next (passed u))
          ∧ (s.c.free = false → (∀ t, saveContext (passed u) s.cur = some t → exec .yield s = .next (countEvent t 2))
            ∧ (saveContext (passed u) s.cur = none → exec .yield s = .next (saveFull (passed u) s.cur)))))
  ∧ (∀ (x : Probe) s a, OnScalar s → Reads s x.a.val a → Ready s x.d.val → NoFenceHeld s →
    Loads (.probe x) s s { newLoad s (0x5F + x.enc) x.d.val a {} 0 false false none with probe := some x.kind.val } [x.d.val])
  ∧ (∀ s q (l : Load) k t v, l.probe = some k → probeWord s q k l.va = .ok (t, v) → loadData s q l = .ok (t, [(l.d, v)]))
  ∧ (∀ s q k (a : Word),
    (2 ^ 56 ≤ a.toNat → probeWord s q k a = .ok (s, 0x32))
    ∧ (a.toNat < 2 ^ 56 →
      let walk := lookup s (q / 4) (s.pnum q) (s.ctx q).root.toNat (s.ctx q).space a
        (match k with | 0 => .r | 1 => .w | 2 => .x | _ => .any)
      (∀ t f, walk = .ok (t, f) → ∃ v, probeWord s q k a = .ok (t, v)
          ∧ (f.fail = none → f.entry.isSome = true → v.getLsbD 0 = true) ∧ (f.fail ≠ none → v.getLsbD 0 = false)
          ∧ v.toNat / 2 % 8 = (match f.fail with | none => 0 | some 0x21 => 3 | some 0x22 => 4 | some _ => 2))
      ∧ (∀ c sub w u, walk = .error (.stop c sub w u) → probeWord s q k a = .ok (s, 0x34))))

/-- R17, R307, R337, R353 to R355: taking a trap, said once for the operation every instruction shares. A class A trap with EN
set is taken in context; with EN clear, under STEP (log entry 94), and class B, STATE becomes TRAPPED, the cause goes to context
page 0, RESUME and PC name the instruction, tcause, tval, tepc and tvec stay, and the keeper gets a TRAP event. A trap waits until
every older instruction it must wait for has completed, and one for the keeper until what the context has written can be
performed at pkg; TRAP_IN_CONTEXT and TRAP_TO_KEEPER then deliver it. -/
def Obligations.TrapsTaken : Prop :=
  (∀ s cause sub tval, OnScalar s → s.c.sc.tvec.getLsbD 0 = true → s.c.stepping = false → s.c.viq = [] → s.c.run = [] →
    cause ≠ cSOFTWARE → trapped s cause sub tval = s.withC { s.c with
      sc := { s.c.sc with
        tcause := BitVec.ofNat 16 (sub * 256 + cause), tval := tval, tepc := s.pc, rptRun := false
        tvec := s.c.sc.tvec &&& ~~~(1 : Word), pc := s.c.sc.tvec &&& ~~~(3 : Word) }
      pend := none, retry := false })
  ∧ (∀ s cause sub tval, OnScalar s → s.c.sc.tvec.getLsbD 0 = false ∨ s.c.stepping = true → s.c.viq = [] → s.c.run = [] → s.c.sb = [] → s.c.loads = [] →
    s.c.divs = [] → (∀ u, releaseAt s s.cur 4 ≠ .error (.wait u)) → cause ≠ cSOFTWARE → cause < 256 → sub < 256 →
    ∃ (u : State) (c : Ctx),
      trapped s cause sub tval = postKeeper (restRelease (fullTiles (u.withC c) u.cur) u.cur) u.cur
        { event := 1, cause := cause, sub := sub, cls := 1, pc := s.pc, addr := s.c.faultAddr, tval := tval }
      ∧ c.state = .trapped ∧ c.cause.toNat = cause ∧ c.subcode.toNat = sub ∧ c.cls = 1 ∧ c.faultAddr = s.c.faultAddr
      ∧ c.resume = s.pc ∧ c.chainF = 0 ∧ c.sc = { s.c.sc with pc := s.pc, vstart := 0, chain := 0, armed := false, rptRun := false }
      ∧ c.v = s.c.v ∧ c.k = s.c.k ∧ c.w = s.c.w ∧ u.mem = s.mem ∧ u.seqs = s.seqs ∧ u.cur = s.cur)
  ∧ (∀ s cause sub addr, OnScalar s → s.c.viq = [] → s.c.run = [] → s.c.sb = [] → s.c.loads = [] → s.c.divs = [] →
    (∀ u, releaseAt s s.cur 4 ≠ .error (.wait u)) → cause < 256 → sub < 256 → ∃ (u : State) (c : Ctx),
      stopped s cause sub addr = postKeeper (restRelease (fullTiles (u.withC c) u.cur) u.cur) u.cur
        { event := 1, cause := cause, sub := sub, cls := 2, pc := s.c.sc.pc, addr := addr, tval := 0 }
      ∧ c.state = .trapped ∧ c.cause.toNat = cause ∧ c.subcode.toNat = sub ∧ c.cls = 2 ∧ c.faultAddr = addr
      ∧ c.resume = s.c.sc.pc ∧ c.sc.tcause = s.c.sc.tcause ∧ c.sc.tval = s.c.sc.tval ∧ c.sc.tepc = s.c.sc.tepc
      ∧ c.sc.tvec = s.c.sc.tvec)
  ∧ (∀ s q t, (s.ctx q).canTake t = false → raise s q t = s.setCtx q { s.ctx q with pend := some t })
  ∧ (∀ s q t u, (s.ctx q).canTake t = true → (s.ctx q).inContext t = false →
      releaseAt s q 4 = .error (.wait u) → raise s q t = u.setCtx q { u.ctx q with pend := some t })
  ∧ ∀ s q t, q < 2048 → (s.ctx q).pend = some t → (s.ctx q).canTake t = true →
    let z := s.setCtx q { s.ctx q with pend := none }
    let taken := Host.Outcome.next (takeTrap z q t)
    (t.classB = false → (s.ctx q).sc.tvec.getLsbD 0 = true → (s.ctx q).stepping = false →
        exec (.trapInContext q) s = taken ∧ exec (.trapToKeeper q) s = .next s)
    ∧ (t.classB = true ∨ (s.ctx q).sc.tvec.getLsbD 0 = false ∨ (s.ctx q).stepping = true → exec (.trapInContext q) s = .next s
        ∧ ((∀ u, releaseAt z q 4 ≠ .error (.wait u)) → exec (.trapToKeeper q) s = taken)
        ∧ ∀ u, releaseAt z q 4 = .error (.wait u) → exec (.trapToKeeper q) s = .next { s with cxl := u.cxl })

/-! ## The steps of the other agents -/

/-- R15, R20, R21, R23, R173, R174, R176, R186, R226, R227, R253, R259, R336, R387: the steps of a sequencer's back end, its
tiles and its sleepers, each where it can happen. A head that another of its core and partition outranks does not start, and
among ready heads there is always one that nothing outranks. STOP waits for the held stores of lane threads (log entry 6). -/
def Obligations.BackEndSteps : Prop :=
  (∀ s q e r, q < 2048 → (s.ctx q).viq = e :: r → (s.ctx q).run = [] → headOutranked s q = true →
    exec (.vectorStart q) s = .next s ∧ exec (.vrecvBind q) s = .next s ∧ exec (.vmcastReserve q) s = .next s)
  ∧ (∀ s q, headReady s q = true → ∃ p, p / 4 = q / 4 ∧ s.pnum p = s.pnum q ∧ headReady s p = true ∧ headOutranked s p = false)
  ∧ (∀ s q e r, q < 2048 → (s.ctx q).viq = e :: r → (s.ctx q).run = [] → startCheck s q e = .ok () → headOutranked s q = false →
    (e.form.op.restart ≠ .detached → e.form.op ≠ .wst → e.form.op ≠ .mcast → e.form.op ≠ .recv →
      exec (.vectorStart q) s = .next (startedState s q e))
    ∧ (e.form.op = .recv → exec (.vrecvBind q) s
        = .next (chargeStart ((bindStrip s q e).setCtx q ((bindStrip s q e).ctx q).dequeue) q e))
    ∧ (e.form.op = .mcast →
        let t : Strip := { id := 2048 * (s.ctx q).mcSent + q, sender := q, tag := (e.reg e.form.a).tag, grp := (e.reg e.form.a).grp,
                           vl := e.vl, data := (s.ctx q).stripData e, landed := false }
        let u := (gangOf q e).foldl (reserveAt (s.pnum q) t) s
        exec (.vmcastReserve q) s = .next (startedState (u.setCtx q { u.ctx q with mcSent := (s.ctx q).mcSent + 1 }) q e)))
  ∧ (∀ s q e, q < 2048 → (s.ctx q).run = [e] →
    (e.form.op.restart = .element → e.form.op.isMem = false → (∀ m, e.form.op ≠ .cvt m) → (s.ctx q).runG < e.stop →
        let g := (s.ctx q).runG
        let b := if e.resumed ∧ g < (e.start / 8 + 1) * 8 then g + 1 else (g / 8 + 1) * 8
        exec (.groupCommit q) s = .next (s.setCtx q
          { ((List.range (min b e.stop - g)).map (g + ·)).foldl (fun (c : Ctx) i => c.element e i) (s.ctx q) with
            runG := b, worked := true }))
    ∧ (e.form.op.restart = .element → e.stop ≤ (s.ctx q).runG → exec (.vectorComplete q) s = .next (retire s s q (s.ctx q)))
    ∧ (e.form.op = .mcast → exec (.vmcastLand q) s = .next (retire s (landStrip s q) q (s.ctx q))))
  ∧ (∀ s c t o r, c < 512 → t < 8 → (vget (s.core c).tiles t {}).ops = o :: r →
    (o.started = true → ∃ u, exec (.detachedComplete c t) s = .next u ∧ u = completeTile s c t
      ∧ (vget (u.core c).tiles t {}).ops = r)
    ∧ (o.started = true ∨ framesReady (s.core c) o.e.form = false ∨ (o.product && (engineBusy (s.core c) || halfRun (s.core c) t)) = true
          ∨ tileAhead s o.seq t o.e.ord = true → exec (.tmmaStart c t) s = .next s)
    ∧ (o.started = false → framesReady (s.core c) o.e.form = true → (o.product && (engineBusy (s.core c) || halfRun (s.core c) t)) = false →
        tileAhead s o.seq t o.e.ord = false →
        let x := s.core c
        let tl := vget x.tiles t {}
        let tag := if o.e.form.op = .tacc then (o.e.reg o.e.form.c).tag else tl.tag
        let tl := { tl with tag := tag, ops := { o with started := true, owed := false } :: r }
        let u := s.setCore c { x with tiles := vset x.tiles t tl }
        exec (.tmmaStart c t) s = .next (if o.owed then chargeBeats u o.seq o.beats else u)))
  ∧ (∀ s q d k va x cmp lim t y u v, q < 2048 → (s.ctx q).wait = some (.waita d k va x cmp lim) →
    accessPlace s q (s.ctx q).sc.pc va .r true = .ok (t, y) →
    let w := t.setCtx q { t.ctx q with wait := some (.waita d k va y cmp lim) }
    (w.ctx q).mayRead (s.ctx q).ord y 8 = true → readHere (watchAnew w q y) q (s.ctx q).ord y 8 = .ok (u, v) →
    let i : Instr := if polled s q x then .waitaPoll q else .waitaWake q
    let holds := match k with
      | 0 => word v = cmp
      | 1 => word v ≠ cmp
      | 2 => cmp.toInt ≤ (word v).toInt
      | _ => cmp.toNat ≤ (word v).toNat
    (holds → exec i s = .next (u.setCtx q ((u.ctx q).awake d (word v))))
    ∧ (¬holds → (∀ l, lim = some l → u.time < l) → exec i s = .next u)
    ∧ ∀ l, lim = some l → l ≤ s.time → l ≤ u.time → exec (.waitaTimeout q) s = .next (u.setCtx q ((u.ctx q).awake d (word v))))
  ∧ (∀ s q d va x gen sc aw t y, q < 2048 → (s.ctx q).wait = some (.bar d va x gen sc aw) →
    accessPlace s q (s.ctx q).sc.pc va .r false = .ok (t, y) →
    let w := t.setCtx q { t.ctx q with wait := some (.bar d va y gen sc aw) }
    (y.host = true → coherent w (w.pnum q) = false →
      exec (.barWake q) s = .next (raise (s.setCtx q (s.ctx q).woken) q (classB cHOST_ABORT 0x03 va (s.ctx q).sc.pc)))
    ∧ ∀ u v, y.host = false ∨ coherent w (w.pnum q) = true →
    (w.ctx q).mayRead (s.ctx q).ord y 8 = true → readHere (watchAnew w q y) q (s.ctx q).ord y 8 = .ok (u, v) →
    (BitVec.ofNat 16 (v / 2 ^ 32) = gen → exec (.barWake q) s = .next u)
    ∧ (BitVec.ofNat 16 (v / 2 ^ 32) ≠ gen → (u.ctx q).ownAhead (s.ctx q).ord y 8 sc = true → exec (.barWake q) s = .next u)
    ∧ ∀ z v2, BitVec.ofNat 16 (v / 2 ^ 32) ≠ gen → (u.ctx q).ownAhead (s.ctx q).ord y 8 sc = false → acquireRead u q (s.ctx q).ord y 8 sc = .ok (z, v2) →
        (BitVec.ofNat 16 (v2 / 2 ^ 32) = gen → exec (.barWake q) s = .next z)
        ∧ (BitVec.ofNat 16 (v2 / 2 ^ 32) ≠ gen → exec (.barWake q) s = .next (z.setCtx q ((z.ctx q).awake d (word v2)))))
  ∧ ∀ s q u, q < 2048 → (s.ctx q).state = .stopping → (s.ctx q).run = [] →
    ((s.ctx q).laneHeld = true → exec (.stopComplete q) s = .next s)
    ∧ ((s.ctx q).laneHeld = false →
      let y := if (s.ctx q).laneOn then stopSquash s q else s
      (releaseAt y q 4 = .ok u → exec (.stopComplete q) s = .next (u.setCtx q { u.ctx q with state := .stopped }))
      ∧ (releaseAt y q 4 = .error (.wait u) → exec (.stopComplete q) s = .next u))

/-- R267 to R272, R284, R351, R358, R360, R366, R371 to R377, R381 to R383, R389: the steps of the copy engines, of the
queues' kept events and posts, and of the distributors. The model's own: what a slice end saves, and when (log entry 50; lane
stores first, log entry 6), in what order waiting tasks are staged (log entry 83), and which accesses of a granule count
(log entry 86). -/
def Obligations.EngineAndSchedulerSteps : Prop :=
  (∀ s ch m r, ch < 4096 → (s.chan ch).cmds = m :: r →
    (exec (.channelCommandStart ch) s = .next (startCommand (sendOwed s ch) ch))
    ∧ (mayStart s ch = true → (s.chan ch).owed = [] → ∃ u, exec (.channelCommandStart ch) s = .next u ∧ (u.chan ch).busy = true
      ∧ (u.chan ch).wm = (if m.film then word m.done else m.dst) ∧ (u.chan ch).cmds = m :: r
      ∧ (m.usesPort = true → find u.ports (portKey ch m.port) = some ch))
    ∧ ((s.chan ch).busy = true → exec (.grainMove (.chan ch)) s = .next (grainStep s ch)
        ∧ (∀ t v u, m.kind ≠ 3 → m.film = false → m.left ≠ 0 → engineRead s ch m (m.src + word m.off) 32 = .ok (t, v) →
            engineWrite t ch m m.dst 32 v = .ok u → moveGrain s ch m = .ok (u, m.step))
        ∧ (∀ ea r t v u, m.kind = 3 → m.idx = ea :: r → m.got = [] → engineRead s ch m (word ea) m.esz = .ok (t, v) →
            engineWrite t ch m m.dst m.esz v = .ok u → moveGrain s ch m = .ok (u, { m with
              idx := r, got := if r.contains ea then [(ea, v)] else [], dst := m.dst + word m.esz, done := m.done + m.esz }))
        ∧ (∀ ea r v u, m.kind = 3 → m.idx = ea :: r → find m.got ea = some v → engineWrite s ch m m.dst m.esz v = .ok u →
            moveGrain s ch m = .ok (u, { m with
              idx := r, got := if r.contains ea then put m.got ea v else del m.got ea, dst := m.dst + word m.esz
              done := m.done + m.esz }))
        ∧ (creditDue s ch m = true → grainStep s ch = creditStep s ch m)
        ∧ ∀ cause sub a left va, creditDue s ch m = false → moveGrain s ch m = .error (.stop cause sub a left, va) →
            grainStep s ch = chanFault (left.getD s) ch cause sub va)
    ∧ ((s.chan ch).busy = true → m.left = 0 → m.bar.getLsbD 63 = false → m.follow = none → ∃ u,
        exec (.copyComplete ch) s = .next u ∧ (u.chan ch).cmds = r ∧ (u.chan ch).busy = false
        ∧ (m.kind = 3 → m.kd ≠ 0 → m.kd < 8 → (u.ctx m.seq).feK.getLsbD m.kd = true)))
  ∧ (∀ s ch, ch < 4096 →
    ((s.chan ch).faulted = true →
      exec (.channelResume ch) s = .next (s.setChan ch { s.chan ch with faulted := false, cause := 0, sub := 0 }))
    ∧ ∃ u, exec (.channelCancel ch) s = .next u ∧ u = channelCancel s ch ∧ (u.chan ch).cancelled = true)
  ∧ (∀ s enl i, enl < 64 → exec (.grainMove (.stage enl i)) s
      = .next (match ((s.stages.filter fun g => g.core / 8 == enl && g.todo.any (·.left)).take 8)[i]? with
        | some g => stageGrain s g
        | none => s))
  ∧ (∀ s g e t ws, g.todo.find? (·.left) = some e →
      landGrain s g e (e.base + e.off / e.extent * e.stride + e.off % e.extent) = .ok (t, ws) →
      let n := if ws.isEmpty then 0 else 32
      stageGrain s g = { t with stages := t.stages.map fun h => if h = g then { g with
        landed := g.landed + n, stashed := g.stashed + (if 4 ≤ e.kind then n else 0)
        clean := if 4 ≤ e.kind then g.clean ++ ws else g.clean
        todo := g.todo.map fun f => if f = e then { e with off := e.off + 32 } else f } else h })
  ∧ (∀ s p e, p < 32 → s.events.find? (fun e => e.part == p && !(s.queue e.queue).full) = some e →
      exec (.eventPlace p) s = .next (placeSlot { s with events := s.events.erase e } e.queue e.body))
  ∧ (∀ s n p, n < 4096 → (s.queue n).full = false → s.posts.find? (fun p => p.queue == n) = some p →
      exec (.successorPlace n) s = .next (placeRecord { s with posts := s.posts.erase p } n false p.record.toNat))
  ∧ (∀ s q, q < 2048 → (s.ctx q).state = .running → (s.ctx q).free = false →
    let limit := (s.part (s.pnum q)).slice.toNat
    limit ≠ 0 → limit ≤ (s.ctx q).sliceUsed →
    (contended s (s.pnum q) = false → exec (.sliceEnd q) s = .next (s.setCtx q { s.ctx q with sliceUsed := 0 }))
    ∧ (contended s (s.pnum q) = true → (s.ctx q).laneHeld = true ∨ ((s.ctx q).movedOn = false ∧ stuck s q = false) →
        exec (.sliceEnd q) s = .next s)
    ∧ (contended s (s.pnum q) = true → (s.ctx q).laneHeld = false → (s.ctx q).movedOn = true ∨ stuck s q = true →
        (∀ e ∈ (s.ctx q).run, e.form.op.restart ≠ .complete) →
        tilesSettled s q = true → ∀ u,
        (releaseAt s q 4 = .error (.wait u) → exec (.sliceEnd q) s = .next u)
        ∧ (releaseAt s q 4 = .ok u → (∀ t, saveContext u q = some t → exec (.sliceEnd q) s = .next (countEvent t 2))
            ∧ (saveContext u q = none → exec (.sliceEnd q) s = .next (saveFull u q)))))
  ∧ (∀ s q p, q < 2048 → s.partOfSeq q = some p → seqFree s q = true → (s.part p).pstate = 1 → poisonedSlot s p = false →
      exec (.selection q) s = .next (offer s q p (candidates s p)))
  ∧ (∀ s q t p, q < 2048 → selectedFor s q false = some t → s.queueOwner t.queue = some p →
      (stageFull s t.queue 0 = true → exec (.bind q) s = .next s)
      ∧ ∀ q' u es, stageFull s t.queue 0 = false → chooseSeq s t p = some q' → entriesOf s (q' / 4) t = .ok (u, es) →
          exec (.bind q) s = .next (bindSlot (unselect u t) q' p t es))
  ∧ (∀ s q t p v q' u, q < 2048 → selectedFor s q true = some t → s.queueOwner t.queue = some p →
      s.saved.find? (fun v => some v.base == t.saved) = some v → chooseSeq s t p = some q' →
      resumeSaved (bindStages (unselect s t) q' fun g => g.saved == t.saved && t.saved.isSome) q' v = some u →
      exec (.resumeSaved q) s = .next u)
  ∧ (∀ s d n i, d < 8 → n < 4096 → (s.queueOwner n = none → exec (.stagingStart d n i) s = .next s)
      ∧ ∀ p w u g, s.queueOwner n = some p → firstWaiting s n p = some w → stagePlan s n p w = .ok (u, g) →
          (w.saved = none → w.slot ≠ i → exec (.stagingStart d n i) s = .next s)
          ∧ (w.saved.isSome = true ∨ w.slot = i →
            (outranked u p g w = true → exec (.stagingStart d n i) s = .next u)
            ∧ (outranked u p g w = false → stageFits u g = true →
                let y := { u with stages := u.stages ++ [g] }
                exec (.stagingStart d n i) s
                  = .next (if w.saved.isNone ∧ slotState w.record = 0 then setSlotState y n w.slot 1 else y))))
  ∧ ∀ s g stack x, stack < 8 → find s.granules g = some x → x.pinned = none →
      (∀ t, x.moved = some t → t + 10000000 ≤ s.time) →
      (get s.places (partOfFrame s (g * 512)) {}).migrate = true →
      (stacksOf s (partOfFrame s (g * 512))).getLsbD stack = true → stackCount s stack < stackGranules →
      let l := s.uses.filter fun u => u.1 == g && decide (s.time < u.2.1 + 10000000)
      l ≠ [] → (4 * (l.filter fun u => u.2.2 == stack).length < 3 * l.length → exec (.granuleMove g stack) s = .next s)
      ∧ (3 * l.length ≤ 4 * (l.filter fun u => u.2.2 == stack).length → exec (.granuleMove g stack) s
        = .next { flushAll s with granules := put (flushAll s).granules g { x with stack := stack, moved := some (flushAll s).time } })

/-- R322, R323, R330, R336 to R340, R342 to R344, R347, R350, R351, R369, R397 to R399: the writes of the control pages that
have a row of their own. A failed RESUME posts no event (log entry 24); a context runs only for a partition that is present and
in no reset. -/
def Obligations.ControlSteps : Prop :=
  (∀ s q, q < 2048 →
    let c := s.ctx q
    (c.state = .empty → ∃ d, exec (.ctlStop q) s = .next (s.setCtx q d) ∧ d.state = .stopped ∧ d.free = true ∧ d.task = none
      ∧ d.chainF = 0 ∧ d.sc.s = c.sc.s ∧ d.sc.pc = c.sc.pc ∧ d.v = c.v
      ∧ d.lmode = false ∧ d.sc.rptAct = false)
    ∧ (c.state = .running ∨ c.state = .waiting → exec (.ctlStop q) s = .next (stopComplete (stopContext s q) q))
    ∧ (c.state = .stopped ∨ c.state = .trapped →
        exec (.ctlStop q) s = .next s
        ∧ (serves s q = false → exec (.ctlResume q) s = .next s ∧ exec (.ctlStep q) s = .next s)
        ∧ (serves s q = true → resumeOk s q = true →
            exec (.ctlResume q) s = .next (startRunning (s.setCtx q { c with retry := true }) q (c.state == .trapped))
            ∧ exec (.ctlStep q) s = .next (startRunning (s.setCtx q { c with
                retry := true, stepping := true, stepNeed := c.ord + 1 + (if c.chainF = 0 then 1 else 0) }) q (c.state == .trapped)))
        ∧ (serves s q = true → resumeOk s q = false → ∃ d, exec (.ctlResume q) s = .next (s.setCtx q d)
            ∧ exec (.ctlStep q) s = .next (s.setCtx q d) ∧ d.state = .trapped ∧ d.cause = 0x01 ∧ d.cls = 1 ∧ d.stepping = false)
        ∧ ∃ u, exec (.ctlDiscard q) s = .next u ∧ (u.ctx q).state = .empty ∧ (u.ctx q).task = none ∧ (u.ctx q).viq = []
            ∧ (u.ctx q).sb = [])
    ∧ (c.state = .empty → exec (.ctlResume q) s = .next s ∧ exec (.ctlStep q) s = .next s ∧ exec (.ctlDiscard q) s = .next s)
    ∧ ∀ v : Word, c.state ≠ .saved → exec (.root q v) s
        = .next (s.setCtx q { c with root := (v >>> 12).setWidth 36, space := (v >>> 48).setWidth 16 }))
  ∧ (∀ s n v, n < 4096 →
    let x := s.queue n
    (x.en = false → exec (.head n v) s = .next (s.setQueue n { x with head := v }))
    ∧ (x.en = true → v ≠ x.head → (v - x.head).toNat ≤ (x.tail - x.head).toNat →
        ((∀ i < (v - x.head).toNat, slotKind (slotRec s n (x.head + word i).toNat) = 0xE0) →
          exec (.head n v) s = .next (s.setQueue n { x with head := v }))
        ∧ ((∃ i < (v - x.head).toNat, slotKind (slotRec s n (x.head + word i).toNat) ≠ 0xE0) → exec (.head n v) s = .next s))
    ∧ (v.getLsbD 8 = true → exec (.en n v) s
        = .next (s.setQueue n { x with capacity := if x.en then x.capacity else min 12 (v.toNat % 16), en := true }))
    ∧ ∀ i < 256, exec (.counter n i v) s = .next (s.setQueue n (x.setCounter i (v.setWidth 16))))
  ∧ (∀ s c, c < 512 →
    let x := s.core c
    let f := x.inForce
    (exec (.coreCommit c) s = .next { s.setCore c { x with active := x.staged } with
        tlb := s.tlb.filter fun t => !(changedParts x.active x.staged).contains t.part })
    ∧ (∀ i < 4, ((s.ctx (4 * c + i)).state = .empty → exec (.ownershipPass c (.seq i)) s
          = .next (s.setCore c { x with inForce := { f with seq := vset f.seq i (vget x.active.seq i 0) } }))
        ∧ ((s.ctx (4 * c + i)).state = .running → exec (.ownershipPass c (.seq i)) s = .next s)
        ∧ ((vget x.films i {}).holder = none → exec (.ownershipPass c (.film i)) s
          = .next (s.setCore c { x with inForce := { f with film := vset f.film i (vget x.active.film i 0) } })))
    ∧ ∀ i < 8, ((vget x.tiles i {}).claim = none → exec (.ownershipPass c (.tile i)) s
          = .next (s.setCore c { x with inForce := { f with tile := vset f.tile i (vget x.active.tile i 0) } }))
        ∧ ((s.chan (8 * c + i)).cmds = [] → exec (.ownershipPass c (.chan i)) s
          = .next (s.setCore c { x with inForce := { f with chan := vset f.chan i (vget x.active.chan i 0) } }))
        ∧ (ownerOf (vget f.pipe i 0) = none → exec (.ownershipPass c (.pipe i)) s
          = .next (s.setCore c { x with inForce := { f with pipe := vset f.pipe i (vget x.active.pipe i 0) } })))
  ∧ (∀ s p, p < 32 →
    let x := s.part p
    let gone := fun (t : State) => { t with tlb := s.tlb.filter fun e => e.part != p }
    (absent s p = true → exec (.partitionReset p) s = .next s)
    ∧ (absent s p = false → ∃ u, exec (.partitionReset p) s = .next u ∧ (u.part p).pstate = 2 ∧ u.tlb.all (fun e => e.part != p) = true
      ∧ ∀ q, s.partOfSeq q = some p → (u.ctx q).state = .empty)
    ∧ (x.pstate = 2 → let t := s.setPart p { x with pstate := if x.removing then 0 else 1, removing := false }
        exec (.partitionResetDone p) s
          = .next (postTo t 0 (t.part 0).dkeeper.toNat (EventWord.body { event := 7, part := p } s.time)))
    ∧ (∀ i < 32, ∀ v, let w := vget x.windows (i / 2) (0, 0)
        exec (.window p i v) s
          = .next (gone (s.setPart p { x with windows := vset x.windows (i / 2) (if i % 2 = 0 then (v, w.2) else (w.1, v)) })))
    ∧ (∀ v : Word, 4096 < v.toNat % 4096 + v.toNat / 65536 % 8192 → exec (.qcount p v) s = .next s)
    ∧ (∀ v : Word, p = 0 → v.toNat % 4096 + v.toNat / 65536 % 8192 ≤ 4096 → exec (.qcount p v) s
        = .next (gone (s.setPart p { x with qbase := v.toNat % 4096, qcount := v.toNat / 65536 % 8192 })))
    ∧ (∀ v : Word, exec (.printmask p v) s = .next (gone (s.setPart p { x with printmask := v.setWidth 8 })))
    ∧ ∀ v : Word, exec (.pingran p v) s = .next (pinGranule s p v))
  ∧ (∀ s sl, sl < 8 →
    let t := vget s.slots sl {}
    (∀ r w, validate sl t.draining t.sattr t.sent = (r, w) → exec (.load sl) s
        = .next { s with slots := vset s.slots sl { t with reason := r, whereF := w, draining := t.draining || r == 0 } })
    ∧ (t.draining = true → ∃ u, exec (.slotDrainDone sl) s = .next u ∧ (vget u.slots sl {}).active = true
        ∧ (vget u.slots sl {}).draining = false ∧ (vget u.slots sl {}).aattr = t.sattr ∧ (vget u.slots sl {}).aent = t.sent))
  ∧ ∀ s a v, (0xF000000000000 ≤ a → a < 2 ^ 52 → a % 8 = 0 → exec (.registerWrite a v) s = .next (ctlWrite s a v))

/-- R299 steps 4 to 6, R162, R310, R317 to R321, R359, R367 to R370: the steps of the ordering machine and of the homes, and
detected errors. Words that single-copy atomic stores bind together are registered in one step and placed in one step. The
model's own: a write-back is sent in one step and answered in another, and a step of a line that is not held changes nothing
(log entry 29); when a refused write is reported (log entry 51); where an error is logged and reported (log entry 53); the
eviction of a host line takes its neighbour grain in the same CXL line with it (log entry 55); which words are bound together
(log entry 76). -/
def Obligations.MemorySteps : Prop :=
  (∀ s c a, c < 512 →
    let w := a / 4 * 4
    let ws := boundTo (unregisteredAt s c) w
    (unregisteredAt s c w = none → exec (.register c a) s = .next s)
    ∧ (unregisteredAt s c w ≠ none →
        (∀ u ∈ ws, (∃ r, find s.reg (unitKey c u) = some r ∧ r.mask = 15) ∧ engineHolds s u = false
          ∧ ∀ o, find s.die (unitKey (coreDie c) u) ≠ some (.core o)) →
        exec (.register c a) s = .next { s with
          stamp := s.stamp + 1
          reg := ws.foldl (fun l u => match find l (unitKey c u) with
            | some r => put l (unitKey c u) { r with placed := match find s.die (unitKey (coreDie c) u) with
              | some (.value v) => some v
              | _ => none }
            | none => l) s.reg
          die := ws.foldl (fun l u => put l (unitKey (coreDie c) u) (.core c)) s.die })
    ∧ (unregisteredAt s c w ≠ none → w ∈ ws)
    ∧ ∀ u ∈ ws, w / 16 = u / 16)
  ∧ (∀ s d a r, d < 8 → unplacedAt s d (a / 4 * 4) = some r →
    let us := boundTo (unplacedAt s d) (a / 4 * 4)
    let placed := placeGroup s d r.grain r.slot (us.map fun u => (u, match unplacedAt s d u with
      | some x => x.val
      | none => homeWord s u)) none
    (∀ t b, placed = .ok (t, b) → exec (.exportWord d a) s = .next (us.foldl (fun t u => match find t.die (unitKey d u) with
      | some (.core c) => match find t.reg (unitKey c u) with
        | some x => { t with reg := put t.reg (unitKey c u) { x with exported := true, atom := 0, placed := none } }
        | none => t
      | _ => t) t))
    ∧ (∀ t, placed = .error (.wait t) → exec (.exportWord d a) s = .next t)
    ∧ ∀ c sub x left, placed = .error (.stop c sub x left) →
        exec (.exportWord d a) s = .next ((left.map fun t => undoWords t d us).getD s))
  ∧ (∀ s d a, d < 8 → unplacedAt s d (a / 4 * 4) = none → exec (.exportWord d a) s = .next s)
  ∧ (∀ s a b d q, a < 8 → b < 8 → popDelivery s.idq a b = some (d, q) →
    exec (.deliver a b) s = .next (applyDelivery { s with idq := q } d))
  ∧ (∀ s d b l t v, d < 8 → find s.lines b = some l → l.holders.getLsbD d = false → dieRead s d b l.grain l.slot = .ok (t, v) →
    exec (.rd d b) s = .next t)
  ∧ (∀ s d b l, d < 8 → find s.lines b = some l →
    let each := (lineWords b l).foldl (fun (t : State) w => match exportWord t d w with
      | .ok (u, _) => u
      | .error (.wait u) => u
      | .error (.stop _ _ _ left) => left.getD t) s
    (l.owner ≠ some d → exec (.wr d b) s = .next each) ∧ (l.owner = some d → exec (.wro d b) s = .next each)
    ∧ (l.holders.getLsbD d = true → writesUnderWay s d b l = false →
        let gone := fun ev => (lineWords b l).foldl (fun t w => dropDieWord t d w) (applyEvent s b ev (some d)).1
        (dirtyWords s d b l = true → (∀ x ∈ s.wbls, ¬(x.1 = d ∧ x.2.1 = b)) →
            exec (.wbl d b) s = .next { s with wbls := s.wbls ++ [(d, b, (find s.dieVer (unitKey d b)).getD l.version)] })
        ∧ (dirtyWords s d b l = false → l.holders = BitVec.ofNat 8 (2 ^ d) → exec (.dropl d b) s = .next (gone evDROPL))
        ∧ (dirtyWords s d b l = false → l.holders ≠ BitVec.ofNat 8 (2 ^ d) → exec (.drop d b) s = .next (gone evDROP))))
  ∧ (∀ s d b l v, d < 8 → find s.lines b = some l → s.wbls.find? (fun x => x.1 == d && x.2.1 == b) = some (d, b, v) →
    let u := { s with wbls := s.wbls.filter fun x => !(x.1 == d && x.2.1 == b) }
    let gone := fun (t : State) => (lineWords b l).foldl (fun t w => dropDieWord t d w) t
    (l.version = v → l.owner = some d → exec (.wbl d b) s = .next (gone (applyEvent u b evWBL (some d)).1))
    ∧ (l.version ≠ v ∨ l.owner ≠ some d → exec (.wbl d b) s = .next (gone u)))
  ∧ (∀ s b, exec (.snoop b) s = .next (applyEvent s b evSNOOP none).1 ∧ exec (.cmo b) s = .next (applyEvent s b evCMO none).1
      ∧ (b < hostTag → exec (.purge b) s = .next (applyEvent s b evPURGE none).1)
      ∧ (hostTag ≤ b → ∃ u, exec (.purge b) s = .next u ∧ find u.cxl.hostLines (b / 64 * 64) = none
          ∧ (b % 32 = 0 → find s.lines b = none ∨ (∃ l, find s.lines b = some l ∧ l.grain = 0) →
              let t := (applyEvent (applyEvent s (b / 64 * 64) evPURGE none).1 (b / 64 * 64 + 32) evPURGE none).1
              u = { t with cxl := { t.cxl with hostLines := t.cxl.hostLines.filter fun p => p.1 != b / 64 * 64 } })))
  ∧ (∀ s b l ev r, find s.lines b = some l →
    let e := vget (vget s.slots l.slot {}).aent (16 * l.state + ev) 0
    let t := applyEvent s b ev r
    t.2 = e.getLsbD 11
    ∧ t.1.lines = (if ev = evPURGE ∧ e.toNat % 8 = 0 then del s.lines b else put s.lines b (l.after e ev r))
    ∧ (l.after e ev r).state = e.toNat % 8
    ∧ (l.after e ev r).owner = (if e.getLsbD 5 then r else if e.getLsbD 6 then none else l.owner)
    ∧ (l.after e ev r).version
        = (if (e.getLsbD 5 = true ∧ l.owner ≠ r) ∨ (e.getLsbD 5 = false ∧ e.getLsbD 6 = true ∧ l.owner ≠ none) then l.version + 1
           else l.version)
    ∧ (e.toNat / 8 % 512 = 0 → ev ≠ evPURGE → ev ≠ evCMO →
        applyEvent s b ev r = ({ s with lines := put s.lines b { l with state := e.toNat % 8 } }, false)))
  ∧ ∀ s,
    (∀ unit p a, exec (.errorDetected (.corrected unit p a)) s = .next (logError s 1 unit p 0x7FF a))
    ∧ (∀ c w r, find s.reg (unitKey c (w / 4 * 4)) = some r → r.registered = false →
        exec (.errorDetected (.coreCopy c w)) s = .next (logError { s with reg := del s.reg (unitKey c (w / 4 * 4)) } 2 4
          (partOfAddr s w) 0x7FF (w % 2 ^ 52))
        ∧ exec (.errorDetected (.stashPiece c w)) s = .next (logError { s with reg := del s.reg (unitKey c (w / 4 * 4)) } 2 6
          (partOfAddr s w) 0x7FF (w % 2 ^ 52)))
    ∧ (∀ d w v, find s.die (unitKey d (w / 4 * 4)) = some (.value v) → (∀ b l, lineAt s w = some (b, l) → l.owner ≠ some d) →
        exec (.errorDetected (.dieCopy d w)) s = .next (logError { s with die := del s.die (unitKey d (w / 4 * 4)) } 2 3
          (partOfAddr s w) 0x7FF (w % 2 ^ 52)))
    ∧ (∀ a, find s.llc (a / 4 * 4) = none →
        exec (.errorDetected (.llcLine a)) s = .next (logError s 2 2 (errorPart s a) 0x7FF (a % 2 ^ 52)))
    ∧ (∀ q issued a, exec (.errorDetected (.instruction q issued a)) s
        = .next (logError (dropCode s q a) (if issued then 2 else 5) 5 (s.pnum q) q 0))
    ∧ (∀ i t, s.tlb[i]? = some t → exec (.errorDetected (.tlbEntry i)) s
        = .next (logError { s with tlb := s.tlb.eraseIdx i } 2 13 t.part 0x7FF 0))
    ∧ (∀ unit a, exec (.errorDetected (.dirty unit a)) s = .next (poisonSector s unit a))
    ∧ ∀ unit p, p < 32 → exec (.errorDetected (.contained unit p)) s = .next (logError (resetPartition s p) 6 unit p 0x7FF 0)

/-- R392 to R404: the steps of the host link. The model's own: a read through a BAR0 is a move of
the agenda, and the AtomicOp and PRI enables come with LINK_UP and PRI_ENABLE (log entry 4); a BAR2 access waits for words that an
engine has registered, and an offset that reaches nothing reads 0 (log entry 52); when an access that a failed completion is for
stops (log entry 54); what VF Enable set again does, and the order of page requests that wait (log entry 88). An Invalidate Request
reaches the device while its queue of 32 has room. -/
def Obligations.HostSteps : Prop :=
  (∀ s fn off r, s.dead = false → s.agenda = .bar0Read fn off :: r →
    let t := { s with agenda := r }
    let a := (0xF000000000000 + off / 2 ^ 30 % 16 * 2 ^ 44 + off % 2 ^ 30) / 8 * 8
    functionUp t fn = true →
      (∀ w, reach t fn a = some w → step s = .next (closeStep (answer t fn (ctlRead t a).toNat)))
      ∧ (reach t fn a = none → step s = .next (closeStep (answer t fn 0)))) ∧
  (∀ s speed width flit cxl atomics, linkOk speed width flit cxl = true → exec (.linkUp speed width flit cxl atomics) s
      = .next { s with link := { s.link with speed := speed, width := width, flit := flit, cxl := cxl, atomicEnable := atomics } })
  ∧ (∀ s fn off n v, fn < 32 → off < 2 ^ 34 → functionUp s fn = true →
    (n ≠ 8 ∨ off % 8 ≠ 0 → exec (.bar0Write fn off n v) s = .next { s with link := { s.link with badhost := s.link.badhost + 1 } })
    ∧ (n = 8 → off % 8 = 0 → reach s fn (bar0Addr off) = some true →
        exec (.bar0Write fn off n v) s = .next (ctlWrite s (bar0Addr off) v))
    ∧ (n = 8 → off % 8 = 0 → reach s fn (bar0Addr off) ≠ some true → exec (.bar0Write fn off n v) s = .next s)
    ∧ exec (.bar0Atomicop fn off) s = .next { s with link := { s.link with reads := del s.link.reads fn } })
  ∧ (∀ s fn off n, fn < 32 → functionUp s fn = true →
    (bar2Addr s fn off n = none → exec (.bar2Read fn off n) s = .next (answer s fn 0)
      ∧ (∀ bs, bs.length = n → exec (.bar2Write fn off bs) s = .next s)
      ∧ ∀ o v w, (hostOpWidths o).contains n = true → exec (.bar2Atomicop fn off n o v w) s
          = .next (if fn = 0 then answer s fn 0 else { s with link := { s.link with reads := del s.link.reads fn } }))
    ∧ ∀ a, bar2Addr s fn off n = some a → engineFree s a n = true →
      (poisoned (homeRead s a n).1 a n = false → poisoned s a n = false →
        exec (.bar2Read fn off n) s = .next (answer (homeRead s a n).1 fn (homeRead s a n).2))
      ∧ (∀ bs, bs.length = n → exec (.bar2Write fn off bs) s = .next (homeWrite s a n (numOf bs)))
      ∧ ∀ o v w t old, (hostOpWidths o).contains n = true → hostRead (homeSettle s a n) a n = (t, old) →
        let new := match o with
          | .fetchAdd => some ((old + v) % 2 ^ (8 * n))
          | .swap => some (v % 2 ^ (8 * n))
          | .cas => if old = v % 2 ^ (8 * n) then some (w % 2 ^ (8 * n)) else none
        exec (.bar2Atomicop fn off n o v w) s = .next (answer (match new with
          | some x => homeWrite t a n x
          | none => t) fn old))
  ∧ (∀ s n, s.link.vfe = false → 1 ≤ n → n ≤ 31 → ∃ u, exec (.vfEnable n) s = .next u ∧ u.link.vfe = true ∧ u.link.numvf = n
      ∧ ∀ p, 1 ≤ p → p ≤ n → (u.part p).pstate = (if (s.part p).pstate = 2 then 2 else 1) ∧ (u.part p).removing = false
          ∧ (u.part p).func = p)
  ∧ (∀ s, s.link.vfe = true → exec .vfDisable s = .next (disableVfs s))
  ∧ (∀ s, s.link.vfe = false → exec .pfFlr s = .next (resetPartition s 0))
  ∧ (∀ s p, 1 ≤ p → p < 32 → (s.part p).pstate ≠ 0 → exec (.vfFlr p) s = .next (resetPartition s p))
  ∧ (∀ s i r a, s.ats.find? (fun r => r.id == i && !r.isPri && r.done.isNone && r.fail.isNone) = some r →
      exec (.atsCompletion i a) s = .next (atsAnswer s r a)
      ∧ atsAnswer s r .error = setAts s r.id (fun r => r.failed cHOST_ABORT 0x04)
      ∧ ∀ hpa (g : Rights),
        let enough := (g.r || !r.needs.r) && (g.w || !r.needs.w) && (g.x || !r.needs.x)
        (enough = false → r.meetings < 3 → s.link.priFailed.getLsbD r.fn = false → s.link.priEnable.getLsbD r.fn = true →
          atsAnswer s r (.translated hpa g) = sendPri (setAts s r.id fun x =>
            { x with isPri := true, sent := false, stale := false, meetings := r.meetings + 1 }))
        ∧ (enough = true → r.stale = true →
          atsAnswer s r (.translated hpa g) = setAts s r.id fun r => { r with done := some (hpa, g) })
        ∧ (enough = true → r.stale = false →
          { fn := r.fn, pasid := r.pasid, page := r.page, hpa := hpa, rights := g, vas := [r.va] }
            ∈ (atsAnswer s r (.translated hpa g)).atc
          ∧ (atsAnswer s r (.translated hpa g)).ats = s.ats.filter fun x => x.id != r.id))
  ∧ (∀ s i r a, s.ats.find? (fun r => r.id == i && r.isPri && r.sent) = some r →
      exec (.pageRequestResponse i a) s = .next (priAnswer s r a))
  ∧ (∀ s fn on alloc, fn < 32 →
      ((s.part fn).pstate = 2 → exec (.priEnable fn on alloc) s = .next s)
      ∧ ((s.part fn).pstate ≠ 2 → ∃ u, exec (.priEnable fn on alloc) s = .next u ∧ u.link.priEnable.getLsbD fn = on
        ∧ u.link.priAlloc = alloc))
  ∧ (∀ s fn pasid lo hi, s.invPending < 32 → ∃ u, exec (.invalidateRequest fn pasid lo hi) s = .next u ∧ u.invPending = s.invPending + 1
      ∧ ∀ e, e ∈ u.atc ↔ e ∈ s.atc ∧ ¬(e.fn = fn ∧ (pasid = none ∨ pasid = some e.pasid) ∧ lo ≤ e.page ∧ e.page ≤ hi))
  ∧ (∀ s, 0 < s.invPending → (∀ r ∈ s.ats, r.done = none) → exec .invalidateCompletion s
      = .next { s with invPending := s.invPending - 1, link := { s.link with atsinv := s.link.atsinv + 1 } })
  ∧ (∀ s q sub i, q < 2048 → (s.ctx q).loads.any (fun l => l.x.host) = true → s.link.failing = [] →
      (sub = 0x05 ∧ i = Instr.hostCompletionError (.seq q) false ∧ coherent s (s.pnum q) = false)
        ∨ (sub = 0x06 ∧ i = .hostCompletionError (.seq q) true ∧ coherent s (s.pnum q) = false)
        ∨ (sub = 0x07 ∧ i = .completionTimeout (.seq q)) →
      exec i s = .next { s with link := { s.link with failing := [(.seq q, false, sub)] } })
  ∧ (∀ s who fn pasid iova va (n : Need) f, s.link.failing.find? (fun f => f.1 == who && f.2.1 == false) = some f →
      n.rights.w = false → atsLookup s who fn pasid iova va n = .error (.stop cHOST_ABORT f.2.2))
  ∧ ∀ s q n l sub left, q < 2048 → (s.ctx q).loads[n]? = some l → (s.ctx q).run = [] →
      (∀ e ∈ (s.ctx q).viq, l.ord ≤ e.ord) → (s.ctx q).clearBefore l.ord = true → (s.ctx q).acquireWaits l = false →
      (s.ctx q).mayRead l.ord l.x l.n = true → loadData s q l.halves.1 = .error (.stop cHOST_ABORT sub none left) →
      (∀ u, releaseAt s q 4 ≠ .error (.wait u)) →
      exec (.loadReturn q n) s = .next (takeTrap s q { classB cHOST_ABORT sub l.va l.ipc with late := true })

/-- R405 to R408, R412 to R422: the steps of host-shared memory and of the peer link. The model's own: when an access that
a refusal or a timeout is for stops (log entry 54); what SnpCur, SnpData and SnpInv do at the grains of a line, in what order
queued snoops are served, and what a BIRsp leaves the host (log entry 55); how a write of the host or a peer is placed, and that
it waits for engines (log entry 80); the state that the host grants, and what a FLIPGO refused twice shows (log entry 88). -/
def Obligations.SharedMemoryAndPeerSteps : Prop :=
  (∀ s a, (s.cxl.pendReq.any fun p => p.1 == a / 64 * 64) = false →
    let b := a / 64 * 64
    let r := if (lineAt s b).map (·.1) = (lineAt s (b + 32)).map (·.1) then recallLine s b else recallLine (recallLine s b) (b + 32)
    let t := { r with llc := r.llc.filter fun (w, _) => !(decide (hostTag ≤ w) && decide (b ≤ w) && decide (w < b + 64)) }
    let gives := fun (l : List (Nat × CxlState)) => Host.Outcome.next { t with cxl := { t.cxl with hostLines := l } }
    (∀ x, find t.cxl.hostLines b = some x → exec (.snpdata a) s = gives (put t.cxl.hostLines b .s))
    ∧ exec (.snpinv a) s = gives (del t.cxl.hostLines b) ∧ exec (.snpcur a) s = .next r)
  ∧ (∀ s a k, (s.cxl.pendReq.any fun p => p.1 == a / 64 * 64) = true → ∃ i : Instr, i = (match k with
      | 0 => .snpdata a
      | 1 => .snpinv a
      | _ => .snpcur a) ∧ exec i s = .next { s with cxl := { s.cxl with snoops := s.cxl.snoops ++ [(a / 64 * 64, min k 2)] } })
  ∧ (∀ s a w, let b := a / 64 * 64
    s.cxl.pendReq.find? (fun p => p.1 == b) = some (b, w) →
      ((∀ p ∈ s.cxl.snoops, p.1 ≠ b) → ∃ u,
        exec (.hostCacheResponse ⟨a, false⟩) s = .next u ∧ find u.cxl.hostLines b = some (if w = .rdShared then .s else .e)
        ∧ (∀ p ∈ u.cxl.pendReq, p.1 ≠ b) ∧ u.poison = s.poison)
      ∧ ((∀ p ∈ s.cxl.pendReq, p.1 = b → p.2 = w) →
        (w ≠ .rdOwnNoData →
          exec (.hostCacheResponse ⟨a, true⟩) s = .next (hostGrant (poisonSector (poisonSector s 10 b) 10 (b + 32)) b))
        ∧ (w = .rdOwnNoData → exec (.hostCacheResponse ⟨a, true⟩) s = .next (hostGrant s b))))
  ∧ (∀ s, s.link.cxl = true → exec .cxlCacheEnable s = .next { s with cxl := { s.cxl with cache := true } })
  ∧ (∀ s a, let b := a / 64 * 64
    inHdm s b = true → engineFree s b 64 = true → s.cxl.mode = 2 → (s.cxl.biWait.any fun p => p.1 == b) = false →
    (∃ t, exec (.m2sReq a) s = .next t ∧ (b, true) ∈ t.cxl.snoopFilter
        ∧ (poisoned t b 64 = false → find t.cxl.drs b = some (Memory.readN t.mem b 64)))
    ∧ ∀ bs, let u := if (find s.cxl.hostLines b).isSome then serveSnoop s b 1 else s
        exec (.m2sRwd a bs) s = .next { homeWrite u b 64 (numOf (bs.take 64)) with cxl := u.cxl })
  ∧ (∀ s a w, let b := a / 64 * 64
    s.cxl.biWait.find? (fun p => p.1 == b) = some (b, w) → ∃ u, exec (.birsp a) s = .next u ∧ (∀ p ∈ u.cxl.biWait, p.1 ≠ b)
      ∧ ((b, false) ∈ u.cxl.snoopFilter ↔ w = false) ∧ (b, true) ∉ u.cxl.snoopFilter)
  ∧ (∀ s n, s.link.cxl = true → n < 2 ^ 64 → exec (.mode 2 n) s
      = .next { s with cxl := { s.cxl with mode := 2, hdmsize := word n } })
  ∧ (∀ s, s.cxl.flipbusy = false → s.cxl.mode = 1 →
    let lo := s.cxl.hdmbase.toNat / 2 ^ 21 % 2 ^ 31 * 512
    let a := s.cxl.flipaddr.toNat / 2 ^ 12 % 2 ^ 40
    let n := s.cxl.flipcnt.toNat
    let i : Instr := if s.cxl.flipdir then .flipToHostBias else .flipToDeviceBias
    (lo ≤ a → a + n ≤ lo + s.cxl.hdmsize.toNat / 4096 → exec i s = .next { s with cxl := { s.cxl with
      flipbusy := true, flipres := 0, flipToHost := s.cxl.flipdir, flipPages := (List.range n).map (a + ·) } })
    ∧ (a < lo ∨ lo + s.cxl.hdmsize.toNat / 4096 < a + n → exec i s = .next { s with cxl := { s.cxl with flipres := 1 } }))
  ∧ (∀ s, s.cxl.flipbusy = true → exec .flipDone s = .next (s.cxl.flipPages.foldl
      (fun t p => if s.cxl.flipToHost then toHostBias t p else toDeviceBias t p)
      { s with cxl := { s.cxl with flipPages := [], flipbusy := false } }))
  ∧ (∀ s port, port < 36 → (s.link.portdis.getLsbD port = false → exec (.portUp port true) s
        = .next { s with link := { s.link with portup := setBit s.link.portup port true } })
      ∧ exec (.portUp port false) s = .next { s with link := { s.link with portup := setBit s.link.portup port false } })
  ∧ (∀ s dev sp a g sl o, dev < 1024 → g < 3 → sl < 8 →
      let n := peerSize o
      let run := exec (.peerRequest dev sp a ⟨g, sl, o⟩) s
      (admitted s dev sp a o = false ∨ 0xF000000000000 ≤ a + n ∨ (vget s.slots sl {}).draining = true
        ∨ (vget s.slots sl {}).active = false → run = .next s)
      ∧ (admitted s dev sp a o = true → a + n < 0xF000000000000 → engineFree s a n = true →
          (vget s.slots sl {}).draining = false → (vget s.slots sl {}).active = true →
          let u := homeSettle (peerLines s g sl (ingressPart s dev sp a o) a n) a n
          ((peerAccess o).2 = true → homeRefuses u a = true → run = .next u)
          ∧ ((peerAccess o).2 = false ∨ homeRefuses u a = false → ∀ t old, hostRead u a n = (t, old) →
              let z := if (peerAccess o).1 then peerAnswer t dev a sl old else t
              run = .next (match peerResult o old with
                | some v => homeWrite z a n v
                | none => z))))
  ∧ (∀ s dev a sl v, (sl ≠ 3 → peerAnswer s dev a sl v = answer s (32 + dev) v)
      ∧ ∀ b l, lineAt s a = some (b, l) → peerAnswer s dev a 3 v = answer (answer s (32 + dev) v) (2048 + dev) l.state)
  ∧ ∀ s q l, q < 2048 → (s.ctx q).loads.find? (fun l => onPeer l.x false) = some l →
      let fails := fun sub => Host.Outcome.next { s with link := { s.link with failing := [(.seq q, true, sub)] } }
      (s.link.failing = [] → exec (.peerCompletion (.seq q) true) s = fails 0x12 ∧ exec (.peerTimeout (.seq q)) s = fails 0x11)
      ∧ (∀ dev f, s.link.failing.find? (fun f => f.1 == .seq q && f.2.1 == true) = some f →
          peerRoute s (.seq q) dev false = .error (.stop cHOST_ABORT f.2.2))
      ∧ (∀ n t rs, peerLoad (s.ctx q) = some n → (s.ctx q).loads[n]? = some l →
          (l.probe.isSome = true ∨ ((s.ctx q).mayRead l.ord l.x l.n = true ∧ (s.ctx q).acquireWaits l = false)) →
          loadData s q l.halves.1 = .ok (t, rs) → exec (.peerCompletion (.seq q) false) s = .next (t.setCtx q
            (rs.foldl (fun (d : Ctx) r => d.deliver r.1 r.2 l.ord)
              { t.ctx q with loads := (t.ctx q).loads.take n ++ l.halves.2.toList ++ (t.ctx q).loads.drop (n + 1) })))

/-- R425 to R430, R432 to R435: the steps of the negative store, the shutter, the board and the print engines. A command works on
what its page held as it was written (R307). The model's own: a POWERCAP out of range is ignored, and power-on keeps the store and
the leaf index (log entries 5, 56); what a shard takes of the store (log entry 25); a save and a restore go grain by grain (log
entry 87); an EVCOUNT of 0 never fires, triggers of one step count as of one cycle, and what a print command's errors show (log
entry 88). -/
def Obligations.BoardSteps : Prop :=
  (∀ s, s.neg.status ≠ 1 → s.neg.nreg ≠ 0 → s.neg.nreg ≤ 16 →
    let rs := (List.range s.neg.nreg).map fun i => get s.neg.regions i (0, 0, 0)
    let t := fun (save : Bool) => { s with
      neg := { s.neg with
        status := 1, running := some save, progress := 0, faddr := 0, nreport := 0, taken := []
        cmd := { job := s.neg.job, step := s.neg.step, donebar := s.neg.donebar, regions := rs, order := s.orders } }
      orders := s.orders + 1 }
    exec .restore s = .next (t false)
    ∧ (regionFault [] rs = none → exec .save s = .next (t true))
    ∧ ∀ a, regionFault [] rs = some a → exec .save s = .next (negEnd (t true) 7 a))
  ∧ (∀ s, s.neg.running = some true → exec .saveDone s = .next (saveDone s)
      ∧ (totalBytes s.neg.ranges ≤ s.neg.progress.toNat →
          let keep := s.neg.shards.filter fun t =>
            !(t.job == s.neg.cmd.job && t.step == s.neg.cmd.step && decide (t.index < s.neg.listed.length))
          let total := ((keep ++ s.neg.newShards).map (·.size)).sum
          (storeBytes < total → saveDone s = negEnd s 6 0)
          ∧ (total ≤ storeBytes → s.neg.cmd.donebar.getLsbD 63 = false → saveDone s = { s with neg := { s.neg with
              status := 2, running := none, shards := keep ++ s.neg.newShards, taken := [] } })))
  ∧ (∀ s a n, s.neg.running = some true → nextGrain s.neg.ranges s.neg.progress.toNat = some (a, n) →
      a / 32 = (a + n - 1) / 32 ∧ 0 < n
      ∧ (chanHolds s a n = true ∨ printHolds s a n = true → saveGrain s = s)
      ∧ (chanHolds s a n = false → printHolds s a n = false →
          (poisoned s a n = true → saveGrain s = negEnd s 8 (a / 32 * 32))
          ∧ (poisoned s a n = false → ∀ t v, homeRead s a n = (t, v) → ∃ bs, saveGrain s = { t with neg := { t.neg with
              taken := t.neg.taken ++ bs, progress := t.neg.progress + word n } } ∧ bs.length = n ∧ numOf bs = v % 256 ^ n)))
  ∧ (∀ n : NegStore, n.newShards.length = n.listed.length ∧ ∀ i r, n.listed[i]? = some r → ∃ t, n.newShards[i]? = some t
      ∧ t.job = n.cmd.job ∧ t.step = n.cmd.step ∧ t.index = i ∧ t.count = n.listed.length ∧ t.complete = true ∧ t.digest = t.digestOf
      ∧ t.payload = payload (regionForm r) ((n.taken.drop ((n.listed.take i).map regionLen).sum).take (regionLen r)))
  ∧ (∀ s, s.neg.running = some false → exec .restoreDone s = .next (restoreDone s)
      ∧ ((∀ t ∈ s.neg.shards, t.job ≠ s.neg.cmd.job ∨ t.complete = false) → restoreDone s = negEnd s 4 0)
      ∧ (restoreFails s = none → totalBytes s.neg.restored ≤ s.neg.progress.toNat → s.neg.cmd.donebar.getLsbD 63 = false →
          restoreDone s = { s with neg := { s.neg with status := 2, running := none } }))
  ∧ (∀ s, s.neg.status = 1 → exec .abort s = .next { s with neg := { s.neg with status := 9, running := none, faddr := 0 } })
  ∧ (∀ s, s.shutter.fired = false →
    let fires := fun (n : Nat) => { s with shutter := { s.shutter with fired := true, source := BitVec.ofNat 3 n, ftime := word s.time } }
    exec .fire s = .next (fires 4)
    ∧ (s.shutter.reached = true → ∃ u, exec .evcount s = .next u
        ∧ u = { fires 3 with shutter := { (fires 3).shutter with reached := false } })
    ∧ (s.shutter.reached = false → exec .evcount s = .next s))
  ∧ (∀ s k, (s.shutter.evsel.toNat ≠ k → countEvent s k = s)
      ∧ (s.shutter.evsel.toNat = k → (countEvent s k).shutter.seen = s.shutter.seen + 1
        ∧ (countEvent s k).shutter.reached
            = (s.shutter.reached || (s.shutter.arm.getLsbD 2 && s.shutter.evcount.toNat == s.shutter.seen + 1))))
  ∧ (∀ s, s.shutter.fired = true → (s.shutter.stills ≠ [] ∨ s.shutter.due ≠ [] → exec .fire s = .next s
        ∧ ∀ n, fireShutter s n = s)
      ∧ (s.shutter.stills = [] → s.shutter.due = [] → ∀ n, n < 8 → (fireShutter s n).shutter.source.toNat = min s.shutter.source.toNat n))
  ∧ (∀ s, exec .rearm s = .next { s with shutter := { s.shutter with fired := false, reached := false, stills := [], due := [] } })
  ∧ (∀ s, exec .reportRequest s = .next { s with board := { s.board with busy := true, status := 0, asked := s.board.nonce } })
  ∧ (∀ s, s.board.busy = true →
    (2 ^ 20 ≤ s.board.leaf → exec .reportDone s = .next { s with board := { s.board with busy := false, status := 2 } })
    ∧ (s.board.leaf < 2 ^ 20 → ∃ u, exec .reportDone s = .next u ∧ u.board.busy = false ∧ u.board.status = 1
        ∧ u.board.leaf = s.board.leaf + 1 ∧ u.board.nonce = s.board.nonce
        ∧ ∀ i < 4, get u.board.report i 0 = BitVec.ofNat 64 (s.board.asked.toNat / 2 ^ (64 * i))))
  ∧ (∀ s v, 1000 ≤ BitVec.toNat v → v.toNat ≤ 3400 → exec (.powercap v) s
      = .next { s with board := { s.board with powercap := v.toNat } })
  ∧ (∀ s e, e < 8 → let p := s.print e
    (p.queue.length < 16 → exec (.printCommit e) s
      = .next { s with
          prints := put s.prints e { p with queue := p.queue ++ [p.staged], orders := p.orders ++ [s.orders] }
          orders := s.orders + 1 })
    ∧ ∀ c r, p.queue = c :: r →
      (p.busy = false → vget c 5 0 = 0 → exec (.printStart e) s
        = .next { flushAll s with prints := put s.prints e { p with busy := true } })
      ∧ (p.busy = true → (vget c 1 0).toNat / 2 ^ 32 % 2 ^ 16 = 0 →
          let u := { s with prints := put s.prints e { p with
              streams := p.streams.filter (fun t => t.1 != (vget c 2 0).toNat / 2 ^ 8 % 2 ^ 4), error := 0, queue := r
              orders := p.orders.tail, busy := false, out := none, mark := 0 } }
          (∀ t, deviceArrive u (vget c 7 0).toNat = some t → exec (.printDone e) s = .next t)
          ∧ (deviceArrive u (vget c 7 0).toNat = none → exec (.printDone e) s = .next s)))
  ∧ ∀ s, ∃ u, exec .powerOn s = .next u ∧ exec .coldReset s = .next u ∧ u.mem = [] ∧ u.seqs = [] ∧ u.cores = [] ∧ u.queues = []
      ∧ u.parts = State.reset.parts ∧ u.slots = State.reset.slots ∧ u.time = 0 ∧ u.tlb = [] ∧ u.neg.shards = s.neg.shards
      ∧ u.board.leaf = s.board.leaf ∧ (u.dead = true ↔ u.board.bootSig = true)

/-! ## Memory, reset, and what every step keeps -/

/-- R7: a byte memory in canonical form. What is written is read back, wide accesses lie lowest byte first, writes elsewhere
do not show, the form is kept, and two memories of that form that read alike are equal. -/
def Obligations.MemoryLaws : Prop :=
  (∀ m a n v, Memory.wf m = true →
    Memory.wf (Memory.writeN m a n v) = true
    ∧ Memory.readN (Memory.writeN m a n v) a n = v % 256 ^ n
    ∧ (∀ i < n, (Memory.read (Memory.writeN m a n v) (a + i)).toNat = v / 256 ^ i % 256)
    ∧ (∀ b k, b + k ≤ a ∨ a + n ≤ b → Memory.readN (Memory.writeN m a n v) b k = Memory.readN m b k)
    ∧ Memory.writeN m a n (Memory.readN m a n) = m)
  ∧ ∀ m l, Memory.wf m = true → Memory.wf l = true → (∀ a, Memory.read m a = Memory.read l a) → m = l

/-- R181, R323, R342, R343, R429, R435: the machine right after power-on. Every context is EMPTY with no trap held and
nothing outstanding; DRAM reads as zero; device time is 0; the root partition holds every queue, every print engine and all
of device DRAM, and no other partition is there; slots 0 to 3 are active; nothing is staged, fired or open. The values of the
registers the spec gives none for are the model's (log entry 2) and are not said here. -/
def Obligations.ResetState : Prop :=
  (∀ q, let c := State.reset.ctx q
    c.state = .empty ∧ c.viq = [] ∧ c.run = [] ∧ c.sb = [] ∧ c.loads = [] ∧ c.task = none ∧ c.lmode = false ∧ c.sc.rptAct = false
    ∧ (∀ i < 6, (vget c.sc.loops i {}).count = 0) ∧ (∀ n, n < 32 → c.feS.getLsbD n = true ∧ c.feV.getLsbD n = true))
  ∧ (∀ a, Memory.read State.reset.mem a = 0) ∧ State.reset.memOk ∧ State.reset.time = 0
  ∧ (State.reset.part 0).pstate = 1 ∧ (State.reset.part 0).qbase = 0 ∧ (State.reset.part 0).qcount = 4096
  ∧ (State.reset.part 0).printmask = 0xFF ∧ vget (State.reset.part 0).windows 0 (0, 0) = (1, 0x5FFFFFF000)
  ∧ (∀ p, p ≠ 0 → (State.reset.part p).pstate = 0)
  ∧ (∀ i < 8, (vget State.reset.slots i {}).active = decide (i < 4))
  ∧ (∀ c, (State.reset.core c).inForce.seq = Vector.replicate 4 0x80 ∧ ∀ i < 8, (vget (State.reset.core c).tiles i {}).claim = none)
  ∧ (∀ n, (State.reset.queue n).en = false) ∧ State.reset.tlb = [] ∧ State.reset.lines = [] ∧ State.reset.link.vfe = false
  ∧ State.reset.shutter.fired = false ∧ State.reset.shutter.stills = [] ∧ State.reset.neg.status = 0
  ∧ Settled State.reset

/-- R337, R430: whatever the state, what any step of the machine leaves has the shutter fired only with its stills latched or about
to be, and no context running whose STEP has run its instruction. Reset leaves it so too. -/
def Obligations.EveryStepKeepsSettled : Prop :=
  (∀ s t, step s = .next t → Settled t) ∧ Settled State.reset
end

