-- ==== Sys2Proof/Laws/Encoding.lean ====
section
/-!
SUPPORT. Facts about the encoding: a word as a list of fields, and each field read back from it (R88, R89).
-/
namespace Sys2Proof

/-- A Boolean bit is 0 or 1. -/
theorem bool_lt_two (b : Bool) : b.toNat < 2 := by cases b <;> decide

/-- A Boolean field read back. -/
theorem decide_bool (b : Bool) (n : Nat) (h : n = b.toNat) : decide (n = 1) = b := by subst h; cases b <;> rfl

/-- A numbered field read back. -/
theorem fin_of (m : Nat) [NeZero m] (a : Fin m) (n : Nat) (h : n % m = a.val) : Fin.ofNat m n = a := Fin.ext h

/-- A bit field read back. -/
theorem bitVec_of {m : Nat} (a : BitVec m) (n : Nat) (h : n % 2 ^ m = a.toNat) : BitVec.ofNat m n = a :=
  BitVec.eq_of_toNat_eq (by simpa using h)

/-- Fields of a word from bit 0 up, each a value and a width. -/
def pack : List (Nat × Nat) → Nat
  | [] => 0
  | (v, w) :: r => v + 2 ^ w * pack r

/-- The bits that fields take. -/
def packWidth : List (Nat × Nat) → Nat
  | [] => 0
  | (_, w) :: r => w + packWidth r

/-- Every field fits its width. -/
def Packed : List (Nat × Nat) → Prop
  | [] => True
  | (v, w) :: r => v < 2 ^ w ∧ Packed r

/-- Packed fields take no more bits than their widths. -/
theorem pack_lt : ∀ l, Packed l → pack l < 2 ^ packWidth l
  | [], _ => by decide
  | (v, w) :: r, h => by
    have := pack_lt r h.2
    have h1 : v < 2 ^ w := h.1
    simp only [pack, packWidth, Nat.pow_add]
    calc v + 2 ^ w * pack r < 2 ^ w * 1 + 2 ^ w * pack r := by omega
      _ = 2 ^ w * (pack r + 1) := by ring
      _ ≤ 2 ^ w * 2 ^ packWidth r := Nat.mul_le_mul_left _ this

/-- What lies above the first fields. -/
theorem pack_div : ∀ a b, Packed (a ++ b) → pack (a ++ b) / 2 ^ packWidth a = pack b
  | [], b, _ => by simp [packWidth]
  | (v, w) :: r, b, h => by
    have := pack_div r b h.2
    have h1 : v < 2 ^ w := h.1
    simp only [List.cons_append, pack, packWidth, Nat.pow_add]
    rw [← Nat.div_div_eq_div_mul, Nat.add_mul_div_left _ _ (Nat.two_pow_pos w), Nat.div_eq_of_lt h1, Nat.zero_add, this]

/-- What lies below: the first fields. -/
theorem pack_mod : ∀ a b, Packed (a ++ b) → pack (a ++ b) % 2 ^ packWidth a = pack a
  | [], b, _ => by simp [packWidth, pack, Nat.mod_one]
  | (v, w) :: r, b, h => by
    have := pack_mod r b h.2
    have h1 : v < 2 ^ w := h.1
    simp only [List.cons_append, pack, packWidth, Nat.pow_add]
    rw [Nat.mod_mul, Nat.add_mul_mod_self_left, Nat.mod_eq_of_lt h1, Nat.add_mul_div_left _ _ (Nat.two_pow_pos w), Nat.div_eq_of_lt h1, Nat.zero_add, this]

/-- The later fields fit too. -/
theorem Packed.tail : ∀ a b, Packed (a ++ b) → Packed b
  | [], _, h => h
  | _ :: r, b, h => Packed.tail r b h.2

/-- A run of fields read back from where it lies. -/
theorem pack_field (a m b : List (Nat × Nat)) (h : Packed (a ++ (m ++ b))) :
    pack (a ++ (m ++ b)) / 2 ^ packWidth a % 2 ^ packWidth m = pack m := by
  rw [pack_div a _ h, pack_mod m b (h.tail a)]

/-- One field read back from where it lies. -/
theorem pack_one (a b : List (Nat × Nat)) (v w : Nat) (h : Packed (a ++ (v, w) :: b)) :
    pack (a ++ (v, w) :: b) / 2 ^ packWidth a % 2 ^ w = v := by
  have := pack_field a [(v, w)] b h
  simpa [pack, packWidth] using this

/-- A word of opcode 0x01 is read by its row (R93). -/
theorem rowOf_01 (w : Nat) (h : w % 128 = 0x01) : rowOf w = rowAlu w := by
  unfold rowOf; rw [h]; rfl

/-- A word of opcode 0x02 is read by its row (R93). -/
theorem rowOf_02 (w : Nat) (h : w % 128 = 0x02) : rowOf w = rowAddi w := by
  unfold rowOf; rw [h]; rfl

/-- A word of opcode 0x03 is read by its row (R93). -/
theorem rowOf_03 (w : Nat) (h : w % 128 = 0x03) : rowOf w = rowAndi w := by
  unfold rowOf; rw [h]; rfl

/-- A word of opcode 0x04 is read by its row (R93). -/
theorem rowOf_04 (w : Nat) (h : w % 128 = 0x04) : rowOf w = rowOri w := by
  unfold rowOf; rw [h]; rfl

/-- A word of opcode 0x05 is read by its row (R93). -/
theorem rowOf_05 (w : Nat) (h : w % 128 = 0x05) : rowOf w = rowXori w := by
  unfold rowOf; rw [h]; rfl

/-- A word of opcode 0x06 is read by its row (R93). -/
theorem rowOf_06 (w : Nat) (h : w % 128 = 0x06) : rowOf w = rowShiftI w := by
  unfold rowOf; rw [h]; rfl

/-- A word of opcode 0x07 is read by its row (R93). -/
theorem rowOf_07 (w : Nat) (h : w % 128 = 0x07) : rowOf w = rowSlti w := by
  unfold rowOf; rw [h]; rfl

/-- A word of opcode 0x08 is read by its row (R93). -/
theorem rowOf_08 (w : Nat) (h : w % 128 = 0x08) : rowOf w = rowSetK w := by
  unfold rowOf; rw [h]; rfl

/-- A word of opcode 0x09 is read by its row (R93). -/
theorem rowOf_09 (w : Nat) (h : w % 128 = 0x09) : rowOf w = rowAddpc w := by
  unfold rowOf; rw [h]; rfl

/-- A word of opcode 0x0A is read by its row (R93). -/
theorem rowOf_0A (w : Nat) (h : w % 128 = 0x0A) : rowOf w = rowBr w := by
  unfold rowOf; rw [h]; rfl

/-- A word of opcode 0x0B is read by its row (R93). -/
theorem rowOf_0B (w : Nat) (h : w % 128 = 0x0B) : rowOf w = rowBrm w := by
  unfold rowOf; rw [h]; rfl

/-- A word of opcode 0x0C is read by its row (R93). -/
theorem rowOf_0C (w : Nat) (h : w % 128 = 0x0C) : rowOf w = rowJal w := by
  unfold rowOf; rw [h]; rfl

/-- A word of opcode 0x0D is read by its row (R93). -/
theorem rowOf_0D (w : Nat) (h : w % 128 = 0x0D) : rowOf w = rowJalr w := by
  unfold rowOf; rw [h]; rfl

/-- A word of opcode 0x0E is read by its row (R93). -/
theorem rowOf_0E (w : Nat) (h : w % 128 = 0x0E) : rowOf w = rowLoop w := by
  unfold rowOf; rw [h]; rfl

/-- A word of opcode 0x0F is read by its row (R93). -/
theorem rowOf_0F (w : Nat) (h : w % 128 = 0x0F) : rowOf w = rowRpt w := by
  unfold rowOf; rw [h]; rfl

/-- A word of opcode 0x10 is read by its row (R93). -/
theorem rowOf_10 (w : Nat) (h : w % 128 = 0x10) : rowOf w = rowLd w := by
  unfold rowOf; rw [h]; rfl

/-- A word of opcode 0x11 is read by its row (R93). -/
theorem rowOf_11 (w : Nat) (h : w % 128 = 0x11) : rowOf w = rowSt w := by
  unfold rowOf; rw [h]; rfl

/-- A word of opcode 0x12 is read by its row (R93). -/
theorem rowOf_12 (w : Nat) (h : w % 128 = 0x12) : rowOf w = rowLdp w := by
  unfold rowOf; rw [h]; rfl

/-- A word of opcode 0x13 is read by its row (R93). -/
theorem rowOf_13 (w : Nat) (h : w % 128 = 0x13) : rowOf w = rowStp w := by
  unfold rowOf; rw [h]; rfl

/-- A word of opcode 0x14 is read by its row (R93). -/
theorem rowOf_14 (w : Nat) (h : w % 128 = 0x14) : rowOf w = rowLdacq w := by
  unfold rowOf; rw [h]; rfl

/-- A word of opcode 0x15 is read by its row (R93). -/
theorem rowOf_15 (w : Nat) (h : w % 128 = 0x15) : rowOf w = rowStrel w := by
  unfold rowOf; rw [h]; rfl

/-- A word of opcode 0x16 is read by its row (R93). -/
theorem rowOf_16 (w : Nat) (h : w % 128 = 0x16) : rowOf w = rowAmo w := by
  unfold rowOf; rw [h]; rfl

/-- A word of opcode 0x17 is read by its row (R93). -/
theorem rowOf_17 (w : Nat) (h : w % 128 = 0x17) : rowOf w = rowCas w := by
  unfold rowOf; rw [h]; rfl

/-- A word of opcode 0x18 is read by its row (R93). -/
theorem rowOf_18 (w : Nat) (h : w % 128 = 0x18) : rowOf w = rowFence w := by
  unfold rowOf; rw [h]; rfl

/-- A word of opcode 0x19 is read by its row (R93). -/
theorem rowOf_19 (w : Nat) (h : w % 128 = 0x19) : rowOf w = rowXfence w := by
  unfold rowOf; rw [h]; rfl

/-- A word of opcode 0x1A is read by its row (R93). -/
theorem rowOf_1A (w : Nat) (h : w % 128 = 0x1A) : rowOf w = rowWaita w := by
  unfold rowOf; rw [h]; rfl

/-- A word of opcode 0x1B is read by its row (R93). -/
theorem rowOf_1B (w : Nat) (h : w % 128 = 0x1B) : rowOf w = rowBar w := by
  unfold rowOf; rw [h]; rfl

/-- A word of opcode 0x1C is read by its row (R93). -/
theorem rowOf_1C (w : Nat) (h : w % 128 = 0x1C) : rowOf w = rowCline w := by
  unfold rowOf; rw [h]; rfl

/-- A word of opcode 0x1D is read by its row (R93). -/
theorem rowOf_1D (w : Nat) (h : w % 128 = 0x1D) : rowOf w = rowStash w := by
  unfold rowOf; rw [h]; rfl

/-- A word of opcode 0x1E is read by its row (R93). -/
theorem rowOf_1E (w : Nat) (h : w % 128 = 0x1E) : rowOf w = rowPref w := by
  unfold rowOf; rw [h]; rfl

/-- A word of opcode 0x1F is read by its row (R93). -/
theorem rowOf_1F (w : Nat) (h : w % 128 = 0x1F) : rowOf w = rowSpr w := by
  unfold rowOf; rw [h]; rfl

/-- A word of opcode 0x20 is read by its row (R93). -/
theorem rowOf_20 (w : Nat) (h : w % 128 = 0x20) : rowOf w = rowVv w := by
  unfold rowOf; rw [h]; rfl

/-- A word of opcode 0x21 is read by its row (R93). -/
theorem rowOf_21 (w : Nat) (h : w % 128 = 0x21) : rowOf w = rowVs w := by
  unfold rowOf; rw [h]; rfl

/-- A word of opcode 0x22 is read by its row (R93). -/
theorem rowOf_22 (w : Nat) (h : w % 128 = 0x22) : rowOf w = rowVi w := by
  unfold rowOf; rw [h]; rfl

/-- A word of opcode 0x23 is read by its row (R93). -/
theorem rowOf_23 (w : Nat) (h : w % 128 = 0x23) : rowOf w = rowVfma w := by
  unfold rowOf; rw [h]; rfl

/-- A word of opcode 0x24 is read by its row (R93). -/
theorem rowOf_24 (w : Nat) (h : w % 128 = 0x24) : rowOf w = rowVmacw w := by
  unfold rowOf; rw [h]; rfl

/-- A word of opcode 0x25 is read by its row (R93). -/
theorem rowOf_25 (w : Nat) (h : w % 128 = 0x25) : rowOf w = rowVcmp w := by
  unfold rowOf; rw [h]; rfl

/-- A word of opcode 0x26 is read by its row (R93). -/
theorem rowOf_26 (w : Nat) (h : w % 128 = 0x26) : rowOf w = rowVsel w := by
  unfold rowOf; rw [h]; rfl

/-- A word of opcode 0x27 is read by its row (R93). -/
theorem rowOf_27 (w : Nat) (h : w % 128 = 0x27) : rowOf w = rowVcvt w := by
  unfold rowOf; rw [h]; rfl

/-- A word of opcode 0x28 is read by its row (R93). -/
theorem rowOf_28 (w : Nat) (h : w % 128 = 0x28) : rowOf w = rowVshrr w := by
  unfold rowOf; rw [h]; rfl

/-- A word of opcode 0x29 is read by its row (R93). -/
theorem rowOf_29 (w : Nat) (h : w % 128 = 0x29) : rowOf w = rowMath w := by
  unfold rowOf; rw [h]; rfl

/-- A word of opcode 0x2A is read by its row (R93). -/
theorem rowOf_2A (w : Nat) (h : w % 128 = 0x2A) : rowOf w = rowVdot w := by
  unfold rowOf; rw [h]; rfl

/-- A word of opcode 0x2B is read by its row (R93). -/
theorem rowOf_2B (w : Nat) (h : w % 128 = 0x2B) : rowOf w = rowVred w := by
  unfold rowOf; rw [h]; rfl

/-- A word of opcode 0x2C is read by its row (R93). -/
theorem rowOf_2C (w : Nat) (h : w % 128 = 0x2C) : rowOf w = rowVsign w := by
  unfold rowOf; rw [h]; rfl

/-- A word of opcode 0x2D is read by its row (R93). -/
theorem rowOf_2D (w : Nat) (h : w % 128 = 0x2D) : rowOf w = rowVmov w := by
  unfold rowOf; rw [h]; rfl

/-- A word of opcode 0x2E is read by its row (R93). -/
theorem rowOf_2E (w : Nat) (h : w % 128 = 0x2E) : rowOf w = rowVtag w := by
  unfold rowOf; rw [h]; rfl

/-- A word of opcode 0x2F is read by its row (R93). -/
theorem rowOf_2F (w : Nat) (h : w % 128 = 0x2F) : rowOf w = rowVslide w := by
  unfold rowOf; rw [h]; rfl

/-- A word of opcode 0x30 is read by its row (R93). -/
theorem rowOf_30 (w : Nat) (h : w % 128 = 0x30) : rowOf w = rowVld w := by
  unfold rowOf; rw [h]; rfl

/-- A word of opcode 0x31 is read by its row (R93). -/
theorem rowOf_31 (w : Nat) (h : w % 128 = 0x31) : rowOf w = rowVst w := by
  unfold rowOf; rw [h]; rfl

/-- A word of opcode 0x32 is read by its row (R93). -/
theorem rowOf_32 (w : Nat) (h : w % 128 = 0x32) : rowOf w = rowVlds w := by
  unfold rowOf; rw [h]; rfl

/-- A word of opcode 0x33 is read by its row (R93). -/
theorem rowOf_33 (w : Nat) (h : w % 128 = 0x33) : rowOf w = rowVsts w := by
  unfold rowOf; rw [h]; rfl

/-- A word of opcode 0x34 is read by its row (R93). -/
theorem rowOf_34 (w : Nat) (h : w % 128 = 0x34) : rowOf w = rowVldx w := by
  unfold rowOf; rw [h]; rfl

/-- A word of opcode 0x35 is read by its row (R93). -/
theorem rowOf_35 (w : Nat) (h : w % 128 = 0x35) : rowOf w = rowVstx w := by
  unfold rowOf; rw [h]; rfl

/-- A word of opcode 0x36 is read by its row (R93). -/
theorem rowOf_36 (w : Nat) (h : w % 128 = 0x36) : rowOf w = rowVamo w := by
  unfold rowOf; rw [h]; rfl

/-- A word of opcode 0x37 is read by its row (R93). -/
theorem rowOf_37 (w : Nat) (h : w % 128 = 0x37) : rowOf w = rowVcomp w := by
  unfold rowOf; rw [h]; rfl

/-- A word of opcode 0x38 is read by its row (R93). -/
theorem rowOf_38 (w : Nat) (h : w % 128 = 0x38) : rowOf w = rowVperm w := by
  unfold rowOf; rw [h]; rfl

/-- A word of opcode 0x39 is read by its row (R93). -/
theorem rowOf_39 (w : Nat) (h : w % 128 = 0x39) : rowOf w = rowVzip w := by
  unfold rowOf; rw [h]; rfl

/-- A word of opcode 0x3A is read by its row (R93). -/
theorem rowOf_3A (w : Nat) (h : w % 128 = 0x3A) : rowOf w = rowKlog w := by
  unfold rowOf; rw [h]; rfl

/-- A word of opcode 0x3B is read by its row (R93). -/
theorem rowOf_3B (w : Nat) (h : w % 128 = 0x3B) : rowOf w = rowKvl w := by
  unfold rowOf; rw [h]; rfl

/-- A word of opcode 0x3C is read by its row (R93). -/
theorem rowOf_3C (w : Nat) (h : w % 128 = 0x3C) : rowOf w = rowVmcast w := by
  unfold rowOf; rw [h]; rfl

/-- A word of opcode 0x3D is read by its row (R93). -/
theorem rowOf_3D (w : Nat) (h : w % 128 = 0x3D) : rowOf w = rowVrecv w := by
  unfold rowOf; rw [h]; rfl

/-- A word of opcode 0x3E is read by its row (R93). -/
theorem rowOf_3E (w : Nat) (h : w % 128 = 0x3E) : rowOf w = rowViota w := by
  unfold rowOf; rw [h]; rfl

/-- A word of opcode 0x3F is read by its row (R93). -/
theorem rowOf_3F (w : Nat) (h : w % 128 = 0x3F) : rowOf w = rowVflg w := by
  unfold rowOf; rw [h]; rfl

/-- A word of opcode 0x40 is read by its row (R93). -/
theorem rowOf_40 (w : Nat) (h : w % 128 = 0x40) : rowOf w = rowWld w := by
  unfold rowOf; rw [h]; rfl

/-- A word of opcode 0x41 is read by its row (R93). -/
theorem rowOf_41 (w : Nat) (h : w % 128 = 0x41) : rowOf w = rowWst w := by
  unfold rowOf; rw [h]; rfl

/-- A word of opcode 0x42 is read by its row (R93). -/
theorem rowOf_42 (w : Nat) (h : w % 128 = 0x42) : rowOf w = rowWmul w := by
  unfold rowOf; rw [h]; rfl

/-- A word of opcode 0x43 is read by its row (R93). -/
theorem rowOf_43 (w : Nat) (h : w % 128 = 0x43) : rowOf w = rowWchol w := by
  unfold rowOf; rw [h]; rfl

/-- A word of opcode 0x44 is read by its row (R93). -/
theorem rowOf_44 (w : Nat) (h : w % 128 = 0x44) : rowOf w = rowWlu w := by
  unfold rowOf; rw [h]; rfl

/-- A word of opcode 0x45 is read by its row (R93). -/
theorem rowOf_45 (w : Nat) (h : w % 128 = 0x45) : rowOf w = rowWsolve w := by
  unfold rowOf; rw [h]; rfl

/-- A word of opcode 0x46 is read by its row (R93). -/
theorem rowOf_46 (w : Nat) (h : w % 128 = 0x46) : rowOf w = rowWadd w := by
  unfold rowOf; rw [h]; rfl

/-- A word of opcode 0x47 is read by its row (R93). -/
theorem rowOf_47 (w : Nat) (h : w % 128 = 0x47) : rowOf w = rowWget w := by
  unfold rowOf; rw [h]; rfl

/-- A word of opcode 0x48 is read by its row (R93). -/
theorem rowOf_48 (w : Nat) (h : w % 128 = 0x48) : rowOf w = rowTclaim w := by
  unfold rowOf; rw [h]; rfl

/-- A word of opcode 0x49 is read by its row (R93). -/
theorem rowOf_49 (w : Nat) (h : w % 128 = 0x49) : rowOf w = rowTmma w := by
  unfold rowOf; rw [h]; rfl

/-- A word of opcode 0x4A is read by its row (R93). -/
theorem rowOf_4A (w : Nat) (h : w % 128 = 0x4A) : rowOf w = rowTmms w := by
  unfold rowOf; rw [h]; rfl

/-- A word of opcode 0x4B is read by its row (R93). -/
theorem rowOf_4B (w : Nat) (h : w % 128 = 0x4B) : rowOf w = rowTread w := by
  unfold rowOf; rw [h]; rfl

/-- A word of opcode 0x4C is read by its row (R93). -/
theorem rowOf_4C (w : Nat) (h : w % 128 = 0x4C) : rowOf w = rowTwrite w := by
  unfold rowOf; rw [h]; rfl

/-- A word of opcode 0x4D is read by its row (R93). -/
theorem rowOf_4D (w : Nat) (h : w % 128 = 0x4D) : rowOf w = rowTwait w := by
  unfold rowOf; rw [h]; rfl

/-- A word of opcode 0x4E is read by its row (R93). -/
theorem rowOf_4E (w : Nat) (h : w % 128 = 0x4E) : rowOf w = rowTepi w := by
  unfold rowOf; rw [h]; rfl

/-- A word of opcode 0x4F is read by its row (R93). -/
theorem rowOf_4F (w : Nat) (h : w % 128 = 0x4F) : rowOf w = rowFilm w := by
  unfold rowOf; rw [h]; rfl

/-- A word of opcode 0x50 is read by its row (R93). -/
theorem rowOf_50 (w : Nat) (h : w % 128 = 0x50) : rowOf w = rowCpy w := by
  unfold rowOf; rw [h]; rfl

/-- A word of opcode 0x51 is read by its row (R93). -/
theorem rowOf_51 (w : Nat) (h : w % 128 = 0x51) : rowOf w = rowGath w := by
  unfold rowOf; rw [h]; rfl

/-- A word of opcode 0x52 is read by its row (R93). -/
theorem rowOf_52 (w : Nat) (h : w % 128 = 0x52) : rowOf w = rowChan w := by
  unfold rowOf; rw [h]; rfl

/-- A word of opcode 0x53 is read by its row (R93). -/
theorem rowOf_53 (w : Nat) (h : w % 128 = 0x53) : rowOf w = rowEnq w := by
  unfold rowOf; rw [h]; rfl

/-- A word of opcode 0x54 is read by its row (R93). -/
theorem rowOf_54 (w : Nat) (h : w % 128 = 0x54) : rowOf w = rowDepd w := by
  unfold rowOf; rw [h]; rfl

/-- A word of opcode 0x55 is read by its row (R93). -/
theorem rowOf_55 (w : Nat) (h : w % 128 = 0x55) : rowOf w = rowPgrant w := by
  unfold rowOf; rw [h]; rfl

/-- A word of opcode 0x56 is read by its row (R93). -/
theorem rowOf_56 (w : Nat) (h : w % 128 = 0x56) : rowOf w = rowTdone w := by
  unfold rowOf; rw [h]; rfl

/-- A word of opcode 0x57 is read by its row (R93). -/
theorem rowOf_57 (w : Nat) (h : w % 128 = 0x57) : rowOf w = rowLsplit w := by
  unfold rowOf; rw [h]; rfl

/-- A word of opcode 0x58 is read by its row (R93). -/
theorem rowOf_58 (w : Nat) (h : w % 128 = 0x58) : rowOf w = rowLjoin w := by
  unfold rowOf; rw [h]; rfl

/-- A word of opcode 0x59 is read by its row (R93). -/
theorem rowOf_59 (w : Nat) (h : w % 128 = 0x59) : rowOf w = rowYield w := by
  unfold rowOf; rw [h]; rfl

/-- A word of opcode 0x5A is read by its row (R93). -/
theorem rowOf_5A (w : Nat) (h : w % 128 = 0x5A) : rowOf w = rowTrap w := by
  unfold rowOf; rw [h]; rfl

/-- A word of opcode 0x5B is read by its row (R93). -/
theorem rowOf_5B (w : Nat) (h : w % 128 = 0x5B) : rowOf w = rowTret w := by
  unfold rowOf; rw [h]; rfl

/-- A word of opcode 0x5C is read by its row (R93). -/
theorem rowOf_5C (w : Nat) (h : w % 128 = 0x5C) : rowOf w = rowShut w := by
  unfold rowOf; rw [h]; rfl

/-- A word of opcode 0x5D is read by its row (R93). -/
theorem rowOf_5D (w : Nat) (h : w % 128 = 0x5D) : rowOf w = rowHalt w := by
  unfold rowOf; rw [h]; rfl

/-- A word of opcode 0x5E is read by its row (R93). -/
theorem rowOf_5E (w : Nat) (h : w % 128 = 0x5E) : rowOf w = rowBrk w := by
  unfold rowOf; rw [h]; rfl

/-- A word of opcode 0x5F is read by its row (R93). -/
theorem rowOf_5F (w : Nat) (h : w % 128 = 0x5F) : rowOf w = rowProbe w := by
  unfold rowOf; rw [h]; rfl

/-- A word that a row reads as a well-formed instruction decodes to it. -/
theorem decode_of_row (n : Nat) (i : Instr) (hn : n < 2 ^ 32) (hr : rowOf n = some i) (hw : i.wf = true) :
    decode (BitVec.ofNat 32 n) = i := by
  unfold decode
  rw [BitVec.toNat_ofNat, Nat.mod_eq_of_lt hn, hr]
  simp [hw]

/-- A word of packed fields that a row reads as a well-formed instruction decodes to it. -/
theorem decode_of_pack (n : Nat) (l : List (Nat × Nat)) (i : Instr) (hn : n = pack l) (hl : Packed l)
    (hw32 : packWidth l = 32) (hr : rowOf (pack l) = some i) (hw : i.wf = true) : decode (BitVec.ofNat 32 n) = i := by
  subst hn
  exact decode_of_row _ _ (hw32 ▸ pack_lt l hl) hr hw

end Sys2Proof
end

