-- ==== Sys2Proof/Laws/State.lean ====
section
/-!
SUPPORT. What each update of the state leaves as it was, one lemma per field and update, and the updates read back.
-/
namespace Sys2Proof.Machine

/-! ### setCtx -/

@[simp] theorem State.setCtx_seqs (s : State) (q : Nat) (x : Ctx) : (s.setCtx q x).seqs = put s.seqs q x := rfl
@[simp] theorem State.setCtx_cores (s : State) (q : Nat) (x : Ctx) : (s.setCtx q x).cores = s.cores := rfl
@[simp] theorem State.setCtx_chans (s : State) (q : Nat) (x : Ctx) : (s.setCtx q x).chans = s.chans := rfl
@[simp] theorem State.setCtx_ports (s : State) (q : Nat) (x : Ctx) : (s.setCtx q x).ports = s.ports := rfl
@[simp] theorem State.setCtx_reg (s : State) (q : Nat) (x : Ctx) : (s.setCtx q x).reg = s.reg := rfl
@[simp] theorem State.setCtx_die (s : State) (q : Nat) (x : Ctx) : (s.setCtx q x).die = s.die := rfl
@[simp] theorem State.setCtx_lines (s : State) (q : Nat) (x : Ctx) : (s.setCtx q x).lines = s.lines := rfl
@[simp] theorem State.setCtx_idq (s : State) (q : Nat) (x : Ctx) : (s.setCtx q x).idq = s.idq := rfl
@[simp] theorem State.setCtx_dieVer (s : State) (q : Nat) (x : Ctx) : (s.setCtx q x).dieVer = s.dieVer := rfl
@[simp] theorem State.setCtx_wbls (s : State) (q : Nat) (x : Ctx) : (s.setCtx q x).wbls = s.wbls := rfl
@[simp] theorem State.setCtx_icache (s : State) (q : Nat) (x : Ctx) : (s.setCtx q x).icache = s.icache := rfl
@[simp] theorem State.setCtx_llc (s : State) (q : Nat) (x : Ctx) : (s.setCtx q x).llc = s.llc := rfl
@[simp] theorem State.setCtx_stamp (s : State) (q : Nat) (x : Ctx) : (s.setCtx q x).stamp = s.stamp := rfl
@[simp] theorem State.setCtx_mem (s : State) (q : Nat) (x : Ctx) : (s.setCtx q x).mem = s.mem := rfl
@[simp] theorem State.setCtx_hostMem (s : State) (q : Nat) (x : Ctx) : (s.setCtx q x).hostMem = s.hostMem := rfl
@[simp] theorem State.setCtx_peerMem (s : State) (q : Nat) (x : Ctx) : (s.setCtx q x).peerMem = s.peerMem := rfl
@[simp] theorem State.setCtx_peerW (s : State) (q : Nat) (x : Ctx) : (s.setCtx q x).peerW = s.peerW := rfl
@[simp] theorem State.setCtx_peerCopies (s : State) (q : Nat) (x : Ctx) : (s.setCtx q x).peerCopies = s.peerCopies := rfl
@[simp] theorem State.setCtx_poison (s : State) (q : Nat) (x : Ctx) : (s.setCtx q x).poison = s.poison := rfl
@[simp] theorem State.setCtx_slots (s : State) (q : Nat) (x : Ctx) : (s.setCtx q x).slots = s.slots := rfl
@[simp] theorem State.setCtx_tlb (s : State) (q : Nat) (x : Ctx) : (s.setCtx q x).tlb = s.tlb := rfl
@[simp] theorem State.setCtx_queues (s : State) (q : Nat) (x : Ctx) : (s.setCtx q x).queues = s.queues := rfl
@[simp] theorem State.setCtx_parts (s : State) (q : Nat) (x : Ctx) : (s.setCtx q x).parts = s.parts := rfl
@[simp] theorem State.setCtx_places (s : State) (q : Nat) (x : Ctx) : (s.setCtx q x).places = s.places := rfl
@[simp] theorem State.setCtx_granules (s : State) (q : Nat) (x : Ctx) : (s.setCtx q x).granules = s.granules := rfl
@[simp] theorem State.setCtx_uses (s : State) (q : Nat) (x : Ctx) : (s.setCtx q x).uses = s.uses := rfl
@[simp] theorem State.setCtx_logs (s : State) (q : Nat) (x : Ctx) : (s.setCtx q x).logs = s.logs := rfl
@[simp] theorem State.setCtx_events (s : State) (q : Nat) (x : Ctx) : (s.setCtx q x).events = s.events := rfl
@[simp] theorem State.setCtx_posts (s : State) (q : Nat) (x : Ctx) : (s.setCtx q x).posts = s.posts := rfl
@[simp] theorem State.setCtx_selected (s : State) (q : Nat) (x : Ctx) : (s.setCtx q x).selected = s.selected := rfl
@[simp] theorem State.setCtx_saved (s : State) (q : Nat) (x : Ctx) : (s.setCtx q x).saved = s.saved := rfl
@[simp] theorem State.setCtx_stages (s : State) (q : Nat) (x : Ctx) : (s.setCtx q x).stages = s.stages := rfl
@[simp] theorem State.setCtx_recent (s : State) (q : Nat) (x : Ctx) : (s.setCtx q x).recent = s.recent := rfl
@[simp] theorem State.setCtx_link (s : State) (q : Nat) (x : Ctx) : (s.setCtx q x).link = s.link := rfl
@[simp] theorem State.setCtx_atc (s : State) (q : Nat) (x : Ctx) : (s.setCtx q x).atc = s.atc := rfl
@[simp] theorem State.setCtx_ats (s : State) (q : Nat) (x : Ctx) : (s.setCtx q x).ats = s.ats := rfl
@[simp] theorem State.setCtx_cxl (s : State) (q : Nat) (x : Ctx) : (s.setCtx q x).cxl = s.cxl := rfl
@[simp] theorem State.setCtx_neg (s : State) (q : Nat) (x : Ctx) : (s.setCtx q x).neg = s.neg := rfl
@[simp] theorem State.setCtx_shutter (s : State) (q : Nat) (x : Ctx) : (s.setCtx q x).shutter = s.shutter := rfl
@[simp] theorem State.setCtx_board (s : State) (q : Nat) (x : Ctx) : (s.setCtx q x).board = s.board := rfl
@[simp] theorem State.setCtx_prints (s : State) (q : Nat) (x : Ctx) : (s.setCtx q x).prints = s.prints := rfl
@[simp] theorem State.setCtx_invPending (s : State) (q : Nat) (x : Ctx) : (s.setCtx q x).invPending = s.invPending := rfl
@[simp] theorem State.setCtx_time (s : State) (q : Nat) (x : Ctx) : (s.setCtx q x).time = s.time := rfl
@[simp] theorem State.setCtx_dead (s : State) (q : Nat) (x : Ctx) : (s.setCtx q x).dead = s.dead := rfl
@[simp] theorem State.setCtx_cur (s : State) (q : Nat) (x : Ctx) : (s.setCtx q x).cur = s.cur := rfl
@[simp] theorem State.setCtx_agenda (s : State) (q : Nat) (x : Ctx) : (s.setCtx q x).agenda = s.agenda := rfl
@[simp] theorem State.setCtx_runAhead (s : State) (q : Nat) (x : Ctx) : (s.setCtx q x).runAhead = s.runAhead := rfl
@[simp] theorem State.setCtx_tick (s : State) (q : Nat) (x : Ctx) : (s.setCtx q x).tick = s.tick := rfl
@[simp] theorem State.setCtx_orders (s : State) (q : Nat) (x : Ctx) : (s.setCtx q x).orders = s.orders := rfl

/-! ### setCore -/

@[simp] theorem State.setCore_seqs (s : State) (q : Nat) (x : Core) : (s.setCore q x).seqs = s.seqs := rfl
@[simp] theorem State.setCore_cores (s : State) (q : Nat) (x : Core) : (s.setCore q x).cores = put s.cores q x := rfl
@[simp] theorem State.setCore_chans (s : State) (q : Nat) (x : Core) : (s.setCore q x).chans = s.chans := rfl
@[simp] theorem State.setCore_ports (s : State) (q : Nat) (x : Core) : (s.setCore q x).ports = s.ports := rfl
@[simp] theorem State.setCore_reg (s : State) (q : Nat) (x : Core) : (s.setCore q x).reg = s.reg := rfl
@[simp] theorem State.setCore_die (s : State) (q : Nat) (x : Core) : (s.setCore q x).die = s.die := rfl
@[simp] theorem State.setCore_lines (s : State) (q : Nat) (x : Core) : (s.setCore q x).lines = s.lines := rfl
@[simp] theorem State.setCore_idq (s : State) (q : Nat) (x : Core) : (s.setCore q x).idq = s.idq := rfl
@[simp] theorem State.setCore_dieVer (s : State) (q : Nat) (x : Core) : (s.setCore q x).dieVer = s.dieVer := rfl
@[simp] theorem State.setCore_wbls (s : State) (q : Nat) (x : Core) : (s.setCore q x).wbls = s.wbls := rfl
@[simp] theorem State.setCore_icache (s : State) (q : Nat) (x : Core) : (s.setCore q x).icache = s.icache := rfl
@[simp] theorem State.setCore_llc (s : State) (q : Nat) (x : Core) : (s.setCore q x).llc = s.llc := rfl
@[simp] theorem State.setCore_stamp (s : State) (q : Nat) (x : Core) : (s.setCore q x).stamp = s.stamp := rfl
@[simp] theorem State.setCore_mem (s : State) (q : Nat) (x : Core) : (s.setCore q x).mem = s.mem := rfl
@[simp] theorem State.setCore_hostMem (s : State) (q : Nat) (x : Core) : (s.setCore q x).hostMem = s.hostMem := rfl
@[simp] theorem State.setCore_peerMem (s : State) (q : Nat) (x : Core) : (s.setCore q x).peerMem = s.peerMem := rfl
@[simp] theorem State.setCore_peerW (s : State) (q : Nat) (x : Core) : (s.setCore q x).peerW = s.peerW := rfl
@[simp] theorem State.setCore_peerCopies (s : State) (q : Nat) (x : Core) : (s.setCore q x).peerCopies = s.peerCopies := rfl
@[simp] theorem State.setCore_poison (s : State) (q : Nat) (x : Core) : (s.setCore q x).poison = s.poison := rfl
@[simp] theorem State.setCore_slots (s : State) (q : Nat) (x : Core) : (s.setCore q x).slots = s.slots := rfl
@[simp] theorem State.setCore_tlb (s : State) (q : Nat) (x : Core) : (s.setCore q x).tlb = s.tlb := rfl
@[simp] theorem State.setCore_queues (s : State) (q : Nat) (x : Core) : (s.setCore q x).queues = s.queues := rfl
@[simp] theorem State.setCore_parts (s : State) (q : Nat) (x : Core) : (s.setCore q x).parts = s.parts := rfl
@[simp] theorem State.setCore_places (s : State) (q : Nat) (x : Core) : (s.setCore q x).places = s.places := rfl
@[simp] theorem State.setCore_granules (s : State) (q : Nat) (x : Core) : (s.setCore q x).granules = s.granules := rfl
@[simp] theorem State.setCore_uses (s : State) (q : Nat) (x : Core) : (s.setCore q x).uses = s.uses := rfl
@[simp] theorem State.setCore_logs (s : State) (q : Nat) (x : Core) : (s.setCore q x).logs = s.logs := rfl
@[simp] theorem State.setCore_events (s : State) (q : Nat) (x : Core) : (s.setCore q x).events = s.events := rfl
@[simp] theorem State.setCore_posts (s : State) (q : Nat) (x : Core) : (s.setCore q x).posts = s.posts := rfl
@[simp] theorem State.setCore_selected (s : State) (q : Nat) (x : Core) : (s.setCore q x).selected = s.selected := rfl
@[simp] theorem State.setCore_saved (s : State) (q : Nat) (x : Core) : (s.setCore q x).saved = s.saved := rfl
@[simp] theorem State.setCore_stages (s : State) (q : Nat) (x : Core) : (s.setCore q x).stages = s.stages := rfl
@[simp] theorem State.setCore_recent (s : State) (q : Nat) (x : Core) : (s.setCore q x).recent = s.recent := rfl
@[simp] theorem State.setCore_link (s : State) (q : Nat) (x : Core) : (s.setCore q x).link = s.link := rfl
@[simp] theorem State.setCore_atc (s : State) (q : Nat) (x : Core) : (s.setCore q x).atc = s.atc := rfl
@[simp] theorem State.setCore_ats (s : State) (q : Nat) (x : Core) : (s.setCore q x).ats = s.ats := rfl
@[simp] theorem State.setCore_cxl (s : State) (q : Nat) (x : Core) : (s.setCore q x).cxl = s.cxl := rfl
@[simp] theorem State.setCore_neg (s : State) (q : Nat) (x : Core) : (s.setCore q x).neg = s.neg := rfl
@[simp] theorem State.setCore_shutter (s : State) (q : Nat) (x : Core) : (s.setCore q x).shutter = s.shutter := rfl
@[simp] theorem State.setCore_board (s : State) (q : Nat) (x : Core) : (s.setCore q x).board = s.board := rfl
@[simp] theorem State.setCore_prints (s : State) (q : Nat) (x : Core) : (s.setCore q x).prints = s.prints := rfl
@[simp] theorem State.setCore_invPending (s : State) (q : Nat) (x : Core) : (s.setCore q x).invPending = s.invPending := rfl
@[simp] theorem State.setCore_time (s : State) (q : Nat) (x : Core) : (s.setCore q x).time = s.time := rfl
@[simp] theorem State.setCore_dead (s : State) (q : Nat) (x : Core) : (s.setCore q x).dead = s.dead := rfl
@[simp] theorem State.setCore_cur (s : State) (q : Nat) (x : Core) : (s.setCore q x).cur = s.cur := rfl
@[simp] theorem State.setCore_agenda (s : State) (q : Nat) (x : Core) : (s.setCore q x).agenda = s.agenda := rfl
@[simp] theorem State.setCore_runAhead (s : State) (q : Nat) (x : Core) : (s.setCore q x).runAhead = s.runAhead := rfl
@[simp] theorem State.setCore_tick (s : State) (q : Nat) (x : Core) : (s.setCore q x).tick = s.tick := rfl
@[simp] theorem State.setCore_orders (s : State) (q : Nat) (x : Core) : (s.setCore q x).orders = s.orders := rfl

/-! ### setChan -/

@[simp] theorem State.setChan_seqs (s : State) (q : Nat) (x : Chan) : (s.setChan q x).seqs = s.seqs := rfl
@[simp] theorem State.setChan_cores (s : State) (q : Nat) (x : Chan) : (s.setChan q x).cores = s.cores := rfl
@[simp] theorem State.setChan_chans (s : State) (q : Nat) (x : Chan) : (s.setChan q x).chans = put s.chans q x := rfl
@[simp] theorem State.setChan_ports (s : State) (q : Nat) (x : Chan) : (s.setChan q x).ports = s.ports := rfl
@[simp] theorem State.setChan_reg (s : State) (q : Nat) (x : Chan) : (s.setChan q x).reg = s.reg := rfl
@[simp] theorem State.setChan_die (s : State) (q : Nat) (x : Chan) : (s.setChan q x).die = s.die := rfl
@[simp] theorem State.setChan_lines (s : State) (q : Nat) (x : Chan) : (s.setChan q x).lines = s.lines := rfl
@[simp] theorem State.setChan_idq (s : State) (q : Nat) (x : Chan) : (s.setChan q x).idq = s.idq := rfl
@[simp] theorem State.setChan_dieVer (s : State) (q : Nat) (x : Chan) : (s.setChan q x).dieVer = s.dieVer := rfl
@[simp] theorem State.setChan_wbls (s : State) (q : Nat) (x : Chan) : (s.setChan q x).wbls = s.wbls := rfl
@[simp] theorem State.setChan_icache (s : State) (q : Nat) (x : Chan) : (s.setChan q x).icache = s.icache := rfl
@[simp] theorem State.setChan_llc (s : State) (q : Nat) (x : Chan) : (s.setChan q x).llc = s.llc := rfl
@[simp] theorem State.setChan_stamp (s : State) (q : Nat) (x : Chan) : (s.setChan q x).stamp = s.stamp := rfl
@[simp] theorem State.setChan_mem (s : State) (q : Nat) (x : Chan) : (s.setChan q x).mem = s.mem := rfl
@[simp] theorem State.setChan_hostMem (s : State) (q : Nat) (x : Chan) : (s.setChan q x).hostMem = s.hostMem := rfl
@[simp] theorem State.setChan_peerMem (s : State) (q : Nat) (x : Chan) : (s.setChan q x).peerMem = s.peerMem := rfl
@[simp] theorem State.setChan_peerW (s : State) (q : Nat) (x : Chan) : (s.setChan q x).peerW = s.peerW := rfl
@[simp] theorem State.setChan_peerCopies (s : State) (q : Nat) (x : Chan) : (s.setChan q x).peerCopies = s.peerCopies := rfl
@[simp] theorem State.setChan_poison (s : State) (q : Nat) (x : Chan) : (s.setChan q x).poison = s.poison := rfl
@[simp] theorem State.setChan_slots (s : State) (q : Nat) (x : Chan) : (s.setChan q x).slots = s.slots := rfl
@[simp] theorem State.setChan_tlb (s : State) (q : Nat) (x : Chan) : (s.setChan q x).tlb = s.tlb := rfl
@[simp] theorem State.setChan_queues (s : State) (q : Nat) (x : Chan) : (s.setChan q x).queues = s.queues := rfl
@[simp] theorem State.setChan_parts (s : State) (q : Nat) (x : Chan) : (s.setChan q x).parts = s.parts := rfl
@[simp] theorem State.setChan_places (s : State) (q : Nat) (x : Chan) : (s.setChan q x).places = s.places := rfl
@[simp] theorem State.setChan_granules (s : State) (q : Nat) (x : Chan) : (s.setChan q x).granules = s.granules := rfl
@[simp] theorem State.setChan_uses (s : State) (q : Nat) (x : Chan) : (s.setChan q x).uses = s.uses := rfl
@[simp] theorem State.setChan_logs (s : State) (q : Nat) (x : Chan) : (s.setChan q x).logs = s.logs := rfl
@[simp] theorem State.setChan_events (s : State) (q : Nat) (x : Chan) : (s.setChan q x).events = s.events := rfl
@[simp] theorem State.setChan_posts (s : State) (q : Nat) (x : Chan) : (s.setChan q x).posts = s.posts := rfl
@[simp] theorem State.setChan_selected (s : State) (q : Nat) (x : Chan) : (s.setChan q x).selected = s.selected := rfl
@[simp] theorem State.setChan_saved (s : State) (q : Nat) (x : Chan) : (s.setChan q x).saved = s.saved := rfl
@[simp] theorem State.setChan_stages (s : State) (q : Nat) (x : Chan) : (s.setChan q x).stages = s.stages := rfl
@[simp] theorem State.setChan_recent (s : State) (q : Nat) (x : Chan) : (s.setChan q x).recent = s.recent := rfl
@[simp] theorem State.setChan_link (s : State) (q : Nat) (x : Chan) : (s.setChan q x).link = s.link := rfl
@[simp] theorem State.setChan_atc (s : State) (q : Nat) (x : Chan) : (s.setChan q x).atc = s.atc := rfl
@[simp] theorem State.setChan_ats (s : State) (q : Nat) (x : Chan) : (s.setChan q x).ats = s.ats := rfl
@[simp] theorem State.setChan_cxl (s : State) (q : Nat) (x : Chan) : (s.setChan q x).cxl = s.cxl := rfl
@[simp] theorem State.setChan_neg (s : State) (q : Nat) (x : Chan) : (s.setChan q x).neg = s.neg := rfl
@[simp] theorem State.setChan_shutter (s : State) (q : Nat) (x : Chan) : (s.setChan q x).shutter = s.shutter := rfl
@[simp] theorem State.setChan_board (s : State) (q : Nat) (x : Chan) : (s.setChan q x).board = s.board := rfl
@[simp] theorem State.setChan_prints (s : State) (q : Nat) (x : Chan) : (s.setChan q x).prints = s.prints := rfl
@[simp] theorem State.setChan_invPending (s : State) (q : Nat) (x : Chan) : (s.setChan q x).invPending = s.invPending := rfl
@[simp] theorem State.setChan_time (s : State) (q : Nat) (x : Chan) : (s.setChan q x).time = s.time := rfl
@[simp] theorem State.setChan_dead (s : State) (q : Nat) (x : Chan) : (s.setChan q x).dead = s.dead := rfl
@[simp] theorem State.setChan_cur (s : State) (q : Nat) (x : Chan) : (s.setChan q x).cur = s.cur := rfl
@[simp] theorem State.setChan_agenda (s : State) (q : Nat) (x : Chan) : (s.setChan q x).agenda = s.agenda := rfl
@[simp] theorem State.setChan_runAhead (s : State) (q : Nat) (x : Chan) : (s.setChan q x).runAhead = s.runAhead := rfl
@[simp] theorem State.setChan_tick (s : State) (q : Nat) (x : Chan) : (s.setChan q x).tick = s.tick := rfl
@[simp] theorem State.setChan_orders (s : State) (q : Nat) (x : Chan) : (s.setChan q x).orders = s.orders := rfl

/-! ### setQueue -/

@[simp] theorem State.setQueue_seqs (s : State) (q : Nat) (x : Queue) : (s.setQueue q x).seqs = s.seqs := rfl
@[simp] theorem State.setQueue_cores (s : State) (q : Nat) (x : Queue) : (s.setQueue q x).cores = s.cores := rfl
@[simp] theorem State.setQueue_chans (s : State) (q : Nat) (x : Queue) : (s.setQueue q x).chans = s.chans := rfl
@[simp] theorem State.setQueue_ports (s : State) (q : Nat) (x : Queue) : (s.setQueue q x).ports = s.ports := rfl
@[simp] theorem State.setQueue_reg (s : State) (q : Nat) (x : Queue) : (s.setQueue q x).reg = s.reg := rfl
@[simp] theorem State.setQueue_die (s : State) (q : Nat) (x : Queue) : (s.setQueue q x).die = s.die := rfl
@[simp] theorem State.setQueue_lines (s : State) (q : Nat) (x : Queue) : (s.setQueue q x).lines = s.lines := rfl
@[simp] theorem State.setQueue_idq (s : State) (q : Nat) (x : Queue) : (s.setQueue q x).idq = s.idq := rfl
@[simp] theorem State.setQueue_dieVer (s : State) (q : Nat) (x : Queue) : (s.setQueue q x).dieVer = s.dieVer := rfl
@[simp] theorem State.setQueue_wbls (s : State) (q : Nat) (x : Queue) : (s.setQueue q x).wbls = s.wbls := rfl
@[simp] theorem State.setQueue_icache (s : State) (q : Nat) (x : Queue) : (s.setQueue q x).icache = s.icache := rfl
@[simp] theorem State.setQueue_llc (s : State) (q : Nat) (x : Queue) : (s.setQueue q x).llc = s.llc := rfl
@[simp] theorem State.setQueue_stamp (s : State) (q : Nat) (x : Queue) : (s.setQueue q x).stamp = s.stamp := rfl
@[simp] theorem State.setQueue_mem (s : State) (q : Nat) (x : Queue) : (s.setQueue q x).mem = s.mem := rfl
@[simp] theorem State.setQueue_hostMem (s : State) (q : Nat) (x : Queue) : (s.setQueue q x).hostMem = s.hostMem := rfl
@[simp] theorem State.setQueue_peerMem (s : State) (q : Nat) (x : Queue) : (s.setQueue q x).peerMem = s.peerMem := rfl
@[simp] theorem State.setQueue_peerW (s : State) (q : Nat) (x : Queue) : (s.setQueue q x).peerW = s.peerW := rfl
@[simp] theorem State.setQueue_peerCopies (s : State) (q : Nat) (x : Queue) : (s.setQueue q x).peerCopies = s.peerCopies := rfl
@[simp] theorem State.setQueue_poison (s : State) (q : Nat) (x : Queue) : (s.setQueue q x).poison = s.poison := rfl
@[simp] theorem State.setQueue_slots (s : State) (q : Nat) (x : Queue) : (s.setQueue q x).slots = s.slots := rfl
@[simp] theorem State.setQueue_tlb (s : State) (q : Nat) (x : Queue) : (s.setQueue q x).tlb = s.tlb := rfl
@[simp] theorem State.setQueue_queues (s : State) (q : Nat) (x : Queue) : (s.setQueue q x).queues = put s.queues q x := rfl
@[simp] theorem State.setQueue_parts (s : State) (q : Nat) (x : Queue) : (s.setQueue q x).parts = s.parts := rfl
@[simp] theorem State.setQueue_places (s : State) (q : Nat) (x : Queue) : (s.setQueue q x).places = s.places := rfl
@[simp] theorem State.setQueue_granules (s : State) (q : Nat) (x : Queue) : (s.setQueue q x).granules = s.granules := rfl
@[simp] theorem State.setQueue_uses (s : State) (q : Nat) (x : Queue) : (s.setQueue q x).uses = s.uses := rfl
@[simp] theorem State.setQueue_logs (s : State) (q : Nat) (x : Queue) : (s.setQueue q x).logs = s.logs := rfl
@[simp] theorem State.setQueue_events (s : State) (q : Nat) (x : Queue) : (s.setQueue q x).events = s.events := rfl
@[simp] theorem State.setQueue_posts (s : State) (q : Nat) (x : Queue) : (s.setQueue q x).posts = s.posts := rfl
@[simp] theorem State.setQueue_selected (s : State) (q : Nat) (x : Queue) : (s.setQueue q x).selected = s.selected := rfl
@[simp] theorem State.setQueue_saved (s : State) (q : Nat) (x : Queue) : (s.setQueue q x).saved = s.saved := rfl
@[simp] theorem State.setQueue_stages (s : State) (q : Nat) (x : Queue) : (s.setQueue q x).stages = s.stages := rfl
@[simp] theorem State.setQueue_recent (s : State) (q : Nat) (x : Queue) : (s.setQueue q x).recent = s.recent := rfl
@[simp] theorem State.setQueue_link (s : State) (q : Nat) (x : Queue) : (s.setQueue q x).link = s.link := rfl
@[simp] theorem State.setQueue_atc (s : State) (q : Nat) (x : Queue) : (s.setQueue q x).atc = s.atc := rfl
@[simp] theorem State.setQueue_ats (s : State) (q : Nat) (x : Queue) : (s.setQueue q x).ats = s.ats := rfl
@[simp] theorem State.setQueue_cxl (s : State) (q : Nat) (x : Queue) : (s.setQueue q x).cxl = s.cxl := rfl
@[simp] theorem State.setQueue_neg (s : State) (q : Nat) (x : Queue) : (s.setQueue q x).neg = s.neg := rfl
@[simp] theorem State.setQueue_shutter (s : State) (q : Nat) (x : Queue) : (s.setQueue q x).shutter = s.shutter := rfl
@[simp] theorem State.setQueue_board (s : State) (q : Nat) (x : Queue) : (s.setQueue q x).board = s.board := rfl
@[simp] theorem State.setQueue_prints (s : State) (q : Nat) (x : Queue) : (s.setQueue q x).prints = s.prints := rfl
@[simp] theorem State.setQueue_invPending (s : State) (q : Nat) (x : Queue) : (s.setQueue q x).invPending = s.invPending := rfl
@[simp] theorem State.setQueue_time (s : State) (q : Nat) (x : Queue) : (s.setQueue q x).time = s.time := rfl
@[simp] theorem State.setQueue_dead (s : State) (q : Nat) (x : Queue) : (s.setQueue q x).dead = s.dead := rfl
@[simp] theorem State.setQueue_cur (s : State) (q : Nat) (x : Queue) : (s.setQueue q x).cur = s.cur := rfl
@[simp] theorem State.setQueue_agenda (s : State) (q : Nat) (x : Queue) : (s.setQueue q x).agenda = s.agenda := rfl
@[simp] theorem State.setQueue_runAhead (s : State) (q : Nat) (x : Queue) : (s.setQueue q x).runAhead = s.runAhead := rfl
@[simp] theorem State.setQueue_tick (s : State) (q : Nat) (x : Queue) : (s.setQueue q x).tick = s.tick := rfl
@[simp] theorem State.setQueue_orders (s : State) (q : Nat) (x : Queue) : (s.setQueue q x).orders = s.orders := rfl

/-! ### setPart -/

@[simp] theorem State.setPart_seqs (s : State) (q : Nat) (x : Part) : (s.setPart q x).seqs = s.seqs := rfl
@[simp] theorem State.setPart_cores (s : State) (q : Nat) (x : Part) : (s.setPart q x).cores = s.cores := rfl
@[simp] theorem State.setPart_chans (s : State) (q : Nat) (x : Part) : (s.setPart q x).chans = s.chans := rfl
@[simp] theorem State.setPart_ports (s : State) (q : Nat) (x : Part) : (s.setPart q x).ports = s.ports := rfl
@[simp] theorem State.setPart_reg (s : State) (q : Nat) (x : Part) : (s.setPart q x).reg = s.reg := rfl
@[simp] theorem State.setPart_die (s : State) (q : Nat) (x : Part) : (s.setPart q x).die = s.die := rfl
@[simp] theorem State.setPart_lines (s : State) (q : Nat) (x : Part) : (s.setPart q x).lines = s.lines := rfl
@[simp] theorem State.setPart_idq (s : State) (q : Nat) (x : Part) : (s.setPart q x).idq = s.idq := rfl
@[simp] theorem State.setPart_dieVer (s : State) (q : Nat) (x : Part) : (s.setPart q x).dieVer = s.dieVer := rfl
@[simp] theorem State.setPart_wbls (s : State) (q : Nat) (x : Part) : (s.setPart q x).wbls = s.wbls := rfl
@[simp] theorem State.setPart_icache (s : State) (q : Nat) (x : Part) : (s.setPart q x).icache = s.icache := rfl
@[simp] theorem State.setPart_llc (s : State) (q : Nat) (x : Part) : (s.setPart q x).llc = s.llc := rfl
@[simp] theorem State.setPart_stamp (s : State) (q : Nat) (x : Part) : (s.setPart q x).stamp = s.stamp := rfl
@[simp] theorem State.setPart_mem (s : State) (q : Nat) (x : Part) : (s.setPart q x).mem = s.mem := rfl
@[simp] theorem State.setPart_hostMem (s : State) (q : Nat) (x : Part) : (s.setPart q x).hostMem = s.hostMem := rfl
@[simp] theorem State.setPart_peerMem (s : State) (q : Nat) (x : Part) : (s.setPart q x).peerMem = s.peerMem := rfl
@[simp] theorem State.setPart_peerW (s : State) (q : Nat) (x : Part) : (s.setPart q x).peerW = s.peerW := rfl
@[simp] theorem State.setPart_peerCopies (s : State) (q : Nat) (x : Part) : (s.setPart q x).peerCopies = s.peerCopies := rfl
@[simp] theorem State.setPart_poison (s : State) (q : Nat) (x : Part) : (s.setPart q x).poison = s.poison := rfl
@[simp] theorem State.setPart_slots (s : State) (q : Nat) (x : Part) : (s.setPart q x).slots = s.slots := rfl
@[simp] theorem State.setPart_tlb (s : State) (q : Nat) (x : Part) : (s.setPart q x).tlb = s.tlb := rfl
@[simp] theorem State.setPart_queues (s : State) (q : Nat) (x : Part) : (s.setPart q x).queues = s.queues := rfl
@[simp] theorem State.setPart_parts (s : State) (q : Nat) (x : Part) : (s.setPart q x).parts = put s.parts q x := rfl
@[simp] theorem State.setPart_places (s : State) (q : Nat) (x : Part) : (s.setPart q x).places = s.places := rfl
@[simp] theorem State.setPart_granules (s : State) (q : Nat) (x : Part) : (s.setPart q x).granules = s.granules := rfl
@[simp] theorem State.setPart_uses (s : State) (q : Nat) (x : Part) : (s.setPart q x).uses = s.uses := rfl
@[simp] theorem State.setPart_logs (s : State) (q : Nat) (x : Part) : (s.setPart q x).logs = s.logs := rfl
@[simp] theorem State.setPart_events (s : State) (q : Nat) (x : Part) : (s.setPart q x).events = s.events := rfl
@[simp] theorem State.setPart_posts (s : State) (q : Nat) (x : Part) : (s.setPart q x).posts = s.posts := rfl
@[simp] theorem State.setPart_selected (s : State) (q : Nat) (x : Part) : (s.setPart q x).selected = s.selected := rfl
@[simp] theorem State.setPart_saved (s : State) (q : Nat) (x : Part) : (s.setPart q x).saved = s.saved := rfl
@[simp] theorem State.setPart_stages (s : State) (q : Nat) (x : Part) : (s.setPart q x).stages = s.stages := rfl
@[simp] theorem State.setPart_recent (s : State) (q : Nat) (x : Part) : (s.setPart q x).recent = s.recent := rfl
@[simp] theorem State.setPart_link (s : State) (q : Nat) (x : Part) : (s.setPart q x).link = s.link := rfl
@[simp] theorem State.setPart_atc (s : State) (q : Nat) (x : Part) : (s.setPart q x).atc = s.atc := rfl
@[simp] theorem State.setPart_ats (s : State) (q : Nat) (x : Part) : (s.setPart q x).ats = s.ats := rfl
@[simp] theorem State.setPart_cxl (s : State) (q : Nat) (x : Part) : (s.setPart q x).cxl = s.cxl := rfl
@[simp] theorem State.setPart_neg (s : State) (q : Nat) (x : Part) : (s.setPart q x).neg = s.neg := rfl
@[simp] theorem State.setPart_shutter (s : State) (q : Nat) (x : Part) : (s.setPart q x).shutter = s.shutter := rfl
@[simp] theorem State.setPart_board (s : State) (q : Nat) (x : Part) : (s.setPart q x).board = s.board := rfl
@[simp] theorem State.setPart_prints (s : State) (q : Nat) (x : Part) : (s.setPart q x).prints = s.prints := rfl
@[simp] theorem State.setPart_invPending (s : State) (q : Nat) (x : Part) : (s.setPart q x).invPending = s.invPending := rfl
@[simp] theorem State.setPart_time (s : State) (q : Nat) (x : Part) : (s.setPart q x).time = s.time := rfl
@[simp] theorem State.setPart_dead (s : State) (q : Nat) (x : Part) : (s.setPart q x).dead = s.dead := rfl
@[simp] theorem State.setPart_cur (s : State) (q : Nat) (x : Part) : (s.setPart q x).cur = s.cur := rfl
@[simp] theorem State.setPart_agenda (s : State) (q : Nat) (x : Part) : (s.setPart q x).agenda = s.agenda := rfl
@[simp] theorem State.setPart_runAhead (s : State) (q : Nat) (x : Part) : (s.setPart q x).runAhead = s.runAhead := rfl
@[simp] theorem State.setPart_tick (s : State) (q : Nat) (x : Part) : (s.setPart q x).tick = s.tick := rfl
@[simp] theorem State.setPart_orders (s : State) (q : Nat) (x : Part) : (s.setPart q x).orders = s.orders := rfl

/-! ### Ctx.setS -/

@[simp] theorem Ctx.setS_flags (c : Ctx) (n : Nat) (x : Word) : (c.setS n x).flags = c.flags := by unfold Ctx.setS; split <;> rfl
@[simp] theorem Ctx.setS_lfsr (c : Ctx) (n : Nat) (x : Word) : (c.setS n x).lfsr = c.lfsr := by unfold Ctx.setS; split <;> rfl
@[simp] theorem Ctx.setS_cycles (c : Ctx) (n : Nat) (x : Word) : (c.setS n x).cycles = c.cycles := by unfold Ctx.setS; split <;> rfl
@[simp] theorem Ctx.setS_feS (c : Ctx) (n : Nat) (x : Word) : (c.setS n x).feS = c.feS := by unfold Ctx.setS; split <;> rfl
@[simp] theorem Ctx.setS_feV (c : Ctx) (n : Nat) (x : Word) : (c.setS n x).feV = c.feV := by unfold Ctx.setS; split <;> rfl
@[simp] theorem Ctx.setS_feK (c : Ctx) (n : Nat) (x : Word) : (c.setS n x).feK = c.feK := by unfold Ctx.setS; split <;> rfl
@[simp] theorem Ctx.setS_feW (c : Ctx) (n : Nat) (x : Word) : (c.setS n x).feW = c.feW := by unfold Ctx.setS; split <;> rfl
@[simp] theorem Ctx.setS_v (c : Ctx) (n : Nat) (x : Word) : (c.setS n x).v = c.v := by unfold Ctx.setS; split <;> rfl
@[simp] theorem Ctx.setS_k (c : Ctx) (n : Nat) (x : Word) : (c.setS n x).k = c.k := by unfold Ctx.setS; split <;> rfl
@[simp] theorem Ctx.setS_w (c : Ctx) (n : Nat) (x : Word) : (c.setS n x).w = c.w := by unfold Ctx.setS; split <;> rfl
@[simp] theorem Ctx.setS_lflag (c : Ctx) (n : Nat) (x : Word) : (c.setS n x).lflag = c.lflag := by unfold Ctx.setS; split <;> rfl
@[simp] theorem Ctx.setS_lpc (c : Ctx) (n : Nat) (x : Word) : (c.setS n x).lpc = c.lpc := by unfold Ctx.setS; split <;> rfl
@[simp] theorem Ctx.setS_split (c : Ctx) (n : Nat) (x : Word) : (c.setS n x).split = c.split := by unfold Ctx.setS; split <;> rfl
@[simp] theorem Ctx.setS_arrived (c : Ctx) (n : Nat) (x : Word) : (c.setS n x).arrived = c.arrived := by unfold Ctx.setS; split <;> rfl
@[simp] theorem Ctx.setS_lmode (c : Ctx) (n : Nat) (x : Word) : (c.setS n x).lmode = c.lmode := by unfold Ctx.setS; split <;> rfl
@[simp] theorem Ctx.setS_trapv (c : Ctx) (n : Nat) (x : Word) : (c.setS n x).trapv = c.trapv := by unfold Ctx.setS; split <;> rfl
@[simp] theorem Ctx.setS_trapLane (c : Ctx) (n : Nat) (x : Word) : (c.setS n x).trapLane = c.trapLane := by unfold Ctx.setS; split <;> rfl
@[simp] theorem Ctx.setS_handler (c : Ctx) (n : Nat) (x : Word) : (c.setS n x).handler = c.handler := by unfold Ctx.setS; split <;> rfl
@[simp] theorem Ctx.setS_laneTurn (c : Ctx) (n : Nat) (x : Word) : (c.setS n x).laneTurn = c.laneTurn := by unfold Ctx.setS; split <;> rfl
@[simp] theorem Ctx.setS_laneBase (c : Ctx) (n : Nat) (x : Word) : (c.setS n x).laneBase = c.laneBase := by unfold Ctx.setS; split <;> rfl
@[simp] theorem Ctx.setS_laneBuf (c : Ctx) (n : Nat) (x : Word) : (c.setS n x).laneBuf = c.laneBuf := by unfold Ctx.setS; split <;> rfl
@[simp] theorem Ctx.setS_ahead (c : Ctx) (n : Nat) (x : Word) : (c.setS n x).ahead = c.ahead := by unfold Ctx.setS; split <;> rfl
@[simp] theorem Ctx.setS_viq (c : Ctx) (n : Nat) (x : Word) : (c.setS n x).viq = c.viq := by unfold Ctx.setS; split <;> rfl
@[simp] theorem Ctx.setS_run (c : Ctx) (n : Nat) (x : Word) : (c.setS n x).run = c.run := by unfold Ctx.setS; split <;> rfl
@[simp] theorem Ctx.setS_runG (c : Ctx) (n : Nat) (x : Word) : (c.setS n x).runG = c.runG := by unfold Ctx.setS; split <;> rfl
@[simp] theorem Ctx.setS_runArith (c : Ctx) (n : Nat) (x : Word) : (c.setS n x).runArith = c.runArith := by unfold Ctx.setS; split <;> rfl
@[simp] theorem Ctx.setS_runFill (c : Ctx) (n : Nat) (x : Word) : (c.setS n x).runFill = c.runFill := by unfold Ctx.setS; split <;> rfl
@[simp] theorem Ctx.setS_sb (c : Ctx) (n : Nat) (x : Word) : (c.setS n x).sb = c.sb := by unfold Ctx.setS; split <;> rfl
@[simp] theorem Ctx.setS_loads (c : Ctx) (n : Nat) (x : Word) : (c.setS n x).loads = c.loads := by unfold Ctx.setS; split <;> rfl
@[simp] theorem Ctx.setS_divs (c : Ctx) (n : Nat) (x : Word) : (c.setS n x).divs = c.divs := by unfold Ctx.setS; split <;> rfl
@[simp] theorem Ctx.setS_pend (c : Ctx) (n : Nat) (x : Word) : (c.setS n x).pend = c.pend := by unfold Ctx.setS; split <;> rfl
@[simp] theorem Ctx.setS_ord (c : Ctx) (n : Nat) (x : Word) : (c.setS n x).ord = c.ord := by unfold Ctx.setS; split <;> rfl
@[simp] theorem Ctx.setS_state (c : Ctx) (n : Nat) (x : Word) : (c.setS n x).state = c.state := by unfold Ctx.setS; split <;> rfl
@[simp] theorem Ctx.setS_wait (c : Ctx) (n : Nat) (x : Word) : (c.setS n x).wait = c.wait := by unfold Ctx.setS; split <;> rfl
@[simp] theorem Ctx.setS_stepping (c : Ctx) (n : Nat) (x : Word) : (c.setS n x).stepping = c.stepping := by unfold Ctx.setS; split <;> rfl
@[simp] theorem Ctx.setS_stepNeed (c : Ctx) (n : Nat) (x : Word) : (c.setS n x).stepNeed = c.stepNeed := by unfold Ctx.setS; split <;> rfl
@[simp] theorem Ctx.setS_retry (c : Ctx) (n : Nat) (x : Word) : (c.setS n x).retry = c.retry := by unfold Ctx.setS; split <;> rfl
@[simp] theorem Ctx.setS_resume (c : Ctx) (n : Nat) (x : Word) : (c.setS n x).resume = c.resume := by unfold Ctx.setS; split <;> rfl
@[simp] theorem Ctx.setS_vstartF (c : Ctx) (n : Nat) (x : Word) : (c.setS n x).vstartF = c.vstartF := by unfold Ctx.setS; split <;> rfl
@[simp] theorem Ctx.setS_chainF (c : Ctx) (n : Nat) (x : Word) : (c.setS n x).chainF = c.chainF := by unfold Ctx.setS; split <;> rfl
@[simp] theorem Ctx.setS_chainRec (c : Ctx) (n : Nat) (x : Word) : (c.setS n x).chainRec = c.chainRec := by unfold Ctx.setS; split <;> rfl
@[simp] theorem Ctx.setS_awDone (c : Ctx) (n : Nat) (x : Word) : (c.setS n x).awDone = c.awDone := by unfold Ctx.setS; split <;> rfl
@[simp] theorem Ctx.setS_awGen (c : Ctx) (n : Nat) (x : Word) : (c.setS n x).awGen = c.awGen := by unfold Ctx.setS; split <;> rfl
@[simp] theorem Ctx.setS_root (c : Ctx) (n : Nat) (x : Word) : (c.setS n x).root = c.root := by unfold Ctx.setS; split <;> rfl
@[simp] theorem Ctx.setS_space (c : Ctx) (n : Nat) (x : Word) : (c.setS n x).space = c.space := by unfold Ctx.setS; split <;> rfl
@[simp] theorem Ctx.setS_cause (c : Ctx) (n : Nat) (x : Word) : (c.setS n x).cause = c.cause := by unfold Ctx.setS; split <;> rfl
@[simp] theorem Ctx.setS_subcode (c : Ctx) (n : Nat) (x : Word) : (c.setS n x).subcode = c.subcode := by unfold Ctx.setS; split <;> rfl
@[simp] theorem Ctx.setS_cls (c : Ctx) (n : Nat) (x : Word) : (c.setS n x).cls = c.cls := by unfold Ctx.setS; split <;> rfl
@[simp] theorem Ctx.setS_faultAddr (c : Ctx) (n : Nat) (x : Word) : (c.setS n x).faultAddr = c.faultAddr := by unfold Ctx.setS; split <;> rfl
@[simp] theorem Ctx.setS_keeper (c : Ctx) (n : Nat) (x : Word) : (c.setS n x).keeper = c.keeper := by unfold Ctx.setS; split <;> rfl
@[simp] theorem Ctx.setS_kv (c : Ctx) (n : Nat) (x : Word) : (c.setS n x).kv = c.kv := by unfold Ctx.setS; split <;> rfl
@[simp] theorem Ctx.setS_task (c : Ctx) (n : Nat) (x : Word) : (c.setS n x).task = c.task := by unfold Ctx.setS; split <;> rfl
@[simp] theorem Ctx.setS_free (c : Ctx) (n : Nat) (x : Word) : (c.setS n x).free = c.free := by unfold Ctx.setS; split <;> rfl
@[simp] theorem Ctx.setS_reserved (c : Ctx) (n : Nat) (x : Word) : (c.setS n x).reserved = c.reserved := by unfold Ctx.setS; split <;> rfl
@[simp] theorem Ctx.setS_sliceUsed (c : Ctx) (n : Nat) (x : Word) : (c.setS n x).sliceUsed = c.sliceUsed := by unfold Ctx.setS; split <;> rfl
@[simp] theorem Ctx.setS_worked (c : Ctx) (n : Nat) (x : Word) : (c.setS n x).worked = c.worked := by unfold Ctx.setS; split <;> rfl
@[simp] theorem Ctx.setS_beats (c : Ctx) (n : Nat) (x : Word) : (c.setS n x).beats = c.beats := by unfold Ctx.setS; split <;> rfl
@[simp] theorem Ctx.setS_mcSent (c : Ctx) (n : Nat) (x : Word) : (c.setS n x).mcSent = c.mcSent := by unfold Ctx.setS; split <;> rfl

/-! ### Ctx.setK -/

@[simp] theorem Ctx.setK_sc (c : Ctx) (n : Nat) (x : BitVec 8192) : (c.setK n x).sc = c.sc := by unfold Ctx.setK; split <;> rfl
@[simp] theorem Ctx.setK_flags (c : Ctx) (n : Nat) (x : BitVec 8192) : (c.setK n x).flags = c.flags := by unfold Ctx.setK; split <;> rfl
@[simp] theorem Ctx.setK_lfsr (c : Ctx) (n : Nat) (x : BitVec 8192) : (c.setK n x).lfsr = c.lfsr := by unfold Ctx.setK; split <;> rfl
@[simp] theorem Ctx.setK_cycles (c : Ctx) (n : Nat) (x : BitVec 8192) : (c.setK n x).cycles = c.cycles := by unfold Ctx.setK; split <;> rfl
@[simp] theorem Ctx.setK_feS (c : Ctx) (n : Nat) (x : BitVec 8192) : (c.setK n x).feS = c.feS := by unfold Ctx.setK; split <;> rfl
@[simp] theorem Ctx.setK_feV (c : Ctx) (n : Nat) (x : BitVec 8192) : (c.setK n x).feV = c.feV := by unfold Ctx.setK; split <;> rfl
@[simp] theorem Ctx.setK_feK (c : Ctx) (n : Nat) (x : BitVec 8192) : (c.setK n x).feK = c.feK := by unfold Ctx.setK; split <;> rfl
@[simp] theorem Ctx.setK_feW (c : Ctx) (n : Nat) (x : BitVec 8192) : (c.setK n x).feW = c.feW := by unfold Ctx.setK; split <;> rfl
@[simp] theorem Ctx.setK_v (c : Ctx) (n : Nat) (x : BitVec 8192) : (c.setK n x).v = c.v := by unfold Ctx.setK; split <;> rfl
@[simp] theorem Ctx.setK_w (c : Ctx) (n : Nat) (x : BitVec 8192) : (c.setK n x).w = c.w := by unfold Ctx.setK; split <;> rfl
@[simp] theorem Ctx.setK_lflag (c : Ctx) (n : Nat) (x : BitVec 8192) : (c.setK n x).lflag = c.lflag := by unfold Ctx.setK; split <;> rfl
@[simp] theorem Ctx.setK_lpc (c : Ctx) (n : Nat) (x : BitVec 8192) : (c.setK n x).lpc = c.lpc := by unfold Ctx.setK; split <;> rfl
@[simp] theorem Ctx.setK_split (c : Ctx) (n : Nat) (x : BitVec 8192) : (c.setK n x).split = c.split := by unfold Ctx.setK; split <;> rfl
@[simp] theorem Ctx.setK_arrived (c : Ctx) (n : Nat) (x : BitVec 8192) : (c.setK n x).arrived = c.arrived := by unfold Ctx.setK; split <;> rfl
@[simp] theorem Ctx.setK_lmode (c : Ctx) (n : Nat) (x : BitVec 8192) : (c.setK n x).lmode = c.lmode := by unfold Ctx.setK; split <;> rfl
@[simp] theorem Ctx.setK_trapv (c : Ctx) (n : Nat) (x : BitVec 8192) : (c.setK n x).trapv = c.trapv := by unfold Ctx.setK; split <;> rfl
@[simp] theorem Ctx.setK_trapLane (c : Ctx) (n : Nat) (x : BitVec 8192) : (c.setK n x).trapLane = c.trapLane := by unfold Ctx.setK; split <;> rfl
@[simp] theorem Ctx.setK_handler (c : Ctx) (n : Nat) (x : BitVec 8192) : (c.setK n x).handler = c.handler := by unfold Ctx.setK; split <;> rfl
@[simp] theorem Ctx.setK_laneTurn (c : Ctx) (n : Nat) (x : BitVec 8192) : (c.setK n x).laneTurn = c.laneTurn := by unfold Ctx.setK; split <;> rfl
@[simp] theorem Ctx.setK_laneBase (c : Ctx) (n : Nat) (x : BitVec 8192) : (c.setK n x).laneBase = c.laneBase := by unfold Ctx.setK; split <;> rfl
@[simp] theorem Ctx.setK_laneBuf (c : Ctx) (n : Nat) (x : BitVec 8192) : (c.setK n x).laneBuf = c.laneBuf := by unfold Ctx.setK; split <;> rfl
@[simp] theorem Ctx.setK_ahead (c : Ctx) (n : Nat) (x : BitVec 8192) : (c.setK n x).ahead = c.ahead := by unfold Ctx.setK; split <;> rfl
@[simp] theorem Ctx.setK_viq (c : Ctx) (n : Nat) (x : BitVec 8192) : (c.setK n x).viq = c.viq := by unfold Ctx.setK; split <;> rfl
@[simp] theorem Ctx.setK_run (c : Ctx) (n : Nat) (x : BitVec 8192) : (c.setK n x).run = c.run := by unfold Ctx.setK; split <;> rfl
@[simp] theorem Ctx.setK_runG (c : Ctx) (n : Nat) (x : BitVec 8192) : (c.setK n x).runG = c.runG := by unfold Ctx.setK; split <;> rfl
@[simp] theorem Ctx.setK_runArith (c : Ctx) (n : Nat) (x : BitVec 8192) : (c.setK n x).runArith = c.runArith := by unfold Ctx.setK; split <;> rfl
@[simp] theorem Ctx.setK_runFill (c : Ctx) (n : Nat) (x : BitVec 8192) : (c.setK n x).runFill = c.runFill := by unfold Ctx.setK; split <;> rfl
@[simp] theorem Ctx.setK_sb (c : Ctx) (n : Nat) (x : BitVec 8192) : (c.setK n x).sb = c.sb := by unfold Ctx.setK; split <;> rfl
@[simp] theorem Ctx.setK_loads (c : Ctx) (n : Nat) (x : BitVec 8192) : (c.setK n x).loads = c.loads := by unfold Ctx.setK; split <;> rfl
@[simp] theorem Ctx.setK_divs (c : Ctx) (n : Nat) (x : BitVec 8192) : (c.setK n x).divs = c.divs := by unfold Ctx.setK; split <;> rfl
@[simp] theorem Ctx.setK_pend (c : Ctx) (n : Nat) (x : BitVec 8192) : (c.setK n x).pend = c.pend := by unfold Ctx.setK; split <;> rfl
@[simp] theorem Ctx.setK_ord (c : Ctx) (n : Nat) (x : BitVec 8192) : (c.setK n x).ord = c.ord := by unfold Ctx.setK; split <;> rfl
@[simp] theorem Ctx.setK_state (c : Ctx) (n : Nat) (x : BitVec 8192) : (c.setK n x).state = c.state := by unfold Ctx.setK; split <;> rfl
@[simp] theorem Ctx.setK_wait (c : Ctx) (n : Nat) (x : BitVec 8192) : (c.setK n x).wait = c.wait := by unfold Ctx.setK; split <;> rfl
@[simp] theorem Ctx.setK_stepping (c : Ctx) (n : Nat) (x : BitVec 8192) : (c.setK n x).stepping = c.stepping := by unfold Ctx.setK; split <;> rfl
@[simp] theorem Ctx.setK_stepNeed (c : Ctx) (n : Nat) (x : BitVec 8192) : (c.setK n x).stepNeed = c.stepNeed := by unfold Ctx.setK; split <;> rfl
@[simp] theorem Ctx.setK_retry (c : Ctx) (n : Nat) (x : BitVec 8192) : (c.setK n x).retry = c.retry := by unfold Ctx.setK; split <;> rfl
@[simp] theorem Ctx.setK_resume (c : Ctx) (n : Nat) (x : BitVec 8192) : (c.setK n x).resume = c.resume := by unfold Ctx.setK; split <;> rfl
@[simp] theorem Ctx.setK_vstartF (c : Ctx) (n : Nat) (x : BitVec 8192) : (c.setK n x).vstartF = c.vstartF := by unfold Ctx.setK; split <;> rfl
@[simp] theorem Ctx.setK_chainF (c : Ctx) (n : Nat) (x : BitVec 8192) : (c.setK n x).chainF = c.chainF := by unfold Ctx.setK; split <;> rfl
@[simp] theorem Ctx.setK_chainRec (c : Ctx) (n : Nat) (x : BitVec 8192) : (c.setK n x).chainRec = c.chainRec := by unfold Ctx.setK; split <;> rfl
@[simp] theorem Ctx.setK_awDone (c : Ctx) (n : Nat) (x : BitVec 8192) : (c.setK n x).awDone = c.awDone := by unfold Ctx.setK; split <;> rfl
@[simp] theorem Ctx.setK_awGen (c : Ctx) (n : Nat) (x : BitVec 8192) : (c.setK n x).awGen = c.awGen := by unfold Ctx.setK; split <;> rfl
@[simp] theorem Ctx.setK_root (c : Ctx) (n : Nat) (x : BitVec 8192) : (c.setK n x).root = c.root := by unfold Ctx.setK; split <;> rfl
@[simp] theorem Ctx.setK_space (c : Ctx) (n : Nat) (x : BitVec 8192) : (c.setK n x).space = c.space := by unfold Ctx.setK; split <;> rfl
@[simp] theorem Ctx.setK_cause (c : Ctx) (n : Nat) (x : BitVec 8192) : (c.setK n x).cause = c.cause := by unfold Ctx.setK; split <;> rfl
@[simp] theorem Ctx.setK_subcode (c : Ctx) (n : Nat) (x : BitVec 8192) : (c.setK n x).subcode = c.subcode := by unfold Ctx.setK; split <;> rfl
@[simp] theorem Ctx.setK_cls (c : Ctx) (n : Nat) (x : BitVec 8192) : (c.setK n x).cls = c.cls := by unfold Ctx.setK; split <;> rfl
@[simp] theorem Ctx.setK_faultAddr (c : Ctx) (n : Nat) (x : BitVec 8192) : (c.setK n x).faultAddr = c.faultAddr := by unfold Ctx.setK; split <;> rfl
@[simp] theorem Ctx.setK_keeper (c : Ctx) (n : Nat) (x : BitVec 8192) : (c.setK n x).keeper = c.keeper := by unfold Ctx.setK; split <;> rfl
@[simp] theorem Ctx.setK_kv (c : Ctx) (n : Nat) (x : BitVec 8192) : (c.setK n x).kv = c.kv := by unfold Ctx.setK; split <;> rfl
@[simp] theorem Ctx.setK_task (c : Ctx) (n : Nat) (x : BitVec 8192) : (c.setK n x).task = c.task := by unfold Ctx.setK; split <;> rfl
@[simp] theorem Ctx.setK_free (c : Ctx) (n : Nat) (x : BitVec 8192) : (c.setK n x).free = c.free := by unfold Ctx.setK; split <;> rfl
@[simp] theorem Ctx.setK_reserved (c : Ctx) (n : Nat) (x : BitVec 8192) : (c.setK n x).reserved = c.reserved := by unfold Ctx.setK; split <;> rfl
@[simp] theorem Ctx.setK_sliceUsed (c : Ctx) (n : Nat) (x : BitVec 8192) : (c.setK n x).sliceUsed = c.sliceUsed := by unfold Ctx.setK; split <;> rfl
@[simp] theorem Ctx.setK_worked (c : Ctx) (n : Nat) (x : BitVec 8192) : (c.setK n x).worked = c.worked := by unfold Ctx.setK; split <;> rfl
@[simp] theorem Ctx.setK_beats (c : Ctx) (n : Nat) (x : BitVec 8192) : (c.setK n x).beats = c.beats := by unfold Ctx.setK; split <;> rfl
@[simp] theorem Ctx.setK_mcSent (c : Ctx) (n : Nat) (x : BitVec 8192) : (c.setK n x).mcSent = c.mcSent := by unfold Ctx.setK; split <;> rfl

/-! ### Ctx.setSlot -/

@[simp] theorem Ctx.setSlot_sc (c : Ctx) (l r : Nat) (x : Word) : (c.setSlot l r x).sc = c.sc := rfl
@[simp] theorem Ctx.setSlot_flags (c : Ctx) (l r : Nat) (x : Word) : (c.setSlot l r x).flags = c.flags := rfl
@[simp] theorem Ctx.setSlot_lfsr (c : Ctx) (l r : Nat) (x : Word) : (c.setSlot l r x).lfsr = c.lfsr := rfl
@[simp] theorem Ctx.setSlot_cycles (c : Ctx) (l r : Nat) (x : Word) : (c.setSlot l r x).cycles = c.cycles := rfl
@[simp] theorem Ctx.setSlot_feS (c : Ctx) (l r : Nat) (x : Word) : (c.setSlot l r x).feS = c.feS := rfl
@[simp] theorem Ctx.setSlot_feV (c : Ctx) (l r : Nat) (x : Word) : (c.setSlot l r x).feV = c.feV := rfl
@[simp] theorem Ctx.setSlot_feK (c : Ctx) (l r : Nat) (x : Word) : (c.setSlot l r x).feK = c.feK := rfl
@[simp] theorem Ctx.setSlot_feW (c : Ctx) (l r : Nat) (x : Word) : (c.setSlot l r x).feW = c.feW := rfl
@[simp] theorem Ctx.setSlot_k (c : Ctx) (l r : Nat) (x : Word) : (c.setSlot l r x).k = c.k := rfl
@[simp] theorem Ctx.setSlot_w (c : Ctx) (l r : Nat) (x : Word) : (c.setSlot l r x).w = c.w := rfl
@[simp] theorem Ctx.setSlot_lflag (c : Ctx) (l r : Nat) (x : Word) : (c.setSlot l r x).lflag = c.lflag := rfl
@[simp] theorem Ctx.setSlot_lpc (c : Ctx) (l r : Nat) (x : Word) : (c.setSlot l r x).lpc = c.lpc := rfl
@[simp] theorem Ctx.setSlot_split (c : Ctx) (l r : Nat) (x : Word) : (c.setSlot l r x).split = c.split := rfl
@[simp] theorem Ctx.setSlot_arrived (c : Ctx) (l r : Nat) (x : Word) : (c.setSlot l r x).arrived = c.arrived := rfl
@[simp] theorem Ctx.setSlot_lmode (c : Ctx) (l r : Nat) (x : Word) : (c.setSlot l r x).lmode = c.lmode := rfl
@[simp] theorem Ctx.setSlot_trapv (c : Ctx) (l r : Nat) (x : Word) : (c.setSlot l r x).trapv = c.trapv := rfl
@[simp] theorem Ctx.setSlot_trapLane (c : Ctx) (l r : Nat) (x : Word) : (c.setSlot l r x).trapLane = c.trapLane := rfl
@[simp] theorem Ctx.setSlot_handler (c : Ctx) (l r : Nat) (x : Word) : (c.setSlot l r x).handler = c.handler := rfl
@[simp] theorem Ctx.setSlot_laneTurn (c : Ctx) (l r : Nat) (x : Word) : (c.setSlot l r x).laneTurn = c.laneTurn := rfl
@[simp] theorem Ctx.setSlot_laneBase (c : Ctx) (l r : Nat) (x : Word) : (c.setSlot l r x).laneBase = c.laneBase := rfl
@[simp] theorem Ctx.setSlot_laneBuf (c : Ctx) (l r : Nat) (x : Word) : (c.setSlot l r x).laneBuf = c.laneBuf := rfl
@[simp] theorem Ctx.setSlot_ahead (c : Ctx) (l r : Nat) (x : Word) : (c.setSlot l r x).ahead = c.ahead := rfl
@[simp] theorem Ctx.setSlot_viq (c : Ctx) (l r : Nat) (x : Word) : (c.setSlot l r x).viq = c.viq := rfl
@[simp] theorem Ctx.setSlot_run (c : Ctx) (l r : Nat) (x : Word) : (c.setSlot l r x).run = c.run := rfl
@[simp] theorem Ctx.setSlot_runG (c : Ctx) (l r : Nat) (x : Word) : (c.setSlot l r x).runG = c.runG := rfl
@[simp] theorem Ctx.setSlot_runArith (c : Ctx) (l r : Nat) (x : Word) : (c.setSlot l r x).runArith = c.runArith := rfl
@[simp] theorem Ctx.setSlot_runFill (c : Ctx) (l r : Nat) (x : Word) : (c.setSlot l r x).runFill = c.runFill := rfl
@[simp] theorem Ctx.setSlot_sb (c : Ctx) (l r : Nat) (x : Word) : (c.setSlot l r x).sb = c.sb := rfl
@[simp] theorem Ctx.setSlot_loads (c : Ctx) (l r : Nat) (x : Word) : (c.setSlot l r x).loads = c.loads := rfl
@[simp] theorem Ctx.setSlot_divs (c : Ctx) (l r : Nat) (x : Word) : (c.setSlot l r x).divs = c.divs := rfl
@[simp] theorem Ctx.setSlot_pend (c : Ctx) (l r : Nat) (x : Word) : (c.setSlot l r x).pend = c.pend := rfl
@[simp] theorem Ctx.setSlot_ord (c : Ctx) (l r : Nat) (x : Word) : (c.setSlot l r x).ord = c.ord := rfl
@[simp] theorem Ctx.setSlot_state (c : Ctx) (l r : Nat) (x : Word) : (c.setSlot l r x).state = c.state := rfl
@[simp] theorem Ctx.setSlot_wait (c : Ctx) (l r : Nat) (x : Word) : (c.setSlot l r x).wait = c.wait := rfl
@[simp] theorem Ctx.setSlot_stepping (c : Ctx) (l r : Nat) (x : Word) : (c.setSlot l r x).stepping = c.stepping := rfl
@[simp] theorem Ctx.setSlot_stepNeed (c : Ctx) (l r : Nat) (x : Word) : (c.setSlot l r x).stepNeed = c.stepNeed := rfl
@[simp] theorem Ctx.setSlot_retry (c : Ctx) (l r : Nat) (x : Word) : (c.setSlot l r x).retry = c.retry := rfl
@[simp] theorem Ctx.setSlot_resume (c : Ctx) (l r : Nat) (x : Word) : (c.setSlot l r x).resume = c.resume := rfl
@[simp] theorem Ctx.setSlot_vstartF (c : Ctx) (l r : Nat) (x : Word) : (c.setSlot l r x).vstartF = c.vstartF := rfl
@[simp] theorem Ctx.setSlot_chainF (c : Ctx) (l r : Nat) (x : Word) : (c.setSlot l r x).chainF = c.chainF := rfl
@[simp] theorem Ctx.setSlot_chainRec (c : Ctx) (l r : Nat) (x : Word) : (c.setSlot l r x).chainRec = c.chainRec := rfl
@[simp] theorem Ctx.setSlot_awDone (c : Ctx) (l r : Nat) (x : Word) : (c.setSlot l r x).awDone = c.awDone := rfl
@[simp] theorem Ctx.setSlot_awGen (c : Ctx) (l r : Nat) (x : Word) : (c.setSlot l r x).awGen = c.awGen := rfl
@[simp] theorem Ctx.setSlot_root (c : Ctx) (l r : Nat) (x : Word) : (c.setSlot l r x).root = c.root := rfl
@[simp] theorem Ctx.setSlot_space (c : Ctx) (l r : Nat) (x : Word) : (c.setSlot l r x).space = c.space := rfl
@[simp] theorem Ctx.setSlot_cause (c : Ctx) (l r : Nat) (x : Word) : (c.setSlot l r x).cause = c.cause := rfl
@[simp] theorem Ctx.setSlot_subcode (c : Ctx) (l r : Nat) (x : Word) : (c.setSlot l r x).subcode = c.subcode := rfl
@[simp] theorem Ctx.setSlot_cls (c : Ctx) (l r : Nat) (x : Word) : (c.setSlot l r x).cls = c.cls := rfl
@[simp] theorem Ctx.setSlot_faultAddr (c : Ctx) (l r : Nat) (x : Word) : (c.setSlot l r x).faultAddr = c.faultAddr := rfl
@[simp] theorem Ctx.setSlot_keeper (c : Ctx) (l r : Nat) (x : Word) : (c.setSlot l r x).keeper = c.keeper := rfl
@[simp] theorem Ctx.setSlot_kv (c : Ctx) (l r : Nat) (x : Word) : (c.setSlot l r x).kv = c.kv := rfl
@[simp] theorem Ctx.setSlot_task (c : Ctx) (l r : Nat) (x : Word) : (c.setSlot l r x).task = c.task := rfl
@[simp] theorem Ctx.setSlot_free (c : Ctx) (l r : Nat) (x : Word) : (c.setSlot l r x).free = c.free := rfl
@[simp] theorem Ctx.setSlot_reserved (c : Ctx) (l r : Nat) (x : Word) : (c.setSlot l r x).reserved = c.reserved := rfl
@[simp] theorem Ctx.setSlot_sliceUsed (c : Ctx) (l r : Nat) (x : Word) : (c.setSlot l r x).sliceUsed = c.sliceUsed := rfl
@[simp] theorem Ctx.setSlot_worked (c : Ctx) (l r : Nat) (x : Word) : (c.setSlot l r x).worked = c.worked := rfl
@[simp] theorem Ctx.setSlot_beats (c : Ctx) (l r : Nat) (x : Word) : (c.setSlot l r x).beats = c.beats := rfl
@[simp] theorem Ctx.setSlot_mcSent (c : Ctx) (l r : Nat) (x : Word) : (c.setSlot l r x).mcSent = c.mcSent := rfl

/-! ### Ctx.put -/

@[simp] theorem Ctx.put_flags (c : Ctx) (r : Nat) (x : Word) : (c.put r x).flags = c.flags := by unfold Ctx.put; split <;> simp
@[simp] theorem Ctx.put_lfsr (c : Ctx) (r : Nat) (x : Word) : (c.put r x).lfsr = c.lfsr := by unfold Ctx.put; split <;> simp
@[simp] theorem Ctx.put_cycles (c : Ctx) (r : Nat) (x : Word) : (c.put r x).cycles = c.cycles := by unfold Ctx.put; split <;> simp
@[simp] theorem Ctx.put_feS (c : Ctx) (r : Nat) (x : Word) : (c.put r x).feS = c.feS := by unfold Ctx.put; split <;> simp
@[simp] theorem Ctx.put_feV (c : Ctx) (r : Nat) (x : Word) : (c.put r x).feV = c.feV := by unfold Ctx.put; split <;> simp
@[simp] theorem Ctx.put_feK (c : Ctx) (r : Nat) (x : Word) : (c.put r x).feK = c.feK := by unfold Ctx.put; split <;> simp
@[simp] theorem Ctx.put_feW (c : Ctx) (r : Nat) (x : Word) : (c.put r x).feW = c.feW := by unfold Ctx.put; split <;> simp
@[simp] theorem Ctx.put_k (c : Ctx) (r : Nat) (x : Word) : (c.put r x).k = c.k := by unfold Ctx.put; split <;> simp
@[simp] theorem Ctx.put_w (c : Ctx) (r : Nat) (x : Word) : (c.put r x).w = c.w := by unfold Ctx.put; split <;> simp
@[simp] theorem Ctx.put_lflag (c : Ctx) (r : Nat) (x : Word) : (c.put r x).lflag = c.lflag := by unfold Ctx.put; split <;> simp
@[simp] theorem Ctx.put_lpc (c : Ctx) (r : Nat) (x : Word) : (c.put r x).lpc = c.lpc := by unfold Ctx.put; split <;> simp
@[simp] theorem Ctx.put_split (c : Ctx) (r : Nat) (x : Word) : (c.put r x).split = c.split := by unfold Ctx.put; split <;> simp
@[simp] theorem Ctx.put_arrived (c : Ctx) (r : Nat) (x : Word) : (c.put r x).arrived = c.arrived := by unfold Ctx.put; split <;> simp
@[simp] theorem Ctx.put_lmode (c : Ctx) (r : Nat) (x : Word) : (c.put r x).lmode = c.lmode := by unfold Ctx.put; split <;> simp
@[simp] theorem Ctx.put_trapv (c : Ctx) (r : Nat) (x : Word) : (c.put r x).trapv = c.trapv := by unfold Ctx.put; split <;> simp
@[simp] theorem Ctx.put_trapLane (c : Ctx) (r : Nat) (x : Word) : (c.put r x).trapLane = c.trapLane := by unfold Ctx.put; split <;> simp
@[simp] theorem Ctx.put_handler (c : Ctx) (r : Nat) (x : Word) : (c.put r x).handler = c.handler := by unfold Ctx.put; split <;> simp
@[simp] theorem Ctx.put_laneTurn (c : Ctx) (r : Nat) (x : Word) : (c.put r x).laneTurn = c.laneTurn := by unfold Ctx.put; split <;> simp
@[simp] theorem Ctx.put_laneBase (c : Ctx) (r : Nat) (x : Word) : (c.put r x).laneBase = c.laneBase := by unfold Ctx.put; split <;> simp
@[simp] theorem Ctx.put_laneBuf (c : Ctx) (r : Nat) (x : Word) : (c.put r x).laneBuf = c.laneBuf := by unfold Ctx.put; split <;> simp
@[simp] theorem Ctx.put_ahead (c : Ctx) (r : Nat) (x : Word) : (c.put r x).ahead = c.ahead := by unfold Ctx.put; split <;> simp
@[simp] theorem Ctx.put_viq (c : Ctx) (r : Nat) (x : Word) : (c.put r x).viq = c.viq := by unfold Ctx.put; split <;> simp
@[simp] theorem Ctx.put_run (c : Ctx) (r : Nat) (x : Word) : (c.put r x).run = c.run := by unfold Ctx.put; split <;> simp
@[simp] theorem Ctx.put_runG (c : Ctx) (r : Nat) (x : Word) : (c.put r x).runG = c.runG := by unfold Ctx.put; split <;> simp
@[simp] theorem Ctx.put_runArith (c : Ctx) (r : Nat) (x : Word) : (c.put r x).runArith = c.runArith := by unfold Ctx.put; split <;> simp
@[simp] theorem Ctx.put_runFill (c : Ctx) (r : Nat) (x : Word) : (c.put r x).runFill = c.runFill := by unfold Ctx.put; split <;> simp
@[simp] theorem Ctx.put_sb (c : Ctx) (r : Nat) (x : Word) : (c.put r x).sb = c.sb := by unfold Ctx.put; split <;> simp
@[simp] theorem Ctx.put_loads (c : Ctx) (r : Nat) (x : Word) : (c.put r x).loads = c.loads := by unfold Ctx.put; split <;> simp
@[simp] theorem Ctx.put_divs (c : Ctx) (r : Nat) (x : Word) : (c.put r x).divs = c.divs := by unfold Ctx.put; split <;> simp
@[simp] theorem Ctx.put_pend (c : Ctx) (r : Nat) (x : Word) : (c.put r x).pend = c.pend := by unfold Ctx.put; split <;> simp
@[simp] theorem Ctx.put_ord (c : Ctx) (r : Nat) (x : Word) : (c.put r x).ord = c.ord := by unfold Ctx.put; split <;> simp
@[simp] theorem Ctx.put_state (c : Ctx) (r : Nat) (x : Word) : (c.put r x).state = c.state := by unfold Ctx.put; split <;> simp
@[simp] theorem Ctx.put_wait (c : Ctx) (r : Nat) (x : Word) : (c.put r x).wait = c.wait := by unfold Ctx.put; split <;> simp
@[simp] theorem Ctx.put_stepping (c : Ctx) (r : Nat) (x : Word) : (c.put r x).stepping = c.stepping := by unfold Ctx.put; split <;> simp
@[simp] theorem Ctx.put_stepNeed (c : Ctx) (r : Nat) (x : Word) : (c.put r x).stepNeed = c.stepNeed := by unfold Ctx.put; split <;> simp
@[simp] theorem Ctx.put_retry (c : Ctx) (r : Nat) (x : Word) : (c.put r x).retry = c.retry := by unfold Ctx.put; split <;> simp
@[simp] theorem Ctx.put_resume (c : Ctx) (r : Nat) (x : Word) : (c.put r x).resume = c.resume := by unfold Ctx.put; split <;> simp
@[simp] theorem Ctx.put_vstartF (c : Ctx) (r : Nat) (x : Word) : (c.put r x).vstartF = c.vstartF := by unfold Ctx.put; split <;> simp
@[simp] theorem Ctx.put_chainF (c : Ctx) (r : Nat) (x : Word) : (c.put r x).chainF = c.chainF := by unfold Ctx.put; split <;> simp
@[simp] theorem Ctx.put_chainRec (c : Ctx) (r : Nat) (x : Word) : (c.put r x).chainRec = c.chainRec := by unfold Ctx.put; split <;> simp
@[simp] theorem Ctx.put_awDone (c : Ctx) (r : Nat) (x : Word) : (c.put r x).awDone = c.awDone := by unfold Ctx.put; split <;> simp
@[simp] theorem Ctx.put_awGen (c : Ctx) (r : Nat) (x : Word) : (c.put r x).awGen = c.awGen := by unfold Ctx.put; split <;> simp
@[simp] theorem Ctx.put_root (c : Ctx) (r : Nat) (x : Word) : (c.put r x).root = c.root := by unfold Ctx.put; split <;> simp
@[simp] theorem Ctx.put_space (c : Ctx) (r : Nat) (x : Word) : (c.put r x).space = c.space := by unfold Ctx.put; split <;> simp
@[simp] theorem Ctx.put_cause (c : Ctx) (r : Nat) (x : Word) : (c.put r x).cause = c.cause := by unfold Ctx.put; split <;> simp
@[simp] theorem Ctx.put_subcode (c : Ctx) (r : Nat) (x : Word) : (c.put r x).subcode = c.subcode := by unfold Ctx.put; split <;> simp
@[simp] theorem Ctx.put_cls (c : Ctx) (r : Nat) (x : Word) : (c.put r x).cls = c.cls := by unfold Ctx.put; split <;> simp
@[simp] theorem Ctx.put_faultAddr (c : Ctx) (r : Nat) (x : Word) : (c.put r x).faultAddr = c.faultAddr := by unfold Ctx.put; split <;> simp
@[simp] theorem Ctx.put_keeper (c : Ctx) (r : Nat) (x : Word) : (c.put r x).keeper = c.keeper := by unfold Ctx.put; split <;> simp
@[simp] theorem Ctx.put_kv (c : Ctx) (r : Nat) (x : Word) : (c.put r x).kv = c.kv := by unfold Ctx.put; split <;> simp
@[simp] theorem Ctx.put_task (c : Ctx) (r : Nat) (x : Word) : (c.put r x).task = c.task := by unfold Ctx.put; split <;> simp
@[simp] theorem Ctx.put_free (c : Ctx) (r : Nat) (x : Word) : (c.put r x).free = c.free := by unfold Ctx.put; split <;> simp
@[simp] theorem Ctx.put_reserved (c : Ctx) (r : Nat) (x : Word) : (c.put r x).reserved = c.reserved := by unfold Ctx.put; split <;> simp
@[simp] theorem Ctx.put_sliceUsed (c : Ctx) (r : Nat) (x : Word) : (c.put r x).sliceUsed = c.sliceUsed := by unfold Ctx.put; split <;> simp
@[simp] theorem Ctx.put_worked (c : Ctx) (r : Nat) (x : Word) : (c.put r x).worked = c.worked := by unfold Ctx.put; split <;> simp
@[simp] theorem Ctx.put_beats (c : Ctx) (r : Nat) (x : Word) : (c.put r x).beats = c.beats := by unfold Ctx.put; split <;> simp
@[simp] theorem Ctx.put_mcSent (c : Ctx) (r : Nat) (x : Word) : (c.put r x).mcSent = c.mcSent := by unfold Ctx.put; split <;> simp

/-! ### Ctx.empty -/

@[simp] theorem Ctx.empty_sc (c : Ctx) (d : Nat) : (c.empty d).sc = c.sc := by unfold Ctx.empty; split <;> rfl
@[simp] theorem Ctx.empty_flags (c : Ctx) (d : Nat) : (c.empty d).flags = c.flags := by unfold Ctx.empty; split <;> rfl
@[simp] theorem Ctx.empty_lfsr (c : Ctx) (d : Nat) : (c.empty d).lfsr = c.lfsr := by unfold Ctx.empty; split <;> rfl
@[simp] theorem Ctx.empty_cycles (c : Ctx) (d : Nat) : (c.empty d).cycles = c.cycles := by unfold Ctx.empty; split <;> rfl
@[simp] theorem Ctx.empty_feV (c : Ctx) (d : Nat) : (c.empty d).feV = c.feV := by unfold Ctx.empty; split <;> rfl
@[simp] theorem Ctx.empty_feK (c : Ctx) (d : Nat) : (c.empty d).feK = c.feK := by unfold Ctx.empty; split <;> rfl
@[simp] theorem Ctx.empty_feW (c : Ctx) (d : Nat) : (c.empty d).feW = c.feW := by unfold Ctx.empty; split <;> rfl
@[simp] theorem Ctx.empty_v (c : Ctx) (d : Nat) : (c.empty d).v = c.v := by unfold Ctx.empty; split <;> rfl
@[simp] theorem Ctx.empty_k (c : Ctx) (d : Nat) : (c.empty d).k = c.k := by unfold Ctx.empty; split <;> rfl
@[simp] theorem Ctx.empty_w (c : Ctx) (d : Nat) : (c.empty d).w = c.w := by unfold Ctx.empty; split <;> rfl
@[simp] theorem Ctx.empty_lflag (c : Ctx) (d : Nat) : (c.empty d).lflag = c.lflag := by unfold Ctx.empty; split <;> rfl
@[simp] theorem Ctx.empty_lpc (c : Ctx) (d : Nat) : (c.empty d).lpc = c.lpc := by unfold Ctx.empty; split <;> rfl
@[simp] theorem Ctx.empty_split (c : Ctx) (d : Nat) : (c.empty d).split = c.split := by unfold Ctx.empty; split <;> rfl
@[simp] theorem Ctx.empty_arrived (c : Ctx) (d : Nat) : (c.empty d).arrived = c.arrived := by unfold Ctx.empty; split <;> rfl
@[simp] theorem Ctx.empty_lmode (c : Ctx) (d : Nat) : (c.empty d).lmode = c.lmode := by unfold Ctx.empty; split <;> rfl
@[simp] theorem Ctx.empty_trapv (c : Ctx) (d : Nat) : (c.empty d).trapv = c.trapv := by unfold Ctx.empty; split <;> rfl
@[simp] theorem Ctx.empty_trapLane (c : Ctx) (d : Nat) : (c.empty d).trapLane = c.trapLane := by unfold Ctx.empty; split <;> rfl
@[simp] theorem Ctx.empty_handler (c : Ctx) (d : Nat) : (c.empty d).handler = c.handler := by unfold Ctx.empty; split <;> rfl
@[simp] theorem Ctx.empty_laneTurn (c : Ctx) (d : Nat) : (c.empty d).laneTurn = c.laneTurn := by unfold Ctx.empty; split <;> rfl
@[simp] theorem Ctx.empty_laneBase (c : Ctx) (d : Nat) : (c.empty d).laneBase = c.laneBase := by unfold Ctx.empty; split <;> rfl
@[simp] theorem Ctx.empty_laneBuf (c : Ctx) (d : Nat) : (c.empty d).laneBuf = c.laneBuf := by unfold Ctx.empty; split <;> rfl
@[simp] theorem Ctx.empty_ahead (c : Ctx) (d : Nat) : (c.empty d).ahead = c.ahead := by unfold Ctx.empty; split <;> rfl
@[simp] theorem Ctx.empty_viq (c : Ctx) (d : Nat) : (c.empty d).viq = c.viq := by unfold Ctx.empty; split <;> rfl
@[simp] theorem Ctx.empty_run (c : Ctx) (d : Nat) : (c.empty d).run = c.run := by unfold Ctx.empty; split <;> rfl
@[simp] theorem Ctx.empty_runG (c : Ctx) (d : Nat) : (c.empty d).runG = c.runG := by unfold Ctx.empty; split <;> rfl
@[simp] theorem Ctx.empty_runArith (c : Ctx) (d : Nat) : (c.empty d).runArith = c.runArith := by unfold Ctx.empty; split <;> rfl
@[simp] theorem Ctx.empty_runFill (c : Ctx) (d : Nat) : (c.empty d).runFill = c.runFill := by unfold Ctx.empty; split <;> rfl
@[simp] theorem Ctx.empty_sb (c : Ctx) (d : Nat) : (c.empty d).sb = c.sb := by unfold Ctx.empty; split <;> rfl
@[simp] theorem Ctx.empty_loads (c : Ctx) (d : Nat) : (c.empty d).loads = c.loads := by unfold Ctx.empty; split <;> rfl
@[simp] theorem Ctx.empty_divs (c : Ctx) (d : Nat) : (c.empty d).divs = c.divs := by unfold Ctx.empty; split <;> rfl
@[simp] theorem Ctx.empty_pend (c : Ctx) (d : Nat) : (c.empty d).pend = c.pend := by unfold Ctx.empty; split <;> rfl
@[simp] theorem Ctx.empty_ord (c : Ctx) (d : Nat) : (c.empty d).ord = c.ord := by unfold Ctx.empty; split <;> rfl
@[simp] theorem Ctx.empty_state (c : Ctx) (d : Nat) : (c.empty d).state = c.state := by unfold Ctx.empty; split <;> rfl
@[simp] theorem Ctx.empty_wait (c : Ctx) (d : Nat) : (c.empty d).wait = c.wait := by unfold Ctx.empty; split <;> rfl
@[simp] theorem Ctx.empty_stepping (c : Ctx) (d : Nat) : (c.empty d).stepping = c.stepping := by unfold Ctx.empty; split <;> rfl
@[simp] theorem Ctx.empty_stepNeed (c : Ctx) (d : Nat) : (c.empty d).stepNeed = c.stepNeed := by unfold Ctx.empty; split <;> rfl
@[simp] theorem Ctx.empty_retry (c : Ctx) (d : Nat) : (c.empty d).retry = c.retry := by unfold Ctx.empty; split <;> rfl
@[simp] theorem Ctx.empty_resume (c : Ctx) (d : Nat) : (c.empty d).resume = c.resume := by unfold Ctx.empty; split <;> rfl
@[simp] theorem Ctx.empty_vstartF (c : Ctx) (d : Nat) : (c.empty d).vstartF = c.vstartF := by unfold Ctx.empty; split <;> rfl
@[simp] theorem Ctx.empty_chainF (c : Ctx) (d : Nat) : (c.empty d).chainF = c.chainF := by unfold Ctx.empty; split <;> rfl
@[simp] theorem Ctx.empty_chainRec (c : Ctx) (d : Nat) : (c.empty d).chainRec = c.chainRec := by unfold Ctx.empty; split <;> rfl
@[simp] theorem Ctx.empty_awDone (c : Ctx) (d : Nat) : (c.empty d).awDone = c.awDone := by unfold Ctx.empty; split <;> rfl
@[simp] theorem Ctx.empty_awGen (c : Ctx) (d : Nat) : (c.empty d).awGen = c.awGen := by unfold Ctx.empty; split <;> rfl
@[simp] theorem Ctx.empty_root (c : Ctx) (d : Nat) : (c.empty d).root = c.root := by unfold Ctx.empty; split <;> rfl
@[simp] theorem Ctx.empty_space (c : Ctx) (d : Nat) : (c.empty d).space = c.space := by unfold Ctx.empty; split <;> rfl
@[simp] theorem Ctx.empty_cause (c : Ctx) (d : Nat) : (c.empty d).cause = c.cause := by unfold Ctx.empty; split <;> rfl
@[simp] theorem Ctx.empty_subcode (c : Ctx) (d : Nat) : (c.empty d).subcode = c.subcode := by unfold Ctx.empty; split <;> rfl
@[simp] theorem Ctx.empty_cls (c : Ctx) (d : Nat) : (c.empty d).cls = c.cls := by unfold Ctx.empty; split <;> rfl
@[simp] theorem Ctx.empty_faultAddr (c : Ctx) (d : Nat) : (c.empty d).faultAddr = c.faultAddr := by unfold Ctx.empty; split <;> rfl
@[simp] theorem Ctx.empty_keeper (c : Ctx) (d : Nat) : (c.empty d).keeper = c.keeper := by unfold Ctx.empty; split <;> rfl
@[simp] theorem Ctx.empty_kv (c : Ctx) (d : Nat) : (c.empty d).kv = c.kv := by unfold Ctx.empty; split <;> rfl
@[simp] theorem Ctx.empty_task (c : Ctx) (d : Nat) : (c.empty d).task = c.task := by unfold Ctx.empty; split <;> rfl
@[simp] theorem Ctx.empty_free (c : Ctx) (d : Nat) : (c.empty d).free = c.free := by unfold Ctx.empty; split <;> rfl
@[simp] theorem Ctx.empty_reserved (c : Ctx) (d : Nat) : (c.empty d).reserved = c.reserved := by unfold Ctx.empty; split <;> rfl
@[simp] theorem Ctx.empty_sliceUsed (c : Ctx) (d : Nat) : (c.empty d).sliceUsed = c.sliceUsed := by unfold Ctx.empty; split <;> rfl
@[simp] theorem Ctx.empty_worked (c : Ctx) (d : Nat) : (c.empty d).worked = c.worked := by unfold Ctx.empty; split <;> rfl
@[simp] theorem Ctx.empty_beats (c : Ctx) (d : Nat) : (c.empty d).beats = c.beats := by unfold Ctx.empty; split <;> rfl
@[simp] theorem Ctx.empty_mcSent (c : Ctx) (d : Nat) : (c.empty d).mcSent = c.mcSent := by unfold Ctx.empty; split <;> rfl

/-! ### Ctx.fill -/

@[simp] theorem Ctx.fill_flags (c : Ctx) (d : Nat) (x : Word) : (c.fill d x).flags = c.flags := by simp [Ctx.fill]
@[simp] theorem Ctx.fill_lfsr (c : Ctx) (d : Nat) (x : Word) : (c.fill d x).lfsr = c.lfsr := by simp [Ctx.fill]
@[simp] theorem Ctx.fill_cycles (c : Ctx) (d : Nat) (x : Word) : (c.fill d x).cycles = c.cycles := by simp [Ctx.fill]
@[simp] theorem Ctx.fill_feV (c : Ctx) (d : Nat) (x : Word) : (c.fill d x).feV = c.feV := by simp [Ctx.fill]
@[simp] theorem Ctx.fill_feK (c : Ctx) (d : Nat) (x : Word) : (c.fill d x).feK = c.feK := by simp [Ctx.fill]
@[simp] theorem Ctx.fill_feW (c : Ctx) (d : Nat) (x : Word) : (c.fill d x).feW = c.feW := by simp [Ctx.fill]
@[simp] theorem Ctx.fill_v (c : Ctx) (d : Nat) (x : Word) : (c.fill d x).v = c.v := by simp [Ctx.fill]
@[simp] theorem Ctx.fill_k (c : Ctx) (d : Nat) (x : Word) : (c.fill d x).k = c.k := by simp [Ctx.fill]
@[simp] theorem Ctx.fill_w (c : Ctx) (d : Nat) (x : Word) : (c.fill d x).w = c.w := by simp [Ctx.fill]
@[simp] theorem Ctx.fill_lflag (c : Ctx) (d : Nat) (x : Word) : (c.fill d x).lflag = c.lflag := by simp [Ctx.fill]
@[simp] theorem Ctx.fill_lpc (c : Ctx) (d : Nat) (x : Word) : (c.fill d x).lpc = c.lpc := by simp [Ctx.fill]
@[simp] theorem Ctx.fill_split (c : Ctx) (d : Nat) (x : Word) : (c.fill d x).split = c.split := by simp [Ctx.fill]
@[simp] theorem Ctx.fill_arrived (c : Ctx) (d : Nat) (x : Word) : (c.fill d x).arrived = c.arrived := by simp [Ctx.fill]
@[simp] theorem Ctx.fill_lmode (c : Ctx) (d : Nat) (x : Word) : (c.fill d x).lmode = c.lmode := by simp [Ctx.fill]
@[simp] theorem Ctx.fill_trapv (c : Ctx) (d : Nat) (x : Word) : (c.fill d x).trapv = c.trapv := by simp [Ctx.fill]
@[simp] theorem Ctx.fill_trapLane (c : Ctx) (d : Nat) (x : Word) : (c.fill d x).trapLane = c.trapLane := by simp [Ctx.fill]
@[simp] theorem Ctx.fill_handler (c : Ctx) (d : Nat) (x : Word) : (c.fill d x).handler = c.handler := by simp [Ctx.fill]
@[simp] theorem Ctx.fill_laneTurn (c : Ctx) (d : Nat) (x : Word) : (c.fill d x).laneTurn = c.laneTurn := by simp [Ctx.fill]
@[simp] theorem Ctx.fill_laneBase (c : Ctx) (d : Nat) (x : Word) : (c.fill d x).laneBase = c.laneBase := by simp [Ctx.fill]
@[simp] theorem Ctx.fill_laneBuf (c : Ctx) (d : Nat) (x : Word) : (c.fill d x).laneBuf = c.laneBuf := by simp [Ctx.fill]
@[simp] theorem Ctx.fill_ahead (c : Ctx) (d : Nat) (x : Word) : (c.fill d x).ahead = c.ahead := by simp [Ctx.fill]
@[simp] theorem Ctx.fill_viq (c : Ctx) (d : Nat) (x : Word) : (c.fill d x).viq = c.viq := by simp [Ctx.fill]
@[simp] theorem Ctx.fill_run (c : Ctx) (d : Nat) (x : Word) : (c.fill d x).run = c.run := by simp [Ctx.fill]
@[simp] theorem Ctx.fill_runG (c : Ctx) (d : Nat) (x : Word) : (c.fill d x).runG = c.runG := by simp [Ctx.fill]
@[simp] theorem Ctx.fill_runArith (c : Ctx) (d : Nat) (x : Word) : (c.fill d x).runArith = c.runArith := by simp [Ctx.fill]
@[simp] theorem Ctx.fill_runFill (c : Ctx) (d : Nat) (x : Word) : (c.fill d x).runFill = c.runFill := by simp [Ctx.fill]
@[simp] theorem Ctx.fill_sb (c : Ctx) (d : Nat) (x : Word) : (c.fill d x).sb = c.sb := by simp [Ctx.fill]
@[simp] theorem Ctx.fill_loads (c : Ctx) (d : Nat) (x : Word) : (c.fill d x).loads = c.loads := by simp [Ctx.fill]
@[simp] theorem Ctx.fill_divs (c : Ctx) (d : Nat) (x : Word) : (c.fill d x).divs = c.divs := by simp [Ctx.fill]
@[simp] theorem Ctx.fill_pend (c : Ctx) (d : Nat) (x : Word) : (c.fill d x).pend = c.pend := by simp [Ctx.fill]
@[simp] theorem Ctx.fill_ord (c : Ctx) (d : Nat) (x : Word) : (c.fill d x).ord = c.ord := by simp [Ctx.fill]
@[simp] theorem Ctx.fill_state (c : Ctx) (d : Nat) (x : Word) : (c.fill d x).state = c.state := by simp [Ctx.fill]
@[simp] theorem Ctx.fill_wait (c : Ctx) (d : Nat) (x : Word) : (c.fill d x).wait = c.wait := by simp [Ctx.fill]
@[simp] theorem Ctx.fill_stepping (c : Ctx) (d : Nat) (x : Word) : (c.fill d x).stepping = c.stepping := by simp [Ctx.fill]
@[simp] theorem Ctx.fill_stepNeed (c : Ctx) (d : Nat) (x : Word) : (c.fill d x).stepNeed = c.stepNeed := by simp [Ctx.fill]
@[simp] theorem Ctx.fill_retry (c : Ctx) (d : Nat) (x : Word) : (c.fill d x).retry = c.retry := by simp [Ctx.fill]
@[simp] theorem Ctx.fill_resume (c : Ctx) (d : Nat) (x : Word) : (c.fill d x).resume = c.resume := by simp [Ctx.fill]
@[simp] theorem Ctx.fill_vstartF (c : Ctx) (d : Nat) (x : Word) : (c.fill d x).vstartF = c.vstartF := by simp [Ctx.fill]
@[simp] theorem Ctx.fill_chainF (c : Ctx) (d : Nat) (x : Word) : (c.fill d x).chainF = c.chainF := by simp [Ctx.fill]
@[simp] theorem Ctx.fill_chainRec (c : Ctx) (d : Nat) (x : Word) : (c.fill d x).chainRec = c.chainRec := by simp [Ctx.fill]
@[simp] theorem Ctx.fill_awDone (c : Ctx) (d : Nat) (x : Word) : (c.fill d x).awDone = c.awDone := by simp [Ctx.fill]
@[simp] theorem Ctx.fill_awGen (c : Ctx) (d : Nat) (x : Word) : (c.fill d x).awGen = c.awGen := by simp [Ctx.fill]
@[simp] theorem Ctx.fill_root (c : Ctx) (d : Nat) (x : Word) : (c.fill d x).root = c.root := by simp [Ctx.fill]
@[simp] theorem Ctx.fill_space (c : Ctx) (d : Nat) (x : Word) : (c.fill d x).space = c.space := by simp [Ctx.fill]
@[simp] theorem Ctx.fill_cause (c : Ctx) (d : Nat) (x : Word) : (c.fill d x).cause = c.cause := by simp [Ctx.fill]
@[simp] theorem Ctx.fill_subcode (c : Ctx) (d : Nat) (x : Word) : (c.fill d x).subcode = c.subcode := by simp [Ctx.fill]
@[simp] theorem Ctx.fill_cls (c : Ctx) (d : Nat) (x : Word) : (c.fill d x).cls = c.cls := by simp [Ctx.fill]
@[simp] theorem Ctx.fill_faultAddr (c : Ctx) (d : Nat) (x : Word) : (c.fill d x).faultAddr = c.faultAddr := by simp [Ctx.fill]
@[simp] theorem Ctx.fill_keeper (c : Ctx) (d : Nat) (x : Word) : (c.fill d x).keeper = c.keeper := by simp [Ctx.fill]
@[simp] theorem Ctx.fill_kv (c : Ctx) (d : Nat) (x : Word) : (c.fill d x).kv = c.kv := by simp [Ctx.fill]
@[simp] theorem Ctx.fill_task (c : Ctx) (d : Nat) (x : Word) : (c.fill d x).task = c.task := by simp [Ctx.fill]
@[simp] theorem Ctx.fill_free (c : Ctx) (d : Nat) (x : Word) : (c.fill d x).free = c.free := by simp [Ctx.fill]
@[simp] theorem Ctx.fill_reserved (c : Ctx) (d : Nat) (x : Word) : (c.fill d x).reserved = c.reserved := by simp [Ctx.fill]
@[simp] theorem Ctx.fill_sliceUsed (c : Ctx) (d : Nat) (x : Word) : (c.fill d x).sliceUsed = c.sliceUsed := by simp [Ctx.fill]
@[simp] theorem Ctx.fill_worked (c : Ctx) (d : Nat) (x : Word) : (c.fill d x).worked = c.worked := by simp [Ctx.fill]
@[simp] theorem Ctx.fill_beats (c : Ctx) (d : Nat) (x : Word) : (c.fill d x).beats = c.beats := by simp [Ctx.fill]
@[simp] theorem Ctx.fill_mcSent (c : Ctx) (d : Nat) (x : Word) : (c.fill d x).mcSent = c.mcSent := by simp [Ctx.fill]

/-! ### Ctx.passTurn -/

@[simp] theorem Ctx.passTurn_sc (c : Ctx)  : (c.passTurn).sc = c.sc := rfl
@[simp] theorem Ctx.passTurn_flags (c : Ctx)  : (c.passTurn).flags = c.flags := rfl
@[simp] theorem Ctx.passTurn_lfsr (c : Ctx)  : (c.passTurn).lfsr = c.lfsr := rfl
@[simp] theorem Ctx.passTurn_cycles (c : Ctx)  : (c.passTurn).cycles = c.cycles := rfl
@[simp] theorem Ctx.passTurn_feS (c : Ctx)  : (c.passTurn).feS = c.feS := rfl
@[simp] theorem Ctx.passTurn_feV (c : Ctx)  : (c.passTurn).feV = c.feV := rfl
@[simp] theorem Ctx.passTurn_feK (c : Ctx)  : (c.passTurn).feK = c.feK := rfl
@[simp] theorem Ctx.passTurn_feW (c : Ctx)  : (c.passTurn).feW = c.feW := rfl
@[simp] theorem Ctx.passTurn_v (c : Ctx)  : (c.passTurn).v = c.v := rfl
@[simp] theorem Ctx.passTurn_k (c : Ctx)  : (c.passTurn).k = c.k := rfl
@[simp] theorem Ctx.passTurn_w (c : Ctx)  : (c.passTurn).w = c.w := rfl
@[simp] theorem Ctx.passTurn_lflag (c : Ctx)  : (c.passTurn).lflag = c.lflag := rfl
@[simp] theorem Ctx.passTurn_lpc (c : Ctx)  : (c.passTurn).lpc = c.lpc := rfl
@[simp] theorem Ctx.passTurn_split (c : Ctx)  : (c.passTurn).split = c.split := rfl
@[simp] theorem Ctx.passTurn_arrived (c : Ctx)  : (c.passTurn).arrived = c.arrived := rfl
@[simp] theorem Ctx.passTurn_lmode (c : Ctx)  : (c.passTurn).lmode = c.lmode := rfl
@[simp] theorem Ctx.passTurn_trapv (c : Ctx)  : (c.passTurn).trapv = c.trapv := rfl
@[simp] theorem Ctx.passTurn_trapLane (c : Ctx)  : (c.passTurn).trapLane = c.trapLane := rfl
@[simp] theorem Ctx.passTurn_handler (c : Ctx)  : (c.passTurn).handler = c.handler := rfl
@[simp] theorem Ctx.passTurn_laneBase (c : Ctx)  : (c.passTurn).laneBase = c.laneBase := rfl
@[simp] theorem Ctx.passTurn_laneBuf (c : Ctx)  : (c.passTurn).laneBuf = c.laneBuf := rfl
@[simp] theorem Ctx.passTurn_ahead (c : Ctx)  : (c.passTurn).ahead = c.ahead := rfl
@[simp] theorem Ctx.passTurn_viq (c : Ctx)  : (c.passTurn).viq = c.viq := rfl
@[simp] theorem Ctx.passTurn_run (c : Ctx)  : (c.passTurn).run = c.run := rfl
@[simp] theorem Ctx.passTurn_runG (c : Ctx)  : (c.passTurn).runG = c.runG := rfl
@[simp] theorem Ctx.passTurn_runArith (c : Ctx)  : (c.passTurn).runArith = c.runArith := rfl
@[simp] theorem Ctx.passTurn_runFill (c : Ctx)  : (c.passTurn).runFill = c.runFill := rfl
@[simp] theorem Ctx.passTurn_sb (c : Ctx)  : (c.passTurn).sb = c.sb := rfl
@[simp] theorem Ctx.passTurn_loads (c : Ctx)  : (c.passTurn).loads = c.loads := rfl
@[simp] theorem Ctx.passTurn_divs (c : Ctx)  : (c.passTurn).divs = c.divs := rfl
@[simp] theorem Ctx.passTurn_pend (c : Ctx)  : (c.passTurn).pend = c.pend := rfl
@[simp] theorem Ctx.passTurn_ord (c : Ctx)  : (c.passTurn).ord = c.ord := rfl
@[simp] theorem Ctx.passTurn_state (c : Ctx)  : (c.passTurn).state = c.state := rfl
@[simp] theorem Ctx.passTurn_wait (c : Ctx)  : (c.passTurn).wait = c.wait := rfl
@[simp] theorem Ctx.passTurn_stepping (c : Ctx)  : (c.passTurn).stepping = c.stepping := rfl
@[simp] theorem Ctx.passTurn_stepNeed (c : Ctx)  : (c.passTurn).stepNeed = c.stepNeed := rfl
@[simp] theorem Ctx.passTurn_retry (c : Ctx)  : (c.passTurn).retry = c.retry := rfl
@[simp] theorem Ctx.passTurn_resume (c : Ctx)  : (c.passTurn).resume = c.resume := rfl
@[simp] theorem Ctx.passTurn_vstartF (c : Ctx)  : (c.passTurn).vstartF = c.vstartF := rfl
@[simp] theorem Ctx.passTurn_chainF (c : Ctx)  : (c.passTurn).chainF = c.chainF := rfl
@[simp] theorem Ctx.passTurn_chainRec (c : Ctx)  : (c.passTurn).chainRec = c.chainRec := rfl
@[simp] theorem Ctx.passTurn_awDone (c : Ctx)  : (c.passTurn).awDone = c.awDone := rfl
@[simp] theorem Ctx.passTurn_awGen (c : Ctx)  : (c.passTurn).awGen = c.awGen := rfl
@[simp] theorem Ctx.passTurn_root (c : Ctx)  : (c.passTurn).root = c.root := rfl
@[simp] theorem Ctx.passTurn_space (c : Ctx)  : (c.passTurn).space = c.space := rfl
@[simp] theorem Ctx.passTurn_cause (c : Ctx)  : (c.passTurn).cause = c.cause := rfl
@[simp] theorem Ctx.passTurn_subcode (c : Ctx)  : (c.passTurn).subcode = c.subcode := rfl
@[simp] theorem Ctx.passTurn_cls (c : Ctx)  : (c.passTurn).cls = c.cls := rfl
@[simp] theorem Ctx.passTurn_faultAddr (c : Ctx)  : (c.passTurn).faultAddr = c.faultAddr := rfl
@[simp] theorem Ctx.passTurn_keeper (c : Ctx)  : (c.passTurn).keeper = c.keeper := rfl
@[simp] theorem Ctx.passTurn_kv (c : Ctx)  : (c.passTurn).kv = c.kv := rfl
@[simp] theorem Ctx.passTurn_task (c : Ctx)  : (c.passTurn).task = c.task := rfl
@[simp] theorem Ctx.passTurn_free (c : Ctx)  : (c.passTurn).free = c.free := rfl
@[simp] theorem Ctx.passTurn_reserved (c : Ctx)  : (c.passTurn).reserved = c.reserved := rfl
@[simp] theorem Ctx.passTurn_sliceUsed (c : Ctx)  : (c.passTurn).sliceUsed = c.sliceUsed := rfl
@[simp] theorem Ctx.passTurn_worked (c : Ctx)  : (c.passTurn).worked = c.worked := rfl
@[simp] theorem Ctx.passTurn_beats (c : Ctx)  : (c.passTurn).beats = c.beats := rfl
@[simp] theorem Ctx.passTurn_mcSent (c : Ctx)  : (c.passTurn).mcSent = c.mcSent := rfl

/-! ### Ctx.advance -/

@[simp] theorem Ctx.advance_flags (c : Ctx)  : (c.advance).flags = c.flags := by dsimp only [Ctx.advance]; split <;> rfl
@[simp] theorem Ctx.advance_lfsr (c : Ctx)  : (c.advance).lfsr = c.lfsr := by dsimp only [Ctx.advance]; split <;> rfl
@[simp] theorem Ctx.advance_cycles (c : Ctx)  : (c.advance).cycles = c.cycles := by dsimp only [Ctx.advance]; split <;> rfl
@[simp] theorem Ctx.advance_feS (c : Ctx)  : (c.advance).feS = c.feS := by dsimp only [Ctx.advance]; split <;> rfl
@[simp] theorem Ctx.advance_feV (c : Ctx)  : (c.advance).feV = c.feV := by dsimp only [Ctx.advance]; split <;> rfl
@[simp] theorem Ctx.advance_feK (c : Ctx)  : (c.advance).feK = c.feK := by dsimp only [Ctx.advance]; split <;> rfl
@[simp] theorem Ctx.advance_feW (c : Ctx)  : (c.advance).feW = c.feW := by dsimp only [Ctx.advance]; split <;> rfl
@[simp] theorem Ctx.advance_v (c : Ctx)  : (c.advance).v = c.v := by dsimp only [Ctx.advance]; split <;> rfl
@[simp] theorem Ctx.advance_k (c : Ctx)  : (c.advance).k = c.k := by dsimp only [Ctx.advance]; split <;> rfl
@[simp] theorem Ctx.advance_w (c : Ctx)  : (c.advance).w = c.w := by dsimp only [Ctx.advance]; split <;> rfl
@[simp] theorem Ctx.advance_lflag (c : Ctx)  : (c.advance).lflag = c.lflag := by dsimp only [Ctx.advance]; split <;> rfl
@[simp] theorem Ctx.advance_split (c : Ctx)  : (c.advance).split = c.split := by dsimp only [Ctx.advance]; split <;> rfl
@[simp] theorem Ctx.advance_arrived (c : Ctx)  : (c.advance).arrived = c.arrived := by dsimp only [Ctx.advance]; split <;> rfl
@[simp] theorem Ctx.advance_lmode (c : Ctx)  : (c.advance).lmode = c.lmode := by dsimp only [Ctx.advance]; split <;> rfl
@[simp] theorem Ctx.advance_trapv (c : Ctx)  : (c.advance).trapv = c.trapv := by dsimp only [Ctx.advance]; split <;> rfl
@[simp] theorem Ctx.advance_trapLane (c : Ctx)  : (c.advance).trapLane = c.trapLane := by dsimp only [Ctx.advance]; split <;> rfl
@[simp] theorem Ctx.advance_handler (c : Ctx)  : (c.advance).handler = c.handler := by dsimp only [Ctx.advance]; split <;> rfl
@[simp] theorem Ctx.advance_laneBase (c : Ctx)  : (c.advance).laneBase = c.laneBase := by dsimp only [Ctx.advance]; split <;> rfl
@[simp] theorem Ctx.advance_laneBuf (c : Ctx)  : (c.advance).laneBuf = c.laneBuf := by dsimp only [Ctx.advance]; split <;> rfl
@[simp] theorem Ctx.advance_ahead (c : Ctx)  : (c.advance).ahead = c.ahead := by dsimp only [Ctx.advance]; split <;> rfl
@[simp] theorem Ctx.advance_viq (c : Ctx)  : (c.advance).viq = c.viq := by dsimp only [Ctx.advance]; split <;> rfl
@[simp] theorem Ctx.advance_run (c : Ctx)  : (c.advance).run = c.run := by dsimp only [Ctx.advance]; split <;> rfl
@[simp] theorem Ctx.advance_runG (c : Ctx)  : (c.advance).runG = c.runG := by dsimp only [Ctx.advance]; split <;> rfl
@[simp] theorem Ctx.advance_runArith (c : Ctx)  : (c.advance).runArith = c.runArith := by dsimp only [Ctx.advance]; split <;> rfl
@[simp] theorem Ctx.advance_runFill (c : Ctx)  : (c.advance).runFill = c.runFill := by dsimp only [Ctx.advance]; split <;> rfl
@[simp] theorem Ctx.advance_sb (c : Ctx)  : (c.advance).sb = c.sb := by dsimp only [Ctx.advance]; split <;> rfl
@[simp] theorem Ctx.advance_loads (c : Ctx)  : (c.advance).loads = c.loads := by dsimp only [Ctx.advance]; split <;> rfl
@[simp] theorem Ctx.advance_divs (c : Ctx)  : (c.advance).divs = c.divs := by dsimp only [Ctx.advance]; split <;> rfl
@[simp] theorem Ctx.advance_pend (c : Ctx)  : (c.advance).pend = c.pend := by dsimp only [Ctx.advance]; split <;> rfl
@[simp] theorem Ctx.advance_state (c : Ctx)  : (c.advance).state = c.state := by dsimp only [Ctx.advance]; split <;> rfl
@[simp] theorem Ctx.advance_wait (c : Ctx)  : (c.advance).wait = c.wait := by dsimp only [Ctx.advance]; split <;> rfl
@[simp] theorem Ctx.advance_stepping (c : Ctx)  : (c.advance).stepping = c.stepping := by dsimp only [Ctx.advance]; split <;> rfl
@[simp] theorem Ctx.advance_stepNeed (c : Ctx)  : (c.advance).stepNeed = c.stepNeed := by dsimp only [Ctx.advance]; split <;> rfl
@[simp] theorem Ctx.advance_retry (c : Ctx)  : (c.advance).retry = c.retry := by dsimp only [Ctx.advance]; split <;> rfl
@[simp] theorem Ctx.advance_resume (c : Ctx)  : (c.advance).resume = c.resume := by dsimp only [Ctx.advance]; split <;> rfl
@[simp] theorem Ctx.advance_vstartF (c : Ctx)  : (c.advance).vstartF = c.vstartF := by dsimp only [Ctx.advance]; split <;> rfl
@[simp] theorem Ctx.advance_chainF (c : Ctx)  : (c.advance).chainF = c.chainF := by dsimp only [Ctx.advance]; split <;> rfl
@[simp] theorem Ctx.advance_chainRec (c : Ctx)  : (c.advance).chainRec = c.chainRec := by dsimp only [Ctx.advance]; split <;> rfl
@[simp] theorem Ctx.advance_awDone (c : Ctx)  : (c.advance).awDone = c.awDone := by dsimp only [Ctx.advance]; split <;> rfl
@[simp] theorem Ctx.advance_awGen (c : Ctx)  : (c.advance).awGen = c.awGen := by dsimp only [Ctx.advance]; split <;> rfl
@[simp] theorem Ctx.advance_root (c : Ctx)  : (c.advance).root = c.root := by dsimp only [Ctx.advance]; split <;> rfl
@[simp] theorem Ctx.advance_space (c : Ctx)  : (c.advance).space = c.space := by dsimp only [Ctx.advance]; split <;> rfl
@[simp] theorem Ctx.advance_cause (c : Ctx)  : (c.advance).cause = c.cause := by dsimp only [Ctx.advance]; split <;> rfl
@[simp] theorem Ctx.advance_subcode (c : Ctx)  : (c.advance).subcode = c.subcode := by dsimp only [Ctx.advance]; split <;> rfl
@[simp] theorem Ctx.advance_cls (c : Ctx)  : (c.advance).cls = c.cls := by dsimp only [Ctx.advance]; split <;> rfl
@[simp] theorem Ctx.advance_faultAddr (c : Ctx)  : (c.advance).faultAddr = c.faultAddr := by dsimp only [Ctx.advance]; split <;> rfl
@[simp] theorem Ctx.advance_keeper (c : Ctx)  : (c.advance).keeper = c.keeper := by dsimp only [Ctx.advance]; split <;> rfl
@[simp] theorem Ctx.advance_kv (c : Ctx)  : (c.advance).kv = c.kv := by dsimp only [Ctx.advance]; split <;> rfl
@[simp] theorem Ctx.advance_task (c : Ctx)  : (c.advance).task = c.task := by dsimp only [Ctx.advance]; split <;> rfl
@[simp] theorem Ctx.advance_free (c : Ctx)  : (c.advance).free = c.free := by dsimp only [Ctx.advance]; split <;> rfl
@[simp] theorem Ctx.advance_reserved (c : Ctx)  : (c.advance).reserved = c.reserved := by dsimp only [Ctx.advance]; split <;> rfl
@[simp] theorem Ctx.advance_sliceUsed (c : Ctx)  : (c.advance).sliceUsed = c.sliceUsed := by dsimp only [Ctx.advance]; split <;> rfl
@[simp] theorem Ctx.advance_worked (c : Ctx)  : (c.advance).worked = c.worked := by dsimp only [Ctx.advance]; split <;> rfl
@[simp] theorem Ctx.advance_beats (c : Ctx)  : (c.advance).beats = c.beats := by dsimp only [Ctx.advance]; split <;> rfl
@[simp] theorem Ctx.advance_mcSent (c : Ctx)  : (c.advance).mcSent = c.mcSent := by dsimp only [Ctx.advance]; split <;> rfl

/-! ### Ctx.jump -/

@[simp] theorem Ctx.jump_flags (c : Ctx) (t : Word) : (c.jump t).flags = c.flags := by dsimp only [Ctx.jump]; split <;> rfl
@[simp] theorem Ctx.jump_lfsr (c : Ctx) (t : Word) : (c.jump t).lfsr = c.lfsr := by dsimp only [Ctx.jump]; split <;> rfl
@[simp] theorem Ctx.jump_cycles (c : Ctx) (t : Word) : (c.jump t).cycles = c.cycles := by dsimp only [Ctx.jump]; split <;> rfl
@[simp] theorem Ctx.jump_feS (c : Ctx) (t : Word) : (c.jump t).feS = c.feS := by dsimp only [Ctx.jump]; split <;> rfl
@[simp] theorem Ctx.jump_feV (c : Ctx) (t : Word) : (c.jump t).feV = c.feV := by dsimp only [Ctx.jump]; split <;> rfl
@[simp] theorem Ctx.jump_feK (c : Ctx) (t : Word) : (c.jump t).feK = c.feK := by dsimp only [Ctx.jump]; split <;> rfl
@[simp] theorem Ctx.jump_feW (c : Ctx) (t : Word) : (c.jump t).feW = c.feW := by dsimp only [Ctx.jump]; split <;> rfl
@[simp] theorem Ctx.jump_v (c : Ctx) (t : Word) : (c.jump t).v = c.v := by dsimp only [Ctx.jump]; split <;> rfl
@[simp] theorem Ctx.jump_k (c : Ctx) (t : Word) : (c.jump t).k = c.k := by dsimp only [Ctx.jump]; split <;> rfl
@[simp] theorem Ctx.jump_w (c : Ctx) (t : Word) : (c.jump t).w = c.w := by dsimp only [Ctx.jump]; split <;> rfl
@[simp] theorem Ctx.jump_lflag (c : Ctx) (t : Word) : (c.jump t).lflag = c.lflag := by dsimp only [Ctx.jump]; split <;> rfl
@[simp] theorem Ctx.jump_split (c : Ctx) (t : Word) : (c.jump t).split = c.split := by dsimp only [Ctx.jump]; split <;> rfl
@[simp] theorem Ctx.jump_arrived (c : Ctx) (t : Word) : (c.jump t).arrived = c.arrived := by dsimp only [Ctx.jump]; split <;> rfl
@[simp] theorem Ctx.jump_lmode (c : Ctx) (t : Word) : (c.jump t).lmode = c.lmode := by dsimp only [Ctx.jump]; split <;> rfl
@[simp] theorem Ctx.jump_trapv (c : Ctx) (t : Word) : (c.jump t).trapv = c.trapv := by dsimp only [Ctx.jump]; split <;> rfl
@[simp] theorem Ctx.jump_trapLane (c : Ctx) (t : Word) : (c.jump t).trapLane = c.trapLane := by dsimp only [Ctx.jump]; split <;> rfl
@[simp] theorem Ctx.jump_handler (c : Ctx) (t : Word) : (c.jump t).handler = c.handler := by dsimp only [Ctx.jump]; split <;> rfl
@[simp] theorem Ctx.jump_laneBase (c : Ctx) (t : Word) : (c.jump t).laneBase = c.laneBase := by dsimp only [Ctx.jump]; split <;> rfl
@[simp] theorem Ctx.jump_laneBuf (c : Ctx) (t : Word) : (c.jump t).laneBuf = c.laneBuf := by dsimp only [Ctx.jump]; split <;> rfl
@[simp] theorem Ctx.jump_ahead (c : Ctx) (t : Word) : (c.jump t).ahead = c.ahead := by dsimp only [Ctx.jump]; split <;> rfl
@[simp] theorem Ctx.jump_viq (c : Ctx) (t : Word) : (c.jump t).viq = c.viq := by dsimp only [Ctx.jump]; split <;> rfl
@[simp] theorem Ctx.jump_run (c : Ctx) (t : Word) : (c.jump t).run = c.run := by dsimp only [Ctx.jump]; split <;> rfl
@[simp] theorem Ctx.jump_runG (c : Ctx) (t : Word) : (c.jump t).runG = c.runG := by dsimp only [Ctx.jump]; split <;> rfl
@[simp] theorem Ctx.jump_runArith (c : Ctx) (t : Word) : (c.jump t).runArith = c.runArith := by dsimp only [Ctx.jump]; split <;> rfl
@[simp] theorem Ctx.jump_runFill (c : Ctx) (t : Word) : (c.jump t).runFill = c.runFill := by dsimp only [Ctx.jump]; split <;> rfl
@[simp] theorem Ctx.jump_sb (c : Ctx) (t : Word) : (c.jump t).sb = c.sb := by dsimp only [Ctx.jump]; split <;> rfl
@[simp] theorem Ctx.jump_loads (c : Ctx) (t : Word) : (c.jump t).loads = c.loads := by dsimp only [Ctx.jump]; split <;> rfl
@[simp] theorem Ctx.jump_divs (c : Ctx) (t : Word) : (c.jump t).divs = c.divs := by dsimp only [Ctx.jump]; split <;> rfl
@[simp] theorem Ctx.jump_pend (c : Ctx) (t : Word) : (c.jump t).pend = c.pend := by dsimp only [Ctx.jump]; split <;> rfl
@[simp] theorem Ctx.jump_state (c : Ctx) (t : Word) : (c.jump t).state = c.state := by dsimp only [Ctx.jump]; split <;> rfl
@[simp] theorem Ctx.jump_wait (c : Ctx) (t : Word) : (c.jump t).wait = c.wait := by dsimp only [Ctx.jump]; split <;> rfl
@[simp] theorem Ctx.jump_stepping (c : Ctx) (t : Word) : (c.jump t).stepping = c.stepping := by dsimp only [Ctx.jump]; split <;> rfl
@[simp] theorem Ctx.jump_stepNeed (c : Ctx) (t : Word) : (c.jump t).stepNeed = c.stepNeed := by dsimp only [Ctx.jump]; split <;> rfl
@[simp] theorem Ctx.jump_retry (c : Ctx) (t : Word) : (c.jump t).retry = c.retry := by dsimp only [Ctx.jump]; split <;> rfl
@[simp] theorem Ctx.jump_resume (c : Ctx) (t : Word) : (c.jump t).resume = c.resume := by dsimp only [Ctx.jump]; split <;> rfl
@[simp] theorem Ctx.jump_vstartF (c : Ctx) (t : Word) : (c.jump t).vstartF = c.vstartF := by dsimp only [Ctx.jump]; split <;> rfl
@[simp] theorem Ctx.jump_chainF (c : Ctx) (t : Word) : (c.jump t).chainF = c.chainF := by dsimp only [Ctx.jump]; split <;> rfl
@[simp] theorem Ctx.jump_chainRec (c : Ctx) (t : Word) : (c.jump t).chainRec = c.chainRec := by dsimp only [Ctx.jump]; split <;> rfl
@[simp] theorem Ctx.jump_awDone (c : Ctx) (t : Word) : (c.jump t).awDone = c.awDone := by dsimp only [Ctx.jump]; split <;> rfl
@[simp] theorem Ctx.jump_awGen (c : Ctx) (t : Word) : (c.jump t).awGen = c.awGen := by dsimp only [Ctx.jump]; split <;> rfl
@[simp] theorem Ctx.jump_root (c : Ctx) (t : Word) : (c.jump t).root = c.root := by dsimp only [Ctx.jump]; split <;> rfl
@[simp] theorem Ctx.jump_space (c : Ctx) (t : Word) : (c.jump t).space = c.space := by dsimp only [Ctx.jump]; split <;> rfl
@[simp] theorem Ctx.jump_cause (c : Ctx) (t : Word) : (c.jump t).cause = c.cause := by dsimp only [Ctx.jump]; split <;> rfl
@[simp] theorem Ctx.jump_subcode (c : Ctx) (t : Word) : (c.jump t).subcode = c.subcode := by dsimp only [Ctx.jump]; split <;> rfl
@[simp] theorem Ctx.jump_cls (c : Ctx) (t : Word) : (c.jump t).cls = c.cls := by dsimp only [Ctx.jump]; split <;> rfl
@[simp] theorem Ctx.jump_faultAddr (c : Ctx) (t : Word) : (c.jump t).faultAddr = c.faultAddr := by dsimp only [Ctx.jump]; split <;> rfl
@[simp] theorem Ctx.jump_keeper (c : Ctx) (t : Word) : (c.jump t).keeper = c.keeper := by dsimp only [Ctx.jump]; split <;> rfl
@[simp] theorem Ctx.jump_kv (c : Ctx) (t : Word) : (c.jump t).kv = c.kv := by dsimp only [Ctx.jump]; split <;> rfl
@[simp] theorem Ctx.jump_task (c : Ctx) (t : Word) : (c.jump t).task = c.task := by dsimp only [Ctx.jump]; split <;> rfl
@[simp] theorem Ctx.jump_free (c : Ctx) (t : Word) : (c.jump t).free = c.free := by dsimp only [Ctx.jump]; split <;> rfl
@[simp] theorem Ctx.jump_reserved (c : Ctx) (t : Word) : (c.jump t).reserved = c.reserved := by dsimp only [Ctx.jump]; split <;> rfl
@[simp] theorem Ctx.jump_sliceUsed (c : Ctx) (t : Word) : (c.jump t).sliceUsed = c.sliceUsed := by dsimp only [Ctx.jump]; split <;> rfl
@[simp] theorem Ctx.jump_worked (c : Ctx) (t : Word) : (c.jump t).worked = c.worked := by dsimp only [Ctx.jump]; split <;> rfl
@[simp] theorem Ctx.jump_beats (c : Ctx) (t : Word) : (c.jump t).beats = c.beats := by dsimp only [Ctx.jump]; split <;> rfl
@[simp] theorem Ctx.jump_mcSent (c : Ctx) (t : Word) : (c.jump t).mcSent = c.mcSent := by dsimp only [Ctx.jump]; split <;> rfl

/-! ### Read back -/

theorem get_put_same {α : Type} (m : List (Nat × α)) (k : Nat) (v d : α) : get (put m k v) k d = v := by
  induction m with
  | nil => simp [put, get]
  | cons p r ih =>
    obtain ⟨j, u⟩ := p
    unfold put
    split
    · simp [get]
    · split
      · simp [get]
      · simp [get, *]

theorem get_put_ne {α : Type} (m : List (Nat × α)) (k n : Nat) (v d : α) (h : n ≠ k) :
    get (put m k v) n d = get m n d := by
  induction m with
  | nil => simp [put, get, Ne.symm h]
  | cons p r ih =>
    obtain ⟨j, u⟩ := p
    unfold put
    split
    · rw [get, if_neg (Ne.symm h)]
    · split
      · next e => subst e; rw [get, get, if_neg (Ne.symm h), if_neg (Ne.symm h)]
      · simp only [get, ih]

theorem find_put_same {α : Type} (m : List (Nat × α)) (k : Nat) (v : α) : find (put m k v) k = some v := by
  induction m with
  | nil => simp [put, find]
  | cons p r ih =>
    obtain ⟨j, u⟩ := p
    unfold put
    split
    · simp [find]
    · split
      · simp [find]
      · simp [find, *]

theorem find_put_ne {α : Type} (m : List (Nat × α)) (k n : Nat) (v : α) (h : n ≠ k) :
    find (put m k v) n = find m n := by
  induction m with
  | nil => simp [put, find, Ne.symm h]
  | cons p r ih =>
    obtain ⟨j, u⟩ := p
    unfold put
    split
    · rw [find, if_neg (Ne.symm h)]
    · split
      · next e => subst e; rw [find, find, if_neg (Ne.symm h), if_neg (Ne.symm h)]
      · simp only [find, ih]

theorem put_put {α : Type} (m : List (Nat × α)) (k : Nat) (u v : α) : put (put m k u) k v = put m k v := by
  induction m with
  | nil => simp [put]
  | cons p r ih =>
    obtain ⟨j, w⟩ := p
    by_cases h : k < j
    · simp [put, h]
    · by_cases h' : j = k
      · subst h'; simp [put]
      · simp [put, h, h', ih]

@[simp] theorem State.ctx_setCtx (s : State) (q : Nat) (c : Ctx) : (s.setCtx q c).ctx q = c := get_put_same ..

theorem State.ctx_setCtx_ne (s : State) (q n : Nat) (c : Ctx) (h : n ≠ q) : (s.setCtx q c).ctx n = s.ctx n :=
  get_put_ne _ _ _ _ _ h

@[simp] theorem State.setCtx_setCtx (s : State) (q : Nat) (c d : Ctx) : (s.setCtx q c).setCtx q d = s.setCtx q d := by
  simp [State.setCtx, put_put]

@[simp] theorem State.ctx_setCore (s : State) (q n : Nat) (x : Core) : (s.setCore q x).ctx n = s.ctx n := rfl

@[simp] theorem State.core_setCtx (s : State) (q n : Nat) (c : Ctx) : (s.setCtx q c).core n = s.core n := rfl

@[simp] theorem State.core_setCore (s : State) (q : Nat) (x : Core) : (s.setCore q x).core q = x := get_put_same ..

@[simp] theorem State.chan_setChan (s : State) (q : Nat) (x : Chan) : (s.setChan q x).chan q = x := get_put_same ..

@[simp] theorem State.queue_setQueue (s : State) (q : Nat) (x : Queue) : (s.setQueue q x).queue q = x := get_put_same ..

@[simp] theorem State.part_setPart (s : State) (q : Nat) (x : Part) : (s.setPart q x).part q = x := get_put_same ..

theorem vget_vset_same {α : Type} {n : Nat} (v : Vector α n) (i : Nat) (x d : α) (h : i < n) :
    vget (vset v i x) i d = x := by
  simp [vget, vset, Vector.getD, h]

theorem vget_vset_ne {α : Type} {n : Nat} (v : Vector α n) (i j : Nat) (x d : α) (h : j ≠ i) :
    vget (vset v i x) j d = vget v j d := by
  unfold vget vset
  by_cases hj : j < n
  · simp [Vector.getD, hj, Ne.symm h]
  · simp [Vector.getD, hj]

@[simp] theorem Ctx.laneOn_setS (c : Ctx) (n : Nat) (x : Word) : (c.setS n x).laneOn = c.laneOn := by simp [Ctx.laneOn]

@[simp] theorem Ctx.laneOn_put (c : Ctx) (n : Nat) (x : Word) : (c.put n x).laneOn = c.laneOn := by simp [Ctx.laneOn]

@[simp] theorem Ctx.getS_zero (c : Ctx) : c.getS 0 = 0 := rfl

@[simp] theorem Ctx.setS_zero (c : Ctx) (x : Word) : c.setS 0 x = c := rfl

@[simp] theorem Ctx.setK_zero (c : Ctx) (x : BitVec 8192) : c.setK 0 x = c := rfl

theorem Ctx.getS_setS (c : Ctx) (n : Nat) (x : Word) (h0 : n ≠ 0) (h : n < 32) : (c.setS n x).getS n = x := by
  simp [Ctx.getS, Ctx.setS, h0, vget_vset_same, h]

theorem Ctx.getS_setS_ne (c : Ctx) (n m : Nat) (x : Word) (h : m ≠ n) : (c.setS n x).getS m = c.getS m := by
  unfold Ctx.getS Ctx.setS
  split
  · rfl
  · split
    · rfl
    · simp [vget_vset_ne, h]

end Sys2Proof.Machine
end

