-- ==== Sys2Proof/Laws/Issue.lean ====
section
/-!
SUPPORT. What the shared operations of the meanings do, once each: settling an outcome, the scalar forms, handing an
instruction to the store buffer, issuing a load, and issuing a vector-queue instruction.
-/
namespace Sys2Proof.Machine

@[simp] theorem settle_ok (s t : State) : settle s (.ok t) = .next t := rfl

theorem settle_trap (s : State) (t : Trap) (f : Option State) :
    settle s (.error (.trap t f)) = .next (raise (f.getD s) s.cur t) := rfl

theorem settle_wait (s t : State) (h : s.c.laneOn = false) : settle s (.error (.wait t)) = .next t := by
  simp [settle, h]

/-- An instruction always goes on: no instruction of a sequencer stops the machine. -/
theorem settle_next (s : State) (m : Except Stop State) : ∃ t, settle s m = .next t := by
  rcases m with (_ | _) | _
  · exact ⟨_, rfl⟩
  · exact ⟨_, rfl⟩
  · exact ⟨_, rfl⟩

/-! ## Operands -/

theorem readS_zero (s : State) (h : OnScalar s) : Reads s 0 0 := by
  intro e w; unfold OnScalar at h; simp [readS, h]

theorem readS_full (s : State) (n : Nat) (h : OnScalar s) (hq : s.c.vqWritesS n = false) (hf : s.c.feS.getLsbD n = true) :
    Reads s n (s.c.getS n) := by
  intro e w
  unfold OnScalar at h
  by_cases h0 : n = 0
  · subst h0; simp [readS, h]
  · simp [readS, h, h0, hq, hf]

theorem readS_lane (s : State) (n : Nat) (h : InLane s) : Reads s n (s.c.slot s.c.laneTurn.val n) := by
  intro e w; unfold InLane at h; simp [readS, h]

/-- A read of a scalar gives a value, waits, or traps with EMPTY_READ. -/
theorem readS_cases (s : State) (n : Nat) (e : Bool) (w : Nat) :
    (∃ x, readS s n e w = .ok x) ∨ readS s n e w = .error (.wait s)
      ∨ readS s n e w = .error (.trap (classA cEMPTY_READ 0 (word w) s.c.at)) := by
  unfold readS
  dsimp only
  split
  · exact .inl ⟨_, rfl⟩
  · split
    · exact .inl ⟨_, rfl⟩
    · split
      · exact .inr (.inl rfl)
      · split
        · exact .inl ⟨_, rfl⟩
        · split
          · exact .inr (.inr rfl)
          · exact .inr (.inl rfl)

/-- A destination is free or the instruction waits. -/
theorem freeDest_cases (s : State) (n : Nat) : freeDest s n = .ok () ∨ freeDest s n = .error (.wait s) := by
  unfold freeDest
  dsimp only
  split
  · exact .inl rfl
  · exact .inr rfl

theorem notLane_ok (s : State) (h : OnScalar s) : notLane s = .ok () := by
  unfold OnScalar at h; simp [notLane, h]

theorem notLane_lane (s : State) (h : InLane s) :
    notLane s = .error (.trap (classA cLANE_MODE 0 (word s.c.laneTurn.val) s.c.at)) := by
  unfold InLane at h; simp [notLane, h]

@[simp] theorem ok_bind {ε α β : Type} (x : α) (f : α → Except ε β) : (Except.ok x >>= f) = f x := rfl

@[simp] theorem error_bind {ε α β : Type} (e : ε) (f : α → Except ε β) : (Except.error e >>= f) = .error e := rfl

theorem freeDests_ok (s : State) (ds : List Nat) (h : ∀ d ∈ ds, Ready s d) : freeDests s ds = .ok () := by
  unfold freeDests
  induction ds with
  | nil => rfl
  | cons d r ih =>
    have hd : freeDest s d = .ok () := h d (by simp)
    show (freeDest s d >>= fun _ => r.forM (freeDest s)) = _
    rw [hd]
    exact ih (fun x hx => h x (by simp [hx]))

/-! ## Scalar forms -/

theorem alu2_next (w : Nat) (x : Alu2) (f : Word → Word → Word) (s : State) (a b : Word) (ha : Reads s x.a.val a)
    (hb : Reads s x.b.val b) (hd : Ready s x.d.val) : alu2 w x f s = .next (wrote s x.d.val (f a b)) := by
  unfold alu2 Ready at *
  simp [ha x.ea w, hb x.eb w, hd, wrote, pure, Except.pure]

theorem alu1_next (w a d : Nat) (e : Bool) (f : Word → Word) (s : State) (v : Word) (ha : Reads s a v) (hd : Ready s d) :
    alu1 w a d e f s = .next (wrote s d (f v)) := by
  unfold alu1 Ready at *
  simp [ha e w, hd, wrote, pure, Except.pure]

theorem divide_next (w : Nat) (x : Alu2) (f : Word → Word → Word) (s : State) (a b : Word) (ha : Reads s x.a.val a)
    (hb : Reads s x.b.val b) (hd : Ready s x.d.val) (hl : s.lockstep = true) :
    divide w x f s = .next (wrote s x.d.val (f a b)) := by
  unfold divide Ready at *
  simp [ha x.ea w, hb x.eb w, hd, wrote, pure, Except.pure, hl]

theorem setConst_next (w : Nat) (x : SetK) (keep : Bool) (s : State) (v : Word) (hv : Reads s x.d.val v)
    (hd : Ready s x.d.val) : setConst w x keep s
      = .next (wrote s x.d.val (word (setField (if keep then v.toNat else 0) (16 * x.slot.val) 16 x.imm.toNat))) := by
  unfold setConst Ready at *
  cases keep <;> simp [hv false w, hd, wrote, pure, Except.pure]

theorem branch_next (w : Nat) (x : BrC) (cond : Word → Word → Bool) (s : State) (a b : Word) (ha : Reads s x.a.val a)
    (hb : Reads s x.b.val b) :
    branch w x cond s = .next (if cond a b then jumped s (s.pc + wordOff x.off) else passed s) := by
  unfold branch
  simp only [ha false w, hb false w, ok_bind, pure, Except.pure, settle_ok, jumped, passed]
  congr 1
  split <;> rfl

/-! ## Held instructions and loads -/

theorem quiet_lists (c : Ctx) (h : c.quiet = true) :
    c.viq = [] ∧ c.run = [] ∧ c.sb = [] ∧ c.loads = [] ∧ c.divs = [] ∧ c.pend = none := by
  unfold Ctx.quiet at h
  simp only [Bool.and_eq_true, List.isEmpty_iff, Option.isNone_iff_eq_none] at h
  obtain ⟨⟨⟨⟨⟨h1, h2⟩, h3⟩, h4⟩, h5⟩, h6⟩ := h
  exact ⟨h1, h2, h3, h4, h5, h6⟩

theorem lockstep_quiet (s : State) (h : s.lockstep = true) : s.c.quiet = true := by
  unfold State.lockstep at h
  simp only [Bool.and_eq_true] at h
  exact h.1

theorem emptyAll_viq (ds : List Nat) : ∀ (c : Ctx), (ds.foldl (fun (c : Ctx) d => c.empty d) c).viq = c.viq := by
  induction ds with
  | nil => intro c; rfl
  | cons d r ih => intro c; simp [ih]

theorem emptyAll_run (ds : List Nat) : ∀ (c : Ctx), (ds.foldl (fun (c : Ctx) d => c.empty d) c).run = c.run := by
  induction ds with
  | nil => intro c; rfl
  | cons d r ih => intro c; simp [ih]

theorem emptyAll_sb (ds : List Nat) : ∀ (c : Ctx), (ds.foldl (fun (c : Ctx) d => c.empty d) c).sb = c.sb := by
  induction ds with
  | nil => intro c; rfl
  | cons d r ih => intro c; simp [ih]

theorem emptyAll_loads (ds : List Nat) : ∀ (c : Ctx), (ds.foldl (fun (c : Ctx) d => c.empty d) c).loads = c.loads := by
  induction ds with
  | nil => intro c; rfl
  | cons d r ih => intro c; simp [ih]

theorem hold_ahead (s : State) (op : HeldOp) (w : Nat) (ds : List Nat) (move : Ctx → Ctx) (hd : ∀ d ∈ ds, Ready s d)
    (h : Ahead s) : hold s op w ds move = .ok (heldState s op w ds move) := by
  obtain ⟨h1, h2, h3⟩ := h
  unfold hold
  simp only [freeDests_ok s ds hd, ok_bind, h1, h2, Nat.not_le.mpr h3, if_false, Bool.false_eq_true, Bool.false_and, pure,
    Except.pure, heldState, heldAs]

theorem hold_inStep (s : State) (op : HeldOp) (w : Nat) (ds : List Nat) (move : Ctx → Ctx) (hd : ∀ d ∈ ds, Ready s d)
    (hm : ∀ c : Ctx, (move c).viq = c.viq ∧ (move c).run = c.run ∧ (move c).sb = c.sb ∧ (move c).loads = c.loads)
    (h : InStep s) (t : State) (rs : List (Nat × Word))
    (hp : perform (heldState s op w ds move) s.cur (heldAs s op w).halves.1 = .ok (t, rs)) :
    hold s op w ds move = .ok (performedState t s.cur s.c.ord rs (heldAs s op w).halves.2) := by
  obtain ⟨h1, h2⟩ := h
  obtain ⟨q1, q2, q3, q4, _, _⟩ := quiet_lists _ (lockstep_quiet _ h2)
  unfold hold
  rw [freeDests_ok s ds hd]
  simp only [ok_bind, h1, h2, if_true, if_false, Bool.false_eq_true, Bool.false_and, pure, Except.pure]
  rw [if_neg (by rw [q3]; decide)]
  have hc : (heldState s op w ds move).ctx s.cur
      = move (ds.foldl (fun (c : Ctx) d => c.empty d) { s.c with sb := s.c.sb ++ [heldAs s op w] }) := by
    unfold heldState State.withC; exact State.ctx_setCtx ..
  have e1 : ((heldState s op w ds move).ctx s.cur).viq = [] := by rw [hc, (hm _).1, emptyAll_viq]; exact q1
  have e2 : ((heldState s op w ds move).ctx s.cur).run = [] := by rw [hc, (hm _).2.1, emptyAll_run]; exact q2
  have e3 : ((heldState s op w ds move).ctx s.cur).sb = [heldAs s op w] := by
    rw [hc, (hm _).2.2.1, emptyAll_sb]; simp [q3]
  have e4 : ((heldState s op w ds move).ctx s.cur).loads = [] := by rw [hc, (hm _).2.2.2, emptyAll_loads]; exact q4
  have hmay : ((heldState s op w ds move).ctx s.cur).mayPerform (heldAs s op w) = true := by
    simp [Ctx.mayPerform, Ctx.elementsAhead, Ctx.arithAhead, Ctx.older, e1, e2, e4]
  have hord : (heldAs s op w).halves.1.ord = s.c.ord := by
    unfold Held.halves
    split
    · split <;> rfl
    · rfl
  have key : heldStep (heldState s op w ds move) s.cur
      = .ok (performedState t s.cur s.c.ord rs (heldAs s op w).halves.2) := by
    unfold heldStep
    dsimp only
    rw [e3]
    dsimp only
    rw [hmay]
    simp only [Bool.not_true, Bool.false_eq_true, if_false, hp, hord]
    rfl
  show Except.ok (backEnd (heldState s op w ds move) s.cur heldStep) = _
  unfold backEnd
  rw [key]

theorem advance_keeps (c : Ctx) : c.advance.viq = c.viq ∧ c.advance.run = c.run ∧ c.advance.sb = c.sb
    ∧ c.advance.loads = c.loads := by simp

theorem hold_inLane (s : State) (op : HeldOp) (w : Nat) (ds : List Nat) (move : Ctx → Ctx) (hd : ∀ d ∈ ds, Ready s d)
    (h : InLane s) (hl : laneHolds s op = true) (h3 : s.c.sb.length < 16) :
    hold s op w ds move = .ok (laneHeldState s op w) := by
  unfold InLane at h
  unfold hold
  simp only [freeDests_ok s ds hd, ok_bind, h, hl, Nat.not_le.mpr h3, if_false, if_true, Bool.true_and, pure, Except.pure,
    laneHeldState, heldAs]

theorem hold_performed (s : State) (op : HeldOp) (w : Nat) (ds : List Nat) (move : Ctx → Ctx) (hd : ∀ d ∈ ds, Ready s d)
    (h : InLane s) (hl : laneHolds s op = false) (h3 : s.c.sb = []) (t : State) (rs : List (Nat × Word))
    (hp : perform s s.cur (heldAs s op w) = .ok (t, rs)) :
    hold s op w ds move = .ok (t.withC (putAll t.c rs).advance) := by
  unfold InLane at h
  unfold heldAs at hp
  unfold hold
  simp only [freeDests_ok s ds hd, ok_bind, h, hl, h3, hp, if_false, if_true, Bool.true_and, Bool.false_eq_true, pure, Except.pure,
    List.isEmpty_nil, Bool.not_true]

/-- In lane mode an instruction whose meaning comes down to `hold` does what `PerformsInLane` says. -/
theorem performsInLane_of {i : Instr} {s0 s : State} {op : HeldOp} {w : Nat} {ds : List Nat} {move : Ctx → Ctx}
    (he : exec i s0 = settle s0 (hold s op w ds move)) (hd : ∀ d ∈ ds, Ready s d) : PerformsInLane i s0 s op w :=
  ⟨fun h hl h3 => by rw [he, hold_inLane s op w ds move hd h hl h3, settle_ok],
   fun t rs h hl h3 hp => by rw [he, hold_performed s op w ds move hd h hl h3 t rs hp, settle_ok]⟩

/-- An instruction whose meaning comes down to `hold` is held as `Holds` says. -/
theorem holds_of {i : Instr} {s0 s : State} {op : HeldOp} {w : Nat} {ds : List Nat} {move : Ctx → Ctx}
    (he : exec i s0 = settle s0 (hold s op w ds move)) (hd : ∀ d ∈ ds, Ready s d)
    (hm : ∀ c : Ctx, (move c).viq = c.viq ∧ (move c).run = c.run ∧ (move c).sb = c.sb ∧ (move c).loads = c.loads) :
    Holds i s0 s op w ds move :=
  ⟨fun h => by rw [he, hold_ahead s op w ds move hd h, settle_ok],
   fun t rs h hp => by rw [he, hold_inStep s op w ds move hd hm h t rs hp, settle_ok]⟩

theorem issueLoad_ahead (s : State) (l : Load) (ds : List Nat) (hd : ∀ d ∈ ds, Ready s d) (h1 : s.c.laneOn = false)
    (h2 : s.lockstep = false) : issueLoad s l ds = .ok (issuedState s l ds) := by
  unfold issueLoad
  simp only [freeDests_ok s ds hd, ok_bind, h1, h2, if_false, Bool.false_eq_true, pure, Except.pure, issuedState]

theorem issueLoad_inStep (s : State) (l : Load) (ds : List Nat) (hd : ∀ d ∈ ds, Ready s d) (h : InStep s) (t : State)
    (rs : List (Nat × Word)) (hp : loadData (issuedState s l ds) s.cur l.halves.1 = .ok (t, rs)) :
    issueLoad s l ds = .ok (returnedState t s.cur l.ord rs l.halves.2) := by
  obtain ⟨h1, h2⟩ := h
  obtain ⟨q1, q2, q3, q4, _, _⟩ := quiet_lists _ (lockstep_quiet _ h2)
  unfold issueLoad
  rw [freeDests_ok s ds hd]
  simp only [ok_bind, h1, h2, if_true, if_false, Bool.false_eq_true, pure, Except.pure]
  have hc : (issuedState s l ds).ctx s.cur
      = (ds.foldl (fun (c : Ctx) d => c.empty d) { s.c with loads := s.c.loads ++ [l] }).advance := by
    unfold issuedState State.withC; exact State.ctx_setCtx ..
  have e1 : ((issuedState s l ds).ctx s.cur).viq = [] := by rw [hc]; simp [emptyAll_viq, q1]
  have e2 : ((issuedState s l ds).ctx s.cur).run = [] := by rw [hc]; simp [emptyAll_run, q2]
  have e3 : ((issuedState s l ds).ctx s.cur).sb = [] := by rw [hc]; simp [emptyAll_sb, q3]
  have e4 : ((issuedState s l ds).ctx s.cur).loads = [l] := by rw [hc]; simp [emptyAll_loads, q4]
  have hmay : ((issuedState s l ds).ctx s.cur).mayRead l.ord l.x l.n = true := by
    simp [Ctx.mayRead, Ctx.elementsAhead, Ctx.heldAhead, Ctx.loadsAhead, Ctx.older, e1, e2, e3, e4]
  have hacq : ((issuedState s l ds).ctx s.cur).acquireWaits l = false := by
    unfold Ctx.acquireWaits
    split <;> simp [Ctx.ownAhead, e3]
  have hord : l.halves.1.ord = l.ord := by unfold Load.halves; split <;> rfl
  have key : loadStep (issuedState s l ds) s.cur 0 = .ok (returnedState t s.cur l.ord rs l.halves.2) := by
    unfold loadStep
    dsimp only
    rw [e4]
    dsimp only [List.getElem?_cons_zero]
    rw [hmay, hacq]
    simp only [Bool.not_true, Bool.or_false, Bool.and_false, Bool.false_eq_true, if_false, hp, liftB, hord]
    rfl
  show Except.ok (backEnd (issuedState s l ds) s.cur fun s q => loadStep s q 0) = _
  unfold backEnd
  dsimp only
  rw [key]

end Sys2Proof.Machine
end

