-- ==== Sys2Proof/Laws/Memory.lean ====
section
/-!
SUPPORT. The laws of byte memories (R7): a write keeps the canonical form, is read back, and leaves every other byte; and
that the steps of the ordering machine which write a home keep the canonical form of device and host memory.
-/
namespace Sys2Proof.Machine

/-! ## Sorted maps -/

theorem sortedFrom_mono {α : Type} {lo lo' : Nat} (h : lo' ≤ lo) :
    ∀ {m : List (Nat × α)}, sortedFrom lo m = true → sortedFrom lo' m = true
  | [], _ => rfl
  | (j, u) :: r, hs => by
    simp only [sortedFrom, Bool.and_eq_true, decide_eq_true_eq] at hs ⊢
    exact ⟨by omega, hs.2⟩

theorem sortedFrom_put {α : Type} (k : Nat) (v : α) :
    ∀ {lo : Nat} {m : List (Nat × α)}, lo ≤ k → sortedFrom lo m = true → sortedFrom lo (put m k v) = true
  | lo, [], h, _ => by simp [put, sortedFrom, h]
  | lo, (j, u) :: r, h, hs => by
    simp only [sortedFrom, Bool.and_eq_true, decide_eq_true_eq] at hs
    unfold put
    split
    · next hk => simp [sortedFrom, h, hs.2]; omega
    · split
      · next e => subst e; simp [sortedFrom, hs]
      · next hk he =>
        have := sortedFrom_put k v (lo := j + 1) (m := r) (by omega) hs.2
        simp [sortedFrom, hs.1, this]

theorem sortedFrom_del {α : Type} (k : Nat) :
    ∀ {lo : Nat} {m : List (Nat × α)}, sortedFrom lo m = true → sortedFrom lo (del m k) = true
  | lo, [], _ => rfl
  | lo, (j, u) :: r, hs => by
    simp only [sortedFrom, Bool.and_eq_true, decide_eq_true_eq] at hs
    unfold del
    split
    · exact sortedFrom_mono (by omega) hs.2
    · simp [sortedFrom, hs.1, sortedFrom_del k hs.2]

theorem get_below {α : Type} (d : α) (n : Nat) :
    ∀ {lo : Nat} {m : List (Nat × α)}, sortedFrom lo m = true → n < lo → get m n d = d
  | lo, [], _, _ => rfl
  | lo, (j, u) :: r, hs, h => by
    simp only [sortedFrom, Bool.and_eq_true, decide_eq_true_eq] at hs
    unfold get
    rw [if_neg (by omega)]
    exact get_below d n hs.2 (by omega)

theorem get_del_same {α : Type} (d : α) (k : Nat) :
    ∀ {lo : Nat} {m : List (Nat × α)}, sortedFrom lo m = true → get (del m k) k d = d
  | lo, [], _ => rfl
  | lo, (j, u) :: r, hs => by
    simp only [sortedFrom, Bool.and_eq_true, decide_eq_true_eq] at hs
    unfold del
    split
    · next e => subst e; exact get_below d j hs.2 (by omega)
    · next e => unfold get; rw [if_neg e]; exact get_del_same d k hs.2

theorem get_del_ne {α : Type} (d : α) (k n : Nat) (h : n ≠ k) :
    ∀ {m : List (Nat × α)}, get (del m k) n d = get m n d
  | [] => rfl
  | (j, u) :: r => by
    unfold del
    split
    · next e => subst e; rw [get, if_neg (Ne.symm h)]
    · rw [get, get, get_del_ne d k n h]

theorem find_del_ne {α : Type} (k n : Nat) (h : n ≠ k) :
    ∀ {m : List (Nat × α)}, find (del m k) n = find m n
  | [] => rfl
  | (j, u) :: r => by
    unfold del
    split
    · next e => subst e; rw [find, if_neg (Ne.symm h)]
    · rw [find, find, find_del_ne k n h]

theorem all_put {α : Type} (p : Nat × α → Bool) (k : Nat) (v : α) :
    ∀ {m : List (Nat × α)}, m.all p = true → p (k, v) = true → (put m k v).all p = true
  | [], _, hv => by simp [put, hv]
  | (j, u) :: r, hm, hv => by
    simp only [List.all_cons, Bool.and_eq_true] at hm
    unfold put
    split
    · simp [hv, hm.1]; simpa using hm.2
    · split
      · simp [hv]; simpa using hm.2
      · rw [List.all_cons, hm.1, all_put p k v hm.2 hv]; rfl

theorem all_del {α : Type} (p : Nat × α → Bool) (k : Nat) :
    ∀ {m : List (Nat × α)}, m.all p = true → (del m k).all p = true
  | [], _ => rfl
  | (j, u) :: r, hm => by
    simp only [List.all_cons, Bool.and_eq_true] at hm
    unfold del
    split
    · exact hm.2
    · rw [List.all_cons, hm.1, all_del p k hm.2]; rfl

/-! ## Bytes -/

/-- A write keeps the canonical form. -/
theorem Memory.wf_write {m : List Host.Cell} (h : Memory.wf m = true) (a : Nat) (b : Byte) :
    Memory.wf (Memory.write m a b) = true := by
  simp only [Memory.wf, Bool.and_eq_true] at h ⊢
  unfold Memory.write
  split
  · exact ⟨sortedFrom_del a h.1, all_del _ a h.2⟩
  · next hb => exact ⟨sortedFrom_put a b (Nat.zero_le _) h.1, all_put _ a b h.2 (by simpa using hb)⟩

/-- A write of several bytes keeps the canonical form. -/
theorem Memory.wf_writeN (n : Nat) :
    ∀ {m : List Host.Cell}, Memory.wf m = true → ∀ a v, Memory.wf (Memory.writeN m a n v) = true := by
  induction n with
  | zero => intro m h a v; exact h
  | succ n ih => intro m h a v; exact ih (Memory.wf_write h a _) _ _

/-- A byte written is read back. -/
theorem Memory.read_write_same {m : List Host.Cell} (h : Memory.wf m = true) (a : Nat) (b : Byte) :
    Memory.read (Memory.write m a b) a = b := by
  simp only [Memory.wf, Bool.and_eq_true] at h
  unfold Memory.read Memory.write
  split
  · next hb => rw [hb]; exact get_del_same 0 a h.1
  · exact get_put_same ..

/-- A write leaves every other byte. -/
theorem Memory.read_write_ne (m : List Host.Cell) (a n : Nat) (b : Byte) (h : n ≠ a) :
    Memory.read (Memory.write m a b) n = Memory.read m n := by
  unfold Memory.read Memory.write
  split
  · exact get_del_ne _ a n h
  · exact get_put_ne _ a n b _ h

/-- A write of several bytes leaves every byte outside them. -/
theorem Memory.read_writeN_ne (k : Nat) :
    ∀ (m : List Host.Cell) (a v n : Nat), (n < a ∨ a + k ≤ n) → Memory.read (Memory.writeN m a k v) n = Memory.read m n := by
  induction k with
  | zero => intros; rfl
  | succ k ih =>
    intro m a v n h
    rw [Memory.writeN, ih _ _ _ _ (by omega), Memory.read_write_ne _ _ _ _ (by omega)]

/-- Each byte of a write of several is read back. -/
theorem Memory.read_writeN (k : Nat) :
    ∀ {m : List Host.Cell}, Memory.wf m = true → ∀ (a v i : Nat), i < k →
      Memory.read (Memory.writeN m a k v) (a + i) = BitVec.ofNat 8 (v / 256 ^ i) := by
  induction k with
  | zero => intro m _ a v i h; omega
  | succ k ih =>
    intro m hm a v i h
    rw [Memory.writeN]
    cases i with
    | zero =>
      rw [Memory.read_writeN_ne k _ _ _ _ (by omega), Nat.add_zero, Memory.read_write_same hm]
      simp
    | succ i =>
      have e : a + (i + 1) = a + 1 + i := by omega
      rw [e, ih (Memory.wf_write hm a _) (a + 1) (v / 256) i (by omega), Nat.div_div_eq_div_mul, Nat.pow_succ,
        Nat.mul_comm (256 ^ i)]

/-- A number written in bytes is read back. -/
theorem Memory.readN_writeN (k : Nat) :
    ∀ {m : List Host.Cell}, Memory.wf m = true → ∀ (a v : Nat),
      Memory.readN (Memory.writeN m a k v) a k = v % 256 ^ k := by
  have low : ∀ (k : Nat) (m : List Host.Cell) (a : Nat) (f : Nat → Nat),
      (∀ i, i < k → (Memory.read m (a + i)).toNat = f i) →
      Memory.readN m a k = (List.range k).foldr (fun i n => f i * 256 ^ i + n) 0 := by
    intro k
    induction k with
    | zero => intros; rfl
    | succ k ih =>
      intro m a f h
      have e := ih m (a + 1) (fun i => f (i + 1)) (fun i hi => by
        have := h (i + 1) (by omega)
        rwa [show a + (i + 1) = a + 1 + i by omega] at this)
      have h0 := h 0 (by omega)
      simp only [Nat.add_zero] at h0
      rw [Memory.readN, e, h0, List.range_succ_eq_map, List.foldr_cons, List.foldr_map]
      simp only [Nat.pow_zero, Nat.mul_one]
      congr 1
      clear h e h0 ih
      generalize List.range k = l
      induction l with
      | nil => rfl
      | cons x r ih => simp only [List.foldr_cons, Nat.mul_add, ih, Nat.succ_eq_add_one, Nat.pow_succ]; ring
  have val : ∀ (k v : Nat), (List.range k).foldr (fun i n => v / 256 ^ i % 256 * 256 ^ i + n) 0 = v % 256 ^ k := by
    have gen : ∀ (k : Nat) (z v : Nat), (List.range k).foldr (fun i n => v / 256 ^ i % 256 * 256 ^ i + n) z
        = v % 256 ^ k + z := by
      intro k
      induction k with
      | zero => intro z v; simp [Nat.mod_one]
      | succ k ih =>
        intro z v
        rw [List.range_succ, List.foldr_append]
        simp only [List.foldr_cons, List.foldr_nil]
        rw [ih, Nat.mod_pow_succ]
        ring
    intro k v
    simpa using gen k 0 v
  intro m hm a v
  rw [low k _ a (fun i => v / 256 ^ i % 256) (fun i hi => by rw [Memory.read_writeN k hm a v i hi]; simp), val]

/-! ## The homes -/

theorem memOk_reset : State.reset.memOk := ⟨rfl, rfl, rfl⟩

theorem memOk_of_eq {s t : State} (h : s.memOk) (h1 : t.mem = s.mem) (h2 : t.hostMem = s.hostMem)
    (h3 : t.peerMem = s.peerMem) : t.memOk := by
  unfold State.memOk; rw [h1, h2, h3]; exact h

@[simp] theorem dirtyLlc_mem (s : State) (w : Nat) : (dirtyLlc s w).mem = s.mem := by unfold dirtyLlc; split <;> rfl

@[simp] theorem dirtyLlc_hostMem (s : State) (w : Nat) : (dirtyLlc s w).hostMem = s.hostMem := by
  unfold dirtyLlc; split <;> rfl

@[simp] theorem dirtyLlc_peerMem (s : State) (w : Nat) : (dirtyLlc s w).peerMem = s.peerMem := by
  unfold dirtyLlc; split <;> rfl

theorem memOk_dirtyLlc {s : State} (h : s.memOk) (w : Nat) : (dirtyLlc s w).memOk :=
  memOk_of_eq h (dirtyLlc_mem s w) (dirtyLlc_hostMem s w) (dirtyLlc_peerMem s w)

theorem memOk_discardLlc {s : State} (h : s.memOk) (w : Nat) : (discardLlc s w).memOk := by
  unfold discardLlc
  split
  · split
    · exact ⟨h.1, Memory.wf_writeN 4 h.2.1 _ _, h.2.2⟩
    · exact ⟨Memory.wf_writeN 4 h.1 _ _, h.2.1, h.2.2⟩
  · exact h

theorem memOk_setHomeWord {s : State} (h : s.memOk) (w : Nat) (v : BitVec 32) : (setHomeWord s w v).memOk := by
  unfold setHomeWord
  have h := memOk_dirtyLlc h w
  dsimp only
  split
  · exact ⟨h.1, Memory.wf_writeN 4 h.2.1 _ _, h.2.2⟩
  · exact ⟨Memory.wf_writeN 4 h.1 _ _, h.2.1, h.2.2⟩

theorem iterate_keeps {α : Type} (p : α → Prop) (f : Nat → α → α) (hf : ∀ i x, p x → p (f i x)) :
    ∀ (n i : Nat) (x : α), p x → p (iterate f n i x)
  | 0, _, _, h => h
  | n + 1, i, x, h => iterate_keeps p f hf n (i + 1) _ (hf i x h)

theorem memOk_overWords {f : State → Nat → State} (hf : ∀ s w, s.memOk → (f s w).memOk) {s : State} (h : s.memOk)
    (b n : Nat) : (overWords f s b n).memOk :=
  iterate_keeps State.memOk _ (fun _ x hx => hf x _ hx) _ _ _ h

theorem memOk_writeBack {s : State} (h : s.memOk) (b : Nat) (l : Line) : (writeBack s b l).memOk := by
  unfold writeBack
  split
  · exact h
  · refine memOk_overWords (fun s w hs => ?_) h _ _
    split
    · exact memOk_setHomeWord hs _ _
    · split
      · exact memOk_setHomeWord hs _ _
      · exact hs
    · exact hs

theorem memOk_unregister {s : State} (h : s.memOk) (c w : Nat) : (unregister s c w).memOk := by
  unfold unregister; split <;> exact h

theorem memOk_setPlaced {s : State} (h : s.memOk) (c w : Nat) (v : Option (BitVec 32)) : (setPlaced s c w v).memOk := by
  unfold setPlaced; split <;> exact h

theorem memOk_dropDieWord {s : State} (h : s.memOk) (d w : Nat) : (dropDieWord s d w).memOk := by
  unfold dropDieWord
  split
  · exact h
  · split
    · exact memOk_setPlaced h _ _ _
    · exact memOk_unregister h _ _
  · exact h

theorem memOk_forwardWords {s : State} (h : s.memOk) (b : Nat) (l : Line) (d : Nat) : (forwardWords s b l d).memOk := by
  unfold forwardWords
  split
  · exact h
  · split
    · exact h
    · refine memOk_overWords (fun s w hs => ?_) h _ _
      have hm : ∀ v : BitVec 32, State.memOk (match find s.die (unitKey d w) with
            | some (.core c) => if pendingExport s c w then setPlaced s c w (some v) else s
            | _ => { s with die := put s.die (unitKey d w) (.value v) }) := by
        intro v
        split
        · split
          · exact memOk_setPlaced hs _ _ _
          · exact hs
        · exact hs
      dsimp only
      split
      · exact hm _
      · split
        · exact hm _
        · exact hs
      · exact hs

/-- A choice between states keeps what both keep. -/
theorem memOk_ite (p : Prop) [Decidable p] {x y : State} (hx : x.memOk) (hy : y.memOk) : (if p then x else y).memOk := by
  split <;> assumption

theorem memOk_lines {s : State} (h : s.memOk) (x : List (Nat × Line)) : State.memOk { s with lines := x } := h

theorem memOk_llc {s : State} (h : s.memOk) (x : List (Nat × BitVec 32)) : State.memOk { s with llc := x } := h

theorem memOk_dieVer {s : State} (h : s.memOk) (x : List (Nat × BitVec 8)) : State.memOk { s with dieVer := x } := h

theorem memOk_queueInv {s : State} (h : s.memOk) (b n : Nat) (d v : BitVec 8) : (queueInv s b n d v).memOk := h

theorem memOk_applyEvent {s : State} (h : s.memOk) (b ev : Nat) (r : Option Nat) : (applyEvent s b ev r).1.memOk := by
  unfold applyEvent
  split
  · exact h
  · next l _ =>
    have h1 := memOk_ite ((entryActs (entryFor s l ev)).testBit 7 = true) (memOk_writeBack h b l) h
    rcases r with _ | d <;> dsimp only
    · have h2 := fun (x : Nat) (y z : BitVec 8) =>
        memOk_ite ((entryActs (entryFor s l ev)).testBit 4 = true) (memOk_queueInv h1 b x y z) h1
      split <;> exact memOk_lines (memOk_ite _ (memOk_llc (h2 _ _ _) _) (h2 _ _ _)) _
    · have h2 := memOk_ite (((entryActs (entryFor s l ev)).testBit 6 && !(entryActs (entryFor s l ev)).testBit 7) = true)
        (memOk_forwardWords h1 b l d) h1
      have h3 := fun (x : Nat) (y z : BitVec 8) =>
        memOk_ite ((entryActs (entryFor s l ev)).testBit 4 = true) (memOk_queueInv h2 b x y z) h2
      split <;> exact memOk_lines (memOk_ite _
        (memOk_llc (memOk_ite _ (memOk_dieVer (h3 _ _ _) _) (h3 _ _ _)) _)
        (memOk_ite _ (memOk_dieVer (h3 _ _ _) _) (h3 _ _ _))) _

theorem memOk_updateDie {s : State} (h : s.memOk) (d w : Nat) (v : BitVec 32) : (updateDie s d w v).memOk := h

theorem memOk_applyUpdate {s : State} (h : s.memOk) (d w : Nat) (v : BitVec 32) : (applyUpdate s d w v).memOk := by
  unfold applyUpdate
  split
  · exact memOk_updateDie h _ _ _
  · split
    · exact memOk_setPlaced h _ _ _
    · exact memOk_updateDie (memOk_unregister h _ _) _ _ _
  · exact h

theorem foldl_keeps {α β : Type} (p : β → Prop) (f : β → α → β) (hf : ∀ x a, p x → p (f x a)) :
    ∀ (l : List α) (x : β), p x → p (l.foldl f x)
  | [], _, h => h
  | a :: r, x, h => foldl_keeps p f hf r _ (hf x a h)

theorem memOk_applyDelivery {s : State} (h : s.memOk) (d : Delivery) : (applyDelivery s d).memOk := by
  unfold applyDelivery
  refine memOk_ite _ h ?_
  dsimp only
  split
  · exact memOk_overWords (fun s w hs => memOk_dropDieWord hs _ _) (s := { s with stamp := s.stamp + 1 }) h _ _
  · exact foldl_keeps State.memOk _ (fun x u hx => memOk_applyUpdate hx _ _ _) _ _
      (show State.memOk { s with stamp := s.stamp + 1 } from h)

theorem memOk_deliverOne {s : State} (h : s.memOk) (a b : Nat) : (deliverOne s a b).memOk := by
  unfold deliverOne
  split
  · refine memOk_applyDelivery ?_ _
    exact h
  · exact h

theorem memOk_flushFor {s : State} (h : s.memOk) (d : Nat) (p : Delivery → Bool) : (flushFor s d p).memOk :=
  iterate_keeps State.memOk _ (fun _ x hx => by
    split
    · exact memOk_deliverOne hx _ _
    · exact hx) _ _ _ h

theorem memOk_flushWord {s : State} (h : s.memOk) (d w : Nat) : (flushWord s d w).memOk := memOk_flushFor h d _

theorem memOk_flushLine {s : State} (h : s.memOk) (d b n : Nat) : (flushLine s d b n).memOk := memOk_flushFor h d _

theorem memOk_giveDie {s : State} (h : s.memOk) (d w : Nat) : (giveDie s d w).memOk := by
  unfold giveDie
  split
  · split
    · split
      · exact h
      · exact memOk_unregister h _ _
    · exact h
  · exact h

theorem memOk_flushAll {s : State} (h : s.memOk) : (flushAll s).memOk := by
  refine iterate_keeps State.memOk _ (fun _ x hx => ?_) _ _ _ h
  split
  · refine memOk_applyDelivery ?_ _
    exact hx
  · exact hx

theorem memOk_takeLine {s : State} (h : s.memOk) (g sl a : Nat) : (takeLine s g sl a).1.memOk := by
  unfold takeLine
  dsimp only
  split
  · split
    · exact h
    · exact foldl_keeps State.memOk _ (fun x _ hx => memOk_applyEvent hx _ _ _) _ _ h
  · exact foldl_keeps State.memOk _ (fun x _ hx => memOk_applyEvent hx _ _ _) _ _ h

theorem memOk_touchGranule {s : State} (h : s.memOk) (d a : Nat) : (touchGranule s d a).memOk := by
  unfold touchGranule
  split
  · exact h
  · split <;> exact h

theorem memOk_fireShutter {s : State} (h : s.memOk) (n : Nat) : (fireShutter s n).memOk := by
  unfold fireShutter; split <;> exact h

theorem memOk_addressTrigger {s : State} (h : s.memOk) (a n : Nat) : (addressTrigger s a n).memOk := by
  unfold addressTrigger
  split
  · exact memOk_fireShutter h _
  · exact h

/-- Exporting a line keeps what exporting a word keeps. -/
theorem memOk_exportLine {s : State} (h : s.memOk) (hx : ∀ t d w t' u, State.memOk t →
    exportWord t d w = .ok (t', u) → t'.memOk) (b g : Nat) : (exportLine s b g).memOk := by
  refine iterate_keeps State.memOk _ (fun i x h0 => ?_) _ _ _ h
  refine iterate_keeps State.memOk _ (fun d y h1 => ?_) _ _ _ h0
  split
  · next heq => exact hx _ _ _ _ _ h1 heq
  · exact h1

theorem memOk_recallLine {s : State} (h : s.memOk) (hx : ∀ t d w t' u, State.memOk t →
    exportWord t d w = .ok (t', u) → t'.memOk) (a : Nat) : (recallLine s a).memOk := by
  unfold recallLine
  split
  · exact memOk_flushAll (memOk_applyEvent (memOk_exportLine h hx _ _) _ _ _)
  · exact h

end Sys2Proof.Machine
end

