-- ==== Sys2Proof/Laws/PerInstr.lean ====
section
/-!
SUPPORT. Statements made instruction by instruction. RoundTrip: the word of a well-formed instruction decodes to that
instruction (R88, R89, R93 to R96); the steps of other agents have no word.
-/
namespace Sys2Proof.Laws.RoundTrip

set_option Elab.async false

/-- The word of a well-formed instruction decodes to it. -/
def Statement (i : Instr) : Prop := ∀ w, i.wf = true → encode i = some w → decode w = i

theorem zeroWord (x : ZeroW) : Statement (.zeroWord x) := by
  intro w hw h
  simp only [encode, Option.some.injEq] at h
  subst h
  obtain ⟨r⟩ := x
  have k : Packed [(0, 7), (r.toNat, 25)] := ⟨by decide, r.isLt, trivial⟩
  refine decode_of_pack _ [(0, 7), (r.toNat, 25)] _ (by simp only [ZeroW.enc, pack]; omega) k rfl ?_ hw
  generalize hn : pack [(0, 7), (r.toNat, 25)] = n at *
  have h0 : n % 128 = 0 := by subst hn; exact pack_mod [(0, 7)] _ k
  have h1 : n / 2 ^ 7 % 2 ^ 25 = r.toNat := by subst hn; exact pack_one [(0, 7)] [] _ 25 k
  unfold rowOf; rw [h0]
  exact congrArg (fun y => some (Instr.zeroWord ⟨y⟩)) (bitVec_of _ _ h1)

theorem reservedOpcode (x : ResW) : Statement (.reservedOpcode x) := by
  intro w hw h
  simp only [encode, Option.some.injEq] at h
  subst h
  obtain ⟨r, l⟩ := x
  have k : Packed [(l.toNat, 5), (3, 2), (r.toNat, 25)] := ⟨l.isLt, by decide, r.isLt, trivial⟩
  refine decode_of_pack _ [(l.toNat, 5), (3, 2), (r.toNat, 25)] _ (by simp only [ResW.enc, pack]; omega) k rfl ?_ hw
  generalize hn : pack [(l.toNat, 5), (3, 2), (r.toNat, 25)] = n at *
  have h0 : n % 128 = pack [(l.toNat, 5), (3, 2)] := by subst hn; exact pack_mod [(l.toNat, 5), (3, 2)] _ k
  have h1 : n / 2 ^ 7 % 2 ^ 25 = r.toNat := by subst hn; exact pack_one [(l.toNat, 5), (3, 2)] [] _ 25 k
  have h2 : n / 2 ^ 0 % 2 ^ 5 = l.toNat := by subst hn; exact pack_one [] [(3, 2), (r.toNat, 25)] _ 5 k
  have h3 : 0x60 ≤ n % 128 := by rw [h0]; simp only [pack]; omega
  have hd : ResW.dec n = ⟨r, l⟩ := by
    simp only [ResW.dec, ResW.mk.injEq]
    exact ⟨bitVec_of _ _ h1, bitVec_of _ _ h2⟩
  unfold rowOf
  split <;> first
    | omega
    | rw [hd]

theorem add (x : Alu2) : Statement (.add x) := by
  intro w hw h
  simp only [encode, Option.some.injEq] at h
  subst h
  obtain ⟨eb, ea, b, a, d⟩ := x
  have hk : Packed [(1, 7), (d.val, 5), (a.val, 5), (b.val, 5), (0, 3), (ea.toNat, 1), (eb.toNat, 1), (0, 5)] :=
    ⟨by decide, d.isLt, a.isLt, b.isLt, by decide, bool_lt_two ea, bool_lt_two eb, by decide, trivial⟩
  refine decode_of_pack _ [(1, 7), (d.val, 5), (a.val, 5), (b.val, 5), (0, 3), (ea.toNat, 1), (eb.toNat, 1), (0, 5)] _ (by simp only [Alu2.enc, pack]; omega) hk rfl ?_ hw
  generalize hn : pack [(1, 7), (d.val, 5), (a.val, 5), (b.val, 5), (0, 3), (ea.toNat, 1), (eb.toNat, 1), (0, 5)] = nn at *
  have h0 : nn % 128 = 0x01 := by subst hn; exact pack_mod [(1, 7)] _ hk
  have f0 : fld nn 27 5 = 0 := by subst hn; exact pack_field [(1, 7), (d.val, 5), (a.val, 5), (b.val, 5), (0, 3), (ea.toNat, 1), (eb.toNat, 1)] [(0, 5)] _ hk
  have f1 : fld nn 22 3 = 0 := by subst hn; exact pack_field [(1, 7), (d.val, 5), (a.val, 5), (b.val, 5)] [(0, 3)] _ hk
  have hd : Alu2.dec nn = ⟨eb, ea, b, a, d⟩ := by
    subst hn; simp only [Alu2.dec, Alu2.mk.injEq]
    exact ⟨decide_bool _ _ (pack_one [(1, 7), (d.val, 5), (a.val, 5), (b.val, 5), (0, 3), (ea.toNat, 1)] _ _ 1 hk),
      decide_bool _ _ (pack_one [(1, 7), (d.val, 5), (a.val, 5), (b.val, 5), (0, 3)] _ _ 1 hk),
      fin_of _ _ _ (pack_one [(1, 7), (d.val, 5), (a.val, 5)] _ _ 5 hk),
      fin_of _ _ _ (pack_one [(1, 7), (d.val, 5)] _ _ 5 hk),
      fin_of _ _ _ (pack_one [(1, 7)] _ _ 5 hk)⟩
  rw [rowOf_01 _ h0]
  simp [rowAlu, f0, f1, hd]

theorem sub (x : Alu2) : Statement (.sub x) := by
  intro w hw h
  simp only [encode, Option.some.injEq] at h
  subst h
  obtain ⟨eb, ea, b, a, d⟩ := x
  have hk : Packed [(1, 7), (d.val, 5), (a.val, 5), (b.val, 5), (0, 3), (ea.toNat, 1), (eb.toNat, 1), (1, 5)] :=
    ⟨by decide, d.isLt, a.isLt, b.isLt, by decide, bool_lt_two ea, bool_lt_two eb, by decide, trivial⟩
  refine decode_of_pack _ [(1, 7), (d.val, 5), (a.val, 5), (b.val, 5), (0, 3), (ea.toNat, 1), (eb.toNat, 1), (1, 5)] _ (by simp only [Alu2.enc, pack]; omega) hk rfl ?_ hw
  generalize hn : pack [(1, 7), (d.val, 5), (a.val, 5), (b.val, 5), (0, 3), (ea.toNat, 1), (eb.toNat, 1), (1, 5)] = nn at *
  have h0 : nn % 128 = 0x01 := by subst hn; exact pack_mod [(1, 7)] _ hk
  have f0 : fld nn 27 5 = 1 := by subst hn; exact pack_field [(1, 7), (d.val, 5), (a.val, 5), (b.val, 5), (0, 3), (ea.toNat, 1), (eb.toNat, 1)] [(1, 5)] _ hk
  have f1 : fld nn 22 3 = 0 := by subst hn; exact pack_field [(1, 7), (d.val, 5), (a.val, 5), (b.val, 5)] [(0, 3)] _ hk
  have hd : Alu2.dec nn = ⟨eb, ea, b, a, d⟩ := by
    subst hn; simp only [Alu2.dec, Alu2.mk.injEq]
    exact ⟨decide_bool _ _ (pack_one [(1, 7), (d.val, 5), (a.val, 5), (b.val, 5), (0, 3), (ea.toNat, 1)] _ _ 1 hk),
      decide_bool _ _ (pack_one [(1, 7), (d.val, 5), (a.val, 5), (b.val, 5), (0, 3)] _ _ 1 hk),
      fin_of _ _ _ (pack_one [(1, 7), (d.val, 5), (a.val, 5)] _ _ 5 hk),
      fin_of _ _ _ (pack_one [(1, 7), (d.val, 5)] _ _ 5 hk),
      fin_of _ _ _ (pack_one [(1, 7)] _ _ 5 hk)⟩
  rw [rowOf_01 _ h0]
  simp [rowAlu, f0, f1, hd]

theorem and (x : Alu2) : Statement (.and x) := by
  intro w hw h
  simp only [encode, Option.some.injEq] at h
  subst h
  obtain ⟨eb, ea, b, a, d⟩ := x
  have hk : Packed [(1, 7), (d.val, 5), (a.val, 5), (b.val, 5), (0, 3), (ea.toNat, 1), (eb.toNat, 1), (2, 5)] :=
    ⟨by decide, d.isLt, a.isLt, b.isLt, by decide, bool_lt_two ea, bool_lt_two eb, by decide, trivial⟩
  refine decode_of_pack _ [(1, 7), (d.val, 5), (a.val, 5), (b.val, 5), (0, 3), (ea.toNat, 1), (eb.toNat, 1), (2, 5)] _ (by simp only [Alu2.enc, pack]; omega) hk rfl ?_ hw
  generalize hn : pack [(1, 7), (d.val, 5), (a.val, 5), (b.val, 5), (0, 3), (ea.toNat, 1), (eb.toNat, 1), (2, 5)] = nn at *
  have h0 : nn % 128 = 0x01 := by subst hn; exact pack_mod [(1, 7)] _ hk
  have f0 : fld nn 27 5 = 2 := by subst hn; exact pack_field [(1, 7), (d.val, 5), (a.val, 5), (b.val, 5), (0, 3), (ea.toNat, 1), (eb.toNat, 1)] [(2, 5)] _ hk
  have f1 : fld nn 22 3 = 0 := by subst hn; exact pack_field [(1, 7), (d.val, 5), (a.val, 5), (b.val, 5)] [(0, 3)] _ hk
  have hd : Alu2.dec nn = ⟨eb, ea, b, a, d⟩ := by
    subst hn; simp only [Alu2.dec, Alu2.mk.injEq]
    exact ⟨decide_bool _ _ (pack_one [(1, 7), (d.val, 5), (a.val, 5), (b.val, 5), (0, 3), (ea.toNat, 1)] _ _ 1 hk),
      decide_bool _ _ (pack_one [(1, 7), (d.val, 5), (a.val, 5), (b.val, 5), (0, 3)] _ _ 1 hk),
      fin_of _ _ _ (pack_one [(1, 7), (d.val, 5), (a.val, 5)] _ _ 5 hk),
      fin_of _ _ _ (pack_one [(1, 7), (d.val, 5)] _ _ 5 hk),
      fin_of _ _ _ (pack_one [(1, 7)] _ _ 5 hk)⟩
  rw [rowOf_01 _ h0]
  simp [rowAlu, f0, f1, hd]

theorem or (x : Alu2) : Statement (.or x) := by
  intro w hw h
  simp only [encode, Option.some.injEq] at h
  subst h
  obtain ⟨eb, ea, b, a, d⟩ := x
  have hk : Packed [(1, 7), (d.val, 5), (a.val, 5), (b.val, 5), (0, 3), (ea.toNat, 1), (eb.toNat, 1), (3, 5)] :=
    ⟨by decide, d.isLt, a.isLt, b.isLt, by decide, bool_lt_two ea, bool_lt_two eb, by decide, trivial⟩
  refine decode_of_pack _ [(1, 7), (d.val, 5), (a.val, 5), (b.val, 5), (0, 3), (ea.toNat, 1), (eb.toNat, 1), (3, 5)] _ (by simp only [Alu2.enc, pack]; omega) hk rfl ?_ hw
  generalize hn : pack [(1, 7), (d.val, 5), (a.val, 5), (b.val, 5), (0, 3), (ea.toNat, 1), (eb.toNat, 1), (3, 5)] = nn at *
  have h0 : nn % 128 = 0x01 := by subst hn; exact pack_mod [(1, 7)] _ hk
  have f0 : fld nn 27 5 = 3 := by subst hn; exact pack_field [(1, 7), (d.val, 5), (a.val, 5), (b.val, 5), (0, 3), (ea.toNat, 1), (eb.toNat, 1)] [(3, 5)] _ hk
  have f1 : fld nn 22 3 = 0 := by subst hn; exact pack_field [(1, 7), (d.val, 5), (a.val, 5), (b.val, 5)] [(0, 3)] _ hk
  have hd : Alu2.dec nn = ⟨eb, ea, b, a, d⟩ := by
    subst hn; simp only [Alu2.dec, Alu2.mk.injEq]
    exact ⟨decide_bool _ _ (pack_one [(1, 7), (d.val, 5), (a.val, 5), (b.val, 5), (0, 3), (ea.toNat, 1)] _ _ 1 hk),
      decide_bool _ _ (pack_one [(1, 7), (d.val, 5), (a.val, 5), (b.val, 5), (0, 3)] _ _ 1 hk),
      fin_of _ _ _ (pack_one [(1, 7), (d.val, 5), (a.val, 5)] _ _ 5 hk),
      fin_of _ _ _ (pack_one [(1, 7), (d.val, 5)] _ _ 5 hk),
      fin_of _ _ _ (pack_one [(1, 7)] _ _ 5 hk)⟩
  rw [rowOf_01 _ h0]
  simp [rowAlu, f0, f1, hd]

theorem xor (x : Alu2) : Statement (.xor x) := by
  intro w hw h
  simp only [encode, Option.some.injEq] at h
  subst h
  obtain ⟨eb, ea, b, a, d⟩ := x
  have hk : Packed [(1, 7), (d.val, 5), (a.val, 5), (b.val, 5), (0, 3), (ea.toNat, 1), (eb.toNat, 1), (4, 5)] :=
    ⟨by decide, d.isLt, a.isLt, b.isLt, by decide, bool_lt_two ea, bool_lt_two eb, by decide, trivial⟩
  refine decode_of_pack _ [(1, 7), (d.val, 5), (a.val, 5), (b.val, 5), (0, 3), (ea.toNat, 1), (eb.toNat, 1), (4, 5)] _ (by simp only [Alu2.enc, pack]; omega) hk rfl ?_ hw
  generalize hn : pack [(1, 7), (d.val, 5), (a.val, 5), (b.val, 5), (0, 3), (ea.toNat, 1), (eb.toNat, 1), (4, 5)] = nn at *
  have h0 : nn % 128 = 0x01 := by subst hn; exact pack_mod [(1, 7)] _ hk
  have f0 : fld nn 27 5 = 4 := by subst hn; exact pack_field [(1, 7), (d.val, 5), (a.val, 5), (b.val, 5), (0, 3), (ea.toNat, 1), (eb.toNat, 1)] [(4, 5)] _ hk
  have f1 : fld nn 22 3 = 0 := by subst hn; exact pack_field [(1, 7), (d.val, 5), (a.val, 5), (b.val, 5)] [(0, 3)] _ hk
  have hd : Alu2.dec nn = ⟨eb, ea, b, a, d⟩ := by
    subst hn; simp only [Alu2.dec, Alu2.mk.injEq]
    exact ⟨decide_bool _ _ (pack_one [(1, 7), (d.val, 5), (a.val, 5), (b.val, 5), (0, 3), (ea.toNat, 1)] _ _ 1 hk),
      decide_bool _ _ (pack_one [(1, 7), (d.val, 5), (a.val, 5), (b.val, 5), (0, 3)] _ _ 1 hk),
      fin_of _ _ _ (pack_one [(1, 7), (d.val, 5), (a.val, 5)] _ _ 5 hk),
      fin_of _ _ _ (pack_one [(1, 7), (d.val, 5)] _ _ 5 hk),
      fin_of _ _ _ (pack_one [(1, 7)] _ _ 5 hk)⟩
  rw [rowOf_01 _ h0]
  simp [rowAlu, f0, f1, hd]

theorem andn (x : Alu2) : Statement (.andn x) := by
  intro w hw h
  simp only [encode, Option.some.injEq] at h
  subst h
  obtain ⟨eb, ea, b, a, d⟩ := x
  have hk : Packed [(1, 7), (d.val, 5), (a.val, 5), (b.val, 5), (0, 3), (ea.toNat, 1), (eb.toNat, 1), (5, 5)] :=
    ⟨by decide, d.isLt, a.isLt, b.isLt, by decide, bool_lt_two ea, bool_lt_two eb, by decide, trivial⟩
  refine decode_of_pack _ [(1, 7), (d.val, 5), (a.val, 5), (b.val, 5), (0, 3), (ea.toNat, 1), (eb.toNat, 1), (5, 5)] _ (by simp only [Alu2.enc, pack]; omega) hk rfl ?_ hw
  generalize hn : pack [(1, 7), (d.val, 5), (a.val, 5), (b.val, 5), (0, 3), (ea.toNat, 1), (eb.toNat, 1), (5, 5)] = nn at *
  have h0 : nn % 128 = 0x01 := by subst hn; exact pack_mod [(1, 7)] _ hk
  have f0 : fld nn 27 5 = 5 := by subst hn; exact pack_field [(1, 7), (d.val, 5), (a.val, 5), (b.val, 5), (0, 3), (ea.toNat, 1), (eb.toNat, 1)] [(5, 5)] _ hk
  have f1 : fld nn 22 3 = 0 := by subst hn; exact pack_field [(1, 7), (d.val, 5), (a.val, 5), (b.val, 5)] [(0, 3)] _ hk
  have hd : Alu2.dec nn = ⟨eb, ea, b, a, d⟩ := by
    subst hn; simp only [Alu2.dec, Alu2.mk.injEq]
    exact ⟨decide_bool _ _ (pack_one [(1, 7), (d.val, 5), (a.val, 5), (b.val, 5), (0, 3), (ea.toNat, 1)] _ _ 1 hk),
      decide_bool _ _ (pack_one [(1, 7), (d.val, 5), (a.val, 5), (b.val, 5), (0, 3)] _ _ 1 hk),
      fin_of _ _ _ (pack_one [(1, 7), (d.val, 5), (a.val, 5)] _ _ 5 hk),
      fin_of _ _ _ (pack_one [(1, 7), (d.val, 5)] _ _ 5 hk),
      fin_of _ _ _ (pack_one [(1, 7)] _ _ 5 hk)⟩
  rw [rowOf_01 _ h0]
  simp [rowAlu, f0, f1, hd]

theorem orn (x : Alu2) : Statement (.orn x) := by
  intro w hw h
  simp only [encode, Option.some.injEq] at h
  subst h
  obtain ⟨eb, ea, b, a, d⟩ := x
  have hk : Packed [(1, 7), (d.val, 5), (a.val, 5), (b.val, 5), (0, 3), (ea.toNat, 1), (eb.toNat, 1), (6, 5)] :=
    ⟨by decide, d.isLt, a.isLt, b.isLt, by decide, bool_lt_two ea, bool_lt_two eb, by decide, trivial⟩
  refine decode_of_pack _ [(1, 7), (d.val, 5), (a.val, 5), (b.val, 5), (0, 3), (ea.toNat, 1), (eb.toNat, 1), (6, 5)] _ (by simp only [Alu2.enc, pack]; omega) hk rfl ?_ hw
  generalize hn : pack [(1, 7), (d.val, 5), (a.val, 5), (b.val, 5), (0, 3), (ea.toNat, 1), (eb.toNat, 1), (6, 5)] = nn at *
  have h0 : nn % 128 = 0x01 := by subst hn; exact pack_mod [(1, 7)] _ hk
  have f0 : fld nn 27 5 = 6 := by subst hn; exact pack_field [(1, 7), (d.val, 5), (a.val, 5), (b.val, 5), (0, 3), (ea.toNat, 1), (eb.toNat, 1)] [(6, 5)] _ hk
  have f1 : fld nn 22 3 = 0 := by subst hn; exact pack_field [(1, 7), (d.val, 5), (a.val, 5), (b.val, 5)] [(0, 3)] _ hk
  have hd : Alu2.dec nn = ⟨eb, ea, b, a, d⟩ := by
    subst hn; simp only [Alu2.dec, Alu2.mk.injEq]
    exact ⟨decide_bool _ _ (pack_one [(1, 7), (d.val, 5), (a.val, 5), (b.val, 5), (0, 3), (ea.toNat, 1)] _ _ 1 hk),
      decide_bool _ _ (pack_one [(1, 7), (d.val, 5), (a.val, 5), (b.val, 5), (0, 3)] _ _ 1 hk),
      fin_of _ _ _ (pack_one [(1, 7), (d.val, 5), (a.val, 5)] _ _ 5 hk),
      fin_of _ _ _ (pack_one [(1, 7), (d.val, 5)] _ _ 5 hk),
      fin_of _ _ _ (pack_one [(1, 7)] _ _ 5 hk)⟩
  rw [rowOf_01 _ h0]
  simp [rowAlu, f0, f1, hd]

theorem shl (x : Alu2) : Statement (.shl x) := by
  intro w hw h
  simp only [encode, Option.some.injEq] at h
  subst h
  obtain ⟨eb, ea, b, a, d⟩ := x
  have hk : Packed [(1, 7), (d.val, 5), (a.val, 5), (b.val, 5), (0, 3), (ea.toNat, 1), (eb.toNat, 1), (7, 5)] :=
    ⟨by decide, d.isLt, a.isLt, b.isLt, by decide, bool_lt_two ea, bool_lt_two eb, by decide, trivial⟩
  refine decode_of_pack _ [(1, 7), (d.val, 5), (a.val, 5), (b.val, 5), (0, 3), (ea.toNat, 1), (eb.toNat, 1), (7, 5)] _ (by simp only [Alu2.enc, pack]; omega) hk rfl ?_ hw
  generalize hn : pack [(1, 7), (d.val, 5), (a.val, 5), (b.val, 5), (0, 3), (ea.toNat, 1), (eb.toNat, 1), (7, 5)] = nn at *
  have h0 : nn % 128 = 0x01 := by subst hn; exact pack_mod [(1, 7)] _ hk
  have f0 : fld nn 27 5 = 7 := by subst hn; exact pack_field [(1, 7), (d.val, 5), (a.val, 5), (b.val, 5), (0, 3), (ea.toNat, 1), (eb.toNat, 1)] [(7, 5)] _ hk
  have f1 : fld nn 22 3 = 0 := by subst hn; exact pack_field [(1, 7), (d.val, 5), (a.val, 5), (b.val, 5)] [(0, 3)] _ hk
  have hd : Alu2.dec nn = ⟨eb, ea, b, a, d⟩ := by
    subst hn; simp only [Alu2.dec, Alu2.mk.injEq]
    exact ⟨decide_bool _ _ (pack_one [(1, 7), (d.val, 5), (a.val, 5), (b.val, 5), (0, 3), (ea.toNat, 1)] _ _ 1 hk),
      decide_bool _ _ (pack_one [(1, 7), (d.val, 5), (a.val, 5), (b.val, 5), (0, 3)] _ _ 1 hk),
      fin_of _ _ _ (pack_one [(1, 7), (d.val, 5), (a.val, 5)] _ _ 5 hk),
      fin_of _ _ _ (pack_one [(1, 7), (d.val, 5)] _ _ 5 hk),
      fin_of _ _ _ (pack_one [(1, 7)] _ _ 5 hk)⟩
  rw [rowOf_01 _ h0]
  simp [rowAlu, f0, f1, hd]

theorem shr (x : Alu2) : Statement (.shr x) := by
  intro w hw h
  simp only [encode, Option.some.injEq] at h
  subst h
  obtain ⟨eb, ea, b, a, d⟩ := x
  have hk : Packed [(1, 7), (d.val, 5), (a.val, 5), (b.val, 5), (0, 3), (ea.toNat, 1), (eb.toNat, 1), (8, 5)] :=
    ⟨by decide, d.isLt, a.isLt, b.isLt, by decide, bool_lt_two ea, bool_lt_two eb, by decide, trivial⟩
  refine decode_of_pack _ [(1, 7), (d.val, 5), (a.val, 5), (b.val, 5), (0, 3), (ea.toNat, 1), (eb.toNat, 1), (8, 5)] _ (by simp only [Alu2.enc, pack]; omega) hk rfl ?_ hw
  generalize hn : pack [(1, 7), (d.val, 5), (a.val, 5), (b.val, 5), (0, 3), (ea.toNat, 1), (eb.toNat, 1), (8, 5)] = nn at *
  have h0 : nn % 128 = 0x01 := by subst hn; exact pack_mod [(1, 7)] _ hk
  have f0 : fld nn 27 5 = 8 := by subst hn; exact pack_field [(1, 7), (d.val, 5), (a.val, 5), (b.val, 5), (0, 3), (ea.toNat, 1), (eb.toNat, 1)] [(8, 5)] _ hk
  have f1 : fld nn 22 3 = 0 := by subst hn; exact pack_field [(1, 7), (d.val, 5), (a.val, 5), (b.val, 5)] [(0, 3)] _ hk
  have hd : Alu2.dec nn = ⟨eb, ea, b, a, d⟩ := by
    subst hn; simp only [Alu2.dec, Alu2.mk.injEq]
    exact ⟨decide_bool _ _ (pack_one [(1, 7), (d.val, 5), (a.val, 5), (b.val, 5), (0, 3), (ea.toNat, 1)] _ _ 1 hk),
      decide_bool _ _ (pack_one [(1, 7), (d.val, 5), (a.val, 5), (b.val, 5), (0, 3)] _ _ 1 hk),
      fin_of _ _ _ (pack_one [(1, 7), (d.val, 5), (a.val, 5)] _ _ 5 hk),
      fin_of _ _ _ (pack_one [(1, 7), (d.val, 5)] _ _ 5 hk),
      fin_of _ _ _ (pack_one [(1, 7)] _ _ 5 hk)⟩
  rw [rowOf_01 _ h0]
  simp [rowAlu, f0, f1, hd]

theorem sar (x : Alu2) : Statement (.sar x) := by
  intro w hw h
  simp only [encode, Option.some.injEq] at h
  subst h
  obtain ⟨eb, ea, b, a, d⟩ := x
  have hk : Packed [(1, 7), (d.val, 5), (a.val, 5), (b.val, 5), (0, 3), (ea.toNat, 1), (eb.toNat, 1), (9, 5)] :=
    ⟨by decide, d.isLt, a.isLt, b.isLt, by decide, bool_lt_two ea, bool_lt_two eb, by decide, trivial⟩
  refine decode_of_pack _ [(1, 7), (d.val, 5), (a.val, 5), (b.val, 5), (0, 3), (ea.toNat, 1), (eb.toNat, 1), (9, 5)] _ (by simp only [Alu2.enc, pack]; omega) hk rfl ?_ hw
  generalize hn : pack [(1, 7), (d.val, 5), (a.val, 5), (b.val, 5), (0, 3), (ea.toNat, 1), (eb.toNat, 1), (9, 5)] = nn at *
  have h0 : nn % 128 = 0x01 := by subst hn; exact pack_mod [(1, 7)] _ hk
  have f0 : fld nn 27 5 = 9 := by subst hn; exact pack_field [(1, 7), (d.val, 5), (a.val, 5), (b.val, 5), (0, 3), (ea.toNat, 1), (eb.toNat, 1)] [(9, 5)] _ hk
  have f1 : fld nn 22 3 = 0 := by subst hn; exact pack_field [(1, 7), (d.val, 5), (a.val, 5), (b.val, 5)] [(0, 3)] _ hk
  have hd : Alu2.dec nn = ⟨eb, ea, b, a, d⟩ := by
    subst hn; simp only [Alu2.dec, Alu2.mk.injEq]
    exact ⟨decide_bool _ _ (pack_one [(1, 7), (d.val, 5), (a.val, 5), (b.val, 5), (0, 3), (ea.toNat, 1)] _ _ 1 hk),
      decide_bool _ _ (pack_one [(1, 7), (d.val, 5), (a.val, 5), (b.val, 5), (0, 3)] _ _ 1 hk),
      fin_of _ _ _ (pack_one [(1, 7), (d.val, 5), (a.val, 5)] _ _ 5 hk),
      fin_of _ _ _ (pack_one [(1, 7), (d.val, 5)] _ _ 5 hk),
      fin_of _ _ _ (pack_one [(1, 7)] _ _ 5 hk)⟩
  rw [rowOf_01 _ h0]
  simp [rowAlu, f0, f1, hd]

theorem rol (x : Alu2) : Statement (.rol x) := by
  intro w hw h
  simp only [encode, Option.some.injEq] at h
  subst h
  obtain ⟨eb, ea, b, a, d⟩ := x
  have hk : Packed [(1, 7), (d.val, 5), (a.val, 5), (b.val, 5), (0, 3), (ea.toNat, 1), (eb.toNat, 1), (10, 5)] :=
    ⟨by decide, d.isLt, a.isLt, b.isLt, by decide, bool_lt_two ea, bool_lt_two eb, by decide, trivial⟩
  refine decode_of_pack _ [(1, 7), (d.val, 5), (a.val, 5), (b.val, 5), (0, 3), (ea.toNat, 1), (eb.toNat, 1), (10, 5)] _ (by simp only [Alu2.enc, pack]; omega) hk rfl ?_ hw
  generalize hn : pack [(1, 7), (d.val, 5), (a.val, 5), (b.val, 5), (0, 3), (ea.toNat, 1), (eb.toNat, 1), (10, 5)] = nn at *
  have h0 : nn % 128 = 0x01 := by subst hn; exact pack_mod [(1, 7)] _ hk
  have f0 : fld nn 27 5 = 10 := by subst hn; exact pack_field [(1, 7), (d.val, 5), (a.val, 5), (b.val, 5), (0, 3), (ea.toNat, 1), (eb.toNat, 1)] [(10, 5)] _ hk
  have f1 : fld nn 22 3 = 0 := by subst hn; exact pack_field [(1, 7), (d.val, 5), (a.val, 5), (b.val, 5)] [(0, 3)] _ hk
  have hd : Alu2.dec nn = ⟨eb, ea, b, a, d⟩ := by
    subst hn; simp only [Alu2.dec, Alu2.mk.injEq]
    exact ⟨decide_bool _ _ (pack_one [(1, 7), (d.val, 5), (a.val, 5), (b.val, 5), (0, 3), (ea.toNat, 1)] _ _ 1 hk),
      decide_bool _ _ (pack_one [(1, 7), (d.val, 5), (a.val, 5), (b.val, 5), (0, 3)] _ _ 1 hk),
      fin_of _ _ _ (pack_one [(1, 7), (d.val, 5), (a.val, 5)] _ _ 5 hk),
      fin_of _ _ _ (pack_one [(1, 7), (d.val, 5)] _ _ 5 hk),
      fin_of _ _ _ (pack_one [(1, 7)] _ _ 5 hk)⟩
  rw [rowOf_01 _ h0]
  simp [rowAlu, f0, f1, hd]

theorem ror (x : Alu2) : Statement (.ror x) := by
  intro w hw h
  simp only [encode, Option.some.injEq] at h
  subst h
  obtain ⟨eb, ea, b, a, d⟩ := x
  have hk : Packed [(1, 7), (d.val, 5), (a.val, 5), (b.val, 5), (0, 3), (ea.toNat, 1), (eb.toNat, 1), (11, 5)] :=
    ⟨by decide, d.isLt, a.isLt, b.isLt, by decide, bool_lt_two ea, bool_lt_two eb, by decide, trivial⟩
  refine decode_of_pack _ [(1, 7), (d.val, 5), (a.val, 5), (b.val, 5), (0, 3), (ea.toNat, 1), (eb.toNat, 1), (11, 5)] _ (by simp only [Alu2.enc, pack]; omega) hk rfl ?_ hw
  generalize hn : pack [(1, 7), (d.val, 5), (a.val, 5), (b.val, 5), (0, 3), (ea.toNat, 1), (eb.toNat, 1), (11, 5)] = nn at *
  have h0 : nn % 128 = 0x01 := by subst hn; exact pack_mod [(1, 7)] _ hk
  have f0 : fld nn 27 5 = 11 := by subst hn; exact pack_field [(1, 7), (d.val, 5), (a.val, 5), (b.val, 5), (0, 3), (ea.toNat, 1), (eb.toNat, 1)] [(11, 5)] _ hk
  have f1 : fld nn 22 3 = 0 := by subst hn; exact pack_field [(1, 7), (d.val, 5), (a.val, 5), (b.val, 5)] [(0, 3)] _ hk
  have hd : Alu2.dec nn = ⟨eb, ea, b, a, d⟩ := by
    subst hn; simp only [Alu2.dec, Alu2.mk.injEq]
    exact ⟨decide_bool _ _ (pack_one [(1, 7), (d.val, 5), (a.val, 5), (b.val, 5), (0, 3), (ea.toNat, 1)] _ _ 1 hk),
      decide_bool _ _ (pack_one [(1, 7), (d.val, 5), (a.val, 5), (b.val, 5), (0, 3)] _ _ 1 hk),
      fin_of _ _ _ (pack_one [(1, 7), (d.val, 5), (a.val, 5)] _ _ 5 hk),
      fin_of _ _ _ (pack_one [(1, 7), (d.val, 5)] _ _ 5 hk),
      fin_of _ _ _ (pack_one [(1, 7)] _ _ 5 hk)⟩
  rw [rowOf_01 _ h0]
  simp [rowAlu, f0, f1, hd]

theorem slt (x : Alu2) : Statement (.slt x) := by
  intro w hw h
  simp only [encode, Option.some.injEq] at h
  subst h
  obtain ⟨eb, ea, b, a, d⟩ := x
  have hk : Packed [(1, 7), (d.val, 5), (a.val, 5), (b.val, 5), (0, 3), (ea.toNat, 1), (eb.toNat, 1), (12, 5)] :=
    ⟨by decide, d.isLt, a.isLt, b.isLt, by decide, bool_lt_two ea, bool_lt_two eb, by decide, trivial⟩
  refine decode_of_pack _ [(1, 7), (d.val, 5), (a.val, 5), (b.val, 5), (0, 3), (ea.toNat, 1), (eb.toNat, 1), (12, 5)] _ (by simp only [Alu2.enc, pack]; omega) hk rfl ?_ hw
  generalize hn : pack [(1, 7), (d.val, 5), (a.val, 5), (b.val, 5), (0, 3), (ea.toNat, 1), (eb.toNat, 1), (12, 5)] = nn at *
  have h0 : nn % 128 = 0x01 := by subst hn; exact pack_mod [(1, 7)] _ hk
  have f0 : fld nn 27 5 = 12 := by subst hn; exact pack_field [(1, 7), (d.val, 5), (a.val, 5), (b.val, 5), (0, 3), (ea.toNat, 1), (eb.toNat, 1)] [(12, 5)] _ hk
  have f1 : fld nn 22 3 = 0 := by subst hn; exact pack_field [(1, 7), (d.val, 5), (a.val, 5), (b.val, 5)] [(0, 3)] _ hk
  have hd : Alu2.dec nn = ⟨eb, ea, b, a, d⟩ := by
    subst hn; simp only [Alu2.dec, Alu2.mk.injEq]
    exact ⟨decide_bool _ _ (pack_one [(1, 7), (d.val, 5), (a.val, 5), (b.val, 5), (0, 3), (ea.toNat, 1)] _ _ 1 hk),
      decide_bool _ _ (pack_one [(1, 7), (d.val, 5), (a.val, 5), (b.val, 5), (0, 3)] _ _ 1 hk),
      fin_of _ _ _ (pack_one [(1, 7), (d.val, 5), (a.val, 5)] _ _ 5 hk),
      fin_of _ _ _ (pack_one [(1, 7), (d.val, 5)] _ _ 5 hk),
      fin_of _ _ _ (pack_one [(1, 7)] _ _ 5 hk)⟩
  rw [rowOf_01 _ h0]
  simp [rowAlu, f0, f1, hd]

theorem sltu (x : Alu2) : Statement (.sltu x) := by
  intro w hw h
  simp only [encode, Option.some.injEq] at h
  subst h
  obtain ⟨eb, ea, b, a, d⟩ := x
  have hk : Packed [(1, 7), (d.val, 5), (a.val, 5), (b.val, 5), (0, 3), (ea.toNat, 1), (eb.toNat, 1), (13, 5)] :=
    ⟨by decide, d.isLt, a.isLt, b.isLt, by decide, bool_lt_two ea, bool_lt_two eb, by decide, trivial⟩
  refine decode_of_pack _ [(1, 7), (d.val, 5), (a.val, 5), (b.val, 5), (0, 3), (ea.toNat, 1), (eb.toNat, 1), (13, 5)] _ (by simp only [Alu2.enc, pack]; omega) hk rfl ?_ hw
  generalize hn : pack [(1, 7), (d.val, 5), (a.val, 5), (b.val, 5), (0, 3), (ea.toNat, 1), (eb.toNat, 1), (13, 5)] = nn at *
  have h0 : nn % 128 = 0x01 := by subst hn; exact pack_mod [(1, 7)] _ hk
  have f0 : fld nn 27 5 = 13 := by subst hn; exact pack_field [(1, 7), (d.val, 5), (a.val, 5), (b.val, 5), (0, 3), (ea.toNat, 1), (eb.toNat, 1)] [(13, 5)] _ hk
  have f1 : fld nn 22 3 = 0 := by subst hn; exact pack_field [(1, 7), (d.val, 5), (a.val, 5), (b.val, 5)] [(0, 3)] _ hk
  have hd : Alu2.dec nn = ⟨eb, ea, b, a, d⟩ := by
    subst hn; simp only [Alu2.dec, Alu2.mk.injEq]
    exact ⟨decide_bool _ _ (pack_one [(1, 7), (d.val, 5), (a.val, 5), (b.val, 5), (0, 3), (ea.toNat, 1)] _ _ 1 hk),
      decide_bool _ _ (pack_one [(1, 7), (d.val, 5), (a.val, 5), (b.val, 5), (0, 3)] _ _ 1 hk),
      fin_of _ _ _ (pack_one [(1, 7), (d.val, 5), (a.val, 5)] _ _ 5 hk),
      fin_of _ _ _ (pack_one [(1, 7), (d.val, 5)] _ _ 5 hk),
      fin_of _ _ _ (pack_one [(1, 7)] _ _ 5 hk)⟩
  rw [rowOf_01 _ h0]
  simp [rowAlu, f0, f1, hd]

theorem min (x : Alu2) : Statement (.min x) := by
  intro w hw h
  simp only [encode, Option.some.injEq] at h
  subst h
  obtain ⟨eb, ea, b, a, d⟩ := x
  have hk : Packed [(1, 7), (d.val, 5), (a.val, 5), (b.val, 5), (0, 3), (ea.toNat, 1), (eb.toNat, 1), (14, 5)] :=
    ⟨by decide, d.isLt, a.isLt, b.isLt, by decide, bool_lt_two ea, bool_lt_two eb, by decide, trivial⟩
  refine decode_of_pack _ [(1, 7), (d.val, 5), (a.val, 5), (b.val, 5), (0, 3), (ea.toNat, 1), (eb.toNat, 1), (14, 5)] _ (by simp only [Alu2.enc, pack]; omega) hk rfl ?_ hw
  generalize hn : pack [(1, 7), (d.val, 5), (a.val, 5), (b.val, 5), (0, 3), (ea.toNat, 1), (eb.toNat, 1), (14, 5)] = nn at *
  have h0 : nn % 128 = 0x01 := by subst hn; exact pack_mod [(1, 7)] _ hk
  have f0 : fld nn 27 5 = 14 := by subst hn; exact pack_field [(1, 7), (d.val, 5), (a.val, 5), (b.val, 5), (0, 3), (ea.toNat, 1), (eb.toNat, 1)] [(14, 5)] _ hk
  have f1 : fld nn 22 3 = 0 := by subst hn; exact pack_field [(1, 7), (d.val, 5), (a.val, 5), (b.val, 5)] [(0, 3)] _ hk
  have hd : Alu2.dec nn = ⟨eb, ea, b, a, d⟩ := by
    subst hn; simp only [Alu2.dec, Alu2.mk.injEq]
    exact ⟨decide_bool _ _ (pack_one [(1, 7), (d.val, 5), (a.val, 5), (b.val, 5), (0, 3), (ea.toNat, 1)] _ _ 1 hk),
      decide_bool _ _ (pack_one [(1, 7), (d.val, 5), (a.val, 5), (b.val, 5), (0, 3)] _ _ 1 hk),
      fin_of _ _ _ (pack_one [(1, 7), (d.val, 5), (a.val, 5)] _ _ 5 hk),
      fin_of _ _ _ (pack_one [(1, 7), (d.val, 5)] _ _ 5 hk),
      fin_of _ _ _ (pack_one [(1, 7)] _ _ 5 hk)⟩
  rw [rowOf_01 _ h0]
  simp [rowAlu, f0, f1, hd]

theorem max (x : Alu2) : Statement (.max x) := by
  intro w hw h
  simp only [encode, Option.some.injEq] at h
  subst h
  obtain ⟨eb, ea, b, a, d⟩ := x
  have hk : Packed [(1, 7), (d.val, 5), (a.val, 5), (b.val, 5), (0, 3), (ea.toNat, 1), (eb.toNat, 1), (15, 5)] :=
    ⟨by decide, d.isLt, a.isLt, b.isLt, by decide, bool_lt_two ea, bool_lt_two eb, by decide, trivial⟩
  refine decode_of_pack _ [(1, 7), (d.val, 5), (a.val, 5), (b.val, 5), (0, 3), (ea.toNat, 1), (eb.toNat, 1), (15, 5)] _ (by simp only [Alu2.enc, pack]; omega) hk rfl ?_ hw
  generalize hn : pack [(1, 7), (d.val, 5), (a.val, 5), (b.val, 5), (0, 3), (ea.toNat, 1), (eb.toNat, 1), (15, 5)] = nn at *
  have h0 : nn % 128 = 0x01 := by subst hn; exact pack_mod [(1, 7)] _ hk
  have f0 : fld nn 27 5 = 15 := by subst hn; exact pack_field [(1, 7), (d.val, 5), (a.val, 5), (b.val, 5), (0, 3), (ea.toNat, 1), (eb.toNat, 1)] [(15, 5)] _ hk
  have f1 : fld nn 22 3 = 0 := by subst hn; exact pack_field [(1, 7), (d.val, 5), (a.val, 5), (b.val, 5)] [(0, 3)] _ hk
  have hd : Alu2.dec nn = ⟨eb, ea, b, a, d⟩ := by
    subst hn; simp only [Alu2.dec, Alu2.mk.injEq]
    exact ⟨decide_bool _ _ (pack_one [(1, 7), (d.val, 5), (a.val, 5), (b.val, 5), (0, 3), (ea.toNat, 1)] _ _ 1 hk),
      decide_bool _ _ (pack_one [(1, 7), (d.val, 5), (a.val, 5), (b.val, 5), (0, 3)] _ _ 1 hk),
      fin_of _ _ _ (pack_one [(1, 7), (d.val, 5), (a.val, 5)] _ _ 5 hk),
      fin_of _ _ _ (pack_one [(1, 7), (d.val, 5)] _ _ 5 hk),
      fin_of _ _ _ (pack_one [(1, 7)] _ _ 5 hk)⟩
  rw [rowOf_01 _ h0]
  simp [rowAlu, f0, f1, hd]

theorem minu (x : Alu2) : Statement (.minu x) := by
  intro w hw h
  simp only [encode, Option.some.injEq] at h
  subst h
  obtain ⟨eb, ea, b, a, d⟩ := x
  have hk : Packed [(1, 7), (d.val, 5), (a.val, 5), (b.val, 5), (0, 3), (ea.toNat, 1), (eb.toNat, 1), (16, 5)] :=
    ⟨by decide, d.isLt, a.isLt, b.isLt, by decide, bool_lt_two ea, bool_lt_two eb, by decide, trivial⟩
  refine decode_of_pack _ [(1, 7), (d.val, 5), (a.val, 5), (b.val, 5), (0, 3), (ea.toNat, 1), (eb.toNat, 1), (16, 5)] _ (by simp only [Alu2.enc, pack]; omega) hk rfl ?_ hw
  generalize hn : pack [(1, 7), (d.val, 5), (a.val, 5), (b.val, 5), (0, 3), (ea.toNat, 1), (eb.toNat, 1), (16, 5)] = nn at *
  have h0 : nn % 128 = 0x01 := by subst hn; exact pack_mod [(1, 7)] _ hk
  have f0 : fld nn 27 5 = 16 := by subst hn; exact pack_field [(1, 7), (d.val, 5), (a.val, 5), (b.val, 5), (0, 3), (ea.toNat, 1), (eb.toNat, 1)] [(16, 5)] _ hk
  have f1 : fld nn 22 3 = 0 := by subst hn; exact pack_field [(1, 7), (d.val, 5), (a.val, 5), (b.val, 5)] [(0, 3)] _ hk
  have hd : Alu2.dec nn = ⟨eb, ea, b, a, d⟩ := by
    subst hn; simp only [Alu2.dec, Alu2.mk.injEq]
    exact ⟨decide_bool _ _ (pack_one [(1, 7), (d.val, 5), (a.val, 5), (b.val, 5), (0, 3), (ea.toNat, 1)] _ _ 1 hk),
      decide_bool _ _ (pack_one [(1, 7), (d.val, 5), (a.val, 5), (b.val, 5), (0, 3)] _ _ 1 hk),
      fin_of _ _ _ (pack_one [(1, 7), (d.val, 5), (a.val, 5)] _ _ 5 hk),
      fin_of _ _ _ (pack_one [(1, 7), (d.val, 5)] _ _ 5 hk),
      fin_of _ _ _ (pack_one [(1, 7)] _ _ 5 hk)⟩
  rw [rowOf_01 _ h0]
  simp [rowAlu, f0, f1, hd]

theorem maxu (x : Alu2) : Statement (.maxu x) := by
  intro w hw h
  simp only [encode, Option.some.injEq] at h
  subst h
  obtain ⟨eb, ea, b, a, d⟩ := x
  have hk : Packed [(1, 7), (d.val, 5), (a.val, 5), (b.val, 5), (0, 3), (ea.toNat, 1), (eb.toNat, 1), (17, 5)] :=
    ⟨by decide, d.isLt, a.isLt, b.isLt, by decide, bool_lt_two ea, bool_lt_two eb, by decide, trivial⟩
  refine decode_of_pack _ [(1, 7), (d.val, 5), (a.val, 5), (b.val, 5), (0, 3), (ea.toNat, 1), (eb.toNat, 1), (17, 5)] _ (by simp only [Alu2.enc, pack]; omega) hk rfl ?_ hw
  generalize hn : pack [(1, 7), (d.val, 5), (a.val, 5), (b.val, 5), (0, 3), (ea.toNat, 1), (eb.toNat, 1), (17, 5)] = nn at *
  have h0 : nn % 128 = 0x01 := by subst hn; exact pack_mod [(1, 7)] _ hk
  have f0 : fld nn 27 5 = 17 := by subst hn; exact pack_field [(1, 7), (d.val, 5), (a.val, 5), (b.val, 5), (0, 3), (ea.toNat, 1), (eb.toNat, 1)] [(17, 5)] _ hk
  have f1 : fld nn 22 3 = 0 := by subst hn; exact pack_field [(1, 7), (d.val, 5), (a.val, 5), (b.val, 5)] [(0, 3)] _ hk
  have hd : Alu2.dec nn = ⟨eb, ea, b, a, d⟩ := by
    subst hn; simp only [Alu2.dec, Alu2.mk.injEq]
    exact ⟨decide_bool _ _ (pack_one [(1, 7), (d.val, 5), (a.val, 5), (b.val, 5), (0, 3), (ea.toNat, 1)] _ _ 1 hk),
      decide_bool _ _ (pack_one [(1, 7), (d.val, 5), (a.val, 5), (b.val, 5), (0, 3)] _ _ 1 hk),
      fin_of _ _ _ (pack_one [(1, 7), (d.val, 5), (a.val, 5)] _ _ 5 hk),
      fin_of _ _ _ (pack_one [(1, 7), (d.val, 5)] _ _ 5 hk),
      fin_of _ _ _ (pack_one [(1, 7)] _ _ 5 hk)⟩
  rw [rowOf_01 _ h0]
  simp [rowAlu, f0, f1, hd]

theorem mul (x : Alu2) : Statement (.mul x) := by
  intro w hw h
  simp only [encode, Option.some.injEq] at h
  subst h
  obtain ⟨eb, ea, b, a, d⟩ := x
  have hk : Packed [(1, 7), (d.val, 5), (a.val, 5), (b.val, 5), (0, 3), (ea.toNat, 1), (eb.toNat, 1), (18, 5)] :=
    ⟨by decide, d.isLt, a.isLt, b.isLt, by decide, bool_lt_two ea, bool_lt_two eb, by decide, trivial⟩
  refine decode_of_pack _ [(1, 7), (d.val, 5), (a.val, 5), (b.val, 5), (0, 3), (ea.toNat, 1), (eb.toNat, 1), (18, 5)] _ (by simp only [Alu2.enc, pack]; omega) hk rfl ?_ hw
  generalize hn : pack [(1, 7), (d.val, 5), (a.val, 5), (b.val, 5), (0, 3), (ea.toNat, 1), (eb.toNat, 1), (18, 5)] = nn at *
  have h0 : nn % 128 = 0x01 := by subst hn; exact pack_mod [(1, 7)] _ hk
  have f0 : fld nn 27 5 = 18 := by subst hn; exact pack_field [(1, 7), (d.val, 5), (a.val, 5), (b.val, 5), (0, 3), (ea.toNat, 1), (eb.toNat, 1)] [(18, 5)] _ hk
  have f1 : fld nn 22 3 = 0 := by subst hn; exact pack_field [(1, 7), (d.val, 5), (a.val, 5), (b.val, 5)] [(0, 3)] _ hk
  have hd : Alu2.dec nn = ⟨eb, ea, b, a, d⟩ := by
    subst hn; simp only [Alu2.dec, Alu2.mk.injEq]
    exact ⟨decide_bool _ _ (pack_one [(1, 7), (d.val, 5), (a.val, 5), (b.val, 5), (0, 3), (ea.toNat, 1)] _ _ 1 hk),
      decide_bool _ _ (pack_one [(1, 7), (d.val, 5), (a.val, 5), (b.val, 5), (0, 3)] _ _ 1 hk),
      fin_of _ _ _ (pack_one [(1, 7), (d.val, 5), (a.val, 5)] _ _ 5 hk),
      fin_of _ _ _ (pack_one [(1, 7), (d.val, 5)] _ _ 5 hk),
      fin_of _ _ _ (pack_one [(1, 7)] _ _ 5 hk)⟩
  rw [rowOf_01 _ h0]
  simp [rowAlu, f0, f1, hd]

theorem mulh (x : Alu2) : Statement (.mulh x) := by
  intro w hw h
  simp only [encode, Option.some.injEq] at h
  subst h
  obtain ⟨eb, ea, b, a, d⟩ := x
  have hk : Packed [(1, 7), (d.val, 5), (a.val, 5), (b.val, 5), (0, 3), (ea.toNat, 1), (eb.toNat, 1), (19, 5)] :=
    ⟨by decide, d.isLt, a.isLt, b.isLt, by decide, bool_lt_two ea, bool_lt_two eb, by decide, trivial⟩
  refine decode_of_pack _ [(1, 7), (d.val, 5), (a.val, 5), (b.val, 5), (0, 3), (ea.toNat, 1), (eb.toNat, 1), (19, 5)] _ (by simp only [Alu2.enc, pack]; omega) hk rfl ?_ hw
  generalize hn : pack [(1, 7), (d.val, 5), (a.val, 5), (b.val, 5), (0, 3), (ea.toNat, 1), (eb.toNat, 1), (19, 5)] = nn at *
  have h0 : nn % 128 = 0x01 := by subst hn; exact pack_mod [(1, 7)] _ hk
  have f0 : fld nn 27 5 = 19 := by subst hn; exact pack_field [(1, 7), (d.val, 5), (a.val, 5), (b.val, 5), (0, 3), (ea.toNat, 1), (eb.toNat, 1)] [(19, 5)] _ hk
  have f1 : fld nn 22 3 = 0 := by subst hn; exact pack_field [(1, 7), (d.val, 5), (a.val, 5), (b.val, 5)] [(0, 3)] _ hk
  have hd : Alu2.dec nn = ⟨eb, ea, b, a, d⟩ := by
    subst hn; simp only [Alu2.dec, Alu2.mk.injEq]
    exact ⟨decide_bool _ _ (pack_one [(1, 7), (d.val, 5), (a.val, 5), (b.val, 5), (0, 3), (ea.toNat, 1)] _ _ 1 hk),
      decide_bool _ _ (pack_one [(1, 7), (d.val, 5), (a.val, 5), (b.val, 5), (0, 3)] _ _ 1 hk),
      fin_of _ _ _ (pack_one [(1, 7), (d.val, 5), (a.val, 5)] _ _ 5 hk),
      fin_of _ _ _ (pack_one [(1, 7), (d.val, 5)] _ _ 5 hk),
      fin_of _ _ _ (pack_one [(1, 7)] _ _ 5 hk)⟩
  rw [rowOf_01 _ h0]
  simp [rowAlu, f0, f1, hd]

theorem mulhu (x : Alu2) : Statement (.mulhu x) := by
  intro w hw h
  simp only [encode, Option.some.injEq] at h
  subst h
  obtain ⟨eb, ea, b, a, d⟩ := x
  have hk : Packed [(1, 7), (d.val, 5), (a.val, 5), (b.val, 5), (0, 3), (ea.toNat, 1), (eb.toNat, 1), (20, 5)] :=
    ⟨by decide, d.isLt, a.isLt, b.isLt, by decide, bool_lt_two ea, bool_lt_two eb, by decide, trivial⟩
  refine decode_of_pack _ [(1, 7), (d.val, 5), (a.val, 5), (b.val, 5), (0, 3), (ea.toNat, 1), (eb.toNat, 1), (20, 5)] _ (by simp only [Alu2.enc, pack]; omega) hk rfl ?_ hw
  generalize hn : pack [(1, 7), (d.val, 5), (a.val, 5), (b.val, 5), (0, 3), (ea.toNat, 1), (eb.toNat, 1), (20, 5)] = nn at *
  have h0 : nn % 128 = 0x01 := by subst hn; exact pack_mod [(1, 7)] _ hk
  have f0 : fld nn 27 5 = 20 := by subst hn; exact pack_field [(1, 7), (d.val, 5), (a.val, 5), (b.val, 5), (0, 3), (ea.toNat, 1), (eb.toNat, 1)] [(20, 5)] _ hk
  have f1 : fld nn 22 3 = 0 := by subst hn; exact pack_field [(1, 7), (d.val, 5), (a.val, 5), (b.val, 5)] [(0, 3)] _ hk
  have hd : Alu2.dec nn = ⟨eb, ea, b, a, d⟩ := by
    subst hn; simp only [Alu2.dec, Alu2.mk.injEq]
    exact ⟨decide_bool _ _ (pack_one [(1, 7), (d.val, 5), (a.val, 5), (b.val, 5), (0, 3), (ea.toNat, 1)] _ _ 1 hk),
      decide_bool _ _ (pack_one [(1, 7), (d.val, 5), (a.val, 5), (b.val, 5), (0, 3)] _ _ 1 hk),
      fin_of _ _ _ (pack_one [(1, 7), (d.val, 5), (a.val, 5)] _ _ 5 hk),
      fin_of _ _ _ (pack_one [(1, 7), (d.val, 5)] _ _ 5 hk),
      fin_of _ _ _ (pack_one [(1, 7)] _ _ 5 hk)⟩
  rw [rowOf_01 _ h0]
  simp [rowAlu, f0, f1, hd]

theorem div (x : Alu2) : Statement (.div x) := by
  intro w hw h
  simp only [encode, Option.some.injEq] at h
  subst h
  obtain ⟨eb, ea, b, a, d⟩ := x
  have hk : Packed [(1, 7), (d.val, 5), (a.val, 5), (b.val, 5), (0, 3), (ea.toNat, 1), (eb.toNat, 1), (21, 5)] :=
    ⟨by decide, d.isLt, a.isLt, b.isLt, by decide, bool_lt_two ea, bool_lt_two eb, by decide, trivial⟩
  refine decode_of_pack _ [(1, 7), (d.val, 5), (a.val, 5), (b.val, 5), (0, 3), (ea.toNat, 1), (eb.toNat, 1), (21, 5)] _ (by simp only [Alu2.enc, pack]; omega) hk rfl ?_ hw
  generalize hn : pack [(1, 7), (d.val, 5), (a.val, 5), (b.val, 5), (0, 3), (ea.toNat, 1), (eb.toNat, 1), (21, 5)] = nn at *
  have h0 : nn % 128 = 0x01 := by subst hn; exact pack_mod [(1, 7)] _ hk
  have f0 : fld nn 27 5 = 21 := by subst hn; exact pack_field [(1, 7), (d.val, 5), (a.val, 5), (b.val, 5), (0, 3), (ea.toNat, 1), (eb.toNat, 1)] [(21, 5)] _ hk
  have f1 : fld nn 22 3 = 0 := by subst hn; exact pack_field [(1, 7), (d.val, 5), (a.val, 5), (b.val, 5)] [(0, 3)] _ hk
  have hd : Alu2.dec nn = ⟨eb, ea, b, a, d⟩ := by
    subst hn; simp only [Alu2.dec, Alu2.mk.injEq]
    exact ⟨decide_bool _ _ (pack_one [(1, 7), (d.val, 5), (a.val, 5), (b.val, 5), (0, 3), (ea.toNat, 1)] _ _ 1 hk),
      decide_bool _ _ (pack_one [(1, 7), (d.val, 5), (a.val, 5), (b.val, 5), (0, 3)] _ _ 1 hk),
      fin_of _ _ _ (pack_one [(1, 7), (d.val, 5), (a.val, 5)] _ _ 5 hk),
      fin_of _ _ _ (pack_one [(1, 7), (d.val, 5)] _ _ 5 hk),
      fin_of _ _ _ (pack_one [(1, 7)] _ _ 5 hk)⟩
  rw [rowOf_01 _ h0]
  simp [rowAlu, f0, f1, hd]

theorem divu (x : Alu2) : Statement (.divu x) := by
  intro w hw h
  simp only [encode, Option.some.injEq] at h
  subst h
  obtain ⟨eb, ea, b, a, d⟩ := x
  have hk : Packed [(1, 7), (d.val, 5), (a.val, 5), (b.val, 5), (0, 3), (ea.toNat, 1), (eb.toNat, 1), (22, 5)] :=
    ⟨by decide, d.isLt, a.isLt, b.isLt, by decide, bool_lt_two ea, bool_lt_two eb, by decide, trivial⟩
  refine decode_of_pack _ [(1, 7), (d.val, 5), (a.val, 5), (b.val, 5), (0, 3), (ea.toNat, 1), (eb.toNat, 1), (22, 5)] _ (by simp only [Alu2.enc, pack]; omega) hk rfl ?_ hw
  generalize hn : pack [(1, 7), (d.val, 5), (a.val, 5), (b.val, 5), (0, 3), (ea.toNat, 1), (eb.toNat, 1), (22, 5)] = nn at *
  have h0 : nn % 128 = 0x01 := by subst hn; exact pack_mod [(1, 7)] _ hk
  have f0 : fld nn 27 5 = 22 := by subst hn; exact pack_field [(1, 7), (d.val, 5), (a.val, 5), (b.val, 5), (0, 3), (ea.toNat, 1), (eb.toNat, 1)] [(22, 5)] _ hk
  have f1 : fld nn 22 3 = 0 := by subst hn; exact pack_field [(1, 7), (d.val, 5), (a.val, 5), (b.val, 5)] [(0, 3)] _ hk
  have hd : Alu2.dec nn = ⟨eb, ea, b, a, d⟩ := by
    subst hn; simp only [Alu2.dec, Alu2.mk.injEq]
    exact ⟨decide_bool _ _ (pack_one [(1, 7), (d.val, 5), (a.val, 5), (b.val, 5), (0, 3), (ea.toNat, 1)] _ _ 1 hk),
      decide_bool _ _ (pack_one [(1, 7), (d.val, 5), (a.val, 5), (b.val, 5), (0, 3)] _ _ 1 hk),
      fin_of _ _ _ (pack_one [(1, 7), (d.val, 5), (a.val, 5)] _ _ 5 hk),
      fin_of _ _ _ (pack_one [(1, 7), (d.val, 5)] _ _ 5 hk),
      fin_of _ _ _ (pack_one [(1, 7)] _ _ 5 hk)⟩
  rw [rowOf_01 _ h0]
  simp [rowAlu, f0, f1, hd]

theorem rem (x : Alu2) : Statement (.rem x) := by
  intro w hw h
  simp only [encode, Option.some.injEq] at h
  subst h
  obtain ⟨eb, ea, b, a, d⟩ := x
  have hk : Packed [(1, 7), (d.val, 5), (a.val, 5), (b.val, 5), (0, 3), (ea.toNat, 1), (eb.toNat, 1), (23, 5)] :=
    ⟨by decide, d.isLt, a.isLt, b.isLt, by decide, bool_lt_two ea, bool_lt_two eb, by decide, trivial⟩
  refine decode_of_pack _ [(1, 7), (d.val, 5), (a.val, 5), (b.val, 5), (0, 3), (ea.toNat, 1), (eb.toNat, 1), (23, 5)] _ (by simp only [Alu2.enc, pack]; omega) hk rfl ?_ hw
  generalize hn : pack [(1, 7), (d.val, 5), (a.val, 5), (b.val, 5), (0, 3), (ea.toNat, 1), (eb.toNat, 1), (23, 5)] = nn at *
  have h0 : nn % 128 = 0x01 := by subst hn; exact pack_mod [(1, 7)] _ hk
  have f0 : fld nn 27 5 = 23 := by subst hn; exact pack_field [(1, 7), (d.val, 5), (a.val, 5), (b.val, 5), (0, 3), (ea.toNat, 1), (eb.toNat, 1)] [(23, 5)] _ hk
  have f1 : fld nn 22 3 = 0 := by subst hn; exact pack_field [(1, 7), (d.val, 5), (a.val, 5), (b.val, 5)] [(0, 3)] _ hk
  have hd : Alu2.dec nn = ⟨eb, ea, b, a, d⟩ := by
    subst hn; simp only [Alu2.dec, Alu2.mk.injEq]
    exact ⟨decide_bool _ _ (pack_one [(1, 7), (d.val, 5), (a.val, 5), (b.val, 5), (0, 3), (ea.toNat, 1)] _ _ 1 hk),
      decide_bool _ _ (pack_one [(1, 7), (d.val, 5), (a.val, 5), (b.val, 5), (0, 3)] _ _ 1 hk),
      fin_of _ _ _ (pack_one [(1, 7), (d.val, 5), (a.val, 5)] _ _ 5 hk),
      fin_of _ _ _ (pack_one [(1, 7), (d.val, 5)] _ _ 5 hk),
      fin_of _ _ _ (pack_one [(1, 7)] _ _ 5 hk)⟩
  rw [rowOf_01 _ h0]
  simp [rowAlu, f0, f1, hd]

theorem remu (x : Alu2) : Statement (.remu x) := by
  intro w hw h
  simp only [encode, Option.some.injEq] at h
  subst h
  obtain ⟨eb, ea, b, a, d⟩ := x
  have hk : Packed [(1, 7), (d.val, 5), (a.val, 5), (b.val, 5), (0, 3), (ea.toNat, 1), (eb.toNat, 1), (24, 5)] :=
    ⟨by decide, d.isLt, a.isLt, b.isLt, by decide, bool_lt_two ea, bool_lt_two eb, by decide, trivial⟩
  refine decode_of_pack _ [(1, 7), (d.val, 5), (a.val, 5), (b.val, 5), (0, 3), (ea.toNat, 1), (eb.toNat, 1), (24, 5)] _ (by simp only [Alu2.enc, pack]; omega) hk rfl ?_ hw
  generalize hn : pack [(1, 7), (d.val, 5), (a.val, 5), (b.val, 5), (0, 3), (ea.toNat, 1), (eb.toNat, 1), (24, 5)] = nn at *
  have h0 : nn % 128 = 0x01 := by subst hn; exact pack_mod [(1, 7)] _ hk
  have f0 : fld nn 27 5 = 24 := by subst hn; exact pack_field [(1, 7), (d.val, 5), (a.val, 5), (b.val, 5), (0, 3), (ea.toNat, 1), (eb.toNat, 1)] [(24, 5)] _ hk
  have f1 : fld nn 22 3 = 0 := by subst hn; exact pack_field [(1, 7), (d.val, 5), (a.val, 5), (b.val, 5)] [(0, 3)] _ hk
  have hd : Alu2.dec nn = ⟨eb, ea, b, a, d⟩ := by
    subst hn; simp only [Alu2.dec, Alu2.mk.injEq]
    exact ⟨decide_bool _ _ (pack_one [(1, 7), (d.val, 5), (a.val, 5), (b.val, 5), (0, 3), (ea.toNat, 1)] _ _ 1 hk),
      decide_bool _ _ (pack_one [(1, 7), (d.val, 5), (a.val, 5), (b.val, 5), (0, 3)] _ _ 1 hk),
      fin_of _ _ _ (pack_one [(1, 7), (d.val, 5), (a.val, 5)] _ _ 5 hk),
      fin_of _ _ _ (pack_one [(1, 7), (d.val, 5)] _ _ 5 hk),
      fin_of _ _ _ (pack_one [(1, 7)] _ _ 5 hk)⟩
  rw [rowOf_01 _ h0]
  simp [rowAlu, f0, f1, hd]

theorem clz (x : Alu1) : Statement (.clz x) := by
  intro w hw h
  simp only [encode, Option.some.injEq] at h
  subst h
  obtain ⟨ea, a, d⟩ := x
  have hk : Packed [(1, 7), (d.val, 5), (a.val, 5), (0, 8), (ea.toNat, 1), (0, 1), (31, 5)] :=
    ⟨by decide, d.isLt, a.isLt, by decide, bool_lt_two ea, by decide, by decide, trivial⟩
  refine decode_of_pack _ [(1, 7), (d.val, 5), (a.val, 5), (0, 8), (ea.toNat, 1), (0, 1), (31, 5)] _ (by simp only [Alu1.enc, pack]; omega) hk rfl ?_ hw
  generalize hn : pack [(1, 7), (d.val, 5), (a.val, 5), (0, 8), (ea.toNat, 1), (0, 1), (31, 5)] = nn at *
  have h0 : nn % 128 = 0x01 := by subst hn; exact pack_mod [(1, 7)] _ hk
  have f0 : fld nn 27 5 = 31 := by subst hn; exact pack_field [(1, 7), (d.val, 5), (a.val, 5), (0, 8), (ea.toNat, 1), (0, 1)] [(31, 5)] _ hk
  have f1 : fld nn 26 6 = 62 := by subst hn; exact pack_field [(1, 7), (d.val, 5), (a.val, 5), (0, 8), (ea.toNat, 1)] [(0, 1), (31, 5)] _ hk
  have f2 : fld nn 17 8 = 0 := by subst hn; exact pack_field [(1, 7), (d.val, 5), (a.val, 5)] [(0, 8)] _ hk
  have hd : Alu1.dec nn = ⟨ea, a, d⟩ := by
    subst hn; simp only [Alu1.dec, Alu1.mk.injEq]
    exact ⟨decide_bool _ _ (pack_one [(1, 7), (d.val, 5), (a.val, 5), (0, 8)] _ _ 1 hk),
      fin_of _ _ _ (pack_one [(1, 7), (d.val, 5)] _ _ 5 hk),
      fin_of _ _ _ (pack_one [(1, 7)] _ _ 5 hk)⟩
  rw [rowOf_01 _ h0]
  simp [rowAlu, f0, f1, f2, hd]

theorem ctz (x : Alu1) : Statement (.ctz x) := by
  intro w hw h
  simp only [encode, Option.some.injEq] at h
  subst h
  obtain ⟨ea, a, d⟩ := x
  have hk : Packed [(1, 7), (d.val, 5), (a.val, 5), (1, 8), (ea.toNat, 1), (0, 1), (31, 5)] :=
    ⟨by decide, d.isLt, a.isLt, by decide, bool_lt_two ea, by decide, by decide, trivial⟩
  refine decode_of_pack _ [(1, 7), (d.val, 5), (a.val, 5), (1, 8), (ea.toNat, 1), (0, 1), (31, 5)] _ (by simp only [Alu1.enc, pack]; omega) hk rfl ?_ hw
  generalize hn : pack [(1, 7), (d.val, 5), (a.val, 5), (1, 8), (ea.toNat, 1), (0, 1), (31, 5)] = nn at *
  have h0 : nn % 128 = 0x01 := by subst hn; exact pack_mod [(1, 7)] _ hk
  have f0 : fld nn 27 5 = 31 := by subst hn; exact pack_field [(1, 7), (d.val, 5), (a.val, 5), (1, 8), (ea.toNat, 1), (0, 1)] [(31, 5)] _ hk
  have f1 : fld nn 17 8 = 1 := by subst hn; exact pack_field [(1, 7), (d.val, 5), (a.val, 5)] [(1, 8)] _ hk
  have f2 : fld nn 26 6 = 62 := by subst hn; exact pack_field [(1, 7), (d.val, 5), (a.val, 5), (1, 8), (ea.toNat, 1)] [(0, 1), (31, 5)] _ hk
  have hd : Alu1.dec nn = ⟨ea, a, d⟩ := by
    subst hn; simp only [Alu1.dec, Alu1.mk.injEq]
    exact ⟨decide_bool _ _ (pack_one [(1, 7), (d.val, 5), (a.val, 5), (1, 8)] _ _ 1 hk),
      fin_of _ _ _ (pack_one [(1, 7), (d.val, 5)] _ _ 5 hk),
      fin_of _ _ _ (pack_one [(1, 7)] _ _ 5 hk)⟩
  rw [rowOf_01 _ h0]
  simp [rowAlu, f0, f1, f2, hd]

theorem popc (x : Alu1) : Statement (.popc x) := by
  intro w hw h
  simp only [encode, Option.some.injEq] at h
  subst h
  obtain ⟨ea, a, d⟩ := x
  have hk : Packed [(1, 7), (d.val, 5), (a.val, 5), (2, 8), (ea.toNat, 1), (0, 1), (31, 5)] :=
    ⟨by decide, d.isLt, a.isLt, by decide, bool_lt_two ea, by decide, by decide, trivial⟩
  refine decode_of_pack _ [(1, 7), (d.val, 5), (a.val, 5), (2, 8), (ea.toNat, 1), (0, 1), (31, 5)] _ (by simp only [Alu1.enc, pack]; omega) hk rfl ?_ hw
  generalize hn : pack [(1, 7), (d.val, 5), (a.val, 5), (2, 8), (ea.toNat, 1), (0, 1), (31, 5)] = nn at *
  have h0 : nn % 128 = 0x01 := by subst hn; exact pack_mod [(1, 7)] _ hk
  have f0 : fld nn 27 5 = 31 := by subst hn; exact pack_field [(1, 7), (d.val, 5), (a.val, 5), (2, 8), (ea.toNat, 1), (0, 1)] [(31, 5)] _ hk
  have f1 : fld nn 17 8 = 2 := by subst hn; exact pack_field [(1, 7), (d.val, 5), (a.val, 5)] [(2, 8)] _ hk
  have f2 : fld nn 26 6 = 62 := by subst hn; exact pack_field [(1, 7), (d.val, 5), (a.val, 5), (2, 8), (ea.toNat, 1)] [(0, 1), (31, 5)] _ hk
  have hd : Alu1.dec nn = ⟨ea, a, d⟩ := by
    subst hn; simp only [Alu1.dec, Alu1.mk.injEq]
    exact ⟨decide_bool _ _ (pack_one [(1, 7), (d.val, 5), (a.val, 5), (2, 8)] _ _ 1 hk),
      fin_of _ _ _ (pack_one [(1, 7), (d.val, 5)] _ _ 5 hk),
      fin_of _ _ _ (pack_one [(1, 7)] _ _ 5 hk)⟩
  rw [rowOf_01 _ h0]
  simp [rowAlu, f0, f1, f2, hd]

theorem bswap (x : Alu1) : Statement (.bswap x) := by
  intro w hw h
  simp only [encode, Option.some.injEq] at h
  subst h
  obtain ⟨ea, a, d⟩ := x
  have hk : Packed [(1, 7), (d.val, 5), (a.val, 5), (3, 8), (ea.toNat, 1), (0, 1), (31, 5)] :=
    ⟨by decide, d.isLt, a.isLt, by decide, bool_lt_two ea, by decide, by decide, trivial⟩
  refine decode_of_pack _ [(1, 7), (d.val, 5), (a.val, 5), (3, 8), (ea.toNat, 1), (0, 1), (31, 5)] _ (by simp only [Alu1.enc, pack]; omega) hk rfl ?_ hw
  generalize hn : pack [(1, 7), (d.val, 5), (a.val, 5), (3, 8), (ea.toNat, 1), (0, 1), (31, 5)] = nn at *
  have h0 : nn % 128 = 0x01 := by subst hn; exact pack_mod [(1, 7)] _ hk
  have f0 : fld nn 27 5 = 31 := by subst hn; exact pack_field [(1, 7), (d.val, 5), (a.val, 5), (3, 8), (ea.toNat, 1), (0, 1)] [(31, 5)] _ hk
  have f1 : fld nn 17 8 = 3 := by subst hn; exact pack_field [(1, 7), (d.val, 5), (a.val, 5)] [(3, 8)] _ hk
  have f2 : fld nn 26 6 = 62 := by subst hn; exact pack_field [(1, 7), (d.val, 5), (a.val, 5), (3, 8), (ea.toNat, 1)] [(0, 1), (31, 5)] _ hk
  have hd : Alu1.dec nn = ⟨ea, a, d⟩ := by
    subst hn; simp only [Alu1.dec, Alu1.mk.injEq]
    exact ⟨decide_bool _ _ (pack_one [(1, 7), (d.val, 5), (a.val, 5), (3, 8)] _ _ 1 hk),
      fin_of _ _ _ (pack_one [(1, 7), (d.val, 5)] _ _ 5 hk),
      fin_of _ _ _ (pack_one [(1, 7)] _ _ 5 hk)⟩
  rw [rowOf_01 _ h0]
  simp [rowAlu, f0, f1, f2, hd]

theorem sextB (x : Alu1) : Statement (.sextB x) := by
  intro w hw h
  simp only [encode, Option.some.injEq] at h
  subst h
  obtain ⟨ea, a, d⟩ := x
  have hk : Packed [(1, 7), (d.val, 5), (a.val, 5), (4, 8), (ea.toNat, 1), (0, 1), (31, 5)] :=
    ⟨by decide, d.isLt, a.isLt, by decide, bool_lt_two ea, by decide, by decide, trivial⟩
  refine decode_of_pack _ [(1, 7), (d.val, 5), (a.val, 5), (4, 8), (ea.toNat, 1), (0, 1), (31, 5)] _ (by simp only [Alu1.enc, pack]; omega) hk rfl ?_ hw
  generalize hn : pack [(1, 7), (d.val, 5), (a.val, 5), (4, 8), (ea.toNat, 1), (0, 1), (31, 5)] = nn at *
  have h0 : nn % 128 = 0x01 := by subst hn; exact pack_mod [(1, 7)] _ hk
  have f0 : fld nn 27 5 = 31 := by subst hn; exact pack_field [(1, 7), (d.val, 5), (a.val, 5), (4, 8), (ea.toNat, 1), (0, 1)] [(31, 5)] _ hk
  have f1 : fld nn 17 8 = 4 := by subst hn; exact pack_field [(1, 7), (d.val, 5), (a.val, 5)] [(4, 8)] _ hk
  have f2 : fld nn 26 6 = 62 := by subst hn; exact pack_field [(1, 7), (d.val, 5), (a.val, 5), (4, 8), (ea.toNat, 1)] [(0, 1), (31, 5)] _ hk
  have hd : Alu1.dec nn = ⟨ea, a, d⟩ := by
    subst hn; simp only [Alu1.dec, Alu1.mk.injEq]
    exact ⟨decide_bool _ _ (pack_one [(1, 7), (d.val, 5), (a.val, 5), (4, 8)] _ _ 1 hk),
      fin_of _ _ _ (pack_one [(1, 7), (d.val, 5)] _ _ 5 hk),
      fin_of _ _ _ (pack_one [(1, 7)] _ _ 5 hk)⟩
  rw [rowOf_01 _ h0]
  simp [rowAlu, f0, f1, f2, hd]

theorem sextH (x : Alu1) : Statement (.sextH x) := by
  intro w hw h
  simp only [encode, Option.some.injEq] at h
  subst h
  obtain ⟨ea, a, d⟩ := x
  have hk : Packed [(1, 7), (d.val, 5), (a.val, 5), (5, 8), (ea.toNat, 1), (0, 1), (31, 5)] :=
    ⟨by decide, d.isLt, a.isLt, by decide, bool_lt_two ea, by decide, by decide, trivial⟩
  refine decode_of_pack _ [(1, 7), (d.val, 5), (a.val, 5), (5, 8), (ea.toNat, 1), (0, 1), (31, 5)] _ (by simp only [Alu1.enc, pack]; omega) hk rfl ?_ hw
  generalize hn : pack [(1, 7), (d.val, 5), (a.val, 5), (5, 8), (ea.toNat, 1), (0, 1), (31, 5)] = nn at *
  have h0 : nn % 128 = 0x01 := by subst hn; exact pack_mod [(1, 7)] _ hk
  have f0 : fld nn 27 5 = 31 := by subst hn; exact pack_field [(1, 7), (d.val, 5), (a.val, 5), (5, 8), (ea.toNat, 1), (0, 1)] [(31, 5)] _ hk
  have f1 : fld nn 17 8 = 5 := by subst hn; exact pack_field [(1, 7), (d.val, 5), (a.val, 5)] [(5, 8)] _ hk
  have f2 : fld nn 26 6 = 62 := by subst hn; exact pack_field [(1, 7), (d.val, 5), (a.val, 5), (5, 8), (ea.toNat, 1)] [(0, 1), (31, 5)] _ hk
  have hd : Alu1.dec nn = ⟨ea, a, d⟩ := by
    subst hn; simp only [Alu1.dec, Alu1.mk.injEq]
    exact ⟨decide_bool _ _ (pack_one [(1, 7), (d.val, 5), (a.val, 5), (5, 8)] _ _ 1 hk),
      fin_of _ _ _ (pack_one [(1, 7), (d.val, 5)] _ _ 5 hk),
      fin_of _ _ _ (pack_one [(1, 7)] _ _ 5 hk)⟩
  rw [rowOf_01 _ h0]
  simp [rowAlu, f0, f1, f2, hd]

theorem sextW (x : Alu1) : Statement (.sextW x) := by
  intro w hw h
  simp only [encode, Option.some.injEq] at h
  subst h
  obtain ⟨ea, a, d⟩ := x
  have hk : Packed [(1, 7), (d.val, 5), (a.val, 5), (6, 8), (ea.toNat, 1), (0, 1), (31, 5)] :=
    ⟨by decide, d.isLt, a.isLt, by decide, bool_lt_two ea, by decide, by decide, trivial⟩
  refine decode_of_pack _ [(1, 7), (d.val, 5), (a.val, 5), (6, 8), (ea.toNat, 1), (0, 1), (31, 5)] _ (by simp only [Alu1.enc, pack]; omega) hk rfl ?_ hw
  generalize hn : pack [(1, 7), (d.val, 5), (a.val, 5), (6, 8), (ea.toNat, 1), (0, 1), (31, 5)] = nn at *
  have h0 : nn % 128 = 0x01 := by subst hn; exact pack_mod [(1, 7)] _ hk
  have f0 : fld nn 27 5 = 31 := by subst hn; exact pack_field [(1, 7), (d.val, 5), (a.val, 5), (6, 8), (ea.toNat, 1), (0, 1)] [(31, 5)] _ hk
  have f1 : fld nn 17 8 = 6 := by subst hn; exact pack_field [(1, 7), (d.val, 5), (a.val, 5)] [(6, 8)] _ hk
  have f2 : fld nn 26 6 = 62 := by subst hn; exact pack_field [(1, 7), (d.val, 5), (a.val, 5), (6, 8), (ea.toNat, 1)] [(0, 1), (31, 5)] _ hk
  have hd : Alu1.dec nn = ⟨ea, a, d⟩ := by
    subst hn; simp only [Alu1.dec, Alu1.mk.injEq]
    exact ⟨decide_bool _ _ (pack_one [(1, 7), (d.val, 5), (a.val, 5), (6, 8)] _ _ 1 hk),
      fin_of _ _ _ (pack_one [(1, 7), (d.val, 5)] _ _ 5 hk),
      fin_of _ _ _ (pack_one [(1, 7)] _ _ 5 hk)⟩
  rw [rowOf_01 _ h0]
  simp [rowAlu, f0, f1, f2, hd]

theorem zextW (x : Alu1) : Statement (.zextW x) := by
  intro w hw h
  simp only [encode, Option.some.injEq] at h
  subst h
  obtain ⟨ea, a, d⟩ := x
  have hk : Packed [(1, 7), (d.val, 5), (a.val, 5), (7, 8), (ea.toNat, 1), (0, 1), (31, 5)] :=
    ⟨by decide, d.isLt, a.isLt, by decide, bool_lt_two ea, by decide, by decide, trivial⟩
  refine decode_of_pack _ [(1, 7), (d.val, 5), (a.val, 5), (7, 8), (ea.toNat, 1), (0, 1), (31, 5)] _ (by simp only [Alu1.enc, pack]; omega) hk rfl ?_ hw
  generalize hn : pack [(1, 7), (d.val, 5), (a.val, 5), (7, 8), (ea.toNat, 1), (0, 1), (31, 5)] = nn at *
  have h0 : nn % 128 = 0x01 := by subst hn; exact pack_mod [(1, 7)] _ hk
  have f0 : fld nn 27 5 = 31 := by subst hn; exact pack_field [(1, 7), (d.val, 5), (a.val, 5), (7, 8), (ea.toNat, 1), (0, 1)] [(31, 5)] _ hk
  have f1 : fld nn 17 8 = 7 := by subst hn; exact pack_field [(1, 7), (d.val, 5), (a.val, 5)] [(7, 8)] _ hk
  have f2 : fld nn 26 6 = 62 := by subst hn; exact pack_field [(1, 7), (d.val, 5), (a.val, 5), (7, 8), (ea.toNat, 1)] [(0, 1), (31, 5)] _ hk
  have hd : Alu1.dec nn = ⟨ea, a, d⟩ := by
    subst hn; simp only [Alu1.dec, Alu1.mk.injEq]
    exact ⟨decide_bool _ _ (pack_one [(1, 7), (d.val, 5), (a.val, 5), (7, 8)] _ _ 1 hk),
      fin_of _ _ _ (pack_one [(1, 7), (d.val, 5)] _ _ 5 hk),
      fin_of _ _ _ (pack_one [(1, 7)] _ _ 5 hk)⟩
  rw [rowOf_01 _ h0]
  simp [rowAlu, f0, f1, f2, hd]

theorem addi (x : ImmI) : Statement (.addi x) := by
  intro w hw h
  simp only [encode, Option.some.injEq] at h
  subst h
  obtain ⟨imm, ea, a, d⟩ := x
  have hk : Packed [(2, 7), (d.val, 5), (a.val, 5), (ea.toNat, 1), (imm.toNat, 14)] :=
    ⟨by decide, d.isLt, a.isLt, bool_lt_two ea, imm.isLt, trivial⟩
  refine decode_of_pack _ [(2, 7), (d.val, 5), (a.val, 5), (ea.toNat, 1), (imm.toNat, 14)] _ (by simp only [ImmI.enc, pack]; omega) hk rfl ?_ hw
  generalize hn : pack [(2, 7), (d.val, 5), (a.val, 5), (ea.toNat, 1), (imm.toNat, 14)] = nn at *
  have h0 : nn % 128 = 0x02 := by subst hn; exact pack_mod [(2, 7)] _ hk
  have hd : ImmI.dec nn = ⟨imm, ea, a, d⟩ := by
    subst hn; simp only [ImmI.dec, ImmI.mk.injEq]
    exact ⟨bitVec_of _ _ (pack_one [(2, 7), (d.val, 5), (a.val, 5), (ea.toNat, 1)] _ _ 14 hk),
      decide_bool _ _ (pack_one [(2, 7), (d.val, 5), (a.val, 5)] _ _ 1 hk),
      fin_of _ _ _ (pack_one [(2, 7), (d.val, 5)] _ _ 5 hk),
      fin_of _ _ _ (pack_one [(2, 7)] _ _ 5 hk)⟩
  rw [rowOf_02 _ h0]
  simp [rowAddi, hd]

theorem andi (x : ImmI) : Statement (.andi x) := by
  intro w hw h
  simp only [encode, Option.some.injEq] at h
  subst h
  obtain ⟨imm, ea, a, d⟩ := x
  have hk : Packed [(3, 7), (d.val, 5), (a.val, 5), (ea.toNat, 1), (imm.toNat, 14)] :=
    ⟨by decide, d.isLt, a.isLt, bool_lt_two ea, imm.isLt, trivial⟩
  refine decode_of_pack _ [(3, 7), (d.val, 5), (a.val, 5), (ea.toNat, 1), (imm.toNat, 14)] _ (by simp only [ImmI.enc, pack]; omega) hk rfl ?_ hw
  generalize hn : pack [(3, 7), (d.val, 5), (a.val, 5), (ea.toNat, 1), (imm.toNat, 14)] = nn at *
  have h0 : nn % 128 = 0x03 := by subst hn; exact pack_mod [(3, 7)] _ hk
  have hd : ImmI.dec nn = ⟨imm, ea, a, d⟩ := by
    subst hn; simp only [ImmI.dec, ImmI.mk.injEq]
    exact ⟨bitVec_of _ _ (pack_one [(3, 7), (d.val, 5), (a.val, 5), (ea.toNat, 1)] _ _ 14 hk),
      decide_bool _ _ (pack_one [(3, 7), (d.val, 5), (a.val, 5)] _ _ 1 hk),
      fin_of _ _ _ (pack_one [(3, 7), (d.val, 5)] _ _ 5 hk),
      fin_of _ _ _ (pack_one [(3, 7)] _ _ 5 hk)⟩
  rw [rowOf_03 _ h0]
  simp [rowAndi, hd]

theorem ori (x : ImmI) : Statement (.ori x) := by
  intro w hw h
  simp only [encode, Option.some.injEq] at h
  subst h
  obtain ⟨imm, ea, a, d⟩ := x
  have hk : Packed [(4, 7), (d.val, 5), (a.val, 5), (ea.toNat, 1), (imm.toNat, 14)] :=
    ⟨by decide, d.isLt, a.isLt, bool_lt_two ea, imm.isLt, trivial⟩
  refine decode_of_pack _ [(4, 7), (d.val, 5), (a.val, 5), (ea.toNat, 1), (imm.toNat, 14)] _ (by simp only [ImmI.enc, pack]; omega) hk rfl ?_ hw
  generalize hn : pack [(4, 7), (d.val, 5), (a.val, 5), (ea.toNat, 1), (imm.toNat, 14)] = nn at *
  have h0 : nn % 128 = 0x04 := by subst hn; exact pack_mod [(4, 7)] _ hk
  have hd : ImmI.dec nn = ⟨imm, ea, a, d⟩ := by
    subst hn; simp only [ImmI.dec, ImmI.mk.injEq]
    exact ⟨bitVec_of _ _ (pack_one [(4, 7), (d.val, 5), (a.val, 5), (ea.toNat, 1)] _ _ 14 hk),
      decide_bool _ _ (pack_one [(4, 7), (d.val, 5), (a.val, 5)] _ _ 1 hk),
      fin_of _ _ _ (pack_one [(4, 7), (d.val, 5)] _ _ 5 hk),
      fin_of _ _ _ (pack_one [(4, 7)] _ _ 5 hk)⟩
  rw [rowOf_04 _ h0]
  simp [rowOri, hd]

theorem xori (x : ImmI) : Statement (.xori x) := by
  intro w hw h
  simp only [encode, Option.some.injEq] at h
  subst h
  obtain ⟨imm, ea, a, d⟩ := x
  have hk : Packed [(5, 7), (d.val, 5), (a.val, 5), (ea.toNat, 1), (imm.toNat, 14)] :=
    ⟨by decide, d.isLt, a.isLt, bool_lt_two ea, imm.isLt, trivial⟩
  refine decode_of_pack _ [(5, 7), (d.val, 5), (a.val, 5), (ea.toNat, 1), (imm.toNat, 14)] _ (by simp only [ImmI.enc, pack]; omega) hk rfl ?_ hw
  generalize hn : pack [(5, 7), (d.val, 5), (a.val, 5), (ea.toNat, 1), (imm.toNat, 14)] = nn at *
  have h0 : nn % 128 = 0x05 := by subst hn; exact pack_mod [(5, 7)] _ hk
  have hd : ImmI.dec nn = ⟨imm, ea, a, d⟩ := by
    subst hn; simp only [ImmI.dec, ImmI.mk.injEq]
    exact ⟨bitVec_of _ _ (pack_one [(5, 7), (d.val, 5), (a.val, 5), (ea.toNat, 1)] _ _ 14 hk),
      decide_bool _ _ (pack_one [(5, 7), (d.val, 5), (a.val, 5)] _ _ 1 hk),
      fin_of _ _ _ (pack_one [(5, 7), (d.val, 5)] _ _ 5 hk),
      fin_of _ _ _ (pack_one [(5, 7)] _ _ 5 hk)⟩
  rw [rowOf_05 _ h0]
  simp [rowXori, hd]

theorem shli (x : ShI) : Statement (.shli x) := by
  intro w hw h
  simp only [encode, Option.some.injEq] at h
  subst h
  obtain ⟨amt, ea, a, d⟩ := x
  have hk : Packed [(6, 7), (d.val, 5), (a.val, 5), (ea.toNat, 1), (amt.toNat, 6), (0, 8)] :=
    ⟨by decide, d.isLt, a.isLt, bool_lt_two ea, amt.isLt, by decide, trivial⟩
  refine decode_of_pack _ [(6, 7), (d.val, 5), (a.val, 5), (ea.toNat, 1), (amt.toNat, 6), (0, 8)] _ (by simp only [ShI.enc, pack]; omega) hk rfl ?_ hw
  generalize hn : pack [(6, 7), (d.val, 5), (a.val, 5), (ea.toNat, 1), (amt.toNat, 6), (0, 8)] = nn at *
  have h0 : nn % 128 = 0x06 := by subst hn; exact pack_mod [(6, 7)] _ hk
  have f0 : fld nn 24 8 = 0 := by subst hn; exact pack_field [(6, 7), (d.val, 5), (a.val, 5), (ea.toNat, 1), (amt.toNat, 6)] [(0, 8)] _ hk
  have hd : ShI.dec nn = ⟨amt, ea, a, d⟩ := by
    subst hn; simp only [ShI.dec, ShI.mk.injEq]
    exact ⟨bitVec_of _ _ (pack_one [(6, 7), (d.val, 5), (a.val, 5), (ea.toNat, 1)] _ _ 6 hk),
      decide_bool _ _ (pack_one [(6, 7), (d.val, 5), (a.val, 5)] _ _ 1 hk),
      fin_of _ _ _ (pack_one [(6, 7), (d.val, 5)] _ _ 5 hk),
      fin_of _ _ _ (pack_one [(6, 7)] _ _ 5 hk)⟩
  rw [rowOf_06 _ h0]
  simp [rowShiftI, f0, hd]

theorem shri (x : ShI) : Statement (.shri x) := by
  intro w hw h
  simp only [encode, Option.some.injEq] at h
  subst h
  obtain ⟨amt, ea, a, d⟩ := x
  have hk : Packed [(6, 7), (d.val, 5), (a.val, 5), (ea.toNat, 1), (amt.toNat, 6), (1, 8)] :=
    ⟨by decide, d.isLt, a.isLt, bool_lt_two ea, amt.isLt, by decide, trivial⟩
  refine decode_of_pack _ [(6, 7), (d.val, 5), (a.val, 5), (ea.toNat, 1), (amt.toNat, 6), (1, 8)] _ (by simp only [ShI.enc, pack]; omega) hk rfl ?_ hw
  generalize hn : pack [(6, 7), (d.val, 5), (a.val, 5), (ea.toNat, 1), (amt.toNat, 6), (1, 8)] = nn at *
  have h0 : nn % 128 = 0x06 := by subst hn; exact pack_mod [(6, 7)] _ hk
  have f0 : fld nn 24 8 = 1 := by subst hn; exact pack_field [(6, 7), (d.val, 5), (a.val, 5), (ea.toNat, 1), (amt.toNat, 6)] [(1, 8)] _ hk
  have hd : ShI.dec nn = ⟨amt, ea, a, d⟩ := by
    subst hn; simp only [ShI.dec, ShI.mk.injEq]
    exact ⟨bitVec_of _ _ (pack_one [(6, 7), (d.val, 5), (a.val, 5), (ea.toNat, 1)] _ _ 6 hk),
      decide_bool _ _ (pack_one [(6, 7), (d.val, 5), (a.val, 5)] _ _ 1 hk),
      fin_of _ _ _ (pack_one [(6, 7), (d.val, 5)] _ _ 5 hk),
      fin_of _ _ _ (pack_one [(6, 7)] _ _ 5 hk)⟩
  rw [rowOf_06 _ h0]
  simp [rowShiftI, f0, hd]

theorem sari (x : ShI) : Statement (.sari x) := by
  intro w hw h
  simp only [encode, Option.some.injEq] at h
  subst h
  obtain ⟨amt, ea, a, d⟩ := x
  have hk : Packed [(6, 7), (d.val, 5), (a.val, 5), (ea.toNat, 1), (amt.toNat, 6), (2, 8)] :=
    ⟨by decide, d.isLt, a.isLt, bool_lt_two ea, amt.isLt, by decide, trivial⟩
  refine decode_of_pack _ [(6, 7), (d.val, 5), (a.val, 5), (ea.toNat, 1), (amt.toNat, 6), (2, 8)] _ (by simp only [ShI.enc, pack]; omega) hk rfl ?_ hw
  generalize hn : pack [(6, 7), (d.val, 5), (a.val, 5), (ea.toNat, 1), (amt.toNat, 6), (2, 8)] = nn at *
  have h0 : nn % 128 = 0x06 := by subst hn; exact pack_mod [(6, 7)] _ hk
  have f0 : fld nn 24 8 = 2 := by subst hn; exact pack_field [(6, 7), (d.val, 5), (a.val, 5), (ea.toNat, 1), (amt.toNat, 6)] [(2, 8)] _ hk
  have hd : ShI.dec nn = ⟨amt, ea, a, d⟩ := by
    subst hn; simp only [ShI.dec, ShI.mk.injEq]
    exact ⟨bitVec_of _ _ (pack_one [(6, 7), (d.val, 5), (a.val, 5), (ea.toNat, 1)] _ _ 6 hk),
      decide_bool _ _ (pack_one [(6, 7), (d.val, 5), (a.val, 5)] _ _ 1 hk),
      fin_of _ _ _ (pack_one [(6, 7), (d.val, 5)] _ _ 5 hk),
      fin_of _ _ _ (pack_one [(6, 7)] _ _ 5 hk)⟩
  rw [rowOf_06 _ h0]
  simp [rowShiftI, f0, hd]

theorem roli (x : ShI) : Statement (.roli x) := by
  intro w hw h
  simp only [encode, Option.some.injEq] at h
  subst h
  obtain ⟨amt, ea, a, d⟩ := x
  have hk : Packed [(6, 7), (d.val, 5), (a.val, 5), (ea.toNat, 1), (amt.toNat, 6), (3, 8)] :=
    ⟨by decide, d.isLt, a.isLt, bool_lt_two ea, amt.isLt, by decide, trivial⟩
  refine decode_of_pack _ [(6, 7), (d.val, 5), (a.val, 5), (ea.toNat, 1), (amt.toNat, 6), (3, 8)] _ (by simp only [ShI.enc, pack]; omega) hk rfl ?_ hw
  generalize hn : pack [(6, 7), (d.val, 5), (a.val, 5), (ea.toNat, 1), (amt.toNat, 6), (3, 8)] = nn at *
  have h0 : nn % 128 = 0x06 := by subst hn; exact pack_mod [(6, 7)] _ hk
  have f0 : fld nn 24 8 = 3 := by subst hn; exact pack_field [(6, 7), (d.val, 5), (a.val, 5), (ea.toNat, 1), (amt.toNat, 6)] [(3, 8)] _ hk
  have hd : ShI.dec nn = ⟨amt, ea, a, d⟩ := by
    subst hn; simp only [ShI.dec, ShI.mk.injEq]
    exact ⟨bitVec_of _ _ (pack_one [(6, 7), (d.val, 5), (a.val, 5), (ea.toNat, 1)] _ _ 6 hk),
      decide_bool _ _ (pack_one [(6, 7), (d.val, 5), (a.val, 5)] _ _ 1 hk),
      fin_of _ _ _ (pack_one [(6, 7), (d.val, 5)] _ _ 5 hk),
      fin_of _ _ _ (pack_one [(6, 7)] _ _ 5 hk)⟩
  rw [rowOf_06 _ h0]
  simp [rowShiftI, f0, hd]

theorem slti (x : SltI) : Statement (.slti x) := by
  intro w hw h
  simp only [encode, Option.some.injEq] at h
  subst h
  obtain ⟨imm, ea, a, d⟩ := x
  have hk : Packed [(7, 7), (d.val, 5), (a.val, 5), (ea.toNat, 1), (imm.toNat, 13), (0, 1)] :=
    ⟨by decide, d.isLt, a.isLt, bool_lt_two ea, imm.isLt, by decide, trivial⟩
  refine decode_of_pack _ [(7, 7), (d.val, 5), (a.val, 5), (ea.toNat, 1), (imm.toNat, 13), (0, 1)] _ (by simp only [SltI.enc, pack]; omega) hk rfl ?_ hw
  generalize hn : pack [(7, 7), (d.val, 5), (a.val, 5), (ea.toNat, 1), (imm.toNat, 13), (0, 1)] = nn at *
  have h0 : nn % 128 = 0x07 := by subst hn; exact pack_mod [(7, 7)] _ hk
  have f0 : fld nn 31 1 = 0 := by subst hn; exact pack_field [(7, 7), (d.val, 5), (a.val, 5), (ea.toNat, 1), (imm.toNat, 13)] [(0, 1)] _ hk
  have hd : SltI.dec nn = ⟨imm, ea, a, d⟩ := by
    subst hn; simp only [SltI.dec, SltI.mk.injEq]
    exact ⟨bitVec_of _ _ (pack_one [(7, 7), (d.val, 5), (a.val, 5), (ea.toNat, 1)] _ _ 13 hk),
      decide_bool _ _ (pack_one [(7, 7), (d.val, 5), (a.val, 5)] _ _ 1 hk),
      fin_of _ _ _ (pack_one [(7, 7), (d.val, 5)] _ _ 5 hk),
      fin_of _ _ _ (pack_one [(7, 7)] _ _ 5 hk)⟩
  rw [rowOf_07 _ h0]
  simp [rowSlti, f0, hd]

theorem sltiu (x : SltI) : Statement (.sltiu x) := by
  intro w hw h
  simp only [encode, Option.some.injEq] at h
  subst h
  obtain ⟨imm, ea, a, d⟩ := x
  have hk : Packed [(7, 7), (d.val, 5), (a.val, 5), (ea.toNat, 1), (imm.toNat, 13), (1, 1)] :=
    ⟨by decide, d.isLt, a.isLt, bool_lt_two ea, imm.isLt, by decide, trivial⟩
  refine decode_of_pack _ [(7, 7), (d.val, 5), (a.val, 5), (ea.toNat, 1), (imm.toNat, 13), (1, 1)] _ (by simp only [SltI.enc, pack]; omega) hk rfl ?_ hw
  generalize hn : pack [(7, 7), (d.val, 5), (a.val, 5), (ea.toNat, 1), (imm.toNat, 13), (1, 1)] = nn at *
  have h0 : nn % 128 = 0x07 := by subst hn; exact pack_mod [(7, 7)] _ hk
  have f0 : fld nn 31 1 = 1 := by subst hn; exact pack_field [(7, 7), (d.val, 5), (a.val, 5), (ea.toNat, 1), (imm.toNat, 13)] [(1, 1)] _ hk
  have hd : SltI.dec nn = ⟨imm, ea, a, d⟩ := by
    subst hn; simp only [SltI.dec, SltI.mk.injEq]
    exact ⟨bitVec_of _ _ (pack_one [(7, 7), (d.val, 5), (a.val, 5), (ea.toNat, 1)] _ _ 13 hk),
      decide_bool _ _ (pack_one [(7, 7), (d.val, 5), (a.val, 5)] _ _ 1 hk),
      fin_of _ _ _ (pack_one [(7, 7), (d.val, 5)] _ _ 5 hk),
      fin_of _ _ _ (pack_one [(7, 7)] _ _ 5 hk)⟩
  rw [rowOf_07 _ h0]
  simp [rowSlti, f0, hd]

theorem setk (x : SetK) : Statement (.setk x) := by
  intro w hw h
  simp only [encode, Option.some.injEq] at h
  subst h
  obtain ⟨imm, slot, d⟩ := x
  have hk : Packed [(8, 7), (d.val, 5), (slot.val, 2), (0, 1), (imm.toNat, 16), (0, 1)] :=
    ⟨by decide, d.isLt, slot.isLt, by decide, imm.isLt, by decide, trivial⟩
  refine decode_of_pack _ [(8, 7), (d.val, 5), (slot.val, 2), (0, 1), (imm.toNat, 16), (0, 1)] _ (by simp only [SetK.enc, pack]; omega) hk rfl ?_ hw
  generalize hn : pack [(8, 7), (d.val, 5), (slot.val, 2), (0, 1), (imm.toNat, 16), (0, 1)] = nn at *
  have h0 : nn % 128 = 0x08 := by subst hn; exact pack_mod [(8, 7)] _ hk
  have f0 : fld nn 31 1 = 0 := by subst hn; exact pack_field [(8, 7), (d.val, 5), (slot.val, 2), (0, 1), (imm.toNat, 16)] [(0, 1)] _ hk
  have f1 : fld nn 14 1 = 0 := by subst hn; exact pack_field [(8, 7), (d.val, 5), (slot.val, 2)] [(0, 1)] _ hk
  have hd : SetK.dec nn = ⟨imm, slot, d⟩ := by
    subst hn; simp only [SetK.dec, SetK.mk.injEq]
    exact ⟨bitVec_of _ _ (pack_one [(8, 7), (d.val, 5), (slot.val, 2), (0, 1)] _ _ 16 hk),
      fin_of _ _ _ (pack_one [(8, 7), (d.val, 5)] _ _ 2 hk),
      fin_of _ _ _ (pack_one [(8, 7)] _ _ 5 hk)⟩
  rw [rowOf_08 _ h0]
  simp [rowSetK, f0, f1, hd]

theorem setz (x : SetK) : Statement (.setz x) := by
  intro w hw h
  simp only [encode, Option.some.injEq] at h
  subst h
  obtain ⟨imm, slot, d⟩ := x
  have hk : Packed [(8, 7), (d.val, 5), (slot.val, 2), (1, 1), (imm.toNat, 16), (0, 1)] :=
    ⟨by decide, d.isLt, slot.isLt, by decide, imm.isLt, by decide, trivial⟩
  refine decode_of_pack _ [(8, 7), (d.val, 5), (slot.val, 2), (1, 1), (imm.toNat, 16), (0, 1)] _ (by simp only [SetK.enc, pack]; omega) hk rfl ?_ hw
  generalize hn : pack [(8, 7), (d.val, 5), (slot.val, 2), (1, 1), (imm.toNat, 16), (0, 1)] = nn at *
  have h0 : nn % 128 = 0x08 := by subst hn; exact pack_mod [(8, 7)] _ hk
  have f0 : fld nn 14 1 = 1 := by subst hn; exact pack_field [(8, 7), (d.val, 5), (slot.val, 2)] [(1, 1)] _ hk
  have f1 : fld nn 31 1 = 0 := by subst hn; exact pack_field [(8, 7), (d.val, 5), (slot.val, 2), (1, 1), (imm.toNat, 16)] [(0, 1)] _ hk
  have hd : SetK.dec nn = ⟨imm, slot, d⟩ := by
    subst hn; simp only [SetK.dec, SetK.mk.injEq]
    exact ⟨bitVec_of _ _ (pack_one [(8, 7), (d.val, 5), (slot.val, 2), (1, 1)] _ _ 16 hk),
      fin_of _ _ _ (pack_one [(8, 7), (d.val, 5)] _ _ 2 hk),
      fin_of _ _ _ (pack_one [(8, 7)] _ _ 5 hk)⟩
  rw [rowOf_08 _ h0]
  simp [rowSetK, f0, f1, hd]

theorem addpc (x : OffD) : Statement (.addpc x) := by
  intro w hw h
  simp only [encode, Option.some.injEq] at h
  subst h
  obtain ⟨off, d⟩ := x
  have hk : Packed [(9, 7), (d.val, 5), (off.toNat, 20)] :=
    ⟨by decide, d.isLt, off.isLt, trivial⟩
  refine decode_of_pack _ [(9, 7), (d.val, 5), (off.toNat, 20)] _ (by simp only [OffD.enc, pack]; omega) hk rfl ?_ hw
  generalize hn : pack [(9, 7), (d.val, 5), (off.toNat, 20)] = nn at *
  have h0 : nn % 128 = 0x09 := by subst hn; exact pack_mod [(9, 7)] _ hk
  have hd : OffD.dec nn = ⟨off, d⟩ := by
    subst hn; simp only [OffD.dec, OffD.mk.injEq]
    exact ⟨bitVec_of _ _ (pack_one [(9, 7), (d.val, 5)] _ _ 20 hk),
      fin_of _ _ _ (pack_one [(9, 7)] _ _ 5 hk)⟩
  rw [rowOf_09 _ h0]
  simp [rowAddpc, hd]

theorem brEq (x : BrC) : Statement (.brEq x) := by
  intro w hw h
  simp only [encode, Option.some.injEq] at h
  subst h
  obtain ⟨off, b, a⟩ := x
  have hk : Packed [(10, 7), (a.val, 5), (b.val, 5), (0, 3), (off.toNat, 12)] :=
    ⟨by decide, a.isLt, b.isLt, by decide, off.isLt, trivial⟩
  refine decode_of_pack _ [(10, 7), (a.val, 5), (b.val, 5), (0, 3), (off.toNat, 12)] _ (by simp only [BrC.enc, pack]; omega) hk rfl ?_ hw
  generalize hn : pack [(10, 7), (a.val, 5), (b.val, 5), (0, 3), (off.toNat, 12)] = nn at *
  have h0 : nn % 128 = 0x0A := by subst hn; exact pack_mod [(10, 7)] _ hk
  have f0 : fld nn 17 3 = 0 := by subst hn; exact pack_field [(10, 7), (a.val, 5), (b.val, 5)] [(0, 3)] _ hk
  have hd : BrC.dec nn = ⟨off, b, a⟩ := by
    subst hn; simp only [BrC.dec, BrC.mk.injEq]
    exact ⟨bitVec_of _ _ (pack_one [(10, 7), (a.val, 5), (b.val, 5), (0, 3)] _ _ 12 hk),
      fin_of _ _ _ (pack_one [(10, 7), (a.val, 5)] _ _ 5 hk),
      fin_of _ _ _ (pack_one [(10, 7)] _ _ 5 hk)⟩
  rw [rowOf_0A _ h0]
  simp [rowBr, f0, hd]

theorem brNe (x : BrC) : Statement (.brNe x) := by
  intro w hw h
  simp only [encode, Option.some.injEq] at h
  subst h
  obtain ⟨off, b, a⟩ := x
  have hk : Packed [(10, 7), (a.val, 5), (b.val, 5), (1, 3), (off.toNat, 12)] :=
    ⟨by decide, a.isLt, b.isLt, by decide, off.isLt, trivial⟩
  refine decode_of_pack _ [(10, 7), (a.val, 5), (b.val, 5), (1, 3), (off.toNat, 12)] _ (by simp only [BrC.enc, pack]; omega) hk rfl ?_ hw
  generalize hn : pack [(10, 7), (a.val, 5), (b.val, 5), (1, 3), (off.toNat, 12)] = nn at *
  have h0 : nn % 128 = 0x0A := by subst hn; exact pack_mod [(10, 7)] _ hk
  have f0 : fld nn 17 3 = 1 := by subst hn; exact pack_field [(10, 7), (a.val, 5), (b.val, 5)] [(1, 3)] _ hk
  have hd : BrC.dec nn = ⟨off, b, a⟩ := by
    subst hn; simp only [BrC.dec, BrC.mk.injEq]
    exact ⟨bitVec_of _ _ (pack_one [(10, 7), (a.val, 5), (b.val, 5), (1, 3)] _ _ 12 hk),
      fin_of _ _ _ (pack_one [(10, 7), (a.val, 5)] _ _ 5 hk),
      fin_of _ _ _ (pack_one [(10, 7)] _ _ 5 hk)⟩
  rw [rowOf_0A _ h0]
  simp [rowBr, f0, hd]

theorem brLt (x : BrC) : Statement (.brLt x) := by
  intro w hw h
  simp only [encode, Option.some.injEq] at h
  subst h
  obtain ⟨off, b, a⟩ := x
  have hk : Packed [(10, 7), (a.val, 5), (b.val, 5), (2, 3), (off.toNat, 12)] :=
    ⟨by decide, a.isLt, b.isLt, by decide, off.isLt, trivial⟩
  refine decode_of_pack _ [(10, 7), (a.val, 5), (b.val, 5), (2, 3), (off.toNat, 12)] _ (by simp only [BrC.enc, pack]; omega) hk rfl ?_ hw
  generalize hn : pack [(10, 7), (a.val, 5), (b.val, 5), (2, 3), (off.toNat, 12)] = nn at *
  have h0 : nn % 128 = 0x0A := by subst hn; exact pack_mod [(10, 7)] _ hk
  have f0 : fld nn 17 3 = 2 := by subst hn; exact pack_field [(10, 7), (a.val, 5), (b.val, 5)] [(2, 3)] _ hk
  have hd : BrC.dec nn = ⟨off, b, a⟩ := by
    subst hn; simp only [BrC.dec, BrC.mk.injEq]
    exact ⟨bitVec_of _ _ (pack_one [(10, 7), (a.val, 5), (b.val, 5), (2, 3)] _ _ 12 hk),
      fin_of _ _ _ (pack_one [(10, 7), (a.val, 5)] _ _ 5 hk),
      fin_of _ _ _ (pack_one [(10, 7)] _ _ 5 hk)⟩
  rw [rowOf_0A _ h0]
  simp [rowBr, f0, hd]

theorem brGe (x : BrC) : Statement (.brGe x) := by
  intro w hw h
  simp only [encode, Option.some.injEq] at h
  subst h
  obtain ⟨off, b, a⟩ := x
  have hk : Packed [(10, 7), (a.val, 5), (b.val, 5), (3, 3), (off.toNat, 12)] :=
    ⟨by decide, a.isLt, b.isLt, by decide, off.isLt, trivial⟩
  refine decode_of_pack _ [(10, 7), (a.val, 5), (b.val, 5), (3, 3), (off.toNat, 12)] _ (by simp only [BrC.enc, pack]; omega) hk rfl ?_ hw
  generalize hn : pack [(10, 7), (a.val, 5), (b.val, 5), (3, 3), (off.toNat, 12)] = nn at *
  have h0 : nn % 128 = 0x0A := by subst hn; exact pack_mod [(10, 7)] _ hk
  have f0 : fld nn 17 3 = 3 := by subst hn; exact pack_field [(10, 7), (a.val, 5), (b.val, 5)] [(3, 3)] _ hk
  have hd : BrC.dec nn = ⟨off, b, a⟩ := by
    subst hn; simp only [BrC.dec, BrC.mk.injEq]
    exact ⟨bitVec_of _ _ (pack_one [(10, 7), (a.val, 5), (b.val, 5), (3, 3)] _ _ 12 hk),
      fin_of _ _ _ (pack_one [(10, 7), (a.val, 5)] _ _ 5 hk),
      fin_of _ _ _ (pack_one [(10, 7)] _ _ 5 hk)⟩
  rw [rowOf_0A _ h0]
  simp [rowBr, f0, hd]

theorem brLtu (x : BrC) : Statement (.brLtu x) := by
  intro w hw h
  simp only [encode, Option.some.injEq] at h
  subst h
  obtain ⟨off, b, a⟩ := x
  have hk : Packed [(10, 7), (a.val, 5), (b.val, 5), (4, 3), (off.toNat, 12)] :=
    ⟨by decide, a.isLt, b.isLt, by decide, off.isLt, trivial⟩
  refine decode_of_pack _ [(10, 7), (a.val, 5), (b.val, 5), (4, 3), (off.toNat, 12)] _ (by simp only [BrC.enc, pack]; omega) hk rfl ?_ hw
  generalize hn : pack [(10, 7), (a.val, 5), (b.val, 5), (4, 3), (off.toNat, 12)] = nn at *
  have h0 : nn % 128 = 0x0A := by subst hn; exact pack_mod [(10, 7)] _ hk
  have f0 : fld nn 17 3 = 4 := by subst hn; exact pack_field [(10, 7), (a.val, 5), (b.val, 5)] [(4, 3)] _ hk
  have hd : BrC.dec nn = ⟨off, b, a⟩ := by
    subst hn; simp only [BrC.dec, BrC.mk.injEq]
    exact ⟨bitVec_of _ _ (pack_one [(10, 7), (a.val, 5), (b.val, 5), (4, 3)] _ _ 12 hk),
      fin_of _ _ _ (pack_one [(10, 7), (a.val, 5)] _ _ 5 hk),
      fin_of _ _ _ (pack_one [(10, 7)] _ _ 5 hk)⟩
  rw [rowOf_0A _ h0]
  simp [rowBr, f0, hd]

theorem brGeu (x : BrC) : Statement (.brGeu x) := by
  intro w hw h
  simp only [encode, Option.some.injEq] at h
  subst h
  obtain ⟨off, b, a⟩ := x
  have hk : Packed [(10, 7), (a.val, 5), (b.val, 5), (5, 3), (off.toNat, 12)] :=
    ⟨by decide, a.isLt, b.isLt, by decide, off.isLt, trivial⟩
  refine decode_of_pack _ [(10, 7), (a.val, 5), (b.val, 5), (5, 3), (off.toNat, 12)] _ (by simp only [BrC.enc, pack]; omega) hk rfl ?_ hw
  generalize hn : pack [(10, 7), (a.val, 5), (b.val, 5), (5, 3), (off.toNat, 12)] = nn at *
  have h0 : nn % 128 = 0x0A := by subst hn; exact pack_mod [(10, 7)] _ hk
  have f0 : fld nn 17 3 = 5 := by subst hn; exact pack_field [(10, 7), (a.val, 5), (b.val, 5)] [(5, 3)] _ hk
  have hd : BrC.dec nn = ⟨off, b, a⟩ := by
    subst hn; simp only [BrC.dec, BrC.mk.injEq]
    exact ⟨bitVec_of _ _ (pack_one [(10, 7), (a.val, 5), (b.val, 5), (5, 3)] _ _ 12 hk),
      fin_of _ _ _ (pack_one [(10, 7), (a.val, 5)] _ _ 5 hk),
      fin_of _ _ _ (pack_one [(10, 7)] _ _ 5 hk)⟩
  rw [rowOf_0A _ h0]
  simp [rowBr, f0, hd]

theorem brmAny (x : BrM) : Statement (.brmAny x) := by
  intro w hw h
  simp only [encode, Option.some.injEq] at h
  subst h
  obtain ⟨off, k⟩ := x
  have hk : Packed [(11, 7), (k.val, 3), (0, 2), (off.toNat, 20)] :=
    ⟨by decide, k.isLt, by decide, off.isLt, trivial⟩
  refine decode_of_pack _ [(11, 7), (k.val, 3), (0, 2), (off.toNat, 20)] _ (by simp only [BrM.enc, pack]; omega) hk rfl ?_ hw
  generalize hn : pack [(11, 7), (k.val, 3), (0, 2), (off.toNat, 20)] = nn at *
  have h0 : nn % 128 = 0x0B := by subst hn; exact pack_mod [(11, 7)] _ hk
  have f0 : fld nn 10 2 = 0 := by subst hn; exact pack_field [(11, 7), (k.val, 3)] [(0, 2)] _ hk
  have hd : BrM.dec nn = ⟨off, k⟩ := by
    subst hn; simp only [BrM.dec, BrM.mk.injEq]
    exact ⟨bitVec_of _ _ (pack_one [(11, 7), (k.val, 3), (0, 2)] _ _ 20 hk),
      fin_of _ _ _ (pack_one [(11, 7)] _ _ 3 hk)⟩
  rw [rowOf_0B _ h0]
  simp [rowBrm, f0, hd]

theorem brmAll (x : BrM) : Statement (.brmAll x) := by
  intro w hw h
  simp only [encode, Option.some.injEq] at h
  subst h
  obtain ⟨off, k⟩ := x
  have hk : Packed [(11, 7), (k.val, 3), (1, 2), (off.toNat, 20)] :=
    ⟨by decide, k.isLt, by decide, off.isLt, trivial⟩
  refine decode_of_pack _ [(11, 7), (k.val, 3), (1, 2), (off.toNat, 20)] _ (by simp only [BrM.enc, pack]; omega) hk rfl ?_ hw
  generalize hn : pack [(11, 7), (k.val, 3), (1, 2), (off.toNat, 20)] = nn at *
  have h0 : nn % 128 = 0x0B := by subst hn; exact pack_mod [(11, 7)] _ hk
  have f0 : fld nn 10 2 = 1 := by subst hn; exact pack_field [(11, 7), (k.val, 3)] [(1, 2)] _ hk
  have hd : BrM.dec nn = ⟨off, k⟩ := by
    subst hn; simp only [BrM.dec, BrM.mk.injEq]
    exact ⟨bitVec_of _ _ (pack_one [(11, 7), (k.val, 3), (1, 2)] _ _ 20 hk),
      fin_of _ _ _ (pack_one [(11, 7)] _ _ 3 hk)⟩
  rw [rowOf_0B _ h0]
  simp [rowBrm, f0, hd]

theorem brmNone (x : BrM) : Statement (.brmNone x) := by
  intro w hw h
  simp only [encode, Option.some.injEq] at h
  subst h
  obtain ⟨off, k⟩ := x
  have hk : Packed [(11, 7), (k.val, 3), (2, 2), (off.toNat, 20)] :=
    ⟨by decide, k.isLt, by decide, off.isLt, trivial⟩
  refine decode_of_pack _ [(11, 7), (k.val, 3), (2, 2), (off.toNat, 20)] _ (by simp only [BrM.enc, pack]; omega) hk rfl ?_ hw
  generalize hn : pack [(11, 7), (k.val, 3), (2, 2), (off.toNat, 20)] = nn at *
  have h0 : nn % 128 = 0x0B := by subst hn; exact pack_mod [(11, 7)] _ hk
  have f0 : fld nn 10 2 = 2 := by subst hn; exact pack_field [(11, 7), (k.val, 3)] [(2, 2)] _ hk
  have hd : BrM.dec nn = ⟨off, k⟩ := by
    subst hn; simp only [BrM.dec, BrM.mk.injEq]
    exact ⟨bitVec_of _ _ (pack_one [(11, 7), (k.val, 3), (2, 2)] _ _ 20 hk),
      fin_of _ _ _ (pack_one [(11, 7)] _ _ 3 hk)⟩
  rw [rowOf_0B _ h0]
  simp [rowBrm, f0, hd]

theorem jal (x : OffD) : Statement (.jal x) := by
  intro w hw h
  simp only [encode, Option.some.injEq] at h
  subst h
  obtain ⟨off, d⟩ := x
  have hk : Packed [(12, 7), (d.val, 5), (off.toNat, 20)] :=
    ⟨by decide, d.isLt, off.isLt, trivial⟩
  refine decode_of_pack _ [(12, 7), (d.val, 5), (off.toNat, 20)] _ (by simp only [OffD.enc, pack]; omega) hk rfl ?_ hw
  generalize hn : pack [(12, 7), (d.val, 5), (off.toNat, 20)] = nn at *
  have h0 : nn % 128 = 0x0C := by subst hn; exact pack_mod [(12, 7)] _ hk
  have hd : OffD.dec nn = ⟨off, d⟩ := by
    subst hn; simp only [OffD.dec, OffD.mk.injEq]
    exact ⟨bitVec_of _ _ (pack_one [(12, 7), (d.val, 5)] _ _ 20 hk),
      fin_of _ _ _ (pack_one [(12, 7)] _ _ 5 hk)⟩
  rw [rowOf_0C _ h0]
  simp [rowJal, hd]

theorem jalr (x : ImmI) : Statement (.jalr x) := by
  intro w hw h
  simp only [encode, Option.some.injEq] at h
  subst h
  obtain ⟨imm, ea, a, d⟩ := x
  have hk : Packed [(13, 7), (d.val, 5), (a.val, 5), (ea.toNat, 1), (imm.toNat, 14)] :=
    ⟨by decide, d.isLt, a.isLt, bool_lt_two ea, imm.isLt, trivial⟩
  refine decode_of_pack _ [(13, 7), (d.val, 5), (a.val, 5), (ea.toNat, 1), (imm.toNat, 14)] _ (by simp only [ImmI.enc, pack]; omega) hk rfl ?_ hw
  generalize hn : pack [(13, 7), (d.val, 5), (a.val, 5), (ea.toNat, 1), (imm.toNat, 14)] = nn at *
  have h0 : nn % 128 = 0x0D := by subst hn; exact pack_mod [(13, 7)] _ hk
  have hd : ImmI.dec nn = ⟨imm, ea, a, d⟩ := by
    subst hn; simp only [ImmI.dec, ImmI.mk.injEq]
    exact ⟨bitVec_of _ _ (pack_one [(13, 7), (d.val, 5), (a.val, 5), (ea.toNat, 1)] _ _ 14 hk),
      decide_bool _ _ (pack_one [(13, 7), (d.val, 5), (a.val, 5)] _ _ 1 hk),
      fin_of _ _ _ (pack_one [(13, 7), (d.val, 5)] _ _ 5 hk),
      fin_of _ _ _ (pack_one [(13, 7)] _ _ 5 hk)⟩
  rw [rowOf_0D _ h0]
  simp [rowJalr, hd]

theorem loop (x : LoopR) : Statement (.loop x) := by
  intro w hw h
  simp only [encode, Option.some.injEq] at h
  subst h
  obtain ⟨len, cnt⟩ := x
  have hk : Packed [(14, 7), (cnt.val, 5), (0, 1), (len.toNat, 12), (0, 7)] :=
    ⟨by decide, cnt.isLt, by decide, len.isLt, by decide, trivial⟩
  refine decode_of_pack _ [(14, 7), (cnt.val, 5), (0, 1), (len.toNat, 12), (0, 7)] _ (by simp only [LoopR.enc, pack]; omega) hk rfl ?_ hw
  generalize hn : pack [(14, 7), (cnt.val, 5), (0, 1), (len.toNat, 12), (0, 7)] = nn at *
  have h0 : nn % 128 = 0x0E := by subst hn; exact pack_mod [(14, 7)] _ hk
  have f0 : fld nn 25 7 = 0 := by subst hn; exact pack_field [(14, 7), (cnt.val, 5), (0, 1), (len.toNat, 12)] [(0, 7)] _ hk
  have f1 : fld nn 12 1 = 0 := by subst hn; exact pack_field [(14, 7), (cnt.val, 5)] [(0, 1)] _ hk
  have hd : LoopR.dec nn = ⟨len, cnt⟩ := by
    subst hn; simp only [LoopR.dec, LoopR.mk.injEq]
    exact ⟨bitVec_of _ _ (pack_one [(14, 7), (cnt.val, 5), (0, 1)] _ _ 12 hk),
      fin_of _ _ _ (pack_one [(14, 7)] _ _ 5 hk)⟩
  rw [rowOf_0E _ h0]
  simp [rowLoop, f0, f1, hd]

theorem loopi (x : LoopR) : Statement (.loopi x) := by
  intro w hw h
  simp only [encode, Option.some.injEq] at h
  subst h
  obtain ⟨len, cnt⟩ := x
  have hk : Packed [(14, 7), (cnt.val, 5), (1, 1), (len.toNat, 12), (0, 7)] :=
    ⟨by decide, cnt.isLt, by decide, len.isLt, by decide, trivial⟩
  refine decode_of_pack _ [(14, 7), (cnt.val, 5), (1, 1), (len.toNat, 12), (0, 7)] _ (by simp only [LoopR.enc, pack]; omega) hk rfl ?_ hw
  generalize hn : pack [(14, 7), (cnt.val, 5), (1, 1), (len.toNat, 12), (0, 7)] = nn at *
  have h0 : nn % 128 = 0x0E := by subst hn; exact pack_mod [(14, 7)] _ hk
  have f0 : fld nn 12 1 = 1 := by subst hn; exact pack_field [(14, 7), (cnt.val, 5)] [(1, 1)] _ hk
  have f1 : fld nn 25 7 = 0 := by subst hn; exact pack_field [(14, 7), (cnt.val, 5), (1, 1), (len.toNat, 12)] [(0, 7)] _ hk
  have hd : LoopR.dec nn = ⟨len, cnt⟩ := by
    subst hn; simp only [LoopR.dec, LoopR.mk.injEq]
    exact ⟨bitVec_of _ _ (pack_one [(14, 7), (cnt.val, 5), (1, 1)] _ _ 12 hk),
      fin_of _ _ _ (pack_one [(14, 7)] _ _ 5 hk)⟩
  rw [rowOf_0E _ h0]
  simp [rowLoop, f0, f1, hd]

theorem lbrk : Statement .lbrk := by
  intro w hw h
  simp only [encode, Option.some.injEq] at h
  subst h
  exact decode_of_row _ _ (by decide) (rowOf_0E 0x0200000E rfl) hw

theorem rpt (x : RptF) : Statement (.rpt x) := by
  intro w hw h
  simp only [encode, Option.some.injEq] at h
  subst h
  obtain ⟨sc, sb, sa, sd, cnt, len⟩ := x
  have hk : Packed [(15, 7), (len.toNat, 4), (cnt.toNat, 5), (sd.val, 2), (sa.val, 2), (sb.val, 2), (sc.val, 2), (0, 8)] :=
    ⟨by decide, len.isLt, cnt.isLt, sd.isLt, sa.isLt, sb.isLt, sc.isLt, by decide, trivial⟩
  refine decode_of_pack _ [(15, 7), (len.toNat, 4), (cnt.toNat, 5), (sd.val, 2), (sa.val, 2), (sb.val, 2), (sc.val, 2), (0, 8)] _ (by simp only [RptF.enc, pack]; omega) hk rfl ?_ hw
  generalize hn : pack [(15, 7), (len.toNat, 4), (cnt.toNat, 5), (sd.val, 2), (sa.val, 2), (sb.val, 2), (sc.val, 2), (0, 8)] = nn at *
  have h0 : nn % 128 = 0x0F := by subst hn; exact pack_mod [(15, 7)] _ hk
  have f0 : fld nn 24 8 = 0 := by subst hn; exact pack_field [(15, 7), (len.toNat, 4), (cnt.toNat, 5), (sd.val, 2), (sa.val, 2), (sb.val, 2), (sc.val, 2)] [(0, 8)] _ hk
  have hd : RptF.dec nn = ⟨sc, sb, sa, sd, cnt, len⟩ := by
    subst hn; simp only [RptF.dec, RptF.mk.injEq]
    exact ⟨fin_of _ _ _ (pack_one [(15, 7), (len.toNat, 4), (cnt.toNat, 5), (sd.val, 2), (sa.val, 2), (sb.val, 2)] _ _ 2 hk),
      fin_of _ _ _ (pack_one [(15, 7), (len.toNat, 4), (cnt.toNat, 5), (sd.val, 2), (sa.val, 2)] _ _ 2 hk),
      fin_of _ _ _ (pack_one [(15, 7), (len.toNat, 4), (cnt.toNat, 5), (sd.val, 2)] _ _ 2 hk),
      fin_of _ _ _ (pack_one [(15, 7), (len.toNat, 4), (cnt.toNat, 5)] _ _ 2 hk),
      bitVec_of _ _ (pack_one [(15, 7), (len.toNat, 4)] _ _ 5 hk),
      bitVec_of _ _ (pack_one [(15, 7)] _ _ 4 hk)⟩
  rw [rowOf_0F _ h0]
  simp [rowRpt, f0, hd]

theorem ldBz (x : LdSt) : Statement (.ldBz x) := by
  intro w hw h
  simp only [encode, Option.some.injEq] at h
  subst h
  obtain ⟨off, e, a, t⟩ := x
  have hk : Packed [(16, 7), (t.val, 5), (a.val, 5), (0, 3), (e.toNat, 1), (off.toNat, 11)] :=
    ⟨by decide, t.isLt, a.isLt, by decide, bool_lt_two e, off.isLt, trivial⟩
  refine decode_of_pack _ [(16, 7), (t.val, 5), (a.val, 5), (0, 3), (e.toNat, 1), (off.toNat, 11)] _ (by simp only [LdSt.enc, pack]; omega) hk rfl ?_ hw
  generalize hn : pack [(16, 7), (t.val, 5), (a.val, 5), (0, 3), (e.toNat, 1), (off.toNat, 11)] = nn at *
  have h0 : nn % 128 = 0x10 := by subst hn; exact pack_mod [(16, 7)] _ hk
  have f0 : fld nn 17 3 = 0 := by subst hn; exact pack_field [(16, 7), (t.val, 5), (a.val, 5)] [(0, 3)] _ hk
  have hd : LdSt.dec nn = ⟨off, e, a, t⟩ := by
    subst hn; simp only [LdSt.dec, LdSt.mk.injEq]
    exact ⟨bitVec_of _ _ (pack_one [(16, 7), (t.val, 5), (a.val, 5), (0, 3), (e.toNat, 1)] _ _ 11 hk),
      decide_bool _ _ (pack_one [(16, 7), (t.val, 5), (a.val, 5), (0, 3)] _ _ 1 hk),
      fin_of _ _ _ (pack_one [(16, 7), (t.val, 5)] _ _ 5 hk),
      fin_of _ _ _ (pack_one [(16, 7)] _ _ 5 hk)⟩
  rw [rowOf_10 _ h0]
  simp [rowLd, f0, hd]

theorem ldBs (x : LdSt) : Statement (.ldBs x) := by
  intro w hw h
  simp only [encode, Option.some.injEq] at h
  subst h
  obtain ⟨off, e, a, t⟩ := x
  have hk : Packed [(16, 7), (t.val, 5), (a.val, 5), (4, 3), (e.toNat, 1), (off.toNat, 11)] :=
    ⟨by decide, t.isLt, a.isLt, by decide, bool_lt_two e, off.isLt, trivial⟩
  refine decode_of_pack _ [(16, 7), (t.val, 5), (a.val, 5), (4, 3), (e.toNat, 1), (off.toNat, 11)] _ (by simp only [LdSt.enc, pack]; omega) hk rfl ?_ hw
  generalize hn : pack [(16, 7), (t.val, 5), (a.val, 5), (4, 3), (e.toNat, 1), (off.toNat, 11)] = nn at *
  have h0 : nn % 128 = 0x10 := by subst hn; exact pack_mod [(16, 7)] _ hk
  have f0 : fld nn 17 3 = 4 := by subst hn; exact pack_field [(16, 7), (t.val, 5), (a.val, 5)] [(4, 3)] _ hk
  have hd : LdSt.dec nn = ⟨off, e, a, t⟩ := by
    subst hn; simp only [LdSt.dec, LdSt.mk.injEq]
    exact ⟨bitVec_of _ _ (pack_one [(16, 7), (t.val, 5), (a.val, 5), (4, 3), (e.toNat, 1)] _ _ 11 hk),
      decide_bool _ _ (pack_one [(16, 7), (t.val, 5), (a.val, 5), (4, 3)] _ _ 1 hk),
      fin_of _ _ _ (pack_one [(16, 7), (t.val, 5)] _ _ 5 hk),
      fin_of _ _ _ (pack_one [(16, 7)] _ _ 5 hk)⟩
  rw [rowOf_10 _ h0]
  simp [rowLd, f0, hd]

theorem ldHz (x : LdSt) : Statement (.ldHz x) := by
  intro w hw h
  simp only [encode, Option.some.injEq] at h
  subst h
  obtain ⟨off, e, a, t⟩ := x
  have hk : Packed [(16, 7), (t.val, 5), (a.val, 5), (1, 3), (e.toNat, 1), (off.toNat, 11)] :=
    ⟨by decide, t.isLt, a.isLt, by decide, bool_lt_two e, off.isLt, trivial⟩
  refine decode_of_pack _ [(16, 7), (t.val, 5), (a.val, 5), (1, 3), (e.toNat, 1), (off.toNat, 11)] _ (by simp only [LdSt.enc, pack]; omega) hk rfl ?_ hw
  generalize hn : pack [(16, 7), (t.val, 5), (a.val, 5), (1, 3), (e.toNat, 1), (off.toNat, 11)] = nn at *
  have h0 : nn % 128 = 0x10 := by subst hn; exact pack_mod [(16, 7)] _ hk
  have f0 : fld nn 17 3 = 1 := by subst hn; exact pack_field [(16, 7), (t.val, 5), (a.val, 5)] [(1, 3)] _ hk
  have hd : LdSt.dec nn = ⟨off, e, a, t⟩ := by
    subst hn; simp only [LdSt.dec, LdSt.mk.injEq]
    exact ⟨bitVec_of _ _ (pack_one [(16, 7), (t.val, 5), (a.val, 5), (1, 3), (e.toNat, 1)] _ _ 11 hk),
      decide_bool _ _ (pack_one [(16, 7), (t.val, 5), (a.val, 5), (1, 3)] _ _ 1 hk),
      fin_of _ _ _ (pack_one [(16, 7), (t.val, 5)] _ _ 5 hk),
      fin_of _ _ _ (pack_one [(16, 7)] _ _ 5 hk)⟩
  rw [rowOf_10 _ h0]
  simp [rowLd, f0, hd]

theorem ldHs (x : LdSt) : Statement (.ldHs x) := by
  intro w hw h
  simp only [encode, Option.some.injEq] at h
  subst h
  obtain ⟨off, e, a, t⟩ := x
  have hk : Packed [(16, 7), (t.val, 5), (a.val, 5), (5, 3), (e.toNat, 1), (off.toNat, 11)] :=
    ⟨by decide, t.isLt, a.isLt, by decide, bool_lt_two e, off.isLt, trivial⟩
  refine decode_of_pack _ [(16, 7), (t.val, 5), (a.val, 5), (5, 3), (e.toNat, 1), (off.toNat, 11)] _ (by simp only [LdSt.enc, pack]; omega) hk rfl ?_ hw
  generalize hn : pack [(16, 7), (t.val, 5), (a.val, 5), (5, 3), (e.toNat, 1), (off.toNat, 11)] = nn at *
  have h0 : nn % 128 = 0x10 := by subst hn; exact pack_mod [(16, 7)] _ hk
  have f0 : fld nn 17 3 = 5 := by subst hn; exact pack_field [(16, 7), (t.val, 5), (a.val, 5)] [(5, 3)] _ hk
  have hd : LdSt.dec nn = ⟨off, e, a, t⟩ := by
    subst hn; simp only [LdSt.dec, LdSt.mk.injEq]
    exact ⟨bitVec_of _ _ (pack_one [(16, 7), (t.val, 5), (a.val, 5), (5, 3), (e.toNat, 1)] _ _ 11 hk),
      decide_bool _ _ (pack_one [(16, 7), (t.val, 5), (a.val, 5), (5, 3)] _ _ 1 hk),
      fin_of _ _ _ (pack_one [(16, 7), (t.val, 5)] _ _ 5 hk),
      fin_of _ _ _ (pack_one [(16, 7)] _ _ 5 hk)⟩
  rw [rowOf_10 _ h0]
  simp [rowLd, f0, hd]

theorem ldWz (x : LdSt) : Statement (.ldWz x) := by
  intro w hw h
  simp only [encode, Option.some.injEq] at h
  subst h
  obtain ⟨off, e, a, t⟩ := x
  have hk : Packed [(16, 7), (t.val, 5), (a.val, 5), (2, 3), (e.toNat, 1), (off.toNat, 11)] :=
    ⟨by decide, t.isLt, a.isLt, by decide, bool_lt_two e, off.isLt, trivial⟩
  refine decode_of_pack _ [(16, 7), (t.val, 5), (a.val, 5), (2, 3), (e.toNat, 1), (off.toNat, 11)] _ (by simp only [LdSt.enc, pack]; omega) hk rfl ?_ hw
  generalize hn : pack [(16, 7), (t.val, 5), (a.val, 5), (2, 3), (e.toNat, 1), (off.toNat, 11)] = nn at *
  have h0 : nn % 128 = 0x10 := by subst hn; exact pack_mod [(16, 7)] _ hk
  have f0 : fld nn 17 3 = 2 := by subst hn; exact pack_field [(16, 7), (t.val, 5), (a.val, 5)] [(2, 3)] _ hk
  have hd : LdSt.dec nn = ⟨off, e, a, t⟩ := by
    subst hn; simp only [LdSt.dec, LdSt.mk.injEq]
    exact ⟨bitVec_of _ _ (pack_one [(16, 7), (t.val, 5), (a.val, 5), (2, 3), (e.toNat, 1)] _ _ 11 hk),
      decide_bool _ _ (pack_one [(16, 7), (t.val, 5), (a.val, 5), (2, 3)] _ _ 1 hk),
      fin_of _ _ _ (pack_one [(16, 7), (t.val, 5)] _ _ 5 hk),
      fin_of _ _ _ (pack_one [(16, 7)] _ _ 5 hk)⟩
  rw [rowOf_10 _ h0]
  simp [rowLd, f0, hd]

theorem ldWs (x : LdSt) : Statement (.ldWs x) := by
  intro w hw h
  simp only [encode, Option.some.injEq] at h
  subst h
  obtain ⟨off, e, a, t⟩ := x
  have hk : Packed [(16, 7), (t.val, 5), (a.val, 5), (6, 3), (e.toNat, 1), (off.toNat, 11)] :=
    ⟨by decide, t.isLt, a.isLt, by decide, bool_lt_two e, off.isLt, trivial⟩
  refine decode_of_pack _ [(16, 7), (t.val, 5), (a.val, 5), (6, 3), (e.toNat, 1), (off.toNat, 11)] _ (by simp only [LdSt.enc, pack]; omega) hk rfl ?_ hw
  generalize hn : pack [(16, 7), (t.val, 5), (a.val, 5), (6, 3), (e.toNat, 1), (off.toNat, 11)] = nn at *
  have h0 : nn % 128 = 0x10 := by subst hn; exact pack_mod [(16, 7)] _ hk
  have f0 : fld nn 17 3 = 6 := by subst hn; exact pack_field [(16, 7), (t.val, 5), (a.val, 5)] [(6, 3)] _ hk
  have hd : LdSt.dec nn = ⟨off, e, a, t⟩ := by
    subst hn; simp only [LdSt.dec, LdSt.mk.injEq]
    exact ⟨bitVec_of _ _ (pack_one [(16, 7), (t.val, 5), (a.val, 5), (6, 3), (e.toNat, 1)] _ _ 11 hk),
      decide_bool _ _ (pack_one [(16, 7), (t.val, 5), (a.val, 5), (6, 3)] _ _ 1 hk),
      fin_of _ _ _ (pack_one [(16, 7), (t.val, 5)] _ _ 5 hk),
      fin_of _ _ _ (pack_one [(16, 7)] _ _ 5 hk)⟩
  rw [rowOf_10 _ h0]
  simp [rowLd, f0, hd]

theorem ldD (x : LdSt) : Statement (.ldD x) := by
  intro w hw h
  simp only [encode, Option.some.injEq] at h
  subst h
  obtain ⟨off, e, a, t⟩ := x
  have hk : Packed [(16, 7), (t.val, 5), (a.val, 5), (3, 3), (e.toNat, 1), (off.toNat, 11)] :=
    ⟨by decide, t.isLt, a.isLt, by decide, bool_lt_two e, off.isLt, trivial⟩
  refine decode_of_pack _ [(16, 7), (t.val, 5), (a.val, 5), (3, 3), (e.toNat, 1), (off.toNat, 11)] _ (by simp only [LdSt.enc, pack]; omega) hk rfl ?_ hw
  generalize hn : pack [(16, 7), (t.val, 5), (a.val, 5), (3, 3), (e.toNat, 1), (off.toNat, 11)] = nn at *
  have h0 : nn % 128 = 0x10 := by subst hn; exact pack_mod [(16, 7)] _ hk
  have f0 : fld nn 17 3 = 3 := by subst hn; exact pack_field [(16, 7), (t.val, 5), (a.val, 5)] [(3, 3)] _ hk
  have hd : LdSt.dec nn = ⟨off, e, a, t⟩ := by
    subst hn; simp only [LdSt.dec, LdSt.mk.injEq]
    exact ⟨bitVec_of _ _ (pack_one [(16, 7), (t.val, 5), (a.val, 5), (3, 3), (e.toNat, 1)] _ _ 11 hk),
      decide_bool _ _ (pack_one [(16, 7), (t.val, 5), (a.val, 5), (3, 3)] _ _ 1 hk),
      fin_of _ _ _ (pack_one [(16, 7), (t.val, 5)] _ _ 5 hk),
      fin_of _ _ _ (pack_one [(16, 7)] _ _ 5 hk)⟩
  rw [rowOf_10 _ h0]
  simp [rowLd, f0, hd]

theorem stB (x : LdSt) : Statement (.stB x) := by
  intro w hw h
  simp only [encode, Option.some.injEq] at h
  subst h
  obtain ⟨off, e, a, t⟩ := x
  have hk : Packed [(17, 7), (t.val, 5), (a.val, 5), (0, 3), (e.toNat, 1), (off.toNat, 11)] :=
    ⟨by decide, t.isLt, a.isLt, by decide, bool_lt_two e, off.isLt, trivial⟩
  refine decode_of_pack _ [(17, 7), (t.val, 5), (a.val, 5), (0, 3), (e.toNat, 1), (off.toNat, 11)] _ (by simp only [LdSt.enc, pack]; omega) hk rfl ?_ hw
  generalize hn : pack [(17, 7), (t.val, 5), (a.val, 5), (0, 3), (e.toNat, 1), (off.toNat, 11)] = nn at *
  have h0 : nn % 128 = 0x11 := by subst hn; exact pack_mod [(17, 7)] _ hk
  have f0 : fld nn 17 3 = 0 := by subst hn; exact pack_field [(17, 7), (t.val, 5), (a.val, 5)] [(0, 3)] _ hk
  have hd : LdSt.dec nn = ⟨off, e, a, t⟩ := by
    subst hn; simp only [LdSt.dec, LdSt.mk.injEq]
    exact ⟨bitVec_of _ _ (pack_one [(17, 7), (t.val, 5), (a.val, 5), (0, 3), (e.toNat, 1)] _ _ 11 hk),
      decide_bool _ _ (pack_one [(17, 7), (t.val, 5), (a.val, 5), (0, 3)] _ _ 1 hk),
      fin_of _ _ _ (pack_one [(17, 7), (t.val, 5)] _ _ 5 hk),
      fin_of _ _ _ (pack_one [(17, 7)] _ _ 5 hk)⟩
  rw [rowOf_11 _ h0]
  simp [rowSt, f0, hd]

theorem stH (x : LdSt) : Statement (.stH x) := by
  intro w hw h
  simp only [encode, Option.some.injEq] at h
  subst h
  obtain ⟨off, e, a, t⟩ := x
  have hk : Packed [(17, 7), (t.val, 5), (a.val, 5), (1, 3), (e.toNat, 1), (off.toNat, 11)] :=
    ⟨by decide, t.isLt, a.isLt, by decide, bool_lt_two e, off.isLt, trivial⟩
  refine decode_of_pack _ [(17, 7), (t.val, 5), (a.val, 5), (1, 3), (e.toNat, 1), (off.toNat, 11)] _ (by simp only [LdSt.enc, pack]; omega) hk rfl ?_ hw
  generalize hn : pack [(17, 7), (t.val, 5), (a.val, 5), (1, 3), (e.toNat, 1), (off.toNat, 11)] = nn at *
  have h0 : nn % 128 = 0x11 := by subst hn; exact pack_mod [(17, 7)] _ hk
  have f0 : fld nn 17 3 = 1 := by subst hn; exact pack_field [(17, 7), (t.val, 5), (a.val, 5)] [(1, 3)] _ hk
  have hd : LdSt.dec nn = ⟨off, e, a, t⟩ := by
    subst hn; simp only [LdSt.dec, LdSt.mk.injEq]
    exact ⟨bitVec_of _ _ (pack_one [(17, 7), (t.val, 5), (a.val, 5), (1, 3), (e.toNat, 1)] _ _ 11 hk),
      decide_bool _ _ (pack_one [(17, 7), (t.val, 5), (a.val, 5), (1, 3)] _ _ 1 hk),
      fin_of _ _ _ (pack_one [(17, 7), (t.val, 5)] _ _ 5 hk),
      fin_of _ _ _ (pack_one [(17, 7)] _ _ 5 hk)⟩
  rw [rowOf_11 _ h0]
  simp [rowSt, f0, hd]

theorem stW (x : LdSt) : Statement (.stW x) := by
  intro w hw h
  simp only [encode, Option.some.injEq] at h
  subst h
  obtain ⟨off, e, a, t⟩ := x
  have hk : Packed [(17, 7), (t.val, 5), (a.val, 5), (2, 3), (e.toNat, 1), (off.toNat, 11)] :=
    ⟨by decide, t.isLt, a.isLt, by decide, bool_lt_two e, off.isLt, trivial⟩
  refine decode_of_pack _ [(17, 7), (t.val, 5), (a.val, 5), (2, 3), (e.toNat, 1), (off.toNat, 11)] _ (by simp only [LdSt.enc, pack]; omega) hk rfl ?_ hw
  generalize hn : pack [(17, 7), (t.val, 5), (a.val, 5), (2, 3), (e.toNat, 1), (off.toNat, 11)] = nn at *
  have h0 : nn % 128 = 0x11 := by subst hn; exact pack_mod [(17, 7)] _ hk
  have f0 : fld nn 17 3 = 2 := by subst hn; exact pack_field [(17, 7), (t.val, 5), (a.val, 5)] [(2, 3)] _ hk
  have hd : LdSt.dec nn = ⟨off, e, a, t⟩ := by
    subst hn; simp only [LdSt.dec, LdSt.mk.injEq]
    exact ⟨bitVec_of _ _ (pack_one [(17, 7), (t.val, 5), (a.val, 5), (2, 3), (e.toNat, 1)] _ _ 11 hk),
      decide_bool _ _ (pack_one [(17, 7), (t.val, 5), (a.val, 5), (2, 3)] _ _ 1 hk),
      fin_of _ _ _ (pack_one [(17, 7), (t.val, 5)] _ _ 5 hk),
      fin_of _ _ _ (pack_one [(17, 7)] _ _ 5 hk)⟩
  rw [rowOf_11 _ h0]
  simp [rowSt, f0, hd]

theorem stD (x : LdSt) : Statement (.stD x) := by
  intro w hw h
  simp only [encode, Option.some.injEq] at h
  subst h
  obtain ⟨off, e, a, t⟩ := x
  have hk : Packed [(17, 7), (t.val, 5), (a.val, 5), (3, 3), (e.toNat, 1), (off.toNat, 11)] :=
    ⟨by decide, t.isLt, a.isLt, by decide, bool_lt_two e, off.isLt, trivial⟩
  refine decode_of_pack _ [(17, 7), (t.val, 5), (a.val, 5), (3, 3), (e.toNat, 1), (off.toNat, 11)] _ (by simp only [LdSt.enc, pack]; omega) hk rfl ?_ hw
  generalize hn : pack [(17, 7), (t.val, 5), (a.val, 5), (3, 3), (e.toNat, 1), (off.toNat, 11)] = nn at *
  have h0 : nn % 128 = 0x11 := by subst hn; exact pack_mod [(17, 7)] _ hk
  have f0 : fld nn 17 3 = 3 := by subst hn; exact pack_field [(17, 7), (t.val, 5), (a.val, 5)] [(3, 3)] _ hk
  have hd : LdSt.dec nn = ⟨off, e, a, t⟩ := by
    subst hn; simp only [LdSt.dec, LdSt.mk.injEq]
    exact ⟨bitVec_of _ _ (pack_one [(17, 7), (t.val, 5), (a.val, 5), (3, 3), (e.toNat, 1)] _ _ 11 hk),
      decide_bool _ _ (pack_one [(17, 7), (t.val, 5), (a.val, 5), (3, 3)] _ _ 1 hk),
      fin_of _ _ _ (pack_one [(17, 7), (t.val, 5)] _ _ 5 hk),
      fin_of _ _ _ (pack_one [(17, 7)] _ _ 5 hk)⟩
  rw [rowOf_11 _ h0]
  simp [rowSt, f0, hd]

theorem ldp (x : LdSt) : Statement (.ldp x) := by
  intro w hw h
  simp only [encode, Option.some.injEq] at h
  subst h
  obtain ⟨off, e, a, t⟩ := x
  have hk : Packed [(18, 7), (t.val, 5), (a.val, 5), (3, 3), (e.toNat, 1), (off.toNat, 11)] :=
    ⟨by decide, t.isLt, a.isLt, by decide, bool_lt_two e, off.isLt, trivial⟩
  refine decode_of_pack _ [(18, 7), (t.val, 5), (a.val, 5), (3, 3), (e.toNat, 1), (off.toNat, 11)] _ (by simp only [LdSt.enc, pack]; omega) hk rfl ?_ hw
  generalize hn : pack [(18, 7), (t.val, 5), (a.val, 5), (3, 3), (e.toNat, 1), (off.toNat, 11)] = nn at *
  have h0 : nn % 128 = 0x12 := by subst hn; exact pack_mod [(18, 7)] _ hk
  have f0 : fld nn 17 3 = 3 := by subst hn; exact pack_field [(18, 7), (t.val, 5), (a.val, 5)] [(3, 3)] _ hk
  have hd : LdSt.dec nn = ⟨off, e, a, t⟩ := by
    subst hn; simp only [LdSt.dec, LdSt.mk.injEq]
    exact ⟨bitVec_of _ _ (pack_one [(18, 7), (t.val, 5), (a.val, 5), (3, 3), (e.toNat, 1)] _ _ 11 hk),
      decide_bool _ _ (pack_one [(18, 7), (t.val, 5), (a.val, 5), (3, 3)] _ _ 1 hk),
      fin_of _ _ _ (pack_one [(18, 7), (t.val, 5)] _ _ 5 hk),
      fin_of _ _ _ (pack_one [(18, 7)] _ _ 5 hk)⟩
  rw [rowOf_12 _ h0]
  simp [rowLdp, f0, hd]

theorem stp (x : LdSt) : Statement (.stp x) := by
  intro w hw h
  simp only [encode, Option.some.injEq] at h
  subst h
  obtain ⟨off, e, a, t⟩ := x
  have hk : Packed [(19, 7), (t.val, 5), (a.val, 5), (3, 3), (e.toNat, 1), (off.toNat, 11)] :=
    ⟨by decide, t.isLt, a.isLt, by decide, bool_lt_two e, off.isLt, trivial⟩
  refine decode_of_pack _ [(19, 7), (t.val, 5), (a.val, 5), (3, 3), (e.toNat, 1), (off.toNat, 11)] _ (by simp only [LdSt.enc, pack]; omega) hk rfl ?_ hw
  generalize hn : pack [(19, 7), (t.val, 5), (a.val, 5), (3, 3), (e.toNat, 1), (off.toNat, 11)] = nn at *
  have h0 : nn % 128 = 0x13 := by subst hn; exact pack_mod [(19, 7)] _ hk
  have f0 : fld nn 17 3 = 3 := by subst hn; exact pack_field [(19, 7), (t.val, 5), (a.val, 5)] [(3, 3)] _ hk
  have hd : LdSt.dec nn = ⟨off, e, a, t⟩ := by
    subst hn; simp only [LdSt.dec, LdSt.mk.injEq]
    exact ⟨bitVec_of _ _ (pack_one [(19, 7), (t.val, 5), (a.val, 5), (3, 3), (e.toNat, 1)] _ _ 11 hk),
      decide_bool _ _ (pack_one [(19, 7), (t.val, 5), (a.val, 5), (3, 3)] _ _ 1 hk),
      fin_of _ _ _ (pack_one [(19, 7), (t.val, 5)] _ _ 5 hk),
      fin_of _ _ _ (pack_one [(19, 7)] _ _ 5 hk)⟩
  rw [rowOf_13 _ h0]
  simp [rowStp, f0, hd]

theorem ldacq (x : LdAcq) : Statement (.ldacq x) := by
  intro w hw h
  simp only [encode, Option.some.injEq] at h
  subst h
  obtain ⟨off, sc, e, sign, size, a, t⟩ := x
  have hk : Packed [(20, 7), (t.val, 5), (a.val, 5), (size.val, 2), (sign.toNat, 1), (e.toNat, 1), (sc.val, 3), (off.toNat, 8)] :=
    ⟨by decide, t.isLt, a.isLt, size.isLt, bool_lt_two sign, bool_lt_two e, sc.isLt, off.isLt, trivial⟩
  refine decode_of_pack _ [(20, 7), (t.val, 5), (a.val, 5), (size.val, 2), (sign.toNat, 1), (e.toNat, 1), (sc.val, 3), (off.toNat, 8)] _ (by simp only [LdAcq.enc, pack]; omega) hk rfl ?_ hw
  generalize hn : pack [(20, 7), (t.val, 5), (a.val, 5), (size.val, 2), (sign.toNat, 1), (e.toNat, 1), (sc.val, 3), (off.toNat, 8)] = nn at *
  have h0 : nn % 128 = 0x14 := by subst hn; exact pack_mod [(20, 7)] _ hk
  have hd : LdAcq.dec nn = ⟨off, sc, e, sign, size, a, t⟩ := by
    subst hn; simp only [LdAcq.dec, LdAcq.mk.injEq]
    exact ⟨bitVec_of _ _ (pack_one [(20, 7), (t.val, 5), (a.val, 5), (size.val, 2), (sign.toNat, 1), (e.toNat, 1), (sc.val, 3)] _ _ 8 hk),
      fin_of _ _ _ (pack_one [(20, 7), (t.val, 5), (a.val, 5), (size.val, 2), (sign.toNat, 1), (e.toNat, 1)] _ _ 3 hk),
      decide_bool _ _ (pack_one [(20, 7), (t.val, 5), (a.val, 5), (size.val, 2), (sign.toNat, 1)] _ _ 1 hk),
      decide_bool _ _ (pack_one [(20, 7), (t.val, 5), (a.val, 5), (size.val, 2)] _ _ 1 hk),
      fin_of _ _ _ (pack_one [(20, 7), (t.val, 5), (a.val, 5)] _ _ 2 hk),
      fin_of _ _ _ (pack_one [(20, 7), (t.val, 5)] _ _ 5 hk),
      fin_of _ _ _ (pack_one [(20, 7)] _ _ 5 hk)⟩
  rw [rowOf_14 _ h0]
  simp [rowLdacq, hd]

theorem strel (x : StRel) : Statement (.strel x) := by
  intro w hw h
  simp only [encode, Option.some.injEq] at h
  subst h
  obtain ⟨off, sc, e, size, a, t⟩ := x
  have hk : Packed [(21, 7), (t.val, 5), (a.val, 5), (size.val, 2), (0, 1), (e.toNat, 1), (sc.val, 3), (off.toNat, 8)] :=
    ⟨by decide, t.isLt, a.isLt, size.isLt, by decide, bool_lt_two e, sc.isLt, off.isLt, trivial⟩
  refine decode_of_pack _ [(21, 7), (t.val, 5), (a.val, 5), (size.val, 2), (0, 1), (e.toNat, 1), (sc.val, 3), (off.toNat, 8)] _ (by simp only [StRel.enc, pack]; omega) hk rfl ?_ hw
  generalize hn : pack [(21, 7), (t.val, 5), (a.val, 5), (size.val, 2), (0, 1), (e.toNat, 1), (sc.val, 3), (off.toNat, 8)] = nn at *
  have h0 : nn % 128 = 0x15 := by subst hn; exact pack_mod [(21, 7)] _ hk
  have f0 : fld nn 19 1 = 0 := by subst hn; exact pack_field [(21, 7), (t.val, 5), (a.val, 5), (size.val, 2)] [(0, 1)] _ hk
  have hd : StRel.dec nn = ⟨off, sc, e, size, a, t⟩ := by
    subst hn; simp only [StRel.dec, StRel.mk.injEq]
    exact ⟨bitVec_of _ _ (pack_one [(21, 7), (t.val, 5), (a.val, 5), (size.val, 2), (0, 1), (e.toNat, 1), (sc.val, 3)] _ _ 8 hk),
      fin_of _ _ _ (pack_one [(21, 7), (t.val, 5), (a.val, 5), (size.val, 2), (0, 1), (e.toNat, 1)] _ _ 3 hk),
      decide_bool _ _ (pack_one [(21, 7), (t.val, 5), (a.val, 5), (size.val, 2), (0, 1)] _ _ 1 hk),
      fin_of _ _ _ (pack_one [(21, 7), (t.val, 5), (a.val, 5)] _ _ 2 hk),
      fin_of _ _ _ (pack_one [(21, 7), (t.val, 5)] _ _ 5 hk),
      fin_of _ _ _ (pack_one [(21, 7)] _ _ 5 hk)⟩
  rw [rowOf_15 _ h0]
  simp [rowStrel, f0, hd]

theorem amoAdd (x : AmoF) : Statement (.amoAdd x) := by
  intro w hw h
  simp only [encode, Option.some.injEq] at h
  subst h
  obtain ⟨rel, e, sc, acq, b, a, d⟩ := x
  have hk : Packed [(22, 7), (d.val, 5), (a.val, 5), (b.val, 5), (0, 4), (acq.toNat, 1), (sc.val, 3), (e.toNat, 1), (rel.toNat, 1)] :=
    ⟨by decide, d.isLt, a.isLt, b.isLt, by decide, bool_lt_two acq, sc.isLt, bool_lt_two e, bool_lt_two rel, trivial⟩
  refine decode_of_pack _ [(22, 7), (d.val, 5), (a.val, 5), (b.val, 5), (0, 4), (acq.toNat, 1), (sc.val, 3), (e.toNat, 1), (rel.toNat, 1)] _ (by simp only [AmoF.enc, pack]; omega) hk rfl ?_ hw
  generalize hn : pack [(22, 7), (d.val, 5), (a.val, 5), (b.val, 5), (0, 4), (acq.toNat, 1), (sc.val, 3), (e.toNat, 1), (rel.toNat, 1)] = nn at *
  have h0 : nn % 128 = 0x16 := by subst hn; exact pack_mod [(22, 7)] _ hk
  have f0 : fld nn 22 4 = 0 := by subst hn; exact pack_field [(22, 7), (d.val, 5), (a.val, 5), (b.val, 5)] [(0, 4)] _ hk
  have hd : AmoF.dec nn = ⟨rel, e, sc, acq, b, a, d⟩ := by
    subst hn; simp only [AmoF.dec, AmoF.mk.injEq]
    exact ⟨decide_bool _ _ (pack_one [(22, 7), (d.val, 5), (a.val, 5), (b.val, 5), (0, 4), (acq.toNat, 1), (sc.val, 3), (e.toNat, 1)] _ _ 1 hk),
      decide_bool _ _ (pack_one [(22, 7), (d.val, 5), (a.val, 5), (b.val, 5), (0, 4), (acq.toNat, 1), (sc.val, 3)] _ _ 1 hk),
      fin_of _ _ _ (pack_one [(22, 7), (d.val, 5), (a.val, 5), (b.val, 5), (0, 4), (acq.toNat, 1)] _ _ 3 hk),
      decide_bool _ _ (pack_one [(22, 7), (d.val, 5), (a.val, 5), (b.val, 5), (0, 4)] _ _ 1 hk),
      fin_of _ _ _ (pack_one [(22, 7), (d.val, 5), (a.val, 5)] _ _ 5 hk),
      fin_of _ _ _ (pack_one [(22, 7), (d.val, 5)] _ _ 5 hk),
      fin_of _ _ _ (pack_one [(22, 7)] _ _ 5 hk)⟩
  rw [rowOf_16 _ h0]
  simp [rowAmo, f0, hd]

theorem amoAnd (x : AmoF) : Statement (.amoAnd x) := by
  intro w hw h
  simp only [encode, Option.some.injEq] at h
  subst h
  obtain ⟨rel, e, sc, acq, b, a, d⟩ := x
  have hk : Packed [(22, 7), (d.val, 5), (a.val, 5), (b.val, 5), (1, 4), (acq.toNat, 1), (sc.val, 3), (e.toNat, 1), (rel.toNat, 1)] :=
    ⟨by decide, d.isLt, a.isLt, b.isLt, by decide, bool_lt_two acq, sc.isLt, bool_lt_two e, bool_lt_two rel, trivial⟩
  refine decode_of_pack _ [(22, 7), (d.val, 5), (a.val, 5), (b.val, 5), (1, 4), (acq.toNat, 1), (sc.val, 3), (e.toNat, 1), (rel.toNat, 1)] _ (by simp only [AmoF.enc, pack]; omega) hk rfl ?_ hw
  generalize hn : pack [(22, 7), (d.val, 5), (a.val, 5), (b.val, 5), (1, 4), (acq.toNat, 1), (sc.val, 3), (e.toNat, 1), (rel.toNat, 1)] = nn at *
  have h0 : nn % 128 = 0x16 := by subst hn; exact pack_mod [(22, 7)] _ hk
  have f0 : fld nn 22 4 = 1 := by subst hn; exact pack_field [(22, 7), (d.val, 5), (a.val, 5), (b.val, 5)] [(1, 4)] _ hk
  have hd : AmoF.dec nn = ⟨rel, e, sc, acq, b, a, d⟩ := by
    subst hn; simp only [AmoF.dec, AmoF.mk.injEq]
    exact ⟨decide_bool _ _ (pack_one [(22, 7), (d.val, 5), (a.val, 5), (b.val, 5), (1, 4), (acq.toNat, 1), (sc.val, 3), (e.toNat, 1)] _ _ 1 hk),
      decide_bool _ _ (pack_one [(22, 7), (d.val, 5), (a.val, 5), (b.val, 5), (1, 4), (acq.toNat, 1), (sc.val, 3)] _ _ 1 hk),
      fin_of _ _ _ (pack_one [(22, 7), (d.val, 5), (a.val, 5), (b.val, 5), (1, 4), (acq.toNat, 1)] _ _ 3 hk),
      decide_bool _ _ (pack_one [(22, 7), (d.val, 5), (a.val, 5), (b.val, 5), (1, 4)] _ _ 1 hk),
      fin_of _ _ _ (pack_one [(22, 7), (d.val, 5), (a.val, 5)] _ _ 5 hk),
      fin_of _ _ _ (pack_one [(22, 7), (d.val, 5)] _ _ 5 hk),
      fin_of _ _ _ (pack_one [(22, 7)] _ _ 5 hk)⟩
  rw [rowOf_16 _ h0]
  simp [rowAmo, f0, hd]

theorem amoOr (x : AmoF) : Statement (.amoOr x) := by
  intro w hw h
  simp only [encode, Option.some.injEq] at h
  subst h
  obtain ⟨rel, e, sc, acq, b, a, d⟩ := x
  have hk : Packed [(22, 7), (d.val, 5), (a.val, 5), (b.val, 5), (2, 4), (acq.toNat, 1), (sc.val, 3), (e.toNat, 1), (rel.toNat, 1)] :=
    ⟨by decide, d.isLt, a.isLt, b.isLt, by decide, bool_lt_two acq, sc.isLt, bool_lt_two e, bool_lt_two rel, trivial⟩
  refine decode_of_pack _ [(22, 7), (d.val, 5), (a.val, 5), (b.val, 5), (2, 4), (acq.toNat, 1), (sc.val, 3), (e.toNat, 1), (rel.toNat, 1)] _ (by simp only [AmoF.enc, pack]; omega) hk rfl ?_ hw
  generalize hn : pack [(22, 7), (d.val, 5), (a.val, 5), (b.val, 5), (2, 4), (acq.toNat, 1), (sc.val, 3), (e.toNat, 1), (rel.toNat, 1)] = nn at *
  have h0 : nn % 128 = 0x16 := by subst hn; exact pack_mod [(22, 7)] _ hk
  have f0 : fld nn 22 4 = 2 := by subst hn; exact pack_field [(22, 7), (d.val, 5), (a.val, 5), (b.val, 5)] [(2, 4)] _ hk
  have hd : AmoF.dec nn = ⟨rel, e, sc, acq, b, a, d⟩ := by
    subst hn; simp only [AmoF.dec, AmoF.mk.injEq]
    exact ⟨decide_bool _ _ (pack_one [(22, 7), (d.val, 5), (a.val, 5), (b.val, 5), (2, 4), (acq.toNat, 1), (sc.val, 3), (e.toNat, 1)] _ _ 1 hk),
      decide_bool _ _ (pack_one [(22, 7), (d.val, 5), (a.val, 5), (b.val, 5), (2, 4), (acq.toNat, 1), (sc.val, 3)] _ _ 1 hk),
      fin_of _ _ _ (pack_one [(22, 7), (d.val, 5), (a.val, 5), (b.val, 5), (2, 4), (acq.toNat, 1)] _ _ 3 hk),
      decide_bool _ _ (pack_one [(22, 7), (d.val, 5), (a.val, 5), (b.val, 5), (2, 4)] _ _ 1 hk),
      fin_of _ _ _ (pack_one [(22, 7), (d.val, 5), (a.val, 5)] _ _ 5 hk),
      fin_of _ _ _ (pack_one [(22, 7), (d.val, 5)] _ _ 5 hk),
      fin_of _ _ _ (pack_one [(22, 7)] _ _ 5 hk)⟩
  rw [rowOf_16 _ h0]
  simp [rowAmo, f0, hd]

theorem amoXor (x : AmoF) : Statement (.amoXor x) := by
  intro w hw h
  simp only [encode, Option.some.injEq] at h
  subst h
  obtain ⟨rel, e, sc, acq, b, a, d⟩ := x
  have hk : Packed [(22, 7), (d.val, 5), (a.val, 5), (b.val, 5), (3, 4), (acq.toNat, 1), (sc.val, 3), (e.toNat, 1), (rel.toNat, 1)] :=
    ⟨by decide, d.isLt, a.isLt, b.isLt, by decide, bool_lt_two acq, sc.isLt, bool_lt_two e, bool_lt_two rel, trivial⟩
  refine decode_of_pack _ [(22, 7), (d.val, 5), (a.val, 5), (b.val, 5), (3, 4), (acq.toNat, 1), (sc.val, 3), (e.toNat, 1), (rel.toNat, 1)] _ (by simp only [AmoF.enc, pack]; omega) hk rfl ?_ hw
  generalize hn : pack [(22, 7), (d.val, 5), (a.val, 5), (b.val, 5), (3, 4), (acq.toNat, 1), (sc.val, 3), (e.toNat, 1), (rel.toNat, 1)] = nn at *
  have h0 : nn % 128 = 0x16 := by subst hn; exact pack_mod [(22, 7)] _ hk
  have f0 : fld nn 22 4 = 3 := by subst hn; exact pack_field [(22, 7), (d.val, 5), (a.val, 5), (b.val, 5)] [(3, 4)] _ hk
  have hd : AmoF.dec nn = ⟨rel, e, sc, acq, b, a, d⟩ := by
    subst hn; simp only [AmoF.dec, AmoF.mk.injEq]
    exact ⟨decide_bool _ _ (pack_one [(22, 7), (d.val, 5), (a.val, 5), (b.val, 5), (3, 4), (acq.toNat, 1), (sc.val, 3), (e.toNat, 1)] _ _ 1 hk),
      decide_bool _ _ (pack_one [(22, 7), (d.val, 5), (a.val, 5), (b.val, 5), (3, 4), (acq.toNat, 1), (sc.val, 3)] _ _ 1 hk),
      fin_of _ _ _ (pack_one [(22, 7), (d.val, 5), (a.val, 5), (b.val, 5), (3, 4), (acq.toNat, 1)] _ _ 3 hk),
      decide_bool _ _ (pack_one [(22, 7), (d.val, 5), (a.val, 5), (b.val, 5), (3, 4)] _ _ 1 hk),
      fin_of _ _ _ (pack_one [(22, 7), (d.val, 5), (a.val, 5)] _ _ 5 hk),
      fin_of _ _ _ (pack_one [(22, 7), (d.val, 5)] _ _ 5 hk),
      fin_of _ _ _ (pack_one [(22, 7)] _ _ 5 hk)⟩
  rw [rowOf_16 _ h0]
  simp [rowAmo, f0, hd]

theorem amoMin (x : AmoF) : Statement (.amoMin x) := by
  intro w hw h
  simp only [encode, Option.some.injEq] at h
  subst h
  obtain ⟨rel, e, sc, acq, b, a, d⟩ := x
  have hk : Packed [(22, 7), (d.val, 5), (a.val, 5), (b.val, 5), (4, 4), (acq.toNat, 1), (sc.val, 3), (e.toNat, 1), (rel.toNat, 1)] :=
    ⟨by decide, d.isLt, a.isLt, b.isLt, by decide, bool_lt_two acq, sc.isLt, bool_lt_two e, bool_lt_two rel, trivial⟩
  refine decode_of_pack _ [(22, 7), (d.val, 5), (a.val, 5), (b.val, 5), (4, 4), (acq.toNat, 1), (sc.val, 3), (e.toNat, 1), (rel.toNat, 1)] _ (by simp only [AmoF.enc, pack]; omega) hk rfl ?_ hw
  generalize hn : pack [(22, 7), (d.val, 5), (a.val, 5), (b.val, 5), (4, 4), (acq.toNat, 1), (sc.val, 3), (e.toNat, 1), (rel.toNat, 1)] = nn at *
  have h0 : nn % 128 = 0x16 := by subst hn; exact pack_mod [(22, 7)] _ hk
  have f0 : fld nn 22 4 = 4 := by subst hn; exact pack_field [(22, 7), (d.val, 5), (a.val, 5), (b.val, 5)] [(4, 4)] _ hk
  have hd : AmoF.dec nn = ⟨rel, e, sc, acq, b, a, d⟩ := by
    subst hn; simp only [AmoF.dec, AmoF.mk.injEq]
    exact ⟨decide_bool _ _ (pack_one [(22, 7), (d.val, 5), (a.val, 5), (b.val, 5), (4, 4), (acq.toNat, 1), (sc.val, 3), (e.toNat, 1)] _ _ 1 hk),
      decide_bool _ _ (pack_one [(22, 7), (d.val, 5), (a.val, 5), (b.val, 5), (4, 4), (acq.toNat, 1), (sc.val, 3)] _ _ 1 hk),
      fin_of _ _ _ (pack_one [(22, 7), (d.val, 5), (a.val, 5), (b.val, 5), (4, 4), (acq.toNat, 1)] _ _ 3 hk),
      decide_bool _ _ (pack_one [(22, 7), (d.val, 5), (a.val, 5), (b.val, 5), (4, 4)] _ _ 1 hk),
      fin_of _ _ _ (pack_one [(22, 7), (d.val, 5), (a.val, 5)] _ _ 5 hk),
      fin_of _ _ _ (pack_one [(22, 7), (d.val, 5)] _ _ 5 hk),
      fin_of _ _ _ (pack_one [(22, 7)] _ _ 5 hk)⟩
  rw [rowOf_16 _ h0]
  simp [rowAmo, f0, hd]

theorem amoMax (x : AmoF) : Statement (.amoMax x) := by
  intro w hw h
  simp only [encode, Option.some.injEq] at h
  subst h
  obtain ⟨rel, e, sc, acq, b, a, d⟩ := x
  have hk : Packed [(22, 7), (d.val, 5), (a.val, 5), (b.val, 5), (5, 4), (acq.toNat, 1), (sc.val, 3), (e.toNat, 1), (rel.toNat, 1)] :=
    ⟨by decide, d.isLt, a.isLt, b.isLt, by decide, bool_lt_two acq, sc.isLt, bool_lt_two e, bool_lt_two rel, trivial⟩
  refine decode_of_pack _ [(22, 7), (d.val, 5), (a.val, 5), (b.val, 5), (5, 4), (acq.toNat, 1), (sc.val, 3), (e.toNat, 1), (rel.toNat, 1)] _ (by simp only [AmoF.enc, pack]; omega) hk rfl ?_ hw
  generalize hn : pack [(22, 7), (d.val, 5), (a.val, 5), (b.val, 5), (5, 4), (acq.toNat, 1), (sc.val, 3), (e.toNat, 1), (rel.toNat, 1)] = nn at *
  have h0 : nn % 128 = 0x16 := by subst hn; exact pack_mod [(22, 7)] _ hk
  have f0 : fld nn 22 4 = 5 := by subst hn; exact pack_field [(22, 7), (d.val, 5), (a.val, 5), (b.val, 5)] [(5, 4)] _ hk
  have hd : AmoF.dec nn = ⟨rel, e, sc, acq, b, a, d⟩ := by
    subst hn; simp only [AmoF.dec, AmoF.mk.injEq]
    exact ⟨decide_bool _ _ (pack_one [(22, 7), (d.val, 5), (a.val, 5), (b.val, 5), (5, 4), (acq.toNat, 1), (sc.val, 3), (e.toNat, 1)] _ _ 1 hk),
      decide_bool _ _ (pack_one [(22, 7), (d.val, 5), (a.val, 5), (b.val, 5), (5, 4), (acq.toNat, 1), (sc.val, 3)] _ _ 1 hk),
      fin_of _ _ _ (pack_one [(22, 7), (d.val, 5), (a.val, 5), (b.val, 5), (5, 4), (acq.toNat, 1)] _ _ 3 hk),
      decide_bool _ _ (pack_one [(22, 7), (d.val, 5), (a.val, 5), (b.val, 5), (5, 4)] _ _ 1 hk),
      fin_of _ _ _ (pack_one [(22, 7), (d.val, 5), (a.val, 5)] _ _ 5 hk),
      fin_of _ _ _ (pack_one [(22, 7), (d.val, 5)] _ _ 5 hk),
      fin_of _ _ _ (pack_one [(22, 7)] _ _ 5 hk)⟩
  rw [rowOf_16 _ h0]
  simp [rowAmo, f0, hd]

theorem amoMinu (x : AmoF) : Statement (.amoMinu x) := by
  intro w hw h
  simp only [encode, Option.some.injEq] at h
  subst h
  obtain ⟨rel, e, sc, acq, b, a, d⟩ := x
  have hk : Packed [(22, 7), (d.val, 5), (a.val, 5), (b.val, 5), (6, 4), (acq.toNat, 1), (sc.val, 3), (e.toNat, 1), (rel.toNat, 1)] :=
    ⟨by decide, d.isLt, a.isLt, b.isLt, by decide, bool_lt_two acq, sc.isLt, bool_lt_two e, bool_lt_two rel, trivial⟩
  refine decode_of_pack _ [(22, 7), (d.val, 5), (a.val, 5), (b.val, 5), (6, 4), (acq.toNat, 1), (sc.val, 3), (e.toNat, 1), (rel.toNat, 1)] _ (by simp only [AmoF.enc, pack]; omega) hk rfl ?_ hw
  generalize hn : pack [(22, 7), (d.val, 5), (a.val, 5), (b.val, 5), (6, 4), (acq.toNat, 1), (sc.val, 3), (e.toNat, 1), (rel.toNat, 1)] = nn at *
  have h0 : nn % 128 = 0x16 := by subst hn; exact pack_mod [(22, 7)] _ hk
  have f0 : fld nn 22 4 = 6 := by subst hn; exact pack_field [(22, 7), (d.val, 5), (a.val, 5), (b.val, 5)] [(6, 4)] _ hk
  have hd : AmoF.dec nn = ⟨rel, e, sc, acq, b, a, d⟩ := by
    subst hn; simp only [AmoF.dec, AmoF.mk.injEq]
    exact ⟨decide_bool _ _ (pack_one [(22, 7), (d.val, 5), (a.val, 5), (b.val, 5), (6, 4), (acq.toNat, 1), (sc.val, 3), (e.toNat, 1)] _ _ 1 hk),
      decide_bool _ _ (pack_one [(22, 7), (d.val, 5), (a.val, 5), (b.val, 5), (6, 4), (acq.toNat, 1), (sc.val, 3)] _ _ 1 hk),
      fin_of _ _ _ (pack_one [(22, 7), (d.val, 5), (a.val, 5), (b.val, 5), (6, 4), (acq.toNat, 1)] _ _ 3 hk),
      decide_bool _ _ (pack_one [(22, 7), (d.val, 5), (a.val, 5), (b.val, 5), (6, 4)] _ _ 1 hk),
      fin_of _ _ _ (pack_one [(22, 7), (d.val, 5), (a.val, 5)] _ _ 5 hk),
      fin_of _ _ _ (pack_one [(22, 7), (d.val, 5)] _ _ 5 hk),
      fin_of _ _ _ (pack_one [(22, 7)] _ _ 5 hk)⟩
  rw [rowOf_16 _ h0]
  simp [rowAmo, f0, hd]

theorem amoMaxu (x : AmoF) : Statement (.amoMaxu x) := by
  intro w hw h
  simp only [encode, Option.some.injEq] at h
  subst h
  obtain ⟨rel, e, sc, acq, b, a, d⟩ := x
  have hk : Packed [(22, 7), (d.val, 5), (a.val, 5), (b.val, 5), (7, 4), (acq.toNat, 1), (sc.val, 3), (e.toNat, 1), (rel.toNat, 1)] :=
    ⟨by decide, d.isLt, a.isLt, b.isLt, by decide, bool_lt_two acq, sc.isLt, bool_lt_two e, bool_lt_two rel, trivial⟩
  refine decode_of_pack _ [(22, 7), (d.val, 5), (a.val, 5), (b.val, 5), (7, 4), (acq.toNat, 1), (sc.val, 3), (e.toNat, 1), (rel.toNat, 1)] _ (by simp only [AmoF.enc, pack]; omega) hk rfl ?_ hw
  generalize hn : pack [(22, 7), (d.val, 5), (a.val, 5), (b.val, 5), (7, 4), (acq.toNat, 1), (sc.val, 3), (e.toNat, 1), (rel.toNat, 1)] = nn at *
  have h0 : nn % 128 = 0x16 := by subst hn; exact pack_mod [(22, 7)] _ hk
  have f0 : fld nn 22 4 = 7 := by subst hn; exact pack_field [(22, 7), (d.val, 5), (a.val, 5), (b.val, 5)] [(7, 4)] _ hk
  have hd : AmoF.dec nn = ⟨rel, e, sc, acq, b, a, d⟩ := by
    subst hn; simp only [AmoF.dec, AmoF.mk.injEq]
    exact ⟨decide_bool _ _ (pack_one [(22, 7), (d.val, 5), (a.val, 5), (b.val, 5), (7, 4), (acq.toNat, 1), (sc.val, 3), (e.toNat, 1)] _ _ 1 hk),
      decide_bool _ _ (pack_one [(22, 7), (d.val, 5), (a.val, 5), (b.val, 5), (7, 4), (acq.toNat, 1), (sc.val, 3)] _ _ 1 hk),
      fin_of _ _ _ (pack_one [(22, 7), (d.val, 5), (a.val, 5), (b.val, 5), (7, 4), (acq.toNat, 1)] _ _ 3 hk),
      decide_bool _ _ (pack_one [(22, 7), (d.val, 5), (a.val, 5), (b.val, 5), (7, 4)] _ _ 1 hk),
      fin_of _ _ _ (pack_one [(22, 7), (d.val, 5), (a.val, 5)] _ _ 5 hk),
      fin_of _ _ _ (pack_one [(22, 7), (d.val, 5)] _ _ 5 hk),
      fin_of _ _ _ (pack_one [(22, 7)] _ _ 5 hk)⟩
  rw [rowOf_16 _ h0]
  simp [rowAmo, f0, hd]

theorem amoSwap (x : AmoF) : Statement (.amoSwap x) := by
  intro w hw h
  simp only [encode, Option.some.injEq] at h
  subst h
  obtain ⟨rel, e, sc, acq, b, a, d⟩ := x
  have hk : Packed [(22, 7), (d.val, 5), (a.val, 5), (b.val, 5), (8, 4), (acq.toNat, 1), (sc.val, 3), (e.toNat, 1), (rel.toNat, 1)] :=
    ⟨by decide, d.isLt, a.isLt, b.isLt, by decide, bool_lt_two acq, sc.isLt, bool_lt_two e, bool_lt_two rel, trivial⟩
  refine decode_of_pack _ [(22, 7), (d.val, 5), (a.val, 5), (b.val, 5), (8, 4), (acq.toNat, 1), (sc.val, 3), (e.toNat, 1), (rel.toNat, 1)] _ (by simp only [AmoF.enc, pack]; omega) hk rfl ?_ hw
  generalize hn : pack [(22, 7), (d.val, 5), (a.val, 5), (b.val, 5), (8, 4), (acq.toNat, 1), (sc.val, 3), (e.toNat, 1), (rel.toNat, 1)] = nn at *
  have h0 : nn % 128 = 0x16 := by subst hn; exact pack_mod [(22, 7)] _ hk
  have f0 : fld nn 22 4 = 8 := by subst hn; exact pack_field [(22, 7), (d.val, 5), (a.val, 5), (b.val, 5)] [(8, 4)] _ hk
  have hd : AmoF.dec nn = ⟨rel, e, sc, acq, b, a, d⟩ := by
    subst hn; simp only [AmoF.dec, AmoF.mk.injEq]
    exact ⟨decide_bool _ _ (pack_one [(22, 7), (d.val, 5), (a.val, 5), (b.val, 5), (8, 4), (acq.toNat, 1), (sc.val, 3), (e.toNat, 1)] _ _ 1 hk),
      decide_bool _ _ (pack_one [(22, 7), (d.val, 5), (a.val, 5), (b.val, 5), (8, 4), (acq.toNat, 1), (sc.val, 3)] _ _ 1 hk),
      fin_of _ _ _ (pack_one [(22, 7), (d.val, 5), (a.val, 5), (b.val, 5), (8, 4), (acq.toNat, 1)] _ _ 3 hk),
      decide_bool _ _ (pack_one [(22, 7), (d.val, 5), (a.val, 5), (b.val, 5), (8, 4)] _ _ 1 hk),
      fin_of _ _ _ (pack_one [(22, 7), (d.val, 5), (a.val, 5)] _ _ 5 hk),
      fin_of _ _ _ (pack_one [(22, 7), (d.val, 5)] _ _ 5 hk),
      fin_of _ _ _ (pack_one [(22, 7)] _ _ 5 hk)⟩
  rw [rowOf_16 _ h0]
  simp [rowAmo, f0, hd]

theorem cas (x : CasF) : Statement (.cas x) := by
  intro w hw h
  simp only [encode, Option.some.injEq] at h
  subst h
  obtain ⟨e, sc, c, b, a, d⟩ := x
  have hk : Packed [(23, 7), (d.val, 5), (a.val, 5), (b.val, 5), (c.val, 5), (sc.val, 3), (e.toNat, 1), (0, 1)] :=
    ⟨by decide, d.isLt, a.isLt, b.isLt, c.isLt, sc.isLt, bool_lt_two e, by decide, trivial⟩
  refine decode_of_pack _ [(23, 7), (d.val, 5), (a.val, 5), (b.val, 5), (c.val, 5), (sc.val, 3), (e.toNat, 1), (0, 1)] _ (by simp only [CasF.enc, pack]; omega) hk rfl ?_ hw
  generalize hn : pack [(23, 7), (d.val, 5), (a.val, 5), (b.val, 5), (c.val, 5), (sc.val, 3), (e.toNat, 1), (0, 1)] = nn at *
  have h0 : nn % 128 = 0x17 := by subst hn; exact pack_mod [(23, 7)] _ hk
  have f0 : fld nn 31 1 = 0 := by subst hn; exact pack_field [(23, 7), (d.val, 5), (a.val, 5), (b.val, 5), (c.val, 5), (sc.val, 3), (e.toNat, 1)] [(0, 1)] _ hk
  have hd : CasF.dec nn = ⟨e, sc, c, b, a, d⟩ := by
    subst hn; simp only [CasF.dec, CasF.mk.injEq]
    exact ⟨decide_bool _ _ (pack_one [(23, 7), (d.val, 5), (a.val, 5), (b.val, 5), (c.val, 5), (sc.val, 3)] _ _ 1 hk),
      fin_of _ _ _ (pack_one [(23, 7), (d.val, 5), (a.val, 5), (b.val, 5), (c.val, 5)] _ _ 3 hk),
      fin_of _ _ _ (pack_one [(23, 7), (d.val, 5), (a.val, 5), (b.val, 5)] _ _ 5 hk),
      fin_of _ _ _ (pack_one [(23, 7), (d.val, 5), (a.val, 5)] _ _ 5 hk),
      fin_of _ _ _ (pack_one [(23, 7), (d.val, 5)] _ _ 5 hk),
      fin_of _ _ _ (pack_one [(23, 7)] _ _ 5 hk)⟩
  rw [rowOf_17 _ h0]
  simp [rowCas, f0, hd]

theorem casQ (x : CasF) : Statement (.casQ x) := by
  intro w hw h
  simp only [encode, Option.some.injEq] at h
  subst h
  obtain ⟨e, sc, c, b, a, d⟩ := x
  have hk : Packed [(23, 7), (d.val, 5), (a.val, 5), (b.val, 5), (c.val, 5), (sc.val, 3), (e.toNat, 1), (1, 1)] :=
    ⟨by decide, d.isLt, a.isLt, b.isLt, c.isLt, sc.isLt, bool_lt_two e, by decide, trivial⟩
  refine decode_of_pack _ [(23, 7), (d.val, 5), (a.val, 5), (b.val, 5), (c.val, 5), (sc.val, 3), (e.toNat, 1), (1, 1)] _ (by simp only [CasF.enc, pack]; omega) hk rfl ?_ hw
  generalize hn : pack [(23, 7), (d.val, 5), (a.val, 5), (b.val, 5), (c.val, 5), (sc.val, 3), (e.toNat, 1), (1, 1)] = nn at *
  have h0 : nn % 128 = 0x17 := by subst hn; exact pack_mod [(23, 7)] _ hk
  have f0 : fld nn 31 1 = 1 := by subst hn; exact pack_field [(23, 7), (d.val, 5), (a.val, 5), (b.val, 5), (c.val, 5), (sc.val, 3), (e.toNat, 1)] [(1, 1)] _ hk
  have hd : CasF.dec nn = ⟨e, sc, c, b, a, d⟩ := by
    subst hn; simp only [CasF.dec, CasF.mk.injEq]
    exact ⟨decide_bool _ _ (pack_one [(23, 7), (d.val, 5), (a.val, 5), (b.val, 5), (c.val, 5), (sc.val, 3)] _ _ 1 hk),
      fin_of _ _ _ (pack_one [(23, 7), (d.val, 5), (a.val, 5), (b.val, 5), (c.val, 5)] _ _ 3 hk),
      fin_of _ _ _ (pack_one [(23, 7), (d.val, 5), (a.val, 5), (b.val, 5)] _ _ 5 hk),
      fin_of _ _ _ (pack_one [(23, 7), (d.val, 5), (a.val, 5)] _ _ 5 hk),
      fin_of _ _ _ (pack_one [(23, 7), (d.val, 5)] _ _ 5 hk),
      fin_of _ _ _ (pack_one [(23, 7)] _ _ 5 hk)⟩
  rw [rowOf_17 _ h0]
  simp [rowCas, f0, hd]

theorem fenceAcq (x : ScopeF) : Statement (.fenceAcq x) := by
  intro w hw h
  simp only [encode, Option.some.injEq] at h
  subst h
  obtain ⟨sc⟩ := x
  have hk : Packed [(24, 7), (0, 15), (sc.val, 3), (0, 7)] :=
    ⟨by decide, by decide, sc.isLt, by decide, trivial⟩
  refine decode_of_pack _ [(24, 7), (0, 15), (sc.val, 3), (0, 7)] _ (by simp only [ScopeF.enc, pack]; omega) hk rfl ?_ hw
  generalize hn : pack [(24, 7), (0, 15), (sc.val, 3), (0, 7)] = nn at *
  have h0 : nn % 128 = 0x18 := by subst hn; exact pack_mod [(24, 7)] _ hk
  have f0 : fld nn 25 7 = 0 := by subst hn; exact pack_field [(24, 7), (0, 15), (sc.val, 3)] [(0, 7)] _ hk
  have f1 : fld nn 7 15 = 0 := by subst hn; exact pack_field [(24, 7)] [(0, 15)] _ hk
  have hd : ScopeF.dec nn = ⟨sc⟩ := by
    subst hn; simp only [ScopeF.dec, ScopeF.mk.injEq]
    exact fin_of _ _ _ (pack_one [(24, 7), (0, 15)] _ _ 3 hk)
  rw [rowOf_18 _ h0]
  simp [rowFence, f0, f1, hd]

theorem fenceRel (x : ScopeF) : Statement (.fenceRel x) := by
  intro w hw h
  simp only [encode, Option.some.injEq] at h
  subst h
  obtain ⟨sc⟩ := x
  have hk : Packed [(24, 7), (0, 15), (sc.val, 3), (4, 7)] :=
    ⟨by decide, by decide, sc.isLt, by decide, trivial⟩
  refine decode_of_pack _ [(24, 7), (0, 15), (sc.val, 3), (4, 7)] _ (by simp only [ScopeF.enc, pack]; omega) hk rfl ?_ hw
  generalize hn : pack [(24, 7), (0, 15), (sc.val, 3), (4, 7)] = nn at *
  have h0 : nn % 128 = 0x18 := by subst hn; exact pack_mod [(24, 7)] _ hk
  have f0 : fld nn 25 7 = 4 := by subst hn; exact pack_field [(24, 7), (0, 15), (sc.val, 3)] [(4, 7)] _ hk
  have f1 : fld nn 7 15 = 0 := by subst hn; exact pack_field [(24, 7)] [(0, 15)] _ hk
  have hd : ScopeF.dec nn = ⟨sc⟩ := by
    subst hn; simp only [ScopeF.dec, ScopeF.mk.injEq]
    exact fin_of _ _ _ (pack_one [(24, 7), (0, 15)] _ _ 3 hk)
  rw [rowOf_18 _ h0]
  simp [rowFence, f0, f1, hd]

theorem fenceAr (x : ScopeF) : Statement (.fenceAr x) := by
  intro w hw h
  simp only [encode, Option.some.injEq] at h
  subst h
  obtain ⟨sc⟩ := x
  have hk : Packed [(24, 7), (0, 15), (sc.val, 3), (8, 7)] :=
    ⟨by decide, by decide, sc.isLt, by decide, trivial⟩
  refine decode_of_pack _ [(24, 7), (0, 15), (sc.val, 3), (8, 7)] _ (by simp only [ScopeF.enc, pack]; omega) hk rfl ?_ hw
  generalize hn : pack [(24, 7), (0, 15), (sc.val, 3), (8, 7)] = nn at *
  have h0 : nn % 128 = 0x18 := by subst hn; exact pack_mod [(24, 7)] _ hk
  have f0 : fld nn 25 7 = 8 := by subst hn; exact pack_field [(24, 7), (0, 15), (sc.val, 3)] [(8, 7)] _ hk
  have f1 : fld nn 7 15 = 0 := by subst hn; exact pack_field [(24, 7)] [(0, 15)] _ hk
  have hd : ScopeF.dec nn = ⟨sc⟩ := by
    subst hn; simp only [ScopeF.dec, ScopeF.mk.injEq]
    exact fin_of _ _ _ (pack_one [(24, 7), (0, 15)] _ _ 3 hk)
  rw [rowOf_18 _ h0]
  simp [rowFence, f0, f1, hd]

theorem fenceSc (x : ScopeF) : Statement (.fenceSc x) := by
  intro w hw h
  simp only [encode, Option.some.injEq] at h
  subst h
  obtain ⟨sc⟩ := x
  have hk : Packed [(24, 7), (0, 15), (sc.val, 3), (12, 7)] :=
    ⟨by decide, by decide, sc.isLt, by decide, trivial⟩
  refine decode_of_pack _ [(24, 7), (0, 15), (sc.val, 3), (12, 7)] _ (by simp only [ScopeF.enc, pack]; omega) hk rfl ?_ hw
  generalize hn : pack [(24, 7), (0, 15), (sc.val, 3), (12, 7)] = nn at *
  have h0 : nn % 128 = 0x18 := by subst hn; exact pack_mod [(24, 7)] _ hk
  have f0 : fld nn 25 7 = 12 := by subst hn; exact pack_field [(24, 7), (0, 15), (sc.val, 3)] [(12, 7)] _ hk
  have f1 : fld nn 7 15 = 0 := by subst hn; exact pack_field [(24, 7)] [(0, 15)] _ hk
  have hd : ScopeF.dec nn = ⟨sc⟩ := by
    subst hn; simp only [ScopeF.dec, ScopeF.mk.injEq]
    exact fin_of _ _ _ (pack_one [(24, 7), (0, 15)] _ _ 3 hk)
  rw [rowOf_18 _ h0]
  simp [rowFence, f0, f1, hd]

theorem xfenceAll (x : ScopeF) : Statement (.xfenceAll x) := by
  intro w hw h
  simp only [encode, Option.some.injEq] at h
  subst h
  obtain ⟨sc⟩ := x
  have hk : Packed [(25, 7), (0, 15), (sc.val, 3), (0, 7)] :=
    ⟨by decide, by decide, sc.isLt, by decide, trivial⟩
  refine decode_of_pack _ [(25, 7), (0, 15), (sc.val, 3), (0, 7)] _ (by simp only [ScopeF.enc, pack]; omega) hk rfl ?_ hw
  generalize hn : pack [(25, 7), (0, 15), (sc.val, 3), (0, 7)] = nn at *
  have h0 : nn % 128 = 0x19 := by subst hn; exact pack_mod [(25, 7)] _ hk
  have f0 : fld nn 25 7 = 0 := by subst hn; exact pack_field [(25, 7), (0, 15), (sc.val, 3)] [(0, 7)] _ hk
  have f1 : fld nn 7 15 = 0 := by subst hn; exact pack_field [(25, 7)] [(0, 15)] _ hk
  have hd : ScopeF.dec nn = ⟨sc⟩ := by
    subst hn; simp only [ScopeF.dec, ScopeF.mk.injEq]
    exact fin_of _ _ _ (pack_one [(25, 7), (0, 15)] _ _ 3 hk)
  rw [rowOf_19 _ h0]
  simp [rowXfence, f0, f1, hd]

theorem xfenceSpace (x : ScopeA) : Statement (.xfenceSpace x) := by
  intro w hw h
  simp only [encode, Option.some.injEq] at h
  subst h
  obtain ⟨ea, sc, a⟩ := x
  have hk : Packed [(25, 7), (0, 5), (a.val, 5), (0, 5), (sc.val, 3), (ea.toNat, 1), (2, 6)] :=
    ⟨by decide, by decide, a.isLt, by decide, sc.isLt, bool_lt_two ea, by decide, trivial⟩
  refine decode_of_pack _ [(25, 7), (0, 5), (a.val, 5), (0, 5), (sc.val, 3), (ea.toNat, 1), (2, 6)] _ (by simp only [ScopeA.enc, pack]; omega) hk rfl ?_ hw
  generalize hn : pack [(25, 7), (0, 5), (a.val, 5), (0, 5), (sc.val, 3), (ea.toNat, 1), (2, 6)] = nn at *
  have h0 : nn % 128 = 0x19 := by subst hn; exact pack_mod [(25, 7)] _ hk
  have f0 : ¬fld nn 25 7 = 0 := by
    subst hn; intro he; have h2 := (pack_field [(25, 7), (0, 5), (a.val, 5), (0, 5), (sc.val, 3)] [(ea.toNat, 1), (2, 6)] _ hk).symm.trans he; simp only [pack] at h2; omega
  have f1 : fld nn 26 6 = 2 := by subst hn; exact pack_field [(25, 7), (0, 5), (a.val, 5), (0, 5), (sc.val, 3), (ea.toNat, 1)] [(2, 6)] _ hk
  have f2 : fld nn 17 5 = 0 := by subst hn; exact pack_field [(25, 7), (0, 5), (a.val, 5)] [(0, 5)] _ hk
  have f3 : fld nn 7 5 = 0 := by subst hn; exact pack_field [(25, 7)] [(0, 5)] _ hk
  have hd : ScopeA.dec nn = ⟨ea, sc, a⟩ := by
    subst hn; simp only [ScopeA.dec, ScopeA.mk.injEq]
    exact ⟨decide_bool _ _ (pack_one [(25, 7), (0, 5), (a.val, 5), (0, 5), (sc.val, 3)] _ _ 1 hk),
      fin_of _ _ _ (pack_one [(25, 7), (0, 5), (a.val, 5), (0, 5)] _ _ 3 hk),
      fin_of _ _ _ (pack_one [(25, 7), (0, 5)] _ _ 5 hk)⟩
  rw [rowOf_19 _ h0]
  simp [rowXfence, f0, f1, f2, f3, hd]

theorem xfencePage (x : ScopeA) : Statement (.xfencePage x) := by
  intro w hw h
  simp only [encode, Option.some.injEq] at h
  subst h
  obtain ⟨ea, sc, a⟩ := x
  have hk : Packed [(25, 7), (0, 5), (a.val, 5), (0, 5), (sc.val, 3), (ea.toNat, 1), (4, 6)] :=
    ⟨by decide, by decide, a.isLt, by decide, sc.isLt, bool_lt_two ea, by decide, trivial⟩
  refine decode_of_pack _ [(25, 7), (0, 5), (a.val, 5), (0, 5), (sc.val, 3), (ea.toNat, 1), (4, 6)] _ (by simp only [ScopeA.enc, pack]; omega) hk rfl ?_ hw
  generalize hn : pack [(25, 7), (0, 5), (a.val, 5), (0, 5), (sc.val, 3), (ea.toNat, 1), (4, 6)] = nn at *
  have h0 : nn % 128 = 0x19 := by subst hn; exact pack_mod [(25, 7)] _ hk
  have f0 : ¬fld nn 25 7 = 0 := by
    subst hn; intro he; have h2 := (pack_field [(25, 7), (0, 5), (a.val, 5), (0, 5), (sc.val, 3)] [(ea.toNat, 1), (4, 6)] _ hk).symm.trans he; simp only [pack] at h2; omega
  have f1 : fld nn 26 6 = 4 := by subst hn; exact pack_field [(25, 7), (0, 5), (a.val, 5), (0, 5), (sc.val, 3), (ea.toNat, 1)] [(4, 6)] _ hk
  have f2 : fld nn 17 5 = 0 := by subst hn; exact pack_field [(25, 7), (0, 5), (a.val, 5)] [(0, 5)] _ hk
  have f3 : fld nn 7 5 = 0 := by subst hn; exact pack_field [(25, 7)] [(0, 5)] _ hk
  have hd : ScopeA.dec nn = ⟨ea, sc, a⟩ := by
    subst hn; simp only [ScopeA.dec, ScopeA.mk.injEq]
    exact ⟨decide_bool _ _ (pack_one [(25, 7), (0, 5), (a.val, 5), (0, 5), (sc.val, 3)] _ _ 1 hk),
      fin_of _ _ _ (pack_one [(25, 7), (0, 5), (a.val, 5), (0, 5)] _ _ 3 hk),
      fin_of _ _ _ (pack_one [(25, 7), (0, 5)] _ _ 5 hk)⟩
  rw [rowOf_19 _ h0]
  simp [rowXfence, f0, f1, f2, f3, hd]

theorem waita (x : WaitaF) : Statement (.waita x) := by
  intro w hw h
  simp only [encode, Option.some.injEq] at h
  subst h
  obtain ⟨e, cond, c, b, a, d⟩ := x
  have hk : Packed [(26, 7), (d.val, 5), (a.val, 5), (b.val, 5), (c.val, 5), (cond.val, 3), (e.toNat, 1), (0, 1)] :=
    ⟨by decide, d.isLt, a.isLt, b.isLt, c.isLt, cond.isLt, bool_lt_two e, by decide, trivial⟩
  refine decode_of_pack _ [(26, 7), (d.val, 5), (a.val, 5), (b.val, 5), (c.val, 5), (cond.val, 3), (e.toNat, 1), (0, 1)] _ (by simp only [WaitaF.enc, pack]; omega) hk rfl ?_ hw
  generalize hn : pack [(26, 7), (d.val, 5), (a.val, 5), (b.val, 5), (c.val, 5), (cond.val, 3), (e.toNat, 1), (0, 1)] = nn at *
  have h0 : nn % 128 = 0x1A := by subst hn; exact pack_mod [(26, 7)] _ hk
  have f0 : fld nn 31 1 = 0 := by subst hn; exact pack_field [(26, 7), (d.val, 5), (a.val, 5), (b.val, 5), (c.val, 5), (cond.val, 3), (e.toNat, 1)] [(0, 1)] _ hk
  have hd : WaitaF.dec nn = ⟨e, cond, c, b, a, d⟩ := by
    subst hn; simp only [WaitaF.dec, WaitaF.mk.injEq]
    exact ⟨decide_bool _ _ (pack_one [(26, 7), (d.val, 5), (a.val, 5), (b.val, 5), (c.val, 5), (cond.val, 3)] _ _ 1 hk),
      fin_of _ _ _ (pack_one [(26, 7), (d.val, 5), (a.val, 5), (b.val, 5), (c.val, 5)] _ _ 3 hk),
      fin_of _ _ _ (pack_one [(26, 7), (d.val, 5), (a.val, 5), (b.val, 5)] _ _ 5 hk),
      fin_of _ _ _ (pack_one [(26, 7), (d.val, 5), (a.val, 5)] _ _ 5 hk),
      fin_of _ _ _ (pack_one [(26, 7), (d.val, 5)] _ _ 5 hk),
      fin_of _ _ _ (pack_one [(26, 7)] _ _ 5 hk)⟩
  rw [rowOf_1A _ h0]
  simp [rowWaita, f0, hd]

theorem barArr (x : BarF) : Statement (.barArr x) := by
  intro w hw h
  simp only [encode, Option.some.injEq] at h
  subst h
  obtain ⟨eb, ea, sc, b, a, d⟩ := x
  have hk : Packed [(27, 7), (d.val, 5), (a.val, 5), (b.val, 5), (sc.val, 3), (ea.toNat, 1), (eb.toNat, 1), (0, 5)] :=
    ⟨by decide, d.isLt, a.isLt, b.isLt, sc.isLt, bool_lt_two ea, bool_lt_two eb, by decide, trivial⟩
  refine decode_of_pack _ [(27, 7), (d.val, 5), (a.val, 5), (b.val, 5), (sc.val, 3), (ea.toNat, 1), (eb.toNat, 1), (0, 5)] _ (by simp only [BarF.enc, pack]; omega) hk rfl ?_ hw
  generalize hn : pack [(27, 7), (d.val, 5), (a.val, 5), (b.val, 5), (sc.val, 3), (ea.toNat, 1), (eb.toNat, 1), (0, 5)] = nn at *
  have h0 : nn % 128 = 0x1B := by subst hn; exact pack_mod [(27, 7)] _ hk
  have f0 : fld nn 27 5 = 0 := by subst hn; exact pack_field [(27, 7), (d.val, 5), (a.val, 5), (b.val, 5), (sc.val, 3), (ea.toNat, 1), (eb.toNat, 1)] [(0, 5)] _ hk
  have hd : BarF.dec nn = ⟨eb, ea, sc, b, a, d⟩ := by
    subst hn; simp only [BarF.dec, BarF.mk.injEq]
    exact ⟨decide_bool _ _ (pack_one [(27, 7), (d.val, 5), (a.val, 5), (b.val, 5), (sc.val, 3), (ea.toNat, 1)] _ _ 1 hk),
      decide_bool _ _ (pack_one [(27, 7), (d.val, 5), (a.val, 5), (b.val, 5), (sc.val, 3)] _ _ 1 hk),
      fin_of _ _ _ (pack_one [(27, 7), (d.val, 5), (a.val, 5), (b.val, 5)] _ _ 3 hk),
      fin_of _ _ _ (pack_one [(27, 7), (d.val, 5), (a.val, 5)] _ _ 5 hk),
      fin_of _ _ _ (pack_one [(27, 7), (d.val, 5)] _ _ 5 hk),
      fin_of _ _ _ (pack_one [(27, 7)] _ _ 5 hk)⟩
  rw [rowOf_1B _ h0]
  simp [rowBar, f0, hd]

theorem barWait (x : BarF) : Statement (.barWait x) := by
  intro w hw h
  simp only [encode, Option.some.injEq] at h
  subst h
  obtain ⟨eb, ea, sc, b, a, d⟩ := x
  have hk : Packed [(27, 7), (d.val, 5), (a.val, 5), (b.val, 5), (sc.val, 3), (ea.toNat, 1), (eb.toNat, 1), (1, 5)] :=
    ⟨by decide, d.isLt, a.isLt, b.isLt, sc.isLt, bool_lt_two ea, bool_lt_two eb, by decide, trivial⟩
  refine decode_of_pack _ [(27, 7), (d.val, 5), (a.val, 5), (b.val, 5), (sc.val, 3), (ea.toNat, 1), (eb.toNat, 1), (1, 5)] _ (by simp only [BarF.enc, pack]; omega) hk rfl ?_ hw
  generalize hn : pack [(27, 7), (d.val, 5), (a.val, 5), (b.val, 5), (sc.val, 3), (ea.toNat, 1), (eb.toNat, 1), (1, 5)] = nn at *
  have h0 : nn % 128 = 0x1B := by subst hn; exact pack_mod [(27, 7)] _ hk
  have f0 : fld nn 27 5 = 1 := by subst hn; exact pack_field [(27, 7), (d.val, 5), (a.val, 5), (b.val, 5), (sc.val, 3), (ea.toNat, 1), (eb.toNat, 1)] [(1, 5)] _ hk
  have hd : BarF.dec nn = ⟨eb, ea, sc, b, a, d⟩ := by
    subst hn; simp only [BarF.dec, BarF.mk.injEq]
    exact ⟨decide_bool _ _ (pack_one [(27, 7), (d.val, 5), (a.val, 5), (b.val, 5), (sc.val, 3), (ea.toNat, 1)] _ _ 1 hk),
      decide_bool _ _ (pack_one [(27, 7), (d.val, 5), (a.val, 5), (b.val, 5), (sc.val, 3)] _ _ 1 hk),
      fin_of _ _ _ (pack_one [(27, 7), (d.val, 5), (a.val, 5), (b.val, 5)] _ _ 3 hk),
      fin_of _ _ _ (pack_one [(27, 7), (d.val, 5), (a.val, 5)] _ _ 5 hk),
      fin_of _ _ _ (pack_one [(27, 7), (d.val, 5)] _ _ 5 hk),
      fin_of _ _ _ (pack_one [(27, 7)] _ _ 5 hk)⟩
  rw [rowOf_1B _ h0]
  simp [rowBar, f0, hd]

theorem barAw (x : BarF) : Statement (.barAw x) := by
  intro w hw h
  simp only [encode, Option.some.injEq] at h
  subst h
  obtain ⟨eb, ea, sc, b, a, d⟩ := x
  have hk : Packed [(27, 7), (d.val, 5), (a.val, 5), (b.val, 5), (sc.val, 3), (ea.toNat, 1), (eb.toNat, 1), (2, 5)] :=
    ⟨by decide, d.isLt, a.isLt, b.isLt, sc.isLt, bool_lt_two ea, bool_lt_two eb, by decide, trivial⟩
  refine decode_of_pack _ [(27, 7), (d.val, 5), (a.val, 5), (b.val, 5), (sc.val, 3), (ea.toNat, 1), (eb.toNat, 1), (2, 5)] _ (by simp only [BarF.enc, pack]; omega) hk rfl ?_ hw
  generalize hn : pack [(27, 7), (d.val, 5), (a.val, 5), (b.val, 5), (sc.val, 3), (ea.toNat, 1), (eb.toNat, 1), (2, 5)] = nn at *
  have h0 : nn % 128 = 0x1B := by subst hn; exact pack_mod [(27, 7)] _ hk
  have f0 : fld nn 27 5 = 2 := by subst hn; exact pack_field [(27, 7), (d.val, 5), (a.val, 5), (b.val, 5), (sc.val, 3), (ea.toNat, 1), (eb.toNat, 1)] [(2, 5)] _ hk
  have hd : BarF.dec nn = ⟨eb, ea, sc, b, a, d⟩ := by
    subst hn; simp only [BarF.dec, BarF.mk.injEq]
    exact ⟨decide_bool _ _ (pack_one [(27, 7), (d.val, 5), (a.val, 5), (b.val, 5), (sc.val, 3), (ea.toNat, 1)] _ _ 1 hk),
      decide_bool _ _ (pack_one [(27, 7), (d.val, 5), (a.val, 5), (b.val, 5), (sc.val, 3)] _ _ 1 hk),
      fin_of _ _ _ (pack_one [(27, 7), (d.val, 5), (a.val, 5), (b.val, 5)] _ _ 3 hk),
      fin_of _ _ _ (pack_one [(27, 7), (d.val, 5), (a.val, 5)] _ _ 5 hk),
      fin_of _ _ _ (pack_one [(27, 7), (d.val, 5)] _ _ 5 hk),
      fin_of _ _ _ (pack_one [(27, 7)] _ _ 5 hk)⟩
  rw [rowOf_1B _ h0]
  simp [rowBar, f0, hd]

theorem clineClean (x : ScopeA) : Statement (.clineClean x) := by
  intro w hw h
  simp only [encode, Option.some.injEq] at h
  subst h
  obtain ⟨ea, sc, a⟩ := x
  have hk : Packed [(28, 7), (0, 5), (a.val, 5), (0, 5), (sc.val, 3), (ea.toNat, 1), (0, 6)] :=
    ⟨by decide, by decide, a.isLt, by decide, sc.isLt, bool_lt_two ea, by decide, trivial⟩
  refine decode_of_pack _ [(28, 7), (0, 5), (a.val, 5), (0, 5), (sc.val, 3), (ea.toNat, 1), (0, 6)] _ (by simp only [ScopeA.enc, pack]; omega) hk rfl ?_ hw
  generalize hn : pack [(28, 7), (0, 5), (a.val, 5), (0, 5), (sc.val, 3), (ea.toNat, 1), (0, 6)] = nn at *
  have h0 : nn % 128 = 0x1C := by subst hn; exact pack_mod [(28, 7)] _ hk
  have f0 : fld nn 26 6 = 0 := by subst hn; exact pack_field [(28, 7), (0, 5), (a.val, 5), (0, 5), (sc.val, 3), (ea.toNat, 1)] [(0, 6)] _ hk
  have f1 : fld nn 17 5 = 0 := by subst hn; exact pack_field [(28, 7), (0, 5), (a.val, 5)] [(0, 5)] _ hk
  have f2 : fld nn 7 5 = 0 := by subst hn; exact pack_field [(28, 7)] [(0, 5)] _ hk
  have hd : ScopeA.dec nn = ⟨ea, sc, a⟩ := by
    subst hn; simp only [ScopeA.dec, ScopeA.mk.injEq]
    exact ⟨decide_bool _ _ (pack_one [(28, 7), (0, 5), (a.val, 5), (0, 5), (sc.val, 3)] _ _ 1 hk),
      fin_of _ _ _ (pack_one [(28, 7), (0, 5), (a.val, 5), (0, 5)] _ _ 3 hk),
      fin_of _ _ _ (pack_one [(28, 7), (0, 5)] _ _ 5 hk)⟩
  rw [rowOf_1C _ h0]
  simp [rowCline, f0, f1, f2, hd]

theorem clineInv (x : ScopeA) : Statement (.clineInv x) := by
  intro w hw h
  simp only [encode, Option.some.injEq] at h
  subst h
  obtain ⟨ea, sc, a⟩ := x
  have hk : Packed [(28, 7), (0, 5), (a.val, 5), (0, 5), (sc.val, 3), (ea.toNat, 1), (2, 6)] :=
    ⟨by decide, by decide, a.isLt, by decide, sc.isLt, bool_lt_two ea, by decide, trivial⟩
  refine decode_of_pack _ [(28, 7), (0, 5), (a.val, 5), (0, 5), (sc.val, 3), (ea.toNat, 1), (2, 6)] _ (by simp only [ScopeA.enc, pack]; omega) hk rfl ?_ hw
  generalize hn : pack [(28, 7), (0, 5), (a.val, 5), (0, 5), (sc.val, 3), (ea.toNat, 1), (2, 6)] = nn at *
  have h0 : nn % 128 = 0x1C := by subst hn; exact pack_mod [(28, 7)] _ hk
  have f0 : fld nn 26 6 = 2 := by subst hn; exact pack_field [(28, 7), (0, 5), (a.val, 5), (0, 5), (sc.val, 3), (ea.toNat, 1)] [(2, 6)] _ hk
  have f1 : fld nn 17 5 = 0 := by subst hn; exact pack_field [(28, 7), (0, 5), (a.val, 5)] [(0, 5)] _ hk
  have f2 : fld nn 7 5 = 0 := by subst hn; exact pack_field [(28, 7)] [(0, 5)] _ hk
  have hd : ScopeA.dec nn = ⟨ea, sc, a⟩ := by
    subst hn; simp only [ScopeA.dec, ScopeA.mk.injEq]
    exact ⟨decide_bool _ _ (pack_one [(28, 7), (0, 5), (a.val, 5), (0, 5), (sc.val, 3)] _ _ 1 hk),
      fin_of _ _ _ (pack_one [(28, 7), (0, 5), (a.val, 5), (0, 5)] _ _ 3 hk),
      fin_of _ _ _ (pack_one [(28, 7), (0, 5)] _ _ 5 hk)⟩
  rw [rowOf_1C _ h0]
  simp [rowCline, f0, f1, f2, hd]

theorem clineFlush (x : ScopeA) : Statement (.clineFlush x) := by
  intro w hw h
  simp only [encode, Option.some.injEq] at h
  subst h
  obtain ⟨ea, sc, a⟩ := x
  have hk : Packed [(28, 7), (0, 5), (a.val, 5), (0, 5), (sc.val, 3), (ea.toNat, 1), (4, 6)] :=
    ⟨by decide, by decide, a.isLt, by decide, sc.isLt, bool_lt_two ea, by decide, trivial⟩
  refine decode_of_pack _ [(28, 7), (0, 5), (a.val, 5), (0, 5), (sc.val, 3), (ea.toNat, 1), (4, 6)] _ (by simp only [ScopeA.enc, pack]; omega) hk rfl ?_ hw
  generalize hn : pack [(28, 7), (0, 5), (a.val, 5), (0, 5), (sc.val, 3), (ea.toNat, 1), (4, 6)] = nn at *
  have h0 : nn % 128 = 0x1C := by subst hn; exact pack_mod [(28, 7)] _ hk
  have f0 : fld nn 26 6 = 4 := by subst hn; exact pack_field [(28, 7), (0, 5), (a.val, 5), (0, 5), (sc.val, 3), (ea.toNat, 1)] [(4, 6)] _ hk
  have f1 : fld nn 17 5 = 0 := by subst hn; exact pack_field [(28, 7), (0, 5), (a.val, 5)] [(0, 5)] _ hk
  have f2 : fld nn 7 5 = 0 := by subst hn; exact pack_field [(28, 7)] [(0, 5)] _ hk
  have hd : ScopeA.dec nn = ⟨ea, sc, a⟩ := by
    subst hn; simp only [ScopeA.dec, ScopeA.mk.injEq]
    exact ⟨decide_bool _ _ (pack_one [(28, 7), (0, 5), (a.val, 5), (0, 5), (sc.val, 3)] _ _ 1 hk),
      fin_of _ _ _ (pack_one [(28, 7), (0, 5), (a.val, 5), (0, 5)] _ _ 3 hk),
      fin_of _ _ _ (pack_one [(28, 7), (0, 5)] _ _ 5 hk)⟩
  rw [rowOf_1C _ h0]
  simp [rowCline, f0, f1, f2, hd]

theorem clineZero (x : ScopeA) : Statement (.clineZero x) := by
  intro w hw h
  simp only [encode, Option.some.injEq] at h
  subst h
  obtain ⟨ea, sc, a⟩ := x
  have hk : Packed [(28, 7), (0, 5), (a.val, 5), (0, 5), (sc.val, 3), (ea.toNat, 1), (6, 6)] :=
    ⟨by decide, by decide, a.isLt, by decide, sc.isLt, bool_lt_two ea, by decide, trivial⟩
  refine decode_of_pack _ [(28, 7), (0, 5), (a.val, 5), (0, 5), (sc.val, 3), (ea.toNat, 1), (6, 6)] _ (by simp only [ScopeA.enc, pack]; omega) hk rfl ?_ hw
  generalize hn : pack [(28, 7), (0, 5), (a.val, 5), (0, 5), (sc.val, 3), (ea.toNat, 1), (6, 6)] = nn at *
  have h0 : nn % 128 = 0x1C := by subst hn; exact pack_mod [(28, 7)] _ hk
  have f0 : fld nn 26 6 = 6 := by subst hn; exact pack_field [(28, 7), (0, 5), (a.val, 5), (0, 5), (sc.val, 3), (ea.toNat, 1)] [(6, 6)] _ hk
  have f1 : fld nn 17 5 = 0 := by subst hn; exact pack_field [(28, 7), (0, 5), (a.val, 5)] [(0, 5)] _ hk
  have f2 : fld nn 7 5 = 0 := by subst hn; exact pack_field [(28, 7)] [(0, 5)] _ hk
  have hd : ScopeA.dec nn = ⟨ea, sc, a⟩ := by
    subst hn; simp only [ScopeA.dec, ScopeA.mk.injEq]
    exact ⟨decide_bool _ _ (pack_one [(28, 7), (0, 5), (a.val, 5), (0, 5), (sc.val, 3)] _ _ 1 hk),
      fin_of _ _ _ (pack_one [(28, 7), (0, 5), (a.val, 5), (0, 5)] _ _ 3 hk),
      fin_of _ _ _ (pack_one [(28, 7), (0, 5)] _ _ 5 hk)⟩
  rw [rowOf_1C _ h0]
  simp [rowCline, f0, f1, f2, hd]

theorem stashMap (x : Alu2) : Statement (.stashMap x) := by
  intro w hw h
  simp only [encode, Option.some.injEq] at h
  subst h
  obtain ⟨eb, ea, b, a, d⟩ := x
  have hk : Packed [(29, 7), (d.val, 5), (a.val, 5), (b.val, 5), (0, 3), (ea.toNat, 1), (eb.toNat, 1), (0, 5)] :=
    ⟨by decide, d.isLt, a.isLt, b.isLt, by decide, bool_lt_two ea, bool_lt_two eb, by decide, trivial⟩
  refine decode_of_pack _ [(29, 7), (d.val, 5), (a.val, 5), (b.val, 5), (0, 3), (ea.toNat, 1), (eb.toNat, 1), (0, 5)] _ (by simp only [Alu2.enc, pack]; omega) hk rfl ?_ hw
  generalize hn : pack [(29, 7), (d.val, 5), (a.val, 5), (b.val, 5), (0, 3), (ea.toNat, 1), (eb.toNat, 1), (0, 5)] = nn at *
  have h0 : nn % 128 = 0x1D := by subst hn; exact pack_mod [(29, 7)] _ hk
  have f0 : fld nn 27 5 = 0 := by subst hn; exact pack_field [(29, 7), (d.val, 5), (a.val, 5), (b.val, 5), (0, 3), (ea.toNat, 1), (eb.toNat, 1)] [(0, 5)] _ hk
  have f1 : fld nn 22 3 = 0 := by subst hn; exact pack_field [(29, 7), (d.val, 5), (a.val, 5), (b.val, 5)] [(0, 3)] _ hk
  have hd : Alu2.dec nn = ⟨eb, ea, b, a, d⟩ := by
    subst hn; simp only [Alu2.dec, Alu2.mk.injEq]
    exact ⟨decide_bool _ _ (pack_one [(29, 7), (d.val, 5), (a.val, 5), (b.val, 5), (0, 3), (ea.toNat, 1)] _ _ 1 hk),
      decide_bool _ _ (pack_one [(29, 7), (d.val, 5), (a.val, 5), (b.val, 5), (0, 3)] _ _ 1 hk),
      fin_of _ _ _ (pack_one [(29, 7), (d.val, 5), (a.val, 5)] _ _ 5 hk),
      fin_of _ _ _ (pack_one [(29, 7), (d.val, 5)] _ _ 5 hk),
      fin_of _ _ _ (pack_one [(29, 7)] _ _ 5 hk)⟩
  rw [rowOf_1D _ h0]
  simp [rowStash, f0, f1, hd]

theorem stashUnmap (x : StashB) : Statement (.stashUnmap x) := by
  intro w hw h
  simp only [encode, Option.some.injEq] at h
  subst h
  obtain ⟨eb, b, d⟩ := x
  have hk : Packed [(29, 7), (d.val, 5), (0, 5), (b.val, 5), (0, 4), (eb.toNat, 1), (1, 5)] :=
    ⟨by decide, d.isLt, by decide, b.isLt, by decide, bool_lt_two eb, by decide, trivial⟩
  refine decode_of_pack _ [(29, 7), (d.val, 5), (0, 5), (b.val, 5), (0, 4), (eb.toNat, 1), (1, 5)] _ (by simp only [StashB.enc, pack]; omega) hk rfl ?_ hw
  generalize hn : pack [(29, 7), (d.val, 5), (0, 5), (b.val, 5), (0, 4), (eb.toNat, 1), (1, 5)] = nn at *
  have h0 : nn % 128 = 0x1D := by subst hn; exact pack_mod [(29, 7)] _ hk
  have f0 : fld nn 27 5 = 1 := by subst hn; exact pack_field [(29, 7), (d.val, 5), (0, 5), (b.val, 5), (0, 4), (eb.toNat, 1)] [(1, 5)] _ hk
  have f1 : fld nn 22 4 = 0 := by subst hn; exact pack_field [(29, 7), (d.val, 5), (0, 5), (b.val, 5)] [(0, 4)] _ hk
  have f2 : fld nn 12 5 = 0 := by subst hn; exact pack_field [(29, 7), (d.val, 5)] [(0, 5)] _ hk
  have hd : StashB.dec nn = ⟨eb, b, d⟩ := by
    subst hn; simp only [StashB.dec, StashB.mk.injEq]
    exact ⟨decide_bool _ _ (pack_one [(29, 7), (d.val, 5), (0, 5), (b.val, 5), (0, 4)] _ _ 1 hk),
      fin_of _ _ _ (pack_one [(29, 7), (d.val, 5), (0, 5)] _ _ 5 hk),
      fin_of _ _ _ (pack_one [(29, 7)] _ _ 5 hk)⟩
  rw [rowOf_1D _ h0]
  simp [rowStash, f0, f1, f2, hd]

theorem stashFlush (x : StashB) : Statement (.stashFlush x) := by
  intro w hw h
  simp only [encode, Option.some.injEq] at h
  subst h
  obtain ⟨eb, b, d⟩ := x
  have hk : Packed [(29, 7), (d.val, 5), (0, 5), (b.val, 5), (0, 4), (eb.toNat, 1), (2, 5)] :=
    ⟨by decide, d.isLt, by decide, b.isLt, by decide, bool_lt_two eb, by decide, trivial⟩
  refine decode_of_pack _ [(29, 7), (d.val, 5), (0, 5), (b.val, 5), (0, 4), (eb.toNat, 1), (2, 5)] _ (by simp only [StashB.enc, pack]; omega) hk rfl ?_ hw
  generalize hn : pack [(29, 7), (d.val, 5), (0, 5), (b.val, 5), (0, 4), (eb.toNat, 1), (2, 5)] = nn at *
  have h0 : nn % 128 = 0x1D := by subst hn; exact pack_mod [(29, 7)] _ hk
  have f0 : fld nn 27 5 = 2 := by subst hn; exact pack_field [(29, 7), (d.val, 5), (0, 5), (b.val, 5), (0, 4), (eb.toNat, 1)] [(2, 5)] _ hk
  have f1 : fld nn 22 4 = 0 := by subst hn; exact pack_field [(29, 7), (d.val, 5), (0, 5), (b.val, 5)] [(0, 4)] _ hk
  have f2 : fld nn 12 5 = 0 := by subst hn; exact pack_field [(29, 7), (d.val, 5)] [(0, 5)] _ hk
  have hd : StashB.dec nn = ⟨eb, b, d⟩ := by
    subst hn; simp only [StashB.dec, StashB.mk.injEq]
    exact ⟨decide_bool _ _ (pack_one [(29, 7), (d.val, 5), (0, 5), (b.val, 5), (0, 4)] _ _ 1 hk),
      fin_of _ _ _ (pack_one [(29, 7), (d.val, 5), (0, 5)] _ _ 5 hk),
      fin_of _ _ _ (pack_one [(29, 7)] _ _ 5 hk)⟩
  rw [rowOf_1D _ h0]
  simp [rowStash, f0, f1, f2, hd]

theorem stashPin (x : StashB) : Statement (.stashPin x) := by
  intro w hw h
  simp only [encode, Option.some.injEq] at h
  subst h
  obtain ⟨eb, b, d⟩ := x
  have hk : Packed [(29, 7), (d.val, 5), (0, 5), (b.val, 5), (0, 4), (eb.toNat, 1), (3, 5)] :=
    ⟨by decide, d.isLt, by decide, b.isLt, by decide, bool_lt_two eb, by decide, trivial⟩
  refine decode_of_pack _ [(29, 7), (d.val, 5), (0, 5), (b.val, 5), (0, 4), (eb.toNat, 1), (3, 5)] _ (by simp only [StashB.enc, pack]; omega) hk rfl ?_ hw
  generalize hn : pack [(29, 7), (d.val, 5), (0, 5), (b.val, 5), (0, 4), (eb.toNat, 1), (3, 5)] = nn at *
  have h0 : nn % 128 = 0x1D := by subst hn; exact pack_mod [(29, 7)] _ hk
  have f0 : fld nn 27 5 = 3 := by subst hn; exact pack_field [(29, 7), (d.val, 5), (0, 5), (b.val, 5), (0, 4), (eb.toNat, 1)] [(3, 5)] _ hk
  have f1 : fld nn 22 4 = 0 := by subst hn; exact pack_field [(29, 7), (d.val, 5), (0, 5), (b.val, 5)] [(0, 4)] _ hk
  have f2 : fld nn 12 5 = 0 := by subst hn; exact pack_field [(29, 7), (d.val, 5)] [(0, 5)] _ hk
  have hd : StashB.dec nn = ⟨eb, b, d⟩ := by
    subst hn; simp only [StashB.dec, StashB.mk.injEq]
    exact ⟨decide_bool _ _ (pack_one [(29, 7), (d.val, 5), (0, 5), (b.val, 5), (0, 4)] _ _ 1 hk),
      fin_of _ _ _ (pack_one [(29, 7), (d.val, 5), (0, 5)] _ _ 5 hk),
      fin_of _ _ _ (pack_one [(29, 7)] _ _ 5 hk)⟩
  rw [rowOf_1D _ h0]
  simp [rowStash, f0, f1, f2, hd]

theorem stashUnpin (x : StashB) : Statement (.stashUnpin x) := by
  intro w hw h
  simp only [encode, Option.some.injEq] at h
  subst h
  obtain ⟨eb, b, d⟩ := x
  have hk : Packed [(29, 7), (d.val, 5), (0, 5), (b.val, 5), (0, 4), (eb.toNat, 1), (4, 5)] :=
    ⟨by decide, d.isLt, by decide, b.isLt, by decide, bool_lt_two eb, by decide, trivial⟩
  refine decode_of_pack _ [(29, 7), (d.val, 5), (0, 5), (b.val, 5), (0, 4), (eb.toNat, 1), (4, 5)] _ (by simp only [StashB.enc, pack]; omega) hk rfl ?_ hw
  generalize hn : pack [(29, 7), (d.val, 5), (0, 5), (b.val, 5), (0, 4), (eb.toNat, 1), (4, 5)] = nn at *
  have h0 : nn % 128 = 0x1D := by subst hn; exact pack_mod [(29, 7)] _ hk
  have f0 : fld nn 27 5 = 4 := by subst hn; exact pack_field [(29, 7), (d.val, 5), (0, 5), (b.val, 5), (0, 4), (eb.toNat, 1)] [(4, 5)] _ hk
  have f1 : fld nn 22 4 = 0 := by subst hn; exact pack_field [(29, 7), (d.val, 5), (0, 5), (b.val, 5)] [(0, 4)] _ hk
  have f2 : fld nn 12 5 = 0 := by subst hn; exact pack_field [(29, 7), (d.val, 5)] [(0, 5)] _ hk
  have hd : StashB.dec nn = ⟨eb, b, d⟩ := by
    subst hn; simp only [StashB.dec, StashB.mk.injEq]
    exact ⟨decide_bool _ _ (pack_one [(29, 7), (d.val, 5), (0, 5), (b.val, 5), (0, 4)] _ _ 1 hk),
      fin_of _ _ _ (pack_one [(29, 7), (d.val, 5), (0, 5)] _ _ 5 hk),
      fin_of _ _ _ (pack_one [(29, 7)] _ _ 5 hk)⟩
  rw [rowOf_1D _ h0]
  simp [rowStash, f0, f1, f2, hd]

theorem prefL2 (x : PrefF) : Statement (.prefL2 x) := by
  intro w hw h
  simp only [encode, Option.some.injEq] at h
  subst h
  obtain ⟨ea, a⟩ := x
  have hk : Packed [(30, 7), (0, 5), (a.val, 5), (0, 8), (ea.toNat, 1), (0, 6)] :=
    ⟨by decide, by decide, a.isLt, by decide, bool_lt_two ea, by decide, trivial⟩
  refine decode_of_pack _ [(30, 7), (0, 5), (a.val, 5), (0, 8), (ea.toNat, 1), (0, 6)] _ (by simp only [PrefF.enc, pack]; omega) hk rfl ?_ hw
  generalize hn : pack [(30, 7), (0, 5), (a.val, 5), (0, 8), (ea.toNat, 1), (0, 6)] = nn at *
  have h0 : nn % 128 = 0x1E := by subst hn; exact pack_mod [(30, 7)] _ hk
  have f0 : fld nn 26 6 = 0 := by subst hn; exact pack_field [(30, 7), (0, 5), (a.val, 5), (0, 8), (ea.toNat, 1)] [(0, 6)] _ hk
  have f1 : fld nn 17 8 = 0 := by subst hn; exact pack_field [(30, 7), (0, 5), (a.val, 5)] [(0, 8)] _ hk
  have f2 : fld nn 7 5 = 0 := by subst hn; exact pack_field [(30, 7)] [(0, 5)] _ hk
  have hd : PrefF.dec nn = ⟨ea, a⟩ := by
    subst hn; simp only [PrefF.dec, PrefF.mk.injEq]
    exact ⟨decide_bool _ _ (pack_one [(30, 7), (0, 5), (a.val, 5), (0, 8)] _ _ 1 hk),
      fin_of _ _ _ (pack_one [(30, 7), (0, 5)] _ _ 5 hk)⟩
  rw [rowOf_1E _ h0]
  simp [rowPref, f0, f1, f2, hd]

theorem prefLlc (x : PrefF) : Statement (.prefLlc x) := by
  intro w hw h
  simp only [encode, Option.some.injEq] at h
  subst h
  obtain ⟨ea, a⟩ := x
  have hk : Packed [(30, 7), (0, 5), (a.val, 5), (0, 8), (ea.toNat, 1), (2, 6)] :=
    ⟨by decide, by decide, a.isLt, by decide, bool_lt_two ea, by decide, trivial⟩
  refine decode_of_pack _ [(30, 7), (0, 5), (a.val, 5), (0, 8), (ea.toNat, 1), (2, 6)] _ (by simp only [PrefF.enc, pack]; omega) hk rfl ?_ hw
  generalize hn : pack [(30, 7), (0, 5), (a.val, 5), (0, 8), (ea.toNat, 1), (2, 6)] = nn at *
  have h0 : nn % 128 = 0x1E := by subst hn; exact pack_mod [(30, 7)] _ hk
  have f0 : fld nn 26 6 = 2 := by subst hn; exact pack_field [(30, 7), (0, 5), (a.val, 5), (0, 8), (ea.toNat, 1)] [(2, 6)] _ hk
  have f1 : fld nn 17 8 = 0 := by subst hn; exact pack_field [(30, 7), (0, 5), (a.val, 5)] [(0, 8)] _ hk
  have f2 : fld nn 7 5 = 0 := by subst hn; exact pack_field [(30, 7)] [(0, 5)] _ hk
  have hd : PrefF.dec nn = ⟨ea, a⟩ := by
    subst hn; simp only [PrefF.dec, PrefF.mk.injEq]
    exact ⟨decide_bool _ _ (pack_one [(30, 7), (0, 5), (a.val, 5), (0, 8)] _ _ 1 hk),
      fin_of _ _ _ (pack_one [(30, 7), (0, 5)] _ _ 5 hk)⟩
  rw [rowOf_1E _ h0]
  simp [rowPref, f0, f1, f2, hd]

theorem prefStash (x : PrefF) : Statement (.prefStash x) := by
  intro w hw h
  simp only [encode, Option.some.injEq] at h
  subst h
  obtain ⟨ea, a⟩ := x
  have hk : Packed [(30, 7), (0, 5), (a.val, 5), (0, 8), (ea.toNat, 1), (4, 6)] :=
    ⟨by decide, by decide, a.isLt, by decide, bool_lt_two ea, by decide, trivial⟩
  refine decode_of_pack _ [(30, 7), (0, 5), (a.val, 5), (0, 8), (ea.toNat, 1), (4, 6)] _ (by simp only [PrefF.enc, pack]; omega) hk rfl ?_ hw
  generalize hn : pack [(30, 7), (0, 5), (a.val, 5), (0, 8), (ea.toNat, 1), (4, 6)] = nn at *
  have h0 : nn % 128 = 0x1E := by subst hn; exact pack_mod [(30, 7)] _ hk
  have f0 : fld nn 26 6 = 4 := by subst hn; exact pack_field [(30, 7), (0, 5), (a.val, 5), (0, 8), (ea.toNat, 1)] [(4, 6)] _ hk
  have f1 : fld nn 17 8 = 0 := by subst hn; exact pack_field [(30, 7), (0, 5), (a.val, 5)] [(0, 8)] _ hk
  have f2 : fld nn 7 5 = 0 := by subst hn; exact pack_field [(30, 7)] [(0, 5)] _ hk
  have hd : PrefF.dec nn = ⟨ea, a⟩ := by
    subst hn; simp only [PrefF.dec, PrefF.mk.injEq]
    exact ⟨decide_bool _ _ (pack_one [(30, 7), (0, 5), (a.val, 5), (0, 8)] _ _ 1 hk),
      fin_of _ _ _ (pack_one [(30, 7), (0, 5)] _ _ 5 hk)⟩
  rw [rowOf_1E _ h0]
  simp [rowPref, f0, f1, f2, hd]

theorem rdspr (x : RdSpr) : Statement (.rdspr x) := by
  intro w hw h
  simp only [encode, Option.some.injEq] at h
  subst h
  obtain ⟨spr, d⟩ := x
  have hk : Packed [(31, 7), (d.val, 5), (0, 6), (spr.toNat, 12), (0, 2)] :=
    ⟨by decide, d.isLt, by decide, spr.isLt, by decide, trivial⟩
  refine decode_of_pack _ [(31, 7), (d.val, 5), (0, 6), (spr.toNat, 12), (0, 2)] _ (by simp only [RdSpr.enc, pack]; omega) hk rfl ?_ hw
  generalize hn : pack [(31, 7), (d.val, 5), (0, 6), (spr.toNat, 12), (0, 2)] = nn at *
  have h0 : nn % 128 = 0x1F := by subst hn; exact pack_mod [(31, 7)] _ hk
  have f0 : fld nn 30 2 = 0 := by subst hn; exact pack_field [(31, 7), (d.val, 5), (0, 6), (spr.toNat, 12)] [(0, 2)] _ hk
  have f1 : fld nn 12 6 = 0 := by subst hn; exact pack_field [(31, 7), (d.val, 5)] [(0, 6)] _ hk
  have hd : RdSpr.dec nn = ⟨spr, d⟩ := by
    subst hn; simp only [RdSpr.dec, RdSpr.mk.injEq]
    exact ⟨bitVec_of _ _ (pack_one [(31, 7), (d.val, 5), (0, 6)] _ _ 12 hk),
      fin_of _ _ _ (pack_one [(31, 7)] _ _ 5 hk)⟩
  rw [rowOf_1F _ h0]
  simp [rowSpr, f0, f1, hd]

theorem wrspr (x : WrSpr) : Statement (.wrspr x) := by
  intro w hw h
  simp only [encode, Option.some.injEq] at h
  subst h
  obtain ⟨spr, ea, a⟩ := x
  have hk : Packed [(31, 7), (0, 5), (a.val, 5), (ea.toNat, 1), (spr.toNat, 12), (1, 2)] :=
    ⟨by decide, by decide, a.isLt, bool_lt_two ea, spr.isLt, by decide, trivial⟩
  refine decode_of_pack _ [(31, 7), (0, 5), (a.val, 5), (ea.toNat, 1), (spr.toNat, 12), (1, 2)] _ (by simp only [WrSpr.enc, pack]; omega) hk rfl ?_ hw
  generalize hn : pack [(31, 7), (0, 5), (a.val, 5), (ea.toNat, 1), (spr.toNat, 12), (1, 2)] = nn at *
  have h0 : nn % 128 = 0x1F := by subst hn; exact pack_mod [(31, 7)] _ hk
  have f0 : fld nn 30 2 = 1 := by subst hn; exact pack_field [(31, 7), (0, 5), (a.val, 5), (ea.toNat, 1), (spr.toNat, 12)] [(1, 2)] _ hk
  have f1 : fld nn 7 5 = 0 := by subst hn; exact pack_field [(31, 7)] [(0, 5)] _ hk
  have hd : WrSpr.dec nn = ⟨spr, ea, a⟩ := by
    subst hn; simp only [WrSpr.dec, WrSpr.mk.injEq]
    exact ⟨bitVec_of _ _ (pack_one [(31, 7), (0, 5), (a.val, 5), (ea.toNat, 1)] _ _ 12 hk),
      decide_bool _ _ (pack_one [(31, 7), (0, 5), (a.val, 5)] _ _ 1 hk),
      fin_of _ _ _ (pack_one [(31, 7), (0, 5)] _ _ 5 hk)⟩
  rw [rowOf_1F _ h0]
  simp [rowSpr, f0, f1, hd]

theorem vadd (x : V3) : Statement (.vadd x) := by
  intro w hw h
  simp only [encode, Option.some.injEq] at h
  subst h
  obtain ⟨eb, ea, k, b, a, d⟩ := x
  have hk : Packed [(32, 7), (d.val, 5), (a.val, 5), (b.val, 5), (k.val, 3), (ea.toNat, 1), (eb.toNat, 1), (0, 5)] :=
    ⟨by decide, d.isLt, a.isLt, b.isLt, k.isLt, bool_lt_two ea, bool_lt_two eb, by decide, trivial⟩
  refine decode_of_pack _ [(32, 7), (d.val, 5), (a.val, 5), (b.val, 5), (k.val, 3), (ea.toNat, 1), (eb.toNat, 1), (0, 5)] _ (by simp only [V3.enc, pack]; omega) hk rfl ?_ hw
  generalize hn : pack [(32, 7), (d.val, 5), (a.val, 5), (b.val, 5), (k.val, 3), (ea.toNat, 1), (eb.toNat, 1), (0, 5)] = nn at *
  have h0 : nn % 128 = 0x20 := by subst hn; exact pack_mod [(32, 7)] _ hk
  have f0 : fld nn 27 5 = 0 := by subst hn; exact pack_field [(32, 7), (d.val, 5), (a.val, 5), (b.val, 5), (k.val, 3), (ea.toNat, 1), (eb.toNat, 1)] [(0, 5)] _ hk
  have hd : V3.dec nn = ⟨eb, ea, k, b, a, d⟩ := by
    subst hn; simp only [V3.dec, V3.mk.injEq]
    exact ⟨decide_bool _ _ (pack_one [(32, 7), (d.val, 5), (a.val, 5), (b.val, 5), (k.val, 3), (ea.toNat, 1)] _ _ 1 hk),
      decide_bool _ _ (pack_one [(32, 7), (d.val, 5), (a.val, 5), (b.val, 5), (k.val, 3)] _ _ 1 hk),
      fin_of _ _ _ (pack_one [(32, 7), (d.val, 5), (a.val, 5), (b.val, 5)] _ _ 3 hk),
      fin_of _ _ _ (pack_one [(32, 7), (d.val, 5), (a.val, 5)] _ _ 5 hk),
      fin_of _ _ _ (pack_one [(32, 7), (d.val, 5)] _ _ 5 hk),
      fin_of _ _ _ (pack_one [(32, 7)] _ _ 5 hk)⟩
  rw [rowOf_20 _ h0]
  simp [rowVv, f0, hd]

theorem vsub (x : V3) : Statement (.vsub x) := by
  intro w hw h
  simp only [encode, Option.some.injEq] at h
  subst h
  obtain ⟨eb, ea, k, b, a, d⟩ := x
  have hk : Packed [(32, 7), (d.val, 5), (a.val, 5), (b.val, 5), (k.val, 3), (ea.toNat, 1), (eb.toNat, 1), (1, 5)] :=
    ⟨by decide, d.isLt, a.isLt, b.isLt, k.isLt, bool_lt_two ea, bool_lt_two eb, by decide, trivial⟩
  refine decode_of_pack _ [(32, 7), (d.val, 5), (a.val, 5), (b.val, 5), (k.val, 3), (ea.toNat, 1), (eb.toNat, 1), (1, 5)] _ (by simp only [V3.enc, pack]; omega) hk rfl ?_ hw
  generalize hn : pack [(32, 7), (d.val, 5), (a.val, 5), (b.val, 5), (k.val, 3), (ea.toNat, 1), (eb.toNat, 1), (1, 5)] = nn at *
  have h0 : nn % 128 = 0x20 := by subst hn; exact pack_mod [(32, 7)] _ hk
  have f0 : fld nn 27 5 = 1 := by subst hn; exact pack_field [(32, 7), (d.val, 5), (a.val, 5), (b.val, 5), (k.val, 3), (ea.toNat, 1), (eb.toNat, 1)] [(1, 5)] _ hk
  have hd : V3.dec nn = ⟨eb, ea, k, b, a, d⟩ := by
    subst hn; simp only [V3.dec, V3.mk.injEq]
    exact ⟨decide_bool _ _ (pack_one [(32, 7), (d.val, 5), (a.val, 5), (b.val, 5), (k.val, 3), (ea.toNat, 1)] _ _ 1 hk),
      decide_bool _ _ (pack_one [(32, 7), (d.val, 5), (a.val, 5), (b.val, 5), (k.val, 3)] _ _ 1 hk),
      fin_of _ _ _ (pack_one [(32, 7), (d.val, 5), (a.val, 5), (b.val, 5)] _ _ 3 hk),
      fin_of _ _ _ (pack_one [(32, 7), (d.val, 5), (a.val, 5)] _ _ 5 hk),
      fin_of _ _ _ (pack_one [(32, 7), (d.val, 5)] _ _ 5 hk),
      fin_of _ _ _ (pack_one [(32, 7)] _ _ 5 hk)⟩
  rw [rowOf_20 _ h0]
  simp [rowVv, f0, hd]

theorem vmul (x : V3) : Statement (.vmul x) := by
  intro w hw h
  simp only [encode, Option.some.injEq] at h
  subst h
  obtain ⟨eb, ea, k, b, a, d⟩ := x
  have hk : Packed [(32, 7), (d.val, 5), (a.val, 5), (b.val, 5), (k.val, 3), (ea.toNat, 1), (eb.toNat, 1), (2, 5)] :=
    ⟨by decide, d.isLt, a.isLt, b.isLt, k.isLt, bool_lt_two ea, bool_lt_two eb, by decide, trivial⟩
  refine decode_of_pack _ [(32, 7), (d.val, 5), (a.val, 5), (b.val, 5), (k.val, 3), (ea.toNat, 1), (eb.toNat, 1), (2, 5)] _ (by simp only [V3.enc, pack]; omega) hk rfl ?_ hw
  generalize hn : pack [(32, 7), (d.val, 5), (a.val, 5), (b.val, 5), (k.val, 3), (ea.toNat, 1), (eb.toNat, 1), (2, 5)] = nn at *
  have h0 : nn % 128 = 0x20 := by subst hn; exact pack_mod [(32, 7)] _ hk
  have f0 : fld nn 27 5 = 2 := by subst hn; exact pack_field [(32, 7), (d.val, 5), (a.val, 5), (b.val, 5), (k.val, 3), (ea.toNat, 1), (eb.toNat, 1)] [(2, 5)] _ hk
  have hd : V3.dec nn = ⟨eb, ea, k, b, a, d⟩ := by
    subst hn; simp only [V3.dec, V3.mk.injEq]
    exact ⟨decide_bool _ _ (pack_one [(32, 7), (d.val, 5), (a.val, 5), (b.val, 5), (k.val, 3), (ea.toNat, 1)] _ _ 1 hk),
      decide_bool _ _ (pack_one [(32, 7), (d.val, 5), (a.val, 5), (b.val, 5), (k.val, 3)] _ _ 1 hk),
      fin_of _ _ _ (pack_one [(32, 7), (d.val, 5), (a.val, 5), (b.val, 5)] _ _ 3 hk),
      fin_of _ _ _ (pack_one [(32, 7), (d.val, 5), (a.val, 5)] _ _ 5 hk),
      fin_of _ _ _ (pack_one [(32, 7), (d.val, 5)] _ _ 5 hk),
      fin_of _ _ _ (pack_one [(32, 7)] _ _ 5 hk)⟩
  rw [rowOf_20 _ h0]
  simp [rowVv, f0, hd]

theorem vmin (x : V3) : Statement (.vmin x) := by
  intro w hw h
  simp only [encode, Option.some.injEq] at h
  subst h
  obtain ⟨eb, ea, k, b, a, d⟩ := x
  have hk : Packed [(32, 7), (d.val, 5), (a.val, 5), (b.val, 5), (k.val, 3), (ea.toNat, 1), (eb.toNat, 1), (3, 5)] :=
    ⟨by decide, d.isLt, a.isLt, b.isLt, k.isLt, bool_lt_two ea, bool_lt_two eb, by decide, trivial⟩
  refine decode_of_pack _ [(32, 7), (d.val, 5), (a.val, 5), (b.val, 5), (k.val, 3), (ea.toNat, 1), (eb.toNat, 1), (3, 5)] _ (by simp only [V3.enc, pack]; omega) hk rfl ?_ hw
  generalize hn : pack [(32, 7), (d.val, 5), (a.val, 5), (b.val, 5), (k.val, 3), (ea.toNat, 1), (eb.toNat, 1), (3, 5)] = nn at *
  have h0 : nn % 128 = 0x20 := by subst hn; exact pack_mod [(32, 7)] _ hk
  have f0 : fld nn 27 5 = 3 := by subst hn; exact pack_field [(32, 7), (d.val, 5), (a.val, 5), (b.val, 5), (k.val, 3), (ea.toNat, 1), (eb.toNat, 1)] [(3, 5)] _ hk
  have hd : V3.dec nn = ⟨eb, ea, k, b, a, d⟩ := by
    subst hn; simp only [V3.dec, V3.mk.injEq]
    exact ⟨decide_bool _ _ (pack_one [(32, 7), (d.val, 5), (a.val, 5), (b.val, 5), (k.val, 3), (ea.toNat, 1)] _ _ 1 hk),
      decide_bool _ _ (pack_one [(32, 7), (d.val, 5), (a.val, 5), (b.val, 5), (k.val, 3)] _ _ 1 hk),
      fin_of _ _ _ (pack_one [(32, 7), (d.val, 5), (a.val, 5), (b.val, 5)] _ _ 3 hk),
      fin_of _ _ _ (pack_one [(32, 7), (d.val, 5), (a.val, 5)] _ _ 5 hk),
      fin_of _ _ _ (pack_one [(32, 7), (d.val, 5)] _ _ 5 hk),
      fin_of _ _ _ (pack_one [(32, 7)] _ _ 5 hk)⟩
  rw [rowOf_20 _ h0]
  simp [rowVv, f0, hd]

theorem vmax (x : V3) : Statement (.vmax x) := by
  intro w hw h
  simp only [encode, Option.some.injEq] at h
  subst h
  obtain ⟨eb, ea, k, b, a, d⟩ := x
  have hk : Packed [(32, 7), (d.val, 5), (a.val, 5), (b.val, 5), (k.val, 3), (ea.toNat, 1), (eb.toNat, 1), (4, 5)] :=
    ⟨by decide, d.isLt, a.isLt, b.isLt, k.isLt, bool_lt_two ea, bool_lt_two eb, by decide, trivial⟩
  refine decode_of_pack _ [(32, 7), (d.val, 5), (a.val, 5), (b.val, 5), (k.val, 3), (ea.toNat, 1), (eb.toNat, 1), (4, 5)] _ (by simp only [V3.enc, pack]; omega) hk rfl ?_ hw
  generalize hn : pack [(32, 7), (d.val, 5), (a.val, 5), (b.val, 5), (k.val, 3), (ea.toNat, 1), (eb.toNat, 1), (4, 5)] = nn at *
  have h0 : nn % 128 = 0x20 := by subst hn; exact pack_mod [(32, 7)] _ hk
  have f0 : fld nn 27 5 = 4 := by subst hn; exact pack_field [(32, 7), (d.val, 5), (a.val, 5), (b.val, 5), (k.val, 3), (ea.toNat, 1), (eb.toNat, 1)] [(4, 5)] _ hk
  have hd : V3.dec nn = ⟨eb, ea, k, b, a, d⟩ := by
    subst hn; simp only [V3.dec, V3.mk.injEq]
    exact ⟨decide_bool _ _ (pack_one [(32, 7), (d.val, 5), (a.val, 5), (b.val, 5), (k.val, 3), (ea.toNat, 1)] _ _ 1 hk),
      decide_bool _ _ (pack_one [(32, 7), (d.val, 5), (a.val, 5), (b.val, 5), (k.val, 3)] _ _ 1 hk),
      fin_of _ _ _ (pack_one [(32, 7), (d.val, 5), (a.val, 5), (b.val, 5)] _ _ 3 hk),
      fin_of _ _ _ (pack_one [(32, 7), (d.val, 5), (a.val, 5)] _ _ 5 hk),
      fin_of _ _ _ (pack_one [(32, 7), (d.val, 5)] _ _ 5 hk),
      fin_of _ _ _ (pack_one [(32, 7)] _ _ 5 hk)⟩
  rw [rowOf_20 _ h0]
  simp [rowVv, f0, hd]

theorem vand (x : V3) : Statement (.vand x) := by
  intro w hw h
  simp only [encode, Option.some.injEq] at h
  subst h
  obtain ⟨eb, ea, k, b, a, d⟩ := x
  have hk : Packed [(32, 7), (d.val, 5), (a.val, 5), (b.val, 5), (k.val, 3), (ea.toNat, 1), (eb.toNat, 1), (5, 5)] :=
    ⟨by decide, d.isLt, a.isLt, b.isLt, k.isLt, bool_lt_two ea, bool_lt_two eb, by decide, trivial⟩
  refine decode_of_pack _ [(32, 7), (d.val, 5), (a.val, 5), (b.val, 5), (k.val, 3), (ea.toNat, 1), (eb.toNat, 1), (5, 5)] _ (by simp only [V3.enc, pack]; omega) hk rfl ?_ hw
  generalize hn : pack [(32, 7), (d.val, 5), (a.val, 5), (b.val, 5), (k.val, 3), (ea.toNat, 1), (eb.toNat, 1), (5, 5)] = nn at *
  have h0 : nn % 128 = 0x20 := by subst hn; exact pack_mod [(32, 7)] _ hk
  have f0 : fld nn 27 5 = 5 := by subst hn; exact pack_field [(32, 7), (d.val, 5), (a.val, 5), (b.val, 5), (k.val, 3), (ea.toNat, 1), (eb.toNat, 1)] [(5, 5)] _ hk
  have hd : V3.dec nn = ⟨eb, ea, k, b, a, d⟩ := by
    subst hn; simp only [V3.dec, V3.mk.injEq]
    exact ⟨decide_bool _ _ (pack_one [(32, 7), (d.val, 5), (a.val, 5), (b.val, 5), (k.val, 3), (ea.toNat, 1)] _ _ 1 hk),
      decide_bool _ _ (pack_one [(32, 7), (d.val, 5), (a.val, 5), (b.val, 5), (k.val, 3)] _ _ 1 hk),
      fin_of _ _ _ (pack_one [(32, 7), (d.val, 5), (a.val, 5), (b.val, 5)] _ _ 3 hk),
      fin_of _ _ _ (pack_one [(32, 7), (d.val, 5), (a.val, 5)] _ _ 5 hk),
      fin_of _ _ _ (pack_one [(32, 7), (d.val, 5)] _ _ 5 hk),
      fin_of _ _ _ (pack_one [(32, 7)] _ _ 5 hk)⟩
  rw [rowOf_20 _ h0]
  simp [rowVv, f0, hd]

theorem vor (x : V3) : Statement (.vor x) := by
  intro w hw h
  simp only [encode, Option.some.injEq] at h
  subst h
  obtain ⟨eb, ea, k, b, a, d⟩ := x
  have hk : Packed [(32, 7), (d.val, 5), (a.val, 5), (b.val, 5), (k.val, 3), (ea.toNat, 1), (eb.toNat, 1), (6, 5)] :=
    ⟨by decide, d.isLt, a.isLt, b.isLt, k.isLt, bool_lt_two ea, bool_lt_two eb, by decide, trivial⟩
  refine decode_of_pack _ [(32, 7), (d.val, 5), (a.val, 5), (b.val, 5), (k.val, 3), (ea.toNat, 1), (eb.toNat, 1), (6, 5)] _ (by simp only [V3.enc, pack]; omega) hk rfl ?_ hw
  generalize hn : pack [(32, 7), (d.val, 5), (a.val, 5), (b.val, 5), (k.val, 3), (ea.toNat, 1), (eb.toNat, 1), (6, 5)] = nn at *
  have h0 : nn % 128 = 0x20 := by subst hn; exact pack_mod [(32, 7)] _ hk
  have f0 : fld nn 27 5 = 6 := by subst hn; exact pack_field [(32, 7), (d.val, 5), (a.val, 5), (b.val, 5), (k.val, 3), (ea.toNat, 1), (eb.toNat, 1)] [(6, 5)] _ hk
  have hd : V3.dec nn = ⟨eb, ea, k, b, a, d⟩ := by
    subst hn; simp only [V3.dec, V3.mk.injEq]
    exact ⟨decide_bool _ _ (pack_one [(32, 7), (d.val, 5), (a.val, 5), (b.val, 5), (k.val, 3), (ea.toNat, 1)] _ _ 1 hk),
      decide_bool _ _ (pack_one [(32, 7), (d.val, 5), (a.val, 5), (b.val, 5), (k.val, 3)] _ _ 1 hk),
      fin_of _ _ _ (pack_one [(32, 7), (d.val, 5), (a.val, 5), (b.val, 5)] _ _ 3 hk),
      fin_of _ _ _ (pack_one [(32, 7), (d.val, 5), (a.val, 5)] _ _ 5 hk),
      fin_of _ _ _ (pack_one [(32, 7), (d.val, 5)] _ _ 5 hk),
      fin_of _ _ _ (pack_one [(32, 7)] _ _ 5 hk)⟩
  rw [rowOf_20 _ h0]
  simp [rowVv, f0, hd]

theorem vxor (x : V3) : Statement (.vxor x) := by
  intro w hw h
  simp only [encode, Option.some.injEq] at h
  subst h
  obtain ⟨eb, ea, k, b, a, d⟩ := x
  have hk : Packed [(32, 7), (d.val, 5), (a.val, 5), (b.val, 5), (k.val, 3), (ea.toNat, 1), (eb.toNat, 1), (7, 5)] :=
    ⟨by decide, d.isLt, a.isLt, b.isLt, k.isLt, bool_lt_two ea, bool_lt_two eb, by decide, trivial⟩
  refine decode_of_pack _ [(32, 7), (d.val, 5), (a.val, 5), (b.val, 5), (k.val, 3), (ea.toNat, 1), (eb.toNat, 1), (7, 5)] _ (by simp only [V3.enc, pack]; omega) hk rfl ?_ hw
  generalize hn : pack [(32, 7), (d.val, 5), (a.val, 5), (b.val, 5), (k.val, 3), (ea.toNat, 1), (eb.toNat, 1), (7, 5)] = nn at *
  have h0 : nn % 128 = 0x20 := by subst hn; exact pack_mod [(32, 7)] _ hk
  have f0 : fld nn 27 5 = 7 := by subst hn; exact pack_field [(32, 7), (d.val, 5), (a.val, 5), (b.val, 5), (k.val, 3), (ea.toNat, 1), (eb.toNat, 1)] [(7, 5)] _ hk
  have hd : V3.dec nn = ⟨eb, ea, k, b, a, d⟩ := by
    subst hn; simp only [V3.dec, V3.mk.injEq]
    exact ⟨decide_bool _ _ (pack_one [(32, 7), (d.val, 5), (a.val, 5), (b.val, 5), (k.val, 3), (ea.toNat, 1)] _ _ 1 hk),
      decide_bool _ _ (pack_one [(32, 7), (d.val, 5), (a.val, 5), (b.val, 5), (k.val, 3)] _ _ 1 hk),
      fin_of _ _ _ (pack_one [(32, 7), (d.val, 5), (a.val, 5), (b.val, 5)] _ _ 3 hk),
      fin_of _ _ _ (pack_one [(32, 7), (d.val, 5), (a.val, 5)] _ _ 5 hk),
      fin_of _ _ _ (pack_one [(32, 7), (d.val, 5)] _ _ 5 hk),
      fin_of _ _ _ (pack_one [(32, 7)] _ _ 5 hk)⟩
  rw [rowOf_20 _ h0]
  simp [rowVv, f0, hd]

theorem vshl (x : V3) : Statement (.vshl x) := by
  intro w hw h
  simp only [encode, Option.some.injEq] at h
  subst h
  obtain ⟨eb, ea, k, b, a, d⟩ := x
  have hk : Packed [(32, 7), (d.val, 5), (a.val, 5), (b.val, 5), (k.val, 3), (ea.toNat, 1), (eb.toNat, 1), (8, 5)] :=
    ⟨by decide, d.isLt, a.isLt, b.isLt, k.isLt, bool_lt_two ea, bool_lt_two eb, by decide, trivial⟩
  refine decode_of_pack _ [(32, 7), (d.val, 5), (a.val, 5), (b.val, 5), (k.val, 3), (ea.toNat, 1), (eb.toNat, 1), (8, 5)] _ (by simp only [V3.enc, pack]; omega) hk rfl ?_ hw
  generalize hn : pack [(32, 7), (d.val, 5), (a.val, 5), (b.val, 5), (k.val, 3), (ea.toNat, 1), (eb.toNat, 1), (8, 5)] = nn at *
  have h0 : nn % 128 = 0x20 := by subst hn; exact pack_mod [(32, 7)] _ hk
  have f0 : fld nn 27 5 = 8 := by subst hn; exact pack_field [(32, 7), (d.val, 5), (a.val, 5), (b.val, 5), (k.val, 3), (ea.toNat, 1), (eb.toNat, 1)] [(8, 5)] _ hk
  have hd : V3.dec nn = ⟨eb, ea, k, b, a, d⟩ := by
    subst hn; simp only [V3.dec, V3.mk.injEq]
    exact ⟨decide_bool _ _ (pack_one [(32, 7), (d.val, 5), (a.val, 5), (b.val, 5), (k.val, 3), (ea.toNat, 1)] _ _ 1 hk),
      decide_bool _ _ (pack_one [(32, 7), (d.val, 5), (a.val, 5), (b.val, 5), (k.val, 3)] _ _ 1 hk),
      fin_of _ _ _ (pack_one [(32, 7), (d.val, 5), (a.val, 5), (b.val, 5)] _ _ 3 hk),
      fin_of _ _ _ (pack_one [(32, 7), (d.val, 5), (a.val, 5)] _ _ 5 hk),
      fin_of _ _ _ (pack_one [(32, 7), (d.val, 5)] _ _ 5 hk),
      fin_of _ _ _ (pack_one [(32, 7)] _ _ 5 hk)⟩
  rw [rowOf_20 _ h0]
  simp [rowVv, f0, hd]

theorem vshr (x : V3) : Statement (.vshr x) := by
  intro w hw h
  simp only [encode, Option.some.injEq] at h
  subst h
  obtain ⟨eb, ea, k, b, a, d⟩ := x
  have hk : Packed [(32, 7), (d.val, 5), (a.val, 5), (b.val, 5), (k.val, 3), (ea.toNat, 1), (eb.toNat, 1), (9, 5)] :=
    ⟨by decide, d.isLt, a.isLt, b.isLt, k.isLt, bool_lt_two ea, bool_lt_two eb, by decide, trivial⟩
  refine decode_of_pack _ [(32, 7), (d.val, 5), (a.val, 5), (b.val, 5), (k.val, 3), (ea.toNat, 1), (eb.toNat, 1), (9, 5)] _ (by simp only [V3.enc, pack]; omega) hk rfl ?_ hw
  generalize hn : pack [(32, 7), (d.val, 5), (a.val, 5), (b.val, 5), (k.val, 3), (ea.toNat, 1), (eb.toNat, 1), (9, 5)] = nn at *
  have h0 : nn % 128 = 0x20 := by subst hn; exact pack_mod [(32, 7)] _ hk
  have f0 : fld nn 27 5 = 9 := by subst hn; exact pack_field [(32, 7), (d.val, 5), (a.val, 5), (b.val, 5), (k.val, 3), (ea.toNat, 1), (eb.toNat, 1)] [(9, 5)] _ hk
  have hd : V3.dec nn = ⟨eb, ea, k, b, a, d⟩ := by
    subst hn; simp only [V3.dec, V3.mk.injEq]
    exact ⟨decide_bool _ _ (pack_one [(32, 7), (d.val, 5), (a.val, 5), (b.val, 5), (k.val, 3), (ea.toNat, 1)] _ _ 1 hk),
      decide_bool _ _ (pack_one [(32, 7), (d.val, 5), (a.val, 5), (b.val, 5), (k.val, 3)] _ _ 1 hk),
      fin_of _ _ _ (pack_one [(32, 7), (d.val, 5), (a.val, 5), (b.val, 5)] _ _ 3 hk),
      fin_of _ _ _ (pack_one [(32, 7), (d.val, 5), (a.val, 5)] _ _ 5 hk),
      fin_of _ _ _ (pack_one [(32, 7), (d.val, 5)] _ _ 5 hk),
      fin_of _ _ _ (pack_one [(32, 7)] _ _ 5 hk)⟩
  rw [rowOf_20 _ h0]
  simp [rowVv, f0, hd]

theorem vsar (x : V3) : Statement (.vsar x) := by
  intro w hw h
  simp only [encode, Option.some.injEq] at h
  subst h
  obtain ⟨eb, ea, k, b, a, d⟩ := x
  have hk : Packed [(32, 7), (d.val, 5), (a.val, 5), (b.val, 5), (k.val, 3), (ea.toNat, 1), (eb.toNat, 1), (10, 5)] :=
    ⟨by decide, d.isLt, a.isLt, b.isLt, k.isLt, bool_lt_two ea, bool_lt_two eb, by decide, trivial⟩
  refine decode_of_pack _ [(32, 7), (d.val, 5), (a.val, 5), (b.val, 5), (k.val, 3), (ea.toNat, 1), (eb.toNat, 1), (10, 5)] _ (by simp only [V3.enc, pack]; omega) hk rfl ?_ hw
  generalize hn : pack [(32, 7), (d.val, 5), (a.val, 5), (b.val, 5), (k.val, 3), (ea.toNat, 1), (eb.toNat, 1), (10, 5)] = nn at *
  have h0 : nn % 128 = 0x20 := by subst hn; exact pack_mod [(32, 7)] _ hk
  have f0 : fld nn 27 5 = 10 := by subst hn; exact pack_field [(32, 7), (d.val, 5), (a.val, 5), (b.val, 5), (k.val, 3), (ea.toNat, 1), (eb.toNat, 1)] [(10, 5)] _ hk
  have hd : V3.dec nn = ⟨eb, ea, k, b, a, d⟩ := by
    subst hn; simp only [V3.dec, V3.mk.injEq]
    exact ⟨decide_bool _ _ (pack_one [(32, 7), (d.val, 5), (a.val, 5), (b.val, 5), (k.val, 3), (ea.toNat, 1)] _ _ 1 hk),
      decide_bool _ _ (pack_one [(32, 7), (d.val, 5), (a.val, 5), (b.val, 5), (k.val, 3)] _ _ 1 hk),
      fin_of _ _ _ (pack_one [(32, 7), (d.val, 5), (a.val, 5), (b.val, 5)] _ _ 3 hk),
      fin_of _ _ _ (pack_one [(32, 7), (d.val, 5), (a.val, 5)] _ _ 5 hk),
      fin_of _ _ _ (pack_one [(32, 7), (d.val, 5)] _ _ 5 hk),
      fin_of _ _ _ (pack_one [(32, 7)] _ _ 5 hk)⟩
  rw [rowOf_20 _ h0]
  simp [rowVv, f0, hd]

theorem vabd (x : V3) : Statement (.vabd x) := by
  intro w hw h
  simp only [encode, Option.some.injEq] at h
  subst h
  obtain ⟨eb, ea, k, b, a, d⟩ := x
  have hk : Packed [(32, 7), (d.val, 5), (a.val, 5), (b.val, 5), (k.val, 3), (ea.toNat, 1), (eb.toNat, 1), (11, 5)] :=
    ⟨by decide, d.isLt, a.isLt, b.isLt, k.isLt, bool_lt_two ea, bool_lt_two eb, by decide, trivial⟩
  refine decode_of_pack _ [(32, 7), (d.val, 5), (a.val, 5), (b.val, 5), (k.val, 3), (ea.toNat, 1), (eb.toNat, 1), (11, 5)] _ (by simp only [V3.enc, pack]; omega) hk rfl ?_ hw
  generalize hn : pack [(32, 7), (d.val, 5), (a.val, 5), (b.val, 5), (k.val, 3), (ea.toNat, 1), (eb.toNat, 1), (11, 5)] = nn at *
  have h0 : nn % 128 = 0x20 := by subst hn; exact pack_mod [(32, 7)] _ hk
  have f0 : fld nn 27 5 = 11 := by subst hn; exact pack_field [(32, 7), (d.val, 5), (a.val, 5), (b.val, 5), (k.val, 3), (ea.toNat, 1), (eb.toNat, 1)] [(11, 5)] _ hk
  have hd : V3.dec nn = ⟨eb, ea, k, b, a, d⟩ := by
    subst hn; simp only [V3.dec, V3.mk.injEq]
    exact ⟨decide_bool _ _ (pack_one [(32, 7), (d.val, 5), (a.val, 5), (b.val, 5), (k.val, 3), (ea.toNat, 1)] _ _ 1 hk),
      decide_bool _ _ (pack_one [(32, 7), (d.val, 5), (a.val, 5), (b.val, 5), (k.val, 3)] _ _ 1 hk),
      fin_of _ _ _ (pack_one [(32, 7), (d.val, 5), (a.val, 5), (b.val, 5)] _ _ 3 hk),
      fin_of _ _ _ (pack_one [(32, 7), (d.val, 5), (a.val, 5)] _ _ 5 hk),
      fin_of _ _ _ (pack_one [(32, 7), (d.val, 5)] _ _ 5 hk),
      fin_of _ _ _ (pack_one [(32, 7)] _ _ 5 hk)⟩
  rw [rowOf_20 _ h0]
  simp [rowVv, f0, hd]

theorem vavg (x : V3) : Statement (.vavg x) := by
  intro w hw h
  simp only [encode, Option.some.injEq] at h
  subst h
  obtain ⟨eb, ea, k, b, a, d⟩ := x
  have hk : Packed [(32, 7), (d.val, 5), (a.val, 5), (b.val, 5), (k.val, 3), (ea.toNat, 1), (eb.toNat, 1), (12, 5)] :=
    ⟨by decide, d.isLt, a.isLt, b.isLt, k.isLt, bool_lt_two ea, bool_lt_two eb, by decide, trivial⟩
  refine decode_of_pack _ [(32, 7), (d.val, 5), (a.val, 5), (b.val, 5), (k.val, 3), (ea.toNat, 1), (eb.toNat, 1), (12, 5)] _ (by simp only [V3.enc, pack]; omega) hk rfl ?_ hw
  generalize hn : pack [(32, 7), (d.val, 5), (a.val, 5), (b.val, 5), (k.val, 3), (ea.toNat, 1), (eb.toNat, 1), (12, 5)] = nn at *
  have h0 : nn % 128 = 0x20 := by subst hn; exact pack_mod [(32, 7)] _ hk
  have f0 : fld nn 27 5 = 12 := by subst hn; exact pack_field [(32, 7), (d.val, 5), (a.val, 5), (b.val, 5), (k.val, 3), (ea.toNat, 1), (eb.toNat, 1)] [(12, 5)] _ hk
  have hd : V3.dec nn = ⟨eb, ea, k, b, a, d⟩ := by
    subst hn; simp only [V3.dec, V3.mk.injEq]
    exact ⟨decide_bool _ _ (pack_one [(32, 7), (d.val, 5), (a.val, 5), (b.val, 5), (k.val, 3), (ea.toNat, 1)] _ _ 1 hk),
      decide_bool _ _ (pack_one [(32, 7), (d.val, 5), (a.val, 5), (b.val, 5), (k.val, 3)] _ _ 1 hk),
      fin_of _ _ _ (pack_one [(32, 7), (d.val, 5), (a.val, 5), (b.val, 5)] _ _ 3 hk),
      fin_of _ _ _ (pack_one [(32, 7), (d.val, 5), (a.val, 5)] _ _ 5 hk),
      fin_of _ _ _ (pack_one [(32, 7), (d.val, 5)] _ _ 5 hk),
      fin_of _ _ _ (pack_one [(32, 7)] _ _ 5 hk)⟩
  rw [rowOf_20 _ h0]
  simp [rowVv, f0, hd]

theorem vadds (x : V3) : Statement (.vadds x) := by
  intro w hw h
  simp only [encode, Option.some.injEq] at h
  subst h
  obtain ⟨eb, ea, k, b, a, d⟩ := x
  have hk : Packed [(32, 7), (d.val, 5), (a.val, 5), (b.val, 5), (k.val, 3), (ea.toNat, 1), (eb.toNat, 1), (13, 5)] :=
    ⟨by decide, d.isLt, a.isLt, b.isLt, k.isLt, bool_lt_two ea, bool_lt_two eb, by decide, trivial⟩
  refine decode_of_pack _ [(32, 7), (d.val, 5), (a.val, 5), (b.val, 5), (k.val, 3), (ea.toNat, 1), (eb.toNat, 1), (13, 5)] _ (by simp only [V3.enc, pack]; omega) hk rfl ?_ hw
  generalize hn : pack [(32, 7), (d.val, 5), (a.val, 5), (b.val, 5), (k.val, 3), (ea.toNat, 1), (eb.toNat, 1), (13, 5)] = nn at *
  have h0 : nn % 128 = 0x20 := by subst hn; exact pack_mod [(32, 7)] _ hk
  have f0 : fld nn 27 5 = 13 := by subst hn; exact pack_field [(32, 7), (d.val, 5), (a.val, 5), (b.val, 5), (k.val, 3), (ea.toNat, 1), (eb.toNat, 1)] [(13, 5)] _ hk
  have hd : V3.dec nn = ⟨eb, ea, k, b, a, d⟩ := by
    subst hn; simp only [V3.dec, V3.mk.injEq]
    exact ⟨decide_bool _ _ (pack_one [(32, 7), (d.val, 5), (a.val, 5), (b.val, 5), (k.val, 3), (ea.toNat, 1)] _ _ 1 hk),
      decide_bool _ _ (pack_one [(32, 7), (d.val, 5), (a.val, 5), (b.val, 5), (k.val, 3)] _ _ 1 hk),
      fin_of _ _ _ (pack_one [(32, 7), (d.val, 5), (a.val, 5), (b.val, 5)] _ _ 3 hk),
      fin_of _ _ _ (pack_one [(32, 7), (d.val, 5), (a.val, 5)] _ _ 5 hk),
      fin_of _ _ _ (pack_one [(32, 7), (d.val, 5)] _ _ 5 hk),
      fin_of _ _ _ (pack_one [(32, 7)] _ _ 5 hk)⟩
  rw [rowOf_20 _ h0]
  simp [rowVv, f0, hd]

theorem vsubs (x : V3) : Statement (.vsubs x) := by
  intro w hw h
  simp only [encode, Option.some.injEq] at h
  subst h
  obtain ⟨eb, ea, k, b, a, d⟩ := x
  have hk : Packed [(32, 7), (d.val, 5), (a.val, 5), (b.val, 5), (k.val, 3), (ea.toNat, 1), (eb.toNat, 1), (14, 5)] :=
    ⟨by decide, d.isLt, a.isLt, b.isLt, k.isLt, bool_lt_two ea, bool_lt_two eb, by decide, trivial⟩
  refine decode_of_pack _ [(32, 7), (d.val, 5), (a.val, 5), (b.val, 5), (k.val, 3), (ea.toNat, 1), (eb.toNat, 1), (14, 5)] _ (by simp only [V3.enc, pack]; omega) hk rfl ?_ hw
  generalize hn : pack [(32, 7), (d.val, 5), (a.val, 5), (b.val, 5), (k.val, 3), (ea.toNat, 1), (eb.toNat, 1), (14, 5)] = nn at *
  have h0 : nn % 128 = 0x20 := by subst hn; exact pack_mod [(32, 7)] _ hk
  have f0 : fld nn 27 5 = 14 := by subst hn; exact pack_field [(32, 7), (d.val, 5), (a.val, 5), (b.val, 5), (k.val, 3), (ea.toNat, 1), (eb.toNat, 1)] [(14, 5)] _ hk
  have hd : V3.dec nn = ⟨eb, ea, k, b, a, d⟩ := by
    subst hn; simp only [V3.dec, V3.mk.injEq]
    exact ⟨decide_bool _ _ (pack_one [(32, 7), (d.val, 5), (a.val, 5), (b.val, 5), (k.val, 3), (ea.toNat, 1)] _ _ 1 hk),
      decide_bool _ _ (pack_one [(32, 7), (d.val, 5), (a.val, 5), (b.val, 5), (k.val, 3)] _ _ 1 hk),
      fin_of _ _ _ (pack_one [(32, 7), (d.val, 5), (a.val, 5), (b.val, 5)] _ _ 3 hk),
      fin_of _ _ _ (pack_one [(32, 7), (d.val, 5), (a.val, 5)] _ _ 5 hk),
      fin_of _ _ _ (pack_one [(32, 7), (d.val, 5)] _ _ 5 hk),
      fin_of _ _ _ (pack_one [(32, 7)] _ _ 5 hk)⟩
  rw [rowOf_20 _ h0]
  simp [rowVv, f0, hd]

theorem vmulh (x : V3) : Statement (.vmulh x) := by
  intro w hw h
  simp only [encode, Option.some.injEq] at h
  subst h
  obtain ⟨eb, ea, k, b, a, d⟩ := x
  have hk : Packed [(32, 7), (d.val, 5), (a.val, 5), (b.val, 5), (k.val, 3), (ea.toNat, 1), (eb.toNat, 1), (15, 5)] :=
    ⟨by decide, d.isLt, a.isLt, b.isLt, k.isLt, bool_lt_two ea, bool_lt_two eb, by decide, trivial⟩
  refine decode_of_pack _ [(32, 7), (d.val, 5), (a.val, 5), (b.val, 5), (k.val, 3), (ea.toNat, 1), (eb.toNat, 1), (15, 5)] _ (by simp only [V3.enc, pack]; omega) hk rfl ?_ hw
  generalize hn : pack [(32, 7), (d.val, 5), (a.val, 5), (b.val, 5), (k.val, 3), (ea.toNat, 1), (eb.toNat, 1), (15, 5)] = nn at *
  have h0 : nn % 128 = 0x20 := by subst hn; exact pack_mod [(32, 7)] _ hk
  have f0 : fld nn 27 5 = 15 := by subst hn; exact pack_field [(32, 7), (d.val, 5), (a.val, 5), (b.val, 5), (k.val, 3), (ea.toNat, 1), (eb.toNat, 1)] [(15, 5)] _ hk
  have hd : V3.dec nn = ⟨eb, ea, k, b, a, d⟩ := by
    subst hn; simp only [V3.dec, V3.mk.injEq]
    exact ⟨decide_bool _ _ (pack_one [(32, 7), (d.val, 5), (a.val, 5), (b.val, 5), (k.val, 3), (ea.toNat, 1)] _ _ 1 hk),
      decide_bool _ _ (pack_one [(32, 7), (d.val, 5), (a.val, 5), (b.val, 5), (k.val, 3)] _ _ 1 hk),
      fin_of _ _ _ (pack_one [(32, 7), (d.val, 5), (a.val, 5), (b.val, 5)] _ _ 3 hk),
      fin_of _ _ _ (pack_one [(32, 7), (d.val, 5), (a.val, 5)] _ _ 5 hk),
      fin_of _ _ _ (pack_one [(32, 7), (d.val, 5)] _ _ 5 hk),
      fin_of _ _ _ (pack_one [(32, 7)] _ _ 5 hk)⟩
  rw [rowOf_20 _ h0]
  simp [rowVv, f0, hd]

theorem vaddS (x : V3) : Statement (.vaddS x) := by
  intro w hw h
  simp only [encode, Option.some.injEq] at h
  subst h
  obtain ⟨eb, ea, k, b, a, d⟩ := x
  have hk : Packed [(33, 7), (d.val, 5), (a.val, 5), (b.val, 5), (k.val, 3), (ea.toNat, 1), (eb.toNat, 1), (0, 5)] :=
    ⟨by decide, d.isLt, a.isLt, b.isLt, k.isLt, bool_lt_two ea, bool_lt_two eb, by decide, trivial⟩
  refine decode_of_pack _ [(33, 7), (d.val, 5), (a.val, 5), (b.val, 5), (k.val, 3), (ea.toNat, 1), (eb.toNat, 1), (0, 5)] _ (by simp only [V3.enc, pack]; omega) hk rfl ?_ hw
  generalize hn : pack [(33, 7), (d.val, 5), (a.val, 5), (b.val, 5), (k.val, 3), (ea.toNat, 1), (eb.toNat, 1), (0, 5)] = nn at *
  have h0 : nn % 128 = 0x21 := by subst hn; exact pack_mod [(33, 7)] _ hk
  have f0 : fld nn 27 5 = 0 := by subst hn; exact pack_field [(33, 7), (d.val, 5), (a.val, 5), (b.val, 5), (k.val, 3), (ea.toNat, 1), (eb.toNat, 1)] [(0, 5)] _ hk
  have hd : V3.dec nn = ⟨eb, ea, k, b, a, d⟩ := by
    subst hn; simp only [V3.dec, V3.mk.injEq]
    exact ⟨decide_bool _ _ (pack_one [(33, 7), (d.val, 5), (a.val, 5), (b.val, 5), (k.val, 3), (ea.toNat, 1)] _ _ 1 hk),
      decide_bool _ _ (pack_one [(33, 7), (d.val, 5), (a.val, 5), (b.val, 5), (k.val, 3)] _ _ 1 hk),
      fin_of _ _ _ (pack_one [(33, 7), (d.val, 5), (a.val, 5), (b.val, 5)] _ _ 3 hk),
      fin_of _ _ _ (pack_one [(33, 7), (d.val, 5), (a.val, 5)] _ _ 5 hk),
      fin_of _ _ _ (pack_one [(33, 7), (d.val, 5)] _ _ 5 hk),
      fin_of _ _ _ (pack_one [(33, 7)] _ _ 5 hk)⟩
  rw [rowOf_21 _ h0]
  simp [rowVs, f0, hd]

theorem vsubS (x : V3) : Statement (.vsubS x) := by
  intro w hw h
  simp only [encode, Option.some.injEq] at h
  subst h
  obtain ⟨eb, ea, k, b, a, d⟩ := x
  have hk : Packed [(33, 7), (d.val, 5), (a.val, 5), (b.val, 5), (k.val, 3), (ea.toNat, 1), (eb.toNat, 1), (1, 5)] :=
    ⟨by decide, d.isLt, a.isLt, b.isLt, k.isLt, bool_lt_two ea, bool_lt_two eb, by decide, trivial⟩
  refine decode_of_pack _ [(33, 7), (d.val, 5), (a.val, 5), (b.val, 5), (k.val, 3), (ea.toNat, 1), (eb.toNat, 1), (1, 5)] _ (by simp only [V3.enc, pack]; omega) hk rfl ?_ hw
  generalize hn : pack [(33, 7), (d.val, 5), (a.val, 5), (b.val, 5), (k.val, 3), (ea.toNat, 1), (eb.toNat, 1), (1, 5)] = nn at *
  have h0 : nn % 128 = 0x21 := by subst hn; exact pack_mod [(33, 7)] _ hk
  have f0 : fld nn 27 5 = 1 := by subst hn; exact pack_field [(33, 7), (d.val, 5), (a.val, 5), (b.val, 5), (k.val, 3), (ea.toNat, 1), (eb.toNat, 1)] [(1, 5)] _ hk
  have hd : V3.dec nn = ⟨eb, ea, k, b, a, d⟩ := by
    subst hn; simp only [V3.dec, V3.mk.injEq]
    exact ⟨decide_bool _ _ (pack_one [(33, 7), (d.val, 5), (a.val, 5), (b.val, 5), (k.val, 3), (ea.toNat, 1)] _ _ 1 hk),
      decide_bool _ _ (pack_one [(33, 7), (d.val, 5), (a.val, 5), (b.val, 5), (k.val, 3)] _ _ 1 hk),
      fin_of _ _ _ (pack_one [(33, 7), (d.val, 5), (a.val, 5), (b.val, 5)] _ _ 3 hk),
      fin_of _ _ _ (pack_one [(33, 7), (d.val, 5), (a.val, 5)] _ _ 5 hk),
      fin_of _ _ _ (pack_one [(33, 7), (d.val, 5)] _ _ 5 hk),
      fin_of _ _ _ (pack_one [(33, 7)] _ _ 5 hk)⟩
  rw [rowOf_21 _ h0]
  simp [rowVs, f0, hd]

theorem vmulS (x : V3) : Statement (.vmulS x) := by
  intro w hw h
  simp only [encode, Option.some.injEq] at h
  subst h
  obtain ⟨eb, ea, k, b, a, d⟩ := x
  have hk : Packed [(33, 7), (d.val, 5), (a.val, 5), (b.val, 5), (k.val, 3), (ea.toNat, 1), (eb.toNat, 1), (2, 5)] :=
    ⟨by decide, d.isLt, a.isLt, b.isLt, k.isLt, bool_lt_two ea, bool_lt_two eb, by decide, trivial⟩
  refine decode_of_pack _ [(33, 7), (d.val, 5), (a.val, 5), (b.val, 5), (k.val, 3), (ea.toNat, 1), (eb.toNat, 1), (2, 5)] _ (by simp only [V3.enc, pack]; omega) hk rfl ?_ hw
  generalize hn : pack [(33, 7), (d.val, 5), (a.val, 5), (b.val, 5), (k.val, 3), (ea.toNat, 1), (eb.toNat, 1), (2, 5)] = nn at *
  have h0 : nn % 128 = 0x21 := by subst hn; exact pack_mod [(33, 7)] _ hk
  have f0 : fld nn 27 5 = 2 := by subst hn; exact pack_field [(33, 7), (d.val, 5), (a.val, 5), (b.val, 5), (k.val, 3), (ea.toNat, 1), (eb.toNat, 1)] [(2, 5)] _ hk
  have hd : V3.dec nn = ⟨eb, ea, k, b, a, d⟩ := by
    subst hn; simp only [V3.dec, V3.mk.injEq]
    exact ⟨decide_bool _ _ (pack_one [(33, 7), (d.val, 5), (a.val, 5), (b.val, 5), (k.val, 3), (ea.toNat, 1)] _ _ 1 hk),
      decide_bool _ _ (pack_one [(33, 7), (d.val, 5), (a.val, 5), (b.val, 5), (k.val, 3)] _ _ 1 hk),
      fin_of _ _ _ (pack_one [(33, 7), (d.val, 5), (a.val, 5), (b.val, 5)] _ _ 3 hk),
      fin_of _ _ _ (pack_one [(33, 7), (d.val, 5), (a.val, 5)] _ _ 5 hk),
      fin_of _ _ _ (pack_one [(33, 7), (d.val, 5)] _ _ 5 hk),
      fin_of _ _ _ (pack_one [(33, 7)] _ _ 5 hk)⟩
  rw [rowOf_21 _ h0]
  simp [rowVs, f0, hd]

theorem vminS (x : V3) : Statement (.vminS x) := by
  intro w hw h
  simp only [encode, Option.some.injEq] at h
  subst h
  obtain ⟨eb, ea, k, b, a, d⟩ := x
  have hk : Packed [(33, 7), (d.val, 5), (a.val, 5), (b.val, 5), (k.val, 3), (ea.toNat, 1), (eb.toNat, 1), (3, 5)] :=
    ⟨by decide, d.isLt, a.isLt, b.isLt, k.isLt, bool_lt_two ea, bool_lt_two eb, by decide, trivial⟩
  refine decode_of_pack _ [(33, 7), (d.val, 5), (a.val, 5), (b.val, 5), (k.val, 3), (ea.toNat, 1), (eb.toNat, 1), (3, 5)] _ (by simp only [V3.enc, pack]; omega) hk rfl ?_ hw
  generalize hn : pack [(33, 7), (d.val, 5), (a.val, 5), (b.val, 5), (k.val, 3), (ea.toNat, 1), (eb.toNat, 1), (3, 5)] = nn at *
  have h0 : nn % 128 = 0x21 := by subst hn; exact pack_mod [(33, 7)] _ hk
  have f0 : fld nn 27 5 = 3 := by subst hn; exact pack_field [(33, 7), (d.val, 5), (a.val, 5), (b.val, 5), (k.val, 3), (ea.toNat, 1), (eb.toNat, 1)] [(3, 5)] _ hk
  have hd : V3.dec nn = ⟨eb, ea, k, b, a, d⟩ := by
    subst hn; simp only [V3.dec, V3.mk.injEq]
    exact ⟨decide_bool _ _ (pack_one [(33, 7), (d.val, 5), (a.val, 5), (b.val, 5), (k.val, 3), (ea.toNat, 1)] _ _ 1 hk),
      decide_bool _ _ (pack_one [(33, 7), (d.val, 5), (a.val, 5), (b.val, 5), (k.val, 3)] _ _ 1 hk),
      fin_of _ _ _ (pack_one [(33, 7), (d.val, 5), (a.val, 5), (b.val, 5)] _ _ 3 hk),
      fin_of _ _ _ (pack_one [(33, 7), (d.val, 5), (a.val, 5)] _ _ 5 hk),
      fin_of _ _ _ (pack_one [(33, 7), (d.val, 5)] _ _ 5 hk),
      fin_of _ _ _ (pack_one [(33, 7)] _ _ 5 hk)⟩
  rw [rowOf_21 _ h0]
  simp [rowVs, f0, hd]

theorem vmaxS (x : V3) : Statement (.vmaxS x) := by
  intro w hw h
  simp only [encode, Option.some.injEq] at h
  subst h
  obtain ⟨eb, ea, k, b, a, d⟩ := x
  have hk : Packed [(33, 7), (d.val, 5), (a.val, 5), (b.val, 5), (k.val, 3), (ea.toNat, 1), (eb.toNat, 1), (4, 5)] :=
    ⟨by decide, d.isLt, a.isLt, b.isLt, k.isLt, bool_lt_two ea, bool_lt_two eb, by decide, trivial⟩
  refine decode_of_pack _ [(33, 7), (d.val, 5), (a.val, 5), (b.val, 5), (k.val, 3), (ea.toNat, 1), (eb.toNat, 1), (4, 5)] _ (by simp only [V3.enc, pack]; omega) hk rfl ?_ hw
  generalize hn : pack [(33, 7), (d.val, 5), (a.val, 5), (b.val, 5), (k.val, 3), (ea.toNat, 1), (eb.toNat, 1), (4, 5)] = nn at *
  have h0 : nn % 128 = 0x21 := by subst hn; exact pack_mod [(33, 7)] _ hk
  have f0 : fld nn 27 5 = 4 := by subst hn; exact pack_field [(33, 7), (d.val, 5), (a.val, 5), (b.val, 5), (k.val, 3), (ea.toNat, 1), (eb.toNat, 1)] [(4, 5)] _ hk
  have hd : V3.dec nn = ⟨eb, ea, k, b, a, d⟩ := by
    subst hn; simp only [V3.dec, V3.mk.injEq]
    exact ⟨decide_bool _ _ (pack_one [(33, 7), (d.val, 5), (a.val, 5), (b.val, 5), (k.val, 3), (ea.toNat, 1)] _ _ 1 hk),
      decide_bool _ _ (pack_one [(33, 7), (d.val, 5), (a.val, 5), (b.val, 5), (k.val, 3)] _ _ 1 hk),
      fin_of _ _ _ (pack_one [(33, 7), (d.val, 5), (a.val, 5), (b.val, 5)] _ _ 3 hk),
      fin_of _ _ _ (pack_one [(33, 7), (d.val, 5), (a.val, 5)] _ _ 5 hk),
      fin_of _ _ _ (pack_one [(33, 7), (d.val, 5)] _ _ 5 hk),
      fin_of _ _ _ (pack_one [(33, 7)] _ _ 5 hk)⟩
  rw [rowOf_21 _ h0]
  simp [rowVs, f0, hd]

theorem vandS (x : V3) : Statement (.vandS x) := by
  intro w hw h
  simp only [encode, Option.some.injEq] at h
  subst h
  obtain ⟨eb, ea, k, b, a, d⟩ := x
  have hk : Packed [(33, 7), (d.val, 5), (a.val, 5), (b.val, 5), (k.val, 3), (ea.toNat, 1), (eb.toNat, 1), (5, 5)] :=
    ⟨by decide, d.isLt, a.isLt, b.isLt, k.isLt, bool_lt_two ea, bool_lt_two eb, by decide, trivial⟩
  refine decode_of_pack _ [(33, 7), (d.val, 5), (a.val, 5), (b.val, 5), (k.val, 3), (ea.toNat, 1), (eb.toNat, 1), (5, 5)] _ (by simp only [V3.enc, pack]; omega) hk rfl ?_ hw
  generalize hn : pack [(33, 7), (d.val, 5), (a.val, 5), (b.val, 5), (k.val, 3), (ea.toNat, 1), (eb.toNat, 1), (5, 5)] = nn at *
  have h0 : nn % 128 = 0x21 := by subst hn; exact pack_mod [(33, 7)] _ hk
  have f0 : fld nn 27 5 = 5 := by subst hn; exact pack_field [(33, 7), (d.val, 5), (a.val, 5), (b.val, 5), (k.val, 3), (ea.toNat, 1), (eb.toNat, 1)] [(5, 5)] _ hk
  have hd : V3.dec nn = ⟨eb, ea, k, b, a, d⟩ := by
    subst hn; simp only [V3.dec, V3.mk.injEq]
    exact ⟨decide_bool _ _ (pack_one [(33, 7), (d.val, 5), (a.val, 5), (b.val, 5), (k.val, 3), (ea.toNat, 1)] _ _ 1 hk),
      decide_bool _ _ (pack_one [(33, 7), (d.val, 5), (a.val, 5), (b.val, 5), (k.val, 3)] _ _ 1 hk),
      fin_of _ _ _ (pack_one [(33, 7), (d.val, 5), (a.val, 5), (b.val, 5)] _ _ 3 hk),
      fin_of _ _ _ (pack_one [(33, 7), (d.val, 5), (a.val, 5)] _ _ 5 hk),
      fin_of _ _ _ (pack_one [(33, 7), (d.val, 5)] _ _ 5 hk),
      fin_of _ _ _ (pack_one [(33, 7)] _ _ 5 hk)⟩
  rw [rowOf_21 _ h0]
  simp [rowVs, f0, hd]

theorem vorS (x : V3) : Statement (.vorS x) := by
  intro w hw h
  simp only [encode, Option.some.injEq] at h
  subst h
  obtain ⟨eb, ea, k, b, a, d⟩ := x
  have hk : Packed [(33, 7), (d.val, 5), (a.val, 5), (b.val, 5), (k.val, 3), (ea.toNat, 1), (eb.toNat, 1), (6, 5)] :=
    ⟨by decide, d.isLt, a.isLt, b.isLt, k.isLt, bool_lt_two ea, bool_lt_two eb, by decide, trivial⟩
  refine decode_of_pack _ [(33, 7), (d.val, 5), (a.val, 5), (b.val, 5), (k.val, 3), (ea.toNat, 1), (eb.toNat, 1), (6, 5)] _ (by simp only [V3.enc, pack]; omega) hk rfl ?_ hw
  generalize hn : pack [(33, 7), (d.val, 5), (a.val, 5), (b.val, 5), (k.val, 3), (ea.toNat, 1), (eb.toNat, 1), (6, 5)] = nn at *
  have h0 : nn % 128 = 0x21 := by subst hn; exact pack_mod [(33, 7)] _ hk
  have f0 : fld nn 27 5 = 6 := by subst hn; exact pack_field [(33, 7), (d.val, 5), (a.val, 5), (b.val, 5), (k.val, 3), (ea.toNat, 1), (eb.toNat, 1)] [(6, 5)] _ hk
  have hd : V3.dec nn = ⟨eb, ea, k, b, a, d⟩ := by
    subst hn; simp only [V3.dec, V3.mk.injEq]
    exact ⟨decide_bool _ _ (pack_one [(33, 7), (d.val, 5), (a.val, 5), (b.val, 5), (k.val, 3), (ea.toNat, 1)] _ _ 1 hk),
      decide_bool _ _ (pack_one [(33, 7), (d.val, 5), (a.val, 5), (b.val, 5), (k.val, 3)] _ _ 1 hk),
      fin_of _ _ _ (pack_one [(33, 7), (d.val, 5), (a.val, 5), (b.val, 5)] _ _ 3 hk),
      fin_of _ _ _ (pack_one [(33, 7), (d.val, 5), (a.val, 5)] _ _ 5 hk),
      fin_of _ _ _ (pack_one [(33, 7), (d.val, 5)] _ _ 5 hk),
      fin_of _ _ _ (pack_one [(33, 7)] _ _ 5 hk)⟩
  rw [rowOf_21 _ h0]
  simp [rowVs, f0, hd]

theorem vxorS (x : V3) : Statement (.vxorS x) := by
  intro w hw h
  simp only [encode, Option.some.injEq] at h
  subst h
  obtain ⟨eb, ea, k, b, a, d⟩ := x
  have hk : Packed [(33, 7), (d.val, 5), (a.val, 5), (b.val, 5), (k.val, 3), (ea.toNat, 1), (eb.toNat, 1), (7, 5)] :=
    ⟨by decide, d.isLt, a.isLt, b.isLt, k.isLt, bool_lt_two ea, bool_lt_two eb, by decide, trivial⟩
  refine decode_of_pack _ [(33, 7), (d.val, 5), (a.val, 5), (b.val, 5), (k.val, 3), (ea.toNat, 1), (eb.toNat, 1), (7, 5)] _ (by simp only [V3.enc, pack]; omega) hk rfl ?_ hw
  generalize hn : pack [(33, 7), (d.val, 5), (a.val, 5), (b.val, 5), (k.val, 3), (ea.toNat, 1), (eb.toNat, 1), (7, 5)] = nn at *
  have h0 : nn % 128 = 0x21 := by subst hn; exact pack_mod [(33, 7)] _ hk
  have f0 : fld nn 27 5 = 7 := by subst hn; exact pack_field [(33, 7), (d.val, 5), (a.val, 5), (b.val, 5), (k.val, 3), (ea.toNat, 1), (eb.toNat, 1)] [(7, 5)] _ hk
  have hd : V3.dec nn = ⟨eb, ea, k, b, a, d⟩ := by
    subst hn; simp only [V3.dec, V3.mk.injEq]
    exact ⟨decide_bool _ _ (pack_one [(33, 7), (d.val, 5), (a.val, 5), (b.val, 5), (k.val, 3), (ea.toNat, 1)] _ _ 1 hk),
      decide_bool _ _ (pack_one [(33, 7), (d.val, 5), (a.val, 5), (b.val, 5), (k.val, 3)] _ _ 1 hk),
      fin_of _ _ _ (pack_one [(33, 7), (d.val, 5), (a.val, 5), (b.val, 5)] _ _ 3 hk),
      fin_of _ _ _ (pack_one [(33, 7), (d.val, 5), (a.val, 5)] _ _ 5 hk),
      fin_of _ _ _ (pack_one [(33, 7), (d.val, 5)] _ _ 5 hk),
      fin_of _ _ _ (pack_one [(33, 7)] _ _ 5 hk)⟩
  rw [rowOf_21 _ h0]
  simp [rowVs, f0, hd]

theorem vshlS (x : V3) : Statement (.vshlS x) := by
  intro w hw h
  simp only [encode, Option.some.injEq] at h
  subst h
  obtain ⟨eb, ea, k, b, a, d⟩ := x
  have hk : Packed [(33, 7), (d.val, 5), (a.val, 5), (b.val, 5), (k.val, 3), (ea.toNat, 1), (eb.toNat, 1), (8, 5)] :=
    ⟨by decide, d.isLt, a.isLt, b.isLt, k.isLt, bool_lt_two ea, bool_lt_two eb, by decide, trivial⟩
  refine decode_of_pack _ [(33, 7), (d.val, 5), (a.val, 5), (b.val, 5), (k.val, 3), (ea.toNat, 1), (eb.toNat, 1), (8, 5)] _ (by simp only [V3.enc, pack]; omega) hk rfl ?_ hw
  generalize hn : pack [(33, 7), (d.val, 5), (a.val, 5), (b.val, 5), (k.val, 3), (ea.toNat, 1), (eb.toNat, 1), (8, 5)] = nn at *
  have h0 : nn % 128 = 0x21 := by subst hn; exact pack_mod [(33, 7)] _ hk
  have f0 : fld nn 27 5 = 8 := by subst hn; exact pack_field [(33, 7), (d.val, 5), (a.val, 5), (b.val, 5), (k.val, 3), (ea.toNat, 1), (eb.toNat, 1)] [(8, 5)] _ hk
  have hd : V3.dec nn = ⟨eb, ea, k, b, a, d⟩ := by
    subst hn; simp only [V3.dec, V3.mk.injEq]
    exact ⟨decide_bool _ _ (pack_one [(33, 7), (d.val, 5), (a.val, 5), (b.val, 5), (k.val, 3), (ea.toNat, 1)] _ _ 1 hk),
      decide_bool _ _ (pack_one [(33, 7), (d.val, 5), (a.val, 5), (b.val, 5), (k.val, 3)] _ _ 1 hk),
      fin_of _ _ _ (pack_one [(33, 7), (d.val, 5), (a.val, 5), (b.val, 5)] _ _ 3 hk),
      fin_of _ _ _ (pack_one [(33, 7), (d.val, 5), (a.val, 5)] _ _ 5 hk),
      fin_of _ _ _ (pack_one [(33, 7), (d.val, 5)] _ _ 5 hk),
      fin_of _ _ _ (pack_one [(33, 7)] _ _ 5 hk)⟩
  rw [rowOf_21 _ h0]
  simp [rowVs, f0, hd]

theorem vshrS (x : V3) : Statement (.vshrS x) := by
  intro w hw h
  simp only [encode, Option.some.injEq] at h
  subst h
  obtain ⟨eb, ea, k, b, a, d⟩ := x
  have hk : Packed [(33, 7), (d.val, 5), (a.val, 5), (b.val, 5), (k.val, 3), (ea.toNat, 1), (eb.toNat, 1), (9, 5)] :=
    ⟨by decide, d.isLt, a.isLt, b.isLt, k.isLt, bool_lt_two ea, bool_lt_two eb, by decide, trivial⟩
  refine decode_of_pack _ [(33, 7), (d.val, 5), (a.val, 5), (b.val, 5), (k.val, 3), (ea.toNat, 1), (eb.toNat, 1), (9, 5)] _ (by simp only [V3.enc, pack]; omega) hk rfl ?_ hw
  generalize hn : pack [(33, 7), (d.val, 5), (a.val, 5), (b.val, 5), (k.val, 3), (ea.toNat, 1), (eb.toNat, 1), (9, 5)] = nn at *
  have h0 : nn % 128 = 0x21 := by subst hn; exact pack_mod [(33, 7)] _ hk
  have f0 : fld nn 27 5 = 9 := by subst hn; exact pack_field [(33, 7), (d.val, 5), (a.val, 5), (b.val, 5), (k.val, 3), (ea.toNat, 1), (eb.toNat, 1)] [(9, 5)] _ hk
  have hd : V3.dec nn = ⟨eb, ea, k, b, a, d⟩ := by
    subst hn; simp only [V3.dec, V3.mk.injEq]
    exact ⟨decide_bool _ _ (pack_one [(33, 7), (d.val, 5), (a.val, 5), (b.val, 5), (k.val, 3), (ea.toNat, 1)] _ _ 1 hk),
      decide_bool _ _ (pack_one [(33, 7), (d.val, 5), (a.val, 5), (b.val, 5), (k.val, 3)] _ _ 1 hk),
      fin_of _ _ _ (pack_one [(33, 7), (d.val, 5), (a.val, 5), (b.val, 5)] _ _ 3 hk),
      fin_of _ _ _ (pack_one [(33, 7), (d.val, 5), (a.val, 5)] _ _ 5 hk),
      fin_of _ _ _ (pack_one [(33, 7), (d.val, 5)] _ _ 5 hk),
      fin_of _ _ _ (pack_one [(33, 7)] _ _ 5 hk)⟩
  rw [rowOf_21 _ h0]
  simp [rowVs, f0, hd]

theorem vsarS (x : V3) : Statement (.vsarS x) := by
  intro w hw h
  simp only [encode, Option.some.injEq] at h
  subst h
  obtain ⟨eb, ea, k, b, a, d⟩ := x
  have hk : Packed [(33, 7), (d.val, 5), (a.val, 5), (b.val, 5), (k.val, 3), (ea.toNat, 1), (eb.toNat, 1), (10, 5)] :=
    ⟨by decide, d.isLt, a.isLt, b.isLt, k.isLt, bool_lt_two ea, bool_lt_two eb, by decide, trivial⟩
  refine decode_of_pack _ [(33, 7), (d.val, 5), (a.val, 5), (b.val, 5), (k.val, 3), (ea.toNat, 1), (eb.toNat, 1), (10, 5)] _ (by simp only [V3.enc, pack]; omega) hk rfl ?_ hw
  generalize hn : pack [(33, 7), (d.val, 5), (a.val, 5), (b.val, 5), (k.val, 3), (ea.toNat, 1), (eb.toNat, 1), (10, 5)] = nn at *
  have h0 : nn % 128 = 0x21 := by subst hn; exact pack_mod [(33, 7)] _ hk
  have f0 : fld nn 27 5 = 10 := by subst hn; exact pack_field [(33, 7), (d.val, 5), (a.val, 5), (b.val, 5), (k.val, 3), (ea.toNat, 1), (eb.toNat, 1)] [(10, 5)] _ hk
  have hd : V3.dec nn = ⟨eb, ea, k, b, a, d⟩ := by
    subst hn; simp only [V3.dec, V3.mk.injEq]
    exact ⟨decide_bool _ _ (pack_one [(33, 7), (d.val, 5), (a.val, 5), (b.val, 5), (k.val, 3), (ea.toNat, 1)] _ _ 1 hk),
      decide_bool _ _ (pack_one [(33, 7), (d.val, 5), (a.val, 5), (b.val, 5), (k.val, 3)] _ _ 1 hk),
      fin_of _ _ _ (pack_one [(33, 7), (d.val, 5), (a.val, 5), (b.val, 5)] _ _ 3 hk),
      fin_of _ _ _ (pack_one [(33, 7), (d.val, 5), (a.val, 5)] _ _ 5 hk),
      fin_of _ _ _ (pack_one [(33, 7), (d.val, 5)] _ _ 5 hk),
      fin_of _ _ _ (pack_one [(33, 7)] _ _ 5 hk)⟩
  rw [rowOf_21 _ h0]
  simp [rowVs, f0, hd]

theorem vabdS (x : V3) : Statement (.vabdS x) := by
  intro w hw h
  simp only [encode, Option.some.injEq] at h
  subst h
  obtain ⟨eb, ea, k, b, a, d⟩ := x
  have hk : Packed [(33, 7), (d.val, 5), (a.val, 5), (b.val, 5), (k.val, 3), (ea.toNat, 1), (eb.toNat, 1), (11, 5)] :=
    ⟨by decide, d.isLt, a.isLt, b.isLt, k.isLt, bool_lt_two ea, bool_lt_two eb, by decide, trivial⟩
  refine decode_of_pack _ [(33, 7), (d.val, 5), (a.val, 5), (b.val, 5), (k.val, 3), (ea.toNat, 1), (eb.toNat, 1), (11, 5)] _ (by simp only [V3.enc, pack]; omega) hk rfl ?_ hw
  generalize hn : pack [(33, 7), (d.val, 5), (a.val, 5), (b.val, 5), (k.val, 3), (ea.toNat, 1), (eb.toNat, 1), (11, 5)] = nn at *
  have h0 : nn % 128 = 0x21 := by subst hn; exact pack_mod [(33, 7)] _ hk
  have f0 : fld nn 27 5 = 11 := by subst hn; exact pack_field [(33, 7), (d.val, 5), (a.val, 5), (b.val, 5), (k.val, 3), (ea.toNat, 1), (eb.toNat, 1)] [(11, 5)] _ hk
  have hd : V3.dec nn = ⟨eb, ea, k, b, a, d⟩ := by
    subst hn; simp only [V3.dec, V3.mk.injEq]
    exact ⟨decide_bool _ _ (pack_one [(33, 7), (d.val, 5), (a.val, 5), (b.val, 5), (k.val, 3), (ea.toNat, 1)] _ _ 1 hk),
      decide_bool _ _ (pack_one [(33, 7), (d.val, 5), (a.val, 5), (b.val, 5), (k.val, 3)] _ _ 1 hk),
      fin_of _ _ _ (pack_one [(33, 7), (d.val, 5), (a.val, 5), (b.val, 5)] _ _ 3 hk),
      fin_of _ _ _ (pack_one [(33, 7), (d.val, 5), (a.val, 5)] _ _ 5 hk),
      fin_of _ _ _ (pack_one [(33, 7), (d.val, 5)] _ _ 5 hk),
      fin_of _ _ _ (pack_one [(33, 7)] _ _ 5 hk)⟩
  rw [rowOf_21 _ h0]
  simp [rowVs, f0, hd]

theorem vavgS (x : V3) : Statement (.vavgS x) := by
  intro w hw h
  simp only [encode, Option.some.injEq] at h
  subst h
  obtain ⟨eb, ea, k, b, a, d⟩ := x
  have hk : Packed [(33, 7), (d.val, 5), (a.val, 5), (b.val, 5), (k.val, 3), (ea.toNat, 1), (eb.toNat, 1), (12, 5)] :=
    ⟨by decide, d.isLt, a.isLt, b.isLt, k.isLt, bool_lt_two ea, bool_lt_two eb, by decide, trivial⟩
  refine decode_of_pack _ [(33, 7), (d.val, 5), (a.val, 5), (b.val, 5), (k.val, 3), (ea.toNat, 1), (eb.toNat, 1), (12, 5)] _ (by simp only [V3.enc, pack]; omega) hk rfl ?_ hw
  generalize hn : pack [(33, 7), (d.val, 5), (a.val, 5), (b.val, 5), (k.val, 3), (ea.toNat, 1), (eb.toNat, 1), (12, 5)] = nn at *
  have h0 : nn % 128 = 0x21 := by subst hn; exact pack_mod [(33, 7)] _ hk
  have f0 : fld nn 27 5 = 12 := by subst hn; exact pack_field [(33, 7), (d.val, 5), (a.val, 5), (b.val, 5), (k.val, 3), (ea.toNat, 1), (eb.toNat, 1)] [(12, 5)] _ hk
  have hd : V3.dec nn = ⟨eb, ea, k, b, a, d⟩ := by
    subst hn; simp only [V3.dec, V3.mk.injEq]
    exact ⟨decide_bool _ _ (pack_one [(33, 7), (d.val, 5), (a.val, 5), (b.val, 5), (k.val, 3), (ea.toNat, 1)] _ _ 1 hk),
      decide_bool _ _ (pack_one [(33, 7), (d.val, 5), (a.val, 5), (b.val, 5), (k.val, 3)] _ _ 1 hk),
      fin_of _ _ _ (pack_one [(33, 7), (d.val, 5), (a.val, 5), (b.val, 5)] _ _ 3 hk),
      fin_of _ _ _ (pack_one [(33, 7), (d.val, 5), (a.val, 5)] _ _ 5 hk),
      fin_of _ _ _ (pack_one [(33, 7), (d.val, 5)] _ _ 5 hk),
      fin_of _ _ _ (pack_one [(33, 7)] _ _ 5 hk)⟩
  rw [rowOf_21 _ h0]
  simp [rowVs, f0, hd]

theorem vaddsS (x : V3) : Statement (.vaddsS x) := by
  intro w hw h
  simp only [encode, Option.some.injEq] at h
  subst h
  obtain ⟨eb, ea, k, b, a, d⟩ := x
  have hk : Packed [(33, 7), (d.val, 5), (a.val, 5), (b.val, 5), (k.val, 3), (ea.toNat, 1), (eb.toNat, 1), (13, 5)] :=
    ⟨by decide, d.isLt, a.isLt, b.isLt, k.isLt, bool_lt_two ea, bool_lt_two eb, by decide, trivial⟩
  refine decode_of_pack _ [(33, 7), (d.val, 5), (a.val, 5), (b.val, 5), (k.val, 3), (ea.toNat, 1), (eb.toNat, 1), (13, 5)] _ (by simp only [V3.enc, pack]; omega) hk rfl ?_ hw
  generalize hn : pack [(33, 7), (d.val, 5), (a.val, 5), (b.val, 5), (k.val, 3), (ea.toNat, 1), (eb.toNat, 1), (13, 5)] = nn at *
  have h0 : nn % 128 = 0x21 := by subst hn; exact pack_mod [(33, 7)] _ hk
  have f0 : fld nn 27 5 = 13 := by subst hn; exact pack_field [(33, 7), (d.val, 5), (a.val, 5), (b.val, 5), (k.val, 3), (ea.toNat, 1), (eb.toNat, 1)] [(13, 5)] _ hk
  have hd : V3.dec nn = ⟨eb, ea, k, b, a, d⟩ := by
    subst hn; simp only [V3.dec, V3.mk.injEq]
    exact ⟨decide_bool _ _ (pack_one [(33, 7), (d.val, 5), (a.val, 5), (b.val, 5), (k.val, 3), (ea.toNat, 1)] _ _ 1 hk),
      decide_bool _ _ (pack_one [(33, 7), (d.val, 5), (a.val, 5), (b.val, 5), (k.val, 3)] _ _ 1 hk),
      fin_of _ _ _ (pack_one [(33, 7), (d.val, 5), (a.val, 5), (b.val, 5)] _ _ 3 hk),
      fin_of _ _ _ (pack_one [(33, 7), (d.val, 5), (a.val, 5)] _ _ 5 hk),
      fin_of _ _ _ (pack_one [(33, 7), (d.val, 5)] _ _ 5 hk),
      fin_of _ _ _ (pack_one [(33, 7)] _ _ 5 hk)⟩
  rw [rowOf_21 _ h0]
  simp [rowVs, f0, hd]

theorem vsubsS (x : V3) : Statement (.vsubsS x) := by
  intro w hw h
  simp only [encode, Option.some.injEq] at h
  subst h
  obtain ⟨eb, ea, k, b, a, d⟩ := x
  have hk : Packed [(33, 7), (d.val, 5), (a.val, 5), (b.val, 5), (k.val, 3), (ea.toNat, 1), (eb.toNat, 1), (14, 5)] :=
    ⟨by decide, d.isLt, a.isLt, b.isLt, k.isLt, bool_lt_two ea, bool_lt_two eb, by decide, trivial⟩
  refine decode_of_pack _ [(33, 7), (d.val, 5), (a.val, 5), (b.val, 5), (k.val, 3), (ea.toNat, 1), (eb.toNat, 1), (14, 5)] _ (by simp only [V3.enc, pack]; omega) hk rfl ?_ hw
  generalize hn : pack [(33, 7), (d.val, 5), (a.val, 5), (b.val, 5), (k.val, 3), (ea.toNat, 1), (eb.toNat, 1), (14, 5)] = nn at *
  have h0 : nn % 128 = 0x21 := by subst hn; exact pack_mod [(33, 7)] _ hk
  have f0 : fld nn 27 5 = 14 := by subst hn; exact pack_field [(33, 7), (d.val, 5), (a.val, 5), (b.val, 5), (k.val, 3), (ea.toNat, 1), (eb.toNat, 1)] [(14, 5)] _ hk
  have hd : V3.dec nn = ⟨eb, ea, k, b, a, d⟩ := by
    subst hn; simp only [V3.dec, V3.mk.injEq]
    exact ⟨decide_bool _ _ (pack_one [(33, 7), (d.val, 5), (a.val, 5), (b.val, 5), (k.val, 3), (ea.toNat, 1)] _ _ 1 hk),
      decide_bool _ _ (pack_one [(33, 7), (d.val, 5), (a.val, 5), (b.val, 5), (k.val, 3)] _ _ 1 hk),
      fin_of _ _ _ (pack_one [(33, 7), (d.val, 5), (a.val, 5), (b.val, 5)] _ _ 3 hk),
      fin_of _ _ _ (pack_one [(33, 7), (d.val, 5), (a.val, 5)] _ _ 5 hk),
      fin_of _ _ _ (pack_one [(33, 7), (d.val, 5)] _ _ 5 hk),
      fin_of _ _ _ (pack_one [(33, 7)] _ _ 5 hk)⟩
  rw [rowOf_21 _ h0]
  simp [rowVs, f0, hd]

theorem vmulhS (x : V3) : Statement (.vmulhS x) := by
  intro w hw h
  simp only [encode, Option.some.injEq] at h
  subst h
  obtain ⟨eb, ea, k, b, a, d⟩ := x
  have hk : Packed [(33, 7), (d.val, 5), (a.val, 5), (b.val, 5), (k.val, 3), (ea.toNat, 1), (eb.toNat, 1), (15, 5)] :=
    ⟨by decide, d.isLt, a.isLt, b.isLt, k.isLt, bool_lt_two ea, bool_lt_two eb, by decide, trivial⟩
  refine decode_of_pack _ [(33, 7), (d.val, 5), (a.val, 5), (b.val, 5), (k.val, 3), (ea.toNat, 1), (eb.toNat, 1), (15, 5)] _ (by simp only [V3.enc, pack]; omega) hk rfl ?_ hw
  generalize hn : pack [(33, 7), (d.val, 5), (a.val, 5), (b.val, 5), (k.val, 3), (ea.toNat, 1), (eb.toNat, 1), (15, 5)] = nn at *
  have h0 : nn % 128 = 0x21 := by subst hn; exact pack_mod [(33, 7)] _ hk
  have f0 : fld nn 27 5 = 15 := by subst hn; exact pack_field [(33, 7), (d.val, 5), (a.val, 5), (b.val, 5), (k.val, 3), (ea.toNat, 1), (eb.toNat, 1)] [(15, 5)] _ hk
  have hd : V3.dec nn = ⟨eb, ea, k, b, a, d⟩ := by
    subst hn; simp only [V3.dec, V3.mk.injEq]
    exact ⟨decide_bool _ _ (pack_one [(33, 7), (d.val, 5), (a.val, 5), (b.val, 5), (k.val, 3), (ea.toNat, 1)] _ _ 1 hk),
      decide_bool _ _ (pack_one [(33, 7), (d.val, 5), (a.val, 5), (b.val, 5), (k.val, 3)] _ _ 1 hk),
      fin_of _ _ _ (pack_one [(33, 7), (d.val, 5), (a.val, 5), (b.val, 5)] _ _ 3 hk),
      fin_of _ _ _ (pack_one [(33, 7), (d.val, 5), (a.val, 5)] _ _ 5 hk),
      fin_of _ _ _ (pack_one [(33, 7), (d.val, 5)] _ _ 5 hk),
      fin_of _ _ _ (pack_one [(33, 7)] _ _ 5 hk)⟩
  rw [rowOf_21 _ h0]
  simp [rowVs, f0, hd]

theorem vaddI (x : VImm) : Statement (.vaddI x) := by
  intro w hw h
  simp only [encode, Option.some.injEq] at h
  subst h
  obtain ⟨ea, k, imm, a, d⟩ := x
  have hk : Packed [(34, 7), (d.val, 5), (a.val, 5), (imm.toNat, 5), (k.val, 3), (ea.toNat, 1), (0, 6)] :=
    ⟨by decide, d.isLt, a.isLt, imm.isLt, k.isLt, bool_lt_two ea, by decide, trivial⟩
  refine decode_of_pack _ [(34, 7), (d.val, 5), (a.val, 5), (imm.toNat, 5), (k.val, 3), (ea.toNat, 1), (0, 6)] _ (by simp only [VImm.enc, pack]; omega) hk rfl ?_ hw
  generalize hn : pack [(34, 7), (d.val, 5), (a.val, 5), (imm.toNat, 5), (k.val, 3), (ea.toNat, 1), (0, 6)] = nn at *
  have h0 : nn % 128 = 0x22 := by subst hn; exact pack_mod [(34, 7)] _ hk
  have f0 : fld nn 26 6 = 0 := by subst hn; exact pack_field [(34, 7), (d.val, 5), (a.val, 5), (imm.toNat, 5), (k.val, 3), (ea.toNat, 1)] [(0, 6)] _ hk
  have hd : VImm.dec nn = ⟨ea, k, imm, a, d⟩ := by
    subst hn; simp only [VImm.dec, VImm.mk.injEq]
    exact ⟨decide_bool _ _ (pack_one [(34, 7), (d.val, 5), (a.val, 5), (imm.toNat, 5), (k.val, 3)] _ _ 1 hk),
      fin_of _ _ _ (pack_one [(34, 7), (d.val, 5), (a.val, 5), (imm.toNat, 5)] _ _ 3 hk),
      bitVec_of _ _ (pack_one [(34, 7), (d.val, 5), (a.val, 5)] _ _ 5 hk),
      fin_of _ _ _ (pack_one [(34, 7), (d.val, 5)] _ _ 5 hk),
      fin_of _ _ _ (pack_one [(34, 7)] _ _ 5 hk)⟩
  rw [rowOf_22 _ h0]
  simp [rowVi, f0, hd]

theorem vsubI (x : VImm) : Statement (.vsubI x) := by
  intro w hw h
  simp only [encode, Option.some.injEq] at h
  subst h
  obtain ⟨ea, k, imm, a, d⟩ := x
  have hk : Packed [(34, 7), (d.val, 5), (a.val, 5), (imm.toNat, 5), (k.val, 3), (ea.toNat, 1), (2, 6)] :=
    ⟨by decide, d.isLt, a.isLt, imm.isLt, k.isLt, bool_lt_two ea, by decide, trivial⟩
  refine decode_of_pack _ [(34, 7), (d.val, 5), (a.val, 5), (imm.toNat, 5), (k.val, 3), (ea.toNat, 1), (2, 6)] _ (by simp only [VImm.enc, pack]; omega) hk rfl ?_ hw
  generalize hn : pack [(34, 7), (d.val, 5), (a.val, 5), (imm.toNat, 5), (k.val, 3), (ea.toNat, 1), (2, 6)] = nn at *
  have h0 : nn % 128 = 0x22 := by subst hn; exact pack_mod [(34, 7)] _ hk
  have f0 : fld nn 26 6 = 2 := by subst hn; exact pack_field [(34, 7), (d.val, 5), (a.val, 5), (imm.toNat, 5), (k.val, 3), (ea.toNat, 1)] [(2, 6)] _ hk
  have hd : VImm.dec nn = ⟨ea, k, imm, a, d⟩ := by
    subst hn; simp only [VImm.dec, VImm.mk.injEq]
    exact ⟨decide_bool _ _ (pack_one [(34, 7), (d.val, 5), (a.val, 5), (imm.toNat, 5), (k.val, 3)] _ _ 1 hk),
      fin_of _ _ _ (pack_one [(34, 7), (d.val, 5), (a.val, 5), (imm.toNat, 5)] _ _ 3 hk),
      bitVec_of _ _ (pack_one [(34, 7), (d.val, 5), (a.val, 5)] _ _ 5 hk),
      fin_of _ _ _ (pack_one [(34, 7), (d.val, 5)] _ _ 5 hk),
      fin_of _ _ _ (pack_one [(34, 7)] _ _ 5 hk)⟩
  rw [rowOf_22 _ h0]
  simp [rowVi, f0, hd]

theorem vmulI (x : VImm) : Statement (.vmulI x) := by
  intro w hw h
  simp only [encode, Option.some.injEq] at h
  subst h
  obtain ⟨ea, k, imm, a, d⟩ := x
  have hk : Packed [(34, 7), (d.val, 5), (a.val, 5), (imm.toNat, 5), (k.val, 3), (ea.toNat, 1), (4, 6)] :=
    ⟨by decide, d.isLt, a.isLt, imm.isLt, k.isLt, bool_lt_two ea, by decide, trivial⟩
  refine decode_of_pack _ [(34, 7), (d.val, 5), (a.val, 5), (imm.toNat, 5), (k.val, 3), (ea.toNat, 1), (4, 6)] _ (by simp only [VImm.enc, pack]; omega) hk rfl ?_ hw
  generalize hn : pack [(34, 7), (d.val, 5), (a.val, 5), (imm.toNat, 5), (k.val, 3), (ea.toNat, 1), (4, 6)] = nn at *
  have h0 : nn % 128 = 0x22 := by subst hn; exact pack_mod [(34, 7)] _ hk
  have f0 : fld nn 26 6 = 4 := by subst hn; exact pack_field [(34, 7), (d.val, 5), (a.val, 5), (imm.toNat, 5), (k.val, 3), (ea.toNat, 1)] [(4, 6)] _ hk
  have hd : VImm.dec nn = ⟨ea, k, imm, a, d⟩ := by
    subst hn; simp only [VImm.dec, VImm.mk.injEq]
    exact ⟨decide_bool _ _ (pack_one [(34, 7), (d.val, 5), (a.val, 5), (imm.toNat, 5), (k.val, 3)] _ _ 1 hk),
      fin_of _ _ _ (pack_one [(34, 7), (d.val, 5), (a.val, 5), (imm.toNat, 5)] _ _ 3 hk),
      bitVec_of _ _ (pack_one [(34, 7), (d.val, 5), (a.val, 5)] _ _ 5 hk),
      fin_of _ _ _ (pack_one [(34, 7), (d.val, 5)] _ _ 5 hk),
      fin_of _ _ _ (pack_one [(34, 7)] _ _ 5 hk)⟩
  rw [rowOf_22 _ h0]
  simp [rowVi, f0, hd]

theorem vminI (x : VImm) : Statement (.vminI x) := by
  intro w hw h
  simp only [encode, Option.some.injEq] at h
  subst h
  obtain ⟨ea, k, imm, a, d⟩ := x
  have hk : Packed [(34, 7), (d.val, 5), (a.val, 5), (imm.toNat, 5), (k.val, 3), (ea.toNat, 1), (6, 6)] :=
    ⟨by decide, d.isLt, a.isLt, imm.isLt, k.isLt, bool_lt_two ea, by decide, trivial⟩
  refine decode_of_pack _ [(34, 7), (d.val, 5), (a.val, 5), (imm.toNat, 5), (k.val, 3), (ea.toNat, 1), (6, 6)] _ (by simp only [VImm.enc, pack]; omega) hk rfl ?_ hw
  generalize hn : pack [(34, 7), (d.val, 5), (a.val, 5), (imm.toNat, 5), (k.val, 3), (ea.toNat, 1), (6, 6)] = nn at *
  have h0 : nn % 128 = 0x22 := by subst hn; exact pack_mod [(34, 7)] _ hk
  have f0 : fld nn 26 6 = 6 := by subst hn; exact pack_field [(34, 7), (d.val, 5), (a.val, 5), (imm.toNat, 5), (k.val, 3), (ea.toNat, 1)] [(6, 6)] _ hk
  have hd : VImm.dec nn = ⟨ea, k, imm, a, d⟩ := by
    subst hn; simp only [VImm.dec, VImm.mk.injEq]
    exact ⟨decide_bool _ _ (pack_one [(34, 7), (d.val, 5), (a.val, 5), (imm.toNat, 5), (k.val, 3)] _ _ 1 hk),
      fin_of _ _ _ (pack_one [(34, 7), (d.val, 5), (a.val, 5), (imm.toNat, 5)] _ _ 3 hk),
      bitVec_of _ _ (pack_one [(34, 7), (d.val, 5), (a.val, 5)] _ _ 5 hk),
      fin_of _ _ _ (pack_one [(34, 7), (d.val, 5)] _ _ 5 hk),
      fin_of _ _ _ (pack_one [(34, 7)] _ _ 5 hk)⟩
  rw [rowOf_22 _ h0]
  simp [rowVi, f0, hd]

theorem vmaxI (x : VImm) : Statement (.vmaxI x) := by
  intro w hw h
  simp only [encode, Option.some.injEq] at h
  subst h
  obtain ⟨ea, k, imm, a, d⟩ := x
  have hk : Packed [(34, 7), (d.val, 5), (a.val, 5), (imm.toNat, 5), (k.val, 3), (ea.toNat, 1), (8, 6)] :=
    ⟨by decide, d.isLt, a.isLt, imm.isLt, k.isLt, bool_lt_two ea, by decide, trivial⟩
  refine decode_of_pack _ [(34, 7), (d.val, 5), (a.val, 5), (imm.toNat, 5), (k.val, 3), (ea.toNat, 1), (8, 6)] _ (by simp only [VImm.enc, pack]; omega) hk rfl ?_ hw
  generalize hn : pack [(34, 7), (d.val, 5), (a.val, 5), (imm.toNat, 5), (k.val, 3), (ea.toNat, 1), (8, 6)] = nn at *
  have h0 : nn % 128 = 0x22 := by subst hn; exact pack_mod [(34, 7)] _ hk
  have f0 : fld nn 26 6 = 8 := by subst hn; exact pack_field [(34, 7), (d.val, 5), (a.val, 5), (imm.toNat, 5), (k.val, 3), (ea.toNat, 1)] [(8, 6)] _ hk
  have hd : VImm.dec nn = ⟨ea, k, imm, a, d⟩ := by
    subst hn; simp only [VImm.dec, VImm.mk.injEq]
    exact ⟨decide_bool _ _ (pack_one [(34, 7), (d.val, 5), (a.val, 5), (imm.toNat, 5), (k.val, 3)] _ _ 1 hk),
      fin_of _ _ _ (pack_one [(34, 7), (d.val, 5), (a.val, 5), (imm.toNat, 5)] _ _ 3 hk),
      bitVec_of _ _ (pack_one [(34, 7), (d.val, 5), (a.val, 5)] _ _ 5 hk),
      fin_of _ _ _ (pack_one [(34, 7), (d.val, 5)] _ _ 5 hk),
      fin_of _ _ _ (pack_one [(34, 7)] _ _ 5 hk)⟩
  rw [rowOf_22 _ h0]
  simp [rowVi, f0, hd]

theorem vandI (x : VImm) : Statement (.vandI x) := by
  intro w hw h
  simp only [encode, Option.some.injEq] at h
  subst h
  obtain ⟨ea, k, imm, a, d⟩ := x
  have hk : Packed [(34, 7), (d.val, 5), (a.val, 5), (imm.toNat, 5), (k.val, 3), (ea.toNat, 1), (10, 6)] :=
    ⟨by decide, d.isLt, a.isLt, imm.isLt, k.isLt, bool_lt_two ea, by decide, trivial⟩
  refine decode_of_pack _ [(34, 7), (d.val, 5), (a.val, 5), (imm.toNat, 5), (k.val, 3), (ea.toNat, 1), (10, 6)] _ (by simp only [VImm.enc, pack]; omega) hk rfl ?_ hw
  generalize hn : pack [(34, 7), (d.val, 5), (a.val, 5), (imm.toNat, 5), (k.val, 3), (ea.toNat, 1), (10, 6)] = nn at *
  have h0 : nn % 128 = 0x22 := by subst hn; exact pack_mod [(34, 7)] _ hk
  have f0 : fld nn 26 6 = 10 := by subst hn; exact pack_field [(34, 7), (d.val, 5), (a.val, 5), (imm.toNat, 5), (k.val, 3), (ea.toNat, 1)] [(10, 6)] _ hk
  have hd : VImm.dec nn = ⟨ea, k, imm, a, d⟩ := by
    subst hn; simp only [VImm.dec, VImm.mk.injEq]
    exact ⟨decide_bool _ _ (pack_one [(34, 7), (d.val, 5), (a.val, 5), (imm.toNat, 5), (k.val, 3)] _ _ 1 hk),
      fin_of _ _ _ (pack_one [(34, 7), (d.val, 5), (a.val, 5), (imm.toNat, 5)] _ _ 3 hk),
      bitVec_of _ _ (pack_one [(34, 7), (d.val, 5), (a.val, 5)] _ _ 5 hk),
      fin_of _ _ _ (pack_one [(34, 7), (d.val, 5)] _ _ 5 hk),
      fin_of _ _ _ (pack_one [(34, 7)] _ _ 5 hk)⟩
  rw [rowOf_22 _ h0]
  simp [rowVi, f0, hd]

theorem vorI (x : VImm) : Statement (.vorI x) := by
  intro w hw h
  simp only [encode, Option.some.injEq] at h
  subst h
  obtain ⟨ea, k, imm, a, d⟩ := x
  have hk : Packed [(34, 7), (d.val, 5), (a.val, 5), (imm.toNat, 5), (k.val, 3), (ea.toNat, 1), (12, 6)] :=
    ⟨by decide, d.isLt, a.isLt, imm.isLt, k.isLt, bool_lt_two ea, by decide, trivial⟩
  refine decode_of_pack _ [(34, 7), (d.val, 5), (a.val, 5), (imm.toNat, 5), (k.val, 3), (ea.toNat, 1), (12, 6)] _ (by simp only [VImm.enc, pack]; omega) hk rfl ?_ hw
  generalize hn : pack [(34, 7), (d.val, 5), (a.val, 5), (imm.toNat, 5), (k.val, 3), (ea.toNat, 1), (12, 6)] = nn at *
  have h0 : nn % 128 = 0x22 := by subst hn; exact pack_mod [(34, 7)] _ hk
  have f0 : fld nn 26 6 = 12 := by subst hn; exact pack_field [(34, 7), (d.val, 5), (a.val, 5), (imm.toNat, 5), (k.val, 3), (ea.toNat, 1)] [(12, 6)] _ hk
  have hd : VImm.dec nn = ⟨ea, k, imm, a, d⟩ := by
    subst hn; simp only [VImm.dec, VImm.mk.injEq]
    exact ⟨decide_bool _ _ (pack_one [(34, 7), (d.val, 5), (a.val, 5), (imm.toNat, 5), (k.val, 3)] _ _ 1 hk),
      fin_of _ _ _ (pack_one [(34, 7), (d.val, 5), (a.val, 5), (imm.toNat, 5)] _ _ 3 hk),
      bitVec_of _ _ (pack_one [(34, 7), (d.val, 5), (a.val, 5)] _ _ 5 hk),
      fin_of _ _ _ (pack_one [(34, 7), (d.val, 5)] _ _ 5 hk),
      fin_of _ _ _ (pack_one [(34, 7)] _ _ 5 hk)⟩
  rw [rowOf_22 _ h0]
  simp [rowVi, f0, hd]

theorem vxorI (x : VImm) : Statement (.vxorI x) := by
  intro w hw h
  simp only [encode, Option.some.injEq] at h
  subst h
  obtain ⟨ea, k, imm, a, d⟩ := x
  have hk : Packed [(34, 7), (d.val, 5), (a.val, 5), (imm.toNat, 5), (k.val, 3), (ea.toNat, 1), (14, 6)] :=
    ⟨by decide, d.isLt, a.isLt, imm.isLt, k.isLt, bool_lt_two ea, by decide, trivial⟩
  refine decode_of_pack _ [(34, 7), (d.val, 5), (a.val, 5), (imm.toNat, 5), (k.val, 3), (ea.toNat, 1), (14, 6)] _ (by simp only [VImm.enc, pack]; omega) hk rfl ?_ hw
  generalize hn : pack [(34, 7), (d.val, 5), (a.val, 5), (imm.toNat, 5), (k.val, 3), (ea.toNat, 1), (14, 6)] = nn at *
  have h0 : nn % 128 = 0x22 := by subst hn; exact pack_mod [(34, 7)] _ hk
  have f0 : fld nn 26 6 = 14 := by subst hn; exact pack_field [(34, 7), (d.val, 5), (a.val, 5), (imm.toNat, 5), (k.val, 3), (ea.toNat, 1)] [(14, 6)] _ hk
  have hd : VImm.dec nn = ⟨ea, k, imm, a, d⟩ := by
    subst hn; simp only [VImm.dec, VImm.mk.injEq]
    exact ⟨decide_bool _ _ (pack_one [(34, 7), (d.val, 5), (a.val, 5), (imm.toNat, 5), (k.val, 3)] _ _ 1 hk),
      fin_of _ _ _ (pack_one [(34, 7), (d.val, 5), (a.val, 5), (imm.toNat, 5)] _ _ 3 hk),
      bitVec_of _ _ (pack_one [(34, 7), (d.val, 5), (a.val, 5)] _ _ 5 hk),
      fin_of _ _ _ (pack_one [(34, 7), (d.val, 5)] _ _ 5 hk),
      fin_of _ _ _ (pack_one [(34, 7)] _ _ 5 hk)⟩
  rw [rowOf_22 _ h0]
  simp [rowVi, f0, hd]

theorem vshlI (x : VShImm) : Statement (.vshlI x) := by
  intro w hw h
  simp only [encode, Option.some.injEq] at h
  subst h
  obtain ⟨ea, k, amt, a, d⟩ := x
  have hk : Packed [(34, 7), (d.val, 5), (a.val, 5), (amt.toNat, 4), (0, 1), (k.val, 3), (ea.toNat, 1), (16, 6)] :=
    ⟨by decide, d.isLt, a.isLt, amt.isLt, by decide, k.isLt, bool_lt_two ea, by decide, trivial⟩
  refine decode_of_pack _ [(34, 7), (d.val, 5), (a.val, 5), (amt.toNat, 4), (0, 1), (k.val, 3), (ea.toNat, 1), (16, 6)] _ (by simp only [VShImm.enc, pack]; omega) hk rfl ?_ hw
  generalize hn : pack [(34, 7), (d.val, 5), (a.val, 5), (amt.toNat, 4), (0, 1), (k.val, 3), (ea.toNat, 1), (16, 6)] = nn at *
  have h0 : nn % 128 = 0x22 := by subst hn; exact pack_mod [(34, 7)] _ hk
  have f0 : fld nn 26 6 = 16 := by subst hn; exact pack_field [(34, 7), (d.val, 5), (a.val, 5), (amt.toNat, 4), (0, 1), (k.val, 3), (ea.toNat, 1)] [(16, 6)] _ hk
  have f1 : fld nn 21 1 = 0 := by subst hn; exact pack_field [(34, 7), (d.val, 5), (a.val, 5), (amt.toNat, 4)] [(0, 1)] _ hk
  have hd : VShImm.dec nn = ⟨ea, k, amt, a, d⟩ := by
    subst hn; simp only [VShImm.dec, VShImm.mk.injEq]
    exact ⟨decide_bool _ _ (pack_one [(34, 7), (d.val, 5), (a.val, 5), (amt.toNat, 4), (0, 1), (k.val, 3)] _ _ 1 hk),
      fin_of _ _ _ (pack_one [(34, 7), (d.val, 5), (a.val, 5), (amt.toNat, 4), (0, 1)] _ _ 3 hk),
      bitVec_of _ _ (pack_one [(34, 7), (d.val, 5), (a.val, 5)] _ _ 4 hk),
      fin_of _ _ _ (pack_one [(34, 7), (d.val, 5)] _ _ 5 hk),
      fin_of _ _ _ (pack_one [(34, 7)] _ _ 5 hk)⟩
  rw [rowOf_22 _ h0]
  simp [rowVi, f0, f1, hd]

theorem vshrI (x : VShImm) : Statement (.vshrI x) := by
  intro w hw h
  simp only [encode, Option.some.injEq] at h
  subst h
  obtain ⟨ea, k, amt, a, d⟩ := x
  have hk : Packed [(34, 7), (d.val, 5), (a.val, 5), (amt.toNat, 4), (0, 1), (k.val, 3), (ea.toNat, 1), (18, 6)] :=
    ⟨by decide, d.isLt, a.isLt, amt.isLt, by decide, k.isLt, bool_lt_two ea, by decide, trivial⟩
  refine decode_of_pack _ [(34, 7), (d.val, 5), (a.val, 5), (amt.toNat, 4), (0, 1), (k.val, 3), (ea.toNat, 1), (18, 6)] _ (by simp only [VShImm.enc, pack]; omega) hk rfl ?_ hw
  generalize hn : pack [(34, 7), (d.val, 5), (a.val, 5), (amt.toNat, 4), (0, 1), (k.val, 3), (ea.toNat, 1), (18, 6)] = nn at *
  have h0 : nn % 128 = 0x22 := by subst hn; exact pack_mod [(34, 7)] _ hk
  have f0 : fld nn 26 6 = 18 := by subst hn; exact pack_field [(34, 7), (d.val, 5), (a.val, 5), (amt.toNat, 4), (0, 1), (k.val, 3), (ea.toNat, 1)] [(18, 6)] _ hk
  have f1 : fld nn 21 1 = 0 := by subst hn; exact pack_field [(34, 7), (d.val, 5), (a.val, 5), (amt.toNat, 4)] [(0, 1)] _ hk
  have hd : VShImm.dec nn = ⟨ea, k, amt, a, d⟩ := by
    subst hn; simp only [VShImm.dec, VShImm.mk.injEq]
    exact ⟨decide_bool _ _ (pack_one [(34, 7), (d.val, 5), (a.val, 5), (amt.toNat, 4), (0, 1), (k.val, 3)] _ _ 1 hk),
      fin_of _ _ _ (pack_one [(34, 7), (d.val, 5), (a.val, 5), (amt.toNat, 4), (0, 1)] _ _ 3 hk),
      bitVec_of _ _ (pack_one [(34, 7), (d.val, 5), (a.val, 5)] _ _ 4 hk),
      fin_of _ _ _ (pack_one [(34, 7), (d.val, 5)] _ _ 5 hk),
      fin_of _ _ _ (pack_one [(34, 7)] _ _ 5 hk)⟩
  rw [rowOf_22 _ h0]
  simp [rowVi, f0, f1, hd]

theorem vsarI (x : VShImm) : Statement (.vsarI x) := by
  intro w hw h
  simp only [encode, Option.some.injEq] at h
  subst h
  obtain ⟨ea, k, amt, a, d⟩ := x
  have hk : Packed [(34, 7), (d.val, 5), (a.val, 5), (amt.toNat, 4), (0, 1), (k.val, 3), (ea.toNat, 1), (20, 6)] :=
    ⟨by decide, d.isLt, a.isLt, amt.isLt, by decide, k.isLt, bool_lt_two ea, by decide, trivial⟩
  refine decode_of_pack _ [(34, 7), (d.val, 5), (a.val, 5), (amt.toNat, 4), (0, 1), (k.val, 3), (ea.toNat, 1), (20, 6)] _ (by simp only [VShImm.enc, pack]; omega) hk rfl ?_ hw
  generalize hn : pack [(34, 7), (d.val, 5), (a.val, 5), (amt.toNat, 4), (0, 1), (k.val, 3), (ea.toNat, 1), (20, 6)] = nn at *
  have h0 : nn % 128 = 0x22 := by subst hn; exact pack_mod [(34, 7)] _ hk
  have f0 : fld nn 26 6 = 20 := by subst hn; exact pack_field [(34, 7), (d.val, 5), (a.val, 5), (amt.toNat, 4), (0, 1), (k.val, 3), (ea.toNat, 1)] [(20, 6)] _ hk
  have f1 : fld nn 21 1 = 0 := by subst hn; exact pack_field [(34, 7), (d.val, 5), (a.val, 5), (amt.toNat, 4)] [(0, 1)] _ hk
  have hd : VShImm.dec nn = ⟨ea, k, amt, a, d⟩ := by
    subst hn; simp only [VShImm.dec, VShImm.mk.injEq]
    exact ⟨decide_bool _ _ (pack_one [(34, 7), (d.val, 5), (a.val, 5), (amt.toNat, 4), (0, 1), (k.val, 3)] _ _ 1 hk),
      fin_of _ _ _ (pack_one [(34, 7), (d.val, 5), (a.val, 5), (amt.toNat, 4), (0, 1)] _ _ 3 hk),
      bitVec_of _ _ (pack_one [(34, 7), (d.val, 5), (a.val, 5)] _ _ 4 hk),
      fin_of _ _ _ (pack_one [(34, 7), (d.val, 5)] _ _ 5 hk),
      fin_of _ _ _ (pack_one [(34, 7)] _ _ 5 hk)⟩
  rw [rowOf_22 _ h0]
  simp [rowVi, f0, f1, hd]

theorem vabdI (x : VImm) : Statement (.vabdI x) := by
  intro w hw h
  simp only [encode, Option.some.injEq] at h
  subst h
  obtain ⟨ea, k, imm, a, d⟩ := x
  have hk : Packed [(34, 7), (d.val, 5), (a.val, 5), (imm.toNat, 5), (k.val, 3), (ea.toNat, 1), (22, 6)] :=
    ⟨by decide, d.isLt, a.isLt, imm.isLt, k.isLt, bool_lt_two ea, by decide, trivial⟩
  refine decode_of_pack _ [(34, 7), (d.val, 5), (a.val, 5), (imm.toNat, 5), (k.val, 3), (ea.toNat, 1), (22, 6)] _ (by simp only [VImm.enc, pack]; omega) hk rfl ?_ hw
  generalize hn : pack [(34, 7), (d.val, 5), (a.val, 5), (imm.toNat, 5), (k.val, 3), (ea.toNat, 1), (22, 6)] = nn at *
  have h0 : nn % 128 = 0x22 := by subst hn; exact pack_mod [(34, 7)] _ hk
  have f0 : fld nn 26 6 = 22 := by subst hn; exact pack_field [(34, 7), (d.val, 5), (a.val, 5), (imm.toNat, 5), (k.val, 3), (ea.toNat, 1)] [(22, 6)] _ hk
  have hd : VImm.dec nn = ⟨ea, k, imm, a, d⟩ := by
    subst hn; simp only [VImm.dec, VImm.mk.injEq]
    exact ⟨decide_bool _ _ (pack_one [(34, 7), (d.val, 5), (a.val, 5), (imm.toNat, 5), (k.val, 3)] _ _ 1 hk),
      fin_of _ _ _ (pack_one [(34, 7), (d.val, 5), (a.val, 5), (imm.toNat, 5)] _ _ 3 hk),
      bitVec_of _ _ (pack_one [(34, 7), (d.val, 5), (a.val, 5)] _ _ 5 hk),
      fin_of _ _ _ (pack_one [(34, 7), (d.val, 5)] _ _ 5 hk),
      fin_of _ _ _ (pack_one [(34, 7)] _ _ 5 hk)⟩
  rw [rowOf_22 _ h0]
  simp [rowVi, f0, hd]

theorem vavgI (x : VImm) : Statement (.vavgI x) := by
  intro w hw h
  simp only [encode, Option.some.injEq] at h
  subst h
  obtain ⟨ea, k, imm, a, d⟩ := x
  have hk : Packed [(34, 7), (d.val, 5), (a.val, 5), (imm.toNat, 5), (k.val, 3), (ea.toNat, 1), (24, 6)] :=
    ⟨by decide, d.isLt, a.isLt, imm.isLt, k.isLt, bool_lt_two ea, by decide, trivial⟩
  refine decode_of_pack _ [(34, 7), (d.val, 5), (a.val, 5), (imm.toNat, 5), (k.val, 3), (ea.toNat, 1), (24, 6)] _ (by simp only [VImm.enc, pack]; omega) hk rfl ?_ hw
  generalize hn : pack [(34, 7), (d.val, 5), (a.val, 5), (imm.toNat, 5), (k.val, 3), (ea.toNat, 1), (24, 6)] = nn at *
  have h0 : nn % 128 = 0x22 := by subst hn; exact pack_mod [(34, 7)] _ hk
  have f0 : fld nn 26 6 = 24 := by subst hn; exact pack_field [(34, 7), (d.val, 5), (a.val, 5), (imm.toNat, 5), (k.val, 3), (ea.toNat, 1)] [(24, 6)] _ hk
  have hd : VImm.dec nn = ⟨ea, k, imm, a, d⟩ := by
    subst hn; simp only [VImm.dec, VImm.mk.injEq]
    exact ⟨decide_bool _ _ (pack_one [(34, 7), (d.val, 5), (a.val, 5), (imm.toNat, 5), (k.val, 3)] _ _ 1 hk),
      fin_of _ _ _ (pack_one [(34, 7), (d.val, 5), (a.val, 5), (imm.toNat, 5)] _ _ 3 hk),
      bitVec_of _ _ (pack_one [(34, 7), (d.val, 5), (a.val, 5)] _ _ 5 hk),
      fin_of _ _ _ (pack_one [(34, 7), (d.val, 5)] _ _ 5 hk),
      fin_of _ _ _ (pack_one [(34, 7)] _ _ 5 hk)⟩
  rw [rowOf_22 _ h0]
  simp [rowVi, f0, hd]

theorem vaddsI (x : VImm) : Statement (.vaddsI x) := by
  intro w hw h
  simp only [encode, Option.some.injEq] at h
  subst h
  obtain ⟨ea, k, imm, a, d⟩ := x
  have hk : Packed [(34, 7), (d.val, 5), (a.val, 5), (imm.toNat, 5), (k.val, 3), (ea.toNat, 1), (26, 6)] :=
    ⟨by decide, d.isLt, a.isLt, imm.isLt, k.isLt, bool_lt_two ea, by decide, trivial⟩
  refine decode_of_pack _ [(34, 7), (d.val, 5), (a.val, 5), (imm.toNat, 5), (k.val, 3), (ea.toNat, 1), (26, 6)] _ (by simp only [VImm.enc, pack]; omega) hk rfl ?_ hw
  generalize hn : pack [(34, 7), (d.val, 5), (a.val, 5), (imm.toNat, 5), (k.val, 3), (ea.toNat, 1), (26, 6)] = nn at *
  have h0 : nn % 128 = 0x22 := by subst hn; exact pack_mod [(34, 7)] _ hk
  have f0 : fld nn 26 6 = 26 := by subst hn; exact pack_field [(34, 7), (d.val, 5), (a.val, 5), (imm.toNat, 5), (k.val, 3), (ea.toNat, 1)] [(26, 6)] _ hk
  have hd : VImm.dec nn = ⟨ea, k, imm, a, d⟩ := by
    subst hn; simp only [VImm.dec, VImm.mk.injEq]
    exact ⟨decide_bool _ _ (pack_one [(34, 7), (d.val, 5), (a.val, 5), (imm.toNat, 5), (k.val, 3)] _ _ 1 hk),
      fin_of _ _ _ (pack_one [(34, 7), (d.val, 5), (a.val, 5), (imm.toNat, 5)] _ _ 3 hk),
      bitVec_of _ _ (pack_one [(34, 7), (d.val, 5), (a.val, 5)] _ _ 5 hk),
      fin_of _ _ _ (pack_one [(34, 7), (d.val, 5)] _ _ 5 hk),
      fin_of _ _ _ (pack_one [(34, 7)] _ _ 5 hk)⟩
  rw [rowOf_22 _ h0]
  simp [rowVi, f0, hd]

theorem vsubsI (x : VImm) : Statement (.vsubsI x) := by
  intro w hw h
  simp only [encode, Option.some.injEq] at h
  subst h
  obtain ⟨ea, k, imm, a, d⟩ := x
  have hk : Packed [(34, 7), (d.val, 5), (a.val, 5), (imm.toNat, 5), (k.val, 3), (ea.toNat, 1), (28, 6)] :=
    ⟨by decide, d.isLt, a.isLt, imm.isLt, k.isLt, bool_lt_two ea, by decide, trivial⟩
  refine decode_of_pack _ [(34, 7), (d.val, 5), (a.val, 5), (imm.toNat, 5), (k.val, 3), (ea.toNat, 1), (28, 6)] _ (by simp only [VImm.enc, pack]; omega) hk rfl ?_ hw
  generalize hn : pack [(34, 7), (d.val, 5), (a.val, 5), (imm.toNat, 5), (k.val, 3), (ea.toNat, 1), (28, 6)] = nn at *
  have h0 : nn % 128 = 0x22 := by subst hn; exact pack_mod [(34, 7)] _ hk
  have f0 : fld nn 26 6 = 28 := by subst hn; exact pack_field [(34, 7), (d.val, 5), (a.val, 5), (imm.toNat, 5), (k.val, 3), (ea.toNat, 1)] [(28, 6)] _ hk
  have hd : VImm.dec nn = ⟨ea, k, imm, a, d⟩ := by
    subst hn; simp only [VImm.dec, VImm.mk.injEq]
    exact ⟨decide_bool _ _ (pack_one [(34, 7), (d.val, 5), (a.val, 5), (imm.toNat, 5), (k.val, 3)] _ _ 1 hk),
      fin_of _ _ _ (pack_one [(34, 7), (d.val, 5), (a.val, 5), (imm.toNat, 5)] _ _ 3 hk),
      bitVec_of _ _ (pack_one [(34, 7), (d.val, 5), (a.val, 5)] _ _ 5 hk),
      fin_of _ _ _ (pack_one [(34, 7), (d.val, 5)] _ _ 5 hk),
      fin_of _ _ _ (pack_one [(34, 7)] _ _ 5 hk)⟩
  rw [rowOf_22 _ h0]
  simp [rowVi, f0, hd]

theorem vmulhI (x : VImm) : Statement (.vmulhI x) := by
  intro w hw h
  simp only [encode, Option.some.injEq] at h
  subst h
  obtain ⟨ea, k, imm, a, d⟩ := x
  have hk : Packed [(34, 7), (d.val, 5), (a.val, 5), (imm.toNat, 5), (k.val, 3), (ea.toNat, 1), (30, 6)] :=
    ⟨by decide, d.isLt, a.isLt, imm.isLt, k.isLt, bool_lt_two ea, by decide, trivial⟩
  refine decode_of_pack _ [(34, 7), (d.val, 5), (a.val, 5), (imm.toNat, 5), (k.val, 3), (ea.toNat, 1), (30, 6)] _ (by simp only [VImm.enc, pack]; omega) hk rfl ?_ hw
  generalize hn : pack [(34, 7), (d.val, 5), (a.val, 5), (imm.toNat, 5), (k.val, 3), (ea.toNat, 1), (30, 6)] = nn at *
  have h0 : nn % 128 = 0x22 := by subst hn; exact pack_mod [(34, 7)] _ hk
  have f0 : fld nn 26 6 = 30 := by subst hn; exact pack_field [(34, 7), (d.val, 5), (a.val, 5), (imm.toNat, 5), (k.val, 3), (ea.toNat, 1)] [(30, 6)] _ hk
  have hd : VImm.dec nn = ⟨ea, k, imm, a, d⟩ := by
    subst hn; simp only [VImm.dec, VImm.mk.injEq]
    exact ⟨decide_bool _ _ (pack_one [(34, 7), (d.val, 5), (a.val, 5), (imm.toNat, 5), (k.val, 3)] _ _ 1 hk),
      fin_of _ _ _ (pack_one [(34, 7), (d.val, 5), (a.val, 5), (imm.toNat, 5)] _ _ 3 hk),
      bitVec_of _ _ (pack_one [(34, 7), (d.val, 5), (a.val, 5)] _ _ 5 hk),
      fin_of _ _ _ (pack_one [(34, 7), (d.val, 5)] _ _ 5 hk),
      fin_of _ _ _ (pack_one [(34, 7)] _ _ 5 hk)⟩
  rw [rowOf_22 _ h0]
  simp [rowVi, f0, hd]

theorem vfma (x : V3) : Statement (.vfma x) := by
  intro w hw h
  simp only [encode, Option.some.injEq] at h
  subst h
  obtain ⟨eb, ea, k, b, a, d⟩ := x
  have hk : Packed [(35, 7), (d.val, 5), (a.val, 5), (b.val, 5), (k.val, 3), (ea.toNat, 1), (eb.toNat, 1), (0, 5)] :=
    ⟨by decide, d.isLt, a.isLt, b.isLt, k.isLt, bool_lt_two ea, bool_lt_two eb, by decide, trivial⟩
  refine decode_of_pack _ [(35, 7), (d.val, 5), (a.val, 5), (b.val, 5), (k.val, 3), (ea.toNat, 1), (eb.toNat, 1), (0, 5)] _ (by simp only [V3.enc, pack]; omega) hk rfl ?_ hw
  generalize hn : pack [(35, 7), (d.val, 5), (a.val, 5), (b.val, 5), (k.val, 3), (ea.toNat, 1), (eb.toNat, 1), (0, 5)] = nn at *
  have h0 : nn % 128 = 0x23 := by subst hn; exact pack_mod [(35, 7)] _ hk
  have f0 : fld nn 27 5 = 0 := by subst hn; exact pack_field [(35, 7), (d.val, 5), (a.val, 5), (b.val, 5), (k.val, 3), (ea.toNat, 1), (eb.toNat, 1)] [(0, 5)] _ hk
  have hd : V3.dec nn = ⟨eb, ea, k, b, a, d⟩ := by
    subst hn; simp only [V3.dec, V3.mk.injEq]
    exact ⟨decide_bool _ _ (pack_one [(35, 7), (d.val, 5), (a.val, 5), (b.val, 5), (k.val, 3), (ea.toNat, 1)] _ _ 1 hk),
      decide_bool _ _ (pack_one [(35, 7), (d.val, 5), (a.val, 5), (b.val, 5), (k.val, 3)] _ _ 1 hk),
      fin_of _ _ _ (pack_one [(35, 7), (d.val, 5), (a.val, 5), (b.val, 5)] _ _ 3 hk),
      fin_of _ _ _ (pack_one [(35, 7), (d.val, 5), (a.val, 5)] _ _ 5 hk),
      fin_of _ _ _ (pack_one [(35, 7), (d.val, 5)] _ _ 5 hk),
      fin_of _ _ _ (pack_one [(35, 7)] _ _ 5 hk)⟩
  rw [rowOf_23 _ h0]
  simp [rowVfma, f0, hd]

theorem vfms (x : V3) : Statement (.vfms x) := by
  intro w hw h
  simp only [encode, Option.some.injEq] at h
  subst h
  obtain ⟨eb, ea, k, b, a, d⟩ := x
  have hk : Packed [(35, 7), (d.val, 5), (a.val, 5), (b.val, 5), (k.val, 3), (ea.toNat, 1), (eb.toNat, 1), (1, 5)] :=
    ⟨by decide, d.isLt, a.isLt, b.isLt, k.isLt, bool_lt_two ea, bool_lt_two eb, by decide, trivial⟩
  refine decode_of_pack _ [(35, 7), (d.val, 5), (a.val, 5), (b.val, 5), (k.val, 3), (ea.toNat, 1), (eb.toNat, 1), (1, 5)] _ (by simp only [V3.enc, pack]; omega) hk rfl ?_ hw
  generalize hn : pack [(35, 7), (d.val, 5), (a.val, 5), (b.val, 5), (k.val, 3), (ea.toNat, 1), (eb.toNat, 1), (1, 5)] = nn at *
  have h0 : nn % 128 = 0x23 := by subst hn; exact pack_mod [(35, 7)] _ hk
  have f0 : fld nn 27 5 = 1 := by subst hn; exact pack_field [(35, 7), (d.val, 5), (a.val, 5), (b.val, 5), (k.val, 3), (ea.toNat, 1), (eb.toNat, 1)] [(1, 5)] _ hk
  have hd : V3.dec nn = ⟨eb, ea, k, b, a, d⟩ := by
    subst hn; simp only [V3.dec, V3.mk.injEq]
    exact ⟨decide_bool _ _ (pack_one [(35, 7), (d.val, 5), (a.val, 5), (b.val, 5), (k.val, 3), (ea.toNat, 1)] _ _ 1 hk),
      decide_bool _ _ (pack_one [(35, 7), (d.val, 5), (a.val, 5), (b.val, 5), (k.val, 3)] _ _ 1 hk),
      fin_of _ _ _ (pack_one [(35, 7), (d.val, 5), (a.val, 5), (b.val, 5)] _ _ 3 hk),
      fin_of _ _ _ (pack_one [(35, 7), (d.val, 5), (a.val, 5)] _ _ 5 hk),
      fin_of _ _ _ (pack_one [(35, 7), (d.val, 5)] _ _ 5 hk),
      fin_of _ _ _ (pack_one [(35, 7)] _ _ 5 hk)⟩
  rw [rowOf_23 _ h0]
  simp [rowVfma, f0, hd]

theorem vfnma (x : V3) : Statement (.vfnma x) := by
  intro w hw h
  simp only [encode, Option.some.injEq] at h
  subst h
  obtain ⟨eb, ea, k, b, a, d⟩ := x
  have hk : Packed [(35, 7), (d.val, 5), (a.val, 5), (b.val, 5), (k.val, 3), (ea.toNat, 1), (eb.toNat, 1), (2, 5)] :=
    ⟨by decide, d.isLt, a.isLt, b.isLt, k.isLt, bool_lt_two ea, bool_lt_two eb, by decide, trivial⟩
  refine decode_of_pack _ [(35, 7), (d.val, 5), (a.val, 5), (b.val, 5), (k.val, 3), (ea.toNat, 1), (eb.toNat, 1), (2, 5)] _ (by simp only [V3.enc, pack]; omega) hk rfl ?_ hw
  generalize hn : pack [(35, 7), (d.val, 5), (a.val, 5), (b.val, 5), (k.val, 3), (ea.toNat, 1), (eb.toNat, 1), (2, 5)] = nn at *
  have h0 : nn % 128 = 0x23 := by subst hn; exact pack_mod [(35, 7)] _ hk
  have f0 : fld nn 27 5 = 2 := by subst hn; exact pack_field [(35, 7), (d.val, 5), (a.val, 5), (b.val, 5), (k.val, 3), (ea.toNat, 1), (eb.toNat, 1)] [(2, 5)] _ hk
  have hd : V3.dec nn = ⟨eb, ea, k, b, a, d⟩ := by
    subst hn; simp only [V3.dec, V3.mk.injEq]
    exact ⟨decide_bool _ _ (pack_one [(35, 7), (d.val, 5), (a.val, 5), (b.val, 5), (k.val, 3), (ea.toNat, 1)] _ _ 1 hk),
      decide_bool _ _ (pack_one [(35, 7), (d.val, 5), (a.val, 5), (b.val, 5), (k.val, 3)] _ _ 1 hk),
      fin_of _ _ _ (pack_one [(35, 7), (d.val, 5), (a.val, 5), (b.val, 5)] _ _ 3 hk),
      fin_of _ _ _ (pack_one [(35, 7), (d.val, 5), (a.val, 5)] _ _ 5 hk),
      fin_of _ _ _ (pack_one [(35, 7), (d.val, 5)] _ _ 5 hk),
      fin_of _ _ _ (pack_one [(35, 7)] _ _ 5 hk)⟩
  rw [rowOf_23 _ h0]
  simp [rowVfma, f0, hd]

theorem vfnms (x : V3) : Statement (.vfnms x) := by
  intro w hw h
  simp only [encode, Option.some.injEq] at h
  subst h
  obtain ⟨eb, ea, k, b, a, d⟩ := x
  have hk : Packed [(35, 7), (d.val, 5), (a.val, 5), (b.val, 5), (k.val, 3), (ea.toNat, 1), (eb.toNat, 1), (3, 5)] :=
    ⟨by decide, d.isLt, a.isLt, b.isLt, k.isLt, bool_lt_two ea, bool_lt_two eb, by decide, trivial⟩
  refine decode_of_pack _ [(35, 7), (d.val, 5), (a.val, 5), (b.val, 5), (k.val, 3), (ea.toNat, 1), (eb.toNat, 1), (3, 5)] _ (by simp only [V3.enc, pack]; omega) hk rfl ?_ hw
  generalize hn : pack [(35, 7), (d.val, 5), (a.val, 5), (b.val, 5), (k.val, 3), (ea.toNat, 1), (eb.toNat, 1), (3, 5)] = nn at *
  have h0 : nn % 128 = 0x23 := by subst hn; exact pack_mod [(35, 7)] _ hk
  have f0 : fld nn 27 5 = 3 := by subst hn; exact pack_field [(35, 7), (d.val, 5), (a.val, 5), (b.val, 5), (k.val, 3), (ea.toNat, 1), (eb.toNat, 1)] [(3, 5)] _ hk
  have hd : V3.dec nn = ⟨eb, ea, k, b, a, d⟩ := by
    subst hn; simp only [V3.dec, V3.mk.injEq]
    exact ⟨decide_bool _ _ (pack_one [(35, 7), (d.val, 5), (a.val, 5), (b.val, 5), (k.val, 3), (ea.toNat, 1)] _ _ 1 hk),
      decide_bool _ _ (pack_one [(35, 7), (d.val, 5), (a.val, 5), (b.val, 5), (k.val, 3)] _ _ 1 hk),
      fin_of _ _ _ (pack_one [(35, 7), (d.val, 5), (a.val, 5), (b.val, 5)] _ _ 3 hk),
      fin_of _ _ _ (pack_one [(35, 7), (d.val, 5), (a.val, 5)] _ _ 5 hk),
      fin_of _ _ _ (pack_one [(35, 7), (d.val, 5)] _ _ 5 hk),
      fin_of _ _ _ (pack_one [(35, 7)] _ _ 5 hk)⟩
  rw [rowOf_23 _ h0]
  simp [rowVfma, f0, hd]

theorem vmacw (x : V3) : Statement (.vmacw x) := by
  intro w hw h
  simp only [encode, Option.some.injEq] at h
  subst h
  obtain ⟨eb, ea, k, b, a, d⟩ := x
  have hk : Packed [(36, 7), (d.val, 5), (a.val, 5), (b.val, 5), (k.val, 3), (ea.toNat, 1), (eb.toNat, 1), (0, 5)] :=
    ⟨by decide, d.isLt, a.isLt, b.isLt, k.isLt, bool_lt_two ea, bool_lt_two eb, by decide, trivial⟩
  refine decode_of_pack _ [(36, 7), (d.val, 5), (a.val, 5), (b.val, 5), (k.val, 3), (ea.toNat, 1), (eb.toNat, 1), (0, 5)] _ (by simp only [V3.enc, pack]; omega) hk rfl ?_ hw
  generalize hn : pack [(36, 7), (d.val, 5), (a.val, 5), (b.val, 5), (k.val, 3), (ea.toNat, 1), (eb.toNat, 1), (0, 5)] = nn at *
  have h0 : nn % 128 = 0x24 := by subst hn; exact pack_mod [(36, 7)] _ hk
  have f0 : fld nn 27 5 = 0 := by subst hn; exact pack_field [(36, 7), (d.val, 5), (a.val, 5), (b.val, 5), (k.val, 3), (ea.toNat, 1), (eb.toNat, 1)] [(0, 5)] _ hk
  have hd : V3.dec nn = ⟨eb, ea, k, b, a, d⟩ := by
    subst hn; simp only [V3.dec, V3.mk.injEq]
    exact ⟨decide_bool _ _ (pack_one [(36, 7), (d.val, 5), (a.val, 5), (b.val, 5), (k.val, 3), (ea.toNat, 1)] _ _ 1 hk),
      decide_bool _ _ (pack_one [(36, 7), (d.val, 5), (a.val, 5), (b.val, 5), (k.val, 3)] _ _ 1 hk),
      fin_of _ _ _ (pack_one [(36, 7), (d.val, 5), (a.val, 5), (b.val, 5)] _ _ 3 hk),
      fin_of _ _ _ (pack_one [(36, 7), (d.val, 5), (a.val, 5)] _ _ 5 hk),
      fin_of _ _ _ (pack_one [(36, 7), (d.val, 5)] _ _ 5 hk),
      fin_of _ _ _ (pack_one [(36, 7)] _ _ 5 hk)⟩
  rw [rowOf_24 _ h0]
  simp [rowVmacw, f0, hd]

theorem vcmpEq (x : VCmp) : Statement (.vcmpEq x) := by
  intro w hw h
  simp only [encode, Option.some.injEq] at h
  subst h
  obtain ⟨eb, ea, k, b, a, d⟩ := x
  have hk : Packed [(37, 7), (d.val, 3), (0, 2), (a.val, 5), (b.val, 5), (k.val, 3), (ea.toNat, 1), (eb.toNat, 1), (0, 5)] :=
    ⟨by decide, d.isLt, by decide, a.isLt, b.isLt, k.isLt, bool_lt_two ea, bool_lt_two eb, by decide, trivial⟩
  refine decode_of_pack _ [(37, 7), (d.val, 3), (0, 2), (a.val, 5), (b.val, 5), (k.val, 3), (ea.toNat, 1), (eb.toNat, 1), (0, 5)] _ (by simp only [VCmp.enc, pack]; omega) hk rfl ?_ hw
  generalize hn : pack [(37, 7), (d.val, 3), (0, 2), (a.val, 5), (b.val, 5), (k.val, 3), (ea.toNat, 1), (eb.toNat, 1), (0, 5)] = nn at *
  have h0 : nn % 128 = 0x25 := by subst hn; exact pack_mod [(37, 7)] _ hk
  have f0 : fld nn 27 5 = 0 := by subst hn; exact pack_field [(37, 7), (d.val, 3), (0, 2), (a.val, 5), (b.val, 5), (k.val, 3), (ea.toNat, 1), (eb.toNat, 1)] [(0, 5)] _ hk
  have f1 : fld nn 10 2 = 0 := by subst hn; exact pack_field [(37, 7), (d.val, 3)] [(0, 2)] _ hk
  have hd : VCmp.dec nn = ⟨eb, ea, k, b, a, d⟩ := by
    subst hn; simp only [VCmp.dec, VCmp.mk.injEq]
    exact ⟨decide_bool _ _ (pack_one [(37, 7), (d.val, 3), (0, 2), (a.val, 5), (b.val, 5), (k.val, 3), (ea.toNat, 1)] _ _ 1 hk),
      decide_bool _ _ (pack_one [(37, 7), (d.val, 3), (0, 2), (a.val, 5), (b.val, 5), (k.val, 3)] _ _ 1 hk),
      fin_of _ _ _ (pack_one [(37, 7), (d.val, 3), (0, 2), (a.val, 5), (b.val, 5)] _ _ 3 hk),
      fin_of _ _ _ (pack_one [(37, 7), (d.val, 3), (0, 2), (a.val, 5)] _ _ 5 hk),
      fin_of _ _ _ (pack_one [(37, 7), (d.val, 3), (0, 2)] _ _ 5 hk),
      fin_of _ _ _ (pack_one [(37, 7)] _ _ 3 hk)⟩
  rw [rowOf_25 _ h0]
  simp [rowVcmp, f0, f1, hd]

theorem vcmpNe (x : VCmp) : Statement (.vcmpNe x) := by
  intro w hw h
  simp only [encode, Option.some.injEq] at h
  subst h
  obtain ⟨eb, ea, k, b, a, d⟩ := x
  have hk : Packed [(37, 7), (d.val, 3), (0, 2), (a.val, 5), (b.val, 5), (k.val, 3), (ea.toNat, 1), (eb.toNat, 1), (1, 5)] :=
    ⟨by decide, d.isLt, by decide, a.isLt, b.isLt, k.isLt, bool_lt_two ea, bool_lt_two eb, by decide, trivial⟩
  refine decode_of_pack _ [(37, 7), (d.val, 3), (0, 2), (a.val, 5), (b.val, 5), (k.val, 3), (ea.toNat, 1), (eb.toNat, 1), (1, 5)] _ (by simp only [VCmp.enc, pack]; omega) hk rfl ?_ hw
  generalize hn : pack [(37, 7), (d.val, 3), (0, 2), (a.val, 5), (b.val, 5), (k.val, 3), (ea.toNat, 1), (eb.toNat, 1), (1, 5)] = nn at *
  have h0 : nn % 128 = 0x25 := by subst hn; exact pack_mod [(37, 7)] _ hk
  have f0 : fld nn 27 5 = 1 := by subst hn; exact pack_field [(37, 7), (d.val, 3), (0, 2), (a.val, 5), (b.val, 5), (k.val, 3), (ea.toNat, 1), (eb.toNat, 1)] [(1, 5)] _ hk
  have f1 : fld nn 10 2 = 0 := by subst hn; exact pack_field [(37, 7), (d.val, 3)] [(0, 2)] _ hk
  have hd : VCmp.dec nn = ⟨eb, ea, k, b, a, d⟩ := by
    subst hn; simp only [VCmp.dec, VCmp.mk.injEq]
    exact ⟨decide_bool _ _ (pack_one [(37, 7), (d.val, 3), (0, 2), (a.val, 5), (b.val, 5), (k.val, 3), (ea.toNat, 1)] _ _ 1 hk),
      decide_bool _ _ (pack_one [(37, 7), (d.val, 3), (0, 2), (a.val, 5), (b.val, 5), (k.val, 3)] _ _ 1 hk),
      fin_of _ _ _ (pack_one [(37, 7), (d.val, 3), (0, 2), (a.val, 5), (b.val, 5)] _ _ 3 hk),
      fin_of _ _ _ (pack_one [(37, 7), (d.val, 3), (0, 2), (a.val, 5)] _ _ 5 hk),
      fin_of _ _ _ (pack_one [(37, 7), (d.val, 3), (0, 2)] _ _ 5 hk),
      fin_of _ _ _ (pack_one [(37, 7)] _ _ 3 hk)⟩
  rw [rowOf_25 _ h0]
  simp [rowVcmp, f0, f1, hd]

theorem vcmpLt (x : VCmp) : Statement (.vcmpLt x) := by
  intro w hw h
  simp only [encode, Option.some.injEq] at h
  subst h
  obtain ⟨eb, ea, k, b, a, d⟩ := x
  have hk : Packed [(37, 7), (d.val, 3), (0, 2), (a.val, 5), (b.val, 5), (k.val, 3), (ea.toNat, 1), (eb.toNat, 1), (2, 5)] :=
    ⟨by decide, d.isLt, by decide, a.isLt, b.isLt, k.isLt, bool_lt_two ea, bool_lt_two eb, by decide, trivial⟩
  refine decode_of_pack _ [(37, 7), (d.val, 3), (0, 2), (a.val, 5), (b.val, 5), (k.val, 3), (ea.toNat, 1), (eb.toNat, 1), (2, 5)] _ (by simp only [VCmp.enc, pack]; omega) hk rfl ?_ hw
  generalize hn : pack [(37, 7), (d.val, 3), (0, 2), (a.val, 5), (b.val, 5), (k.val, 3), (ea.toNat, 1), (eb.toNat, 1), (2, 5)] = nn at *
  have h0 : nn % 128 = 0x25 := by subst hn; exact pack_mod [(37, 7)] _ hk
  have f0 : fld nn 27 5 = 2 := by subst hn; exact pack_field [(37, 7), (d.val, 3), (0, 2), (a.val, 5), (b.val, 5), (k.val, 3), (ea.toNat, 1), (eb.toNat, 1)] [(2, 5)] _ hk
  have f1 : fld nn 10 2 = 0 := by subst hn; exact pack_field [(37, 7), (d.val, 3)] [(0, 2)] _ hk
  have hd : VCmp.dec nn = ⟨eb, ea, k, b, a, d⟩ := by
    subst hn; simp only [VCmp.dec, VCmp.mk.injEq]
    exact ⟨decide_bool _ _ (pack_one [(37, 7), (d.val, 3), (0, 2), (a.val, 5), (b.val, 5), (k.val, 3), (ea.toNat, 1)] _ _ 1 hk),
      decide_bool _ _ (pack_one [(37, 7), (d.val, 3), (0, 2), (a.val, 5), (b.val, 5), (k.val, 3)] _ _ 1 hk),
      fin_of _ _ _ (pack_one [(37, 7), (d.val, 3), (0, 2), (a.val, 5), (b.val, 5)] _ _ 3 hk),
      fin_of _ _ _ (pack_one [(37, 7), (d.val, 3), (0, 2), (a.val, 5)] _ _ 5 hk),
      fin_of _ _ _ (pack_one [(37, 7), (d.val, 3), (0, 2)] _ _ 5 hk),
      fin_of _ _ _ (pack_one [(37, 7)] _ _ 3 hk)⟩
  rw [rowOf_25 _ h0]
  simp [rowVcmp, f0, f1, hd]

theorem vcmpLe (x : VCmp) : Statement (.vcmpLe x) := by
  intro w hw h
  simp only [encode, Option.some.injEq] at h
  subst h
  obtain ⟨eb, ea, k, b, a, d⟩ := x
  have hk : Packed [(37, 7), (d.val, 3), (0, 2), (a.val, 5), (b.val, 5), (k.val, 3), (ea.toNat, 1), (eb.toNat, 1), (3, 5)] :=
    ⟨by decide, d.isLt, by decide, a.isLt, b.isLt, k.isLt, bool_lt_two ea, bool_lt_two eb, by decide, trivial⟩
  refine decode_of_pack _ [(37, 7), (d.val, 3), (0, 2), (a.val, 5), (b.val, 5), (k.val, 3), (ea.toNat, 1), (eb.toNat, 1), (3, 5)] _ (by simp only [VCmp.enc, pack]; omega) hk rfl ?_ hw
  generalize hn : pack [(37, 7), (d.val, 3), (0, 2), (a.val, 5), (b.val, 5), (k.val, 3), (ea.toNat, 1), (eb.toNat, 1), (3, 5)] = nn at *
  have h0 : nn % 128 = 0x25 := by subst hn; exact pack_mod [(37, 7)] _ hk
  have f0 : fld nn 27 5 = 3 := by subst hn; exact pack_field [(37, 7), (d.val, 3), (0, 2), (a.val, 5), (b.val, 5), (k.val, 3), (ea.toNat, 1), (eb.toNat, 1)] [(3, 5)] _ hk
  have f1 : fld nn 10 2 = 0 := by subst hn; exact pack_field [(37, 7), (d.val, 3)] [(0, 2)] _ hk
  have hd : VCmp.dec nn = ⟨eb, ea, k, b, a, d⟩ := by
    subst hn; simp only [VCmp.dec, VCmp.mk.injEq]
    exact ⟨decide_bool _ _ (pack_one [(37, 7), (d.val, 3), (0, 2), (a.val, 5), (b.val, 5), (k.val, 3), (ea.toNat, 1)] _ _ 1 hk),
      decide_bool _ _ (pack_one [(37, 7), (d.val, 3), (0, 2), (a.val, 5), (b.val, 5), (k.val, 3)] _ _ 1 hk),
      fin_of _ _ _ (pack_one [(37, 7), (d.val, 3), (0, 2), (a.val, 5), (b.val, 5)] _ _ 3 hk),
      fin_of _ _ _ (pack_one [(37, 7), (d.val, 3), (0, 2), (a.val, 5)] _ _ 5 hk),
      fin_of _ _ _ (pack_one [(37, 7), (d.val, 3), (0, 2)] _ _ 5 hk),
      fin_of _ _ _ (pack_one [(37, 7)] _ _ 3 hk)⟩
  rw [rowOf_25 _ h0]
  simp [rowVcmp, f0, f1, hd]

theorem vcmpGt (x : VCmp) : Statement (.vcmpGt x) := by
  intro w hw h
  simp only [encode, Option.some.injEq] at h
  subst h
  obtain ⟨eb, ea, k, b, a, d⟩ := x
  have hk : Packed [(37, 7), (d.val, 3), (0, 2), (a.val, 5), (b.val, 5), (k.val, 3), (ea.toNat, 1), (eb.toNat, 1), (4, 5)] :=
    ⟨by decide, d.isLt, by decide, a.isLt, b.isLt, k.isLt, bool_lt_two ea, bool_lt_two eb, by decide, trivial⟩
  refine decode_of_pack _ [(37, 7), (d.val, 3), (0, 2), (a.val, 5), (b.val, 5), (k.val, 3), (ea.toNat, 1), (eb.toNat, 1), (4, 5)] _ (by simp only [VCmp.enc, pack]; omega) hk rfl ?_ hw
  generalize hn : pack [(37, 7), (d.val, 3), (0, 2), (a.val, 5), (b.val, 5), (k.val, 3), (ea.toNat, 1), (eb.toNat, 1), (4, 5)] = nn at *
  have h0 : nn % 128 = 0x25 := by subst hn; exact pack_mod [(37, 7)] _ hk
  have f0 : fld nn 27 5 = 4 := by subst hn; exact pack_field [(37, 7), (d.val, 3), (0, 2), (a.val, 5), (b.val, 5), (k.val, 3), (ea.toNat, 1), (eb.toNat, 1)] [(4, 5)] _ hk
  have f1 : fld nn 10 2 = 0 := by subst hn; exact pack_field [(37, 7), (d.val, 3)] [(0, 2)] _ hk
  have hd : VCmp.dec nn = ⟨eb, ea, k, b, a, d⟩ := by
    subst hn; simp only [VCmp.dec, VCmp.mk.injEq]
    exact ⟨decide_bool _ _ (pack_one [(37, 7), (d.val, 3), (0, 2), (a.val, 5), (b.val, 5), (k.val, 3), (ea.toNat, 1)] _ _ 1 hk),
      decide_bool _ _ (pack_one [(37, 7), (d.val, 3), (0, 2), (a.val, 5), (b.val, 5), (k.val, 3)] _ _ 1 hk),
      fin_of _ _ _ (pack_one [(37, 7), (d.val, 3), (0, 2), (a.val, 5), (b.val, 5)] _ _ 3 hk),
      fin_of _ _ _ (pack_one [(37, 7), (d.val, 3), (0, 2), (a.val, 5)] _ _ 5 hk),
      fin_of _ _ _ (pack_one [(37, 7), (d.val, 3), (0, 2)] _ _ 5 hk),
      fin_of _ _ _ (pack_one [(37, 7)] _ _ 3 hk)⟩
  rw [rowOf_25 _ h0]
  simp [rowVcmp, f0, f1, hd]

theorem vcmpGe (x : VCmp) : Statement (.vcmpGe x) := by
  intro w hw h
  simp only [encode, Option.some.injEq] at h
  subst h
  obtain ⟨eb, ea, k, b, a, d⟩ := x
  have hk : Packed [(37, 7), (d.val, 3), (0, 2), (a.val, 5), (b.val, 5), (k.val, 3), (ea.toNat, 1), (eb.toNat, 1), (5, 5)] :=
    ⟨by decide, d.isLt, by decide, a.isLt, b.isLt, k.isLt, bool_lt_two ea, bool_lt_two eb, by decide, trivial⟩
  refine decode_of_pack _ [(37, 7), (d.val, 3), (0, 2), (a.val, 5), (b.val, 5), (k.val, 3), (ea.toNat, 1), (eb.toNat, 1), (5, 5)] _ (by simp only [VCmp.enc, pack]; omega) hk rfl ?_ hw
  generalize hn : pack [(37, 7), (d.val, 3), (0, 2), (a.val, 5), (b.val, 5), (k.val, 3), (ea.toNat, 1), (eb.toNat, 1), (5, 5)] = nn at *
  have h0 : nn % 128 = 0x25 := by subst hn; exact pack_mod [(37, 7)] _ hk
  have f0 : fld nn 27 5 = 5 := by subst hn; exact pack_field [(37, 7), (d.val, 3), (0, 2), (a.val, 5), (b.val, 5), (k.val, 3), (ea.toNat, 1), (eb.toNat, 1)] [(5, 5)] _ hk
  have f1 : fld nn 10 2 = 0 := by subst hn; exact pack_field [(37, 7), (d.val, 3)] [(0, 2)] _ hk
  have hd : VCmp.dec nn = ⟨eb, ea, k, b, a, d⟩ := by
    subst hn; simp only [VCmp.dec, VCmp.mk.injEq]
    exact ⟨decide_bool _ _ (pack_one [(37, 7), (d.val, 3), (0, 2), (a.val, 5), (b.val, 5), (k.val, 3), (ea.toNat, 1)] _ _ 1 hk),
      decide_bool _ _ (pack_one [(37, 7), (d.val, 3), (0, 2), (a.val, 5), (b.val, 5), (k.val, 3)] _ _ 1 hk),
      fin_of _ _ _ (pack_one [(37, 7), (d.val, 3), (0, 2), (a.val, 5), (b.val, 5)] _ _ 3 hk),
      fin_of _ _ _ (pack_one [(37, 7), (d.val, 3), (0, 2), (a.val, 5)] _ _ 5 hk),
      fin_of _ _ _ (pack_one [(37, 7), (d.val, 3), (0, 2)] _ _ 5 hk),
      fin_of _ _ _ (pack_one [(37, 7)] _ _ 3 hk)⟩
  rw [rowOf_25 _ h0]
  simp [rowVcmp, f0, f1, hd]

theorem vcmpUn (x : VCmp) : Statement (.vcmpUn x) := by
  intro w hw h
  simp only [encode, Option.some.injEq] at h
  subst h
  obtain ⟨eb, ea, k, b, a, d⟩ := x
  have hk : Packed [(37, 7), (d.val, 3), (0, 2), (a.val, 5), (b.val, 5), (k.val, 3), (ea.toNat, 1), (eb.toNat, 1), (6, 5)] :=
    ⟨by decide, d.isLt, by decide, a.isLt, b.isLt, k.isLt, bool_lt_two ea, bool_lt_two eb, by decide, trivial⟩
  refine decode_of_pack _ [(37, 7), (d.val, 3), (0, 2), (a.val, 5), (b.val, 5), (k.val, 3), (ea.toNat, 1), (eb.toNat, 1), (6, 5)] _ (by simp only [VCmp.enc, pack]; omega) hk rfl ?_ hw
  generalize hn : pack [(37, 7), (d.val, 3), (0, 2), (a.val, 5), (b.val, 5), (k.val, 3), (ea.toNat, 1), (eb.toNat, 1), (6, 5)] = nn at *
  have h0 : nn % 128 = 0x25 := by subst hn; exact pack_mod [(37, 7)] _ hk
  have f0 : fld nn 27 5 = 6 := by subst hn; exact pack_field [(37, 7), (d.val, 3), (0, 2), (a.val, 5), (b.val, 5), (k.val, 3), (ea.toNat, 1), (eb.toNat, 1)] [(6, 5)] _ hk
  have f1 : fld nn 10 2 = 0 := by subst hn; exact pack_field [(37, 7), (d.val, 3)] [(0, 2)] _ hk
  have hd : VCmp.dec nn = ⟨eb, ea, k, b, a, d⟩ := by
    subst hn; simp only [VCmp.dec, VCmp.mk.injEq]
    exact ⟨decide_bool _ _ (pack_one [(37, 7), (d.val, 3), (0, 2), (a.val, 5), (b.val, 5), (k.val, 3), (ea.toNat, 1)] _ _ 1 hk),
      decide_bool _ _ (pack_one [(37, 7), (d.val, 3), (0, 2), (a.val, 5), (b.val, 5), (k.val, 3)] _ _ 1 hk),
      fin_of _ _ _ (pack_one [(37, 7), (d.val, 3), (0, 2), (a.val, 5), (b.val, 5)] _ _ 3 hk),
      fin_of _ _ _ (pack_one [(37, 7), (d.val, 3), (0, 2), (a.val, 5)] _ _ 5 hk),
      fin_of _ _ _ (pack_one [(37, 7), (d.val, 3), (0, 2)] _ _ 5 hk),
      fin_of _ _ _ (pack_one [(37, 7)] _ _ 3 hk)⟩
  rw [rowOf_25 _ h0]
  simp [rowVcmp, f0, f1, hd]

theorem vsel (x : V3) : Statement (.vsel x) := by
  intro w hw h
  simp only [encode, Option.some.injEq] at h
  subst h
  obtain ⟨eb, ea, k, b, a, d⟩ := x
  have hk : Packed [(38, 7), (d.val, 5), (a.val, 5), (b.val, 5), (k.val, 3), (ea.toNat, 1), (eb.toNat, 1), (0, 5)] :=
    ⟨by decide, d.isLt, a.isLt, b.isLt, k.isLt, bool_lt_two ea, bool_lt_two eb, by decide, trivial⟩
  refine decode_of_pack _ [(38, 7), (d.val, 5), (a.val, 5), (b.val, 5), (k.val, 3), (ea.toNat, 1), (eb.toNat, 1), (0, 5)] _ (by simp only [V3.enc, pack]; omega) hk rfl ?_ hw
  generalize hn : pack [(38, 7), (d.val, 5), (a.val, 5), (b.val, 5), (k.val, 3), (ea.toNat, 1), (eb.toNat, 1), (0, 5)] = nn at *
  have h0 : nn % 128 = 0x26 := by subst hn; exact pack_mod [(38, 7)] _ hk
  have f0 : fld nn 27 5 = 0 := by subst hn; exact pack_field [(38, 7), (d.val, 5), (a.val, 5), (b.val, 5), (k.val, 3), (ea.toNat, 1), (eb.toNat, 1)] [(0, 5)] _ hk
  have hd : V3.dec nn = ⟨eb, ea, k, b, a, d⟩ := by
    subst hn; simp only [V3.dec, V3.mk.injEq]
    exact ⟨decide_bool _ _ (pack_one [(38, 7), (d.val, 5), (a.val, 5), (b.val, 5), (k.val, 3), (ea.toNat, 1)] _ _ 1 hk),
      decide_bool _ _ (pack_one [(38, 7), (d.val, 5), (a.val, 5), (b.val, 5), (k.val, 3)] _ _ 1 hk),
      fin_of _ _ _ (pack_one [(38, 7), (d.val, 5), (a.val, 5), (b.val, 5)] _ _ 3 hk),
      fin_of _ _ _ (pack_one [(38, 7), (d.val, 5), (a.val, 5)] _ _ 5 hk),
      fin_of _ _ _ (pack_one [(38, 7), (d.val, 5)] _ _ 5 hk),
      fin_of _ _ _ (pack_one [(38, 7)] _ _ 5 hk)⟩
  rw [rowOf_26 _ h0]
  simp [rowVsel, f0, hd]

theorem vcvt (x : VCvt) : Statement (.vcvt x) := by
  intro w hw h
  simp only [encode, Option.some.injEq] at h
  subst h
  obtain ⟨rnd, ea, k, a, d⟩ := x
  have hk : Packed [(39, 7), (d.val, 5), (a.val, 5), (0, 5), (k.val, 3), (ea.toNat, 1), (0, 1), (rnd.val, 3), (0, 2)] :=
    ⟨by decide, d.isLt, a.isLt, by decide, k.isLt, bool_lt_two ea, by decide, rnd.isLt, by decide, trivial⟩
  refine decode_of_pack _ [(39, 7), (d.val, 5), (a.val, 5), (0, 5), (k.val, 3), (ea.toNat, 1), (0, 1), (rnd.val, 3), (0, 2)] _ (by simp only [VCvt.enc, pack]; omega) hk rfl ?_ hw
  generalize hn : pack [(39, 7), (d.val, 5), (a.val, 5), (0, 5), (k.val, 3), (ea.toNat, 1), (0, 1), (rnd.val, 3), (0, 2)] = nn at *
  have h0 : nn % 128 = 0x27 := by subst hn; exact pack_mod [(39, 7)] _ hk
  have f0 : fld nn 30 2 = 0 := by subst hn; exact pack_field [(39, 7), (d.val, 5), (a.val, 5), (0, 5), (k.val, 3), (ea.toNat, 1), (0, 1), (rnd.val, 3)] [(0, 2)] _ hk
  have f1 : fld nn 26 1 = 0 := by subst hn; exact pack_field [(39, 7), (d.val, 5), (a.val, 5), (0, 5), (k.val, 3), (ea.toNat, 1)] [(0, 1)] _ hk
  have f2 : fld nn 17 5 = 0 := by subst hn; exact pack_field [(39, 7), (d.val, 5), (a.val, 5)] [(0, 5)] _ hk
  have hd : VCvt.dec nn = ⟨rnd, ea, k, a, d⟩ := by
    subst hn; simp only [VCvt.dec, VCvt.mk.injEq]
    exact ⟨fin_of _ _ _ (pack_one [(39, 7), (d.val, 5), (a.val, 5), (0, 5), (k.val, 3), (ea.toNat, 1), (0, 1)] _ _ 3 hk),
      decide_bool _ _ (pack_one [(39, 7), (d.val, 5), (a.val, 5), (0, 5), (k.val, 3)] _ _ 1 hk),
      fin_of _ _ _ (pack_one [(39, 7), (d.val, 5), (a.val, 5), (0, 5)] _ _ 3 hk),
      fin_of _ _ _ (pack_one [(39, 7), (d.val, 5)] _ _ 5 hk),
      fin_of _ _ _ (pack_one [(39, 7)] _ _ 5 hk)⟩
  rw [rowOf_27 _ h0]
  simp [rowVcvt, f0, f1, f2, hd]

theorem vshrr (x : VShrr) : Statement (.vshrr x) := by
  intro w hw h
  simp only [encode, Option.some.injEq] at h
  subst h
  obtain ⟨scalar, narrow, eb, ea, k, b, a, d⟩ := x
  have hk : Packed [(40, 7), (d.val, 5), (a.val, 5), (b.val, 5), (k.val, 3), (ea.toNat, 1), (eb.toNat, 1), (narrow.toNat, 1), (scalar.toNat, 1), (0, 3)] :=
    ⟨by decide, d.isLt, a.isLt, b.isLt, k.isLt, bool_lt_two ea, bool_lt_two eb, bool_lt_two narrow, bool_lt_two scalar, by decide, trivial⟩
  refine decode_of_pack _ [(40, 7), (d.val, 5), (a.val, 5), (b.val, 5), (k.val, 3), (ea.toNat, 1), (eb.toNat, 1), (narrow.toNat, 1), (scalar.toNat, 1), (0, 3)] _ (by simp only [VShrr.enc, pack]; omega) hk rfl ?_ hw
  generalize hn : pack [(40, 7), (d.val, 5), (a.val, 5), (b.val, 5), (k.val, 3), (ea.toNat, 1), (eb.toNat, 1), (narrow.toNat, 1), (scalar.toNat, 1), (0, 3)] = nn at *
  have h0 : nn % 128 = 0x28 := by subst hn; exact pack_mod [(40, 7)] _ hk
  have f0 : fld nn 29 3 = 0 := by subst hn; exact pack_field [(40, 7), (d.val, 5), (a.val, 5), (b.val, 5), (k.val, 3), (ea.toNat, 1), (eb.toNat, 1), (narrow.toNat, 1), (scalar.toNat, 1)] [(0, 3)] _ hk
  have hd : VShrr.dec nn = ⟨scalar, narrow, eb, ea, k, b, a, d⟩ := by
    subst hn; simp only [VShrr.dec, VShrr.mk.injEq]
    exact ⟨decide_bool _ _ (pack_one [(40, 7), (d.val, 5), (a.val, 5), (b.val, 5), (k.val, 3), (ea.toNat, 1), (eb.toNat, 1), (narrow.toNat, 1)] _ _ 1 hk),
      decide_bool _ _ (pack_one [(40, 7), (d.val, 5), (a.val, 5), (b.val, 5), (k.val, 3), (ea.toNat, 1), (eb.toNat, 1)] _ _ 1 hk),
      decide_bool _ _ (pack_one [(40, 7), (d.val, 5), (a.val, 5), (b.val, 5), (k.val, 3), (ea.toNat, 1)] _ _ 1 hk),
      decide_bool _ _ (pack_one [(40, 7), (d.val, 5), (a.val, 5), (b.val, 5), (k.val, 3)] _ _ 1 hk),
      fin_of _ _ _ (pack_one [(40, 7), (d.val, 5), (a.val, 5), (b.val, 5)] _ _ 3 hk),
      fin_of _ _ _ (pack_one [(40, 7), (d.val, 5), (a.val, 5)] _ _ 5 hk),
      fin_of _ _ _ (pack_one [(40, 7), (d.val, 5)] _ _ 5 hk),
      fin_of _ _ _ (pack_one [(40, 7)] _ _ 5 hk)⟩
  rw [rowOf_28 _ h0]
  simp [rowVshrr, f0, hd]

theorem vdiv (x : V3) : Statement (.vdiv x) := by
  intro w hw h
  simp only [encode, Option.some.injEq] at h
  subst h
  obtain ⟨eb, ea, k, b, a, d⟩ := x
  have hk : Packed [(41, 7), (d.val, 5), (a.val, 5), (b.val, 5), (k.val, 3), (ea.toNat, 1), (eb.toNat, 1), (0, 5)] :=
    ⟨by decide, d.isLt, a.isLt, b.isLt, k.isLt, bool_lt_two ea, bool_lt_two eb, by decide, trivial⟩
  refine decode_of_pack _ [(41, 7), (d.val, 5), (a.val, 5), (b.val, 5), (k.val, 3), (ea.toNat, 1), (eb.toNat, 1), (0, 5)] _ (by simp only [V3.enc, pack]; omega) hk rfl ?_ hw
  generalize hn : pack [(41, 7), (d.val, 5), (a.val, 5), (b.val, 5), (k.val, 3), (ea.toNat, 1), (eb.toNat, 1), (0, 5)] = nn at *
  have h0 : nn % 128 = 0x29 := by subst hn; exact pack_mod [(41, 7)] _ hk
  have f0 : fld nn 27 5 = 0 := by subst hn; exact pack_field [(41, 7), (d.val, 5), (a.val, 5), (b.val, 5), (k.val, 3), (ea.toNat, 1), (eb.toNat, 1)] [(0, 5)] _ hk
  have hd : V3.dec nn = ⟨eb, ea, k, b, a, d⟩ := by
    subst hn; simp only [V3.dec, V3.mk.injEq]
    exact ⟨decide_bool _ _ (pack_one [(41, 7), (d.val, 5), (a.val, 5), (b.val, 5), (k.val, 3), (ea.toNat, 1)] _ _ 1 hk),
      decide_bool _ _ (pack_one [(41, 7), (d.val, 5), (a.val, 5), (b.val, 5), (k.val, 3)] _ _ 1 hk),
      fin_of _ _ _ (pack_one [(41, 7), (d.val, 5), (a.val, 5), (b.val, 5)] _ _ 3 hk),
      fin_of _ _ _ (pack_one [(41, 7), (d.val, 5), (a.val, 5)] _ _ 5 hk),
      fin_of _ _ _ (pack_one [(41, 7), (d.val, 5)] _ _ 5 hk),
      fin_of _ _ _ (pack_one [(41, 7)] _ _ 5 hk)⟩
  rw [rowOf_29 _ h0]
  simp [rowMath, f0, hd]

theorem vsqrt (x : V2) : Statement (.vsqrt x) := by
  intro w hw h
  simp only [encode, Option.some.injEq] at h
  subst h
  obtain ⟨ea, k, a, d⟩ := x
  have hk : Packed [(41, 7), (d.val, 5), (a.val, 5), (0, 5), (k.val, 3), (ea.toNat, 1), (0, 1), (1, 5)] :=
    ⟨by decide, d.isLt, a.isLt, by decide, k.isLt, bool_lt_two ea, by decide, by decide, trivial⟩
  refine decode_of_pack _ [(41, 7), (d.val, 5), (a.val, 5), (0, 5), (k.val, 3), (ea.toNat, 1), (0, 1), (1, 5)] _ (by simp only [V2.enc, pack]; omega) hk rfl ?_ hw
  generalize hn : pack [(41, 7), (d.val, 5), (a.val, 5), (0, 5), (k.val, 3), (ea.toNat, 1), (0, 1), (1, 5)] = nn at *
  have h0 : nn % 128 = 0x29 := by subst hn; exact pack_mod [(41, 7)] _ hk
  have f0 : fld nn 27 5 = 1 := by subst hn; exact pack_field [(41, 7), (d.val, 5), (a.val, 5), (0, 5), (k.val, 3), (ea.toNat, 1), (0, 1)] [(1, 5)] _ hk
  have f1 : fld nn 26 6 = 2 := by subst hn; exact pack_field [(41, 7), (d.val, 5), (a.val, 5), (0, 5), (k.val, 3), (ea.toNat, 1)] [(0, 1), (1, 5)] _ hk
  have f2 : fld nn 17 5 = 0 := by subst hn; exact pack_field [(41, 7), (d.val, 5), (a.val, 5)] [(0, 5)] _ hk
  have hd : V2.dec nn = ⟨ea, k, a, d⟩ := by
    subst hn; simp only [V2.dec, V2.mk.injEq]
    exact ⟨decide_bool _ _ (pack_one [(41, 7), (d.val, 5), (a.val, 5), (0, 5), (k.val, 3)] _ _ 1 hk),
      fin_of _ _ _ (pack_one [(41, 7), (d.val, 5), (a.val, 5), (0, 5)] _ _ 3 hk),
      fin_of _ _ _ (pack_one [(41, 7), (d.val, 5)] _ _ 5 hk),
      fin_of _ _ _ (pack_one [(41, 7)] _ _ 5 hk)⟩
  rw [rowOf_29 _ h0]
  simp [rowMath, f0, f1, f2, hd]

theorem vrcp (x : V2) : Statement (.vrcp x) := by
  intro w hw h
  simp only [encode, Option.some.injEq] at h
  subst h
  obtain ⟨ea, k, a, d⟩ := x
  have hk : Packed [(41, 7), (d.val, 5), (a.val, 5), (0, 5), (k.val, 3), (ea.toNat, 1), (0, 1), (2, 5)] :=
    ⟨by decide, d.isLt, a.isLt, by decide, k.isLt, bool_lt_two ea, by decide, by decide, trivial⟩
  refine decode_of_pack _ [(41, 7), (d.val, 5), (a.val, 5), (0, 5), (k.val, 3), (ea.toNat, 1), (0, 1), (2, 5)] _ (by simp only [V2.enc, pack]; omega) hk rfl ?_ hw
  generalize hn : pack [(41, 7), (d.val, 5), (a.val, 5), (0, 5), (k.val, 3), (ea.toNat, 1), (0, 1), (2, 5)] = nn at *
  have h0 : nn % 128 = 0x29 := by subst hn; exact pack_mod [(41, 7)] _ hk
  have f0 : fld nn 27 5 = 2 := by subst hn; exact pack_field [(41, 7), (d.val, 5), (a.val, 5), (0, 5), (k.val, 3), (ea.toNat, 1), (0, 1)] [(2, 5)] _ hk
  have f1 : fld nn 26 6 = 4 := by subst hn; exact pack_field [(41, 7), (d.val, 5), (a.val, 5), (0, 5), (k.val, 3), (ea.toNat, 1)] [(0, 1), (2, 5)] _ hk
  have f2 : fld nn 17 5 = 0 := by subst hn; exact pack_field [(41, 7), (d.val, 5), (a.val, 5)] [(0, 5)] _ hk
  have hd : V2.dec nn = ⟨ea, k, a, d⟩ := by
    subst hn; simp only [V2.dec, V2.mk.injEq]
    exact ⟨decide_bool _ _ (pack_one [(41, 7), (d.val, 5), (a.val, 5), (0, 5), (k.val, 3)] _ _ 1 hk),
      fin_of _ _ _ (pack_one [(41, 7), (d.val, 5), (a.val, 5), (0, 5)] _ _ 3 hk),
      fin_of _ _ _ (pack_one [(41, 7), (d.val, 5)] _ _ 5 hk),
      fin_of _ _ _ (pack_one [(41, 7)] _ _ 5 hk)⟩
  rw [rowOf_29 _ h0]
  simp [rowMath, f0, f1, f2, hd]

theorem vrsqrt (x : V2) : Statement (.vrsqrt x) := by
  intro w hw h
  simp only [encode, Option.some.injEq] at h
  subst h
  obtain ⟨ea, k, a, d⟩ := x
  have hk : Packed [(41, 7), (d.val, 5), (a.val, 5), (0, 5), (k.val, 3), (ea.toNat, 1), (0, 1), (3, 5)] :=
    ⟨by decide, d.isLt, a.isLt, by decide, k.isLt, bool_lt_two ea, by decide, by decide, trivial⟩
  refine decode_of_pack _ [(41, 7), (d.val, 5), (a.val, 5), (0, 5), (k.val, 3), (ea.toNat, 1), (0, 1), (3, 5)] _ (by simp only [V2.enc, pack]; omega) hk rfl ?_ hw
  generalize hn : pack [(41, 7), (d.val, 5), (a.val, 5), (0, 5), (k.val, 3), (ea.toNat, 1), (0, 1), (3, 5)] = nn at *
  have h0 : nn % 128 = 0x29 := by subst hn; exact pack_mod [(41, 7)] _ hk
  have f0 : fld nn 27 5 = 3 := by subst hn; exact pack_field [(41, 7), (d.val, 5), (a.val, 5), (0, 5), (k.val, 3), (ea.toNat, 1), (0, 1)] [(3, 5)] _ hk
  have f1 : fld nn 26 6 = 6 := by subst hn; exact pack_field [(41, 7), (d.val, 5), (a.val, 5), (0, 5), (k.val, 3), (ea.toNat, 1)] [(0, 1), (3, 5)] _ hk
  have f2 : fld nn 17 5 = 0 := by subst hn; exact pack_field [(41, 7), (d.val, 5), (a.val, 5)] [(0, 5)] _ hk
  have hd : V2.dec nn = ⟨ea, k, a, d⟩ := by
    subst hn; simp only [V2.dec, V2.mk.injEq]
    exact ⟨decide_bool _ _ (pack_one [(41, 7), (d.val, 5), (a.val, 5), (0, 5), (k.val, 3)] _ _ 1 hk),
      fin_of _ _ _ (pack_one [(41, 7), (d.val, 5), (a.val, 5), (0, 5)] _ _ 3 hk),
      fin_of _ _ _ (pack_one [(41, 7), (d.val, 5)] _ _ 5 hk),
      fin_of _ _ _ (pack_one [(41, 7)] _ _ 5 hk)⟩
  rw [rowOf_29 _ h0]
  simp [rowMath, f0, f1, f2, hd]

theorem vexp2 (x : V2) : Statement (.vexp2 x) := by
  intro w hw h
  simp only [encode, Option.some.injEq] at h
  subst h
  obtain ⟨ea, k, a, d⟩ := x
  have hk : Packed [(41, 7), (d.val, 5), (a.val, 5), (0, 5), (k.val, 3), (ea.toNat, 1), (0, 1), (4, 5)] :=
    ⟨by decide, d.isLt, a.isLt, by decide, k.isLt, bool_lt_two ea, by decide, by decide, trivial⟩
  refine decode_of_pack _ [(41, 7), (d.val, 5), (a.val, 5), (0, 5), (k.val, 3), (ea.toNat, 1), (0, 1), (4, 5)] _ (by simp only [V2.enc, pack]; omega) hk rfl ?_ hw
  generalize hn : pack [(41, 7), (d.val, 5), (a.val, 5), (0, 5), (k.val, 3), (ea.toNat, 1), (0, 1), (4, 5)] = nn at *
  have h0 : nn % 128 = 0x29 := by subst hn; exact pack_mod [(41, 7)] _ hk
  have f0 : fld nn 27 5 = 4 := by subst hn; exact pack_field [(41, 7), (d.val, 5), (a.val, 5), (0, 5), (k.val, 3), (ea.toNat, 1), (0, 1)] [(4, 5)] _ hk
  have f1 : fld nn 26 6 = 8 := by subst hn; exact pack_field [(41, 7), (d.val, 5), (a.val, 5), (0, 5), (k.val, 3), (ea.toNat, 1)] [(0, 1), (4, 5)] _ hk
  have f2 : fld nn 17 5 = 0 := by subst hn; exact pack_field [(41, 7), (d.val, 5), (a.val, 5)] [(0, 5)] _ hk
  have hd : V2.dec nn = ⟨ea, k, a, d⟩ := by
    subst hn; simp only [V2.dec, V2.mk.injEq]
    exact ⟨decide_bool _ _ (pack_one [(41, 7), (d.val, 5), (a.val, 5), (0, 5), (k.val, 3)] _ _ 1 hk),
      fin_of _ _ _ (pack_one [(41, 7), (d.val, 5), (a.val, 5), (0, 5)] _ _ 3 hk),
      fin_of _ _ _ (pack_one [(41, 7), (d.val, 5)] _ _ 5 hk),
      fin_of _ _ _ (pack_one [(41, 7)] _ _ 5 hk)⟩
  rw [rowOf_29 _ h0]
  simp [rowMath, f0, f1, f2, hd]

theorem vlog2 (x : V2) : Statement (.vlog2 x) := by
  intro w hw h
  simp only [encode, Option.some.injEq] at h
  subst h
  obtain ⟨ea, k, a, d⟩ := x
  have hk : Packed [(41, 7), (d.val, 5), (a.val, 5), (0, 5), (k.val, 3), (ea.toNat, 1), (0, 1), (5, 5)] :=
    ⟨by decide, d.isLt, a.isLt, by decide, k.isLt, bool_lt_two ea, by decide, by decide, trivial⟩
  refine decode_of_pack _ [(41, 7), (d.val, 5), (a.val, 5), (0, 5), (k.val, 3), (ea.toNat, 1), (0, 1), (5, 5)] _ (by simp only [V2.enc, pack]; omega) hk rfl ?_ hw
  generalize hn : pack [(41, 7), (d.val, 5), (a.val, 5), (0, 5), (k.val, 3), (ea.toNat, 1), (0, 1), (5, 5)] = nn at *
  have h0 : nn % 128 = 0x29 := by subst hn; exact pack_mod [(41, 7)] _ hk
  have f0 : fld nn 27 5 = 5 := by subst hn; exact pack_field [(41, 7), (d.val, 5), (a.val, 5), (0, 5), (k.val, 3), (ea.toNat, 1), (0, 1)] [(5, 5)] _ hk
  have f1 : fld nn 26 6 = 10 := by subst hn; exact pack_field [(41, 7), (d.val, 5), (a.val, 5), (0, 5), (k.val, 3), (ea.toNat, 1)] [(0, 1), (5, 5)] _ hk
  have f2 : fld nn 17 5 = 0 := by subst hn; exact pack_field [(41, 7), (d.val, 5), (a.val, 5)] [(0, 5)] _ hk
  have hd : V2.dec nn = ⟨ea, k, a, d⟩ := by
    subst hn; simp only [V2.dec, V2.mk.injEq]
    exact ⟨decide_bool _ _ (pack_one [(41, 7), (d.val, 5), (a.val, 5), (0, 5), (k.val, 3)] _ _ 1 hk),
      fin_of _ _ _ (pack_one [(41, 7), (d.val, 5), (a.val, 5), (0, 5)] _ _ 3 hk),
      fin_of _ _ _ (pack_one [(41, 7), (d.val, 5)] _ _ 5 hk),
      fin_of _ _ _ (pack_one [(41, 7)] _ _ 5 hk)⟩
  rw [rowOf_29 _ h0]
  simp [rowMath, f0, f1, f2, hd]

theorem vdot (x : V3) : Statement (.vdot x) := by
  intro w hw h
  simp only [encode, Option.some.injEq] at h
  subst h
  obtain ⟨eb, ea, k, b, a, d⟩ := x
  have hk : Packed [(42, 7), (d.val, 5), (a.val, 5), (b.val, 5), (k.val, 3), (ea.toNat, 1), (eb.toNat, 1), (0, 5)] :=
    ⟨by decide, d.isLt, a.isLt, b.isLt, k.isLt, bool_lt_two ea, bool_lt_two eb, by decide, trivial⟩
  refine decode_of_pack _ [(42, 7), (d.val, 5), (a.val, 5), (b.val, 5), (k.val, 3), (ea.toNat, 1), (eb.toNat, 1), (0, 5)] _ (by simp only [V3.enc, pack]; omega) hk rfl ?_ hw
  generalize hn : pack [(42, 7), (d.val, 5), (a.val, 5), (b.val, 5), (k.val, 3), (ea.toNat, 1), (eb.toNat, 1), (0, 5)] = nn at *
  have h0 : nn % 128 = 0x2A := by subst hn; exact pack_mod [(42, 7)] _ hk
  have f0 : fld nn 27 5 = 0 := by subst hn; exact pack_field [(42, 7), (d.val, 5), (a.val, 5), (b.val, 5), (k.val, 3), (ea.toNat, 1), (eb.toNat, 1)] [(0, 5)] _ hk
  have hd : V3.dec nn = ⟨eb, ea, k, b, a, d⟩ := by
    subst hn; simp only [V3.dec, V3.mk.injEq]
    exact ⟨decide_bool _ _ (pack_one [(42, 7), (d.val, 5), (a.val, 5), (b.val, 5), (k.val, 3), (ea.toNat, 1)] _ _ 1 hk),
      decide_bool _ _ (pack_one [(42, 7), (d.val, 5), (a.val, 5), (b.val, 5), (k.val, 3)] _ _ 1 hk),
      fin_of _ _ _ (pack_one [(42, 7), (d.val, 5), (a.val, 5), (b.val, 5)] _ _ 3 hk),
      fin_of _ _ _ (pack_one [(42, 7), (d.val, 5), (a.val, 5)] _ _ 5 hk),
      fin_of _ _ _ (pack_one [(42, 7), (d.val, 5)] _ _ 5 hk),
      fin_of _ _ _ (pack_one [(42, 7)] _ _ 5 hk)⟩
  rw [rowOf_2A _ h0]
  simp [rowVdot, f0, hd]

theorem vredSum (x : VRed) : Statement (.vredSum x) := by
  intro w hw h
  simp only [encode, Option.some.injEq] at h
  subst h
  obtain ⟨ord, ea, k, a, d⟩ := x
  have hk : Packed [(43, 7), (d.val, 5), (a.val, 5), (0, 5), (k.val, 3), (ea.toNat, 1), (0, 4), (ord.toNat, 1), (0, 1)] :=
    ⟨by decide, d.isLt, a.isLt, by decide, k.isLt, bool_lt_two ea, by decide, bool_lt_two ord, by decide, trivial⟩
  refine decode_of_pack _ [(43, 7), (d.val, 5), (a.val, 5), (0, 5), (k.val, 3), (ea.toNat, 1), (0, 4), (ord.toNat, 1), (0, 1)] _ (by simp only [VRed.enc, pack]; omega) hk rfl ?_ hw
  generalize hn : pack [(43, 7), (d.val, 5), (a.val, 5), (0, 5), (k.val, 3), (ea.toNat, 1), (0, 4), (ord.toNat, 1), (0, 1)] = nn at *
  have h0 : nn % 128 = 0x2B := by subst hn; exact pack_mod [(43, 7)] _ hk
  have f0 : fld nn 31 1 = 0 := by subst hn; exact pack_field [(43, 7), (d.val, 5), (a.val, 5), (0, 5), (k.val, 3), (ea.toNat, 1), (0, 4), (ord.toNat, 1)] [(0, 1)] _ hk
  have f1 : fld nn 26 4 = 0 := by subst hn; exact pack_field [(43, 7), (d.val, 5), (a.val, 5), (0, 5), (k.val, 3), (ea.toNat, 1)] [(0, 4)] _ hk
  have f2 : fld nn 17 5 = 0 := by subst hn; exact pack_field [(43, 7), (d.val, 5), (a.val, 5)] [(0, 5)] _ hk
  have hd : VRed.dec nn = ⟨ord, ea, k, a, d⟩ := by
    subst hn; simp only [VRed.dec, VRed.mk.injEq]
    exact ⟨decide_bool _ _ (pack_one [(43, 7), (d.val, 5), (a.val, 5), (0, 5), (k.val, 3), (ea.toNat, 1), (0, 4)] _ _ 1 hk),
      decide_bool _ _ (pack_one [(43, 7), (d.val, 5), (a.val, 5), (0, 5), (k.val, 3)] _ _ 1 hk),
      fin_of _ _ _ (pack_one [(43, 7), (d.val, 5), (a.val, 5), (0, 5)] _ _ 3 hk),
      fin_of _ _ _ (pack_one [(43, 7), (d.val, 5)] _ _ 5 hk),
      fin_of _ _ _ (pack_one [(43, 7)] _ _ 5 hk)⟩
  rw [rowOf_2B _ h0]
  simp [rowVred, f0, f1, f2, hd]

theorem vredMax (x : VRed) : Statement (.vredMax x) := by
  intro w hw h
  simp only [encode, Option.some.injEq] at h
  subst h
  obtain ⟨ord, ea, k, a, d⟩ := x
  have hk : Packed [(43, 7), (d.val, 5), (a.val, 5), (0, 5), (k.val, 3), (ea.toNat, 1), (2, 4), (ord.toNat, 1), (0, 1)] :=
    ⟨by decide, d.isLt, a.isLt, by decide, k.isLt, bool_lt_two ea, by decide, bool_lt_two ord, by decide, trivial⟩
  refine decode_of_pack _ [(43, 7), (d.val, 5), (a.val, 5), (0, 5), (k.val, 3), (ea.toNat, 1), (2, 4), (ord.toNat, 1), (0, 1)] _ (by simp only [VRed.enc, pack]; omega) hk rfl ?_ hw
  generalize hn : pack [(43, 7), (d.val, 5), (a.val, 5), (0, 5), (k.val, 3), (ea.toNat, 1), (2, 4), (ord.toNat, 1), (0, 1)] = nn at *
  have h0 : nn % 128 = 0x2B := by subst hn; exact pack_mod [(43, 7)] _ hk
  have f0 : fld nn 26 4 = 2 := by subst hn; exact pack_field [(43, 7), (d.val, 5), (a.val, 5), (0, 5), (k.val, 3), (ea.toNat, 1)] [(2, 4)] _ hk
  have f1 : fld nn 31 1 = 0 := by subst hn; exact pack_field [(43, 7), (d.val, 5), (a.val, 5), (0, 5), (k.val, 3), (ea.toNat, 1), (2, 4), (ord.toNat, 1)] [(0, 1)] _ hk
  have f2 : fld nn 17 5 = 0 := by subst hn; exact pack_field [(43, 7), (d.val, 5), (a.val, 5)] [(0, 5)] _ hk
  have hd : VRed.dec nn = ⟨ord, ea, k, a, d⟩ := by
    subst hn; simp only [VRed.dec, VRed.mk.injEq]
    exact ⟨decide_bool _ _ (pack_one [(43, 7), (d.val, 5), (a.val, 5), (0, 5), (k.val, 3), (ea.toNat, 1), (2, 4)] _ _ 1 hk),
      decide_bool _ _ (pack_one [(43, 7), (d.val, 5), (a.val, 5), (0, 5), (k.val, 3)] _ _ 1 hk),
      fin_of _ _ _ (pack_one [(43, 7), (d.val, 5), (a.val, 5), (0, 5)] _ _ 3 hk),
      fin_of _ _ _ (pack_one [(43, 7), (d.val, 5)] _ _ 5 hk),
      fin_of _ _ _ (pack_one [(43, 7)] _ _ 5 hk)⟩
  rw [rowOf_2B _ h0]
  simp [rowVred, f0, f1, f2, hd]

theorem vredMin (x : VRed) : Statement (.vredMin x) := by
  intro w hw h
  simp only [encode, Option.some.injEq] at h
  subst h
  obtain ⟨ord, ea, k, a, d⟩ := x
  have hk : Packed [(43, 7), (d.val, 5), (a.val, 5), (0, 5), (k.val, 3), (ea.toNat, 1), (4, 4), (ord.toNat, 1), (0, 1)] :=
    ⟨by decide, d.isLt, a.isLt, by decide, k.isLt, bool_lt_two ea, by decide, bool_lt_two ord, by decide, trivial⟩
  refine decode_of_pack _ [(43, 7), (d.val, 5), (a.val, 5), (0, 5), (k.val, 3), (ea.toNat, 1), (4, 4), (ord.toNat, 1), (0, 1)] _ (by simp only [VRed.enc, pack]; omega) hk rfl ?_ hw
  generalize hn : pack [(43, 7), (d.val, 5), (a.val, 5), (0, 5), (k.val, 3), (ea.toNat, 1), (4, 4), (ord.toNat, 1), (0, 1)] = nn at *
  have h0 : nn % 128 = 0x2B := by subst hn; exact pack_mod [(43, 7)] _ hk
  have f0 : fld nn 26 4 = 4 := by subst hn; exact pack_field [(43, 7), (d.val, 5), (a.val, 5), (0, 5), (k.val, 3), (ea.toNat, 1)] [(4, 4)] _ hk
  have f1 : fld nn 31 1 = 0 := by subst hn; exact pack_field [(43, 7), (d.val, 5), (a.val, 5), (0, 5), (k.val, 3), (ea.toNat, 1), (4, 4), (ord.toNat, 1)] [(0, 1)] _ hk
  have f2 : fld nn 17 5 = 0 := by subst hn; exact pack_field [(43, 7), (d.val, 5), (a.val, 5)] [(0, 5)] _ hk
  have hd : VRed.dec nn = ⟨ord, ea, k, a, d⟩ := by
    subst hn; simp only [VRed.dec, VRed.mk.injEq]
    exact ⟨decide_bool _ _ (pack_one [(43, 7), (d.val, 5), (a.val, 5), (0, 5), (k.val, 3), (ea.toNat, 1), (4, 4)] _ _ 1 hk),
      decide_bool _ _ (pack_one [(43, 7), (d.val, 5), (a.val, 5), (0, 5), (k.val, 3)] _ _ 1 hk),
      fin_of _ _ _ (pack_one [(43, 7), (d.val, 5), (a.val, 5), (0, 5)] _ _ 3 hk),
      fin_of _ _ _ (pack_one [(43, 7), (d.val, 5)] _ _ 5 hk),
      fin_of _ _ _ (pack_one [(43, 7)] _ _ 5 hk)⟩
  rw [rowOf_2B _ h0]
  simp [rowVred, f0, f1, f2, hd]

theorem vredAnd (x : VRed) : Statement (.vredAnd x) := by
  intro w hw h
  simp only [encode, Option.some.injEq] at h
  subst h
  obtain ⟨ord, ea, k, a, d⟩ := x
  have hk : Packed [(43, 7), (d.val, 5), (a.val, 5), (0, 5), (k.val, 3), (ea.toNat, 1), (6, 4), (ord.toNat, 1), (0, 1)] :=
    ⟨by decide, d.isLt, a.isLt, by decide, k.isLt, bool_lt_two ea, by decide, bool_lt_two ord, by decide, trivial⟩
  refine decode_of_pack _ [(43, 7), (d.val, 5), (a.val, 5), (0, 5), (k.val, 3), (ea.toNat, 1), (6, 4), (ord.toNat, 1), (0, 1)] _ (by simp only [VRed.enc, pack]; omega) hk rfl ?_ hw
  generalize hn : pack [(43, 7), (d.val, 5), (a.val, 5), (0, 5), (k.val, 3), (ea.toNat, 1), (6, 4), (ord.toNat, 1), (0, 1)] = nn at *
  have h0 : nn % 128 = 0x2B := by subst hn; exact pack_mod [(43, 7)] _ hk
  have f0 : fld nn 26 4 = 6 := by subst hn; exact pack_field [(43, 7), (d.val, 5), (a.val, 5), (0, 5), (k.val, 3), (ea.toNat, 1)] [(6, 4)] _ hk
  have f1 : fld nn 31 1 = 0 := by subst hn; exact pack_field [(43, 7), (d.val, 5), (a.val, 5), (0, 5), (k.val, 3), (ea.toNat, 1), (6, 4), (ord.toNat, 1)] [(0, 1)] _ hk
  have f2 : fld nn 17 5 = 0 := by subst hn; exact pack_field [(43, 7), (d.val, 5), (a.val, 5)] [(0, 5)] _ hk
  have hd : VRed.dec nn = ⟨ord, ea, k, a, d⟩ := by
    subst hn; simp only [VRed.dec, VRed.mk.injEq]
    exact ⟨decide_bool _ _ (pack_one [(43, 7), (d.val, 5), (a.val, 5), (0, 5), (k.val, 3), (ea.toNat, 1), (6, 4)] _ _ 1 hk),
      decide_bool _ _ (pack_one [(43, 7), (d.val, 5), (a.val, 5), (0, 5), (k.val, 3)] _ _ 1 hk),
      fin_of _ _ _ (pack_one [(43, 7), (d.val, 5), (a.val, 5), (0, 5)] _ _ 3 hk),
      fin_of _ _ _ (pack_one [(43, 7), (d.val, 5)] _ _ 5 hk),
      fin_of _ _ _ (pack_one [(43, 7)] _ _ 5 hk)⟩
  rw [rowOf_2B _ h0]
  simp [rowVred, f0, f1, f2, hd]

theorem vredOr (x : VRed) : Statement (.vredOr x) := by
  intro w hw h
  simp only [encode, Option.some.injEq] at h
  subst h
  obtain ⟨ord, ea, k, a, d⟩ := x
  have hk : Packed [(43, 7), (d.val, 5), (a.val, 5), (0, 5), (k.val, 3), (ea.toNat, 1), (8, 4), (ord.toNat, 1), (0, 1)] :=
    ⟨by decide, d.isLt, a.isLt, by decide, k.isLt, bool_lt_two ea, by decide, bool_lt_two ord, by decide, trivial⟩
  refine decode_of_pack _ [(43, 7), (d.val, 5), (a.val, 5), (0, 5), (k.val, 3), (ea.toNat, 1), (8, 4), (ord.toNat, 1), (0, 1)] _ (by simp only [VRed.enc, pack]; omega) hk rfl ?_ hw
  generalize hn : pack [(43, 7), (d.val, 5), (a.val, 5), (0, 5), (k.val, 3), (ea.toNat, 1), (8, 4), (ord.toNat, 1), (0, 1)] = nn at *
  have h0 : nn % 128 = 0x2B := by subst hn; exact pack_mod [(43, 7)] _ hk
  have f0 : fld nn 26 4 = 8 := by subst hn; exact pack_field [(43, 7), (d.val, 5), (a.val, 5), (0, 5), (k.val, 3), (ea.toNat, 1)] [(8, 4)] _ hk
  have f1 : fld nn 31 1 = 0 := by subst hn; exact pack_field [(43, 7), (d.val, 5), (a.val, 5), (0, 5), (k.val, 3), (ea.toNat, 1), (8, 4), (ord.toNat, 1)] [(0, 1)] _ hk
  have f2 : fld nn 17 5 = 0 := by subst hn; exact pack_field [(43, 7), (d.val, 5), (a.val, 5)] [(0, 5)] _ hk
  have hd : VRed.dec nn = ⟨ord, ea, k, a, d⟩ := by
    subst hn; simp only [VRed.dec, VRed.mk.injEq]
    exact ⟨decide_bool _ _ (pack_one [(43, 7), (d.val, 5), (a.val, 5), (0, 5), (k.val, 3), (ea.toNat, 1), (8, 4)] _ _ 1 hk),
      decide_bool _ _ (pack_one [(43, 7), (d.val, 5), (a.val, 5), (0, 5), (k.val, 3)] _ _ 1 hk),
      fin_of _ _ _ (pack_one [(43, 7), (d.val, 5), (a.val, 5), (0, 5)] _ _ 3 hk),
      fin_of _ _ _ (pack_one [(43, 7), (d.val, 5)] _ _ 5 hk),
      fin_of _ _ _ (pack_one [(43, 7)] _ _ 5 hk)⟩
  rw [rowOf_2B _ h0]
  simp [rowVred, f0, f1, f2, hd]

theorem vredXor (x : VRed) : Statement (.vredXor x) := by
  intro w hw h
  simp only [encode, Option.some.injEq] at h
  subst h
  obtain ⟨ord, ea, k, a, d⟩ := x
  have hk : Packed [(43, 7), (d.val, 5), (a.val, 5), (0, 5), (k.val, 3), (ea.toNat, 1), (10, 4), (ord.toNat, 1), (0, 1)] :=
    ⟨by decide, d.isLt, a.isLt, by decide, k.isLt, bool_lt_two ea, by decide, bool_lt_two ord, by decide, trivial⟩
  refine decode_of_pack _ [(43, 7), (d.val, 5), (a.val, 5), (0, 5), (k.val, 3), (ea.toNat, 1), (10, 4), (ord.toNat, 1), (0, 1)] _ (by simp only [VRed.enc, pack]; omega) hk rfl ?_ hw
  generalize hn : pack [(43, 7), (d.val, 5), (a.val, 5), (0, 5), (k.val, 3), (ea.toNat, 1), (10, 4), (ord.toNat, 1), (0, 1)] = nn at *
  have h0 : nn % 128 = 0x2B := by subst hn; exact pack_mod [(43, 7)] _ hk
  have f0 : fld nn 26 4 = 10 := by subst hn; exact pack_field [(43, 7), (d.val, 5), (a.val, 5), (0, 5), (k.val, 3), (ea.toNat, 1)] [(10, 4)] _ hk
  have f1 : fld nn 31 1 = 0 := by subst hn; exact pack_field [(43, 7), (d.val, 5), (a.val, 5), (0, 5), (k.val, 3), (ea.toNat, 1), (10, 4), (ord.toNat, 1)] [(0, 1)] _ hk
  have f2 : fld nn 17 5 = 0 := by subst hn; exact pack_field [(43, 7), (d.val, 5), (a.val, 5)] [(0, 5)] _ hk
  have hd : VRed.dec nn = ⟨ord, ea, k, a, d⟩ := by
    subst hn; simp only [VRed.dec, VRed.mk.injEq]
    exact ⟨decide_bool _ _ (pack_one [(43, 7), (d.val, 5), (a.val, 5), (0, 5), (k.val, 3), (ea.toNat, 1), (10, 4)] _ _ 1 hk),
      decide_bool _ _ (pack_one [(43, 7), (d.val, 5), (a.val, 5), (0, 5), (k.val, 3)] _ _ 1 hk),
      fin_of _ _ _ (pack_one [(43, 7), (d.val, 5), (a.val, 5), (0, 5)] _ _ 3 hk),
      fin_of _ _ _ (pack_one [(43, 7), (d.val, 5)] _ _ 5 hk),
      fin_of _ _ _ (pack_one [(43, 7)] _ _ 5 hk)⟩
  rw [rowOf_2B _ h0]
  simp [rowVred, f0, f1, f2, hd]

theorem vsign (x : V3) : Statement (.vsign x) := by
  intro w hw h
  simp only [encode, Option.some.injEq] at h
  subst h
  obtain ⟨eb, ea, k, b, a, d⟩ := x
  have hk : Packed [(44, 7), (d.val, 5), (a.val, 5), (b.val, 5), (k.val, 3), (ea.toNat, 1), (eb.toNat, 1), (0, 5)] :=
    ⟨by decide, d.isLt, a.isLt, b.isLt, k.isLt, bool_lt_two ea, bool_lt_two eb, by decide, trivial⟩
  refine decode_of_pack _ [(44, 7), (d.val, 5), (a.val, 5), (b.val, 5), (k.val, 3), (ea.toNat, 1), (eb.toNat, 1), (0, 5)] _ (by simp only [V3.enc, pack]; omega) hk rfl ?_ hw
  generalize hn : pack [(44, 7), (d.val, 5), (a.val, 5), (b.val, 5), (k.val, 3), (ea.toNat, 1), (eb.toNat, 1), (0, 5)] = nn at *
  have h0 : nn % 128 = 0x2C := by subst hn; exact pack_mod [(44, 7)] _ hk
  have f0 : fld nn 27 5 = 0 := by subst hn; exact pack_field [(44, 7), (d.val, 5), (a.val, 5), (b.val, 5), (k.val, 3), (ea.toNat, 1), (eb.toNat, 1)] [(0, 5)] _ hk
  have hd : V3.dec nn = ⟨eb, ea, k, b, a, d⟩ := by
    subst hn; simp only [V3.dec, V3.mk.injEq]
    exact ⟨decide_bool _ _ (pack_one [(44, 7), (d.val, 5), (a.val, 5), (b.val, 5), (k.val, 3), (ea.toNat, 1)] _ _ 1 hk),
      decide_bool _ _ (pack_one [(44, 7), (d.val, 5), (a.val, 5), (b.val, 5), (k.val, 3)] _ _ 1 hk),
      fin_of _ _ _ (pack_one [(44, 7), (d.val, 5), (a.val, 5), (b.val, 5)] _ _ 3 hk),
      fin_of _ _ _ (pack_one [(44, 7), (d.val, 5), (a.val, 5)] _ _ 5 hk),
      fin_of _ _ _ (pack_one [(44, 7), (d.val, 5)] _ _ 5 hk),
      fin_of _ _ _ (pack_one [(44, 7)] _ _ 5 hk)⟩
  rw [rowOf_2C _ h0]
  simp [rowVsign, f0, hd]

theorem vmov (x : V2) : Statement (.vmov x) := by
  intro w hw h
  simp only [encode, Option.some.injEq] at h
  subst h
  obtain ⟨ea, k, a, d⟩ := x
  have hk : Packed [(45, 7), (d.val, 5), (a.val, 5), (0, 5), (k.val, 3), (ea.toNat, 1), (0, 6)] :=
    ⟨by decide, d.isLt, a.isLt, by decide, k.isLt, bool_lt_two ea, by decide, trivial⟩
  refine decode_of_pack _ [(45, 7), (d.val, 5), (a.val, 5), (0, 5), (k.val, 3), (ea.toNat, 1), (0, 6)] _ (by simp only [V2.enc, pack]; omega) hk rfl ?_ hw
  generalize hn : pack [(45, 7), (d.val, 5), (a.val, 5), (0, 5), (k.val, 3), (ea.toNat, 1), (0, 6)] = nn at *
  have h0 : nn % 128 = 0x2D := by subst hn; exact pack_mod [(45, 7)] _ hk
  have f0 : fld nn 26 6 = 0 := by subst hn; exact pack_field [(45, 7), (d.val, 5), (a.val, 5), (0, 5), (k.val, 3), (ea.toNat, 1)] [(0, 6)] _ hk
  have f1 : fld nn 17 5 = 0 := by subst hn; exact pack_field [(45, 7), (d.val, 5), (a.val, 5)] [(0, 5)] _ hk
  have hd : V2.dec nn = ⟨ea, k, a, d⟩ := by
    subst hn; simp only [V2.dec, V2.mk.injEq]
    exact ⟨decide_bool _ _ (pack_one [(45, 7), (d.val, 5), (a.val, 5), (0, 5), (k.val, 3)] _ _ 1 hk),
      fin_of _ _ _ (pack_one [(45, 7), (d.val, 5), (a.val, 5), (0, 5)] _ _ 3 hk),
      fin_of _ _ _ (pack_one [(45, 7), (d.val, 5)] _ _ 5 hk),
      fin_of _ _ _ (pack_one [(45, 7)] _ _ 5 hk)⟩
  rw [rowOf_2D _ h0]
  simp [rowVmov, f0, f1, hd]

theorem vsplat (x : V2) : Statement (.vsplat x) := by
  intro w hw h
  simp only [encode, Option.some.injEq] at h
  subst h
  obtain ⟨ea, k, a, d⟩ := x
  have hk : Packed [(45, 7), (d.val, 5), (a.val, 5), (0, 5), (k.val, 3), (ea.toNat, 1), (2, 6)] :=
    ⟨by decide, d.isLt, a.isLt, by decide, k.isLt, bool_lt_two ea, by decide, trivial⟩
  refine decode_of_pack _ [(45, 7), (d.val, 5), (a.val, 5), (0, 5), (k.val, 3), (ea.toNat, 1), (2, 6)] _ (by simp only [V2.enc, pack]; omega) hk rfl ?_ hw
  generalize hn : pack [(45, 7), (d.val, 5), (a.val, 5), (0, 5), (k.val, 3), (ea.toNat, 1), (2, 6)] = nn at *
  have h0 : nn % 128 = 0x2D := by subst hn; exact pack_mod [(45, 7)] _ hk
  have f0 : fld nn 26 6 = 2 := by subst hn; exact pack_field [(45, 7), (d.val, 5), (a.val, 5), (0, 5), (k.val, 3), (ea.toNat, 1)] [(2, 6)] _ hk
  have f1 : fld nn 17 5 = 0 := by subst hn; exact pack_field [(45, 7), (d.val, 5), (a.val, 5)] [(0, 5)] _ hk
  have hd : V2.dec nn = ⟨ea, k, a, d⟩ := by
    subst hn; simp only [V2.dec, V2.mk.injEq]
    exact ⟨decide_bool _ _ (pack_one [(45, 7), (d.val, 5), (a.val, 5), (0, 5), (k.val, 3)] _ _ 1 hk),
      fin_of _ _ _ (pack_one [(45, 7), (d.val, 5), (a.val, 5), (0, 5)] _ _ 3 hk),
      fin_of _ _ _ (pack_one [(45, 7), (d.val, 5)] _ _ 5 hk),
      fin_of _ _ _ (pack_one [(45, 7)] _ _ 5 hk)⟩
  rw [rowOf_2D _ h0]
  simp [rowVmov, f0, f1, hd]

theorem vsplati (x : VSplatI) : Statement (.vsplati x) := by
  intro w hw h
  simp only [encode, Option.some.injEq] at h
  subst h
  obtain ⟨k, imm, d⟩ := x
  have hk : Packed [(45, 7), (d.val, 5), (imm.toNat, 10), (k.val, 3), (0, 1), (4, 6)] :=
    ⟨by decide, d.isLt, imm.isLt, k.isLt, by decide, by decide, trivial⟩
  refine decode_of_pack _ [(45, 7), (d.val, 5), (imm.toNat, 10), (k.val, 3), (0, 1), (4, 6)] _ (by simp only [VSplatI.enc, pack]; omega) hk rfl ?_ hw
  generalize hn : pack [(45, 7), (d.val, 5), (imm.toNat, 10), (k.val, 3), (0, 1), (4, 6)] = nn at *
  have h0 : nn % 128 = 0x2D := by subst hn; exact pack_mod [(45, 7)] _ hk
  have f0 : fld nn 26 6 = 4 := by subst hn; exact pack_field [(45, 7), (d.val, 5), (imm.toNat, 10), (k.val, 3), (0, 1)] [(4, 6)] _ hk
  have f1 : fld nn 25 7 = 8 := by subst hn; exact pack_field [(45, 7), (d.val, 5), (imm.toNat, 10), (k.val, 3)] [(0, 1), (4, 6)] _ hk
  have hd : VSplatI.dec nn = ⟨k, imm, d⟩ := by
    subst hn; simp only [VSplatI.dec, VSplatI.mk.injEq]
    exact ⟨fin_of _ _ _ (pack_one [(45, 7), (d.val, 5), (imm.toNat, 10)] _ _ 3 hk),
      bitVec_of _ _ (pack_one [(45, 7), (d.val, 5)] _ _ 10 hk),
      fin_of _ _ _ (pack_one [(45, 7)] _ _ 5 hk)⟩
  rw [rowOf_2D _ h0]
  simp [rowVmov, f0, f1, hd]

theorem vget (x : Alu2) : Statement (.vget x) := by
  intro w hw h
  simp only [encode, Option.some.injEq] at h
  subst h
  obtain ⟨eb, ea, b, a, d⟩ := x
  have hk : Packed [(45, 7), (d.val, 5), (a.val, 5), (b.val, 5), (0, 3), (ea.toNat, 1), (eb.toNat, 1), (3, 5)] :=
    ⟨by decide, d.isLt, a.isLt, b.isLt, by decide, bool_lt_two ea, bool_lt_two eb, by decide, trivial⟩
  refine decode_of_pack _ [(45, 7), (d.val, 5), (a.val, 5), (b.val, 5), (0, 3), (ea.toNat, 1), (eb.toNat, 1), (3, 5)] _ (by simp only [Alu2.enc, pack]; omega) hk rfl ?_ hw
  generalize hn : pack [(45, 7), (d.val, 5), (a.val, 5), (b.val, 5), (0, 3), (ea.toNat, 1), (eb.toNat, 1), (3, 5)] = nn at *
  have h0 : nn % 128 = 0x2D := by subst hn; exact pack_mod [(45, 7)] _ hk
  have f0 : ¬fld nn 26 6 = 0 := by
    subst hn; intro he; have h2 := (pack_field [(45, 7), (d.val, 5), (a.val, 5), (b.val, 5), (0, 3), (ea.toNat, 1)] [(eb.toNat, 1), (3, 5)] _ hk).symm.trans he; simp only [pack] at h2; omega
  have f1 : ¬fld nn 26 6 = 2 := by
    subst hn; intro he; have h2 := (pack_field [(45, 7), (d.val, 5), (a.val, 5), (b.val, 5), (0, 3), (ea.toNat, 1)] [(eb.toNat, 1), (3, 5)] _ hk).symm.trans he; simp only [pack] at h2; omega
  have f2 : ¬fld nn 25 7 = 8 := by
    subst hn; intro he; have h2 := (pack_field [(45, 7), (d.val, 5), (a.val, 5), (b.val, 5), (0, 3)] [(ea.toNat, 1), (eb.toNat, 1), (3, 5)] _ hk).symm.trans he; simp only [pack] at h2; omega
  have f3 : fld nn 27 5 = 3 := by subst hn; exact pack_field [(45, 7), (d.val, 5), (a.val, 5), (b.val, 5), (0, 3), (ea.toNat, 1), (eb.toNat, 1)] [(3, 5)] _ hk
  have f4 : fld nn 22 3 = 0 := by subst hn; exact pack_field [(45, 7), (d.val, 5), (a.val, 5), (b.val, 5)] [(0, 3)] _ hk
  have hd : Alu2.dec nn = ⟨eb, ea, b, a, d⟩ := by
    subst hn; simp only [Alu2.dec, Alu2.mk.injEq]
    exact ⟨decide_bool _ _ (pack_one [(45, 7), (d.val, 5), (a.val, 5), (b.val, 5), (0, 3), (ea.toNat, 1)] _ _ 1 hk),
      decide_bool _ _ (pack_one [(45, 7), (d.val, 5), (a.val, 5), (b.val, 5), (0, 3)] _ _ 1 hk),
      fin_of _ _ _ (pack_one [(45, 7), (d.val, 5), (a.val, 5)] _ _ 5 hk),
      fin_of _ _ _ (pack_one [(45, 7), (d.val, 5)] _ _ 5 hk),
      fin_of _ _ _ (pack_one [(45, 7)] _ _ 5 hk)⟩
  rw [rowOf_2D _ h0]
  simp [rowVmov, f0, f1, f2, f3, f4, hd]

theorem vput (x : Alu2) : Statement (.vput x) := by
  intro w hw h
  simp only [encode, Option.some.injEq] at h
  subst h
  obtain ⟨eb, ea, b, a, d⟩ := x
  have hk : Packed [(45, 7), (d.val, 5), (a.val, 5), (b.val, 5), (0, 3), (ea.toNat, 1), (eb.toNat, 1), (4, 5)] :=
    ⟨by decide, d.isLt, a.isLt, b.isLt, by decide, bool_lt_two ea, bool_lt_two eb, by decide, trivial⟩
  refine decode_of_pack _ [(45, 7), (d.val, 5), (a.val, 5), (b.val, 5), (0, 3), (ea.toNat, 1), (eb.toNat, 1), (4, 5)] _ (by simp only [Alu2.enc, pack]; omega) hk rfl ?_ hw
  generalize hn : pack [(45, 7), (d.val, 5), (a.val, 5), (b.val, 5), (0, 3), (ea.toNat, 1), (eb.toNat, 1), (4, 5)] = nn at *
  have h0 : nn % 128 = 0x2D := by subst hn; exact pack_mod [(45, 7)] _ hk
  have f0 : ¬fld nn 26 6 = 0 := by
    subst hn; intro he; have h2 := (pack_field [(45, 7), (d.val, 5), (a.val, 5), (b.val, 5), (0, 3), (ea.toNat, 1)] [(eb.toNat, 1), (4, 5)] _ hk).symm.trans he; simp only [pack] at h2; omega
  have f1 : ¬fld nn 26 6 = 2 := by
    subst hn; intro he; have h2 := (pack_field [(45, 7), (d.val, 5), (a.val, 5), (b.val, 5), (0, 3), (ea.toNat, 1)] [(eb.toNat, 1), (4, 5)] _ hk).symm.trans he; simp only [pack] at h2; omega
  have f2 : ¬fld nn 25 7 = 8 := by
    subst hn; intro he; have h2 := (pack_field [(45, 7), (d.val, 5), (a.val, 5), (b.val, 5), (0, 3)] [(ea.toNat, 1), (eb.toNat, 1), (4, 5)] _ hk).symm.trans he; simp only [pack] at h2; omega
  have f3 : fld nn 27 5 = 4 := by subst hn; exact pack_field [(45, 7), (d.val, 5), (a.val, 5), (b.val, 5), (0, 3), (ea.toNat, 1), (eb.toNat, 1)] [(4, 5)] _ hk
  have f4 : fld nn 22 3 = 0 := by subst hn; exact pack_field [(45, 7), (d.val, 5), (a.val, 5), (b.val, 5)] [(0, 3)] _ hk
  have hd : Alu2.dec nn = ⟨eb, ea, b, a, d⟩ := by
    subst hn; simp only [Alu2.dec, Alu2.mk.injEq]
    exact ⟨decide_bool _ _ (pack_one [(45, 7), (d.val, 5), (a.val, 5), (b.val, 5), (0, 3), (ea.toNat, 1)] _ _ 1 hk),
      decide_bool _ _ (pack_one [(45, 7), (d.val, 5), (a.val, 5), (b.val, 5), (0, 3)] _ _ 1 hk),
      fin_of _ _ _ (pack_one [(45, 7), (d.val, 5), (a.val, 5)] _ _ 5 hk),
      fin_of _ _ _ (pack_one [(45, 7), (d.val, 5)] _ _ 5 hk),
      fin_of _ _ _ (pack_one [(45, 7)] _ _ 5 hk)⟩
  rw [rowOf_2D _ h0]
  simp [rowVmov, f0, f1, f2, f3, f4, hd]

theorem vtag (x : VTag) : Statement (.vtag x) := by
  intro w hw h
  simp only [encode, Option.some.injEq] at h
  subst h
  obtain ⟨comp, scaled, grp, tag, d⟩ := x
  have hk : Packed [(46, 7), (d.val, 5), (0, 6), (tag.toNat, 5), (grp.val, 2), (scaled.toNat, 1), (comp.val, 5), (0, 1)] :=
    ⟨by decide, d.isLt, by decide, tag.isLt, grp.isLt, bool_lt_two scaled, comp.isLt, by decide, trivial⟩
  refine decode_of_pack _ [(46, 7), (d.val, 5), (0, 6), (tag.toNat, 5), (grp.val, 2), (scaled.toNat, 1), (comp.val, 5), (0, 1)] _ (by simp only [VTag.enc, pack]; omega) hk rfl ?_ hw
  generalize hn : pack [(46, 7), (d.val, 5), (0, 6), (tag.toNat, 5), (grp.val, 2), (scaled.toNat, 1), (comp.val, 5), (0, 1)] = nn at *
  have h0 : nn % 128 = 0x2E := by subst hn; exact pack_mod [(46, 7)] _ hk
  have f0 : fld nn 31 1 = 0 := by subst hn; exact pack_field [(46, 7), (d.val, 5), (0, 6), (tag.toNat, 5), (grp.val, 2), (scaled.toNat, 1), (comp.val, 5)] [(0, 1)] _ hk
  have f1 : fld nn 12 6 = 0 := by subst hn; exact pack_field [(46, 7), (d.val, 5)] [(0, 6)] _ hk
  have hd : VTag.dec nn = ⟨comp, scaled, grp, tag, d⟩ := by
    subst hn; simp only [VTag.dec, VTag.mk.injEq]
    exact ⟨fin_of _ _ _ (pack_one [(46, 7), (d.val, 5), (0, 6), (tag.toNat, 5), (grp.val, 2), (scaled.toNat, 1)] _ _ 5 hk),
      decide_bool _ _ (pack_one [(46, 7), (d.val, 5), (0, 6), (tag.toNat, 5), (grp.val, 2)] _ _ 1 hk),
      fin_of _ _ _ (pack_one [(46, 7), (d.val, 5), (0, 6), (tag.toNat, 5)] _ _ 2 hk),
      bitVec_of _ _ (pack_one [(46, 7), (d.val, 5), (0, 6)] _ _ 5 hk),
      fin_of _ _ _ (pack_one [(46, 7)] _ _ 5 hk)⟩
  rw [rowOf_2E _ h0]
  simp [rowVtag, f0, f1, hd]

theorem setvl (x : SetVl) : Statement (.setvl x) := by
  intro w hw h
  simp only [encode, Option.some.injEq] at h
  subst h
  obtain ⟨grp, tag, ea, a, d⟩ := x
  have hk : Packed [(46, 7), (d.val, 5), (a.val, 5), (ea.toNat, 1), (tag.toNat, 5), (grp.val, 2), (0, 6), (1, 1)] :=
    ⟨by decide, d.isLt, a.isLt, bool_lt_two ea, tag.isLt, grp.isLt, by decide, by decide, trivial⟩
  refine decode_of_pack _ [(46, 7), (d.val, 5), (a.val, 5), (ea.toNat, 1), (tag.toNat, 5), (grp.val, 2), (0, 6), (1, 1)] _ (by simp only [SetVl.enc, pack]; omega) hk rfl ?_ hw
  generalize hn : pack [(46, 7), (d.val, 5), (a.val, 5), (ea.toNat, 1), (tag.toNat, 5), (grp.val, 2), (0, 6), (1, 1)] = nn at *
  have h0 : nn % 128 = 0x2E := by subst hn; exact pack_mod [(46, 7)] _ hk
  have f0 : fld nn 31 1 = 1 := by subst hn; exact pack_field [(46, 7), (d.val, 5), (a.val, 5), (ea.toNat, 1), (tag.toNat, 5), (grp.val, 2), (0, 6)] [(1, 1)] _ hk
  have f1 : fld nn 25 7 = 64 := by subst hn; exact pack_field [(46, 7), (d.val, 5), (a.val, 5), (ea.toNat, 1), (tag.toNat, 5), (grp.val, 2)] [(0, 6), (1, 1)] _ hk
  have hd : SetVl.dec nn = ⟨grp, tag, ea, a, d⟩ := by
    subst hn; simp only [SetVl.dec, SetVl.mk.injEq]
    exact ⟨fin_of _ _ _ (pack_one [(46, 7), (d.val, 5), (a.val, 5), (ea.toNat, 1), (tag.toNat, 5)] _ _ 2 hk),
      bitVec_of _ _ (pack_one [(46, 7), (d.val, 5), (a.val, 5), (ea.toNat, 1)] _ _ 5 hk),
      decide_bool _ _ (pack_one [(46, 7), (d.val, 5), (a.val, 5)] _ _ 1 hk),
      fin_of _ _ _ (pack_one [(46, 7), (d.val, 5)] _ _ 5 hk),
      fin_of _ _ _ (pack_one [(46, 7)] _ _ 5 hk)⟩
  rw [rowOf_2E _ h0]
  simp [rowVtag, f0, f1, hd]

theorem vslideUp (x : VSlide) : Statement (.vslideUp x) := by
  intro w hw h
  simp only [encode, Option.some.injEq] at h
  subst h
  obtain ⟨e, fill, c, b, a, d⟩ := x
  have hk : Packed [(47, 7), (d.val, 5), (a.val, 5), (b.val, 5), (c.val, 5), (fill.val, 3), (e.toNat, 1), (0, 1)] :=
    ⟨by decide, d.isLt, a.isLt, b.isLt, c.isLt, fill.isLt, bool_lt_two e, by decide, trivial⟩
  refine decode_of_pack _ [(47, 7), (d.val, 5), (a.val, 5), (b.val, 5), (c.val, 5), (fill.val, 3), (e.toNat, 1), (0, 1)] _ (by simp only [VSlide.enc, pack]; omega) hk rfl ?_ hw
  generalize hn : pack [(47, 7), (d.val, 5), (a.val, 5), (b.val, 5), (c.val, 5), (fill.val, 3), (e.toNat, 1), (0, 1)] = nn at *
  have h0 : nn % 128 = 0x2F := by subst hn; exact pack_mod [(47, 7)] _ hk
  have f0 : fld nn 31 1 = 0 := by subst hn; exact pack_field [(47, 7), (d.val, 5), (a.val, 5), (b.val, 5), (c.val, 5), (fill.val, 3), (e.toNat, 1)] [(0, 1)] _ hk
  have hd : VSlide.dec nn = ⟨e, fill, c, b, a, d⟩ := by
    subst hn; simp only [VSlide.dec, VSlide.mk.injEq]
    exact ⟨decide_bool _ _ (pack_one [(47, 7), (d.val, 5), (a.val, 5), (b.val, 5), (c.val, 5), (fill.val, 3)] _ _ 1 hk),
      fin_of _ _ _ (pack_one [(47, 7), (d.val, 5), (a.val, 5), (b.val, 5), (c.val, 5)] _ _ 3 hk),
      fin_of _ _ _ (pack_one [(47, 7), (d.val, 5), (a.val, 5), (b.val, 5)] _ _ 5 hk),
      fin_of _ _ _ (pack_one [(47, 7), (d.val, 5), (a.val, 5)] _ _ 5 hk),
      fin_of _ _ _ (pack_one [(47, 7), (d.val, 5)] _ _ 5 hk),
      fin_of _ _ _ (pack_one [(47, 7)] _ _ 5 hk)⟩
  rw [rowOf_2F _ h0]
  simp [rowVslide, f0, hd]

theorem vslideDn (x : VSlide) : Statement (.vslideDn x) := by
  intro w hw h
  simp only [encode, Option.some.injEq] at h
  subst h
  obtain ⟨e, fill, c, b, a, d⟩ := x
  have hk : Packed [(47, 7), (d.val, 5), (a.val, 5), (b.val, 5), (c.val, 5), (fill.val, 3), (e.toNat, 1), (1, 1)] :=
    ⟨by decide, d.isLt, a.isLt, b.isLt, c.isLt, fill.isLt, bool_lt_two e, by decide, trivial⟩
  refine decode_of_pack _ [(47, 7), (d.val, 5), (a.val, 5), (b.val, 5), (c.val, 5), (fill.val, 3), (e.toNat, 1), (1, 1)] _ (by simp only [VSlide.enc, pack]; omega) hk rfl ?_ hw
  generalize hn : pack [(47, 7), (d.val, 5), (a.val, 5), (b.val, 5), (c.val, 5), (fill.val, 3), (e.toNat, 1), (1, 1)] = nn at *
  have h0 : nn % 128 = 0x2F := by subst hn; exact pack_mod [(47, 7)] _ hk
  have f0 : fld nn 31 1 = 1 := by subst hn; exact pack_field [(47, 7), (d.val, 5), (a.val, 5), (b.val, 5), (c.val, 5), (fill.val, 3), (e.toNat, 1)] [(1, 1)] _ hk
  have hd : VSlide.dec nn = ⟨e, fill, c, b, a, d⟩ := by
    subst hn; simp only [VSlide.dec, VSlide.mk.injEq]
    exact ⟨decide_bool _ _ (pack_one [(47, 7), (d.val, 5), (a.val, 5), (b.val, 5), (c.val, 5), (fill.val, 3)] _ _ 1 hk),
      fin_of _ _ _ (pack_one [(47, 7), (d.val, 5), (a.val, 5), (b.val, 5), (c.val, 5)] _ _ 3 hk),
      fin_of _ _ _ (pack_one [(47, 7), (d.val, 5), (a.val, 5), (b.val, 5)] _ _ 5 hk),
      fin_of _ _ _ (pack_one [(47, 7), (d.val, 5), (a.val, 5)] _ _ 5 hk),
      fin_of _ _ _ (pack_one [(47, 7), (d.val, 5)] _ _ 5 hk),
      fin_of _ _ _ (pack_one [(47, 7)] _ _ 5 hk)⟩
  rw [rowOf_2F _ h0]
  simp [rowVslide, f0, hd]

theorem vld (x : VMem) : Statement (.vld x) := by
  intro w hw h
  simp only [encode, Option.some.injEq] at h
  subst h
  obtain ⟨pol, e, bb, o, k, a, t⟩ := x
  have hk : Packed [(48, 7), (t.val, 5), (a.val, 5), (0, 5), (k.val, 3), (o.toNat, 1), (bb.toNat, 1), (e.toNat, 1), (pol.val, 2), (0, 2)] :=
    ⟨by decide, t.isLt, a.isLt, by decide, k.isLt, bool_lt_two o, bool_lt_two bb, bool_lt_two e, pol.isLt, by decide, trivial⟩
  refine decode_of_pack _ [(48, 7), (t.val, 5), (a.val, 5), (0, 5), (k.val, 3), (o.toNat, 1), (bb.toNat, 1), (e.toNat, 1), (pol.val, 2), (0, 2)] _ (by simp only [VMem.enc, pack]; omega) hk rfl ?_ hw
  generalize hn : pack [(48, 7), (t.val, 5), (a.val, 5), (0, 5), (k.val, 3), (o.toNat, 1), (bb.toNat, 1), (e.toNat, 1), (pol.val, 2), (0, 2)] = nn at *
  have h0 : nn % 128 = 0x30 := by subst hn; exact pack_mod [(48, 7)] _ hk
  have f0 : fld nn 30 2 = 0 := by subst hn; exact pack_field [(48, 7), (t.val, 5), (a.val, 5), (0, 5), (k.val, 3), (o.toNat, 1), (bb.toNat, 1), (e.toNat, 1), (pol.val, 2)] [(0, 2)] _ hk
  have f1 : fld nn 17 5 = 0 := by subst hn; exact pack_field [(48, 7), (t.val, 5), (a.val, 5)] [(0, 5)] _ hk
  have hd : VMem.dec nn = ⟨pol, e, bb, o, k, a, t⟩ := by
    subst hn; simp only [VMem.dec, VMem.mk.injEq]
    exact ⟨fin_of _ _ _ (pack_one [(48, 7), (t.val, 5), (a.val, 5), (0, 5), (k.val, 3), (o.toNat, 1), (bb.toNat, 1), (e.toNat, 1)] _ _ 2 hk),
      decide_bool _ _ (pack_one [(48, 7), (t.val, 5), (a.val, 5), (0, 5), (k.val, 3), (o.toNat, 1), (bb.toNat, 1)] _ _ 1 hk),
      decide_bool _ _ (pack_one [(48, 7), (t.val, 5), (a.val, 5), (0, 5), (k.val, 3), (o.toNat, 1)] _ _ 1 hk),
      decide_bool _ _ (pack_one [(48, 7), (t.val, 5), (a.val, 5), (0, 5), (k.val, 3)] _ _ 1 hk),
      fin_of _ _ _ (pack_one [(48, 7), (t.val, 5), (a.val, 5), (0, 5)] _ _ 3 hk),
      fin_of _ _ _ (pack_one [(48, 7), (t.val, 5)] _ _ 5 hk),
      fin_of _ _ _ (pack_one [(48, 7)] _ _ 5 hk)⟩
  rw [rowOf_30 _ h0]
  simp [rowVld, f0, f1, hd]

theorem vst (x : VMem) : Statement (.vst x) := by
  intro w hw h
  simp only [encode, Option.some.injEq] at h
  subst h
  obtain ⟨pol, e, bb, o, k, a, t⟩ := x
  have hk : Packed [(49, 7), (t.val, 5), (a.val, 5), (0, 5), (k.val, 3), (o.toNat, 1), (bb.toNat, 1), (e.toNat, 1), (pol.val, 2), (0, 2)] :=
    ⟨by decide, t.isLt, a.isLt, by decide, k.isLt, bool_lt_two o, bool_lt_two bb, bool_lt_two e, pol.isLt, by decide, trivial⟩
  refine decode_of_pack _ [(49, 7), (t.val, 5), (a.val, 5), (0, 5), (k.val, 3), (o.toNat, 1), (bb.toNat, 1), (e.toNat, 1), (pol.val, 2), (0, 2)] _ (by simp only [VMem.enc, pack]; omega) hk rfl ?_ hw
  generalize hn : pack [(49, 7), (t.val, 5), (a.val, 5), (0, 5), (k.val, 3), (o.toNat, 1), (bb.toNat, 1), (e.toNat, 1), (pol.val, 2), (0, 2)] = nn at *
  have h0 : nn % 128 = 0x31 := by subst hn; exact pack_mod [(49, 7)] _ hk
  have f0 : fld nn 30 2 = 0 := by subst hn; exact pack_field [(49, 7), (t.val, 5), (a.val, 5), (0, 5), (k.val, 3), (o.toNat, 1), (bb.toNat, 1), (e.toNat, 1), (pol.val, 2)] [(0, 2)] _ hk
  have f1 : fld nn 17 5 = 0 := by subst hn; exact pack_field [(49, 7), (t.val, 5), (a.val, 5)] [(0, 5)] _ hk
  have hd : VMem.dec nn = ⟨pol, e, bb, o, k, a, t⟩ := by
    subst hn; simp only [VMem.dec, VMem.mk.injEq]
    exact ⟨fin_of _ _ _ (pack_one [(49, 7), (t.val, 5), (a.val, 5), (0, 5), (k.val, 3), (o.toNat, 1), (bb.toNat, 1), (e.toNat, 1)] _ _ 2 hk),
      decide_bool _ _ (pack_one [(49, 7), (t.val, 5), (a.val, 5), (0, 5), (k.val, 3), (o.toNat, 1), (bb.toNat, 1)] _ _ 1 hk),
      decide_bool _ _ (pack_one [(49, 7), (t.val, 5), (a.val, 5), (0, 5), (k.val, 3), (o.toNat, 1)] _ _ 1 hk),
      decide_bool _ _ (pack_one [(49, 7), (t.val, 5), (a.val, 5), (0, 5), (k.val, 3)] _ _ 1 hk),
      fin_of _ _ _ (pack_one [(49, 7), (t.val, 5), (a.val, 5), (0, 5)] _ _ 3 hk),
      fin_of _ _ _ (pack_one [(49, 7), (t.val, 5)] _ _ 5 hk),
      fin_of _ _ _ (pack_one [(49, 7)] _ _ 5 hk)⟩
  rw [rowOf_31 _ h0]
  simp [rowVst, f0, f1, hd]

theorem vlds (x : VMemX) : Statement (.vlds x) := by
  intro w hw h
  simp only [encode, Option.some.injEq] at h
  subst h
  obtain ⟨pol, e, bb, o, k, x, a, t⟩ := x
  have hk : Packed [(50, 7), (t.val, 5), (a.val, 5), (x.val, 5), (k.val, 3), (o.toNat, 1), (bb.toNat, 1), (e.toNat, 1), (pol.val, 2), (0, 2)] :=
    ⟨by decide, t.isLt, a.isLt, x.isLt, k.isLt, bool_lt_two o, bool_lt_two bb, bool_lt_two e, pol.isLt, by decide, trivial⟩
  refine decode_of_pack _ [(50, 7), (t.val, 5), (a.val, 5), (x.val, 5), (k.val, 3), (o.toNat, 1), (bb.toNat, 1), (e.toNat, 1), (pol.val, 2), (0, 2)] _ (by simp only [VMemX.enc, pack]; omega) hk rfl ?_ hw
  generalize hn : pack [(50, 7), (t.val, 5), (a.val, 5), (x.val, 5), (k.val, 3), (o.toNat, 1), (bb.toNat, 1), (e.toNat, 1), (pol.val, 2), (0, 2)] = nn at *
  have h0 : nn % 128 = 0x32 := by subst hn; exact pack_mod [(50, 7)] _ hk
  have f0 : fld nn 30 2 = 0 := by subst hn; exact pack_field [(50, 7), (t.val, 5), (a.val, 5), (x.val, 5), (k.val, 3), (o.toNat, 1), (bb.toNat, 1), (e.toNat, 1), (pol.val, 2)] [(0, 2)] _ hk
  have hd : VMemX.dec nn = ⟨pol, e, bb, o, k, x, a, t⟩ := by
    subst hn; simp only [VMemX.dec, VMemX.mk.injEq]
    exact ⟨fin_of _ _ _ (pack_one [(50, 7), (t.val, 5), (a.val, 5), (x.val, 5), (k.val, 3), (o.toNat, 1), (bb.toNat, 1), (e.toNat, 1)] _ _ 2 hk),
      decide_bool _ _ (pack_one [(50, 7), (t.val, 5), (a.val, 5), (x.val, 5), (k.val, 3), (o.toNat, 1), (bb.toNat, 1)] _ _ 1 hk),
      decide_bool _ _ (pack_one [(50, 7), (t.val, 5), (a.val, 5), (x.val, 5), (k.val, 3), (o.toNat, 1)] _ _ 1 hk),
      decide_bool _ _ (pack_one [(50, 7), (t.val, 5), (a.val, 5), (x.val, 5), (k.val, 3)] _ _ 1 hk),
      fin_of _ _ _ (pack_one [(50, 7), (t.val, 5), (a.val, 5), (x.val, 5)] _ _ 3 hk),
      fin_of _ _ _ (pack_one [(50, 7), (t.val, 5), (a.val, 5)] _ _ 5 hk),
      fin_of _ _ _ (pack_one [(50, 7), (t.val, 5)] _ _ 5 hk),
      fin_of _ _ _ (pack_one [(50, 7)] _ _ 5 hk)⟩
  rw [rowOf_32 _ h0]
  simp [rowVlds, f0, hd]

theorem vsts (x : VMemX) : Statement (.vsts x) := by
  intro w hw h
  simp only [encode, Option.some.injEq] at h
  subst h
  obtain ⟨pol, e, bb, o, k, x, a, t⟩ := x
  have hk : Packed [(51, 7), (t.val, 5), (a.val, 5), (x.val, 5), (k.val, 3), (o.toNat, 1), (bb.toNat, 1), (e.toNat, 1), (pol.val, 2), (0, 2)] :=
    ⟨by decide, t.isLt, a.isLt, x.isLt, k.isLt, bool_lt_two o, bool_lt_two bb, bool_lt_two e, pol.isLt, by decide, trivial⟩
  refine decode_of_pack _ [(51, 7), (t.val, 5), (a.val, 5), (x.val, 5), (k.val, 3), (o.toNat, 1), (bb.toNat, 1), (e.toNat, 1), (pol.val, 2), (0, 2)] _ (by simp only [VMemX.enc, pack]; omega) hk rfl ?_ hw
  generalize hn : pack [(51, 7), (t.val, 5), (a.val, 5), (x.val, 5), (k.val, 3), (o.toNat, 1), (bb.toNat, 1), (e.toNat, 1), (pol.val, 2), (0, 2)] = nn at *
  have h0 : nn % 128 = 0x33 := by subst hn; exact pack_mod [(51, 7)] _ hk
  have f0 : fld nn 30 2 = 0 := by subst hn; exact pack_field [(51, 7), (t.val, 5), (a.val, 5), (x.val, 5), (k.val, 3), (o.toNat, 1), (bb.toNat, 1), (e.toNat, 1), (pol.val, 2)] [(0, 2)] _ hk
  have hd : VMemX.dec nn = ⟨pol, e, bb, o, k, x, a, t⟩ := by
    subst hn; simp only [VMemX.dec, VMemX.mk.injEq]
    exact ⟨fin_of _ _ _ (pack_one [(51, 7), (t.val, 5), (a.val, 5), (x.val, 5), (k.val, 3), (o.toNat, 1), (bb.toNat, 1), (e.toNat, 1)] _ _ 2 hk),
      decide_bool _ _ (pack_one [(51, 7), (t.val, 5), (a.val, 5), (x.val, 5), (k.val, 3), (o.toNat, 1), (bb.toNat, 1)] _ _ 1 hk),
      decide_bool _ _ (pack_one [(51, 7), (t.val, 5), (a.val, 5), (x.val, 5), (k.val, 3), (o.toNat, 1)] _ _ 1 hk),
      decide_bool _ _ (pack_one [(51, 7), (t.val, 5), (a.val, 5), (x.val, 5), (k.val, 3)] _ _ 1 hk),
      fin_of _ _ _ (pack_one [(51, 7), (t.val, 5), (a.val, 5), (x.val, 5)] _ _ 3 hk),
      fin_of _ _ _ (pack_one [(51, 7), (t.val, 5), (a.val, 5)] _ _ 5 hk),
      fin_of _ _ _ (pack_one [(51, 7), (t.val, 5)] _ _ 5 hk),
      fin_of _ _ _ (pack_one [(51, 7)] _ _ 5 hk)⟩
  rw [rowOf_33 _ h0]
  simp [rowVsts, f0, hd]

theorem vldx (x : VMemX) : Statement (.vldx x) := by
  intro w hw h
  simp only [encode, Option.some.injEq] at h
  subst h
  obtain ⟨pol, e, bb, o, k, x, a, t⟩ := x
  have hk : Packed [(52, 7), (t.val, 5), (a.val, 5), (x.val, 5), (k.val, 3), (o.toNat, 1), (bb.toNat, 1), (e.toNat, 1), (pol.val, 2), (0, 2)] :=
    ⟨by decide, t.isLt, a.isLt, x.isLt, k.isLt, bool_lt_two o, bool_lt_two bb, bool_lt_two e, pol.isLt, by decide, trivial⟩
  refine decode_of_pack _ [(52, 7), (t.val, 5), (a.val, 5), (x.val, 5), (k.val, 3), (o.toNat, 1), (bb.toNat, 1), (e.toNat, 1), (pol.val, 2), (0, 2)] _ (by simp only [VMemX.enc, pack]; omega) hk rfl ?_ hw
  generalize hn : pack [(52, 7), (t.val, 5), (a.val, 5), (x.val, 5), (k.val, 3), (o.toNat, 1), (bb.toNat, 1), (e.toNat, 1), (pol.val, 2), (0, 2)] = nn at *
  have h0 : nn % 128 = 0x34 := by subst hn; exact pack_mod [(52, 7)] _ hk
  have f0 : fld nn 30 2 = 0 := by subst hn; exact pack_field [(52, 7), (t.val, 5), (a.val, 5), (x.val, 5), (k.val, 3), (o.toNat, 1), (bb.toNat, 1), (e.toNat, 1), (pol.val, 2)] [(0, 2)] _ hk
  have hd : VMemX.dec nn = ⟨pol, e, bb, o, k, x, a, t⟩ := by
    subst hn; simp only [VMemX.dec, VMemX.mk.injEq]
    exact ⟨fin_of _ _ _ (pack_one [(52, 7), (t.val, 5), (a.val, 5), (x.val, 5), (k.val, 3), (o.toNat, 1), (bb.toNat, 1), (e.toNat, 1)] _ _ 2 hk),
      decide_bool _ _ (pack_one [(52, 7), (t.val, 5), (a.val, 5), (x.val, 5), (k.val, 3), (o.toNat, 1), (bb.toNat, 1)] _ _ 1 hk),
      decide_bool _ _ (pack_one [(52, 7), (t.val, 5), (a.val, 5), (x.val, 5), (k.val, 3), (o.toNat, 1)] _ _ 1 hk),
      decide_bool _ _ (pack_one [(52, 7), (t.val, 5), (a.val, 5), (x.val, 5), (k.val, 3)] _ _ 1 hk),
      fin_of _ _ _ (pack_one [(52, 7), (t.val, 5), (a.val, 5), (x.val, 5)] _ _ 3 hk),
      fin_of _ _ _ (pack_one [(52, 7), (t.val, 5), (a.val, 5)] _ _ 5 hk),
      fin_of _ _ _ (pack_one [(52, 7), (t.val, 5)] _ _ 5 hk),
      fin_of _ _ _ (pack_one [(52, 7)] _ _ 5 hk)⟩
  rw [rowOf_34 _ h0]
  simp [rowVldx, f0, hd]

theorem vldxC (x : VMemC) : Statement (.vldxC x) := by
  intro w hw h
  simp only [encode, Option.some.injEq] at h
  subst h
  obtain ⟨e, bb, o, k, x, a, t⟩ := x
  have hk : Packed [(52, 7), (t.val, 5), (a.val, 5), (x.val, 5), (k.val, 3), (o.toNat, 1), (bb.toNat, 1), (e.toNat, 1), (0, 2), (1, 2)] :=
    ⟨by decide, t.isLt, a.isLt, x.isLt, k.isLt, bool_lt_two o, bool_lt_two bb, bool_lt_two e, by decide, by decide, trivial⟩
  refine decode_of_pack _ [(52, 7), (t.val, 5), (a.val, 5), (x.val, 5), (k.val, 3), (o.toNat, 1), (bb.toNat, 1), (e.toNat, 1), (0, 2), (1, 2)] _ (by simp only [VMemC.enc, pack]; omega) hk rfl ?_ hw
  generalize hn : pack [(52, 7), (t.val, 5), (a.val, 5), (x.val, 5), (k.val, 3), (o.toNat, 1), (bb.toNat, 1), (e.toNat, 1), (0, 2), (1, 2)] = nn at *
  have h0 : nn % 128 = 0x34 := by subst hn; exact pack_mod [(52, 7)] _ hk
  have f0 : fld nn 30 2 = 1 := by subst hn; exact pack_field [(52, 7), (t.val, 5), (a.val, 5), (x.val, 5), (k.val, 3), (o.toNat, 1), (bb.toNat, 1), (e.toNat, 1), (0, 2)] [(1, 2)] _ hk
  have f1 : fld nn 28 4 = 4 := by subst hn; exact pack_field [(52, 7), (t.val, 5), (a.val, 5), (x.val, 5), (k.val, 3), (o.toNat, 1), (bb.toNat, 1), (e.toNat, 1)] [(0, 2), (1, 2)] _ hk
  have hd : VMemC.dec nn = ⟨e, bb, o, k, x, a, t⟩ := by
    subst hn; simp only [VMemC.dec, VMemC.mk.injEq]
    exact ⟨decide_bool _ _ (pack_one [(52, 7), (t.val, 5), (a.val, 5), (x.val, 5), (k.val, 3), (o.toNat, 1), (bb.toNat, 1)] _ _ 1 hk),
      decide_bool _ _ (pack_one [(52, 7), (t.val, 5), (a.val, 5), (x.val, 5), (k.val, 3), (o.toNat, 1)] _ _ 1 hk),
      decide_bool _ _ (pack_one [(52, 7), (t.val, 5), (a.val, 5), (x.val, 5), (k.val, 3)] _ _ 1 hk),
      fin_of _ _ _ (pack_one [(52, 7), (t.val, 5), (a.val, 5), (x.val, 5)] _ _ 3 hk),
      fin_of _ _ _ (pack_one [(52, 7), (t.val, 5), (a.val, 5)] _ _ 5 hk),
      fin_of _ _ _ (pack_one [(52, 7), (t.val, 5)] _ _ 5 hk),
      fin_of _ _ _ (pack_one [(52, 7)] _ _ 5 hk)⟩
  rw [rowOf_34 _ h0]
  simp [rowVldx, f0, f1, hd]

theorem vldxDup (x : VMemX) : Statement (.vldxDup x) := by
  intro w hw h
  simp only [encode, Option.some.injEq] at h
  subst h
  obtain ⟨pol, e, bb, o, k, x, a, t⟩ := x
  have hk : Packed [(52, 7), (t.val, 5), (a.val, 5), (x.val, 5), (k.val, 3), (o.toNat, 1), (bb.toNat, 1), (e.toNat, 1), (pol.val, 2), (2, 2)] :=
    ⟨by decide, t.isLt, a.isLt, x.isLt, k.isLt, bool_lt_two o, bool_lt_two bb, bool_lt_two e, pol.isLt, by decide, trivial⟩
  refine decode_of_pack _ [(52, 7), (t.val, 5), (a.val, 5), (x.val, 5), (k.val, 3), (o.toNat, 1), (bb.toNat, 1), (e.toNat, 1), (pol.val, 2), (2, 2)] _ (by simp only [VMemX.enc, pack]; omega) hk rfl ?_ hw
  generalize hn : pack [(52, 7), (t.val, 5), (a.val, 5), (x.val, 5), (k.val, 3), (o.toNat, 1), (bb.toNat, 1), (e.toNat, 1), (pol.val, 2), (2, 2)] = nn at *
  have h0 : nn % 128 = 0x34 := by subst hn; exact pack_mod [(52, 7)] _ hk
  have f0 : fld nn 30 2 = 2 := by subst hn; exact pack_field [(52, 7), (t.val, 5), (a.val, 5), (x.val, 5), (k.val, 3), (o.toNat, 1), (bb.toNat, 1), (e.toNat, 1), (pol.val, 2)] [(2, 2)] _ hk
  have f1 : ¬fld nn 28 4 = 4 := by
    subst hn; intro he; have h2 := (pack_field [(52, 7), (t.val, 5), (a.val, 5), (x.val, 5), (k.val, 3), (o.toNat, 1), (bb.toNat, 1), (e.toNat, 1)] [(pol.val, 2), (2, 2)] _ hk).symm.trans he; simp only [pack] at h2; omega
  have hd : VMemX.dec nn = ⟨pol, e, bb, o, k, x, a, t⟩ := by
    subst hn; simp only [VMemX.dec, VMemX.mk.injEq]
    exact ⟨fin_of _ _ _ (pack_one [(52, 7), (t.val, 5), (a.val, 5), (x.val, 5), (k.val, 3), (o.toNat, 1), (bb.toNat, 1), (e.toNat, 1)] _ _ 2 hk),
      decide_bool _ _ (pack_one [(52, 7), (t.val, 5), (a.val, 5), (x.val, 5), (k.val, 3), (o.toNat, 1), (bb.toNat, 1)] _ _ 1 hk),
      decide_bool _ _ (pack_one [(52, 7), (t.val, 5), (a.val, 5), (x.val, 5), (k.val, 3), (o.toNat, 1)] _ _ 1 hk),
      decide_bool _ _ (pack_one [(52, 7), (t.val, 5), (a.val, 5), (x.val, 5), (k.val, 3)] _ _ 1 hk),
      fin_of _ _ _ (pack_one [(52, 7), (t.val, 5), (a.val, 5), (x.val, 5)] _ _ 3 hk),
      fin_of _ _ _ (pack_one [(52, 7), (t.val, 5), (a.val, 5)] _ _ 5 hk),
      fin_of _ _ _ (pack_one [(52, 7), (t.val, 5)] _ _ 5 hk),
      fin_of _ _ _ (pack_one [(52, 7)] _ _ 5 hk)⟩
  rw [rowOf_34 _ h0]
  simp [rowVldx, f0, f1, hd]

theorem vstx (x : VMemX) : Statement (.vstx x) := by
  intro w hw h
  simp only [encode, Option.some.injEq] at h
  subst h
  obtain ⟨pol, e, bb, o, k, x, a, t⟩ := x
  have hk : Packed [(53, 7), (t.val, 5), (a.val, 5), (x.val, 5), (k.val, 3), (o.toNat, 1), (bb.toNat, 1), (e.toNat, 1), (pol.val, 2), (0, 2)] :=
    ⟨by decide, t.isLt, a.isLt, x.isLt, k.isLt, bool_lt_two o, bool_lt_two bb, bool_lt_two e, pol.isLt, by decide, trivial⟩
  refine decode_of_pack _ [(53, 7), (t.val, 5), (a.val, 5), (x.val, 5), (k.val, 3), (o.toNat, 1), (bb.toNat, 1), (e.toNat, 1), (pol.val, 2), (0, 2)] _ (by simp only [VMemX.enc, pack]; omega) hk rfl ?_ hw
  generalize hn : pack [(53, 7), (t.val, 5), (a.val, 5), (x.val, 5), (k.val, 3), (o.toNat, 1), (bb.toNat, 1), (e.toNat, 1), (pol.val, 2), (0, 2)] = nn at *
  have h0 : nn % 128 = 0x35 := by subst hn; exact pack_mod [(53, 7)] _ hk
  have f0 : fld nn 30 2 = 0 := by subst hn; exact pack_field [(53, 7), (t.val, 5), (a.val, 5), (x.val, 5), (k.val, 3), (o.toNat, 1), (bb.toNat, 1), (e.toNat, 1), (pol.val, 2)] [(0, 2)] _ hk
  have hd : VMemX.dec nn = ⟨pol, e, bb, o, k, x, a, t⟩ := by
    subst hn; simp only [VMemX.dec, VMemX.mk.injEq]
    exact ⟨fin_of _ _ _ (pack_one [(53, 7), (t.val, 5), (a.val, 5), (x.val, 5), (k.val, 3), (o.toNat, 1), (bb.toNat, 1), (e.toNat, 1)] _ _ 2 hk),
      decide_bool _ _ (pack_one [(53, 7), (t.val, 5), (a.val, 5), (x.val, 5), (k.val, 3), (o.toNat, 1), (bb.toNat, 1)] _ _ 1 hk),
      decide_bool _ _ (pack_one [(53, 7), (t.val, 5), (a.val, 5), (x.val, 5), (k.val, 3), (o.toNat, 1)] _ _ 1 hk),
      decide_bool _ _ (pack_one [(53, 7), (t.val, 5), (a.val, 5), (x.val, 5), (k.val, 3)] _ _ 1 hk),
      fin_of _ _ _ (pack_one [(53, 7), (t.val, 5), (a.val, 5), (x.val, 5)] _ _ 3 hk),
      fin_of _ _ _ (pack_one [(53, 7), (t.val, 5), (a.val, 5)] _ _ 5 hk),
      fin_of _ _ _ (pack_one [(53, 7), (t.val, 5)] _ _ 5 hk),
      fin_of _ _ _ (pack_one [(53, 7)] _ _ 5 hk)⟩
  rw [rowOf_35 _ h0]
  simp [rowVstx, f0, hd]

theorem vamoAdd (x : VMemC) : Statement (.vamoAdd x) := by
  intro w hw h
  simp only [encode, Option.some.injEq] at h
  subst h
  obtain ⟨e, bb, o, k, x, a, t⟩ := x
  have hk : Packed [(54, 7), (t.val, 5), (a.val, 5), (x.val, 5), (k.val, 3), (o.toNat, 1), (bb.toNat, 1), (e.toNat, 1), (0, 4)] :=
    ⟨by decide, t.isLt, a.isLt, x.isLt, k.isLt, bool_lt_two o, bool_lt_two bb, bool_lt_two e, by decide, trivial⟩
  refine decode_of_pack _ [(54, 7), (t.val, 5), (a.val, 5), (x.val, 5), (k.val, 3), (o.toNat, 1), (bb.toNat, 1), (e.toNat, 1), (0, 4)] _ (by simp only [VMemC.enc, pack]; omega) hk rfl ?_ hw
  generalize hn : pack [(54, 7), (t.val, 5), (a.val, 5), (x.val, 5), (k.val, 3), (o.toNat, 1), (bb.toNat, 1), (e.toNat, 1), (0, 4)] = nn at *
  have h0 : nn % 128 = 0x36 := by subst hn; exact pack_mod [(54, 7)] _ hk
  have f0 : fld nn 28 4 = 0 := by subst hn; exact pack_field [(54, 7), (t.val, 5), (a.val, 5), (x.val, 5), (k.val, 3), (o.toNat, 1), (bb.toNat, 1), (e.toNat, 1)] [(0, 4)] _ hk
  have hd : VMemC.dec nn = ⟨e, bb, o, k, x, a, t⟩ := by
    subst hn; simp only [VMemC.dec, VMemC.mk.injEq]
    exact ⟨decide_bool _ _ (pack_one [(54, 7), (t.val, 5), (a.val, 5), (x.val, 5), (k.val, 3), (o.toNat, 1), (bb.toNat, 1)] _ _ 1 hk),
      decide_bool _ _ (pack_one [(54, 7), (t.val, 5), (a.val, 5), (x.val, 5), (k.val, 3), (o.toNat, 1)] _ _ 1 hk),
      decide_bool _ _ (pack_one [(54, 7), (t.val, 5), (a.val, 5), (x.val, 5), (k.val, 3)] _ _ 1 hk),
      fin_of _ _ _ (pack_one [(54, 7), (t.val, 5), (a.val, 5), (x.val, 5)] _ _ 3 hk),
      fin_of _ _ _ (pack_one [(54, 7), (t.val, 5), (a.val, 5)] _ _ 5 hk),
      fin_of _ _ _ (pack_one [(54, 7), (t.val, 5)] _ _ 5 hk),
      fin_of _ _ _ (pack_one [(54, 7)] _ _ 5 hk)⟩
  rw [rowOf_36 _ h0]
  simp [rowVamo, f0, hd]

theorem vamoAnd (x : VMemC) : Statement (.vamoAnd x) := by
  intro w hw h
  simp only [encode, Option.some.injEq] at h
  subst h
  obtain ⟨e, bb, o, k, x, a, t⟩ := x
  have hk : Packed [(54, 7), (t.val, 5), (a.val, 5), (x.val, 5), (k.val, 3), (o.toNat, 1), (bb.toNat, 1), (e.toNat, 1), (1, 4)] :=
    ⟨by decide, t.isLt, a.isLt, x.isLt, k.isLt, bool_lt_two o, bool_lt_two bb, bool_lt_two e, by decide, trivial⟩
  refine decode_of_pack _ [(54, 7), (t.val, 5), (a.val, 5), (x.val, 5), (k.val, 3), (o.toNat, 1), (bb.toNat, 1), (e.toNat, 1), (1, 4)] _ (by simp only [VMemC.enc, pack]; omega) hk rfl ?_ hw
  generalize hn : pack [(54, 7), (t.val, 5), (a.val, 5), (x.val, 5), (k.val, 3), (o.toNat, 1), (bb.toNat, 1), (e.toNat, 1), (1, 4)] = nn at *
  have h0 : nn % 128 = 0x36 := by subst hn; exact pack_mod [(54, 7)] _ hk
  have f0 : fld nn 28 4 = 1 := by subst hn; exact pack_field [(54, 7), (t.val, 5), (a.val, 5), (x.val, 5), (k.val, 3), (o.toNat, 1), (bb.toNat, 1), (e.toNat, 1)] [(1, 4)] _ hk
  have hd : VMemC.dec nn = ⟨e, bb, o, k, x, a, t⟩ := by
    subst hn; simp only [VMemC.dec, VMemC.mk.injEq]
    exact ⟨decide_bool _ _ (pack_one [(54, 7), (t.val, 5), (a.val, 5), (x.val, 5), (k.val, 3), (o.toNat, 1), (bb.toNat, 1)] _ _ 1 hk),
      decide_bool _ _ (pack_one [(54, 7), (t.val, 5), (a.val, 5), (x.val, 5), (k.val, 3), (o.toNat, 1)] _ _ 1 hk),
      decide_bool _ _ (pack_one [(54, 7), (t.val, 5), (a.val, 5), (x.val, 5), (k.val, 3)] _ _ 1 hk),
      fin_of _ _ _ (pack_one [(54, 7), (t.val, 5), (a.val, 5), (x.val, 5)] _ _ 3 hk),
      fin_of _ _ _ (pack_one [(54, 7), (t.val, 5), (a.val, 5)] _ _ 5 hk),
      fin_of _ _ _ (pack_one [(54, 7), (t.val, 5)] _ _ 5 hk),
      fin_of _ _ _ (pack_one [(54, 7)] _ _ 5 hk)⟩
  rw [rowOf_36 _ h0]
  simp [rowVamo, f0, hd]

theorem vamoOr (x : VMemC) : Statement (.vamoOr x) := by
  intro w hw h
  simp only [encode, Option.some.injEq] at h
  subst h
  obtain ⟨e, bb, o, k, x, a, t⟩ := x
  have hk : Packed [(54, 7), (t.val, 5), (a.val, 5), (x.val, 5), (k.val, 3), (o.toNat, 1), (bb.toNat, 1), (e.toNat, 1), (2, 4)] :=
    ⟨by decide, t.isLt, a.isLt, x.isLt, k.isLt, bool_lt_two o, bool_lt_two bb, bool_lt_two e, by decide, trivial⟩
  refine decode_of_pack _ [(54, 7), (t.val, 5), (a.val, 5), (x.val, 5), (k.val, 3), (o.toNat, 1), (bb.toNat, 1), (e.toNat, 1), (2, 4)] _ (by simp only [VMemC.enc, pack]; omega) hk rfl ?_ hw
  generalize hn : pack [(54, 7), (t.val, 5), (a.val, 5), (x.val, 5), (k.val, 3), (o.toNat, 1), (bb.toNat, 1), (e.toNat, 1), (2, 4)] = nn at *
  have h0 : nn % 128 = 0x36 := by subst hn; exact pack_mod [(54, 7)] _ hk
  have f0 : fld nn 28 4 = 2 := by subst hn; exact pack_field [(54, 7), (t.val, 5), (a.val, 5), (x.val, 5), (k.val, 3), (o.toNat, 1), (bb.toNat, 1), (e.toNat, 1)] [(2, 4)] _ hk
  have hd : VMemC.dec nn = ⟨e, bb, o, k, x, a, t⟩ := by
    subst hn; simp only [VMemC.dec, VMemC.mk.injEq]
    exact ⟨decide_bool _ _ (pack_one [(54, 7), (t.val, 5), (a.val, 5), (x.val, 5), (k.val, 3), (o.toNat, 1), (bb.toNat, 1)] _ _ 1 hk),
      decide_bool _ _ (pack_one [(54, 7), (t.val, 5), (a.val, 5), (x.val, 5), (k.val, 3), (o.toNat, 1)] _ _ 1 hk),
      decide_bool _ _ (pack_one [(54, 7), (t.val, 5), (a.val, 5), (x.val, 5), (k.val, 3)] _ _ 1 hk),
      fin_of _ _ _ (pack_one [(54, 7), (t.val, 5), (a.val, 5), (x.val, 5)] _ _ 3 hk),
      fin_of _ _ _ (pack_one [(54, 7), (t.val, 5), (a.val, 5)] _ _ 5 hk),
      fin_of _ _ _ (pack_one [(54, 7), (t.val, 5)] _ _ 5 hk),
      fin_of _ _ _ (pack_one [(54, 7)] _ _ 5 hk)⟩
  rw [rowOf_36 _ h0]
  simp [rowVamo, f0, hd]

theorem vamoXor (x : VMemC) : Statement (.vamoXor x) := by
  intro w hw h
  simp only [encode, Option.some.injEq] at h
  subst h
  obtain ⟨e, bb, o, k, x, a, t⟩ := x
  have hk : Packed [(54, 7), (t.val, 5), (a.val, 5), (x.val, 5), (k.val, 3), (o.toNat, 1), (bb.toNat, 1), (e.toNat, 1), (3, 4)] :=
    ⟨by decide, t.isLt, a.isLt, x.isLt, k.isLt, bool_lt_two o, bool_lt_two bb, bool_lt_two e, by decide, trivial⟩
  refine decode_of_pack _ [(54, 7), (t.val, 5), (a.val, 5), (x.val, 5), (k.val, 3), (o.toNat, 1), (bb.toNat, 1), (e.toNat, 1), (3, 4)] _ (by simp only [VMemC.enc, pack]; omega) hk rfl ?_ hw
  generalize hn : pack [(54, 7), (t.val, 5), (a.val, 5), (x.val, 5), (k.val, 3), (o.toNat, 1), (bb.toNat, 1), (e.toNat, 1), (3, 4)] = nn at *
  have h0 : nn % 128 = 0x36 := by subst hn; exact pack_mod [(54, 7)] _ hk
  have f0 : fld nn 28 4 = 3 := by subst hn; exact pack_field [(54, 7), (t.val, 5), (a.val, 5), (x.val, 5), (k.val, 3), (o.toNat, 1), (bb.toNat, 1), (e.toNat, 1)] [(3, 4)] _ hk
  have hd : VMemC.dec nn = ⟨e, bb, o, k, x, a, t⟩ := by
    subst hn; simp only [VMemC.dec, VMemC.mk.injEq]
    exact ⟨decide_bool _ _ (pack_one [(54, 7), (t.val, 5), (a.val, 5), (x.val, 5), (k.val, 3), (o.toNat, 1), (bb.toNat, 1)] _ _ 1 hk),
      decide_bool _ _ (pack_one [(54, 7), (t.val, 5), (a.val, 5), (x.val, 5), (k.val, 3), (o.toNat, 1)] _ _ 1 hk),
      decide_bool _ _ (pack_one [(54, 7), (t.val, 5), (a.val, 5), (x.val, 5), (k.val, 3)] _ _ 1 hk),
      fin_of _ _ _ (pack_one [(54, 7), (t.val, 5), (a.val, 5), (x.val, 5)] _ _ 3 hk),
      fin_of _ _ _ (pack_one [(54, 7), (t.val, 5), (a.val, 5)] _ _ 5 hk),
      fin_of _ _ _ (pack_one [(54, 7), (t.val, 5)] _ _ 5 hk),
      fin_of _ _ _ (pack_one [(54, 7)] _ _ 5 hk)⟩
  rw [rowOf_36 _ h0]
  simp [rowVamo, f0, hd]

theorem vamoMin (x : VMemC) : Statement (.vamoMin x) := by
  intro w hw h
  simp only [encode, Option.some.injEq] at h
  subst h
  obtain ⟨e, bb, o, k, x, a, t⟩ := x
  have hk : Packed [(54, 7), (t.val, 5), (a.val, 5), (x.val, 5), (k.val, 3), (o.toNat, 1), (bb.toNat, 1), (e.toNat, 1), (4, 4)] :=
    ⟨by decide, t.isLt, a.isLt, x.isLt, k.isLt, bool_lt_two o, bool_lt_two bb, bool_lt_two e, by decide, trivial⟩
  refine decode_of_pack _ [(54, 7), (t.val, 5), (a.val, 5), (x.val, 5), (k.val, 3), (o.toNat, 1), (bb.toNat, 1), (e.toNat, 1), (4, 4)] _ (by simp only [VMemC.enc, pack]; omega) hk rfl ?_ hw
  generalize hn : pack [(54, 7), (t.val, 5), (a.val, 5), (x.val, 5), (k.val, 3), (o.toNat, 1), (bb.toNat, 1), (e.toNat, 1), (4, 4)] = nn at *
  have h0 : nn % 128 = 0x36 := by subst hn; exact pack_mod [(54, 7)] _ hk
  have f0 : fld nn 28 4 = 4 := by subst hn; exact pack_field [(54, 7), (t.val, 5), (a.val, 5), (x.val, 5), (k.val, 3), (o.toNat, 1), (bb.toNat, 1), (e.toNat, 1)] [(4, 4)] _ hk
  have hd : VMemC.dec nn = ⟨e, bb, o, k, x, a, t⟩ := by
    subst hn; simp only [VMemC.dec, VMemC.mk.injEq]
    exact ⟨decide_bool _ _ (pack_one [(54, 7), (t.val, 5), (a.val, 5), (x.val, 5), (k.val, 3), (o.toNat, 1), (bb.toNat, 1)] _ _ 1 hk),
      decide_bool _ _ (pack_one [(54, 7), (t.val, 5), (a.val, 5), (x.val, 5), (k.val, 3), (o.toNat, 1)] _ _ 1 hk),
      decide_bool _ _ (pack_one [(54, 7), (t.val, 5), (a.val, 5), (x.val, 5), (k.val, 3)] _ _ 1 hk),
      fin_of _ _ _ (pack_one [(54, 7), (t.val, 5), (a.val, 5), (x.val, 5)] _ _ 3 hk),
      fin_of _ _ _ (pack_one [(54, 7), (t.val, 5), (a.val, 5)] _ _ 5 hk),
      fin_of _ _ _ (pack_one [(54, 7), (t.val, 5)] _ _ 5 hk),
      fin_of _ _ _ (pack_one [(54, 7)] _ _ 5 hk)⟩
  rw [rowOf_36 _ h0]
  simp [rowVamo, f0, hd]

theorem vamoMax (x : VMemC) : Statement (.vamoMax x) := by
  intro w hw h
  simp only [encode, Option.some.injEq] at h
  subst h
  obtain ⟨e, bb, o, k, x, a, t⟩ := x
  have hk : Packed [(54, 7), (t.val, 5), (a.val, 5), (x.val, 5), (k.val, 3), (o.toNat, 1), (bb.toNat, 1), (e.toNat, 1), (5, 4)] :=
    ⟨by decide, t.isLt, a.isLt, x.isLt, k.isLt, bool_lt_two o, bool_lt_two bb, bool_lt_two e, by decide, trivial⟩
  refine decode_of_pack _ [(54, 7), (t.val, 5), (a.val, 5), (x.val, 5), (k.val, 3), (o.toNat, 1), (bb.toNat, 1), (e.toNat, 1), (5, 4)] _ (by simp only [VMemC.enc, pack]; omega) hk rfl ?_ hw
  generalize hn : pack [(54, 7), (t.val, 5), (a.val, 5), (x.val, 5), (k.val, 3), (o.toNat, 1), (bb.toNat, 1), (e.toNat, 1), (5, 4)] = nn at *
  have h0 : nn % 128 = 0x36 := by subst hn; exact pack_mod [(54, 7)] _ hk
  have f0 : fld nn 28 4 = 5 := by subst hn; exact pack_field [(54, 7), (t.val, 5), (a.val, 5), (x.val, 5), (k.val, 3), (o.toNat, 1), (bb.toNat, 1), (e.toNat, 1)] [(5, 4)] _ hk
  have hd : VMemC.dec nn = ⟨e, bb, o, k, x, a, t⟩ := by
    subst hn; simp only [VMemC.dec, VMemC.mk.injEq]
    exact ⟨decide_bool _ _ (pack_one [(54, 7), (t.val, 5), (a.val, 5), (x.val, 5), (k.val, 3), (o.toNat, 1), (bb.toNat, 1)] _ _ 1 hk),
      decide_bool _ _ (pack_one [(54, 7), (t.val, 5), (a.val, 5), (x.val, 5), (k.val, 3), (o.toNat, 1)] _ _ 1 hk),
      decide_bool _ _ (pack_one [(54, 7), (t.val, 5), (a.val, 5), (x.val, 5), (k.val, 3)] _ _ 1 hk),
      fin_of _ _ _ (pack_one [(54, 7), (t.val, 5), (a.val, 5), (x.val, 5)] _ _ 3 hk),
      fin_of _ _ _ (pack_one [(54, 7), (t.val, 5), (a.val, 5)] _ _ 5 hk),
      fin_of _ _ _ (pack_one [(54, 7), (t.val, 5)] _ _ 5 hk),
      fin_of _ _ _ (pack_one [(54, 7)] _ _ 5 hk)⟩
  rw [rowOf_36 _ h0]
  simp [rowVamo, f0, hd]

theorem vamoMinu (x : VMemC) : Statement (.vamoMinu x) := by
  intro w hw h
  simp only [encode, Option.some.injEq] at h
  subst h
  obtain ⟨e, bb, o, k, x, a, t⟩ := x
  have hk : Packed [(54, 7), (t.val, 5), (a.val, 5), (x.val, 5), (k.val, 3), (o.toNat, 1), (bb.toNat, 1), (e.toNat, 1), (6, 4)] :=
    ⟨by decide, t.isLt, a.isLt, x.isLt, k.isLt, bool_lt_two o, bool_lt_two bb, bool_lt_two e, by decide, trivial⟩
  refine decode_of_pack _ [(54, 7), (t.val, 5), (a.val, 5), (x.val, 5), (k.val, 3), (o.toNat, 1), (bb.toNat, 1), (e.toNat, 1), (6, 4)] _ (by simp only [VMemC.enc, pack]; omega) hk rfl ?_ hw
  generalize hn : pack [(54, 7), (t.val, 5), (a.val, 5), (x.val, 5), (k.val, 3), (o.toNat, 1), (bb.toNat, 1), (e.toNat, 1), (6, 4)] = nn at *
  have h0 : nn % 128 = 0x36 := by subst hn; exact pack_mod [(54, 7)] _ hk
  have f0 : fld nn 28 4 = 6 := by subst hn; exact pack_field [(54, 7), (t.val, 5), (a.val, 5), (x.val, 5), (k.val, 3), (o.toNat, 1), (bb.toNat, 1), (e.toNat, 1)] [(6, 4)] _ hk
  have hd : VMemC.dec nn = ⟨e, bb, o, k, x, a, t⟩ := by
    subst hn; simp only [VMemC.dec, VMemC.mk.injEq]
    exact ⟨decide_bool _ _ (pack_one [(54, 7), (t.val, 5), (a.val, 5), (x.val, 5), (k.val, 3), (o.toNat, 1), (bb.toNat, 1)] _ _ 1 hk),
      decide_bool _ _ (pack_one [(54, 7), (t.val, 5), (a.val, 5), (x.val, 5), (k.val, 3), (o.toNat, 1)] _ _ 1 hk),
      decide_bool _ _ (pack_one [(54, 7), (t.val, 5), (a.val, 5), (x.val, 5), (k.val, 3)] _ _ 1 hk),
      fin_of _ _ _ (pack_one [(54, 7), (t.val, 5), (a.val, 5), (x.val, 5)] _ _ 3 hk),
      fin_of _ _ _ (pack_one [(54, 7), (t.val, 5), (a.val, 5)] _ _ 5 hk),
      fin_of _ _ _ (pack_one [(54, 7), (t.val, 5)] _ _ 5 hk),
      fin_of _ _ _ (pack_one [(54, 7)] _ _ 5 hk)⟩
  rw [rowOf_36 _ h0]
  simp [rowVamo, f0, hd]

theorem vamoMaxu (x : VMemC) : Statement (.vamoMaxu x) := by
  intro w hw h
  simp only [encode, Option.some.injEq] at h
  subst h
  obtain ⟨e, bb, o, k, x, a, t⟩ := x
  have hk : Packed [(54, 7), (t.val, 5), (a.val, 5), (x.val, 5), (k.val, 3), (o.toNat, 1), (bb.toNat, 1), (e.toNat, 1), (7, 4)] :=
    ⟨by decide, t.isLt, a.isLt, x.isLt, k.isLt, bool_lt_two o, bool_lt_two bb, bool_lt_two e, by decide, trivial⟩
  refine decode_of_pack _ [(54, 7), (t.val, 5), (a.val, 5), (x.val, 5), (k.val, 3), (o.toNat, 1), (bb.toNat, 1), (e.toNat, 1), (7, 4)] _ (by simp only [VMemC.enc, pack]; omega) hk rfl ?_ hw
  generalize hn : pack [(54, 7), (t.val, 5), (a.val, 5), (x.val, 5), (k.val, 3), (o.toNat, 1), (bb.toNat, 1), (e.toNat, 1), (7, 4)] = nn at *
  have h0 : nn % 128 = 0x36 := by subst hn; exact pack_mod [(54, 7)] _ hk
  have f0 : fld nn 28 4 = 7 := by subst hn; exact pack_field [(54, 7), (t.val, 5), (a.val, 5), (x.val, 5), (k.val, 3), (o.toNat, 1), (bb.toNat, 1), (e.toNat, 1)] [(7, 4)] _ hk
  have hd : VMemC.dec nn = ⟨e, bb, o, k, x, a, t⟩ := by
    subst hn; simp only [VMemC.dec, VMemC.mk.injEq]
    exact ⟨decide_bool _ _ (pack_one [(54, 7), (t.val, 5), (a.val, 5), (x.val, 5), (k.val, 3), (o.toNat, 1), (bb.toNat, 1)] _ _ 1 hk),
      decide_bool _ _ (pack_one [(54, 7), (t.val, 5), (a.val, 5), (x.val, 5), (k.val, 3), (o.toNat, 1)] _ _ 1 hk),
      decide_bool _ _ (pack_one [(54, 7), (t.val, 5), (a.val, 5), (x.val, 5), (k.val, 3)] _ _ 1 hk),
      fin_of _ _ _ (pack_one [(54, 7), (t.val, 5), (a.val, 5), (x.val, 5)] _ _ 3 hk),
      fin_of _ _ _ (pack_one [(54, 7), (t.val, 5), (a.val, 5)] _ _ 5 hk),
      fin_of _ _ _ (pack_one [(54, 7), (t.val, 5)] _ _ 5 hk),
      fin_of _ _ _ (pack_one [(54, 7)] _ _ 5 hk)⟩
  rw [rowOf_36 _ h0]
  simp [rowVamo, f0, hd]

theorem vamoSwap (x : VMemC) : Statement (.vamoSwap x) := by
  intro w hw h
  simp only [encode, Option.some.injEq] at h
  subst h
  obtain ⟨e, bb, o, k, x, a, t⟩ := x
  have hk : Packed [(54, 7), (t.val, 5), (a.val, 5), (x.val, 5), (k.val, 3), (o.toNat, 1), (bb.toNat, 1), (e.toNat, 1), (8, 4)] :=
    ⟨by decide, t.isLt, a.isLt, x.isLt, k.isLt, bool_lt_two o, bool_lt_two bb, bool_lt_two e, by decide, trivial⟩
  refine decode_of_pack _ [(54, 7), (t.val, 5), (a.val, 5), (x.val, 5), (k.val, 3), (o.toNat, 1), (bb.toNat, 1), (e.toNat, 1), (8, 4)] _ (by simp only [VMemC.enc, pack]; omega) hk rfl ?_ hw
  generalize hn : pack [(54, 7), (t.val, 5), (a.val, 5), (x.val, 5), (k.val, 3), (o.toNat, 1), (bb.toNat, 1), (e.toNat, 1), (8, 4)] = nn at *
  have h0 : nn % 128 = 0x36 := by subst hn; exact pack_mod [(54, 7)] _ hk
  have f0 : fld nn 28 4 = 8 := by subst hn; exact pack_field [(54, 7), (t.val, 5), (a.val, 5), (x.val, 5), (k.val, 3), (o.toNat, 1), (bb.toNat, 1), (e.toNat, 1)] [(8, 4)] _ hk
  have hd : VMemC.dec nn = ⟨e, bb, o, k, x, a, t⟩ := by
    subst hn; simp only [VMemC.dec, VMemC.mk.injEq]
    exact ⟨decide_bool _ _ (pack_one [(54, 7), (t.val, 5), (a.val, 5), (x.val, 5), (k.val, 3), (o.toNat, 1), (bb.toNat, 1)] _ _ 1 hk),
      decide_bool _ _ (pack_one [(54, 7), (t.val, 5), (a.val, 5), (x.val, 5), (k.val, 3), (o.toNat, 1)] _ _ 1 hk),
      decide_bool _ _ (pack_one [(54, 7), (t.val, 5), (a.val, 5), (x.val, 5), (k.val, 3)] _ _ 1 hk),
      fin_of _ _ _ (pack_one [(54, 7), (t.val, 5), (a.val, 5), (x.val, 5)] _ _ 3 hk),
      fin_of _ _ _ (pack_one [(54, 7), (t.val, 5), (a.val, 5)] _ _ 5 hk),
      fin_of _ _ _ (pack_one [(54, 7), (t.val, 5)] _ _ 5 hk),
      fin_of _ _ _ (pack_one [(54, 7)] _ _ 5 hk)⟩
  rw [rowOf_36 _ h0]
  simp [rowVamo, f0, hd]

theorem vcomp (x : V2) : Statement (.vcomp x) := by
  intro w hw h
  simp only [encode, Option.some.injEq] at h
  subst h
  obtain ⟨ea, k, a, d⟩ := x
  have hk : Packed [(55, 7), (d.val, 5), (a.val, 5), (0, 5), (k.val, 3), (ea.toNat, 1), (0, 6)] :=
    ⟨by decide, d.isLt, a.isLt, by decide, k.isLt, bool_lt_two ea, by decide, trivial⟩
  refine decode_of_pack _ [(55, 7), (d.val, 5), (a.val, 5), (0, 5), (k.val, 3), (ea.toNat, 1), (0, 6)] _ (by simp only [V2.enc, pack]; omega) hk rfl ?_ hw
  generalize hn : pack [(55, 7), (d.val, 5), (a.val, 5), (0, 5), (k.val, 3), (ea.toNat, 1), (0, 6)] = nn at *
  have h0 : nn % 128 = 0x37 := by subst hn; exact pack_mod [(55, 7)] _ hk
  have f0 : fld nn 26 6 = 0 := by subst hn; exact pack_field [(55, 7), (d.val, 5), (a.val, 5), (0, 5), (k.val, 3), (ea.toNat, 1)] [(0, 6)] _ hk
  have f1 : fld nn 17 5 = 0 := by subst hn; exact pack_field [(55, 7), (d.val, 5), (a.val, 5)] [(0, 5)] _ hk
  have hd : V2.dec nn = ⟨ea, k, a, d⟩ := by
    subst hn; simp only [V2.dec, V2.mk.injEq]
    exact ⟨decide_bool _ _ (pack_one [(55, 7), (d.val, 5), (a.val, 5), (0, 5), (k.val, 3)] _ _ 1 hk),
      fin_of _ _ _ (pack_one [(55, 7), (d.val, 5), (a.val, 5), (0, 5)] _ _ 3 hk),
      fin_of _ _ _ (pack_one [(55, 7), (d.val, 5)] _ _ 5 hk),
      fin_of _ _ _ (pack_one [(55, 7)] _ _ 5 hk)⟩
  rw [rowOf_37 _ h0]
  simp [rowVcomp, f0, f1, hd]

theorem vexpand (x : V2) : Statement (.vexpand x) := by
  intro w hw h
  simp only [encode, Option.some.injEq] at h
  subst h
  obtain ⟨ea, k, a, d⟩ := x
  have hk : Packed [(55, 7), (d.val, 5), (a.val, 5), (0, 5), (k.val, 3), (ea.toNat, 1), (2, 6)] :=
    ⟨by decide, d.isLt, a.isLt, by decide, k.isLt, bool_lt_two ea, by decide, trivial⟩
  refine decode_of_pack _ [(55, 7), (d.val, 5), (a.val, 5), (0, 5), (k.val, 3), (ea.toNat, 1), (2, 6)] _ (by simp only [V2.enc, pack]; omega) hk rfl ?_ hw
  generalize hn : pack [(55, 7), (d.val, 5), (a.val, 5), (0, 5), (k.val, 3), (ea.toNat, 1), (2, 6)] = nn at *
  have h0 : nn % 128 = 0x37 := by subst hn; exact pack_mod [(55, 7)] _ hk
  have f0 : fld nn 26 6 = 2 := by subst hn; exact pack_field [(55, 7), (d.val, 5), (a.val, 5), (0, 5), (k.val, 3), (ea.toNat, 1)] [(2, 6)] _ hk
  have f1 : fld nn 17 5 = 0 := by subst hn; exact pack_field [(55, 7), (d.val, 5), (a.val, 5)] [(0, 5)] _ hk
  have hd : V2.dec nn = ⟨ea, k, a, d⟩ := by
    subst hn; simp only [V2.dec, V2.mk.injEq]
    exact ⟨decide_bool _ _ (pack_one [(55, 7), (d.val, 5), (a.val, 5), (0, 5), (k.val, 3)] _ _ 1 hk),
      fin_of _ _ _ (pack_one [(55, 7), (d.val, 5), (a.val, 5), (0, 5)] _ _ 3 hk),
      fin_of _ _ _ (pack_one [(55, 7), (d.val, 5)] _ _ 5 hk),
      fin_of _ _ _ (pack_one [(55, 7)] _ _ 5 hk)⟩
  rw [rowOf_37 _ h0]
  simp [rowVcomp, f0, f1, hd]

theorem vperm (x : V3) : Statement (.vperm x) := by
  intro w hw h
  simp only [encode, Option.some.injEq] at h
  subst h
  obtain ⟨eb, ea, k, b, a, d⟩ := x
  have hk : Packed [(56, 7), (d.val, 5), (a.val, 5), (b.val, 5), (k.val, 3), (ea.toNat, 1), (eb.toNat, 1), (0, 5)] :=
    ⟨by decide, d.isLt, a.isLt, b.isLt, k.isLt, bool_lt_two ea, bool_lt_two eb, by decide, trivial⟩
  refine decode_of_pack _ [(56, 7), (d.val, 5), (a.val, 5), (b.val, 5), (k.val, 3), (ea.toNat, 1), (eb.toNat, 1), (0, 5)] _ (by simp only [V3.enc, pack]; omega) hk rfl ?_ hw
  generalize hn : pack [(56, 7), (d.val, 5), (a.val, 5), (b.val, 5), (k.val, 3), (ea.toNat, 1), (eb.toNat, 1), (0, 5)] = nn at *
  have h0 : nn % 128 = 0x38 := by subst hn; exact pack_mod [(56, 7)] _ hk
  have f0 : fld nn 27 5 = 0 := by subst hn; exact pack_field [(56, 7), (d.val, 5), (a.val, 5), (b.val, 5), (k.val, 3), (ea.toNat, 1), (eb.toNat, 1)] [(0, 5)] _ hk
  have hd : V3.dec nn = ⟨eb, ea, k, b, a, d⟩ := by
    subst hn; simp only [V3.dec, V3.mk.injEq]
    exact ⟨decide_bool _ _ (pack_one [(56, 7), (d.val, 5), (a.val, 5), (b.val, 5), (k.val, 3), (ea.toNat, 1)] _ _ 1 hk),
      decide_bool _ _ (pack_one [(56, 7), (d.val, 5), (a.val, 5), (b.val, 5), (k.val, 3)] _ _ 1 hk),
      fin_of _ _ _ (pack_one [(56, 7), (d.val, 5), (a.val, 5), (b.val, 5)] _ _ 3 hk),
      fin_of _ _ _ (pack_one [(56, 7), (d.val, 5), (a.val, 5)] _ _ 5 hk),
      fin_of _ _ _ (pack_one [(56, 7), (d.val, 5)] _ _ 5 hk),
      fin_of _ _ _ (pack_one [(56, 7)] _ _ 5 hk)⟩
  rw [rowOf_38 _ h0]
  simp [rowVperm, f0, hd]

theorem vzip (x : V3) : Statement (.vzip x) := by
  intro w hw h
  simp only [encode, Option.some.injEq] at h
  subst h
  obtain ⟨eb, ea, k, b, a, d⟩ := x
  have hk : Packed [(57, 7), (d.val, 5), (a.val, 5), (b.val, 5), (k.val, 3), (ea.toNat, 1), (eb.toNat, 1), (0, 5)] :=
    ⟨by decide, d.isLt, a.isLt, b.isLt, k.isLt, bool_lt_two ea, bool_lt_two eb, by decide, trivial⟩
  refine decode_of_pack _ [(57, 7), (d.val, 5), (a.val, 5), (b.val, 5), (k.val, 3), (ea.toNat, 1), (eb.toNat, 1), (0, 5)] _ (by simp only [V3.enc, pack]; omega) hk rfl ?_ hw
  generalize hn : pack [(57, 7), (d.val, 5), (a.val, 5), (b.val, 5), (k.val, 3), (ea.toNat, 1), (eb.toNat, 1), (0, 5)] = nn at *
  have h0 : nn % 128 = 0x39 := by subst hn; exact pack_mod [(57, 7)] _ hk
  have f0 : fld nn 27 5 = 0 := by subst hn; exact pack_field [(57, 7), (d.val, 5), (a.val, 5), (b.val, 5), (k.val, 3), (ea.toNat, 1), (eb.toNat, 1)] [(0, 5)] _ hk
  have hd : V3.dec nn = ⟨eb, ea, k, b, a, d⟩ := by
    subst hn; simp only [V3.dec, V3.mk.injEq]
    exact ⟨decide_bool _ _ (pack_one [(57, 7), (d.val, 5), (a.val, 5), (b.val, 5), (k.val, 3), (ea.toNat, 1)] _ _ 1 hk),
      decide_bool _ _ (pack_one [(57, 7), (d.val, 5), (a.val, 5), (b.val, 5), (k.val, 3)] _ _ 1 hk),
      fin_of _ _ _ (pack_one [(57, 7), (d.val, 5), (a.val, 5), (b.val, 5)] _ _ 3 hk),
      fin_of _ _ _ (pack_one [(57, 7), (d.val, 5), (a.val, 5)] _ _ 5 hk),
      fin_of _ _ _ (pack_one [(57, 7), (d.val, 5)] _ _ 5 hk),
      fin_of _ _ _ (pack_one [(57, 7)] _ _ 5 hk)⟩
  rw [rowOf_39 _ h0]
  simp [rowVzip, f0, hd]

theorem vunzip (x : V3) : Statement (.vunzip x) := by
  intro w hw h
  simp only [encode, Option.some.injEq] at h
  subst h
  obtain ⟨eb, ea, k, b, a, d⟩ := x
  have hk : Packed [(57, 7), (d.val, 5), (a.val, 5), (b.val, 5), (k.val, 3), (ea.toNat, 1), (eb.toNat, 1), (1, 5)] :=
    ⟨by decide, d.isLt, a.isLt, b.isLt, k.isLt, bool_lt_two ea, bool_lt_two eb, by decide, trivial⟩
  refine decode_of_pack _ [(57, 7), (d.val, 5), (a.val, 5), (b.val, 5), (k.val, 3), (ea.toNat, 1), (eb.toNat, 1), (1, 5)] _ (by simp only [V3.enc, pack]; omega) hk rfl ?_ hw
  generalize hn : pack [(57, 7), (d.val, 5), (a.val, 5), (b.val, 5), (k.val, 3), (ea.toNat, 1), (eb.toNat, 1), (1, 5)] = nn at *
  have h0 : nn % 128 = 0x39 := by subst hn; exact pack_mod [(57, 7)] _ hk
  have f0 : fld nn 27 5 = 1 := by subst hn; exact pack_field [(57, 7), (d.val, 5), (a.val, 5), (b.val, 5), (k.val, 3), (ea.toNat, 1), (eb.toNat, 1)] [(1, 5)] _ hk
  have hd : V3.dec nn = ⟨eb, ea, k, b, a, d⟩ := by
    subst hn; simp only [V3.dec, V3.mk.injEq]
    exact ⟨decide_bool _ _ (pack_one [(57, 7), (d.val, 5), (a.val, 5), (b.val, 5), (k.val, 3), (ea.toNat, 1)] _ _ 1 hk),
      decide_bool _ _ (pack_one [(57, 7), (d.val, 5), (a.val, 5), (b.val, 5), (k.val, 3)] _ _ 1 hk),
      fin_of _ _ _ (pack_one [(57, 7), (d.val, 5), (a.val, 5), (b.val, 5)] _ _ 3 hk),
      fin_of _ _ _ (pack_one [(57, 7), (d.val, 5), (a.val, 5)] _ _ 5 hk),
      fin_of _ _ _ (pack_one [(57, 7), (d.val, 5)] _ _ 5 hk),
      fin_of _ _ _ (pack_one [(57, 7)] _ _ 5 hk)⟩
  rw [rowOf_39 _ h0]
  simp [rowVzip, f0, hd]

theorem vtrn (x : V3) : Statement (.vtrn x) := by
  intro w hw h
  simp only [encode, Option.some.injEq] at h
  subst h
  obtain ⟨eb, ea, k, b, a, d⟩ := x
  have hk : Packed [(57, 7), (d.val, 5), (a.val, 5), (b.val, 5), (k.val, 3), (ea.toNat, 1), (eb.toNat, 1), (2, 5)] :=
    ⟨by decide, d.isLt, a.isLt, b.isLt, k.isLt, bool_lt_two ea, bool_lt_two eb, by decide, trivial⟩
  refine decode_of_pack _ [(57, 7), (d.val, 5), (a.val, 5), (b.val, 5), (k.val, 3), (ea.toNat, 1), (eb.toNat, 1), (2, 5)] _ (by simp only [V3.enc, pack]; omega) hk rfl ?_ hw
  generalize hn : pack [(57, 7), (d.val, 5), (a.val, 5), (b.val, 5), (k.val, 3), (ea.toNat, 1), (eb.toNat, 1), (2, 5)] = nn at *
  have h0 : nn % 128 = 0x39 := by subst hn; exact pack_mod [(57, 7)] _ hk
  have f0 : fld nn 27 5 = 2 := by subst hn; exact pack_field [(57, 7), (d.val, 5), (a.val, 5), (b.val, 5), (k.val, 3), (ea.toNat, 1), (eb.toNat, 1)] [(2, 5)] _ hk
  have hd : V3.dec nn = ⟨eb, ea, k, b, a, d⟩ := by
    subst hn; simp only [V3.dec, V3.mk.injEq]
    exact ⟨decide_bool _ _ (pack_one [(57, 7), (d.val, 5), (a.val, 5), (b.val, 5), (k.val, 3), (ea.toNat, 1)] _ _ 1 hk),
      decide_bool _ _ (pack_one [(57, 7), (d.val, 5), (a.val, 5), (b.val, 5), (k.val, 3)] _ _ 1 hk),
      fin_of _ _ _ (pack_one [(57, 7), (d.val, 5), (a.val, 5), (b.val, 5)] _ _ 3 hk),
      fin_of _ _ _ (pack_one [(57, 7), (d.val, 5), (a.val, 5)] _ _ 5 hk),
      fin_of _ _ _ (pack_one [(57, 7), (d.val, 5)] _ _ 5 hk),
      fin_of _ _ _ (pack_one [(57, 7)] _ _ 5 hk)⟩
  rw [rowOf_39 _ h0]
  simp [rowVzip, f0, hd]

theorem kand (x : K3) : Statement (.kand x) := by
  intro w hw h
  simp only [encode, Option.some.injEq] at h
  subst h
  obtain ⟨eb, ea, b, a, d⟩ := x
  have hk : Packed [(58, 7), (d.val, 3), (0, 2), (a.val, 3), (0, 2), (b.val, 3), (0, 5), (ea.toNat, 1), (eb.toNat, 1), (0, 5)] :=
    ⟨by decide, d.isLt, by decide, a.isLt, by decide, b.isLt, by decide, bool_lt_two ea, bool_lt_two eb, by decide, trivial⟩
  refine decode_of_pack _ [(58, 7), (d.val, 3), (0, 2), (a.val, 3), (0, 2), (b.val, 3), (0, 5), (ea.toNat, 1), (eb.toNat, 1), (0, 5)] _ (by simp only [K3.enc, pack]; omega) hk rfl ?_ hw
  generalize hn : pack [(58, 7), (d.val, 3), (0, 2), (a.val, 3), (0, 2), (b.val, 3), (0, 5), (ea.toNat, 1), (eb.toNat, 1), (0, 5)] = nn at *
  have h0 : nn % 128 = 0x3A := by subst hn; exact pack_mod [(58, 7)] _ hk
  have f0 : fld nn 27 5 = 0 := by subst hn; exact pack_field [(58, 7), (d.val, 3), (0, 2), (a.val, 3), (0, 2), (b.val, 3), (0, 5), (ea.toNat, 1), (eb.toNat, 1)] [(0, 5)] _ hk
  have f1 : fld nn 20 5 = 0 := by subst hn; exact pack_field [(58, 7), (d.val, 3), (0, 2), (a.val, 3), (0, 2), (b.val, 3)] [(0, 5)] _ hk
  have f2 : fld nn 15 2 = 0 := by subst hn; exact pack_field [(58, 7), (d.val, 3), (0, 2), (a.val, 3)] [(0, 2)] _ hk
  have f3 : fld nn 10 2 = 0 := by subst hn; exact pack_field [(58, 7), (d.val, 3)] [(0, 2)] _ hk
  have hd : K3.dec nn = ⟨eb, ea, b, a, d⟩ := by
    subst hn; simp only [K3.dec, K3.mk.injEq]
    exact ⟨decide_bool _ _ (pack_one [(58, 7), (d.val, 3), (0, 2), (a.val, 3), (0, 2), (b.val, 3), (0, 5), (ea.toNat, 1)] _ _ 1 hk),
      decide_bool _ _ (pack_one [(58, 7), (d.val, 3), (0, 2), (a.val, 3), (0, 2), (b.val, 3), (0, 5)] _ _ 1 hk),
      fin_of _ _ _ (pack_one [(58, 7), (d.val, 3), (0, 2), (a.val, 3), (0, 2)] _ _ 3 hk),
      fin_of _ _ _ (pack_one [(58, 7), (d.val, 3), (0, 2)] _ _ 3 hk),
      fin_of _ _ _ (pack_one [(58, 7)] _ _ 3 hk)⟩
  rw [rowOf_3A _ h0]
  simp [rowKlog, f0, f1, f2, f3, hd]

theorem kor (x : K3) : Statement (.kor x) := by
  intro w hw h
  simp only [encode, Option.some.injEq] at h
  subst h
  obtain ⟨eb, ea, b, a, d⟩ := x
  have hk : Packed [(58, 7), (d.val, 3), (0, 2), (a.val, 3), (0, 2), (b.val, 3), (0, 5), (ea.toNat, 1), (eb.toNat, 1), (1, 5)] :=
    ⟨by decide, d.isLt, by decide, a.isLt, by decide, b.isLt, by decide, bool_lt_two ea, bool_lt_two eb, by decide, trivial⟩
  refine decode_of_pack _ [(58, 7), (d.val, 3), (0, 2), (a.val, 3), (0, 2), (b.val, 3), (0, 5), (ea.toNat, 1), (eb.toNat, 1), (1, 5)] _ (by simp only [K3.enc, pack]; omega) hk rfl ?_ hw
  generalize hn : pack [(58, 7), (d.val, 3), (0, 2), (a.val, 3), (0, 2), (b.val, 3), (0, 5), (ea.toNat, 1), (eb.toNat, 1), (1, 5)] = nn at *
  have h0 : nn % 128 = 0x3A := by subst hn; exact pack_mod [(58, 7)] _ hk
  have f0 : fld nn 27 5 = 1 := by subst hn; exact pack_field [(58, 7), (d.val, 3), (0, 2), (a.val, 3), (0, 2), (b.val, 3), (0, 5), (ea.toNat, 1), (eb.toNat, 1)] [(1, 5)] _ hk
  have f1 : fld nn 20 5 = 0 := by subst hn; exact pack_field [(58, 7), (d.val, 3), (0, 2), (a.val, 3), (0, 2), (b.val, 3)] [(0, 5)] _ hk
  have f2 : fld nn 15 2 = 0 := by subst hn; exact pack_field [(58, 7), (d.val, 3), (0, 2), (a.val, 3)] [(0, 2)] _ hk
  have f3 : fld nn 10 2 = 0 := by subst hn; exact pack_field [(58, 7), (d.val, 3)] [(0, 2)] _ hk
  have hd : K3.dec nn = ⟨eb, ea, b, a, d⟩ := by
    subst hn; simp only [K3.dec, K3.mk.injEq]
    exact ⟨decide_bool _ _ (pack_one [(58, 7), (d.val, 3), (0, 2), (a.val, 3), (0, 2), (b.val, 3), (0, 5), (ea.toNat, 1)] _ _ 1 hk),
      decide_bool _ _ (pack_one [(58, 7), (d.val, 3), (0, 2), (a.val, 3), (0, 2), (b.val, 3), (0, 5)] _ _ 1 hk),
      fin_of _ _ _ (pack_one [(58, 7), (d.val, 3), (0, 2), (a.val, 3), (0, 2)] _ _ 3 hk),
      fin_of _ _ _ (pack_one [(58, 7), (d.val, 3), (0, 2)] _ _ 3 hk),
      fin_of _ _ _ (pack_one [(58, 7)] _ _ 3 hk)⟩
  rw [rowOf_3A _ h0]
  simp [rowKlog, f0, f1, f2, f3, hd]

theorem kxor (x : K3) : Statement (.kxor x) := by
  intro w hw h
  simp only [encode, Option.some.injEq] at h
  subst h
  obtain ⟨eb, ea, b, a, d⟩ := x
  have hk : Packed [(58, 7), (d.val, 3), (0, 2), (a.val, 3), (0, 2), (b.val, 3), (0, 5), (ea.toNat, 1), (eb.toNat, 1), (2, 5)] :=
    ⟨by decide, d.isLt, by decide, a.isLt, by decide, b.isLt, by decide, bool_lt_two ea, bool_lt_two eb, by decide, trivial⟩
  refine decode_of_pack _ [(58, 7), (d.val, 3), (0, 2), (a.val, 3), (0, 2), (b.val, 3), (0, 5), (ea.toNat, 1), (eb.toNat, 1), (2, 5)] _ (by simp only [K3.enc, pack]; omega) hk rfl ?_ hw
  generalize hn : pack [(58, 7), (d.val, 3), (0, 2), (a.val, 3), (0, 2), (b.val, 3), (0, 5), (ea.toNat, 1), (eb.toNat, 1), (2, 5)] = nn at *
  have h0 : nn % 128 = 0x3A := by subst hn; exact pack_mod [(58, 7)] _ hk
  have f0 : fld nn 27 5 = 2 := by subst hn; exact pack_field [(58, 7), (d.val, 3), (0, 2), (a.val, 3), (0, 2), (b.val, 3), (0, 5), (ea.toNat, 1), (eb.toNat, 1)] [(2, 5)] _ hk
  have f1 : fld nn 20 5 = 0 := by subst hn; exact pack_field [(58, 7), (d.val, 3), (0, 2), (a.val, 3), (0, 2), (b.val, 3)] [(0, 5)] _ hk
  have f2 : fld nn 15 2 = 0 := by subst hn; exact pack_field [(58, 7), (d.val, 3), (0, 2), (a.val, 3)] [(0, 2)] _ hk
  have f3 : fld nn 10 2 = 0 := by subst hn; exact pack_field [(58, 7), (d.val, 3)] [(0, 2)] _ hk
  have hd : K3.dec nn = ⟨eb, ea, b, a, d⟩ := by
    subst hn; simp only [K3.dec, K3.mk.injEq]
    exact ⟨decide_bool _ _ (pack_one [(58, 7), (d.val, 3), (0, 2), (a.val, 3), (0, 2), (b.val, 3), (0, 5), (ea.toNat, 1)] _ _ 1 hk),
      decide_bool _ _ (pack_one [(58, 7), (d.val, 3), (0, 2), (a.val, 3), (0, 2), (b.val, 3), (0, 5)] _ _ 1 hk),
      fin_of _ _ _ (pack_one [(58, 7), (d.val, 3), (0, 2), (a.val, 3), (0, 2)] _ _ 3 hk),
      fin_of _ _ _ (pack_one [(58, 7), (d.val, 3), (0, 2)] _ _ 3 hk),
      fin_of _ _ _ (pack_one [(58, 7)] _ _ 3 hk)⟩
  rw [rowOf_3A _ h0]
  simp [rowKlog, f0, f1, f2, f3, hd]

theorem knot (x : K2) : Statement (.knot x) := by
  intro w hw h
  simp only [encode, Option.some.injEq] at h
  subst h
  obtain ⟨ea, a, d⟩ := x
  have hk : Packed [(58, 7), (d.val, 3), (0, 2), (a.val, 3), (0, 10), (ea.toNat, 1), (0, 1), (3, 5)] :=
    ⟨by decide, d.isLt, by decide, a.isLt, by decide, bool_lt_two ea, by decide, by decide, trivial⟩
  refine decode_of_pack _ [(58, 7), (d.val, 3), (0, 2), (a.val, 3), (0, 10), (ea.toNat, 1), (0, 1), (3, 5)] _ (by simp only [K2.enc, pack]; omega) hk rfl ?_ hw
  generalize hn : pack [(58, 7), (d.val, 3), (0, 2), (a.val, 3), (0, 10), (ea.toNat, 1), (0, 1), (3, 5)] = nn at *
  have h0 : nn % 128 = 0x3A := by subst hn; exact pack_mod [(58, 7)] _ hk
  have f0 : fld nn 27 5 = 3 := by subst hn; exact pack_field [(58, 7), (d.val, 3), (0, 2), (a.val, 3), (0, 10), (ea.toNat, 1), (0, 1)] [(3, 5)] _ hk
  have f1 : fld nn 26 6 = 6 := by subst hn; exact pack_field [(58, 7), (d.val, 3), (0, 2), (a.val, 3), (0, 10), (ea.toNat, 1)] [(0, 1), (3, 5)] _ hk
  have f2 : fld nn 15 10 = 0 := by subst hn; exact pack_field [(58, 7), (d.val, 3), (0, 2), (a.val, 3)] [(0, 10)] _ hk
  have f3 : fld nn 10 2 = 0 := by subst hn; exact pack_field [(58, 7), (d.val, 3)] [(0, 2)] _ hk
  have hd : K2.dec nn = ⟨ea, a, d⟩ := by
    subst hn; simp only [K2.dec, K2.mk.injEq]
    exact ⟨decide_bool _ _ (pack_one [(58, 7), (d.val, 3), (0, 2), (a.val, 3), (0, 10)] _ _ 1 hk),
      fin_of _ _ _ (pack_one [(58, 7), (d.val, 3), (0, 2)] _ _ 3 hk),
      fin_of _ _ _ (pack_one [(58, 7)] _ _ 3 hk)⟩
  rw [rowOf_3A _ h0]
  simp [rowKlog, f0, f1, f2, f3, hd]

theorem kandn (x : K3) : Statement (.kandn x) := by
  intro w hw h
  simp only [encode, Option.some.injEq] at h
  subst h
  obtain ⟨eb, ea, b, a, d⟩ := x
  have hk : Packed [(58, 7), (d.val, 3), (0, 2), (a.val, 3), (0, 2), (b.val, 3), (0, 5), (ea.toNat, 1), (eb.toNat, 1), (4, 5)] :=
    ⟨by decide, d.isLt, by decide, a.isLt, by decide, b.isLt, by decide, bool_lt_two ea, bool_lt_two eb, by decide, trivial⟩
  refine decode_of_pack _ [(58, 7), (d.val, 3), (0, 2), (a.val, 3), (0, 2), (b.val, 3), (0, 5), (ea.toNat, 1), (eb.toNat, 1), (4, 5)] _ (by simp only [K3.enc, pack]; omega) hk rfl ?_ hw
  generalize hn : pack [(58, 7), (d.val, 3), (0, 2), (a.val, 3), (0, 2), (b.val, 3), (0, 5), (ea.toNat, 1), (eb.toNat, 1), (4, 5)] = nn at *
  have h0 : nn % 128 = 0x3A := by subst hn; exact pack_mod [(58, 7)] _ hk
  have f0 : fld nn 27 5 = 4 := by subst hn; exact pack_field [(58, 7), (d.val, 3), (0, 2), (a.val, 3), (0, 2), (b.val, 3), (0, 5), (ea.toNat, 1), (eb.toNat, 1)] [(4, 5)] _ hk
  have f1 : ¬fld nn 26 6 = 6 := by
    subst hn; intro he; have h2 := (pack_field [(58, 7), (d.val, 3), (0, 2), (a.val, 3), (0, 2), (b.val, 3), (0, 5), (ea.toNat, 1)] [(eb.toNat, 1), (4, 5)] _ hk).symm.trans he; simp only [pack] at h2; omega
  have f2 : fld nn 20 5 = 0 := by subst hn; exact pack_field [(58, 7), (d.val, 3), (0, 2), (a.val, 3), (0, 2), (b.val, 3)] [(0, 5)] _ hk
  have f3 : fld nn 15 2 = 0 := by subst hn; exact pack_field [(58, 7), (d.val, 3), (0, 2), (a.val, 3)] [(0, 2)] _ hk
  have f4 : fld nn 10 2 = 0 := by subst hn; exact pack_field [(58, 7), (d.val, 3)] [(0, 2)] _ hk
  have hd : K3.dec nn = ⟨eb, ea, b, a, d⟩ := by
    subst hn; simp only [K3.dec, K3.mk.injEq]
    exact ⟨decide_bool _ _ (pack_one [(58, 7), (d.val, 3), (0, 2), (a.val, 3), (0, 2), (b.val, 3), (0, 5), (ea.toNat, 1)] _ _ 1 hk),
      decide_bool _ _ (pack_one [(58, 7), (d.val, 3), (0, 2), (a.val, 3), (0, 2), (b.val, 3), (0, 5)] _ _ 1 hk),
      fin_of _ _ _ (pack_one [(58, 7), (d.val, 3), (0, 2), (a.val, 3), (0, 2)] _ _ 3 hk),
      fin_of _ _ _ (pack_one [(58, 7), (d.val, 3), (0, 2)] _ _ 3 hk),
      fin_of _ _ _ (pack_one [(58, 7)] _ _ 3 hk)⟩
  rw [rowOf_3A _ h0]
  simp [rowKlog, f0, f1, f2, f3, f4, hd]

theorem kpopc (x : KToR) : Statement (.kpopc x) := by
  intro w hw h
  simp only [encode, Option.some.injEq] at h
  subst h
  obtain ⟨ea, a, d⟩ := x
  have hk : Packed [(58, 7), (d.val, 5), (a.val, 3), (0, 10), (ea.toNat, 1), (0, 1), (5, 5)] :=
    ⟨by decide, d.isLt, a.isLt, by decide, bool_lt_two ea, by decide, by decide, trivial⟩
  refine decode_of_pack _ [(58, 7), (d.val, 5), (a.val, 3), (0, 10), (ea.toNat, 1), (0, 1), (5, 5)] _ (by simp only [KToR.enc, pack]; omega) hk rfl ?_ hw
  generalize hn : pack [(58, 7), (d.val, 5), (a.val, 3), (0, 10), (ea.toNat, 1), (0, 1), (5, 5)] = nn at *
  have h0 : nn % 128 = 0x3A := by subst hn; exact pack_mod [(58, 7)] _ hk
  have f0 : fld nn 27 5 = 5 := by subst hn; exact pack_field [(58, 7), (d.val, 5), (a.val, 3), (0, 10), (ea.toNat, 1), (0, 1)] [(5, 5)] _ hk
  have f1 : fld nn 26 6 = 10 := by subst hn; exact pack_field [(58, 7), (d.val, 5), (a.val, 3), (0, 10), (ea.toNat, 1)] [(0, 1), (5, 5)] _ hk
  have f2 : fld nn 15 10 = 0 := by subst hn; exact pack_field [(58, 7), (d.val, 5), (a.val, 3)] [(0, 10)] _ hk
  have hd : KToR.dec nn = ⟨ea, a, d⟩ := by
    subst hn; simp only [KToR.dec, KToR.mk.injEq]
    exact ⟨decide_bool _ _ (pack_one [(58, 7), (d.val, 5), (a.val, 3), (0, 10)] _ _ 1 hk),
      fin_of _ _ _ (pack_one [(58, 7), (d.val, 5)] _ _ 3 hk),
      fin_of _ _ _ (pack_one [(58, 7)] _ _ 5 hk)⟩
  rw [rowOf_3A _ h0]
  simp [rowKlog, f0, f1, f2, hd]

theorem kfirst (x : KToR) : Statement (.kfirst x) := by
  intro w hw h
  simp only [encode, Option.some.injEq] at h
  subst h
  obtain ⟨ea, a, d⟩ := x
  have hk : Packed [(58, 7), (d.val, 5), (a.val, 3), (0, 10), (ea.toNat, 1), (0, 1), (6, 5)] :=
    ⟨by decide, d.isLt, a.isLt, by decide, bool_lt_two ea, by decide, by decide, trivial⟩
  refine decode_of_pack _ [(58, 7), (d.val, 5), (a.val, 3), (0, 10), (ea.toNat, 1), (0, 1), (6, 5)] _ (by simp only [KToR.enc, pack]; omega) hk rfl ?_ hw
  generalize hn : pack [(58, 7), (d.val, 5), (a.val, 3), (0, 10), (ea.toNat, 1), (0, 1), (6, 5)] = nn at *
  have h0 : nn % 128 = 0x3A := by subst hn; exact pack_mod [(58, 7)] _ hk
  have f0 : fld nn 27 5 = 6 := by subst hn; exact pack_field [(58, 7), (d.val, 5), (a.val, 3), (0, 10), (ea.toNat, 1), (0, 1)] [(6, 5)] _ hk
  have f1 : fld nn 26 6 = 12 := by subst hn; exact pack_field [(58, 7), (d.val, 5), (a.val, 3), (0, 10), (ea.toNat, 1)] [(0, 1), (6, 5)] _ hk
  have f2 : fld nn 15 10 = 0 := by subst hn; exact pack_field [(58, 7), (d.val, 5), (a.val, 3)] [(0, 10)] _ hk
  have hd : KToR.dec nn = ⟨ea, a, d⟩ := by
    subst hn; simp only [KToR.dec, KToR.mk.injEq]
    exact ⟨decide_bool _ _ (pack_one [(58, 7), (d.val, 5), (a.val, 3), (0, 10)] _ _ 1 hk),
      fin_of _ _ _ (pack_one [(58, 7), (d.val, 5)] _ _ 3 hk),
      fin_of _ _ _ (pack_one [(58, 7)] _ _ 5 hk)⟩
  rw [rowOf_3A _ h0]
  simp [rowKlog, f0, f1, f2, hd]

theorem kvl (x : RToK) : Statement (.kvl x) := by
  intro w hw h
  simp only [encode, Option.some.injEq] at h
  subst h
  obtain ⟨ea, a, d⟩ := x
  have hk : Packed [(59, 7), (d.val, 3), (0, 2), (a.val, 5), (0, 8), (ea.toNat, 1), (0, 6)] :=
    ⟨by decide, d.isLt, by decide, a.isLt, by decide, bool_lt_two ea, by decide, trivial⟩
  refine decode_of_pack _ [(59, 7), (d.val, 3), (0, 2), (a.val, 5), (0, 8), (ea.toNat, 1), (0, 6)] _ (by simp only [RToK.enc, pack]; omega) hk rfl ?_ hw
  generalize hn : pack [(59, 7), (d.val, 3), (0, 2), (a.val, 5), (0, 8), (ea.toNat, 1), (0, 6)] = nn at *
  have h0 : nn % 128 = 0x3B := by subst hn; exact pack_mod [(59, 7)] _ hk
  have f0 : fld nn 26 6 = 0 := by subst hn; exact pack_field [(59, 7), (d.val, 3), (0, 2), (a.val, 5), (0, 8), (ea.toNat, 1)] [(0, 6)] _ hk
  have f1 : fld nn 17 8 = 0 := by subst hn; exact pack_field [(59, 7), (d.val, 3), (0, 2), (a.val, 5)] [(0, 8)] _ hk
  have f2 : fld nn 10 2 = 0 := by subst hn; exact pack_field [(59, 7), (d.val, 3)] [(0, 2)] _ hk
  have hd : RToK.dec nn = ⟨ea, a, d⟩ := by
    subst hn; simp only [RToK.dec, RToK.mk.injEq]
    exact ⟨decide_bool _ _ (pack_one [(59, 7), (d.val, 3), (0, 2), (a.val, 5), (0, 8)] _ _ 1 hk),
      fin_of _ _ _ (pack_one [(59, 7), (d.val, 3), (0, 2)] _ _ 5 hk),
      fin_of _ _ _ (pack_one [(59, 7)] _ _ 3 hk)⟩
  rw [rowOf_3B _ h0]
  simp [rowKvl, f0, f1, f2, hd]

theorem kfrom (x : RToK) : Statement (.kfrom x) := by
  intro w hw h
  simp only [encode, Option.some.injEq] at h
  subst h
  obtain ⟨ea, a, d⟩ := x
  have hk : Packed [(59, 7), (d.val, 3), (0, 2), (a.val, 5), (0, 8), (ea.toNat, 1), (2, 6)] :=
    ⟨by decide, d.isLt, by decide, a.isLt, by decide, bool_lt_two ea, by decide, trivial⟩
  refine decode_of_pack _ [(59, 7), (d.val, 3), (0, 2), (a.val, 5), (0, 8), (ea.toNat, 1), (2, 6)] _ (by simp only [RToK.enc, pack]; omega) hk rfl ?_ hw
  generalize hn : pack [(59, 7), (d.val, 3), (0, 2), (a.val, 5), (0, 8), (ea.toNat, 1), (2, 6)] = nn at *
  have h0 : nn % 128 = 0x3B := by subst hn; exact pack_mod [(59, 7)] _ hk
  have f0 : fld nn 26 6 = 2 := by subst hn; exact pack_field [(59, 7), (d.val, 3), (0, 2), (a.val, 5), (0, 8), (ea.toNat, 1)] [(2, 6)] _ hk
  have f1 : fld nn 17 8 = 0 := by subst hn; exact pack_field [(59, 7), (d.val, 3), (0, 2), (a.val, 5)] [(0, 8)] _ hk
  have f2 : fld nn 10 2 = 0 := by subst hn; exact pack_field [(59, 7), (d.val, 3)] [(0, 2)] _ hk
  have hd : RToK.dec nn = ⟨ea, a, d⟩ := by
    subst hn; simp only [RToK.dec, RToK.mk.injEq]
    exact ⟨decide_bool _ _ (pack_one [(59, 7), (d.val, 3), (0, 2), (a.val, 5), (0, 8)] _ _ 1 hk),
      fin_of _ _ _ (pack_one [(59, 7), (d.val, 3), (0, 2)] _ _ 5 hk),
      fin_of _ _ _ (pack_one [(59, 7)] _ _ 3 hk)⟩
  rw [rowOf_3B _ h0]
  simp [rowKvl, f0, f1, f2, hd]

theorem vlk (x : KToR) : Statement (.vlk x) := by
  intro w hw h
  simp only [encode, Option.some.injEq] at h
  subst h
  obtain ⟨ea, a, d⟩ := x
  have hk : Packed [(59, 7), (d.val, 5), (a.val, 3), (0, 10), (ea.toNat, 1), (4, 6)] :=
    ⟨by decide, d.isLt, a.isLt, by decide, bool_lt_two ea, by decide, trivial⟩
  refine decode_of_pack _ [(59, 7), (d.val, 5), (a.val, 3), (0, 10), (ea.toNat, 1), (4, 6)] _ (by simp only [KToR.enc, pack]; omega) hk rfl ?_ hw
  generalize hn : pack [(59, 7), (d.val, 5), (a.val, 3), (0, 10), (ea.toNat, 1), (4, 6)] = nn at *
  have h0 : nn % 128 = 0x3B := by subst hn; exact pack_mod [(59, 7)] _ hk
  have f0 : fld nn 26 6 = 4 := by subst hn; exact pack_field [(59, 7), (d.val, 5), (a.val, 3), (0, 10), (ea.toNat, 1)] [(4, 6)] _ hk
  have f1 : fld nn 15 10 = 0 := by subst hn; exact pack_field [(59, 7), (d.val, 5), (a.val, 3)] [(0, 10)] _ hk
  have hd : KToR.dec nn = ⟨ea, a, d⟩ := by
    subst hn; simp only [KToR.dec, KToR.mk.injEq]
    exact ⟨decide_bool _ _ (pack_one [(59, 7), (d.val, 5), (a.val, 3), (0, 10)] _ _ 1 hk),
      fin_of _ _ _ (pack_one [(59, 7), (d.val, 5)] _ _ 3 hk),
      fin_of _ _ _ (pack_one [(59, 7)] _ _ 5 hk)⟩
  rw [rowOf_3B _ h0]
  simp [rowKvl, f0, f1, hd]

theorem vmcast (x : VMcast) : Statement (.vmcast x) := by
  intro w hw h
  simp only [encode, Option.some.injEq] at h
  subst h
  obtain ⟨eb, ea, k, b, a⟩ := x
  have hk : Packed [(60, 7), (0, 5), (a.val, 5), (b.val, 5), (k.val, 3), (ea.toNat, 1), (eb.toNat, 1), (0, 5)] :=
    ⟨by decide, by decide, a.isLt, b.isLt, k.isLt, bool_lt_two ea, bool_lt_two eb, by decide, trivial⟩
  refine decode_of_pack _ [(60, 7), (0, 5), (a.val, 5), (b.val, 5), (k.val, 3), (ea.toNat, 1), (eb.toNat, 1), (0, 5)] _ (by simp only [VMcast.enc, pack]; omega) hk rfl ?_ hw
  generalize hn : pack [(60, 7), (0, 5), (a.val, 5), (b.val, 5), (k.val, 3), (ea.toNat, 1), (eb.toNat, 1), (0, 5)] = nn at *
  have h0 : nn % 128 = 0x3C := by subst hn; exact pack_mod [(60, 7)] _ hk
  have f0 : fld nn 27 5 = 0 := by subst hn; exact pack_field [(60, 7), (0, 5), (a.val, 5), (b.val, 5), (k.val, 3), (ea.toNat, 1), (eb.toNat, 1)] [(0, 5)] _ hk
  have f1 : fld nn 7 5 = 0 := by subst hn; exact pack_field [(60, 7)] [(0, 5)] _ hk
  have hd : VMcast.dec nn = ⟨eb, ea, k, b, a⟩ := by
    subst hn; simp only [VMcast.dec, VMcast.mk.injEq]
    exact ⟨decide_bool _ _ (pack_one [(60, 7), (0, 5), (a.val, 5), (b.val, 5), (k.val, 3), (ea.toNat, 1)] _ _ 1 hk),
      decide_bool _ _ (pack_one [(60, 7), (0, 5), (a.val, 5), (b.val, 5), (k.val, 3)] _ _ 1 hk),
      fin_of _ _ _ (pack_one [(60, 7), (0, 5), (a.val, 5), (b.val, 5)] _ _ 3 hk),
      fin_of _ _ _ (pack_one [(60, 7), (0, 5), (a.val, 5)] _ _ 5 hk),
      fin_of _ _ _ (pack_one [(60, 7), (0, 5)] _ _ 5 hk)⟩
  rw [rowOf_3C _ h0]
  simp [rowVmcast, f0, f1, hd]

theorem vrecv (x : VRecv) : Statement (.vrecv x) := by
  intro w hw h
  simp only [encode, Option.some.injEq] at h
  subst h
  obtain ⟨d⟩ := x
  have hk : Packed [(61, 7), (d.val, 5), (0, 20)] :=
    ⟨by decide, d.isLt, by decide, trivial⟩
  refine decode_of_pack _ [(61, 7), (d.val, 5), (0, 20)] _ (by simp only [VRecv.enc, pack]; omega) hk rfl ?_ hw
  generalize hn : pack [(61, 7), (d.val, 5), (0, 20)] = nn at *
  have h0 : nn % 128 = 0x3D := by subst hn; exact pack_mod [(61, 7)] _ hk
  have f0 : fld nn 12 20 = 0 := by subst hn; exact pack_field [(61, 7), (d.val, 5)] [(0, 20)] _ hk
  have hd : VRecv.dec nn = ⟨d⟩ := by
    subst hn; simp only [VRecv.dec, VRecv.mk.injEq]
    exact fin_of _ _ _ (pack_one [(61, 7)] _ _ 5 hk)
  rw [rowOf_3D _ h0]
  simp [rowVrecv, f0, hd]

theorem viota (x : VIota) : Statement (.viota x) := by
  intro w hw h
  simp only [encode, Option.some.injEq] at h
  subst h
  obtain ⟨ea, k, a, d⟩ := x
  have hk : Packed [(62, 7), (d.val, 5), (a.val, 3), (0, 7), (k.val, 3), (ea.toNat, 1), (0, 6)] :=
    ⟨by decide, d.isLt, a.isLt, by decide, k.isLt, bool_lt_two ea, by decide, trivial⟩
  refine decode_of_pack _ [(62, 7), (d.val, 5), (a.val, 3), (0, 7), (k.val, 3), (ea.toNat, 1), (0, 6)] _ (by simp only [VIota.enc, pack]; omega) hk rfl ?_ hw
  generalize hn : pack [(62, 7), (d.val, 5), (a.val, 3), (0, 7), (k.val, 3), (ea.toNat, 1), (0, 6)] = nn at *
  have h0 : nn % 128 = 0x3E := by subst hn; exact pack_mod [(62, 7)] _ hk
  have f0 : fld nn 26 6 = 0 := by subst hn; exact pack_field [(62, 7), (d.val, 5), (a.val, 3), (0, 7), (k.val, 3), (ea.toNat, 1)] [(0, 6)] _ hk
  have f1 : fld nn 15 7 = 0 := by subst hn; exact pack_field [(62, 7), (d.val, 5), (a.val, 3)] [(0, 7)] _ hk
  have hd : VIota.dec nn = ⟨ea, k, a, d⟩ := by
    subst hn; simp only [VIota.dec, VIota.mk.injEq]
    exact ⟨decide_bool _ _ (pack_one [(62, 7), (d.val, 5), (a.val, 3), (0, 7), (k.val, 3)] _ _ 1 hk),
      fin_of _ _ _ (pack_one [(62, 7), (d.val, 5), (a.val, 3), (0, 7)] _ _ 3 hk),
      fin_of _ _ _ (pack_one [(62, 7), (d.val, 5)] _ _ 3 hk),
      fin_of _ _ _ (pack_one [(62, 7)] _ _ 5 hk)⟩
  rw [rowOf_3E _ h0]
  simp [rowViota, f0, f1, hd]

theorem vidx (x : VD) : Statement (.vidx x) := by
  intro w hw h
  simp only [encode, Option.some.injEq] at h
  subst h
  obtain ⟨k, d⟩ := x
  have hk : Packed [(62, 7), (d.val, 5), (0, 10), (k.val, 3), (0, 1), (2, 6)] :=
    ⟨by decide, d.isLt, by decide, k.isLt, by decide, by decide, trivial⟩
  refine decode_of_pack _ [(62, 7), (d.val, 5), (0, 10), (k.val, 3), (0, 1), (2, 6)] _ (by simp only [VD.enc, pack]; omega) hk rfl ?_ hw
  generalize hn : pack [(62, 7), (d.val, 5), (0, 10), (k.val, 3), (0, 1), (2, 6)] = nn at *
  have h0 : nn % 128 = 0x3E := by subst hn; exact pack_mod [(62, 7)] _ hk
  have f0 : fld nn 26 6 = 2 := by subst hn; exact pack_field [(62, 7), (d.val, 5), (0, 10), (k.val, 3), (0, 1)] [(2, 6)] _ hk
  have f1 : fld nn 25 7 = 4 := by subst hn; exact pack_field [(62, 7), (d.val, 5), (0, 10), (k.val, 3)] [(0, 1), (2, 6)] _ hk
  have f2 : fld nn 12 10 = 0 := by subst hn; exact pack_field [(62, 7), (d.val, 5)] [(0, 10)] _ hk
  have hd : VD.dec nn = ⟨k, d⟩ := by
    subst hn; simp only [VD.dec, VD.mk.injEq]
    exact ⟨fin_of _ _ _ (pack_one [(62, 7), (d.val, 5), (0, 10)] _ _ 3 hk),
      fin_of _ _ _ (pack_one [(62, 7)] _ _ 5 hk)⟩
  rw [rowOf_3E _ h0]
  simp [rowViota, f0, f1, f2, hd]

theorem vflgRd (x : VD) : Statement (.vflgRd x) := by
  intro w hw h
  simp only [encode, Option.some.injEq] at h
  subst h
  obtain ⟨k, d⟩ := x
  have hk : Packed [(63, 7), (d.val, 5), (0, 10), (k.val, 3), (0, 7)] :=
    ⟨by decide, d.isLt, by decide, k.isLt, by decide, trivial⟩
  refine decode_of_pack _ [(63, 7), (d.val, 5), (0, 10), (k.val, 3), (0, 7)] _ (by simp only [VD.enc, pack]; omega) hk rfl ?_ hw
  generalize hn : pack [(63, 7), (d.val, 5), (0, 10), (k.val, 3), (0, 7)] = nn at *
  have h0 : nn % 128 = 0x3F := by subst hn; exact pack_mod [(63, 7)] _ hk
  have f0 : fld nn 25 7 = 0 := by subst hn; exact pack_field [(63, 7), (d.val, 5), (0, 10), (k.val, 3)] [(0, 7)] _ hk
  have f1 : fld nn 12 10 = 0 := by subst hn; exact pack_field [(63, 7), (d.val, 5)] [(0, 10)] _ hk
  have hd : VD.dec nn = ⟨k, d⟩ := by
    subst hn; simp only [VD.dec, VD.mk.injEq]
    exact ⟨fin_of _ _ _ (pack_one [(63, 7), (d.val, 5), (0, 10)] _ _ 3 hk),
      fin_of _ _ _ (pack_one [(63, 7)] _ _ 5 hk)⟩
  rw [rowOf_3F _ h0]
  simp [rowVflg, f0, f1, hd]

theorem vflgClr (x : VK) : Statement (.vflgClr x) := by
  intro w hw h
  simp only [encode, Option.some.injEq] at h
  subst h
  obtain ⟨k⟩ := x
  have hk : Packed [(63, 7), (0, 15), (k.val, 3), (4, 7)] :=
    ⟨by decide, by decide, k.isLt, by decide, trivial⟩
  refine decode_of_pack _ [(63, 7), (0, 15), (k.val, 3), (4, 7)] _ (by simp only [VK.enc, pack]; omega) hk rfl ?_ hw
  generalize hn : pack [(63, 7), (0, 15), (k.val, 3), (4, 7)] = nn at *
  have h0 : nn % 128 = 0x3F := by subst hn; exact pack_mod [(63, 7)] _ hk
  have f0 : fld nn 25 7 = 4 := by subst hn; exact pack_field [(63, 7), (0, 15), (k.val, 3)] [(4, 7)] _ hk
  have f1 : fld nn 7 15 = 0 := by subst hn; exact pack_field [(63, 7)] [(0, 15)] _ hk
  have hd : VK.dec nn = ⟨k⟩ := by
    subst hn; simp only [VK.dec, VK.mk.injEq]
    exact fin_of _ _ _ (pack_one [(63, 7), (0, 15)] _ _ 3 hk)
  rw [rowOf_3F _ h0]
  simp [rowVflg, f0, f1, hd]

theorem wld (x : WMem) : Statement (.wld x) := by
  intro w hw h
  simp only [encode, Option.some.injEq] at h
  subst h
  obtain ⟨p, stride, e, k, v, w⟩ := x
  have hk : Packed [(64, 7), (w.val, 2), (0, 4), (v.val, 5), (k.val, 3), (e.toNat, 1), (0, 3), (stride.val, 5), (0, 1), (p.toNat, 1)] :=
    ⟨by decide, w.isLt, by decide, v.isLt, k.isLt, bool_lt_two e, by decide, stride.isLt, by decide, bool_lt_two p, trivial⟩
  refine decode_of_pack _ [(64, 7), (w.val, 2), (0, 4), (v.val, 5), (k.val, 3), (e.toNat, 1), (0, 3), (stride.val, 5), (0, 1), (p.toNat, 1)] _ (by simp only [WMem.enc, pack]; omega) hk rfl ?_ hw
  generalize hn : pack [(64, 7), (w.val, 2), (0, 4), (v.val, 5), (k.val, 3), (e.toNat, 1), (0, 3), (stride.val, 5), (0, 1), (p.toNat, 1)] = nn at *
  have h0 : nn % 128 = 0x40 := by subst hn; exact pack_mod [(64, 7)] _ hk
  have f0 : fld nn 30 1 = 0 := by subst hn; exact pack_field [(64, 7), (w.val, 2), (0, 4), (v.val, 5), (k.val, 3), (e.toNat, 1), (0, 3), (stride.val, 5)] [(0, 1)] _ hk
  have f1 : fld nn 22 3 = 0 := by subst hn; exact pack_field [(64, 7), (w.val, 2), (0, 4), (v.val, 5), (k.val, 3), (e.toNat, 1)] [(0, 3)] _ hk
  have f2 : fld nn 9 4 = 0 := by subst hn; exact pack_field [(64, 7), (w.val, 2)] [(0, 4)] _ hk
  have hd : WMem.dec nn = ⟨p, stride, e, k, v, w⟩ := by
    subst hn; simp only [WMem.dec, WMem.mk.injEq]
    exact ⟨decide_bool _ _ (pack_one [(64, 7), (w.val, 2), (0, 4), (v.val, 5), (k.val, 3), (e.toNat, 1), (0, 3), (stride.val, 5), (0, 1)] _ _ 1 hk),
      fin_of _ _ _ (pack_one [(64, 7), (w.val, 2), (0, 4), (v.val, 5), (k.val, 3), (e.toNat, 1), (0, 3)] _ _ 5 hk),
      decide_bool _ _ (pack_one [(64, 7), (w.val, 2), (0, 4), (v.val, 5), (k.val, 3)] _ _ 1 hk),
      fin_of _ _ _ (pack_one [(64, 7), (w.val, 2), (0, 4), (v.val, 5)] _ _ 3 hk),
      fin_of _ _ _ (pack_one [(64, 7), (w.val, 2), (0, 4)] _ _ 5 hk),
      fin_of _ _ _ (pack_one [(64, 7)] _ _ 2 hk)⟩
  rw [rowOf_40 _ h0]
  simp [rowWld, f0, f1, f2, hd]

theorem wst (x : WMem) : Statement (.wst x) := by
  intro w hw h
  simp only [encode, Option.some.injEq] at h
  subst h
  obtain ⟨p, stride, e, k, v, w⟩ := x
  have hk : Packed [(65, 7), (w.val, 2), (0, 4), (v.val, 5), (k.val, 3), (e.toNat, 1), (0, 3), (stride.val, 5), (0, 1), (p.toNat, 1)] :=
    ⟨by decide, w.isLt, by decide, v.isLt, k.isLt, bool_lt_two e, by decide, stride.isLt, by decide, bool_lt_two p, trivial⟩
  refine decode_of_pack _ [(65, 7), (w.val, 2), (0, 4), (v.val, 5), (k.val, 3), (e.toNat, 1), (0, 3), (stride.val, 5), (0, 1), (p.toNat, 1)] _ (by simp only [WMem.enc, pack]; omega) hk rfl ?_ hw
  generalize hn : pack [(65, 7), (w.val, 2), (0, 4), (v.val, 5), (k.val, 3), (e.toNat, 1), (0, 3), (stride.val, 5), (0, 1), (p.toNat, 1)] = nn at *
  have h0 : nn % 128 = 0x41 := by subst hn; exact pack_mod [(65, 7)] _ hk
  have f0 : fld nn 30 1 = 0 := by subst hn; exact pack_field [(65, 7), (w.val, 2), (0, 4), (v.val, 5), (k.val, 3), (e.toNat, 1), (0, 3), (stride.val, 5)] [(0, 1)] _ hk
  have f1 : fld nn 22 3 = 0 := by subst hn; exact pack_field [(65, 7), (w.val, 2), (0, 4), (v.val, 5), (k.val, 3), (e.toNat, 1)] [(0, 3)] _ hk
  have f2 : fld nn 9 4 = 0 := by subst hn; exact pack_field [(65, 7), (w.val, 2)] [(0, 4)] _ hk
  have hd : WMem.dec nn = ⟨p, stride, e, k, v, w⟩ := by
    subst hn; simp only [WMem.dec, WMem.mk.injEq]
    exact ⟨decide_bool _ _ (pack_one [(65, 7), (w.val, 2), (0, 4), (v.val, 5), (k.val, 3), (e.toNat, 1), (0, 3), (stride.val, 5), (0, 1)] _ _ 1 hk),
      fin_of _ _ _ (pack_one [(65, 7), (w.val, 2), (0, 4), (v.val, 5), (k.val, 3), (e.toNat, 1), (0, 3)] _ _ 5 hk),
      decide_bool _ _ (pack_one [(65, 7), (w.val, 2), (0, 4), (v.val, 5), (k.val, 3)] _ _ 1 hk),
      fin_of _ _ _ (pack_one [(65, 7), (w.val, 2), (0, 4), (v.val, 5)] _ _ 3 hk),
      fin_of _ _ _ (pack_one [(65, 7), (w.val, 2), (0, 4)] _ _ 5 hk),
      fin_of _ _ _ (pack_one [(65, 7)] _ _ 2 hk)⟩
  rw [rowOf_41 _ h0]
  simp [rowWst, f0, f1, f2, hd]

theorem wmul (x : W3) : Statement (.wmul x) := by
  intro w hw h
  simp only [encode, Option.some.injEq] at h
  subst h
  obtain ⟨p, e, k, b, a, d⟩ := x
  have hk : Packed [(66, 7), (d.val, 2), (a.val, 2), (b.val, 2), (0, 5), (k.val, 3), (e.toNat, 1), (0, 9), (p.toNat, 1)] :=
    ⟨by decide, d.isLt, a.isLt, b.isLt, by decide, k.isLt, bool_lt_two e, by decide, bool_lt_two p, trivial⟩
  refine decode_of_pack _ [(66, 7), (d.val, 2), (a.val, 2), (b.val, 2), (0, 5), (k.val, 3), (e.toNat, 1), (0, 9), (p.toNat, 1)] _ (by simp only [W3.enc, pack]; omega) hk rfl ?_ hw
  generalize hn : pack [(66, 7), (d.val, 2), (a.val, 2), (b.val, 2), (0, 5), (k.val, 3), (e.toNat, 1), (0, 9), (p.toNat, 1)] = nn at *
  have h0 : nn % 128 = 0x42 := by subst hn; exact pack_mod [(66, 7)] _ hk
  have f0 : fld nn 22 9 = 0 := by subst hn; exact pack_field [(66, 7), (d.val, 2), (a.val, 2), (b.val, 2), (0, 5), (k.val, 3), (e.toNat, 1)] [(0, 9)] _ hk
  have f1 : fld nn 13 5 = 0 := by subst hn; exact pack_field [(66, 7), (d.val, 2), (a.val, 2), (b.val, 2)] [(0, 5)] _ hk
  have hd : W3.dec nn = ⟨p, e, k, b, a, d⟩ := by
    subst hn; simp only [W3.dec, W3.mk.injEq]
    exact ⟨decide_bool _ _ (pack_one [(66, 7), (d.val, 2), (a.val, 2), (b.val, 2), (0, 5), (k.val, 3), (e.toNat, 1), (0, 9)] _ _ 1 hk),
      decide_bool _ _ (pack_one [(66, 7), (d.val, 2), (a.val, 2), (b.val, 2), (0, 5), (k.val, 3)] _ _ 1 hk),
      fin_of _ _ _ (pack_one [(66, 7), (d.val, 2), (a.val, 2), (b.val, 2), (0, 5)] _ _ 3 hk),
      fin_of _ _ _ (pack_one [(66, 7), (d.val, 2), (a.val, 2)] _ _ 2 hk),
      fin_of _ _ _ (pack_one [(66, 7), (d.val, 2)] _ _ 2 hk),
      fin_of _ _ _ (pack_one [(66, 7)] _ _ 2 hk)⟩
  rw [rowOf_42 _ h0]
  simp [rowWmul, f0, f1, hd]

theorem wmac (x : W3) : Statement (.wmac x) := by
  intro w hw h
  simp only [encode, Option.some.injEq] at h
  subst h
  obtain ⟨p, e, k, b, a, d⟩ := x
  have hk : Packed [(66, 7), (d.val, 2), (a.val, 2), (b.val, 2), (0, 5), (k.val, 3), (e.toNat, 1), (1, 9), (p.toNat, 1)] :=
    ⟨by decide, d.isLt, a.isLt, b.isLt, by decide, k.isLt, bool_lt_two e, by decide, bool_lt_two p, trivial⟩
  refine decode_of_pack _ [(66, 7), (d.val, 2), (a.val, 2), (b.val, 2), (0, 5), (k.val, 3), (e.toNat, 1), (1, 9), (p.toNat, 1)] _ (by simp only [W3.enc, pack]; omega) hk rfl ?_ hw
  generalize hn : pack [(66, 7), (d.val, 2), (a.val, 2), (b.val, 2), (0, 5), (k.val, 3), (e.toNat, 1), (1, 9), (p.toNat, 1)] = nn at *
  have h0 : nn % 128 = 0x42 := by subst hn; exact pack_mod [(66, 7)] _ hk
  have f0 : fld nn 22 9 = 1 := by subst hn; exact pack_field [(66, 7), (d.val, 2), (a.val, 2), (b.val, 2), (0, 5), (k.val, 3), (e.toNat, 1)] [(1, 9)] _ hk
  have f1 : fld nn 13 5 = 0 := by subst hn; exact pack_field [(66, 7), (d.val, 2), (a.val, 2), (b.val, 2)] [(0, 5)] _ hk
  have hd : W3.dec nn = ⟨p, e, k, b, a, d⟩ := by
    subst hn; simp only [W3.dec, W3.mk.injEq]
    exact ⟨decide_bool _ _ (pack_one [(66, 7), (d.val, 2), (a.val, 2), (b.val, 2), (0, 5), (k.val, 3), (e.toNat, 1), (1, 9)] _ _ 1 hk),
      decide_bool _ _ (pack_one [(66, 7), (d.val, 2), (a.val, 2), (b.val, 2), (0, 5), (k.val, 3)] _ _ 1 hk),
      fin_of _ _ _ (pack_one [(66, 7), (d.val, 2), (a.val, 2), (b.val, 2), (0, 5)] _ _ 3 hk),
      fin_of _ _ _ (pack_one [(66, 7), (d.val, 2), (a.val, 2)] _ _ 2 hk),
      fin_of _ _ _ (pack_one [(66, 7), (d.val, 2)] _ _ 2 hk),
      fin_of _ _ _ (pack_one [(66, 7)] _ _ 2 hk)⟩
  rw [rowOf_42 _ h0]
  simp [rowWmul, f0, f1, hd]

theorem wmult (x : W3) : Statement (.wmult x) := by
  intro w hw h
  simp only [encode, Option.some.injEq] at h
  subst h
  obtain ⟨p, e, k, b, a, d⟩ := x
  have hk : Packed [(66, 7), (d.val, 2), (a.val, 2), (b.val, 2), (0, 5), (k.val, 3), (e.toNat, 1), (2, 9), (p.toNat, 1)] :=
    ⟨by decide, d.isLt, a.isLt, b.isLt, by decide, k.isLt, bool_lt_two e, by decide, bool_lt_two p, trivial⟩
  refine decode_of_pack _ [(66, 7), (d.val, 2), (a.val, 2), (b.val, 2), (0, 5), (k.val, 3), (e.toNat, 1), (2, 9), (p.toNat, 1)] _ (by simp only [W3.enc, pack]; omega) hk rfl ?_ hw
  generalize hn : pack [(66, 7), (d.val, 2), (a.val, 2), (b.val, 2), (0, 5), (k.val, 3), (e.toNat, 1), (2, 9), (p.toNat, 1)] = nn at *
  have h0 : nn % 128 = 0x42 := by subst hn; exact pack_mod [(66, 7)] _ hk
  have f0 : fld nn 22 9 = 2 := by subst hn; exact pack_field [(66, 7), (d.val, 2), (a.val, 2), (b.val, 2), (0, 5), (k.val, 3), (e.toNat, 1)] [(2, 9)] _ hk
  have f1 : fld nn 13 5 = 0 := by subst hn; exact pack_field [(66, 7), (d.val, 2), (a.val, 2), (b.val, 2)] [(0, 5)] _ hk
  have hd : W3.dec nn = ⟨p, e, k, b, a, d⟩ := by
    subst hn; simp only [W3.dec, W3.mk.injEq]
    exact ⟨decide_bool _ _ (pack_one [(66, 7), (d.val, 2), (a.val, 2), (b.val, 2), (0, 5), (k.val, 3), (e.toNat, 1), (2, 9)] _ _ 1 hk),
      decide_bool _ _ (pack_one [(66, 7), (d.val, 2), (a.val, 2), (b.val, 2), (0, 5), (k.val, 3)] _ _ 1 hk),
      fin_of _ _ _ (pack_one [(66, 7), (d.val, 2), (a.val, 2), (b.val, 2), (0, 5)] _ _ 3 hk),
      fin_of _ _ _ (pack_one [(66, 7), (d.val, 2), (a.val, 2)] _ _ 2 hk),
      fin_of _ _ _ (pack_one [(66, 7), (d.val, 2)] _ _ 2 hk),
      fin_of _ _ _ (pack_one [(66, 7)] _ _ 2 hk)⟩
  rw [rowOf_42 _ h0]
  simp [rowWmul, f0, f1, hd]

theorem wchol (x : WChol) : Statement (.wchol x) := by
  intro w hw h
  simp only [encode, Option.some.injEq] at h
  subst h
  obtain ⟨p, res, e, k, d⟩ := x
  have hk : Packed [(67, 7), (d.val, 2), (0, 9), (k.val, 3), (e.toNat, 1), (res.val, 3), (0, 6), (p.toNat, 1)] :=
    ⟨by decide, d.isLt, by decide, k.isLt, bool_lt_two e, res.isLt, by decide, bool_lt_two p, trivial⟩
  refine decode_of_pack _ [(67, 7), (d.val, 2), (0, 9), (k.val, 3), (e.toNat, 1), (res.val, 3), (0, 6), (p.toNat, 1)] _ (by simp only [WChol.enc, pack]; omega) hk rfl ?_ hw
  generalize hn : pack [(67, 7), (d.val, 2), (0, 9), (k.val, 3), (e.toNat, 1), (res.val, 3), (0, 6), (p.toNat, 1)] = nn at *
  have h0 : nn % 128 = 0x43 := by subst hn; exact pack_mod [(67, 7)] _ hk
  have f0 : fld nn 25 6 = 0 := by subst hn; exact pack_field [(67, 7), (d.val, 2), (0, 9), (k.val, 3), (e.toNat, 1), (res.val, 3)] [(0, 6)] _ hk
  have f1 : fld nn 9 9 = 0 := by subst hn; exact pack_field [(67, 7), (d.val, 2)] [(0, 9)] _ hk
  have hd : WChol.dec nn = ⟨p, res, e, k, d⟩ := by
    subst hn; simp only [WChol.dec, WChol.mk.injEq]
    exact ⟨decide_bool _ _ (pack_one [(67, 7), (d.val, 2), (0, 9), (k.val, 3), (e.toNat, 1), (res.val, 3), (0, 6)] _ _ 1 hk),
      fin_of _ _ _ (pack_one [(67, 7), (d.val, 2), (0, 9), (k.val, 3), (e.toNat, 1)] _ _ 3 hk),
      decide_bool _ _ (pack_one [(67, 7), (d.val, 2), (0, 9), (k.val, 3)] _ _ 1 hk),
      fin_of _ _ _ (pack_one [(67, 7), (d.val, 2), (0, 9)] _ _ 3 hk),
      fin_of _ _ _ (pack_one [(67, 7)] _ _ 2 hk)⟩
  rw [rowOf_43 _ h0]
  simp [rowWchol, f0, f1, hd]

theorem wlu (x : WLu) : Statement (.wlu x) := by
  intro w hw h
  simp only [encode, Option.some.injEq] at h
  subst h
  obtain ⟨p, res, e, k, v, d⟩ := x
  have hk : Packed [(68, 7), (d.val, 2), (0, 4), (v.val, 5), (k.val, 3), (e.toNat, 1), (res.val, 3), (0, 6), (p.toNat, 1)] :=
    ⟨by decide, d.isLt, by decide, v.isLt, k.isLt, bool_lt_two e, res.isLt, by decide, bool_lt_two p, trivial⟩
  refine decode_of_pack _ [(68, 7), (d.val, 2), (0, 4), (v.val, 5), (k.val, 3), (e.toNat, 1), (res.val, 3), (0, 6), (p.toNat, 1)] _ (by simp only [WLu.enc, pack]; omega) hk rfl ?_ hw
  generalize hn : pack [(68, 7), (d.val, 2), (0, 4), (v.val, 5), (k.val, 3), (e.toNat, 1), (res.val, 3), (0, 6), (p.toNat, 1)] = nn at *
  have h0 : nn % 128 = 0x44 := by subst hn; exact pack_mod [(68, 7)] _ hk
  have f0 : fld nn 25 6 = 0 := by subst hn; exact pack_field [(68, 7), (d.val, 2), (0, 4), (v.val, 5), (k.val, 3), (e.toNat, 1), (res.val, 3)] [(0, 6)] _ hk
  have f1 : fld nn 9 4 = 0 := by subst hn; exact pack_field [(68, 7), (d.val, 2)] [(0, 4)] _ hk
  have hd : WLu.dec nn = ⟨p, res, e, k, v, d⟩ := by
    subst hn; simp only [WLu.dec, WLu.mk.injEq]
    exact ⟨decide_bool _ _ (pack_one [(68, 7), (d.val, 2), (0, 4), (v.val, 5), (k.val, 3), (e.toNat, 1), (res.val, 3), (0, 6)] _ _ 1 hk),
      fin_of _ _ _ (pack_one [(68, 7), (d.val, 2), (0, 4), (v.val, 5), (k.val, 3), (e.toNat, 1)] _ _ 3 hk),
      decide_bool _ _ (pack_one [(68, 7), (d.val, 2), (0, 4), (v.val, 5), (k.val, 3)] _ _ 1 hk),
      fin_of _ _ _ (pack_one [(68, 7), (d.val, 2), (0, 4), (v.val, 5)] _ _ 3 hk),
      fin_of _ _ _ (pack_one [(68, 7), (d.val, 2), (0, 4)] _ _ 5 hk),
      fin_of _ _ _ (pack_one [(68, 7)] _ _ 2 hk)⟩
  rw [rowOf_44 _ h0]
  simp [rowWlu, f0, f1, hd]

theorem wsolveC (x : WV) : Statement (.wsolveC x) := by
  intro w hw h
  simp only [encode, Option.some.injEq] at h
  subst h
  obtain ⟨p, e, k, v, a, d⟩ := x
  have hk : Packed [(69, 7), (d.val, 2), (a.val, 2), (0, 2), (v.val, 5), (k.val, 3), (e.toNat, 1), (0, 9), (p.toNat, 1)] :=
    ⟨by decide, d.isLt, a.isLt, by decide, v.isLt, k.isLt, bool_lt_two e, by decide, bool_lt_two p, trivial⟩
  refine decode_of_pack _ [(69, 7), (d.val, 2), (a.val, 2), (0, 2), (v.val, 5), (k.val, 3), (e.toNat, 1), (0, 9), (p.toNat, 1)] _ (by simp only [WV.enc, pack]; omega) hk rfl ?_ hw
  generalize hn : pack [(69, 7), (d.val, 2), (a.val, 2), (0, 2), (v.val, 5), (k.val, 3), (e.toNat, 1), (0, 9), (p.toNat, 1)] = nn at *
  have h0 : nn % 128 = 0x45 := by subst hn; exact pack_mod [(69, 7)] _ hk
  have f0 : fld nn 22 9 = 0 := by subst hn; exact pack_field [(69, 7), (d.val, 2), (a.val, 2), (0, 2), (v.val, 5), (k.val, 3), (e.toNat, 1)] [(0, 9)] _ hk
  have f1 : fld nn 11 2 = 0 := by subst hn; exact pack_field [(69, 7), (d.val, 2), (a.val, 2)] [(0, 2)] _ hk
  have hd : WV.dec nn = ⟨p, e, k, v, a, d⟩ := by
    subst hn; simp only [WV.dec, WV.mk.injEq]
    exact ⟨decide_bool _ _ (pack_one [(69, 7), (d.val, 2), (a.val, 2), (0, 2), (v.val, 5), (k.val, 3), (e.toNat, 1), (0, 9)] _ _ 1 hk),
      decide_bool _ _ (pack_one [(69, 7), (d.val, 2), (a.val, 2), (0, 2), (v.val, 5), (k.val, 3)] _ _ 1 hk),
      fin_of _ _ _ (pack_one [(69, 7), (d.val, 2), (a.val, 2), (0, 2), (v.val, 5)] _ _ 3 hk),
      fin_of _ _ _ (pack_one [(69, 7), (d.val, 2), (a.val, 2), (0, 2)] _ _ 5 hk),
      fin_of _ _ _ (pack_one [(69, 7), (d.val, 2)] _ _ 2 hk),
      fin_of _ _ _ (pack_one [(69, 7)] _ _ 2 hk)⟩
  rw [rowOf_45 _ h0]
  simp [rowWsolve, f0, f1, hd]

theorem wsolveP (x : WV) : Statement (.wsolveP x) := by
  intro w hw h
  simp only [encode, Option.some.injEq] at h
  subst h
  obtain ⟨p, e, k, v, a, d⟩ := x
  have hk : Packed [(69, 7), (d.val, 2), (a.val, 2), (0, 2), (v.val, 5), (k.val, 3), (e.toNat, 1), (8, 9), (p.toNat, 1)] :=
    ⟨by decide, d.isLt, a.isLt, by decide, v.isLt, k.isLt, bool_lt_two e, by decide, bool_lt_two p, trivial⟩
  refine decode_of_pack _ [(69, 7), (d.val, 2), (a.val, 2), (0, 2), (v.val, 5), (k.val, 3), (e.toNat, 1), (8, 9), (p.toNat, 1)] _ (by simp only [WV.enc, pack]; omega) hk rfl ?_ hw
  generalize hn : pack [(69, 7), (d.val, 2), (a.val, 2), (0, 2), (v.val, 5), (k.val, 3), (e.toNat, 1), (8, 9), (p.toNat, 1)] = nn at *
  have h0 : nn % 128 = 0x45 := by subst hn; exact pack_mod [(69, 7)] _ hk
  have f0 : fld nn 22 9 = 8 := by subst hn; exact pack_field [(69, 7), (d.val, 2), (a.val, 2), (0, 2), (v.val, 5), (k.val, 3), (e.toNat, 1)] [(8, 9)] _ hk
  have f1 : fld nn 11 2 = 0 := by subst hn; exact pack_field [(69, 7), (d.val, 2), (a.val, 2)] [(0, 2)] _ hk
  have hd : WV.dec nn = ⟨p, e, k, v, a, d⟩ := by
    subst hn; simp only [WV.dec, WV.mk.injEq]
    exact ⟨decide_bool _ _ (pack_one [(69, 7), (d.val, 2), (a.val, 2), (0, 2), (v.val, 5), (k.val, 3), (e.toNat, 1), (8, 9)] _ _ 1 hk),
      decide_bool _ _ (pack_one [(69, 7), (d.val, 2), (a.val, 2), (0, 2), (v.val, 5), (k.val, 3)] _ _ 1 hk),
      fin_of _ _ _ (pack_one [(69, 7), (d.val, 2), (a.val, 2), (0, 2), (v.val, 5)] _ _ 3 hk),
      fin_of _ _ _ (pack_one [(69, 7), (d.val, 2), (a.val, 2), (0, 2)] _ _ 5 hk),
      fin_of _ _ _ (pack_one [(69, 7), (d.val, 2)] _ _ 2 hk),
      fin_of _ _ _ (pack_one [(69, 7)] _ _ 2 hk)⟩
  rw [rowOf_45 _ h0]
  simp [rowWsolve, f0, f1, hd]

theorem wadd (x : W3) : Statement (.wadd x) := by
  intro w hw h
  simp only [encode, Option.some.injEq] at h
  subst h
  obtain ⟨p, e, k, b, a, d⟩ := x
  have hk : Packed [(70, 7), (d.val, 2), (a.val, 2), (b.val, 2), (0, 5), (k.val, 3), (e.toNat, 1), (0, 9), (p.toNat, 1)] :=
    ⟨by decide, d.isLt, a.isLt, b.isLt, by decide, k.isLt, bool_lt_two e, by decide, bool_lt_two p, trivial⟩
  refine decode_of_pack _ [(70, 7), (d.val, 2), (a.val, 2), (b.val, 2), (0, 5), (k.val, 3), (e.toNat, 1), (0, 9), (p.toNat, 1)] _ (by simp only [W3.enc, pack]; omega) hk rfl ?_ hw
  generalize hn : pack [(70, 7), (d.val, 2), (a.val, 2), (b.val, 2), (0, 5), (k.val, 3), (e.toNat, 1), (0, 9), (p.toNat, 1)] = nn at *
  have h0 : nn % 128 = 0x46 := by subst hn; exact pack_mod [(70, 7)] _ hk
  have f0 : fld nn 22 9 = 0 := by subst hn; exact pack_field [(70, 7), (d.val, 2), (a.val, 2), (b.val, 2), (0, 5), (k.val, 3), (e.toNat, 1)] [(0, 9)] _ hk
  have f1 : fld nn 13 5 = 0 := by subst hn; exact pack_field [(70, 7), (d.val, 2), (a.val, 2), (b.val, 2)] [(0, 5)] _ hk
  have hd : W3.dec nn = ⟨p, e, k, b, a, d⟩ := by
    subst hn; simp only [W3.dec, W3.mk.injEq]
    exact ⟨decide_bool _ _ (pack_one [(70, 7), (d.val, 2), (a.val, 2), (b.val, 2), (0, 5), (k.val, 3), (e.toNat, 1), (0, 9)] _ _ 1 hk),
      decide_bool _ _ (pack_one [(70, 7), (d.val, 2), (a.val, 2), (b.val, 2), (0, 5), (k.val, 3)] _ _ 1 hk),
      fin_of _ _ _ (pack_one [(70, 7), (d.val, 2), (a.val, 2), (b.val, 2), (0, 5)] _ _ 3 hk),
      fin_of _ _ _ (pack_one [(70, 7), (d.val, 2), (a.val, 2)] _ _ 2 hk),
      fin_of _ _ _ (pack_one [(70, 7), (d.val, 2)] _ _ 2 hk),
      fin_of _ _ _ (pack_one [(70, 7)] _ _ 2 hk)⟩
  rw [rowOf_46 _ h0]
  simp [rowWadd, f0, f1, hd]

theorem wsub (x : W3) : Statement (.wsub x) := by
  intro w hw h
  simp only [encode, Option.some.injEq] at h
  subst h
  obtain ⟨p, e, k, b, a, d⟩ := x
  have hk : Packed [(70, 7), (d.val, 2), (a.val, 2), (b.val, 2), (0, 5), (k.val, 3), (e.toNat, 1), (1, 9), (p.toNat, 1)] :=
    ⟨by decide, d.isLt, a.isLt, b.isLt, by decide, k.isLt, bool_lt_two e, by decide, bool_lt_two p, trivial⟩
  refine decode_of_pack _ [(70, 7), (d.val, 2), (a.val, 2), (b.val, 2), (0, 5), (k.val, 3), (e.toNat, 1), (1, 9), (p.toNat, 1)] _ (by simp only [W3.enc, pack]; omega) hk rfl ?_ hw
  generalize hn : pack [(70, 7), (d.val, 2), (a.val, 2), (b.val, 2), (0, 5), (k.val, 3), (e.toNat, 1), (1, 9), (p.toNat, 1)] = nn at *
  have h0 : nn % 128 = 0x46 := by subst hn; exact pack_mod [(70, 7)] _ hk
  have f0 : fld nn 22 9 = 1 := by subst hn; exact pack_field [(70, 7), (d.val, 2), (a.val, 2), (b.val, 2), (0, 5), (k.val, 3), (e.toNat, 1)] [(1, 9)] _ hk
  have f1 : fld nn 13 5 = 0 := by subst hn; exact pack_field [(70, 7), (d.val, 2), (a.val, 2), (b.val, 2)] [(0, 5)] _ hk
  have hd : W3.dec nn = ⟨p, e, k, b, a, d⟩ := by
    subst hn; simp only [W3.dec, W3.mk.injEq]
    exact ⟨decide_bool _ _ (pack_one [(70, 7), (d.val, 2), (a.val, 2), (b.val, 2), (0, 5), (k.val, 3), (e.toNat, 1), (1, 9)] _ _ 1 hk),
      decide_bool _ _ (pack_one [(70, 7), (d.val, 2), (a.val, 2), (b.val, 2), (0, 5), (k.val, 3)] _ _ 1 hk),
      fin_of _ _ _ (pack_one [(70, 7), (d.val, 2), (a.val, 2), (b.val, 2), (0, 5)] _ _ 3 hk),
      fin_of _ _ _ (pack_one [(70, 7), (d.val, 2), (a.val, 2)] _ _ 2 hk),
      fin_of _ _ _ (pack_one [(70, 7), (d.val, 2)] _ _ 2 hk),
      fin_of _ _ _ (pack_one [(70, 7)] _ _ 2 hk)⟩
  rw [rowOf_46 _ h0]
  simp [rowWadd, f0, f1, hd]

theorem wscal (x : WV) : Statement (.wscal x) := by
  intro w hw h
  simp only [encode, Option.some.injEq] at h
  subst h
  obtain ⟨p, e, k, v, a, d⟩ := x
  have hk : Packed [(70, 7), (d.val, 2), (a.val, 2), (0, 2), (v.val, 5), (k.val, 3), (e.toNat, 1), (2, 9), (p.toNat, 1)] :=
    ⟨by decide, d.isLt, a.isLt, by decide, v.isLt, k.isLt, bool_lt_two e, by decide, bool_lt_two p, trivial⟩
  refine decode_of_pack _ [(70, 7), (d.val, 2), (a.val, 2), (0, 2), (v.val, 5), (k.val, 3), (e.toNat, 1), (2, 9), (p.toNat, 1)] _ (by simp only [WV.enc, pack]; omega) hk rfl ?_ hw
  generalize hn : pack [(70, 7), (d.val, 2), (a.val, 2), (0, 2), (v.val, 5), (k.val, 3), (e.toNat, 1), (2, 9), (p.toNat, 1)] = nn at *
  have h0 : nn % 128 = 0x46 := by subst hn; exact pack_mod [(70, 7)] _ hk
  have f0 : fld nn 22 9 = 2 := by subst hn; exact pack_field [(70, 7), (d.val, 2), (a.val, 2), (0, 2), (v.val, 5), (k.val, 3), (e.toNat, 1)] [(2, 9)] _ hk
  have f1 : fld nn 11 2 = 0 := by subst hn; exact pack_field [(70, 7), (d.val, 2), (a.val, 2)] [(0, 2)] _ hk
  have hd : WV.dec nn = ⟨p, e, k, v, a, d⟩ := by
    subst hn; simp only [WV.dec, WV.mk.injEq]
    exact ⟨decide_bool _ _ (pack_one [(70, 7), (d.val, 2), (a.val, 2), (0, 2), (v.val, 5), (k.val, 3), (e.toNat, 1), (2, 9)] _ _ 1 hk),
      decide_bool _ _ (pack_one [(70, 7), (d.val, 2), (a.val, 2), (0, 2), (v.val, 5), (k.val, 3)] _ _ 1 hk),
      fin_of _ _ _ (pack_one [(70, 7), (d.val, 2), (a.val, 2), (0, 2), (v.val, 5)] _ _ 3 hk),
      fin_of _ _ _ (pack_one [(70, 7), (d.val, 2), (a.val, 2), (0, 2)] _ _ 5 hk),
      fin_of _ _ _ (pack_one [(70, 7), (d.val, 2)] _ _ 2 hk),
      fin_of _ _ _ (pack_one [(70, 7)] _ _ 2 hk)⟩
  rw [rowOf_46 _ h0]
  simp [rowWadd, f0, f1, hd]

theorem wtrn (x : W2) : Statement (.wtrn x) := by
  intro w hw h
  simp only [encode, Option.some.injEq] at h
  subst h
  obtain ⟨p, e, k, a, d⟩ := x
  have hk : Packed [(70, 7), (d.val, 2), (a.val, 2), (0, 7), (k.val, 3), (e.toNat, 1), (3, 9), (p.toNat, 1)] :=
    ⟨by decide, d.isLt, a.isLt, by decide, k.isLt, bool_lt_two e, by decide, bool_lt_two p, trivial⟩
  refine decode_of_pack _ [(70, 7), (d.val, 2), (a.val, 2), (0, 7), (k.val, 3), (e.toNat, 1), (3, 9), (p.toNat, 1)] _ (by simp only [W2.enc, pack]; omega) hk rfl ?_ hw
  generalize hn : pack [(70, 7), (d.val, 2), (a.val, 2), (0, 7), (k.val, 3), (e.toNat, 1), (3, 9), (p.toNat, 1)] = nn at *
  have h0 : nn % 128 = 0x46 := by subst hn; exact pack_mod [(70, 7)] _ hk
  have f0 : fld nn 22 9 = 3 := by subst hn; exact pack_field [(70, 7), (d.val, 2), (a.val, 2), (0, 7), (k.val, 3), (e.toNat, 1)] [(3, 9)] _ hk
  have f1 : fld nn 11 7 = 0 := by subst hn; exact pack_field [(70, 7), (d.val, 2), (a.val, 2)] [(0, 7)] _ hk
  have hd : W2.dec nn = ⟨p, e, k, a, d⟩ := by
    subst hn; simp only [W2.dec, W2.mk.injEq]
    exact ⟨decide_bool _ _ (pack_one [(70, 7), (d.val, 2), (a.val, 2), (0, 7), (k.val, 3), (e.toNat, 1), (3, 9)] _ _ 1 hk),
      decide_bool _ _ (pack_one [(70, 7), (d.val, 2), (a.val, 2), (0, 7), (k.val, 3)] _ _ 1 hk),
      fin_of _ _ _ (pack_one [(70, 7), (d.val, 2), (a.val, 2), (0, 7)] _ _ 3 hk),
      fin_of _ _ _ (pack_one [(70, 7), (d.val, 2)] _ _ 2 hk),
      fin_of _ _ _ (pack_one [(70, 7)] _ _ 2 hk)⟩
  rw [rowOf_46 _ h0]
  simp [rowWadd, f0, f1, hd]

theorem wid (x : W1) : Statement (.wid x) := by
  intro w hw h
  simp only [encode, Option.some.injEq] at h
  subst h
  obtain ⟨p, e, k, d⟩ := x
  have hk : Packed [(70, 7), (d.val, 2), (0, 9), (k.val, 3), (e.toNat, 1), (4, 9), (p.toNat, 1)] :=
    ⟨by decide, d.isLt, by decide, k.isLt, bool_lt_two e, by decide, bool_lt_two p, trivial⟩
  refine decode_of_pack _ [(70, 7), (d.val, 2), (0, 9), (k.val, 3), (e.toNat, 1), (4, 9), (p.toNat, 1)] _ (by simp only [W1.enc, pack]; omega) hk rfl ?_ hw
  generalize hn : pack [(70, 7), (d.val, 2), (0, 9), (k.val, 3), (e.toNat, 1), (4, 9), (p.toNat, 1)] = nn at *
  have h0 : nn % 128 = 0x46 := by subst hn; exact pack_mod [(70, 7)] _ hk
  have f0 : fld nn 22 9 = 4 := by subst hn; exact pack_field [(70, 7), (d.val, 2), (0, 9), (k.val, 3), (e.toNat, 1)] [(4, 9)] _ hk
  have f1 : fld nn 9 9 = 0 := by subst hn; exact pack_field [(70, 7), (d.val, 2)] [(0, 9)] _ hk
  have hd : W1.dec nn = ⟨p, e, k, d⟩ := by
    subst hn; simp only [W1.dec, W1.mk.injEq]
    exact ⟨decide_bool _ _ (pack_one [(70, 7), (d.val, 2), (0, 9), (k.val, 3), (e.toNat, 1), (4, 9)] _ _ 1 hk),
      decide_bool _ _ (pack_one [(70, 7), (d.val, 2), (0, 9), (k.val, 3)] _ _ 1 hk),
      fin_of _ _ _ (pack_one [(70, 7), (d.val, 2), (0, 9)] _ _ 3 hk),
      fin_of _ _ _ (pack_one [(70, 7)] _ _ 2 hk)⟩
  rw [rowOf_46 _ h0]
  simp [rowWadd, f0, f1, hd]

theorem wcpy (x : W2) : Statement (.wcpy x) := by
  intro w hw h
  simp only [encode, Option.some.injEq] at h
  subst h
  obtain ⟨p, e, k, a, d⟩ := x
  have hk : Packed [(70, 7), (d.val, 2), (a.val, 2), (0, 7), (k.val, 3), (e.toNat, 1), (5, 9), (p.toNat, 1)] :=
    ⟨by decide, d.isLt, a.isLt, by decide, k.isLt, bool_lt_two e, by decide, bool_lt_two p, trivial⟩
  refine decode_of_pack _ [(70, 7), (d.val, 2), (a.val, 2), (0, 7), (k.val, 3), (e.toNat, 1), (5, 9), (p.toNat, 1)] _ (by simp only [W2.enc, pack]; omega) hk rfl ?_ hw
  generalize hn : pack [(70, 7), (d.val, 2), (a.val, 2), (0, 7), (k.val, 3), (e.toNat, 1), (5, 9), (p.toNat, 1)] = nn at *
  have h0 : nn % 128 = 0x46 := by subst hn; exact pack_mod [(70, 7)] _ hk
  have f0 : fld nn 22 9 = 5 := by subst hn; exact pack_field [(70, 7), (d.val, 2), (a.val, 2), (0, 7), (k.val, 3), (e.toNat, 1)] [(5, 9)] _ hk
  have f1 : fld nn 11 7 = 0 := by subst hn; exact pack_field [(70, 7), (d.val, 2), (a.val, 2)] [(0, 7)] _ hk
  have hd : W2.dec nn = ⟨p, e, k, a, d⟩ := by
    subst hn; simp only [W2.dec, W2.mk.injEq]
    exact ⟨decide_bool _ _ (pack_one [(70, 7), (d.val, 2), (a.val, 2), (0, 7), (k.val, 3), (e.toNat, 1), (5, 9)] _ _ 1 hk),
      decide_bool _ _ (pack_one [(70, 7), (d.val, 2), (a.val, 2), (0, 7), (k.val, 3)] _ _ 1 hk),
      fin_of _ _ _ (pack_one [(70, 7), (d.val, 2), (a.val, 2), (0, 7)] _ _ 3 hk),
      fin_of _ _ _ (pack_one [(70, 7), (d.val, 2)] _ _ 2 hk),
      fin_of _ _ _ (pack_one [(70, 7)] _ _ 2 hk)⟩
  rw [rowOf_46 _ h0]
  simp [rowWadd, f0, f1, hd]

theorem wdim (x : WDim) : Statement (.wdim x) := by
  intro w hw h
  simp only [encode, Option.some.injEq] at h
  subst h
  obtain ⟨cols, rows⟩ := x
  have hk : Packed [(70, 7), (0, 15), (6, 3), (rows.val, 3), (cols.val, 3), (0, 1)] :=
    ⟨by decide, by decide, by decide, rows.isLt, cols.isLt, by decide, trivial⟩
  refine decode_of_pack _ [(70, 7), (0, 15), (6, 3), (rows.val, 3), (cols.val, 3), (0, 1)] _ (by simp only [WDim.enc, pack]; omega) hk rfl ?_ hw
  generalize hn : pack [(70, 7), (0, 15), (6, 3), (rows.val, 3), (cols.val, 3), (0, 1)] = nn at *
  have h0 : nn % 128 = 0x46 := by subst hn; exact pack_mod [(70, 7)] _ hk
  have f0 : ¬fld nn 22 9 = 0 := by
    subst hn; intro he; have h2 := (pack_field [(70, 7), (0, 15)] [(6, 3), (rows.val, 3), (cols.val, 3)] _ hk).symm.trans he; simp only [pack] at h2; omega
  have f1 : ¬fld nn 22 9 = 1 := by
    subst hn; intro he; have h2 := (pack_field [(70, 7), (0, 15)] [(6, 3), (rows.val, 3), (cols.val, 3)] _ hk).symm.trans he; simp only [pack] at h2; omega
  have f2 : ¬fld nn 22 9 = 2 := by
    subst hn; intro he; have h2 := (pack_field [(70, 7), (0, 15)] [(6, 3), (rows.val, 3), (cols.val, 3)] _ hk).symm.trans he; simp only [pack] at h2; omega
  have f3 : ¬fld nn 22 9 = 3 := by
    subst hn; intro he; have h2 := (pack_field [(70, 7), (0, 15)] [(6, 3), (rows.val, 3), (cols.val, 3)] _ hk).symm.trans he; simp only [pack] at h2; omega
  have f4 : ¬fld nn 22 9 = 4 := by
    subst hn; intro he; have h2 := (pack_field [(70, 7), (0, 15)] [(6, 3), (rows.val, 3), (cols.val, 3)] _ hk).symm.trans he; simp only [pack] at h2; omega
  have f5 : ¬fld nn 22 9 = 5 := by
    subst hn; intro he; have h2 := (pack_field [(70, 7), (0, 15)] [(6, 3), (rows.val, 3), (cols.val, 3)] _ hk).symm.trans he; simp only [pack] at h2; omega
  have f6 : fld nn 31 1 = 0 := by subst hn; exact pack_field [(70, 7), (0, 15), (6, 3), (rows.val, 3), (cols.val, 3)] [(0, 1)] _ hk
  have f7 : fld nn 7 18 = 196608 := by subst hn; exact pack_field [(70, 7)] [(0, 15), (6, 3)] _ hk
  have hd : WDim.dec nn = ⟨cols, rows⟩ := by
    subst hn; simp only [WDim.dec, WDim.mk.injEq]
    exact ⟨fin_of _ _ _ (pack_one [(70, 7), (0, 15), (6, 3), (rows.val, 3)] _ _ 3 hk),
      fin_of _ _ _ (pack_one [(70, 7), (0, 15), (6, 3)] _ _ 3 hk)⟩
  rw [rowOf_46 _ h0]
  simp [rowWadd, f0, f1, f2, f3, f4, f5, f6, f7, hd]

theorem wget (x : WGet) : Statement (.wget x) := by
  intro w hw h
  simp only [encode, Option.some.injEq] at h
  subst h
  obtain ⟨p, col, row, e, k, v, a⟩ := x
  have hk : Packed [(71, 7), (0, 2), (a.val, 2), (0, 2), (v.val, 5), (k.val, 3), (e.toNat, 1), (0, 3), (row.val, 3), (col.val, 3), (p.toNat, 1)] :=
    ⟨by decide, by decide, a.isLt, by decide, v.isLt, k.isLt, bool_lt_two e, by decide, row.isLt, col.isLt, bool_lt_two p, trivial⟩
  refine decode_of_pack _ [(71, 7), (0, 2), (a.val, 2), (0, 2), (v.val, 5), (k.val, 3), (e.toNat, 1), (0, 3), (row.val, 3), (col.val, 3), (p.toNat, 1)] _ (by simp only [WGet.enc, pack]; omega) hk rfl ?_ hw
  generalize hn : pack [(71, 7), (0, 2), (a.val, 2), (0, 2), (v.val, 5), (k.val, 3), (e.toNat, 1), (0, 3), (row.val, 3), (col.val, 3), (p.toNat, 1)] = nn at *
  have h0 : nn % 128 = 0x47 := by subst hn; exact pack_mod [(71, 7)] _ hk
  have f0 : fld nn 22 3 = 0 := by subst hn; exact pack_field [(71, 7), (0, 2), (a.val, 2), (0, 2), (v.val, 5), (k.val, 3), (e.toNat, 1)] [(0, 3)] _ hk
  have f1 : fld nn 11 2 = 0 := by subst hn; exact pack_field [(71, 7), (0, 2), (a.val, 2)] [(0, 2)] _ hk
  have f2 : fld nn 7 2 = 0 := by subst hn; exact pack_field [(71, 7)] [(0, 2)] _ hk
  have hd : WGet.dec nn = ⟨p, col, row, e, k, v, a⟩ := by
    subst hn; simp only [WGet.dec, WGet.mk.injEq]
    exact ⟨decide_bool _ _ (pack_one [(71, 7), (0, 2), (a.val, 2), (0, 2), (v.val, 5), (k.val, 3), (e.toNat, 1), (0, 3), (row.val, 3), (col.val, 3)] _ _ 1 hk),
      fin_of _ _ _ (pack_one [(71, 7), (0, 2), (a.val, 2), (0, 2), (v.val, 5), (k.val, 3), (e.toNat, 1), (0, 3), (row.val, 3)] _ _ 3 hk),
      fin_of _ _ _ (pack_one [(71, 7), (0, 2), (a.val, 2), (0, 2), (v.val, 5), (k.val, 3), (e.toNat, 1), (0, 3)] _ _ 3 hk),
      decide_bool _ _ (pack_one [(71, 7), (0, 2), (a.val, 2), (0, 2), (v.val, 5), (k.val, 3)] _ _ 1 hk),
      fin_of _ _ _ (pack_one [(71, 7), (0, 2), (a.val, 2), (0, 2), (v.val, 5)] _ _ 3 hk),
      fin_of _ _ _ (pack_one [(71, 7), (0, 2), (a.val, 2), (0, 2)] _ _ 5 hk),
      fin_of _ _ _ (pack_one [(71, 7), (0, 2)] _ _ 2 hk)⟩
  rw [rowOf_47 _ h0]
  simp [rowWget, f0, f1, f2, hd]

theorem wput (x : WPut) : Statement (.wput x) := by
  intro w hw h
  simp only [encode, Option.some.injEq] at h
  subst h
  obtain ⟨p, col, row, e, k, v, d⟩ := x
  have hk : Packed [(71, 7), (d.val, 2), (0, 4), (v.val, 5), (k.val, 3), (e.toNat, 1), (1, 3), (row.val, 3), (col.val, 3), (p.toNat, 1)] :=
    ⟨by decide, d.isLt, by decide, v.isLt, k.isLt, bool_lt_two e, by decide, row.isLt, col.isLt, bool_lt_two p, trivial⟩
  refine decode_of_pack _ [(71, 7), (d.val, 2), (0, 4), (v.val, 5), (k.val, 3), (e.toNat, 1), (1, 3), (row.val, 3), (col.val, 3), (p.toNat, 1)] _ (by simp only [WPut.enc, pack]; omega) hk rfl ?_ hw
  generalize hn : pack [(71, 7), (d.val, 2), (0, 4), (v.val, 5), (k.val, 3), (e.toNat, 1), (1, 3), (row.val, 3), (col.val, 3), (p.toNat, 1)] = nn at *
  have h0 : nn % 128 = 0x47 := by subst hn; exact pack_mod [(71, 7)] _ hk
  have f0 : fld nn 22 3 = 1 := by subst hn; exact pack_field [(71, 7), (d.val, 2), (0, 4), (v.val, 5), (k.val, 3), (e.toNat, 1)] [(1, 3)] _ hk
  have f1 : fld nn 9 4 = 0 := by subst hn; exact pack_field [(71, 7), (d.val, 2)] [(0, 4)] _ hk
  have hd : WPut.dec nn = ⟨p, col, row, e, k, v, d⟩ := by
    subst hn; simp only [WPut.dec, WPut.mk.injEq]
    exact ⟨decide_bool _ _ (pack_one [(71, 7), (d.val, 2), (0, 4), (v.val, 5), (k.val, 3), (e.toNat, 1), (1, 3), (row.val, 3), (col.val, 3)] _ _ 1 hk),
      fin_of _ _ _ (pack_one [(71, 7), (d.val, 2), (0, 4), (v.val, 5), (k.val, 3), (e.toNat, 1), (1, 3), (row.val, 3)] _ _ 3 hk),
      fin_of _ _ _ (pack_one [(71, 7), (d.val, 2), (0, 4), (v.val, 5), (k.val, 3), (e.toNat, 1), (1, 3)] _ _ 3 hk),
      decide_bool _ _ (pack_one [(71, 7), (d.val, 2), (0, 4), (v.val, 5), (k.val, 3)] _ _ 1 hk),
      fin_of _ _ _ (pack_one [(71, 7), (d.val, 2), (0, 4), (v.val, 5)] _ _ 3 hk),
      fin_of _ _ _ (pack_one [(71, 7), (d.val, 2), (0, 4)] _ _ 5 hk),
      fin_of _ _ _ (pack_one [(71, 7)] _ _ 2 hk)⟩
  rw [rowOf_47 _ h0]
  simp [rowWget, f0, f1, hd]

theorem tclaim (x : TOnly) : Statement (.tclaim x) := by
  intro w hw h
  simp only [encode, Option.some.injEq] at h
  subst h
  obtain ⟨t⟩ := x
  have hk : Packed [(72, 7), (t.val, 3), (0, 22)] :=
    ⟨by decide, t.isLt, by decide, trivial⟩
  refine decode_of_pack _ [(72, 7), (t.val, 3), (0, 22)] _ (by simp only [TOnly.enc, pack]; omega) hk rfl ?_ hw
  generalize hn : pack [(72, 7), (t.val, 3), (0, 22)] = nn at *
  have h0 : nn % 128 = 0x48 := by subst hn; exact pack_mod [(72, 7)] _ hk
  have f0 : fld nn 10 22 = 0 := by subst hn; exact pack_field [(72, 7), (t.val, 3)] [(0, 22)] _ hk
  have hd : TOnly.dec nn = ⟨t⟩ := by
    subst hn; simp only [TOnly.dec, TOnly.mk.injEq]
    exact fin_of _ _ _ (pack_one [(72, 7)] _ _ 3 hk)
  rw [rowOf_48 _ h0]
  simp [rowTclaim, f0, hd]

theorem trel (x : TOnly) : Statement (.trel x) := by
  intro w hw h
  simp only [encode, Option.some.injEq] at h
  subst h
  obtain ⟨t⟩ := x
  have hk : Packed [(72, 7), (t.val, 3), (8192, 22)] :=
    ⟨by decide, t.isLt, by decide, trivial⟩
  refine decode_of_pack _ [(72, 7), (t.val, 3), (8192, 22)] _ (by simp only [TOnly.enc, pack]; omega) hk rfl ?_ hw
  generalize hn : pack [(72, 7), (t.val, 3), (8192, 22)] = nn at *
  have h0 : nn % 128 = 0x48 := by subst hn; exact pack_mod [(72, 7)] _ hk
  have f0 : fld nn 10 22 = 8192 := by subst hn; exact pack_field [(72, 7), (t.val, 3)] [(8192, 22)] _ hk
  have hd : TOnly.dec nn = ⟨t⟩ := by
    subst hn; simp only [TOnly.dec, TOnly.mk.injEq]
    exact fin_of _ _ _ (pack_one [(72, 7)] _ _ 3 hk)
  rw [rowOf_48 _ h0]
  simp [rowTclaim, f0, hd]

theorem tacc (x : TAcc) : Statement (.tacc x) := by
  intro w hw h
  simp only [encode, Option.some.injEq] at h
  subst h
  obtain ⟨x, e, t⟩ := x
  have hk : Packed [(72, 7), (t.val, 3), (0, 7), (e.toNat, 1), (x.val, 5), (2, 9)] :=
    ⟨by decide, t.isLt, by decide, bool_lt_two e, x.isLt, by decide, trivial⟩
  refine decode_of_pack _ [(72, 7), (t.val, 3), (0, 7), (e.toNat, 1), (x.val, 5), (2, 9)] _ (by simp only [TAcc.enc, pack]; omega) hk rfl ?_ hw
  generalize hn : pack [(72, 7), (t.val, 3), (0, 7), (e.toNat, 1), (x.val, 5), (2, 9)] = nn at *
  have h0 : nn % 128 = 0x48 := by subst hn; exact pack_mod [(72, 7)] _ hk
  have f0 : ¬fld nn 10 22 = 0 := by
    subst hn; intro he; have h2 := (pack_field [(72, 7), (t.val, 3)] [(0, 7), (e.toNat, 1), (x.val, 5), (2, 9)] _ hk).symm.trans he; simp only [pack] at h2; omega
  have f1 : ¬fld nn 10 22 = 8192 := by
    subst hn; intro he; have h2 := (pack_field [(72, 7), (t.val, 3)] [(0, 7), (e.toNat, 1), (x.val, 5), (2, 9)] _ hk).symm.trans he; simp only [pack] at h2; omega
  have f2 : fld nn 23 9 = 2 := by subst hn; exact pack_field [(72, 7), (t.val, 3), (0, 7), (e.toNat, 1), (x.val, 5)] [(2, 9)] _ hk
  have f3 : fld nn 10 7 = 0 := by subst hn; exact pack_field [(72, 7), (t.val, 3)] [(0, 7)] _ hk
  have hd : TAcc.dec nn = ⟨x, e, t⟩ := by
    subst hn; simp only [TAcc.dec, TAcc.mk.injEq]
    exact ⟨fin_of _ _ _ (pack_one [(72, 7), (t.val, 3), (0, 7), (e.toNat, 1)] _ _ 5 hk),
      decide_bool _ _ (pack_one [(72, 7), (t.val, 3), (0, 7)] _ _ 1 hk),
      fin_of _ _ _ (pack_one [(72, 7)] _ _ 3 hk)⟩
  rw [rowOf_48 _ h0]
  simp [rowTclaim, f0, f1, f2, f3, hd]

theorem tmma (x : TMma) : Statement (.tmma x) := by
  intro w hw h
  simp only [encode, Option.some.injEq] at h
  subst h
  obtain ⟨ta, tb, e, z, kb, ka, fb, fa, t⟩ := x
  have hk : Packed [(73, 7), (t.val, 3), (fa.val, 2), (fb.val, 2), (ka.toNat, 1), (kb.toNat, 1), (z.toNat, 1), (e.toNat, 1), (tb.toNat, 5), (ta.toNat, 5), (0, 4)] :=
    ⟨by decide, t.isLt, fa.isLt, fb.isLt, bool_lt_two ka, bool_lt_two kb, bool_lt_two z, bool_lt_two e, tb.isLt, ta.isLt, by decide, trivial⟩
  refine decode_of_pack _ [(73, 7), (t.val, 3), (fa.val, 2), (fb.val, 2), (ka.toNat, 1), (kb.toNat, 1), (z.toNat, 1), (e.toNat, 1), (tb.toNat, 5), (ta.toNat, 5), (0, 4)] _ (by simp only [TMma.enc, pack]; omega) hk rfl ?_ hw
  generalize hn : pack [(73, 7), (t.val, 3), (fa.val, 2), (fb.val, 2), (ka.toNat, 1), (kb.toNat, 1), (z.toNat, 1), (e.toNat, 1), (tb.toNat, 5), (ta.toNat, 5), (0, 4)] = nn at *
  have h0 : nn % 128 = 0x49 := by subst hn; exact pack_mod [(73, 7)] _ hk
  have f0 : fld nn 28 4 = 0 := by subst hn; exact pack_field [(73, 7), (t.val, 3), (fa.val, 2), (fb.val, 2), (ka.toNat, 1), (kb.toNat, 1), (z.toNat, 1), (e.toNat, 1), (tb.toNat, 5), (ta.toNat, 5)] [(0, 4)] _ hk
  have hd : TMma.dec nn = ⟨ta, tb, e, z, kb, ka, fb, fa, t⟩ := by
    subst hn; simp only [TMma.dec, TMma.mk.injEq]
    exact ⟨bitVec_of _ _ (pack_one [(73, 7), (t.val, 3), (fa.val, 2), (fb.val, 2), (ka.toNat, 1), (kb.toNat, 1), (z.toNat, 1), (e.toNat, 1), (tb.toNat, 5)] _ _ 5 hk),
      bitVec_of _ _ (pack_one [(73, 7), (t.val, 3), (fa.val, 2), (fb.val, 2), (ka.toNat, 1), (kb.toNat, 1), (z.toNat, 1), (e.toNat, 1)] _ _ 5 hk),
      decide_bool _ _ (pack_one [(73, 7), (t.val, 3), (fa.val, 2), (fb.val, 2), (ka.toNat, 1), (kb.toNat, 1), (z.toNat, 1)] _ _ 1 hk),
      decide_bool _ _ (pack_one [(73, 7), (t.val, 3), (fa.val, 2), (fb.val, 2), (ka.toNat, 1), (kb.toNat, 1)] _ _ 1 hk),
      decide_bool _ _ (pack_one [(73, 7), (t.val, 3), (fa.val, 2), (fb.val, 2), (ka.toNat, 1)] _ _ 1 hk),
      decide_bool _ _ (pack_one [(73, 7), (t.val, 3), (fa.val, 2), (fb.val, 2)] _ _ 1 hk),
      fin_of _ _ _ (pack_one [(73, 7), (t.val, 3), (fa.val, 2)] _ _ 2 hk),
      fin_of _ _ _ (pack_one [(73, 7), (t.val, 3)] _ _ 2 hk),
      fin_of _ _ _ (pack_one [(73, 7)] _ _ 3 hk)⟩
  rw [rowOf_49 _ h0]
  simp [rowTmma, f0, hd]

theorem tmms (x : TMms) : Statement (.tmms x) := by
  intro w hw h
  simp only [encode, Option.some.injEq] at h
  subst h
  obtain ⟨tg, x, e, z, kb, ka, fb, fa, t⟩ := x
  have hk : Packed [(74, 7), (t.val, 3), (fa.val, 2), (fb.val, 2), (ka.toNat, 1), (kb.toNat, 1), (z.toNat, 1), (e.toNat, 1), (x.val, 5), (tg.toNat, 5), (0, 4)] :=
    ⟨by decide, t.isLt, fa.isLt, fb.isLt, bool_lt_two ka, bool_lt_two kb, bool_lt_two z, bool_lt_two e, x.isLt, tg.isLt, by decide, trivial⟩
  refine decode_of_pack _ [(74, 7), (t.val, 3), (fa.val, 2), (fb.val, 2), (ka.toNat, 1), (kb.toNat, 1), (z.toNat, 1), (e.toNat, 1), (x.val, 5), (tg.toNat, 5), (0, 4)] _ (by simp only [TMms.enc, pack]; omega) hk rfl ?_ hw
  generalize hn : pack [(74, 7), (t.val, 3), (fa.val, 2), (fb.val, 2), (ka.toNat, 1), (kb.toNat, 1), (z.toNat, 1), (e.toNat, 1), (x.val, 5), (tg.toNat, 5), (0, 4)] = nn at *
  have h0 : nn % 128 = 0x4A := by subst hn; exact pack_mod [(74, 7)] _ hk
  have f0 : fld nn 28 4 = 0 := by subst hn; exact pack_field [(74, 7), (t.val, 3), (fa.val, 2), (fb.val, 2), (ka.toNat, 1), (kb.toNat, 1), (z.toNat, 1), (e.toNat, 1), (x.val, 5), (tg.toNat, 5)] [(0, 4)] _ hk
  have hd : TMms.dec nn = ⟨tg, x, e, z, kb, ka, fb, fa, t⟩ := by
    subst hn; simp only [TMms.dec, TMms.mk.injEq]
    exact ⟨bitVec_of _ _ (pack_one [(74, 7), (t.val, 3), (fa.val, 2), (fb.val, 2), (ka.toNat, 1), (kb.toNat, 1), (z.toNat, 1), (e.toNat, 1), (x.val, 5)] _ _ 5 hk),
      fin_of _ _ _ (pack_one [(74, 7), (t.val, 3), (fa.val, 2), (fb.val, 2), (ka.toNat, 1), (kb.toNat, 1), (z.toNat, 1), (e.toNat, 1)] _ _ 5 hk),
      decide_bool _ _ (pack_one [(74, 7), (t.val, 3), (fa.val, 2), (fb.val, 2), (ka.toNat, 1), (kb.toNat, 1), (z.toNat, 1)] _ _ 1 hk),
      decide_bool _ _ (pack_one [(74, 7), (t.val, 3), (fa.val, 2), (fb.val, 2), (ka.toNat, 1), (kb.toNat, 1)] _ _ 1 hk),
      decide_bool _ _ (pack_one [(74, 7), (t.val, 3), (fa.val, 2), (fb.val, 2), (ka.toNat, 1)] _ _ 1 hk),
      decide_bool _ _ (pack_one [(74, 7), (t.val, 3), (fa.val, 2), (fb.val, 2)] _ _ 1 hk),
      fin_of _ _ _ (pack_one [(74, 7), (t.val, 3), (fa.val, 2)] _ _ 2 hk),
      fin_of _ _ _ (pack_one [(74, 7), (t.val, 3)] _ _ 2 hk),
      fin_of _ _ _ (pack_one [(74, 7)] _ _ 3 hk)⟩
  rw [rowOf_4A _ h0]
  simp [rowTmms, f0, hd]

theorem tread (x : TRow) : Statement (.tread x) := by
  intro w hw h
  simp only [encode, Option.some.injEq] at h
  subst h
  obtain ⟨row, x, e, t⟩ := x
  have hk : Packed [(75, 7), (t.val, 3), (0, 7), (e.toNat, 1), (x.val, 5), (row.toNat, 6), (0, 3)] :=
    ⟨by decide, t.isLt, by decide, bool_lt_two e, x.isLt, row.isLt, by decide, trivial⟩
  refine decode_of_pack _ [(75, 7), (t.val, 3), (0, 7), (e.toNat, 1), (x.val, 5), (row.toNat, 6), (0, 3)] _ (by simp only [TRow.enc, pack]; omega) hk rfl ?_ hw
  generalize hn : pack [(75, 7), (t.val, 3), (0, 7), (e.toNat, 1), (x.val, 5), (row.toNat, 6), (0, 3)] = nn at *
  have h0 : nn % 128 = 0x4B := by subst hn; exact pack_mod [(75, 7)] _ hk
  have f0 : fld nn 29 3 = 0 := by subst hn; exact pack_field [(75, 7), (t.val, 3), (0, 7), (e.toNat, 1), (x.val, 5), (row.toNat, 6)] [(0, 3)] _ hk
  have f1 : fld nn 10 7 = 0 := by subst hn; exact pack_field [(75, 7), (t.val, 3)] [(0, 7)] _ hk
  have hd : TRow.dec nn = ⟨row, x, e, t⟩ := by
    subst hn; simp only [TRow.dec, TRow.mk.injEq]
    exact ⟨bitVec_of _ _ (pack_one [(75, 7), (t.val, 3), (0, 7), (e.toNat, 1), (x.val, 5)] _ _ 6 hk),
      fin_of _ _ _ (pack_one [(75, 7), (t.val, 3), (0, 7), (e.toNat, 1)] _ _ 5 hk),
      decide_bool _ _ (pack_one [(75, 7), (t.val, 3), (0, 7)] _ _ 1 hk),
      fin_of _ _ _ (pack_one [(75, 7)] _ _ 3 hk)⟩
  rw [rowOf_4B _ h0]
  simp [rowTread, f0, f1, hd]

theorem twrite (x : TRow) : Statement (.twrite x) := by
  intro w hw h
  simp only [encode, Option.some.injEq] at h
  subst h
  obtain ⟨row, x, e, t⟩ := x
  have hk : Packed [(76, 7), (t.val, 3), (0, 7), (e.toNat, 1), (x.val, 5), (row.toNat, 6), (0, 3)] :=
    ⟨by decide, t.isLt, by decide, bool_lt_two e, x.isLt, row.isLt, by decide, trivial⟩
  refine decode_of_pack _ [(76, 7), (t.val, 3), (0, 7), (e.toNat, 1), (x.val, 5), (row.toNat, 6), (0, 3)] _ (by simp only [TRow.enc, pack]; omega) hk rfl ?_ hw
  generalize hn : pack [(76, 7), (t.val, 3), (0, 7), (e.toNat, 1), (x.val, 5), (row.toNat, 6), (0, 3)] = nn at *
  have h0 : nn % 128 = 0x4C := by subst hn; exact pack_mod [(76, 7)] _ hk
  have f0 : fld nn 29 3 = 0 := by subst hn; exact pack_field [(76, 7), (t.val, 3), (0, 7), (e.toNat, 1), (x.val, 5), (row.toNat, 6)] [(0, 3)] _ hk
  have f1 : fld nn 10 7 = 0 := by subst hn; exact pack_field [(76, 7), (t.val, 3)] [(0, 7)] _ hk
  have hd : TRow.dec nn = ⟨row, x, e, t⟩ := by
    subst hn; simp only [TRow.dec, TRow.mk.injEq]
    exact ⟨bitVec_of _ _ (pack_one [(76, 7), (t.val, 3), (0, 7), (e.toNat, 1), (x.val, 5)] _ _ 6 hk),
      fin_of _ _ _ (pack_one [(76, 7), (t.val, 3), (0, 7), (e.toNat, 1)] _ _ 5 hk),
      decide_bool _ _ (pack_one [(76, 7), (t.val, 3), (0, 7)] _ _ 1 hk),
      fin_of _ _ _ (pack_one [(76, 7)] _ _ 3 hk)⟩
  rw [rowOf_4C _ h0]
  simp [rowTwrite, f0, f1, hd]

theorem twait (x : TOnly) : Statement (.twait x) := by
  intro w hw h
  simp only [encode, Option.some.injEq] at h
  subst h
  obtain ⟨t⟩ := x
  have hk : Packed [(77, 7), (t.val, 3), (0, 22)] :=
    ⟨by decide, t.isLt, by decide, trivial⟩
  refine decode_of_pack _ [(77, 7), (t.val, 3), (0, 22)] _ (by simp only [TOnly.enc, pack]; omega) hk rfl ?_ hw
  generalize hn : pack [(77, 7), (t.val, 3), (0, 22)] = nn at *
  have h0 : nn % 128 = 0x4D := by subst hn; exact pack_mod [(77, 7)] _ hk
  have f0 : fld nn 10 22 = 0 := by subst hn; exact pack_field [(77, 7), (t.val, 3)] [(0, 22)] _ hk
  have hd : TOnly.dec nn = ⟨t⟩ := by
    subst hn; simp only [TOnly.dec, TOnly.mk.injEq]
    exact fin_of _ _ _ (pack_one [(77, 7)] _ _ 3 hk)
  rw [rowOf_4D _ h0]
  simp [rowTwait, f0, hd]

theorem tepi (x : TEpi) : Statement (.tepi x) := by
  intro w hw h
  simp only [encode, Option.some.injEq] at h
  subst h
  obtain ⟨act, row, x, e, t⟩ := x
  have hk : Packed [(78, 7), (t.val, 3), (0, 7), (e.toNat, 1), (x.val, 5), (row.toNat, 6), (act.val, 3)] :=
    ⟨by decide, t.isLt, by decide, bool_lt_two e, x.isLt, row.isLt, act.isLt, trivial⟩
  refine decode_of_pack _ [(78, 7), (t.val, 3), (0, 7), (e.toNat, 1), (x.val, 5), (row.toNat, 6), (act.val, 3)] _ (by simp only [TEpi.enc, pack]; omega) hk rfl ?_ hw
  generalize hn : pack [(78, 7), (t.val, 3), (0, 7), (e.toNat, 1), (x.val, 5), (row.toNat, 6), (act.val, 3)] = nn at *
  have h0 : nn % 128 = 0x4E := by subst hn; exact pack_mod [(78, 7)] _ hk
  have f0 : fld nn 10 7 = 0 := by subst hn; exact pack_field [(78, 7), (t.val, 3)] [(0, 7)] _ hk
  have hd : TEpi.dec nn = ⟨act, row, x, e, t⟩ := by
    subst hn; simp only [TEpi.dec, TEpi.mk.injEq]
    exact ⟨fin_of _ _ _ (pack_one [(78, 7), (t.val, 3), (0, 7), (e.toNat, 1), (x.val, 5), (row.toNat, 6)] _ _ 3 hk),
      bitVec_of _ _ (pack_one [(78, 7), (t.val, 3), (0, 7), (e.toNat, 1), (x.val, 5)] _ _ 6 hk),
      fin_of _ _ _ (pack_one [(78, 7), (t.val, 3), (0, 7), (e.toNat, 1)] _ _ 5 hk),
      decide_bool _ _ (pack_one [(78, 7), (t.val, 3), (0, 7)] _ _ 1 hk),
      fin_of _ _ _ (pack_one [(78, 7)] _ _ 3 hk)⟩
  rw [rowOf_4E _ h0]
  simp [rowTepi, f0, hd]

theorem fopen (x : FOpen) : Statement (.fopen x) := by
  intro w hw h
  simp only [encode, Option.some.injEq] at h
  subst h
  obtain ⟨x, e, film⟩ := x
  have hk : Packed [(79, 7), (0, 3), (film.val, 2), (0, 5), (e.toNat, 1), (x.val, 5), (0, 9)] :=
    ⟨by decide, by decide, film.isLt, by decide, bool_lt_two e, x.isLt, by decide, trivial⟩
  refine decode_of_pack _ [(79, 7), (0, 3), (film.val, 2), (0, 5), (e.toNat, 1), (x.val, 5), (0, 9)] _ (by simp only [FOpen.enc, pack]; omega) hk rfl ?_ hw
  generalize hn : pack [(79, 7), (0, 3), (film.val, 2), (0, 5), (e.toNat, 1), (x.val, 5), (0, 9)] = nn at *
  have h0 : nn % 128 = 0x4F := by subst hn; exact pack_mod [(79, 7)] _ hk
  have f0 : fld nn 23 9 = 0 := by subst hn; exact pack_field [(79, 7), (0, 3), (film.val, 2), (0, 5), (e.toNat, 1), (x.val, 5)] [(0, 9)] _ hk
  have f1 : fld nn 12 5 = 0 := by subst hn; exact pack_field [(79, 7), (0, 3), (film.val, 2)] [(0, 5)] _ hk
  have f2 : fld nn 7 3 = 0 := by subst hn; exact pack_field [(79, 7)] [(0, 3)] _ hk
  have hd : FOpen.dec nn = ⟨x, e, film⟩ := by
    subst hn; simp only [FOpen.dec, FOpen.mk.injEq]
    exact ⟨fin_of _ _ _ (pack_one [(79, 7), (0, 3), (film.val, 2), (0, 5), (e.toNat, 1)] _ _ 5 hk),
      decide_bool _ _ (pack_one [(79, 7), (0, 3), (film.val, 2), (0, 5)] _ _ 1 hk),
      fin_of _ _ _ (pack_one [(79, 7), (0, 3)] _ _ 2 hk)⟩
  rw [rowOf_4F _ h0]
  simp [rowFilm, f0, f1, f2, hd]

theorem fclose (x : FOnly) : Statement (.fclose x) := by
  intro w hw h
  simp only [encode, Option.some.injEq] at h
  subst h
  obtain ⟨film⟩ := x
  have hk : Packed [(79, 7), (0, 3), (film.val, 2), (0, 11), (1, 9)] :=
    ⟨by decide, by decide, film.isLt, by decide, by decide, trivial⟩
  refine decode_of_pack _ [(79, 7), (0, 3), (film.val, 2), (0, 11), (1, 9)] _ (by simp only [FOnly.enc, pack]; omega) hk rfl ?_ hw
  generalize hn : pack [(79, 7), (0, 3), (film.val, 2), (0, 11), (1, 9)] = nn at *
  have h0 : nn % 128 = 0x4F := by subst hn; exact pack_mod [(79, 7)] _ hk
  have f0 : fld nn 23 9 = 1 := by subst hn; exact pack_field [(79, 7), (0, 3), (film.val, 2), (0, 11)] [(1, 9)] _ hk
  have f1 : fld nn 12 20 = 2048 := by subst hn; exact pack_field [(79, 7), (0, 3), (film.val, 2)] [(0, 11), (1, 9)] _ hk
  have f2 : fld nn 7 3 = 0 := by subst hn; exact pack_field [(79, 7)] [(0, 3)] _ hk
  have hd : FOnly.dec nn = ⟨film⟩ := by
    subst hn; simp only [FOnly.dec, FOnly.mk.injEq]
    exact fin_of _ _ _ (pack_one [(79, 7), (0, 3)] _ _ 2 hk)
  rw [rowOf_4F _ h0]
  simp [rowFilm, f0, f1, f2, hd]

theorem fdrop (x : FOnly) : Statement (.fdrop x) := by
  intro w hw h
  simp only [encode, Option.some.injEq] at h
  subst h
  obtain ⟨film⟩ := x
  have hk : Packed [(79, 7), (0, 3), (film.val, 2), (0, 11), (2, 9)] :=
    ⟨by decide, by decide, film.isLt, by decide, by decide, trivial⟩
  refine decode_of_pack _ [(79, 7), (0, 3), (film.val, 2), (0, 11), (2, 9)] _ (by simp only [FOnly.enc, pack]; omega) hk rfl ?_ hw
  generalize hn : pack [(79, 7), (0, 3), (film.val, 2), (0, 11), (2, 9)] = nn at *
  have h0 : nn % 128 = 0x4F := by subst hn; exact pack_mod [(79, 7)] _ hk
  have f0 : fld nn 23 9 = 2 := by subst hn; exact pack_field [(79, 7), (0, 3), (film.val, 2), (0, 11)] [(2, 9)] _ hk
  have f1 : fld nn 12 20 = 4096 := by subst hn; exact pack_field [(79, 7), (0, 3), (film.val, 2)] [(0, 11), (2, 9)] _ hk
  have f2 : fld nn 7 3 = 0 := by subst hn; exact pack_field [(79, 7)] [(0, 3)] _ hk
  have hd : FOnly.dec nn = ⟨film⟩ := by
    subst hn; simp only [FOnly.dec, FOnly.mk.injEq]
    exact fin_of _ _ _ (pack_one [(79, 7), (0, 3)] _ _ 2 hk)
  rw [rowOf_4F _ h0]
  simp [rowFilm, f0, f1, f2, hd]

theorem fstat (x : FStat) : Statement (.fstat x) := by
  intro w hw h
  simp only [encode, Option.some.injEq] at h
  subst h
  obtain ⟨x, film⟩ := x
  have hk : Packed [(79, 7), (0, 3), (film.val, 2), (0, 6), (x.val, 5), (3, 9)] :=
    ⟨by decide, by decide, film.isLt, by decide, x.isLt, by decide, trivial⟩
  refine decode_of_pack _ [(79, 7), (0, 3), (film.val, 2), (0, 6), (x.val, 5), (3, 9)] _ (by simp only [FStat.enc, pack]; omega) hk rfl ?_ hw
  generalize hn : pack [(79, 7), (0, 3), (film.val, 2), (0, 6), (x.val, 5), (3, 9)] = nn at *
  have h0 : nn % 128 = 0x4F := by subst hn; exact pack_mod [(79, 7)] _ hk
  have f0 : fld nn 23 9 = 3 := by subst hn; exact pack_field [(79, 7), (0, 3), (film.val, 2), (0, 6), (x.val, 5)] [(3, 9)] _ hk
  have f1 : ¬fld nn 12 20 = 2048 := by
    subst hn; intro he; have h2 := (pack_field [(79, 7), (0, 3), (film.val, 2)] [(0, 6), (x.val, 5), (3, 9)] _ hk).symm.trans he; simp only [pack] at h2; omega
  have f2 : ¬fld nn 12 20 = 4096 := by
    subst hn; intro he; have h2 := (pack_field [(79, 7), (0, 3), (film.val, 2)] [(0, 6), (x.val, 5), (3, 9)] _ hk).symm.trans he; simp only [pack] at h2; omega
  have f3 : fld nn 12 6 = 0 := by subst hn; exact pack_field [(79, 7), (0, 3), (film.val, 2)] [(0, 6)] _ hk
  have f4 : fld nn 7 3 = 0 := by subst hn; exact pack_field [(79, 7)] [(0, 3)] _ hk
  have hd : FStat.dec nn = ⟨x, film⟩ := by
    subst hn; simp only [FStat.dec, FStat.mk.injEq]
    exact ⟨fin_of _ _ _ (pack_one [(79, 7), (0, 3), (film.val, 2), (0, 6)] _ _ 5 hk),
      fin_of _ _ _ (pack_one [(79, 7), (0, 3)] _ _ 2 hk)⟩
  rw [rowOf_4F _ h0]
  simp [rowFilm, f0, f1, f2, f3, f4, hd]

theorem cpy (x : Copy) : Statement (.cpy x) := by
  intro w hw h
  simp only [encode, Option.some.injEq] at h
  subst h
  obtain ⟨ch, e, port, c, b, a⟩ := x
  have hk : Packed [(80, 7), (a.val, 5), (b.val, 5), (c.val, 5), (port.toNat, 4), (0, 1), (e.toNat, 1), (ch.val, 3), (0, 1)] :=
    ⟨by decide, a.isLt, b.isLt, c.isLt, port.isLt, by decide, bool_lt_two e, ch.isLt, by decide, trivial⟩
  refine decode_of_pack _ [(80, 7), (a.val, 5), (b.val, 5), (c.val, 5), (port.toNat, 4), (0, 1), (e.toNat, 1), (ch.val, 3), (0, 1)] _ (by simp only [Copy.enc, pack]; omega) hk rfl ?_ hw
  generalize hn : pack [(80, 7), (a.val, 5), (b.val, 5), (c.val, 5), (port.toNat, 4), (0, 1), (e.toNat, 1), (ch.val, 3), (0, 1)] = nn at *
  have h0 : nn % 128 = 0x50 := by subst hn; exact pack_mod [(80, 7)] _ hk
  have f0 : fld nn 31 1 = 0 := by subst hn; exact pack_field [(80, 7), (a.val, 5), (b.val, 5), (c.val, 5), (port.toNat, 4), (0, 1), (e.toNat, 1), (ch.val, 3)] [(0, 1)] _ hk
  have f1 : fld nn 26 1 = 0 := by subst hn; exact pack_field [(80, 7), (a.val, 5), (b.val, 5), (c.val, 5), (port.toNat, 4)] [(0, 1)] _ hk
  have hd : Copy.dec nn = ⟨ch, e, port, c, b, a⟩ := by
    subst hn; simp only [Copy.dec, Copy.mk.injEq]
    exact ⟨fin_of _ _ _ (pack_one [(80, 7), (a.val, 5), (b.val, 5), (c.val, 5), (port.toNat, 4), (0, 1), (e.toNat, 1)] _ _ 3 hk),
      decide_bool _ _ (pack_one [(80, 7), (a.val, 5), (b.val, 5), (c.val, 5), (port.toNat, 4), (0, 1)] _ _ 1 hk),
      bitVec_of _ _ (pack_one [(80, 7), (a.val, 5), (b.val, 5), (c.val, 5)] _ _ 4 hk),
      fin_of _ _ _ (pack_one [(80, 7), (a.val, 5), (b.val, 5)] _ _ 5 hk),
      fin_of _ _ _ (pack_one [(80, 7), (a.val, 5)] _ _ 5 hk),
      fin_of _ _ _ (pack_one [(80, 7)] _ _ 5 hk)⟩
  rw [rowOf_50 _ h0]
  simp [rowCpy, f0, f1, hd]

theorem cpyM (x : Copy) : Statement (.cpyM x) := by
  intro w hw h
  simp only [encode, Option.some.injEq] at h
  subst h
  obtain ⟨ch, e, port, c, b, a⟩ := x
  have hk : Packed [(80, 7), (a.val, 5), (b.val, 5), (c.val, 5), (port.toNat, 4), (1, 1), (e.toNat, 1), (ch.val, 3), (0, 1)] :=
    ⟨by decide, a.isLt, b.isLt, c.isLt, port.isLt, by decide, bool_lt_two e, ch.isLt, by decide, trivial⟩
  refine decode_of_pack _ [(80, 7), (a.val, 5), (b.val, 5), (c.val, 5), (port.toNat, 4), (1, 1), (e.toNat, 1), (ch.val, 3), (0, 1)] _ (by simp only [Copy.enc, pack]; omega) hk rfl ?_ hw
  generalize hn : pack [(80, 7), (a.val, 5), (b.val, 5), (c.val, 5), (port.toNat, 4), (1, 1), (e.toNat, 1), (ch.val, 3), (0, 1)] = nn at *
  have h0 : nn % 128 = 0x50 := by subst hn; exact pack_mod [(80, 7)] _ hk
  have f0 : fld nn 26 1 = 1 := by subst hn; exact pack_field [(80, 7), (a.val, 5), (b.val, 5), (c.val, 5), (port.toNat, 4)] [(1, 1)] _ hk
  have f1 : fld nn 31 1 = 0 := by subst hn; exact pack_field [(80, 7), (a.val, 5), (b.val, 5), (c.val, 5), (port.toNat, 4), (1, 1), (e.toNat, 1), (ch.val, 3)] [(0, 1)] _ hk
  have hd : Copy.dec nn = ⟨ch, e, port, c, b, a⟩ := by
    subst hn; simp only [Copy.dec, Copy.mk.injEq]
    exact ⟨fin_of _ _ _ (pack_one [(80, 7), (a.val, 5), (b.val, 5), (c.val, 5), (port.toNat, 4), (1, 1), (e.toNat, 1)] _ _ 3 hk),
      decide_bool _ _ (pack_one [(80, 7), (a.val, 5), (b.val, 5), (c.val, 5), (port.toNat, 4), (1, 1)] _ _ 1 hk),
      bitVec_of _ _ (pack_one [(80, 7), (a.val, 5), (b.val, 5), (c.val, 5)] _ _ 4 hk),
      fin_of _ _ _ (pack_one [(80, 7), (a.val, 5), (b.val, 5)] _ _ 5 hk),
      fin_of _ _ _ (pack_one [(80, 7), (a.val, 5)] _ _ 5 hk),
      fin_of _ _ _ (pack_one [(80, 7)] _ _ 5 hk)⟩
  rw [rowOf_50 _ h0]
  simp [rowCpy, f0, f1, hd]

theorem gath (x : GathF) : Statement (.gath x) := by
  intro w hw h
  simp only [encode, Option.some.injEq] at h
  subst h
  obtain ⟨ch, e, dup, c, b, a⟩ := x
  have hk : Packed [(81, 7), (a.val, 5), (b.val, 5), (c.val, 5), (dup.val, 3), (0, 2), (e.toNat, 1), (ch.val, 3), (0, 1)] :=
    ⟨by decide, a.isLt, b.isLt, c.isLt, dup.isLt, by decide, bool_lt_two e, ch.isLt, by decide, trivial⟩
  refine decode_of_pack _ [(81, 7), (a.val, 5), (b.val, 5), (c.val, 5), (dup.val, 3), (0, 2), (e.toNat, 1), (ch.val, 3), (0, 1)] _ (by simp only [GathF.enc, pack]; omega) hk rfl ?_ hw
  generalize hn : pack [(81, 7), (a.val, 5), (b.val, 5), (c.val, 5), (dup.val, 3), (0, 2), (e.toNat, 1), (ch.val, 3), (0, 1)] = nn at *
  have h0 : nn % 128 = 0x51 := by subst hn; exact pack_mod [(81, 7)] _ hk
  have f0 : fld nn 31 1 = 0 := by subst hn; exact pack_field [(81, 7), (a.val, 5), (b.val, 5), (c.val, 5), (dup.val, 3), (0, 2), (e.toNat, 1), (ch.val, 3)] [(0, 1)] _ hk
  have f1 : fld nn 25 2 = 0 := by subst hn; exact pack_field [(81, 7), (a.val, 5), (b.val, 5), (c.val, 5), (dup.val, 3)] [(0, 2)] _ hk
  have hd : GathF.dec nn = ⟨ch, e, dup, c, b, a⟩ := by
    subst hn; simp only [GathF.dec, GathF.mk.injEq]
    exact ⟨fin_of _ _ _ (pack_one [(81, 7), (a.val, 5), (b.val, 5), (c.val, 5), (dup.val, 3), (0, 2), (e.toNat, 1)] _ _ 3 hk),
      decide_bool _ _ (pack_one [(81, 7), (a.val, 5), (b.val, 5), (c.val, 5), (dup.val, 3), (0, 2)] _ _ 1 hk),
      fin_of _ _ _ (pack_one [(81, 7), (a.val, 5), (b.val, 5), (c.val, 5)] _ _ 3 hk),
      fin_of _ _ _ (pack_one [(81, 7), (a.val, 5), (b.val, 5)] _ _ 5 hk),
      fin_of _ _ _ (pack_one [(81, 7), (a.val, 5)] _ _ 5 hk),
      fin_of _ _ _ (pack_one [(81, 7)] _ _ 5 hk)⟩
  rw [rowOf_51 _ h0]
  simp [rowGath, f0, f1, hd]

theorem chanWm (x : ChanA) : Statement (.chanWm x) := by
  intro w hw h
  simp only [encode, Option.some.injEq] at h
  subst h
  obtain ⟨e, ch, a⟩ := x
  have hk : Packed [(82, 7), (a.val, 5), (0, 10), (ch.val, 3), (0, 2), (e.toNat, 1), (0, 4)] :=
    ⟨by decide, a.isLt, by decide, ch.isLt, by decide, bool_lt_two e, by decide, trivial⟩
  refine decode_of_pack _ [(82, 7), (a.val, 5), (0, 10), (ch.val, 3), (0, 2), (e.toNat, 1), (0, 4)] _ (by simp only [ChanA.enc, pack]; omega) hk rfl ?_ hw
  generalize hn : pack [(82, 7), (a.val, 5), (0, 10), (ch.val, 3), (0, 2), (e.toNat, 1), (0, 4)] = nn at *
  have h0 : nn % 128 = 0x52 := by subst hn; exact pack_mod [(82, 7)] _ hk
  have f0 : fld nn 28 4 = 0 := by subst hn; exact pack_field [(82, 7), (a.val, 5), (0, 10), (ch.val, 3), (0, 2), (e.toNat, 1)] [(0, 4)] _ hk
  have f1 : fld nn 25 2 = 0 := by subst hn; exact pack_field [(82, 7), (a.val, 5), (0, 10), (ch.val, 3)] [(0, 2)] _ hk
  have f2 : fld nn 12 10 = 0 := by subst hn; exact pack_field [(82, 7), (a.val, 5)] [(0, 10)] _ hk
  have hd : ChanA.dec nn = ⟨e, ch, a⟩ := by
    subst hn; simp only [ChanA.dec, ChanA.mk.injEq]
    exact ⟨decide_bool _ _ (pack_one [(82, 7), (a.val, 5), (0, 10), (ch.val, 3), (0, 2)] _ _ 1 hk),
      fin_of _ _ _ (pack_one [(82, 7), (a.val, 5), (0, 10)] _ _ 3 hk),
      fin_of _ _ _ (pack_one [(82, 7)] _ _ 5 hk)⟩
  rw [rowOf_52 _ h0]
  simp [rowChan, f0, f1, f2, hd]

theorem chanWait (x : Chan0) : Statement (.chanWait x) := by
  intro w hw h
  simp only [encode, Option.some.injEq] at h
  subst h
  obtain ⟨e, ch⟩ := x
  have hk : Packed [(82, 7), (0, 15), (ch.val, 3), (0, 2), (e.toNat, 1), (1, 4)] :=
    ⟨by decide, by decide, ch.isLt, by decide, bool_lt_two e, by decide, trivial⟩
  refine decode_of_pack _ [(82, 7), (0, 15), (ch.val, 3), (0, 2), (e.toNat, 1), (1, 4)] _ (by simp only [Chan0.enc, pack]; omega) hk rfl ?_ hw
  generalize hn : pack [(82, 7), (0, 15), (ch.val, 3), (0, 2), (e.toNat, 1), (1, 4)] = nn at *
  have h0 : nn % 128 = 0x52 := by subst hn; exact pack_mod [(82, 7)] _ hk
  have f0 : fld nn 28 4 = 1 := by subst hn; exact pack_field [(82, 7), (0, 15), (ch.val, 3), (0, 2), (e.toNat, 1)] [(1, 4)] _ hk
  have f1 : fld nn 25 2 = 0 := by subst hn; exact pack_field [(82, 7), (0, 15), (ch.val, 3)] [(0, 2)] _ hk
  have f2 : fld nn 7 15 = 0 := by subst hn; exact pack_field [(82, 7)] [(0, 15)] _ hk
  have hd : Chan0.dec nn = ⟨e, ch⟩ := by
    subst hn; simp only [Chan0.dec, Chan0.mk.injEq]
    exact ⟨decide_bool _ _ (pack_one [(82, 7), (0, 15), (ch.val, 3), (0, 2)] _ _ 1 hk),
      fin_of _ _ _ (pack_one [(82, 7), (0, 15)] _ _ 3 hk)⟩
  rw [rowOf_52 _ h0]
  simp [rowChan, f0, f1, f2, hd]

theorem chanCancel (x : Chan0) : Statement (.chanCancel x) := by
  intro w hw h
  simp only [encode, Option.some.injEq] at h
  subst h
  obtain ⟨e, ch⟩ := x
  have hk : Packed [(82, 7), (0, 15), (ch.val, 3), (0, 2), (e.toNat, 1), (2, 4)] :=
    ⟨by decide, by decide, ch.isLt, by decide, bool_lt_two e, by decide, trivial⟩
  refine decode_of_pack _ [(82, 7), (0, 15), (ch.val, 3), (0, 2), (e.toNat, 1), (2, 4)] _ (by simp only [Chan0.enc, pack]; omega) hk rfl ?_ hw
  generalize hn : pack [(82, 7), (0, 15), (ch.val, 3), (0, 2), (e.toNat, 1), (2, 4)] = nn at *
  have h0 : nn % 128 = 0x52 := by subst hn; exact pack_mod [(82, 7)] _ hk
  have f0 : fld nn 28 4 = 2 := by subst hn; exact pack_field [(82, 7), (0, 15), (ch.val, 3), (0, 2), (e.toNat, 1)] [(2, 4)] _ hk
  have f1 : fld nn 25 2 = 0 := by subst hn; exact pack_field [(82, 7), (0, 15), (ch.val, 3)] [(0, 2)] _ hk
  have f2 : fld nn 7 15 = 0 := by subst hn; exact pack_field [(82, 7)] [(0, 15)] _ hk
  have hd : Chan0.dec nn = ⟨e, ch⟩ := by
    subst hn; simp only [Chan0.dec, Chan0.mk.injEq]
    exact ⟨decide_bool _ _ (pack_one [(82, 7), (0, 15), (ch.val, 3), (0, 2)] _ _ 1 hk),
      fin_of _ _ _ (pack_one [(82, 7), (0, 15)] _ _ 3 hk)⟩
  rw [rowOf_52 _ h0]
  simp [rowChan, f0, f1, f2, hd]

theorem chanStat (x : ChanA) : Statement (.chanStat x) := by
  intro w hw h
  simp only [encode, Option.some.injEq] at h
  subst h
  obtain ⟨e, ch, a⟩ := x
  have hk : Packed [(82, 7), (a.val, 5), (0, 10), (ch.val, 3), (0, 2), (e.toNat, 1), (3, 4)] :=
    ⟨by decide, a.isLt, by decide, ch.isLt, by decide, bool_lt_two e, by decide, trivial⟩
  refine decode_of_pack _ [(82, 7), (a.val, 5), (0, 10), (ch.val, 3), (0, 2), (e.toNat, 1), (3, 4)] _ (by simp only [ChanA.enc, pack]; omega) hk rfl ?_ hw
  generalize hn : pack [(82, 7), (a.val, 5), (0, 10), (ch.val, 3), (0, 2), (e.toNat, 1), (3, 4)] = nn at *
  have h0 : nn % 128 = 0x52 := by subst hn; exact pack_mod [(82, 7)] _ hk
  have f0 : fld nn 28 4 = 3 := by subst hn; exact pack_field [(82, 7), (a.val, 5), (0, 10), (ch.val, 3), (0, 2), (e.toNat, 1)] [(3, 4)] _ hk
  have f1 : fld nn 25 2 = 0 := by subst hn; exact pack_field [(82, 7), (a.val, 5), (0, 10), (ch.val, 3)] [(0, 2)] _ hk
  have f2 : fld nn 12 10 = 0 := by subst hn; exact pack_field [(82, 7), (a.val, 5)] [(0, 10)] _ hk
  have hd : ChanA.dec nn = ⟨e, ch, a⟩ := by
    subst hn; simp only [ChanA.dec, ChanA.mk.injEq]
    exact ⟨decide_bool _ _ (pack_one [(82, 7), (a.val, 5), (0, 10), (ch.val, 3), (0, 2)] _ _ 1 hk),
      fin_of _ _ _ (pack_one [(82, 7), (a.val, 5), (0, 10)] _ _ 3 hk),
      fin_of _ _ _ (pack_one [(82, 7)] _ _ 5 hk)⟩
  rw [rowOf_52 _ h0]
  simp [rowChan, f0, f1, f2, hd]

theorem enqTask (x : C3) : Statement (.enqTask x) := by
  intro w hw h
  simp only [encode, Option.some.injEq] at h
  subst h
  obtain ⟨e, c, b, a⟩ := x
  have hk : Packed [(83, 7), (a.val, 5), (b.val, 5), (c.val, 5), (0, 5), (e.toNat, 1), (0, 4)] :=
    ⟨by decide, a.isLt, b.isLt, c.isLt, by decide, bool_lt_two e, by decide, trivial⟩
  refine decode_of_pack _ [(83, 7), (a.val, 5), (b.val, 5), (c.val, 5), (0, 5), (e.toNat, 1), (0, 4)] _ (by simp only [C3.enc, pack]; omega) hk rfl ?_ hw
  generalize hn : pack [(83, 7), (a.val, 5), (b.val, 5), (c.val, 5), (0, 5), (e.toNat, 1), (0, 4)] = nn at *
  have h0 : nn % 128 = 0x53 := by subst hn; exact pack_mod [(83, 7)] _ hk
  have f0 : fld nn 28 4 = 0 := by subst hn; exact pack_field [(83, 7), (a.val, 5), (b.val, 5), (c.val, 5), (0, 5), (e.toNat, 1)] [(0, 4)] _ hk
  have f1 : fld nn 22 5 = 0 := by subst hn; exact pack_field [(83, 7), (a.val, 5), (b.val, 5), (c.val, 5)] [(0, 5)] _ hk
  have hd : C3.dec nn = ⟨e, c, b, a⟩ := by
    subst hn; simp only [C3.dec, C3.mk.injEq]
    exact ⟨decide_bool _ _ (pack_one [(83, 7), (a.val, 5), (b.val, 5), (c.val, 5), (0, 5)] _ _ 1 hk),
      fin_of _ _ _ (pack_one [(83, 7), (a.val, 5), (b.val, 5)] _ _ 5 hk),
      fin_of _ _ _ (pack_one [(83, 7), (a.val, 5)] _ _ 5 hk),
      fin_of _ _ _ (pack_one [(83, 7)] _ _ 5 hk)⟩
  rw [rowOf_53 _ h0]
  simp [rowEnq, f0, f1, hd]

theorem enqLaunch (x : C3) : Statement (.enqLaunch x) := by
  intro w hw h
  simp only [encode, Option.some.injEq] at h
  subst h
  obtain ⟨e, c, b, a⟩ := x
  have hk : Packed [(83, 7), (a.val, 5), (b.val, 5), (c.val, 5), (0, 5), (e.toNat, 1), (1, 4)] :=
    ⟨by decide, a.isLt, b.isLt, c.isLt, by decide, bool_lt_two e, by decide, trivial⟩
  refine decode_of_pack _ [(83, 7), (a.val, 5), (b.val, 5), (c.val, 5), (0, 5), (e.toNat, 1), (1, 4)] _ (by simp only [C3.enc, pack]; omega) hk rfl ?_ hw
  generalize hn : pack [(83, 7), (a.val, 5), (b.val, 5), (c.val, 5), (0, 5), (e.toNat, 1), (1, 4)] = nn at *
  have h0 : nn % 128 = 0x53 := by subst hn; exact pack_mod [(83, 7)] _ hk
  have f0 : fld nn 28 4 = 1 := by subst hn; exact pack_field [(83, 7), (a.val, 5), (b.val, 5), (c.val, 5), (0, 5), (e.toNat, 1)] [(1, 4)] _ hk
  have f1 : fld nn 22 5 = 0 := by subst hn; exact pack_field [(83, 7), (a.val, 5), (b.val, 5), (c.val, 5)] [(0, 5)] _ hk
  have hd : C3.dec nn = ⟨e, c, b, a⟩ := by
    subst hn; simp only [C3.dec, C3.mk.injEq]
    exact ⟨decide_bool _ _ (pack_one [(83, 7), (a.val, 5), (b.val, 5), (c.val, 5), (0, 5)] _ _ 1 hk),
      fin_of _ _ _ (pack_one [(83, 7), (a.val, 5), (b.val, 5)] _ _ 5 hk),
      fin_of _ _ _ (pack_one [(83, 7), (a.val, 5)] _ _ 5 hk),
      fin_of _ _ _ (pack_one [(83, 7)] _ _ 5 hk)⟩
  rw [rowOf_53 _ h0]
  simp [rowEnq, f0, f1, hd]

theorem depd (x : C3) : Statement (.depd x) := by
  intro w hw h
  simp only [encode, Option.some.injEq] at h
  subst h
  obtain ⟨e, c, b, a⟩ := x
  have hk : Packed [(84, 7), (a.val, 5), (b.val, 5), (c.val, 5), (0, 5), (e.toNat, 1), (0, 4)] :=
    ⟨by decide, a.isLt, b.isLt, c.isLt, by decide, bool_lt_two e, by decide, trivial⟩
  refine decode_of_pack _ [(84, 7), (a.val, 5), (b.val, 5), (c.val, 5), (0, 5), (e.toNat, 1), (0, 4)] _ (by simp only [C3.enc, pack]; omega) hk rfl ?_ hw
  generalize hn : pack [(84, 7), (a.val, 5), (b.val, 5), (c.val, 5), (0, 5), (e.toNat, 1), (0, 4)] = nn at *
  have h0 : nn % 128 = 0x54 := by subst hn; exact pack_mod [(84, 7)] _ hk
  have f0 : fld nn 28 4 = 0 := by subst hn; exact pack_field [(84, 7), (a.val, 5), (b.val, 5), (c.val, 5), (0, 5), (e.toNat, 1)] [(0, 4)] _ hk
  have f1 : fld nn 22 5 = 0 := by subst hn; exact pack_field [(84, 7), (a.val, 5), (b.val, 5), (c.val, 5)] [(0, 5)] _ hk
  have hd : C3.dec nn = ⟨e, c, b, a⟩ := by
    subst hn; simp only [C3.dec, C3.mk.injEq]
    exact ⟨decide_bool _ _ (pack_one [(84, 7), (a.val, 5), (b.val, 5), (c.val, 5), (0, 5)] _ _ 1 hk),
      fin_of _ _ _ (pack_one [(84, 7), (a.val, 5), (b.val, 5)] _ _ 5 hk),
      fin_of _ _ _ (pack_one [(84, 7), (a.val, 5)] _ _ 5 hk),
      fin_of _ _ _ (pack_one [(84, 7)] _ _ 5 hk)⟩
  rw [rowOf_54 _ h0]
  simp [rowDepd, f0, f1, hd]

theorem pgrant (x : C1) : Statement (.pgrant x) := by
  intro w hw h
  simp only [encode, Option.some.injEq] at h
  subst h
  obtain ⟨a⟩ := x
  have hk : Packed [(85, 7), (a.val, 5), (0, 20)] :=
    ⟨by decide, a.isLt, by decide, trivial⟩
  refine decode_of_pack _ [(85, 7), (a.val, 5), (0, 20)] _ (by simp only [C1.enc, pack]; omega) hk rfl ?_ hw
  generalize hn : pack [(85, 7), (a.val, 5), (0, 20)] = nn at *
  have h0 : nn % 128 = 0x55 := by subst hn; exact pack_mod [(85, 7)] _ hk
  have f0 : fld nn 12 20 = 0 := by subst hn; exact pack_field [(85, 7), (a.val, 5)] [(0, 20)] _ hk
  have hd : C1.dec nn = ⟨a⟩ := by
    subst hn; simp only [C1.dec, C1.mk.injEq]
    exact fin_of _ _ _ (pack_one [(85, 7)] _ _ 5 hk)
  rw [rowOf_55 _ h0]
  simp [rowPgrant, f0, hd]

theorem tdone : Statement .tdone := by
  intro w hw h
  simp only [encode, Option.some.injEq] at h
  subst h
  exact decode_of_row _ _ (by decide) (rowOf_56 0x00000056 rfl) hw

theorem lsplit (x : BrM) : Statement (.lsplit x) := by
  intro w hw h
  simp only [encode, Option.some.injEq] at h
  subst h
  obtain ⟨off, k⟩ := x
  have hk : Packed [(87, 7), (k.val, 3), (0, 2), (off.toNat, 20)] :=
    ⟨by decide, k.isLt, by decide, off.isLt, trivial⟩
  refine decode_of_pack _ [(87, 7), (k.val, 3), (0, 2), (off.toNat, 20)] _ (by simp only [BrM.enc, pack]; omega) hk rfl ?_ hw
  generalize hn : pack [(87, 7), (k.val, 3), (0, 2), (off.toNat, 20)] = nn at *
  have h0 : nn % 128 = 0x57 := by subst hn; exact pack_mod [(87, 7)] _ hk
  have f0 : fld nn 10 2 = 0 := by subst hn; exact pack_field [(87, 7), (k.val, 3)] [(0, 2)] _ hk
  have hd : BrM.dec nn = ⟨off, k⟩ := by
    subst hn; simp only [BrM.dec, BrM.mk.injEq]
    exact ⟨bitVec_of _ _ (pack_one [(87, 7), (k.val, 3), (0, 2)] _ _ 20 hk),
      fin_of _ _ _ (pack_one [(87, 7)] _ _ 3 hk)⟩
  rw [rowOf_57 _ h0]
  simp [rowLsplit, f0, hd]

theorem ljoin : Statement .ljoin := by
  intro w hw h
  simp only [encode, Option.some.injEq] at h
  subst h
  exact decode_of_row _ _ (by decide) (rowOf_58 0x00000058 rfl) hw

theorem yield : Statement .yield := by
  intro w hw h
  simp only [encode, Option.some.injEq] at h
  subst h
  exact decode_of_row _ _ (by decide) (rowOf_59 0x00000059 rfl) hw

theorem trap (x : Imm14) : Statement (.trap x) := by
  intro w hw h
  simp only [encode, Option.some.injEq] at h
  subst h
  obtain ⟨code⟩ := x
  have hk : Packed [(90, 7), (0, 11), (code.toNat, 14)] :=
    ⟨by decide, by decide, code.isLt, trivial⟩
  refine decode_of_pack _ [(90, 7), (0, 11), (code.toNat, 14)] _ (by simp only [Imm14.enc, pack]; omega) hk rfl ?_ hw
  generalize hn : pack [(90, 7), (0, 11), (code.toNat, 14)] = nn at *
  have h0 : nn % 128 = 0x5A := by subst hn; exact pack_mod [(90, 7)] _ hk
  have f0 : fld nn 7 11 = 0 := by subst hn; exact pack_field [(90, 7)] [(0, 11)] _ hk
  have hd : Imm14.dec nn = ⟨code⟩ := by
    subst hn; simp only [Imm14.dec, Imm14.mk.injEq]
    exact bitVec_of _ _ (pack_one [(90, 7), (0, 11)] _ _ 14 hk)
  rw [rowOf_5A _ h0]
  simp [rowTrap, f0, hd]

theorem tret : Statement .tret := by
  intro w hw h
  simp only [encode, Option.some.injEq] at h
  subst h
  exact decode_of_row _ _ (by decide) (rowOf_5B 0x0000005B rfl) hw

theorem shut : Statement .shut := by
  intro w hw h
  simp only [encode, Option.some.injEq] at h
  subst h
  exact decode_of_row _ _ (by decide) (rowOf_5C 0x0000005C rfl) hw

theorem halt : Statement .halt := by
  intro w hw h
  simp only [encode, Option.some.injEq] at h
  subst h
  exact decode_of_row _ _ (by decide) (rowOf_5D 0x0000005D rfl) hw

theorem brk (x : Imm14) : Statement (.brk x) := by
  intro w hw h
  simp only [encode, Option.some.injEq] at h
  subst h
  obtain ⟨code⟩ := x
  have hk : Packed [(94, 7), (0, 11), (code.toNat, 14)] :=
    ⟨by decide, by decide, code.isLt, trivial⟩
  refine decode_of_pack _ [(94, 7), (0, 11), (code.toNat, 14)] _ (by simp only [Imm14.enc, pack]; omega) hk rfl ?_ hw
  generalize hn : pack [(94, 7), (0, 11), (code.toNat, 14)] = nn at *
  have h0 : nn % 128 = 0x5E := by subst hn; exact pack_mod [(94, 7)] _ hk
  have f0 : fld nn 7 11 = 0 := by subst hn; exact pack_field [(94, 7)] [(0, 11)] _ hk
  have hd : Imm14.dec nn = ⟨code⟩ := by
    subst hn; simp only [Imm14.dec, Imm14.mk.injEq]
    exact bitVec_of _ _ (pack_one [(94, 7), (0, 11)] _ _ 14 hk)
  rw [rowOf_5E _ h0]
  simp [rowBrk, f0, hd]

theorem probe (x : Probe) : Statement (.probe x) := by
  intro w hw h
  simp only [encode, Option.some.injEq] at h
  subst h
  obtain ⟨kind, ea, a, d⟩ := x
  have hk : Packed [(95, 7), (d.val, 5), (a.val, 5), (0, 8), (ea.toNat, 1), (0, 1), (kind.val, 2), (0, 3)] :=
    ⟨by decide, d.isLt, a.isLt, by decide, bool_lt_two ea, by decide, kind.isLt, by decide, trivial⟩
  refine decode_of_pack _ [(95, 7), (d.val, 5), (a.val, 5), (0, 8), (ea.toNat, 1), (0, 1), (kind.val, 2), (0, 3)] _ (by simp only [Probe.enc, pack]; omega) hk rfl ?_ hw
  generalize hn : pack [(95, 7), (d.val, 5), (a.val, 5), (0, 8), (ea.toNat, 1), (0, 1), (kind.val, 2), (0, 3)] = nn at *
  have h0 : nn % 128 = 0x5F := by subst hn; exact pack_mod [(95, 7)] _ hk
  have f0 : fld nn 29 3 = 0 := by subst hn; exact pack_field [(95, 7), (d.val, 5), (a.val, 5), (0, 8), (ea.toNat, 1), (0, 1), (kind.val, 2)] [(0, 3)] _ hk
  have f1 : fld nn 26 1 = 0 := by subst hn; exact pack_field [(95, 7), (d.val, 5), (a.val, 5), (0, 8), (ea.toNat, 1)] [(0, 1)] _ hk
  have f2 : fld nn 17 8 = 0 := by subst hn; exact pack_field [(95, 7), (d.val, 5), (a.val, 5)] [(0, 8)] _ hk
  have hd : Probe.dec nn = ⟨kind, ea, a, d⟩ := by
    subst hn; simp only [Probe.dec, Probe.mk.injEq]
    exact ⟨fin_of _ _ _ (pack_one [(95, 7), (d.val, 5), (a.val, 5), (0, 8), (ea.toNat, 1), (0, 1)] _ _ 2 hk),
      decide_bool _ _ (pack_one [(95, 7), (d.val, 5), (a.val, 5), (0, 8)] _ _ 1 hk),
      fin_of _ _ _ (pack_one [(95, 7), (d.val, 5)] _ _ 5 hk),
      fin_of _ _ _ (pack_one [(95, 7)] _ _ 5 hk)⟩
  rw [rowOf_5F _ h0]
  simp [rowProbe, f0, f1, f2, hd]

theorem vectorStart (a0 : Nat) : Statement (.vectorStart a0) := fun _ _ h => nomatch h

theorem groupCommit (a0 : Nat) : Statement (.groupCommit a0) := fun _ _ h => nomatch h

theorem vectorComplete (a0 : Nat) : Statement (.vectorComplete a0) := fun _ _ h => nomatch h

theorem heldPerform (a0 : Nat) : Statement (.heldPerform a0) := fun _ _ h => nomatch h

theorem loadReturn (a0 : Nat) (a1 : Nat) : Statement (.loadReturn a0 a1) := fun _ _ h => nomatch h

theorem divideResult (a0 : Nat) (a1 : Nat) : Statement (.divideResult a0 a1) := fun _ _ h => nomatch h

theorem detachedComplete (a0 : Nat) (a1 : Nat) : Statement (.detachedComplete a0 a1) := fun _ _ h => nomatch h

theorem tmmaStart (a0 : Nat) (a1 : Nat) : Statement (.tmmaStart a0 a1) := fun _ _ h => nomatch h

theorem vmcastReserve (a0 : Nat) : Statement (.vmcastReserve a0) := fun _ _ h => nomatch h

theorem vmcastLand (a0 : Nat) : Statement (.vmcastLand a0) := fun _ _ h => nomatch h

theorem vrecvBind (a0 : Nat) : Statement (.vrecvBind a0) := fun _ _ h => nomatch h

theorem waitaWake (a0 : Nat) : Statement (.waitaWake a0) := fun _ _ h => nomatch h

theorem waitaPoll (a0 : Nat) : Statement (.waitaPoll a0) := fun _ _ h => nomatch h

theorem waitaTimeout (a0 : Nat) : Statement (.waitaTimeout a0) := fun _ _ h => nomatch h

theorem barWake (a0 : Nat) : Statement (.barWake a0) := fun _ _ h => nomatch h

theorem channelCommandStart (a0 : Nat) : Statement (.channelCommandStart a0) := fun _ _ h => nomatch h

theorem grainMove (a0 : Mover) : Statement (.grainMove a0) := fun _ _ h => nomatch h

theorem copyComplete (a0 : Nat) : Statement (.copyComplete a0) := fun _ _ h => nomatch h

theorem trapInContext (a0 : Nat) : Statement (.trapInContext a0) := fun _ _ h => nomatch h

theorem trapToKeeper (a0 : Nat) : Statement (.trapToKeeper a0) := fun _ _ h => nomatch h

theorem eventPlace (a0 : Nat) : Statement (.eventPlace a0) := fun _ _ h => nomatch h

theorem successorPlace (a0 : Nat) : Statement (.successorPlace a0) := fun _ _ h => nomatch h

theorem sliceEnd (a0 : Nat) : Statement (.sliceEnd a0) := fun _ _ h => nomatch h

theorem resumeSaved (a0 : Nat) : Statement (.resumeSaved a0) := fun _ _ h => nomatch h

theorem selection (a0 : Nat) : Statement (.selection a0) := fun _ _ h => nomatch h

theorem bind (a0 : Nat) : Statement (.bind a0) := fun _ _ h => nomatch h

theorem stagingStart (a0 : Nat) (a1 : Nat) (a2 : Nat) : Statement (.stagingStart a0 a1 a2) := fun _ _ h => nomatch h

theorem granuleMove (a0 : Nat) (a1 : Nat) : Statement (.granuleMove a0 a1) := fun _ _ h => nomatch h

theorem stopComplete (a0 : Nat) : Statement (.stopComplete a0) := fun _ _ h => nomatch h

theorem ownershipPass (a0 : Nat) (a1 : OwnItem) : Statement (.ownershipPass a0 a1) := fun _ _ h => nomatch h

theorem register (a0 : Nat) (a1 : Nat) : Statement (.register a0 a1) := fun _ _ h => nomatch h

theorem exportWord (a0 : Nat) (a1 : Nat) : Statement (.exportWord a0 a1) := fun _ _ h => nomatch h

theorem deliver (a0 : Nat) (a1 : Nat) : Statement (.deliver a0 a1) := fun _ _ h => nomatch h

theorem rd (a0 : Nat) (a1 : Nat) : Statement (.rd a0 a1) := fun _ _ h => nomatch h

theorem wr (a0 : Nat) (a1 : Nat) : Statement (.wr a0 a1) := fun _ _ h => nomatch h

theorem wro (a0 : Nat) (a1 : Nat) : Statement (.wro a0 a1) := fun _ _ h => nomatch h

theorem drop (a0 : Nat) (a1 : Nat) : Statement (.drop a0 a1) := fun _ _ h => nomatch h

theorem dropl (a0 : Nat) (a1 : Nat) : Statement (.dropl a0 a1) := fun _ _ h => nomatch h

theorem wbl (a0 : Nat) (a1 : Nat) : Statement (.wbl a0 a1) := fun _ _ h => nomatch h

theorem snoop (a0 : Nat) : Statement (.snoop a0) := fun _ _ h => nomatch h

theorem cmo (a0 : Nat) : Statement (.cmo a0) := fun _ _ h => nomatch h

theorem purge (a0 : Nat) : Statement (.purge a0) := fun _ _ h => nomatch h

theorem errorDetected (a0 : ErrorSite) : Statement (.errorDetected a0) := fun _ _ h => nomatch h

theorem ctlStop (a0 : Nat) : Statement (.ctlStop a0) := fun _ _ h => nomatch h

theorem ctlResume (a0 : Nat) : Statement (.ctlResume a0) := fun _ _ h => nomatch h

theorem ctlStep (a0 : Nat) : Statement (.ctlStep a0) := fun _ _ h => nomatch h

theorem ctlDiscard (a0 : Nat) : Statement (.ctlDiscard a0) := fun _ _ h => nomatch h

theorem root (a0 : Nat) (a1 : Word) : Statement (.root a0 a1) := fun _ _ h => nomatch h

theorem head (a0 : Nat) (a1 : Word) : Statement (.head a0 a1) := fun _ _ h => nomatch h

theorem en (a0 : Nat) (a1 : Word) : Statement (.en a0 a1) := fun _ _ h => nomatch h

theorem counter (a0 : Nat) (a1 : Nat) (a2 : Word) : Statement (.counter a0 a1 a2) := fun _ _ h => nomatch h

theorem channelResume (a0 : Nat) : Statement (.channelResume a0) := fun _ _ h => nomatch h

theorem channelCancel (a0 : Nat) : Statement (.channelCancel a0) := fun _ _ h => nomatch h

theorem coreCommit (a0 : Nat) : Statement (.coreCommit a0) := fun _ _ h => nomatch h

theorem partitionReset (a0 : Nat) : Statement (.partitionReset a0) := fun _ _ h => nomatch h

theorem partitionResetDone (a0 : Nat) : Statement (.partitionResetDone a0) := fun _ _ h => nomatch h

theorem window (a0 : Nat) (a1 : Nat) (a2 : Word) : Statement (.window a0 a1 a2) := fun _ _ h => nomatch h

theorem qcount (a0 : Nat) (a1 : Word) : Statement (.qcount a0 a1) := fun _ _ h => nomatch h

theorem printmask (a0 : Nat) (a1 : Word) : Statement (.printmask a0 a1) := fun _ _ h => nomatch h

theorem pingran (a0 : Nat) (a1 : Word) : Statement (.pingran a0 a1) := fun _ _ h => nomatch h

theorem load (a0 : Nat) : Statement (.load a0) := fun _ _ h => nomatch h

theorem slotDrainDone (a0 : Nat) : Statement (.slotDrainDone a0) := fun _ _ h => nomatch h

theorem save : Statement .save := fun _ _ h => nomatch h

theorem saveDone : Statement .saveDone := fun _ _ h => nomatch h

theorem restore : Statement .restore := fun _ _ h => nomatch h

theorem restoreDone : Statement .restoreDone := fun _ _ h => nomatch h

theorem abort : Statement .abort := fun _ _ h => nomatch h

theorem fire : Statement .fire := fun _ _ h => nomatch h

theorem rearm : Statement .rearm := fun _ _ h => nomatch h

theorem evcount : Statement .evcount := fun _ _ h => nomatch h

theorem reportRequest : Statement .reportRequest := fun _ _ h => nomatch h

theorem reportDone : Statement .reportDone := fun _ _ h => nomatch h

theorem powercap (a0 : Word) : Statement (.powercap a0) := fun _ _ h => nomatch h

theorem printCommit (a0 : Nat) : Statement (.printCommit a0) := fun _ _ h => nomatch h

theorem printStart (a0 : Nat) : Statement (.printStart a0) := fun _ _ h => nomatch h

theorem printDone (a0 : Nat) : Statement (.printDone a0) := fun _ _ h => nomatch h

theorem registerWrite (a0 : Nat) (a1 : Word) : Statement (.registerWrite a0 a1) := fun _ _ h => nomatch h

theorem powerOn : Statement .powerOn := fun _ _ h => nomatch h

theorem coldReset : Statement .coldReset := fun _ _ h => nomatch h

theorem linkUp (a0 : Nat) (a1 : Nat) (a2 : Bool) (a3 : Bool) (a4 : Bool) : Statement (.linkUp a0 a1 a2 a3 a4) := fun _ _ h => nomatch h

theorem bar0Write (a0 : Nat) (a1 : Nat) (a2 : Nat) (a3 : Word) : Statement (.bar0Write a0 a1 a2 a3) := fun _ _ h => nomatch h

theorem bar0Atomicop (a0 : Nat) (a1 : Nat) : Statement (.bar0Atomicop a0 a1) := fun _ _ h => nomatch h

theorem bar2Read (a0 : Nat) (a1 : Nat) (a2 : Nat) : Statement (.bar2Read a0 a1 a2) := fun _ _ h => nomatch h

theorem bar2Write (a0 : Nat) (a1 : Nat) (a2 : List Byte) : Statement (.bar2Write a0 a1 a2) := fun _ _ h => nomatch h

theorem bar2Atomicop (a0 : Nat) (a1 : Nat) (a2 : Nat) (a3 : HostOp) (a4 : Nat) (a5 : Nat) : Statement (.bar2Atomicop a0 a1 a2 a3 a4 a5) := fun _ _ h => nomatch h

theorem vfEnable (a0 : Nat) : Statement (.vfEnable a0) := fun _ _ h => nomatch h

theorem vfDisable : Statement .vfDisable := fun _ _ h => nomatch h

theorem vfFlr (a0 : Nat) : Statement (.vfFlr a0) := fun _ _ h => nomatch h

theorem pfFlr : Statement .pfFlr := fun _ _ h => nomatch h

theorem atsCompletion (a0 : Nat) (a1 : AtsAnswer) : Statement (.atsCompletion a0 a1) := fun _ _ h => nomatch h

theorem pageRequestResponse (a0 : Nat) (a1 : PriAnswer) : Statement (.pageRequestResponse a0 a1) := fun _ _ h => nomatch h

theorem priEnable (a0 : Nat) (a1 : Bool) (a2 : Nat) : Statement (.priEnable a0 a1 a2) := fun _ _ h => nomatch h

theorem invalidateRequest (a0 : Nat) (a1 : Option Nat) (a2 : Nat) (a3 : Nat) : Statement (.invalidateRequest a0 a1 a2 a3) := fun _ _ h => nomatch h

theorem invalidateCompletion : Statement .invalidateCompletion := fun _ _ h => nomatch h

theorem hostCompletionError (a0 : Asker) (a1 : Bool) : Statement (.hostCompletionError a0 a1) := fun _ _ h => nomatch h

theorem completionTimeout (a0 : Asker) : Statement (.completionTimeout a0) := fun _ _ h => nomatch h

theorem snpdata (a0 : Nat) : Statement (.snpdata a0) := fun _ _ h => nomatch h

theorem snpinv (a0 : Nat) : Statement (.snpinv a0) := fun _ _ h => nomatch h

theorem snpcur (a0 : Nat) : Statement (.snpcur a0) := fun _ _ h => nomatch h

theorem hostCacheResponse (a0 : HostResp) : Statement (.hostCacheResponse a0) := fun _ _ h => nomatch h

theorem m2sReq (a0 : Nat) : Statement (.m2sReq a0) := fun _ _ h => nomatch h

theorem m2sRwd (a0 : Nat) (a1 : List Byte) : Statement (.m2sRwd a0 a1) := fun _ _ h => nomatch h

theorem birsp (a0 : Nat) : Statement (.birsp a0) := fun _ _ h => nomatch h

theorem mode (a0 : Nat) (a1 : Nat) : Statement (.mode a0 a1) := fun _ _ h => nomatch h

theorem flipToDeviceBias : Statement .flipToDeviceBias := fun _ _ h => nomatch h

theorem flipToHostBias : Statement .flipToHostBias := fun _ _ h => nomatch h

theorem flipDone : Statement .flipDone := fun _ _ h => nomatch h

theorem portUp (a0 : Nat) (a1 : Bool) : Statement (.portUp a0 a1) := fun _ _ h => nomatch h

theorem peerRequest (a0 : Nat) (a1 : Nat) (a2 : Nat) (a3 : PeerReq) :
    Statement (.peerRequest a0 a1 a2 a3) := fun _ _ h => nomatch h

theorem peerCompletion (a0 : Asker) (a1 : Bool) : Statement (.peerCompletion a0 a1) := fun _ _ h => nomatch h

theorem peerTimeout (a0 : Asker) : Statement (.peerTimeout a0) := fun _ _ h => nomatch h

theorem illegal (a0 : BitVec 32) : Statement (.illegal a0) := fun _ h _ => nomatch h

theorem cxlCacheEnable : Statement .cxlCacheEnable := fun _ _ h => nomatch h

end Sys2Proof.Laws.RoundTrip
end

