-- ==== Sys2Proof/Tests/Slice0.lean ====
section
/-!
SUPPORT. The model's own tests: ill-formed terms that WellFormed refuses, words of every row written out from the encoding
tables, single steps with results worked out from the rules, and for the hypotheses of each obligation a state that meets them.
-/
set_option Elab.async false
namespace Sys2Proof.Tests
open Sys2Proof Sys2Proof.Machine

/-! ## States and readings the tests use -/

/-- Sequencer 0 of the reset state with a change of its context; it is the current one. -/
def at0 (f : Ctx → Ctx) : State := State.reset.withC (f State.reset.c)

/-- Sequencer 0 with scalars 1 to 3 set. -/
def scal (a b c : Word) : State := at0 fun x => ((x.setS 1 a).setS 2 b).setS 3 c

/-- The state where the sequencer runs ahead. -/
def ahead (s : State) : State := { s with runAhead := true }

/-- Sequencer 0 with scalar 1 empty. -/
def hollow : State := at0 fun c => { c with feS := setBit c.feS 1 false }

/-- Sequencer 0 in lane mode, lanes 0 and 63 split, the turn lane 63's, its own slot of v1 holding `x`. -/
def lanes (x : Word) : State :=
  at0 fun c => ({ c with lmode := true, split := 0x8000000000000001, laneTurn := 63 } : Ctx).setSlot 63 1 x

/-- A word where sequencer 0 fetches next. -/
def placed (w : Nat) : State := State.reset.withFetchWord 32 w

/-- Sequencer 0 with the tables of `placed` and scalars 1 to 3 set; virtual address 0 is the start of `codeBase`. -/
def mapped (a b c : Word) : State :=
  let s := placed 0x56
  s.withC (((s.c.setS 1 a).setS 2 b).setS 3 c)

/-- A loop-stack entry in place of entry 0, at the program counter 0x40. -/
def inLoop (last count index : Word) : State :=
  at0 fun c => { c with sc := { c.sc with pc := 0x40, loops := vset c.sc.loops 0 { start := 0x20, last := last, count := count, index := index } } }

/-- An entry of the vector queue with operands `x1`, `x2`, `vl` elements. -/
def entry (f : VForm) (vl : Nat) (x1 x2 : Word) (tag : BitVec 5) : VqEntry where
  form := f
  ipc := 0
  vl := vl
  rm := 0
  start := 0
  resumed := false
  cfg := Vector.replicate 32 { tag := tag }
  x1 := x1
  x2 := x2
  rows := 6
  cols := 6
  tsave := 0
  snap := {}
  ord := 0

/-- Whether an outcome is a next state with a property. -/
def nextIs (o : Host.Outcome State Fault Refusal) (p : State → Bool) : Bool :=
  match o with
  | .next t => p t
  | _ => false

/-- Whether a computation answers something with a property. -/
def okIs {ε α : Type} (x : Except ε α) (p : α → Bool) : Bool :=
  match x with
  | .ok a => p a
  | .error _ => false

theorem ok_of {ε α : Type} {x : Except ε α} {p : α → Bool} (h : okIs x p = true) : ∃ a, x = .ok a ∧ p a = true := by
  cases x with
  | ok a => exact ⟨a, rfl, h⟩
  | error e => cases h

/-- Whether a scalar reads as a value: a test of `Reads` that evaluates. -/
def readsNow (s : State) (n : Nat) (x : Word) : Bool :=
  if s.c.laneOn then s.c.slot s.c.laneTurn.val n == x
  else if n = 0 then x == 0 else !s.c.vqWritesS n && s.c.feS.getLsbD n && s.c.getS n == x

theorem reads_of {s : State} {n : Nat} {x : Word} (h : readsNow s n x = true) : Reads s n x := by
  intro e w
  unfold readsNow at h
  unfold readS
  dsimp only
  split
  · rename_i hl; simp only [hl, if_true] at h; rw [eq_of_beq h]
  · rename_i hl
    rw [if_neg hl] at h
    split
    · rename_i hn; simp only [hn, if_true] at h; rw [eq_of_beq h]
    · rename_i hn
      simp only [hn, if_false, Bool.and_eq_true, Bool.not_eq_true'] at h
      obtain ⟨⟨h1, h2⟩, h3⟩ := h
      simp [h1, h2, eq_of_beq h3]

/-- Whether a destination is free: a test of `Ready` that evaluates. -/
def readyNow (s : State) (n : Nat) : Bool := s.c.laneOn || n == 0 || s.c.feS.getLsbD n

theorem ready_of {s : State} {n : Nat} (h : readyNow s n = true) : Ready s n := by
  unfold readyNow at h
  unfold Ready freeDest
  dsimp only
  rw [if_pos]
  simpa [or_assoc] using h

theorem some_of {α : Type} {x : Option α} (h : x.isSome = true) : ∃ a, x = some a := by
  cases x with
  | some a => exact ⟨a, rfl⟩
  | none => cases h

/-! ## Ill-formed terms: one for each check of WellFormed -/

theorem test_wf_loop : (Instr.loop ⟨0, 3⟩).wf = false ∧ (Instr.loopi ⟨0, 3⟩).wf = false ∧ (Instr.loopi ⟨4, 0⟩).wf = false := by decide

theorem test_wf_pairs :
    (Instr.ldp ⟨0, false, 1, 3⟩).wf = false ∧ (Instr.stp ⟨0, false, 1, 31⟩).wf = false
    ∧ (Instr.casQ ⟨false, 0, 2, 5, 1, 4⟩).wf = false ∧ (Instr.casQ ⟨false, 0, 3, 4, 1, 4⟩).wf = false
    ∧ (Instr.casQ ⟨false, 0, 2, 4, 1, 7⟩).wf = false := by decide

theorem test_wf_scope :
    (Instr.ldacq ⟨0, 7, false, false, 0, 1, 2⟩).wf = false ∧ (Instr.ldacq ⟨0, 0, false, true, 3, 1, 2⟩).wf = false
    ∧ (Instr.strel ⟨0, 7, false, 0, 1, 2⟩).wf = false ∧ (Instr.amoAdd ⟨false, false, 7, false, 1, 2, 3⟩).wf = false
    ∧ (Instr.cas ⟨false, 7, 1, 2, 3, 4⟩).wf = false ∧ (Instr.casQ ⟨false, 7, 2, 4, 1, 6⟩).wf = false
    ∧ (Instr.fenceSc ⟨7⟩).wf = false ∧ (Instr.barArr ⟨false, false, 7, 1, 2, 3⟩).wf = false
    ∧ (Instr.clineFlush ⟨false, 7, 1⟩).wf = false := by decide

/-- R171: an xfence also refuses scope grp. -/
theorem test_wf_xfence : (Instr.xfenceAll ⟨6⟩).wf = false ∧ (Instr.xfenceSpace ⟨false, 7, 1⟩).wf = false ∧ (Instr.xfencePage ⟨false, 6, 1⟩).wf = false := by
  decide

theorem test_wf_waita : (Instr.waita ⟨false, 4, 1, 2, 3, 4⟩).wf = false := by decide

theorem test_wf_vector :
    (Instr.vcvt ⟨6, false, 0, 1, 2⟩).wf = false ∧ (Instr.vtag ⟨0, false, 0, 0x0B, 1⟩).wf = false
    ∧ (Instr.vtag ⟨0, false, 1, 0x10, 3⟩).wf = false ∧ (Instr.vtag ⟨4, false, 0, 0x10, 1⟩).wf = false
    ∧ (Instr.setvl ⟨0, 0x1A, false, 1, 2⟩).wf = false ∧ (Instr.vslideUp ⟨false, 3, 0, 1, 2, 3⟩).wf = false
    ∧ (Instr.vslideDn ⟨false, 0, 5, 1, 2, 3⟩).wf = false ∧ (Instr.vld ⟨3, false, false, false, 0, 1, 2⟩).wf = false
    ∧ (Instr.vldxDup ⟨3, false, false, false, 0, 1, 2, 3⟩).wf = false := by decide

theorem test_wf_lane_matrix :
    (Instr.wld ⟨true, 0, false, 0, 1, 1⟩).wf = false ∧ (Instr.wmul ⟨true, false, 0, 2, 0, 3⟩).wf = false
    ∧ (Instr.wmac ⟨true, false, 0, 2, 1, 0⟩).wf = false ∧ (Instr.wadd ⟨true, false, 0, 3, 0, 2⟩).wf = false
    ∧ (Instr.wchol ⟨true, 0, false, 0, 1⟩).wf = false ∧ (Instr.wlu ⟨true, 0, false, 0, 1, 3⟩).wf = false
    ∧ (Instr.wsolveC ⟨true, false, 0, 1, 1, 0⟩).wf = false ∧ (Instr.wid ⟨true, false, 0, 1⟩).wf = false
    ∧ (Instr.wdim ⟨3, 0⟩).wf = false ∧ (Instr.wdim ⟨7, 3⟩).wf = false
    ∧ (Instr.wget ⟨false, 0, 6, false, 0, 1, 1⟩).wf = false ∧ (Instr.wput ⟨false, 6, 0, false, 0, 1, 1⟩).wf = false := by decide

theorem test_wf_tiles :
    (Instr.tmma ⟨0x10, 0x10, false, false, false, false, 2, 2, 0⟩).wf = false
    ∧ (Instr.tmma ⟨0x0B, 0x10, false, false, false, false, 1, 2, 0⟩).wf = false
    ∧ (Instr.tmma ⟨0x10, 0x1F, false, false, false, false, 1, 2, 0⟩).wf = false
    ∧ (Instr.tmms ⟨0x10, 3, false, false, false, false, 2, 2, 0⟩).wf = false
    ∧ (Instr.tmms ⟨0x0F, 3, false, false, false, false, 1, 2, 0⟩).wf = false
    ∧ (Instr.tepi ⟨4, 0, 3, false, 0⟩).wf = false ∧ (Instr.tepi ⟨0, 0, 31, false, 0⟩).wf = false := by decide

theorem test_wf_illegal : (Instr.illegal 0x19).wf = false := by decide

/-! ## Decoding: a word of every row, written out from the rulers of R89 and the tables of R95 -/

theorem test_decode_00 :
    decode 0x02DD5B00 = .zeroWord ⟨0x5BAB6⟩ := by decide

theorem test_decode_01 :
    decode 0x040C4501 = .add ⟨true, false, 6, 4, 10⟩
    ∧ decode 0x0C0C4501 = .sub ⟨true, false, 6, 4, 10⟩
    ∧ decode 0x140C4501 = .and ⟨true, false, 6, 4, 10⟩
    ∧ decode 0x1C0C4501 = .or ⟨true, false, 6, 4, 10⟩
    ∧ decode 0x240C4501 = .xor ⟨true, false, 6, 4, 10⟩
    ∧ decode 0x2C0C4501 = .andn ⟨true, false, 6, 4, 10⟩
    ∧ decode 0x340C4501 = .orn ⟨true, false, 6, 4, 10⟩
    ∧ decode 0x3C0C4501 = .shl ⟨true, false, 6, 4, 10⟩
    ∧ decode 0x440C4501 = .shr ⟨true, false, 6, 4, 10⟩
    ∧ decode 0x4C0C4501 = .sar ⟨true, false, 6, 4, 10⟩
    ∧ decode 0x540C4501 = .rol ⟨true, false, 6, 4, 10⟩
    ∧ decode 0x5C0C4501 = .ror ⟨true, false, 6, 4, 10⟩
    ∧ decode 0x640C4501 = .slt ⟨true, false, 6, 4, 10⟩
    ∧ decode 0x6C0C4501 = .sltu ⟨true, false, 6, 4, 10⟩
    ∧ decode 0x740C4501 = .min ⟨true, false, 6, 4, 10⟩
    ∧ decode 0x7C0C4501 = .max ⟨true, false, 6, 4, 10⟩
    ∧ decode 0x840C4501 = .minu ⟨true, false, 6, 4, 10⟩
    ∧ decode 0x8C0C4501 = .maxu ⟨true, false, 6, 4, 10⟩
    ∧ decode 0x940C4501 = .mul ⟨true, false, 6, 4, 10⟩
    ∧ decode 0x9C0C4501 = .mulh ⟨true, false, 6, 4, 10⟩
    ∧ decode 0xA40C4501 = .mulhu ⟨true, false, 6, 4, 10⟩
    ∧ decode 0xAC0C4501 = .div ⟨true, false, 6, 4, 10⟩
    ∧ decode 0xB40C4501 = .divu ⟨true, false, 6, 4, 10⟩
    ∧ decode 0xBC0C4501 = .rem ⟨true, false, 6, 4, 10⟩
    ∧ decode 0xC40C4501 = .remu ⟨true, false, 6, 4, 10⟩
    ∧ decode 0xF8004501 = .clz ⟨false, 4, 10⟩
    ∧ decode 0xF8024501 = .ctz ⟨false, 4, 10⟩
    ∧ decode 0xF8044501 = .popc ⟨false, 4, 10⟩
    ∧ decode 0xF8064501 = .bswap ⟨false, 4, 10⟩
    ∧ decode 0xF8084501 = .sextB ⟨false, 4, 10⟩
    ∧ decode 0xF80A4501 = .sextH ⟨false, 4, 10⟩
    ∧ decode 0xF80C4501 = .sextW ⟨false, 4, 10⟩
    ∧ decode 0xF80E4501 = .zextW ⟨false, 4, 10⟩ := by decide

theorem test_decode_02 :
    decode 0xEAD84502 = .addi ⟨0x3AB6, false, 4, 10⟩ := by decide

theorem test_decode_03 :
    decode 0xEAD84503 = .andi ⟨0x3AB6, false, 4, 10⟩ := by decide

theorem test_decode_04 :
    decode 0xEAD84504 = .ori ⟨0x3AB6, false, 4, 10⟩ := by decide

theorem test_decode_05 :
    decode 0xEAD84505 = .xori ⟨0x3AB6, false, 4, 10⟩ := by decide

theorem test_decode_06 :
    decode 0x00D84506 = .shli ⟨0x36, false, 4, 10⟩
    ∧ decode 0x01D84506 = .shri ⟨0x36, false, 4, 10⟩
    ∧ decode 0x02D84506 = .sari ⟨0x36, false, 4, 10⟩
    ∧ decode 0x03D84506 = .roli ⟨0x36, false, 4, 10⟩ := by decide

theorem test_decode_07 :
    decode 0x6AD84507 = .slti ⟨0x1AB6, false, 4, 10⟩
    ∧ decode 0xEAD84507 = .sltiu ⟨0x1AB6, false, 4, 10⟩ := by decide

theorem test_decode_08 :
    decode 0x5D5B3508 = .setk ⟨0xBAB6, 3, 10⟩
    ∧ decode 0x5D5B7508 = .setz ⟨0xBAB6, 3, 10⟩ := by decide

theorem test_decode_09 :
    decode 0x5BAB6509 = .addpc ⟨0x5BAB6, 10⟩ := by decide

theorem test_decode_0a :
    decode 0xAB60620A = .brEq ⟨0xAB6, 6, 4⟩
    ∧ decode 0xAB62620A = .brNe ⟨0xAB6, 6, 4⟩
    ∧ decode 0xAB64620A = .brLt ⟨0xAB6, 6, 4⟩
    ∧ decode 0xAB66620A = .brGe ⟨0xAB6, 6, 4⟩
    ∧ decode 0xAB68620A = .brLtu ⟨0xAB6, 6, 4⟩
    ∧ decode 0xAB6A620A = .brGeu ⟨0xAB6, 6, 4⟩ := by decide

theorem test_decode_0b :
    decode 0x5BAB628B = .brmAny ⟨0x5BAB6, 5⟩
    ∧ decode 0x5BAB668B = .brmAll ⟨0x5BAB6, 5⟩
    ∧ decode 0x5BAB6A8B = .brmNone ⟨0x5BAB6, 5⟩ := by decide

theorem test_decode_0c :
    decode 0x5BAB650C = .jal ⟨0x5BAB6, 10⟩ := by decide

theorem test_decode_0d :
    decode 0xEAD8450D = .jalr ⟨0x3AB6, false, 4, 10⟩ := by decide

theorem test_decode_0e :
    decode 0x0156CD8E = .loop ⟨0xAB6, 27⟩
    ∧ decode 0x0156DD8E = .loopi ⟨0xAB6, 27⟩
    ∧ decode 0x0200000E = .lbrk := by decide

theorem test_decode_0f :
    decode 0x00F65A8F = .rpt ⟨3, 3, 1, 2, 11, 5⟩ := by decide

theorem test_decode_10 :
    decode 0x56D04110 = .ldBz ⟨0x2B6, true, 4, 2⟩
    ∧ decode 0x56D84110 = .ldBs ⟨0x2B6, true, 4, 2⟩
    ∧ decode 0x56D24110 = .ldHz ⟨0x2B6, true, 4, 2⟩
    ∧ decode 0x56DA4110 = .ldHs ⟨0x2B6, true, 4, 2⟩
    ∧ decode 0x56D44110 = .ldWz ⟨0x2B6, true, 4, 2⟩
    ∧ decode 0x56DC4110 = .ldWs ⟨0x2B6, true, 4, 2⟩
    ∧ decode 0x56D64110 = .ldD ⟨0x2B6, true, 4, 2⟩ := by decide

theorem test_decode_11 :
    decode 0x56D04111 = .stB ⟨0x2B6, true, 4, 2⟩
    ∧ decode 0x56D24111 = .stH ⟨0x2B6, true, 4, 2⟩
    ∧ decode 0x56D44111 = .stW ⟨0x2B6, true, 4, 2⟩
    ∧ decode 0x56D64111 = .stD ⟨0x2B6, true, 4, 2⟩ := by decide

theorem test_decode_12 :
    decode 0x56D64112 = .ldp ⟨0x2B6, true, 4, 2⟩ := by decide

theorem test_decode_13 :
    decode 0x56D64113 = .stp ⟨0x2B6, true, 4, 2⟩ := by decide

theorem test_decode_14 :
    decode 0xB67A4114 = .ldacq ⟨0xB6, 3, true, true, 1, 4, 2⟩ := by decide

theorem test_decode_15 :
    decode 0xB6744115 = .strel ⟨0xB6, 3, true, 2, 4, 2⟩ := by decide

theorem test_decode_16 :
    decode 0xDC0C4516 = .amoAdd ⟨true, true, 3, true, 6, 4, 10⟩
    ∧ decode 0xDC4C4516 = .amoAnd ⟨true, true, 3, true, 6, 4, 10⟩
    ∧ decode 0xDC8C4516 = .amoOr ⟨true, true, 3, true, 6, 4, 10⟩
    ∧ decode 0xDCCC4516 = .amoXor ⟨true, true, 3, true, 6, 4, 10⟩
    ∧ decode 0xDD0C4516 = .amoMin ⟨true, true, 3, true, 6, 4, 10⟩
    ∧ decode 0xDD4C4516 = .amoMax ⟨true, true, 3, true, 6, 4, 10⟩
    ∧ decode 0xDD8C4516 = .amoMinu ⟨true, true, 3, true, 6, 4, 10⟩
    ∧ decode 0xDDCC4516 = .amoMaxu ⟨true, true, 3, true, 6, 4, 10⟩
    ∧ decode 0xDE0C4516 = .amoSwap ⟨true, true, 3, true, 6, 4, 10⟩ := by decide

theorem test_decode_17 :
    decode 0x5C8C4517 = .cas ⟨true, 3, 18, 6, 4, 10⟩
    ∧ decode 0xDC8C5517 = .casQ ⟨true, 3, 18, 6, 5, 10⟩ := by decide

theorem test_decode_18 :
    decode 0x00C00018 = .fenceAcq ⟨3⟩
    ∧ decode 0x08C00018 = .fenceRel ⟨3⟩
    ∧ decode 0x10C00018 = .fenceAr ⟨3⟩
    ∧ decode 0x18C00018 = .fenceSc ⟨3⟩ := by decide

theorem test_decode_19 :
    decode 0x00C00019 = .xfenceAll ⟨3⟩
    ∧ decode 0x08C04019 = .xfenceSpace ⟨false, 3, 4⟩
    ∧ decode 0x10C04019 = .xfencePage ⟨false, 3, 4⟩ := by decide

theorem test_decode_1a :
    decode 0x5C8C451A = .waita ⟨true, 3, 18, 6, 4, 10⟩ := by decide

theorem test_decode_1b :
    decode 0x04CC451B = .barArr ⟨true, false, 3, 6, 4, 10⟩
    ∧ decode 0x0CCC451B = .barWait ⟨true, false, 3, 6, 4, 10⟩
    ∧ decode 0x14CC451B = .barAw ⟨true, false, 3, 6, 4, 10⟩ := by decide

theorem test_decode_1c :
    decode 0x00C0401C = .clineClean ⟨false, 3, 4⟩
    ∧ decode 0x08C0401C = .clineInv ⟨false, 3, 4⟩
    ∧ decode 0x10C0401C = .clineFlush ⟨false, 3, 4⟩
    ∧ decode 0x18C0401C = .clineZero ⟨false, 3, 4⟩ := by decide

theorem test_decode_1d :
    decode 0x040C451D = .stashMap ⟨true, false, 6, 4, 10⟩
    ∧ decode 0x0C0C051D = .stashUnmap ⟨true, 6, 10⟩
    ∧ decode 0x140C051D = .stashFlush ⟨true, 6, 10⟩
    ∧ decode 0x1C0C051D = .stashPin ⟨true, 6, 10⟩
    ∧ decode 0x240C051D = .stashUnpin ⟨true, 6, 10⟩ := by decide

theorem test_decode_1e :
    decode 0x0000401E = .prefL2 ⟨false, 4⟩
    ∧ decode 0x0800401E = .prefLlc ⟨false, 4⟩
    ∧ decode 0x1000401E = .prefStash ⟨false, 4⟩ := by decide

theorem test_decode_1f :
    decode 0x2AD8051F = .rdspr ⟨0xAB6, 10⟩
    ∧ decode 0x6AD8401F = .wrspr ⟨0xAB6, false, 4⟩ := by decide

theorem test_decode_20 :
    decode 0x054C4520 = .vadd ⟨true, false, 5, 6, 4, 10⟩
    ∧ decode 0x0D4C4520 = .vsub ⟨true, false, 5, 6, 4, 10⟩
    ∧ decode 0x154C4520 = .vmul ⟨true, false, 5, 6, 4, 10⟩
    ∧ decode 0x1D4C4520 = .vmin ⟨true, false, 5, 6, 4, 10⟩
    ∧ decode 0x254C4520 = .vmax ⟨true, false, 5, 6, 4, 10⟩
    ∧ decode 0x2D4C4520 = .vand ⟨true, false, 5, 6, 4, 10⟩
    ∧ decode 0x354C4520 = .vor ⟨true, false, 5, 6, 4, 10⟩
    ∧ decode 0x3D4C4520 = .vxor ⟨true, false, 5, 6, 4, 10⟩
    ∧ decode 0x454C4520 = .vshl ⟨true, false, 5, 6, 4, 10⟩
    ∧ decode 0x4D4C4520 = .vshr ⟨true, false, 5, 6, 4, 10⟩
    ∧ decode 0x554C4520 = .vsar ⟨true, false, 5, 6, 4, 10⟩
    ∧ decode 0x5D4C4520 = .vabd ⟨true, false, 5, 6, 4, 10⟩
    ∧ decode 0x654C4520 = .vavg ⟨true, false, 5, 6, 4, 10⟩
    ∧ decode 0x6D4C4520 = .vadds ⟨true, false, 5, 6, 4, 10⟩
    ∧ decode 0x754C4520 = .vsubs ⟨true, false, 5, 6, 4, 10⟩
    ∧ decode 0x7D4C4520 = .vmulh ⟨true, false, 5, 6, 4, 10⟩ := by decide

theorem test_decode_21 :
    decode 0x054C4521 = .vaddS ⟨true, false, 5, 6, 4, 10⟩
    ∧ decode 0x0D4C4521 = .vsubS ⟨true, false, 5, 6, 4, 10⟩
    ∧ decode 0x154C4521 = .vmulS ⟨true, false, 5, 6, 4, 10⟩
    ∧ decode 0x1D4C4521 = .vminS ⟨true, false, 5, 6, 4, 10⟩
    ∧ decode 0x254C4521 = .vmaxS ⟨true, false, 5, 6, 4, 10⟩
    ∧ decode 0x2D4C4521 = .vandS ⟨true, false, 5, 6, 4, 10⟩
    ∧ decode 0x354C4521 = .vorS ⟨true, false, 5, 6, 4, 10⟩
    ∧ decode 0x3D4C4521 = .vxorS ⟨true, false, 5, 6, 4, 10⟩
    ∧ decode 0x454C4521 = .vshlS ⟨true, false, 5, 6, 4, 10⟩
    ∧ decode 0x4D4C4521 = .vshrS ⟨true, false, 5, 6, 4, 10⟩
    ∧ decode 0x554C4521 = .vsarS ⟨true, false, 5, 6, 4, 10⟩
    ∧ decode 0x5D4C4521 = .vabdS ⟨true, false, 5, 6, 4, 10⟩
    ∧ decode 0x654C4521 = .vavgS ⟨true, false, 5, 6, 4, 10⟩
    ∧ decode 0x6D4C4521 = .vaddsS ⟨true, false, 5, 6, 4, 10⟩
    ∧ decode 0x754C4521 = .vsubsS ⟨true, false, 5, 6, 4, 10⟩
    ∧ decode 0x7D4C4521 = .vmulhS ⟨true, false, 5, 6, 4, 10⟩ := by decide

theorem test_decode_22 :
    decode 0x015A4522 = .vaddI ⟨false, 5, 13, 4, 10⟩
    ∧ decode 0x095A4522 = .vsubI ⟨false, 5, 13, 4, 10⟩
    ∧ decode 0x115A4522 = .vmulI ⟨false, 5, 13, 4, 10⟩
    ∧ decode 0x195A4522 = .vminI ⟨false, 5, 13, 4, 10⟩
    ∧ decode 0x215A4522 = .vmaxI ⟨false, 5, 13, 4, 10⟩
    ∧ decode 0x295A4522 = .vandI ⟨false, 5, 13, 4, 10⟩
    ∧ decode 0x315A4522 = .vorI ⟨false, 5, 13, 4, 10⟩
    ∧ decode 0x395A4522 = .vxorI ⟨false, 5, 13, 4, 10⟩
    ∧ decode 0x415A4522 = .vshlI ⟨false, 5, 13, 4, 10⟩
    ∧ decode 0x495A4522 = .vshrI ⟨false, 5, 13, 4, 10⟩
    ∧ decode 0x515A4522 = .vsarI ⟨false, 5, 13, 4, 10⟩
    ∧ decode 0x595A4522 = .vabdI ⟨false, 5, 13, 4, 10⟩
    ∧ decode 0x615A4522 = .vavgI ⟨false, 5, 13, 4, 10⟩
    ∧ decode 0x695A4522 = .vaddsI ⟨false, 5, 13, 4, 10⟩
    ∧ decode 0x715A4522 = .vsubsI ⟨false, 5, 13, 4, 10⟩
    ∧ decode 0x795A4522 = .vmulhI ⟨false, 5, 13, 4, 10⟩ := by decide

theorem test_decode_23 :
    decode 0x054C4523 = .vfma ⟨true, false, 5, 6, 4, 10⟩
    ∧ decode 0x0D4C4523 = .vfms ⟨true, false, 5, 6, 4, 10⟩
    ∧ decode 0x154C4523 = .vfnma ⟨true, false, 5, 6, 4, 10⟩
    ∧ decode 0x1D4C4523 = .vfnms ⟨true, false, 5, 6, 4, 10⟩ := by decide

theorem test_decode_24 :
    decode 0x054C4524 = .vmacw ⟨true, false, 5, 6, 4, 10⟩ := by decide

theorem test_decode_25 :
    decode 0x054C41A5 = .vcmpEq ⟨true, false, 5, 6, 4, 3⟩
    ∧ decode 0x0D4C41A5 = .vcmpNe ⟨true, false, 5, 6, 4, 3⟩
    ∧ decode 0x154C41A5 = .vcmpLt ⟨true, false, 5, 6, 4, 3⟩
    ∧ decode 0x1D4C41A5 = .vcmpLe ⟨true, false, 5, 6, 4, 3⟩
    ∧ decode 0x254C41A5 = .vcmpGt ⟨true, false, 5, 6, 4, 3⟩
    ∧ decode 0x2D4C41A5 = .vcmpGe ⟨true, false, 5, 6, 4, 3⟩
    ∧ decode 0x354C41A5 = .vcmpUn ⟨true, false, 5, 6, 4, 3⟩ := by decide

theorem test_decode_26 :
    decode 0x054C4526 = .vsel ⟨true, false, 5, 6, 4, 10⟩ := by decide

theorem test_decode_27 :
    decode 0x29404527 = .vcvt ⟨5, false, 5, 4, 10⟩ := by decide

theorem test_decode_28 :
    decode 0x1D4C4528 = .vshrr ⟨true, true, true, false, 5, 6, 4, 10⟩ := by decide

theorem test_decode_29 :
    decode 0x054C4529 = .vdiv ⟨true, false, 5, 6, 4, 10⟩
    ∧ decode 0x09404529 = .vsqrt ⟨false, 5, 4, 10⟩
    ∧ decode 0x11404529 = .vrcp ⟨false, 5, 4, 10⟩
    ∧ decode 0x19404529 = .vrsqrt ⟨false, 5, 4, 10⟩
    ∧ decode 0x21404529 = .vexp2 ⟨false, 5, 4, 10⟩
    ∧ decode 0x29404529 = .vlog2 ⟨false, 5, 4, 10⟩ := by decide

theorem test_decode_2a :
    decode 0x054C452A = .vdot ⟨true, false, 5, 6, 4, 10⟩ := by decide

theorem test_decode_2b :
    decode 0x4140452B = .vredSum ⟨true, false, 5, 4, 10⟩
    ∧ decode 0x4940452B = .vredMax ⟨true, false, 5, 4, 10⟩
    ∧ decode 0x5140452B = .vredMin ⟨true, false, 5, 4, 10⟩
    ∧ decode 0x5940452B = .vredAnd ⟨true, false, 5, 4, 10⟩
    ∧ decode 0x6140452B = .vredOr ⟨true, false, 5, 4, 10⟩
    ∧ decode 0x6940452B = .vredXor ⟨true, false, 5, 4, 10⟩ := by decide

theorem test_decode_2c :
    decode 0x054C452C = .vsign ⟨true, false, 5, 6, 4, 10⟩ := by decide

theorem test_decode_2d :
    decode 0x0140452D = .vmov ⟨false, 5, 4, 10⟩
    ∧ decode 0x0940452D = .vsplat ⟨false, 5, 4, 10⟩
    ∧ decode 0x1155B52D = .vsplati ⟨5, 0x15B, 10⟩
    ∧ decode 0x1C0C452D = .vget ⟨true, false, 6, 4, 10⟩
    ∧ decode 0x240C452D = .vput ⟨true, false, 6, 4, 10⟩ := by decide

theorem test_decode_2e :
    decode 0x26C0022E = .vtag ⟨9, true, 1, 16, 4⟩
    ∧ decode 0x8148452E = .setvl ⟨2, 18, false, 4, 10⟩ := by decide

theorem test_decode_2f :
    decode 0x548C452F = .vslideUp ⟨true, 2, 18, 6, 4, 10⟩
    ∧ decode 0xD48C452F = .vslideDn ⟨true, 2, 18, 6, 4, 10⟩ := by decide

theorem test_decode_30 :
    decode 0x2F404130 = .vld ⟨2, true, true, true, 5, 4, 2⟩ := by decide

theorem test_decode_31 :
    decode 0x2F404131 = .vst ⟨2, true, true, true, 5, 4, 2⟩ := by decide

theorem test_decode_32 :
    decode 0x2F684132 = .vlds ⟨2, true, true, true, 5, 20, 4, 2⟩ := by decide

theorem test_decode_33 :
    decode 0x2F684133 = .vsts ⟨2, true, true, true, 5, 20, 4, 2⟩ := by decide

theorem test_decode_34 :
    decode 0x2F684134 = .vldx ⟨2, true, true, true, 5, 20, 4, 2⟩
    ∧ decode 0x4F684134 = .vldxC ⟨true, true, true, 5, 20, 4, 2⟩
    ∧ decode 0xAF684134 = .vldxDup ⟨2, true, true, true, 5, 20, 4, 2⟩ := by decide

theorem test_decode_35 :
    decode 0x2F684135 = .vstx ⟨2, true, true, true, 5, 20, 4, 2⟩ := by decide

theorem test_decode_36 :
    decode 0x0F684136 = .vamoAdd ⟨true, true, true, 5, 20, 4, 2⟩
    ∧ decode 0x1F684136 = .vamoAnd ⟨true, true, true, 5, 20, 4, 2⟩
    ∧ decode 0x2F684136 = .vamoOr ⟨true, true, true, 5, 20, 4, 2⟩
    ∧ decode 0x3F684136 = .vamoXor ⟨true, true, true, 5, 20, 4, 2⟩
    ∧ decode 0x4F684136 = .vamoMin ⟨true, true, true, 5, 20, 4, 2⟩
    ∧ decode 0x5F684136 = .vamoMax ⟨true, true, true, 5, 20, 4, 2⟩
    ∧ decode 0x6F684136 = .vamoMinu ⟨true, true, true, 5, 20, 4, 2⟩
    ∧ decode 0x7F684136 = .vamoMaxu ⟨true, true, true, 5, 20, 4, 2⟩
    ∧ decode 0x8F684136 = .vamoSwap ⟨true, true, true, 5, 20, 4, 2⟩ := by decide

theorem test_decode_37 :
    decode 0x01404537 = .vcomp ⟨false, 5, 4, 10⟩
    ∧ decode 0x09404537 = .vexpand ⟨false, 5, 4, 10⟩ := by decide

theorem test_decode_38 :
    decode 0x054C4538 = .vperm ⟨true, false, 5, 6, 4, 10⟩ := by decide

theorem test_decode_39 :
    decode 0x054C4539 = .vzip ⟨true, false, 5, 6, 4, 10⟩
    ∧ decode 0x0D4C4539 = .vunzip ⟨true, false, 5, 6, 4, 10⟩
    ∧ decode 0x154C4539 = .vtrn ⟨true, false, 5, 6, 4, 10⟩ := by decide

theorem test_decode_3a :
    decode 0x040C41BA = .kand ⟨true, false, 6, 4, 3⟩
    ∧ decode 0x0C0C41BA = .kor ⟨true, false, 6, 4, 3⟩
    ∧ decode 0x140C41BA = .kxor ⟨true, false, 6, 4, 3⟩
    ∧ decode 0x180041BA = .knot ⟨false, 4, 3⟩
    ∧ decode 0x240C41BA = .kandn ⟨true, false, 6, 4, 3⟩
    ∧ decode 0x2800453A = .kpopc ⟨false, 4, 10⟩
    ∧ decode 0x3000453A = .kfirst ⟨false, 4, 10⟩ := by decide

theorem test_decode_3b :
    decode 0x000041BB = .kvl ⟨false, 4, 3⟩
    ∧ decode 0x080041BB = .kfrom ⟨false, 4, 3⟩
    ∧ decode 0x1000453B = .vlk ⟨false, 4, 10⟩ := by decide

theorem test_decode_3c :
    decode 0x054C403C = .vmcast ⟨true, false, 5, 6, 4⟩ := by decide

theorem test_decode_3d :
    decode 0x0000053D = .vrecv ⟨10⟩ := by decide

theorem test_decode_3e :
    decode 0x0140453E = .viota ⟨false, 5, 4, 10⟩
    ∧ decode 0x0940053E = .vidx ⟨5, 10⟩ := by decide

theorem test_decode_3f :
    decode 0x0140053F = .vflgRd ⟨5, 10⟩
    ∧ decode 0x0940003F = .vflgClr ⟨5⟩ := by decide

theorem test_decode_40 :
    decode 0x363561C0 = .wld ⟨false, 27, true, 5, 11, 3⟩ := by decide

theorem test_decode_41 :
    decode 0x363561C1 = .wst ⟨false, 27, true, 5, 11, 3⟩ := by decide

theorem test_decode_42 :
    decode 0x00341CC2 = .wmul ⟨false, true, 5, 3, 2, 1⟩
    ∧ decode 0x00741CC2 = .wmac ⟨false, true, 5, 3, 2, 1⟩
    ∧ decode 0x00B41CC2 = .wmult ⟨false, true, 5, 3, 2, 1⟩ := by decide

theorem test_decode_43 :
    decode 0x00F400C3 = .wchol ⟨false, 3, true, 5, 1⟩ := by decide

theorem test_decode_44 :
    decode 0x00F560C4 = .wlu ⟨false, 3, true, 5, 11, 1⟩ := by decide

theorem test_decode_45 :
    decode 0x0036C4C5 = .wsolveC ⟨false, true, 5, 22, 2, 1⟩
    ∧ decode 0x0236C4C5 = .wsolveP ⟨false, true, 5, 22, 2, 1⟩ := by decide

theorem test_decode_46 :
    decode 0x00341CC6 = .wadd ⟨false, true, 5, 3, 2, 1⟩
    ∧ decode 0x00741CC6 = .wsub ⟨false, true, 5, 3, 2, 1⟩
    ∧ decode 0x00B6C4C6 = .wscal ⟨false, true, 5, 22, 2, 1⟩
    ∧ decode 0x00F404C6 = .wtrn ⟨false, true, 5, 2, 1⟩
    ∧ decode 0x013400C6 = .wid ⟨false, true, 5, 1⟩
    ∧ decode 0x017404C6 = .wcpy ⟨false, true, 5, 2, 1⟩
    ∧ decode 0x39800046 = .wdim ⟨3, 4⟩ := by decide

theorem test_decode_47 :
    decode 0x3836A447 = .wget ⟨false, 3, 4, true, 5, 21, 2⟩
    ∧ decode 0x3876A0C7 = .wput ⟨false, 3, 4, true, 5, 21, 1⟩ := by decide

theorem test_decode_48 :
    decode 0x00000148 = .tclaim ⟨2⟩
    ∧ decode 0x00800148 = .trel ⟨2⟩
    ∧ decode 0x01520148 = .tacc ⟨20, true, 2⟩ := by decide

theorem test_decode_49 :
    decode 0x0953E549 = .tmma ⟨18, 20, true, true, true, true, 2, 1, 2⟩ := by decide

theorem test_decode_4a :
    decode 0x0953E54A = .tmms ⟨18, 20, true, true, true, true, 2, 1, 2⟩ := by decide

theorem test_decode_4b :
    decode 0x0252014B = .tread ⟨4, 20, true, 2⟩ := by decide

theorem test_decode_4c :
    decode 0x0252014C = .twrite ⟨4, 20, true, 2⟩ := by decide

theorem test_decode_4d :
    decode 0x0000014D = .twait ⟨2⟩ := by decide

theorem test_decode_4e :
    decode 0x6252014E = .tepi ⟨3, 4, 20, true, 2⟩ := by decide

theorem test_decode_4f :
    decode 0x0052044F = .fopen ⟨20, true, 1⟩
    ∧ decode 0x0080084F = .fclose ⟨2⟩
    ∧ decode 0x0100084F = .fdrop ⟨2⟩
    ∧ decode 0x01D00C4F = .fstat ⟨20, 3⟩ := by decide

theorem test_decode_50 :
    decode 0x6B646250 = .cpy ⟨6, true, 13, 18, 6, 4⟩
    ∧ decode 0x6F646250 = .cpyM ⟨6, true, 13, 18, 6, 4⟩ := by decide

theorem test_decode_51 :
    decode 0x69646251 = .gath ⟨6, true, 5, 18, 6, 4⟩ := by decide

theorem test_decode_52 :
    decode 0x00C00252 = .chanWm ⟨false, 3, 4⟩
    ∧ decode 0x10C00052 = .chanWait ⟨false, 3⟩
    ∧ decode 0x20C00052 = .chanCancel ⟨false, 3⟩
    ∧ decode 0x30C00252 = .chanStat ⟨false, 3, 4⟩
    ∧ decode 0x08C00252 = .illegal 0x08C00252 := by decide

theorem test_decode_53 :
    decode 0x08246253 = .enqTask ⟨true, 18, 6, 4⟩
    ∧ decode 0x18246253 = .enqLaunch ⟨true, 18, 6, 4⟩ := by decide

theorem test_decode_54 :
    decode 0x08246254 = .depd ⟨true, 18, 6, 4⟩ := by decide

theorem test_decode_55 :
    decode 0x00000255 = .pgrant ⟨4⟩ := by decide

theorem test_decode_56 :
    decode 0x00000056 = .tdone := by decide

theorem test_decode_57 :
    decode 0x5BAB62D7 = .lsplit ⟨0x5BAB6, 5⟩ := by decide

theorem test_decode_58 :
    decode 0x00000058 = .ljoin := by decide

theorem test_decode_59 :
    decode 0x00000059 = .yield := by decide

theorem test_decode_5a :
    decode 0xEAD8005A = .trap ⟨0x3AB6⟩ := by decide

theorem test_decode_5b :
    decode 0x0000005B = .tret := by decide

theorem test_decode_5c :
    decode 0x0000005C = .shut := by decide

theorem test_decode_5d :
    decode 0x0000005D = .halt := by decide

theorem test_decode_5e :
    decode 0xEAD8005E = .brk ⟨0x3AB6⟩ := by decide

theorem test_decode_5f :
    decode 0x1000455F = .probe ⟨2, false, 4, 10⟩ := by decide

theorem test_decode_reserved :
    decode 0x02DD5B7B = .reservedOpcode ⟨0x5BAB6, 27⟩ := by decide

/-- R95, R96: reserved selectors, nonzero fields marked 0, registers outside their class. -/
theorem test_decode_illegal :
    [0xC8000001, 0xF8100001, 0x00400001, 0xFC000001, 0x04000006, 0x80000008, 0x000C000A, 0x00000C0B, 0x0000000E, 0x0000100E,
     0x000E0010, 0x00080011, 0x00060092, 0x00060093, 0x00F80014, 0x02400016, 0x80000097,
     0x20000018, 0x00000098, 0x01C00018, 0x20000019, 0x2000001A, 0x1800001B, 0x2000001C, 0x2800001D, 0x1800001E, 0x8000001F].all
      (fun w => decode (BitVec.ofNat 32 w) == .illegal (BitVec.ofNat 32 w)) = true := by decide

theorem test_decode_illegal_vector :
    [0x80000020, 0x20000023, 0x08000024, 0x38000025, 0x08000026, 0x30000027, 0x20000028, 0x30000029, 0x0800002A, 0x3000002B,
     0x2800002D, 0x1800002F, 0x40000030, 0x00020030, 0xC0000034, 0x90000036, 0x10000037, 0x08000038, 0x18000039, 0x3800003A,
     0x1800003B, 0x0000008C + 0x30, 0x0000103D, 0x1000003E, 0x1000003F, 0x40000040, 0x00C00042, 0x02000043, 0x00000844, 0x04000045,
     0x01C00046, 0x00800047, 0x01800048, 0x10000049, 0x1000004A, 0x2000004B, 0x0080004D, 0x8000004E, 0x0200004F, 0x80000050,
     0x04000051, 0x40000052, 0x20000053, 0x10000054, 0x08000055, 0x00000080 + 0x56, 0x00000457, 0x00000058 + 0x80, 0x00000059 + 0x80,
     0x0000105A, 0x0000105B, 0x0000105C, 0x0000105D, 0x0000105E, 0x2000005F].all
      (fun w => decode (BitVec.ofNat 32 w) == .illegal (BitVec.ofNat 32 w)) = true := by decide

/-! ## Single steps, each result worked out from the rule named -/

/-- The scalar `n` after an instruction at a state. -/
noncomputable def after (i : Instr) (s : State) (n : Nat) (x : Word) : Bool := nextIs (exec i s) fun t => t.c.getS n == x

/-- R136: addition wraps; a destination that is also a source. -/
theorem test_add : after (.add ⟨false, false, 2, 1, 1⟩) (scal 0xFFFFFFFFFFFFFFFF 3 0) 1 2 = true := by decide +kernel

theorem test_sub : after (.sub ⟨false, false, 2, 1, 4⟩) (scal 3 5 0) 4 0xFFFFFFFFFFFFFFFE = true := by decide +kernel

theorem test_andn : after (.andn ⟨false, false, 2, 1, 4⟩) (scal 0xFF 0x0F 0) 4 0xF0 = true := by decide +kernel

theorem test_orn : after (.orn ⟨false, false, 2, 1, 4⟩) (scal 0 0xFFFFFFFFFFFFFF00 0) 4 0xFF = true := by decide +kernel

/-- R136: only the low six bits of the amount count. -/
theorem test_shl : after (.shl ⟨false, false, 2, 1, 4⟩) (scal 3 65 0) 4 6 = true := by decide +kernel

theorem test_sar : after (.sar ⟨false, false, 2, 1, 4⟩) (scal 0x8000000000000000 63 0) 4 0xFFFFFFFFFFFFFFFF = true := by decide +kernel

theorem test_rol : after (.rol ⟨false, false, 2, 1, 4⟩) (scal 0x8000000000000001 4 0) 4 0x18 = true := by decide +kernel

theorem test_ror_by_64 : after (.ror ⟨false, false, 2, 1, 4⟩) (scal 0x123 64 0) 4 0x123 = true := by decide +kernel

theorem test_slt : after (.slt ⟨false, false, 2, 1, 4⟩) (scal 0xFFFFFFFFFFFFFFFF 0 0) 4 1 = true := by decide +kernel

theorem test_sltu : after (.sltu ⟨false, false, 2, 1, 4⟩) (scal 0xFFFFFFFFFFFFFFFF 0 0) 4 0 = true := by decide +kernel

theorem test_min : after (.min ⟨false, false, 2, 1, 4⟩) (scal 0xFFFFFFFFFFFFFFFF 1 0) 4 0xFFFFFFFFFFFFFFFF = true := by decide +kernel

theorem test_minu : after (.minu ⟨false, false, 2, 1, 4⟩) (scal 0xFFFFFFFFFFFFFFFF 1 0) 4 1 = true := by decide +kernel

/-- R136: the high half of −1 × 3 is −1, and that of (2^64 − 1) × 3 is 2. -/
theorem test_mulh : after (.mulh ⟨false, false, 2, 1, 4⟩) (scal 0xFFFFFFFFFFFFFFFF 3 0) 4 0xFFFFFFFFFFFFFFFF = true := by decide +kernel

theorem test_mulhu : after (.mulhu ⟨false, false, 2, 1, 4⟩) (scal 0xFFFFFFFFFFFFFFFF 3 0) 4 2 = true := by decide +kernel

/-- R137: division by zero, and −2^63 by −1. -/
theorem test_div_zero : after (.div ⟨false, false, 2, 1, 4⟩) (scal 7 0 0) 4 0xFFFFFFFFFFFFFFFF = true := by decide +kernel

theorem test_div_over : after (.div ⟨false, false, 2, 1, 4⟩) (scal 0x8000000000000000 0xFFFFFFFFFFFFFFFF 0) 4 0x8000000000000000 = true := by
  decide +kernel

/-- R137: −7 by 2 is −3, remainder −1. -/
theorem test_div_trunc : after (.div ⟨false, false, 2, 1, 4⟩) (scal 0xFFFFFFFFFFFFFFF9 2 0) 4 0xFFFFFFFFFFFFFFFD = true := by decide +kernel

theorem test_rem_sign : after (.rem ⟨false, false, 2, 1, 4⟩) (scal 0xFFFFFFFFFFFFFFF9 2 0) 4 0xFFFFFFFFFFFFFFFF = true := by decide +kernel

theorem test_remu_zero : after (.remu ⟨false, false, 2, 1, 4⟩) (scal 7 0 0) 4 7 = true := by decide +kernel

theorem test_clz_zero : after (.clz ⟨false, 1, 4⟩) (scal 0 0 0) 4 64 = true := by decide +kernel

theorem test_ctz : after (.ctz ⟨false, 1, 4⟩) (scal 0x50 0 0) 4 4 = true := by decide +kernel

theorem test_bswap : after (.bswap ⟨false, 1, 4⟩) (scal 0x0102030405060708 0 0) 4 0x0807060504030201 = true := by decide +kernel

theorem test_sext_b : after (.sextB ⟨false, 1, 4⟩) (scal 0x1280 0 0) 4 0xFFFFFFFFFFFFFF80 = true := by decide +kernel

/-- R135: a result for s0 is discarded. -/
theorem test_addi_s0 : after (.addi ⟨5, false, 1, 0⟩) (scal 7 0 0) 0 0 = true := by decide +kernel

theorem test_sltiu : after (.sltiu ⟨0x1FFF, false, 1, 4⟩) (scal 7 0 0) 4 1 = true := by decide +kernel

theorem test_setk : after (.setk ⟨0xBEEF, 1, 1⟩) (scal 0x1111222233334444 0 0) 1 0x11112222BEEF4444 = true := by decide +kernel

theorem test_setz : after (.setz ⟨0xBEEF, 3, 1⟩) (scal 0x1111222233334444 0 0) 1 0xBEEF000000000000 = true := by decide +kernel

/-- R141: at 0x1234, one page below is address 0. -/
theorem test_addpc : after (.addpc ⟨0xFFFFF, 4⟩) (at0 fun c => { c with sc := { c.sc with pc := 0x1234 } }) 4 0 = true := by decide +kernel

/-- R142, R90: a branch back by one word. -/
theorem test_br_back : nextIs (exec (.brLtu ⟨0xFFF, 2, 1⟩) (at0 fun c => { c.setS 2 1 with sc := { (c.setS 2 1).sc with pc := 0x40 } }))
    (fun t => t.pc == 0x3C) = true := by decide +kernel

theorem test_br_not_taken : nextIs (exec (.brGe ⟨0xFFF, 2, 1⟩) (scal 0xFFFFFFFFFFFFFFFF 0 0)) (fun t => t.pc == 4) = true := by decide +kernel

/-- R143: with vl 0 none is taken. -/
theorem test_brm_none : nextIs (exec (.brmNone ⟨4, 1⟩) State.reset) (fun t => t.pc == 16) = true := by decide +kernel

/-- R145: a target that is no multiple of 4 writes nothing and is held as MISALIGNED (R353). -/
theorem test_jalr_misaligned : nextIs (exec (.jalr ⟨2, false, 1, 4⟩) (at0 fun c => { c.setS 1 0x100 with sc := { (c.setS 1 0x100).sc with tvec := 0x2001 } }))
    (fun t => t.c.getS 4 == 0 && t.c.sc.tcause == 8 && t.c.sc.tval == 0x102 && t.pc == 0x2000 && t.c.sc.tvec == 0x2000) = true := by decide +kernel

theorem test_jalr : nextIs (exec (.jalr ⟨4, false, 1, 1⟩) (scal 0x100 0 0)) (fun t => t.c.getS 1 == 4 && t.pc == 0x104) = true := by decide +kernel

/-- R149: the last pass ends the loop, and one before it goes round. -/
theorem test_end_round : nextIs (exec (.addi ⟨0, false, 0, 4⟩) (inLoop 0x40 3 1)) (fun t => t.pc == 0x20 && t.c.sc.loop0.index == 2) = true := by
  decide +kernel

theorem test_end_last : nextIs (exec (.addi ⟨0, false, 0, 4⟩) (inLoop 0x40 3 2)) (fun t => t.pc == 0x44 && t.c.sc.loop0.count == 0) = true := by
  decide +kernel

/-- R148: a loop of three words whose count is 0 goes on after its body. -/
theorem test_loop_skip : nextIs (exec (.loop ⟨3, 1⟩) (scal 0 0 0)) (fun t => t.pc == 16 && t.c.sc.loop0.count == 0) = true := by decide +kernel

theorem test_loopi : nextIs (exec (.loopi ⟨3, 5⟩) State.reset)
    (fun t => t.c.sc.loop0 == { start := 4, last := 12, count := 5, index := 0 }) = true := by decide +kernel

/-- R38: in lane mode a result goes to the lane's slot of v4. -/
theorem test_lane_slot : nextIs (exec (.addi ⟨1, false, 1, 4⟩) (lanes 41)) (fun t => t.c.slot 63 4 == 42 && t.c.slot 0 4 == 0) = true := by
  decide +kernel

/-- R163, R7: the bytes of the word at address 0 are 0xA5, 0, 0, 0x80. -/
theorem test_ld_bs : after (.ldBs ⟨0, false, 0, 4⟩) (placed 0x800000A5) 4 0xFFFFFFFFFFFFFFA5 = true := by decide +kernel

theorem test_ld_ws : after (.ldWs ⟨0, false, 0, 4⟩) (placed 0x800000A5) 4 0xFFFFFFFF800000A5 = true := by decide +kernel

/-- R164: the byte stored is the low one, at base plus offset. -/
theorem test_st_b : nextIs (exec (.stB ⟨3, false, 0, 1⟩) (mapped 0x1234 0 0))
    (fun t => coreByte t 0 (codeBase + 3) 1 0 == some 0x34) = true := by decide +kernel

/-- R167: amo.add answers the old value. -/
theorem test_amo_add : after (.amoAdd ⟨false, false, 0, false, 2, 0, 4⟩) (mapped 0 5 0) 4 0x56 = true := by decide +kernel

/-- R176: an arrival of 2 where 3 remain, and of 2 where 1 remains. -/
theorem test_arrive : arriveWord 0x000500000003 2 = some 0x000500000001 ∧ arriveWord 0x000500000001 2 = some 0x0100000600000000 := by decide

/-- R181: chain has six bits. -/
theorem test_wrspr : nextIs (exec (.wrspr ⟨2, false, 1⟩) (scal 0xFF 0 0)) (fun t => t.c.sc.chain == 0x3F && t.c.sc.armed) = true := by decide +kernel

theorem test_rdspr : after (.rdspr ⟨5, 4⟩) State.reset 4 1 = true := by decide +kernel

/-- R207: a register of 4,096 bits holds 64 elements of FP64. -/
theorem test_setvl : nextIs (exec (.setvl ⟨0, 0x10, false, 1, 4⟩) (scal 100 0 0)) (fun t => t.c.getS 4 == 64 && t.c.sc.vl == 64) = true := by decide +kernel

/-- Two elements in v1 and v2, under a tag. -/
def pair (tag : BitVec 5) (a b : BitVec 4096) : State := at0 fun c =>
  { c with v := vset (vset c.v 1 a) 2 b, sc := { c.sc with vl := 2, vcfg := Vector.replicate 32 { tag := tag } } }

/-- R191: I8, 127 + 1 wraps in vadd and saturates in vadds; the second element is 5 + 2. -/
theorem test_vadd : nextIs (exec (.vadd ⟨false, false, 0, 2, 1, 3⟩) (pair 0x01 0x057F 0x0201)) (fun t => vget t.c.v 3 0 == 0x0780) = true := by
  decide +kernel

theorem test_vadds : nextIs (exec (.vadds ⟨false, false, 0, 2, 1, 3⟩) (pair 0x01 0x057F 0x0201)) (fun t => vget t.c.v 3 0 == 0x077F && t.c.flags == 0x20) = true := by
  decide +kernel

/-- R192: FP32, 1.5 + 2 is 3.5, and 1.5 × 2 is 3. -/
theorem test_vadd_fp : nextIs (exec (.vadd ⟨false, false, 0, 2, 1, 3⟩) (pair 0x11 0x3FC00000 0x40000000)) (fun t => vget t.c.v 3 0 == 0x40600000) = true := by
  decide +kernel

theorem test_vmul_fp : nextIs (exec (.vmul ⟨false, false, 0, 2, 1, 3⟩) (pair 0x11 0x3FC00000 0x40000000)) (fun t => vget t.c.v 3 0 == 0x40400000) = true := by
  decide +kernel

/-- R195: 3 < 5 in element 0, not 5 < 5 in element 1. -/
theorem test_vcmp : nextIs (exec (.vcmpLt ⟨false, false, 0, 2, 1, 3⟩) (pair 0x01 0x0503 0x0505)) (fun t => t.c.getK 3 == 1) = true := by decide +kernel

/-- R202: 3 + 5. -/
theorem test_vred : nextIs (exec (.vredSum ⟨false, false, 0, 1, 3⟩) (pair 0x01 0x0503 0)) (fun t => t.c.getS 3 == 8) = true := by decide +kernel

/-- R221: a zip of (3, 5) and (1, 2) begins 3, 1. -/
theorem test_vzip : nextIs (exec (.vzip ⟨false, false, 0, 2, 1, 3⟩) (pair 0x01 0x0503 0x0201)) (fun t => vget t.c.v 3 0 == 0x0103) = true := by decide +kernel

/-- R224: no bit set, kfirst gives all ones. -/
theorem test_kfirst : nextIs (exec (.kfirst ⟨false, 1, 3⟩) (pair 0x01 0 0)) (fun t => t.c.getS 3 == 0xFFFFFFFFFFFFFFFF) = true := by decide +kernel

/-- R236, R249: the lane matrices are zero at reset, and wget reads an element of each lane. -/
theorem test_wget : nextIs (exec (.wget ⟨false, 2, 2, false, 0, 3, 0⟩) (at0 fun c => { c with sc := { c.sc with vl := 1, vcfg := Vector.replicate 32 { tag := 0x11 } } }))
    (fun t => vget t.c.v 3 0 == 0) = true := by decide +kernel

/-- R292: halt stops the context after the halt. -/
theorem test_halt : nextIs (exec .halt State.reset) (fun t => t.c.state == .stopped && t.c.resume == 4) = true := by decide +kernel

/-- R288: a trap instruction, in context: tepc is the next instruction. -/
theorem test_trap : nextIs (exec (.trap ⟨9⟩) (at0 fun c => { c with sc := { c.sc with tvec := 0x2001 } }))
    (fun t => t.c.sc.tcause == 6 && t.c.sc.tval == 9 && t.c.sc.tepc == 4 && t.pc == 0x2000) = true := by decide +kernel

/-- R290. -/
theorem test_tret : nextIs (exec .tret (at0 fun c => { c with sc := { c.sc with tepc := 0x83, tvec := 0x2000 } }))
    (fun t => t.pc == 0x80 && t.c.sc.tvec == 0x2001) = true := by decide +kernel

/-- R14, R299: a step of a placed word, addi s1, s1, −1 from 0. -/
theorem test_step : nextIs (step (placed 0xFFFC1082)) (fun t => (t.ctx 0).getS 1 == 0xFFFFFFFFFFFFFFFF && (t.ctx 0).sc.pc == 4) = true := by
  decide +kernel

/-- R299: a step of another agent, through the agenda. -/
theorem test_step_event : nextIs (step { State.reset with agenda := [.event (.powercap 1500)] }) (fun t => t.board.powercap == 1500) = true := by
  decide +kernel

/-- The root partition's reset and the end of it (R344). -/
theorem test_partition_reset : nextIs (exec (.partitionReset 0) State.reset) (fun t => (t.part 0).pstate == 2) = true := by decide +kernel

/-! ## For the hypotheses of each obligation, states and operands that meet them -/

theorem witness_EncodeThenDecode : ∃ i w, Instr.wf i = true ∧ encode i = some w :=
  ⟨.casQ ⟨true, 6, 30, 2, 31, 30⟩, _, by decide, rfl⟩

theorem witness_WordsThatTrap_zero : (0xFFFFFF80 : BitVec 32).toNat % 128 = 0 := by decide

theorem witness_WordsThatTrap_reserved : 0x60 ≤ (0x60 : BitVec 32).toNat % 128 ∧ 0x60 ≤ (0xFFFFFFFF : BitVec 32).toNat % 128 := by decide

theorem witness_WordsThatTrap_held : ∃ (w : BitVec 32) (s : State), (s.ctx s.cur).canTake (classA cILLEGAL 0 (BitVec.setWidth 64 w) s.pc) = false :=
  ⟨0x19, at0 fun c => { c with viq := [entry ⟨0, .mov, 0, 0, 0, 0, 0, false, false, 0, false, 0⟩ 1 0 0 1] }, by decide +kernel⟩

/-- The state of `placed` with its agenda taken. -/
def ready (w : Nat) : State := { placed w with agenda := [] }

theorem witness_StepRuns_fetch : ∃ (s : State) (q : _) (r : _) (t : _) (w : _) (u : _), s.dead = false ∧ s.agenda = .fetch q :: r ∧ canFetch { s with agenda := r } q = true
    ∧ fetchNext (prepare { s with agenda := r } q) = .ok (t, w)
    ∧ exec (decode (BitVec.ofNat 32 w)) (t.withC (keepArrival (decode (BitVec.ofNat 32 w)) t.c)) = .next u := by
  obtain ⟨⟨t, w⟩, h, hw⟩ := ok_of (x := fetchNext (prepare (ready 0x100081) 0)) (p := fun x => x.2 == 0x100081) (by decide +kernel)
  have hw : w = 0x100081 := eq_of_beq hw
  subst hw
  have hd : decode (BitVec.ofNat 32 0x100081) = .add ⟨false, false, 8, 0, 1⟩ := by decide
  obtain ⟨u, hu⟩ : ∃ u, exec (.add ⟨false, false, 8, 0, 1⟩) (t.withC (keepArrival (.add ⟨false, false, 8, 0, 1⟩) t.c)) = .next u := by
    show ∃ u, settle _ _ = .next u
    unfold settle; split <;> exact ⟨_, rfl⟩
  exact ⟨placed 0x100081, 0, [], t, 0x100081, u, by decide +kernel, by decide +kernel, by decide +kernel, h, by rw [hd]; exact hu⟩

/-- A running context whose tables are empty. -/
def lost : State := { at0 fun c => { c with state := .running } with agenda := [.fetch 0] }

theorem witness_StepRuns_trap : ∃ (s : State) (q : _) (r : _) (t : _) (f : _), s.dead = false ∧ s.agenda = .fetch q :: r ∧ canFetch { s with agenda := r } q = true
    ∧ fetchNext (prepare { s with agenda := r } q) = .error (.trap t f) := by
  have h : (match fetchNext (prepare { lost with agenda := [] } 0) with
    | .error (.trap _ _) => true
    | _ => false) = true := by decide +kernel
  split at h
  · rename_i t f ht; exact ⟨lost, 0, [], t, f, by decide +kernel, by decide +kernel, by decide +kernel, ht⟩
  · cases h

/-- The word of `placed` where a copy channel is registered for it: the fetch waits. -/
theorem witness_StepRuns_wait : ∃ (s : State) (q : _) (r : _) (t : _), s.dead = false ∧ s.agenda = .fetch q :: r ∧ canFetch { s with agenda := r } q = true
    ∧ fetchNext (prepare { s with agenda := r } q) = .error (.wait t) := by
  let s := (placed 0x56).setChan 7 { cmds := [{ copyCmd State.reset 0 7 8 64 32 0x200001 none with regs := [(codeBase, 32, 0)] }] }
  have h : (match fetchNext (prepare { s with agenda := [] } 0) with
    | .error (.wait _) => true
    | _ => false) = true := by decide +kernel
  split at h
  · rename_i t ht; exact ⟨s, 0, [], t, by decide +kernel, by decide +kernel, by decide +kernel, ht⟩
  · cases h

theorem witness_StepRuns_event : ∃ (s : State) (i : _) (r : _) (u : _), s.dead = false ∧ s.agenda = .event i :: r ∧ exec i { s with agenda := r } = .next u :=
  ⟨{ State.reset with agenda := [.event .rearm] }, .rearm, [], _, rfl, rfl, rfl⟩

theorem witness_StepRuns_fault : ∃ (s : State) (i : _) (r : _), s.dead = false ∧ s.agenda = .event i :: r ∧ exec i { s with agenda := r } = .fault .noSuchAgent :=
  ⟨{ State.reset with agenda := [.event (.vectorStart 2048)] }, .vectorStart 2048, [], rfl, rfl, rfl⟩

theorem witness_StepRuns_pass : ∃ (s : State) (ns : _) (r : _), s.dead = false ∧ s.agenda = .pass ns :: r :=
  ⟨{ State.reset with agenda := [.pass 5] }, 5, [], rfl, rfl⟩

theorem witness_StepRuns_dead : ∃ (s : State) (a : _) (r : _), s.dead = true ∧ s.agenda = a :: r ∧ a ≠ .event .powerOn ∧ a ≠ .event .coldReset :=
  ⟨{ State.reset with dead := true, agenda := [.fetch 0] }, .fetch 0, [], rfl, rfl, by decide, by decide⟩

theorem witness_NothingRefused : ∃ i, (encode i).isSome = true := ⟨.tdone, by decide⟩

theorem witness_TwoSourceResults : ∃ (x : Alu2) (s : State) (a : _) (b : _), Reads s x.a.val a ∧ Reads s x.b.val b ∧ Ready s x.d.val :=
  ⟨⟨true, true, 2, 1, 1⟩, scal 7 5 0, 7, 5, reads_of (by decide +kernel), reads_of (by decide +kernel), ready_of (by decide +kernel)⟩

theorem witness_TwoSourceResults_lane : ∃ (x : Alu2) (s : State) (a : _) (b : _), InLane s ∧ Reads s x.a.val a ∧ Reads s x.b.val b ∧ Ready s x.d.val :=
  ⟨⟨true, true, 31, 1, 0⟩, lanes 9, 9, 0, by unfold InLane; decide +kernel, reads_of (by decide +kernel), reads_of (by decide +kernel),
    ready_of (by decide +kernel)⟩

theorem witness_UnaryResults : ∃ (x : Alu1) (s : State) (a : _), Reads s x.a.val a ∧ Ready s x.d.val :=
  ⟨⟨true, 1, 0⟩, scal 7 5 0, 7, reads_of (by decide +kernel), ready_of (by decide +kernel)⟩

theorem witness_DivideResults : ∃ (x : Alu2) (s : State) (a : _) (b : _), Reads s x.a.val a ∧ Reads s x.b.val b ∧ Ready s x.d.val ∧ s.lockstep = true ∧ b = 0 :=
  ⟨⟨false, false, 2, 1, 3⟩, scal 7 0 0, 7, 0, reads_of (by decide +kernel), reads_of (by decide +kernel), ready_of (by decide +kernel),
    by decide +kernel, rfl⟩

theorem witness_DivideResults_corner : ∃ (x : Alu2) (s : State) (a : _) (b : _), Reads s x.a.val a ∧ Reads s x.b.val b ∧ Ready s x.d.val ∧ s.lockstep = true
    ∧ b ≠ 0 ∧ a.toInt = -2 ^ 63 ∧ b.toInt = -1 :=
  ⟨⟨false, false, 2, 1, 3⟩, scal 0x8000000000000000 0xFFFFFFFFFFFFFFFF 0, 0x8000000000000000, 0xFFFFFFFFFFFFFFFF, reads_of (by decide +kernel),
    reads_of (by decide +kernel), ready_of (by decide +kernel), by decide +kernel, by decide, by decide, by decide⟩

theorem witness_DivideResults_plain : ∃ (x : Alu2) (s : State) (a : _) (b : _), Reads s x.a.val a ∧ Reads s x.b.val b ∧ Ready s x.d.val ∧ s.lockstep = true
    ∧ b ≠ 0 ∧ ¬(a.toInt = -2 ^ 63 ∧ b.toInt = -1) :=
  ⟨⟨false, false, 2, 1, 3⟩, scal 0x8000000000000000 1 0, 0x8000000000000000, 1, reads_of (by decide +kernel), reads_of (by decide +kernel),
    ready_of (by decide +kernel), by decide +kernel, by decide, by decide⟩

theorem witness_DivideResults_lane : ∃ (x : Alu2) (s : State) (a : _) (b : _), Reads s x.a.val a ∧ Reads s x.b.val b ∧ Ready s x.d.val ∧ s.c.laneOn = true
    ∧ s.lockstep = false :=
  ⟨⟨false, false, 2, 1, 1⟩, ahead ((lanes 9).withC { (lanes 9).c with divs := [(1, 1, 0)] }), 9, 0, reads_of (by decide +kernel),
    reads_of (by decide +kernel), ready_of (by decide +kernel), by decide +kernel, by decide +kernel⟩

theorem witness_DivideRunsAhead : ∃ (x : Alu2) (s : State) (a : _) (b : _), OnScalar s ∧ Reads s x.a.val a ∧ Reads s x.b.val b ∧ Ready s x.d.val
    ∧ s.lockstep = false :=
  ⟨⟨false, false, 2, 1, 3⟩, ahead (scal 7 2 0), 7, 2, by unfold OnScalar; decide +kernel, reads_of (by decide +kernel), reads_of (by decide +kernel), ready_of (by decide +kernel),
    by decide +kernel⟩

theorem witness_DivideRunsAhead_result : ∃ (s : State) (q n d : Nat) (r : Word) (o : Nat), q < 2048 ∧ d < 32 ∧ (s.ctx q).divs[n]? = some (d, r, o) :=
  ⟨at0 fun c => { c with divs := [(31, 3, 0)] }, 0, 0, 31, 3, 0, by decide, by decide, by decide +kernel⟩

theorem witness_ImmediateForms : ∃ (x : ImmI) (s : State) (a : _), Reads s x.a.val a ∧ Ready s x.d.val :=
  ⟨⟨-1, true, 1, 2⟩, scal 7 5 0, 7, reads_of (by decide +kernel), ready_of (by decide +kernel)⟩

theorem witness_ImmediateForms_shift : ∃ (x : ShI) (s : State) (a : _), Reads s x.a.val a ∧ Ready s x.d.val :=
  ⟨⟨63, true, 1, 2⟩, scal 7 5 0, 7, reads_of (by decide +kernel), ready_of (by decide +kernel)⟩

theorem witness_ImmediateForms_slt : ∃ (x : SltI) (s : State) (a : _), Reads s x.a.val a ∧ Ready s x.d.val :=
  ⟨⟨-1, true, 1, 2⟩, scal 7 5 0, 7, reads_of (by decide +kernel), ready_of (by decide +kernel)⟩

theorem witness_ImmediateForms_addpc : ∃ (x : OffD) (s : State), Ready s x.d.val := ⟨⟨-1, 2⟩, State.reset, ready_of (by decide +kernel)⟩

theorem witness_SetConstants : ∃ (x : SetK) (s : State) (v : _), Reads s x.d.val v ∧ Ready s x.d.val :=
  ⟨⟨0xFFFF, 3, 1⟩, scal 7 5 0, 7, reads_of (by decide +kernel), ready_of (by decide +kernel)⟩

theorem witness_SetConstants_empty : ∃ (x : SetK) (s : State), Empty s x.d.val :=
  ⟨⟨0xFFFF, 3, 1⟩, hollow, by decide +kernel, by decide, by decide +kernel, by decide +kernel⟩

theorem witness_SetConstants_word : (0x80000008 : BitVec 32).toNat % 128 = 8 ∧ (0x80000008 : BitVec 32).getLsbD 31 = true := by decide

theorem witness_ScalarFile : ∃ (s : State) (d : _), OnScalar s ∧ d < 32 ∧ d ≠ 0 := ⟨State.reset, 31, by unfold OnScalar; decide +kernel, by decide, by decide⟩

theorem witness_ScalarFile_empty_a : ∃ (x : Alu2) (s : State), Empty s x.a.val ∧ x.ea = false :=
  ⟨⟨false, false, 2, 1, 3⟩, hollow, ⟨by decide +kernel, by decide, by decide +kernel, by decide +kernel⟩, rfl⟩

theorem witness_ScalarFile_trap_a : ∃ (x : Alu2) (s : State), Empty s x.a.val ∧ x.ea = true :=
  ⟨⟨false, true, 2, 1, 3⟩, hollow, ⟨by decide +kernel, by decide, by decide +kernel, by decide +kernel⟩, rfl⟩

theorem witness_ScalarFile_empty_b : ∃ (x : Alu2) (s : State) (a : _), Reads s x.a.val a ∧ Empty s x.b.val ∧ x.eb = false :=
  ⟨⟨false, false, 1, 2, 3⟩, hollow, 0, reads_of (by decide +kernel), ⟨by decide +kernel, by decide, by decide +kernel, by decide +kernel⟩, rfl⟩

theorem witness_ScalarFile_trap_b : ∃ (x : Alu2) (s : State) (a : _), Reads s x.a.val a ∧ Empty s x.b.val ∧ x.eb = true :=
  ⟨⟨true, false, 1, 2, 3⟩, hollow, 0, reads_of (by decide +kernel), ⟨by decide +kernel, by decide, by decide +kernel, by decide +kernel⟩, rfl⟩

theorem witness_ScalarFile_full : ∃ (x : Alu2) (s : State) (a : _) (b : _), Reads s x.a.val a ∧ Reads s x.b.val b ∧ s.c.laneOn = false ∧ x.d.val ≠ 0
    ∧ s.c.feS.getLsbD x.d.val = false :=
  ⟨⟨false, false, 3, 2, 1⟩, hollow, 0, 0, reads_of (by decide +kernel), reads_of (by decide +kernel), by decide +kernel, by decide,
    by decide +kernel⟩

theorem witness_CompareBranches : ∃ (x : BrC) (s : State) (a : _) (b : _), Reads s x.a.val a ∧ Reads s x.b.val b :=
  ⟨⟨0x800, 2, 1⟩, scal 7 5 0, 7, 5, reads_of (by decide +kernel), reads_of (by decide +kernel)⟩

theorem witness_CompareBranches_empty_a : ∃ (x : BrC) (s : State), Empty s x.a.val :=
  ⟨⟨0x800, 2, 1⟩, hollow, by decide +kernel, by decide, by decide +kernel, by decide +kernel⟩

theorem witness_CompareBranches_empty_b : ∃ (x : BrC) (s : State) (a : _), Reads s x.a.val a ∧ Empty s x.b.val :=
  ⟨⟨0x800, 1, 2⟩, hollow, 0, reads_of (by decide +kernel), by decide +kernel, by decide, by decide +kernel, by decide +kernel⟩

theorem witness_CompareBranches_reserved : (0x000C000A : BitVec 32).toNat % 128 = 10 ∧ 6 ≤ (0x000C000A : BitVec 32).toNat / 131072 % 8 := by decide

/-- Masks of ones, of one bit, and of none, with a vl. -/
def masked (k1 : BitVec 8192) (vl : Nat) : State := at0 fun c => { c with k := vset c.k 1 k1, sc := { c.sc with vl := vl } }

theorem mask_of {s : State} {n : Nat} {k : BitVec 8192} (h : okIs (readK s n) (· == k) = true) : ReadsMask s n k := by
  obtain ⟨a, ha, hk⟩ := ok_of h
  unfold ReadsMask; rw [ha, eq_of_beq hk]

theorem witness_MaskBranches_some : ∃ (x : BrM) (s : State) (k : _), OnScalar s ∧ s.c.vqWritesVl = false ∧ ReadsMask s x.k.val k ∧ (∃ i < s.c.sc.vl, k.getLsbD i = true)
    ∧ ∃ i < s.c.sc.vl, k.getLsbD i = false :=
  ⟨⟨4, 1⟩, masked 1 2, 1, by unfold OnScalar; decide +kernel, by decide +kernel, mask_of (by decide +kernel), ⟨0, by decide +kernel, by decide +kernel⟩,
    ⟨1, by decide +kernel, by decide +kernel⟩⟩

theorem witness_MaskBranches_none : ∃ (x : BrM) (s : State) (k : _), OnScalar s ∧ s.c.vqWritesVl = false ∧ ReadsMask s x.k.val k
    ∧ (∀ i < s.c.sc.vl, k.getLsbD i = false) ∧ ∀ i < s.c.sc.vl, k.getLsbD i = true :=
  ⟨⟨4, 1⟩, masked 1 0, 1, by unfold OnScalar; decide +kernel, by decide +kernel, mask_of (by decide +kernel), by
    rw [show (masked 1 0).c.sc.vl = 0 by decide +kernel]; intro i hi; omega, by
    rw [show (masked 1 0).c.sc.vl = 0 by decide +kernel]; intro i hi; omega⟩

theorem witness_MaskBranches_waits : ∃ (x : BrM) (s : State), OnScalar s ∧ MaskAwaited s x.k.val :=
  ⟨⟨4, 1⟩, at0 fun c => { c with feK := setBit c.feK 1 false }, by unfold OnScalar; decide +kernel, by decide, .inr (by decide +kernel)⟩

theorem witness_MaskBranches_reserved : (0x00000C0B : BitVec 32).toNat % 128 = 11 ∧ (0x00000C0B : BitVec 32).toNat / 1024 % 4 = 3 := by decide

theorem witness_Jumps : ∃ (x : OffD) (s : State), OnScalar s ∧ x.d = 0 ∧ Ready s x.d.val :=
  ⟨⟨0x80000, 0⟩, State.reset, by unfold OnScalar; decide +kernel, rfl, ready_of (by decide +kernel)⟩

theorem witness_Jumps_register : ∃ (x : ImmI) (s : State) (a : _), OnScalar s ∧ Reads s x.a.val a ∧ Ready s x.d.val ∧ (a + x.imm.signExtend 64).toNat % 4 = 0 :=
  ⟨⟨-3, true, 1, 1⟩, scal 3 5 0, 3, by unfold OnScalar; decide +kernel, reads_of (by decide +kernel), ready_of (by decide +kernel), by decide⟩

theorem witness_Jumps_misaligned : ∃ (x : ImmI) (s : State) (a : _), OnScalar s ∧ Reads s x.a.val a ∧ Ready s x.d.val ∧ (a + x.imm.signExtend 64).toNat % 4 ≠ 0 :=
  ⟨⟨-4, true, 1, 1⟩, scal 3 5 0, 3, by unfold OnScalar; decide +kernel, reads_of (by decide +kernel), ready_of (by decide +kernel), by decide⟩

theorem witness_EnterLoop_at_end : ∃ s : State, OnScalar s ∧ s.c.sc.loop0.count ≠ 0 ∧ s.pc = s.c.sc.loop0.last :=
  ⟨inLoop 0x40 1 0, by unfold OnScalar; decide +kernel, by decide +kernel, by decide +kernel⟩

theorem witness_EnterLoop_skip : ∃ (x : LoopR) (s : State) (cnt : _), OnScalar s ∧ ¬(s.c.sc.loop0.count ≠ 0 ∧ s.pc = s.c.sc.loop0.last) ∧ Reads s x.cnt.val cnt ∧ cnt = 0 :=
  ⟨⟨0xFFF, 1⟩, scal 0 0 0, 0, by unfold OnScalar; decide +kernel, by decide +kernel, reads_of (by decide +kernel), rfl⟩

/-- All six entries in use. -/
def deep : State := at0 fun c => { c.setS 1 9 with sc := { (c.setS 1 9).sc with loops := Vector.replicate 6 { start := 0, last := 0x90, count := 2, index := 0 } } }

theorem witness_EnterLoop_full : ∃ (x : LoopR) (s : State) (cnt : _), OnScalar s ∧ ¬(s.c.sc.loop0.count ≠ 0 ∧ s.pc = s.c.sc.loop0.last) ∧ Reads s x.cnt.val cnt ∧ cnt ≠ 0
    ∧ (vget s.c.sc.loops 5 {}).count ≠ 0 :=
  ⟨⟨0xFFF, 1⟩, deep, 9, by unfold OnScalar; decide +kernel, by decide +kernel, reads_of (by decide +kernel), by decide, by decide +kernel⟩

theorem witness_EnterLoop_entered : ∃ (x : LoopR) (s : State) (cnt : _), OnScalar s ∧ ¬(s.c.sc.loop0.count ≠ 0 ∧ s.pc = s.c.sc.loop0.last) ∧ Reads s x.cnt.val cnt ∧ cnt ≠ 0
    ∧ (vget s.c.sc.loops 5 {}).count = 0 :=
  ⟨⟨0xFFF, 1⟩, scal 1 0 0, 1, by unfold OnScalar; decide +kernel, by decide +kernel, reads_of (by decide +kernel), by decide, by decide +kernel⟩

theorem witness_EnterLoop_empty : ∃ (x : LoopR) (s : State), OnScalar s ∧ Empty s x.cnt.val ∧ ¬(s.c.sc.loop0.count ≠ 0 ∧ s.pc = s.c.sc.loop0.last) :=
  ⟨⟨0xFFF, 1⟩, hollow, by unfold OnScalar; decide +kernel, ⟨by decide +kernel, by decide, by decide +kernel, by decide +kernel⟩, by decide +kernel⟩

theorem witness_EndTest : ∃ (s : State) (x : _), OnScalar s ∧ s.c.sc.rptRun = false ∧ Ends s.c.sc s.pc x :=
  ⟨inLoop 0x40 3 1, _, by unfold OnScalar; decide +kernel, by decide +kernel, .again _ _ (by decide +kernel) (by decide +kernel) (by decide +kernel)⟩

theorem witness_LoopBreak_none : ∃ s : State, OnScalar s ∧ s.c.sc.loop0.count = 0 := ⟨State.reset, by unfold OnScalar; decide +kernel, by decide +kernel⟩

theorem witness_LoopBreak : ∃ s : State, OnScalar s ∧ s.c.sc.loop0.count ≠ 0 := ⟨deep, by unfold OnScalar; decide +kernel, by decide +kernel⟩

/-- A frame of one word at address 4, `w`, behind the program counter 0. -/
def framed (w : Nat) : State := placeBytes (ready 0x8F) (codeBase + 4) 4 w

theorem words_of {s : State} {q : Nat} {va pc : Word} {n : Nat} {p : State × List (BitVec 32) → Bool} (h : okIs (fetchWords s q va pc n) p = true) :
    ∃ (t : _) (ws : _), fetchWords s q va pc n = .ok (t, ws) ∧ p (t, ws) = true := by
  obtain ⟨⟨t, ws⟩, h1, h2⟩ := ok_of h
  exact ⟨t, ws, h1, h2⟩

/-- R155: a frame inside a frame, its words fetched and legal. -/
theorem witness_RepeatFrames_active : ∃ (s : State) (t : State) (ws : List (BitVec 32)), OnScalar s ∧ s.c.sc.rptAct = true
    ∧ fetchWords s s.cur (s.pc + 4) s.pc 1 = .ok (t, ws) ∧ captureCheck (t.ctx s.cur).sc s.pc 0x8F ws 1 0 0 0 = none := by
  let s := (framed 0x00310081).withC { (framed 0x00310081).c with sc := { (framed 0x00310081).c.sc with rptAct := true } }
  obtain ⟨t, ws, h, hp⟩ := words_of (s := s) (q := s.cur) (va := s.pc + 4) (pc := s.pc) (n := 1)
    (p := fun x => captureCheck (x.1.ctx s.cur).sc s.pc 0x8F x.2 1 0 0 0 == none) (by decide +kernel)
  exact ⟨s, t, ws, by unfold OnScalar; decide +kernel, by decide +kernel, h, eq_of_beq hp⟩

/-- The words cannot be fetched: the tables are empty. -/
theorem witness_RepeatFrames_fetch : ∃ (s : State) (b : Trap) (f : _), OnScalar s ∧ fetchWords s s.cur (s.pc + 4) s.pc 1 = .error (.trap b f) := by
  have h : (match fetchWords lost lost.cur (lost.pc + 4) lost.pc 1 with
    | .error (.trap _ _) => true
    | _ => false) = true := by decide +kernel
  split at h
  · rename_i t f ht; exact ⟨lost, t, f, by unfold OnScalar; decide +kernel, ht⟩
  · cases h

theorem witness_RepeatFrames_captured : ∃ (s : State) (t : State) (ws : List (BitVec 32)), OnScalar s ∧ s.c.sc.rptAct = false
    ∧ fetchWords s s.cur (s.pc + 4) s.pc 1 = .ok (t, ws) ∧ captureCheck (t.ctx s.cur).sc s.pc 0x8F ws 1 0 0 0 = none := by
  obtain ⟨t, ws, h, hp⟩ := words_of (s := framed 0x00310081) (q := (framed 0x00310081).cur) (va := (framed 0x00310081).pc + 4)
    (pc := (framed 0x00310081).pc) (n := 1) (p := fun x => captureCheck (x.1.ctx (framed 0x00310081).cur).sc (framed 0x00310081).pc 0x8F x.2 1 0 0 0 == none)
    (by decide +kernel)
  exact ⟨_, t, ws, by unfold OnScalar; decide +kernel, by decide +kernel, h, eq_of_beq hp⟩

theorem witness_RepeatFrames_refused : ∃ (s : State) (t : State) (ws : List (BitVec 32)), OnScalar s ∧ s.c.sc.rptAct = false
    ∧ fetchWords s s.cur (s.pc + 4) s.pc 1 = .ok (t, ws) ∧ (captureCheck (t.ctx s.cur).sc s.pc 0x8F ws 1 0 0 0).isSome = true := by
  obtain ⟨t, ws, h, hp⟩ := words_of (s := framed 0x5D) (q := (framed 0x5D).cur) (va := (framed 0x5D).pc + 4)
    (pc := (framed 0x5D).pc) (n := 1) (p := fun x => (captureCheck (x.1.ctx (framed 0x5D).cur).sc (framed 0x5D).pc 0x8F x.2 1 0 0 0).isSome)
    (by decide +kernel)
  exact ⟨_, t, ws, by unfold OnScalar; decide +kernel, by decide +kernel, h, hp⟩

/-- A frame of two words at word `i` of replay `j` of two. -/
def replaying (i j : Nat) : State :=
  at0 fun c => { c with sc := { c.sc with rptAct := true, rptRun := true, rptI := i, rptJ := j, rptBuf := [1, 1], rptCnt := 2, pc := 8 } }

theorem witness_RepeatFrames_runs : (OnScalar (replaying 0 0) ∧ (replaying 0 0).c.sc.rptRun = true ∧ (replaying 0 0).c.sc.rptI + 1 < (replaying 0 0).c.sc.rptBuf.length)
    ∧ ((replaying 1 0).c.sc.rptRun = true ∧ (replaying 1 0).c.sc.rptI + 1 = (replaying 1 0).c.sc.rptBuf.length
      ∧ (replaying 1 0).c.sc.rptJ + 1 < (replaying 1 0).c.sc.rptCnt)
    ∧ ((replaying 1 1).c.sc.rptRun = true ∧ (replaying 1 1).c.sc.rptI + 1 = (replaying 1 1).c.sc.rptBuf.length
      ∧ (replaying 1 1).c.sc.rptJ + 1 = (replaying 1 1).c.sc.rptCnt) := by
  refine ⟨⟨by unfold OnScalar; decide +kernel, ?_⟩, ?_, ?_⟩ <;> decide +kernel

theorem witness_LaneModeTraps : ∃ (i : _) (w : _) (s : State), Instr.wf i = true ∧ encode i = some w ∧ InLane s
    ∧ (∀ f, formOf i = some f → f.runsPast s.c.sc.rows.val = false)
    ∧ (∀ x, i = .rdspr x → (readSpr s s.cur x.spr.toNat).isSome = true) ∧ (∀ x, i = .wrspr x → sprWritable x.spr.toNat = true)
    ∧ 0x01 ≤ w.toNat % 128 ∧ w.toNat % 128 < 0x60
    ∧ ¬(w.toNat % 128 ≤ 0x09 ∨ w.toNat % 128 = 0x0A ∨ w.toNat % 128 = 0x0C ∨ (0x10 ≤ w.toNat % 128 ∧ w.toNat % 128 ≤ 0x13)
      ∨ w.toNat % 128 = 0x16 ∨ w.toNat % 128 = 0x17 ∨ w.toNat % 128 = 0x1E ∨ w.toNat % 128 = 0x58) :=
  ⟨.probe ⟨3, false, 1, 2⟩, _, lanes 0, by decide, rfl, by unfold InLane; decide +kernel, fun f h => (by cases h), fun x h => (by cases h),
    fun x h => (by cases h), by decide, by decide, by decide⟩

theorem witness_LaneModeTraps_special : (readSpr (lanes 0) (lanes 0).cur (RdSpr.mk 0x061 4).spr.toNat).isSome = true
    ∧ sprWritable (WrSpr.mk 0x061 false 1).spr.toNat = true ∧ (0x1F : Nat) ≠ 0x1E := by
  refine ⟨?_, ?_, ?_⟩ <;> decide +kernel

theorem witness_LaneSlots : ∃ (s : State) (d : Fin 32), InLane s ∧ s.c.laneTurn.val = 63 ∧ d = 0 :=
  ⟨lanes 5, 0, by unfold InLane; decide +kernel, by decide +kernel, rfl⟩

theorem witness_LaneThreads_waits : ∃ s : State, OnScalar s ∧ s.c.quiet = false :=
  ⟨at0 fun c => { c with divs := [(1, 1, 0)] }, by unfold OnScalar; decide +kernel, by decide +kernel⟩

theorem witness_LaneThreads_none : ∃ (x : BrM) (s : State) (k : _), OnScalar s ∧ s.c.quiet = true ∧ ReadsMask s x.k.val k ∧ ∀ i < 64, k.getLsbD i = false :=
  ⟨⟨4, 1⟩, masked (2 ^ 64) 2, 2 ^ 64, by unfold OnScalar; decide +kernel, by decide +kernel, mask_of (by decide +kernel), by decide +kernel⟩

theorem witness_LaneThreads_some : ∃ (x : BrM) (s : State) (k : _), OnScalar s ∧ s.c.quiet = true ∧ ReadsMask s x.k.val k ∧ ∃ i < 64, k.getLsbD i = true :=
  ⟨⟨4, 1⟩, masked (2 ^ 63) 2, 2 ^ 63, by unfold OnScalar; decide +kernel, by decide +kernel, mask_of (by decide +kernel), 63, by decide, by decide +kernel⟩

theorem witness_LaneThreads_join : InLane (lanes 0) ∧ (lanes 0).c.sb = [] ∧ (lanes 0).c.split.getLsbD 0 = true ∧ ∀ i < 0, (lanes 0).c.split.getLsbD i = false :=
  ⟨by unfold InLane; decide +kernel, by decide +kernel, by decide +kernel, fun i h => by omega⟩

/-- Lane 0 has arrived and lane 63 stands at the join, a lane's store held; and lane 0 has not arrived. -/
theorem witness_LaneThreads_stores : ∃ s : State, InLane s ∧ s.c.sb ≠ [] ∧ (∀ i < 64, s.c.split.getLsbD i = true → s.c.arrived.getLsbD i = true ∨ i = s.c.laneTurn.val)
    ∧ ∃ i < 64, (lanes 0).c.split.getLsbD i = true ∧ (lanes 0).c.arrived.getLsbD i = false ∧ i ≠ (lanes 0).c.laneTurn.val :=
  ⟨(lanes 0).withC { (lanes 0).c with arrived := 1, sb := [⟨.store 0 {} 8 7, 0, 0, {}, 0⟩] }, by unfold InLane; decide +kernel, by decide +kernel, by decide +kernel,
    0, by decide, by decide +kernel, by decide +kernel, by decide +kernel⟩

theorem witness_AccessChecks_load : ∃ (x : LdSt) (s : State) (b : _), Reads s x.a.val b ∧ (b + x.off.signExtend 64 * 2).toNat % 2 ≠ 0
    ∧ (b + x.off.signExtend 64 * 4).toNat % 4 ≠ 0 ∧ (b + x.off.signExtend 64 * 8).toNat % 8 ≠ 0 ∧ (b + x.off.signExtend 64 * 16).toNat % 16 ≠ 0
    ∧ Reads s x.t.val 5 ∧ Reads s (x.t.val + 1) 6 :=
  ⟨⟨-1, false, 1, 2⟩, scal 1 5 6, 1, reads_of (by decide +kernel), by decide, by decide, by decide, by decide, reads_of (by decide +kernel),
    reads_of (by decide +kernel)⟩

theorem witness_AccessChecks_amo : ∃ (x : AmoF) (s : State) (a : _) (b : _), Reads s x.a.val a ∧ Reads s x.b.val b ∧ a.toNat % 8 ≠ 0 :=
  ⟨⟨false, false, 0, false, 2, 1, 3⟩, scal 4 5 6, 4, 5, reads_of (by decide +kernel), reads_of (by decide +kernel), by decide⟩

theorem witness_AccessChecks_high : ∃ (x : LdSt) (s : State) (b : _), Reads s x.a.val b ∧ NoFenceHeld s ∧ (b + x.off.signExtend 64 * 8).toNat % 8 = 0
    ∧ 2 ^ 56 ≤ (b + x.off.signExtend 64 * 8).toNat ∧ Reads s x.t.val 5 :=
  ⟨⟨0, false, 1, 2⟩, scal (2 ^ 56) 5 6, 2 ^ 56, reads_of (by decide +kernel), by unfold NoFenceHeld; decide +kernel, by decide, by decide,
    reads_of (by decide +kernel)⟩

theorem translates_of {s : State} {va : Word} {n : Nat} {need : Need} {k : Bool} {p : State × Xl → Bool} (h : okIs (scalarAccess s va n need k) p = true) :
    ∃ (t : _) (x : _), Translates s va n need k t x ∧ p (t, x) = true := by
  obtain ⟨⟨t, x⟩, h1, h2⟩ := ok_of h
  exact ⟨t, x, h1, h2⟩

theorem all_ready_of {s : State} {ds : List Nat} (h : ds.all (readyNow s) = true) : AllReady s ds := by
  intro d hd; exact ready_of (List.all_eq_true.1 h d hd)

theorem witness_LoadForms : ∃ (x : LdSt) (s : State) (b : _) (t : _) (p : _), Reads s x.a.val b ∧ Translates s (b + x.off.signExtend 64 * word 8) 8 .r (8 == 8) t p
    ∧ Ready t x.t.val ∧ t.c.laneOn = false ∧ t.lockstep = false := by
  obtain ⟨t, p, h, hp⟩ := translates_of (s := ahead (mapped 64 0 0)) (va := 64 + (-1 : BitVec 11).signExtend 64 * word 8) (n := 8) (need := .r) (k := 8 == 8)
    (p := fun x => readyNow x.1 2 && !x.1.c.laneOn && !x.1.lockstep) (by decide +kernel)
  simp only [Bool.and_eq_true, Bool.not_eq_true'] at hp
  exact ⟨⟨-1, true, 1, 2⟩, _, 64, t, p, reads_of (by decide +kernel), h, ready_of hp.1.1, hp.1.2, hp.2⟩

theorem witness_LoadForms_step : ∃ (s : State) (t : State) (p : _) (r : _), Translates s 8 8 .r true t p ∧ InStep t
    ∧ loadData (issuedState t (newLoad t 0 2 8 p 8 false false none) [2]) t.cur (newLoad t 0 2 8 p 8 false false none) = .ok r := by
  obtain ⟨t, p, h, hp⟩ := translates_of (s := mapped 64 0 0) (va := 8) (n := 8) (need := .r) (k := true)
    (p := fun x => !x.1.c.laneOn && x.1.lockstep
      && okIs (loadData (issuedState x.1 (newLoad x.1 0 2 8 x.2 8 false false none) [2]) x.1.cur (newLoad x.1 0 2 8 x.2 8 false false none)) fun _ => true)
    (by decide +kernel)
  simp only [Bool.and_eq_true, Bool.not_eq_true'] at hp
  obtain ⟨r, hr, -⟩ := ok_of hp.2
  exact ⟨_, t, p, r, h, hp.1, hr⟩

theorem witness_LoadForms_pair : ∃ (x : LdSt) (s : State) (b : _) (t : _) (p : _), Reads s x.a.val b ∧ Translates s (b + x.off.signExtend 64 * 16) 16 .r false t p
    ∧ AllReady t [x.t.val, x.t.val + 1] := by
  obtain ⟨t, p, h, hp⟩ := translates_of (s := mapped 64 0 0) (va := 64 + (1 : BitVec 11).signExtend 64 * 16) (n := 16) (need := .r) (k := false)
    (p := fun x => [30, 31].all (readyNow x.1)) (by decide +kernel)
  exact ⟨⟨1, true, 1, 30⟩, _, 64, t, p, reads_of (by decide +kernel), h, all_ready_of hp⟩

theorem witness_LoadForms_acquire : ∃ (x : LdAcq) (s : State) (b : _) (t : _) (p : _), OnScalar s ∧ Reads s x.a.val b
    ∧ Translates s (b + x.off.signExtend 64 * word (2 ^ x.size.val)) (2 ^ x.size.val) .r (2 ^ x.size.val == 8) t p ∧ Ready t x.t.val := by
  obtain ⟨t, p, h, hp⟩ := translates_of (s := mapped 64 0 0) (va := 64 + (-1 : BitVec 8).signExtend 64 * word 4) (n := 4) (need := .r) (k := 4 == 8)
    (p := fun x => readyNow x.1 2) (by decide +kernel)
  exact ⟨⟨-1, 5, true, true, 2, 1, 2⟩, _, 64, t, p, by unfold OnScalar; decide +kernel, reads_of (by decide +kernel), h, ready_of hp⟩

theorem witness_LoadForms_data : ∃ (s : State) (q : Nat) (l : Load) (u : State) (v : Nat), l.probe = none ∧ l.acq = none
    ∧ readHere s q l.ord l.x l.n = .ok (u, v) := by
  obtain ⟨⟨u, v⟩, h, -⟩ := ok_of (x := readHere State.reset 0 0 { pa := 0x5FC0000000, grain := 1 } 4) (p := fun _ => true) (by decide +kernel)
  exact ⟨State.reset, 0, ⟨1, 0, { pa := 0x5FC0000000, grain := 1 }, 4, false, false, none, 0, 0, {}, 0, none⟩, u, v, rfl, rfl, h⟩

theorem witness_LoadForms_at_core : cachedAt State.reset 0 { host := true } = none ∧ (3 : Nat) ≠ 0 := ⟨by decide +kernel, by decide⟩

/-- A word of core 0 that has not reached its die point. -/
theorem witness_LoadForms_wider : ∃ (s : State) (x : Xl) (a : Nat) (t : State), (2 : Nat) ≤ 2 ∧ cachedAt s 0 x = some a
    ∧ registerWords s (0 / 4) (wordsOf a 4) = .ok t := by
  obtain ⟨t, h, -⟩ := ok_of (x := registerWords (enterBytes State.reset 0 0x1000 4 7 1 0 0) (0 / 4) (wordsOf 0x1000 4)) (p := fun _ => true) (by decide +kernel)
  exact ⟨enterBytes State.reset 0 0x1000 4 7 1 0 0, { pa := 0x1000, grain := 1 }, 0x1000, t, by decide, by decide +kernel, h⟩

theorem witness_LoadForms_acquired : ∃ (s : State) (l : Load) (u : State) (v : Nat), l.probe = none ∧ l.acq = some 5
    ∧ acquireRead s 0 l.ord l.x l.n 5 = .ok (u, v) := by
  obtain ⟨⟨u, v⟩, h, -⟩ := ok_of (x := acquireRead State.reset 0 0 { pa := 0x5FC0000000, grain := 1 } 4 5) (p := fun _ => true) (by decide +kernel)
  exact ⟨State.reset, ⟨1, 0, { pa := 0x5FC0000000, grain := 1 }, 4, true, false, some 5, 0, 0, {}, 0, none⟩, u, v, rfl, rfl, h⟩

theorem witness_LoadForms_halves : ∃ l m : Load, (l.x.host = true ∨ l.x.dev ≠ 0) ∧ l.n = 16 ∧ (m.x.host = true ∨ m.x.dev ≠ 0) ∧ m.n = 16 :=
  ⟨⟨2, 0, { host := true }, 16, false, true, none, 0, 0, {}, 0, none⟩, ⟨2, 0, { dev := 1 }, 16, false, true, none, 0, 0, {}, 0, none⟩, .inl rfl, rfl,
    .inr (by decide), rfl⟩

/-- Two stores held, the second over one byte of the first. -/
def storing : State :=
  let h := fun (pa n v ord : Nat) => ({ op := .store 0 { pa := pa, grain := 1 } n v, ipc := 0, word := 0, snap := {}, ord := ord } : Held)
  (ahead State.reset).withC { State.reset.c with sb := [h 0x1000 8 0x1122334455667788 0, h 0x1003 1 0xFF 1], ord := 2 }

theorem witness_LoadForwarding : ∃ (s : State) (q : Nat) (x : Xl) (n : Nat) (u : State) (m : Nat), x.ctl = false
    ∧ accRead (fillPiece s q x) ((fillPiece s q x).agent q) x n = .ok (u, m) ∧ (s.ctx q).sb.length = 2 := by
  obtain ⟨⟨u, m⟩, h, -⟩ := ok_of (x := accRead (fillPiece storing 0 { pa := 0x1000, grain := 1 }) ((fillPiece storing 0 { pa := 0x1000, grain := 1 }).agent 0)
    { pa := 0x1000, grain := 1 } 8) (p := fun _ => true) (by decide +kernel)
  exact ⟨storing, 0, { pa := 0x1000, grain := 1 }, 8, u, m, rfl, h, by decide +kernel⟩

theorem witness_StoresHeld : ∃ (x : LdSt) (s : State) (b : _) (v : _) (t : _) (p : _), Reads s x.a.val b ∧ Reads s x.t.val v
    ∧ Translates s (b + x.off.signExtend 64 * word 8) 8 .w (8 == 8) t p ∧ Ahead t := by
  obtain ⟨t, p, h, hp⟩ := translates_of (s := ahead (mapped 64 9 0)) (va := 64 + (-1 : BitVec 11).signExtend 64 * word 8) (n := 8) (need := .w) (k := 8 == 8)
    (p := fun x => !x.1.c.laneOn && !x.1.lockstep && decide (x.1.c.sb.length < 16)) (by decide +kernel)
  simp only [Bool.and_eq_true, Bool.not_eq_true', decide_eq_true_eq] at hp
  exact ⟨⟨-1, true, 1, 2⟩, _, 64, 9, t, p, reads_of (by decide +kernel), reads_of (by decide +kernel), h, hp.1.1, hp.1.2, hp.2⟩

theorem witness_StoresHeld_step : ∃ (s : State) (t : State) (p : _) (r : _), Translates s 8 8 .w true t p ∧ InStep t
    ∧ perform (heldState t (.store 8 p 8 9) 0x60011 [] Ctx.advance) t.cur (heldAs t (.store 8 p 8 9) 0x60011) = .ok r := by
  obtain ⟨t, p, h, hp⟩ := translates_of (s := mapped 64 9 0) (va := 8) (n := 8) (need := .w) (k := true)
    (p := fun x => !x.1.c.laneOn && x.1.lockstep
      && okIs (perform (heldState x.1 (.store 8 x.2 8 9) 0x60011 [] Ctx.advance) x.1.cur (heldAs x.1 (.store 8 x.2 8 9) 0x60011)) fun _ => true)
    (by decide +kernel)
  simp only [Bool.and_eq_true, Bool.not_eq_true'] at hp
  obtain ⟨r, hr, -⟩ := ok_of hp.2
  exact ⟨_, t, p, r, h, hp.1, hr⟩

theorem witness_StoresHeld_pair : ∃ (x : LdSt) (s : State) (b : _) (v : _) (v1 : _) (t : _) (p : _), Reads s x.a.val b ∧ Reads s x.t.val v
    ∧ Reads s (x.t.val + 1) v1 ∧ Translates s (b + x.off.signExtend 64 * 16) 16 .w false t p := by
  obtain ⟨t, p, h, -⟩ := translates_of (s := mapped 64 9 8) (va := 64 + (1 : BitVec 11).signExtend 64 * 16) (n := 16) (need := .w) (k := false)
    (p := fun _ => true) (by decide +kernel)
  exact ⟨⟨1, true, 1, 2⟩, _, 64, 9, 8, t, p, reads_of (by decide +kernel), reads_of (by decide +kernel), reads_of (by decide +kernel), h⟩

theorem witness_StoresHeld_release : ∃ (x : StRel) (s : State) (b : _) (v : _) (t : _) (p : _), OnScalar s ∧ Reads s x.a.val b ∧ Reads s x.t.val v
    ∧ Translates s (b + x.off.signExtend 64 * word (2 ^ x.size.val)) (2 ^ x.size.val) .w (2 ^ x.size.val == 8) t p := by
  obtain ⟨t, p, h, -⟩ := translates_of (s := mapped 64 9 8) (va := 64 + (1 : BitVec 8).signExtend 64 * word 2) (n := 2) (need := .w) (k := 2 == 8)
    (p := fun _ => true) (by decide +kernel)
  exact ⟨⟨1, 4, true, 1, 1, 2⟩, _, 64, 9, t, p, by unfold OnScalar; decide +kernel, reads_of (by decide +kernel), reads_of (by decide +kernel), h⟩

theorem witness_AtomicsHeld : ∃ (x : AmoF) (s : State) (a : _) (b : _) (t : _) (p : _), Reads s x.a.val a ∧ Reads s x.b.val b ∧ Translates s a 8 .rw false t p
    ∧ Ready t x.d.val := by
  obtain ⟨t, p, h, hp⟩ := translates_of (s := mapped 64 9 8) (va := 64) (n := 8) (need := .rw) (k := false) (p := fun x => readyNow x.1 1) (by decide +kernel)
  exact ⟨⟨true, true, 6, true, 2, 1, 1⟩, _, 64, 9, t, p, reads_of (by decide +kernel), reads_of (by decide +kernel), h, ready_of hp⟩

theorem witness_AtomicsHeld_cas : ∃ (x : CasF) (s : State) (a : _) (b : _) (c : _) (b1 : _) (c1 : _) (t : _) (p : _), Reads s x.a.val a ∧ Reads s x.b.val b
    ∧ Reads s x.c.val c ∧ Reads s (x.b.val + 1) b1 ∧ Reads s (x.c.val + 1) c1 ∧ Translates s a 16 .rw false t p ∧ AllReady t [x.d.val, x.d.val + 1] := by
  obtain ⟨t, p, h, hp⟩ := translates_of (s := mapped 64 9 8) (va := 64) (n := 16) (need := .rw) (k := false) (p := fun x => [30, 31].all (readyNow x.1))
    (by decide +kernel)
  exact ⟨⟨true, 6, 4, 2, 1, 30⟩, _, 64, 9, 0, 8, 0, t, p, reads_of (by decide +kernel), reads_of (by decide +kernel), reads_of (by decide +kernel),
    reads_of (by decide +kernel), reads_of (by decide +kernel), h, all_ready_of hp⟩

theorem witness_OrderingFormsHeld : ∃ (x : ScopeA) (s : State) (a : _) (t : _) (p : _), OnScalar s ∧ Reads s x.a.val a ∧ Translates s a 1 .r false t p := by
  obtain ⟨t, p, h, -⟩ := translates_of (s := mapped 65 9 8) (va := 65) (n := 1) (need := .r) (k := false) (p := fun _ => true) (by decide +kernel)
  exact ⟨⟨true, 5, 1⟩, _, 65, t, p, by unfold OnScalar; decide +kernel, reads_of (by decide +kernel), h⟩

theorem witness_OrderingFormsHeld_write : ∃ (x : ScopeA) (s : State) (a : _) (t : _) (p : _), OnScalar s ∧ Reads s x.a.val a ∧ Translates s a 1 .w false t p := by
  obtain ⟨t, p, h, -⟩ := translates_of (s := mapped 65 9 8) (va := 65) (n := 1) (need := .w) (k := false) (p := fun _ => true) (by decide +kernel)
  exact ⟨⟨true, 5, 1⟩, _, 65, t, p, by unfold OnScalar; decide +kernel, reads_of (by decide +kernel), h⟩

theorem witness_OrderingFormsHeld_arrive : ∃ (x : BarF) (s : State) (a : _) (b : _) (t : _) (p : _), OnScalar s ∧ Reads s x.a.val a ∧ Reads s x.b.val b
    ∧ Translates s a 8 .rw false t p ∧ Ready t x.d.val := by
  obtain ⟨t, p, h, hp⟩ := translates_of (s := mapped 64 9 8) (va := 64) (n := 8) (need := .rw) (k := false) (p := fun x => readyNow x.1 0) (by decide +kernel)
  exact ⟨⟨true, true, 6, 2, 1, 0⟩, _, 64, 9, t, p, by unfold OnScalar; decide +kernel, reads_of (by decide +kernel), reads_of (by decide +kernel), h, ready_of hp⟩

theorem witness_OrderingFormsHeld_stash : ∃ (x : Alu2) (s : State) (a : _) (b : _), OnScalar s ∧ Reads s x.a.val a ∧ Reads s x.b.val b ∧ Ready s x.d.val
    ∧ a.toNat % 512 = 0 :=
  ⟨⟨true, true, 2, 1, 3⟩, scal 512 7 0, 512, 7, by unfold OnScalar; decide +kernel, reads_of (by decide +kernel), reads_of (by decide +kernel),
    ready_of (by decide +kernel), by decide⟩

theorem witness_OrderingFormsHeld_misaligned : ∃ (x : Alu2) (s : State) (a : _) (b : _), OnScalar s ∧ Reads s x.a.val a ∧ Reads s x.b.val b ∧ Ready s x.d.val
    ∧ a.toNat % 512 ≠ 0 :=
  ⟨⟨true, true, 2, 1, 3⟩, scal 511 7 0, 511, 7, by unfold OnScalar; decide +kernel, reads_of (by decide +kernel), reads_of (by decide +kernel),
    ready_of (by decide +kernel), by decide⟩

theorem witness_OrderingFormsHeld_unmap : ∃ (x : StashB) (s : State) (b : _), OnScalar s ∧ Reads s x.b.val b ∧ Ready s x.d.val :=
  ⟨⟨true, 2, 0⟩, scal 512 7 0, 7, by unfold OnScalar; decide +kernel, reads_of (by decide +kernel), ready_of (by decide +kernel)⟩

theorem witness_OrderingFormsHeld_prefetch : ∃ (x : PrefF) (s : State) (a : _) (e : _) (f : _), OnScalar s ∧ Reads s x.a.val a
    ∧ scalarAccess s a 1 .r false = .error (.trap e f) := by
  have h : (match scalarAccess (scal 64 0 0) 64 1 .r false with
    | .error (.trap _ _) => true
    | _ => false) = true := by decide +kernel
  split at h
  · rename_i e f he; exact ⟨⟨true, 1⟩, _, 64, e, f, by unfold OnScalar; decide +kernel, reads_of (by decide +kernel), he⟩
  · cases h

theorem witness_OrderingFormsHeld_dropped : ∃ (x : PrefF) (s : State), Empty s x.a.val ∧ x.ea = true :=
  ⟨⟨true, 1⟩, hollow, ⟨by decide +kernel, by decide, by decide +kernel, by decide +kernel⟩, rfl⟩

theorem witness_OrderingFormsHeld_nowhere : ∃ (s t : State), InLane (lanes 0) ∧ perform s 0 ⟨.pref 2 0 none, 0, 0, {}, 0⟩ = .ok (t, []) :=
  ⟨State.reset, State.reset, by unfold InLane; decide +kernel, rfl⟩

/-! ### Performing, sleeping and the special registers -/

/-- Host page 0x10 of function 0 cached at frame 0x77, and a route to the peer one device on. -/
def linked : State :=
  { State.reset with
    atc := [{ fn := 0, pasid := 0, page := 0x10, hpa := 0x77, rights := { r := true, w := true }, vas := [0] }]
    link := { State.reset.link with portup := 1, route := [(1, 1)] } }

theorem witness_StoresPerformed_line : ∃ (s : State) (x : Xl) (u : State) (a : _) (g : _) (sl : _) (av : _) (t : State), x.ctl = false ∧ farPair x 8 = false
    ∧ resolve (fillPiece s 0 x) (s.agent 0) x .w = .ok (u, .line a g sl av) ∧ atOnce u a sl = false ∧ enterStore u (0 / 4) a 8 7 g sl av = .ok t := by
  obtain ⟨t, h, -⟩ := ok_of (x := enterStore State.reset (0 / 4) 0x1000 8 7 1 0 0) (p := fun _ => true) (by decide +kernel)
  exact ⟨State.reset, { pa := 0x1000, grain := 1 }, State.reset, 0x1000, 1, 0, 0, t, rfl, rfl, rfl, by decide +kernel, h⟩

theorem witness_StoresPerformed_at_once : ∃ (s : State) (x : Xl) (u : State) (a : _) (g : _) (sl : _) (av : _) (u1 : State) (t : State) (u2 : State), x.ctl = false
    ∧ farPair x 8 = false ∧ resolve (fillPiece s 0 x) (s.agent 0) x .w = .ok (u, .line a g sl av) ∧ atOnce u a sl = true ∧ placeReady u g a 8 = .ok u1
    ∧ atOnce u1 a sl = true ∧ enterStore u1 (0 / 4) a 8 7 g sl av = .ok t ∧ placeNow t (0 / 4) a 8 = .ok u2 := by
  obtain ⟨u1, h1, hp⟩ := ok_of (x := placeReady State.reset 1 0x1000 8)
    (p := fun u => atOnce u 0x1000 3 && okIs (enterStore u (0 / 4) 0x1000 8 7 1 3 0) fun t => okIs (placeNow t (0 / 4) 0x1000 8) fun _ => true) (by decide +kernel)
  simp only [Bool.and_eq_true] at hp
  obtain ⟨t, h2, hp2⟩ := ok_of hp.2
  obtain ⟨u2, h3, -⟩ := ok_of hp2
  exact ⟨State.reset, { pa := 0x1000, grain := 1, slot := 3 }, State.reset, 0x1000, 1, 3, 0, u1, t, u2, rfl, rfl, rfl, by decide +kernel, h1, hp.1, h2, h3⟩

theorem witness_StoresPerformed_plain : ∃ (s : State) (x : Xl) (u : State) (a : Nat), x.ctl = false ∧ farPair x 8 = false
    ∧ resolve (fillPiece s 0 x) (s.agent 0) x .w = .ok (u, .plain a) :=
  ⟨linked, { pa := 0x10008, host := true }, linked, 0x77008, rfl, rfl, rfl⟩

/-- Under slot 0, and under slot 3 on a line that is not yet in state W. -/
theorem witness_StoresPerformed_peer : ∃ (s : State) (x y : Xl) (u : State) (k : Nat) (l m : Option Nat) (u1 u2 : State), x.ctl = false ∧ farPair x 8 = false
    ∧ resolve (fillPiece s 0 x) (s.agent 0) x .w = .ok (u, .peer k l) ∧ peerWrite u l = .ok u1 ∧ timedOut u (.seq 0) = false
    ∧ resolve (fillPiece s 0 y) (s.agent 0) y .w = .ok (u, .peer k m) ∧ peerWrite u m = .ok u2 :=
  ⟨linked, { pa := 0x1000, dev := 1 }, { pa := 0x1000, dev := 1, slot := 3 }, linked, peerKey 1 0x1000, none, some (grainBase 0 (peerKey 1 0x1000)), _, _,
    rfl, rfl, rfl, rfl, rfl, rfl, rfl⟩

theorem witness_StoresPerformed_halves : farPair { host := true } 16 = true ∧ farPair { dev := 1 } 16 = true := by decide

theorem witness_StoresPerformed_enters : State.reset.reg.length < l1Words ∧ flipping State.reset 0x1008 = false
    ∧ splitStore State.reset 511 0x1008 8 = false := by
  refine ⟨?_, ?_, ?_⟩ <;> decide +kernel

theorem witness_StoresPerformed_frame : ∃ (s : State) (core a n b : Nat), a + n < 2 ^ 56 ∧ core < 512 ∧ 0 < n
    ∧ (∀ i < n, engineHolds s ((a + i) / 4 * 4) = false ∧ flipping s ((a + i) / 4 * 4) = false) ∧ b < 2 ^ 56 ∧ a + n ≤ b
    ∧ (∀ r, find s.reg (unitKey core (b / 4 * 4)) = some r → r.registered = true)
    ∧ (find s.reg (unitKey core (b / 4 * 4)) = none → find s.die (unitKey (coreDie core) (b / 4 * 4)) ≠ some (.core core)) :=
  ⟨State.reset, 511, 0x1002, 3, 0x1005, by decide, by decide, by decide, by decide +kernel, by decide, by decide, by decide +kernel, by decide +kernel⟩

theorem witness_UpdatesPerformed_peer : ∃ (s : State) (x : Xl) (p : Nat) (t u v : State), x.ctl = false ∧ x.host = false ∧ x.dev ≠ 0 ∧ slotCheck s x = .ok ()
    ∧ peerRoute s (.seq 0) x.dev true = .ok p ∧ timedOut s (.seq 0) = false ∧ peerWrite s (peerLine x) = .ok u
    ∧ releaseAt s 0 4 = .ok t ∧ slotCheck t x = .ok () ∧ peerRoute t (.seq 0) x.dev true = .ok p ∧ timedOut t (.seq 0) = false
    ∧ peerWrite t (peerLine x) = .ok v ∧ Memory.readN s.peerMem (peerKey p x.pa) 8 = 0 ∧ Memory.readN t.peerMem (peerKey p x.pa) 8 = 0 := by
  let x : Xl := { pa := 0x1000, dev := 1, slot := 3 }
  obtain ⟨t, h, hp⟩ := ok_of (x := releaseAt linked 0 4) (p := fun t => okIs (slotCheck t x) fun _ => okIs (peerRoute t (.seq 0) 1 true) fun p => p == 1
    && !timedOut t (.seq 0) && Memory.readN t.peerMem (peerKey 1 0x1000) 8 == 0 && okIs (peerWrite t (peerLine x)) fun _ => true) (by decide +kernel)
  obtain ⟨⟨⟩, h1, hp⟩ := ok_of hp
  obtain ⟨p, h2, hp⟩ := ok_of hp
  simp only [Bool.and_eq_true, beq_iff_eq, Bool.not_eq_true'] at hp
  obtain ⟨⟨⟨rfl, h3⟩, h4⟩, h5⟩ := hp
  obtain ⟨v, h6, -⟩ := ok_of h5
  obtain ⟨p, h7, hp⟩ := ok_of (x := peerRoute linked (.seq 0) 1 true) (p := (· == 1)) (by decide +kernel)
  cases eq_of_beq hp
  exact ⟨linked, x, 1, t, _, v, rfl, rfl, by decide, rfl, h7, by decide +kernel, rfl, h, h1, h2, h3, h6, by decide +kernel, h4⟩

/-- A word of device memory: amo, cas and bar.arr complete at its home. -/
theorem witness_UpdatesPerformed_device : ∃ (s : State) (x : Xl) (t u v w : State) (a b c : Nat), x.ctl = false ∧ x.host = false ∧ x.dev = 0
    ∧ slotCheck s x = .ok () ∧ asksHost s x = false ∧ releaseAt s 0 4 = .ok t ∧ slotCheck t x = .ok () ∧ asksHost t x = false
    ∧ homeUpdate t (0 / 4) x.pa 8 x.grain x.slot 4 (fun old => some (amoResult .add 8 old 5)) = .ok (u, a)
    ∧ homeUpdate t (0 / 4) x.pa 8 x.grain x.slot 4 (fun old => if old = 0 then some 9 else none) = .ok (v, b)
    ∧ homeUpdate t (0 / 4) x.pa 8 x.grain x.slot 4 (fun w => arriveWord w 1) = .ok (w, c) := by
  obtain ⟨t, h, hp⟩ := ok_of (x := releaseAt State.reset 0 4) (p := fun t => okIs (slotCheck t { pa := 0x1000 }) fun _ => !asksHost t { pa := 0x1000 }
    && okIs (homeUpdate t 0 0x1000 8 0 0 4 fun old => some (amoResult .add 8 old 5)) (fun _ => true)
    && okIs (homeUpdate t 0 0x1000 8 0 0 4 fun old => if old = 0 then some 9 else none) (fun _ => true)
    && okIs (homeUpdate t 0 0x1000 8 0 0 4 fun w => arriveWord w 1) fun _ => true) (by decide +kernel)
  obtain ⟨⟨⟩, h1, hp⟩ := ok_of hp
  simp only [Bool.and_eq_true, Bool.not_eq_true'] at hp
  obtain ⟨⟨⟨h2, h3⟩, h4⟩, h5⟩ := hp
  obtain ⟨⟨u, a⟩, h3, -⟩ := ok_of h3
  obtain ⟨⟨v, b⟩, h4, -⟩ := ok_of h4
  obtain ⟨⟨w, c⟩, h5, -⟩ := ok_of h5
  exact ⟨State.reset, { pa := 0x1000 }, t, u, v, w, a, b, c, rfl, rfl, rfl, rfl, by decide +kernel, h, h1, h2, h3, h4, h5⟩

/-- What a home does: the words are taken, read and placed. -/
theorem witness_UpdatesPerformed_home : ∃ (s t r y : State) (old : Nat) (b : Bool), 0x1000 < hostTag ∧ poisoned s 0x1000 8 = false
    ∧ ((List.range (8 / 4)).map fun i => 0x1000 + 4 * i).foldlM (fun s w => dieTake s 511 w) s = .ok t
    ∧ readWords (fun s w => dieRead s (coreDie 511) w 1 0) (((List.range (8 / 4)).map fun i => 0x1000 + 4 * i).foldl (fun s w => flushWord s (coreDie 511) w) t)
        0x1000 (8 / 4) = .ok (r, old)
    ∧ placeGroup r (coreDie 511) 1 0 ((List.range (8 / 4)).map fun i => (0x1000 + 4 * i, BitVec.ofNat 32 (7 / 2 ^ (32 * i)))) none (decide (4 ≤ 4)) = .ok (y, b) := by
  obtain ⟨t, h, hp⟩ := ok_of (x := ((List.range (8 / 4)).map fun i => 0x1000 + 4 * i).foldlM (fun s w => dieTake s 511 w) State.reset)
    (p := fun t => okIs (readWords (fun s w => dieRead s (coreDie 511) w 1 0) (((List.range (8 / 4)).map fun i => 0x1000 + 4 * i).foldl
      (fun s w => flushWord s (coreDie 511) w) t) 0x1000 (8 / 4)) fun r => okIs (placeGroup r.1 (coreDie 511) 1 0 ((List.range (8 / 4)).map fun i =>
        (0x1000 + 4 * i, BitVec.ofNat 32 (7 / 2 ^ (32 * i)))) none (decide (4 ≤ 4))) fun _ => true) (by decide +kernel)
  obtain ⟨⟨r, old⟩, h1, hp⟩ := ok_of hp
  obtain ⟨⟨y, b⟩, h2, -⟩ := ok_of hp
  exact ⟨State.reset, t, r, y, old, b, by decide, by decide +kernel, h, h1, h2⟩

/-- Die 7 holds the line of 0x1000, which nobody owns. -/
def shared7 : State := { State.reset with lines := [(0x1000, { grain := 0, slot := 0, state := 1, holders := 0x80, owner := none, version := 0 })] }

theorem witness_UpdatesPerformed_placed : ∃ (l : Line) (t : State) (b : Bool), shared7.memOk ∧ find shared7.lines (grainBase 0 0x101C) = some l ∧ l.owner = none
    ∧ holds shared7 7 0x101C 0 0 = true ∧ shared7.idq = [] ∧ ([(0x101C, (7 : BitVec 32))].map (·.1) = (List.range 1).map (fun i => 0x101C + 4 * i))
    ∧ 0x101C + 4 * 1 ≤ grainBase 0 0x101C + grainBytes 0 ∧ (∀ c, find shared7.die (unitKey 7 0x101C) ≠ some (.core c))
    ∧ placeGroup shared7 7 0 0 [(0x101C, 7)] none true = .ok (t, b) := by
  obtain ⟨⟨t, b⟩, h, -⟩ := ok_of (x := placeGroup shared7 7 0 0 [(0x101C, 7)] none true) (p := fun _ => true) (by decide +kernel)
  have hd : find shared7.die (unitKey 7 0x101C) = none := by decide +kernel
  exact ⟨_, t, b, ⟨by decide, by decide, by decide⟩, by rfl, rfl, by decide +kernel, rfl, rfl, by decide, by simp [hd], h⟩

theorem witness_UpdatesPerformed_read : ∃ s t : State, dieTake s 511 0x1000 = .ok t ∧ engineHolds shared7 0x1000 = false ∧ flipping shared7 0x1000 = false
    ∧ find shared7.die (unitKey 7 0x1000) = none ∧ holds shared7 7 0x1000 0 0 = true
    ∧ find ({ shared7 with die := [(unitKey 7 0x1000, .value 5)] } : State).die (unitKey 7 0x1000) = some (.value 5) := by
  obtain ⟨t, h, -⟩ := ok_of (x := dieTake State.reset 511 0x1000) (p := fun _ => true) (by decide +kernel)
  exact ⟨State.reset, t, h, by decide +kernel, by decide +kernel, by decide +kernel, by decide +kernel, by decide +kernel⟩

theorem witness_UpdatesPerformed_requests : ∃ (s : State) (x : Xl) (u : State) (a : Nat), x.host = true ∧ x.ctl = false ∧ slotCheck s x = .ok ()
    ∧ coherent s (s.pnum 0) = false ∧ s.link.atomicEnable = true ∧ atomOk s (.seq 0) 8 = .ok ()
    ∧ atsLookup s (.seq 0) (fnOf (s.pnum 0)) (s.ctx 0).space.toNat x.pa x.va .rw = .ok (u, a) := by
  let s : State := { linked with link := { linked.link with atomicEnable := true } }
  obtain ⟨⟨u, a⟩, h, -⟩ := ok_of (x := atsLookup s (.seq 0) (fnOf (s.pnum 0)) (s.ctx 0).space.toNat 0x10008 0 .rw) (p := fun _ => true) (by decide +kernel)
  exact ⟨s, { pa := 0x10008, host := true }, u, a, rfl, rfl, rfl, by decide +kernel, rfl, rfl, h⟩

theorem witness_UpdatesPerformed_compare : Memory.readN linked.peerMem (peerKey 1 0x1000) 8 = 0 ∧ Memory.readN linked.peerMem (peerKey 1 0x1000) 16 ≠ 1 := by
  constructor <;> decide +kernel

/-- A line not in state W, and one in it. -/
theorem witness_UpdatesPerformed_worn : (64 ∉ State.reset.peerW) ∧ 64 ∈ ({ State.reset with peerW := [64] } : State).peerW := by
  constructor <;> decide +kernel

theorem witness_UpdatesPerformed_host : ∃ (s : State) (x : Xl) (o : AmoOp), x.ctl = false ∧ x.host = true ∧ coherent s (s.pnum 0) = false
    ∧ slotCheck s x = .ok () ∧ o ≠ .add ∧ o ≠ .swap :=
  ⟨State.reset, { host := true }, .maxu, rfl, rfl, rfl, rfl, by decide, by decide⟩

theorem witness_UpdatesPerformed_arrive : (2 ^ 64 - 1 < 2 ^ 64 ∧ 2 ^ 32 - 1 < 2 ^ 32) ∧ (0 : Nat) < 2 ^ 32 := by decide

theorem witness_ResultsDelivered : ∃ (s : State) (h : Held) (r : _) (t : _) (rs : _), (s.ctx 0).sb = h :: r ∧ (s.ctx 0).mayPerform h = true
    ∧ perform s 0 h.halves.1 = .ok (t, rs) := by
  obtain ⟨⟨t, rs⟩, h, -⟩ := ok_of (x := perform storing 0 (storing.c.sb.headD ⟨.tdone, 0, 0, {}, 0⟩).halves.1) (p := fun _ => true) (by decide +kernel)
  exact ⟨storing, _, storing.c.sb.drop 1, t, rs, by rfl, by decide +kernel, h⟩

/-- A load outstanding behind the two held stores. -/
def loading : State := storing.withC { storing.c with loads := [⟨1, 0, { pa := 0x1000, grain := 1 }, 8, false, false, none, 0, 0, {}, 2, none⟩] }

theorem witness_ResultsDelivered_load : ∃ (s : State) (l : Load) (t : _) (rs : _), (s.ctx 0).loads[0]? = some l ∧ (s.ctx 0).mayRead l.ord l.x l.n = true
    ∧ (s.ctx 0).acquireWaits l = false ∧ loadData s 0 l.halves.1 = .ok (t, rs) := by
  obtain ⟨⟨t, rs⟩, h, -⟩ := ok_of (x := loadData loading 0 (Load.mk 1 0 { pa := 0x1000, grain := 1 } 8 false false none 0 0 {} 2 none).halves.1)
    (p := fun _ => true) (by decide +kernel)
  exact ⟨loading, _, t, rs, by decide +kernel, by decide +kernel, by decide +kernel, h⟩

theorem witness_ResultsDelivered_probe : ∃ (l : Load) (t : State) (rs : _), l.probe.isSome = true ∧ loadData State.reset 0 l.halves.1 = .ok (t, rs) := by
  obtain ⟨⟨t, rs⟩, h, -⟩ := ok_of (x := loadData State.reset 0 (Load.mk 1 64 {} 0 false false none 0 0 {} 2 (some 3)).halves.1) (p := fun _ => true) (by decide +kernel)
  exact ⟨_, t, rs, rfl, h⟩

/-- The current sequencer asleep, register `d` empty. -/
def slept (t : State) (d : Nat) (w : Wait) : State := t.withC { t.c.empty d with wait := some w }

/-- A sequencer whose sleep has translated anew. -/
def reslept (t : State) (q : Nat) (w : Wait) : State := t.setCtx q { t.ctx q with wait := some w }

/-- waita on the word 0x56 at address 0, against `b`, with a limit `c` on. -/
theorem witness_Sleepers_waita : ∃ (x : WaitaF) (s : State) (t : State) (p : Xl) (u1 : State) (p1 : Xl) (u' : State) (v : Nat), OnScalar s ∧ Reads s x.a.val 0
    ∧ Reads s x.b.val 0x56 ∧ Reads s x.c.val 0 ∧ Ready s x.d.val ∧ Translates s 0 8 .r true t p
    ∧ (let sleeps := fun (y : Xl) => Wait.waita x.d.val x.cond.val 0 y 0x56 (some (t.time + 0))
       let u := slept t x.d.val (sleeps p)
       accessPlace u t.cur (u.ctx t.cur).sc.pc 0 .r true = .ok (u1, p1)
       ∧ (let w := reslept u1 t.cur (sleeps p1)
          (w.ctx t.cur).mayRead (u.ctx t.cur).ord p1 8 = true ∧ readHere (watchAnew w t.cur p1) t.cur (u.ctx t.cur).ord p1 8 = .ok (u', v) ∧ word v = 0x56)) := by
  let sleeps := fun (t : State) (y : Xl) => Wait.waita 4 0 0 y 0x56 (some (t.time + 0))
  obtain ⟨t, p, h, hp⟩ := translates_of (s := mapped 0 0x56 0) (va := 0) (n := 8) (need := .r) (k := true)
    (p := fun y => let u := slept y.1 4 (sleeps y.1 y.2)
      okIs (accessPlace u y.1.cur (u.ctx y.1.cur).sc.pc 0 .r true) fun z => let w := reslept z.1 y.1.cur (sleeps y.1 z.2)
        (w.ctx y.1.cur).mayRead (u.ctx y.1.cur).ord z.2 8 && okIs (readHere (watchAnew w y.1.cur z.2) y.1.cur (u.ctx y.1.cur).ord z.2 8) fun r => word r.2 == 0x56) (by decide +kernel)
  obtain ⟨⟨u1, p1⟩, h1, hp1⟩ := ok_of hp
  simp only [Bool.and_eq_true] at hp1
  obtain ⟨⟨u', v⟩, hr, hv⟩ := ok_of hp1.2
  exact ⟨⟨true, 0, 3, 2, 1, 4⟩, mapped 0 0x56 0, t, p, u1, p1, u', v, by unfold OnScalar; decide +kernel, reads_of (by decide +kernel), reads_of (by decide +kernel),
    reads_of (by decide +kernel), ready_of (by decide +kernel), h, h1, hp1.1, hr, eq_of_beq hv⟩

/-- The limits of waita: none, and reached at once. -/
theorem witness_Sleepers_limits : (BitVec.allOnes 64 = (0xFFFFFFFFFFFFFFFF : Word)) ∧ (0 : Word) ≠ BitVec.allOnes 64 := by decide

/-- The words of `mapped` as host memory, through a leaf with H that a window covers. -/
def hosted : State :=
  let s := mapped 0 7 0
  let s := s.setPart 0 { s.part 0 with windows := vset (s.part 0).windows 1 (3, 0x5FFFFFF000) }
  { placeBytes s ((tableFrame + 2) * 4096) 8 (codeBase + 0x80F + 2 ^ 62) with tlb := [] }

/-- bar.wait at a scope on the word at address 0 with generation `n`: what the read and, past the generation, the acquire's read give. -/
def barReads (s : State) (n : BitVec 16) (sc : Nat) (p : Nat → Except MErr (State × Nat) → Bool) : Bool :=
  okIs (scalarAccess s 0 8 .r false) fun y =>
    let u := slept y.1 4 (.bar 4 0 y.2 n sc false)
    okIs (accessPlace u y.1.cur (u.ctx y.1.cur).sc.pc 0 .r false) fun z =>
      let w := reslept z.1 y.1.cur (.bar 4 0 z.2 n sc false)
      (!z.2.host || coherent w (w.pnum y.1.cur)) && (w.ctx y.1.cur).mayRead (u.ctx y.1.cur).ord z.2 8
        && okIs (readHere (watchAnew w y.1.cur z.2) y.1.cur (u.ctx y.1.cur).ord z.2 8) fun r =>
          !(r.1.ctx y.1.cur).ownAhead (u.ctx y.1.cur).ord z.2 8 sc && p r.2 (acquireRead r.1 y.1.cur (u.ctx y.1.cur).ord z.2 8 sc)

/-- Generation 0 stands in the word; generation 7 does not; and where the die point holds generation 6 of a host line, whose
invalidation is on its way, the acquire alone finds 7. -/
theorem witness_Sleepers_bar : barReads (mapped 0 0 0) 0 4 (fun v _ => BitVec.ofNat 16 (v / 2 ^ 32) == 0) = true
    ∧ barReads (mapped 0 7 0) 7 4 (fun v r => BitVec.ofNat 16 (v / 2 ^ 32) != 7 && okIs r fun y => BitVec.ofNat 16 (y.2 / 2 ^ 32) != 7) = true
    ∧ barReads { hosted with
        link := { hosted.link with hcoh := 1 }, hostMem := Memory.writeN [] (codeBase + 4) 4 7
        cxl := { hosted.cxl with cache := true, hostLines := [(hostTag + codeBase, .s)] }
        die := [(unitKey 0 (hostTag + codeBase), .value 0x56), (unitKey 0 (hostTag + codeBase + 4), .value 6)]
        idq := [{ src := 0, dst := 0, addr := hostTag + codeBase, update := none, len := 32, ver := 0 }] } 7 5
      (fun v r => BitVec.ofNat 16 (v / 2 ^ 32) != 7 && okIs r fun y => BitVec.ofNat 16 (y.2 / 2 ^ 32) == 7) = true := by
  refine ⟨?_, ?_, ?_⟩ <;> decide +kernel

theorem witness_Sleepers_host : ∃ (s t u1 : State) (p p1 : Xl), Translates s 0 8 .r false t p
    ∧ (let sleeps := fun (y : Xl) => Wait.bar 4 0 y 7 4 false
       let u := slept t 4 (sleeps p)
       accessPlace u t.cur (u.ctx t.cur).sc.pc 0 .r false = .ok (u1, p1) ∧ p1.host = true
       ∧ (let w := reslept u1 t.cur (sleeps p1)
          coherent w (w.pnum t.cur) = false)) := by
  let sleeps := fun (y : Xl) => Wait.bar 4 0 y 7 4 false
  obtain ⟨t, p, h, hp⟩ := translates_of (s := hosted) (va := 0) (n := 8) (need := .r) (k := false)
    (p := fun y => let u := slept y.1 4 (sleeps y.2)
      okIs (accessPlace u y.1.cur (u.ctx y.1.cur).sc.pc 0 .r false) fun z => z.2.host
        && let w := reslept z.1 y.1.cur (sleeps z.2); !coherent w (w.pnum y.1.cur)) (by decide +kernel)
  obtain ⟨⟨u1, p1⟩, h1, hp1⟩ := ok_of hp
  simp only [Bool.and_eq_true, Bool.not_eq_true'] at hp1
  exact ⟨hosted, t, u1, p, p1, h, h1, hp1.1, hp1.2⟩

theorem witness_Sleepers_host_arrive : ∃ (s t : State) (x : Xl), x.host = true ∧ releaseAt s 0 4 = .ok t ∧ slotCheck t x = .ok () ∧ coherent t (t.pnum 0) = false := by
  obtain ⟨t, h, hp⟩ := ok_of (x := releaseAt State.reset 0 4) (p := fun t => okIs (slotCheck t { host := true }) fun _ => !coherent t (t.pnum 0)) (by decide +kernel)
  obtain ⟨⟨⟩, h1, hp⟩ := ok_of hp
  exact ⟨State.reset, t, { host := true }, rfl, h, h1, by simpa using hp⟩

theorem witness_Sleepers_operands : ∃ (x : BarF) (s : State), OnScalar s ∧ Reads s x.a.val 0 ∧ Reads s x.b.val 7 ∧ Ready s x.d.val :=
  ⟨⟨true, true, 4, 2, 1, 4⟩, mapped 0 7 0, by unfold OnScalar; decide +kernel, reads_of (by decide +kernel), reads_of (by decide +kernel),
    ready_of (by decide +kernel)⟩

/-- bar.aw, running ahead, and in step with its arrival performed. -/
theorem witness_Sleepers_arrive : ∃ (x : BarF) (t : State) (p : Xl), Translates (ahead (mapped 0 7 0)) 0 8 .rw false t p ∧ t.c.awDone = false ∧ Ready t x.d.val
    ∧ Ahead t ∧ t.c.wait = none := by
  obtain ⟨t, p, h, hp⟩ := translates_of (s := ahead (mapped 0 7 0)) (va := 0) (n := 8) (need := .rw) (k := false)
    (p := fun y => !y.1.c.awDone && readyNow y.1 4 && !y.1.c.laneOn && !y.1.lockstep && decide (y.1.c.sb.length < 16) && decide (y.1.c.wait = none))
    (by decide +kernel)
  simp only [Bool.and_eq_true, Bool.not_eq_true', decide_eq_true_eq] at hp
  exact ⟨⟨true, true, 4, 2, 1, 4⟩, t, p, h, hp.1.1.1.1.1, ready_of hp.1.1.1.1.2, ⟨hp.1.1.1.2, hp.1.1.2, hp.1.2⟩, hp.2⟩

theorem witness_Sleepers_arrive_step : ∃ (t : State) (p : Xl) (y : State) (rs : _), Translates (mapped 0 7 0) 0 8 .rw false t p ∧ t.c.awDone = false ∧ InStep t
    ∧ perform (heldState t (.barAw 0 p 7 4 4) 0x1000001B [4] id) t.cur (heldAs t (.barAw 0 p 7 4 4) 0x1000001B) = .ok (y, rs) := by
  obtain ⟨t, p, h, hp⟩ := translates_of (s := mapped 0 7 0) (va := 0) (n := 8) (need := .rw) (k := false)
    (p := fun y => !y.1.c.awDone && !y.1.c.laneOn && y.1.lockstep
      && okIs (perform (heldState y.1 (.barAw 0 y.2 7 4 4) 0x1000001B [4] id) y.1.cur (heldAs y.1 (.barAw 0 y.2 7 4 4) 0x1000001B)) fun _ => true)
    (by decide +kernel)
  simp only [Bool.and_eq_true, Bool.not_eq_true'] at hp
  obtain ⟨⟨y, rs⟩, hr, -⟩ := ok_of hp.2
  exact ⟨t, p, y, rs, h, hp.1.1.1, ⟨hp.1.1.2, hp.1.2⟩, hr⟩

theorem witness_Sleepers_arrived : ∃ (s : State) (t : State) (p : Xl), Translates s 0 8 .rw false t p ∧ t.c.awDone = true := by
  obtain ⟨t, p, h, hp⟩ := translates_of (s := (mapped 0 7 0).withC { (mapped 0 7 0).c with awDone := true }) (va := 0) (n := 8) (need := .rw) (k := false)
    (p := fun y => y.1.c.awDone) (by decide +kernel)
  exact ⟨_, t, p, h, hp⟩

theorem witness_Sleepers_perform : ∃ (t : State) (w : Nat), arrivePerform (mapped 0 7 0) 0 { pa := codeBase, grain := 1 } 7 4 = .ok (t, w) ∧ (7 : BitVec 32).toNat = 7 := by
  obtain ⟨⟨t, w⟩, h, -⟩ := ok_of (x := arrivePerform (mapped 0 7 0) 0 { pa := codeBase, grain := 1 } 7 4) (p := fun _ => true) (by decide +kernel)
  exact ⟨t, w, h, by decide⟩

theorem witness_SpecialReads : ∃ (x : RdSpr) (s : State), OnScalar s ∧ Ready s x.d.val ∧ x.spr.toNat = 0x061 ∧ s.c.sprBusy 0x061 = false :=
  ⟨⟨0x061, 0⟩, State.reset, by unfold OnScalar; decide +kernel, ready_of (by decide +kernel), by decide, by decide +kernel⟩

theorem witness_SpecialReads_absent : ∃ (x : RdSpr) (s : State), OnScalar s ∧ Ready s x.d.val ∧ readSpr s s.cur x.spr.toNat = none :=
  ⟨⟨0x062, 1⟩, State.reset, by unfold OnScalar; decide +kernel, ready_of (by decide +kernel), by decide +kernel⟩

theorem witness_SpecialWrites : ∃ (x : WrSpr) (s : State) (v : _), OnScalar s ∧ Reads s x.a.val v ∧ x.spr.toNat = 4 ∧ s.c.sprHolds 4 = false
    ∧ v.toNat % 8 < 6 ∧ tagKnown s.c.sc.cfgTag.toNat = true :=
  ⟨⟨4, true, 1⟩, scal 5 0 0, 5, by unfold OnScalar; decide +kernel, reads_of (by decide +kernel), by decide, by decide +kernel, by decide, by decide +kernel⟩

/-- A rounding mode that is none, and the index of an empty loop entry. -/
theorem witness_SpecialWrites_none : ∃ (x : WrSpr) (s : State) (v : _), OnScalar s ∧ Reads s x.a.val v ∧ 6 ≤ v.toNat % 8 ∧ x.spr = 4
    ∧ (vget s.c.sc.loops 5 {}).count = 0 ∧ (0x25 : BitVec 12).toNat = 0x020 + 5 ∧ s.c.sprHolds 0x25 = false :=
  ⟨⟨4, true, 1⟩, scal 15 0 0, 15, by unfold OnScalar; decide +kernel, reads_of (by decide +kernel), by decide, rfl, by decide +kernel, by decide, by decide +kernel⟩

theorem witness_SpecialWrites_tag : ∃ (x : WrSpr) (s : State) (v : _), OnScalar s ∧ Reads s x.a.val v ∧ tagKnown s.c.sc.cfgTag.toNat = false ∧ x.spr = 0
    ∧ s.c.sprHolds 0 = false :=
  ⟨⟨0, true, 1⟩, at0 fun c => { c with sc := { c.sc with cfgTag := 0x1F } }, 0, by unfold OnScalar; decide +kernel, reads_of (by decide +kernel),
    by decide +kernel, rfl, by decide +kernel⟩

theorem witness_SpecialWrites_loop : ∃ (s : State) (i : Nat), OnScalar s ∧ i < 6 ∧ (vget s.c.sc.loops i {}).count ≠ 0 :=
  ⟨deep, 5, by unfold OnScalar; decide +kernel, by decide, by decide +kernel⟩

theorem witness_VectorConfiguration : ∃ (x : VTag) (s : State), OnScalar s ∧ x.d.val + 2 ^ x.grp.val ≤ 32 :=
  ⟨⟨9, true, 3, 0x10, 24⟩, State.reset, by unfold OnScalar; decide +kernel, by decide⟩

theorem witness_VectorConfiguration_setvl : ∃ (x : SetVl) (s : State) (a : _), OnScalar s ∧ Reads s x.a.val a ∧ s.c.vqWritesVl = false ∧ Ready s x.d.val :=
  ⟨⟨3, 0x0A, true, 1, 1⟩, scal 10000 0 0, 10000, by unfold OnScalar; decide +kernel, reads_of (by decide +kernel), by decide +kernel, ready_of (by decide +kernel)⟩

/-! ### The vector queue -/

/-- Whether an instruction is accepted, with a property of what enters the queue. -/
noncomputable def accepts (i : Instr) (s : State) (p : VForm → VqEntry → Bool) : Bool :=
  match formOf i with
  | some f => okIs (accept s s.cur f s.pc (s.c.capture f)) (p f)
  | none => false

theorem accepts_of {i : Instr} {s : State} {p : VForm → VqEntry → Bool} (h : accepts i s p = true) :
    ∃ f e, formOf i = some f ∧ accept s s.cur f s.pc (s.c.capture f) = .ok e ∧ p f e = true := by
  unfold accepts at h
  cases hf : formOf i with
  | none => rw [hf] at h; cases h
  | some f =>
    rw [hf] at h
    obtain ⟨e, h1, h2⟩ := ok_of h
    exact ⟨f, e, rfl, h1, h2⟩

/-- Whether an instruction is accepted and may start at once. -/
noncomputable def begins (i : Instr) (s : State) (p : VForm → VqEntry → Bool) : Bool :=
  accepts i s fun f e => okIs (startCheck (acceptedState s e) s.cur e) (fun _ => true) && !headOutranked (acceptedState s e) s.cur && p f e

/-- The head just accepted may start, and no other of its core outranks it. -/
def Begins (s : State) (e : VqEntry) : Prop :=
  startCheck (acceptedState s e) s.cur e = .ok () ∧ headOutranked (acceptedState s e) s.cur = false

theorem begins_of {i : Instr} {s : State} {p : VForm → VqEntry → Bool} (h : begins i s p = true) :
    ∃ f e, formOf i = some f ∧ accept s s.cur f s.pc (s.c.capture f) = .ok e ∧ Begins s e ∧ p f e = true := by
  obtain ⟨f, e, h1, h2, h3⟩ := accepts_of h
  simp only [Bool.and_eq_true, Bool.not_eq_true'] at h3
  obtain ⟨u, hu, -⟩ := ok_of h3.1.1
  exact ⟨f, e, h1, h2, ⟨hu, h3.1.2⟩, h3.2⟩

/-- Whether an instruction has a form with a property. -/
def formIs (i : Instr) (p : VForm → Bool) : Bool :=
  match formOf i with
  | some f => p f
  | none => false

theorem form_of {i : Instr} {p : VForm → Bool} (h : formIs i p = true) : ∃ f, formOf i = some f ∧ p f = true := by
  unfold formIs at h
  cases hf : formOf i with
  | none => rw [hf] at h; cases h
  | some f => rw [hf] at h; exact ⟨f, rfl, h⟩

theorem witness_VectorAccepted : ∃ (i : Instr) (f : VForm) (s : State) (e : VqEntry), formOf i = some f ∧ s.lockstep = false
    ∧ accept s s.cur f s.pc (s.c.capture f) = .ok e := by
  obtain ⟨f, e, h1, h2, -⟩ := accepts_of (i := .vadd ⟨true, true, 7, 2, 1, 3⟩) (s := ahead (pair 0x11 0 0)) (p := fun _ _ => true) (by decide +kernel)
  exact ⟨_, f, _, e, h1, by decide +kernel, h2⟩

theorem witness_VectorChecks_past : ∃ (i : Instr) (f : VForm) (s : State), formOf i = some f ∧ OnScalar s ∧ f.runsPast (s.c.capture f).rows.val = true := by
  obtain ⟨f, h1, h2⟩ := form_of (i := .wsolveP ⟨false, false, 0, 31, 1, 0⟩) (p := fun f => f.runsPast (State.reset.c.capture f).rows.val) (by decide +kernel)
  exact ⟨_, f, State.reset, h1, by unfold OnScalar; decide +kernel, h2⟩

theorem witness_VectorChecks_shape : ∃ (i : Instr) (f : VForm) (s : State), formOf i = some f ∧ OnScalar s ∧ f.runsPast (s.c.capture f).rows.val = false
    ∧ s.c.vqWritesVl = false ∧ s.c.viq.length < 32 ∧ f.badShape (s.c.capture f).rows.val (s.c.capture f).cols.val = true := by
  let s := at0 fun c => { c with sc := { c.sc with rows := 3, cols := 2 } }
  obtain ⟨f, h1, h2⟩ := form_of (i := .wchol ⟨false, 1, false, 0, 0⟩)
    (p := fun f => !f.runsPast (s.c.capture f).rows.val && f.badShape (s.c.capture f).rows.val (s.c.capture f).cols.val) (by decide +kernel)
  simp only [Bool.and_eq_true, Bool.not_eq_true'] at h2
  exact ⟨_, f, s, h1, by unfold OnScalar; decide +kernel, h2.1, by decide +kernel, by decide +kernel, h2.2⟩

theorem witness_VectorChecks_tag : ∃ (i : Instr) (f : VForm) (s : State), formOf i = some f ∧ OnScalar s ∧ f.runsPast (s.c.capture f).rows.val = false
    ∧ f.badShape (s.c.capture f).rows.val (s.c.capture f).cols.val = false
    ∧ f.regsOk (s.c.capture f).cfg (s.c.capture f).rows.val (s.c.capture f).vl (s.c.capture f).start = false := by
  obtain ⟨f, h1, h2⟩ := form_of (i := .vadd ⟨false, false, 0, 2, 1, 3⟩)
    (p := fun f => let p := (pair 0 0 0).c.capture f
      !f.runsPast p.rows.val && !f.badShape p.rows.val p.cols.val && !f.regsOk p.cfg p.rows.val p.vl p.start) (by decide +kernel)
  simp only [Bool.and_eq_true, Bool.not_eq_true'] at h2
  exact ⟨_, f, pair 0 0 0, h1, by unfold OnScalar; decide +kernel, h2.1.1, h2.1.2, h2.2⟩

theorem witness_VectorChecks_tile : ∃ (i : Instr) (f : VForm) (s : State), formOf i = some f ∧ OnScalar s ∧ f.runsPast (s.c.capture f).rows.val = false
    ∧ f.badShape (s.c.capture f).rows.val (s.c.capture f).cols.val = false
    ∧ f.regsOk (s.c.capture f).cfg (s.c.capture f).rows.val (s.c.capture f).vl (s.c.capture f).start = true
    ∧ (tileForm s s.cur f (s.c.capture f).cfg (s.c.capture f).vl).isSome = true := by
  obtain ⟨f, h1, h2⟩ := form_of (i := .tread ⟨63, 3, false, 7⟩)
    (p := fun f => let s := pair 0x11 0 0
      let p := s.c.capture f
      !f.runsPast p.rows.val && !f.badShape p.rows.val p.cols.val && f.regsOk p.cfg p.rows.val p.vl p.start && (tileForm s s.cur f p.cfg p.vl).isSome)
    (by decide +kernel)
  simp only [Bool.and_eq_true, Bool.not_eq_true'] at h2
  exact ⟨_, f, pair 0x11 0 0, h1, by unfold OnScalar; decide +kernel, h2.1.1.1, h2.1.1.2, h2.1.2, h2.2⟩

theorem witness_VectorChecks_overlap : ∃ (i : Instr) (f : VForm) (s : State), formOf i = some f ∧ OnScalar s ∧ f.runsPast (s.c.capture f).rows.val = false
    ∧ f.badShape (s.c.capture f).rows.val (s.c.capture f).cols.val = false
    ∧ f.regsOk (s.c.capture f).cfg (s.c.capture f).rows.val (s.c.capture f).vl (s.c.capture f).start = true
    ∧ tileForm s s.cur f (s.c.capture f).cfg (s.c.capture f).vl = none ∧ f.overlap (s.c.capture f).cfg (s.c.capture f).rows.val = true := by
  obtain ⟨f, h1, h2⟩ := form_of (i := .vperm ⟨false, false, 0, 2, 1, 1⟩)
    (p := fun f => let s := pair 0x01 0 0
      let p := s.c.capture f
      !f.runsPast p.rows.val && !f.badShape p.rows.val p.cols.val && f.regsOk p.cfg p.rows.val p.vl p.start
        && (tileForm s s.cur f p.cfg p.vl).isNone && f.overlap p.cfg p.rows.val)
    (by decide +kernel)
  simp only [Bool.and_eq_true, Bool.not_eq_true', Option.isNone_iff_eq_none] at h2
  exact ⟨_, f, pair 0x01 0 0, h1, by unfold OnScalar; decide +kernel, h2.1.1.1.1, h2.1.1.1.2, h2.1.1.2, h2.1.2, h2.2⟩

theorem witness_VectorChecks_waits : ∃ (i : Instr) (f : VForm) (s : State), formOf i = some f ∧ OnScalar s ∧ f.runsPast (s.c.capture f).rows.val = false
    ∧ 32 ≤ s.c.viq.length := by
  obtain ⟨f, h1, h2⟩ := form_of (i := .vmov ⟨false, 0, 1, 3⟩)
    (p := fun f => !f.runsPast ((at0 fun c => { c with viq := List.replicate 32 (entry ⟨0, .mov, 1, 2, 0, 0, 0, false, false, 0, false, 0⟩ 1 0 0 1) }).c.capture f).rows.val)
    (by decide +kernel)
  simp only [Bool.not_eq_true'] at h2
  exact ⟨_, f, _, h1, by unfold OnScalar; decide +kernel, h2, by decide +kernel⟩

theorem witness_VectorElementwise : ∃ (i : Instr) (f : VForm) (s : State) (e : VqEntry), formOf i = some f ∧ s.lockstep = true
    ∧ accept s s.cur f s.pc (s.c.capture f) = .ok e ∧ Begins s e ∧ f.op.restart = .element ∧ f.op.isMem = false := by
  obtain ⟨f, e, h1, h2, h3, h4⟩ := begins_of (i := .vfma ⟨true, true, 0, 2, 1, 3⟩) (s := pair 0x11 0 0)
    (p := fun f _ => decide (f.op.restart = .element) && !f.op.isMem) (by decide +kernel)
  simp only [Bool.and_eq_true, Bool.not_eq_true', decide_eq_true_eq] at h4
  exact ⟨_, f, _, e, h1, by decide +kernel, h2, h3, h4.1, h4.2⟩

/-- v1 of FP32; v3 of E4M3, scaled by the E8M0 register v4. -/
def scaling : State := at0 fun c => { c with sc := { c.sc with vl := 33, vcfg := vset (vset (vset c.sc.vcfg 1 { tag := 0x11 }) 3 { tag := 0x14, scaled := true, comp := 4 }) 4 { tag := 0x19 } } }

theorem witness_VectorElementwise_blocks : ∃ (i : Instr) (f : VForm) (s : State) (e : VqEntry), formOf i = some f ∧ s.lockstep = true
    ∧ accept s s.cur f s.pc (s.c.capture f) = .ok e ∧ Begins s e ∧ (e.reg f.d).scaled = true ∧ e.start < e.vl := by
  obtain ⟨f, e, h1, h2, h3, h4⟩ := begins_of (i := .vcvt ⟨7, true, 0, 1, 3⟩) (s := scaling)
    (p := fun f e => (e.reg f.d).scaled && decide (e.start < e.vl)) (by decide +kernel)
  simp only [Bool.and_eq_true, decide_eq_true_eq] at h4
  exact ⟨_, f, _, e, h1, by decide +kernel, h2, h3, h4.1, h4.2⟩

theorem witness_VectorCompletes_whole : ∃ (i : Instr) (f : VForm) (s : State) (e : VqEntry), formOf i = some f ∧ s.lockstep = true
    ∧ accept s s.cur f s.pc (s.c.capture f) = .ok e ∧ Begins s e ∧ f.op = .comp := by
  obtain ⟨f, e, h1, h2, h3, h4⟩ := begins_of (i := .vcomp ⟨true, 0, 1, 3⟩) (s := pair 0x11 0 0) (p := fun f _ => decide (f.op = .comp)) (by decide +kernel)
  exact ⟨_, f, _, e, h1, by decide +kernel, h2, h3, of_decide_eq_true h4⟩

theorem witness_VectorCompletes_matrix : ∃ (i : Instr) (f : VForm) (s : State) (e : VqEntry), formOf i = some f ∧ s.lockstep = true
    ∧ accept s s.cur f s.pc (s.c.capture f) = .ok e ∧ Begins s e ∧ f.op = .wmul .mac := by
  obtain ⟨f, e, h1, h2, h3, h4⟩ := begins_of (i := .wmac ⟨true, true, 0, 2, 2, 0⟩) (s := pair 0x11 0 0) (p := fun f _ => decide (f.op = .wmul .mac)) (by decide +kernel)
  exact ⟨_, f, _, e, h1, by decide +kernel, h2, h3, of_decide_eq_true h4⟩

theorem witness_VectorCompletes_shape : ∃ (i : Instr) (f : VForm) (s : State) (e : VqEntry), formOf i = some f ∧ s.lockstep = true
    ∧ accept s s.cur f s.pc (s.c.capture f) = .ok e ∧ Begins s e ∧ f.op = .wdim := by
  obtain ⟨f, e, h1, h2, h3, h4⟩ := begins_of (i := .wdim ⟨6, 1⟩) (s := State.reset) (p := fun f _ => decide (f.op = .wdim)) (by decide +kernel)
  exact ⟨_, f, _, e, h1, by decide +kernel, h2, h3, of_decide_eq_true h4⟩

/-- Core 0 with tile 7 claimed by sequencer 0 and film 0 and 1 open in it; v1 to v3 of FP32. -/
def tiled : State :=
  let s := pair 0x11 0 0
  let x := s.core 0
  s.setCore 0 { x with
    tiles := vset x.tiles 7 { tag := 0x11, claim := some 0 }
    films := vset (vset x.films 0 { holder := some 0 }) 1 { holder := some 0 } }

theorem witness_VectorCompletes_tread : ∃ (i : Instr) (f : VForm) (s : State) (e : VqEntry), formOf i = some f ∧ s.lockstep = true
    ∧ accept s s.cur f s.pc (s.c.capture f) = .ok e ∧ Begins s e ∧ f.op = .tread := by
  obtain ⟨f, e, h1, h2, h3, h4⟩ := begins_of (i := .tread ⟨63, 3, false, 7⟩) (s := tiled) (p := fun f _ => decide (f.op = .tread)) (by decide +kernel)
  exact ⟨_, f, _, e, h1, by decide +kernel, h2, h3, of_decide_eq_true h4⟩

theorem witness_VectorCompletes_twrite : ∃ (i : Instr) (f : VForm) (s : State) (e : VqEntry), formOf i = some f ∧ s.lockstep = true
    ∧ accept s s.cur f s.pc (s.c.capture f) = .ok e ∧ Begins s e ∧ f.op = .twrite := by
  obtain ⟨f, e, h1, h2, h3, h4⟩ := begins_of (i := .twrite ⟨63, 3, false, 7⟩) (s := tiled) (p := fun f _ => decide (f.op = .twrite)) (by decide +kernel)
  exact ⟨_, f, _, e, h1, by decide +kernel, h2, h3, of_decide_eq_true h4⟩

/-- A landed strip waits for partition 0 in core 0. -/
def strips : State :=
  let s := pair 0x11 0 0
  let x := s.core 0
  s.setCore 0 { x with recvq := [(0, { strips := [{ id := 0, sender := 1, tag := 0x11, grp := 0, vl := 2, data := [5], landed := true }] })] }

theorem witness_VectorCompletes_recv : ∃ (i : Instr) (f : VForm) (s : State) (e : VqEntry), formOf i = some f ∧ s.lockstep = true
    ∧ accept s s.cur f s.pc (s.c.capture f) = .ok e ∧ Begins s e ∧ f.op = .recv := by
  obtain ⟨f, e, h1, h2, h3, h4⟩ := begins_of (i := .vrecv ⟨3⟩) (s := strips) (p := fun f _ => decide (f.op = .recv)) (by decide +kernel)
  exact ⟨_, f, _, e, h1, by decide +kernel, h2, h3, of_decide_eq_true h4⟩

/-- Scalar 1 names the gang. -/
def gang : State := (pair 0x11 0 0).withC ((pair 0x11 0 0).c.setS 1 1)

theorem witness_VectorCompletes_mcast : ∃ (i : Instr) (f : VForm) (s : State) (e : VqEntry), formOf i = some f ∧ s.lockstep = true
    ∧ accept s s.cur f s.pc (s.c.capture f) = .ok e ∧ Begins s e ∧ f.op = .mcast := by
  obtain ⟨f, e, h1, h2, h3, h4⟩ := begins_of (i := .vmcast ⟨true, true, 0, 1, 2⟩) (s := gang) (p := fun f _ => decide (f.op = .mcast)) (by decide +kernel)
  exact ⟨_, f, _, e, h1, by decide +kernel, h2, h3, of_decide_eq_true h4⟩

/-- The tables of `placed`, vl 2, v1 to v3 of I32, scalar 1 an address. -/
def striding : State :=
  let s := mapped 64 4 0
  s.withC { s.c with sc := { s.c.sc with vl := 2, vcfg := Vector.replicate 32 { tag := 0x03 } } }

theorem witness_VectorAccesses : ∃ (i : Instr) (f : VForm) (s : State) (e : VqEntry) (u : State), formOf i = some f ∧ s.lockstep = true
    ∧ accept s s.cur f s.pc (s.c.capture f) = .ok e ∧ Begins s e ∧ f.op.restart = .element ∧ f.op.isMem = true
    ∧ (let t := startedState (acceptedState s e) s.cur e
       commitAll s.cur ((t.ctx s.cur).runEnd - (t.ctx s.cur).runG) t = .ok u ∧ (u.ctx s.cur).run = [e] ∧ (u.ctx s.cur).runEnd ≤ (u.ctx s.cur).runG) := by
  obtain ⟨f, e, h1, h2, h3, h4⟩ := begins_of (i := .vst ⟨0, true, false, false, 0, 1, 3⟩) (s := striding)
    (p := fun f e => decide (f.op.restart = .element) && f.op.isMem
      && (let t := startedState (acceptedState striding e) striding.cur e
          okIs (commitAll striding.cur ((t.ctx striding.cur).runEnd - (t.ctx striding.cur).runG) t) fun u =>
            decide ((u.ctx striding.cur).run = [e]) && decide ((u.ctx striding.cur).runEnd ≤ (u.ctx striding.cur).runG))) (by decide +kernel)
  simp only [Bool.and_eq_true, decide_eq_true_eq] at h4
  obtain ⟨u, hu, hp⟩ := ok_of h4.2
  simp only [Bool.and_eq_true, decide_eq_true_eq] at hp
  exact ⟨_, f, _, e, u, h1, by decide +kernel, h2, h3, h4.1.1, h4.1.2, hu, hp.1, hp.2⟩

/-- The same with lane matrices of one element, in the lane k1 names. -/
def laning : State :=
  striding.withC { striding.c with sc := { striding.c.sc with rows := 1, cols := 1 }, k := vset striding.c.k 1 1 }

theorem witness_VectorAccesses_wld : ∃ (i : Instr) (f : VForm) (s : State) (e : VqEntry) (u : State) (y : Ctx), formOf i = some f ∧ s.lockstep = true
    ∧ accept s s.cur f s.pc (s.c.capture f) = .ok e ∧ Begins s e ∧ f.op = .wld
    ∧ (let t := startedState (acceptedState s e) s.cur e
       loadLanes t s.cur e (t.ctx s.cur) = .ok (u, y)) := by
  obtain ⟨f, e, h1, h2, h3, h4⟩ := begins_of (i := .wld ⟨false, 2, true, 1, 1, 3⟩) (s := laning)
    (p := fun f e => decide (f.op = .wld)
      && (let t := startedState (acceptedState laning e) laning.cur e
          okIs (loadLanes t laning.cur e (t.ctx laning.cur)) fun _ => true)) (by decide +kernel)
  simp only [Bool.and_eq_true, decide_eq_true_eq] at h4
  obtain ⟨⟨u, y⟩, hu, -⟩ := ok_of h4.2
  exact ⟨_, f, _, e, u, y, h1, by decide +kernel, h2, h3, h4.1, hu⟩

theorem witness_VectorAccesses_wst : ∃ (i : Instr) (f : VForm) (s : State) (e : VqEntry) (u : State), formOf i = some f ∧ s.lockstep = true
    ∧ accept s s.cur f s.pc (s.c.capture f) = .ok e ∧ Begins s e ∧ f.op = .wst
    ∧ storeLanes (acceptedState s e) s.cur e = .ok u := by
  obtain ⟨f, e, h1, h2, h3, h4⟩ := begins_of (i := .wst ⟨false, 2, true, 1, 1, 3⟩) (s := laning)
    (p := fun f e => decide (f.op = .wst) && okIs (storeLanes (acceptedState laning e) laning.cur e) fun _ => true) (by decide +kernel)
  simp only [Bool.and_eq_true, decide_eq_true_eq] at h4
  obtain ⟨u, hu, -⟩ := ok_of h4.2
  exact ⟨_, f, _, e, u, h1, by decide +kernel, h2, h3, h4.1, hu⟩

/-- A duplicate mask in k5, the bytes gathered by vldx.dup. -/
theorem witness_VectorAccesses_dup : ∃ (i : Instr) (f : VForm) (s : State) (e : VqEntry) (u : State) (y : Ctx), formOf i = some f ∧ s.lockstep = true
    ∧ accept s s.cur f s.pc (s.c.capture f) = .ok e ∧ Begins s e
    ∧ (let t := startedState (acceptedState s e) s.cur e
       loadDup t s.cur e (t.ctx s.cur) = .ok (u, y)) := by
  obtain ⟨f, e, h1, h2, h3, h4⟩ := begins_of (i := .vldxDup ⟨0, true, false, false, 5, 2, 1, 3⟩) (s := striding)
    (p := fun _ e => let t := startedState (acceptedState striding e) striding.cur e
      okIs (loadDup t striding.cur e (t.ctx striding.cur)) fun _ => true) (by decide +kernel)
  obtain ⟨⟨u, y⟩, hu, -⟩ := ok_of h4
  exact ⟨_, f, _, e, u, y, h1, by decide +kernel, h2, h3, hu⟩

theorem witness_VectorAccesses_element : ∃ (s : State) (e : VqEntry) (c : Ctx) (t : State) (n : Nat), e.form.op = .ld .unit false false ∧ c.active e 1 = true
    ∧ e.form.touch = false ∧ e.form.pol ≠ 2 ∧ 8 ≤ ewOf (e.tag e.form.d) ∧ loadAt s 0 e.ipc (c.ea e 1) e.esz = .ok (t, n) := by
  let e := entry ⟨0, .ld .unit false false, 3, 1, 0, 0, 0, false, false, 0, false, 0⟩ 2 64 0 0x03
  obtain ⟨⟨t, n⟩, h, -⟩ := ok_of (x := loadAt striding 0 e.ipc (striding.c.ea e 1) e.esz) (p := fun _ => true) (by decide +kernel)
  exact ⟨striding, e, striding.c, t, n, rfl, by decide +kernel, rfl, by decide, by decide, h⟩

theorem witness_VectorAccesses_touch : ∃ (e : VqEntry) (t : State) (n : Nat), e.form.op = .ld .unit false false ∧ striding.c.active e 0 = true
    ∧ striding.c.active e 1 = true ∧ e.form.touch = true ∧ loadAt striding 0 e.ipc (striding.c.ea e 1) e.esz = .ok (t, n) := by
  let e := entry ⟨0, .ld .unit false false, 0, 1, 0, 0, 0, false, false, 0, false, 0⟩ 2 64 0 0x03
  obtain ⟨⟨t, n⟩, h, -⟩ := ok_of (x := loadAt striding 0 e.ipc (striding.c.ea e 1) e.esz) (p := fun _ => true) (by decide +kernel)
  exact ⟨e, t, n, rfl, by decide +kernel, by decide +kernel, rfl, h⟩

theorem witness_IntegerOperations : (isINT tI8 = true ∧ 0x80 < 2 ^ ewOf tI8 ∧ 0x7F < 2 ^ ewOf tI8) ∧ (isINT tN64 = true ∧ 2 ^ 64 - 1 < 2 ^ ewOf tN64) := by decide

theorem witness_IntegerOperations_halves : 2 ^ 32 - 1 < 2 ^ 32 := by decide

theorem witness_Elements : (2 : Nat) ∈ [2, 4, 8, 16, 32, 64] ∧ 24 + 16383 / (4096 / 2) < 32 ∧ (64 : Nat) ∈ [2, 4, 8, 16, 32, 64] ∧ 31 + 63 / (4096 / 64) < 32 := by decide

theorem witness_Elements_frame : ∃ e : VqEntry, e.form.op.restart = .element ∧ e.form.op.isMem = false ∧ e.form.d < 32 :=
  ⟨entry ⟨0, .sel, 31, 1, 2, 0, 3, false, false, 0, false, 0⟩ 2 0 0 0x11, rfl, rfl, by decide⟩

theorem witness_MaskAndPermuteForms_masks : ∃ (c : Ctx) (e : VqEntry), e.form.op = .kfirst ∧ e.form.d ≠ 0 ∧ e.form.d < 32
    ∧ (∃ n < e.vl, (c.getK e.form.a).getLsbD n = true ∧ ∀ i < n, (c.getK e.form.a).getLsbD i = false) :=
  ⟨(masked 2 2).c, entry ⟨0, .kfirst, 31, 1, 0, 0, 0, false, false, 0, false, 0⟩ 2 0 0 0, rfl, by decide, by decide, 1, by decide, by decide +kernel, by decide +kernel⟩

theorem witness_MaskAndPermuteForms_none : ∃ (c : Ctx) (e : VqEntry), e.form.op = .kfirst ∧ e.form.d ≠ 0 ∧ e.form.d < 32
    ∧ ∀ i < e.vl, (c.getK e.form.a).getLsbD i = false :=
  ⟨(masked 0 2).c, entry ⟨0, .kfirst, 31, 1, 0, 0, 0, false, false, 0, false, 0⟩ 2 0 0 0, rfl, by decide, by decide, by decide +kernel⟩

theorem witness_MaskAndPermuteForms_permute : ∃ (c : Ctx) (e : VqEntry), e.form.d < 32 ∧ (∀ i < e.vl, e.form.d + i / (4096 / ewOf (e.tag e.form.d)) < 32)
    ∧ e.tag e.form.d ≠ tE3M2 ∧ e.tag e.form.d ≠ tE2M3 ∧ ewOf (e.tag e.form.a) = ewOf (e.tag e.form.d) ∧ e.tag e.form.b = e.tag e.form.d
    ∧ e.form.op = .zip ∧ c.active e 1 = true :=
  ⟨State.reset.c, entry ⟨0, .zip, 3, 1, 2, 0, 0, false, false, 0, false, 0⟩ 2 0 0 0x11, by decide, by decide, by decide, by decide, by decide, by decide, rfl,
    by decide +kernel⟩

theorem witness_Retirement : ∃ (c : Ctx) (e : VqEntry), c.run = [e] ∧ c.runArith = none ∧ e.form.emptiesV = true ∧ e.form.d + 2 ^ e.grp e.form.d ≤ 32 :=
  ⟨{ run := [entry ⟨0, .math .div, 31, 1, 0, 0, 0, false, false, 0, false, 0⟩ 2 0 0 0x11] }, _, rfl, rfl, by decide, by decide⟩

theorem witness_Retirement_arith : ∃ (c : Ctx) (e : VqEntry), c.run = [e] ∧ c.runArith = some (0, 0x40) ∧ e.resumed = false ∧ e.snap.armed = false
    ∧ e.form.op ≠ .comp ∧ e.roles.sd = none :=
  ⟨{ run := [entry ⟨0, .mov, 3, 1, 0, 0, 0, false, false, 0, false, 0⟩ 2 0 0 0x11], runArith := some (0, 0x40) }, _, rfl, rfl, rfl, rfl, by decide, by decide⟩

/-! ### Tiles, films, channels, tasks, the system forms and traps -/

/-- A held instruction. -/
def heldOp (op : HeldOp) : Held := ⟨op, 0, 0, {}, 0⟩

theorem witness_TileAndFilmForms_unowned : ∃ s : State, OnScalar s ∧ tileOwned s s.cur 7 = false ∧ filmOwned s s.cur 3 = false :=
  let s := State.reset.setCore 0 { inForce := { tile := Vector.replicate 8 0, film := Vector.replicate 4 0 } }
  ⟨s, by unfold OnScalar; decide +kernel, by decide +kernel, by decide +kernel⟩

theorem witness_TileAndFilmForms_claim : ∃ s : State, OnScalar s ∧ tileOwned s s.cur 7 = true ∧ tileCheck s s.cur 7 = some 3 ∧ filmView s s.cur 3 = none :=
  ⟨State.reset, by unfold OnScalar; decide +kernel, by decide +kernel, by decide +kernel, by decide +kernel⟩

theorem witness_TileAndFilmForms_claimed : ∃ s : State, OnScalar s ∧ tileCheck s s.cur 7 = none ∧ s.c.claimHeld 7 = false ∧ tileBusy s s.cur 7 s.c.ord = false :=
  ⟨tiled, by unfold OnScalar; decide +kernel, by decide +kernel, by decide +kernel, by decide +kernel⟩

/-- An operation outstanding on tile 7. -/
def working : State :=
  let x := tiled.core 0
  (tiled.setCore 0 { x with tiles := vset x.tiles 7 { vget x.tiles 7 {} with
    ops := [⟨entry ⟨0, .tacc, 7, 0, 0, 1, 0, false, false, 0, false, 0⟩ 2 0 0 0x11, 0, [], false, 0, false, false⟩] } }).withC { tiled.c with ord := 1 }

/-- `s` where no pipe of core 0 belongs to a partition. -/
def pipeless (s : State) : State :=
  s.setCore 0 { s.core 0 with inForce := { (s.core 0).inForce with pipe := Vector.replicate 8 0 } }

theorem witness_TileAndFilmForms_no_engine : OnScalar (pipeless tiled) ∧ (ownedPipes (pipeless tiled) (pipeless tiled).cur).getLsbD 7 = false
    ∧ tileOwned (pipeless tiled) (pipeless tiled).cur 7 = true ∧ tileCheck (pipeless tiled) (pipeless tiled).cur 7 = none
    ∧ filmOwned (pipeless tiled) (pipeless tiled).cur 3 = true ∧ (filmView (pipeless tiled) (pipeless tiled).cur 1).isSome = true := by
  refine ⟨by unfold OnScalar; decide +kernel, ?_, ?_, ?_, ?_, ?_⟩ <;> decide +kernel

theorem witness_TileAndFilmForms_engine : (ownedPipes tiled tiled.cur).getLsbD 7 = true ∧ (ownedPipes (scal 1 0 0) (scal 1 0 0).cur).getLsbD 7 = true := by
  constructor <;> decide +kernel

theorem witness_TileAndFilmForms_busy : ∃ s : State, OnScalar s ∧ tileCheck s s.cur 7 = none ∧ tileBusy s s.cur 7 s.c.ord = true :=
  ⟨working, by unfold OnScalar; decide +kernel, by decide +kernel, by decide +kernel⟩

theorem witness_TileAndFilmForms_open : ∃ (x : FOpen) (s : State) (v : _), OnScalar s ∧ Reads s x.x.val v ∧ filmOwned s s.cur x.film.val = true ∧ badFilm v = false :=
  ⟨⟨1, true, 3⟩, scal 1 0 0, 1, by unfold OnScalar; decide +kernel, reads_of (by decide +kernel), by decide +kernel, by decide⟩

theorem witness_TileAndFilmForms_bad : ∃ (x : FOpen) (s : State) (v : _), OnScalar s ∧ Reads s x.x.val v ∧ filmOwned s s.cur x.film.val = true ∧ badFilm v = true :=
  ⟨⟨1, true, 3⟩, scal 2 0 0, 2, by unfold OnScalar; decide +kernel, reads_of (by decide +kernel), by decide +kernel, by decide⟩

theorem witness_TileAndFilmForms_film : ∃ s : State, OnScalar s ∧ (filmView s s.cur 1).isSome = true ∧ Ready s 4 :=
  ⟨tiled, by unfold OnScalar; decide +kernel, by decide +kernel, ready_of (by decide +kernel)⟩

theorem witness_TileAndFilmForms_performed : (vget (tiled.core 0).tiles 7 {}).claim = some 0 ∧ (vget (tiled.core 0).tiles 7 {}).ops = []
    ∧ tileBusy tiled 0 7 5 = false ∧ tileBusy working 0 7 1 = true ∧ (vget (tiled.core 0).tiles 7 {}).gathered = 0 ∧ (vget (tiled.core 0).films 3 {}).holder = none ∧ filmReaders tiled 0 1 = false ∧ filmCommands tiled 0 1 = false
    ∧ (vget (tiled.core 0).tiles 6 {}).claim = none ∧ (vget (tiled.core 0).tiles 7 {}).claim = some 0 ∧ (0 : Nat) ≠ 1
    ∧ tileAhead tiled 0 7 5 = false ∧ (vget (tiled.core 0).films 0 {}).holder = some 0 := by
  refine ⟨?_, ?_, ?_, ?_, ?_, ?_, ?_, ?_, ?_, ?_, ?_, ?_, ?_⟩ <;> decide +kernel

/-- A tread of tile 7 is older than the trel. -/
theorem witness_TileAndFilmForms_ahead : ∃ s : State, tileBusy s 0 7 5 = false ∧ tileAhead s 0 7 5 = true :=
  ⟨tiled.withC { tiled.c with viq := [entry (treadForm ⟨63, 3, false, 7⟩) 2 0 0 0x11] }, by decide +kernel, by decide +kernel⟩

theorem witness_TileAndFilmForms_open_no_engine : ∃ (x : FOpen) (s : State) (v : _), OnScalar s ∧ Reads s x.x.val v ∧ filmOwned s s.cur x.film.val = true
    ∧ badFilm v = false ∧ (ownedPipes s s.cur).getLsbD 7 = false :=
  ⟨⟨1, true, 3⟩, pipeless (scal 1 0 0), 1, by unfold OnScalar; decide +kernel, reads_of (by decide +kernel), by decide +kernel, by decide, by decide +kernel⟩

theorem witness_CopyAndChannelForms_unowned : ∃ (x : Copy) (s : State) (a : _) (b : _) (c : _), OnScalar s ∧ Reads s x.a.val a ∧ Reads s x.b.val b ∧ Reads s x.c.val c
    ∧ chanOwned s s.cur x.ch.val = false := by
  let s := (scal 0 0 0).setCore 0 { inForce := { chan := Vector.replicate 8 0 } }
  exact ⟨⟨7, true, 8, 3, 2, 1⟩, s, 0, 0, 0, by unfold OnScalar; decide +kernel, reads_of (by decide +kernel), reads_of (by decide +kernel),
    reads_of (by decide +kernel), by decide +kernel⟩

theorem witness_CopyAndChannelForms_misaligned : ∃ (x : Copy) (s : State) (a : _) (b : _) (c : _), OnScalar s ∧ Reads s x.a.val a ∧ Reads s x.b.val b ∧ Reads s x.c.val c
    ∧ chanOwned s s.cur x.ch.val = true
    ∧ [a, b, ((c >>> 16).setWidth 16).setWidth 64, ((c >>> 32).setWidth 32).signExtend 64].find? (fun v => v.toNat % 32 != 0) = some 0x7FFF :=
  ⟨⟨7, true, 8, 3, 2, 1⟩, scal 64 32 0x7FFF0001, 64, 32, 0x7FFF0001, by unfold OnScalar; decide +kernel, reads_of (by decide +kernel), reads_of (by decide +kernel),
    reads_of (by decide +kernel), by decide +kernel, by decide⟩

theorem witness_CopyAndChannelForms_copy : ∃ (x : Copy) (s : State) (a : _) (b : _) (c : _), OnScalar s ∧ Reads s x.a.val a ∧ Reads s x.b.val b ∧ Reads s x.c.val c
    ∧ copyChecks s x (0x50 + x.enc) a b c = .ok () := by
  obtain ⟨u, hu, -⟩ := ok_of (x := copyChecks (scal 64 32 0x200001) ⟨7, true, 8, 3, 2, 1⟩ (0x50 + (Copy.mk 7 true 8 3 2 1).enc) 64 32 0x200001) (p := fun _ => true)
    (by decide +kernel)
  exact ⟨⟨7, true, 8, 3, 2, 1⟩, scal 64 32 0x200001, 64, 32, 0x200001, by unfold OnScalar; decide +kernel, reads_of (by decide +kernel), reads_of (by decide +kernel),
    reads_of (by decide +kernel), hu⟩

/-- `tiled` under the tables of `placed`, with a follow-on at address 4: a tmma of tile 0 from films 0 and 1, E4M3. -/
def following : State :=
  let s := placeBytes (ready 0) (codeBase + 4) 4 0x0A501049
  let x := s.core 0
  (s.setCore 0 { x with
    tiles := vset x.tiles 0 { tag := 0x11, claim := some 0 }
    films := vset (vset x.films 0 { holder := some 0, sb := 1 }) 1 { holder := some 0, sb := 1 } }).withC (((s.c.setS 1 64).setS 2 32).setS 3 0x200001)

theorem witness_CopyAndChannelForms_follow : ∃ (x : Copy) (s : State) (t : State) (w2 : Nat) (u : State) (f : _), OnScalar s ∧ Reads s x.a.val 64 ∧ Reads s x.b.val 32
    ∧ Reads s x.c.val 0x200001 ∧ liftB (s.pc + 4) s.pc (fetchWord s s.cur (s.pc + 4)) = .ok (t, w2)
    ∧ copyChecks t x (0x4000050 + x.enc) 64 32 0x200001 = .ok () ∧ t.c.sb.length < 16 ∧ followOn t w2 = .ok (u, f)
    ∧ (ownedPipes u u.cur).getLsbD 7 = true := by
  obtain ⟨⟨t, w2⟩, h, hp⟩ := ok_of (x := liftB (following.pc + 4) following.pc (fetchWord following following.cur (following.pc + 4)))
    (p := fun y => okIs (copyChecks y.1 ⟨7, true, 8, 3, 2, 1⟩ (0x4000050 + (Copy.mk 7 true 8 3 2 1).enc) 64 32 0x200001) (fun _ => true)
      && decide (y.1.c.sb.length < 16) && okIs (followOn y.1 y.2) fun z => (ownedPipes z.1 z.1.cur).getLsbD 7) (by decide +kernel)
  simp only [Bool.and_eq_true, decide_eq_true_eq] at hp
  obtain ⟨u1, h1, -⟩ := ok_of hp.1.1
  obtain ⟨⟨u, f⟩, h2, h3⟩ := ok_of hp.2
  exact ⟨⟨7, true, 8, 3, 2, 1⟩, following, t, w2, u, f, by unfold OnScalar; decide +kernel, reads_of (by decide +kernel), reads_of (by decide +kernel),
    reads_of (by decide +kernel), h, h1, hp.1.2, h2, h3⟩

/-- Without the engine the same follow-on is decoded, and the cpy.m traps. -/
theorem witness_CopyAndChannelForms_follow_no_engine : okIs (liftB ((pipeless following).pc + 4) (pipeless following).pc
      (fetchWord (pipeless following) (pipeless following).cur ((pipeless following).pc + 4))) (fun y =>
    okIs (copyChecks y.1 ⟨7, true, 8, 3, 2, 1⟩ (0x4000050 + (Copy.mk 7 true 8 3 2 1).enc) 64 32 0x200001) (fun _ => true)
      && decide (y.1.c.sb.length < 16) && okIs (followOn y.1 y.2) fun z => !(ownedPipes z.1 z.1.cur).getLsbD 7) = true := by decide +kernel

/-- Film 3 open in sequencer 0. -/
def filming : State :=
  let s := scal 64 0 0x200001
  s.setCore 0 { s.core 0 with films := vset (s.core 0).films 3 { holder := some 0 } }

/-- A copy to film 3, with and without the engine. -/
theorem witness_CopyAndChannelForms_film_engine : okIs (copyChecks filming ⟨7, true, 3, 3, 2, 1⟩ (0x50 + (Copy.mk 7 true 3 3 2 1).enc) 64 0 0x200001) (fun _ => true) = true
    ∧ (ownedPipes filming filming.cur).getLsbD 7 = true
    ∧ okIs (copyChecks (pipeless filming) ⟨7, true, 3, 3, 2, 1⟩ (0x50 + (Copy.mk 7 true 3 3 2 1).enc) 64 0 0x200001) (fun _ => true) = true
    ∧ (ownedPipes (pipeless filming) (pipeless filming).cur).getLsbD 7 = false := by
  refine ⟨?_, ?_, ?_, ?_⟩ <;> decide +kernel

/-- A stash window of 64 pieces at 0x10000, and two I32 indices in v2. -/
def gathering : State :=
  let s := at0 fun c => { (c.setS 1 64).setS 3 0x0200000000010000 with
    v := vset c.v 2 0x300000001, sc := { ((c.setS 1 64).setS 3 0x0200000000010000).sc with vl := 2, vcfg := Vector.replicate 32 { tag := 0x03 } } }
  s.setCore 0 { wins := vset (s.core 0).wins 0 { base := 0x10000, pieces := 64, valid := true } }

theorem witness_CopyAndChannelForms_gath : ∃ (x : GathF) (s : State) (is : List Int), OnScalar s ∧ Reads s x.a.val 64 ∧ Reads s x.c.val 0x0200000000010000
    ∧ indexOperand s x.b.val x.e (0x51 + x.enc) = .ok is ∧ chanOwned s s.cur x.ch.val = true ∧ 64 % 4 = 0 ∧ stashSettled s = .ok ()
    ∧ inSomeWindow s s.cur 0x10000 (4 * is.length) = true ∧ s.c.sb.length < 16 ∧ (x.dup.val ≠ 0 → s.c.feK.getLsbD x.dup.val = true ∧ s.c.vqWritesK x.dup.val = false) := by
  obtain ⟨is, h, hp⟩ := ok_of (x := indexOperand gathering 2 true (0x51 + (GathF.mk 7 true 5 3 2 1).enc)) (p := fun is => inSomeWindow gathering gathering.cur 0x10000 (4 * is.length))
    (by decide +kernel)
  obtain ⟨u, hu, -⟩ := ok_of (x := stashSettled gathering) (p := fun _ => true) (by decide +kernel)
  exact ⟨⟨7, true, 5, 3, 2, 1⟩, gathering, is, by unfold OnScalar; decide +kernel, reads_of (by decide +kernel), reads_of (by decide +kernel), h, by decide +kernel, by decide,
    hu, hp, by decide +kernel, fun _ => ⟨by decide +kernel, by decide +kernel⟩⟩

theorem witness_CopyAndChannelForms_gath_misaligned : (65 : Word).toNat % 2 ^ ((0x0200000000010000 : Word).toNat / 2 ^ 56 % 4) ≠ 0 := by decide

theorem witness_CopyAndChannelForms_chan : ∃ s : State, OnScalar s ∧ chanOwned s s.cur 7 = true ∧ Ready s 31 ∧ s.c.retry = false :=
  ⟨State.reset, by unfold OnScalar; decide +kernel, by decide +kernel, ready_of (by decide +kernel), by decide +kernel⟩

/-- Channel 7 with `n` commands, order number 1. -/
def queued (n : Nat) (bad : Bool) : State :=
  State.reset.setChan 7 { cmds := List.replicate n (copyCmd State.reset 0 7 8 64 32 0x200001 none), faulted := bad, cause := 0x20, busy := true }

theorem witness_CopyAndChannelForms_enter : ∃ t u : State, ((queued 7 false).chan 7).cmds.length < 8 ∧ registerAll (queued 7 false) (0 / 4) = .ok t
    ∧ enterChannel t 7 (copyCmd t 0 7 8 64 32 0x200001 none) true = .ok u ∧ 8 ≤ ((queued 8 false).chan 7).cmds.length := by
  obtain ⟨t, h, hp⟩ := ok_of (x := registerAll (queued 7 false) 0) (p := fun t => okIs (enterChannel t 7 (copyCmd t 0 7 8 64 32 0x200001 none) true) fun _ => true)
    (by decide +kernel)
  obtain ⟨u, hu, -⟩ := ok_of hp
  exact ⟨t, u, by decide +kernel, h, hu, by decide +kernel⟩

theorem witness_CopyAndChannelForms_enter_gath : ∃ t u : State, ((queued 7 false).chan 7).cmds.length < 8 ∧ registerAll (queued 7 false) (0 / 4) = .ok t
    ∧ (∀ e ∈ ((queued 7 false).ctx 0).run, ∀ m ∈ e.roles.ks, m.1 ≠ 5) ∧ enterChannel t 7 (gathCmd t 0 7 64 [64, 76, 64] 0x0200000000010000 5) true = .ok u := by
  obtain ⟨t, h, hp⟩ := ok_of (x := registerAll (queued 7 false) 0)
    (p := fun t => okIs (enterChannel t 7 (gathCmd t 0 7 64 [64, 76, 64] 0x0200000000010000 5) true) fun _ => true) (by decide +kernel)
  obtain ⟨u, hu, -⟩ := ok_of hp
  exact ⟨t, u, by decide +kernel, h, by decide +kernel, hu⟩

theorem witness_CopyAndChannelForms_film : (copyCmd State.reset 0 7 3 64 32 0x200001 none).film = true := by decide +kernel

theorem witness_CopyAndChannelForms_wait : (∀ m ∈ ((queued 1 false).chan 7).cmds, 0 ≤ m.order) ∧ (∃ m ∈ ((queued 1 true).chan 7).cmds, m.order < 1)
    ∧ ((queued 1 true).chan 7).faulted = true ∧ ((queued 1 false).chan 7).faulted = false := by
  refine ⟨?_, ?_, ?_, ?_⟩ <;> decide +kernel

theorem witness_TaskForms : ∃ (x : C3) (s : State), OnScalar s ∧ Reads s x.a.val 7 ∧ Reads s x.b.val 5 ∧ Ready s x.c.val ∧ Reads s x.c.val 3 ∧ s.c.retry = false
    ∧ s.c.vqWritesVl = false ∧ ∀ p, s.c.task = some p → p.launch = true :=
  ⟨⟨true, 3, 2, 1⟩, scal 7 5 3, by unfold OnScalar; decide +kernel, reads_of (by decide +kernel), reads_of (by decide +kernel), ready_of (by decide +kernel),
    reads_of (by decide +kernel), by decide +kernel, by decide +kernel, fun p h => (by rw [show (scal 7 5 3).c.task = none by decide +kernel] at h; cases h)⟩

/-- A panel task of 100 rows and 10 columns, CFGVL FP64, at a row and column. -/
def paneled (row col : Nat) (tag : BitVec 5) : State := at0 fun c =>
  { c with task := some ⟨0, 0, false, 100 * 2 ^ 128 + 10 * 2 ^ 160, 0, 0, 0⟩, sc := { c.sc with cfgTag := tag, curRow := BitVec.ofNat 32 row, curCol := BitVec.ofNat 32 col } }

theorem witness_TaskForms_grant : ∃ p, OnScalar (paneled 0 0 0x10) ∧ (paneled 0 0 0x10).c.vqWritesVl = false ∧ (paneled 0 0 0x10).c.task = some p ∧ p.launch = false
    ∧ tagKnown (paneled 0 0 0x10).c.sc.cfgTag.toNat = true ∧ tagKnown (paneled 0 0 0x1F).c.sc.cfgTag.toNat = false ∧ Ready (paneled 0 0 0x10) 4 :=
  ⟨⟨0, 0, false, 100 * 2 ^ 128 + 10 * 2 ^ 160, 0, 0, 0⟩, by unfold OnScalar; decide +kernel, by decide +kernel, by decide +kernel, rfl, by decide +kernel,
    by decide +kernel, ready_of (by decide +kernel)⟩

/-- R282: past the last column of rows 0 to 63 the grant goes on at row 64; past the last row it gives none. -/
theorem witness_TaskForms_grant_rows : (paneled 0 10 0x10).c.sc.curRow.toNat < 100 ∧ 10 ≤ (paneled 0 10 0x10).c.sc.curCol.toNat ∧ 100 ≤ (paneled 100 0 0x10).c.sc.curRow.toNat := by
  refine ⟨?_, ?_, ?_⟩ <;> decide +kernel

theorem witness_TaskForms_enq : ∃ (s : State) (t : State) (u : State) (x : Xl) (v : State) (b : Nat), (64 : Word).toNat % 64 = 0 ∧ releaseAt s (0 / 4) 4 = .ok t
    ∧ translate t 0 64 .r = .ok (u, x) ∧ x.ctl = false ∧ accRead u (u.agent 0) x 64 = .ok (v, b) := by
  obtain ⟨t, h1, hp⟩ := ok_of (x := releaseAt (mapped 0 0 0) 0 4)
    (p := fun t => okIs (translate t 0 64 .r) fun y => !y.2.ctl && okIs (accRead y.1 (y.1.agent 0) y.2 64) fun _ => true) (by decide +kernel)
  obtain ⟨⟨u, x⟩, h2, hp⟩ := ok_of hp
  simp only [Bool.and_eq_true, Bool.not_eq_true'] at hp
  obtain ⟨⟨v, b⟩, h3, -⟩ := ok_of hp.2
  exact ⟨_, t, u, x, v, b, by decide, h1, h2, hp.1, h3⟩

theorem witness_TaskForms_enq_misaligned : (63 : Word).toNat % 64 ≠ 0 ∧ (64 : Word).toNat % 128 ≠ 0 := by decide

theorem witness_TaskForms_depd : ∃ t : State, ¬(2 ^ 12 ≤ (4095 : Word).toNat ∨ State.reset.queueOwner ((4095 : Word).toNat % 4096) ≠ some (State.reset.pnum 0))
    ∧ (255 : Word).toNat < 256 ∧ releaseAt State.reset (0 / 4) 4 = .ok t ∧ 2 ^ 12 ≤ (4096 : Word).toNat ∧ 256 ≤ (256 : Word).toNat := by
  obtain ⟨t, h, -⟩ := ok_of (x := releaseAt State.reset 0 4) (p := fun _ => true) (by decide +kernel)
  exact ⟨t, by decide +kernel, by decide, h, by decide, by decide⟩

theorem witness_TaskForms_tdone : ∃ t v : State, faultedOf State.reset 0 = none ∧ tdoneReady State.reset 0 0 = true ∧ (State.reset.ctx 0).divs = []
    ∧ ((releaseItems State.reset 0).ctx 0).task = none ∧ releaseAt (releaseItems State.reset 0) 0 4 = .ok t
    ∧ (if postsAt t none then releaseAt t 0 4 else .ok t) = .ok v := by
  obtain ⟨t, h, -⟩ := ok_of (x := releaseAt (releaseItems State.reset 0) 0 4) (p := fun _ => true) (by decide +kernel)
  exact ⟨t, t, by decide +kernel, by decide +kernel, by decide +kernel, by decide +kernel, h, rfl⟩

/-- A launch instance of queue 5 with POST set, whose completion posts to the next stage. -/
def finishing : State :=
  let s := at0 fun c => { c with state := .running, task := some ⟨5, 0, true, 2 ^ (64 * 2 + 9), 0, 0, 0⟩ }
  { s with queues := [(5, { base := 0x4000, capacity := 2, en := true, nsv := true, nextStage := 6 }), (6, { base := 0x8000, capacity := 2, en := true })] }

theorem witness_TaskForms_tdone_post : ∃ (t v : State) (k : TaskRef), ((releaseItems finishing 0).ctx 0).task = some k ∧ k.launch = true ∧ tdoneReady finishing 0 0 = true
    ∧ releaseAt (releaseItems finishing 0) 0 (finalScope k.record.toNat) = .ok t ∧ postsAt t (some k) = true ∧ releaseAt t 0 4 = .ok v := by
  obtain ⟨t, h, hp⟩ := ok_of (x := releaseAt (releaseItems finishing 0) 0 (finalScope (2 ^ (64 * 2 + 9) : BitVec 1024).toNat))
    (p := fun t => postsAt t (some ⟨5, 0, true, 2 ^ (64 * 2 + 9), 0, 0, 0⟩) && okIs (releaseAt t 0 4) fun _ => true) (by decide +kernel)
  simp only [Bool.and_eq_true] at hp
  obtain ⟨v, hv, -⟩ := ok_of hp.2
  exact ⟨t, v, ⟨5, 0, true, 2 ^ (64 * 2 + 9), 0, 0, 0⟩, by decide +kernel, rfl, by decide +kernel, h, hp.1, hv⟩

/-- The shutter armed for shut, partition 0 allowed. -/
def armed : State := { State.reset with shutter := { State.reset.shutter with arm := 15, shutpart := 1, evcount := 1, seen := 1, reached := true } }

theorem witness_TaskForms_shut : armed.shutter.arm.getLsbD 0 = true ∧ armed.shutter.shutpart.getLsbD (armed.pnum 0) = true ∧ armed.shutter.fired = false
    ∧ State.reset.shutter.arm.getLsbD 0 = false := by
  refine ⟨?_, ?_, ?_, ?_⟩ <;> decide +kernel

theorem witness_SystemForms_tret : OnScalar State.reset ∧ State.reset.c.lmode = false ∧ State.reset.c.sc.rptAct = false ∧ State.reset.c.quiet = true
    ∧ State.reset.c.run = [] ∧ tilesSettled State.reset State.reset.cur = true := by
  refine ⟨by unfold OnScalar; decide +kernel, ?_, ?_, ?_, ?_, ?_⟩ <;> decide +kernel

/-- In lane mode with a load outstanding; and a replay whose rpt word cannot be fetched. -/
theorem witness_SystemForms_tret_waits : (∃ s : State, OnScalar s ∧ s.c.lmode = true ∧ s.c.quiet = false)
    ∧ ∃ (r : State) (c sub : Nat) (a left : _), OnScalar r ∧ r.c.lmode = false ∧ r.c.sc.rptAct = true
      ∧ fetchWord r r.cur ((r.c.sc.tepc &&& ~~~(3 : Word)) - word (4 * (r.c.sc.rptI + 1))) = .error (.stop c sub a left) := by
  refine ⟨⟨at0 fun c => { c with lmode := true, handler := true, loads := [⟨1, 64, {}, 8, false, false, none, 0, 0, {}, 0, none⟩] }, by unfold OnScalar; decide +kernel, by decide +kernel,
    by decide +kernel⟩, ?_⟩
  let r := at0 fun c => { c with sc := { c.sc with rptAct := true, tepc := 4 } }
  have h : (match fetchWord r r.cur ((r.c.sc.tepc &&& ~~~(3 : Word)) - word (4 * (r.c.sc.rptI + 1))) with
    | .error (.stop ..) => true
    | _ => false) = true := by decide +kernel
  split at h
  · rename_i c b a l he; exact ⟨r, c, b, a, l, by unfold OnScalar; decide +kernel, by decide +kernel, by decide +kernel, he⟩
  · cases h

/-- A handler over split lanes, and one over a repeat frame whose rpt stands at the place of the tables' word. -/
theorem witness_SystemForms_handlers : ∃ (s : State) (r : State) (u : State) (w : Nat), OnScalar s ∧ s.c.lmode = true ∧ s.c.quiet = true ∧ OnScalar r ∧ r.c.lmode = false ∧ r.c.sc.rptAct = true
    ∧ fetchWord r r.cur ((r.c.sc.tepc &&& ~~~(3 : Word)) - word (4 * (r.c.sc.rptI + 1))) = .ok (u, w) := by
  let r := (ready 0x8F).withC { (ready 0x8F).c with sc := { (ready 0x8F).c.sc with rptAct := true, tepc := 4 } }
  obtain ⟨⟨u, w⟩, h, -⟩ := ok_of (x := fetchWord r r.cur ((r.c.sc.tepc &&& ~~~(3 : Word)) - word (4 * (r.c.sc.rptI + 1)))) (p := fun _ => true) (by decide +kernel)
  exact ⟨at0 fun c => { c with lmode := true, trapv := true, handler := true }, r, u, w, by unfold OnScalar; decide +kernel, by decide +kernel, by decide +kernel,
    by unfold OnScalar; decide +kernel, by decide +kernel, by decide +kernel, h⟩

/-- A bound context, with room to save it. -/
def bound : State :=
  let s := at0 fun c => { c with state := .running, task := some ⟨0, 0, false, 0, 0, 0, 0⟩ }
  s.setPart 0 { s.part 0 with savebase := 0x100000, savesize := 0x1000000 }

theorem witness_SystemForms_yield : ∃ u, restReady bound bound.cur = .ok u ∧ bound.c.free = false ∧ bound.c.run = [] ∧ tilesSettled bound bound.cur = true
    ∧ bound.c.viq = [] ∧ bound.c.sb = [] ∧ bound.c.loads = [] ∧ ∃ t, saveContext (passed u) bound.cur = some t := by
  have h : (match restReady bound bound.cur with
    | .ok u => (saveContext (passed u) bound.cur).isSome
    | .error _ => false) = true := by decide +kernel
  split at h
  · rename_i u hu
    exact ⟨u, hu, by decide +kernel, by decide +kernel, by decide +kernel, by decide +kernel, by decide +kernel, by decide +kernel, some_of h⟩
  · cases h

/-- A word core 0 has written, where a copy channel is registered: no release of the core at pkg can be made yet. -/
def blocked (s : State) : State :=
  (enterBytes s 0 0x1000 4 7 1 0 0).setChan 7 { cmds := [{ copyCmd State.reset 511 7 8 64 32 0x200001 none with regs := [(0x1000, 32, 0)] }] }

/-- Whether a computation waits. -/
def waits {α : Type} (x : Except MErr α) : Bool :=
  match x with
  | .error (.wait _) => true
  | _ => false

theorem waits_of {α : Type} {x : Except MErr α} (h : waits x = true) : ∃ u, x = .error (.wait u) := by
  unfold waits at h
  split at h
  · exact ⟨_, rfl⟩
  · cases h

theorem witness_SystemForms_rest_waits : OnScalar (blocked bound) ∧ (blocked bound).c.quiet = true ∧ ∃ t, restReady (blocked bound) (blocked bound).cur = .error (.wait t) := by
  refine ⟨by unfold OnScalar; decide +kernel, by decide +kernel, ?_⟩
  obtain ⟨u, hu⟩ := waits_of (x := releaseAt (blocked bound) (blocked bound).cur 4) (by decide +kernel)
  exact ⟨u, by unfold restReady; rw [hu]⟩

/-- A save area too small for the image. -/
theorem witness_SystemForms_save_full : ∃ s : State, s.c.free = false ∧ saveContext (passed s) s.cur = none :=
  ⟨bound.setPart 0 { bound.part 0 with savesize := 0 }, by decide +kernel, by decide +kernel⟩

theorem witness_SystemForms_older : (storing.c.sb ≠ []) ∧ OnScalar storing := ⟨by decide +kernel, by unfold OnScalar; decide +kernel⟩

theorem witness_SystemForms_probe : ∃ (x : Probe) (s : State) (a : _), OnScalar s ∧ Reads s x.a.val a ∧ Ready s x.d.val ∧ NoFenceHeld s :=
  ⟨⟨0, true, 1, 1⟩, mapped 64 0 0, 64, by unfold OnScalar; decide +kernel, reads_of (by decide +kernel), ready_of (by decide +kernel),
    by unfold NoFenceHeld; decide +kernel⟩

theorem witness_SystemForms_probed : ∃ (l : Load) (k : Nat) (t : State) (v : _), l.probe = some k ∧ probeWord (mapped 64 0 0) 0 k l.va = .ok (t, v) := by
  obtain ⟨⟨t, v⟩, h, -⟩ := ok_of (x := probeWord (mapped 64 0 0) 0 2 64) (p := fun _ => true) (by decide +kernel)
  exact ⟨Load.mk 1 64 {} 0 false false none 0 0 {} 2 (some 2), 2, t, v, rfl, h⟩

/-- The walk of a probe of sequencer 0. -/
def probeWalk (s : State) (a : Word) (need : Need) : Except MErr (State × Found) := lookup s (0 / 4) (s.pnum 0) (s.ctx 0).root.toNat (s.ctx 0).space a need

/-- A leaf that admits the read; none; and a poisoned table. -/
theorem witness_SystemForms_walks : okIs (probeWalk (mapped 64 0 0) 64 .r) (fun y => y.2.fail.isNone && y.2.entry.isSome) = true
    ∧ okIs (probeWalk State.reset 64 .r) (fun y => y.2.fail.isSome) = true
    ∧ (match probeWalk { mapped 64 0 0 with poison := [tableFrame * 4096] } 64 .r with
      | .error (.stop ..) => true
      | _ => false) = true := by
  refine ⟨?_, ?_, ?_⟩ <;> decide +kernel

theorem witness_SystemForms_probe_high : 2 ^ 56 ≤ (2 ^ 56 : Word).toNat := by decide

theorem witness_TrapsTaken_in_context : ∃ s : State, OnScalar s ∧ s.c.sc.tvec.getLsbD 0 = true ∧ s.c.stepping = false ∧ s.c.viq = [] ∧ s.c.run = []
    ∧ cILLEGAL ≠ cSOFTWARE :=
  ⟨at0 fun c => { c with sc := { c.sc with tvec := 0x2001 } }, by unfold OnScalar; decide +kernel, by decide +kernel, by decide +kernel, by decide +kernel, by decide +kernel, by decide⟩

/-- Under STEP, EN set. -/
theorem witness_TrapsTaken_stepped : ∃ s : State, OnScalar s ∧ s.c.sc.tvec.getLsbD 0 = true ∧ s.c.stepping = true ∧ s.c.viq = [] ∧ s.c.run = [] ∧ s.c.sb = []
    ∧ s.c.loads = [] ∧ s.c.divs = [] :=
  ⟨at0 fun c => { c with stepping := true, sc := { c.sc with tvec := 0x2001 } }, by unfold OnScalar; decide +kernel, by decide +kernel, by decide +kernel,
    by decide +kernel, by decide +kernel, by decide +kernel, by decide +kernel, by decide +kernel⟩

/-- No release of the core has to wait. -/
theorem released_of {s : State} (h : waits (releaseAt s s.cur 4) = false) : ∀ u, releaseAt s s.cur 4 ≠ .error (.wait u) := by
  intro u hu
  rw [hu] at h
  cases h

theorem witness_TrapsTaken_to_keeper : OnScalar State.reset ∧ State.reset.c.sc.tvec.getLsbD 0 = false ∧ State.reset.c.viq = [] ∧ State.reset.c.run = []
    ∧ State.reset.c.sb = [] ∧ State.reset.c.loads = [] ∧ State.reset.c.divs = [] ∧ (∀ u, releaseAt State.reset State.reset.cur 4 ≠ .error (.wait u))
    ∧ 255 ≠ cSOFTWARE := by
  refine ⟨by unfold OnScalar; decide +kernel, ?_, ?_, ?_, ?_, ?_, ?_, released_of (by decide +kernel), ?_⟩ <;> decide +kernel

theorem witness_TrapsTaken_waits : ∃ (t : Trap) (u : State), ((blocked State.reset).ctx 0).canTake t = true ∧ t.classB = true
    ∧ ((blocked State.reset).ctx 0).inContext t = false ∧ releaseAt (blocked State.reset) 0 4 = .error (.wait u) := by
  obtain ⟨u, hu⟩ := waits_of (x := releaseAt (blocked State.reset) 0 4) (by decide +kernel)
  exact ⟨classB cXLATE_INVALID 0 0 0, u, by decide +kernel, rfl, by decide +kernel, hu⟩

theorem witness_TrapsTaken_held : ∃ t, (storing.ctx 0).canTake t = false := ⟨classB cXLATE_INVALID 0 0 0, by decide +kernel⟩

theorem witness_TrapsTaken_delivered : ∃ (s : State) (t : _), (s.ctx 0).pend = some t ∧ (s.ctx 0).canTake t = true
    ∧ (s.ctx 0).sc.tvec.getLsbD 0 = false ∧ ∀ u, releaseAt (s.setCtx 0 { s.ctx 0 with pend := none }) 0 4 ≠ .error (.wait u) := by
  let s := at0 fun c => { c with pend := some (classA cILLEGAL 0 0x19 0) }
  exact ⟨s, classA cILLEGAL 0 0x19 0, by decide +kernel, by decide +kernel, by decide +kernel,
    released_of (s := s.setCtx 0 { s.ctx 0 with pend := none }) (by decide +kernel)⟩

theorem witness_TrapsTaken_delivered_in_context : ∃ (s : State) (t : _), (s.ctx 0).pend = some t ∧ (s.ctx 0).canTake t = true ∧ t.classB = false
    ∧ (s.ctx 0).sc.tvec.getLsbD 0 = true ∧ (s.ctx 0).stepping = false :=
  ⟨at0 fun c => { c with pend := some (classA cILLEGAL 0 0x19 0), sc := { c.sc with tvec := 0x2001 } }, classA cILLEGAL 0 0x19 0, by decide +kernel, by decide +kernel,
    rfl, by decide +kernel, by decide +kernel⟩

theorem witness_TrapsTaken_delivery_waits : ∃ (s : State) (t : _) (u : State), (s.ctx 0).pend = some t ∧ (s.ctx 0).canTake t = true ∧ t.classB = true
    ∧ releaseAt (s.setCtx 0 { s.ctx 0 with pend := none }) 0 4 = .error (.wait u) := by
  let s := blocked (at0 fun c => { c with pend := some (classB cXLATE_INVALID 0 0 0) })
  obtain ⟨u, hu⟩ := waits_of (x := releaseAt (s.setCtx 0 { s.ctx 0 with pend := none }) 0 4) (by decide +kernel)
  exact ⟨s, classB cXLATE_INVALID 0 0 0, u, by decide +kernel, by decide +kernel, rfl, hu⟩

/-! ### The steps of the other agents -/

/-- An entry of a mov at the head of the queue of sequencer 0, its pipes owned. -/
def heading (op : VOp) : State :=
  let e := { entry ⟨0, op, 3, 1, 2, 0, 0, false, false, 0, false, 0⟩ 2 1 0 0x11 with pipes := 0xFF }
  strips.withC { strips.c with viq := [e], ord := 1 }

/-- The head of a queue of sequencer 0 may start. -/
def HeadStarts (op : VOp) (p : VqEntry → Prop) : Prop :=
  ∃ e r, ((heading op).ctx 0).viq = e :: r ∧ ((heading op).ctx 0).run = [] ∧ startCheck (heading op) 0 e = .ok () ∧ headOutranked (heading op) 0 = false ∧ p e

theorem head_starts {op : VOp} {p : VqEntry → Prop}
    (h : okIs (startCheck (heading op) 0 ((heading op).c.viq.headD (entry ⟨0, .mov, 3, 1, 2, 0, 0, false, false, 0, false, 0⟩ 2 0 0 0x11))) (fun _ => true) = true)
    (g : headOutranked (heading op) 0 = false)
    (k : p ((heading op).c.viq.headD (entry ⟨0, .mov, 3, 1, 2, 0, 0, false, false, 0, false, 0⟩ 2 0 0 0x11))) : HeadStarts op p := by
  obtain ⟨u, hu, -⟩ := ok_of h
  exact ⟨_, _, by rfl, by rfl, hu, g, k⟩

theorem witness_BackEndSteps_start : HeadStarts .mov fun e => e.form.op.restart ≠ .detached ∧ e.form.op ≠ .wst ∧ e.form.op ≠ .mcast ∧ e.form.op ≠ .recv :=
  head_starts (by decide +kernel) (by decide +kernel) (by decide +kernel)

theorem witness_BackEndSteps_recv : HeadStarts .recv fun e => e.form.op = .recv := head_starts (by decide +kernel) (by decide +kernel) (by rfl)

theorem witness_BackEndSteps_mcast : HeadStarts .mcast fun e => e.form.op = .mcast := head_starts (by decide +kernel) (by decide +kernel) (by rfl)

/-- Sequencer 1 of the core has the same head, which comes after that of sequencer 0 (R387). -/
theorem witness_BackEndSteps_outranked : ∃ (s : State) (e : _) (r : _), (s.ctx 1).viq = e :: r ∧ (s.ctx 1).run = [] ∧ headOutranked s 1 = true ∧ headReady s 0 = true :=
  ⟨(heading .mov).setCtx 1 (heading .mov).c, _, _, by rfl, by rfl, by decide +kernel, by decide +kernel⟩

/-- A mov of eleven elements under way, or done. -/
def moving (g : Nat) : Ctx := { run := [entry ⟨0, .mov, 3, 1, 2, 0, 0, false, false, 0, false, 0⟩ 11 0 0 0x11], runG := g }

theorem witness_BackEndSteps_group : ∃ (s : State) (e : VqEntry), (s.ctx 0).run = [e] ∧ e.form.op.restart = .element ∧ e.form.op.isMem = false
    ∧ (∀ m, e.form.op ≠ .cvt m) ∧ e.resumed = false ∧ (s.ctx 0).runG < e.stop :=
  ⟨at0 fun _ => moving 8, _, by rfl, by rfl, by rfl, (fun m h => by cases h), by rfl, by decide +kernel⟩

/-- A run resumed at element 8: its elements commit one by one to the end of the group (R53). -/
theorem witness_BackEndSteps_resumed : ∃ (s : State) (e : VqEntry), (s.ctx 0).run = [e] ∧ e.form.op.restart = .element ∧ e.form.op.isMem = false
    ∧ (∀ m, e.form.op ≠ .cvt m) ∧ e.resumed = true ∧ (s.ctx 0).runG < (e.start / 8 + 1) * 8 ∧ (s.ctx 0).runG < e.stop :=
  ⟨at0 fun _ => { moving 8 with run := [{ entry ⟨0, .mov, 3, 1, 2, 0, 0, false, false, 0, false, 0⟩ 11 0 0 0x11 with start := 8, resumed := true }] }, _, by rfl, by rfl,
    by rfl, (fun m h => by cases h), by rfl, by decide +kernel, by decide +kernel⟩

theorem witness_BackEndSteps_complete : ∃ (s : State) (e : VqEntry), (s.ctx 0).run = [e] ∧ e.form.op.restart = .element ∧ e.stop ≤ (s.ctx 0).runG :=
  ⟨at0 fun _ => moving 11, _, by rfl, by rfl, by decide +kernel⟩

theorem witness_BackEndSteps_tile : ∃ o r, (vget (working.core 0).tiles 7 {}).ops = o :: r ∧ o.started = false ∧ framesReady (working.core 0) o.e.form = true
    ∧ (o.product && (engineBusy (working.core 0) || halfRun (working.core 0) 7)) = false ∧ tileAhead working o.seq 7 o.e.ord = false :=
  ⟨_, _, by rfl, by rfl, by decide +kernel, by decide +kernel, by decide +kernel⟩

/-- A tmma under way on tile 6 keeps the engine; another waits on tile 7. -/
theorem witness_BackEndSteps_tmma : ∃ (x : Core) (o m : TileOp), (vget x.tiles 7 {}).ops = [o] ∧ (vget x.tiles 6 {}).ops = [m] ∧ m.started = true ∧ o.started = false
    ∧ (o.product && engineBusy x) = true ∧ framesReady x o.e.form = false := by
  let op := fun (t : Nat) (on : Bool) => TileOp.mk (entry ⟨0, .tmma, t, 0, 1, 0, 0, false, false, 0, false, 0⟩ 2 0 0 0x11) 0 [] on 0 false false
  exact ⟨{ tiles := vset (vset (Vector.replicate 8 {}) 7 { ops := [op 7 false] }) 6 { ops := [op 6 true] } }, op 7 false, op 6 true, by rfl, by rfl, by rfl, by rfl,
    by decide +kernel, by decide +kernel⟩

/-- A product on tile 6 has taken frames and was then reloaded: it goes on before one on tile 7 begins. -/
theorem witness_BackEndSteps_half : ∃ (x : Core) (o : TileOp), (vget x.tiles 7 {}).ops = [o] ∧ o.started = false ∧ engineBusy x = false
    ∧ (o.product && (engineBusy x || halfRun x 7)) = true := by
  let op := fun (t n : Nat) => TileOp.mk (entry ⟨0, .tmma, t, 0, 1, 0, 0, false, false, 0, false, 0⟩ 2 0 0 0x11) 0 [] false n false false
  exact ⟨{ tiles := vset (vset (Vector.replicate 8 {}) 7 { ops := [op 7 0] }) 6 { ops := [op 6 3] } }, op 7 0, by rfl, by rfl, by decide +kernel, by decide +kernel⟩

/-- Sequencer 0 asleep on the eight bytes at address 0 of the tables of `placed`. -/
def asleep (w : Wait) : State := (placed 0x56).withC { (placed 0x56).c with wait := some w }

/-- One read of a sleeping waita, its condition ≥ against `cmp`: what it finds. -/
def waitaReads (cmp : Word) (lim : Option Nat) (p : State → Nat → Bool) : Bool :=
  let s := asleep (.waita 1 2 0 { pa := codeBase, grain := 1 } cmp lim)
  okIs (accessPlace s 0 (s.ctx 0).sc.pc 0 .r true) fun y =>
    let w := reslept y.1 0 (.waita 1 2 0 y.2 cmp lim)
    (w.ctx 0).mayRead (s.ctx 0).ord y.2 8 && okIs (readHere (watchAnew w 0 y.2) 0 (s.ctx 0).ord y.2 8) fun r => p r.1 r.2

theorem witness_BackEndSteps_waita : waitaReads 0x56 none (fun _ v => decide ((0x56 : Word).toInt ≤ (word v).toInt)) = true
    ∧ waitaReads 0x57 none (fun _ v => decide (¬(0x57 : Word).toInt ≤ (word v).toInt)) = true
    ∧ waitaReads 0x57 (some 0) (fun u _ => decide (0 ≤ u.time)) = true ∧ 0 ≤ (asleep (.tile 0)).time := by
  refine ⟨?_, ?_, ?_, ?_⟩ <;> decide +kernel

/-- A place in host memory on the plain path is polled, and one in device memory is not. -/
theorem witness_BackEndSteps_polled : polled State.reset 0 { host := true } = true ∧ polled State.reset 0 { pa := codeBase } = false := by
  constructor <;> decide +kernel

/-- One read of a sleeping bar of generation `n` and scope `sc` in the state `f` makes of the sleeper's, whether a store of its own
stands before it, and the read of its acquire. -/
def wakeReads (f : State → State) (n : BitVec 16) (sc : Nat) (p : Nat → Bool → Except MErr (State × Nat) → Bool) : Bool :=
  let s := f (asleep (.bar 1 0 { pa := codeBase, grain := 1 } n sc true))
  okIs (accessPlace s 0 (s.ctx 0).sc.pc 0 .r false) fun y =>
    let w := reslept y.1 0 (.bar 1 0 y.2 n sc true)
    (!y.2.host || coherent w (w.pnum 0)) && (w.ctx 0).mayRead (s.ctx 0).ord y.2 8
      && okIs (readHere (watchAnew w 0 y.2) 0 (s.ctx 0).ord y.2 8) fun r =>
        p r.2 ((r.1.ctx 0).ownAhead (s.ctx 0).ord y.2 8 sc) (acquireRead r.1 0 (s.ctx 0).ord y.2 8 sc)

/-- The die point's copy of a host line is older than host memory, and its invalidation is on its way. -/
def lagging (s : State) : State :=
  let h := { hosted with seqs := s.seqs, cores := s.cores }
  { h with
    link := { h.link with hcoh := 1 }, hostMem := Memory.writeN [] (codeBase + 4) 4 7
    cxl := { h.cxl with cache := true, hostLines := [(hostTag + codeBase, .s)] }
    die := [(unitKey 0 (hostTag + codeBase), .value 0x56), (unitKey 0 (hostTag + codeBase + 4), .value 6)]
    idq := [{ src := 0, dst := 0, addr := hostTag + codeBase, update := none, len := 32, ver := 0 }] }

theorem witness_BackEndSteps_bar : wakeReads id 0 4 (fun v _ _ => BitVec.ofNat 16 (v / 2 ^ 32) == 0) = true
    ∧ wakeReads id 7 4 (fun v own r => BitVec.ofNat 16 (v / 2 ^ 32) != 7 && !own && okIs r fun y => BitVec.ofNat 16 (y.2 / 2 ^ 32) != 7) = true
    ∧ wakeReads lagging 7 5 (fun v own r => BitVec.ofNat 16 (v / 2 ^ 32) != 7 && !own && okIs r fun y => BitVec.ofNat 16 (y.2 / 2 ^ 32) == 7) = true := by
  refine ⟨?_, ?_, ?_⟩ <;> decide +kernel

/-- A store of its own to the word stands in the buffer: the sleeper's acquire waits for it. -/
theorem witness_BackEndSteps_bar_own : wakeReads (fun s => s.withC { s.c with sb := [⟨.store 0 { pa := codeBase, grain := 1 } 8 0, 0, 0, {}, 0⟩], ord := 1 }) 7 4
    (fun v own _ => BitVec.ofNat 16 (v / 2 ^ 32) != 7 && own) = true := by decide +kernel

/-- A bar asleep on host memory that the plain path reaches. -/
theorem witness_BackEndSteps_bar_host : ∃ (s t : State) (y : Xl), (s.ctx 0).wait = some (.bar 1 0 { pa := codeBase, grain := 1 } 7 4 true)
    ∧ accessPlace s 0 (s.ctx 0).sc.pc 0 .r false = .ok (t, y) ∧ y.host = true
    ∧ coherent (t.setCtx 0 { t.ctx 0 with wait := some (.bar 1 0 y 7 4 true) }) ((t.setCtx 0 { t.ctx 0 with wait := some (.bar 1 0 y 7 4 true) }).pnum 0) = false := by
  let s := hosted.withC { hosted.c with wait := some (.bar 1 0 { pa := codeBase, grain := 1 } 7 4 true) }
  obtain ⟨⟨t, y⟩, h, hp⟩ := ok_of (x := accessPlace s 0 (s.ctx 0).sc.pc 0 .r false)
    (p := fun y => y.2.host && let w := reslept y.1 0 (.bar 1 0 y.2 7 4 true); !coherent w (w.pnum 0)) (by decide +kernel)
  simp only [Bool.and_eq_true, Bool.not_eq_true'] at hp
  exact ⟨s, t, y, by decide +kernel, h, hp.1, hp.2⟩

/-- A context that stops, in lane mode if `lanes`, with a store of its lanes held if `held`. -/
def halting (lanes held : Bool) : State :=
  at0 fun c => { c with state := .stopping, lmode := lanes, sb := if held then [⟨.store 0 { pa := codeBase, grain := 1 } 8 0, 0, 0, {}, 0⟩] else [] }

theorem witness_BackEndSteps_stopping : ∃ u v : State, ((halting false false).ctx 0).state = .stopping ∧ ((halting false false).ctx 0).run = []
    ∧ ((halting false false).ctx 0).laneHeld = false ∧ ((halting false false).ctx 0).laneOn = false ∧ releaseAt (halting false false) 0 4 = .ok u
    ∧ ((halting true false).ctx 0).laneHeld = false ∧ ((halting true false).ctx 0).laneOn = true ∧ releaseAt (stopSquash (halting true false) 0) 0 4 = .ok v := by
  obtain ⟨u, h, -⟩ := ok_of (x := releaseAt (halting false false) 0 4) (p := fun _ => true) (by decide +kernel)
  obtain ⟨v, g, -⟩ := ok_of (x := releaseAt (stopSquash (halting true false) 0) 0 4) (p := fun _ => true) (by decide +kernel)
  exact ⟨u, v, by decide +kernel, by decide +kernel, by decide +kernel, by decide +kernel, h, by decide +kernel, by decide +kernel, g⟩

theorem witness_BackEndSteps_stopping_lanes : ((halting true true).ctx 0).state = .stopping ∧ ((halting true true).ctx 0).run = []
    ∧ ((halting true true).ctx 0).laneHeld = true := by
  refine ⟨?_, ?_, ?_⟩ <;> decide +kernel

theorem witness_BackEndSteps_stopping_waits : ∃ u : State, ((blocked (halting false false)).ctx 0).state = .stopping ∧ ((blocked (halting false false)).ctx 0).run = []
    ∧ ((blocked (halting false false)).ctx 0).laneHeld = false ∧ ((blocked (halting false false)).ctx 0).laneOn = false
    ∧ releaseAt (blocked (halting false false)) 0 4 = .error (.wait u) := by
  obtain ⟨u, h⟩ := waits_of (x := releaseAt (blocked (halting false false)) 0 4) (by decide +kernel)
  exact ⟨u, by decide +kernel, by decide +kernel, by decide +kernel, by decide +kernel, h⟩

/-- The tables of `placed`, and a copy of one grain from address 64 to address 0x100 on channel 7. -/
def copying (busy : Bool) (rows : Nat) : State :=
  let s := placed 0x56
  s.setChan 7 { cmds := [{ copyCmd s 0 7 8 64 0x100 0x200001 none with rows := rows }], busy := busy }

theorem witness_EngineAndSchedulerSteps_start : ∃ m r, ((copying false 1).chan 7).cmds = m :: r ∧ mayStart (copying false 1) 7 = true
    ∧ ((copying false 1).chan 7).owed = [] ∧ m.kind ≠ 3 :=
  ⟨_, _, by rfl, by decide +kernel, by decide +kernel, by decide +kernel⟩

theorem witness_EngineAndSchedulerSteps_grain : ∃ (m : Cmd) (r : _) (t : State) (v : Nat) (u : State), ((copying true 1).chan 7).cmds = m :: r ∧ ((copying true 1).chan 7).busy = true
    ∧ m.kind ≠ 3 ∧ m.film = false ∧ m.left ≠ 0 ∧ engineRead (copying true 1) 7 m (m.src + word m.off) 32 = .ok (t, v) ∧ engineWrite t 7 m m.dst 32 v = .ok u := by
  let m := ((copying true 1).chan 7).cmds.headD (copyCmd State.reset 0 7 8 64 32 0x200001 none)
  obtain ⟨⟨t, v⟩, h, hp⟩ := ok_of (x := engineRead (copying true 1) 7 m (m.src + word m.off) 32) (p := fun y => okIs (engineWrite y.1 7 m m.dst 32 y.2) fun _ => true)
    (by decide +kernel)
  obtain ⟨u, hu, -⟩ := ok_of hp
  exact ⟨m, [], t, v, u, by rfl, by decide +kernel, by decide +kernel, by decide +kernel, by decide +kernel, h, hu⟩

/-- The tables of `placed`, and a gather of the element at 64 twice to the bytes at 0x100. -/
def fetching (got : List (Nat × Nat)) : State :=
  let s := placed 0x56
  s.setChan 7 { cmds := [{ gathCmd s 0 7 64 [64, 64] 0x0200000000000100 5 with got := got }], busy := true }

theorem witness_EngineAndSchedulerSteps_gath : ∃ (m : Cmd) (t : State) (v : Nat) (u : State), ((fetching []).chan 7).cmds = [m] ∧ ((fetching []).chan 7).busy = true ∧ m.kind = 3
    ∧ m.idx = [64, 64] ∧ m.got = [] ∧ engineRead (fetching []) 7 m (word 64) m.esz = .ok (t, v) ∧ engineWrite t 7 m m.dst m.esz v = .ok u := by
  let m := ((fetching []).chan 7).cmds.headD (copyCmd State.reset 0 7 8 64 32 0x200001 none)
  obtain ⟨⟨t, v⟩, h, hp⟩ := ok_of (x := engineRead (fetching []) 7 m (word 64) m.esz) (p := fun y => okIs (engineWrite y.1 7 m m.dst m.esz y.2) fun _ => true)
    (by decide +kernel)
  obtain ⟨u, hu, -⟩ := ok_of hp
  exact ⟨m, t, v, u, by rfl, by rfl, by rfl, by rfl, by rfl, h, hu⟩

theorem witness_EngineAndSchedulerSteps_gath_again : ∃ (m : Cmd) (u : State), ((fetching [(64, 9)]).chan 7).cmds = [m] ∧ m.kind = 3 ∧ m.idx = [64, 64]
    ∧ find m.got 64 = some 9 ∧ engineWrite (fetching [(64, 9)]) 7 m m.dst m.esz 9 = .ok u := by
  let m := ((fetching [(64, 9)]).chan 7).cmds.headD (copyCmd State.reset 0 7 8 64 32 0x200001 none)
  obtain ⟨u, h, -⟩ := ok_of (x := engineWrite (fetching [(64, 9)]) 7 m m.dst m.esz 9) (p := fun _ => true) (by decide +kernel)
  exact ⟨m, u, by rfl, by rfl, by rfl, by rfl, h⟩

theorem witness_EngineAndSchedulerSteps_fault : ∃ (m : Cmd) (cause sub : Nat) (a left : _) (va : Word), ((queued 1 false).chan 7).busy = true
    ∧ creditDue (queued 1 false) 7 m = false ∧ moveGrain (queued 1 false) 7 m = .error (.stop cause sub a left, va) := by
  let m := copyCmd State.reset 0 7 8 64 32 0x200001 none
  have h : (match moveGrain (queued 1 false) 7 m with
    | .error (.stop .., _) => true
    | _ => false) = true := by decide +kernel
  split at h
  · rename_i c b a l va he; exact ⟨m, c, b, a, l, va, by decide +kernel, by decide +kernel, he⟩
  · cases h

/-- 4 KiB have landed since the last credit. -/
theorem witness_EngineAndSchedulerSteps_credit : ∃ m r, ((queued 1 false).chan 7).busy = true ∧ ((queued 1 false).chan 7).cmds = [m] ∧ r = { m with done := 4096 }
    ∧ creditDue ((queued 1 false).setChan 7 { (queued 1 false).chan 7 with cmds := [r] }) 7 r = true :=
  ⟨_, _, by decide +kernel, by rfl, rfl, by decide +kernel⟩

theorem witness_EngineAndSchedulerSteps_complete : ∃ m r, ((copying true 0).chan 7).cmds = m :: r ∧ ((copying true 0).chan 7).busy = true ∧ m.left = 0
    ∧ m.bar.getLsbD 63 = false ∧ m.follow = none :=
  ⟨_, _, by rfl, by decide +kernel, by decide +kernel, by decide +kernel, by decide +kernel⟩

theorem witness_EngineAndSchedulerSteps_faulted : ((queued 1 true).chan 7).faulted = true := by decide +kernel

/-- A kept event and a kept post, and a queue with room. -/
def posting : State :=
  { State.reset with events := [{ part := 0, queue := 5, body := 1 }], posts := [{ queue := 5, record := 2 }], queues := [(5, { base := 0x4000, capacity := 2, en := true })] }

theorem witness_EngineAndSchedulerSteps_posts : posting.events.find? (fun e => e.part == 0 && !(posting.queue e.queue).full) = some { part := 0, queue := 5, body := 1 }
    ∧ (posting.queue 5).full = false ∧ posting.posts.find? (fun p => p.queue == 5) = some { queue := 5, record := 2 } := by
  refine ⟨?_, ?_, ?_⟩ <;> decide +kernel

theorem witness_EngineAndSchedulerSteps_slice : ∃ s : State, (s.ctx 0).state = .running ∧ (s.ctx 0).free = false ∧ (s.part (s.pnum 0)).slice.toNat ≠ 0
    ∧ (s.part (s.pnum 0)).slice.toNat ≤ (s.ctx 0).sliceUsed ∧ contended s (s.pnum 0) = false :=
  ⟨at0 fun c => { c with state := .running, sliceUsed := 1000000 }, by decide +kernel, by decide +kernel, by decide +kernel, by decide +kernel, by decide +kernel⟩

/-- An enabled queue with a task, and no sequencer that could take it: the one placement page allows no cluster. -/
def contending : State :=
  let s := { posting with events := [], posts := [], queues := [(5, { base := 0x4000, capacity := 2, en := true, tail := 1 })], places := [(0, { clusters := 0 })] }
  let s := { s with mem := Memory.writeN [] 0x407F 1 1 }
  let s := s.setPart 0 { s.part 0 with savebase := 0x100000, savesize := 0x1000000 }
  s.withC { s.c with state := .running, sliceUsed := 1000000, worked := true, task := some ⟨0, 0, false, 0, 0, 0, 0⟩ }

/-- A context that has had no effect since it began and is not blocked, and one whose lanes hold a store, keep their slice. -/
theorem witness_EngineAndSchedulerSteps_slice_kept : (let s := contending.withC { contending.c with worked := false }
      contended s (s.pnum 0) = true ∧ (s.ctx 0).movedOn = false ∧ stuck s 0 = false)
    ∧ (let s := contending.withC { contending.c with lmode := true, sb := [⟨.store 0 { pa := codeBase, grain := 1 } 8 0, 0, 0, {}, 0⟩] }
      contended s (s.pnum 0) = true ∧ (s.ctx 0).laneHeld = true) := by
  refine ⟨⟨?_, ?_, ?_⟩, ?_, ?_⟩ <;> decide +kernel

theorem witness_EngineAndSchedulerSteps_save : contended contending (contending.pnum 0) = true ∧ (contending.ctx 0).laneHeld = false ∧ (contending.ctx 0).movedOn = true
    ∧ (contending.ctx 0).run = [] ∧ tilesSettled contending 0 = true ∧ ∃ u, releaseAt contending 0 4 = .ok u ∧ ∃ t, saveContext u 0 = some t := by
  obtain ⟨u, h, hp⟩ := ok_of (x := releaseAt contending 0 4) (p := fun u => (saveContext u 0).isSome) (by decide +kernel)
  exact ⟨by decide +kernel, by decide +kernel, by decide +kernel, by decide +kernel, by decide +kernel, u, h, some_of hp⟩

theorem witness_EngineAndSchedulerSteps_save_waits : contended (blocked contending) ((blocked contending).pnum 0) = true
    ∧ ∃ u, releaseAt (blocked contending) 0 4 = .error (.wait u) :=
  ⟨by decide +kernel, waits_of (by decide +kernel)⟩

theorem witness_EngineAndSchedulerSteps_save_full : ∃ (s u : State), contended s (s.pnum 0) = true ∧ releaseAt s 0 4 = .ok u ∧ saveContext u 0 = none := by
  let s := contending.setPart 0 { contending.part 0 with savesize := 0 }
  obtain ⟨u, h, hp⟩ := ok_of (x := releaseAt s 0 4) (p := fun u => (saveContext u 0).isNone) (by decide +kernel)
  exact ⟨s, u, by decide +kernel, h, Option.isNone_iff_eq_none.1 hp⟩

theorem witness_EngineAndSchedulerSteps_selection : ∃ p, State.reset.partOfSeq 2047 = some p ∧ seqFree State.reset 2047 = true ∧ (State.reset.part p).pstate = 1
    ∧ poisonedSlot State.reset p = false :=
  ⟨0, by decide +kernel, by decide +kernel, by decide +kernel, by decide +kernel⟩

/-- A task of queue 5 selected for sequencer 3. -/
def selecting : State :=
  { posting with selected := [⟨some 3, none, 5, 0, none, 0, 0, 0⟩], queues := [(5, { base := 0x4000, capacity := 2, en := true, tail := 1 })], seqs := [(3, { reserved := true })] }

theorem witness_EngineAndSchedulerSteps_bind : ∃ t p q' u es, selectedFor selecting 3 false = some t ∧ selecting.queueOwner t.queue = some p ∧ stageFull selecting t.queue 0 = false
    ∧ chooseSeq selecting t p = some q' ∧ entriesOf selecting (q' / 4) t = .ok (u, es) := by
  obtain ⟨q, h⟩ := some_of (x := chooseSeq selecting ⟨some 3, none, 5, 0, none, 0, 0, 0⟩ 0) (by decide +kernel)
  obtain ⟨⟨u, es⟩, h2, -⟩ := ok_of (x := entriesOf selecting (q / 4) ⟨some 3, none, 5, 0, none, 0, 0, 0⟩) (p := fun _ => true) (by
    rw [show q = (chooseSeq selecting ⟨some 3, none, 5, 0, none, 0, 0, 0⟩ 0).getD 0 by rw [h]; rfl]; decide +kernel)
  exact ⟨⟨some 3, none, 5, 0, none, 0, 0, 0⟩, 0, q, u, es, by decide +kernel, by decide +kernel, by decide +kernel, h, h2⟩

/-- The next stage of queue 5 is full. -/
theorem witness_EngineAndSchedulerSteps_bind_full : ∃ (s : State) (t : Selected), selectedFor s 3 false = some t ∧ s.queueOwner t.queue = some 0 ∧ stageFull s t.queue 0 = true :=
  ⟨{ selecting with queues := [(5, { base := 0x4000, capacity := 2, en := true, tail := 1, nsv := true, nextStage := 6 }), (6, { base := 0x8000, capacity := 2, tail := 4 })] },
    ⟨some 3, none, 5, 0, none, 0, 0, 0⟩, by decide +kernel, by decide +kernel, by decide +kernel⟩

/-- A saved context selected for sequencer 3. -/
def resuming : State :=
  { State.reset with selected := [⟨some 3, none, 5, 0, some 0x100000, 0, 0, 0⟩], saved := [⟨0x100000, 4096, 3, 0, false, none, false⟩], seqs := [(3, { reserved := true })] }

theorem witness_EngineAndSchedulerSteps_resume : ∃ t p v q' u, selectedFor resuming 3 true = some t ∧ resuming.queueOwner t.queue = some p
    ∧ resuming.saved.find? (fun v => some v.base == t.saved) = some v ∧ chooseSeq resuming t p = some q'
    ∧ resumeSaved (bindStages (unselect resuming t) q' fun g => g.saved == t.saved && t.saved.isSome) q' v = some u := by
  let t : Selected := ⟨some 3, none, 5, 0, some 0x100000, 0, 0, 0⟩
  let v : Saved := ⟨0x100000, 4096, 3, 0, false, none, false⟩
  let go := fun q => resumeSaved (bindStages (unselect resuming t) q fun g => g.saved == t.saved && t.saved.isSome) q v
  obtain ⟨q, h⟩ := some_of (x := chooseSeq resuming t 0) (by decide +kernel)
  obtain ⟨u, hu⟩ := some_of (x := go q) (by
    rw [show q = (chooseSeq resuming t 0).getD 0 by rw [h]; rfl]; decide +kernel)
  exact ⟨t, 0, v, q, u, by decide +kernel, by decide +kernel, by decide +kernel, h, hu⟩

/-- Under the tables of `placed` queues 4 (if `two`) and 5 hold a task whose working-set block, at address 64, names one grain. -/
def staging (two : Bool) : State :=
  let s := placeBytes (placed 0x56) (codeBase + 64) 16 (2 ^ 56 + 0x100 + 32 * 2 ^ 64)
  let s := placeBytes s 0x4000 128 (2 ^ 1016 + 2 ^ (8 * 0x20 + 37) + 64 * 2 ^ (8 * 0x30))
  let n : Queue := { base := 0x4000, capacity := 2, en := true, tail := 1, troot := BitVec.ofNat 36 tableFrame }
  let s := { s with queues := if two then [(4, n), (5, n)] else [(5, n)] }
  s.setPart 0 { s.part 0 with lookahead := 4, l2budget := 0x100000, stashbudget := 100 }

/-- What staging of queue 5 finds: the first task considered and its plan. -/
noncomputable def stagingFinds (s : State) (p : Waiting → State → Stage → Bool) : Bool :=
  match firstWaiting s 5 0 with
  | some w => okIs (stagePlan s 5 0 w) fun y => p w y.1 y.2
  | none => false

theorem witness_EngineAndSchedulerSteps_staging : (staging false).queueOwner 5 = some 0 ∧ (staging false).queueOwner 4095 = some 0
    ∧ stagingFinds (staging false) (fun w u g => w.saved.isNone && w.slot == 0 && !outranked u 0 g w && stageFits u g && g.l2 == 32 && g.todo.length == 1) = true
    ∧ stagingFinds (staging true) (fun w u g => outranked u 0 g w) = true := by
  refine ⟨?_, ?_, ?_, ?_⟩ <;> decide +kernel

theorem witness_EngineAndSchedulerSteps_no_owner : ∃ s : State, s.queueOwner 5 = none := ⟨{ State.reset with parts := [(0, { State.reset.part 0 with qcount := 0 })] }, by decide +kernel⟩

theorem witness_EngineAndSchedulerSteps_stage : ∃ (g : Stage) (e : WsEntry) (t : State) (ws : List Nat), g.todo.find? (·.left) = some e
    ∧ landGrain (staging false) g e (e.base + e.off / e.extent * e.stride + e.off % e.extent) = .ok (t, ws) ∧ ws ≠ [] := by
  let e : WsEntry := { kind := 1, base := 0x100, rows := 1, extent := 32, stride := 0 }
  let g : Stage := { queue := 5, slot := 0, part := 0, prio := 0, die := 0, core := 0, l2 := 32, pieces := 0, todo := [e] }
  obtain ⟨⟨t, ws⟩, h, hp⟩ := ok_of (x := landGrain (staging false) g e (e.base + e.off / e.extent * e.stride + e.off % e.extent)) (p := (!·.2.isEmpty)) (by decide +kernel)
  exact ⟨g, e, t, ws, by decide +kernel, h, by rintro rfl; cases hp⟩

theorem witness_EngineAndSchedulerSteps_granule : ∃ (s : State) (x : Granule), find s.granules 3 = some x ∧ x.pinned = none ∧ x.moved = none
    ∧ (get s.places (partOfFrame s (3 * 512)) {}).migrate = true ∧ (stacksOf s (partOfFrame s (3 * 512))).getLsbD 7 = true ∧ stackCount s 7 < stackGranules
    ∧ (let l := s.uses.filter fun u => u.1 == 3 && decide (s.time < u.2.1 + 10000000)
      l ≠ [] ∧ 3 * l.length ≤ 4 * (l.filter fun u => u.2.2 == 7).length ∧ 4 * (l.filter fun u => u.2.2 == 0).length < 3 * l.length) :=
  ⟨{ State.reset with granules := [(3, { stack := 0 })], uses := [(3, 0, 7), (3, 0, 7), (3, 0, 7), (3, 0, 0)] }, { stack := 0 }, by decide +kernel, rfl, rfl,
    by decide +kernel, by decide +kernel, by decide +kernel, by decide +kernel⟩

theorem witness_ControlSteps_states : ((at0 fun c => c).ctx 0).state = .empty ∧ ((at0 fun c => { c with state := .waiting }).ctx 0).state = .waiting
    ∧ ((at0 fun c => { c with state := .trapped }).ctx 0).state = .trapped := by
  refine ⟨?_, ?_, ?_⟩ <;> decide +kernel

theorem witness_ControlSteps_resume : resumeOk (at0 fun c => { c with state := .stopped }) 0 = true ∧ serves (at0 fun c => { c with state := .stopped }) 0 = true
    ∧ resumeOk (at0 fun c => { c with state := .stopped, resume := 2 }) 0 = false ∧ serves (at0 fun c => { c with state := .stopped, resume := 2 }) 0 = true
    ∧ serves ((at0 fun c => { c with state := .stopped }).setPart 0 { State.reset.part 0 with pstate := 2 }) 0 = false := by
  refine ⟨?_, ?_, ?_, ?_, ?_⟩ <;> decide +kernel

theorem witness_ControlSteps_head : ∃ (s : State) (v : Word), (s.queue 5).en = true ∧ v ≠ (s.queue 5).head ∧ (v - (s.queue 5).head).toNat ≤ ((s.queue 5).tail - (s.queue 5).head).toNat
    ∧ (∃ i < (v - (s.queue 5).head).toNat, slotKind (slotRec s 5 ((s.queue 5).head + word i).toNat) ≠ 0xE0) :=
  ⟨selecting, 1, by decide +kernel, by decide +kernel, by decide +kernel, 0, by decide +kernel, by decide +kernel⟩

/-- The same with an event record in the slot. -/
theorem witness_ControlSteps_head_event : ∃ s : State, (s.queue 5).en = true ∧ (1 : Word) ≠ (s.queue 5).head ∧ (1 - (s.queue 5).head).toNat ≤ ((s.queue 5).tail - (s.queue 5).head).toNat
    ∧ ∀ i < (1 - (s.queue 5).head).toNat, slotKind (slotRec s 5 ((s.queue 5).head + word i).toNat) = 0xE0 := by
  let s := placeSlot { selecting with queues := [(5, { base := 0x4000, capacity := 2, en := true })] } 5 (EventWord.body { event := 2, pc := 4 } 0)
  exact ⟨s, by decide +kernel, by decide +kernel, by decide +kernel, by decide +kernel⟩

theorem witness_ControlSteps_items : ((State.reset.ctx (4 * 511 + 3)).state = .empty) ∧ (vget (State.reset.core 511).films 3 {}).holder = none
    ∧ (vget (State.reset.core 511).tiles 7 {}).claim = none ∧ (State.reset.chan (8 * 511 + 7)).cmds = []
    ∧ ownerOf (vget ({ pipe := Vector.replicate 8 0 } : Owners).pipe 7 0) = none := by
  refine ⟨?_, ?_, ?_, ?_, ?_⟩ <;> decide +kernel

theorem witness_ControlSteps_partition : absent State.reset 31 = true ∧ absent (State.reset.setPart 31 { pstate := 1 }) 31 = false ∧ ((State.reset.setPart 31 { pstate := 2 }).part 31).pstate = 2 ∧ State.reset.partOfSeq 0 = some 0
    ∧ 4096 < (0x10000FFF : Word).toNat % 4096 + (0x10000FFF : Word).toNat / 65536 % 8192
    ∧ (0x10000000 : Word).toNat % 4096 + (0x10000000 : Word).toNat / 65536 % 8192 ≤ 4096 := by
  refine ⟨?_, ?_, ?_, ?_, ?_, ?_⟩ <;> decide +kernel

theorem witness_ControlSteps_slot : ∃ r w, validate 7 (vget State.reset.slots 7 {}).draining (vget State.reset.slots 7 {}).sattr (vget State.reset.slots 7 {}).sent = (r, w) := by
  generalize validate 7 _ _ _ = z
  exact ⟨z.1, z.2, rfl⟩

theorem witness_ControlSteps_drained : (vget { State.reset with slots := vset State.reset.slots 7 { draining := true } }.slots 7 {}).draining = true := by decide +kernel

theorem witness_ControlSteps_register : 0xF000000000000 ≤ 0xFFFFFFFFFFFF8 ∧ 0xFFFFFFFFFFFF8 < 2 ^ 52 ∧ 0xFFFFFFFFFFFF8 % 8 = 0 := by decide +kernel

/-- Two words written by core 0 in one store at 0x1000, and one it holds as a copy at 0x2000. -/
def written : State :=
  let s := enterBytes State.reset 0 0x1000 8 7 1 0 0
  { s with reg := put s.reg (unitKey 0 0x2000) { val := 5, mask := 15, registered := false, exported := false, grain := 1, slot := 0 } }

/-- Both words are registered together. -/
theorem witness_MemorySteps_register : unregisteredAt written 0 (0x1003 / 4 * 4) ≠ none ∧ boundTo (unregisteredAt written 0) (0x1003 / 4 * 4) = [0x1000, 0x1004]
    ∧ ∀ u ∈ boundTo (unregisteredAt written 0) (0x1003 / 4 * 4), (∃ r, find written.reg (unitKey 0 u) = some r ∧ r.mask = 15) ∧ engineHolds written u = false
      ∧ ∀ o, find written.die (unitKey (coreDie 0) u) ≠ some (.core o) := by
  have h : (boundTo (unregisteredAt written 0) (0x1003 / 4 * 4)).all (fun u => ((find written.reg (unitKey 0 u)).map (·.mask)) == some 15 && !engineHolds written u
      && (find written.die (unitKey (coreDie 0) u)).isNone) = true := by decide +kernel
  refine ⟨by decide +kernel, by decide +kernel, fun u hu => ?_⟩
  have h := List.all_eq_true.1 h u hu
  simp only [Bool.and_eq_true, Bool.not_eq_true', beq_iff_eq, Option.map_eq_some_iff] at h
  exact ⟨h.1.1, h.1.2, fun o ho => by rw [ho] at h; simp at h⟩

theorem witness_MemorySteps_copy : unregisteredAt written 0 (0x2000 / 4 * 4) = none := by decide +kernel

/-- The written words registered at their die, under a grain of 64 bytes and a slot. -/
def registered (sl : Nat) : State :=
  let s := enterBytes State.reset 0 0x1000 8 7 1 sl 0
  { s with die := put (put s.die (unitKey 0 0x1000) (.core 0)) (unitKey 0 0x1004) (.core 0) }

/-- The export of the words of 0x1000. -/
def exporting (s : State) : Except MErr (State × Bool) :=
  match unplacedAt s 0 (0x1000 / 4 * 4) with
  | some r => placeGroup s 0 r.grain r.slot ((boundTo (unplacedAt s 0) (0x1000 / 4 * 4)).map fun u => (u, match unplacedAt s 0 u with
      | some x => x.val
      | none => homeWord s u)) none
  | none => .error (.wait s)

/-- It is placed; waits for a page that changes its bias; and is refused on a line of slot 3 in state W. -/
theorem witness_MemorySteps_export : okIs (exporting (registered 0)) (fun _ => true) = true
    ∧ ((unplacedAt { registered 0 with cxl := { (registered 0).cxl with flipPages := [1] } } 0 0x1000).isSome = true
      ∧ waits (exporting { registered 0 with cxl := { (registered 0).cxl with flipPages := [1] } }) = true)
    ∧ ((unplacedAt { registered 3 with lines := [(0x1000, { grain := 1, slot := 3, state := 2, holders := 0, owner := none, version := 0 })] } 0 0x1000).isSome = true
      ∧ (match exporting { registered 3 with lines := [(0x1000, { grain := 1, slot := 3, state := 2, holders := 0, owner := none, version := 0 })] } with
        | .error (.stop ..) => true
        | _ => false) = true) := by
  refine ⟨?_, ⟨?_, ?_⟩, ?_, ?_⟩ <;> decide +kernel

theorem witness_MemorySteps_export_none : unplacedAt written 0 (0x1000 / 4 * 4) = none := by decide +kernel

theorem witness_MemorySteps_deliver : ∃ d q, popDelivery [{ src := 7, dst := 0, addr := 0x1000, update := none, len := 128 }] 7 0 = some (d, q) := ⟨_, _, rfl⟩

/-- A line held by die 0, clean, and by die 7 as well if `two`. -/
def lined (two : Bool) : State :=
  { State.reset with lines := [(0x1000, { grain := 1, slot := 0, state := 1, holders := if two then 0x81 else 1, owner := none, version := 0 })] }

theorem witness_MemorySteps_line : ∃ (l : Line) (t : State) (v : _), find (lined false).lines 0x1000 = some l ∧ l.holders.getLsbD 7 = false ∧ dieRead (lined false) 7 0x1000 l.grain l.slot = .ok (t, v)
    ∧ l.owner ≠ some 0 ∧ l.holders.getLsbD 0 = true ∧ writesUnderWay (lined false) 0 0x1000 l = false ∧ dirtyWords (lined false) 0 0x1000 l = false
    ∧ l.holders = BitVec.ofNat 8 (2 ^ 0) := by
  obtain ⟨⟨t, v⟩, h, -⟩ := ok_of (x := dieRead (lined false) 7 0x1000 1 0) (p := fun _ => true) (by decide +kernel)
  exact ⟨{ grain := 1, slot := 0, state := 1, holders := 1, owner := none, version := 0 }, t, v, by decide +kernel, by decide, h, by decide, by decide, by decide +kernel, by decide +kernel, by decide⟩

theorem witness_MemorySteps_shared : ∃ l : Line, find (lined true).lines 0x1000 = some l ∧ l.holders.getLsbD 7 = true ∧ dirtyWords (lined true) 7 0x1000 l = false
    ∧ l.holders ≠ BitVec.ofNat 8 (2 ^ 7) ∧ writesUnderWay (lined true) 7 0x1000 l = false :=
  ⟨_, by rfl, by decide +kernel, by decide +kernel, by decide +kernel, by decide +kernel⟩

/-- An owner with a dirty word. -/
def dirtied : State :=
  { State.reset with lines := [(0x1000, { grain := 1, slot := 0, state := 2, holders := 1, owner := some 0, version := 0 })], die := [(unitKey 0 0x1000, .value 9)] }

theorem witness_MemorySteps_dirty : ∃ l : Line, find dirtied.lines 0x1000 = some l ∧ l.owner = some 0 ∧ l.holders.getLsbD 0 = true ∧ dirtyWords dirtied 0 0x1000 l = true
    ∧ writesUnderWay dirtied 0 0x1000 l = false ∧ ∀ x ∈ dirtied.wbls, ¬(x.1 = 0 ∧ x.2.1 = 0x1000) :=
  ⟨_, by rfl, by decide +kernel, by decide +kernel, by decide +kernel, by decide +kernel, by decide +kernel⟩

/-- A write-back on its way to the home, of the line's version or of an older one. -/
theorem witness_MemorySteps_wbl : ∃ (s t : State) (l m : Line), find s.lines 0x1000 = some l ∧ s.wbls.find? (fun x => x.1 == 0 && x.2.1 == 0x1000) = some (0, 0x1000, l.version)
    ∧ l.owner = some 0 ∧ find t.lines 0x1000 = some m ∧ t.wbls.find? (fun x => x.1 == 0 && x.2.1 == 0x1000) = some (0, 0x1000, 9) ∧ m.version ≠ 9 :=
  ⟨{ dirtied with wbls := [(0, 0x1000, 0)] }, { dirtied with wbls := [(0, 0x1000, 9)] }, _, _, by rfl, by decide +kernel, by rfl, by rfl, by decide +kernel, by decide +kernel⟩

theorem witness_MemorySteps_errors : (∃ r, find written.reg (unitKey 0 (0x2002 / 4 * 4)) = some r ∧ r.registered = false)
    ∧ (find dirtied.die (unitKey 0 (0x1000 / 4 * 4)) = some (.value 9) ∧ lineAt { dirtied with lines := [] } 0x1000 = none)
    ∧ find State.reset.llc (0x1000 / 4 * 4) = none ∧ ∃ s t, (s : State).tlb[0]? = some t :=
  ⟨⟨_, by rfl, by decide +kernel⟩, ⟨by decide +kernel, by decide +kernel⟩, by decide +kernel, ⟨{ State.reset with tlb := [⟨0, 0, 0, 0, 0, 0, 0⟩] }, _, by rfl⟩⟩

theorem witness_MemorySteps_entry : (vget (vget State.reset.slots 3 {}).aent (16 * 2 + evWR) 0).getLsbD 11 = true
    ∧ (vget (vget State.reset.slots 3 {}).aent (16 * 2 + evRD) 0).toNat / 8 % 512 ≠ 0 ∧ (vget (vget State.reset.slots 3 {}).aent (16 * 1 + evWRO) 0).toNat / 8 % 512 = 0 := by
  refine ⟨?_, ?_, ?_⟩ <;> decide +kernel

theorem witness_HostSteps_link : ∃ speed width, linkOk speed width true true = true := ⟨6, 16, by decide⟩

theorem witness_HostSteps_bar0_read : functionUp { State.reset with agenda := [] } 0 = true ∧ reach { State.reset with agenda := [] } 0 0xFA00000008000 = some true
    ∧ (0xF000000000000 + 0x280008007 / 2 ^ 30 % 16 * 2 ^ 44 + 0x280008007 % 2 ^ 30) / 8 * 8 = 0xFA00000008000
    ∧ (∃ s : State, functionUp s 1 = true ∧ reach s 1 0xFA00000008000 = none) := by
  refine ⟨by decide +kernel, by decide +kernel, by decide, { State.reset with link := { State.reset.link with vfe := true, numvf := 1 } }, by decide +kernel, by decide +kernel⟩

theorem witness_HostSteps_bar0 : functionUp State.reset 0 = true ∧ reach State.reset 0 (bar0Addr 0x3FFFFFFF8) = some true ∧ 0x3FFFFFFF8 < 2 ^ 34 ∧ 0x3FFFFFFF8 % 8 = 0 := by
  refine ⟨?_, ?_, ?_, ?_⟩ <;> decide +kernel

theorem witness_HostSteps_bar2 : bar2Addr State.reset 0 0x3FFFFFFF 8 = some 0x3FFFFFFF ∧ engineFree State.reset 0x3FFFFFFF 8 = true
    ∧ poisoned (homeRead State.reset 0x3FFFFFFF 8).1 0x3FFFFFFF 8 = false ∧ poisoned State.reset 0x3FFFFFFF 8 = false
    ∧ (hostOpWidths .cas).contains 8 = true ∧ (∃ t old, hostRead (homeSettle State.reset 0x3FFFFFFF 8) 0x3FFFFFFF 8 = (t, old)) ∧ bar2Addr { State.reset with link := { State.reset.link with bar2base := 0x5FC0000000 } } 0 0x3FFFFFFF 8 = none := by
  refine ⟨?_, ?_, ?_, ?_, ?_, ⟨_, _, rfl⟩, ?_⟩ <;> decide +kernel

theorem witness_MemorySteps_host : hostTag ≤ 2 ^ 55 + 0x20 ∧ (2 ^ 55 + 0x20) % 32 = 0 ∧ find State.reset.lines (2 ^ 55 + 0x20) = none ∧ 0x1000 < hostTag := by
  refine ⟨?_, ?_, ?_, ?_⟩ <;> decide +kernel

theorem witness_HostSteps_functions : State.reset.link.vfe = false ∧ ((State.reset.setPart 31 { pstate := 2 }).part 31).pstate = 2 ∧ (State.reset.part 31).pstate ≠ 2 ∧ ({ State.reset with link := { State.reset.link with vfe := true } } : State).link.vfe = true
    ∧ ((State.reset.setPart 31 { pstate := 1 }).part 31).pstate ≠ 0 := by
  refine ⟨?_, ?_, ?_, ?_, ?_⟩ <;> decide +kernel

/-- A Translation Request and a Page Request outstanding. -/
def asked (stale : Bool) : State :=
  { State.reset with ats := [⟨1, .seq 0, 0, 0, 0x10, { w := true }, 0, false, true, stale, none, 2, none, false⟩,
      ⟨2, .seq 0, 0, 0, 0x10, { w := true }, 0, true, true, false, none, 1, none, false⟩], invPending := 31, link := { State.reset.link with priEnable := 1 } }

theorem witness_HostSteps_ats : ∃ r, (asked false).ats.find? (fun r => r.id == 1 && !r.isPri && r.done.isNone && r.fail.isNone) = some r ∧ r.stale = false
    ∧ ((false || !r.needs.r) && (true || !r.needs.w) && (false || !r.needs.x)) = true
    ∧ ((true || !r.needs.r) && (false || !r.needs.w) && (true || !r.needs.x)) = false ∧ r.meetings < 3
    ∧ (asked false).link.priFailed.getLsbD r.fn = false ∧ (asked false).link.priEnable.getLsbD r.fn = true :=
  ⟨_, by rfl, rfl, rfl, rfl, by decide, by decide +kernel, by decide +kernel⟩

theorem witness_HostSteps_ats_stale : ∃ r, (asked true).ats.find? (fun r => r.id == 1 && !r.isPri && r.done.isNone && r.fail.isNone) = some r ∧ r.stale = true
    ∧ ((false || !r.needs.r) && (true || !r.needs.w) && (false || !r.needs.x)) = true :=
  ⟨_, by rfl, rfl, rfl⟩

theorem witness_HostSteps_pri : ∃ r, (asked false).ats.find? (fun r => r.id == 2 && r.isPri && r.sent) = some r := ⟨_, by rfl⟩

theorem witness_HostSteps_invalidate : 0 < (asked false).invPending ∧ (asked false).invPending < 32 ∧ ∀ r ∈ (asked false).ats, r.done = none := by refine ⟨?_, ?_, ?_⟩ <;> decide +kernel

/-- A load from host memory, or from a peer, outstanding. -/
def distant (x : Xl) : State := at0 fun c => { c with loads := [⟨1, 0, x, 8, false, false, none, 0, 0, {}, 0, none⟩], ord := 1 }

theorem witness_HostSteps_failing : ((distant { host := true }).ctx 0).loads.any (fun l => l.x.host) = true ∧ (distant { host := true }).link.failing = []
    ∧ coherent (distant { host := true }) ((distant { host := true }).pnum 0) = false ∧ ((State.reset.part 31).pstate ≠ 2) ∧ ((State.reset.setPart 31 { pstate := 2 }).part 31).pstate = 2 := by
  refine ⟨?_, ?_, ?_, ?_, ?_⟩ <;> decide +kernel

/-- That load, after a Completer Abort for it. -/
def aborted : State := { distant { host := true } with link := { State.reset.link with failing := [(.seq 0, false, 6)] } }

theorem witness_HostSteps_abort : ∃ (l : Load) (sub : Nat) (left : Option State), (aborted.ctx 0).loads[0]? = some l ∧ (aborted.ctx 0).run = []
    ∧ (∀ e ∈ (aborted.ctx 0).viq, l.ord ≤ e.ord) ∧ (aborted.ctx 0).clearBefore l.ord = true ∧ (aborted.ctx 0).acquireWaits l = false
    ∧ (aborted.ctx 0).mayRead l.ord l.x l.n = true ∧ loadData aborted 0 l.halves.1 = .error (.stop cHOST_ABORT sub none left)
    ∧ (∀ u, releaseAt aborted 0 4 ≠ .error (.wait u)) ∧ aborted.link.failing.find? (fun f => f.1 == .seq 0 && f.2.1 == false) = some (.seq 0, false, 6) := by
  let l : Load := ⟨1, 0, { host := true }, 8, false, false, none, 0, 0, {}, 0, none⟩
  have h : (match loadData aborted 0 l.halves.1 with
    | .error (.stop 0x26 _ none _) => true
    | _ => false) = true := by decide +kernel
  obtain ⟨t, h1, -⟩ := ok_of (x := releaseAt aborted 0 4) (p := fun _ => true) (by decide +kernel)
  split at h
  · rename_i sub left he
    exact ⟨l, sub, left, by decide +kernel, by decide +kernel, by decide +kernel, by decide +kernel, by decide +kernel, by decide +kernel, he, by simp [h1], by rfl⟩
  · cases h

theorem witness_SharedMemoryAndPeerSteps_snoop : ∃ x, (State.reset.cxl.pendReq.any fun p => p.1 == 0x7F / 64 * 64) = false
    ∧ find ({ State.reset with cxl := { State.reset.cxl with hostLines := [(0x40, .m)] } } : State).cxl.hostLines (0x7F / 64 * 64) = some x :=
  ⟨.m, by decide +kernel, by decide +kernel⟩

theorem witness_SharedMemoryAndPeerSteps_queued : ∃ (c : Cxl) (w : HostReq), (c.pendReq.any fun p => p.1 == 0x7F / 64 * 64) = true ∧ c.pendReq.find? (fun p => p.1 == 0x40) = some (0x40, w)
    ∧ (∀ p ∈ c.snoops, p.1 ≠ 0x40) ∧ (∀ p ∈ c.pendReq, p.1 = 0x40 → p.2 = w) ∧ w ≠ .rdOwnNoData :=
  ⟨{ pendReq := [(0x40, .rdOwn)] }, .rdOwn, by decide, by decide, by decide, by decide, by decide⟩

/-- The host has enabled CXL.mem, HDM-DB, over the first 256 MiB. -/
def sharing : State :=
  { State.reset with link := { State.reset.link with cxl := true }, cxl := { State.reset.cxl with mode := 2, hdmsize := 0x10000000, biWait := [(0x40, true)] } }

theorem witness_SharedMemoryAndPeerSteps_hdm : inHdm sharing 0x80 = true ∧ engineFree sharing 0x80 64 = true ∧ sharing.cxl.mode = 2 ∧ sharing.link.cxl = true
    ∧ (sharing.cxl.biWait.any fun p => p.1 == 0x80) = false ∧ (∃ t, exec (.m2sReq 0x80) sharing = .next t ∧ poisoned t 0x80 64 = false) ∧ sharing.cxl.biWait.find? (fun p => p.1 == 0x40) = some (0x40, true) := by
  refine ⟨by decide +kernel, by decide +kernel, rfl, rfl, by decide +kernel, ⟨_, rfl, by decide +kernel⟩, by decide +kernel⟩

theorem witness_SharedMemoryAndPeerSteps_flip : ∃ c : Cxl, c.flipbusy = false ∧ c.mode = 1
    ∧ c.hdmbase.toNat / 2 ^ 21 % 2 ^ 31 * 512 ≤ c.flipaddr.toNat / 2 ^ 12 % 2 ^ 40
    ∧ c.flipaddr.toNat / 2 ^ 12 % 2 ^ 40 + c.flipcnt.toNat ≤ c.hdmbase.toNat / 2 ^ 21 % 2 ^ 31 * 512 + c.hdmsize.toNat / 4096 :=
  ⟨{ mode := 1, hdmsize := 0x10000000, flipaddr := 0x1000, flipcnt := 0xFFFF }, rfl, rfl, by decide, by decide⟩

theorem witness_SharedMemoryAndPeerSteps_flip_out : ∃ c : Cxl, c.flipbusy = false ∧ c.mode = 1
    ∧ c.hdmbase.toNat / 2 ^ 21 % 2 ^ 31 * 512 + c.hdmsize.toNat / 4096 < c.flipaddr.toNat / 2 ^ 12 % 2 ^ 40 + c.flipcnt.toNat :=
  ⟨{ mode := 1, hdmsize := 0x10000000, flipaddr := 0x1000, flipcnt := 0x10000 }, rfl, rfl, by decide⟩

theorem witness_SharedMemoryAndPeerSteps_port : (35 : Nat) < 36 ∧ State.reset.link.portdis.getLsbD 35 = false := by decide

/-- Ingress entry 63 admits device 1023 for reads of pages 0 and 1. -/
def admitting : State :=
  { State.reset with link := { State.reset.link with ingress := [(63, (0x2003FF, 0, 0x1000))] } }

theorem witness_SharedMemoryAndPeerSteps_peer : admitted admitting 1023 0 0x1FF8 (.read 8) = true ∧ 0x1FF8 + 8 < 0xF000000000000 ∧ engineFree admitting 0x1FF8 8 = true
    ∧ (vget admitting.slots 3 {}).draining = false ∧ (vget admitting.slots 3 {}).active = true ∧ (peerAccess (.read 8)).2 = false ∧ admitted admitting 1023 0 0x1FFC (.read 8) = false := by
  refine ⟨?_, ?_, ?_, ?_, ?_, ?_, ?_⟩ <;> decide +kernel

/-- Entry 63 admits writes as well; a line of slot 3 in state W refuses them (R316). -/
theorem witness_SharedMemoryAndPeerSteps_refused : (∃ o, (peerAccess o).2 = true)
    ∧ ∃ s b l, lineAt s 0x1000 = some (b, l) ∧ homeRefuses s 0x1000 = true :=
  ⟨⟨.write 8 0, rfl⟩, { State.reset with lines := [(0x1000, { grain := 1, slot := 3, state := 2, holders := 0, owner := none, version := 0 })] }, _, _,
    by rfl, by decide +kernel⟩

/-- The peer of the load answers through the route of `linked`. -/
def farther : State := { distant { dev := 1 } with link := linked.link }

theorem witness_SharedMemoryAndPeerSteps_load : ∃ (l : Load) (t : State) (rs : _), (farther.ctx 0).loads.find? (fun l => onPeer l.x false) = some l ∧ farther.link.failing = []
    ∧ ({ farther.link with failing := [(.seq 0, true, 0x12)] } : HostLink).failing.find? (fun f => f.1 == .seq 0 && f.2.1 == true) = some (.seq 0, true, 0x12) ∧ peerLoad (farther.ctx 0) = some 0 ∧ (farther.ctx 0).loads[0]? = some l
    ∧ (farther.ctx 0).mayRead l.ord l.x l.n = true ∧ (farther.ctx 0).acquireWaits l = false ∧ loadData farther 0 l.halves.1 = .ok (t, rs) := by
  obtain ⟨⟨t, rs⟩, h, -⟩ := ok_of (x := loadData farther 0 ⟨1, 0, { dev := 1 }, 8, false, false, none, 0, 0, {}, 0, none⟩) (p := fun _ => true) (by decide +kernel)
  exact ⟨⟨1, 0, { dev := 1 }, 8, false, false, none, 0, 0, {}, 0, none⟩, t, rs, by decide +kernel, by decide +kernel, by rfl, by decide +kernel, by decide +kernel,
    by decide +kernel, by decide +kernel, h⟩

theorem witness_BoardSteps_store : ∃ n : NegStore, n.status ≠ 1 ∧ n.nreg ≠ 0 ∧ n.nreg ≤ 16 ∧ (regionFault [] ((List.range n.nreg).map fun i => get n.regions i (0, 0, 0))).isSome = true :=
  ⟨{ nreg := 1, regions := [(0, (0x1000, 33, 0))] }, by decide, by decide, by decide, by decide +kernel⟩

theorem witness_BoardSteps_regions : ∃ n : NegStore, n.status ≠ 1 ∧ n.nreg ≠ 0 ∧ n.nreg ≤ 16 ∧ regionFault [] ((List.range n.nreg).map fun i => get n.regions i (0, 0, 0)) = none :=
  ⟨{ nreg := 1, regions := [(0, (0x1000, 0x1000, 0))] }, by decide, by decide, by decide, by decide +kernel⟩

theorem witness_BoardSteps_running : ∃ n m : NegStore, n.running = some true ∧ m.running = some false ∧ m.status = 1 ∧ ∀ t ∈ m.shards, t.job ≠ m.cmd.job ∨ t.complete = false :=
  ⟨{ running := some true }, { running := some false, status := 1 }, rfl, rfl, rfl, by decide⟩

theorem witness_BoardSteps_save : ∃ n m : NegStore, n.running = some true ∧ totalBytes n.ranges = 32 ∧ totalBytes n.ranges ≤ n.progress.toNat
    ∧ n.cmd.donebar.getLsbD 63 = false ∧ (n.newShards.map (·.size)).sum = 160 ∧ m.running = some false ∧ m.cmd.donebar.getLsbD 63 = false
    ∧ totalBytes m.restored ≤ m.progress.toNat ∧ m.restored = [(0x1000, 32)] :=
  ⟨{ running := some true, cmd := { regions := [(0x1000, 32, 0)] }, progress := 32, taken := List.replicate 32 1 },
    { running := some false, progress := 32, shards := [⟨0, 0, 0, 1, 0, 0x1000, 32, List.replicate 32 1, 0, true⟩] }, by decide, by decide +kernel, by decide +kernel,
    by decide +kernel, by decide +kernel, rfl, by decide +kernel, by decide +kernel, by decide +kernel⟩

theorem witness_BoardSteps_grain : ∃ s : State, s.neg.running = some true ∧ nextGrain s.neg.ranges s.neg.progress.toNat = some (0x1020, 4)
    ∧ chanHolds s 0x1020 4 = false ∧ printHolds s 0x1020 4 = false ∧ poisoned s 0x1020 4 = false ∧ poisoned { s with poison := [0x1020] } 0x1020 4 = true :=
  ⟨{ State.reset with neg := { running := some true, cmd := { regions := [(0x1000, 36, 1)] }, progress := 32 } }, by decide +kernel, by decide +kernel,
    by decide +kernel, by decide +kernel, by decide +kernel, by decide +kernel⟩

/-- The digest of the empty message that FIPS 202 gives for SHAKE256 (R427). -/
theorem test_shake256 : shake256 [] = 0xbec4b7b3ac2e294086b49a47491c82fcf692b5679d0105cb00f2c0d8ddc45dd72f76d56e64270cb5821bb862ea52cd3f24eb3e74eb3f3b23138da80b2bddb946 := by
  decide +kernel

/-- One grain of a save is read and PROGRESS advances by its bytes (R425, R427): HT16 takes 2 bytes of each word, HTMX 33 of a
block of zeros, ZE elides an empty page (R426). -/
theorem test_save_grain : (saveGrain { State.reset with neg := { running := some true, cmd := { regions := [(0x1000, 64, 0)] } } }).neg.progress = 32
    ∧ payload 1 [0, 0, 0x80, 0x3F] = [0x80, 0x3F] ∧ (payload 2 (List.replicate 128 0)).length = 33 ∧ payload 3 (List.replicate 4096 0) = [0] := by
  refine ⟨?_, ?_, ?_, ?_⟩ <;> decide +kernel

theorem witness_BoardSteps_shutter : armed.shutter.fired = false ∧ armed.shutter.reached = true
    ∧ ({ fired := true, stills := [(0, 0)] } : Shutter).fired = true ∧ ({} : Shutter).reached = false ∧ ({ due := [(0, 0)] } : Shutter).due ≠ [] := by decide +kernel

theorem witness_BoardSteps_report : ∃ a b : Board, a.busy = true ∧ 2 ^ 20 ≤ a.leaf ∧ b.busy = true ∧ b.leaf < 2 ^ 20 :=
  ⟨{ busy := true, leaf := 2 ^ 20 }, { busy := true, leaf := 2 ^ 20 - 1 }, rfl, by decide, rfl, by decide⟩

theorem witness_BoardSteps_cap : 1000 ≤ (1000 : Word).toNat ∧ (3400 : Word).toNat ≤ 3400 := by decide

theorem witness_BoardSteps_print : ∃ (p b : Print) (c : Vector Word 8) (r : List (Vector Word 8)), p.queue.length < 16 ∧ p.queue = c :: r ∧ p.busy = false ∧ vget c 5 0 = 0
    ∧ b.queue = c :: r ∧ b.busy = true ∧ (deviceArrive (at0 id) 0).isSome = true ∧ (vget c 1 0).toNat / 2 ^ 32 % 2 ^ 16 = 0 :=
  ⟨{ queue := [Vector.replicate 8 0] }, { queue := [Vector.replicate 8 0], busy := true }, Vector.replicate 8 0, [], by decide, rfl, rfl, by decide, rfl, rfl, by decide +kernel, by decide⟩

theorem witness_MemoryLaws : ∃ m : List Host.Cell, Memory.wf m = true ∧ Memory.read m 5 = 7 ∧ m ≠ [] :=
  ⟨Memory.writeN [] 5 1 7, by decide +kernel, by decide +kernel, by decide +kernel⟩

theorem witness_ResetState : (31 : Nat) ≠ 0 ∧ (31 : Nat) < 32 := by decide

theorem witness_EveryStepKeepsSettled : ∃ s t, step s = .next t := ⟨{ State.reset with dead := true }, _, rfl⟩

end Sys2Proof.Tests
end

