-- ==== Sys2Proof/Proofs/TrappingWords.lean ====
section
/-!
Words that only trap (R94, R96, R97): the words of opcode 0x00 and of the reserved opcodes 0x60 to 0x7F, with the operands they
decode to, and the illegal words; and the trap that such a word raises.
-/
namespace Sys2Proof

/-! ## The words of opcode 0x00 and of the reserved opcodes -/

/-- The operand of opcode 0x00 is every bit above the opcode. -/
theorem ZeroW.enc_dec {n : Nat} (hn : n < 2 ^ 32) (h : n % 128 = 0) : (ZeroW.dec n).enc = n := by
  simp only [ZeroW.enc, ZeroW.dec, BitVec.toNat_ofNat]
  omega

/-- The operands of a reserved opcode are every bit but bits 5 and 6, which are set. -/
theorem ResW.enc_dec {n : Nat} (hn : n < 2 ^ 32) (h : 0x60 ≤ n % 128) : (ResW.dec n).enc + 0x60 = n := by
  simp only [ResW.enc, ResW.dec, BitVec.toNat_ofNat]
  omega

theorem encode_zeroWord_dec (w : BitVec 32) (h : w.toNat % 128 = 0) : encode (.zeroWord (.dec w.toNat)) = some w := by
  simp [encode, ZeroW.enc_dec w.isLt h]

theorem encode_reservedOpcode_dec (w : BitVec 32) (h : 0x60 ≤ w.toNat % 128) :
    encode (.reservedOpcode (.dec w.toNat)) = some w := by
  simp [encode, Nat.add_comm 0x60, ResW.enc_dec w.isLt h]

theorem decode_of_opcode_zero (w : BitVec 32) (h : w.toNat % 128 = 0) : decode w = .zeroWord (.dec w.toNat) :=
  Laws.RoundTrip.zeroWord _ w rfl (encode_zeroWord_dec w h)

theorem decode_of_opcode_reserved (w : BitVec 32) (h : 0x60 ≤ w.toNat % 128) : decode w = .reservedOpcode (.dec w.toNat) :=
  Laws.RoundTrip.reservedOpcode _ w rfl (encode_reservedOpcode_dec w h)

end Sys2Proof

namespace Sys2Proof.Machine

/-! ## The trap of a scalar-side instruction -/

/-- A trap that must wait for older instructions is held in the context, and that is all (R17, R354). -/
theorem raise_of_not_canTake (s : State) (q : Nat) (t : Trap) (h : (s.ctx q).canTake t = false) :
    raise s q t = s.setCtx q { s.ctx q with pend := some t } := by
  simp [raise, h]

theorem settle_classA (s : State) (cause sub : Nat) (tval : Word) :
    settle s (.error (.trap (classA cause sub tval s.pc))) = .next (trapped s cause sub tval) := settle_trap s _ none

theorem exec_zeroWord (x : ZeroW) (s : State) : exec (.zeroWord x) s = .next (trapped s cZERO_WORD 0 (word x.enc)) := by
  rw [← settle_classA]
  simp only [exec, execZeroWord, Nat.zero_add]

theorem exec_reservedOpcode (x : ResW) (s : State) :
    exec (.reservedOpcode x) s = .next (trapped s cILLEGAL 0 (word (x.enc + 0x60))) := settle_classA s ..

theorem exec_illegal (w : BitVec 32) (s : State) : exec (.illegal w) s = .next (trapped s cILLEGAL 0 (w.setWidth 64)) :=
  settle_classA s ..

/-- Settles O4: opcode 0x00 and the reserved opcodes decode whatever the other bits, their operands give back the word for
tval, and a trap that cannot be taken yet only becomes the pending one. -/
theorem wordsThatTrap : Obligations.WordsThatTrap := by
  refine ⟨⟨fun w s h => ⟨_, decode_of_opcode_zero w h, ?_⟩, fun w s h => ⟨_, decode_of_opcode_reserved w h, ?_⟩⟩,
    fun w s => ⟨exec_illegal w s, raise_of_not_canTake s s.cur _⟩⟩
  · rw [exec_zeroWord, ZeroW.enc_dec w.isLt h, word, BitVec.ofNat_toNat]
  · rw [exec_reservedOpcode, ResW.enc_dec w.isLt h, word, BitVec.ofNat_toNat]

end Sys2Proof.Machine
end

