-- ==== Sys2Proof/Proofs/ScalarControl.lean ====
section
/-!
Scalar arithmetic and control (R137, R140, R142 to R145, R151): division, the constant-setting forms, the compare and mask
branches, the jumps, and lbrk with the end test it makes.
-/
namespace Sys2Proof

/-! ## Words that no row reads -/

/-- A word that its row does not read is illegal (R95, R96). -/
theorem decode_of_rowOf_none (w : BitVec 32) (h : rowOf w.toNat = none) : decode w = .illegal w := by
  simp [decode, h]

theorem rowSetK_of_reservedBit (n : Nat) (h : fld n 31 1 = 1) : rowSetK n = none := by
  simp [rowSetK, h]

theorem rowBr_of_reservedCond (n : Nat) (h : 6 ≤ fld n 17 3) : rowBr n = none := by
  unfold rowBr
  repeat rw [if_neg (by omega)]

theorem rowBrm_of_reservedForm (n : Nat) (h : fld n 10 2 = 3) : rowBrm n = none := by
  simp [rowBrm, h]

/-! ## The fields of a word -/

theorem encoding_congr {m n : Nat} (h : m = n) : some (BitVec.ofNat 32 m) = some (BitVec.ofNat 32 n) := by
  rw [h]

/-- The fields of a U-format word, with the bit that tells setz from setk. -/
theorem SetK.word_fields (x : SetK) (clear : Nat) : 8 + 16384 * clear + x.enc
    = 8 + 128 * x.d.val + 4096 * x.slot.val + 16384 * clear + 32768 * x.imm.toNat := by
  unfold SetK.enc; omega

/-- The fields of a B-format word, with the code of its condition. -/
theorem BrC.word_fields (x : BrC) (c : Nat) : 10 + 131072 * c + x.enc
    = 10 + 128 * x.a.val + 4096 * x.b.val + 131072 * c + 1048576 * x.off.toNat := by
  unfold BrC.enc; omega

/-- The fields of an M-format word, with the code of its form. -/
theorem BrM.word_fields (x : BrM) (f : Nat) : 11 + 1024 * f + x.enc
    = 11 + 128 * x.k.val + 1024 * f + 4096 * x.off.toNat := by
  unfold BrM.enc; omega

/-- The fields of a J-format word of opcode 0x0C. -/
theorem OffD.word_fields (x : OffD) : 12 + x.enc = 12 + 128 * x.d.val + 4096 * x.off.toNat := by
  unfold OffD.enc; omega

end Sys2Proof

namespace Sys2Proof.Machine

/-! ## Operands that are awaited -/

/-- A source that is empty makes its reader wait under E = 0 (R31). -/
theorem readS_empty (s : State) (n w : Nat) (h : Empty s n) : readS s n false w = .error (.wait s) := by
  obtain ⟨hl, h0, hq, hf⟩ := h
  simp [readS, hl, h0, hq, hf]

theorem ready_zero (s : State) : Ready s 0 := by
  simp [Ready, freeDest]

theorem readsMask_zero (s : State) : ReadsMask s 0 (BitVec.allOnes 8192) := rfl

/-- A mask that is empty, or that an older instruction has yet to write, makes its reader wait (R31, R52). -/
theorem readK_awaited (s : State) (n : Nat) (h : MaskAwaited s n) : readK s n = .error (.wait s) := by
  obtain ⟨h0, hq | hf⟩ := h
  · simp [readK, h0, hq]
  · simp [readK, h0, hf]

/-! ## Division -/

/-- A division whose result is not outstanding is an ordinary two-source form (R138). -/
theorem divide_written (w : Nat) (x : Alu2) (f : Word → Word → Word) (s : State) (a b : Word) (ha : Reads s x.a.val a)
    (hb : Reads s x.b.val b) (hd : Ready s x.d.val) (h : s.lockstep = true ∨ s.c.laneOn = true) :
    divide w x f s = .next (wrote s x.d.val (f a b)) := by
  unfold Ready at hd
  have hnow : (s.lockstep || s.c.laneOn) = true := by simpa using h
  simp only [divide, ha x.ea w, hb x.eb w, hd, ok_bind, hnow, if_true, pure, Except.pure, settle_ok, wrote]

theorem sdivRem_zero (a b : Word) (h : b = 0) : sdivRem a b = (BitVec.allOnes 64, a) := if_pos h

theorem sdivRem_overflow (a b : Word) (h0 : b ≠ 0) (h : a.toInt = -2 ^ 63 ∧ b.toInt = -1) : sdivRem a b = (a, 0) := by
  rw [sdivRem, if_neg h0, if_pos h]

/-- Only the least integer has a quotient by -1 out of range. -/
theorem ne_intMin_or_ne_neg_one (a b : Word) (h : ¬(a.toInt = -2 ^ 63 ∧ b.toInt = -1)) :
    a ≠ BitVec.intMin 64 ∨ b ≠ -1#64 := by
  by_contra! hab
  obtain ⟨rfl, rfl⟩ := hab
  exact h (by decide)

/-- But for division by zero and the overflow, the signed results are the integers' truncated quotient and remainder. -/
theorem sdivRem_toInt (a b : Word) (h0 : b ≠ 0) (h : ¬(a.toInt = -2 ^ 63 ∧ b.toInt = -1)) :
    (sdivRem a b).1.toInt = a.toInt.tdiv b.toInt ∧ (sdivRem a b).2.toInt = a.toInt.tmod b.toInt := by
  rw [sdivRem, if_neg h0, if_neg h, ← BitVec.toInt_srem,
    ← BitVec.toInt_sdiv_of_ne_or_ne a b (ne_intMin_or_ne_neg_one a b h)]
  simp only [BitVec.ofInt_toInt, and_self]

/-- A truncated remainder is smaller than the divisor. -/
theorem natAbs_tmod_lt (a b : Int) (h : b ≠ 0) : (a.tmod b).natAbs < b.natAbs := by
  rw [Int.natAbs_tmod]
  exact Nat.mod_lt _ (Int.natAbs_pos.mpr h)

/-- A truncated remainder that is not zero has the dividend's sign. -/
theorem tmod_neg_iff (a b : Int) (h : a.tmod b ≠ 0) : a.tmod b < 0 ↔ a < 0 := by
  have hs : (a.tmod b).sign = a.sign := by
    rw [Int.sign_tmod, if_neg fun hd => h (Int.tmod_eq_zero_of_dvd hd)]
  rw [← Int.sign_eq_neg_one_iff_neg, hs, Int.sign_eq_neg_one_iff_neg]

/-- R137 for the signed forms. -/
theorem sdivRem_spec (a b : Word) (h0 : b ≠ 0) (h : ¬(a.toInt = -2 ^ 63 ∧ b.toInt = -1)) :
    a.toInt = (sdivRem a b).1.toInt * b.toInt + (sdivRem a b).2.toInt
    ∧ (sdivRem a b).2.toInt.natAbs < b.toInt.natAbs
    ∧ ((sdivRem a b).2.toInt = 0 ∨ ((sdivRem a b).2.toInt < 0 ↔ a.toInt < 0)) := by
  obtain ⟨hq, hr⟩ := sdivRem_toInt a b h0 h
  have hb : b.toInt ≠ 0 := fun hz => h0 (BitVec.eq_of_toInt_eq (by simpa using hz))
  rw [hq, hr]
  exact ⟨(Int.tdiv_mul_add_tmod _ _).symm, natAbs_tmod_lt _ _ hb, or_iff_not_imp_left.mpr (tmod_neg_iff _ _)⟩

theorem udivRem_zero (a b : Word) (h : b = 0) : udivRem a b = (BitVec.allOnes 64, a) := if_pos h

/-- R137 for the unsigned forms. -/
theorem udivRem_spec (a b : Word) (h0 : b ≠ 0) :
    a.toNat = (udivRem a b).1.toNat * b.toNat + (udivRem a b).2.toNat ∧ (udivRem a b).2.toNat < b.toNat := by
  have hpos : 0 < b.toNat := Nat.pos_of_ne_zero fun hz => h0 (BitVec.eq_of_toNat_eq (by simpa using hz))
  have hq : (word (a.toNat / b.toNat)).toNat = a.toNat / b.toNat :=
    Nat.mod_eq_of_lt ((Nat.div_le_self _ _).trans_lt a.isLt)
  have hr : (word (a.toNat % b.toNat)).toNat = a.toNat % b.toNat :=
    Nat.mod_eq_of_lt ((Nat.mod_le _ _).trans_lt a.isLt)
  rw [udivRem, if_neg h0, hq, hr, Nat.div_add_mod']
  exact ⟨rfl, Nat.mod_lt _ hpos⟩

/-- Settles O9: the four results are those of `sdivRem` and `udivRem`, which are the integers' truncated and the naturals'
quotient and remainder but for the cases that R137 sets apart. -/
theorem divideResults : Obligations.DivideResults := by
  intro x s a b ha hb hd hnow
  refine ⟨(sdivRem a b).1, (sdivRem a b).2, (udivRem a b).1, (udivRem a b).2,
    divide_written _ x _ s a b ha hb hd hnow, divide_written _ x _ s a b ha hb hd hnow,
    divide_written _ x _ s a b ha hb hd hnow, divide_written _ x _ s a b ha hb hd hnow,
    fun h => ?_, fun h0 h1 h2 => ?_, sdivRem_spec a b, udivRem_spec a b⟩
  · simp only [sdivRem_zero a b h, udivRem_zero a b h, and_self]
  · simp only [sdivRem_overflow a b h0 ⟨h1, h2⟩, and_self]

/-! ## Setting constants -/

/-- The bits of a number with a field replaced. -/
theorem testBit_setField (n lo w x i : Nat) :
    (setField n lo w x).testBit i = if lo ≤ i ∧ i < lo + w then x.testBit (i - lo) else n.testBit i := by
  have hsplit : setField n lo w x = 2 ^ lo * (2 ^ w * (n / 2 ^ (lo + w)) + x % 2 ^ w) + n % 2 ^ lo := by
    rw [setField, Nat.pow_add]; ring
  rw [hsplit, Nat.testBit_two_pow_mul_add _ (Nat.mod_lt _ (Nat.two_pow_pos lo)),
    Nat.testBit_two_pow_mul_add _ (Nat.mod_lt _ (Nat.two_pow_pos w))]
  by_cases hlo : i < lo
  · simp [hlo, Nat.not_le.mpr hlo]
  · by_cases hw : i - lo < w
    · simp [hlo, hw, Nat.not_lt.mp hlo, show i < lo + w by omega]
    · simp [hlo, hw, show ¬i < lo + w by omega, Nat.testBit_div_two_pow, show i - lo - w + (lo + w) = i by omega]

/-- A 16-bit slot of a word replaced, as R140 writes it. -/
theorem word_setField (v : Word) (lo : Nat) (imm : BitVec 16) :
    word (setField v.toNat lo 16 imm.toNat) = v &&& ~~~((0xFFFF : Word) <<< lo) ||| imm.setWidth 64 <<< lo := by
  have hmask (k : Nat) : (0xFFFF : Word).getLsbD k = decide (k < 16) := by
    rw [← BitVec.testBit_toNat]; exact Nat.testBit_two_pow_sub_one 16 k
  refine BitVec.eq_of_getLsbD_eq fun i hi => ?_
  simp only [BitVec.getLsbD_ofNat, testBit_setField, BitVec.testBit_toNat, BitVec.getLsbD_or, BitVec.getLsbD_and,
    BitVec.getLsbD_not, BitVec.getLsbD_shiftLeft, BitVec.getLsbD_setWidth, hmask, hi, decide_true, Bool.true_and]
  by_cases hlo : i < lo
  · simp [hlo, Nat.not_le.mpr hlo]
  · by_cases hw : i - lo < 16
    · simp [hlo, hw, Nat.not_lt.mp hlo, show i < lo + 16 by omega, show i - lo < 64 by omega]
    · simp [hlo, hw, show ¬i < lo + 16 by omega, BitVec.getLsbD_of_ge imm (i - lo) (by omega)]

theorem word_setField_zero (lo : Nat) (imm : BitVec 16) :
    word (setField 0 lo 16 imm.toNat) = imm.setWidth 64 <<< lo := by
  simpa using word_setField 0 lo imm

/-- setz reads nothing: its destination need only be free (R140). -/
theorem setConst_clear (w : Nat) (x : SetK) (s : State) (hd : Ready s x.d.val) :
    setConst w x false s = .next (wrote s x.d.val (word (setField 0 (16 * x.slot.val) 16 x.imm.toNat))) := by
  unfold Ready at hd
  simp only [setConst, Bool.false_eq_true, if_false, hd, ok_bind, pure, Except.pure, settle_ok, wrote]

/-- setk waits for its register to be full (R91, R140). -/
theorem setConst_waits (w : Nat) (x : SetK) (s : State) (h : Empty s x.d.val) : setConst w x true s = .next s := by
  simp only [setConst, if_true, readS_empty s _ w h, error_bind, settle_wait s s h.1]

/-- Settles O12: replacing a field of a number is masking and shifting the word, and the rows of opcode 0x08 ask for bit 31
to be zero. -/
theorem setConstants : Obligations.SetConstants := by
  refine ⟨fun x s v hv hd => ?_, fun x s hd => ?_, fun x s h => setConst_waits _ x s h,
    fun x => encoding_congr (SetK.word_fields x 0),
    fun x => encoding_congr (SetK.word_fields x 1), fun w hop hbit => ?_⟩
  · rw [← word_setField]
    exact setConst_next _ x true s v hv hd
  · rw [← word_setField_zero]
    exact setConst_clear _ x s hd
  · have hfld : fld w.toNat 31 1 = 1 := by
      rw [← BitVec.testBit_toNat, Nat.testBit_eq_decide_div_mod_eq, decide_eq_true_iff] at hbit
      exact hbit
    exact decode_of_rowOf_none w ((rowOf_08 _ hop).trans (rowSetK_of_reservedBit _ hfld))

/-! ## Branches -/

/-- A branch offset counts words (R90). -/
theorem wordOff_eq {n : Nat} (o : BitVec n) : wordOff o = 4 * o.signExtend 64 := by
  rw [wordOff, BitVec.shiftLeft_eq_mul_twoPow, BitVec.mul_comm]; rfl

theorem branch_of_iff (w : Nat) (x : BrC) (cond : Word → Word → Bool) (s : State) (a b : Word) (ha : Reads s x.a.val a)
    (hb : Reads s x.b.val b) (taken : Prop) [Decidable taken] (h : cond a b = true ↔ taken) :
    branch w x cond s = .next (if taken then jumped s (s.pc + 4 * x.off.signExtend 64) else passed s) := by
  rw [branch_next w x cond s a b ha hb, wordOff_eq]
  simp only [h]

theorem branch_waits_first (w : Nat) (x : BrC) (cond : Word → Word → Bool) (s : State) (h : Empty s x.a.val) :
    branch w x cond s = .next s := by
  simp only [branch, readS_empty s _ w h, error_bind, settle_wait s s h.1]

theorem branch_waits_second (w : Nat) (x : BrC) (cond : Word → Word → Bool) (s : State) (a : Word)
    (ha : Reads s x.a.val a) (h : Empty s x.b.val) : branch w x cond s = .next s := by
  simp only [branch, ha false w, ok_bind, readS_empty s _ w h, error_bind, settle_wait s s h.1]

/-- A transfer of control moves the program counter and nothing else of the scalar side (R142, R150). -/
theorem jumped_sc (s : State) (t : Word) (h : OnScalar s) : (jumped s t).c.sc = { s.c.sc with pc := t } := by
  have hc : (jumped s t).c = s.c.jump t := State.ctx_setCtx ..
  have hl : ({ s.c with ord := s.c.ord + 1 } : Ctx).laneOn = false := h
  simp only [hc, Ctx.jump, hl, Bool.false_eq_true, if_false]

/-- Settles O14: the six forms are one branch with six conditions, each the one R142 names. -/
theorem compareBranches : Obligations.CompareBranches := by
  refine ⟨fun x s a b ha hb => ?_, jumped_sc, fun x s h => ?_, fun x s a ha h => ?_, fun x => ?_, fun w hop hc => ?_⟩
  · exact ⟨branch_of_iff _ x _ s a b ha hb _ beq_iff_eq, branch_of_iff _ x _ s a b ha hb _ bne_iff_ne,
      branch_of_iff _ x _ s a b ha hb _ BitVec.slt_iff_toInt_lt,
      branch_of_iff _ x _ s a b ha hb _ (by simp [BitVec.slt]),
      branch_of_iff _ x _ s a b ha hb _ BitVec.ult_iff_toNat_lt,
      branch_of_iff _ x _ s a b ha hb _ (by simp [BitVec.ult])⟩
  · have wait := fun w cond => branch_waits_first w x cond s h
    exact ⟨wait _ _, wait _ _, wait _ _, wait _ _, wait _ _, wait _ _⟩
  · have wait := fun w cond => branch_waits_second w x cond s a ha h
    exact ⟨wait _ _, wait _ _, wait _ _, wait _ _, wait _ _, wait _ _⟩
  · have enc := fun c => encoding_congr (BrC.word_fields x c)
    exact ⟨enc 0, enc 1, enc 2, enc 3, enc 4, enc 5⟩
  · exact decode_of_rowOf_none w ((rowOf_0A _ hop).trans (rowBr_of_reservedCond _ hc))

/-! ## Mask branches -/

/-- The bits of the mask below vl. -/
theorem testBit_maskBelow (k : BitVec 8192) (vl i : Nat) :
    (maskBelow k vl).testBit i = (decide (i < vl) && k.getLsbD i) := by
  rw [maskBelow, Nat.testBit_mod_two_pow, BitVec.testBit_toNat]

theorem maskBelow_eq_zero_iff (k : BitVec 8192) (vl : Nat) :
    maskBelow k vl = 0 ↔ ∀ i < vl, k.getLsbD i = false := by
  constructor
  · intro h i hi
    simpa [h, hi] using (testBit_maskBelow k vl i).symm
  · intro h
    refine Nat.eq_of_testBit_eq fun i => ?_
    rw [testBit_maskBelow, Nat.zero_testBit]
    by_cases hi : i < vl
    · rw [h i hi, Bool.and_false]
    · simp [hi]

theorem maskBelow_eq_ones_iff (k : BitVec 8192) (vl : Nat) :
    maskBelow k vl = 2 ^ vl - 1 ↔ ∀ i < vl, k.getLsbD i = true := by
  constructor
  · intro h i hi
    simpa [h, hi, Nat.testBit_two_pow_sub_one] using (testBit_maskBelow k vl i).symm
  · intro h
    refine Nat.eq_of_testBit_eq fun i => ?_
    rw [testBit_maskBelow, Nat.testBit_two_pow_sub_one]
    by_cases hi : i < vl
    · rw [h i hi, Bool.and_true]
    · simp [hi]

theorem maskBranch_jumped (x : BrM) (cond : Nat → Nat → Bool) (s : State) (k : BitVec 8192) (hs : OnScalar s)
    (hv : s.c.vqWritesVl = false) (hk : ReadsMask s x.k.val k) (h : cond (maskBelow k s.c.sc.vl) s.c.sc.vl = true) :
    maskBranch x cond s = .next (jumped s (s.pc + 4 * x.off.signExtend 64)) := by
  unfold ReadsMask at hk
  simp only [maskBranch, notLane_ok s hs, ok_bind, hv, hk, h, Bool.false_eq_true, if_false, if_true, pure, Except.pure,
    settle_ok, wordOff_eq, jumped]

theorem maskBranch_passed (x : BrM) (cond : Nat → Nat → Bool) (s : State) (k : BitVec 8192) (hs : OnScalar s)
    (hv : s.c.vqWritesVl = false) (hk : ReadsMask s x.k.val k) (h : cond (maskBelow k s.c.sc.vl) s.c.sc.vl = false) :
    maskBranch x cond s = .next (passed s) := by
  unfold ReadsMask at hk
  simp only [maskBranch, notLane_ok s hs, ok_bind, hv, hk, h, Bool.false_eq_true, if_false, pure, Except.pure,
    settle_ok, passed]

/-- A mask branch waits for its mask, and for a vl that an older vcomp has yet to write (R31, R52, R221). -/
theorem maskBranch_waits (x : BrM) (cond : Nat → Nat → Bool) (s : State) (hs : OnScalar s)
    (h : MaskAwaited s x.k.val) : maskBranch x cond s = .next s := by
  have hw : settle s (.error (.wait s)) = .next s := settle_wait s s hs
  cases hv : s.c.vqWritesVl with
  | true =>
    simp only [maskBranch, notLane_ok s hs, ok_bind, hv, if_true, throw, throwThe, MonadExceptOf.throw, error_bind, hw]
  | false =>
    simp only [maskBranch, notLane_ok s hs, ok_bind, hv, Bool.false_eq_true, if_false, pure, Except.pure,
      readK_awaited s _ h, error_bind, hw]

theorem exec_brmAny (x : BrM) (s : State) : exec (.brmAny x) s = maskBranch x (fun v _ => v != 0) s := rfl

theorem exec_brmAll (x : BrM) (s : State) : exec (.brmAll x) s = maskBranch x (fun v vl => v == 2 ^ vl - 1) s := rfl

theorem exec_brmNone (x : BrM) (s : State) : exec (.brmNone x) s = maskBranch x (fun v _ => v == 0) s := rfl

/-- Settles O15: the mask below vl, as a number, is 0 where no bit of it is 1 and 2^vl - 1 where every bit is. -/
theorem maskBranches : Obligations.MaskBranches := by
  simp only [Obligations.MaskBranches, exec_brmAny, exec_brmAll, exec_brmNone]
  refine ⟨fun x s k hs hv hk => ?_, readsMask_zero, fun x s hs h => ?_, fun x => ?_, fun w hop hf => ?_⟩
  · have some_iff : (∃ i < s.c.sc.vl, k.getLsbD i = true) ↔ maskBelow k s.c.sc.vl ≠ 0 := by
      simp [maskBelow_eq_zero_iff]
    have gap_iff : (∃ i < s.c.sc.vl, k.getLsbD i = false) ↔ maskBelow k s.c.sc.vl ≠ 2 ^ s.c.sc.vl - 1 := by
      simp [maskBelow_eq_ones_iff]
    have taken := fun cond => maskBranch_jumped x cond s k hs hv hk
    have notTaken := fun cond => maskBranch_passed x cond s k hs hv hk
    rw [some_iff, gap_iff, ← maskBelow_eq_zero_iff, ← maskBelow_eq_ones_iff]
    exact ⟨fun h => taken _ (bne_iff_ne.mpr h), fun h => notTaken _ (bne_eq_false_iff_eq.mpr h),
      fun h => taken _ (beq_iff_eq.mpr h), fun h => notTaken _ (beq_eq_false_iff_ne.mpr h),
      fun h => taken _ (beq_iff_eq.mpr h), fun h => notTaken _ (beq_eq_false_iff_ne.mpr h)⟩
  · exact ⟨maskBranch_waits x _ s hs h, maskBranch_waits x _ s hs h, maskBranch_waits x _ s hs h⟩
  · have enc := fun f => encoding_congr (BrM.word_fields x f)
    exact ⟨enc 0, enc 1, enc 2⟩
  · exact decode_of_rowOf_none w ((rowOf_0B _ hop).trans (rowBrm_of_reservedForm _ hf))

/-! ## Jumps -/

theorem exec_jal (x : OffD) (s : State) (hd : Ready s x.d.val) : exec (.jal x) s
    = .next (s.withC ((s.c.put x.d.val (s.pc + 4)).jump (s.pc + 4 * x.off.signExtend 64))) := by
  unfold Ready at hd
  rw [← wordOff_eq]
  simp only [exec, execJal, hd, ok_bind, pure, Except.pure, settle_ok]

/-- A result for s0 is discarded (R135). -/
theorem put_zero (s : State) (r : Word) (h : OnScalar s) : s.c.put 0 r = s.c := by
  unfold OnScalar at h
  simp [Ctx.put, h]

theorem exec_jalr (x : ImmI) (s : State) (a : Word) (hs : OnScalar s) (ha : Reads s x.a.val a) (hd : Ready s x.d.val)
    (h : (a + x.imm.signExtend 64).toNat % 4 = 0) : exec (.jalr x) s
      = .next (s.withC ((s.c.put x.d.val (s.pc + 4)).jump (a + x.imm.signExtend 64))) := by
  unfold Ready at hd
  simp only [exec, execJalr, notLane_ok s hs, ha x.ea _, hd, ok_bind, h, ne_eq, not_true_eq_false, if_false, pure,
    Except.pure, settle_ok]

theorem exec_jalr_misaligned (x : ImmI) (s : State) (a : Word) (hs : OnScalar s) (ha : Reads s x.a.val a)
    (hd : Ready s x.d.val) (h : (a + x.imm.signExtend 64).toNat % 4 ≠ 0) :
    exec (.jalr x) s = .next (trapped s cMISALIGNED 0 (a + x.imm.signExtend 64)) := by
  unfold Ready at hd
  rw [← settle_classA]
  simp only [exec, execJalr, notLane_ok s hs, ha x.ea _, hd, ok_bind, h, ne_eq, not_false_eq_true, if_true, throw,
    throwThe, MonadExceptOf.throw]

/-- Settles O16: the link is written to the state that the target was taken from, and jal with s0 writes none. -/
theorem jumps : Obligations.Jumps := by
  refine ⟨⟨exec_jal, fun x s hs h0 => ?_, fun x => ?_⟩,
    fun x s a hs ha hd => ⟨exec_jalr x s a hs ha hd, exec_jalr_misaligned x s a hs ha hd⟩⟩
  · have hd : x.d.val = 0 := congrArg Fin.val h0
    rw [exec_jal x s (hd ▸ ready_zero s), hd, put_zero s _ hs, jumped]
  · exact encoding_congr (OffD.word_fields x)

/-! ## The end test and lbrk -/

/-- The loop stack without its top entry holds the entries below. -/
theorem vget_popLoop (l : Vector LoopEntry 6) (i : Nat) (h : i < 5) : vget (popLoop l) i {} = vget l (i + 1) {} := by
  have h6 : i < 6 := by omega
  simp [popLoop, vget, Vector.getD, h6, h.ne]

/-- The lowest entry of a stack that lost its top is empty. -/
theorem vget_popLoop_last (l : Vector LoopEntry 6) : vget (popLoop l) 5 {} = {} := by
  simp [popLoop, vget, Vector.getD]

/-- Where no entry from `n + 1` on is in use, none from `n` on is once the top entry is gone. -/
theorem popLoop_unused (l : Vector LoopEntry 6) (n : Nat) (h : ∀ i, n + 1 ≤ i → i < 6 → vget l i {} = {}) (i : Nat)
    (hn : n ≤ i) (hi : i < 6) : vget (popLoop l) i {} = {} := by
  by_cases h5 : i < 5
  · rw [vget_popLoop _ _ h5, h (i + 1) (by omega) (by omega)]
  · obtain rfl : i = 5 := by omega
    exact vget_popLoop_last l

/-- The end test with `n` turns is R149's, where no more than the top `n` entries of the stack are in use. -/
theorem endTest_ends (a : Word) : ∀ (n : Nat) (x : Scal), (∀ i, n ≤ i → i < 6 → vget x.loops i {} = {}) →
    Ends x a (endTest n x a)
  | 0, x, h => .none x a fun ⟨hcount, _⟩ => hcount (by rw [Scal.loop0, h 0 (Nat.le_refl 0) (by decide)])
  | n + 1, x, h => by
    rw [endTest]
    by_cases hend : x.loop0.count ≠ 0 ∧ a = x.loop0.last
    · obtain ⟨hcount, hlast⟩ := hend
      by_cases hleft : x.loop0.index.toNat + 1 < x.loop0.count.toNat
      · rw [if_pos ⟨hcount, hlast⟩, if_pos hleft]
        exact .again x a hcount hlast hleft
      · rw [if_pos ⟨hcount, hlast⟩, if_neg hleft]
        exact .ended x _ a (popLoop x.loops) hcount hlast hleft (vget_popLoop x.loops) (vget_popLoop_last x.loops)
          (endTest_ends a n { x with loops := popLoop x.loops } (popLoop_unused x.loops n h))
    · rw [if_neg hend]
      exact .none x a hend

/-- After the top entry is gone, five turns of the end test are enough. -/
theorem endTest_popLoop_ends (x : Scal) (a : Word) :
    Ends { x with loops := popLoop x.loops } a (endTest 5 { x with loops := popLoop x.loops } a) :=
  endTest_ends a 5 _ fun i h5 h6 => by
    obtain rfl : i = 5 := by omega
    exact vget_popLoop_last x.loops

theorem exec_lbrk (s : State) (hs : OnScalar s) (h : s.c.sc.loop0.count ≠ 0) : exec .lbrk s
    = .next (s.withC { s.c with
        sc := endTest 5 { s.c.sc with loops := popLoop s.c.sc.loops } s.c.sc.loop0.last, ord := s.c.ord + 1 }) := by
  simp only [exec, execLbrk, notLane_ok s hs, ok_bind, leaveLoop, h, if_false, settle_ok]

theorem exec_lbrk_noLoop (s : State) (hs : OnScalar s) (h : s.c.sc.loop0.count = 0) :
    exec .lbrk s = .next (trapped s cLOOP_DEPTH 0 0) := by
  rw [← settle_classA]
  simp only [exec, execLbrk, notLane_ok s hs, ok_bind, leaveLoop, h, if_true]

/-- Settles O19: entry 0 goes, and the end test of five turns at its END is R149's on the stack that is left. -/
theorem loopBreak : Obligations.LoopBreak := fun s hs =>
  ⟨exec_lbrk_noLoop s hs, fun h => ⟨popLoop s.c.sc.loops, _, vget_popLoop _, vget_popLoop_last _,
    endTest_popLoop_ends s.c.sc _, exec_lbrk s hs h⟩⟩

end Sys2Proof.Machine
end

