-- ==== Sys2Proof/Proofs/IntegerElements.lean ====
section
/-!
The integer element operations of opcodes 0x20 to 0x22 (R191). An element and the integer it stands for are congruent modulo
2^ew, and a tag's range holds one integer of each class: an exact result in the range is read back as it is, and one outside is
clamped first.
-/
namespace Sys2Proof.Machine

/-! ## Low bits of an integer -/

theorem wrapTo_lt (w : Nat) (z : Int) : wrapTo w z < 2 ^ w := by
  have hpos := Nat.two_pow_pos w
  have hlt := Int.emod_lt_of_pos z (Int.natCast_pos.mpr hpos)
  unfold wrapTo
  omega

theorem wrapTo_modEq (w : Nat) (z : Int) : (wrapTo w z : Int) ≡ z [ZMOD (2 ^ w : Nat)] := by
  have hnonneg := Int.emod_nonneg z (Int.natCast_ne_zero.mpr (Nat.two_pow_pos w).ne')
  rw [wrapTo, Int.toNat_of_nonneg hnonneg]
  exact Int.mod_modEq z _

/-- Integers congruent to a natural number have its low bits. -/
theorem wrapTo_of_modEq {w n : Nat} {z : Int} (h : z ≡ n [ZMOD (2 ^ w : Nat)]) : wrapTo w z = n % 2 ^ w := by
  rw [wrapTo, h, ← Int.natCast_emod, Int.toNat_natCast]

/-- An interval as long as the modulus holds one integer of each class. -/
theorem eq_of_modEq_of_interval {m lo x y : Int} (h : x ≡ y [ZMOD m]) (hx : lo ≤ x ∧ x < lo + m) (hy : lo ≤ y ∧ y < lo + m) :
    x = y := by
  have hdist : |y - x| < m := abs_lt.mpr (by omega)
  have hzero := Int.eq_zero_of_abs_lt_dvd h.dvd hdist
  omega

/-! ## Two's complement -/

theorem signedOf_modEq (w n : Nat) : signedOf w n ≡ n [ZMOD (2 ^ w : Nat)] := by
  have hmod : ((n % 2 ^ w : Nat) : Int) ≡ n [ZMOD (2 ^ w : Nat)] := Int.natCast_modEq_iff.mpr (Nat.mod_modEq n _)
  unfold signedOf
  split
  · exact hmod
  · exact Int.sub_modulus_modEq_iff.mpr hmod

theorem signedOf_bounds {w : Nat} (hw : 0 < w) (n : Nat) :
    -(2 ^ (w - 1) : Nat) ≤ signedOf w n ∧ signedOf w n < (2 ^ (w - 1) : Nat) := by
  have hlt := Nat.mod_lt n (Nat.two_pow_pos w)
  have hhalf := mul_pow_sub_one hw.ne' 2
  unfold signedOf
  split <;> omega

theorem signedOf_wrapTo {w : Nat} (hw : 0 < w) {z : Int} (hlo : -(2 ^ (w - 1) : Nat) ≤ z) (hhi : z < (2 ^ (w - 1) : Nat)) :
    signedOf w (wrapTo w z) = z := by
  have hbounds := signedOf_bounds hw (wrapTo w z)
  have hhalf := mul_pow_sub_one hw.ne' 2
  refine eq_of_modEq_of_interval ((signedOf_modEq w _).trans (wrapTo_modEq w z)) (lo := -(2 ^ (w - 1) : Nat)) ?_ ?_ <;> omega

/-! ## The range of a tag (R108) -/

/-- The tag `t` holds the integer `z`. -/
def InRange (t : Nat) (z : Int) : Prop := (intRange t).1 ≤ z ∧ z ≤ (intRange t).2

/-- The integer of the range of `t` that is nearest to `z`. -/
def clampTo (t : Nat) (z : Int) : Int := max (intRange t).1 (min (intRange t).2 z)

theorem ewOf_pos (t : Nat) : 0 < ewOf t := by
  unfold ewOf
  split <;> decide

theorem two_pow_ewOf (t : Nat) : 2 * 2 ^ (ewOf t - 1) = 2 ^ ewOf t := mul_pow_sub_one (ewOf_pos t).ne' 2

theorem intRange_signed {t : Nat} (h : isSigned t = true) :
    intRange t = (-((2 ^ (ewOf t - 1) : Nat) : Int), ((2 ^ (ewOf t - 1) : Nat) : Int) - 1) := by
  simp [intRange, h]

theorem intRange_unsigned {t : Nat} (h : ¬ isSigned t = true) : intRange t = (0, ((2 ^ ewOf t : Nat) : Int) - 1) := by
  simp [intRange, h]

/-- A range is as long as the modulus, for I and N alike. -/
theorem intRange_length (t : Nat) : (intRange t).2 + 1 = (intRange t).1 + (2 ^ ewOf t : Nat) := by
  have hhalf := two_pow_ewOf t
  by_cases hs : isSigned t = true
  · rw [intRange_signed hs]
    omega
  · rw [intRange_unsigned hs]
    omega

theorem intOf_modEq (t n : Nat) : intOf t n ≡ n [ZMOD (2 ^ ewOf t : Nat)] := by
  unfold intOf
  split
  · exact signedOf_modEq _ n
  · exact Int.natCast_modEq_iff.mpr (Nat.mod_modEq n _)

theorem inRange_intOf (t n : Nat) : InRange t (intOf t n) := by
  have hlt := Nat.mod_lt n (Nat.two_pow_pos (ewOf t))
  have hbounds := signedOf_bounds (ewOf_pos t) n
  unfold InRange intOf
  by_cases hs : isSigned t = true
  · rw [intRange_signed hs, if_pos hs]
    omega
  · rw [intRange_unsigned hs, if_neg hs]
    omega

/-- An integer that the tag holds is read back from its low bits. -/
theorem intOf_wrapTo {t : Nat} {z : Int} (h : InRange t z) : intOf t (wrapTo (ewOf t) z) = z := by
  obtain ⟨hlo, hhi⟩ := h
  obtain ⟨hlo', hhi'⟩ := inRange_intOf t (wrapTo (ewOf t) z)
  have hlength := intRange_length t
  refine eq_of_modEq_of_interval ((intOf_modEq t _).trans (wrapTo_modEq _ z)) (lo := (intRange t).1) ?_ ?_ <;> omega

theorem inRange_clampTo (t : Nat) (z : Int) : InRange t (clampTo t z) := by
  have hlength := intRange_length t
  have hpos := Nat.two_pow_pos (ewOf t)
  unfold InRange clampTo
  omega

/-- `sat` clamps, and sets SAT where that changes the integer (R104, R108). -/
theorem satTo_eq (t : Nat) (z : Int) :
    satTo t z = (wrapTo (ewOf t) (clampTo t z), if clampTo t z = z then 0 else fSAT) := by
  have hlength := intRange_length t
  have hpos := Nat.two_pow_pos (ewOf t)
  simp only [satTo]
  split
  · have hclamp : clampTo t z = (intRange t).1 := by unfold clampTo; omega
    rw [hclamp, if_neg (by omega)]
  · split
    · have hclamp : clampTo t z = (intRange t).2 := by unfold clampTo; omega
      rw [hclamp, if_neg (by omega)]
    · have hclamp : clampTo t z = z := by unfold clampTo; omega
      rw [hclamp, if_pos rfl]

theorem satTo_lt (t : Nat) (z : Int) : (satTo t z).1 < 2 ^ ewOf t := by
  rw [satTo_eq]
  exact wrapTo_lt _ _

theorem intOf_satTo (t : Nat) (z : Int) : intOf t (satTo t z).1 = clampTo t z := by
  rw [satTo_eq]
  exact intOf_wrapTo (inRange_clampTo t z)

theorem satTo_flags (t : Nat) (z : Int) : (satTo t z).2 = if clampTo t z = z then 0 else fSAT := by
  rw [satTo_eq]

/-! ## Exact results that stay in the range -/

theorem InRange.min {t : Nat} {x y : Int} (hx : InRange t x) (hy : InRange t y) : InRange t (min x y) :=
  ⟨le_min hx.1 hy.1, (min_le_left x y).trans hx.2⟩

theorem InRange.max {t : Nat} {x y : Int} (hx : InRange t x) (hy : InRange t y) : InRange t (max x y) :=
  ⟨hx.1.trans (le_max_left x y), max_le hx.2 hy.2⟩

theorem InRange.avg {t : Nat} {x y : Int} (hx : InRange t x) (hy : InRange t y) : InRange t ((x + y + 1) / 2) := by
  unfold InRange at *
  omega

/-- The high half of a product: two operands of magnitude at most 2^(ew-1), or two below 2^ew. -/
theorem InRange.mulh {t : Nat} {x y : Int} (hx : InRange t x) (hy : InRange t y) :
    InRange t (x * y / (2 ^ ewOf t : Nat)) := by
  have hmod : (0 : Int) < (2 ^ ewOf t : Nat) := mod_cast Nat.two_pow_pos (ewOf t)
  have hhalf : 2 * ((2 ^ (ewOf t - 1) : Nat) : Int) = (2 ^ ewOf t : Nat) := mod_cast two_pow_ewOf t
  obtain ⟨hx, hx'⟩ := hx
  obtain ⟨hy, hy'⟩ := hy
  by_cases hs : isSigned t = true
  · rw [InRange, intRange_signed hs]
    rw [intRange_signed hs] at hx hx' hy hy'
    have hprod : |x * y| ≤ (2 ^ (ewOf t - 1) : Nat) * (2 ^ (ewOf t - 1) : Nat) := by
      rw [abs_mul]
      exact mul_le_mul (abs_le.mpr ⟨hx, by omega⟩) (abs_le.mpr ⟨hy, by omega⟩) (abs_nonneg y) (by omega)
    obtain ⟨hlo, hhi⟩ := abs_le.mp hprod
    refine ⟨Int.le_ediv_of_mul_le hmod ?_, Int.le_sub_one_of_lt (Int.ediv_lt_of_lt_mul hmod ?_)⟩
    · nlinarith only [hlo, hhalf, hmod]
    · nlinarith only [hhi, hhalf, hmod]
  · rw [InRange, intRange_unsigned hs]
    rw [intRange_unsigned hs] at hx hx' hy hy'
    have hprod : x * y < (2 ^ ewOf t : Nat) * (2 ^ ewOf t : Nat) :=
      mul_lt_mul'' (by omega) (by omega) hx hy
    exact ⟨Int.ediv_nonneg (mul_nonneg hx hy) hmod.le, Int.le_sub_one_of_lt (Int.ediv_lt_of_lt_mul hmod hprod)⟩

/-! ## The operations -/

/-- A tag of one integer is not I16X2, so its operation is that of `intBin`. -/
theorem binOp_of_isINT {t : Nat} (h : isINT t = true) (o : BinOp) (a b rm l : Nat) : binOp o t a b rm l = intBin o t a b := by
  have hhalves : t ≠ tI16X2 := by
    rintro rfl
    exact absurd h (by decide)
  rw [binOp, if_neg hhalves, if_pos h]

theorem binOp_i16x2 (o : BinOp) (a b rm l : Nat) : binOp o tI16X2 a b rm l = onHalves (intBin o tI16) a b := if_pos rfl

theorem intBin_add (t a b : Nat) : (intBin .add t a b).1 = (a + b) % 2 ^ ewOf t :=
  wrapTo_of_modEq (by
    rw [Int.natCast_add]
    exact (intOf_modEq t a).add (intOf_modEq t b))

theorem intBin_sub {t b : Nat} (a : Nat) (hb : b < 2 ^ ewOf t) : (intBin .sub t a b).1 = (2 ^ ewOf t + a - b) % 2 ^ ewOf t :=
  wrapTo_of_modEq (by
    rw [Int.natCast_sub (by omega), Int.natCast_add, Int.add_sub_assoc]
    exact ((intOf_modEq t a).sub (intOf_modEq t b)).trans Int.add_modEq_left.symm)

theorem intBin_mul (t a b : Nat) : (intBin .mul t a b).1 = a * b % 2 ^ ewOf t :=
  wrapTo_of_modEq (by
    rw [Int.natCast_mul]
    exact (intOf_modEq t a).mul (intOf_modEq t b))

/-- A floor division by a power of 2 moves no integer away from the range of `w` bits. -/
theorem signedOf_shiftRight_wrapTo {w : Nat} (hw : 0 < w) (a sh : Nat) :
    signedOf w (wrapTo w (signedOf w a / (2 ^ sh : Nat))) = signedOf w a / (2 ^ sh : Nat) := by
  obtain ⟨hlo, hhi⟩ := signedOf_bounds hw a
  have hsh : (1 : Int) ≤ (2 ^ sh : Nat) := mod_cast Nat.one_le_two_pow
  apply signedOf_wrapTo hw
  · exact Int.le_ediv_of_mul_le (by omega) (by nlinarith only [hlo, hsh, Int.natCast_nonneg (2 ^ (w - 1))])
  · exact Int.ediv_lt_of_lt_mul (by omega) (by nlinarith only [hhi, hsh, Int.natCast_nonneg (2 ^ (w - 1))])

/-- Every operation gives an element of the tag's width. -/
theorem intBin_lt {t a b : Nat} (o : BinOp) (ha : a < 2 ^ ewOf t) (hb : b < 2 ^ ewOf t) : (intBin o t a b).1 < 2 ^ ewOf t := by
  cases o with
  | add | sub | mul | min | max | sar | avg | mulh => exact wrapTo_lt _ _
  | and => exact Nat.and_lt_two_pow a hb
  | or => exact Nat.or_lt_two_pow ha hb
  | xor => exact Nat.xor_lt_two_pow ha hb
  | shl => exact Nat.mod_lt _ (Nat.two_pow_pos _)
  | shr => exact (Nat.div_le_self a _).trans_lt ha
  | abd | adds | subs => exact satTo_lt _ _

/-- On I16X2 the halves of the result are the results of the halves. -/
theorem binOp_halves (o : BinOp) {a b : Nat} (rm l : Nat) (ha : a < 2 ^ 32) (hb : b < 2 ^ 32) :
    binOp o tI16X2 a b rm l
      = ((binOp o tI16 (a % 2 ^ 16) (b % 2 ^ 16) rm l).1 + 2 ^ 16 * (binOp o tI16 (a / 2 ^ 16) (b / 2 ^ 16) rm l).1,
        (binOp o tI16 (a % 2 ^ 16) (b % 2 ^ 16) rm l).2 ||| (binOp o tI16 (a / 2 ^ 16) (b / 2 ^ 16) rm l).2) := by
  have haHigh : a / 2 ^ 16 < 2 ^ 16 := by omega
  have hbHigh : b / 2 ^ 16 < 2 ^ 16 := by omega
  have hlow : (intBin o tI16 (a % 2 ^ 16) (b % 2 ^ 16)).1 < 2 ^ 16 :=
    intBin_lt o (Nat.mod_lt a (by decide)) (Nat.mod_lt b (by decide))
  have hhigh : (intBin o tI16 (a / 2 ^ 16) (b / 2 ^ 16)).1 < 2 ^ 16 := intBin_lt o haHigh hbHigh
  have hI16 : isINT tI16 = true := rfl
  rw [binOp_i16x2, onHalves, Nat.mod_eq_of_lt haHigh, Nat.mod_eq_of_lt hbHigh]
  simp only [binOp_of_isINT hI16, Nat.mod_eq_of_lt hlow, Nat.mod_eq_of_lt hhigh]

/-- Settles O42: each result is congruent to the exact one, which is in the range of the tag or clamped into it; on I16X2 the
halves are I16 elements. -/
theorem integerOperations : Obligations.IntegerOperations := by
  refine ⟨fun t a b rm l ht ha hb => ?_, fun o a b rm l ha hb => binOp_halves o rm l ha hb⟩
  have hx := inRange_intOf t a
  have hy := inRange_intOf t b
  simp only [binOp_of_isINT ht]
  exact ⟨intBin_add t a b, intBin_sub a hb, intBin_mul t a b, intOf_wrapTo (hx.min hy), intOf_wrapTo (hx.max hy), rfl, rfl, rfl,
    rfl, rfl, mod_cast signedOf_shiftRight_wrapTo (ewOf_pos t) a (b % ewOf t), intOf_satTo t _, satTo_flags t _,
    intOf_wrapTo (hx.avg hy), intOf_satTo t _, satTo_flags t _, intOf_satTo t _, satTo_flags t _,
    mod_cast intOf_wrapTo (hx.mulh hy), fun o => intBin_lt o ha hb⟩

end Sys2Proof.Machine
end

