-- ==== Sys2Proof/Proofs/RoundTrips.lean ====
section
/-!
Decoding and encoding undo one another (R88, R89, R95, R96). One way the lemmas of Laws/PerInstr are put together; the other way,
each row of the opcode table reads only words of the instructions it reads them as, because the fields that a row compares and
those its format takes out cover the word.
-/
namespace Sys2Proof

/-! ## The word of an instruction decodes to it -/

theorem roundTrip (i : Instr) : Laws.RoundTrip.Statement i := by
  cases i with
  | zeroWord x => exact Laws.RoundTrip.zeroWord x
  | reservedOpcode x => exact Laws.RoundTrip.reservedOpcode x
  | add x => exact Laws.RoundTrip.add x
  | sub x => exact Laws.RoundTrip.sub x
  | and x => exact Laws.RoundTrip.and x
  | or x => exact Laws.RoundTrip.or x
  | xor x => exact Laws.RoundTrip.xor x
  | andn x => exact Laws.RoundTrip.andn x
  | orn x => exact Laws.RoundTrip.orn x
  | shl x => exact Laws.RoundTrip.shl x
  | shr x => exact Laws.RoundTrip.shr x
  | sar x => exact Laws.RoundTrip.sar x
  | rol x => exact Laws.RoundTrip.rol x
  | ror x => exact Laws.RoundTrip.ror x
  | slt x => exact Laws.RoundTrip.slt x
  | sltu x => exact Laws.RoundTrip.sltu x
  | min x => exact Laws.RoundTrip.min x
  | max x => exact Laws.RoundTrip.max x
  | minu x => exact Laws.RoundTrip.minu x
  | maxu x => exact Laws.RoundTrip.maxu x
  | mul x => exact Laws.RoundTrip.mul x
  | mulh x => exact Laws.RoundTrip.mulh x
  | mulhu x => exact Laws.RoundTrip.mulhu x
  | div x => exact Laws.RoundTrip.div x
  | divu x => exact Laws.RoundTrip.divu x
  | rem x => exact Laws.RoundTrip.rem x
  | remu x => exact Laws.RoundTrip.remu x
  | clz x => exact Laws.RoundTrip.clz x
  | ctz x => exact Laws.RoundTrip.ctz x
  | popc x => exact Laws.RoundTrip.popc x
  | bswap x => exact Laws.RoundTrip.bswap x
  | sextB x => exact Laws.RoundTrip.sextB x
  | sextH x => exact Laws.RoundTrip.sextH x
  | sextW x => exact Laws.RoundTrip.sextW x
  | zextW x => exact Laws.RoundTrip.zextW x
  | addi x => exact Laws.RoundTrip.addi x
  | andi x => exact Laws.RoundTrip.andi x
  | ori x => exact Laws.RoundTrip.ori x
  | xori x => exact Laws.RoundTrip.xori x
  | shli x => exact Laws.RoundTrip.shli x
  | shri x => exact Laws.RoundTrip.shri x
  | sari x => exact Laws.RoundTrip.sari x
  | roli x => exact Laws.RoundTrip.roli x
  | slti x => exact Laws.RoundTrip.slti x
  | sltiu x => exact Laws.RoundTrip.sltiu x
  | setk x => exact Laws.RoundTrip.setk x
  | setz x => exact Laws.RoundTrip.setz x
  | addpc x => exact Laws.RoundTrip.addpc x
  | brEq x => exact Laws.RoundTrip.brEq x
  | brNe x => exact Laws.RoundTrip.brNe x
  | brLt x => exact Laws.RoundTrip.brLt x
  | brGe x => exact Laws.RoundTrip.brGe x
  | brLtu x => exact Laws.RoundTrip.brLtu x
  | brGeu x => exact Laws.RoundTrip.brGeu x
  | brmAny x => exact Laws.RoundTrip.brmAny x
  | brmAll x => exact Laws.RoundTrip.brmAll x
  | brmNone x => exact Laws.RoundTrip.brmNone x
  | jal x => exact Laws.RoundTrip.jal x
  | jalr x => exact Laws.RoundTrip.jalr x
  | loop x => exact Laws.RoundTrip.loop x
  | loopi x => exact Laws.RoundTrip.loopi x
  | lbrk => exact Laws.RoundTrip.lbrk
  | rpt x => exact Laws.RoundTrip.rpt x
  | ldBz x => exact Laws.RoundTrip.ldBz x
  | ldBs x => exact Laws.RoundTrip.ldBs x
  | ldHz x => exact Laws.RoundTrip.ldHz x
  | ldHs x => exact Laws.RoundTrip.ldHs x
  | ldWz x => exact Laws.RoundTrip.ldWz x
  | ldWs x => exact Laws.RoundTrip.ldWs x
  | ldD x => exact Laws.RoundTrip.ldD x
  | stB x => exact Laws.RoundTrip.stB x
  | stH x => exact Laws.RoundTrip.stH x
  | stW x => exact Laws.RoundTrip.stW x
  | stD x => exact Laws.RoundTrip.stD x
  | ldp x => exact Laws.RoundTrip.ldp x
  | stp x => exact Laws.RoundTrip.stp x
  | ldacq x => exact Laws.RoundTrip.ldacq x
  | strel x => exact Laws.RoundTrip.strel x
  | amoAdd x => exact Laws.RoundTrip.amoAdd x
  | amoAnd x => exact Laws.RoundTrip.amoAnd x
  | amoOr x => exact Laws.RoundTrip.amoOr x
  | amoXor x => exact Laws.RoundTrip.amoXor x
  | amoMin x => exact Laws.RoundTrip.amoMin x
  | amoMax x => exact Laws.RoundTrip.amoMax x
  | amoMinu x => exact Laws.RoundTrip.amoMinu x
  | amoMaxu x => exact Laws.RoundTrip.amoMaxu x
  | amoSwap x => exact Laws.RoundTrip.amoSwap x
  | cas x => exact Laws.RoundTrip.cas x
  | casQ x => exact Laws.RoundTrip.casQ x
  | fenceAcq x => exact Laws.RoundTrip.fenceAcq x
  | fenceRel x => exact Laws.RoundTrip.fenceRel x
  | fenceAr x => exact Laws.RoundTrip.fenceAr x
  | fenceSc x => exact Laws.RoundTrip.fenceSc x
  | xfenceAll x => exact Laws.RoundTrip.xfenceAll x
  | xfenceSpace x => exact Laws.RoundTrip.xfenceSpace x
  | xfencePage x => exact Laws.RoundTrip.xfencePage x
  | waita x => exact Laws.RoundTrip.waita x
  | barArr x => exact Laws.RoundTrip.barArr x
  | barWait x => exact Laws.RoundTrip.barWait x
  | barAw x => exact Laws.RoundTrip.barAw x
  | clineClean x => exact Laws.RoundTrip.clineClean x
  | clineInv x => exact Laws.RoundTrip.clineInv x
  | clineFlush x => exact Laws.RoundTrip.clineFlush x
  | clineZero x => exact Laws.RoundTrip.clineZero x
  | stashMap x => exact Laws.RoundTrip.stashMap x
  | stashUnmap x => exact Laws.RoundTrip.stashUnmap x
  | stashFlush x => exact Laws.RoundTrip.stashFlush x
  | stashPin x => exact Laws.RoundTrip.stashPin x
  | stashUnpin x => exact Laws.RoundTrip.stashUnpin x
  | prefL2 x => exact Laws.RoundTrip.prefL2 x
  | prefLlc x => exact Laws.RoundTrip.prefLlc x
  | prefStash x => exact Laws.RoundTrip.prefStash x
  | rdspr x => exact Laws.RoundTrip.rdspr x
  | wrspr x => exact Laws.RoundTrip.wrspr x
  | vadd x => exact Laws.RoundTrip.vadd x
  | vsub x => exact Laws.RoundTrip.vsub x
  | vmul x => exact Laws.RoundTrip.vmul x
  | vmin x => exact Laws.RoundTrip.vmin x
  | vmax x => exact Laws.RoundTrip.vmax x
  | vand x => exact Laws.RoundTrip.vand x
  | vor x => exact Laws.RoundTrip.vor x
  | vxor x => exact Laws.RoundTrip.vxor x
  | vshl x => exact Laws.RoundTrip.vshl x
  | vshr x => exact Laws.RoundTrip.vshr x
  | vsar x => exact Laws.RoundTrip.vsar x
  | vabd x => exact Laws.RoundTrip.vabd x
  | vavg x => exact Laws.RoundTrip.vavg x
  | vadds x => exact Laws.RoundTrip.vadds x
  | vsubs x => exact Laws.RoundTrip.vsubs x
  | vmulh x => exact Laws.RoundTrip.vmulh x
  | vaddS x => exact Laws.RoundTrip.vaddS x
  | vsubS x => exact Laws.RoundTrip.vsubS x
  | vmulS x => exact Laws.RoundTrip.vmulS x
  | vminS x => exact Laws.RoundTrip.vminS x
  | vmaxS x => exact Laws.RoundTrip.vmaxS x
  | vandS x => exact Laws.RoundTrip.vandS x
  | vorS x => exact Laws.RoundTrip.vorS x
  | vxorS x => exact Laws.RoundTrip.vxorS x
  | vshlS x => exact Laws.RoundTrip.vshlS x
  | vshrS x => exact Laws.RoundTrip.vshrS x
  | vsarS x => exact Laws.RoundTrip.vsarS x
  | vabdS x => exact Laws.RoundTrip.vabdS x
  | vavgS x => exact Laws.RoundTrip.vavgS x
  | vaddsS x => exact Laws.RoundTrip.vaddsS x
  | vsubsS x => exact Laws.RoundTrip.vsubsS x
  | vmulhS x => exact Laws.RoundTrip.vmulhS x
  | vaddI x => exact Laws.RoundTrip.vaddI x
  | vsubI x => exact Laws.RoundTrip.vsubI x
  | vmulI x => exact Laws.RoundTrip.vmulI x
  | vminI x => exact Laws.RoundTrip.vminI x
  | vmaxI x => exact Laws.RoundTrip.vmaxI x
  | vandI x => exact Laws.RoundTrip.vandI x
  | vorI x => exact Laws.RoundTrip.vorI x
  | vxorI x => exact Laws.RoundTrip.vxorI x
  | vshlI x => exact Laws.RoundTrip.vshlI x
  | vshrI x => exact Laws.RoundTrip.vshrI x
  | vsarI x => exact Laws.RoundTrip.vsarI x
  | vabdI x => exact Laws.RoundTrip.vabdI x
  | vavgI x => exact Laws.RoundTrip.vavgI x
  | vaddsI x => exact Laws.RoundTrip.vaddsI x
  | vsubsI x => exact Laws.RoundTrip.vsubsI x
  | vmulhI x => exact Laws.RoundTrip.vmulhI x
  | vfma x => exact Laws.RoundTrip.vfma x
  | vfms x => exact Laws.RoundTrip.vfms x
  | vfnma x => exact Laws.RoundTrip.vfnma x
  | vfnms x => exact Laws.RoundTrip.vfnms x
  | vmacw x => exact Laws.RoundTrip.vmacw x
  | vcmpEq x => exact Laws.RoundTrip.vcmpEq x
  | vcmpNe x => exact Laws.RoundTrip.vcmpNe x
  | vcmpLt x => exact Laws.RoundTrip.vcmpLt x
  | vcmpLe x => exact Laws.RoundTrip.vcmpLe x
  | vcmpGt x => exact Laws.RoundTrip.vcmpGt x
  | vcmpGe x => exact Laws.RoundTrip.vcmpGe x
  | vcmpUn x => exact Laws.RoundTrip.vcmpUn x
  | vsel x => exact Laws.RoundTrip.vsel x
  | vcvt x => exact Laws.RoundTrip.vcvt x
  | vshrr x => exact Laws.RoundTrip.vshrr x
  | vdiv x => exact Laws.RoundTrip.vdiv x
  | vsqrt x => exact Laws.RoundTrip.vsqrt x
  | vrcp x => exact Laws.RoundTrip.vrcp x
  | vrsqrt x => exact Laws.RoundTrip.vrsqrt x
  | vexp2 x => exact Laws.RoundTrip.vexp2 x
  | vlog2 x => exact Laws.RoundTrip.vlog2 x
  | vdot x => exact Laws.RoundTrip.vdot x
  | vredSum x => exact Laws.RoundTrip.vredSum x
  | vredMax x => exact Laws.RoundTrip.vredMax x
  | vredMin x => exact Laws.RoundTrip.vredMin x
  | vredAnd x => exact Laws.RoundTrip.vredAnd x
  | vredOr x => exact Laws.RoundTrip.vredOr x
  | vredXor x => exact Laws.RoundTrip.vredXor x
  | vsign x => exact Laws.RoundTrip.vsign x
  | vmov x => exact Laws.RoundTrip.vmov x
  | vsplat x => exact Laws.RoundTrip.vsplat x
  | vsplati x => exact Laws.RoundTrip.vsplati x
  | vget x => exact Laws.RoundTrip.vget x
  | vput x => exact Laws.RoundTrip.vput x
  | vtag x => exact Laws.RoundTrip.vtag x
  | setvl x => exact Laws.RoundTrip.setvl x
  | vslideUp x => exact Laws.RoundTrip.vslideUp x
  | vslideDn x => exact Laws.RoundTrip.vslideDn x
  | vld x => exact Laws.RoundTrip.vld x
  | vst x => exact Laws.RoundTrip.vst x
  | vlds x => exact Laws.RoundTrip.vlds x
  | vsts x => exact Laws.RoundTrip.vsts x
  | vldx x => exact Laws.RoundTrip.vldx x
  | vldxC x => exact Laws.RoundTrip.vldxC x
  | vldxDup x => exact Laws.RoundTrip.vldxDup x
  | vstx x => exact Laws.RoundTrip.vstx x
  | vamoAdd x => exact Laws.RoundTrip.vamoAdd x
  | vamoAnd x => exact Laws.RoundTrip.vamoAnd x
  | vamoOr x => exact Laws.RoundTrip.vamoOr x
  | vamoXor x => exact Laws.RoundTrip.vamoXor x
  | vamoMin x => exact Laws.RoundTrip.vamoMin x
  | vamoMax x => exact Laws.RoundTrip.vamoMax x
  | vamoMinu x => exact Laws.RoundTrip.vamoMinu x
  | vamoMaxu x => exact Laws.RoundTrip.vamoMaxu x
  | vamoSwap x => exact Laws.RoundTrip.vamoSwap x
  | vcomp x => exact Laws.RoundTrip.vcomp x
  | vexpand x => exact Laws.RoundTrip.vexpand x
  | vperm x => exact Laws.RoundTrip.vperm x
  | vzip x => exact Laws.RoundTrip.vzip x
  | vunzip x => exact Laws.RoundTrip.vunzip x
  | vtrn x => exact Laws.RoundTrip.vtrn x
  | kand x => exact Laws.RoundTrip.kand x
  | kor x => exact Laws.RoundTrip.kor x
  | kxor x => exact Laws.RoundTrip.kxor x
  | knot x => exact Laws.RoundTrip.knot x
  | kandn x => exact Laws.RoundTrip.kandn x
  | kpopc x => exact Laws.RoundTrip.kpopc x
  | kfirst x => exact Laws.RoundTrip.kfirst x
  | kvl x => exact Laws.RoundTrip.kvl x
  | kfrom x => exact Laws.RoundTrip.kfrom x
  | vlk x => exact Laws.RoundTrip.vlk x
  | vmcast x => exact Laws.RoundTrip.vmcast x
  | vrecv x => exact Laws.RoundTrip.vrecv x
  | viota x => exact Laws.RoundTrip.viota x
  | vidx x => exact Laws.RoundTrip.vidx x
  | vflgRd x => exact Laws.RoundTrip.vflgRd x
  | vflgClr x => exact Laws.RoundTrip.vflgClr x
  | wld x => exact Laws.RoundTrip.wld x
  | wst x => exact Laws.RoundTrip.wst x
  | wmul x => exact Laws.RoundTrip.wmul x
  | wmac x => exact Laws.RoundTrip.wmac x
  | wmult x => exact Laws.RoundTrip.wmult x
  | wchol x => exact Laws.RoundTrip.wchol x
  | wlu x => exact Laws.RoundTrip.wlu x
  | wsolveC x => exact Laws.RoundTrip.wsolveC x
  | wsolveP x => exact Laws.RoundTrip.wsolveP x
  | wadd x => exact Laws.RoundTrip.wadd x
  | wsub x => exact Laws.RoundTrip.wsub x
  | wscal x => exact Laws.RoundTrip.wscal x
  | wtrn x => exact Laws.RoundTrip.wtrn x
  | wid x => exact Laws.RoundTrip.wid x
  | wcpy x => exact Laws.RoundTrip.wcpy x
  | wdim x => exact Laws.RoundTrip.wdim x
  | wget x => exact Laws.RoundTrip.wget x
  | wput x => exact Laws.RoundTrip.wput x
  | tclaim x => exact Laws.RoundTrip.tclaim x
  | trel x => exact Laws.RoundTrip.trel x
  | tacc x => exact Laws.RoundTrip.tacc x
  | tmma x => exact Laws.RoundTrip.tmma x
  | tmms x => exact Laws.RoundTrip.tmms x
  | tread x => exact Laws.RoundTrip.tread x
  | twrite x => exact Laws.RoundTrip.twrite x
  | twait x => exact Laws.RoundTrip.twait x
  | tepi x => exact Laws.RoundTrip.tepi x
  | fopen x => exact Laws.RoundTrip.fopen x
  | fclose x => exact Laws.RoundTrip.fclose x
  | fdrop x => exact Laws.RoundTrip.fdrop x
  | fstat x => exact Laws.RoundTrip.fstat x
  | cpy x => exact Laws.RoundTrip.cpy x
  | cpyM x => exact Laws.RoundTrip.cpyM x
  | gath x => exact Laws.RoundTrip.gath x
  | chanWm x => exact Laws.RoundTrip.chanWm x
  | chanWait x => exact Laws.RoundTrip.chanWait x
  | chanCancel x => exact Laws.RoundTrip.chanCancel x
  | chanStat x => exact Laws.RoundTrip.chanStat x
  | enqTask x => exact Laws.RoundTrip.enqTask x
  | enqLaunch x => exact Laws.RoundTrip.enqLaunch x
  | depd x => exact Laws.RoundTrip.depd x
  | pgrant x => exact Laws.RoundTrip.pgrant x
  | tdone => exact Laws.RoundTrip.tdone
  | lsplit x => exact Laws.RoundTrip.lsplit x
  | ljoin => exact Laws.RoundTrip.ljoin
  | yield => exact Laws.RoundTrip.yield
  | trap x => exact Laws.RoundTrip.trap x
  | tret => exact Laws.RoundTrip.tret
  | shut => exact Laws.RoundTrip.shut
  | halt => exact Laws.RoundTrip.halt
  | brk x => exact Laws.RoundTrip.brk x
  | probe x => exact Laws.RoundTrip.probe x
  | illegal w => exact Laws.RoundTrip.illegal w
  | _ => exact fun _ _ h => nomatch h

/-- Settles O1: instruction by instruction; the steps without a word have nothing to decode. -/
theorem encodeThenDecode : Obligations.EncodeThenDecode := roundTrip

/-! ## The operands of a format and the bits they are -/

/-- A Boolean field read from a word and written back. -/
theorem toNat_decide_bit (m : Nat) : (decide (m % 2 = 1)).toNat = m % 2 := by
  rcases Nat.mod_two_eq_zero_or_one m with h | h <;> simp [h]

theorem Alu2.enc_dec (n : Nat) : (Alu2.dec n).enc = n / 2 ^ 7 % 2 ^ 15 * 2 ^ 7 + n / 2 ^ 25 % 2 ^ 2 * 2 ^ 25 := by
  simp only [Alu2.enc, Alu2.dec, toNat_decide_bit, Fin.ofNat]
  omega

theorem Alu1.enc_dec (n : Nat) : (Alu1.dec n).enc = n / 2 ^ 7 % 2 ^ 10 * 2 ^ 7 + n / 2 ^ 25 % 2 ^ 1 * 2 ^ 25 := by
  simp only [Alu1.enc, Alu1.dec, toNat_decide_bit, Fin.ofNat]
  omega

theorem ImmI.enc_dec (n : Nat) : (ImmI.dec n).enc = n / 2 ^ 7 % 2 ^ 25 * 2 ^ 7 := by
  simp only [ImmI.enc, ImmI.dec, toNat_decide_bit, Fin.ofNat, BitVec.toNat_ofNat]
  omega

theorem ShI.enc_dec (n : Nat) : (ShI.dec n).enc = n / 2 ^ 7 % 2 ^ 17 * 2 ^ 7 := by
  simp only [ShI.enc, ShI.dec, toNat_decide_bit, Fin.ofNat, BitVec.toNat_ofNat]
  omega

theorem SltI.enc_dec (n : Nat) : (SltI.dec n).enc = n / 2 ^ 7 % 2 ^ 24 * 2 ^ 7 := by
  simp only [SltI.enc, SltI.dec, toNat_decide_bit, Fin.ofNat, BitVec.toNat_ofNat]
  omega

theorem SetK.enc_dec (n : Nat) : (SetK.dec n).enc = n / 2 ^ 7 % 2 ^ 7 * 2 ^ 7 + n / 2 ^ 15 % 2 ^ 16 * 2 ^ 15 := by
  simp only [SetK.enc, SetK.dec, Fin.ofNat, BitVec.toNat_ofNat]
  omega

theorem OffD.enc_dec (n : Nat) : (OffD.dec n).enc = n / 2 ^ 7 % 2 ^ 25 * 2 ^ 7 := by
  simp only [OffD.enc, OffD.dec, Fin.ofNat, BitVec.toNat_ofNat]
  omega

theorem BrC.enc_dec (n : Nat) : (BrC.dec n).enc = n / 2 ^ 7 % 2 ^ 10 * 2 ^ 7 + n / 2 ^ 20 % 2 ^ 12 * 2 ^ 20 := by
  simp only [BrC.enc, BrC.dec, Fin.ofNat, BitVec.toNat_ofNat]
  omega

theorem BrM.enc_dec (n : Nat) : (BrM.dec n).enc = n / 2 ^ 7 % 2 ^ 3 * 2 ^ 7 + n / 2 ^ 12 % 2 ^ 20 * 2 ^ 12 := by
  simp only [BrM.enc, BrM.dec, Fin.ofNat, BitVec.toNat_ofNat]
  omega

theorem LoopR.enc_dec (n : Nat) : (LoopR.dec n).enc = n / 2 ^ 7 % 2 ^ 5 * 2 ^ 7 + n / 2 ^ 13 % 2 ^ 12 * 2 ^ 13 := by
  simp only [LoopR.enc, LoopR.dec, Fin.ofNat, BitVec.toNat_ofNat]
  omega

theorem RptF.enc_dec (n : Nat) : (RptF.dec n).enc = n / 2 ^ 7 % 2 ^ 17 * 2 ^ 7 := by
  simp only [RptF.enc, RptF.dec, Fin.ofNat, BitVec.toNat_ofNat]
  omega

theorem LdSt.enc_dec (n : Nat) : (LdSt.dec n).enc = n / 2 ^ 7 % 2 ^ 10 * 2 ^ 7 + n / 2 ^ 20 % 2 ^ 12 * 2 ^ 20 := by
  simp only [LdSt.enc, LdSt.dec, toNat_decide_bit, Fin.ofNat, BitVec.toNat_ofNat]
  omega

theorem LdAcq.enc_dec (n : Nat) : (LdAcq.dec n).enc = n / 2 ^ 7 % 2 ^ 25 * 2 ^ 7 := by
  simp only [LdAcq.enc, LdAcq.dec, toNat_decide_bit, Fin.ofNat, BitVec.toNat_ofNat]
  omega

theorem StRel.enc_dec (n : Nat) : (StRel.dec n).enc = n / 2 ^ 7 % 2 ^ 12 * 2 ^ 7 + n / 2 ^ 20 % 2 ^ 12 * 2 ^ 20 := by
  simp only [StRel.enc, StRel.dec, toNat_decide_bit, Fin.ofNat, BitVec.toNat_ofNat]
  omega

theorem AmoF.enc_dec (n : Nat) : (AmoF.dec n).enc = n / 2 ^ 7 % 2 ^ 15 * 2 ^ 7 + n / 2 ^ 26 % 2 ^ 6 * 2 ^ 26 := by
  simp only [AmoF.enc, AmoF.dec, toNat_decide_bit, Fin.ofNat]
  omega

theorem CasF.enc_dec (n : Nat) : (CasF.dec n).enc = n / 2 ^ 7 % 2 ^ 24 * 2 ^ 7 := by
  simp only [CasF.enc, CasF.dec, toNat_decide_bit, Fin.ofNat]
  omega

theorem ScopeF.enc_dec (n : Nat) : (ScopeF.dec n).enc = n / 2 ^ 22 % 2 ^ 3 * 2 ^ 22 := by
  simp only [ScopeF.enc, ScopeF.dec, Fin.ofNat]
  omega

theorem ScopeA.enc_dec (n : Nat) : (ScopeA.dec n).enc = n / 2 ^ 12 % 2 ^ 5 * 2 ^ 12 + n / 2 ^ 22 % 2 ^ 4 * 2 ^ 22 := by
  simp only [ScopeA.enc, ScopeA.dec, toNat_decide_bit, Fin.ofNat]
  omega

theorem WaitaF.enc_dec (n : Nat) : (WaitaF.dec n).enc = n / 2 ^ 7 % 2 ^ 24 * 2 ^ 7 := by
  simp only [WaitaF.enc, WaitaF.dec, toNat_decide_bit, Fin.ofNat]
  omega

theorem BarF.enc_dec (n : Nat) : (BarF.dec n).enc = n / 2 ^ 7 % 2 ^ 20 * 2 ^ 7 := by
  simp only [BarF.enc, BarF.dec, toNat_decide_bit, Fin.ofNat]
  omega

theorem StashB.enc_dec (n : Nat) : (StashB.dec n).enc = n / 2 ^ 7 % 2 ^ 5 * 2 ^ 7 + n / 2 ^ 17 % 2 ^ 5 * 2 ^ 17 + n / 2 ^ 26 % 2 ^ 1 * 2 ^ 26 := by
  simp only [StashB.enc, StashB.dec, toNat_decide_bit, Fin.ofNat]
  omega

theorem PrefF.enc_dec (n : Nat) : (PrefF.dec n).enc = n / 2 ^ 12 % 2 ^ 5 * 2 ^ 12 + n / 2 ^ 25 % 2 ^ 1 * 2 ^ 25 := by
  simp only [PrefF.enc, PrefF.dec, toNat_decide_bit, Fin.ofNat]
  omega

theorem RdSpr.enc_dec (n : Nat) : (RdSpr.dec n).enc = n / 2 ^ 7 % 2 ^ 5 * 2 ^ 7 + n / 2 ^ 18 % 2 ^ 12 * 2 ^ 18 := by
  simp only [RdSpr.enc, RdSpr.dec, Fin.ofNat, BitVec.toNat_ofNat]
  omega

theorem WrSpr.enc_dec (n : Nat) : (WrSpr.dec n).enc = n / 2 ^ 12 % 2 ^ 18 * 2 ^ 12 := by
  simp only [WrSpr.enc, WrSpr.dec, toNat_decide_bit, Fin.ofNat, BitVec.toNat_ofNat]
  omega

theorem V3.enc_dec (n : Nat) : (V3.dec n).enc = n / 2 ^ 7 % 2 ^ 20 * 2 ^ 7 := by
  simp only [V3.enc, V3.dec, toNat_decide_bit, Fin.ofNat]
  omega

theorem VImm.enc_dec (n : Nat) : (VImm.dec n).enc = n / 2 ^ 7 % 2 ^ 19 * 2 ^ 7 := by
  simp only [VImm.enc, VImm.dec, toNat_decide_bit, Fin.ofNat, BitVec.toNat_ofNat]
  omega

theorem VShImm.enc_dec (n : Nat) : (VShImm.dec n).enc = n / 2 ^ 7 % 2 ^ 14 * 2 ^ 7 + n / 2 ^ 22 % 2 ^ 4 * 2 ^ 22 := by
  simp only [VShImm.enc, VShImm.dec, toNat_decide_bit, Fin.ofNat, BitVec.toNat_ofNat]
  omega

theorem VCmp.enc_dec (n : Nat) : (VCmp.dec n).enc = n / 2 ^ 7 % 2 ^ 3 * 2 ^ 7 + n / 2 ^ 12 % 2 ^ 15 * 2 ^ 12 := by
  simp only [VCmp.enc, VCmp.dec, toNat_decide_bit, Fin.ofNat]
  omega

theorem VCvt.enc_dec (n : Nat) : (VCvt.dec n).enc = n / 2 ^ 7 % 2 ^ 10 * 2 ^ 7 + n / 2 ^ 22 % 2 ^ 4 * 2 ^ 22 + n / 2 ^ 27 % 2 ^ 3 * 2 ^ 27 := by
  simp only [VCvt.enc, VCvt.dec, toNat_decide_bit, Fin.ofNat]
  omega

theorem VShrr.enc_dec (n : Nat) : (VShrr.dec n).enc = n / 2 ^ 7 % 2 ^ 22 * 2 ^ 7 := by
  simp only [VShrr.enc, VShrr.dec, toNat_decide_bit, Fin.ofNat]
  omega

theorem V2.enc_dec (n : Nat) : (V2.dec n).enc = n / 2 ^ 7 % 2 ^ 10 * 2 ^ 7 + n / 2 ^ 22 % 2 ^ 4 * 2 ^ 22 := by
  simp only [V2.enc, V2.dec, toNat_decide_bit, Fin.ofNat]
  omega

theorem VRed.enc_dec (n : Nat) : (VRed.dec n).enc = n / 2 ^ 7 % 2 ^ 10 * 2 ^ 7 + n / 2 ^ 22 % 2 ^ 4 * 2 ^ 22 + n / 2 ^ 30 % 2 ^ 1 * 2 ^ 30 := by
  simp only [VRed.enc, VRed.dec, toNat_decide_bit, Fin.ofNat]
  omega

theorem VSplatI.enc_dec (n : Nat) : (VSplatI.dec n).enc = n / 2 ^ 7 % 2 ^ 18 * 2 ^ 7 := by
  simp only [VSplatI.enc, VSplatI.dec, Fin.ofNat, BitVec.toNat_ofNat]
  omega

theorem VTag.enc_dec (n : Nat) : (VTag.dec n).enc = n / 2 ^ 7 % 2 ^ 5 * 2 ^ 7 + n / 2 ^ 18 % 2 ^ 13 * 2 ^ 18 := by
  simp only [VTag.enc, VTag.dec, toNat_decide_bit, Fin.ofNat, BitVec.toNat_ofNat]
  omega

theorem SetVl.enc_dec (n : Nat) : (SetVl.dec n).enc = n / 2 ^ 7 % 2 ^ 18 * 2 ^ 7 := by
  simp only [SetVl.enc, SetVl.dec, toNat_decide_bit, Fin.ofNat, BitVec.toNat_ofNat]
  omega

theorem VSlide.enc_dec (n : Nat) : (VSlide.dec n).enc = n / 2 ^ 7 % 2 ^ 24 * 2 ^ 7 := by
  simp only [VSlide.enc, VSlide.dec, toNat_decide_bit, Fin.ofNat]
  omega

theorem VMem.enc_dec (n : Nat) : (VMem.dec n).enc = n / 2 ^ 7 % 2 ^ 10 * 2 ^ 7 + n / 2 ^ 22 % 2 ^ 8 * 2 ^ 22 := by
  simp only [VMem.enc, VMem.dec, toNat_decide_bit, Fin.ofNat]
  omega

theorem VMemX.enc_dec (n : Nat) : (VMemX.dec n).enc = n / 2 ^ 7 % 2 ^ 23 * 2 ^ 7 := by
  simp only [VMemX.enc, VMemX.dec, toNat_decide_bit, Fin.ofNat]
  omega

theorem VMemC.enc_dec (n : Nat) : (VMemC.dec n).enc = n / 2 ^ 7 % 2 ^ 21 * 2 ^ 7 := by
  simp only [VMemC.enc, VMemC.dec, toNat_decide_bit, Fin.ofNat]
  omega

theorem K3.enc_dec (n : Nat) : (K3.dec n).enc = n / 2 ^ 7 % 2 ^ 3 * 2 ^ 7 + n / 2 ^ 12 % 2 ^ 3 * 2 ^ 12 + n / 2 ^ 17 % 2 ^ 3 * 2 ^ 17 + n / 2 ^ 25 % 2 ^ 2 * 2 ^ 25 := by
  simp only [K3.enc, K3.dec, toNat_decide_bit, Fin.ofNat]
  omega

theorem K2.enc_dec (n : Nat) : (K2.dec n).enc = n / 2 ^ 7 % 2 ^ 3 * 2 ^ 7 + n / 2 ^ 12 % 2 ^ 3 * 2 ^ 12 + n / 2 ^ 25 % 2 ^ 1 * 2 ^ 25 := by
  simp only [K2.enc, K2.dec, toNat_decide_bit, Fin.ofNat]
  omega

theorem KToR.enc_dec (n : Nat) : (KToR.dec n).enc = n / 2 ^ 7 % 2 ^ 8 * 2 ^ 7 + n / 2 ^ 25 % 2 ^ 1 * 2 ^ 25 := by
  simp only [KToR.enc, KToR.dec, toNat_decide_bit, Fin.ofNat]
  omega

theorem RToK.enc_dec (n : Nat) : (RToK.dec n).enc = n / 2 ^ 7 % 2 ^ 3 * 2 ^ 7 + n / 2 ^ 12 % 2 ^ 5 * 2 ^ 12 + n / 2 ^ 25 % 2 ^ 1 * 2 ^ 25 := by
  simp only [RToK.enc, RToK.dec, toNat_decide_bit, Fin.ofNat]
  omega

theorem VMcast.enc_dec (n : Nat) : (VMcast.dec n).enc = n / 2 ^ 12 % 2 ^ 15 * 2 ^ 12 := by
  simp only [VMcast.enc, VMcast.dec, toNat_decide_bit, Fin.ofNat]
  omega

theorem VRecv.enc_dec (n : Nat) : (VRecv.dec n).enc = n / 2 ^ 7 % 2 ^ 5 * 2 ^ 7 := by
  simp only [VRecv.enc, VRecv.dec, Fin.ofNat]
  omega

theorem VIota.enc_dec (n : Nat) : (VIota.dec n).enc = n / 2 ^ 7 % 2 ^ 8 * 2 ^ 7 + n / 2 ^ 22 % 2 ^ 4 * 2 ^ 22 := by
  simp only [VIota.enc, VIota.dec, toNat_decide_bit, Fin.ofNat]
  omega

theorem VD.enc_dec (n : Nat) : (VD.dec n).enc = n / 2 ^ 7 % 2 ^ 5 * 2 ^ 7 + n / 2 ^ 22 % 2 ^ 3 * 2 ^ 22 := by
  simp only [VD.enc, VD.dec, Fin.ofNat]
  omega

theorem VK.enc_dec (n : Nat) : (VK.dec n).enc = n / 2 ^ 22 % 2 ^ 3 * 2 ^ 22 := by
  simp only [VK.enc, VK.dec, Fin.ofNat]
  omega

theorem WMem.enc_dec (n : Nat) : (WMem.dec n).enc = n / 2 ^ 7 % 2 ^ 2 * 2 ^ 7 + n / 2 ^ 13 % 2 ^ 9 * 2 ^ 13 + n / 2 ^ 25 % 2 ^ 5 * 2 ^ 25 + n / 2 ^ 31 % 2 ^ 1 * 2 ^ 31 := by
  simp only [WMem.enc, WMem.dec, toNat_decide_bit, Fin.ofNat]
  omega

theorem W3.enc_dec (n : Nat) : (W3.dec n).enc = n / 2 ^ 7 % 2 ^ 6 * 2 ^ 7 + n / 2 ^ 18 % 2 ^ 4 * 2 ^ 18 + n / 2 ^ 31 % 2 ^ 1 * 2 ^ 31 := by
  simp only [W3.enc, W3.dec, toNat_decide_bit, Fin.ofNat]
  omega

theorem WChol.enc_dec (n : Nat) : (WChol.dec n).enc = n / 2 ^ 7 % 2 ^ 2 * 2 ^ 7 + n / 2 ^ 18 % 2 ^ 7 * 2 ^ 18 + n / 2 ^ 31 % 2 ^ 1 * 2 ^ 31 := by
  simp only [WChol.enc, WChol.dec, toNat_decide_bit, Fin.ofNat]
  omega

theorem WLu.enc_dec (n : Nat) : (WLu.dec n).enc = n / 2 ^ 7 % 2 ^ 2 * 2 ^ 7 + n / 2 ^ 13 % 2 ^ 12 * 2 ^ 13 + n / 2 ^ 31 % 2 ^ 1 * 2 ^ 31 := by
  simp only [WLu.enc, WLu.dec, toNat_decide_bit, Fin.ofNat]
  omega

theorem WV.enc_dec (n : Nat) : (WV.dec n).enc = n / 2 ^ 7 % 2 ^ 4 * 2 ^ 7 + n / 2 ^ 13 % 2 ^ 9 * 2 ^ 13 + n / 2 ^ 31 % 2 ^ 1 * 2 ^ 31 := by
  simp only [WV.enc, WV.dec, toNat_decide_bit, Fin.ofNat]
  omega

theorem W2.enc_dec (n : Nat) : (W2.dec n).enc = n / 2 ^ 7 % 2 ^ 4 * 2 ^ 7 + n / 2 ^ 18 % 2 ^ 4 * 2 ^ 18 + n / 2 ^ 31 % 2 ^ 1 * 2 ^ 31 := by
  simp only [W2.enc, W2.dec, toNat_decide_bit, Fin.ofNat]
  omega

theorem W1.enc_dec (n : Nat) : (W1.dec n).enc = n / 2 ^ 7 % 2 ^ 2 * 2 ^ 7 + n / 2 ^ 18 % 2 ^ 4 * 2 ^ 18 + n / 2 ^ 31 % 2 ^ 1 * 2 ^ 31 := by
  simp only [W1.enc, W1.dec, toNat_decide_bit, Fin.ofNat]
  omega

theorem WDim.enc_dec (n : Nat) : (WDim.dec n).enc = n / 2 ^ 25 % 2 ^ 6 * 2 ^ 25 := by
  simp only [WDim.enc, WDim.dec, Fin.ofNat]
  omega

theorem WGet.enc_dec (n : Nat) : (WGet.dec n).enc = n / 2 ^ 9 % 2 ^ 2 * 2 ^ 9 + n / 2 ^ 13 % 2 ^ 9 * 2 ^ 13 + n / 2 ^ 25 % 2 ^ 7 * 2 ^ 25 := by
  simp only [WGet.enc, WGet.dec, toNat_decide_bit, Fin.ofNat]
  omega

theorem WPut.enc_dec (n : Nat) : (WPut.dec n).enc = n / 2 ^ 7 % 2 ^ 2 * 2 ^ 7 + n / 2 ^ 13 % 2 ^ 9 * 2 ^ 13 + n / 2 ^ 25 % 2 ^ 7 * 2 ^ 25 := by
  simp only [WPut.enc, WPut.dec, toNat_decide_bit, Fin.ofNat]
  omega

theorem TOnly.enc_dec (n : Nat) : (TOnly.dec n).enc = n / 2 ^ 7 % 2 ^ 3 * 2 ^ 7 := by
  simp only [TOnly.enc, TOnly.dec, Fin.ofNat]
  omega

theorem TAcc.enc_dec (n : Nat) : (TAcc.dec n).enc = n / 2 ^ 7 % 2 ^ 3 * 2 ^ 7 + n / 2 ^ 17 % 2 ^ 6 * 2 ^ 17 := by
  simp only [TAcc.enc, TAcc.dec, toNat_decide_bit, Fin.ofNat]
  omega

theorem TMma.enc_dec (n : Nat) : (TMma.dec n).enc = n / 2 ^ 7 % 2 ^ 21 * 2 ^ 7 := by
  simp only [TMma.enc, TMma.dec, toNat_decide_bit, Fin.ofNat, BitVec.toNat_ofNat]
  omega

theorem TMms.enc_dec (n : Nat) : (TMms.dec n).enc = n / 2 ^ 7 % 2 ^ 21 * 2 ^ 7 := by
  simp only [TMms.enc, TMms.dec, toNat_decide_bit, Fin.ofNat, BitVec.toNat_ofNat]
  omega

theorem TRow.enc_dec (n : Nat) : (TRow.dec n).enc = n / 2 ^ 7 % 2 ^ 3 * 2 ^ 7 + n / 2 ^ 17 % 2 ^ 12 * 2 ^ 17 := by
  simp only [TRow.enc, TRow.dec, toNat_decide_bit, Fin.ofNat, BitVec.toNat_ofNat]
  omega

theorem TEpi.enc_dec (n : Nat) : (TEpi.dec n).enc = n / 2 ^ 7 % 2 ^ 3 * 2 ^ 7 + n / 2 ^ 17 % 2 ^ 15 * 2 ^ 17 := by
  simp only [TEpi.enc, TEpi.dec, toNat_decide_bit, Fin.ofNat, BitVec.toNat_ofNat]
  omega

theorem FOpen.enc_dec (n : Nat) : (FOpen.dec n).enc = n / 2 ^ 10 % 2 ^ 2 * 2 ^ 10 + n / 2 ^ 17 % 2 ^ 6 * 2 ^ 17 := by
  simp only [FOpen.enc, FOpen.dec, toNat_decide_bit, Fin.ofNat]
  omega

theorem FOnly.enc_dec (n : Nat) : (FOnly.dec n).enc = n / 2 ^ 10 % 2 ^ 2 * 2 ^ 10 := by
  simp only [FOnly.enc, FOnly.dec, Fin.ofNat]
  omega

theorem FStat.enc_dec (n : Nat) : (FStat.dec n).enc = n / 2 ^ 10 % 2 ^ 2 * 2 ^ 10 + n / 2 ^ 18 % 2 ^ 5 * 2 ^ 18 := by
  simp only [FStat.enc, FStat.dec, Fin.ofNat]
  omega

theorem Copy.enc_dec (n : Nat) : (Copy.dec n).enc = n / 2 ^ 7 % 2 ^ 19 * 2 ^ 7 + n / 2 ^ 27 % 2 ^ 4 * 2 ^ 27 := by
  simp only [Copy.enc, Copy.dec, toNat_decide_bit, Fin.ofNat, BitVec.toNat_ofNat]
  omega

theorem GathF.enc_dec (n : Nat) : (GathF.dec n).enc = n / 2 ^ 7 % 2 ^ 18 * 2 ^ 7 + n / 2 ^ 27 % 2 ^ 4 * 2 ^ 27 := by
  simp only [GathF.enc, GathF.dec, toNat_decide_bit, Fin.ofNat]
  omega

theorem ChanA.enc_dec (n : Nat) : (ChanA.dec n).enc = n / 2 ^ 7 % 2 ^ 5 * 2 ^ 7 + n / 2 ^ 22 % 2 ^ 3 * 2 ^ 22 + n / 2 ^ 27 % 2 ^ 1 * 2 ^ 27 := by
  simp only [ChanA.enc, ChanA.dec, toNat_decide_bit, Fin.ofNat]
  omega

theorem Chan0.enc_dec (n : Nat) : (Chan0.dec n).enc = n / 2 ^ 22 % 2 ^ 3 * 2 ^ 22 + n / 2 ^ 27 % 2 ^ 1 * 2 ^ 27 := by
  simp only [Chan0.enc, Chan0.dec, toNat_decide_bit, Fin.ofNat]
  omega

theorem C3.enc_dec (n : Nat) : (C3.dec n).enc = n / 2 ^ 7 % 2 ^ 15 * 2 ^ 7 + n / 2 ^ 27 % 2 ^ 1 * 2 ^ 27 := by
  simp only [C3.enc, C3.dec, toNat_decide_bit, Fin.ofNat]
  omega

theorem C1.enc_dec (n : Nat) : (C1.dec n).enc = n / 2 ^ 7 % 2 ^ 5 * 2 ^ 7 := by
  simp only [C1.enc, C1.dec, Fin.ofNat]
  omega

theorem Imm14.enc_dec (n : Nat) : (Imm14.dec n).enc = n / 2 ^ 18 % 2 ^ 14 * 2 ^ 18 := by
  simp only [Imm14.enc, Imm14.dec, BitVec.toNat_ofNat]
  omega

theorem Probe.enc_dec (n : Nat) : (Probe.dec n).enc = n / 2 ^ 7 % 2 ^ 10 * 2 ^ 7 + n / 2 ^ 25 % 2 ^ 1 * 2 ^ 25 + n / 2 ^ 27 % 2 ^ 2 * 2 ^ 27 := by
  simp only [Probe.enc, Probe.dec, toNat_decide_bit, Fin.ofNat]
  omega

/-! ## Rows -/

/-- The words of opcode `op` that a row reads are the words of the instructions it reads them as. -/
def Encodes (op : Nat) (row : Nat → Option Instr) : Prop :=
  ∀ n, n < 2 ^ 32 → n % 128 = op → ∀ i ∈ row n, encode i = some (BitVec.ofNat 32 n)

/-- A row may read no word. -/
theorem Encodes.none (op : Nat) : Encodes op fun _ => Option.none := fun _ _ _ _ h => nomatch h

/-- A row of one instruction. -/
theorem Encodes.some {op : Nat} {f : Nat → Instr}
    (h : ∀ n, n < 2 ^ 32 → n % 128 = op → encode (f n) = Option.some (BitVec.ofNat 32 n)) :
    Encodes op fun n => Option.some (f n) := by
  rintro n hn hop i ⟨⟩
  exact h n hn hop

/-- A row that reads as one instruction the words whose fields are its own, and the others as a smaller row does. -/
theorem Encodes.ite {op : Nat} {p : Nat → Prop} [DecidablePred p] {f : Nat → Instr} {row : Nat → Option Instr}
    (h : ∀ n, n < 2 ^ 32 → n % 128 = op → p n → encode (f n) = Option.some (BitVec.ofNat 32 n)) (hr : Encodes op row) :
    Encodes op fun n => if p n then Option.some (f n) else row n := by
  intro n hn hop i hi
  dsimp only at hi
  split at hi
  · next hp => cases hi; exact h n hn hop hp
  · exact hr n hn hop i hi

theorem encodes_rowAlu : Encodes 0x01 rowAlu := by
  repeat' refine Encodes.ite (fun n hn hop hp => encoding_congr ?_) ?_
  on_goal -1 => exact Encodes.none _
  all_goals
    dsimp only [fld] at hp
    simp only [Alu2.enc_dec, Alu1.enc_dec]
    omega

theorem encodes_rowAddi : Encodes 0x02 rowAddi := by
  refine Encodes.some fun n hn hop => encoding_congr ?_
  simp only [ImmI.enc_dec]
  omega

theorem encodes_rowAndi : Encodes 0x03 rowAndi := by
  refine Encodes.some fun n hn hop => encoding_congr ?_
  simp only [ImmI.enc_dec]
  omega

theorem encodes_rowOri : Encodes 0x04 rowOri := by
  refine Encodes.some fun n hn hop => encoding_congr ?_
  simp only [ImmI.enc_dec]
  omega

theorem encodes_rowXori : Encodes 0x05 rowXori := by
  refine Encodes.some fun n hn hop => encoding_congr ?_
  simp only [ImmI.enc_dec]
  omega

theorem encodes_rowShiftI : Encodes 0x06 rowShiftI := by
  repeat' refine Encodes.ite (fun n hn hop hp => encoding_congr ?_) ?_
  on_goal -1 => exact Encodes.none _
  all_goals
    dsimp only [fld] at hp
    simp only [ShI.enc_dec]
    omega

theorem encodes_rowSlti : Encodes 0x07 rowSlti := by
  repeat' refine Encodes.ite (fun n hn hop hp => encoding_congr ?_) ?_
  on_goal -1 => exact Encodes.none _
  all_goals
    dsimp only [fld] at hp
    simp only [SltI.enc_dec]
    omega

theorem encodes_rowSetK : Encodes 0x08 rowSetK := by
  repeat' refine Encodes.ite (fun n hn hop hp => encoding_congr ?_) ?_
  on_goal -1 => exact Encodes.none _
  all_goals
    dsimp only [fld] at hp
    simp only [SetK.enc_dec]
    omega

theorem encodes_rowAddpc : Encodes 0x09 rowAddpc := by
  refine Encodes.some fun n hn hop => encoding_congr ?_
  simp only [OffD.enc_dec]
  omega

theorem encodes_rowBr : Encodes 0x0A rowBr := by
  repeat' refine Encodes.ite (fun n hn hop hp => encoding_congr ?_) ?_
  on_goal -1 => exact Encodes.none _
  all_goals
    dsimp only [fld] at hp
    simp only [BrC.enc_dec]
    omega

theorem encodes_rowBrm : Encodes 0x0B rowBrm := by
  repeat' refine Encodes.ite (fun n hn hop hp => encoding_congr ?_) ?_
  on_goal -1 => exact Encodes.none _
  all_goals
    dsimp only [fld] at hp
    simp only [BrM.enc_dec]
    omega

theorem encodes_rowJal : Encodes 0x0C rowJal := by
  refine Encodes.some fun n hn hop => encoding_congr ?_
  simp only [OffD.enc_dec]
  omega

theorem encodes_rowJalr : Encodes 0x0D rowJalr := by
  refine Encodes.some fun n hn hop => encoding_congr ?_
  simp only [ImmI.enc_dec]
  omega

theorem encodes_rowLoop : Encodes 0x0E rowLoop := by
  repeat' refine Encodes.ite (fun n hn hop hp => encoding_congr ?_) ?_
  on_goal -1 => exact Encodes.none _
  all_goals dsimp only [fld] at hp
  any_goals simp only [LoopR.enc_dec]
  all_goals omega

theorem encodes_rowRpt : Encodes 0x0F rowRpt := by
  refine Encodes.ite (fun n hn hop hp => encoding_congr ?_) (.none _)
  dsimp only [fld] at hp
  simp only [RptF.enc_dec]
  omega

theorem encodes_rowLd : Encodes 0x10 rowLd := by
  repeat' refine Encodes.ite (fun n hn hop hp => encoding_congr ?_) ?_
  on_goal -1 => exact Encodes.none _
  all_goals
    dsimp only [fld] at hp
    simp only [LdSt.enc_dec]
    omega

theorem encodes_rowSt : Encodes 0x11 rowSt := by
  repeat' refine Encodes.ite (fun n hn hop hp => encoding_congr ?_) ?_
  on_goal -1 => exact Encodes.none _
  all_goals
    dsimp only [fld] at hp
    simp only [LdSt.enc_dec]
    omega

theorem encodes_rowLdp : Encodes 0x12 rowLdp := by
  refine Encodes.ite (fun n hn hop hp => encoding_congr ?_) (.none _)
  dsimp only [fld] at hp
  simp only [LdSt.enc_dec]
  omega

theorem encodes_rowStp : Encodes 0x13 rowStp := by
  refine Encodes.ite (fun n hn hop hp => encoding_congr ?_) (.none _)
  dsimp only [fld] at hp
  simp only [LdSt.enc_dec]
  omega

theorem encodes_rowLdacq : Encodes 0x14 rowLdacq := by
  refine Encodes.some fun n hn hop => encoding_congr ?_
  simp only [LdAcq.enc_dec]
  omega

theorem encodes_rowStrel : Encodes 0x15 rowStrel := by
  refine Encodes.ite (fun n hn hop hp => encoding_congr ?_) (.none _)
  dsimp only [fld] at hp
  simp only [StRel.enc_dec]
  omega

theorem encodes_rowAmo : Encodes 0x16 rowAmo := by
  repeat' refine Encodes.ite (fun n hn hop hp => encoding_congr ?_) ?_
  on_goal -1 => exact Encodes.none _
  all_goals
    dsimp only [fld] at hp
    simp only [AmoF.enc_dec]
    omega

theorem encodes_rowCas : Encodes 0x17 rowCas := by
  repeat' refine Encodes.ite (fun n hn hop hp => encoding_congr ?_) ?_
  on_goal -1 => exact Encodes.none _
  all_goals
    dsimp only [fld] at hp
    simp only [CasF.enc_dec]
    omega

theorem encodes_rowFence : Encodes 0x18 rowFence := by
  repeat' refine Encodes.ite (fun n hn hop hp => encoding_congr ?_) ?_
  on_goal -1 => exact Encodes.none _
  all_goals
    dsimp only [fld] at hp
    simp only [ScopeF.enc_dec]
    omega

theorem encodes_rowXfence : Encodes 0x19 rowXfence := by
  repeat' refine Encodes.ite (fun n hn hop hp => encoding_congr ?_) ?_
  on_goal -1 => exact Encodes.none _
  all_goals
    dsimp only [fld] at hp
    simp only [ScopeF.enc_dec, ScopeA.enc_dec]
    omega

theorem encodes_rowWaita : Encodes 0x1A rowWaita := by
  refine Encodes.ite (fun n hn hop hp => encoding_congr ?_) (.none _)
  dsimp only [fld] at hp
  simp only [WaitaF.enc_dec]
  omega

theorem encodes_rowBar : Encodes 0x1B rowBar := by
  repeat' refine Encodes.ite (fun n hn hop hp => encoding_congr ?_) ?_
  on_goal -1 => exact Encodes.none _
  all_goals
    dsimp only [fld] at hp
    simp only [BarF.enc_dec]
    omega

theorem encodes_rowCline : Encodes 0x1C rowCline := by
  repeat' refine Encodes.ite (fun n hn hop hp => encoding_congr ?_) ?_
  on_goal -1 => exact Encodes.none _
  all_goals
    dsimp only [fld] at hp
    simp only [ScopeA.enc_dec]
    omega

theorem encodes_rowStash : Encodes 0x1D rowStash := by
  repeat' refine Encodes.ite (fun n hn hop hp => encoding_congr ?_) ?_
  on_goal -1 => exact Encodes.none _
  all_goals
    dsimp only [fld] at hp
    simp only [Alu2.enc_dec, StashB.enc_dec]
    omega

theorem encodes_rowPref : Encodes 0x1E rowPref := by
  repeat' refine Encodes.ite (fun n hn hop hp => encoding_congr ?_) ?_
  on_goal -1 => exact Encodes.none _
  all_goals
    dsimp only [fld] at hp
    simp only [PrefF.enc_dec]
    omega

theorem encodes_rowSpr : Encodes 0x1F rowSpr := by
  repeat' refine Encodes.ite (fun n hn hop hp => encoding_congr ?_) ?_
  on_goal -1 => exact Encodes.none _
  all_goals
    dsimp only [fld] at hp
    simp only [RdSpr.enc_dec, WrSpr.enc_dec]
    omega

theorem encodes_rowVv : Encodes 0x20 rowVv := by
  repeat' refine Encodes.ite (fun n hn hop hp => encoding_congr ?_) ?_
  on_goal -1 => exact Encodes.none _
  all_goals
    dsimp only [fld] at hp
    simp only [V3.enc_dec]
    omega

theorem encodes_rowVs : Encodes 0x21 rowVs := by
  repeat' refine Encodes.ite (fun n hn hop hp => encoding_congr ?_) ?_
  on_goal -1 => exact Encodes.none _
  all_goals
    dsimp only [fld] at hp
    simp only [V3.enc_dec]
    omega

theorem encodes_rowVi : Encodes 0x22 rowVi := by
  repeat' refine Encodes.ite (fun n hn hop hp => encoding_congr ?_) ?_
  on_goal -1 => exact Encodes.none _
  all_goals
    dsimp only [fld] at hp
    simp only [VImm.enc_dec, VShImm.enc_dec]
    omega

theorem encodes_rowVfma : Encodes 0x23 rowVfma := by
  repeat' refine Encodes.ite (fun n hn hop hp => encoding_congr ?_) ?_
  on_goal -1 => exact Encodes.none _
  all_goals
    dsimp only [fld] at hp
    simp only [V3.enc_dec]
    omega

theorem encodes_rowVmacw : Encodes 0x24 rowVmacw := by
  refine Encodes.ite (fun n hn hop hp => encoding_congr ?_) (.none _)
  dsimp only [fld] at hp
  simp only [V3.enc_dec]
  omega

theorem encodes_rowVcmp : Encodes 0x25 rowVcmp := by
  repeat' refine Encodes.ite (fun n hn hop hp => encoding_congr ?_) ?_
  on_goal -1 => exact Encodes.none _
  all_goals
    dsimp only [fld] at hp
    simp only [VCmp.enc_dec]
    omega

theorem encodes_rowVsel : Encodes 0x26 rowVsel := by
  refine Encodes.ite (fun n hn hop hp => encoding_congr ?_) (.none _)
  dsimp only [fld] at hp
  simp only [V3.enc_dec]
  omega

theorem encodes_rowVcvt : Encodes 0x27 rowVcvt := by
  refine Encodes.ite (fun n hn hop hp => encoding_congr ?_) (.none _)
  dsimp only [fld] at hp
  simp only [VCvt.enc_dec]
  omega

theorem encodes_rowVshrr : Encodes 0x28 rowVshrr := by
  refine Encodes.ite (fun n hn hop hp => encoding_congr ?_) (.none _)
  dsimp only [fld] at hp
  simp only [VShrr.enc_dec]
  omega

theorem encodes_rowMath : Encodes 0x29 rowMath := by
  repeat' refine Encodes.ite (fun n hn hop hp => encoding_congr ?_) ?_
  on_goal -1 => exact Encodes.none _
  all_goals
    dsimp only [fld] at hp
    simp only [V3.enc_dec, V2.enc_dec]
    omega

theorem encodes_rowVdot : Encodes 0x2A rowVdot := by
  refine Encodes.ite (fun n hn hop hp => encoding_congr ?_) (.none _)
  dsimp only [fld] at hp
  simp only [V3.enc_dec]
  omega

theorem encodes_rowVred : Encodes 0x2B rowVred := by
  repeat' refine Encodes.ite (fun n hn hop hp => encoding_congr ?_) ?_
  on_goal -1 => exact Encodes.none _
  all_goals
    dsimp only [fld] at hp
    simp only [VRed.enc_dec]
    omega

theorem encodes_rowVsign : Encodes 0x2C rowVsign := by
  refine Encodes.ite (fun n hn hop hp => encoding_congr ?_) (.none _)
  dsimp only [fld] at hp
  simp only [V3.enc_dec]
  omega

theorem encodes_rowVmov : Encodes 0x2D rowVmov := by
  repeat' refine Encodes.ite (fun n hn hop hp => encoding_congr ?_) ?_
  on_goal -1 => exact Encodes.none _
  all_goals
    dsimp only [fld] at hp
    simp only [V2.enc_dec, VSplatI.enc_dec, Alu2.enc_dec]
    omega

theorem encodes_rowVtag : Encodes 0x2E rowVtag := by
  repeat' refine Encodes.ite (fun n hn hop hp => encoding_congr ?_) ?_
  on_goal -1 => exact Encodes.none _
  all_goals
    dsimp only [fld] at hp
    simp only [VTag.enc_dec, SetVl.enc_dec]
    omega

theorem encodes_rowVslide : Encodes 0x2F rowVslide := by
  repeat' refine Encodes.ite (fun n hn hop hp => encoding_congr ?_) ?_
  on_goal -1 => exact Encodes.none _
  all_goals
    dsimp only [fld] at hp
    simp only [VSlide.enc_dec]
    omega

theorem encodes_rowVld : Encodes 0x30 rowVld := by
  refine Encodes.ite (fun n hn hop hp => encoding_congr ?_) (.none _)
  dsimp only [fld] at hp
  simp only [VMem.enc_dec]
  omega

theorem encodes_rowVst : Encodes 0x31 rowVst := by
  refine Encodes.ite (fun n hn hop hp => encoding_congr ?_) (.none _)
  dsimp only [fld] at hp
  simp only [VMem.enc_dec]
  omega

theorem encodes_rowVlds : Encodes 0x32 rowVlds := by
  refine Encodes.ite (fun n hn hop hp => encoding_congr ?_) (.none _)
  dsimp only [fld] at hp
  simp only [VMemX.enc_dec]
  omega

theorem encodes_rowVsts : Encodes 0x33 rowVsts := by
  refine Encodes.ite (fun n hn hop hp => encoding_congr ?_) (.none _)
  dsimp only [fld] at hp
  simp only [VMemX.enc_dec]
  omega

theorem encodes_rowVldx : Encodes 0x34 rowVldx := by
  repeat' refine Encodes.ite (fun n hn hop hp => encoding_congr ?_) ?_
  on_goal -1 => exact Encodes.none _
  all_goals
    dsimp only [fld] at hp
    simp only [VMemX.enc_dec, VMemC.enc_dec]
    omega

theorem encodes_rowVstx : Encodes 0x35 rowVstx := by
  refine Encodes.ite (fun n hn hop hp => encoding_congr ?_) (.none _)
  dsimp only [fld] at hp
  simp only [VMemX.enc_dec]
  omega

theorem encodes_rowVamo : Encodes 0x36 rowVamo := by
  repeat' refine Encodes.ite (fun n hn hop hp => encoding_congr ?_) ?_
  on_goal -1 => exact Encodes.none _
  all_goals
    dsimp only [fld] at hp
    simp only [VMemC.enc_dec]
    omega

theorem encodes_rowVcomp : Encodes 0x37 rowVcomp := by
  repeat' refine Encodes.ite (fun n hn hop hp => encoding_congr ?_) ?_
  on_goal -1 => exact Encodes.none _
  all_goals
    dsimp only [fld] at hp
    simp only [V2.enc_dec]
    omega

theorem encodes_rowVperm : Encodes 0x38 rowVperm := by
  refine Encodes.ite (fun n hn hop hp => encoding_congr ?_) (.none _)
  dsimp only [fld] at hp
  simp only [V3.enc_dec]
  omega

theorem encodes_rowVzip : Encodes 0x39 rowVzip := by
  repeat' refine Encodes.ite (fun n hn hop hp => encoding_congr ?_) ?_
  on_goal -1 => exact Encodes.none _
  all_goals
    dsimp only [fld] at hp
    simp only [V3.enc_dec]
    omega

theorem encodes_rowKlog : Encodes 0x3A rowKlog := by
  repeat' refine Encodes.ite (fun n hn hop hp => encoding_congr ?_) ?_
  on_goal -1 => exact Encodes.none _
  all_goals
    dsimp only [fld] at hp
    simp only [K3.enc_dec, K2.enc_dec, KToR.enc_dec]
    omega

theorem encodes_rowKvl : Encodes 0x3B rowKvl := by
  repeat' refine Encodes.ite (fun n hn hop hp => encoding_congr ?_) ?_
  on_goal -1 => exact Encodes.none _
  all_goals
    dsimp only [fld] at hp
    simp only [RToK.enc_dec, KToR.enc_dec]
    omega

theorem encodes_rowVmcast : Encodes 0x3C rowVmcast := by
  refine Encodes.ite (fun n hn hop hp => encoding_congr ?_) (.none _)
  dsimp only [fld] at hp
  simp only [VMcast.enc_dec]
  omega

theorem encodes_rowVrecv : Encodes 0x3D rowVrecv := by
  refine Encodes.ite (fun n hn hop hp => encoding_congr ?_) (.none _)
  dsimp only [fld] at hp
  simp only [VRecv.enc_dec]
  omega

theorem encodes_rowViota : Encodes 0x3E rowViota := by
  repeat' refine Encodes.ite (fun n hn hop hp => encoding_congr ?_) ?_
  on_goal -1 => exact Encodes.none _
  all_goals
    dsimp only [fld] at hp
    simp only [VIota.enc_dec, VD.enc_dec]
    omega

theorem encodes_rowVflg : Encodes 0x3F rowVflg := by
  repeat' refine Encodes.ite (fun n hn hop hp => encoding_congr ?_) ?_
  on_goal -1 => exact Encodes.none _
  all_goals
    dsimp only [fld] at hp
    simp only [VD.enc_dec, VK.enc_dec]
    omega

theorem encodes_rowWld : Encodes 0x40 rowWld := by
  refine Encodes.ite (fun n hn hop hp => encoding_congr ?_) (.none _)
  dsimp only [fld] at hp
  simp only [WMem.enc_dec]
  omega

theorem encodes_rowWst : Encodes 0x41 rowWst := by
  refine Encodes.ite (fun n hn hop hp => encoding_congr ?_) (.none _)
  dsimp only [fld] at hp
  simp only [WMem.enc_dec]
  omega

theorem encodes_rowWmul : Encodes 0x42 rowWmul := by
  repeat' refine Encodes.ite (fun n hn hop hp => encoding_congr ?_) ?_
  on_goal -1 => exact Encodes.none _
  all_goals
    dsimp only [fld] at hp
    simp only [W3.enc_dec]
    omega

theorem encodes_rowWchol : Encodes 0x43 rowWchol := by
  refine Encodes.ite (fun n hn hop hp => encoding_congr ?_) (.none _)
  dsimp only [fld] at hp
  simp only [WChol.enc_dec]
  omega

theorem encodes_rowWlu : Encodes 0x44 rowWlu := by
  refine Encodes.ite (fun n hn hop hp => encoding_congr ?_) (.none _)
  dsimp only [fld] at hp
  simp only [WLu.enc_dec]
  omega

theorem encodes_rowWsolve : Encodes 0x45 rowWsolve := by
  repeat' refine Encodes.ite (fun n hn hop hp => encoding_congr ?_) ?_
  on_goal -1 => exact Encodes.none _
  all_goals
    dsimp only [fld] at hp
    simp only [WV.enc_dec]
    omega

theorem encodes_rowWadd : Encodes 0x46 rowWadd := by
  repeat' refine Encodes.ite (fun n hn hop hp => encoding_congr ?_) ?_
  on_goal -1 => exact Encodes.none _
  all_goals
    dsimp only [fld] at hp
    simp only [W3.enc_dec, WV.enc_dec, W2.enc_dec, W1.enc_dec, WDim.enc_dec]
    omega

theorem encodes_rowWget : Encodes 0x47 rowWget := by
  repeat' refine Encodes.ite (fun n hn hop hp => encoding_congr ?_) ?_
  on_goal -1 => exact Encodes.none _
  all_goals
    dsimp only [fld] at hp
    simp only [WGet.enc_dec, WPut.enc_dec]
    omega

theorem encodes_rowTclaim : Encodes 0x48 rowTclaim := by
  repeat' refine Encodes.ite (fun n hn hop hp => encoding_congr ?_) ?_
  on_goal -1 => exact Encodes.none _
  all_goals
    dsimp only [fld] at hp
    simp only [TOnly.enc_dec, TAcc.enc_dec]
    omega

theorem encodes_rowTmma : Encodes 0x49 rowTmma := by
  refine Encodes.ite (fun n hn hop hp => encoding_congr ?_) (.none _)
  dsimp only [fld] at hp
  simp only [TMma.enc_dec]
  omega

theorem encodes_rowTmms : Encodes 0x4A rowTmms := by
  refine Encodes.ite (fun n hn hop hp => encoding_congr ?_) (.none _)
  dsimp only [fld] at hp
  simp only [TMms.enc_dec]
  omega

theorem encodes_rowTread : Encodes 0x4B rowTread := by
  refine Encodes.ite (fun n hn hop hp => encoding_congr ?_) (.none _)
  dsimp only [fld] at hp
  simp only [TRow.enc_dec]
  omega

theorem encodes_rowTwrite : Encodes 0x4C rowTwrite := by
  refine Encodes.ite (fun n hn hop hp => encoding_congr ?_) (.none _)
  dsimp only [fld] at hp
  simp only [TRow.enc_dec]
  omega

theorem encodes_rowTwait : Encodes 0x4D rowTwait := by
  refine Encodes.ite (fun n hn hop hp => encoding_congr ?_) (.none _)
  dsimp only [fld] at hp
  simp only [TOnly.enc_dec]
  omega

theorem encodes_rowTepi : Encodes 0x4E rowTepi := by
  refine Encodes.ite (fun n hn hop hp => encoding_congr ?_) (.none _)
  dsimp only [fld] at hp
  simp only [TEpi.enc_dec]
  omega

theorem encodes_rowFilm : Encodes 0x4F rowFilm := by
  repeat' refine Encodes.ite (fun n hn hop hp => encoding_congr ?_) ?_
  on_goal -1 => exact Encodes.none _
  all_goals
    dsimp only [fld] at hp
    simp only [FOpen.enc_dec, FOnly.enc_dec, FStat.enc_dec]
    omega

theorem encodes_rowCpy : Encodes 0x50 rowCpy := by
  repeat' refine Encodes.ite (fun n hn hop hp => encoding_congr ?_) ?_
  on_goal -1 => exact Encodes.none _
  all_goals
    dsimp only [fld] at hp
    simp only [Copy.enc_dec]
    omega

theorem encodes_rowGath : Encodes 0x51 rowGath := by
  refine Encodes.ite (fun n hn hop hp => encoding_congr ?_) (.none _)
  dsimp only [fld] at hp
  simp only [GathF.enc_dec]
  omega

theorem encodes_rowChan : Encodes 0x52 rowChan := by
  repeat' refine Encodes.ite (fun n hn hop hp => encoding_congr ?_) ?_
  on_goal -1 => exact Encodes.none _
  all_goals
    dsimp only [fld] at hp
    simp only [ChanA.enc_dec, Chan0.enc_dec]
    omega

theorem encodes_rowEnq : Encodes 0x53 rowEnq := by
  repeat' refine Encodes.ite (fun n hn hop hp => encoding_congr ?_) ?_
  on_goal -1 => exact Encodes.none _
  all_goals
    dsimp only [fld] at hp
    simp only [C3.enc_dec]
    omega

theorem encodes_rowDepd : Encodes 0x54 rowDepd := by
  refine Encodes.ite (fun n hn hop hp => encoding_congr ?_) (.none _)
  dsimp only [fld] at hp
  simp only [C3.enc_dec]
  omega

theorem encodes_rowPgrant : Encodes 0x55 rowPgrant := by
  refine Encodes.ite (fun n hn hop hp => encoding_congr ?_) (.none _)
  dsimp only [fld] at hp
  simp only [C1.enc_dec]
  omega

theorem encodes_rowTdone : Encodes 0x56 rowTdone := by
  repeat' refine Encodes.ite (fun n hn hop hp => encoding_congr ?_) ?_
  on_goal -1 => exact Encodes.none _
  all_goals
    dsimp only [fld] at hp
    omega

theorem encodes_rowLsplit : Encodes 0x57 rowLsplit := by
  refine Encodes.ite (fun n hn hop hp => encoding_congr ?_) (.none _)
  dsimp only [fld] at hp
  simp only [BrM.enc_dec]
  omega

theorem encodes_rowLjoin : Encodes 0x58 rowLjoin := by
  repeat' refine Encodes.ite (fun n hn hop hp => encoding_congr ?_) ?_
  on_goal -1 => exact Encodes.none _
  all_goals
    dsimp only [fld] at hp
    omega

theorem encodes_rowYield : Encodes 0x59 rowYield := by
  repeat' refine Encodes.ite (fun n hn hop hp => encoding_congr ?_) ?_
  on_goal -1 => exact Encodes.none _
  all_goals
    dsimp only [fld] at hp
    omega

theorem encodes_rowTrap : Encodes 0x5A rowTrap := by
  refine Encodes.ite (fun n hn hop hp => encoding_congr ?_) (.none _)
  dsimp only [fld] at hp
  simp only [Imm14.enc_dec]
  omega

theorem encodes_rowTret : Encodes 0x5B rowTret := by
  repeat' refine Encodes.ite (fun n hn hop hp => encoding_congr ?_) ?_
  on_goal -1 => exact Encodes.none _
  all_goals
    dsimp only [fld] at hp
    omega

theorem encodes_rowShut : Encodes 0x5C rowShut := by
  repeat' refine Encodes.ite (fun n hn hop hp => encoding_congr ?_) ?_
  on_goal -1 => exact Encodes.none _
  all_goals
    dsimp only [fld] at hp
    omega

theorem encodes_rowHalt : Encodes 0x5D rowHalt := by
  repeat' refine Encodes.ite (fun n hn hop hp => encoding_congr ?_) ?_
  on_goal -1 => exact Encodes.none _
  all_goals
    dsimp only [fld] at hp
    omega

theorem encodes_rowBrk : Encodes 0x5E rowBrk := by
  refine Encodes.ite (fun n hn hop hp => encoding_congr ?_) (.none _)
  dsimp only [fld] at hp
  simp only [Imm14.enc_dec]
  omega

theorem encodes_rowProbe : Encodes 0x5F rowProbe := by
  refine Encodes.ite (fun n hn hop hp => encoding_congr ?_) (.none _)
  dsimp only [fld] at hp
  simp only [Probe.enc_dec]
  omega

/-- Every row reads only words of its instructions. -/
theorem encode_of_rowOf (n : Nat) (hn : n < 2 ^ 32) (i : Instr) (hi : rowOf n = some i) :
    encode i = some (BitVec.ofNat 32 n) := by
  unfold rowOf at hi
  split at hi
  · next h => cases hi; rw [encode]; exact encoding_congr (by rw [Nat.zero_add, ZeroW.enc_dec hn h])
  · next h => exact encodes_rowAlu n hn h i hi
  · next h => exact encodes_rowAddi n hn h i hi
  · next h => exact encodes_rowAndi n hn h i hi
  · next h => exact encodes_rowOri n hn h i hi
  · next h => exact encodes_rowXori n hn h i hi
  · next h => exact encodes_rowShiftI n hn h i hi
  · next h => exact encodes_rowSlti n hn h i hi
  · next h => exact encodes_rowSetK n hn h i hi
  · next h => exact encodes_rowAddpc n hn h i hi
  · next h => exact encodes_rowBr n hn h i hi
  · next h => exact encodes_rowBrm n hn h i hi
  · next h => exact encodes_rowJal n hn h i hi
  · next h => exact encodes_rowJalr n hn h i hi
  · next h => exact encodes_rowLoop n hn h i hi
  · next h => exact encodes_rowRpt n hn h i hi
  · next h => exact encodes_rowLd n hn h i hi
  · next h => exact encodes_rowSt n hn h i hi
  · next h => exact encodes_rowLdp n hn h i hi
  · next h => exact encodes_rowStp n hn h i hi
  · next h => exact encodes_rowLdacq n hn h i hi
  · next h => exact encodes_rowStrel n hn h i hi
  · next h => exact encodes_rowAmo n hn h i hi
  · next h => exact encodes_rowCas n hn h i hi
  · next h => exact encodes_rowFence n hn h i hi
  · next h => exact encodes_rowXfence n hn h i hi
  · next h => exact encodes_rowWaita n hn h i hi
  · next h => exact encodes_rowBar n hn h i hi
  · next h => exact encodes_rowCline n hn h i hi
  · next h => exact encodes_rowStash n hn h i hi
  · next h => exact encodes_rowPref n hn h i hi
  · next h => exact encodes_rowSpr n hn h i hi
  · next h => exact encodes_rowVv n hn h i hi
  · next h => exact encodes_rowVs n hn h i hi
  · next h => exact encodes_rowVi n hn h i hi
  · next h => exact encodes_rowVfma n hn h i hi
  · next h => exact encodes_rowVmacw n hn h i hi
  · next h => exact encodes_rowVcmp n hn h i hi
  · next h => exact encodes_rowVsel n hn h i hi
  · next h => exact encodes_rowVcvt n hn h i hi
  · next h => exact encodes_rowVshrr n hn h i hi
  · next h => exact encodes_rowMath n hn h i hi
  · next h => exact encodes_rowVdot n hn h i hi
  · next h => exact encodes_rowVred n hn h i hi
  · next h => exact encodes_rowVsign n hn h i hi
  · next h => exact encodes_rowVmov n hn h i hi
  · next h => exact encodes_rowVtag n hn h i hi
  · next h => exact encodes_rowVslide n hn h i hi
  · next h => exact encodes_rowVld n hn h i hi
  · next h => exact encodes_rowVst n hn h i hi
  · next h => exact encodes_rowVlds n hn h i hi
  · next h => exact encodes_rowVsts n hn h i hi
  · next h => exact encodes_rowVldx n hn h i hi
  · next h => exact encodes_rowVstx n hn h i hi
  · next h => exact encodes_rowVamo n hn h i hi
  · next h => exact encodes_rowVcomp n hn h i hi
  · next h => exact encodes_rowVperm n hn h i hi
  · next h => exact encodes_rowVzip n hn h i hi
  · next h => exact encodes_rowKlog n hn h i hi
  · next h => exact encodes_rowKvl n hn h i hi
  · next h => exact encodes_rowVmcast n hn h i hi
  · next h => exact encodes_rowVrecv n hn h i hi
  · next h => exact encodes_rowViota n hn h i hi
  · next h => exact encodes_rowVflg n hn h i hi
  · next h => exact encodes_rowWld n hn h i hi
  · next h => exact encodes_rowWst n hn h i hi
  · next h => exact encodes_rowWmul n hn h i hi
  · next h => exact encodes_rowWchol n hn h i hi
  · next h => exact encodes_rowWlu n hn h i hi
  · next h => exact encodes_rowWsolve n hn h i hi
  · next h => exact encodes_rowWadd n hn h i hi
  · next h => exact encodes_rowWget n hn h i hi
  · next h => exact encodes_rowTclaim n hn h i hi
  · next h => exact encodes_rowTmma n hn h i hi
  · next h => exact encodes_rowTmms n hn h i hi
  · next h => exact encodes_rowTread n hn h i hi
  · next h => exact encodes_rowTwrite n hn h i hi
  · next h => exact encodes_rowTwait n hn h i hi
  · next h => exact encodes_rowTepi n hn h i hi
  · next h => exact encodes_rowFilm n hn h i hi
  · next h => exact encodes_rowCpy n hn h i hi
  · next h => exact encodes_rowGath n hn h i hi
  · next h => exact encodes_rowChan n hn h i hi
  · next h => exact encodes_rowEnq n hn h i hi
  · next h => exact encodes_rowDepd n hn h i hi
  · next h => exact encodes_rowPgrant n hn h i hi
  · next h => exact encodes_rowTdone n hn h i hi
  · next h => exact encodes_rowLsplit n hn h i hi
  · next h => exact encodes_rowLjoin n hn h i hi
  · next h => exact encodes_rowYield n hn h i hi
  · next h => exact encodes_rowTrap n hn h i hi
  · next h => exact encodes_rowTret n hn h i hi
  · next h => exact encodes_rowShut n hn h i hi
  · next h => exact encodes_rowHalt n hn h i hi
  · next h => exact encodes_rowBrk n hn h i hi
  · next h => exact encodes_rowProbe n hn h i hi
  · have hop : 0x60 ≤ n % 128 := by
      by_contra! hlt
      interval_cases n % 128 <;> contradiction
    cases hi
    rw [encode]
    exact encoding_congr (by rw [Nat.add_comm, ResW.enc_dec hn hop])

/-- Settles O2: a word that its row does not read, or reads as an ill-formed instruction, is illegal. -/
theorem decodeThenEncode : Obligations.DecodeThenEncode := by
  intro w
  unfold decode
  split
  · next i hi =>
    split
    · next hwf =>
      exact .inr ⟨hwf, (encode_of_rowOf _ w.isLt i hi).trans (by rw [BitVec.ofNat_toNat, BitVec.setWidth_eq])⟩
    · exact .inl rfl
  · exact .inl rfl

/-- Settles O3, by reading the sample words. -/
theorem sampleWords : Obligations.SampleWords := by
  unfold Obligations.SampleWords
  decide

end Sys2Proof
end

