-- ==== Sys2Proof/Proofs/ScalarForms.lean ====
section
/-!
The scalar forms (R136, R139, R141): each is a function of its operands written to its destination, and the functions of the
model are the ones the rules give.
-/
namespace Sys2Proof.Machine

/-! ## Two sources -/

/-- A two-source form whose value is `r`. -/
theorem alu2_gives (w : Nat) (x : Alu2) (f : Word → Word → Word) (s : State) (a b r : Word) (ha : Reads s x.a.val a)
    (hb : Reads s x.b.val b) (hd : Ready s x.d.val) (hr : f a b = r) :
    alu2 w x f s = .next (wrote s x.d.val r) :=
  hr ▸ alu2_next w x f s a b ha hb hd

theorem flagWord_of_iff {p : Bool} {q : Prop} [Decidable q] (h : p = true ↔ q) : flagWord p = if q then 1 else 0 := by
  simp only [flagWord, h]

/-- The smaller of two words under an order, by the strict comparison the other way round. -/
theorem lesser_of_iff {p : Bool} {q : Prop} [Decidable q] (h : p = true ↔ ¬q) (x y : Word) :
    (if p then y else x) = if q then x else y := by
  by_cases hq : q
  · rw [if_neg fun hp => h.mp hp hq, if_pos hq]
  · rw [if_pos (h.mpr hq), if_neg hq]

/-- The greater of two words under an order that is a number's, by the strict comparison. -/
theorem greater_of_lt {α : Type} [LinearOrder α] {f : Word → α} (hf : Function.Injective f) {p : Bool} {a b : Word}
    (h : p = true ↔ f a < f b) : (if p then b else a) = if f a ≤ f b then b else a := by
  by_cases hlt : f a < f b
  · rw [if_pos (h.mpr hlt), if_pos hlt.le]
  · rw [if_neg (mt h.mp hlt)]
    split
    · next hle => exact hf (hle.antisymm (not_lt.mp hlt))
    · rfl

theorem slt_iff_not_le (a b : Word) : b.slt a = true ↔ ¬a.toInt ≤ b.toInt := by
  rw [BitVec.slt_iff_toInt_lt, not_le]

theorem ult_iff_not_le (a b : Word) : b.ult a = true ↔ ¬a.toNat ≤ b.toNat := by
  rw [BitVec.ult_iff_toNat_lt, not_le]

theorem toInt_injective : Function.Injective (BitVec.toInt : Word → Int) := fun _ _ => BitVec.eq_of_toInt_eq

theorem toNat_injective : Function.Injective (BitVec.toNat : Word → Nat) := fun _ _ => BitVec.eq_of_toNat_eq

/-- The high half of a signed product. -/
theorem mulh_eq (a b : Word) : ofI (sgn a * sgn b / 2 ^ 64) = ((a.signExtend 128 * b.signExtend 128) >>> 64).setWidth 64 := by
  have hprod : a.signExtend 128 * b.signExtend 128 = BitVec.ofInt 128 (a.toInt * b.toInt) := by
    simp only [BitVec.signExtend, BitVec.ofInt_mul]
  apply BitVec.eq_of_toNat_eq
  rw [hprod, BitVec.toNat_setWidth, BitVec.toNat_ushiftRight, Nat.shiftRight_eq_div_pow, BitVec.toNat_ofInt, BitVec.toNat_ofInt]
  generalize a.toInt * b.toInt = p
  omega

/-- The high half of an unsigned product. -/
theorem mulhu_eq (a b : Word) : word (a.toNat * b.toNat / 2 ^ 64) = ((a.setWidth 128 * b.setWidth 128) >>> 64).setWidth 64 := by
  have hlt : a.toNat * b.toNat < 2 ^ 128 := by
    calc a.toNat * b.toNat < 2 ^ 64 * 2 ^ 64 := Nat.mul_lt_mul'' a.isLt b.isLt
      _ = 2 ^ 128 := by norm_num
  apply BitVec.eq_of_toNat_eq
  simp only [word, BitVec.toNat_ofNat, BitVec.toNat_setWidth, BitVec.toNat_ushiftRight, BitVec.toNat_mul]
  rw [Nat.mod_eq_of_lt (a := a.toNat) (by omega), Nat.mod_eq_of_lt (a := b.toNat) (by omega), Nat.mod_eq_of_lt hlt,
    Nat.shiftRight_eq_div_pow]

/-- Settles O7: each form is its function of the two sources. -/
theorem twoSourceResults : Obligations.TwoSourceResults := by
  intro x s a b ha hb hd
  have gives := fun w f r => alu2_gives w x f s a b r ha hb hd
  exact ⟨gives _ _ _ rfl, gives _ _ _ rfl, gives _ _ _ rfl, gives _ _ _ rfl, gives _ _ _ rfl, gives _ _ _ rfl,
    gives _ _ _ rfl, gives _ _ _ rfl, gives _ _ _ rfl, gives _ _ _ rfl,
    gives _ _ _ (by rw [BitVec.rotateLeft_def, amount, Nat.mod_mod]), gives _ _ _ (by rw [BitVec.rotateRight_def, amount, Nat.mod_mod]),
    gives _ _ _ (flagWord_of_iff BitVec.slt_iff_toInt_lt), gives _ _ _ (flagWord_of_iff BitVec.ult_iff_toNat_lt),
    gives _ _ _ (lesser_of_iff (slt_iff_not_le a b) a b), gives _ _ _ (greater_of_lt toInt_injective BitVec.slt_iff_toInt_lt),
    gives _ _ _ (lesser_of_iff (ult_iff_not_le a b) a b), gives _ _ _ (greater_of_lt toNat_injective BitVec.ult_iff_toNat_lt),
    gives _ _ _ rfl, gives _ _ _ (mulh_eq a b), gives _ _ _ (mulhu_eq a b)⟩

/-! ## One source -/

/-- A one-source form whose value is `r`. -/
theorem alu1_gives (w a d : Nat) (e : Bool) (f : Word → Word) (s : State) (v r : Word) (ha : Reads s a v) (hd : Ready s d)
    (hr : f v = r) : alu1 w a d e f s = .next (wrote s d r) :=
  hr ▸ alu1_next w a d e f s v ha hd

/-- The bits above the highest one are the leading zeros. -/
theorem clzOf_spec (a : Word) : ∃ n ≤ 64, clzOf a = word n ∧ (∀ i < 64, 64 - n ≤ i → a.getLsbD i = false)
    ∧ (n < 64 → a.getLsbD (63 - n) = true) := by
  by_cases h0 : a = 0
  · subst h0
    exact ⟨64, le_rfl, rfl, fun i _ _ => by simp, fun h => absurd h (lt_irrefl _)⟩
  · have hne : a.toNat ≠ 0 := fun h => h0 (BitVec.eq_of_toNat_eq (by simpa using h))
    have hlog : a.toNat.log2 < 64 := (Nat.log2_lt hne).mpr a.isLt
    refine ⟨63 - a.toNat.log2, by omega, by rw [clzOf, if_neg h0], fun i _ hle => ?_, fun _ => ?_⟩
    · rw [← BitVec.testBit_toNat]
      exact Nat.testBit_lt_two_pow ((Nat.log2_lt hne).mp (by omega))
    · rw [← BitVec.testBit_toNat, show 63 - (63 - a.toNat.log2) = a.toNat.log2 by omega]
      exact Nat.testBit_log2 hne

/-- The count of trailing zeros, and the one bit above them where it is less than the bits looked at. -/
theorem ctzFrom_spec : ∀ k n, ctzFrom k n ≤ k ∧ (∀ i < ctzFrom k n, n.testBit i = false)
    ∧ (ctzFrom k n < k → n.testBit (ctzFrom k n) = true)
  | 0, n => ⟨le_rfl, fun i h => absurd h (Nat.not_lt_zero i), fun h => absurd h (lt_irrefl _)⟩
  | k + 1, n => by
    obtain ⟨hle, hzeros, hone⟩ := ctzFrom_spec k (n / 2)
    rw [ctzFrom]
    by_cases hodd : n % 2 = 1
    · rw [if_pos hodd]
      exact ⟨Nat.zero_le _, fun i h => absurd h (Nat.not_lt_zero i), fun _ => by rw [Nat.testBit_zero]; exact decide_eq_true hodd⟩
    · rw [if_neg hodd]
      refine ⟨by omega, fun i hi => ?_, fun h => ?_⟩
      · cases i with
        | zero => rw [Nat.testBit_zero]; exact decide_eq_false hodd
        | succ i => rw [Nat.testBit_succ]; exact hzeros i (by omega)
      · rw [Nat.add_comm, Nat.testBit_succ]; exact hone (by omega)

theorem popFrom_eq : ∀ k n, popFrom k n = ((List.range k).filter fun i => n.testBit i).length
  | 0, _ => rfl
  | k + 1, n => by
    rw [popFrom, popFrom_eq k, List.range_succ_eq_map, List.filter_cons, List.filter_map, Nat.testBit_zero]
    rcases Nat.mod_two_eq_zero_or_one n with h | h <;>
      simp [h, Function.comp_def, Nat.testBit_succ, Nat.add_comm]

/-- Reversed, the bytes of a number stand above an accumulated one, which is shifted up past them. -/
theorem swapBytes_spec : ∀ k n acc, swapBytes k n acc / 256 ^ k = acc
    ∧ ∀ i < k, swapBytes k n acc / 256 ^ i % 256 = n / 256 ^ (k - 1 - i) % 256
  | 0, n, acc => ⟨by simp [swapBytes], fun i h => absurd h (Nat.not_lt_zero i)⟩
  | k + 1, n, acc => by
    obtain ⟨hhigh, hbytes⟩ := swapBytes_spec k (n / 256) (acc * 256 + n % 256)
    rw [swapBytes]
    refine ⟨?_, fun i hi => ?_⟩
    · rw [Nat.pow_succ, ← Nat.div_div_eq_div_mul, hhigh]
      omega
    · rcases Nat.lt_succ_iff_lt_or_eq.mp hi with hlt | rfl
      · rw [hbytes i hlt, Nat.div_div_eq_div_mul, ← Nat.pow_succ', show (k - 1 - i).succ = k + 1 - 1 - i by omega]
      · rw [hhigh, show i + 1 - 1 - i = 0 by omega, Nat.pow_zero, Nat.div_one]
        omega

theorem swapBytes_lt (k n : Nat) : swapBytes k n 0 < 256 ^ k := by
  have h := (swapBytes_spec k n 0).1
  rwa [Nat.div_eq_zero_iff_lt (by positivity)] at h

theorem bswap_spec (a : Word) (i : Nat) (hi : i < 8) :
    (word (swapBytes 8 a.toNat 0)).toNat / 256 ^ i % 256 = a.toNat / 256 ^ (7 - i) % 256 := by
  rw [BitVec.toNat_ofNat, Nat.mod_eq_of_lt (show _ < 2 ^ 64 from swapBytes_lt 8 a.toNat)]
  exact (swapBytes_spec 8 a.toNat 0).2 i hi

/-- The signed value of the low bits is that of the word cut to them. -/
theorem signedOf_eq_toInt (k : Nat) (hk : 0 < k) (n : Nat) : signedOf k n = (BitVec.ofNat k n).toInt := by
  have hpow : 2 ^ k = 2 * 2 ^ (k - 1) := by rw [← Nat.pow_succ', Nat.succ_eq_add_one, Nat.sub_add_cancel hk]
  rw [signedOf, BitVec.toInt_eq_toNat_cond, BitVec.toNat_ofNat]
  refine ite_congr (propext ?_) (fun _ => rfl) (fun _ => rfl)
  omega

theorem sextBits_eq (k : Nat) (hk : 0 < k) (a : Word) : sextBits k a = (a.setWidth k).signExtend 64 := by
  rw [sextBits, signedOf_eq_toInt k hk, BitVec.ofNat_toNat]
  rfl

theorem zextW_eq (a : Word) : word (a.toNat % 2 ^ 32) = (a.setWidth 32).setWidth 64 := by
  apply BitVec.eq_of_toNat_eq
  simp only [BitVec.toNat_ofNat, BitVec.toNat_setWidth]

/-- Settles O8: each form is its function of the source, and the counting ones count by halving the number. -/
theorem unaryResults : Obligations.UnaryResults := by
  intro x s a ha hd
  have gives := fun w f r => alu1_gives w x.a.val x.d.val x.ea f s a r ha hd
  obtain ⟨n, hn, hclz, hzeros, hone⟩ := clzOf_spec a
  obtain ⟨hle, hlow, hbit⟩ := ctzFrom_spec 64 a.toNat
  simp only [BitVec.testBit_toNat] at hlow hbit
  exact ⟨⟨n, hn, gives _ _ _ hclz, hzeros, hone⟩, ⟨_, hle, gives _ _ _ rfl, hlow, hbit⟩,
    gives _ _ _ (congrArg word (popFrom_eq 64 a.toNat)),
    ⟨_, gives _ _ _ rfl, bswap_spec a⟩,
    gives _ _ _ (sextBits_eq 8 (by decide) a), gives _ _ _ (sextBits_eq 16 (by decide) a),
    gives _ _ _ (sextBits_eq 32 (by decide) a), gives _ _ _ (zextW_eq a)⟩

/-! ## Immediates -/

theorem toInt_signExtend_imm (x : BitVec 13) : (x.signExtend 64).toInt = x.toInt :=
  BitVec.toInt_signExtend_of_le (by decide)

theorem shiftLeft_twelve (x : Word) : x <<< 12 = 4096 * x := by
  rw [BitVec.shiftLeft_eq_mul_twoPow, BitVec.mul_comm]
  rfl

/-- Settles O11: the immediate is the second source, sign-extended. -/
theorem immediateForms : Obligations.ImmediateForms := by
  refine ⟨⟨fun x s a ha hd => ?_, fun x s a ha hd => ?_, fun x s a ha hd => ?_⟩, fun x s hd => ?_⟩
  · have gives := fun w f => alu1_next w x.a.val x.d.val x.ea f s a ha hd
    exact ⟨gives _ _, gives _ _, gives _ _, gives _ _⟩
  · have gives := fun w f r => alu1_gives w x.a.val x.d.val x.ea f s a r ha hd
    exact ⟨gives _ _ _ rfl, gives _ _ _ rfl, gives _ _ _ rfl,
      gives _ _ _ (by rw [BitVec.rotateLeft_def, Nat.mod_eq_of_lt x.amt.isLt])⟩
  · have gives := fun w f r => alu1_gives w x.a.val x.d.val x.ea f s a r ha hd
    exact ⟨gives _ _ _ (flagWord_of_iff (BitVec.slt_iff_toInt_lt.trans (by rw [toInt_signExtend_imm]))),
      gives _ _ _ (flagWord_of_iff BitVec.ult_iff_toNat_lt)⟩
  · unfold Ready at hd
    simp only [exec, execAddpc, hd, ok_bind, pure, Except.pure, settle_ok, shiftLeft_twelve, immWord, wrote]

/-! ## Divisions that run ahead -/

theorem getLsbD_setBit {n : Nat} (x : BitVec n) (i j : Nat) (b : Bool) (hj : j < n) :
    (setBit x i b).getLsbD j = if j = i then b else x.getLsbD j := by
  have hbit : (BitVec.ofNat n (2 ^ i)).getLsbD j = decide (j = i) := by
    rw [BitVec.getLsbD_ofNat, Nat.testBit_two_pow, decide_eq_true hj, Bool.true_and]
    exact decide_eq_decide.mpr eq_comm
  cases b with
  | false =>
    rw [setBit, if_neg Bool.false_ne_true, BitVec.getLsbD_and, BitVec.getLsbD_not, hbit, decide_eq_true hj]
    by_cases h : j = i <;> simp [h]
  | true =>
    rw [setBit, if_pos rfl, BitVec.getLsbD_or, hbit]
    by_cases h : j = i <;> simp [h]

theorem divide_ahead (w : Nat) (x : Alu2) (f : Word → Word → Word) (s : State) (a b : Word) (hs : OnScalar s)
    (ha : Reads s x.a.val a) (hb : Reads s x.b.val b) (hd : Ready s x.d.val) (hl : s.lockstep = false) :
    divide w x f s
      = .next (s.withC ({ s.c with divs := s.c.divs ++ [(x.d.val, f a b, s.c.ord)] }.empty x.d.val).advance) := by
  unfold Ready at hd
  unfold OnScalar at hs
  simp only [divide, ha x.ea w, hb x.eb w, hd, ok_bind, hl, hs, Bool.or_self, Bool.false_eq_true, if_false, pure, Except.pure,
    settle_ok]

theorem Ctx.deliver_divs (c : Ctx) (d : Nat) (x : Word) (ord : Nat) : (c.deliver d x ord).divs = c.divs := by
  unfold Ctx.deliver
  split
  · exact fill_divs ..
  · exact fill_divs ..

theorem Ctx.feS_fill (c : Ctx) (d : Nat) (x : Word) (hd : d < 32) : (c.fill d x).feS.getLsbD d = true := by
  simp only [Ctx.fill, getLsbD_setBit _ _ _ _ hd, if_true]

/-- A result delivered fills its destination. -/
theorem Ctx.feS_deliver (c : Ctx) (d : Nat) (x : Word) (ord : Nat) (hd : d < 32) :
    (c.deliver d x ord).feS.getLsbD d = true := by
  unfold Ctx.deliver
  split
  · next h => subst h; exact feS_fill c 0 0 hd
  · exact feS_fill c d x hd

/-- A result delivered is read back, and one for s0 is discarded (R135). -/
theorem Ctx.getS_deliver (c : Ctx) (d : Nat) (x : Word) (ord : Nat) (hd : d < 32) :
    (c.deliver d x ord).getS d = if d = 0 then 0 else x := by
  unfold Ctx.deliver
  split
  · next h => subst h; rfl
  · next h => exact getS_setS c d x h hd

/-- Settles O10: a division that runs ahead keeps its result among the outstanding ones, and DIVIDE_RESULT delivers it. -/
theorem divideRunsAhead : Obligations.DivideRunsAhead := by
  refine ⟨fun x s a b hs ha hb hd hl => ?_, fun s q n d r o hq hd hdiv => ?_⟩
  · have gives := fun w f => divide_ahead w x f s a b hs ha hb hd hl
    exact ⟨gives _ _, gives _ _, gives _ _, gives _ _⟩
  · refine ⟨({ s.ctx q with divs := (s.ctx q).divs.eraseIdx n } : Ctx).deliver d r o, ?_, Ctx.getS_deliver _ d r o hd, Ctx.feS_deliver _ d r o hd, Ctx.deliver_divs _ d r o⟩
    simp only [exec, execDivideResult, stepOf, isSeq, decide_eq_true hq, if_true, divideReturn, hdiv]

/-! ## The scalar file -/

/-- The end test changes the loop stack and the program counter only. -/
theorem endTest_s (a : Word) : ∀ (n : Nat) (x : Scal), (endTest n x a).s = x.s
  | 0, _ => rfl
  | n + 1, x => by
    rw [endTest]
    split
    · split
      · rfl
      · exact endTest_s a n { x with loops := popLoop x.loops }
    · rfl

@[simp] theorem Scal.next_s (x : Scal) : x.next.s = x.s := by
  unfold Scal.next
  split
  · dsimp only
    split
    · rfl
    · split
      · rfl
      · exact endTest_s _ _ _
  · exact endTest_s _ _ _

theorem Ctx.advance_scalar (c : Ctx) (h : c.laneOn = false) : c.advance = { c with ord := c.ord + 1, sc := c.sc.next } := by
  have h' : ({ c with ord := c.ord + 1 } : Ctx).laneOn = false := h
  simp only [Ctx.advance, h', Bool.false_eq_true, if_false]

/-- What an instruction that writes a scalar and goes on leaves of the context, on the scalar side. -/
theorem wrote_c (s : State) (d : Nat) (r : Word) (h : OnScalar s) :
    (wrote s d r).c = { s.c.setS d r with ord := s.c.ord + 1, sc := (s.c.setS d r).sc.next } := by
  have hput : s.c.put d r = s.c.setS d r := by
    unfold OnScalar at h
    simp only [Ctx.put, h, Bool.false_eq_true, if_false]
  have hlane : (s.c.setS d r).laneOn = false := (Ctx.laneOn_setS ..).trans h
  have hc : (wrote s d r).c = (s.c.put d r).advance := State.ctx_setCtx ..
  rw [hc, hput, Ctx.advance_scalar _ hlane, Ctx.setS_ord]

theorem getS_wrote (s : State) (d n : Nat) (r : Word) (h : OnScalar s) : (wrote s d r).c.getS n = (s.c.setS d r).getS n := by
  rw [wrote_c s d r h]
  simp only [Ctx.getS, Scal.next_s]

theorem readS_emptyTraps (s : State) (n w : Nat) (h : Empty s n) :
    readS s n true w = .error (.trap (classA cEMPTY_READ 0 (word w) s.pc)) := by
  obtain ⟨hl, h0, hq, hf⟩ := h
  simp [readS, hl, h0, hq, hf]

theorem freeDest_waits (s : State) (n : Nat) (hl : s.c.laneOn = false) (h0 : n ≠ 0) (hf : s.c.feS.getLsbD n = false) :
    freeDest s n = .error (.wait s) := by
  simp [freeDest, hl, h0, hf]

/-- Settles O13: a scalar result stands in its register and nowhere else, and the operands of add wait or trap in their order. -/
theorem scalarFile : Obligations.ScalarFile := by
  refine ⟨fun s hs => ⟨readS_zero s hs, ready_zero s, fun r => ?_, fun d hd r h0 => ⟨?_, fun n _ hne => ?_, ?_, ?_, ?_⟩⟩,
    fun x s h he => ?_, fun x s h he => ?_, fun x s a ha h he => ?_, fun x s a ha h he => ?_, fun x s a b ha hb hl h0 hf => ?_⟩
  · rw [wrote, put_zero s r hs, passed]
  · rw [getS_wrote s d d r hs, Ctx.getS_setS _ _ _ h0 hd]
  · rw [getS_wrote s d n r hs, Ctx.getS_setS_ne _ _ _ _ hne]
  · rw [wrote_c s d r hs]; exact Ctx.setS_feS ..
  · rw [wrote_c s d r hs]; exact Ctx.setS_feV ..
  · exact ⟨rfl, rfl, rfl, rfl, rfl, rfl, rfl, rfl, rfl⟩
  · simp only [exec, execAdd, alu2, he, readS_empty s _ _ h, error_bind, settle_wait s s h.1]
  · simp only [exec, execAdd, alu2, he, readS_emptyTraps s _ _ h, error_bind, settle_classA]
  · simp only [exec, execAdd, alu2, he, ha x.ea _, ok_bind, readS_empty s _ _ h, error_bind, settle_wait s s h.1]
  · simp only [exec, execAdd, alu2, he, ha x.ea _, ok_bind, readS_emptyTraps s _ _ h, error_bind, settle_classA]
  · simp only [exec, execAdd, alu2, ha x.ea _, hb x.eb _, ok_bind, freeDest_waits s _ hl h0 hf, error_bind, settle_wait s s hl]

end Sys2Proof.Machine
end

