-- ==== Sys2Proof/Proofs/Loops.lean ====
section
/-!
Hardware loops and repeat frames (R41, R42, R148, R149, R154 to R156).
-/
namespace Sys2Proof.Machine

/-! ## Entering a loop -/

/-- On the scalar side the instruction that executes stands at the context's own program counter. -/
theorem pc_of_onScalar (s : State) (h : OnScalar s) : s.pc = s.c.sc.pc := by
  unfold OnScalar at h
  simp only [State.pc, Ctx.at, h, Bool.false_eq_true, if_false]

/-- The distance to the last word of a body of `len` words. -/
theorem word_four_mul (len : BitVec 12) : word (4 * len.toNat) = 4 * len.setWidth 64 := by
  rw [word, BitVec.ofNat_mul, BitVec.ofNat_toNat]; rfl

theorem word_four_mul_succ (len : BitVec 12) : word (4 * (len.toNat + 1)) = 4 * (len.setWidth 64 + 1) := by
  rw [word, BitVec.ofNat_mul, BitVec.ofNat_add, BitVec.ofNat_toNat]; rfl

/-- A new entry stands on top of the loop stack. -/
theorem vget_pushLoop_zero (l : Vector LoopEntry 6) (e : LoopEntry) : vget (pushLoop l e) 0 {} = e := by
  simp [pushLoop, vget, Vector.getD]

/-- The entries that were on the stack stand one deeper. -/
theorem vget_pushLoop_succ (l : Vector LoopEntry 6) (e : LoopEntry) (i : Nat) (h : i < 5) :
    vget (pushLoop l e) (i + 1) {} = vget l i {} := by
  have h6 : i + 1 < 6 := by omega
  simp [pushLoop, vget, Vector.getD, h6]

theorem loopPlace_ok (w : Nat) (s : State) (h : ¬(s.c.sc.loop0.count ≠ 0 ∧ s.pc = s.c.sc.loop0.last)) :
    loopPlace w s = .ok () := by
  rw [loopPlace, if_neg h]

theorem loopPlace_atEnd (w : Nat) (s : State) (h : s.c.sc.loop0.count ≠ 0 ∧ s.pc = s.c.sc.loop0.last) :
    loopPlace w s = .error (.trap (classA cILLEGAL 0 (word w) s.pc)) := by
  rw [loopPlace, if_pos h]

theorem enterLoop_zero (len : BitVec 12) (s : State) :
    enterLoop len.toNat s 0 = .ok (jumped s (s.pc + 4 * (len.setWidth 64 + 1))) := by
  simp only [enterLoop, if_true, word_four_mul_succ, jumped, State.pc]

theorem enterLoop_full (len : Nat) (s : State) (cnt : Word) (h0 : cnt ≠ 0) (h : (vget s.c.sc.loops 5 {}).count ≠ 0) :
    enterLoop len s cnt = .error (.trap (classA cLOOP_DEPTH 0 6 s.pc)) := by
  rw [enterLoop, if_neg h0, if_pos h]

theorem enterLoop_pushed (len : BitVec 12) (s : State) (cnt : Word) (h0 : cnt ≠ 0)
    (h : (vget s.c.sc.loops 5 {}).count = 0) : enterLoop len.toNat s cnt
      = .ok (s.withC { s.c with sc := { s.c.sc with
          loops := pushLoop s.c.sc.loops ⟨s.pc + 4, s.pc + 4 * len.setWidth 64, cnt, 0⟩ } }.advance) := by
  rw [enterLoop, if_neg h0, if_neg (not_not.mpr h), word_four_mul]

theorem exec_loop (x : LoopR) (s : State) (hs : OnScalar s) : exec (.loop x) s
    = settle s (loopPlace (14 + x.enc) s >>= fun _ => readS s x.cnt.val false (14 + x.enc) >>= enterLoop x.len.toNat s) := by
  simp only [exec, execLoop, notLane_ok s hs, ok_bind]

theorem exec_loopi (x : LoopR) (s : State) (hs : OnScalar s) : exec (.loopi x) s
    = settle s (loopPlace (0x100E + x.enc) s >>= fun _ => enterLoop x.len.toNat s (word x.cnt.val)) := by
  simp only [exec, execLoopi, notLane_ok s hs, ok_bind]

end Sys2Proof.Machine

namespace Sys2Proof
open Machine

/-- Settles O17: both forms check their place, and then enter the loop with their count. -/
theorem enterLoop : Obligations.EnterLoop := by
  intro x s hs e0 after
  have enters : ∀ cnt, after cnt (settle s (Machine.enterLoop x.len.toNat s cnt)) := by
    intro cnt _
    refine ⟨fun h => ?_, fun h h5 => ?_, fun h h5 => ⟨_, ?_, vget_pushLoop_zero _ _, vget_pushLoop_succ _ _⟩⟩
    · rw [h, enterLoop_zero, settle_ok]
    · rw [enterLoop_full _ s cnt h h5, settle_classA]
    · rw [enterLoop_pushed _ s cnt h h5, settle_ok]
  refine ⟨fun hc hl => ?_, fun cnt hcnt hplace => ?_, fun hplace => ?_, fun he hplace => ?_⟩
  · rw [exec_loop x s hs, exec_loopi x s hs, loopPlace_atEnd _ s ⟨hc, hl⟩, loopPlace_atEnd _ s ⟨hc, hl⟩, error_bind,
      error_bind, settle_classA, settle_classA]
    exact ⟨rfl, rfl⟩
  · rw [exec_loop x s hs, loopPlace_ok _ s hplace, ok_bind, hcnt false _, ok_bind]
    exact enters cnt hplace
  · rw [exec_loopi x s hs, loopPlace_ok _ s hplace, ok_bind]
    exact enters _ hplace
  · rw [exec_loop x s hs, loopPlace_ok _ s hplace, ok_bind, readS_empty s _ _ he, error_bind, settle_wait s s hs]

end Sys2Proof

namespace Sys2Proof.Machine

/-! ## The end test -/

/-- A loop stack is the entries read from it. -/
theorem loops_ext {l m : Vector LoopEntry 6} (h : ∀ i < 6, vget l i {} = vget m i {}) : l = m := by
  ext i hi
  simpa [vget, Vector.getD, hi] using h i hi

/-- The stack without its top entry is the only one that R149 describes so. -/
theorem eq_popLoop {l m : Vector LoopEntry 6} (h : ∀ i < 5, vget m i {} = vget l (i + 1) {}) (h5 : vget m 5 {} = {}) :
    m = popLoop l := loops_ext fun i hi => by
  rcases Nat.lt_succ_iff_lt_or_eq.mp hi with hlt | rfl
  · rw [h i hlt, vget_popLoop l i hlt]
  · rw [h5, vget_popLoop_last]

/-- R149 leaves no choice. -/
theorem Ends.unique {x : Scal} {a : Word} {y z : Scal} (h : Ends x a y) (h' : Ends x a z) : y = z := by
  induction h with
  | none x a hno =>
    cases h' with
    | none => rfl
    | again _ _ hc hl _ => exact absurd ⟨hc, hl⟩ hno
    | ended _ _ _ _ hc hl _ _ _ _ => exact absurd ⟨hc, hl⟩ hno
  | again x a hc hl hmore =>
    cases h' with
    | none _ _ hno => exact absurd ⟨hc, hl⟩ hno
    | again => rfl
    | ended _ _ _ _ _ _ hlast _ _ _ => exact absurd hmore hlast
  | ended x y a l hc hl hlast hpop hempty _ ih =>
    cases h' with
    | none _ _ hno => exact absurd ⟨hc, hl⟩ hno
    | again _ _ _ _ hmore => exact absurd hmore hlast
    | ended _ _ _ m _ _ _ hpop' hempty' h' =>
      rw [eq_popLoop hpop' hempty', ← eq_popLoop hpop hempty] at h'
      exact ih h'

/-- Six turns of the end test are enough. -/
theorem endTest_six_ends (x : Scal) (a : Word) : Ends x a (endTest 6 x a) :=
  endTest_ends a 6 x fun _ h h' => absurd h (Nat.not_le.mpr h')

theorem passed_sc (s : State) (hs : OnScalar s) : (passed s).c.sc = s.c.sc.next := by
  have hc : (passed s).c = s.c.advance := State.ctx_setCtx ..
  rw [hc, Ctx.advance_scalar _ hs]

end Sys2Proof.Machine

namespace Sys2Proof
open Machine

/-- Settles O18: outside a frame an instruction that goes on makes the end test, and R149 leaves it no choice. -/
theorem endTest : Obligations.EndTest := by
  intro s hs hrun
  have hends : Ends s.c.sc s.pc (passed s).c.sc := by
    rw [passed_sc s hs, pc_of_onScalar s hs, Scal.next, hrun]
    exact endTest_six_ends _ _
  exact ⟨hends, fun x hx => hends.unique hx⟩

end Sys2Proof

namespace Sys2Proof.Machine

/-! ## Repeat frames -/

theorem RptF.dec_enc (x : RptF) : RptF.dec (15 + x.enc) = x := by
  obtain ⟨sc, sb, sa, sd, cnt, len⟩ := x
  have hk : Packed [(15, 7), (len.toNat, 4), (cnt.toNat, 5), (sd.val, 2), (sa.val, 2), (sb.val, 2), (sc.val, 2)] :=
    ⟨by decide, len.isLt, cnt.isLt, sd.isLt, sa.isLt, sb.isLt, sc.isLt, trivial⟩
  have hn : 15 + RptF.enc ⟨sc, sb, sa, sd, cnt, len⟩
      = pack [(15, 7), (len.toNat, 4), (cnt.toNat, 5), (sd.val, 2), (sa.val, 2), (sb.val, 2), (sc.val, 2)] := by
    simp only [RptF.enc, pack]
    ring
  rw [hn]
  simp only [RptF.dec, RptF.mk.injEq]
  exact ⟨fin_of _ _ _ (pack_one [(15, 7), (len.toNat, 4), (cnt.toNat, 5), (sd.val, 2), (sa.val, 2), (sb.val, 2)] _ _ 2 hk),
    fin_of _ _ _ (pack_one [(15, 7), (len.toNat, 4), (cnt.toNat, 5), (sd.val, 2), (sa.val, 2)] _ _ 2 hk),
    fin_of _ _ _ (pack_one [(15, 7), (len.toNat, 4), (cnt.toNat, 5), (sd.val, 2)] _ _ 2 hk),
    fin_of _ _ _ (pack_one [(15, 7), (len.toNat, 4), (cnt.toNat, 5)] _ _ 2 hk),
    bitVec_of _ _ (pack_one [(15, 7), (len.toNat, 4)] _ _ 5 hk), bitVec_of _ _ (pack_one [(15, 7)] _ _ 4 hk)⟩

theorem exec_rpt (x : RptF) (s : State) (hs : OnScalar s) : exec (.rpt x) s
    = settle s (enterFrame s s.cur s.pc (15 + x.enc) 0 0 s.c.sc.rptAct >>= fun t =>
        pure (t.setCtx s.cur { t.ctx s.cur with ord := (t.ctx s.cur).ord + 1 })) := by
  show execRpt x s = _
  rw [execRpt, notLane_ok s hs, ok_bind]

/-- Entering a frame begins with the fetch of its words. -/
theorem enterFrame_error (s : State) (q : Nat) (pc : Word) (x : RptF) (i j : Nat) (again : Bool) (e : Stop)
    (h : fetchWords s q (pc + 4) pc (x.len.toNat + 1) = .error e) :
    enterFrame s q pc (15 + x.enc) i j again = .error e := by
  simp only [enterFrame, RptF.dec_enc, h, error_bind]

/-- The words fetched, the capture check says whether they make a frame. -/
theorem enterFrame_bad (s t : State) (q : Nat) (pc : Word) (x : RptF) (i j : Nat) (again : Bool) (ws : List (BitVec 32)) (v : Word)
    (h : fetchWords s q (pc + 4) pc (x.len.toNat + 1) = .ok (t, ws))
    (hbad : captureCheck (t.ctx q).sc pc (15 + x.enc) ws (x.cnt.toNat + 1) x.sd.val x.sa.val x.sb.val = some v) :
    enterFrame s q pc (15 + x.enc) i j again = .error (.trap (classA cRPT_ILLEGAL 0 v pc)) := by
  simp only [enterFrame, RptF.dec_enc, h, ok_bind, hbad]
  rfl

theorem enterFrame_again (s t : State) (q : Nat) (pc : Word) (x : RptF) (i j : Nat) (ws : List (BitVec 32))
    (h : fetchWords s q (pc + 4) pc (x.len.toNat + 1) = .ok (t, ws))
    (hbad : captureCheck (t.ctx q).sc pc (15 + x.enc) ws (x.cnt.toNat + 1) x.sd.val x.sa.val x.sb.val = none) :
    enterFrame s q pc (15 + x.enc) i j true
      = .error (.trap (classA cRPT_ILLEGAL 0 (rptTval (15 + x.enc) 0 0 false) pc)) := by
  simp only [enterFrame, RptF.dec_enc, h, ok_bind, hbad]
  rfl

theorem enterFrame_ok (s t : State) (q : Nat) (pc : Word) (x : RptF) (ws : List (BitVec 32))
    (h : fetchWords s q (pc + 4) pc (x.len.toNat + 1) = .ok (t, ws))
    (hbad : captureCheck (t.ctx q).sc pc (15 + x.enc) ws (x.cnt.toNat + 1) x.sd.val x.sa.val x.sb.val = none) :
    enterFrame s q pc (15 + x.enc) 0 0 false = .ok (t.setCtx q { t.ctx q with sc := { (t.ctx q).sc with
      rptAct := true, rptRun := true, rptI := 0, rptJ := 0, rptBuf := ws, rptCnt := x.cnt.toNat + 1,
      rptSd := x.sd.val, rptSa := x.sa.val, rptSb := x.sb.val, pc := pc + 4 } }) := by
  simp only [enterFrame, RptF.dec_enc, h, ok_bind, hbad]
  rfl

theorem exec_rpt_ok (x : RptF) (s t : State) (ws : List (BitVec 32)) (hs : OnScalar s) (hact : s.c.sc.rptAct = false)
    (h : fetchWords s s.cur (s.pc + 4) s.pc (x.len.toNat + 1) = .ok (t, ws))
    (hbad : captureCheck (t.ctx s.cur).sc s.pc (15 + x.enc) ws (x.cnt.toNat + 1) x.sd.val x.sa.val x.sb.val = none) :
    exec (.rpt x) s = .next (t.setCtx s.cur { t.ctx s.cur with
      ord := (t.ctx s.cur).ord + 1
      sc := { (t.ctx s.cur).sc with
        rptAct := true, rptRun := true, rptI := 0, rptJ := 0, rptBuf := ws, rptCnt := x.cnt.toNat + 1,
        rptSd := x.sd.val, rptSa := x.sa.val, rptSb := x.sb.val, pc := s.pc + 4 } }) := by
  rw [exec_rpt x s hs, hact, enterFrame_ok s t _ _ x ws h hbad, ok_bind]
  simp only [pure, Except.pure, settle_ok, State.ctx_setCtx, State.setCtx_setCtx]

/-- Inside a frame the repeat buffer supplies the next word. -/
theorem nextWord_frame (s : State) (hs : OnScalar s) (hrun : s.c.sc.rptRun = true) :
    nextWord s = .ok (s, stagger (s.c.sc.rptBuf.getD s.c.sc.rptI 0).toNat s.c.sc.rptJ s.c.sc.rptSd s.c.sc.rptSa s.c.sc.rptSb) := by
  unfold OnScalar at hs
  simp only [nextWord, hs, hrun, Bool.not_false, Bool.and_self, if_true]

/-- Settles O20: rpt enters a frame, and in a frame the next instruction is the next word, the next replay's first, or the one that
the end test gives. -/
theorem repeatFrames : Obligations.RepeatFrames := by
  refine ⟨fun x s hs => ⟨fun b f h => ?_, fun t ws h => ⟨fun v hv => ?_, fun hbad hact => ?_, fun hbad hact => ?_⟩⟩,
    fun s hs hrun => ⟨nextWord_frame s hs hrun, fun h => ?_, fun h hj => ?_, fun h hj => ?_⟩⟩
  · rw [exec_rpt x s hs, enterFrame_error s _ _ x 0 0 _ _ h, error_bind, settle_trap]
  · rw [exec_rpt x s hs, enterFrame_bad s t _ _ x 0 0 _ ws v h hv, error_bind, settle_classA]
  · rw [exec_rpt x s hs, hact, enterFrame_again s t _ _ x 0 0 ws h hbad, error_bind, settle_classA]
  · exact ⟨_, exec_rpt_ok x s t ws hs hact h hbad, rfl, rfl⟩
  · rw [passed_sc s hs, Scal.next, if_pos hrun, if_pos h]
  · rw [passed_sc s hs, Scal.next, if_pos hrun, if_neg (by omega), if_pos hj, word, BitVec.ofNat_mul]
    rfl
  · rw [passed_sc s hs, Scal.next, if_pos hrun, if_neg (by omega), if_neg (by omega)]
    exact endTest_six_ends _ _

end Sys2Proof.Machine
end

