-- ==== Sys2Proof/Proofs/Lanes.lean ====
section
/-!
Lane mode (R38, R285, R286): the slots that a lane's register fields name, and the instructions that start the lane threads and
end them.
-/
namespace Sys2Proof.Machine

/-! ## Slots -/

theorem slot_eq (c : Ctx) (l n : Nat) : c.slot l n = (vget c.v n 0 >>> (64 * l)).setWidth 64 := by
  apply BitVec.eq_of_toNat_eq
  rw [Ctx.slot, BitVec.toNat_ofNat, BitVec.toNat_setWidth, BitVec.toNat_ushiftRight, Nat.shiftRight_eq_div_pow]

/-- The bits of a register with a lane's slot written. -/
theorem getLsbD_setSlot (c : Ctx) (l r j : Nat) (x : Word) (hr : r < 32) (hj : j < 4096) :
    (vget (c.setSlot l r x).v r 0).getLsbD j
      = if 64 * l ≤ j ∧ j < 64 * l + 64 then x.getLsbD (j - 64 * l) else (vget c.v r 0).getLsbD j := by
  simp only [Ctx.setSlot, vget_vset_same _ _ _ _ hr, BitVec.getLsbD_ofNat, hj, decide_true, Bool.true_and, testBit_setField,
    BitVec.testBit_toNat]

/-- A slot written is read back. -/
theorem slot_setSlot (c : Ctx) (l r : Nat) (x : Word) (hr : r < 32) (hl : l < 64) : (c.setSlot l r x).slot l r = x := by
  refine BitVec.eq_of_getLsbD_eq fun i hi => ?_
  rw [slot_eq, BitVec.getLsbD_setWidth, BitVec.getLsbD_ushiftRight, getLsbD_setSlot c l r _ x hr (by omega),
    if_pos (by omega), decide_eq_true hi, Bool.true_and, Nat.add_sub_cancel_left]

/-- A result in a slot leaves every bit outside it. -/
theorem getLsbD_setSlot_ne (c : Ctx) (l r n j : Nat) (x : Word) (hr : r < 32) (hj : j < 4096) (h : n ≠ r ∨ j / 64 ≠ l) :
    (vget (c.setSlot l r x).v n 0).getLsbD j = (vget c.v n 0).getLsbD j := by
  by_cases hn : n = r
  · subst hn
    rw [getLsbD_setSlot c l n j x hr hj, if_neg (by omega)]
  · rw [Ctx.setSlot, vget_vset_ne _ _ _ _ _ hn]

theorem put_inLane (s : State) (d : Nat) (r : Word) (h : InLane s) : s.c.put d r = s.c.setSlot s.c.laneTurn.val d r := by
  unfold InLane at h
  rw [Ctx.put, if_pos h]

/-- In lane mode an instruction that goes on moves its lane's program counter and passes the turn. -/
theorem advance_inLane (c : Ctx) (h : c.laneOn = true) :
    c.advance = { c with ord := c.ord + 1, lpc := vset c.lpc c.laneTurn.val (c.at + 4), laneTurn := c.laneTurn + 1 } := by
  have h' : ({ c with ord := c.ord + 1 } : Ctx).laneOn = true := h
  have hat : ({ c with ord := c.ord + 1 } : Ctx).at = c.at := rfl
  simp only [Ctx.advance, h', if_true, hat]
  rfl

/-- What an instruction that writes a slot and goes on leaves of the context. -/
theorem wrote_inLane (s : State) (d : Nat) (r : Word) (h : InLane s) : (wrote s d r).c
    = { s.c.setSlot s.c.laneTurn.val d r with
        ord := s.c.ord + 1, lpc := vset s.c.lpc s.c.laneTurn.val (s.pc + 4), laneTurn := s.c.laneTurn + 1 } := by
  have hc : (wrote s d r).c = (s.c.put d r).advance := State.ctx_setCtx ..
  have hl : (s.c.setSlot s.c.laneTurn.val d r).laneOn = true := h
  rw [hc, put_inLane s d r h, advance_inLane _ hl]
  rfl

/-- Settles O22: a register field is a slot of a vector register, and writing one is all a result does to the registers. -/
theorem laneSlots : Obligations.LaneSlots := by
  intro s d r h l t
  have ht : t.c = _ := wrote_inLane s d.val r h
  refine ⟨fun n => slot_eq s.c l n.val ▸ readS_lane s n.val h, fun n => ?_, ?_, fun n j hj hne => ?_, ?_, ?_, ?_, ?_, ?_, ?_, ?_,
    ?_, ⟨rfl, rfl, rfl, rfl, rfl, rfl, rfl, rfl, rfl⟩⟩
  · unfold InLane at h
    simp only [Ready, freeDest, h, true_or, if_true]
  · rw [ht]; exact slot_setSlot s.c l d.val r d.isLt s.c.laneTurn.isLt
  · rw [ht]
    exact getLsbD_setSlot_ne s.c l d.val n.val j r d.isLt hj (hne.imp_left fun hn he => hn (Fin.ext he))
  all_goals rw [ht]
  case refine_11 => exact vget_vset_same _ _ _ _ s.c.laneTurn.isLt
  all_goals rfl

/-! ## lsplit -/

/-- A mask of lanes is empty where none of its lanes is in it. -/
theorem setWidth_eq_zero_iff (k : BitVec 8192) : k.setWidth 64 = 0 ↔ ∀ i < 64, k.getLsbD i = false := by
  constructor
  · intro h i hi
    have hbit : (k.setWidth 64).getLsbD i = false := by rw [h]; exact BitVec.getLsbD_zero
    simpa [BitVec.getLsbD_setWidth, hi] using hbit
  · intro h
    refine BitVec.eq_of_getLsbD_eq fun i hi => ?_
    rw [BitVec.getLsbD_setWidth, h i hi, Bool.and_false]
    exact BitVec.getLsbD_zero.symm

/-- The context of a sequencer whose lanes have split off: lane mode, each lane of the mask at the target. -/
def Ctx.splitLanes (c : Ctx) (lanes : BitVec 64) (t : Word) : Ctx :=
  { c with
    ord := c.ord + 1, split := lanes, arrived := 0
    lpc := Vector.ofFn fun l => if lanes.getLsbD l.val then t else vget c.lpc l.val 0
    lmode := true, trapv := false, handler := false, laneTurn := 0 }

theorem exec_lsplit_waits (x : BrM) (s : State) (hs : OnScalar s) (hq : s.c.quiet = false) : exec (.lsplit x) s = .next s := by
  show execLsplit x s = _
  simp only [execLsplit, notLane_ok s hs, ok_bind, hq, Bool.not_false, if_true, throw, throwThe, MonadExceptOf.throw,
    error_bind, settle_wait s s hs]

theorem exec_lsplit_empty (x : BrM) (s : State) (k : BitVec 8192) (hs : OnScalar s) (hq : s.c.quiet = true)
    (hk : ReadsMask s x.k.val k) (h0 : k.setWidth 64 = 0) : exec (.lsplit x) s = .next (passed s) := by
  show execLsplit x s = _
  unfold ReadsMask at hk
  simp only [execLsplit, notLane_ok s hs, ok_bind, hq, Bool.not_true, Bool.false_eq_true, if_false, hk, h0, if_true, pure,
    Except.pure, settle_ok, passed]

theorem exec_lsplit (x : BrM) (s : State) (k : BitVec 8192) (hs : OnScalar s) (hq : s.c.quiet = true)
    (hk : ReadsMask s x.k.val k) (h0 : k.setWidth 64 ≠ 0) :
    exec (.lsplit x) s = .next (s.withC (s.c.splitLanes (k.setWidth 64) (s.pc + 4 * x.off.signExtend 64))) := by
  show execLsplit x s = _
  unfold ReadsMask at hk
  simp only [execLsplit, notLane_ok s hs, ok_bind, hq, Bool.not_true, Bool.false_eq_true, if_false, hk, h0, pure,
    Except.pure, settle_ok, wordOff_eq, Ctx.splitLanes]

theorem sc_splitLanes (c : Ctx) (m : BitVec 64) (t : Word) : (c.splitLanes m t).sc = c.sc := by rw [Ctx.splitLanes]

theorem v_splitLanes (c : Ctx) (m : BitVec 64) (t : Word) : (c.splitLanes m t).v = c.v := by rw [Ctx.splitLanes]

theorem k_splitLanes (c : Ctx) (m : BitVec 64) (t : Word) : (c.splitLanes m t).k = c.k := by rw [Ctx.splitLanes]

theorem lpc_splitLanes (c : Ctx) (k : BitVec 8192) (t : Word) (i : Nat) (hi : i < 64) :
    vget (c.splitLanes (k.setWidth 64) t).lpc i 0 = if k.getLsbD i then t else vget c.lpc i 0 := by
  simp [Ctx.splitLanes, vget, Vector.getD, hi]

/-! ## ljoin -/

/-- Every lane of a mask is in another. -/
theorem and_eq_right_iff (a b : BitVec 64) :
    a &&& b = b ↔ ∀ i < 64, b.getLsbD i = true → a.getLsbD i = true := by
  constructor
  · intro h i _ hb
    have hbit := congrArg (fun v => v.getLsbD i) h
    simpa [hb] using hbit
  · intro h
    refine BitVec.eq_of_getLsbD_eq fun i hi => ?_
    rw [BitVec.getLsbD_and]
    cases hb : b.getLsbD i with
    | false => rw [Bool.and_false]
    | true => rw [h i hi hb, Bool.and_true]

/-- The lanes that have arrived once the lane in turn has. -/
def Ctx.arriving (c : Ctx) : BitVec 64 := setBit c.arrived c.laneTurn.val true

theorem getLsbD_arriving (c : Ctx) (i : Nat) (hi : i < 64) :
    c.arriving.getLsbD i = (c.arrived.getLsbD i || i == c.laneTurn.val) := by
  rw [Ctx.arriving, getLsbD_setBit _ _ _ _ hi]
  by_cases h : i = c.laneTurn.val
  · rw [if_pos h, beq_iff_eq.mpr h, Bool.or_true]
  · rw [if_neg h, beq_eq_false_iff_ne.mpr h, Bool.or_false]

/-- With the lane in turn every split lane has arrived. -/
theorem arriving_all_iff (c : Ctx) : c.arriving &&& c.split = c.split
    ↔ ∀ i < 64, c.split.getLsbD i = true → c.arrived.getLsbD i = true ∨ i = c.laneTurn.val := by
  rw [and_eq_right_iff]
  refine forall_congr' fun i => forall_congr' fun hi => forall_congr' fun _ => ?_
  rw [getLsbD_arriving c i hi, Bool.or_eq_true, beq_iff_eq]

/-- The context after an ljoin that leaves lanes to arrive. -/
def Ctx.joined (c : Ctx) : Ctx := { c with ord := c.ord + 1, arrived := c.arriving, laneTurn := c.laneTurn + 1 }

/-- The context after the ljoin of the last lane: the sequencer stands after the join of the lowest lane. -/
def Ctx.allJoined (c : Ctx) : Ctx :=
  { c.joined with lmode := false, sc := { c.sc with pc := vget c.lpc (ctzFrom 64 c.split.toNat) 0 + 4 } }

theorem exec_ljoin_scalar (s : State) (hs : OnScalar s) : exec .ljoin s = .next (trapped s cILLEGAL 0x0C (word 0x58)) := by
  show execLjoin s = _
  unfold OnScalar at hs
  rw [← settle_classA]
  simp only [execLjoin, hs, Bool.not_false, if_true, throw, throwThe, MonadExceptOf.throw, error_bind]

theorem exec_ljoin_more (s : State) (h : InLane s) (hmore : ¬(s.c.arriving &&& s.c.split = s.c.split)) :
    exec .ljoin s = .next (s.withC s.c.joined) := by
  show execLjoin s = _
  unfold InLane at h
  have hmore' : ¬(setBit s.c.arrived s.c.laneTurn.val true &&& s.c.split = s.c.split) := hmore
  have hsplit : ({ s.c with ord := s.c.ord + 1, arrived := setBit s.c.arrived s.c.laneTurn.val true } : Ctx).passTurn.split
    = s.c.split := rfl
  simp only [execLjoin, h, Bool.not_true, Bool.false_eq_true, if_false, pure, Except.pure, hsplit, hmore', settle_ok]
  rfl

theorem exec_ljoin_waits (s : State) (h : InLane s) (hlast : s.c.arriving &&& s.c.split = s.c.split) (hsb : s.c.sb ≠ []) :
    exec .ljoin s = .next (s.withC s.c.passTurn) := by
  show execLjoin s = _
  unfold InLane at h
  have hlast' : setBit s.c.arrived s.c.laneTurn.val true &&& s.c.split = s.c.split := hlast
  have hsplit : ({ s.c with ord := s.c.ord + 1, arrived := setBit s.c.arrived s.c.laneTurn.val true } : Ctx).passTurn.split
    = s.c.split := rfl
  have hheld : s.c.sb.isEmpty = false := by simpa using hsb
  simp only [execLjoin, h, Bool.not_true, Bool.false_eq_true, if_false, pure, Except.pure, hsplit, hlast', if_true,
    hheld, Bool.not_false, throw, throwThe, MonadExceptOf.throw, error_bind, settle]

theorem exec_ljoin_last (s : State) (h : InLane s) (hlast : s.c.arriving &&& s.c.split = s.c.split) (hsb : s.c.sb = []) :
    exec .ljoin s = .next (s.withC s.c.allJoined) := by
  show execLjoin s = _
  unfold InLane at h
  have hlast' : setBit s.c.arrived s.c.laneTurn.val true &&& s.c.split = s.c.split := hlast
  have hsplit : ({ s.c with ord := s.c.ord + 1, arrived := setBit s.c.arrived s.c.laneTurn.val true } : Ctx).passTurn.split
    = s.c.split := rfl
  have hheld : s.c.sb.isEmpty = true := by simpa using hsb
  simp only [execLjoin, h, Bool.not_true, Bool.false_eq_true, if_false, pure, Except.pure, hsplit, hlast', if_true,
    hheld, settle_ok]
  rfl

/-- The count of trailing zeros of a mask is its lowest lane. -/
theorem ctzFrom_eq_lowest (b : BitVec 64) (l : Nat) (hl : l < 64) (hbit : b.getLsbD l = true)
    (hlow : ∀ i < l, b.getLsbD i = false) : ctzFrom 64 b.toNat = l := by
  obtain ⟨hle, hzeros, hone⟩ := ctzFrom_spec 64 b.toNat
  simp only [BitVec.testBit_toNat] at hzeros hone
  rcases Nat.lt_trichotomy (ctzFrom 64 b.toNat) l with h | h | h
  · have := hone (by omega)
    rw [hlow _ h] at this
    exact absurd this Bool.false_ne_true
  · exact h
  · rw [hzeros l h] at hbit
    exact absurd hbit Bool.false_ne_true

/-- An ljoin with nothing to wait for: lane mode ends with the last lane and goes on without it. -/
theorem ljoin_goes_on (s : State) (h : InLane s)
    (hor : s.c.sb = [] ∨ ∃ i < 64, s.c.split.getLsbD i = true ∧ s.c.arrived.getLsbD i = false ∧ i ≠ s.c.laneTurn.val) :
    exec .ljoin s = .next (s.withC s.c.joined) ∧ ¬(s.c.arriving &&& s.c.split = s.c.split)
    ∨ exec .ljoin s = .next (s.withC s.c.allJoined) ∧ s.c.arriving &&& s.c.split = s.c.split := by
  by_cases hlast : s.c.arriving &&& s.c.split = s.c.split
  · refine .inr ⟨exec_ljoin_last s h hlast (hor.resolve_right ?_), hlast⟩
    rintro ⟨i, hi, hsplit, harr, hturn⟩
    rcases (arriving_all_iff s.c).mp hlast i hi hsplit with h | h
    · exact Bool.false_ne_true (harr.symm.trans h)
    · exact hturn h
  · exact .inl ⟨exec_ljoin_more s h hlast, hlast⟩

theorem lmode_of_inLane (s : State) (h : InLane s) : s.c.lmode = true := by
  unfold InLane Ctx.laneOn at h
  exact (Bool.and_eq_true _ _ ▸ h).1

/-- Settles O23: the lanes that split off are those of the mask's low bits, and the join is complete when each of them is among
the arrived. -/
theorem laneThreads : Obligations.LaneThreads := by
  refine ⟨fun x s k hs => ⟨exec_lsplit_waits x s hs, fun hq hk h0 => ?_, fun hq hk h1 => ?_⟩,
    fun s => ⟨exec_ljoin_scalar s, fun h hsb hall => exec_ljoin_waits s h ((arriving_all_iff s.c).mpr hall) hsb,
      fun h hor => ?_⟩⟩
  · exact exec_lsplit_empty x s k hs hq hk ((setWidth_eq_zero_iff k).mpr h0)
  · have hne : k.setWidth 64 ≠ 0 := fun h0 => by
      obtain ⟨i, hi, hbit⟩ := h1
      exact Bool.false_ne_true (((setWidth_eq_zero_iff k).mp h0 i hi).symm.trans hbit)
    exact ⟨_, exec_lsplit x s k hs hq hk hne, rfl, rfl, rfl, rfl, sc_splitLanes .., v_splitLanes .., k_splitLanes ..,
      lpc_splitLanes s.c k _⟩
  · rcases ljoin_goes_on s h hor with ⟨hexec, hmore⟩ | ⟨hexec, hlast⟩
    · refine ⟨_, hexec, getLsbD_arriving s.c, rfl, rfl, fun _ => ⟨lmode_of_inLane s h, rfl⟩,
        fun l _ hall _ _ => absurd ((and_eq_right_iff _ _).mpr hall) hmore⟩
    · refine ⟨_, hexec, getLsbD_arriving s.c, rfl, rfl, fun ⟨i, hi, hsplit, harr⟩ => ?_, fun l hl _ hbit hlow => ⟨rfl, ?_⟩⟩
      · exact absurd ((and_eq_right_iff _ _).mp hlast i hi hsplit) (Bool.eq_false_iff.mp harr)
      · rw [← ctzFrom_eq_lowest _ l hl hbit hlow]
        rfl

end Sys2Proof.Machine
end

