-- ==== Sys2Proof/Proofs/Memories.lean ====
section
/-!
Byte memories (R7): two memories in canonical form that read alike are equal, and what is written is what is read.
-/
namespace Sys2Proof.Machine

/-- Canonical lists of bytes, from `lo` on, that read alike are equal: the first address listed is the first that is not 0. -/
theorem eq_of_get_eq : ∀ {lo : Nat} {m l : List Host.Cell}, sortedFrom lo m = true → sortedFrom lo l = true →
    (m.all fun c => c.2 != 0) = true → (l.all fun c => c.2 != 0) = true → (∀ a, get m a 0 = get l a 0) → m = l
  | _, [], [], _, _, _, _, _ => rfl
  | _, [], (j, v) :: r, _, _, _, hl, h => by
    simp only [List.all_cons, Bool.and_eq_true, bne_iff_ne] at hl
    have := h j
    simp only [get, if_true] at this
    exact absurd this.symm hl.1
  | _, (j, v) :: r, [], _, _, hm, _, h => by
    simp only [List.all_cons, Bool.and_eq_true, bne_iff_ne] at hm
    have := h j
    simp only [get, if_true] at this
    exact absurd this hm.1
  | lo, (j, v) :: r, (k, u) :: q, sm, sl, hm, hl, h => by
    simp only [sortedFrom, Bool.and_eq_true, decide_eq_true_eq] at sm sl
    simp only [List.all_cons, Bool.and_eq_true, bne_iff_ne] at hm hl
    obtain hjk | hjk | hjk := Nat.lt_trichotomy j k
    · have := h j
      rw [get, if_pos rfl, get, if_neg (by omega), get_below 0 j sl.2 (by omega)] at this
      exact absurd this hm.1
    · subst hjk
      have hv := h j
      rw [get, if_pos rfl, get, if_pos rfl] at hv
      have hr : r = q := eq_of_get_eq sm.2 sl.2 hm.2 hl.2 fun a => by
        by_cases ha : j = a
        · subst ha
          rw [get_below 0 j sm.2 (by omega), get_below 0 j sl.2 (by omega)]
        · simpa only [get, if_neg ha] using h a
      rw [hv, hr]
    · have := h k
      rw [get, if_neg (by omega), get_below 0 k sm.2 (by omega), get, if_pos rfl] at this
      exact absurd this.symm hl.1

/-- Two memories in canonical form that read alike are equal. -/
theorem Memory.ext_read {m l : List Host.Cell} (hm : Memory.wf m = true) (hl : Memory.wf l = true)
    (h : ∀ a, Memory.read m a = Memory.read l a) : m = l := by
  simp only [Memory.wf, Bool.and_eq_true] at hm hl
  exact eq_of_get_eq hm.1 hl.1 hm.2 hl.2 h

/-- The bytes of a number read. -/
theorem Memory.readN_byte (n : Nat) : ∀ (m : List Host.Cell) (a i : Nat), i < n →
    Memory.readN m a n / 256 ^ i % 256 = (Memory.read m (a + i)).toNat := by
  induction n with
  | zero => intro m a i h; omega
  | succ n ih =>
    intro m a i h
    have hb : (Memory.read m a).toNat < 256 := (Memory.read m a).isLt
    cases i with
    | zero => 
      show Memory.readN m a (n + 1) / 256 ^ 0 % 256 = (Memory.read m a).toNat
      rw [Memory.readN, Nat.pow_zero, Nat.div_one]
      omega
    | succ i =>
      have hdiv : ((Memory.read m a).toNat + 256 * Memory.readN m (a + 1) n) / 256 = Memory.readN m (a + 1) n := by omega
      rw [Memory.readN, Nat.pow_succ, Nat.mul_comm (256 ^ i), ← Nat.div_div_eq_div_mul, hdiv, ih m (a + 1) i (by omega),
        show a + 1 + i = a + (i + 1) by omega]

/-- A number read depends on its bytes alone. -/
theorem Memory.readN_congr (n : Nat) : ∀ (m l : List Host.Cell) (a : Nat),
    (∀ i < n, Memory.read m (a + i) = Memory.read l (a + i)) → Memory.readN m a n = Memory.readN l a n := by
  induction n with
  | zero => intro m l a _; rfl
  | succ n ih =>
    intro m l a h
    have h0 := h 0 (by omega)
    have hr := ih m l (a + 1) fun i hi => by
      have := h (i + 1) (by omega)
      rwa [show a + (i + 1) = a + 1 + i by omega] at this
    rw [Nat.add_zero] at h0
    rw [Memory.readN, Memory.readN, h0, hr]

/-- What stands in memory, written again, changes nothing. -/
theorem Memory.writeN_readN {m : List Host.Cell} (hm : Memory.wf m = true) (a n : Nat) :
    Memory.writeN m a n (Memory.readN m a n) = m := by
  refine Memory.ext_read (Memory.wf_writeN n hm a _) hm fun b => ?_
  by_cases hb : a ≤ b ∧ b < a + n
  · obtain ⟨i, rfl⟩ := Nat.exists_eq_add_of_le hb.1
    rw [Memory.read_writeN n hm a _ i (by omega)]
    apply BitVec.eq_of_toNat_eq
    rw [BitVec.toNat_ofNat]
    exact Memory.readN_byte n m a i (by omega)
  · exact Memory.read_writeN_ne n m a _ b (by omega)

/-- Settles O58: reads after writes byte by byte, and equality by the canonical form. -/
theorem memoryLaws : Obligations.MemoryLaws := by
  refine ⟨fun m a n v hm => ⟨Memory.wf_writeN n hm a v, Memory.readN_writeN n hm a v, fun i hi => ?_, fun b k hb => ?_,
    Memory.writeN_readN hm a n⟩, fun m l hm hl => Memory.ext_read hm hl⟩
  · rw [Memory.read_writeN n hm a v i hi, BitVec.toNat_ofNat]
  · exact Memory.readN_congr k _ _ b fun i hi => Memory.read_writeN_ne n m a v (b + i) (by omega)

end Sys2Proof.Machine
end

