-- ==== Sys2Proof/Proofs/Refusals.lean ====
section
/-!
The model refuses nothing (log entry 8): every instruction settles, and a step of another agent names one the device has or is
refused for that alone.
-/
namespace Sys2Proof.Machine

/-- An instruction of the vector queue goes on whatever its acceptance checks find. -/
theorem issueVector_goes (f : VForm) (s : State) : ∃ t, issueVector f s = .next t := by
  unfold issueVector
  dsimp only
  split
  · exact ⟨_, rfl⟩
  · exact ⟨_, rfl⟩
  · split <;> exact ⟨_, rfl⟩

/-- A step of an agent goes on where the device has the agent. -/
theorem stepOf_goes (there : Bool) (s : State) : (∃ t, stepOf there s = .next t) ∨ stepOf there s = .fault .noSuchAgent := by
  cases there with
  | true => exact .inl ⟨s, rfl⟩
  | false => exact .inr rfl

theorem execGrainMove_goes (m : Mover) (s : State) :
    (∃ t, execGrainMove m s = .next t) ∨ execGrainMove m s = .fault .noSuchAgent := by
  cases m with
  | chan ch => exact stepOf_goes ..
  | stage enl i => exact stepOf_goes ..

/-- An instruction word goes on; a step of another agent, which has no word, goes on or names no agent of the device. -/
theorem exec_goes (i : Instr) (s : State) :
    (∃ t, exec i s = .next t) ∨ encode i = none ∧ exec i s = .fault .noSuchAgent := by
  cases i
  case add | sub | and | or | xor | andn | orn | shl | shr | sar | rol | ror | slt | sltu | min | max | minu | maxu | mul
      | mulh | mulhu | div | divu | rem | remu | clz | ctz | popc | bswap | sextB | sextH | sextW | zextW | addi | andi | ori
      | xori | shli | shri | sari | roli | slti | sltiu | setk | setz | addpc | brEq | brNe | brLt | brGe | brLtu | brGeu
      | brmAny | brmAll | brmNone | jal | jalr | loop | loopi | lbrk | rpt | ldBz | ldBs | ldHz | ldHs | ldWz | ldWs | ldD
      | stB | stH | stW | stD | ldp | stp | ldacq | strel | amoAdd | amoAnd | amoOr | amoXor | amoMin | amoMax | amoMinu
      | amoMaxu | amoSwap | cas | casQ | fenceAcq | fenceRel | fenceAr | fenceSc | xfenceAll | xfenceSpace | xfencePage
      | waita | barArr | barWait | barAw | clineClean | clineInv | clineFlush | clineZero | stashMap | stashUnmap | stashFlush
      | stashPin | stashUnpin | prefL2 | prefLlc | prefStash | rdspr | wrspr | vtag | setvl | tclaim | trel | twait | fopen
      | fclose | fdrop | fstat | cpy | cpyM | gath | chanWm | chanWait | chanCancel | chanStat | enqTask | enqLaunch | depd
      | pgrant | tdone | lsplit | ljoin | yield | trap | tret | shut | halt | brk | probe =>
    exact .inl (settle_next s _)
  case vadd | vsub | vmul | vmin | vmax | vand | vor | vxor | vshl | vshr | vsar | vabd | vavg | vadds | vsubs | vmulh | vaddS
      | vsubS | vmulS | vminS | vmaxS | vandS | vorS | vxorS | vshlS | vshrS | vsarS | vabdS | vavgS | vaddsS | vsubsS
      | vmulhS | vaddI | vsubI | vmulI | vminI | vmaxI | vandI | vorI | vxorI | vshlI | vshrI | vsarI | vabdI | vavgI | vaddsI
      | vsubsI | vmulhI | vfma | vfms | vfnma | vfnms | vmacw | vcmpEq | vcmpNe | vcmpLt | vcmpLe | vcmpGt | vcmpGe | vcmpUn
      | vsel | vcvt | vshrr | vdiv | vsqrt | vrcp | vrsqrt | vexp2 | vlog2 | vdot | vredSum | vredMax | vredMin | vredAnd
      | vredOr | vredXor | vsign | vmov | vsplat | vsplati | vget | vput | vslideUp | vslideDn | vld | vst | vlds | vsts
      | vldx | vldxC | vldxDup | vstx | vamoAdd | vamoAnd | vamoOr | vamoXor | vamoMin | vamoMax | vamoMinu | vamoMaxu
      | vamoSwap | vcomp | vexpand | vperm | vzip | vunzip | vtrn | kand | kor | kxor | knot | kandn | kpopc | kfirst | kvl
      | kfrom | vlk | vmcast | vrecv | viota | vidx | vflgRd | vflgClr | wld | wst | wmul | wmac | wmult | wchol | wlu
      | wsolveC | wsolveP | wadd | wsub | wscal | wtrn | wid | wcpy | wdim | wget | wput | tacc | tmma | tmms | tread | twrite
      | tepi =>
    exact .inl (issueVector_goes _ s)
  case vectorStart | groupCommit | vectorComplete | heldPerform | loadReturn | divideResult | detachedComplete | tmmaStart
      | vmcastReserve | vmcastLand | vrecvBind | waitaWake | waitaPoll | waitaTimeout | barWake | channelCommandStart
      | copyComplete | trapInContext | trapToKeeper | eventPlace | successorPlace | sliceEnd | resumeSaved | selection | bind
      | stagingStart | granuleMove | stopComplete | register | exportWord | deliver | rd | wr | wro | drop | dropl | wbl
      | ctlStop | ctlResume | ctlStep | ctlDiscard | root | head | en | counter | channelResume | channelCancel | coreCommit
      | partitionReset | partitionResetDone | window | qcount | printmask | pingran | load | slotDrainDone | printCommit
      | printStart | printDone | bar0Write | bar0Atomicop | bar2Read | bar2Write | bar2Atomicop | vfFlr | priEnable
      | hostCompletionError | completionTimeout | portUp | peerRequest | peerCompletion | peerTimeout | ownershipPass =>
    exact (stepOf_goes _ _).imp_right (.intro rfl)
  case grainMove m => exact (execGrainMove_goes m s).imp_right (.intro rfl)
  case zeroWord | reservedOpcode | illegal | registerWrite | snoop | cmo | purge | errorDetected | save | saveDone | restore
      | restoreDone | abort | fire | rearm | evcount | reportRequest | reportDone | powercap | powerOn | coldReset | linkUp
      | vfEnable | vfDisable | pfFlr | atsCompletion | pageRequestResponse | invalidateRequest | invalidateCompletion
      | snpdata | snpinv | snpcur | m2sReq | m2sRwd | birsp | mode | flipToDeviceBias | flipToHostBias | flipDone
      | cxlCacheEnable | hostCacheResponse =>
    exact .inl ⟨_, rfl⟩

/-- Settles O6: only a step of an agent, which has no word, can be refused. -/
theorem nothingRefused : Obligations.NothingRefused := by
  refine ⟨fun i s hword => ?_, fun i s => (exec_goes i s).imp_right And.right⟩
  rcases exec_goes i s with h | ⟨hnone, -⟩
  · exact h
  · rw [hnone] at hword
    exact absurd hword Bool.false_ne_true

end Sys2Proof.Machine
end

