-- ==== Sys2Proof/Proofs/Steps.lean ====
section
/-!
The step of the machine by its agenda (R14, R432; log entries 1 and 8), and the machine right after power-on.
-/
namespace Sys2Proof.Machine

/-! ## A step by its agenda -/

theorem cur_prepare (s : State) (q : Nat) : (prepare s q).cur = q := rfl

/-- The fetch of a sequencer moves nothing but its lane turn. -/
theorem c_prepare (s : State) (q : Nat) : (prepare s q).c
    = if (s.ctx q).laneOn then { s.ctx q with laneTurn := (laneFor (s.ctx q)).getD (s.ctx q).laneTurn } else s.ctx q :=
  State.ctx_setCtx ..

theorem ord_c_prepare (s : State) (q : Nat) : (prepare s q).c.ord = (s.ctx q).ord := by
  rw [c_prepare]
  split <;> rfl

theorem laneOn_c_prepare (s : State) (q : Nat) : (prepare s q).c.laneOn = (s.ctx q).laneOn := by
  rw [c_prepare]
  split <;> rfl

/-- A step makes the move that comes next, where the machine is not in reset. -/
theorem nextMove_alive (s : State) (a : Act) (r : List Act) (hd : s.dead = false) (ha : s.agenda = a :: r) :
    nextMove s = move a { s with agenda := r } := by
  rw [nextMove, ha]
  simp only [hd, Bool.false_and, Bool.false_eq_true, if_false]

theorem step_next (s t : State) (h : nextMove s = .next t) : step s = .next (closeStep t) := by
  rw [step, h]

theorem step_fault (s : State) (f : Fault) (h : nextMove s = .fault f) : step s = .fault f := by
  rw [step, h]

theorem executeNext_runs (s t u : State) (w : Nat) (hf : fetchNext s = .ok (t, w))
    (hx : exec (decode (BitVec.ofNat 32 w)) (t.withC (keepArrival (decode (BitVec.ofNat 32 w)) t.c)) = .next u) :
    executeNext s = .next (movedOn u s.cur s.c.ord) := by
  rw [executeNext, hf]
  simp only [runInstr, hx]

theorem executeNext_error (s : State) (e : Stop) (hf : fetchNext s = .error e) : executeNext s = settle s (.error e) := by
  rw [executeNext, hf]

/-- Settles O5: the move that comes next, with what follows every move. -/
theorem stepRuns : Obligations.StepRuns := by
  refine ⟨fun s q r hd ha hc => ?_, fun s i r u hd ha hx => step_next _ _ ((nextMove_alive s _ r hd ha).trans hx),
    fun s i r hd ha hx => step_fault _ _ ((nextMove_alive s _ r hd ha).trans hx),
    fun s ns r hd ha => step_next _ _ (nextMove_alive s _ r hd ha), fun s a r hd ha hon hcold => ?_⟩
  · have hfetch : nextMove s = executeNext (prepare { s with agenda := r } q) := by
      rw [nextMove_alive s _ r hd ha, move, fetchStep, if_pos hc]
    refine ⟨fun t w u hf hx => ?_, fun t f hf => ?_, fun t hf => ?_⟩
    · have h := executeNext_runs _ t u w hf hx
      rw [cur_prepare, ord_c_prepare] at h
      exact step_next _ _ (hfetch.trans h)
    · exact step_next _ _ (hfetch.trans (executeNext_error _ _ hf))
    · have h := executeNext_error _ _ hf
      rw [settle, laneOn_c_prepare] at h
      exact step_next _ _ (hfetch.trans h)
  · refine step_next _ _ ?_
    have hw : wakes a = false := by simp only [wakes, beq_eq_false_iff_ne.mpr hon, beq_eq_false_iff_ne.mpr hcold, Bool.or_false]
    rw [nextMove, ha]
    simp only [hd, hw, Bool.not_false, Bool.and_self, if_true]

/-! ## Power-on -/

theorem ctx_reset (q : Nat) : State.reset.ctx q = {} := rfl

/-- Settles O59: nothing is listed at power-on but the slots and the root partition. -/
theorem resetState : Obligations.ResetState := by
  refine ⟨fun q => ⟨rfl, rfl, rfl, rfl, rfl, rfl, rfl, rfl, ?_, ?_⟩, fun a => rfl, memOk_reset, rfl, rfl, rfl, rfl, rfl, rfl,
    fun p hp => ?_, ?_, fun c => ⟨rfl, ?_⟩, fun n => rfl, rfl, rfl, rfl, rfl, rfl, rfl, fun h => absurd h Bool.false_ne_true,
    fun q => rfl⟩
  · rw [ctx_reset]; decide
  · rw [ctx_reset]; decide
  · simp only [State.part, State.reset, get, if_neg (Ne.symm hp)]
  · decide
  · show ∀ i < 8, (vget (Core.tiles {}) i {}).claim = none
    decide

end Sys2Proof.Machine
end

