-- ==== Sys2Proof/Proofs/OrderingFrame.lean ====
section
/-!
What the ordering machine and the homes leave alone (R299, R317): their steps change the registries, the die points, the lines and
their queues, the memories behind them, the placement of granules, what waits for the host, and the shutter that an access may
fire; `State.beyond` is everything else.
-/
namespace Sys2Proof.Machine

/-- The parts of the state that the ordering machine never changes. -/
def State.beyond (s : State) : State :=
  { s with
    reg := [], die := [], lines := [], idq := [], dieVer := [], llc := [], stamp := 0, mem := [], hostMem := [], granules := []
    uses := [], cxl := { s.cxl with hostLines := [], pendReq := [], snoopFilter := [], biWait := [] }, shutter := {} }

theorem seqs_of_beyond {s t : State} (h : t.beyond = s.beyond) : t.seqs = s.seqs := by
  have := congrArg State.seqs h
  exact this

theorem cores_of_beyond {s t : State} (h : t.beyond = s.beyond) : t.cores = s.cores := by
  have := congrArg State.cores h
  exact this

theorem cur_of_beyond {s t : State} (h : t.beyond = s.beyond) : t.cur = s.cur := by
  have := congrArg State.cur h
  exact this

theorem ctx_of_beyond {s t : State} (h : t.beyond = s.beyond) (q : Nat) : t.ctx q = s.ctx q := by
  rw [State.ctx, State.ctx, seqs_of_beyond h]

/-! ## The homes and the die points -/

theorem beyond_dirtyLlc (s : State) (w : Nat) : (dirtyLlc s w).beyond = s.beyond := by
  unfold dirtyLlc
  split <;> rfl

theorem beyond_setHomeWord (s : State) (w : Nat) (v : BitVec 32) : (setHomeWord s w v).beyond = s.beyond := by
  unfold setHomeWord
  dsimp only
  split <;> exact beyond_dirtyLlc s w

theorem beyond_unregister (s : State) (c w : Nat) : (unregister s c w).beyond = s.beyond := by
  unfold unregister
  split <;> rfl

theorem beyond_setPlaced (s : State) (c w : Nat) (v : Option (BitVec 32)) : (setPlaced s c w v).beyond = s.beyond := by
  unfold setPlaced
  split <;> rfl

theorem beyond_dropDieWord (s : State) (d w : Nat) : (dropDieWord s d w).beyond = s.beyond := by
  unfold dropDieWord
  split
  · rfl
  · split
    · exact beyond_setPlaced s _ w none
    · exact beyond_unregister s _ w
  · rfl

theorem beyond_giveDie (s : State) (d w : Nat) : (giveDie s d w).beyond = s.beyond := by
  unfold giveDie
  split
  · split
    · split
      · rfl
      · exact beyond_unregister s _ w
    · rfl
  · rfl

/-- A step repeated keeps what each keeps. -/
theorem beyond_iterate {f : Nat → State → State} (hf : ∀ i s, (f i s).beyond = s.beyond) (n i : Nat) (s : State) :
    (iterate f n i s).beyond = s.beyond :=
  iterate_keeps (fun t => t.beyond = s.beyond) f (fun i t ht => (hf i t).trans ht) n i s rfl

theorem beyond_foldl {α : Type} {f : State → α → State} (hf : ∀ s a, (f s a).beyond = s.beyond) (l : List α) (s : State) :
    (l.foldl f s).beyond = s.beyond :=
  foldl_keeps (fun t => t.beyond = s.beyond) f (fun t a ht => (hf t a).trans ht) l s rfl

theorem beyond_overWords {f : State → Nat → State} (hf : ∀ s w, (f s w).beyond = s.beyond) (s : State) (b n : Nat) :
    (overWords f s b n).beyond = s.beyond :=
  beyond_iterate (fun _ t => hf t _) _ _ s

theorem beyond_writeBack (s : State) (b : Nat) (l : Line) : (writeBack s b l).beyond = s.beyond := by
  unfold writeBack
  split
  · rfl
  · refine beyond_overWords (fun s w => ?_) s _ _
    split
    · exact beyond_setHomeWord s w _
    · split
      · exact beyond_setHomeWord s w _
      · rfl
    · rfl

theorem beyond_forwardWords (s : State) (b : Nat) (l : Line) (d : Nat) : (forwardWords s b l d).beyond = s.beyond := by
  unfold forwardWords
  split
  · rfl
  · split
    · rfl
    · refine beyond_overWords (fun s w => ?_) s _ _
      have hmove : ∀ v : BitVec 32, State.beyond (match find s.die (unitKey d w) with
          | some (.core c) => if pendingExport s c w then setPlaced s c w (some v) else s
          | _ => { s with die := put s.die (unitKey d w) (.value v) }) = s.beyond := by
        intro v
        split
        · split
          · exact beyond_setPlaced s _ w _
          · rfl
        · rfl
      dsimp only
      split
      · exact hmove _
      · split
        · exact hmove _
        · rfl
      · rfl

/-- A choice between two states, each of which leaves the rest. -/
theorem beyond_ite (p : Prop) [Decidable p] {x y b : State} (hx : x.beyond = b) (hy : y.beyond = b) :
    (if p then x else y).beyond = b := by
  split <;> assumption

theorem beyond_lines {s : State} {b : State} (h : s.beyond = b) (x : List (Nat × Line)) : State.beyond { s with lines := x } = b := h

theorem beyond_llc {s : State} {b : State} (h : s.beyond = b) (x : List (Nat × BitVec 32)) :
    State.beyond { s with llc := x } = b := h

theorem beyond_dieVer {s : State} {b : State} (h : s.beyond = b) (x : List (Nat × BitVec 8)) :
    State.beyond { s with dieVer := x } = b := h

theorem beyond_idq {s : State} {b : State} (h : s.beyond = b) (x : List Delivery) : State.beyond { s with idq := x } = b := h

theorem beyond_queueInv {s : State} {b : State} (h : s.beyond = b) (a n : Nat) (d v : BitVec 8) :
    (queueInv s a n d v).beyond = b := h

theorem beyond_applyEvent (s : State) (b ev : Nat) (r : Option Nat) : (applyEvent s b ev r).1.beyond = s.beyond := by
  unfold applyEvent
  split
  · rfl
  · next l _ =>
    have hwb := beyond_ite ((entryActs (entryFor s l ev)).testBit 7 = true) (beyond_writeBack s b l) rfl
    rcases r with _ | d <;> dsimp only
    · have hinv := fun (x : Nat) (y z : BitVec 8) =>
        beyond_ite ((entryActs (entryFor s l ev)).testBit 4 = true) (beyond_queueInv hwb b x y z) hwb
      split <;> exact beyond_lines (beyond_ite _ (beyond_llc (hinv _ _ _) _) (hinv _ _ _)) _
    · have hfwd := beyond_ite (((entryActs (entryFor s l ev)).testBit 6 && !(entryActs (entryFor s l ev)).testBit 7) = true)
        ((beyond_forwardWords _ b l d).trans hwb) hwb
      have hinv := fun (x : Nat) (y z : BitVec 8) =>
        beyond_ite ((entryActs (entryFor s l ev)).testBit 4 = true) (beyond_queueInv hfwd b x y z) hfwd
      split <;> exact beyond_lines (beyond_ite _
        (beyond_llc (beyond_ite _ (beyond_dieVer (hinv _ _ _) _) (hinv _ _ _)) _)
        (beyond_ite _ (beyond_dieVer (hinv _ _ _) _) (hinv _ _ _))) _

theorem beyond_updateDie (s : State) (d w : Nat) (v : BitVec 32) : (updateDie s d w v).beyond = s.beyond := rfl

theorem beyond_applyUpdate (s : State) (d w : Nat) (v : BitVec 32) : (applyUpdate s d w v).beyond = s.beyond := by
  unfold applyUpdate
  split
  · rfl
  · split
    · exact beyond_setPlaced s _ w none
    · exact beyond_unregister s _ w
  · rfl

theorem beyond_applyDelivery (s : State) (d : Delivery) : (applyDelivery s d).beyond = s.beyond := by
  unfold applyDelivery
  refine beyond_ite _ rfl ?_
  dsimp only
  split
  · exact beyond_overWords (fun s w => beyond_dropDieWord s _ w) _ _ _
  · exact beyond_foldl (fun s (u : Nat × BitVec 32) => beyond_applyUpdate s _ u.1 u.2) _ _

theorem beyond_deliverOne (s : State) (a b : Nat) : (deliverOne s a b).beyond = s.beyond := by
  unfold deliverOne
  split
  · exact beyond_applyDelivery _ _
  · rfl

theorem beyond_flushFor (s : State) (d : Nat) (p : Delivery → Bool) : (flushFor s d p).beyond = s.beyond :=
  beyond_iterate (fun _ t => by
    split
    · exact beyond_deliverOne t _ _
    · rfl) _ _ s

theorem beyond_flushLine (s : State) (d b n : Nat) : (flushLine s d b n).beyond = s.beyond := beyond_flushFor s d _

theorem beyond_flushAll (s : State) : (flushAll s).beyond = s.beyond :=
  beyond_iterate (fun _ t => by
    split
    · exact beyond_applyDelivery _ _
    · rfl) _ _ s

theorem beyond_takeLine (s : State) (g sl a : Nat) : (takeLine s g sl a).1.beyond = s.beyond := by
  unfold takeLine
  dsimp only
  split
  · split
    · rfl
    · exact beyond_foldl (fun s (u : Nat × Line) => beyond_applyEvent s u.1 evPURGE none) _ _
  · exact beyond_foldl (fun s (u : Nat × Line) => beyond_applyEvent s u.1 evPURGE none) _ _

theorem beyond_touchGranule (s : State) (d a : Nat) : (touchGranule s d a).beyond = s.beyond := by
  unfold touchGranule
  split
  · rfl
  · split <;> rfl

theorem beyond_fireShutter (s : State) (n : Nat) : (fireShutter s n).beyond = s.beyond := by
  unfold fireShutter
  split <;> rfl

theorem beyond_addressTrigger (s : State) (a n : Nat) : (addressTrigger s a n).beyond = s.beyond := by
  unfold addressTrigger
  split
  · exact beyond_fireShutter s 2
  · rfl

theorem beyond_leaveLine (s : State) (d b : Nat) (l : Line) : (leaveLine s d b l).beyond = s.beyond :=
  (beyond_foldl (fun t w => beyond_dropDieWord t d w) _ _).trans (beyond_applyEvent s b _ _)

theorem beyond_roomDie (s : State) (d g : Nat) : (roomDie s d g).beyond = s.beyond := by
  unfold roomDie
  refine beyond_ite _ rfl (beyond_ite _ rfl ?_)
  dsimp only
  split
  · exact beyond_leaveLine s d _ _
  · split
    · exact beyond_leaveLine s d _ _
    · rfl

/-! ## Operations that may wait or stop -/

/-- Whatever comes of an operation of the ordering machine, the state it leaves is as `b` beyond it. -/
def Leaves {α : Type} (st : α → State) (b : State) : Except MErr α → Prop
  | .ok x => (st x).beyond = b
  | .error (.wait t) => t.beyond = b
  | .error (.stop _ _ _ left) => ∀ t, left = some t → t.beyond = b

theorem leaves_stop {α : Type} (st : α → State) (b : State) (c sub : Nat) (a : Option Word) :
    Leaves st b (.error (.stop c sub a none)) := by
  intro t h
  cases h

theorem leaves_ok {α : Type} {st : α → State} {b : State} {x : α} (h : (st x).beyond = b) : Leaves st b (.ok x) := h

theorem leaves_wait {α : Type} {st : α → State} {b t : State} (h : t.beyond = b) : Leaves st b (.error (.wait t)) := h

/-- What two operations in turn leave. -/
theorem Leaves.bind {α β : Type} {st : α → State} {st' : β → State} {b : State} {m : Except MErr α} {f : α → Except MErr β}
    (hm : Leaves st b m) (hf : ∀ x, (st x).beyond = b → Leaves st' b (f x)) : Leaves st' b (m >>= f) := by
  cases m with
  | ok x => exact hf x hm
  | error e =>
    cases e with
    | wait t => exact hm
    | stop c sub a left => exact hm

theorem leaves_ite {α : Type} {st : α → State} {b : State} (p : Prop) [Decidable p] {x y : Except MErr α}
    (hx : Leaves st b x) (hy : Leaves st b y) : Leaves st b (if p then x else y) := by
  split <;> assumption

theorem leaves_foldlM {α : Type} {b : State} {f : State → α → Except MErr State}
    (hf : ∀ s a, s.beyond = b → Leaves id b (f s a)) : ∀ (l : List α) (s : State), s.beyond = b → Leaves id b (l.foldlM f s)
  | [], _, h => h
  | a :: r, s, h => (hf s a h).bind fun t ht => leaves_foldlM hf r t ht

theorem beyond_sendBi (s : State) (l : Nat) (w : Bool) : (sendBi s l w).beyond = s.beyond := by
  unfold sendBi
  split <;> rfl

theorem beyond_askHost (s : State) (l : Nat) (r : HostReq) : (askHost s l r).beyond = s.beyond := by
  unfold askHost
  split <;> rfl

theorem leaves_cxlHold {b : State} (s : State) (l : Nat) (w whole : Bool) (h : s.beyond = b) : Leaves id b (cxlHold s l w whole) := by
  unfold cxlHold
  dsimp only
  split
  · exact leaves_ite _ (leaves_wait ((beyond_askHost s l _).trans h)) (leaves_ok h)
  · exact leaves_ok (h ▸ beyond_ite _ rfl rfl)
  · exact leaves_ok h
  · exact leaves_wait ((beyond_askHost s l _).trans h)

theorem leaves_hostGate {b : State} (s : State) (g a : Nat) (w : Bool) (ws : List Nat) (h : s.beyond = b) :
    Leaves id b (hostGate s g a w ws) := by
  unfold hostGate
  dsimp only
  refine leaves_ite _ (leaves_ite _ (leaves_stop _ _ _ _ _) ?_)
    (leaves_ite _ (leaves_wait h) (leaves_ite _ ?_ (leaves_ite _ ?_ (leaves_ok h))))
  · exact leaves_foldlM (fun t l ht => leaves_cxlHold t l w _ ht) _ s h
  · split
    · exact leaves_ok h
    · exact leaves_wait ((beyond_foldl (fun t l => beyond_sendBi t l w) _ s).trans h)
  · exact leaves_foldlM (fun t l ht => leaves_ite _ (leaves_cxlHold t l w _ ht) (leaves_ok ht)) _ s h

theorem leaves_dieFetch {b : State} (s : State) (d w g sl : Nat) (h : s.beyond = b) : Leaves Prod.fst b (dieFetch s d w g sl) := by
  unfold dieFetch
  refine leaves_ite _ (leaves_wait h) ?_
  split
  · exact leaves_ok h
  · exact leaves_ok h
  · refine leaves_ite _ (leaves_ok h) (leaves_ite _ (leaves_wait h) ?_)
    refine (leaves_hostGate _ g w _ _ ?_).bind fun t ht => leaves_ok ?_
    · exact (beyond_addressTrigger _ w 4).trans ((beyond_touchGranule s d w).trans h)
    · exact (beyond_applyEvent ..).trans ((beyond_flushLine ..).trans ((beyond_takeLine ..).trans ((beyond_roomDie ..).trans ht)))

theorem leaves_dieRead {b : State} (s : State) (d w g sl : Nat) (h : s.beyond = b) : Leaves Prod.fst b (dieRead s d w g sl) :=
  leaves_ite _ (leaves_wait h) (leaves_dieFetch s d w g sl h)

theorem leaves_placeGroup {b : State} (s : State) (d g sl : Nat) (ws : List (Nat × BitVec 32)) (under : Option Bool) (home : Bool)
    (h : s.beyond = b) : Leaves Prod.fst b (placeGroup s d g sl ws under home) := by
  unfold placeGroup
  split
  · exact leaves_ok h
  · refine leaves_ite _ (leaves_wait h) ((leaves_hostGate _ g _ true _ ?_).bind fun t ht => ?_)
    · exact (beyond_foldl (fun t (u : Nat × BitVec 32) => beyond_addressTrigger t u.1 4) _ _).trans
        ((beyond_touchGranule s d _).trans h)
    · split
      next u base hu =>
      have hl : (flushLine u d base (grainBytes g)).beyond = b := by
        refine (beyond_flushLine u d base _).trans ?_
        rw [show u = (takeLine _ g sl _).1 from (congrArg Prod.fst hu).symm, beyond_takeLine]
        exact (beyond_ite _ rfl (beyond_roomDie t d g)).trans ht
      generalize flushLine u d base (grainBytes g) = v at hl ⊢
      dsimp only
      split
      · exact leaves_ok hl
      · next l _ =>
        generalize hshared : iterate _ 8 0 v = x
        have hx : x.beyond = b := by
          rw [← hshared]
          refine (beyond_iterate (fun h y => beyond_ite _ (beyond_foldl (fun z a => ?_) _ _) rfl) _ _ v).trans hl
          split <;> rfl
        have hplaced : ∀ (y : State) (keeps : Bool) (us : List (Nat × BitVec 32)), y.beyond = b → State.beyond (us.foldl (fun s u =>
            if keeps then
              match find s.die (unitKey d u.1) with
              | some (.core _) => s
              | _ => { s with die := put s.die (unitKey d u.1) (.value u.2) }
            else
              let s := setHomeWord s u.1 u.2
              match find s.die (unitKey d u.1) with
              | some (.value _) => { s with die := del s.die (unitKey d u.1) }
              | _ => s) y) = b := by
          intro y keeps us hy
          refine (beyond_foldl (fun z u => beyond_ite _ ?_ ?_) us y).trans hy
          · split <;> rfl
          · dsimp only
            split <;> exact beyond_setHomeWord z u.1 u.2
        split
        · have hy : (applyEvent x base (if l.owner = some d then evWRO else evWR) (some d)).1.beyond = b :=
            (beyond_applyEvent ..).trans hx
          refine leaves_ite _ (fun z hz => ?_) (leaves_ok (beyond_ite _ (beyond_idq (hplaced _ _ _ hy) _) (hplaced _ _ _ hy)))
          cases hz
          exact hy
        · refine leaves_ite _ (fun z hz => ?_) (leaves_ok (beyond_ite _ (beyond_idq (hplaced _ _ _ hx) _) (hplaced _ _ _ hx)))
          cases hz
          exact hx

/-! ## Registering and exporting words -/

theorem leaves_map {α β : Type} {st : α → State} {st' : β → State} {b : State} {m : Except MErr α} {f : α → β}
    (hm : Leaves st b m) (hf : ∀ x, st' (f x) = st x) : Leaves st' b (m.map f) := by
  cases m with
  | ok x => exact (congrArg State.beyond (hf x)).trans hm
  | error e => cases e <;> exact hm

theorem leaves_olderWord {b : State} (s : State) (c w : Nat) (r : RegWord) (h : s.beyond = b) :
    Leaves Prod.fst b (olderWord s c w r) := by
  unfold olderWord
  split
  · split <;> exact leaves_ok h
  · exact leaves_ite _ (leaves_ok h) (leaves_map (leaves_dieRead s _ w _ _ h) fun _ => rfl)

theorem leaves_registerOne {b : State} (s : State) (c w : Nat) (h : s.beyond = b) : Leaves id b (registerOne s c w) := by
  unfold registerOne
  split
  · exact leaves_ok h
  · refine (leaves_olderWord s c w _ h).bind fun x hx => leaves_ok ?_
    obtain ⟨t, old, bound⟩ := x
    show State.beyond (match find t.die (unitKey (coreDie c) w) with
      | some (.core c') => unregister t c' w
      | _ => t) = b
    split
    · exact (beyond_unregister t _ w).trans hx
    · exact hx

theorem leaves_registerReady {b : State} (s : State) (c : Nat) (ws : List Nat) (h : s.beyond = b) :
    Leaves id b (registerReady s c ws) := by
  refine leaves_foldlM (fun t w ht => leaves_ite _ (leaves_wait ht) ?_) ws s h
  split
  · exact leaves_ok ht
  · exact leaves_ite _ (leaves_ok ht) ((leaves_dieRead t _ w _ _ ht).bind fun x hx => leaves_ok hx)
  · exact leaves_ok ht

theorem leaves_registerWord {b : State} (s : State) (c w : Nat) (h : s.beyond = b) : Leaves Prod.fst b (registerWord s c w) := by
  unfold registerWord
  split
  · exact leaves_ok h
  · exact (leaves_registerReady s c _ h).bind fun t ht =>
      (leaves_foldlM (fun u w hu => leaves_registerOne u c w hu) _ { t with stamp := t.stamp + 1 } ht).bind fun u hu => leaves_ok hu

theorem beyond_undoWords (s : State) (d : Nat) (us : List Nat) : (undoWords s d us).beyond = s.beyond :=
  beyond_foldl (fun t u => by split <;> rfl) us s

theorem leaves_exportPart {b : State} (s : State) (d w : Nat) (place : Option (Nat × Bool)) (h : s.beyond = b) :
    Leaves Prod.fst b (exportPart s d w place) := by
  unfold exportPart
  split
  · exact leaves_ok h
  · next r _ =>
    have hg := fun ws => leaves_placeGroup s d r.grain r.slot ws (sameLine r.grain w place) false h
    dsimp only
    split
    · next c sub a left heq =>
      have hl : Leaves Prod.fst b (.error (.stop c sub a left)) := heq ▸ hg _
      intro t ht
      obtain ⟨u, hu, rfl⟩ := Option.map_eq_some_iff.mp ht
      exact (beyond_undoWords u d _).trans (hl u hu)
    · refine (hg _).bind fun x hx => leaves_ok ((beyond_foldl (fun t u => ?_) _ x.1).trans hx)
      split
      · split <;> rfl
      · rfl

theorem leaves_exportWord {b : State} (s : State) (d w : Nat) (h : s.beyond = b) : Leaves Prod.fst b (exportWord s d w) :=
  (leaves_exportPart s d w none h).bind fun _ hx => leaves_ok hx

theorem leaves_registerWords {b : State} (s : State) (c : Nat) (ws : List Nat) (h : s.beyond = b) :
    Leaves id b (registerWords s c ws) :=
  leaves_foldlM (fun t w ht => (leaves_registerWord t c w ht).bind fun _ hx => leaves_ok hx) ws s h

theorem leaves_registerAll {b : State} (s : State) (c : Nat) (h : s.beyond = b) : Leaves id b (registerAll s c) :=
  leaves_registerWords s c _ h

theorem leaves_exportAll {b : State} (s : State) (d : Nat) (h : s.beyond = b) : Leaves id b (exportAll s d) :=
  (leaves_foldlM (fun t (u : Nat × DieWord) ht => (leaves_exportWord t d (u.1 % 2 ^ 56) ht).bind fun _ hx => leaves_ok hx) _ s
    h).bind fun t ht => leaves_ok ((beyond_flushAll t).trans ht)

/-- A release changes nothing beyond the ordering machine, whether or not it can be done now. -/
theorem leaves_releaseAt {b : State} (s : State) (q sc : Nat) (h : s.beyond = b) : Leaves id b (releaseAt s q sc) :=
  leaves_ite _ (leaves_ok h)
    ((leaves_registerAll s _ h).bind fun t ht => leaves_ite _ (leaves_ok ht) (leaves_exportAll t _ ht))

/-! ## Core caches -/

theorem leaves_evictWord {b : State} (s : State) (c w : Nat) (h : s.beyond = b) : Leaves id b (evictWord s c w) := by
  unfold evictWord
  refine leaves_ite _ (leaves_ok h) (leaves_ite _ (leaves_ok h) ?_)
  split
  · exact leaves_ok h
  · refine leaves_ite _ (leaves_ok h) ?_
    exact (leaves_registerWord s c _ h).bind fun t ht => (leaves_exportWord t.1 _ _ ht).bind fun u hu =>
      leaves_ok ((beyond_giveDie u.1 _ _).trans hu)

/-- A copy that a core's cache brings in changes nothing beyond the ordering machine. -/
theorem beyond_keepCopy (s : State) (c w g sl : Nat) : (keepCopy s c w g sl).beyond = s.beyond := by
  have hev := leaves_evictWord s c w rfl
  unfold keepCopy
  split
  · rfl
  · split
    · rfl
    · next t ht =>
      rw [ht] at hev
      have hrd := leaves_dieRead t (coreDie c) w g sl hev
      split
      · next u v hu =>
        rw [hu] at hrd
        exact hrd
      · exact hev

end Sys2Proof.Machine
end

