-- ==== Sys2Proof/Proofs/Settling.lean ====
section
/-!
What every step leaves settled (R337, R430): no STEP goes on past its instruction, since the end of the step stops each context
whose STEP has run it, and a fired shutter has its stills latched or due.
-/
namespace Sys2Proof.Machine

/-! ## The contexts whose STEP has run its instruction -/

/-- What tells whether a context's STEP has run its instruction: all of the context but its flags and counts. -/
def Ctx.stepView (c : Ctx) : Ctx := { c with flags := 0, cycles := 0, sliceUsed := 0 }

/-- The STEP of a context has run its instruction. -/
def Ctx.stepOver (c : Ctx) : Bool :=
  c.stepping && c.state == .running && decide (c.stepNeed ≤ c.ord) && c.viq.isEmpty && c.run.isEmpty && c.sb.isEmpty
    && c.loads.isEmpty && c.divs.isEmpty

theorem stepDone_eq (s : State) (q : Nat) : stepDone s q = (s.ctx q).stepOver := rfl

theorem stepOver_stepView (c : Ctx) : c.stepView.stepOver = c.stepOver := rfl

/-- Contexts alike but for flags and counts are alike in their STEP. -/
theorem stepDone_congr {s t : State} {q : Nat} (h : (t.ctx q).stepView = (s.ctx q).stepView) : stepDone t q = stepDone s q := by
  rw [stepDone_eq, stepDone_eq, ← stepOver_stepView, h, stepOver_stepView]

theorem state_of_stepView {c d : Ctx} (h : d.stepView = c.stepView) : d.state = c.state := congrArg (·.state) h

theorem stepDone_of_not_running {s : State} {q : Nat} (h : (s.ctx q).state ≠ .running) : stepDone s q = false := by
  rw [stepDone_eq, Ctx.stepOver, beq_eq_false_iff_ne.mpr h]
  simp only [Bool.and_false, Bool.false_and]

theorem stepView_giveFlags (s : State) (core t q : Nat) : ((giveFlags s core t).ctx q).stepView = (s.ctx q).stepView := by
  unfold giveFlags
  dsimp only
  split
  · next r _ =>
    split
    · rfl
    · rw [setTile, State.ctx_setCore]
      by_cases h : q = r
      · rw [h, State.ctx_setCtx]
        rfl
      · rw [State.ctx_setCtx_ne _ _ _ _ h]
  · rfl

theorem stepView_fullTiles (s : State) (q p : Nat) : ((fullTiles s q).ctx p).stepView = (s.ctx p).stepView := by
  refine iterate_keeps (fun t => (t.ctx p).stepView = (s.ctx p).stepView) _ (fun i t ht => ?_) 8 0 s rfl
  dsimp only [tileFlags]
  split
  · split
    · exact ht
    · exact (stepView_giveFlags t _ i p).trans ht
  · exact ht

theorem ctx_dropStrips (s : State) (q p : Nat) : (dropStrips s q).ctx p = s.ctx p := rfl

theorem ctx_dropRequests (s : State) (q p : Nat) : (dropRequests s q).ctx p = s.ctx p := rfl

theorem stepView_stopSquash_ne (s : State) (q p : Nat) (h : p ≠ q) :
    ((stopSquash s q).ctx p).stepView = (s.ctx p).stepView := by
  unfold stopSquash
  dsimp only
  rw [ctx_dropRequests, stepView_fullTiles, State.ctx_setCtx_ne _ _ _ _ h, ctx_dropStrips]

theorem state_woken (c : Ctx) : c.woken.state = c.state := by
  unfold Ctx.woken
  split <;> rfl

theorem state_mark (c : Ctx) (e : VqEntry) (full : Bool) : (c.mark e full).state = c.state := by
  have hs : ∀ (p : Prop) [Decidable p] (x y : Ctx), x.state = c.state → y.state = c.state → (if p then x else y).state = c.state := by
    intro p _ x y hx hy
    split <;> assumption
  unfold Ctx.mark
  dsimp only
  have hsd : Ctx.state (match e.roles.sd with
      | some d => if d = 0 then c else { c with feS := setBit c.feS d full }
      | none => c) = c.state := by
    split
    · exact hs _ _ _ rfl rfl
    · rfl
  split
  · exact hs _ _ _ hsd hsd
  · exact hs _ _ _ hsd hsd

theorem state_fullBits (c : Ctx) : c.fullBits.state = c.state :=
  foldl_keeps (fun d => d.state = c.state) (fun d (e : VqEntry) => d.mark e true)
    (fun d e hd => (state_mark d e true).trans hd) c.viq c rfl

theorem state_squash (c : Ctx) : c.squash.state = c.state := (state_woken _).trans (state_fullBits c)

theorem state_stopSquash (s : State) (q : Nat) : ((stopSquash s q).ctx q).state = (s.ctx q).state := by
  unfold stopSquash
  dsimp only
  rw [ctx_dropRequests, state_of_stepView (stepView_fullTiles _ q q), State.ctx_setCtx]
  exact state_squash _

/-- A context comes to rest by `f`, or what it has written is still on its way: no other change but of the ordering machine. -/
theorem restAs_cases (s : State) (q : Nat) (f : State → State) :
    ∃ t, t.beyond = s.beyond ∧ (restAs s q f = f t ∨ restAs s q f = t) := by
  have h := leaves_releaseAt s q 4 (b := s.beyond) rfl
  unfold restAs
  split <;> rename_i heq <;> rw [heq] at h
  · exact ⟨_, h, .inl rfl⟩
  · exact ⟨_, h, .inr rfl⟩
  · next left =>
    cases left with
    | none => exact ⟨s, rfl, .inl rfl⟩
    | some t => exact ⟨t, h t rfl, .inl rfl⟩

theorem stepView_stopComplete_ne (s : State) (q p : Nat) (h : p ≠ q) :
    ((stopComplete s q).ctx p).stepView = (s.ctx p).stepView := by
  unfold stopComplete
  dsimp only
  split
  · generalize hu : (if (s.ctx q).laneOn then stopSquash s q else s) = u
    have hp : (u.ctx p).stepView = (s.ctx p).stepView := by
      rw [← hu]
      split
      · exact stepView_stopSquash_ne s q p h
      · rfl
    obtain ⟨t, ht, hrest | hrest⟩ := restAs_cases u q fun s => s.setCtx q { s.ctx q with state := .stopped }
    · rw [hrest, State.ctx_setCtx_ne _ _ _ _ h, ctx_of_beyond ht, hp]
    · rw [hrest, ctx_of_beyond ht, hp]
  · rfl

theorem state_stopComplete (s : State) (q : Nat) (h : (s.ctx q).state ≠ .running) :
    ((stopComplete s q).ctx q).state ≠ .running := by
  unfold stopComplete
  dsimp only
  split
  · generalize hu : (if (s.ctx q).laneOn then stopSquash s q else s) = u
    have hq : (u.ctx q).state = (s.ctx q).state := by
      rw [← hu]
      split
      · exact state_stopSquash s q
      · rfl
    obtain ⟨t, ht, hrest | hrest⟩ := restAs_cases u q fun s => s.setCtx q { s.ctx q with state := .stopped }
    · rw [hrest, State.ctx_setCtx]
      exact CtxState.noConfusion
    · rw [hrest, ctx_of_beyond ht, hq]
      exact h
  · exact h

theorem stepView_stopContext_ne (s : State) (q p : Nat) (h : p ≠ q) :
    ((stopContext s q).ctx p).stepView = (s.ctx p).stepView := by
  unfold stopContext
  dsimp only
  rw [State.ctx_setCtx_ne _ _ _ _ h]
  split
  · rfl
  · exact stepView_stopSquash_ne s q p h

theorem state_stopContext (s : State) (q : Nat) : ((stopContext s q).ctx q).state = .stopping := by
  unfold stopContext
  rw [State.ctx_setCtx]

theorem stepView_endStep_ne (s : State) (q p : Nat) (h : p ≠ q) : ((endStep s q).ctx p).stepView = (s.ctx p).stepView := by
  unfold endStep
  split
  · rw [stepView_stopComplete_ne _ q p h, stepView_stopContext_ne s q p h]
  · rfl

theorem stepDone_endStep_same (s : State) (q : Nat) : stepDone (endStep s q) q = false := by
  unfold endStep
  split
  · refine stepDone_of_not_running (state_stopComplete _ q ?_)
    rw [state_stopContext]
    exact CtxState.noConfusion
  · next h => exact Bool.eq_false_iff.mpr h

/-- The end of a STEP makes no other STEP end. -/
theorem stepDone_endStep (s : State) (q p : Nat) (h : stepDone s p = false) : stepDone (endStep s q) p = false := by
  by_cases hp : p = q
  · rw [hp]
    exact stepDone_endStep_same s q
  · rw [stepDone_congr (stepView_endStep_ne s q p hp), h]

/-- After the ends of the STEPs of some contexts none of them runs on. -/
theorem stepDone_foldl_endStep (p : Nat) : ∀ (l : List (Nat × Ctx)) (s : State),
    stepDone s p = false ∨ (∃ c, (p, c) ∈ l) → stepDone (l.foldl (fun s (q, _) => endStep s q) s) p = false
  | [], s, h => h.resolve_right fun ⟨_, hc⟩ => nomatch hc
  | (q, c) :: r, s, h => by
    refine stepDone_foldl_endStep p r (endStep s q) ?_
    rcases h with h | ⟨d, hd⟩
    · exact .inl (stepDone_endStep s q p h)
    · rcases List.mem_cons.mp hd with heq | hmem
      · cases heq
        exact .inl (stepDone_endStep_same s p)
      · exact .inr ⟨d, hmem⟩

/-- A context that is not listed is empty. -/
theorem get_of_not_mem {α : Type} (d : α) (k : Nat) : ∀ (m : List (Nat × α)), (∀ v, (k, v) ∉ m) → get m k d = d
  | [], _ => rfl
  | (j, u) :: r, h => by
    have hj : j ≠ k := fun he => h u (he ▸ List.mem_cons_self)
    rw [get, if_neg hj]
    exact get_of_not_mem d k r fun v hv => h v (List.mem_cons_of_mem _ hv)

theorem stepDone_after_endSteps (s : State) (p : Nat) :
    stepDone (s.seqs.foldl (fun s (q, _) => endStep s q) s) p = false := by
  refine stepDone_foldl_endStep p s.seqs s ?_
  by_cases h : ∃ c, (p, c) ∈ s.seqs
  · exact .inr h
  · refine .inl (stepDone_of_not_running ?_)
    rw [State.ctx, get_of_not_mem _ p s.seqs fun c hc => h ⟨c, hc⟩]
    exact CtxState.noConfusion

/-! ## The passing of time -/

theorem ctx_dueStills (s : State) (q : Nat) : (dueStills s).ctx q = s.ctx q := by
  unfold dueStills
  split
  · rfl
  · dsimp only [State.ctx]

theorem ctx_latchStills (s : State) (q : Nat) : (latchStills s).ctx q = s.ctx q := by
  unfold latchStills
  split <;> rfl

/-- A change of each context that leaves its key and its STEP alone. -/
theorem stepView_get_map (f : Nat × Ctx → Nat × Ctx) (hkey : ∀ x, (f x).1 = x.1) (hctx : ∀ x, (f x).2.stepView = x.2.stepView)
    (k : Nat) : ∀ m : List (Nat × Ctx), (get (m.map f) k {}).stepView = (get m k {}).stepView
  | [] => rfl
  | (j, u) :: r => by
    have hf : f (j, u) = (j, (f (j, u)).2) := Prod.ext (hkey (j, u)) rfl
    rw [List.map_cons, hf, get, get]
    split
    · exact hctx (j, u)
    · exact stepView_get_map f hkey hctx k r

theorem stepView_elapse (s : State) (ns q : Nat) : ((elapse s ns).ctx q).stepView = (s.ctx q).stepView := by
  refine stepView_get_map _ (fun x => ?_) (fun x => ?_) q s.seqs <;> dsimp only <;> split <;> rfl

/-! ## The stills -/

/-- The stills of a fired shutter are latched or due. -/
def Stilled (s : State) : Prop := s.shutter.fired = true → s.shutter.stills ≠ [] ∨ s.shutter.due ≠ []

theorem stilled_dueStills (s : State) : Stilled (dueStills s) := by
  unfold dueStills
  split
  · next h =>
    intro hf
    rw [hf] at h
    simpa [or_iff_not_imp_left] using h
  · intro _
    refine .inr ?_
    simp only [ne_eq, List.map_eq_nil_iff, List.range_eq_nil]
    exact Nat.succ_ne_zero 656

/-- A still that is due is latched or stays due. -/
theorem stilled_latchStills (s : State) (h : Stilled s) : Stilled (latchStills s) := by
  unfold latchStills
  split
  · exact h
  · next hdue =>
    intro _
    obtain ⟨x, hx⟩ := List.exists_mem_of_ne_nil _ fun he => hdue (List.isEmpty_iff.mpr he)
    dsimp only
    rw [List.partition_eq_filter_filter]
    cases hnow : decide (x.2 ≤ s.time) with
    | true =>
      refine .inl (List.ne_nil_of_mem (List.mem_append_right _ (List.mem_flatMap.mpr ⟨x, ?_, List.mem_cons_self⟩)))
      exact List.mem_filter.mpr ⟨hx, hnow⟩
    | false =>
      refine .inr (List.ne_nil_of_mem (a := x) (List.mem_filter.mpr ⟨hx, ?_⟩))
      simp only [Function.comp_apply, hnow, Bool.not_false]

/-! ## Every step -/

/-- Whatever a move has left, what follows it leaves the machine settled. -/
theorem settled_closeStep (s : State) : Settled (closeStep s) := by
  unfold closeStep
  dsimp only
  generalize hu : consider (s.seqs.foldl (fun s (q, _) => endStep s q) s) = u
  generalize hw : latchStills (dueStills u) = w
  have hstill : Stilled w := hw ▸ stilled_latchStills _ (stilled_dueStills u)
  refine ⟨stilled_latchStills _ hstill, fun q => ?_⟩
  rw [stepDone_congr (s := u), ← hu]
  · exact stepDone_after_endSteps s q
  · rw [ctx_latchStills, stepView_elapse, ← ctx_dueStills u, ← ctx_latchStills (dueStills u), hw]
    rfl

/-- Settles O60: what follows every move settles it, whatever the move left. -/
theorem everyStepKeepsSettled : Obligations.EveryStepKeepsSettled := by
  refine ⟨fun s t h => ?_, fun hf => absurd hf Bool.false_ne_true, fun _ => rfl⟩
  unfold step at h
  split at h
  · cases h
    exact settled_closeStep _
  · next hne => exact absurd h (hne t)

end Sys2Proof.Machine
end

