-- ==== Sys2Proof/Proofs/ScalarAccess.lean ====
section
/-!
The scalar memory forms (R160 to R168): the checks of an access, the loads that go out, and the stores and atomics that are held.
-/
namespace Sys2Proof.Machine

/-! ## The checks of an access -/

theorem scalarAccess_misaligned (s : State) (va : Word) (n : Nat) (need : Need) (ctlOk : Bool) (h : va.toNat % n ≠ 0) :
    scalarAccess s va n need ctlOk = .error (.trap (classA cMISALIGNED 0 va s.pc) none) := by
  simp only [scalarAccess, if_pos h, throw, throwThe, MonadExceptOf.throw, error_bind]

theorem xfenceHeld_of_noFence (s : State) (h : NoFenceHeld s) : s.c.xfenceHeld = false := by
  rw [Ctx.xfenceHeld, List.any_eq_false]
  intro x hx
  have := List.all_eq_true.mp h x hx
  revert this
  cases x.op <;> simp

theorem translate_outside (s : State) (q : Nat) (va : Word) (need : Need) (h : 2 ^ 56 ≤ va.toNat) :
    translate s q va need = .error (.stop cXLATE_INVALID 0 none none) := by
  have hne : va.toNat / 2 ^ 56 ≠ 0 := Nat.pos_iff_ne_zero.mp (Nat.div_pos h (by decide))
  unfold translate lookup
  simp only [if_pos hne, ok_bind, throw, throwThe, MonadExceptOf.throw]

theorem scalarAccess_outside (s : State) (va : Word) (n : Nat) (need : Need) (ctlOk : Bool) (hf : NoFenceHeld s)
    (ha : va.toNat % n = 0) (h : 2 ^ 56 ≤ va.toNat) :
    scalarAccess s va n need ctlOk = .error (.trap (classB cXLATE_INVALID 0 va s.pc) none) := by
  have hx : (s.ctx s.cur).xfenceHeld = false := xfenceHeld_of_noFence s hf
  unfold scalarAccess accessPlace
  rw [if_neg (not_not_intro ha), hx, translate_outside s _ va need h]
  rfl

theorem settle_classB (s : State) (cause sub : Nat) (addr : Word) :
    settle s (.error (.trap (classB cause sub addr s.pc) none)) = .next (stopped s cause sub addr) := rfl

/-! ## What each shared form does once its operands are read -/

section
variable {s t : State} {b v : Word} {p : Xl}

theorem plainLoad_of_access {w : Nat} {x : LdSt} {n : Nat} {sign : Bool} {r : Except Stop (State × Xl)} (hb : Reads s x.a.val b)
    (hr : scalarAccess s (b + x.off.signExtend 64 * word n) n .r (n == 8) = r) :
    plainLoad w x n sign s = settle s (r >>= fun tp =>
      issueLoad tp.1 (newLoad tp.1 w x.t.val (b + x.off.signExtend 64 * word n) tp.2 n sign false none) [x.t.val]) := by
  rw [plainLoad, hb]
  simp only [ok_bind, immWord, hr]

theorem plainStore_of_access {w : Nat} {x : LdSt} {n : Nat} {r : Except Stop (State × Xl)} (hb : Reads s x.a.val b)
    (hv : Reads s x.t.val v) (hr : scalarAccess s (b + x.off.signExtend 64 * word n) n .w (n == 8) = r) :
    plainStore w x n s = settle s (r >>= fun tp =>
      hold tp.1 (.store (b + x.off.signExtend 64 * word n) tp.2 n (v.toNat % 2 ^ (8 * n))) w []) := by
  rw [plainStore, hb, ok_bind, hv]
  simp only [ok_bind, immWord, hr]

theorem atomic_of_access {w : Nat} {x : AmoF} {o : AmoOp} {a : Word} {r : Except Stop (State × Xl)} (ha : Reads s x.a.val a)
    (hb : Reads s x.b.val b) (hr : scalarAccess s a 8 .rw false = r) :
    atomic w x o s = settle s (r >>= fun tp => hold tp.1 (.amo o a tp.2 b x.acq x.rel x.sc.val x.d.val) w [x.d.val]) := by
  rw [atomic, ha, ok_bind, hb]
  simp only [ok_bind, hr]

theorem ldp_of_access {x : LdSt} {r : Except Stop (State × Xl)} (hb : Reads s x.a.val b)
    (hr : scalarAccess s (b + x.off.signExtend 64 * 16) 16 .r false = r) :
    exec (.ldp x) s = settle s (r >>= fun tp => issueLoad tp.1
      (newLoad tp.1 (0x60012 + x.enc) x.t.val (b + x.off.signExtend 64 * 16) tp.2 16 false true none)
      [x.t.val, x.t.val + 1]) := by
  show execLdp x s = _
  rw [execLdp, hb]
  simp only [ok_bind, immWord, hr]

theorem stp_of_access {x : LdSt} {v1 : Word} {r : Except Stop (State × Xl)} (hb : Reads s x.a.val b) (hv : Reads s x.t.val v)
    (hv1 : Reads s (x.t.val + 1) v1) (hr : scalarAccess s (b + x.off.signExtend 64 * 16) 16 .w false = r) :
    exec (.stp x) s = settle s (r >>= fun tp => hold tp.1
      (.store (b + x.off.signExtend 64 * 16) tp.2 16 (v.toNat + 2 ^ 64 * v1.toNat)) (0x60013 + x.enc) []) := by
  show execStp x s = _
  rw [execStp, hb, ok_bind, hv, ok_bind, hv1]
  simp only [ok_bind, immWord, hr]

end

theorem plainLoad_misaligned {w : Nat} {x : LdSt} {n : Nat} {sign : Bool} {s : State} {b : Word} (hb : Reads s x.a.val b)
    (h : (b + x.off.signExtend 64 * word n).toNat % n ≠ 0) :
    plainLoad w x n sign s = .next (trapped s cMISALIGNED 0 (b + x.off.signExtend 64 * word n)) :=
  plainLoad_of_access hb (scalarAccess_misaligned s _ n .r _ h)

theorem plainStore_misaligned {w : Nat} {x : LdSt} {n : Nat} {s : State} {b v : Word} (hb : Reads s x.a.val b)
    (hv : Reads s x.t.val v) (h : (b + x.off.signExtend 64 * word n).toNat % n ≠ 0) :
    plainStore w x n s = .next (trapped s cMISALIGNED 0 (b + x.off.signExtend 64 * word n)) :=
  plainStore_of_access hb hv (scalarAccess_misaligned s _ n .w _ h)

theorem atomic_misaligned {w : Nat} {x : AmoF} {o : AmoOp} {s : State} {a b : Word} (ha : Reads s x.a.val a)
    (hb : Reads s x.b.val b) (h : a.toNat % 8 ≠ 0) : atomic w x o s = .next (trapped s cMISALIGNED 0 a) :=
  atomic_of_access ha hb (scalarAccess_misaligned s a 8 .rw false h)

/-- Settles O24: a misaligned access traps before its translation, and an address out of the virtual space finds none. -/
theorem accessChecks : Obligations.AccessChecks := by
  refine ⟨fun x s b hb => ⟨fun h => ⟨plainLoad_misaligned hb h, plainLoad_misaligned hb h⟩,
      fun h => ⟨plainLoad_misaligned hb h, plainLoad_misaligned hb h⟩, fun h => plainLoad_misaligned hb h,
      fun h => ldp_of_access hb (scalarAccess_misaligned s _ 16 .r false h),
      fun v hv => ⟨fun h => plainStore_misaligned hb hv h, fun h => plainStore_misaligned hb hv h,
        fun h => plainStore_misaligned hb hv h,
        fun v1 hv1 h => stp_of_access hb hv hv1 (scalarAccess_misaligned s _ 16 .w false h)⟩⟩,
    fun x s a b ha hb h => ⟨atomic_misaligned ha hb h, atomic_misaligned ha hb h⟩, fun x s b hb hf ha h => ⟨?_, fun v hv => ?_⟩⟩
  · exact plainLoad_of_access hb (scalarAccess_outside s _ 8 .r true hf ha h)
  · exact plainStore_of_access hb hv (scalarAccess_outside s _ 8 .w true hf ha h)

/-! ## Loads -/

theorem issueLoad_inLane (s : State) (l : Load) (ds : List Nat) (hd : ∀ d ∈ ds, Ready s d) (h : InLane s)
    (hacq : l.acq = none ∨ s.c.sb = []) (t : State) (rs : List (Nat × Word)) (hp : loadData s s.cur l = .ok (t, rs)) :
    issueLoad s l ds = .ok (t.withC (putAll t.c rs).advance) := by
  unfold InLane at h
  have hgo : (l.acq.isSome && !s.c.sb.isEmpty) = false := by
    rcases hacq with ha | hs
    · rw [ha, Option.isSome_none, Bool.false_and]
    · rw [hs, List.isEmpty_nil, Bool.not_true, Bool.and_false]
  unfold issueLoad
  simp only [freeDests_ok s ds hd, ok_bind, h, if_true, hgo, Bool.false_eq_true, if_false, hp, liftB, pure, Except.pure]

/-- An instruction whose meaning comes down to `issueLoad` goes out as `Loads` says. -/
theorem loads_of {i : Instr} {s0 s : State} {l : Load} {ds : List Nat} (he : exec i s0 = settle s0 (issueLoad s l ds))
    (hd : ∀ d ∈ ds, Ready s d) : Loads i s0 s l ds :=
  ⟨fun hl hk => by rw [he, issueLoad_ahead s l ds hd hl hk, settle_ok],
   fun t rs h hp => by rw [he, issueLoad_inStep s l ds hd h t rs hp, settle_ok],
   fun t rs h hacq hp => by rw [he, issueLoad_inLane s l ds hd h hacq t rs hp, settle_ok]⟩

theorem ready_one {s : State} {d : Nat} (h : Ready s d) : ∀ e ∈ [d], Ready s e := by
  intro e he
  rw [List.mem_singleton.mp he]
  exact h

/-- What a load that reads no probe delivers, from the bytes it has read. -/
theorem loadData_of_read {s u : State} {q : Nat} {l : Load} {v : Nat} (hp : l.probe = none)
    (hr : (match l.acq with
      | some sc => acquireRead s q l.ord l.x l.n sc
      | none => readHere s q l.ord l.x l.n) = .ok (u, v)) :
    loadData s q l = .ok (u, if l.pair then results l.d 16 v
      else [(l.d, if l.sign then sextBits (8 * l.n) (word v) else word v)]) := by
  rw [loadData, hp]
  show accessData s q l = _
  unfold accessData
  cases ha : l.acq <;> rw [ha] at hr <;> dsimp only at hr ⊢ <;> rw [hr] <;> rfl

/-- The sign of the low `k` bits of a word, from a number that has them. -/
theorem sextBits_word (k : Nat) (hk : 0 < k) (hle : k ≤ 64) (v : Nat) : sextBits k (word v) = (BitVec.ofNat k v).signExtend 64 := by
  rw [sextBits_eq k hk, BitVec.setWidth_ofNat_of_le hle]

theorem loadResults (s : State) (q : Nat) (l : Load) (u : State) (v : Nat) (hp : l.probe = none)
    (hr : (match l.acq with
      | some sc => acquireRead s q l.ord l.x l.n sc
      | none => readHere s q l.ord l.x l.n) = .ok (u, v)) :
    ∃ rs, loadData s q l = .ok (u, rs)
      ∧ (l.pair = true → rs = [(l.d, word v), (l.d + 1, word (v / 2 ^ 64))])
      ∧ (l.pair = false → l.sign = false → rs = [(l.d, word v)])
      ∧ (l.pair = false → l.sign = true → l.n = 1 → rs = [(l.d, (BitVec.ofNat 8 v).signExtend 64)])
      ∧ (l.pair = false → l.sign = true → l.n = 2 → rs = [(l.d, (BitVec.ofNat 16 v).signExtend 64)])
      ∧ (l.pair = false → l.sign = true → l.n = 4 → rs = [(l.d, (BitVec.ofNat 32 v).signExtend 64)]) := by
  refine ⟨_, loadData_of_read hp hr, fun hp => ?_, fun hp hs => ?_, fun hp hs hn => ?_, fun hp hs hn => ?_, fun hp hs hn => ?_⟩
  · rw [if_pos hp]
    rfl
  all_goals simp only [hp, hs, if_true, if_false, Bool.false_eq_true]
  all_goals rw [hn, sextBits_word _ (by decide) (by decide)]

/-- The read of an acquire, once the core's own words are registered at the die point. -/
theorem acquireRead_registered {s t : State} {q : Nat} {x : Xl} {n : Nat} (ord sc : Nat)
    (h : (match cachedAt s q x with
      | some a => registerWords s (q / 4) (wordsOf a n)
      | none => .ok s) = .ok t) :
    acquireRead s q ord x n sc = if sc = 0 then (readHere t q ord x n).map fun r => (acquireAt r.1 q sc, r.2)
      else readHere (acquireAt t q sc) q ord x n := by
  unfold acquireRead
  cases hc : cachedAt s q x <;> rw [hc] at h <;> dsimp only at h ⊢ <;> rw [h, ok_bind] <;> split
  all_goals rfl

theorem farPair_far {x : Xl} (h : x.host = true ∨ x.dev ≠ 0) : farPair x 16 = true := by
  rcases h with h | h
  · simp [farPair, h]
  · simp [farPair, h]

theorem farPair_near {x : Xl} {n : Nat} (h : n ≠ 16 ∨ x.host = false ∧ x.dev = 0) : farPair x n = false := by
  rcases h with h | ⟨hh, hd⟩
  · simp [farPair, h]
  · simp [farPair, hh, hd]

/-- Settles O25: each load goes out with its address and destination, and what it delivers is its bytes extended. -/
theorem loadForms : Obligations.LoadForms := by
  refine ⟨⟨fun x s b t p hb => ⟨?_, ?_, ?_, ?_, ?_, ?_, ?_, fun ht hr => ?_⟩, fun x s b t p hs hb ht hr => ?_⟩, loadResults,
    fun s q ord x n sc t ht => ⟨fun hsc => ?_, fun u v hv => ?_⟩, fun l hx hn => ?_, fun l h => ?_⟩
  iterate 7 exact fun ht hr => loads_of (plainLoad_of_access hb ht) (ready_one hr)
  · exact loads_of (ldp_of_access hb ht) hr
  · refine loads_of ?_ (ready_one hr)
    show execLdacq x s = _
    unfold Translates at ht
    rw [execLdacq, notLane_ok s hs, ok_bind, hb]
    simp only [ok_bind, immWord, ht]
  · rw [acquireRead_registered ord sc ht, if_neg hsc]
  · rw [acquireRead_registered ord 0 ht, if_pos rfl, hv]
    rfl
  · have hf : farPair l.x l.n = true := hn ▸ farPair_far hx
    exact ⟨{ l with d := l.d + 1, va := l.va + 8, x := l.x.high, n := 8, pair := false }, if_pos hf, rfl, rfl, rfl, rfl, rfl, rfl⟩
  · rw [Load.halves, farPair_near h]
    rfl

/-! ## Stores and atomics -/

/-- An access whose instruction comes down to `hold` is held, and in lane mode performed. -/
theorem heldOrPerformed_of {i : Instr} {s0 s : State} {op : HeldOp} {w : Nat} {ds : List Nat}
    (he : exec i s0 = settle s0 (hold s op w ds)) (hd : ∀ d ∈ ds, Ready s d) :
    Holds i s0 s op w ds ∧ PerformsInLane i s0 s op w :=
  ⟨holds_of he hd advance_keeps, performsInLane_of he hd⟩

theorem plainStore_held {i : Instr} {w n : Nat} {x : LdSt} {s t : State} {b v : Word} {p : Xl}
    (hi : exec i s = plainStore w x n s) (hb : Reads s x.a.val b) (hv : Reads s x.t.val v)
    (ht : Translates s (b + x.off.signExtend 64 * word n) n .w (n == 8) t p) :
    Holds i s t (.store (b + x.off.signExtend 64 * word n) p n (v.toNat % 2 ^ (8 * n))) w []
    ∧ PerformsInLane i s t (.store (b + x.off.signExtend 64 * word n) p n (v.toNat % 2 ^ (8 * n))) w :=
  heldOrPerformed_of (hi.trans (plainStore_of_access hb hv ht)) (List.forall_mem_nil _)

/-- Settles O27: each store is held with the bytes it writes. -/
theorem storesHeld : Obligations.StoresHeld := by
  refine ⟨fun x s b v t p hb hv => ⟨plainStore_held rfl hb hv, plainStore_held rfl hb hv, plainStore_held rfl hb hv,
    plainStore_held rfl hb hv, fun v1 hv1 ht => ?_⟩, fun x s b v t p hs hb hv ht => ?_⟩
  · exact heldOrPerformed_of (stp_of_access hb hv hv1 ht) (List.forall_mem_nil _)
  · refine holds_of ?_ (List.forall_mem_nil _) advance_keeps
    show execStrel x s = _
    unfold Translates at ht
    rw [execStrel, notLane_ok s hs, ok_bind, hb, ok_bind, hv]
    simp only [ok_bind, immWord, ht]

theorem atomic_held {i : Instr} {w : Nat} {o : AmoOp} {x : AmoF} {s t : State} {a b : Word} {p : Xl}
    (hi : exec i s = atomic w x o s) (ha : Reads s x.a.val a) (hb : Reads s x.b.val b) (ht : Translates s a 8 .rw false t p)
    (hr : Ready t x.d.val) :
    Holds i s t (.amo o a p b x.acq x.rel x.sc.val x.d.val) w [x.d.val]
    ∧ PerformsInLane i s t (.amo o a p b x.acq x.rel x.sc.val x.d.val) w :=
  heldOrPerformed_of (hi.trans (atomic_of_access ha hb ht)) (ready_one hr)

theorem readPair_one (s : State) (r : Nat) (e : Bool) (w : Nat) (x : Word) (h : Reads s r x) :
    readPair s r 8 e w = .ok x.toNat := by
  rw [readPair, h]
  rfl

theorem readPair_two (s : State) (r : Nat) (e : Bool) (w : Nat) (x y : Word) (h : Reads s r x) (h1 : Reads s (r + 1) y) :
    readPair s r 16 e w = .ok (x.toNat + 2 ^ 64 * y.toNat) := by
  rw [readPair, h, ok_bind, if_pos rfl, h1]
  rfl

/-- Settles O28: each atomic is held with its operands and its destination, a pair for cas.q. -/
theorem atomicsHeld : Obligations.AtomicsHeld := by
  refine ⟨fun x s a b t p ha hb ht hr => ⟨atomic_held rfl ha hb ht hr, atomic_held rfl ha hb ht hr, atomic_held rfl ha hb ht hr,
    atomic_held rfl ha hb ht hr, atomic_held rfl ha hb ht hr, atomic_held rfl ha hb ht hr, atomic_held rfl ha hb ht hr,
    atomic_held rfl ha hb ht hr, atomic_held rfl ha hb ht hr⟩,
    fun x s a b c t p ha hb hc => ⟨fun ht hr => ?_, fun b1 c1 hb1 hc1 ht hr => ?_⟩⟩
  · have he : exec (.cas x) s
        = settle s (hold t (.cas 8 a p b.toNat c.toNat x.sc.val x.d.val) (0x17 + x.enc) [x.d.val]) := by
      show compareSwap _ x 8 s = _
      unfold Translates at ht
      rw [compareSwap, ha, ok_bind, readPair_one s _ _ _ b hb, ok_bind, readPair_one s _ _ _ c hc, ok_bind, ht]
      rfl
    exact heldOrPerformed_of he (ready_one hr)
  · have he : exec (.casQ x) s = settle s (hold t (.cas 16 a p (b.toNat + 2 ^ 64 * b1.toNat) (c.toNat + 2 ^ 64 * c1.toNat)
        x.sc.val x.d.val) (0x80000017 + x.enc) [x.d.val, x.d.val + 1]) := by
      show compareSwap _ x 16 s = _
      unfold Translates at ht
      rw [compareSwap, ha, ok_bind, readPair_two s _ _ _ b b1 hb hb1, ok_bind, readPair_two s _ _ _ c c1 hc hc1, ok_bind, ht]
      rfl
    exact heldOrPerformed_of he hr

end Sys2Proof.Machine
end

