-- ==== Sys2Proof/Proofs/OrderingForms.lean ====
section
/-!
The fences, cache maintenance, barrier arrival, stash and prefetch forms as they are held (R170 to R180).
-/
namespace Sys2Proof.Machine

theorem execFence_held {i : Instr} {w kind sc : Nat} {s : State} (hs : OnScalar s)
    (hi : exec i s = settle s (do notLane s; hold s (.fence kind sc) w [])) : Holds i s s (.fence kind sc) w [] :=
  holds_of (by rw [hi, notLane_ok s hs, ok_bind]) (List.forall_mem_nil _) advance_keeps

theorem execXfence_held {i : Instr} {w kind : Nat} {x : ScopeA} {s : State} {a : Word} (hs : OnScalar s)
    (ha : Reads s x.a.val a) (hi : exec i s = settle s (do
      notLane s
      let a ← readS s x.a.val x.ea w
      hold s (.xfence kind a x.sc.val) w [])) : Holds i s s (.xfence kind a x.sc.val) w [] :=
  holds_of (by rw [hi, notLane_ok s hs, ok_bind, ha, ok_bind]) (List.forall_mem_nil _) advance_keeps

theorem maintain_held {i : Instr} {w form : Nat} {need : Need} {x : ScopeA} {s t : State} {a : Word} {p : Xl} (hs : OnScalar s)
    (ha : Reads s x.a.val a) (ht : Translates s a 1 need false t p) (hi : exec i s = maintain w x form need s) :
    Holds i s t (.cline form a p x.sc.val) w [] := by
  refine holds_of (hi.trans ?_) (List.forall_mem_nil _) advance_keeps
  unfold Translates at ht
  rw [maintain, notLane_ok s hs, ok_bind, ha, ok_bind, ht]
  rfl

theorem stashForm_held {i : Instr} {w form : Nat} {x : StashB} {s : State} {b : Word} (hs : OnScalar s)
    (hb : Reads s x.b.val b) (hr : Ready s x.d.val) (hi : exec i s = stashForm w x form s) :
    Holds i s s (.stash form 0 b x.d.val) w [x.d.val] :=
  holds_of (hi.trans (by rw [stashForm, notLane_ok s hs, ok_bind, hb, ok_bind])) (ready_one hr) advance_keeps

theorem barArr_held {x : BarF} {s t : State} {a b : Word} {p : Xl} (hs : OnScalar s) (ha : Reads s x.a.val a)
    (hb : Reads s x.b.val b) (ht : Translates s a 8 .rw false t p) (hr : Ready t x.d.val) :
    Holds (.barArr x) s t (.barArr a p (b.setWidth 32) x.sc.val x.d.val) (0x1B + x.enc) [x.d.val] := by
  refine holds_of ?_ (ready_one hr) advance_keeps
  show execBarArr x s = _
  unfold Translates at ht
  rw [execBarArr, notLane_ok s hs, ok_bind, ha, ok_bind, hb, ok_bind, ht]
  rfl

theorem stashMap_held {x : Alu2} {s : State} {a b : Word} (hs : OnScalar s) (ha : Reads s x.a.val a) (hb : Reads s x.b.val b)
    (hr : Ready s x.d.val) (h0 : a.toNat % 512 = 0) : Holds (.stashMap x) s s (.stash 0 a b x.d.val) (0x1D + x.enc) [x.d.val] := by
  refine holds_of ?_ (ready_one hr) advance_keeps
  show execStashMap x s = _
  rw [execStashMap, notLane_ok s hs, ok_bind, ha, ok_bind, hb, ok_bind, if_neg (not_not_intro h0)]

theorem stashMap_misaligned {x : Alu2} {s : State} {a b : Word} (hs : OnScalar s) (ha : Reads s x.a.val a)
    (hb : Reads s x.b.val b) (h0 : a.toNat % 512 ≠ 0) : exec (.stashMap x) s = .next (trapped s cMISALIGNED 0 a) := by
  show execStashMap x s = _
  rw [execStashMap, notLane_ok s hs, ok_bind, ha, ok_bind, hb, ok_bind, if_pos h0]
  exact settle_classA s _ _ _

/-! ## Prefetches -/

/-- A prefetch whose access is found is held with its place. -/
theorem prefForm_held {i : Instr} {w level : Nat} {x : PrefF} {s t : State} {a : Word} {p : Xl} (hs : OnScalar s)
    (ha : Reads s x.a.val a) (ht : Translates s a 1 .r false t p) (hi : exec i s = prefForm w x level s) :
    Holds i s t (.pref level p.va (some p)) w [] := by
  refine holds_of (hi.trans ?_) (List.forall_mem_nil _) advance_keeps
  unfold Translates at ht
  rw [prefForm, notLane_ok s hs, ok_bind, ha, ok_bind, ht]

/-- A prefetch that would trap is held with no place. -/
theorem prefForm_drops {w level : Nat} {x : PrefF} {s : State} {e : Trap} {f : Option State}
    (h : (do notLane s; let a ← readS s x.a.val x.ea w; scalarAccess s a 1 .r false) = .error (.trap e f)) :
    prefForm w x level s = settle s (hold s (.pref level 0 none) w []) := by
  rw [prefForm, h]

theorem prefForm_fails {i : Instr} {w level : Nat} {x : PrefF} {s : State} {a : Word} {e : Trap} {f : Option State}
    (hs : OnScalar s) (ha : Reads s x.a.val a) (hf : scalarAccess s a 1 .r false = .error (.trap e f))
    (hi : exec i s = prefForm w x level s) : Holds i s s (.pref level 0 none) w [] := by
  refine holds_of (hi.trans (prefForm_drops (e := e) (f := f) ?_)) (List.forall_mem_nil _) advance_keeps
  rw [notLane_ok s hs, ok_bind, ha, ok_bind, hf]

theorem prefForm_empty {i : Instr} {w level : Nat} {x : PrefF} {s : State} (h : Empty s x.a.val) (he : x.ea = true)
    (hi : exec i s = prefForm w x level s) : Holds i s s (.pref level 0 none) w [] := by
  refine holds_of (hi.trans (prefForm_drops (e := classA cEMPTY_READ 0 (word w) s.pc) (f := none) ?_)) (List.forall_mem_nil _)
    advance_keeps
  rw [notLane_ok s h.1, ok_bind, he, readS_emptyTraps s _ w h, error_bind]

theorem prefForm_inLane {i : Instr} {w level : Nat} {x : PrefF} {s : State} (hi : exec i s = prefForm w x level s) :
    PerformsInLane i s s (.pref level 0 none) w := by
  have he : InLane s → exec i s = settle s (hold s (.pref level 0 none) w []) := fun h =>
    hi.trans (prefForm_drops (e := classA cLANE_MODE 0 (word s.c.laneTurn.val) s.c.at) (f := none) (by
      rw [notLane_lane s h, error_bind]))
  exact ⟨fun h => (performsInLane_of (he h) (List.forall_mem_nil _)).1 h,
    fun t rs h => (performsInLane_of (he h) (List.forall_mem_nil _)).2 t rs h⟩

/-- Settles O29: each form is held with its operands, and a prefetch that cannot be made with no place. -/
theorem orderingFormsHeld : Obligations.OrderingFormsHeld := by
  refine ⟨fun x s hs => ⟨execFence_held hs rfl, execFence_held hs rfl, execFence_held hs rfl, execFence_held hs rfl, ?_⟩,
    fun x s a hs ha => ⟨execXfence_held hs ha rfl, execXfence_held hs ha rfl,
      fun t p ht => ⟨maintain_held hs ha ht rfl, maintain_held hs ha ht rfl⟩,
      fun t p ht => ⟨maintain_held hs ha ht rfl, maintain_held hs ha ht rfl⟩⟩,
    fun x s a b t p hs ha hb ht hr => barArr_held hs ha hb ht hr,
    fun x s a b hs ha hb hr => ⟨stashMap_held hs ha hb hr, stashMap_misaligned hs ha hb⟩,
    fun x s b hs hb hr => ⟨stashForm_held hs hb hr rfl, stashForm_held hs hb hr rfl, stashForm_held hs hb hr rfl,
      stashForm_held hs hb hr rfl⟩,
    fun x s a hs ha => ⟨⟨fun t p ht => prefForm_held hs ha ht rfl, fun e f hf => prefForm_fails hs ha hf rfl⟩,
      ⟨fun t p ht => prefForm_held hs ha ht rfl, fun e f hf => prefForm_fails hs ha hf rfl⟩,
      ⟨fun t p ht => prefForm_held hs ha ht rfl, fun e f hf => prefForm_fails hs ha hf rfl⟩⟩,
    fun x s => ⟨⟨fun h he => prefForm_empty h he rfl, prefForm_inLane rfl⟩, ⟨fun h he => prefForm_empty h he rfl, prefForm_inLane rfl⟩,
      ⟨fun h he => prefForm_empty h he rfl, prefForm_inLane rfl⟩⟩, fun s q h level a hop => ?_⟩
  · refine holds_of ?_ (List.forall_mem_nil _) advance_keeps
    show execXfenceAll x s = _
    rw [execXfenceAll, notLane_ok s hs, ok_bind]
  · rw [perform, hop]

end Sys2Proof.Machine
end

