-- ==== Sys2Proof/Proofs/LaneModeForms.lean ====
section
/-!
The forms that lane mode refuses (R38, R287): each checks for lane mode before anything else of it can have an effect.
-/
namespace Sys2Proof

/-! ## Opcodes of the forms that lane mode allows -/

/-- The fields of a word lie above its opcode. -/
theorem opcode_of_enc (b e : Nat) (he : e % 128 = 0) : (BitVec.ofNat 32 (b + e)).toNat % 128 = b % 128 := by
  rw [BitVec.toNat_ofNat, Nat.mod_mod_of_dvd _ (by decide), Nat.add_mod, he, Nat.add_zero, Nat.mod_mod]

theorem Alu2.enc_mod (x : Alu2) : x.enc % 128 = 0 := by
  unfold Alu2.enc
  omega

theorem Alu1.enc_mod (x : Alu1) : x.enc % 128 = 0 := by
  unfold Alu1.enc
  omega

theorem ImmI.enc_mod (x : ImmI) : x.enc % 128 = 0 := by
  unfold ImmI.enc
  omega

theorem ShI.enc_mod (x : ShI) : x.enc % 128 = 0 := by
  unfold ShI.enc
  omega

theorem SltI.enc_mod (x : SltI) : x.enc % 128 = 0 := by
  unfold SltI.enc
  omega

theorem SetK.enc_mod (x : SetK) : x.enc % 128 = 0 := by
  unfold SetK.enc
  omega

theorem OffD.enc_mod (x : OffD) : x.enc % 128 = 0 := by
  unfold OffD.enc
  omega

theorem BrC.enc_mod (x : BrC) : x.enc % 128 = 0 := by
  unfold BrC.enc
  omega

theorem LdSt.enc_mod (x : LdSt) : x.enc % 128 = 0 := by
  unfold LdSt.enc
  omega

theorem AmoF.enc_mod (x : AmoF) : x.enc % 128 = 0 := by
  unfold AmoF.enc
  omega

theorem CasF.enc_mod (x : CasF) : x.enc % 128 = 0 := by
  unfold CasF.enc
  omega

theorem PrefF.enc_mod (x : PrefF) : x.enc % 128 = 0 := by
  unfold PrefF.enc
  omega

theorem ZeroW.enc_mod (x : ZeroW) : x.enc % 128 = 0 := by
  unfold ZeroW.enc
  omega

end Sys2Proof

namespace Sys2Proof.Machine

/-- The opcodes of the words that lane mode allows, with those of the prefetches, which do nothing there (R38, R180). -/
def LaneOpcode (op : Nat) : Prop :=
  op ≤ 0x09 ∨ op = 0x0A ∨ op = 0x0C ∨ (0x10 ≤ op ∧ op ≤ 0x13) ∨ op = 0x16 ∨ op = 0x17 ∨ op = 0x1E ∨ op = 0x58

/-- A word of an opcode that lane mode allows. -/
theorem laneOpcode_of_enc {b e : Nat} {w : BitVec 32} (he : e % 128 = 0) (hw : some (BitVec.ofNat 32 (b + e)) = some w)
    (hb : LaneOpcode (b % 128)) : LaneOpcode (w.toNat % 128) := by
  obtain rfl := Option.some.inj hw
  rw [opcode_of_enc b e he]
  exact hb

/-! ## The check for lane mode -/

theorem settle_notLane_inLane {s : State} (h : InLane s) (f : Unit → Except Stop State) :
    settle s (notLane s >>= f) = .next (trapped s cLANE_MODE 0 (word s.c.laneTurn.val)) := by
  rw [notLane_lane s h, error_bind]
  exact settle_classA s _ _ _

theorem runsPast_capture (c : Ctx) (f : VForm) : f.runsPast (c.capture f).rows.val = f.runsPast c.sc.rows.val := by
  by_cases hdim : f.op = .wdim
  · simp only [VForm.runsPast, hdim]
  · have hshape : f.shape c.sc = (c.sc.rows, c.sc.cols) := by
      unfold VForm.shape
      split
      · next h => exact absurd h hdim
      · rfl
    rw [Ctx.capture, hshape]

theorem issueVector_inLane {s : State} (h : InLane s) {f : VForm} (hf : f.runsPast s.c.sc.rows.val = false) :
    issueVector f s = .next (trapped s cLANE_MODE 0 (word s.c.laneTurn.val)) := by
  have hacc : accept s s.cur f s.c.at (s.c.capture f)
      = .error (.trap (classA cLANE_MODE 0 (word s.c.laneTurn.val) s.c.at) none) := by
    unfold InLane State.c at h
    simp only [accept, runsPast_capture, hf, Bool.false_eq_true, if_false, State.c, h, if_true, throw, throwThe,
      MonadExceptOf.throw, error_bind]
  unfold issueVector
  simp only [hacc]
  rfl

theorem rdspr_inLane {s : State} (h : InLane s) {x : RdSpr} (hx : (readSpr s s.cur x.spr.toNat).isSome = true) :
    exec (.rdspr x) s = .next (trapped s cLANE_MODE 0 (word s.c.laneTurn.val)) := by
  obtain ⟨v, hv⟩ := Option.isSome_iff_exists.mp hx
  show execRdspr x s = _
  unfold execRdspr
  simp only [hv]
  exact settle_notLane_inLane h _

theorem wrspr_inLane {s : State} (h : InLane s) {x : WrSpr} (hx : sprWritable x.spr.toNat = true) :
    exec (.wrspr x) s = .next (trapped s cLANE_MODE 0 (word s.c.laneTurn.val)) := by
  show execWrspr x s = _
  unfold execWrspr
  simp only [hx, Bool.not_true, Bool.false_eq_true, if_false]
  exact settle_notLane_inLane h _

/-- Settles O21: outside the forms that lane mode allows each instruction meets the check for lane mode first, but for what its
word alone decides. -/
theorem laneModeTraps : Obligations.LaneModeTraps := by
  intro i w s hwf hw h hruns hrd hwr op hlo hhi hop
  change ¬LaneOpcode (w.toNat % 128) at hop
  cases i
  case brmAny | brmAll | brmNone | jalr | loop | loopi | lbrk | rpt | ldacq | strel | fenceAcq | fenceRel | fenceAr
      | fenceSc | xfenceAll | xfenceSpace | xfencePage | waita | barArr | barWait | barAw | clineClean | clineInv
      | clineFlush | clineZero | stashMap | stashUnmap | stashFlush | stashPin | stashUnpin | vtag | setvl | tclaim
      | trel | twait | fopen | fclose | fdrop | fstat | cpy | cpyM | gath | chanWm | chanWait | chanCancel | chanStat
      | enqTask | enqLaunch | depd | pgrant | tdone | lsplit | yield | trap | tret | shut | halt | brk | probe =>
    exact settle_notLane_inLane h _
  case vadd | vsub | vmul | vmin | vmax | vand | vor | vxor | vshl | vshr | vsar | vabd | vavg | vadds | vsubs | vmulh
      | vaddS | vsubS | vmulS | vminS | vmaxS | vandS | vorS | vxorS | vshlS | vshrS | vsarS | vabdS | vavgS | vaddsS
      | vsubsS | vmulhS | vaddI | vsubI | vmulI | vminI | vmaxI | vandI | vorI | vxorI | vshlI | vshrI | vsarI | vabdI
      | vavgI | vaddsI | vsubsI | vmulhI | vfma | vfms | vfnma | vfnms | vmacw | vcmpEq | vcmpNe | vcmpLt | vcmpLe
      | vcmpGt | vcmpGe | vcmpUn | vsel | vcvt | vshrr | vdiv | vsqrt | vrcp | vrsqrt | vexp2 | vlog2 | vdot | vredSum
      | vredMax | vredMin | vredAnd | vredOr | vredXor | vsign | vmov | vsplat | vsplati | vget | vput | vslideUp
      | vslideDn | vld | vst | vlds | vsts | vldx | vldxC | vldxDup | vstx | vamoAdd | vamoAnd | vamoOr | vamoXor
      | vamoMin | vamoMax | vamoMinu | vamoMaxu | vamoSwap | vcomp | vexpand | vperm | vzip | vunzip | vtrn | kand | kor
      | kxor | knot | kandn | kpopc | kfirst | kvl | kfrom | vlk | vmcast | vrecv | viota | vidx | vflgRd | vflgClr
      | wld | wst | wmul | wmac | wmult | wchol | wlu | wsolveC | wsolveP | wadd | wsub | wscal | wtrn | wid | wcpy
      | wdim | wget | wput | tacc | tmma | tmms | tread | twrite | tepi =>
    exact issueVector_inLane h (hruns _ rfl)
  case rdspr x => exact rdspr_inLane h (hrd x rfl)
  case wrspr x => exact wrspr_inLane h (hwr x rfl)
  case add | sub | and | or | xor | andn | orn | shl | shr | sar | rol | ror | slt | sltu | min | max | minu | maxu
      | mul | mulh | mulhu | div | divu | rem | remu =>
    exact absurd (laneOpcode_of_enc (Alu2.enc_mod _) hw (by unfold LaneOpcode; decide)) hop
  case clz | ctz | popc | bswap | sextB | sextH | sextW | zextW =>
    exact absurd (laneOpcode_of_enc (Alu1.enc_mod _) hw (by unfold LaneOpcode; decide)) hop
  case addi | andi | ori | xori =>
    exact absurd (laneOpcode_of_enc (ImmI.enc_mod _) hw (by unfold LaneOpcode; decide)) hop
  case shli | shri | sari | roli =>
    exact absurd (laneOpcode_of_enc (ShI.enc_mod _) hw (by unfold LaneOpcode; decide)) hop
  case slti | sltiu =>
    exact absurd (laneOpcode_of_enc (SltI.enc_mod _) hw (by unfold LaneOpcode; decide)) hop
  case setk | setz =>
    exact absurd (laneOpcode_of_enc (SetK.enc_mod _) hw (by unfold LaneOpcode; decide)) hop
  case addpc | jal =>
    exact absurd (laneOpcode_of_enc (OffD.enc_mod _) hw (by unfold LaneOpcode; decide)) hop
  case brEq | brNe | brLt | brGe | brLtu | brGeu =>
    exact absurd (laneOpcode_of_enc (BrC.enc_mod _) hw (by unfold LaneOpcode; decide)) hop
  case ldBz | ldBs | ldHz | ldHs | ldWz | ldWs | ldD | stB | stH | stW | stD | ldp | stp =>
    exact absurd (laneOpcode_of_enc (LdSt.enc_mod _) hw (by unfold LaneOpcode; decide)) hop
  case amoAdd | amoAnd | amoOr | amoXor | amoMin | amoMax | amoMinu | amoMaxu | amoSwap =>
    exact absurd (laneOpcode_of_enc (AmoF.enc_mod _) hw (by unfold LaneOpcode; decide)) hop
  case cas | casQ =>
    exact absurd (laneOpcode_of_enc (CasF.enc_mod _) hw (by unfold LaneOpcode; decide)) hop
  case prefL2 | prefLlc | prefStash =>
    exact absurd (laneOpcode_of_enc (PrefF.enc_mod _) hw (by unfold LaneOpcode; decide)) hop
  case ljoin =>
    obtain rfl := Option.some.inj hw
    exact absurd (by unfold LaneOpcode; decide) hop
  case zeroWord x =>
    obtain rfl := Option.some.inj hw
    have hop0 : op = 0 := opcode_of_enc 0 x.enc x.enc_mod
    omega
  case reservedOpcode x =>
    obtain rfl := Option.some.inj hw
    have hop96 : op = (0x60 + x.enc) % 2 ^ 32 % 128 := congrArg (· % 128) (BitVec.toNat_ofNat ..)
    have hlow : x.low.toNat < 32 := x.low.isLt
    unfold ResW.enc at hop96
    omega
  case illegal => exact absurd hwf Bool.false_ne_true
  case vectorStart | groupCommit | vectorComplete | heldPerform | loadReturn | divideResult | detachedComplete
      | tmmaStart | vmcastReserve | vmcastLand | vrecvBind | waitaWake | waitaPoll | waitaTimeout | barWake
      | channelCommandStart | grainMove | copyComplete | trapInContext | trapToKeeper | eventPlace | successorPlace
      | sliceEnd | resumeSaved | selection | bind | stagingStart | granuleMove | stopComplete | ownershipPass | register
      | exportWord | deliver | rd | wr | wro | drop | dropl | wbl | snoop | cmo | purge | errorDetected | ctlStop
      | ctlResume | ctlStep | ctlDiscard | root | head | en | counter | channelResume | channelCancel | coreCommit
      | partitionReset | partitionResetDone | window | qcount | printmask | pingran | load | slotDrainDone | save
      | saveDone | restore | restoreDone | abort | fire | rearm | evcount | reportRequest | reportDone | powercap
      | printCommit | printStart | printDone | registerWrite | powerOn | coldReset | linkUp | bar0Write | bar0Atomicop
      | bar2Read | bar2Write | bar2Atomicop | vfEnable | vfDisable | vfFlr | pfFlr | atsCompletion | pageRequestResponse
      | priEnable | invalidateRequest | invalidateCompletion | hostCompletionError | completionTimeout | snpdata
      | snpinv | snpcur | hostCacheResponse | m2sReq | m2sRwd | birsp | mode | flipToDeviceBias | flipToHostBias
      | flipDone | portUp | peerRequest | peerCompletion | peerTimeout | cxlCacheEnable =>
    exact absurd hw nofun

end Sys2Proof.Machine
end

