-- ==== Sys2Proof/Proofs/LoadBytes.lean ====
section
/-!
The bytes of a load (R163): those that older held stores cover come from the youngest of them, the others from memory.
-/
namespace Sys2Proof.Machine

/-! ## The youngest store that covers a byte -/

/-- The last of a list that passes a test decides. -/
theorem foldl_last {α β : Type} (p : α → Bool) (g : α → β) : ∀ (l : List α) (r : Option β),
    l.foldl (fun r a => if p a then some (g a) else r) r = match (l.filter p).getLast? with
      | some a => some (g a)
      | none => r
  | [], _ => rfl
  | a :: l, r => by
    rw [List.foldl_cons, foldl_last p g l, List.filter_cons]
    cases hp : p a with
    | false => simp only [Bool.false_eq_true, if_false]
    | true =>
      simp only [if_true, List.getLast?_cons]
      cases (l.filter p).getLast? <;> rfl

/-- A held store older than `ord` covers the byte at `i` of an access. -/
def Held.covers (ord : Nat) (x : Xl) (i : Nat) (h : Held) : Bool :=
  decide (h.ord < ord) && (match h.op with
    | .store _ y k _ | .strel _ y k _ _ => x.alike y && decide (y.pa ≤ x.pa + i) && decide (x.pa + i < y.pa + k)
    | _ => false)

/-- The byte that a held store writes there. -/
def Held.byteAt (x : Xl) (i : Nat) (h : Held) : Nat :=
  match h.op with
  | .store _ y _ w | .strel _ y _ w _ => w / 256 ^ (x.pa + i - y.pa) % 256
  | _ => 0

theorem heldByte_eq (sb : List Held) (ord : Nat) (x : Xl) (i : Nat) :
    heldByte sb ord x i = ((sb.filter (Held.covers ord x i)).getLast?).map (Held.byteAt x i) := by
  have hstep : heldByte sb ord x i = sb.foldl (fun r h => if h.covers ord x i then some (h.byteAt x i) else r) none := by
    unfold heldByte
    congr 1
    funext r h
    unfold Held.covers Held.byteAt
    cases h.op <;> simp [and_assoc]
  rw [hstep, foldl_last]
  cases (sb.filter (Held.covers ord x i)).getLast? <;> rfl

/-! ## Numbers from bytes -/

/-- The bytes of a number built from its lowest up. -/
theorem byte_foldr (bs : List Nat) (hb : ∀ b ∈ bs, b < 256) (i : Nat) (hi : i < bs.length) :
    bs.foldr (fun b m => b + 256 * m) 0 / 256 ^ i % 256 = bs[i] := by
  induction bs generalizing i with
  | nil => exact absurd hi (Nat.not_lt_zero i)
  | cons b r ih =>
    have hlt : b < 256 := hb b List.mem_cons_self
    rw [List.foldr_cons]
    cases i with
    | zero => rw [Nat.pow_zero, Nat.div_one, List.getElem_cons_zero]; omega
    | succ i =>
      rw [Nat.pow_succ, Nat.mul_comm (256 ^ i), ← Nat.div_div_eq_div_mul,
        show (b + 256 * r.foldr (fun b m => b + 256 * m) 0) / 256 = r.foldr (fun b m => b + 256 * m) 0 by omega,
        ih (fun c hc => hb c (List.mem_cons_of_mem b hc)) i (Nat.lt_of_succ_lt_succ hi), List.getElem_cons_succ]

/-- The bytes of a number summed by their places. -/
theorem byte_sum (f : Nat → Nat) (hf : ∀ j, f j < 256) (n : Nat) :
    (List.range n).foldl (fun m i => m + 256 ^ i * f i) 0 < 256 ^ n
    ∧ ∀ i < n, (List.range n).foldl (fun m i => m + 256 ^ i * f i) 0 / 256 ^ i % 256 = f i := by
  induction n with
  | zero => exact ⟨Nat.one_pos, fun i hi => absurd hi (Nat.not_lt_zero i)⟩
  | succ n ih =>
    obtain ⟨hlt, hbytes⟩ := ih
    rw [List.range_succ, List.foldl_append]
    simp only [List.foldl_cons, List.foldl_nil]
    generalize (List.range n).foldl (fun m i => m + 256 ^ i * f i) 0 = m at hlt hbytes
    have hn := hf n
    refine ⟨?_, fun i hi => ?_⟩
    · calc m + 256 ^ n * f n < 256 ^ n + 256 ^ n * f n := by omega
        _ = 256 ^ n * (f n + 1) := by ring
        _ ≤ 256 ^ n * 256 := Nat.mul_le_mul_left _ hn
    · rcases Nat.lt_succ_iff_lt_or_eq.mp hi with h | rfl
      · obtain ⟨k, rfl⟩ := Nat.exists_eq_add_of_lt h
        rw [← hbytes i h, show i + k + 1 = i + (k + 1) from rfl, Nat.pow_add, Nat.mul_assoc,
          Nat.add_mul_div_left _ _ (Nat.pow_pos (by decide)), Nat.pow_succ, Nat.mul_comm (256 ^ k), Nat.mul_assoc,
          Nat.add_mul_mod_self_left]
      · rw [Nat.add_mul_div_left _ _ (Nat.pow_pos (by decide)), Nat.div_eq_of_lt hlt, Nat.zero_add, Nat.mod_eq_of_lt hn]

/-! ## Reading through the held stores -/

theorem seqs_fillFor (s : State) (q core : Nat) (space : BitVec 16) (x : Xl) : (fillFor s q core space x).seqs = s.seqs := by
  unfold fillFor
  split
  · dsimp only
    split
    · rfl
    · exact (seqs_of_beyond (beyond_foldl (fun t u => beyond_keepCopy t core u _ _) _ _)).trans rfl
  · rfl

theorem ctx_fillPiece (s : State) (q p : Nat) (x : Xl) : (fillPiece s q x).ctx p = s.ctx p := by
  rw [State.ctx, State.ctx, fillPiece, seqs_fillFor]

theorem heldByte_lt {sb : List Held} {ord : Nat} {x : Xl} {i b : Nat} (h : heldByte sb ord x i = some b) : b < 256 := by
  rw [heldByte_eq] at h
  obtain ⟨y, -, rfl⟩ := Option.map_eq_some_iff.mp h
  unfold Held.byteAt
  split
  · exact Nat.mod_lt _ (by decide)
  · exact Nat.mod_lt _ (by decide)
  · exact Nat.zero_lt_succ 255

/-- Settles O26: each byte is the youngest covering store's, or the memory's. -/
theorem loadForwarding : Obligations.LoadForwarding := by
  intro s q ord x n u m hctl hacc
  have hbyte : ∀ i, (match ((s.ctx q).sb.filter (Held.covers ord x i)).getLast? with
      | some h => h.byteAt x i
      | none => m / 256 ^ i % 256) = (heldByte (s.ctx q).sb ord x i).getD (m / 256 ^ i % 256) := by
    intro i
    rw [heldByte_eq]
    cases ((s.ctx q).sb.filter (Held.covers ord x i)).getLast? <;> rfl
  have hlt : ∀ i, (heldByte (s.ctx q).sb ord x i).getD (m / 256 ^ i % 256) < 256 := by
    intro i
    cases hb : heldByte (s.ctx q).sb ord x i with
    | none => exact Nat.mod_lt _ (by decide)
    | some b => exact heldByte_lt hb
  unfold readHere
  rw [hctl]
  simp only [Bool.false_eq_true, if_false, ctx_fillPiece]
  split
  · next hall =>
    refine ⟨_, _, rfl, fun i hi => Eq.trans ?_ (hbyte i).symm⟩
    have hsome := List.all_eq_true.mp hall _ (List.mem_map_of_mem (List.mem_range.mpr hi))
    have hbytes := byte_foldr ((List.range n).map fun j => (heldByte (s.ctx q).sb ord x j).getD 0) (fun b hb => by
      obtain ⟨j, -, rfl⟩ := List.mem_map.mp hb
      cases hj : heldByte (s.ctx q).sb ord x j with
      | none => decide
      | some c => exact heldByte_lt hj) i (by rwa [List.length_map, List.length_range])
    rw [List.foldr_map, List.getElem_map, List.getElem_range] at hbytes
    rw [List.foldr_map, hbytes]
    cases hi' : heldByte (s.ctx q).sb ord x i with
    | none => rw [hi'] at hsome; exact absurd hsome Bool.false_ne_true
    | some c => rfl
  · rw [hacc]
    refine ⟨_, _, rfl, fun i hi => Eq.trans ?_ (hbyte i).symm⟩
    have hentry : ∀ j, j < n → ((List.range n).map fun k => heldByte (s.ctx q).sb ord x k).getD j none
        = heldByte (s.ctx q).sb ord x j := fun j hj => by
      rw [List.getD_eq_getElem?_getD, List.getElem?_map, List.getElem?_range hj]
      rfl
    have hsum := (byte_sum (fun j => (((List.range n).map fun k => heldByte (s.ctx q).sb ord x k).getD j none).getD
      (m / 256 ^ j % 256)) (fun j => by
        by_cases hj : j < n
        · rw [hentry j hj]
          exact hlt j
        · rw [List.getD_eq_default _ _ (by rw [List.length_map, List.length_range]; omega)]
          exact Nat.mod_lt _ (by decide)) n).2 i hi
    rw [hentry i hi] at hsum
    exact hsum

end Sys2Proof.Machine
end

