-- ==== Sys2Proof/Proofs/StoreFrames.lean ====
section
/-!
What a store leaves in its core's registry (R299 step 3, R310): each word it touches, byte by byte, and nothing else.
-/
namespace Sys2Proof.Machine

theorem unitKey_inj {c c' w w' : Nat} (hw : w < 2 ^ 56) (hw' : w' < 2 ^ 56) (h : unitKey c w = unitKey c' w') :
    c = c' ∧ w = w' := by
  unfold unitKey at h
  omega

/-! ## One word -/

/-- The value a word had in the registry before a store. -/
def oldVal (old : Option RegWord) : BitVec 32 := match old with
  | some r => r.val
  | none => 0

/-- What a store of some bytes of a word leaves in the registry. -/
def RegWord.enter (old : Option RegWord) (v : BitVec 32) (mask : BitVec 4) (g sl : Nat) (atom : BitVec 4) (va : Word) : RegWord :=
  let o := match old with
    | some r => r
    | none => { val := 0, mask := 0, registered := false, exported := false, grain := g, slot := sl }
  { val := BitVec.ofNat 32 ((List.range 4).foldl (fun n i =>
      n + 256 ^ i * ((if mask.getLsbD i then v else oldVal old).toNat / 256 ^ i % 256)) 0)
    mask := if o.registered then o.mask ||| mask else mask
    registered := true
    exported := false
    grain := g
    slot := sl
    atom := (if o.registered && !o.exported then o.atom else 0) ||| atom
    va := va
    placed := o.atHome }

theorem enterWord_eq (s : State) (c w : Nat) (v : BitVec 32) (mask : BitVec 4) (g sl : Nat) (atom : BitVec 4) (va : Word) :
    enterWord s c w v mask g sl atom va
      = { s with reg := put s.reg (unitKey c w) (.enter (find s.reg (unitKey c w)) v mask g sl atom va) } := by
  unfold enterWord RegWord.enter oldVal
  cases find s.reg (unitKey c w) <;> rfl

/-- The bytes of a word after a store: the stored ones, and the others as they were. -/
theorem byte_enter (old : Option RegWord) (v : BitVec 32) (mask : BitVec 4) (g sl : Nat) (atom : BitVec 4) (va : Word) (j : Nat)
    (hj : j < 4) : (RegWord.enter old v mask g sl atom va).val.toNat / 256 ^ j % 256
      = (if mask.getLsbD j then v else oldVal old).toNat / 256 ^ j % 256 := by
  obtain ⟨hlt, hbytes⟩ := byte_sum (fun i => (if mask.getLsbD i then v else oldVal old).toNat / 256 ^ i % 256)
    (fun i => Nat.mod_lt _ (by decide)) 4
  refine Eq.trans ?_ (hbytes j hj)
  unfold RegWord.enter
  dsimp only
  rw [BitVec.toNat_ofNat, Nat.mod_eq_of_lt (show _ < 2 ^ 32 from hlt)]

/-- The bytes a core has of a word after a store. -/
theorem mask_enter_stored (old : Option RegWord) (v : BitVec 32) (mask : BitVec 4) (g sl : Nat) (atom : BitVec 4) (va : Word)
    (j : Nat) (h : mask.getLsbD j = true) : (RegWord.enter old v mask g sl atom va).mask.getLsbD j = true := by
  have hor : ∀ (p : Prop) [Decidable p] (m : BitVec 4), (if p then m ||| mask else mask).getLsbD j = true := by
    intro p _ m
    split
    · rw [BitVec.getLsbD_or, h, Bool.or_true]
    · exact h
  exact hor _ _

theorem mask_enter_registered (r : RegWord) (hr : r.registered = true) (v : BitVec 32) (mask : BitVec 4) (g sl : Nat)
    (atom : BitVec 4) (va : Word) (j : Nat) (h : mask.getLsbD j = false) :
    (RegWord.enter (some r) v mask g sl atom va).mask.getLsbD j = r.mask.getLsbD j := by
  unfold RegWord.enter
  dsimp only
  rw [if_pos hr, BitVec.getLsbD_or, h, Bool.or_false]

/-! ## The words of a store -/

section
variable (c w0 : Nat) (V : Nat → BitVec 32) (M : Nat → BitVec 4) (g sl : Nat) (A : Nat → BitVec 4) (P : Nat → Word)

/-- The `i`-th word of a store enters the registry. -/
def enterAt (i : Nat) (s : State) : State := enterWord s c (w0 + 4 * i) (V i) (M i) g sl (A i) (P i)

theorem enterAt_keeps (i : Nat) (s : State) : { enterAt c w0 V M g sl A P i s with reg := [] } = { s with reg := [] } := by
  rw [enterAt, enterWord_eq]

theorem enterWords_keep (k j : Nat) (s : State) :
    { iterate (enterAt c w0 V M g sl A P) k j s with reg := [] } = { s with reg := [] } :=
  iterate_keeps (fun t => { t with reg := [] } = { s with reg := [] }) _
    (fun i t ht => (enterAt_keeps c w0 V M g sl A P i t).trans ht) k j s rfl

theorem find_enterWords_ne (n : Nat) : ∀ (k j : Nat) (s : State), (∀ i, j ≤ i → i < j + k → n ≠ unitKey c (w0 + 4 * i)) →
    find (iterate (enterAt c w0 V M g sl A P) k j s).reg n = find s.reg n
  | 0, _, _, _ => rfl
  | k + 1, j, s, h => by
    rw [iterate, find_enterWords_ne n k (j + 1) _ fun i hi hk => h i (by omega) (by omega), enterAt, enterWord_eq]
    exact find_put_ne _ _ _ _ (h j (by omega) (by omega))

theorem find_enterWords (i : Nat) : ∀ (k j : Nat) (s : State), j ≤ i → i < j + k →
    find (iterate (enterAt c w0 V M g sl A P) k j s).reg (unitKey c (w0 + 4 * i))
      = some (.enter (find s.reg (unitKey c (w0 + 4 * i))) (V i) (M i) g sl (A i) (P i))
  | 0, j, s, hj, hk => absurd hk (by omega)
  | k + 1, j, s, hj, hk => by
    have hne : ∀ l, l ≠ i → unitKey c (w0 + 4 * i) ≠ unitKey c (w0 + 4 * l) := fun l hl he => by
      unfold unitKey at he
      omega
    rw [iterate]
    by_cases hi : i = j
    · rw [find_enterWords_ne c w0 V M g sl A P _ k (j + 1) _ fun l hl _ => hne l (by omega), hi, enterAt, enterWord_eq]
      exact find_put_same ..
    · rw [find_enterWords i k (j + 1) _ (by omega) (by omega), enterAt, enterWord_eq]
      dsimp only
      rw [find_put_ne _ _ _ _ (hne j (Ne.symm hi))]

end

/-! ## A store of some bytes -/

/-- The words of a store of `n` bytes. -/
def storeWords (a n : Nat) : Nat := (a + n - a / 4 * 4 + 3) / 4

/-- The bytes that a store leaves in its `i`-th word, and the word's value there. -/
def storeMask (a n i : Nat) : BitVec 4 := BitVec.ofNat 4 ((2 ^ n - 1) * 2 ^ (a - a / 4 * 4) / 2 ^ (4 * i))

def storeVal (a n v i : Nat) : BitVec 32 := BitVec.ofNat 32 (v % 2 ^ (8 * n) * 2 ^ (8 * (a - a / 4 * 4)) / 2 ^ (32 * i))

theorem enterBytes_eq (s : State) (c a n v g sl : Nat) (va : Word) : ∃ A P, enterBytes s c a n v g sl va
    = iterate (enterAt c (a / 4 * 4) (storeVal a n v) (storeMask a n) g sl A P) (storeWords a n) 0 s := ⟨_, _, rfl⟩

theorem getLsbD_storeMask (a n i j : Nat) (hj : j < 4) :
    (storeMask a n i).getLsbD j = decide (a ≤ a / 4 * 4 + 4 * i + j ∧ a / 4 * 4 + 4 * i + j < a + n) := by
  have hbit : ((2 ^ n - 1) * 2 ^ (a - a / 4 * 4)).testBit (4 * i + j)
      = decide (a ≤ a / 4 * 4 + 4 * i + j ∧ a / 4 * 4 + 4 * i + j < a + n) := by
    rw [Nat.testBit_mul_two_pow, Nat.testBit_two_pow_sub_one, ← Bool.decide_and, decide_eq_decide]
    omega
  rw [storeMask, BitVec.getLsbD_ofNat, Nat.testBit_div_two_pow, decide_eq_true hj, Bool.true_and, ← hbit, Nat.add_comm]

theorem byte_mod (y n j : Nat) (hj : j < n) : y % 256 ^ n / 256 ^ j % 256 = y / 256 ^ j % 256 := by
  obtain ⟨k, rfl⟩ := Nat.exists_eq_add_of_lt hj
  rw [show j + k + 1 = j + (k + 1) from rfl, Nat.pow_add, Nat.mod_mul_right_div_self, Nat.pow_succ,
    Nat.mod_mul_left_mod]

theorem byte_storeVal (a n v i j : Nat) (hj : j < 4) (hlo : a ≤ a / 4 * 4 + 4 * i + j)
    (hhi : a / 4 * 4 + 4 * i + j < a + n) :
    (storeVal a n v i).toNat / 256 ^ j % 256 = v / 256 ^ (a / 4 * 4 + 4 * i + j - a) % 256 := by
  obtain ⟨d, hd⟩ := Nat.exists_eq_add_of_le hlo
  have hplace : 4 * i + j = a - a / 4 * 4 + d := by omega
  have hpow : ∀ k, 2 ^ (8 * k) = 256 ^ k := fun k => Nat.pow_mul 2 8 k
  rw [hd, Nat.add_sub_cancel_left, storeVal, BitVec.toNat_ofNat, show 32 * i = 8 * (4 * i) by omega, hpow, hpow, hpow,
    show 2 ^ 32 = 256 ^ 4 from rfl, byte_mod _ 4 j hj, Nat.div_div_eq_div_mul, ← Nat.pow_add, hplace, Nat.pow_add, Nat.mul_comm,
    Nat.mul_div_mul_left _ _ (Nat.pow_pos (by decide)), byte_mod v n d (by omega)]

/-! ## What a core reads after a store -/

section
variable {s t : State} (hk : { t with reg := [] } = { s with reg := [] })
include hk

theorem engineHolds_of_reg (w : Nat) : engineHolds t w = engineHolds s w :=
  show engineHolds { t with reg := [] } w = _ from hk ▸ rfl

theorem flipping_of_reg (w : Nat) : flipping t w = flipping s w :=
  show flipping { t with reg := [] } w = _ from hk ▸ rfl

theorem holds_of_reg (d w g sl : Nat) : holds t d w g sl = holds s d w g sl :=
  show holds { t with reg := [] } d w g sl = _ from hk ▸ rfl

theorem homeWord_of_reg (w : Nat) : homeWord t w = homeWord s w :=
  show homeWord { t with reg := [] } w = _ from hk ▸ rfl

theorem die_of_reg : t.die = s.die := show State.die { t with reg := [] } = _ from hk ▸ rfl

/-- A die point reads a byte as before where the core registered there has it as before. -/
theorem dieByte_of_reg (d b g sl : Nat)
    (hreg : ∀ c, find s.die (unitKey d (b / 4 * 4)) = some (.core c) →
      find t.reg (unitKey c (b / 4 * 4)) = find s.reg (unitKey c (b / 4 * 4))
      ∨ ∃ r r', find s.reg (unitKey c (b / 4 * 4)) = some r ∧ find t.reg (unitKey c (b / 4 * 4)) = some r'
        ∧ r'.val.toNat / 2 ^ (8 * (b - b / 4 * 4)) % 256 = r.val.toNat / 2 ^ (8 * (b - b / 4 * 4)) % 256) :
    dieByte t d b g sl = dieByte s d b g sl := by
  unfold dieByte
  simp only [engineHolds_of_reg hk, flipping_of_reg hk, holds_of_reg hk, homeWord_of_reg hk, die_of_reg hk]
  split
  · rfl
  · split
    · rfl
    · next c hc =>
      rcases hreg c hc with he | ⟨r, r', hr, hr', hbyte⟩
      · rw [he]
      · rw [hr, hr', hbyte]
    · rfl

/-- A core reads a byte as before where its registry and its die point have it as before. -/
theorem coreByte_of_reg (c b g sl : Nat) (hdie : dieByte t (coreDie c) b g sl = dieByte s (coreDie c) b g sl)
    (hreg : find t.reg (unitKey c (b / 4 * 4)) = find s.reg (unitKey c (b / 4 * 4))) :
    coreByte t c b g sl = coreByte s c b g sl := by
  unfold coreByte
  simp only [engineHolds_of_reg hk, flipping_of_reg hk, hreg, hdie]

end

section
variable (s : State) (core a n v g sl : Nat) (va : Word)

theorem enterBytes_keeps : { enterBytes s core a n v g sl va with reg := [] } = { s with reg := [] } := by
  obtain ⟨A, P, he⟩ := enterBytes_eq s core a n v g sl va
  rw [he]
  exact enterWords_keep ..

theorem find_enterBytes_other (c w : Nat) (hw : w < 2 ^ 56) (ha : a + n < 2 ^ 56) (h : c ≠ core ∨ w < a / 4 * 4 ∨ a + n ≤ w) :
    find (enterBytes s core a n v g sl va).reg (unitKey c w) = find s.reg (unitKey c w) := by
  obtain ⟨A, P, he⟩ := enterBytes_eq s core a n v g sl va
  rw [he]
  refine find_enterWords_ne _ _ _ _ _ _ _ _ _ _ _ _ fun i _ hi hkey => ?_
  unfold storeWords at hi
  obtain ⟨rfl, hword⟩ := unitKey_inj hw (by omega) hkey
  omega

/-- The entry of a word that a store touches. -/
theorem find_enterBytes (b : Nat) (hlo : a / 4 ≤ b / 4) (hhi : b / 4 * 4 < a + n) : ∃ M V A P,
    find (enterBytes s core a n v g sl va).reg (unitKey core (b / 4 * 4))
      = some (.enter (find s.reg (unitKey core (b / 4 * 4))) V M g sl A P)
    ∧ M.getLsbD (b - b / 4 * 4) = decide (a ≤ b ∧ b < a + n)
    ∧ (a ≤ b → b < a + n → V.toNat / 256 ^ (b - b / 4 * 4) % 256 = v / 256 ^ (b - a) % 256) := by
  obtain ⟨A, P, he⟩ := enterBytes_eq s core a n v g sl va
  have hword : a / 4 * 4 + 4 * (b / 4 - a / 4) = b / 4 * 4 := by omega
  have hbyte : a / 4 * 4 + 4 * (b / 4 - a / 4) + (b - b / 4 * 4) = b := by omega
  have hin : b / 4 - a / 4 < 0 + storeWords a n := by
    unfold storeWords
    omega
  have hfind := find_enterWords core (a / 4 * 4) (storeVal a n v) (storeMask a n) g sl A P (b / 4 - a / 4) (storeWords a n) 0 s
    (Nat.zero_le _) hin
  rw [hword, ← he] at hfind
  refine ⟨_, _, _, _, hfind, ?_, fun h1 h2 => ?_⟩
  · rw [getLsbD_storeMask a n _ _ (by omega), hbyte]
  · have hval := byte_storeVal a n v (b / 4 - a / 4) (b - b / 4 * 4) (by omega) (by omega) (by omega)
    rwa [hbyte] at hval

/-- The core reads back what it has stored. -/
theorem coreByte_stored (i : Nat) (hi : i < n) (hengine : engineHolds s ((a + i) / 4 * 4) = false)
    (hflip : flipping s ((a + i) / 4 * 4) = false) :
    coreByte (enterBytes s core a n v g sl va) core (a + i) g sl = some (v / 256 ^ i % 256) := by
  obtain ⟨M, V, A, P, hfind, hmask, hval⟩ := find_enterBytes s core a n v g sl va (a + i) (by omega) (by omega)
  have hk := enterBytes_keeps s core a n v g sl va
  have hbit : M.getLsbD (a + i - (a + i) / 4 * 4) = true := by
    rw [hmask]
    exact decide_eq_true ⟨by omega, by omega⟩
  unfold coreByte
  simp only [engineHolds_of_reg hk, flipping_of_reg hk, hengine, hflip, Bool.or_self, Bool.false_eq_true, if_false, hfind,
    mask_enter_stored _ _ _ _ _ _ _ _ hbit, if_true]
  rw [Nat.pow_mul, byte_enter _ _ _ _ _ _ _ _ (by omega), if_pos hbit, hval (by omega) (by omega), Nat.add_sub_cancel_left]

/-- Every core reads the other words as before. -/
theorem coreByte_otherWord (c b g' sl' : Nat) (ha : a + n < 2 ^ 56) (hb : b < 2 ^ 56) (_hn : 0 < n)
    (h : b / 4 < a / 4 ∨ (a + n - 1) / 4 < b / 4) :
    coreByte (enterBytes s core a n v g sl va) c b g' sl' = coreByte s c b g' sl' := by
  have hother : ∀ c', find (enterBytes s core a n v g sl va).reg (unitKey c' (b / 4 * 4)) = find s.reg (unitKey c' (b / 4 * 4)) :=
    fun c' => find_enterBytes_other s core a n v g sl va c' _ (by omega) ha (.inr (by omega))
  have hk := enterBytes_keeps s core a n v g sl va
  exact coreByte_of_reg hk c b g' sl' (dieByte_of_reg hk _ b g' sl' fun c' _ => .inl (hother c')) (hother c)

/-- The core reads the other bytes of the words as before, where it had them registered or had none of the word. -/
theorem coreByte_otherByte (b g' sl' : Nat) (ha : a + n < 2 ^ 56) (hb : b < 2 ^ 56) (hn : 0 < n) (h : b < a ∨ a + n ≤ b)
    (hreg : ∀ r, find s.reg (unitKey core (b / 4 * 4)) = some r → r.registered = true)
    (hnone : find s.reg (unitKey core (b / 4 * 4)) = none → find s.die (unitKey (coreDie core) (b / 4 * 4)) ≠ some (.core core)) :
    coreByte (enterBytes s core a n v g sl va) core b g' sl' = coreByte s core b g' sl' := by
  by_cases hword : b / 4 < a / 4 ∨ (a + n - 1) / 4 < b / 4
  · exact coreByte_otherWord s core a n v g sl va core b g' sl' ha hb hn hword
  have hk := enterBytes_keeps s core a n v g sl va
  obtain ⟨M, V, A, P, hfind, hmask, -⟩ := find_enterBytes s core a n v g sl va b (by omega) (by omega)
  have hbit : M.getLsbD (b - b / 4 * 4) = false := by
    rw [hmask]
    exact decide_eq_false (by omega)
  have hbyte : (RegWord.enter (find s.reg (unitKey core (b / 4 * 4))) V M g sl A P).val.toNat / 2 ^ (8 * (b - b / 4 * 4)) % 256
      = (oldVal (find s.reg (unitKey core (b / 4 * 4)))).toNat / 2 ^ (8 * (b - b / 4 * 4)) % 256 := by
    rw [Nat.pow_mul, byte_enter _ _ _ _ _ _ _ _ (by omega), hbit, if_neg Bool.false_ne_true]
  have hdie : dieByte (enterBytes s core a n v g sl va) (coreDie core) b g' sl' = dieByte s (coreDie core) b g' sl' := by
    refine dieByte_of_reg hk _ b g' sl' fun c hc => ?_
    by_cases hcore : c = core
    · subst hcore
      cases hold : find s.reg (unitKey c (b / 4 * 4)) with
      | none => exact absurd hc (hnone hold)
      | some r =>
        rw [hold] at hfind hbyte
        exact .inr ⟨r, _, rfl, hfind, hbyte⟩
    · exact .inl (find_enterBytes_other s core a n v g sl va c _ (by omega) ha (.inl hcore))
  unfold coreByte
  simp only [engineHolds_of_reg hk, flipping_of_reg hk, hdie, hfind, hbyte]
  cases hold : find s.reg (unitKey core (b / 4 * 4)) with
  | none =>
    have hempty : (RegWord.enter none V M g sl A P).mask.getLsbD (b - b / 4 * 4) = false := hbit
    simp only [hempty, Bool.false_eq_true, if_false]
  | some r => simp only [mask_enter_registered r (hreg r hold) _ _ _ _ _ _ _ hbit, oldVal]

end

/-! ## A held store performed -/

section
variable {s r u : State} {q n v : Nat} {va : Word} {x : Xl} {h : Held} (hop : h.op = .store va x n v) (hctl : x.ctl = false)
  (hnear : farPair x n = false)
include hop hctl hnear

theorem perform_store (t : State) (hw : accWrite (fillPiece s q x) (s.agent q) x n v = .ok t) : perform s q h = .ok (t, []) := by
  unfold perform
  simp only [hop, storePerform, hctl, hnear, Bool.false_eq_true, if_false, hw, liftB]
  rfl

/-- A store on the ordering machine's side enters its core's registry. -/
theorem perform_store_line (a g sl : Nat) (av : Word) (t : State)
    (hr : resolve (fillPiece s q x) (s.agent q) x .w = .ok (u, .line a g sl av)) (hlater : atOnce u a sl = false)
    (he : enterStore u (q / 4) a n v g sl av = .ok t) :
    perform s q h = .ok (if 32 ≤ n then clearPoison t a n else t, []) := by
  refine perform_store hop hctl hnear _ ?_
  have he' : enterStore u (s.agent q).core a n v g sl av = .ok t := he
  unfold accWrite
  simp only [hr, ok_bind, writeReady, writeAt, hlater, Bool.false_eq_true, if_false, he']
  rfl

theorem perform_store_atOnce (a g sl : Nat) (av : Word) (u1 t u2 : State)
    (hr : resolve (fillPiece s q x) (s.agent q) x .w = .ok (u, .line a g sl av)) (hnow : atOnce u a sl = true)
    (hp : placeReady u g a n = .ok u1) (hnow1 : atOnce u1 a sl = true) (he : enterStore u1 (q / 4) a n v g sl av = .ok t)
    (hpl : placeNow (if 32 ≤ n then clearPoison t a n else t) (q / 4) a n = .ok u2) : perform s q h = .ok (u2, []) := by
  refine perform_store hop hctl hnear _ ?_
  have he' : enterStore u1 (s.agent q).core a n v g sl av = .ok t := he
  unfold accWrite
  simp only [hr, ok_bind, writeReady, writeAt, hnow, if_true, hp, he', hnow1]
  exact hpl

theorem perform_store_plain (a : Nat) (hr : resolve (fillPiece s q x) (s.agent q) x .w = .ok (u, .plain a)) :
    perform s q h = .ok ({ u with hostMem := Memory.writeN u.hostMem a n v }, []) := by
  refine perform_store hop hctl hnear _ ?_
  unfold accWrite
  simp only [hr, ok_bind, writeReady, writeAt]

theorem perform_store_peer (k : Nat) (l : Option Nat) (u1 : State)
    (hr : resolve (fillPiece s q x) (s.agent q) x .w = .ok (u, .peer k l)) (ht : timedOut u (.seq q) = false)
    (hp : peerWrite u l = .ok u1) : perform s q h = .ok ({ u1 with peerMem := Memory.writeN u1.peerMem k n v }, []) := by
  refine perform_store hop hctl hnear _ ?_
  have ht' : timedOut u (s.agent q).who = false := ht
  unfold accWrite
  simp only [hr, ok_bind, writeReady, writeAt, ht', Bool.false_eq_true, if_false, hp]
  rfl

end

theorem enterStore_room (s : State) (core a n v g sl : Nat) (va : Word) (hroom : s.reg.length < l1Words)
    (hf : flipping s a = false) (hs : splitStore s core a n = false) :
    enterStore s core a n v g sl va = .ok (enterBytes s core a n v g sl va) := by
  have hevict : ∀ l : List Nat, l.foldlM (fun s i => evictWord s core (a / 4 * 4 + 4 * i)) s = .ok s := by
    intro l
    induction l with
    | nil => rfl
    | cons i l ih => rw [List.foldlM_cons, evictWord, if_pos (by rw [decide_eq_true hroom]; rfl), ok_bind, ih]
  unfold enterStore
  simp only [hf, hevict, hs, Bool.false_eq_true, if_false, ok_bind]
  rfl

/-- Settles O30: a store performed writes the place it finds, and in a registry it changes the bytes it stores alone. -/
theorem storesPerformed : Obligations.StoresPerformed := by
  refine ⟨fun s q va x n v h hop hctl hnear => ⟨fun u a g sl av t hr hl he => perform_store_line hop hctl hnear a g sl av t hr hl he,
      fun u a g sl av u1 t u2 hr hn hp hn1 he hpl => perform_store_atOnce hop hctl hnear a g sl av u1 t u2 hr hn hp hn1 he hpl,
      fun u a hr => perform_store_plain hop hctl hnear a hr,
      fun u k l u1 hr ht hp => perform_store_peer hop hctl hnear k l u1 hr ht hp⟩,
    fun h va x v hop hfar => ⟨x.high, rfl, rfl, rfl, ?_⟩, enterStore_room, fun s core a n v g sl va ha _ hn => ?_⟩
  · unfold Held.halves
    rw [hop]
    dsimp only
    rw [if_pos (farPair_far hfar)]
  · have hk := enterBytes_keeps s core a n v g sl va
    exact ⟨fun i hi he hf => coreByte_stored s core a n v g sl va i hi he hf,
      fun c b g' sl' _ hb hw => coreByte_otherWord s core a n v g sl va c b g' sl' ha hb hn hw,
      fun b g' sl' hb ho hreg hnone => coreByte_otherByte s core a n v g sl va b g' sl' ha hb hn ho hreg hnone,
      (congrArg State.mem hk :), (congrArg State.hostMem hk :), (congrArg State.peerMem hk :), (congrArg State.die hk :),
      (congrArg State.lines hk :), (congrArg State.seqs hk :)⟩

end Sys2Proof.Machine
end

