-- ==== Sys2Proof/Proofs/HeldResults.lean ====
section
/-!
A held instruction performed and an outstanding load returned (R16, R18, R30, R163), wherever the sequencer runs ahead.
-/
namespace Sys2Proof.Machine

/-- A step of a sequencer the device has goes on. -/
theorem stepOf_seq {q : Nat} (hq : q < 2048) (s : State) : stepOf (isSeq q) s = .next s := by
  rw [isSeq, decide_eq_true hq]
  rfl

theorem backEnd_ok {s t : State} {q : Nat} {f : State → Nat → Except Stop State} (h : f s q = .ok t) : backEnd s q f = t := by
  rw [backEnd, h]

theorem ord_halves_held (h : Held) : h.halves.1.ord = h.ord := by
  unfold Held.halves
  split
  · split <;> rfl
  · rfl

theorem ord_halves_load (l : Load) : l.halves.1.ord = l.ord := by
  unfold Load.halves
  split <;> rfl

/-- The oldest held instruction, once it may be, is performed and its results delivered. -/
theorem heldStep_performs {s t : State} {q : Nat} {h : Held} {r : List Held} {rs : List (Nat × Word)}
    (hsb : (s.ctx q).sb = h :: r) (hmay : (s.ctx q).mayPerform h = true) (hp : perform s q h.halves.1 = .ok (t, rs)) :
    heldStep s q = .ok (performedState t q h.ord rs h.halves.2) := by
  unfold heldStep
  simp only [hsb, hmay, Bool.not_true, Bool.false_eq_true, if_false, hp, ord_halves_held]
  rfl

/-- An outstanding load, once its older accesses allow it, takes its data and delivers them. -/
theorem loadStep_returns {s t : State} {q n : Nat} {l : Load} {rs : List (Nat × Word)} (hl : (s.ctx q).loads[n]? = some l)
    (hmay : l.probe.isSome = true ∨ (s.ctx q).mayRead l.ord l.x l.n = true ∧ (s.ctx q).acquireWaits l = false)
    (hp : loadData s q l.halves.1 = .ok (t, rs)) :
    loadStep s q n = .ok (t.setCtx q (rs.foldl (fun (d : Ctx) r => d.deliver r.1 r.2 l.ord)
      { t.ctx q with loads := (t.ctx q).loads.take n ++ l.halves.2.toList ++ (t.ctx q).loads.drop (n + 1) })) := by
  have hgo : (l.probe.isNone && (!(s.ctx q).mayRead l.ord l.x l.n || (s.ctx q).acquireWaits l)) = false := by
    rcases hmay with hprobe | ⟨hread, hacq⟩
    · obtain ⟨k, hk⟩ := Option.isSome_iff_exists.mp hprobe
      rw [hk, Option.isNone_some, Bool.false_and]
    · rw [hread, hacq, Bool.not_true, Bool.or_self, Bool.and_false]
  unfold loadStep
  simp only [hl, hgo, Bool.false_eq_true, if_false, hp, liftB, ord_halves_load]

/-- Settles O32: what is performed or returned leaves its place in the queue and fills its destinations. -/
theorem resultsDelivered : Obligations.ResultsDelivered := by
  refine ⟨fun s q h r t rs hq hsb hmay hp => ⟨?_, fun htail => ?_⟩, fun s q n l t rs hq hl hmay hp => ?_⟩
  · show execHeldPerform q s = _
    rw [execHeldPerform, backEnd_ok (heldStep_performs hsb hmay hp), stepOf_seq hq]
  · rw [performedState, State.ctx_setCtx, htail]
    rfl
  · show execLoadReturn q n s = _
    rw [execLoadReturn, backEnd_ok (loadStep_returns hl hmay hp), stepOf_seq hq]

end Sys2Proof.Machine
end

