-- ==== Sys2Proof/Proofs/SpecialRegisters.lean ====
section
/-!
rdspr and wrspr register by register (R181, R182), and the vector configuration (R206, R207).
-/
namespace Sys2Proof.Machine

/-! ## rdspr -/

theorem rdspr_reads {x : RdSpr} {s : State} {v : Word} (hs : OnScalar s) (hd : Ready s x.d.val)
    (hr : readSpr s s.cur x.spr.toNat = some v) (hb : s.c.sprBusy x.spr.toNat = false) :
    exec (.rdspr x) s = .next (wrote s x.d.val v) := by
  show execRdspr x s = _
  unfold Ready at hd
  unfold execRdspr
  simp only [hr, notLane_ok s hs, ok_bind, hb, Bool.false_eq_true, if_false, hd]
  rfl

theorem rdspr_refused {x : RdSpr} {s : State} (hr : readSpr s s.cur x.spr.toNat = none) :
    exec (.rdspr x) s = .next (trapped s cILLEGAL 0 (word (0x1F + x.enc))) := by
  show execRdspr x s = _
  unfold execRdspr
  simp only [hr]
  exact settle_classA s _ _ _

theorem readSpr_loop (s : State) (q i : Nat) (hi : i < 6) : readSpr s q (0x020 + i)
    = some (if (vget (s.ctx q).sc.loops i {}).count = 0 then 0 else (vget (s.ctx q).sc.loops i {}).index) := by
  interval_cases i <;> rfl

/-- The numbers of the special registers that can be read (R181). -/
def sprNumbers : List Nat :=
  [0, 1, 2, 3, 4, 5, 0x10, 0x11, 0x12, 0x13, 0x14, 0x20, 0x21, 0x22, 0x23, 0x24, 0x25, 0x30, 0x31, 0x32, 0x33, 0x34, 0x40, 0x41,
    0x50, 0x51, 0x60, 0x61]

theorem readSpr_isSome_iff (s : State) (q n : Nat) : (readSpr s q n).isSome = true ↔ n ∈ sprNumbers := by
  unfold readSpr sprNumbers
  dsimp only
  split <;> simp_all

theorem root_shift (r : BitVec 36) : r.setWidth 64 <<< 12 = 4096 * r.setWidth 64 := by
  rw [BitVec.shiftLeft_eq_mul_twoPow, BitVec.mul_comm]
  rfl

/-- Settles O34: rdspr writes what the register reads as, where its number is one of the table's. -/
theorem specialReads : Obligations.SpecialReads := by
  intro x s hs hd
  have hread : ∀ n v, readSpr s s.cur n = some v → x.spr.toNat = n → s.c.sprBusy n = false →
      exec (.rdspr x) s = .next (wrote s x.d.val v) := by
    rintro n v hr rfl hb
    exact rdspr_reads hs hd hr hb
  refine ⟨hread _ _ rfl, hread _ _ rfl, hread _ _ rfl, hread _ _ rfl, hread _ _ rfl, hread _ _ rfl, hread _ _ rfl, hread _ _ rfl,
    hread _ _ rfl, hread _ _ rfl, hread _ _ rfl, fun i hi => hread _ _ (readSpr_loop s s.cur i hi), hread _ _ rfl, hread _ _ rfl,
    hread _ _ rfl, hread _ _ rfl, hread _ _ rfl, hread _ _ rfl, hread _ _ rfl, hread _ _ rfl,
    hread _ _ (congrArg some (root_shift s.c.root)), hread _ _ rfl, hread _ _ rfl, rdspr_refused, readSpr_isSome_iff s s.cur _⟩

/-! ## wrspr -/

theorem wrspr_writes {x : WrSpr} {s : State} {v : Word} (hs : OnScalar s) (hv : Reads s x.a.val v)
    (hw : sprWritable x.spr.toNat = true) (hh : s.c.sprHolds x.spr.toNat = false)
    (htag : x.spr.toNat = 0 → tagKnown s.c.sc.cfgTag.toNat = true) (hrm : x.spr.toNat = 4 → v.toNat % 8 < 6) :
    exec (.wrspr x) s = .next (s.withC (s.c.writeSpr x.spr.toNat v true).advance) := by
  show execWrspr x s = _
  have h0 : ¬(x.spr.toNat = 0 ∧ (!tagKnown s.c.sc.cfgTag.toNat) = true) := fun ⟨h, hn⟩ => by
    rw [htag h] at hn
    exact Bool.false_ne_true hn
  have h4 : ¬(x.spr.toNat = 4 ∧ 6 ≤ v.toNat % 8) := fun ⟨h, hn⟩ => absurd (hrm h) (by omega)
  unfold execWrspr
  simp only [hw, Bool.not_true, Bool.false_eq_true, if_false, notLane_ok s hs, ok_bind, hv _ _, hh, h0, h4]
  rfl

theorem wrspr_refused {x : WrSpr} {s : State} (hw : sprWritable x.spr.toNat = false) :
    exec (.wrspr x) s = .next (trapped s cILLEGAL 0 (word (0x4000001F + x.enc))) := by
  show execWrspr x s = _
  unfold execWrspr
  simp only [hw, Bool.not_false, if_true, throw, throwThe, MonadExceptOf.throw, error_bind]
  exact settle_classA s _ _ _

theorem wrspr_badTag {x : WrSpr} {s : State} {v : Word} (hs : OnScalar s) (hv : Reads s x.a.val v) (h0 : x.spr = 0)
    (hh : s.c.sprHolds 0 = false) (htag : tagKnown s.c.sc.cfgTag.toNat = false) :
    exec (.wrspr x) s = .next (trapped s cTAG 0 (word (0x4000001F + x.enc))) := by
  have hn : x.spr.toNat = 0 := congrArg BitVec.toNat h0
  show execWrspr x s = _
  unfold execWrspr
  simp only [hn, show sprWritable 0 = true from rfl, Bool.not_true, Bool.false_eq_true, if_false, notLane_ok s hs, ok_bind, hv _ _,
    hh, htag, Bool.not_false, and_self, if_true, throw, throwThe, MonadExceptOf.throw, error_bind]
  exact settle_classA s _ _ _

theorem wrspr_badRm {x : WrSpr} {s : State} {v : Word} (hs : OnScalar s) (hv : Reads s x.a.val v) (h4 : x.spr = 4)
    (hrm : 6 ≤ v.toNat % 8) : exec (.wrspr x) s = .next (trapped s cILLEGAL 0 (word (0x4000001F + x.enc))) := by
  have hn : x.spr.toNat = 4 := congrArg BitVec.toNat h4
  show execWrspr x s = _
  unfold execWrspr
  simp only [hn, show sprWritable 4 = true from rfl, Bool.not_true, Bool.false_eq_true, if_false, notLane_ok s hs, ok_bind, hv _ _,
    show s.c.sprHolds 4 = false from rfl, show ¬(4 = 0 ∧ (!tagKnown s.c.sc.cfgTag.toNat) = true) from fun h => absurd h.1 (by decide),
    hrm, and_self, if_true, throw, throwThe, MonadExceptOf.throw, error_bind]
  exact settle_classA s _ _ _

/-- The numbers of the special registers that can be written (R181). -/
def sprWritables : List Nat := [0, 1, 2, 3, 4, 5, 0x10, 0x11, 0x12, 0x13, 0x14, 0x20, 0x21, 0x22, 0x23, 0x24, 0x25, 0x60, 0x61]

theorem sprWritable_of_not_mem {n : Nat} (h : n ∉ sprWritables) : sprWritable n = false := by
  rw [Bool.eq_false_iff]
  intro hw
  simp only [sprWritable, Bool.or_eq_true, Bool.and_eq_true, decide_eq_true_eq, beq_iff_eq] at hw
  simp only [sprWritables, List.mem_cons, List.not_mem_nil, or_false] at h
  omega

theorem writeSpr_loop {c : Ctx} {i : Nat} (v : Word) (hi : i < 6) (h : (vget c.sc.loops i {}).count ≠ 0) :
    c.writeSpr (0x020 + i) v true
      = { c with sc := { c.sc with loops := vset c.sc.loops i { vget c.sc.loops i {} with index := v } } } := by
  interval_cases i <;> exact if_neg h

theorem writeSpr_emptyLoop {c : Ctx} {i : Nat} (v : Word) (hi : i < 6) (h : (vget c.sc.loops i {}).count = 0) :
    c.writeSpr (0x020 + i) v true = { c with sc := c.sc } := by
  interval_cases i <;> exact if_pos h

theorem sprWritable_loop {i : Nat} (hi : i < 6) : sprWritable (0x020 + i) = true := by
  interval_cases i <;> rfl

theorem getLsbD_flagsWritten (v : Word) (i : Nat) (hi : i < 15) :
    ((v &&& 0x7F7F).setWidth 15).getLsbD i = (v.getLsbD i && i != 7) := by
  rw [BitVec.getLsbD_setWidth, BitVec.getLsbD_and, decide_eq_true hi, Bool.true_and]
  congr 1
  interval_cases i <;> rfl

theorem getLsbD_tvecWritten (v : Word) (i : Nat) (hi : i < 64) : (v &&& ~~~(2 : Word)).getLsbD i = (v.getLsbD i && i != 1) := by
  rw [BitVec.getLsbD_and]
  congr 1
  interval_cases i <;> rfl

/-- Settles O35: each writable register takes the bits it has. -/
theorem specialWrites : Obligations.SpecialWrites := by
  intro x s v hs hv
  have hgives : ∀ (n : Nat) (d : Ctx), sprWritable n = true → (n = 0 → tagKnown s.c.sc.cfgTag.toNat = true) →
      (n = 4 → v.toNat % 8 < 6) → s.c.writeSpr n v true = d → x.spr.toNat = n → s.c.sprHolds n = false →
      exec (.wrspr x) s = .next (s.withC d.advance) := by
    rintro n d hw htag hrm rfl rfl hh
    exact wrspr_writes hs hv hw hh htag hrm
  have hplain : ∀ (n : Nat) (d : Ctx), sprWritable n = true → n ≠ 0 → n ≠ 4 → s.c.writeSpr n v true = d → x.spr.toNat = n →
      s.c.sprHolds n = false → exec (.wrspr x) s = .next (s.withC d.advance) :=
    fun n d hw h0 h4 => hgives n d hw (fun h => absurd h h0) (fun h => absurd h h4)
  refine ⟨fun htag => hgives 0 _ rfl (fun _ => htag) (fun h => absurd h (by decide)) ?_, fun htag h0 hh => wrspr_badTag hs hv h0 hh htag,
    hplain 1 _ rfl (by decide) (by decide) ?_, hplain 2 _ rfl (by decide) (by decide) ?_,
    fun h3 hh => ⟨_, hplain 3 _ rfl (by decide) (by decide) rfl (congrArg BitVec.toNat h3) hh, getLsbD_flagsWritten v⟩,
    fun hrm => hgives 4 _ rfl (fun h => absurd h (by decide)) (fun _ => hrm) (if_pos hrm), fun hrm h4 => wrspr_badRm hs hv h4 hrm,
    fun h5 hh => hplain 5 _ rfl (by decide) (by decide) rfl (congrArg BitVec.toNat h5) hh,
    ⟨v &&& ~~~(2 : Word), hplain 0x10 _ rfl (by decide) (by decide) rfl, getLsbD_tvecWritten v⟩,
    hplain 0x11 _ rfl (by decide) (by decide) rfl, hplain 0x12 _ rfl (by decide) (by decide) rfl,
    hplain 0x13 _ rfl (by decide) (by decide) rfl, hplain 0x14 _ rfl (by decide) (by decide) rfl,
    fun i hi hc => hplain _ _ (sprWritable_loop hi) (by omega) (by omega) (writeSpr_loop v hi hc),
    fun i hi hc => hplain _ _ (sprWritable_loop hi) (by omega) (by omega) (writeSpr_emptyLoop v hi hc),
    hplain 0x60 _ rfl (by decide) (by decide) rfl, hplain 0x61 _ rfl (by decide) (by decide) rfl,
    fun hn => wrspr_refused (sprWritable_of_not_mem hn)⟩
  · simp only [Ctx.writeSpr, htag, if_true]
  · simp only [Ctx.writeSpr, Bool.or_true]
  · simp only [Ctx.writeSpr, Bool.or_true]

/-! ## vtag and setvl -/

theorem vget_configured {n : Nat} (v : Vector VCfg n) (d : Nat) (g : VCfg) (k r : Nat) (hr : r < n) :
    vget ((List.range k).foldl (fun v i => vset v (d + i) g) v) r {} = if d ≤ r ∧ r < d + k then g else vget v r {} := by
  induction k with
  | zero => rw [if_neg (by omega)]; rfl
  | succ k ih =>
    rw [List.range_succ, List.foldl_append]
    simp only [List.foldl_cons, List.foldl_nil]
    by_cases h : r = d + k
    · subst h
      rw [vget_vset_same _ _ _ _ hr, if_pos (by omega)]
    · rw [vget_vset_ne _ _ _ _ _ h, ih]
      exact if_congr (by omega) rfl rfl

/-- The context after setvl, before it goes on. -/
def Ctx.configured (c : Ctx) (d n : Nat) (tag : BitVec 5) (grp : Fin 4) : Ctx :=
  { c.setS d (word n) with sc := { (c.setS d (word n)).sc with vl := n, cfgTag := tag, cfgGrp := grp } }

theorem put_scalar {s : State} (hs : OnScalar s) (d : Nat) (r : Word) : s.c.put d r = s.c.setS d r := by
  unfold OnScalar at hs
  simp only [Ctx.put, hs, Bool.false_eq_true, if_false]

theorem getS_configured (c : Ctx) (d n r : Nat) (tag : BitVec 5) (grp : Fin 4) :
    (c.configured d n tag grp).getS r = (c.setS d (word n)).getS r := rfl

theorem vcfg_configured (c : Ctx) (d n : Nat) (tag : BitVec 5) (grp : Fin 4) :
    (c.configured d n tag grp).sc.vcfg = c.sc.vcfg := by
  show (c.setS d (word n)).sc.vcfg = c.sc.vcfg
  unfold Ctx.setS
  split <;> rfl

theorem exec_setvl {x : SetVl} {s : State} {a : Word} (hs : OnScalar s) (ha : Reads s x.a.val a) (hq : s.c.vqWritesVl = false)
    (hd : Ready s x.d.val) : exec (.setvl x) s = .next (s.withC
      (s.c.configured x.d.val (min a.toNat (vlmax x.tag.toNat x.grp.val)) x.tag x.grp).advance) := by
  show execSetvl x s = _
  unfold Ready at hd
  unfold execSetvl
  simp only [notLane_ok s hs, ok_bind, ha _ _, hq, Bool.false_eq_true, if_false, hd, put_scalar hs]
  rfl

/-- Settles O36: vtag configures the registers of its group, and setvl bounds vl by its configuration. -/
theorem vectorConfiguration : Obligations.VectorConfiguration := by
  refine ⟨fun x s hs _ => ⟨_, ?_, fun r hr => vget_configured _ _ _ _ r hr⟩, fun x s a hs ha hq hd => ⟨_, exec_setvl hs ha hq hd,
    ?_, rfl, rfl, rfl, vcfg_configured .., fun r _ hr => Ctx.getS_setS_ne _ _ _ _ hr, Ctx.setS_v .., Ctx.setS_feV ..⟩⟩
  · show execVtag x s = _
    unfold execVtag
    rw [notLane_ok s hs]
    rfl
  · rw [getS_configured]
    split
    · next h0 => rw [h0]; rfl
    · next h0 => exact Ctx.getS_setS _ _ _ (fun h => h0 (Fin.ext h)) x.d.isLt

end Sys2Proof.Machine
end

