-- ==== Sys2Proof/Proofs/Sleeping.lean ====
section
/-!
The sleeping forms (R173, R174, R176): what a waita and a barrier wait read, and when they go on.
-/
namespace Sys2Proof.Machine

theorem c_withC (s : State) (c : Ctx) : (s.withC c).c = c := State.ctx_setCtx ..

theorem wait_withC (t : State) (c : Ctx) (w : Option Wait) : ((t.withC { c with wait := w }).ctx t.cur).wait = w := by
  rw [State.ctx_setCtx]

/-! ## waita -/

section
variable {u u1 u' : State} {q d k v : Nat} {a b : Word} {p p1 : Xl} {limit : Option Nat}

/-- A waita that reads: it goes on where its condition holds or its limit has passed, and else sleeps on. -/
theorem waitaRead_reads (hw : (u.ctx q).wait = some (.waita d k a p b limit))
    (hp : accessPlace u q (u.ctx q).sc.pc a .r true = .ok (u1, p1))
    (hm : ((u1.setCtx q { u1.ctx q with wait := some (.waita d k a p1 b limit) }).ctx q).mayRead (u.ctx q).ord p1 8 = true)
    (hr : readHere (watchAnew (u1.setCtx q { u1.ctx q with wait := some (.waita d k a p1 b limit) }) q p1) q (u.ctx q).ord p1 8
      = .ok (u', v)) :
    waitaRead u q = .ok (if waitaCond k (word v) b || pastLimit u' limit then u'.setCtx q ((u'.ctx q).awake d (word v)) else u') := by
  unfold waitaRead
  simp only [hw, hp, ok_bind, hm, Bool.not_true, Bool.false_eq_true, if_false, hr, liftB]
  rfl

end

theorem exec_waita {x : WaitaF} {s t : State} {a b c : Word} {p : Xl} (hs : OnScalar s) (ha : Reads s x.a.val a)
    (hb : Reads s x.b.val b) (hc : Reads s x.c.val c) (hd : Ready s x.d.val) (ht : Translates s a 8 .r true t p) :
    exec (.waita x) s = .next (sleepOn t x.d.val (.waita x.d.val x.cond.val a p b
      (if c = BitVec.allOnes 64 then none else some (t.time + c.toNat))) waitaRead) := by
  show execWaita x s = _
  unfold Translates at ht
  unfold Ready at hd
  rw [execWaita, notLane_ok s hs, ok_bind, ha, ok_bind, hb, ok_bind, hc, ok_bind, hd, ok_bind, ht]
  rfl

theorem readAgain_ok {u u' : State} {q : Nat} {f : State → Nat → Except Stop State} (h : f u q = .ok u') : readAgain u q f = u' := by
  rw [readAgain, h]

theorem waitaCond_iff (k : Nat) (v b : Word) : waitaCond k v b = true ↔ (match k with
    | 0 => v = b
    | 1 => v ≠ b
    | 2 => b.toInt ≤ v.toInt
    | _ => b.toNat ≤ v.toNat) := by
  match k with
  | 0 => exact beq_iff_eq
  | 1 => exact bne_iff_ne
  | 2 =>
    show (!v.slt b) = true ↔ b.toInt ≤ v.toInt
    rw [BitVec.slt_eq_decide, Bool.not_eq_true', decide_eq_false_iff_not, Int.not_lt]
  | _ + 3 =>
    show (!v.ult b) = true ↔ b.toNat ≤ v.toNat
    rw [BitVec.ult_eq_decide, Bool.not_eq_true', decide_eq_false_iff_not, Nat.not_lt]

theorem pastLimit_iff (s : State) (limit : Option Nat) : pastLimit s limit = true ↔ ∃ l, limit = some l ∧ l ≤ s.time := by
  cases limit with
  | none => simp [pastLimit]
  | some l => simp [pastLimit]

/-! ## Barrier waits -/

section
variable {u u1 u' y : State} {q d v v2 sc : Nat} {a : Word} {p p1 : Xl} {gen : BitVec 16} {aw : Bool}

/-- A barrier wait on the plain host path, which has no such read. -/
theorem barRead_host (hw : (u.ctx q).wait = some (.bar d a p gen sc aw))
    (hp : accessPlace u q (u.ctx q).sc.pc a .r false = .ok (u1, p1)) (hh : p1.host = true)
    (hc : coherent (u1.setCtx q { u1.ctx q with wait := some (.bar d a p1 gen sc aw) })
      ((u1.setCtx q { u1.ctx q with wait := some (.bar d a p1 gen sc aw) }).pnum q) = false) :
    barRead u q = .error (.trap (classB cHOST_ABORT 0x03 a (u.ctx q).sc.pc) none) := by
  unfold barRead
  simp only [hw, hp, ok_bind, hh, hc, Bool.not_false, and_self, if_true, throw, throwThe, MonadExceptOf.throw, error_bind]

/-- A barrier wait that reads: it sleeps on in the generation it waits behind, and else goes on with an acquire. -/
theorem barRead_reads (hw : (u.ctx q).wait = some (.bar d a p gen sc aw))
    (hp : accessPlace u q (u.ctx q).sc.pc a .r false = .ok (u1, p1))
    (hh : p1.host = false ∨ coherent (u1.setCtx q { u1.ctx q with wait := some (.bar d a p1 gen sc aw) })
      ((u1.setCtx q { u1.ctx q with wait := some (.bar d a p1 gen sc aw) }).pnum q) = true)
    (hm : ((u1.setCtx q { u1.ctx q with wait := some (.bar d a p1 gen sc aw) }).ctx q).mayRead (u.ctx q).ord p1 8 = true)
    (hr : readHere (watchAnew (u1.setCtx q { u1.ctx q with wait := some (.bar d a p1 gen sc aw) }) q p1) q (u.ctx q).ord p1 8
      = .ok (u', v)) :
    barRead u q = if BitVec.ofNat 16 (v / 2 ^ 32) = gen then .ok u'
      else if (u'.ctx q).ownAhead (u.ctx q).ord p1 8 sc then .error (.wait u')
      else (liftB a (u.ctx q).sc.pc (acquireRead u' q (u.ctx q).ord p1 8 sc)).map fun r =>
        if BitVec.ofNat 16 (r.2 / 2 ^ 32) = gen then r.1 else r.1.setCtx q ((r.1.ctx q).awake d (word r.2)) := by
  have hgo : ¬(p1.host = true ∧ (!coherent (u1.setCtx q { u1.ctx q with wait := some (.bar d a p1 gen sc aw) })
      ((u1.setCtx q { u1.ctx q with wait := some (.bar d a p1 gen sc aw) }).pnum q)) = true) := by
    rintro ⟨h1, h2⟩
    rcases hh with h | h
    · exact Bool.false_ne_true (h.symm.trans h1)
    · rw [h] at h2
      exact Bool.false_ne_true h2
  unfold barRead
  simp only [hw, hp, ok_bind, hgo, if_false, hm, Bool.not_true, Bool.false_eq_true, hr, liftB]
  split
  · rfl
  · split
    · rfl
    · cases acquireRead u' q (u.ctx q).ord p1 8 sc with
      | ok r => rfl
      | error e => cases e <;> rfl

end

theorem exec_barWait {x : BarF} {s t : State} {a b : Word} {p : Xl} (hs : OnScalar s) (ha : Reads s x.a.val a)
    (hb : Reads s x.b.val b) (hd : Ready s x.d.val) (ht : Translates s a 8 .r false t p) :
    exec (.barWait x) s = .next (sleepOn t x.d.val (.bar x.d.val a p (b.setWidth 16) x.sc.val false) barRead) := by
  show execBarWait x s = _
  unfold Translates at ht
  unfold Ready at hd
  rw [execBarWait, notLane_ok s hs, ok_bind, ha, ok_bind, hb, ok_bind, hd, ok_bind, ht]
  rfl

/-- What a bar.aw comes down to: it sleeps behind an arrival that a squash has kept, or its arrival is held. -/
theorem exec_barAw {x : BarF} {s t : State} {a b : Word} {p : Xl} (hs : OnScalar s) (ha : Reads s x.a.val a)
    (hb : Reads s x.b.val b) (hd : Ready s x.d.val) (ht : Translates s a 8 .rw false t p) :
    exec (.barAw x) s = settle s (if t.c.awDone then
        .ok (sleepOn (t.withC { t.c with awDone := false }) x.d.val
          (.bar x.d.val a p (t.withC { t.c with awDone := false }).c.awGen x.sc.val true) barRead)
      else (hold t (.barAw a p (b.setWidth 32) x.sc.val x.d.val) (0x1000001B + x.enc) [x.d.val] id).map fun u =>
        if u.c.wait.isSome then readAgain u u.cur barRead else u) := by
  show execBarAw x s = _
  unfold Translates at ht
  unfold Ready at hd
  rw [execBarAw, notLane_ok s hs, ok_bind, ha, ok_bind, hb, ok_bind, hd, ok_bind, ht, ok_bind]
  dsimp only
  cases hold t (.barAw a p (b.setWidth 32) x.sc.val x.d.val) (0x1000001B + x.enc) [x.d.val] id <;> rfl

theorem wait_heldState (t : State) (op : HeldOp) (w d : Nat) : (heldState t op w [d] id).c.wait = t.c.wait := by
  have hc : (heldState t op w [d] id).c = ({ t.c with sb := t.c.sb ++ [heldAs t op w] } : Ctx).empty d := State.ctx_setCtx ..
  rw [hc]
  unfold Ctx.empty
  split <;> rfl

/-- An update of the plain host path that has no such request stops with HOST_ABORT. -/
theorem accUpdate_barHost {t : State} {g : Agent} {x : Xl} {n sc : Nat} {f : Nat → Option Nat} (hsl : slotCheck t x = .ok ())
    (hh : x.host = true) (hc : coherent t g.part = false) :
    accUpdate t g x n sc .bar f = .error (.stop cHOST_ABORT 0x03 none none) := by
  unfold accUpdate
  simp only [hsl, ok_bind, hh, hc, Bool.not_true, Bool.or_self, Bool.and_false, Bool.false_eq_true, if_false, if_true, atomRefused]
  rfl

theorem arrivePerform_host {s t : State} {q amt sc : Nat} {x : Xl} (hr : releaseAt s q sc = .ok t)
    (hsl : slotCheck t x = .ok ()) (hh : x.host = true) (hc : coherent t (t.pnum q) = false) :
    arrivePerform s q x amt sc = .error (.stop cHOST_ABORT 0x03 none none) := by
  unfold arrivePerform
  rw [hr, ok_bind]
  exact accUpdate_barHost hsl hh hc

theorem perform_barArr {s : State} {q : Nat} {h : Held} {va : Word} {x : Xl} {amt : BitVec 32} {sc d : Nat}
    (hop : h.op = .barArr va x amt sc d) : perform s q h
      = (liftB va h.ipc (arrivePerform s q x amt.toNat sc)).map fun r => (r.1, [(d, word r.2)]) := by
  unfold perform
  rw [hop]
  dsimp only
  cases liftB va h.ipc (arrivePerform s q x amt.toNat sc) <;> rfl

theorem perform_barAw {s : State} {q : Nat} {h : Held} {va : Word} {x : Xl} {amt : BitVec 32} {sc d : Nat}
    (hop : h.op = .barAw va x amt sc d) : perform s q h
      = (liftB va h.ipc (arrivePerform s q x amt.toNat sc)).map fun r => (r.1.setCtx q
        { r.1.ctx q with wait := some (.bar d va x (BitVec.ofNat 16 (r.2 / 2 ^ 32)) sc true) }, []) := by
  unfold perform
  rw [hop]
  dsimp only
  cases liftB va h.ipc (arrivePerform s q x amt.toNat sc) <;> rfl

/-- Settles O33: each form reads once as it executes, and goes on where what it reads lets it. -/
theorem sleepers : Obligations.Sleepers := by
  refine ⟨fun x s a b c t p hs ha hb hc hd ht u1 p1 hp u' v hm hr => ?_,
    fun x s a b t p hs ha hb hd ht u1 p1 hp => ⟨fun hh hc => ?_, fun u' v hh hm hr => ?_⟩,
    fun x s a b t p hs ha hb hd ht => ⟨fun haw hdt => ⟨fun hah hw => ?_, fun y rs hst hpf => ?_⟩, fun haw => ?_⟩,
    fun s q h va x n sc d t hop hh hrel hsl hc => ?_, fun s q h va x amt sc d t w hw n hn => ?_⟩
  · have hw : ((t.withC { t.c.empty x.d.val with wait := some (.waita x.d.val x.cond.val a p b
        (if c = BitVec.allOnes 64 then none else some (t.time + c.toNat))) }).ctx t.cur).wait = _ := wait_withC ..
    rw [exec_waita hs ha hb hc hd ht, sleepOn, readAgain_ok (waitaRead_reads hw hp hm hr)]
    refine ⟨fun hgo => congrArg _ (if_pos ?_), fun hcond hlim => congrArg _ (if_neg ?_)⟩
    · rw [Bool.or_eq_true, waitaCond_iff, pastLimit_iff]
      exact hgo
    · rw [Bool.or_eq_true, waitaCond_iff, pastLimit_iff]
      rintro (hgo | ⟨l, hl, hle⟩)
      · exact hcond hgo
      · exact absurd (hlim l hl) (Nat.not_lt.mpr hle)
  · have hw : ((t.withC { t.c.empty x.d.val with wait := some (.bar x.d.val a p (b.setWidth 16) x.sc.val false) }).ctx t.cur).wait = _ :=
      wait_withC ..
    rw [exec_barWait hs ha hb hd ht, sleepOn, readAgain, barRead_host hw hp hh hc]
    rfl
  · have hw : ((t.withC { t.c.empty x.d.val with wait := some (.bar x.d.val a p (b.setWidth 16) x.sc.val false) }).ctx t.cur).wait = _ :=
      wait_withC ..
    have hread := barRead_reads hw hp hh hm hr
    rw [exec_barWait hs ha hb hd ht, sleepOn]
    refine ⟨fun hgen => ?_, fun y v2 hgen hown hacq => ?_⟩
    · rw [if_pos hgen] at hread
      rw [readAgain_ok hread]
    · rw [if_neg hgen, hown, if_neg Bool.false_ne_true, hacq] at hread
      rw [readAgain_ok hread]
      exact ⟨fun h2 => congrArg _ (if_pos h2), fun h2 => congrArg _ (if_neg h2)⟩
  · rw [exec_barAw hs ha hb hd ht, if_neg (by rw [haw]; exact Bool.false_ne_true),
      hold_ahead t _ _ _ _ (ready_one hdt) hah]
    refine congrArg _ (if_neg ?_)
    rw [wait_heldState, hw]
    exact Bool.false_ne_true
  · rw [exec_barAw hs ha hb hd ht, if_neg (by rw [haw]; exact Bool.false_ne_true),
      hold_inStep t _ _ _ id (ready_one hdt) (fun _ => ⟨rfl, rfl, rfl, rfl⟩) hst y rs hpf]
    rfl
  · have hgen : (t.withC { t.c with awDone := false }).c.awGen = t.c.awGen := by
      rw [c_withC]
    rw [exec_barAw hs ha hb hd ht, if_pos haw, hgen]
    rfl
  · have hlift : liftB va h.ipc (arrivePerform s q x n.toNat sc) = .error (.trap (classB cHOST_ABORT 0x03 va h.ipc) none) := by
      rw [arrivePerform_host hrel hsl hh hc]
      rfl
    rcases hop with hop | hop
    · rw [perform_barArr hop, hlift]
      rfl
    · rw [perform_barAw hop, hlift]
      rfl
  · subst hn
    refine ⟨fun hop => ?_, fun hop => ?_⟩
    · rw [perform_barArr hop, hw]
      rfl
    · rw [perform_barAw hop, hw]
      rfl

end Sys2Proof.Machine
end

