-- ==== Sys2Proof/Proofs/VectorIssue.lean ====
section
/-!
The acceptance of a vector-queue instruction (R14, R96, R234, R237): its checks in their order, and what it captures.
-/
namespace Sys2Proof.Machine

/-- A form of the vector queue is issued as one. -/
theorem exec_of_formOf {i : Instr} {f : VForm} (h : formOf i = some f) (s : State) : exec i s = issueVector f s := by
  cases i
  case vadd | vsub | vmul | vmin | vmax | vand | vor | vxor | vshl | vshr | vsar | vabd | vavg | vadds | vsubs | vmulh
      | vaddS | vsubS | vmulS | vminS | vmaxS | vandS | vorS | vxorS | vshlS | vshrS | vsarS | vabdS | vavgS | vaddsS
      | vsubsS | vmulhS | vaddI | vsubI | vmulI | vminI | vmaxI | vandI | vorI | vxorI | vshlI | vshrI | vsarI | vabdI
      | vavgI | vaddsI | vsubsI | vmulhI | vfma | vfms | vfnma | vfnms | vmacw | vcmpEq | vcmpNe | vcmpLt | vcmpLe
      | vcmpGt | vcmpGe | vcmpUn | vsel | vcvt | vshrr | vdiv | vsqrt | vrcp | vrsqrt | vexp2 | vlog2 | vdot | vredSum
      | vredMax | vredMin | vredAnd | vredOr | vredXor | vsign | vmov | vsplat | vsplati | vget | vput | vslideUp
      | vslideDn | vld | vst | vlds | vsts | vldx | vldxC | vldxDup | vstx | vamoAdd | vamoAnd | vamoOr | vamoXor
      | vamoMin | vamoMax | vamoMinu | vamoMaxu | vamoSwap | vcomp | vexpand | vperm | vzip | vunzip | vtrn | kand | kor
      | kxor | knot | kandn | kpopc | kfirst | kvl | kfrom | vlk | vmcast | vrecv | viota | vidx | vflgRd | vflgClr
      | wld | wst | wmul | wmac | wmult | wchol | wlu | wsolveC | wsolveP | wadd | wsub | wscal | wtrn | wid | wcpy
      | wdim | wget | wput | tacc | tmma | tmms | tread | twrite | tepi =>
    obtain rfl := Option.some.inj h
    rfl
  case zeroWord | reservedOpcode | add | sub | and | or | xor | andn | orn | shl | shr | sar | rol | ror | slt | sltu
      | min | max | minu | maxu | mul | mulh | mulhu | div | divu | rem | remu | clz | ctz | popc | bswap | sextB
      | sextH | sextW | zextW | addi | andi | ori | xori | shli | shri | sari | roli | slti | sltiu | setk | setz
      | addpc | brEq | brNe | brLt | brGe | brLtu | brGeu | brmAny | brmAll | brmNone | jal | jalr | loop | loopi | lbrk
      | rpt | ldBz | ldBs | ldHz | ldHs | ldWz | ldWs | ldD | stB | stH | stW | stD | ldp | stp | ldacq | strel | amoAdd
      | amoAnd | amoOr | amoXor | amoMin | amoMax | amoMinu | amoMaxu | amoSwap | cas | casQ | fenceAcq | fenceRel
      | fenceAr | fenceSc | xfenceAll | xfenceSpace | xfencePage | waita | barArr | barWait | barAw | clineClean
      | clineInv | clineFlush | clineZero | stashMap | stashUnmap | stashFlush | stashPin | stashUnpin | prefL2
      | prefLlc | prefStash | rdspr | wrspr | vtag | setvl | tclaim | trel | twait | fopen | fclose | fdrop | fstat
      | cpy | cpyM | gath | chanWm | chanWait | chanCancel | chanStat | enqTask | enqLaunch | depd | pgrant | tdone
      | lsplit | ljoin | yield | trap | tret | shut | halt | brk | probe | vectorStart | groupCommit | vectorComplete
      | heldPerform | loadReturn | divideResult | detachedComplete | tmmaStart | vmcastReserve | vmcastLand | vrecvBind
      | waitaWake | waitaPoll | waitaTimeout | barWake | channelCommandStart | grainMove | copyComplete | trapInContext
      | trapToKeeper | eventPlace | successorPlace | sliceEnd | resumeSaved | selection | bind | stagingStart
      | granuleMove | stopComplete | ownershipPass | register | exportWord | deliver | rd | wr | wro | drop | dropl
      | wbl | snoop | cmo | purge | errorDetected | ctlStop | ctlResume | ctlStep | ctlDiscard | root | head | en
      | counter | channelResume | channelCancel | coreCommit | partitionReset | partitionResetDone | window | qcount
      | printmask | pingran | load | slotDrainDone | save | saveDone | restore | restoreDone | abort | fire | rearm
      | evcount | reportRequest | reportDone | powercap | printCommit | printStart | printDone | registerWrite | powerOn
      | coldReset | linkUp | bar0Write | bar0Atomicop | bar2Read | bar2Write | bar2Atomicop | vfEnable | vfDisable
      | vfFlr | pfFlr | atsCompletion | pageRequestResponse | priEnable | invalidateRequest | invalidateCompletion
      | hostCompletionError | completionTimeout | snpdata | snpinv | snpcur | hostCacheResponse | m2sReq | m2sRwd
      | birsp | mode | flipToDeviceBias | flipToHostBias | flipDone | portUp | peerRequest | peerCompletion
      | peerTimeout | illegal | cxlCacheEnable =>
    exact absurd h nofun

/-! ## What is captured -/

/-- A result comes of a check that let it pass. -/
theorem ok_of_bind {ε α β : Type} {m : Except ε α} {f : α → Except ε β} {b : β} (h : (m >>= f) = .ok b) :
    ∃ a, m = .ok a ∧ f a = .ok b := by
  cases m with
  | ok a => exact ⟨a, rfl, h⟩
  | error e => cases h

/-- What an instruction that passes its checks has captured. -/
theorem accept_captures {s : State} {q : Nat} {f : VForm} {ipc : Word} {p : Capture} {e : VqEntry}
    (h : accept s q f ipc p = .ok e) : ∃ x1 l1 x2 l2,
    e = { form := f, ipc := ipc, vl := p.vl, rm := p.rm, start := p.start, resumed := p.resumed, cfg := p.cfg, x1 := x1, x2 := x2,
          late1 := l1, late2 := l2, rows := p.rows, cols := p.cols, tsave := p.tsave, pipes := ownedPipes s q,
          snap := (s.ctx q).sc, ord := (s.ctx q).ord } := by
  unfold accept at h
  dsimp only at h
  split at h
  · cases h
  · split at h
    · cases h
    · split at h
      · cases h
      · split at h
        · cases h
        · obtain ⟨⟨x1, l1⟩, -, h⟩ := ok_of_bind h
          obtain ⟨⟨x2, l2⟩, -, h⟩ := ok_of_bind h
          dsimp only at h
          split at h
          · cases h
          · exact ⟨x1, l1, x2, l2, (Except.ok.inj h).symm⟩

/-- Settles O37: a form that passes its checks enters the queue with what the scalar side holds. -/
theorem vectorAccepted : Obligations.VectorAccepted := by
  intro i f s e hf hl hacc
  refine ⟨?_, ?_⟩
  · have hacc' : accept s s.cur f s.c.at (s.c.capture f) = .ok e := hacc
    rw [exec_of_formOf hf, issueVector]
    simp only [hacc', hl, Bool.false_eq_true, if_false]
    rfl
  · obtain ⟨x1, l1, x2, l2, rfl⟩ := accept_captures hacc
    exact ⟨rfl, rfl, rfl, rfl, rfl, rfl, rfl, rfl, rfl⟩

/-! ## The checks in their order -/

theorem issueVector_traps {s : State} {f : VForm} {cause sub : Nat} {tval : Word}
    (h : accept s s.cur f s.c.at (s.c.capture f) = .error (.trap (classA cause sub tval s.c.at) none)) :
    issueVector f s = .next (trapped s cause sub tval) := by
  rw [issueVector]
  simp only [h]
  rfl

section
variable {s : State} {f : VForm} {ipc : Word} {p : Capture}

theorem accept_runsPast (h : f.runsPast p.rows.val = true) :
    accept s s.cur f ipc p = .error (.trap (classA cILLEGAL 0 (f.word.setWidth 64) ipc) none) := by
  simp only [accept, h, if_true, throw, throwThe, MonadExceptOf.throw, error_bind]

/-- What the state of the queue leaves of the acceptance: the form's own checks. -/
theorem accept_waits (hs : OnScalar s) (h : f.runsPast p.rows.val = false)
    (hfull : s.c.vqWritesVl = true ∨ 32 ≤ s.c.viq.length) : accept s s.cur f ipc p = .error (.wait s) := by
  unfold OnScalar State.c at hs
  unfold State.c at hfull
  simp only [accept, h, hs, hfull, Bool.false_eq_true, if_false, if_true, throw, throwThe, MonadExceptOf.throw, error_bind]

theorem accept_refused {cause sub : Nat} (hs : OnScalar s) (h : f.runsPast p.rows.val = false) (hvl : s.c.vqWritesVl = false)
    (hroom : s.c.viq.length < 32) (hform : formCheck s s.cur f p = some (cause, sub)) :
    accept s s.cur f ipc p = .error (.trap (classA cause sub (f.word.setWidth 64) ipc) none) := by
  unfold OnScalar State.c at hs
  have hgo : ¬((s.ctx s.cur).vqWritesVl = true ∨ 32 ≤ (s.ctx s.cur).viq.length) := by
    rintro (h | h)
    · exact Bool.false_ne_true (hvl.symm.trans h)
    · exact absurd hroom (Nat.not_lt.mpr h)
  simp only [accept, h, hs, hgo, hform, Bool.false_eq_true, if_false, throw, throwThe, MonadExceptOf.throw, error_bind]

end

/-- Settles O38: a run past v31, the shape, the registers, the tile or film, and overlap are checked in this order. -/
theorem vectorChecks : Obligations.VectorChecks := by
  intro i f s hf hs
  rw [exec_of_formOf hf]
  refine ⟨fun hrun => issueVector_traps (accept_runsPast hrun), fun hrun hvl hroom => ?_, fun hrun hfull => ?_⟩
  · have htrap : ∀ cause sub, formCheck s s.cur f (s.c.capture f) = some (cause, sub) →
        issueVector f s = .next (trapped s cause sub (f.word.setWidth 64)) :=
      fun cause sub hform => issueVector_traps (accept_refused hs hrun hvl hroom hform)
    refine ⟨fun hshape => htrap _ _ ?_, fun hshape hregs => htrap _ _ ?_,
      fun hshape hregs => ⟨fun cause sub htile => htrap _ _ ?_, fun htile hover => htrap _ _ ?_⟩⟩
    · rw [formCheck, if_pos hshape]
    · rw [formCheck, hshape, if_neg Bool.false_ne_true, hregs]
      rfl
    · rw [formCheck, hshape, if_neg Bool.false_ne_true, hregs, Bool.not_true, if_neg Bool.false_ne_true, htile]
    · rw [formCheck, hshape, if_neg Bool.false_ne_true, hregs, Bool.not_true, if_neg Bool.false_ne_true, htile]
      exact if_pos hover
  · have hacc : accept s s.cur f s.c.at (s.c.capture f) = .error (.wait s) := accept_waits hs hrun hfull
    rw [issueVector]
    simp only [hacc]

end Sys2Proof.Machine
end

