-- ==== Sys2Proof/Proofs/VectorRuns.lean ====
section
/-!
Vector-queue instructions carried through in the step that issues them (O39 to O41): what the start leaves, how the groups of
an Element-class instruction follow each other, and what a completion does.
-/
namespace Sys2Proof.Machine

/-! ## The start -/

/-- An instruction's own step starts it where it passes its start checks and no other head is taken first. -/
def StartsAt (s : State) (e : VqEntry) : Prop :=
  startCheck (acceptedState s e) s.cur e = .ok () ∧ headOutranked (acceptedState s e) s.cur = false

section
variable {i : Instr} {f : VForm} {s : State} {e : VqEntry}

theorem accept_form {q : Nat} {ipc : Word} {p : Capture} (h : accept s q f ipc p = .ok e) : e.form = f := by
  obtain ⟨x1, l1, x2, l2, rfl⟩ := accept_captures h
  rfl

theorem accept_resumed (h : accept s s.cur f s.pc (s.c.capture f) = .ok e) : e.resumed = false := by
  obtain ⟨x1, l1, x2, l2, rfl⟩ := accept_captures h
  rfl

theorem mark_viq (c : Ctx) (e : VqEntry) (b : Bool) : (c.mark e b).viq = c.viq ∧ (c.mark e b).run = c.run := by
  unfold Ctx.mark
  cases e.roles.sd <;> dsimp only
  · split <;> split <;> exact ⟨rfl, rfl⟩
  · split <;> split <;> split <;> exact ⟨rfl, rfl⟩

theorem enqueue_viq (c : Ctx) (e : VqEntry) : (c.enqueue e).viq = c.viq ++ [e] ∧ (c.enqueue e).run = c.run := by
  have h := mark_viq c e false
  exact ⟨congrArg (· ++ [e]) h.1, h.2⟩

theorem ctx_acceptedState (s : State) (e : VqEntry) : (acceptedState s e).ctx s.cur = (s.c.enqueue e).advance :=
  State.ctx_setCtx ..

/-- In step the instruction accepted is alone in the queue, and nothing runs. -/
theorem acceptedState_alone (h : s.lockstep = true) :
    ((acceptedState s e).ctx s.cur).viq = [e] ∧ ((acceptedState s e).ctx s.cur).run = [] := by
  obtain ⟨hviq, hrun, -⟩ := quiet_lists _ (lockstep_quiet _ h)
  rw [ctx_acceptedState, Ctx.advance_viq, Ctx.advance_run, (enqueue_viq _ _).1, (enqueue_viq _ _).2, hviq, hrun]
  exact ⟨rfl, rfl⟩

theorem exec_inStep (hf : formOf i = some f) (hl : s.lockstep = true) (ha : accept s s.cur f s.pc (s.c.capture f) = .ok e) :
    exec i s = .next (if ((backEnd (acceptedState s e) s.cur startNext).ctx s.cur).run.isEmpty
      then backEnd (acceptedState s e) s.cur startNext
      else backEnd (backEnd (acceptedState s e) s.cur startNext) s.cur carry) := by
  have ha' : accept s s.cur f s.c.at (s.c.capture f) = .ok e := ha
  rw [exec_of_formOf hf, issueVector]
  simp only [ha', hl, if_true]
  rfl

/-- The strip that a vmcast sends. -/
def stripOf (a : State) (q : Nat) (e : VqEntry) : Strip :=
  { id := 2048 * (a.ctx q).mcSent + q, sender := q, tag := (e.reg e.form.a).tag, grp := (e.reg e.form.a).grp, vl := e.vl,
    data := (a.ctx q).stripData e, landed := false }

/-- The strip of a vmcast reserved at every member of its gang, and counted. -/
def reservedState (a : State) (q : Nat) (e : VqEntry) : State :=
  let r := (gangOf q e).foldl (reserveAt (a.pnum q) (stripOf a q e)) a
  r.setCtx q { r.ctx q with mcSent := (a.ctx q).mcSent + 1 }

/-- A Detached form that goes to its tile. -/
def tiledState (a : State) (q : Nat) (e : VqEntry) : State :=
  chargeStart (startTile (setTile (a.setCtx q (a.ctx q).dequeue) (q / 4) e.form.d
    ((vget (a.core (q / 4)).tiles e.form.d {}).take
      { e := e, seq := q, idx := (a.ctx q).tileData e, started := false, next := 0 })) (q / 4) e.form.d) q e

/-- A vrecv that binds its strip. -/
def boundState (a : State) (q : Nat) (e : VqEntry) : State :=
  chargeStart ((bindStrip a q e).setCtx q ((bindStrip a q e).ctx q).dequeue) q e

/-- What the start of the oldest instruction of the queue does, by its form, where no other has started. -/
theorem startNext_of {a : State} {q : Nat} {r : List VqEntry} (hviq : (a.ctx q).viq = e :: r) (hrun : (a.ctx q).run = [])
    (hc : startCheck a q e = .ok ()) (ho : headOutranked a q = false) :
    startNext a q = (match e.form.op with
      | .tacc | .tmma | .tmms | .twrite => .ok (tiledState a q e)
      | .wst => storeLanes a q e >>= fun u => .ok (startedState u q e)
      | .mcast => .ok (startedState (reservedState a q e) q e)
      | .recv => .ok (boundState a q e)
      | _ => .ok (startedState a q e)) := by
  unfold startNext startHead startedState
  simp only [hviq, hrun, hc, ho, Bool.false_eq_true, if_false, List.isEmpty_nil, Bool.not_true]
  cases e.form.op <;> rfl

/-! ## What the start leaves -/

theorem ctx_setQueue (s : State) (n q : Nat) (x : Queue) : (s.setQueue n x).ctx q = s.ctx q := rfl

/-- A context with beats charged to it. -/
def Ctx.charged (c : Ctx) (n : Nat) : Ctx := { c with beats := c.beats + n }

theorem seqs_chargeBeats (s : State) (q n : Nat) :
    (chargeBeats s q n).seqs = (s.setCtx q ((s.ctx q).charged n)).seqs := by
  unfold chargeBeats
  dsimp only
  split <;> rfl

theorem ctx_chargeBeats (s : State) (q n : Nat) : (chargeBeats s q n).ctx q = (s.ctx q).charged n := by
  unfold State.ctx
  rw [seqs_chargeBeats]
  exact State.ctx_setCtx ..

/-- A started instruction is alone in the run, at its start element. -/
theorem ctx_startedState (a : State) (q : Nat) (e : VqEntry) : ∃ b,
    (startedState a q e).ctx q
      = { (a.ctx q).dequeue with run := [e], runG := e.start, runArith := none, runFill := [], beats := b } := by
  unfold startedState chargeStart
  rw [ctx_chargeBeats]
  exact ⟨_, congrArg (Ctx.charged · _) (State.ctx_setCtx ..)⟩

theorem run_startedState (a : State) (q : Nat) (e : VqEntry) : ((startedState a q e).ctx q).run = [e] := by
  obtain ⟨b, h⟩ := ctx_startedState a q e
  rw [h]

theorem runG_startedState (a : State) (q : Nat) (e : VqEntry) : ((startedState a q e).ctx q).runG = e.start := by
  obtain ⟨b, h⟩ := ctx_startedState a q e
  rw [h]

/-- Writing back a context that stands where it was written changes nothing. -/
theorem setCtx_ctx_startedState (a : State) (q : Nat) (e : VqEntry) :
    (startedState a q e).setCtx q ((startedState a q e).ctx q) = startedState a q e := by
  have h : (startedState a q e).seqs = put a.seqs q ((startedState a q e).ctx q) := by
    unfold startedState chargeStart
    rw [ctx_chargeBeats, seqs_chargeBeats]
    exact put_put ..
  exact congrArg (fun m => { startedState a q e with seqs := m }) ((congrArg (put · q _) h).trans ((put_put ..).trans h.symm))

/-! ## From the start to the completion -/

theorem exec_starts (hf : formOf i = some f) (hl : s.lockstep = true) (ha : accept s s.cur f s.pc (s.c.capture f) = .ok e)
    {t : State} (ht : startNext (acceptedState s e) s.cur = .ok t) (hrun : (t.ctx s.cur).run = [e]) :
    exec i s = .next (backEnd t s.cur carry) := by
  have hb : backEnd (acceptedState s e) s.cur startNext = t := by unfold backEnd; rw [ht]
  rw [exec_inStep hf hl ha, hb, hrun]
  rfl

theorem exec_leaves (hf : formOf i = some f) (hl : s.lockstep = true) (ha : accept s s.cur f s.pc (s.c.capture f) = .ok e)
    {t : State} (ht : startNext (acceptedState s e) s.cur = .ok t) (hrun : (t.ctx s.cur).run = []) :
    exec i s = .next t := by
  have hb : backEnd (acceptedState s e) s.cur startNext = t := by unfold backEnd; rw [ht]
  rw [exec_inStep hf hl ha, hb, hrun]
  rfl

theorem backEnd_carry {t u : State} {q : Nat} (h : carry t q = .ok u) : backEnd t q carry = u := by
  unfold backEnd
  rw [h]

theorem carry_complete {t : State} {q : Nat} (hrun : (t.ctx q).run = [e]) (hr : e.form.op.restart ≠ .element) :
    carry t q = completeRun t q := by
  unfold carry
  rw [hrun]
  dsimp only
  rw [if_neg hr]
  rfl

theorem carry_elements {t u : State} {q : Nat} (hrun : (t.ctx q).run = [e]) (hr : e.form.op.restart = .element)
    (hu : commitAll q ((t.ctx q).runEnd - (t.ctx q).runG) t = .ok u) : carry t q = completeRun u q := by
  unfold carry
  rw [hrun]
  dsimp only
  rw [if_pos hr, hu]
  rfl

theorem completeRun_elements {u : State} {q : Nat} (hrun : (u.ctx q).run = [e]) (hr : e.form.op.restart = .element)
    (hend : (u.ctx q).runEnd ≤ (u.ctx q).runG) : completeRun u q = .ok (retire u u q (u.ctx q)) := by
  unfold completeRun
  simp only [hrun, hr, hend, if_true]
  rfl

end

/-! ## The elements of an Element-class instruction -/

/-- A context with its chain's boundary moved. -/
def Ctx.standing (c : Ctx) (w : Bool) (g : Nat) : Ctx := { c with worked := w, runG := g }

/-- What an element of an Element-class instruction writes: nothing, a result with its flags, a mask bit with its flags, or an
element without any. -/
inductive Written where
  | nothing
  | result (x : Nat × FlagSet)
  | bit (b : Bool) (lane : Nat) (g : FlagSet)
  | raw (x : Nat)
  | plain (x : Nat)

/-- A context with that written to element `i` of the destination. -/
def Ctx.written (c : Ctx) (e : VqEntry) (i : Nat) : Written → Ctx
  | .nothing => c
  | .result x => c.result e i x
  | .bit b lane g => (c.putBit e.form.d i b).sticky e lane g
  | .raw x => c.putRaw e e.form.d i x
  | .plain x => c.putElem e e.form.d i x

/-- The forms whose elements their mask governs. -/
def VOp.governed : VOp → Bool
  | .sel | .klog _ | .kfrom | .vlk => false
  | _ => true

section
variable (c : Ctx) (e : VqEntry) (w : Bool) (g : Nat)

theorem Ctx.sticky_zero (lane : Nat) : c.sticky e lane 0 = c := if_pos rfl

theorem Ctx.elem_standing (r i : Nat) : (c.standing w g).elem e r i = c.elem e r i := rfl
theorem Ctx.getK_standing (k : Nat) : (c.standing w g).getK k = c.getK k := rfl
theorem Ctx.v_standing : (c.standing w g).v = c.v := rfl
theorem draw_standing (i : Nat) : draw (c.standing w g) e i = draw c e i := rfl
theorem scaleOf_standing (r j : Nat) : scaleOf (c.standing w g) e r j = scaleOf c e r j := rfl

theorem written_option (i : Nat) (o : Option (Nat × FlagSet)) : ∃ x, ∀ w g, (match o with
    | some r => (c.standing w g).result e i r
    | none => c.standing w g) = (c.standing w g).written e i x := by
  cases o with
  | none => exact ⟨.nothing, fun _ _ => rfl⟩
  | some r => exact ⟨.result r, fun _ _ => rfl⟩

/-- What an element writes does not depend on where its chain stands, and is nothing where its mask makes it inactive. -/
theorem element_written (i : Nat) : ∃ x, (e.form.op.governed = true → c.active e i = false → x = .nothing) ∧
    ∀ w g, (c.standing w g).element e i = (c.standing w g).written e i x := by
  unfold Ctx.element
  simp only [Ctx.elem_standing, Ctx.getK_standing, Ctx.v_standing, draw_standing, scaleOf_standing]
  cases hon : c.active e i
  · have hoff : ∀ w g, (c.standing w g).active e i = false := fun _ _ => hon
    simp only [hoff, Bool.false_eq_true, if_false]
    split <;> rename_i hop
    case h_5 => exact ⟨.raw _, by rw [hop]; exact nofun, fun _ _ => rfl⟩
    case h_13 =>
      exact ⟨.bit _ 0 0, by rw [hop]; exact nofun, fun _ _ => (Ctx.sticky_zero ..).symm⟩
    case h_14 => exact ⟨.bit _ _ _, by rw [hop]; exact nofun, fun _ _ => rfl⟩
    case h_15 =>
      obtain ⟨x, hx⟩ := written_option c e i (splatBits (e.tag e.form.d) (if (c.getK e.form.a).getLsbD i then 1 else 0))
      exact ⟨x, by rw [hop]; exact nofun, hx⟩
    all_goals exact ⟨.nothing, fun _ _ => rfl, fun _ _ => rfl⟩
  · have hon' : ∀ w g, (c.standing w g).active e i = true := fun _ _ => hon
    simp only [hon', if_true]
    split
    case h_4 | h_14 => exact ⟨.bit _ _ _, fun _ => nofun, fun _ _ => rfl⟩
    case h_5 => exact ⟨.raw _, fun _ => nofun, fun _ _ => rfl⟩
    case h_12 =>
      cases splatBits (e.tag e.form.d) e.form.imm
      · exact ⟨.nothing, fun _ => nofun, fun _ _ => rfl⟩
      · exact ⟨.result _, fun _ => nofun, fun _ _ => rfl⟩
    case h_13 => exact ⟨.bit _ 0 0, fun _ => nofun, fun _ _ => (Ctx.sticky_zero ..).symm⟩
    case h_15 =>
      obtain ⟨x, hx⟩ := written_option c e i (splatBits (e.tag e.form.d) (if (c.getK e.form.a).getLsbD i then 1 else 0))
      exact ⟨x, fun _ => nofun, hx⟩
    case h_16 => exact ⟨.plain _, fun _ => nofun, fun _ _ => rfl⟩
    case h_17 => exact ⟨.nothing, fun _ => nofun, fun _ _ => rfl⟩
    all_goals exact ⟨.result _, fun _ => nofun, fun _ _ => rfl⟩

/-! What every write leaves of the chain. -/

theorem Ctx.sticky_run (l : Nat) (x : FlagSet) : (c.sticky e l x).run = c.run := by
  unfold Ctx.sticky
  split <;> rfl

theorem Ctx.putElem_run (r i x : Nat) : (c.putElem e r i x).run = c.run := by
  unfold Ctx.putElem
  dsimp only
  split
  · rw [Ctx.sticky_run]
  · rfl

theorem Ctx.result_run (i : Nat) (x : Nat × FlagSet) : (c.result e i x).run = c.run := by
  unfold Ctx.result
  rw [Ctx.sticky_run, Ctx.putElem_run]

theorem Ctx.written_run (i : Nat) (x : Written) : (c.written e i x).run = c.run := by
  cases x with
  | nothing => rfl
  | result x => exact Ctx.result_run ..
  | bit b lane f => exact (Ctx.sticky_run ..).trans (Ctx.setK_run ..)
  | raw x => rfl
  | plain x => exact Ctx.putElem_run ..

theorem Ctx.element_run (i : Nat) : (c.element e i).run = c.run := by
  obtain ⟨x, -, hx⟩ := element_written c e i
  rw [show c.element e i = c.written e i x from hx c.worked c.runG, Ctx.written_run]

/-- A fold of steps that each leave a field leaves it. -/
theorem foldl_field {α β γ : Type} (f : α → β → α) (p : α → γ) (h : ∀ a b, p (f a b) = p a) (l : List β) (a : α) :
    p (l.foldl f a) = p a := by
  induction l generalizing a with
  | nil => rfl
  | cons b l ih => rw [List.foldl_cons, ih, h]

/-! Where the chain stands goes through every write. -/

theorem Ctx.sticky_standing (l : Nat) (x : FlagSet) : (c.standing w g).sticky e l x = (c.sticky e l x).standing w g := by
  unfold Ctx.sticky
  split <;> rfl

theorem Ctx.putElem_standing (r i x : Nat) : (c.standing w g).putElem e r i x = (c.putElem e r i x).standing w g := by
  unfold Ctx.putElem
  dsimp only
  split
  · exact Ctx.sticky_standing { c with v := elemPut c.v r i 2 0 } e w g _ _
  · rfl

theorem Ctx.putBit_standing (k i : Nat) (b : Bool) : (c.standing w g).putBit k i b = (c.putBit k i b).standing w g := by
  unfold Ctx.putBit Ctx.setK
  split <;> rfl

theorem Ctx.result_standing (i : Nat) (x : Nat × FlagSet) : (c.standing w g).result e i x = (c.result e i x).standing w g := by
  unfold Ctx.result
  rw [Ctx.putElem_standing, Ctx.sticky_standing]

theorem Ctx.written_standing (i : Nat) (x : Written) : (c.standing w g).written e i x = (c.written e i x).standing w g := by
  cases x with
  | nothing => rfl
  | result x => exact Ctx.result_standing ..
  | bit b lane f =>
    dsimp only [Ctx.written]
    rw [Ctx.putBit_standing, Ctx.sticky_standing]
  | raw x => rfl
  | plain x => exact Ctx.putElem_standing ..

theorem Ctx.element_standing (i : Nat) : (c.standing w g).element e i = (c.element e i).standing w g := by
  obtain ⟨x, -, hx⟩ := element_written c e i
  have hc : c.element e i = c.written e i x := hx c.worked c.runG
  rw [hx, hc, Ctx.written_standing]

theorem Ctx.elements_standing (is : List Nat) :
    is.foldl (fun c i => c.element e i) (c.standing w g) = (is.foldl (fun c i => c.element e i) c).standing w g := by
  induction is generalizing c with
  | nil => rfl
  | cons i is ih => rw [List.foldl_cons, List.foldl_cons, Ctx.element_standing, ih]

end

/-- The elements of a block of 32 that a vcvt encodes, with the values it encodes. -/
def Ctx.blockSources (c : Ctx) (e : VqEntry) (j : Nat) : List (Nat × Val) :=
  (((List.range 32).map (32 * j + ·)).filter fun i => decide (i < e.vl) && c.active e i).map fun i =>
    (i, cvtSource (e.tag e.form.a) (c.elem e e.form.a i) (scaleOf c e e.form.a j))

/-- The results of a block and its scale code; none where no element of it is active. -/
def Ctx.blockWrites (c : Ctx) (e : VqEntry) (j : Nat) : Option (List (Nat × Nat × FlagSet) × Nat) :=
  let xs := c.blockSources e j
  if xs.isEmpty then none
  else if xs.any fun x => x.2.isNaN then some (xs.map fun x => (x.1, 0, sigFlag x.2), 255)
  else match blockExp (xs.map (·.2)) with
    | none => some (xs.map fun x => (x.1, 0, 0), 127)
    | some m =>
      let u := max (-127) (min 127 (m - emaxOf (e.tag e.form.d)))
      some (xs.map fun x => (x.1, encodeMx (e.tag e.form.d) x.2 u (e.form.op.mode e.rm.toNat) (draw c e x.1)), (u + 127).toNat)

/-- A context with a block and its scale code written. -/
def Ctx.putBlock (c : Ctx) (e : VqEntry) (j : Nat) : Option (List (Nat × Nat × FlagSet) × Nat) → Ctx
  | none => c
  | some (ws, s) =>
    let d := ws.foldl (fun d x => d.result e x.1 x.2) c
    { d with v := elemPut d.v (e.reg e.form.d).comp.val j 8 s }

section
variable (c : Ctx) (e : VqEntry) (w : Bool) (g : Nat)

theorem Ctx.encodeBlock_eq (j : Nat) : c.encodeBlock e j = c.putBlock e j (c.blockWrites e j) := by
  unfold Ctx.encodeBlock Ctx.blockWrites
  change (if (c.blockSources e j).isEmpty then _ else if (c.blockSources e j).any _ then _ else _) = _
  dsimp only
  split
  · rfl
  · split
    · simp only [Ctx.putBlock, Ctx.blockSources, List.foldl_map]
    · split <;> rename_i hb <;> rw [show blockExp ((c.blockSources e j).map (·.2)) = _ from hb]
      · simp only [Ctx.putBlock, Ctx.blockSources, List.foldl_map]
      · simp only [Ctx.putBlock, Ctx.blockSources, List.foldl_map]

theorem Ctx.results_standing (ws : List (Nat × Nat × FlagSet)) :
    ws.foldl (fun d x => d.result e x.1 x.2) (c.standing w g) = (ws.foldl (fun d x => d.result e x.1 x.2) c).standing w g := by
  induction ws generalizing c with
  | nil => rfl
  | cons x ws ih => rw [List.foldl_cons, List.foldl_cons, Ctx.result_standing, ih]

theorem Ctx.blockWrites_standing (j : Nat) : (c.standing w g).blockWrites e j = c.blockWrites e j := rfl

theorem Ctx.encodeBlock_standing (j : Nat) : (c.standing w g).encodeBlock e j = (c.encodeBlock e j).standing w g := by
  rw [Ctx.encodeBlock_eq, Ctx.encodeBlock_eq, Ctx.blockWrites_standing]
  cases c.blockWrites e j with
  | none => rfl
  | some ws =>
    dsimp only [Ctx.putBlock]
    rw [Ctx.results_standing]
    rfl

theorem Ctx.encodeBlock_run (j : Nat) : (c.encodeBlock e j).run = c.run := by
  rw [Ctx.encodeBlock_eq]
  cases c.blockWrites e j with
  | none => rfl
  | some ws => exact foldl_field _ Ctx.run (fun d x => Ctx.result_run d e x.1 x.2) ws.1 c

theorem Ctx.encodeBlocks_standing (js : List Nat) :
    js.foldl (fun c j => c.encodeBlock e j) (c.standing w g) = (js.foldl (fun c j => c.encodeBlock e j) c).standing w g := by
  induction js generalizing c with
  | nil => rfl
  | cons j js ih => rw [List.foldl_cons, List.foldl_cons, Ctx.encodeBlock_standing, ih]

end

/-! ## The groups of a chain of one -/

/-- A conversion into a scaled destination commits in blocks of 32 (R198). -/
def VqEntry.inBlocks (e : VqEntry) : Bool :=
  match e.form.op with
  | .cvt _ => (e.reg e.form.d).scaled
  | _ => false

/-- How many elements lie between two commit boundaries. -/
def VqEntry.groupSize (e : VqEntry) : Nat := if e.inBlocks then 32 else 8

/-- The elements from `lo` to below `hi` committed; in blocks, the block that starts at `lo`. -/
def Ctx.commit (c : Ctx) (e : VqEntry) (lo hi : Nat) : Ctx :=
  if e.inBlocks then c.encodeBlock e (lo / 32) else (List.range' lo (hi - lo)).foldl (fun c i => c.element e i) c

section
variable {e : VqEntry} {q : Nat}

theorem Ctx.commit_standing (c : Ctx) (w : Bool) (g lo hi : Nat) :
    (c.standing w g).commit e lo hi = (c.commit e lo hi).standing w g := by
  unfold Ctx.commit
  split
  · exact Ctx.encodeBlock_standing ..
  · exact Ctx.elements_standing ..

theorem runEnd_single {c : Ctx} (h : c.run = [e]) : c.runEnd = e.stop := by
  unfold Ctx.runEnd
  rw [h]
  exact Nat.zero_max _

theorem boundary_single {c : Ctx} (h : c.run = [e]) (hr : e.resumed = false) :
    c.boundary = (c.runG / e.groupSize + 1) * e.groupSize := by
  unfold Ctx.boundary VqEntry.groupSize VqEntry.inBlocks
  simp only [h, hr, Bool.false_eq_true, false_and, if_false]
  cases e.form.op <;> dsimp only
  case cvt => split <;> rfl
  all_goals rfl

theorem memberGroup_register (hm : e.form.op.isMem = false) (s : State) (c : Ctx) {lo hi : Nat} (h : lo < min hi e.stop) :
    memberGroup s q e c lo hi = .ok (.all s (c.commit e lo (min hi e.stop))) := by
  have hne : ((List.range (min hi e.stop - lo)).map (lo + ·)).isEmpty = false := by
    rw [← List.range'_eq_map_range, List.isEmpty_eq_false_iff, Ne, List.range'_eq_nil_iff]
    omega
  unfold memberGroup Ctx.commit VqEntry.inBlocks
  simp only [hm, Bool.false_eq_true, if_false, hne]
  rw [List.range'_eq_map_range]
  cases e.form.op <;> dsimp only
  case cvt => split <;> rfl
  all_goals rfl

/-- The boundary behind element `g`. -/
def VqEntry.boundary (e : VqEntry) (g : Nat) : Nat := (g / e.groupSize + 1) * e.groupSize

theorem groupSize_cases (e : VqEntry) : e.groupSize = 8 ∨ e.groupSize = 32 := by
  unfold VqEntry.groupSize
  split
  · exact .inr rfl
  · exact .inl rfl

theorem lt_boundary (e : VqEntry) (g : Nat) : g < e.boundary g := by
  unfold VqEntry.boundary
  rcases groupSize_cases e with hk | hk <;> rw [hk] <;> omega

/-- A context with its next group committed. -/
def Ctx.committed (c : Ctx) (e : VqEntry) : Ctx :=
  (c.commit e c.runG (min (e.boundary c.runG) e.stop)).standing true (e.boundary c.runG)

theorem commitGroup_register {s : State} (hm : e.form.op.isMem = false) (hr : e.resumed = false) (hrun : (s.ctx q).run = [e])
    (hg : (s.ctx q).runG < e.stop) : commitGroup s q = .ok (s.setCtx q ((s.ctx q).committed e)) := by
  have hlt := lt_boundary e (s.ctx q).runG
  have hmem := memberGroup_register (q := q) hm s (s.ctx q) (lo := (s.ctx q).runG)
    (hi := min (e.boundary (s.ctx q).runG) e.stop) (by omega)
  rw [Nat.min_assoc, Nat.min_self] at hmem
  have hbound : (s.ctx q).boundary = e.boundary (s.ctx q).runG := boundary_single hrun hr
  unfold commitGroup
  simp only [hrun, hbound, runEnd_single hrun, groupMembers, hmem, ok_bind]
  rfl

theorem commitAll_done {s : State} (h : (s.ctx q).runEnd ≤ (s.ctx q).runG) (n : Nat) : commitAll q n s = .ok s := by
  cases n with
  | zero => rfl
  | succ n =>
    unfold commitAll
    rw [if_pos h]

/-- The elements of a chain of one from `g` on, in their groups. -/
def Ctx.rest (c : Ctx) (e : VqEntry) (g : Nat) : Ctx :=
  if e.inBlocks then (List.range' (g / 32) ((e.stop + 31) / 32 - g / 32)).foldl (fun c j => c.encodeBlock e j) c
  else (List.range' g (e.stop - g)).foldl (fun c i => c.element e i) c

theorem Ctx.rest_standing (c : Ctx) (w : Bool) (g n : Nat) : (c.standing w g).rest e n = (c.rest e n).standing w g := by
  unfold Ctx.rest
  split
  · exact Ctx.encodeBlocks_standing ..
  · exact Ctx.elements_standing ..

/-- A group, and then the rest. -/
theorem Ctx.rest_commit (c : Ctx) {g : Nat} (hg : g < e.stop) :
    (c.commit e g (min (e.boundary g) e.stop)).rest e (e.boundary g) = c.rest e g := by
  unfold Ctx.commit Ctx.rest VqEntry.boundary VqEntry.groupSize
  split
  · have hj : (e.stop + 31) / 32 - g / 32 = (e.stop + 31) / 32 - (g / 32 + 1) + 1 := by omega
    rw [Nat.mul_div_cancel _ (by decide), hj, List.range'_succ, List.foldl_cons]
  · rw [← List.foldl_append]
    have h := lt_boundary e g
    congr 1
    by_cases hb : (g / 8 + 1) * 8 ≤ e.stop
    · rw [Nat.min_eq_left hb]
      have happ := List.range'_append_1 (s := g) (m := (g / 8 + 1) * 8 - g) (n := e.stop - (g / 8 + 1) * 8)
      rwa [show g + ((g / 8 + 1) * 8 - g) = (g / 8 + 1) * 8 by omega,
        show (g / 8 + 1) * 8 - g + (e.stop - (g / 8 + 1) * 8) = e.stop - g by omega] at happ
    · rw [Nat.min_eq_right (by omega), show e.stop - (g / 8 + 1) * 8 = 0 by omega, List.range'_zero, List.append_nil]

/-- Behind the last boundary nothing is left. -/
theorem Ctx.rest_over (c : Ctx) {g : Nat} (h : e.stop ≤ e.boundary g) : c.rest e (e.boundary g) = c := by
  unfold VqEntry.boundary VqEntry.groupSize at h
  unfold Ctx.rest VqEntry.boundary VqEntry.groupSize
  cases hb : e.inBlocks <;> rw [hb] at h
  · have h' : e.stop ≤ (g / 8 + 1) * 8 := h
    rw [if_neg (by decide), if_neg (by decide), Nat.sub_eq_zero_of_le h']
    rfl
  · have h' : e.stop ≤ (g / 32 + 1) * 32 := h
    rw [if_pos rfl, if_pos rfl, show (e.stop + 31) / 32 - (g / 32 + 1) * 32 / 32 = 0 by omega]
    rfl

theorem boundary_last {g : Nat} (hg : g < e.stop) (h : e.stop ≤ e.boundary g) : e.boundary g = e.boundary (e.stop - 1) := by
  unfold VqEntry.boundary at h ⊢
  rcases groupSize_cases e with hk | hk <;> rw [hk] at h ⊢ <;> omega

theorem Ctx.commit_run (c : Ctx) (e : VqEntry) (lo hi : Nat) : (c.commit e lo hi).run = c.run := by
  unfold Ctx.commit
  split
  · exact Ctx.encodeBlock_run ..
  · exact foldl_field _ Ctx.run (fun c i => Ctx.element_run c e i) _ c

/-- A group committed leaves the rest of the chain to do. -/
theorem Ctx.committed_rest (c : Ctx) (hg : c.runG < e.stop) (w : Bool) (g : Nat) :
    ((c.committed e).rest e (e.boundary c.runG)).standing w g = (c.rest e c.runG).standing w g := by
  unfold Ctx.committed
  rw [Ctx.rest_standing, Ctx.rest_commit _ hg]
  rfl

/-- The whole chain of one: every element from where it stands, and then its last boundary. -/
theorem commitAll_register (hm : e.form.op.isMem = false) (hr : e.resumed = false) (t : State) (n : Nat) (c : Ctx)
    (hrun : c.run = [e]) (hn : e.stop - c.runG ≤ n) (hg : c.runG < e.stop) :
    commitAll q n (t.setCtx q c) = .ok (t.setCtx q ((c.rest e c.runG).standing true (e.boundary (e.stop - 1)))) := by
  induction n generalizing c with
  | zero => omega
  | succ n ih =>
    have hc : (t.setCtx q c).ctx q = c := State.ctx_setCtx ..
    have hb := lt_boundary e c.runG
    have hend : ¬ c.runEnd ≤ c.runG := by rw [runEnd_single hrun]; omega
    have hrun' : (c.committed e).run = [e] := (Ctx.commit_run ..).trans hrun
    have hstep := commitGroup_register (s := t.setCtx q c) (q := q) hm hr (hc.symm ▸ hrun) (hc.symm ▸ hg)
    rw [hc, State.setCtx_setCtx] at hstep
    unfold commitAll
    rw [hc, if_neg hend, hstep, ← Ctx.committed_rest c hg]
    dsimp only
    by_cases hlast : e.boundary c.runG < e.stop
    · exact ih (c.committed e) hrun' (by change e.stop - e.boundary c.runG ≤ n; omega) hlast
    · have hlast' : e.stop ≤ e.boundary c.runG := Nat.not_lt.mp hlast
      rw [commitAll_done (by rw [State.ctx_setCtx, runEnd_single hrun']; exact hlast'), Ctx.rest_over _ hlast',
        ← boundary_last hg hlast']
      rfl

end

/-! ## The forms on registers -/

/-- The forms that only enter the run when they start. -/
def VOp.plain : VOp → Bool
  | .tacc | .tmma | .tmms | .twrite | .wst | .mcast | .recv => false
  | _ => true

theorem plain_of_element {o : VOp} (h : o.restart = .element) : o.plain = true := by
  cases o
  case tacc | tmma | tmms | twrite | wst | mcast | recv => exact absurd h (by decide)
  all_goals rfl

/-- What an Element-class instruction on registers leaves of its context. -/
def Ctx.runOut (c : Ctx) (e : VqEntry) : Ctx :=
  if c.runG < e.stop then (c.rest e c.runG).standing true (e.boundary (e.stop - 1)) else c

theorem runOut_elements {c : Ctx} {e : VqEntry} (hb : e.inBlocks = false) (hg : c.runG = e.start) :
    c.runOut e = ((elementsOf e).foldl (fun c n => c.element e n) c).standing
      (((elementsOf e).foldl (fun c n => c.element e n) c).worked || decide (e.start < e.stop))
      (if e.start < e.stop then ((e.stop - 1) / 8 + 1) * 8 else e.start) := by
  unfold Ctx.runOut elementsOf
  rw [hg, ← List.range'_eq_map_range]
  by_cases h : e.start < e.stop
  · rw [if_pos h, if_pos h, decide_eq_true h, Bool.or_true]
    unfold Ctx.rest VqEntry.boundary VqEntry.groupSize
    rw [hb]
    rfl
  · rw [if_neg h, if_neg h, decide_eq_false h, Bool.or_false, Nat.sub_eq_zero_of_le (Nat.not_lt.mp h), ← hg]
    rfl

theorem stop_of_inBlocks {e : VqEntry} (h : e.inBlocks = true) : e.stop = e.vl := by
  refine if_neg fun hop => ?_
  unfold VqEntry.inBlocks at h
  rw [hop] at h
  exact Bool.false_ne_true h

theorem runOut_blocks {c : Ctx} {e : VqEntry} (w : Bool) (hb : e.inBlocks = true) (hg : c.runG = e.start) (h : e.start < e.stop) :
    c.runOut e = ((((List.range ((e.vl + 31) / 32 - e.start / 32)).map (e.start / 32 + ·)).foldl
      (fun c n => c.encodeBlock e n) c).standing (w || decide (e.start < e.stop))
      (if e.start < e.stop then ((e.stop - 1) / 32 + 1) * 32 else e.start)) := by
  unfold Ctx.runOut
  rw [← stop_of_inBlocks hb, hg, ← List.range'_eq_map_range, if_pos h, if_pos h, decide_eq_true h, Bool.or_true]
  unfold Ctx.rest VqEntry.boundary VqEntry.groupSize
  rw [hb]
  rfl

/-- A chain of one on registers commits all its groups and retires. -/
theorem carry_register {e : VqEntry} {q : Nat} {t : State} (hrun : (t.ctx q).run = [e]) (hr : e.form.op.restart = .element)
    (hm : e.form.op.isMem = false) (hres : e.resumed = false) (hself : t.setCtx q (t.ctx q) = t) :
    let u := t.setCtx q ((t.ctx q).runOut e)
    carry t q = .ok (retire u u q (u.ctx q)) := by
  intro u
  have hu : u.ctx q = (t.ctx q).runOut e := State.ctx_setCtx ..
  have hrest : ((t.ctx q).rest e (t.ctx q).runG).run = [e] := by
    unfold Ctx.rest
    split
    · exact (foldl_field _ Ctx.run (fun c j => Ctx.encodeBlock_run c e j) _ _).trans hrun
    · exact (foldl_field _ Ctx.run (fun c j => Ctx.element_run c e j) _ _).trans hrun
  by_cases hg : (t.ctx q).runG < e.stop
  · have hout : (t.ctx q).runOut e = ((t.ctx q).rest e (t.ctx q).runG).standing true (e.boundary (e.stop - 1)) := if_pos hg
    have hall := commitAll_register (q := q) hm hres t ((t.ctx q).runEnd - (t.ctx q).runG) (t.ctx q) hrun
      (by rw [runEnd_single hrun]) hg
    rw [hself, ← hout] at hall
    have hrun' : ((t.ctx q).runOut e).run = [e] := by rw [hout]; exact hrest
    rw [carry_elements hrun hr hall]
    refine completeRun_elements (hu.symm ▸ hrun') hr ?_
    rw [hu, runEnd_single hrun', hout]
    exact Nat.le_of_pred_lt (lt_boundary e (e.stop - 1))
  · have hout : (t.ctx q).runOut e = t.ctx q := if_neg hg
    have hut : u = t := (congrArg (t.setCtx q) hout).trans hself
    rw [hut]
    have hover : (t.ctx q).runEnd ≤ (t.ctx q).runG := by rw [runEnd_single hrun]; omega
    rw [carry_elements hrun hr (commitAll_done hover _)]
    exact completeRun_elements hrun hr hover

section
variable {i : Instr} {f : VForm} {s : State} {e : VqEntry}

theorem startNext_plain {a : State} {q : Nat} {r : List VqEntry} (hviq : (a.ctx q).viq = e :: r) (hrun : (a.ctx q).run = [])
    (hc : startCheck a q e = .ok ()) (ho : headOutranked a q = false) (hp : e.form.op.plain = true) :
    startNext a q = .ok (startedState a q e) := by
  rw [startNext_of hviq hrun hc ho]
  cases hop : e.form.op <;> rw [hop] at hp
  case tacc | tmma | tmms | twrite | wst | mcast | recv => exact absurd hp (by decide)

/-- In step a plain form starts and is then carried to its end. -/
theorem exec_plain (hf : formOf i = some f) (hl : s.lockstep = true) (ha : accept s s.cur f s.pc (s.c.capture f) = .ok e)
    (hs : StartsAt s e) (hp : f.op.plain = true) {u : State}
    (hu : carry (startedState (acceptedState s e) s.cur e) s.cur = .ok u) : exec i s = .next u := by
  obtain ⟨hviq, hrun⟩ := acceptedState_alone (e := e) hl
  rw [exec_starts hf hl ha (startNext_plain hviq hrun hs.1 hs.2 ((accept_form ha).symm ▸ hp)) (run_startedState ..),
    backEnd_carry hu]

end

/-- Settles O39: the groups of an Element-class instruction are its elements in order, and its blocks where it has them. -/
theorem vectorElementwise : Obligations.VectorElementwise := by
  intro i f s e hf hl ha hr hm hc ho t blocks ends
  have hform := accept_form ha
  have hrun : (t.ctx s.cur).run = [e] := run_startedState ..
  have hg : (t.ctx s.cur).runG = e.start := runG_startedState ..
  have hself : t.setCtx s.cur (t.ctx s.cur) = t := setCtx_ctx_startedState ..
  have hblocks : blocks = e.inBlocks := by
    unfold blocks VqEntry.inBlocks
    rw [hform] <;> cases f.op <;> rfl
  have hex := exec_plain hf hl ha ⟨hc, ho⟩ (plain_of_element hr)
    (carry_register hrun (hform.symm ▸ hr) (hform.symm ▸ hm) (accept_resumed ha) hself)
  refine ⟨fun hb => ?_, fun hb hlt => ?_⟩
  · rw [hex, runOut_elements (hblocks ▸ hb) hg]
    rfl
  · rw [hex, runOut_blocks _ (hblocks ▸ hb) hg ((stop_of_inBlocks (hblocks ▸ hb)).symm ▸ hlt)]
    rfl

end Sys2Proof.Machine
end

