-- ==== Sys2Proof/Proofs/VectorEnds.lean ====
section
/-!
What the Whole-class, Detached and memory forms of the vector queue do in the step that issues them (O40, O41).
-/
namespace Sys2Proof.Machine

section
variable {i : Instr} {f : VForm} {s : State} {e : VqEntry}

/-! ## Completions -/

theorem completeRun_of {t : State} {q : Nat} (hrun : (t.ctx q).run = [e]) (hr : e.form.op.restart ≠ .element) :
    completeRun t q = (match e.form.op with
      | .ldxdup .. => loadDup t q e (t.ctx q) >>= fun r => .ok (retire t r.1 q r.2)
      | .ldxc .. => loadStash t q e (t.ctx q) >>= fun r => .ok (retire t r.1 q r.2)
      | .wld => loadLanes t q e (t.ctx q) >>= fun r => .ok (retire t r.1 q r.2)
      | .mcast => .ok (retire t (landStrip t q) q (t.ctx q))
      | .tread | .tepi => .ok (retire t { t with tick := t.tick + 64 } q
          ((t.ctx q).readTile e (vget (t.core (q / 4)).tiles e.form.d {}) t.tick))
      | .wmul _ | .wchol | .wlu | .wsolve _ | .wadd _ | .wscal | .wtrn | .wid | .wcpy | .wget | .wput =>
        .ok (retire t t q ((t.ctx q).laneMatrix e))
      | .wst | .wdim => .ok (retire t t q (t.ctx q))
      | _ => .ok (retire t t q ((t.ctx q).whole e))) := by
  unfold completeRun
  simp only [hrun]
  cases hop : e.form.op <;> rw [hop] at hr
  case bin | fma | macw | cmp | sel | cvt | shrr | math | sign | mov | splat | splati | idx | ld | st | amo | klog | kvl
    | kfrom | vlk => exact absurd rfl hr
  all_goals rfl

/-- A form that is neither Element-class nor special at its start completes in the step that issues it. -/
theorem exec_completes (hf : formOf i = some f) (hl : s.lockstep = true)
    (ha : accept s s.cur f s.pc (s.c.capture f) = .ok e) (hs : StartsAt s e) (hp : f.op.plain = true)
    (hr : f.op.restart ≠ .element) {u : State}
    (hu : completeRun (startedState (acceptedState s e) s.cur e) s.cur = .ok u) : exec i s = .next u :=
  exec_plain hf hl ha hs hp ((carry_complete (run_startedState ..) ((accept_form ha).symm ▸ hr)).trans hu)

/-! ## What the start leaves of a context that its instruction has left -/

theorem run_chargeBeats (s : State) (p n q : Nat) : ((chargeBeats s p n).ctx q).run = (s.ctx q).run := by
  unfold State.ctx
  rw [seqs_chargeBeats]
  by_cases h : q = p
  · subst h
    exact (congrArg Ctx.run (State.ctx_setCtx s q ((s.ctx q).charged n)) :)
  · exact (congrArg Ctx.run (State.ctx_setCtx_ne s p q ((s.ctx p).charged n) h) :)

theorem run_chargeStart (s : State) (q : Nat) (e : VqEntry) : ((chargeStart s q e).ctx q).run = (s.ctx q).run :=
  run_chargeBeats ..

theorem run_startTile (s : State) (core t q : Nat) : ((startTile s core t).ctx q).run = (s.ctx q).run := by
  unfold startTile
  dsimp only
  split
  · rfl
  · split
    · rfl
    · split
      · exact run_chargeBeats ..
      · rfl

theorem run_tiledState (a : State) (q : Nat) : ((tiledState a q e).ctx q).run = (a.ctx q).run := by
  unfold tiledState
  rw [run_chargeStart, run_startTile]
  exact (congrArg Ctx.run (State.ctx_setCtx a q (a.ctx q).dequeue) :)

theorem run_bindStrip (a : State) (q : Nat) : ((bindStrip a q e).ctx q).run = (a.ctx q).run := by
  unfold bindStrip
  split
  · rfl
  · dsimp only
    rw [State.ctx_setCtx]
    rfl

theorem run_boundState (a : State) (q : Nat) : ((boundState a q e).ctx q).run = (a.ctx q).run := by
  unfold boundState
  rw [run_chargeStart, State.ctx_setCtx]
  exact run_bindStrip a q

/-! ## The shape -/

theorem endTest_shape (n : Nat) (x : Scal) (a : Word) : (endTest n x a).rows = x.rows ∧ (endTest n x a).cols = x.cols := by
  induction n generalizing x with
  | zero => exact ⟨rfl, rfl⟩
  | succ n ih =>
    unfold endTest
    dsimp only
    split
    · split
      · exact ⟨rfl, rfl⟩
      · exact ih _
    · exact ⟨rfl, rfl⟩

theorem next_shape (x : Scal) : x.next.rows = x.rows ∧ x.next.cols = x.cols := by
  unfold Scal.next
  dsimp only
  split
  · split
    · exact ⟨rfl, rfl⟩
    · split
      · exact ⟨rfl, rfl⟩
      · exact endTest_shape ..
  · exact endTest_shape ..

theorem enqueue_shape (c : Ctx) (h : e.form.op = .wdim) : (c.enqueue e).sc.rows = e.rows ∧ (c.enqueue e).sc.cols = e.cols := by
  unfold Ctx.enqueue
  rw [h]
  exact ⟨rfl, rfl⟩

theorem advance_shape (c : Ctx) : c.advance.sc.rows = c.sc.rows ∧ c.advance.sc.cols = c.sc.cols := by
  unfold Ctx.advance
  dsimp only
  split
  · exact ⟨rfl, rfl⟩
  · exact next_shape _

theorem acceptedState_shape (h : e.form.op = .wdim) :
    ((acceptedState s e).ctx s.cur).sc.rows = e.rows ∧ ((acceptedState s e).ctx s.cur).sc.cols = e.cols := by
  rw [ctx_acceptedState]
  exact ⟨(advance_shape _).1.trans (enqueue_shape _ h).1, (advance_shape _).2.trans (enqueue_shape _ h).2⟩

end

/-- The Whole-class forms on registers that are neither tile nor multicast forms. -/
def VOp.wholeOnRegisters : VOp → Bool
  | .dot | .red .. | .vget | .vput | .slide .. | .comp | .expand | .perm | .zip | .unzip | .trn | .kpopc | .kfirst
  | .iota | .flgRd | .flgClr => true
  | _ => false

/-- The lane-matrix forms on registers. -/
def VOp.onLanes : VOp → Bool
  | .wmul _ | .wchol | .wlu | .wsolve _ | .wadd _ | .wscal | .wtrn | .wid | .wcpy | .wget | .wput => true
  | _ => false

section
variable {i : Instr} {f : VForm} {s : State} {e : VqEntry}

theorem exec_whole (hf : formOf i = some f) (hl : s.lockstep = true) (ha : accept s s.cur f s.pc (s.c.capture f) = .ok e)
    (hs : StartsAt s e) (hop : f.op.wholeOnRegisters = true) :
    let t := startedState (acceptedState s e) s.cur e
    exec i s = .next (retire t t s.cur ((t.ctx s.cur).whole e)) := by
  have hform := accept_form ha
  have hcls : f.op.plain = true ∧ f.op.restart ≠ .element := by
    cases h : f.op <;> rw [h] at hop
    case dot | red | vget | vput | slide | comp | expand | perm | zip | unzip | trn | kpopc | kfirst | iota | flgRd | flgClr =>
      exact ⟨rfl, nofun⟩
    all_goals exact absurd hop Bool.false_ne_true
  refine exec_completes hf hl ha hs hcls.1 hcls.2 ?_
  rw [completeRun_of (run_startedState ..) (hform.symm ▸ hcls.2), hform]
  cases h : f.op <;> rw [h] at hop
  all_goals exact absurd hop Bool.false_ne_true

theorem exec_onLanes (hf : formOf i = some f) (hl : s.lockstep = true) (ha : accept s s.cur f s.pc (s.c.capture f) = .ok e)
    (hs : StartsAt s e) (hop : f.op.onLanes = true) :
    let t := startedState (acceptedState s e) s.cur e
    exec i s = .next (retire t t s.cur ((t.ctx s.cur).laneMatrix e)) := by
  have hform := accept_form ha
  have hcls : f.op.plain = true ∧ f.op.restart ≠ .element := by
    cases h : f.op <;> rw [h] at hop
    case wmul | wchol | wlu | wsolve | wadd | wscal | wtrn | wid | wcpy | wget | wput => exact ⟨rfl, nofun⟩
    all_goals exact absurd hop Bool.false_ne_true
  refine exec_completes hf hl ha hs hcls.1 hcls.2 ?_
  rw [completeRun_of (run_startedState ..) (hform.symm ▸ hcls.2), hform]
  cases h : f.op <;> rw [h] at hop
  all_goals exact absurd hop Bool.false_ne_true

theorem exec_detached (hf : formOf i = some f) (hl : s.lockstep = true) (ha : accept s s.cur f s.pc (s.c.capture f) = .ok e)
    (hs : StartsAt s e) (hop : f.op = .tacc ∨ f.op = .tmma ∨ f.op = .tmms ∨ f.op = .twrite) :
    exec i s = .next (tiledState (acceptedState s e) s.cur e) := by
  obtain ⟨hviq, hrun⟩ := acceptedState_alone (e := e) hl
  refine exec_leaves hf hl ha ?_ ((run_tiledState ..).trans hrun)
  rw [startNext_of hviq hrun hs.1 hs.2, accept_form ha]
  rcases hop with hop | hop | hop | hop <;> rw [hop]

theorem exec_recv (hf : formOf i = some f) (hl : s.lockstep = true) (ha : accept s s.cur f s.pc (s.c.capture f) = .ok e)
    (hs : StartsAt s e) (hop : f.op = .recv) : exec i s = .next (boundState (acceptedState s e) s.cur e) := by
  obtain ⟨hviq, hrun⟩ := acceptedState_alone (e := e) hl
  refine exec_leaves hf hl ha ?_ ((run_boundState ..).trans hrun)
  rw [startNext_of hviq hrun hs.1 hs.2, accept_form ha, hop]

theorem exec_mcast (hf : formOf i = some f) (hl : s.lockstep = true) (ha : accept s s.cur f s.pc (s.c.capture f) = .ok e)
    (hs : StartsAt s e) (hop : f.op = .mcast) :
    let b := startedState (reservedState (acceptedState s e) s.cur e) s.cur e
    exec i s = .next (retire b (landStrip b s.cur) s.cur (b.ctx s.cur)) := by
  intro b
  obtain ⟨hviq, hrun⟩ := acceptedState_alone (e := e) hl
  have hop' : e.form.op = .mcast := (accept_form ha).symm ▸ hop
  have hr : e.form.op.restart ≠ .element := by rw [hop']; exact nofun
  have hb : (b.ctx s.cur).run = [e] := run_startedState ..
  rw [exec_starts hf hl ha (t := b) (by rw [startNext_of hviq hrun hs.1 hs.2, hop']) hb]
  exact congrArg Host.Outcome.next (backEnd_carry ((carry_complete hb hr).trans (by rw [completeRun_of hb hr, hop'])))

end

/-- Settles O40: what the Whole-class, lane-matrix, tile and multicast forms do at their start and at their completion. -/
theorem vectorCompletes : Obligations.VectorCompletes := by
  refine ⟨fun i f s e hf hl ha hop hc ho => exec_whole hf hl ha ⟨hc, ho⟩ ?_, fun i f s e hf hl ha hc ho => ?_⟩
  · revert hop
    cases f.op <;> simp [VOp.wholeOnRegisters]
  · have hform := accept_form ha
    have hrun : ((startedState (acceptedState s e) s.cur e).ctx s.cur).run = [e] := run_startedState ..
    refine ⟨fun hop => exec_onLanes hf hl ha ⟨hc, ho⟩ ?_, fun hop => ⟨?_, acceptedState_shape (hform.symm ▸ hop)⟩,
      fun hop => ?_, fun hop => ?_, exec_recv hf hl ha ⟨hc, ho⟩, fun hop => ?_⟩
    · revert hop
      cases f.op <;> simp [VOp.onLanes]
    · refine exec_completes hf hl ha ⟨hc, ho⟩ (by rw [hop]; rfl) (by rw [hop]; exact nofun) ?_
      rw [completeRun_of hrun (by rw [hform, hop]; exact nofun), hform, hop]
    · have hcls : f.op.plain = true ∧ f.op.restart ≠ .element := by
        rcases hop with hop | hop <;> rw [hop] <;> exact ⟨rfl, nofun⟩
      refine exec_completes hf hl ha ⟨hc, ho⟩ hcls.1 hcls.2 ?_
      rw [completeRun_of hrun (hform.symm ▸ hcls.2), hform]
      rcases hop with hop | hop <;> rw [hop]
    · rw [exec_detached hf hl ha ⟨hc, ho⟩ hop, ← hform]
      rfl
    · exact (exec_mcast hf hl ha ⟨hc, ho⟩ hop).trans (by rw [← hform]; rfl)

/-! ## Addresses and accesses -/

section
variable {s t : State} {q : Nat} {e : VqEntry} {c : Ctx} {i n : Nat}

theorem loadElems_inactive (hop : ∃ m b o, e.form.op = .ld m b o) (h : c.active e i = false) :
    loadElems s q e c [i] = .ok (s, c) := by
  obtain ⟨m, b, o, hop⟩ := hop
  unfold loadElems
  simp only [List.foldlM_cons, List.foldlM_nil, h, hop]
  rfl

theorem loadElems_active (h : c.active e i = true) (hl : loadAt s q e.ipc (c.ea e i) e.esz = .ok (t, n)) :
    loadElems s q e c [i] = .ok (lastUse t q e.form.pol (c.ea e i) e.esz,
      if e.form.touch then c else c.putElem e e.form.d i (e.loaded i n)) := by
  unfold loadElems
  simp only [List.foldlM_cons, List.foldlM_nil, h, hl, Bool.not_true, Bool.false_and, Bool.false_eq_true, if_false, ok_bind]
  rfl

theorem lastUse_kept {p m : Nat} {a : Word} (h : p ≠ 2) : lastUse t q p a m = t := by
  unfold lastUse
  exact if_pos (bne_iff_ne.mpr h)

end

section
variable {i : Instr} {f : VForm} {s u : State} {e : VqEntry}

theorem exec_elements (hf : formOf i = some f) (hl : s.lockstep = true) (ha : accept s s.cur f s.pc (s.c.capture f) = .ok e)
    (hs : StartsAt s e) (hr : f.op.restart = .element)
    (hu : commitAll s.cur (((startedState (acceptedState s e) s.cur e).ctx s.cur).runEnd
      - ((startedState (acceptedState s e) s.cur e).ctx s.cur).runG) (startedState (acceptedState s e) s.cur e) = .ok u)
    (hrun : (u.ctx s.cur).run = [e]) (hend : (u.ctx s.cur).runEnd ≤ (u.ctx s.cur).runG) :
    exec i s = .next (retire u u s.cur (u.ctx s.cur)) := by
  have hr' : e.form.op.restart = .element := (accept_form ha).symm ▸ hr
  exact exec_plain hf hl ha hs (plain_of_element hr)
    ((carry_elements (run_startedState ..) hr' hu).trans (completeRun_elements hrun hr' hend))

theorem exec_loads (hf : formOf i = some f) (hl : s.lockstep = true) (ha : accept s s.cur f s.pc (s.c.capture f) = .ok e)
    (hs : StartsAt s e) (hp : f.op.plain = true) (hr : f.op.restart ≠ .element)
    {m : Except Stop (State × Ctx)} {y : Ctx} (hm : m = .ok (u, y))
    (hu : completeRun (startedState (acceptedState s e) s.cur e) s.cur
      = m >>= fun r => .ok (retire (startedState (acceptedState s e) s.cur e) r.1 s.cur r.2)) :
    exec i s = .next (retire (startedState (acceptedState s e) s.cur e) u s.cur y) :=
  exec_completes hf hl ha hs hp hr (hu.trans (by rw [hm]; rfl))

theorem exec_wst (hf : formOf i = some f) (hl : s.lockstep = true) (ha : accept s s.cur f s.pc (s.c.capture f) = .ok e)
    (hs : StartsAt s e) (hop : f.op = .wst) (hu : storeLanes (acceptedState s e) s.cur e = .ok u) :
    let v := startedState u s.cur e
    exec i s = .next (retire v v s.cur (v.ctx s.cur)) := by
  intro v
  obtain ⟨hviq, hrun⟩ := acceptedState_alone (e := e) hl
  have hop' : e.form.op = .wst := (accept_form ha).symm ▸ hop
  have hr : e.form.op.restart ≠ .element := by rw [hop']; exact nofun
  have hv : (v.ctx s.cur).run = [e] := run_startedState ..
  have hstart : startNext (acceptedState s e) s.cur = .ok v := by
    rw [startNext_of hviq hrun hs.1 hs.2, hop']
    dsimp only
    rw [hu]
    rfl
  rw [exec_starts hf hl ha hstart hv]
  exact congrArg Host.Outcome.next (backEnd_carry ((carry_complete hv hr).trans (by rw [completeRun_of hv hr, hop'])))

end

/-- Settles O41: the memory forms run to their end in step, and each element of a load is one access at its address. -/
theorem vectorAccesses : Obligations.VectorAccesses := by
  refine ⟨fun i f s e u hf hl ha hc ho => ?_, fun c e i => ⟨?_, ?_, ?_⟩, fun s q e c i hop => ⟨loadElems_inactive hop, ?_, ?_, ?_⟩⟩
  · have hrun : ((startedState (acceptedState s e) s.cur e).ctx s.cur).run = [e] := run_startedState ..
    have hform := accept_form ha
    refine ⟨fun hr _ hu => exec_elements hf hl ha ⟨hc, ho⟩ hr hu, fun b d hop y hm => ?_, fun b d hop y hm => ?_,
      fun hop y hm => ?_, exec_wst hf hl ha ⟨hc, ho⟩⟩
    · refine exec_loads hf hl ha ⟨hc, ho⟩ (by rw [hop]; rfl) (by rw [hop]; exact nofun) hm ?_
      rw [completeRun_of hrun (by rw [hform, hop]; exact nofun), hform, hop]
    · refine exec_loads hf hl ha ⟨hc, ho⟩ (by rw [hop]; rfl) (by rw [hop]; exact nofun) hm ?_
      rw [completeRun_of hrun (by rw [hform, hop]; exact nofun), hform, hop]
    · refine exec_loads hf hl ha ⟨hc, ho⟩ (by rw [hop]; rfl) (by rw [hop]; exact nofun) hm ?_
      rw [completeRun_of hrun (by rw [hform, hop]; exact nofun), hform, hop]
  · rintro ⟨b, o, hop | hop⟩ <;> rw [Ctx.ea, hop]
  · rintro ⟨b, o, hop | hop⟩ <;> rw [Ctx.ea, hop]
  · intro hop h8
    have hesz : e.esz = ewOf (e.tag e.form.d) / 8 := Nat.max_eq_right (by omega)
    obtain ⟨b, o, hop | hop⟩ := hop <;> simp only [Ctx.ea, hop, hesz] <;> rfl
  · intro t n hon htouch hload
    exact (loadElems_active hon hload).trans (by rw [htouch]; rfl)
  · intro t n hon htouch hload
    exact (loadElems_active hon hload).trans (by rw [htouch]; rfl)
  · exact fun t hp => lastUse_kept hp

end Sys2Proof.Machine
end

