-- ==== Sys2Proof/Proofs/VectorElements.lean ====
section
/-!
The elements of a vector register as bits of it, and what an element of an Element-class form leaves alone (O43), with the mask
and the permuting forms (O44).
-/
namespace Sys2Proof.Machine

/-! ## Elements as bits -/

section
variable {ew : Nat} (hw : ew ∈ [2, 4, 8, 16, 32, 64])
include hw

theorem width_pos : 0 < ew := by
  simp only [List.mem_cons, List.not_mem_nil, or_false] at hw
  omega

/-- An element lies within its register. -/
theorem slot_le (i : Nat) : ew * (i % (4096 / ew)) + ew ≤ 4096 := by
  have hper : ew * (4096 / ew) = 4096 := by
    simp only [List.mem_cons, List.not_mem_nil, or_false] at hw
    rcases hw with rfl | rfl | rfl | rfl | rfl | rfl <;> rfl
  have hpos : 0 < 4096 / ew := Nat.pos_of_ne_zero fun h => by rw [h] at hper; omega
  calc ew * (i % (4096 / ew)) + ew = ew * (i % (4096 / ew) + 1) := by rw [Nat.mul_add, Nat.mul_one]
    _ ≤ ew * (4096 / ew) := Nat.mul_le_mul_left _ (Nat.mod_lt _ hpos)
    _ = 4096 := hper

end

theorem testBit_elemGet (v : Vector (BitVec 4096) 32) (r i ew k : Nat) :
    (elemGet v r i ew).testBit k
      = (decide (k < ew) && (vget v (r + i / (4096 / ew)) 0).getLsbD (ew * (i % (4096 / ew)) + k)) := by
  unfold elemGet
  rw [Nat.testBit_mod_two_pow, Nat.testBit_div_two_pow, BitVec.testBit_toNat, Nat.add_comm k]

theorem vget_elemPut_ne (v : Vector (BitVec 4096) 32) (r i ew x n : Nat) (h : n ≠ r + i / (4096 / ew)) :
    vget (elemPut v r i ew x) n 0 = vget v n 0 := vget_vset_ne _ _ _ _ _ h

/-- The bits of the register that an element was written to. -/
theorem getLsbD_elemPut (v : Vector (BitVec 4096) 32) (r i ew x b : Nat) (hr : r + i / (4096 / ew) < 32) (hb : b < 4096) :
    (vget (elemPut v r i ew x) (r + i / (4096 / ew)) 0).getLsbD b
      = if ew * (i % (4096 / ew)) ≤ b ∧ b < ew * (i % (4096 / ew)) + ew then x.testBit (b - ew * (i % (4096 / ew)))
        else (vget v (r + i / (4096 / ew)) 0).getLsbD b := by
  unfold elemPut
  dsimp only
  rw [vget_vset_same _ _ _ _ hr, BitVec.getLsbD_ofNat, testBit_setField, BitVec.testBit_toNat, decide_eq_true hb, Bool.true_and]

section
variable {v : Vector (BitVec 4096) 32} {r i j ew x : Nat} (hw : ew ∈ [2, 4, 8, 16, 32, 64])
include hw

theorem elemGet_elemPut_same (hi : r + i / (4096 / ew) < 32) : elemGet (elemPut v r i ew x) r i ew = x % 2 ^ ew := by
  have hslot := slot_le hw i
  refine Nat.eq_of_testBit_eq fun k => ?_
  rw [testBit_elemGet, Nat.testBit_mod_two_pow]
  by_cases hk : k < ew
  · rw [getLsbD_elemPut _ _ _ _ _ _ hi (by omega), if_pos (by omega), Nat.add_sub_cancel_left]
  · rw [decide_eq_false hk, Bool.false_and, Bool.false_and]

omit hw in
/-- Different elements share no bit. -/
theorem slots_apart (hne : j ≠ i) (hq : j / (4096 / ew) = i / (4096 / ew)) :
    ew * (j % (4096 / ew)) + ew ≤ ew * (i % (4096 / ew)) ∨ ew * (i % (4096 / ew)) + ew ≤ ew * (j % (4096 / ew)) := by
  have hmod : j % (4096 / ew) ≠ i % (4096 / ew) := fun h => hne (by
    rw [← Nat.div_add_mod j (4096 / ew), ← Nat.div_add_mod i (4096 / ew), hq, h])
  have hstep : ∀ a b : Nat, a < b → ew * a + ew ≤ ew * b := fun a b h => by
    rw [← Nat.mul_succ]
    exact Nat.mul_le_mul_left _ h
  rcases Nat.lt_or_gt_of_ne hmod with h | h
  · exact .inl (hstep _ _ h)
  · exact .inr (hstep _ _ h)

theorem elemGet_elemPut_ne (hne : j ≠ i) (hj : r + j / (4096 / ew) < 32) :
    elemGet (elemPut v r i ew x) r j ew = elemGet v r j ew := by
  have hslot := slot_le hw j
  refine Nat.eq_of_testBit_eq fun k => ?_
  rw [testBit_elemGet, testBit_elemGet]
  by_cases hk : k < ew
  · by_cases hq : j / (4096 / ew) = i / (4096 / ew)
    · have hapart := slots_apart (ew := ew) hne hq
      rw [hq] at hj ⊢
      rw [getLsbD_elemPut _ _ _ _ _ _ hj (by omega), if_neg (by omega)]
    · rw [vget_elemPut_ne _ _ _ _ _ _ (by omega)]
  · rw [decide_eq_false hk, Bool.false_and, Bool.false_and]

end

theorem ewOf_mem (t : Nat) : ewOf t ∈ [2, 4, 8, 16, 32, 64] := by
  unfold ewOf
  split <;> decide

/-! ## What an element writes -/

/-- `d` differs from `c` in nothing but vector registers, masks and what flags leave. -/
def Ctx.marks (c d : Ctx) : Ctx := { c with v := d.v, k := d.k, flags := d.flags, lflag := d.lflag, runArith := d.runArith }

section
variable (c : Ctx) (e : VqEntry)

theorem marks_trans {c d d' : Ctx} (h : d = c.marks d) (h' : d' = d.marks d') : d' = c.marks d' := by
  rw [h] at h'
  exact h'

theorem sticky_marks (l : Nat) (x : FlagSet) : c.sticky e l x = c.marks (c.sticky e l x) := by
  unfold Ctx.sticky
  split <;> rfl

theorem putElem_marks (r i x : Nat) : c.putElem e r i x = c.marks (c.putElem e r i x) := by
  unfold Ctx.putElem
  dsimp only
  split
  · exact marks_trans (d := { c with v := elemPut c.v r i 2 0 }) rfl (sticky_marks ..)
  · rfl

theorem setK_marks (n : Nat) (x : BitVec 8192) : c.setK n x = c.marks (c.setK n x) := by
  unfold Ctx.setK
  split <;> rfl

theorem written_marks (i : Nat) (x : Written) : c.written e i x = c.marks (c.written e i x) := by
  cases x with
  | nothing => rfl
  | result x => exact marks_trans (putElem_marks ..) (sticky_marks ..)
  | bit b lane g => exact marks_trans (setK_marks ..) (sticky_marks ..)
  | raw x => rfl
  | plain x => exact putElem_marks ..

/-- Flags are only added. -/
theorem sticky_adds (l : Nat) (x : FlagSet) : (c.sticky e l x).flags ||| c.flags = (c.sticky e l x).flags := by
  unfold Ctx.sticky
  split
  · exact BitVec.or_self
  · dsimp only
    rw [BitVec.or_comm, ← BitVec.or_assoc, BitVec.or_self]

theorem sticky_v (l : Nat) (x : FlagSet) : (c.sticky e l x).v = c.v := by
  unfold Ctx.sticky
  split <;> rfl

theorem sticky_k (l : Nat) (x : FlagSet) : (c.sticky e l x).k = c.k := by
  unfold Ctx.sticky
  split <;> rfl

/-- What an element holds that is written with the value `x`: cut to its width, and never 0b10 in a T2 register (R106, R109). -/
def keptAs (t x : Nat) : Nat := if t = tT2 ∧ x % 4 = 2 then 0 else cutElem t x

theorem putElem_v (r i x : Nat) :
    (c.putElem e r i x).v = elemPut c.v r i (ewOf (e.tag r)) (keptAs (e.tag r) x) := by
  unfold Ctx.putElem keptAs
  dsimp only
  split
  · next h =>
    rw [sticky_v, h.1]
    rfl
  · rfl

theorem putElem_k (r i x : Nat) : (c.putElem e r i x).k = c.k := by
  unfold Ctx.putElem
  dsimp only
  split
  · exact sticky_k ..
  · rfl

theorem putElem_adds (r i x : Nat) : (c.putElem e r i x).flags ||| c.flags = (c.putElem e r i x).flags := by
  unfold Ctx.putElem
  dsimp only
  split
  · exact sticky_adds { c with v := elemPut c.v r i 2 0 } ..
  · exact BitVec.or_self

/-- A write reaches no register element but its own. -/
theorem written_v (i : Nat) (x : Written) : (c.written e i x).v = c.v ∨
    ∃ y, (c.written e i x).v = elemPut c.v e.form.d i (ewOf (e.tag e.form.d)) y := by
  cases x with
  | nothing => exact .inl rfl
  | result x => exact .inr ⟨_, (sticky_v ..).trans (putElem_v ..)⟩
  | bit b lane g => exact .inl ((sticky_v ..).trans (Ctx.setK_v ..))
  | raw x => exact .inr ⟨_, rfl⟩
  | plain x => exact .inr ⟨_, putElem_v ..⟩

theorem setK_k_ne (d : Nat) (x : BitVec 8192) {n : Nat} (h : n ≠ d) : vget (c.setK d x).k n 0 = vget c.k n 0 := by
  unfold Ctx.setK
  split
  · rfl
  · exact vget_vset_ne _ _ _ _ _ h

theorem written_k (i : Nat) (x : Written) {n : Nat} (h : n ≠ e.form.d) : vget (c.written e i x).k n 0 = vget c.k n 0 := by
  cases x with
  | nothing => rfl
  | result x => exact congrArg (vget · n 0) ((sticky_k ..).trans (putElem_k ..))
  | bit b lane g => exact (congrArg (vget · n 0) (sticky_k ..)).trans (setK_k_ne _ _ _ h)
  | raw x => rfl
  | plain x => exact congrArg (vget · n 0) (putElem_k ..)

theorem or_adds {n : Nat} {a b c : BitVec n} (h : b ||| a = b) (h' : c ||| b = c) : c ||| a = c := by
  rw [← h', BitVec.or_assoc, h]

theorem written_adds (i : Nat) (x : Written) : (c.written e i x).flags ||| c.flags = (c.written e i x).flags := by
  cases x with
  | nothing => exact BitVec.or_self
  | result x => exact or_adds (putElem_adds ..) (sticky_adds ..)
  | bit b lane g => exact or_adds (by rw [Ctx.putBit, Ctx.setK_flags, BitVec.or_self]) (sticky_adds (c.putBit e.form.d i b) e lane g)
  | raw x => exact BitVec.or_self
  | plain x => exact putElem_adds ..

end

/-- Settles O43: a register is its elements, and an element of an Element-class form is all that the form writes. -/
theorem elements : Obligations.Elements := by
  refine ⟨⟨?_, ?_, by decide⟩, ?_⟩
  · intro v r i j ew x hw hi u
    exact ⟨elemGet_elemPut_same hw hi, elemGet_elemPut_ne hw, fun n _ hn => vget_elemPut_ne _ _ _ _ _ _ hn⟩
  · intro v r i ew hw k hk
    rw [testBit_elemGet, decide_eq_true hk, Bool.true_and]
  · intro c e i hr hm hd d
    obtain ⟨x, hoff, hx⟩ := element_written c e i
    have hdx : d = c.written e i x := hx c.worked c.runG
    have hmarks := written_marks c e i x
    have hv := written_v c e i x
    rw [← hdx] at hmarks hv
    refine ⟨fun r n _ hn _ => ?_, fun j hj hj32 => ?_, fun hon hgov => ?_, fun n _ hn => ?_, rfl, ?_, ?_, ?_, ?_, ?_, ?_, ?_,
      ?_, ?_, ?_, ?_, hdx ▸ written_adds c e i x⟩
    · rcases hv with hv | ⟨y, hv⟩
      · rw [hv]
      · rw [hv, vget_elemPut_ne _ _ _ _ _ _ hn]
    · rcases hv with hv | ⟨y, hv⟩
      · rw [Ctx.elem, Ctx.elem, hv]
      · rw [Ctx.elem, hv]
        exact elemGet_elemPut_ne (ewOf_mem _) hj hj32
    · have hgov' : e.form.op.governed = true := by
        revert hgov
        cases e.form.op <;> simp [VOp.governed]
      rw [hdx, hoff hgov' hon]
      rfl
    · rw [hdx]
      exact written_k c e i x hn
    all_goals
      rw [hmarks]
      rfl

/-! ## The mask forms -/

theorem count_foldl (p : Nat → Bool) (l : List Nat) (n : Nat) :
    l.foldl (fun m i => if p i then m + 1 else m) n = n + (l.filter p).length := by
  induction l generalizing n with
  | nil => rfl
  | cons i l ih =>
    rw [List.foldl_cons, ih, List.filter_cons]
    cases p i
    · rfl
    · rw [if_pos rfl, if_pos rfl, List.length_cons]
      omega

theorem popBelow_eq (k : BitVec 8192) (n : Nat) : popBelow k n = ((List.range n).filter fun i => k.getLsbD i).length :=
  (count_foldl _ _ _).trans (Nat.zero_add _)

theorem getS_fill (c : Ctx) (x : Word) {d : Nat} (h0 : d ≠ 0) (h : d < 32) : (c.fill d x).getS d = x :=
  Ctx.getS_setS c d x h0 h

theorem getK_setK (c : Ctx) (x : BitVec 8192) {d : Nat} (h0 : d ≠ 0) (h : d < 8) : (c.setK d x).getK d = x := by
  unfold Ctx.setK Ctx.getK
  rw [if_neg h0, if_neg h0]
  exact vget_vset_same _ _ _ _ h

theorem find_lowest {p : Nat → Bool} {n v : Nat} (hn : n < v) (hp : p n = true) (hlow : ∀ i < n, p i = false) :
    (List.range v).find? p = some n := by
  rw [List.find?_range_eq_some]
  exact ⟨hp, List.mem_range.mpr hn, fun j hj => by rw [hlow j hj]; rfl⟩

theorem find_none {p : Nat → Bool} {v : Nat} (h : ∀ i < v, p i = false) : (List.range v).find? p = none := by
  rw [List.find?_eq_none]
  exact fun i hi => by rw [h i (List.mem_range.mp hi)]; decide

theorem getLsbD_kvl (n : Nat) {i : Nat} (h : i < 8192) :
    (BitVec.ofNat 8192 (2 ^ (min 8192 n) - 1)).getLsbD i = decide (i < n) := by
  rw [BitVec.getLsbD_ofNat, Nat.testBit_two_pow_sub_one, decide_eq_true h, Bool.true_and]
  exact decide_eq_decide.mpr (by omega)

/-! ## Many elements written -/

/-- One element of a run of elements written, each with what `g` gives for it. -/
theorem elemGet_foldl (v : Vector (BitVec 4096) 32) {r ew : Nat} (hw : ew ∈ [2, 4, 8, 16, 32, 64]) (g : Nat → Nat)
    (is : List Nat) {j : Nat} (hj : r + j / (4096 / ew) < 32) :
    elemGet (is.foldl (fun v i => elemPut v r i ew (g i)) v) r j ew = if j ∈ is then g j % 2 ^ ew else elemGet v r j ew := by
  induction is generalizing v with
  | nil => rfl
  | cons i is ih =>
    rw [List.foldl_cons, ih]
    by_cases hmem : j ∈ is
    · rw [if_pos hmem, if_pos (List.mem_cons_of_mem _ hmem)]
    · rw [if_neg hmem]
      by_cases hji : j = i
      · subst hji
        rw [elemGet_elemPut_same hw hj, if_pos List.mem_cons_self]
      · rw [elemGet_elemPut_ne hw hji hj, if_neg (by simp [hji, hmem])]

section
variable (c : Ctx) (e : VqEntry)

theorem rawAll_v (g : Nat → Nat) (is : List Nat) :
    (c.rawAll e (is.map fun i => (i, g i))).v
      = is.foldl (fun v i => elemPut v e.form.d i (ewOf (e.tag e.form.d)) (g i)) c.v := by
  unfold Ctx.rawAll
  induction is generalizing c with
  | nil => rfl
  | cons i is ih => exact ih (c.putRaw e e.form.d i (g i))

theorem putAll_v (g : Nat → Nat) (is : List Nat) :
    (c.putAll e (is.map fun i => (i, g i))).v
      = is.foldl (fun v i => elemPut v e.form.d i (ewOf (e.tag e.form.d)) (keptAs (e.tag e.form.d) (g i))) c.v := by
  unfold Ctx.putAll
  induction is generalizing c with
  | nil => rfl
  | cons i is ih =>
    rw [List.map_cons, List.foldl_cons, ih, putElem_v]
    rfl

theorem elem_lt (r i : Nat) : c.elem e r i < 2 ^ ewOf (e.tag r) := Nat.mod_lt _ (Nat.two_pow_pos _)

theorem mem_actives (i : Nat) : i ∈ c.actives e ↔ i < e.vl ∧ c.active e i = true := by
  unfold Ctx.actives
  rw [List.mem_filter, List.mem_range]

variable {c e} {i : Nat}

/-- An active element takes what a permuting form moves to it. -/
theorem elem_rawAll (g : Nat → Nat) (hfit : e.form.d + i / (4096 / ewOf (e.tag e.form.d)) < 32) (hi : i < e.vl)
    (hon : c.active e i = true) (hg : g i < 2 ^ ewOf (e.tag e.form.d)) :
    (c.rawAll e ((c.actives e).map fun i => (i, g i))).elem e e.form.d i = g i := by
  unfold Ctx.elem
  rw [rawAll_v, elemGet_foldl _ (ewOf_mem _) _ _ hfit, if_pos ((mem_actives c e i).mpr ⟨hi, hon⟩), Nat.mod_eq_of_lt hg]

theorem elem_putAll (g : Nat → Nat) (hfit : e.form.d + i / (4096 / ewOf (e.tag e.form.d)) < 32) (hi : i < e.vl)
    (hon : c.active e i = true) :
    (c.putAll e ((c.actives e).map fun i => (i, g i))).elem e e.form.d i
      = keptAs (e.tag e.form.d) (g i) % 2 ^ ewOf (e.tag e.form.d) := by
  unfold Ctx.elem
  rw [putAll_v, elemGet_foldl _ (ewOf_mem _) _ _ hfit, if_pos ((mem_actives c e i).mpr ⟨hi, hon⟩)]

theorem elem_rawAll_inactive (g : Nat → Nat) (hfit : e.form.d + i / (4096 / ewOf (e.tag e.form.d)) < 32)
    (hoff : c.active e i = false) :
    (c.rawAll e ((c.actives e).map fun i => (i, g i))).elem e e.form.d i = c.elem e e.form.d i := by
  unfold Ctx.elem
  rw [rawAll_v, elemGet_foldl _ (ewOf_mem _) _ _ hfit, if_neg fun h => by
    rw [mem_actives, hoff] at h
    exact Bool.false_ne_true h.2]

theorem elem_putAll_inactive (g : Nat → Nat) (hfit : e.form.d + i / (4096 / ewOf (e.tag e.form.d)) < 32)
    (hoff : c.active e i = false) :
    (c.putAll e ((c.actives e).map fun i => (i, g i))).elem e e.form.d i = c.elem e e.form.d i := by
  unfold Ctx.elem
  rw [putAll_v, elemGet_foldl _ (ewOf_mem _) _ _ hfit, if_neg fun h => by
    rw [mem_actives, hoff] at h
    exact Bool.false_ne_true h.2]

/-- What is kept of a value that an element of the width can hold. -/
theorem keptAs_mod {t x : Nat} (hx : x < 2 ^ ewOf t) :
    keptAs t x % 2 ^ ewOf t = if t = tT2 ∧ x = 2 then 0 else if t = tE3M2 ∨ t = tE2M3 then x % 64 else x := by
  have hcut : cutElem t x < 2 ^ ewOf t := by
    unfold cutElem
    split
    · exact (Nat.mod_le _ _).trans_lt hx
    · exact hx
  have hT2 : t = tT2 ∧ x % 4 = 2 ↔ t = tT2 ∧ x = 2 := and_congr_right fun h => by
    subst h
    rw [Nat.mod_eq_of_lt (show x < 4 from hx)]
  unfold keptAs
  rw [if_congr hT2 rfl rfl]
  split
  · exact Nat.zero_mod _
  · exact Nat.mod_eq_of_lt hcut

end

/-- Settles O44: the mask forms read and write bits below vl, and each active element of a permuting form takes its source. -/
theorem maskAndPermuteForms : Obligations.MaskAndPermuteForms := by
  refine ⟨fun c e => ⟨?_, ?_, ?_, rfl, fun k => if_pos rfl⟩, ?_⟩
  · intro hop h0 h
    have hwhole : c.whole e = c.fill e.form.d (word (popBelow (c.getK e.form.a) e.vl)) := by rw [Ctx.whole, hop]
    rw [hwhole, getS_fill _ _ h0 h, popBelow_eq]
  · intro hop h0 h
    have hwhole : c.whole e = c.fill e.form.d (match (List.range e.vl).find? (c.getK e.form.a).getLsbD with
        | some i => word i
        | none => BitVec.allOnes 64) := by rw [Ctx.whole, hop] <;> rfl
    rw [hwhole, getS_fill _ _ h0 h]
    refine ⟨fun n hn hp hlow => ?_, fun hnone => ?_⟩
    · rw [find_lowest hn hp hlow]
    · rw [find_none hnone]
  · intro h0 h i hi
    rw [Ctx.writeKvl, getK_setK _ _ h0 h, getLsbD_kvl _ hi]
  · intro c e hd f on fits kept hfits hta htb
    have ha : ∀ j, c.elem e f.a j < 2 ^ ewOf (e.tag f.d) := fun j => hta ▸ elem_lt c e f.a j
    have hb : f.op ≠ .perm → ∀ j, c.elem e f.b j < 2 ^ ewOf (e.tag f.d) := fun h j =>
      (htb.resolve_right h) ▸ elem_lt c e f.b j
    have hzip : f.op = .zip → c.whole e = c.rawAll e ((c.actives e).map fun i =>
        (i, if i % 2 = 0 then c.elem e f.a (i / 2) else c.elem e f.b ((i - 1) / 2))) := fun hop => by
      rw [Ctx.whole, show e.form.op = .zip from hop]
    have hunzip : f.op = .unzip → c.whole e = c.rawAll e ((c.actives e).map fun i =>
        (i, if 2 * i < e.vl then c.elem e f.a (2 * i) else c.elem e f.b (2 * i - e.vl))) := fun hop => by
      rw [Ctx.whole, show e.form.op = .unzip from hop]
    have htrn : f.op = .trn → c.whole e = c.rawAll e ((c.actives e).map fun i =>
        (i, if i % 2 = 0 then c.elem e f.a i else c.elem e f.b (i - 1))) := fun hop => by
      rw [Ctx.whole, show e.form.op = .trn from hop]
    have hperm : f.op = .perm → c.whole e = c.putAll e ((c.actives e).map fun i =>
        (i, if 0 ≤ intOf (e.tag f.b) (c.elem e f.b i) ∧ intOf (e.tag f.b) (c.elem e f.b i) < e.vl
          then c.elem e f.a (intOf (e.tag f.b) (c.elem e f.b i)).toNat else 0)) := fun hop => by
      rw [Ctx.whole, show e.form.op = .perm from hop]
    refine ⟨fun hop i hi hon => ?_, fun hop i hi hon => ?_, fun hop i hi hon => ?_, fun hop i hi hon => ?_, fun hop => ?_,
      fun i hi hoff hop => ?_⟩
    · have hb := hb (by rw [hop]; exact nofun)
      rw [hzip hop, elem_rawAll _ (hfits i hi) hi hon (by split; exacts [ha _, hb _])]
      split
      · rfl
      · rw [show (i - 1) / 2 = i / 2 by omega]
    · have hb := hb (by rw [hop]; exact nofun)
      rw [hunzip hop, elem_rawAll _ (hfits i hi) hi hon (by split; exacts [ha _, hb _])]
    · have hb := hb (by rw [hop]; exact nofun)
      rw [htrn hop, elem_rawAll _ (hfits i hi) hi hon (by split; exacts [ha _, hb _])]
    · rw [hperm hop, elem_putAll _ (hfits i hi) hi hon, keptAs_mod]
      split
      · exact ha _
      · exact Nat.two_pow_pos _
    · have hcomp : (c.whole e).sc.vl = ((c.actives e).map (c.elem e f.a ·)).length := by
        rw [Ctx.whole, show e.form.op = .comp from hop]
      rw [hcomp, List.length_map]
      rfl
    · rcases hop with hop | hop | hop | hop
      · rw [hzip hop, elem_rawAll_inactive _ (hfits i hi) hoff]
      · rw [hunzip hop, elem_rawAll_inactive _ (hfits i hi) hoff]
      · rw [htrn hop, elem_rawAll_inactive _ (hfits i hi) hoff]
      · rw [hperm hop, elem_putAll_inactive _ (hfits i hi) hoff]

end Sys2Proof.Machine
end

