-- ==== Sys2Proof/Proofs/Retirement.lean ====
section
/-!
What a vector-queue instruction does when it retires (O45), by the parts of the completion.
-/
namespace Sys2Proof.Machine

/-! ## The parts of a completion -/

/-- A kvl writes its mask. -/
def Ctx.kvlWritten (c : Ctx) (e : VqEntry) : Ctx :=
  match e.form.op with
  | .kvl => c.writeKvl e
  | _ => c

/-- The vector destinations are full. -/
def Ctx.vFilled (c : Ctx) (e : VqEntry) : Ctx :=
  if e.form.emptiesV then
    { c with feV := (List.range (2 ^ e.grp e.form.d)).foldl (fun m i => setBit m (e.form.d + i) true) c.feV }
  else c

/-- The lane-matrix destinations are full, and a vcomp's vl holds for younger positions. -/
def Ctx.othersFilled (c : Ctx) (e : VqEntry) : Ctx :=
  match e.form.op with
  | .wld => { c with feW := (wRegs e.form.p e.form.d false).foldl (fun m r => setBit m r.1 true) c.feW }
  | .comp => c.later e.ord fun p => { p with vl := c.sc.vl }
  | _ => c

/-- The scalar destination is full, and its value is with the instructions that wait for it. -/
def Ctx.scalarSupplied (c : Ctx) (e : VqEntry) : Ctx :=
  match e.roles.sd with
  | some d => if d = 0 then c else
      { c.deliver d (c.getS d) e.ord with viq := supply d (c.getS d) (c.deliver d (c.getS d) e.ord).viq }
  | none => c

/-- RSR rounding steps lfsr once an element. -/
def Ctx.lfsrStepped (c : Ctx) (e : VqEntry) : Ctx :=
  if e.rsr then { c with lfsr := lfsrSteps c.lfsr (if e.form.op = .tepi then 64 else e.vl) } else c

theorem finish_eq (c : Ctx) (e : VqEntry) :
    c.finish e = ((((c.kvlWritten e).vFilled e).othersFilled e).scalarSupplied e).lfsrStepped e := rfl

/-- What no part of a completion but the last changes. -/
structure Retained (c d : Ctx) : Prop where
  run : c.run = [] → d.run = []
  arith : d.runArith = c.runArith
  lfsr : d.lfsr = c.lfsr
  v : d.v = c.v
  w : d.w = c.w
  sb : d.sb.length = c.sb.length

theorem Retained.refl (c : Ctx) : Retained c c := ⟨id, rfl, rfl, rfl, rfl, rfl⟩

theorem Retained.trans {c d d' : Ctx} (h : Retained c d) (h' : Retained d d') : Retained c d' :=
  ⟨h'.run ∘ h.run, h'.arith.trans h.arith, h'.lfsr.trans h.lfsr, h'.v.trans h.v, h'.w.trans h.w, h'.sb.trans h.sb⟩

section
variable (c : Ctx) (e : VqEntry)

theorem retained_later (n : Nat) (f : Scal → Scal) : Retained c (c.later n f) :=
  ⟨fun h => by unfold Ctx.later; rw [h]; rfl, rfl, rfl, rfl, rfl, List.length_map _⟩

theorem retained_setK (n : Nat) (x : BitVec 8192) : Retained c (c.setK n x) := by
  refine ⟨fun h => ?_, Ctx.setK_runArith .., Ctx.setK_lfsr .., Ctx.setK_v .., Ctx.setK_w .., ?_⟩
  · rw [Ctx.setK_run, h]
  · rw [Ctx.setK_sb]

theorem retained_fill (d : Nat) (x : Word) : Retained c (c.fill d x) := by
  refine ⟨fun h => ?_, Ctx.fill_runArith .., Ctx.fill_lfsr .., Ctx.fill_v .., Ctx.fill_w .., ?_⟩
  · rw [Ctx.fill_run, h]
  · rw [Ctx.fill_sb]

theorem retained_kvlWritten : Retained c (c.kvlWritten e) := by
  unfold Ctx.kvlWritten
  split
  · exact retained_setK ..
  · exact Retained.refl c

theorem retained_vFilled : Retained c (c.vFilled e) := by
  unfold Ctx.vFilled
  split
  · exact ⟨id, rfl, rfl, rfl, rfl, rfl⟩
  · exact Retained.refl c

theorem retained_othersFilled : Retained c (c.othersFilled e) := by
  unfold Ctx.othersFilled
  split
  · exact ⟨id, rfl, rfl, rfl, rfl, rfl⟩
  · exact retained_later ..
  · exact Retained.refl c

theorem retained_deliver (d : Nat) (x : Word) (n : Nat) : Retained c (c.deliver d x n) := by
  unfold Ctx.deliver
  split
  · exact retained_fill ..
  · exact (retained_fill ..).trans (retained_later ..)

theorem retained_scalarSupplied : Retained c (c.scalarSupplied e) := by
  unfold Ctx.scalarSupplied
  split
  · split
    · exact Retained.refl c
    · obtain ⟨h1, h2, h3, h4, h5, h6⟩ := retained_deliver c ‹_› (c.getS ‹_›) e.ord
      exact ⟨h1, h2, h3, h4, h5, h6⟩
  · exact Retained.refl c

/-! The full/empty bits. -/

theorem feV_othersFilled : (c.othersFilled e).feV = c.feV := by
  unfold Ctx.othersFilled
  split <;> rfl

theorem feV_scalarSupplied : (c.scalarSupplied e).feV = c.feV := by
  unfold Ctx.scalarSupplied
  split
  · split
    · rfl
    · dsimp only
      unfold Ctx.deliver
      split
      · exact Ctx.fill_feV ..
      · exact Ctx.fill_feV ..
  · rfl

theorem getLsbD_fillBits {n : Nat} (m : BitVec n) (d k j : Nat) (hj : j < n) (hin : d ≤ j ∧ j < d + k) :
    ((List.range k).foldl (fun m i => setBit m (d + i) true) m).getLsbD j = true := by
  induction k with
  | zero => omega
  | succ k ih =>
    rw [List.range_succ, List.foldl_append, List.foldl_cons, List.foldl_nil, getLsbD_setBit _ _ _ _ hj]
    by_cases h : j = d + k
    · rw [if_pos h]
    · rw [if_neg h, ih ⟨hin.1, by omega⟩]

theorem feS_scalarSupplied {n : Nat} (h : e.roles.sd = some n) (hn : n < 32) (h0 : n ≠ 0) :
    (c.scalarSupplied e).feS.getLsbD n = true := by
  unfold Ctx.scalarSupplied
  rw [h]
  dsimp only
  rw [if_neg h0]
  unfold Ctx.deliver
  rw [if_neg h0]
  exact (getLsbD_setBit _ _ _ _ hn).trans (if_pos rfl)

/-- What a completion leaves before its rounding state steps. -/
def Ctx.filled (c : Ctx) (e : VqEntry) : Ctx := (((c.kvlWritten e).vFilled e).othersFilled e).scalarSupplied e

theorem retained_filled : Retained c (c.filled e) :=
  (((retained_kvlWritten c e).trans (retained_vFilled _ e)).trans (retained_othersFilled _ e)).trans
    (retained_scalarSupplied _ e)

/-- What a retirement leaves of its context, but for the trap. -/
def Ctx.retired (c : Ctx) (e : VqEntry) : Ctx := { c with run := [], runG := 0 }.finish e

theorem retired_eq : c.retired e = (({ c with run := [], runG := 0 } : Ctx).filled e).lfsrStepped e := rfl

theorem lfsrStepped_run : (c.lfsrStepped e).run = c.run := by
  unfold Ctx.lfsrStepped
  split <;> rfl

theorem lfsrStepped_arith : (c.lfsrStepped e).runArith = c.runArith := by
  unfold Ctx.lfsrStepped
  split <;> rfl

theorem retired_run : (c.retired e).run = [] :=
  (lfsrStepped_run ..).trans ((retained_filled _ e).run rfl)

theorem retired_arith : (c.retired e).runArith = c.runArith :=
  (lfsrStepped_arith ..).trans (retained_filled ({ c with run := [], runG := 0 } : Ctx) e).arith

end

/-- A context at rest behind a retirement. -/
def Ctx.rested (c : Ctx) (e : VqEntry) : Ctx := { c.retired e with runArith := none, runFill := [] }

section
variable {s0 s : State} {q : Nat} {c : Ctx} {e : VqEntry}

theorem retire_quiet (hrun : c.run = [e]) (ha : c.runArith = none) : retire s0 s q c = s.setCtx q (c.rested e) := by
  have harith : (c.retired e).arith = none := by rw [Ctx.arith, retired_arith, ha]; rfl
  unfold retire
  rw [hrun]
  change (match (c.retired e).arith with
    | some t => _
    | none => s.setCtx q (c.rested e)) = _
  rw [harith]

theorem retire_traps {n : Nat} {pc : Word} (hrun : c.run = [e]) (ha : c.runArith = some (n, pc)) :
    retire s0 s q c = takeGated s0 (s.setCtx q (c.rested e)) q { classA cARITH 0 pc pc with late := true } fun u =>
      takeTrapAt u q { classA cARITH 0 pc pc with late := true } (some (e.ord + 1, (c.rested e).behind e [e])) := by
  have harith : (c.retired e).arith = some { classA cARITH 0 pc pc with late := true } := by
    rw [Ctx.arith, retired_arith, ha]
    rfl
  unfold retire
  rw [hrun]
  change (match (c.retired e).arith with
    | some t => takeGated s0 (s.setCtx q (c.rested e)) q t fun u =>
        takeTrapAt u q t (some (e.ord + 1, (c.rested e).behind e [e]))
    | none => _) = _
  rw [harith]

theorem retired_feV (hv : e.form.emptiesV = true) {n : Nat} (hn : n < 32) (hlo : e.form.d ≤ n)
    (hhi : n < e.form.d + 2 ^ e.grp e.form.d) : (c.retired e).feV.getLsbD n = true := by
  have hl : ∀ c : Ctx, (c.lfsrStepped e).feV = c.feV := fun c => by unfold Ctx.lfsrStepped; split <;> rfl
  rw [retired_eq, hl, Ctx.filled, feV_scalarSupplied, feV_othersFilled, Ctx.vFilled, if_pos hv]
  exact getLsbD_fillBits _ _ _ _ hn ⟨hlo, hhi⟩

theorem retired_feS {n : Nat} (h : e.roles.sd = some n) (hn : n < 32) (h0 : n ≠ 0) : (c.retired e).feS.getLsbD n = true := by
  have hl : ∀ c : Ctx, (c.lfsrStepped e).feS = c.feS := fun c => by unfold Ctx.lfsrStepped; split <;> rfl
  rw [retired_eq, hl, Ctx.filled]
  exact feS_scalarSupplied _ e h hn h0

theorem retired_lfsr : (c.retired e).lfsr
    = if e.rsr then lfsrSteps c.lfsr (if e.form.op = .tepi then 64 else e.vl) else c.lfsr := by
  have hf := (retained_filled ({ c with run := [], runG := 0 } : Ctx) e).lfsr
  rw [retired_eq, Ctx.lfsrStepped]
  split
  · dsimp only
    rw [hf]
  · exact hf

/-- The last part changes nothing but the rounding state. -/
theorem retired_kept : (c.retired e).v = c.v ∧ (c.retired e).w = c.w ∧ (c.retired e).sb.length = c.sb.length := by
  obtain ⟨-, -, -, hv, hw, hsb⟩ := retained_filled ({ c with run := [], runG := 0 } : Ctx) e
  rw [retired_eq, Ctx.lfsrStepped]
  split
  · exact ⟨hv, hw, hsb⟩
  · exact ⟨hv, hw, hsb⟩

/-- Where the scalar side stands behind an instruction that writes it nothing. -/
theorem behind_plain (d : Ctx) (hr : e.resumed = false) (ha : e.snap.armed = false) (hop : e.form.op ≠ .comp)
    (hsd : e.roles.sd = none) : d.behind e [e] = e.snap.next := by
  have hop' : (e.form.op == .comp) = false := beq_eq_false_iff_ne.mpr hop
  unfold Ctx.behind
  simp [hr, ha, hop', hsd]

end

/-- Settles O45: a retirement is its completion's parts, and the trap of the flags that its chain raised. -/
theorem retirement : Obligations.Retirement := by
  intro s0 s q c e hrun
  refine ⟨fun harith => ⟨c.rested e, retire_quiet hrun harith, retired_run c e, rfl, fun hv hfit n hlo hhi => ?_,
      fun n hn hsd => ?_, retired_lfsr, retired_kept⟩,
    fun n pc harith => ⟨c.rested e, retired_run c e, rfl, retire_traps hrun harith, behind_plain _⟩⟩
  · exact retired_feV hv (by omega) hlo hhi
  · by_cases h0 : n = 0
    · exact .inr h0
    · exact .inl (retired_feS hsd hn h0)

end Sys2Proof.Machine
end

