-- ==== Sys2Proof/Proofs/Traps.lean ====
section
/-!
Taking a trap (O50). What the post to the keeper and the rest leave of a context, and the stop whose RESUME is not the
instruction's address.
-/
namespace Sys2Proof.Machine

/-! ## What a post and a rest leave of the contexts -/

/-- A change of the state that leaves every context and the current sequencer. -/
def SameContexts (s t : State) : Prop := t.seqs = s.seqs ∧ t.cur = s.cur

theorem sameContexts_of_beyond {s t : State} (h : t.beyond = s.beyond) : SameContexts s t :=
  ⟨seqs_of_beyond h, cur_of_beyond h⟩

theorem SameContexts.trans {s t u : State} (h : SameContexts s t) (h' : SameContexts t u) : SameContexts s u :=
  ⟨h'.1.trans h.1, h'.2.trans h.2⟩

theorem beyond_homeEvent (s : State) (b g : Nat) : (homeEvent s b g).1.beyond = s.beyond := by
  have hexp : (exportLine s b g).beyond = s.beyond := by
    refine beyond_iterate (fun i t => beyond_iterate (fun d t => ?_) 8 0 t) _ _ s
    have h := leaves_exportWord t d (b + 4 * i) (b := t.beyond) rfl
    split <;> rename_i heq
    · rw [heq] at h
      exact h
    · rfl
  have hback : (match find (exportLine s b g).lines b with
      | some l => writeBack (exportLine s b g) b l
      | none => exportLine s b g).beyond = s.beyond := by
    split
    · exact (beyond_writeBack ..).trans hexp
    · exact hexp
  unfold homeEvent
  exact (beyond_flushAll ..).trans ((beyond_applyEvent ..).trans hback)

theorem beyond_homeGrain (s : State) (x : Option HomeAt) (a : Nat) : (homeGrain s x a).1.beyond = s.beyond := by
  unfold homeGrain
  split
  · rfl
  · split
    · rfl
    · exact beyond_homeEvent ..

theorem beyond_llcWrite (s : State) (a n v : Nat) : (llcWrite s a n v).beyond = s.beyond :=
  beyond_iterate (fun _ t => beyond_dirtyLlc t _) _ _ s

theorem beyond_updateDies (s : State) (a n : Nat) : (updateDies s a n).beyond = s.beyond :=
  beyond_overWords (fun s w => beyond_iterate (fun d t => beyond_dropDieWord t d w) 8 0 s) ..

theorem beyond_homePart (a n v g : Nat) (x : State × Option HomeAt) : (homePart a n v g x).1.beyond = x.1.beyond := by
  have hg := beyond_homeGrain x.1 x.2 g
  unfold homePart
  dsimp only
  split
  · split
    · exact hg
    · split
      · exact (beyond_updateDies ..).trans ((beyond_llcWrite ..).trans hg)
      · exact (beyond_llcWrite ..).trans hg
  · exact (beyond_llcWrite ..).trans hg

theorem beyond_recallHost (s : State) (a n : Nat) (w : Bool) : (recallHost s a n w).beyond = s.beyond := by
  unfold recallHost
  split
  · rfl
  · split
    · refine beyond_iterate (fun i t => ?_) _ _ s
      dsimp only
      split <;> rfl
    · rfl

theorem sameContexts_homeWrite (s : State) (a n v : Nat) : SameContexts s (homeWrite s a n v) := by
  have hrecall : (recallHost (addressTrigger (touchGranule s 8 a) a n) a n true).beyond = s.beyond :=
    (beyond_recallHost ..).trans ((beyond_addressTrigger ..).trans (beyond_touchGranule ..))
  have hparts := iterate_keeps (fun x : State × Option HomeAt => x.1.beyond = s.beyond)
    (fun i x => homePart a n v (a / 32 * 32 + 32 * i) x) (fun i x hx => (beyond_homePart ..).trans hx) ((a % 32 + n + 31) / 32) 0
    (recallHost (addressTrigger (touchGranule s 8 a) a n) a n true, none) hrecall
  exact (sameContexts_of_beyond hparts).trans (u := homeWrite s a n v) ⟨rfl, rfl⟩

theorem sameContexts_countEvent (s : State) (k : Nat) : SameContexts s (countEvent s k) := by
  unfold countEvent
  dsimp only
  split <;> exact ⟨rfl, rfl⟩

theorem sameContexts_postTo (s : State) (p n : Nat) (b : BitVec 1024) : SameContexts s (postTo s p n b) := by
  unfold postTo
  dsimp only
  split
  · exact (sameContexts_countEvent s 0).trans (sameContexts_homeWrite (countEvent s 0) ..)
  · split
    · exact sameContexts_countEvent s 0
    · exact sameContexts_countEvent s 0

theorem sameContexts_restRelease (s : State) (q : Nat) : SameContexts s (restRelease s q) := by
  obtain ⟨t, ht, h | h⟩ := restAs_cases s q id
  · exact sameContexts_of_beyond ((congrArg State.beyond h).trans ht)
  · exact sameContexts_of_beyond ((congrArg State.beyond h).trans ht)

theorem sameContexts_postKeeper (s : State) (q : Nat) (ev : EventWord) : SameContexts s (postKeeper s q ev) :=
  sameContexts_postTo ..

theorem resume_giveFlags (s : State) (core t p : Nat) :
    ((giveFlags s core t).ctx p).resume = (s.ctx p).resume ∧ (giveFlags s core t).cur = s.cur := by
  unfold giveFlags
  dsimp only
  split
  · next q _ =>
    split
    · exact ⟨rfl, rfl⟩
    · refine ⟨?_, rfl⟩
      by_cases h : p = q
      · subst h
        exact (congrArg Ctx.resume (State.ctx_setCtx s p _) :)
      · exact (congrArg Ctx.resume (State.ctx_setCtx_ne s q p _ h) :)
  · exact ⟨rfl, rfl⟩

theorem resume_fullTiles (s : State) (q p : Nat) :
    ((fullTiles s q).ctx p).resume = (s.ctx p).resume ∧ (fullTiles s q).cur = s.cur := by
  refine iterate_keeps (fun t => (t.ctx p).resume = (s.ctx p).resume ∧ t.cur = s.cur) _ (fun i t ht => ?_) 8 0 s ⟨rfl, rfl⟩
  dsimp only [tileFlags]
  split
  · split
    · exact ht
    · obtain ⟨hr, hc⟩ := resume_giveFlags t (q / 4) i p
      exact ⟨hr.trans ht.1, hc.trans ht.2⟩
  · exact ht

/-- Where a context that has come to rest goes on is where its squash left it. -/
theorem resume_posted (s : State) (q p : Nat) (ev : EventWord) :
    ((postKeeper (restRelease (fullTiles s q) q) q ev).ctx p).resume = (s.ctx p).resume
    ∧ (postKeeper (restRelease (fullTiles s q) q) q ev).cur = s.cur := by
  obtain ⟨hseqs, hcur⟩ := (sameContexts_restRelease (fullTiles s q) q).trans
    (sameContexts_postKeeper (restRelease (fullTiles s q) q) q ev)
  obtain ⟨hres, hcur'⟩ := resume_fullTiles s q p
  refine ⟨?_, hcur.trans hcur'⟩
  rw [State.ctx, hseqs]
  exact hres

/-! ## A stop that goes on behind its instruction -/

/-- A class B stop with the cause of the trap instruction, right after power-on. -/
def softwareStop : Trap := classB cSOFTWARE 0 0 State.reset.pc

theorem releaseAt_reset : releaseAt State.reset 0 4 = .ok State.reset := rfl

theorem stopped_reset : stopped State.reset cSOFTWARE 0 0 = takeTrapAt State.reset 0 softwareStop none := by
  change raise State.reset 0 softwareStop = _
  unfold raise
  rw [releaseAt_reset]
  rfl

/-- Such a stop squashes a scalar side that has gone past the instruction. -/
theorem takeTrapAt_software {s : State} {q : Nat} {t : Trap} (hlane : (s.ctx q).laneOn = false) (hlate : t.late = false)
    (hcause : t.cause = cSOFTWARE) (hB : t.classB = true) : ∃ (c : Ctx) (ev : EventWord),
    takeTrapAt s q t none
      = postKeeper (restRelease (fullTiles ((dropStrips (dropRequests s q) q).setCtx q c) q) q) q ev
    ∧ c.resume = (({ s.ctx q with sc := (s.ctx q).sc.next } : Ctx).squashAt none).resume := by
  unfold takeTrapAt
  simp only [hlane, hlate, hcause, hB, Bool.not_false, and_self, or_true, Ctx.inContext, Bool.not_true,
    Bool.false_and, Bool.false_eq_true, if_false, if_true]
  exact ⟨_, _, rfl, rfl⟩

theorem resume_softwareStop : ((takeTrapAt State.reset 0 softwareStop none).ctx 0).resume = 4
    ∧ (takeTrapAt State.reset 0 softwareStop none).cur = 0 := by
  obtain ⟨c, ev, heq, hres⟩ := takeTrapAt_software (s := State.reset) (q := 0) (t := softwareStop) rfl rfl rfl rfl
  obtain ⟨hr, hc⟩ := resume_posted ((dropStrips (dropRequests State.reset 0) 0).setCtx 0 c) 0 0 ev
  rw [heq]
  refine ⟨hr.trans ((congrArg Ctx.resume (State.ctx_setCtx ..)).trans (hres.trans ?_)), hc⟩
  rw [ctx_reset]
  decide

/-- Refutes O50: a class B stop whose cause is SOFTWARE leaves RESUME at the word behind the instruction. -/
theorem not_trapsTaken : ¬ Obligations.TrapsTaken := by
  rintro ⟨-, -, hstop, -⟩
  obtain ⟨u, c, heq, -, -, -, -, -, hres, -⟩ := hstop State.reset cSOFTWARE 0 0 rfl rfl rfl rfl rfl rfl
    (fun u h => by rw [show State.reset.cur = 0 from rfl, releaseAt_reset] at h; cases h) (by decide) (by decide)
  obtain ⟨hr, hc⟩ := resume_softwareStop
  obtain ⟨hr', hc'⟩ := resume_posted (u.withC c) u.cur 0
    { event := 1, cause := cSOFTWARE, sub := 0, cls := 2, pc := State.reset.c.sc.pc, addr := 0, tval := 0 }
  rw [← stopped_reset, heq] at hr hc
  have hcur : u.cur = 0 := hc'.symm.trans hc
  have hctx : (u.withC c).ctx u.cur = c := State.ctx_setCtx ..
  rw [hcur] at hctx
  have h4 : c.resume = 4 := by
    rw [← hctx]
    exact hr'.symm.trans hr
  rw [hres] at h4
  exact absurd h4 (by decide)

end Sys2Proof.Machine
end

