-- ==== Sys2Proof/Proofs/TileForms.lean ====
section
/-!
The tile and film forms of the scalar side, held and performed (O46).
-/
namespace Sys2Proof.Machine

/-! ## The checks -/

section
variable {s : State} {w : Nat}

theorem ownsEngine_owned (h : (ownedPipes s s.cur).getLsbD 7 = true) : ownsEngine s w = .ok () := if_pos h

theorem ownsEngine_unowned (h : (ownedPipes s s.cur).getLsbD 7 = false) :
    ownsEngine s w = .error (.trap (classA cPIPE_UNOWNED 0 (word w) s.pc) none) := by
  unfold ownsEngine
  rw [h]
  rfl

theorem namesTile_ok {t : Nat} (h : tileCheck s s.cur t = none) : namesTile s t w = .ok () := by
  unfold namesTile
  rw [h]

theorem namesTile_traps {t sub : Nat} (h : tileCheck s s.cur t = some sub) :
    namesTile s t w = .error (.trap (classA cILLEGAL sub (word w) s.pc) none) := by
  unfold namesTile
  rw [h]

theorem namesFilm_open {f : Nat} (h : (filmView s s.cur f).isSome = true) : namesFilm s f w = .ok () := if_pos h

theorem namesFilm_closed {f : Nat} (h : filmView s s.cur f = none) :
    namesFilm s f w = .error (.trap (classA cILLEGAL 4 (word w) s.pc) none) := by
  unfold namesFilm
  rw [h]
  rfl

end

/-! A form that names a tile or a film, and then needs TE0. -/

section
variable {i : Instr} {s : State} {w : Nat} {check : Except Stop Unit} {act : Except Stop State}

theorem engineForm_refused {sub : Nat} (hs : OnScalar s) (hi : exec i s = settle s (do notLane s; check; ownsEngine s w; act))
    (hc : check = .error (.trap (classA cILLEGAL sub (word w) s.pc) none)) :
    exec i s = .next (trapped s cILLEGAL sub (word w)) := by
  rw [hi, notLane_ok s hs, ok_bind, hc]
  exact settle_classA s _ _ _

theorem engineForm_unowned (hs : OnScalar s) (hi : exec i s = settle s (do notLane s; check; ownsEngine s w; act))
    (hc : check = .ok ()) (he : (ownedPipes s s.cur).getLsbD 7 = false) :
    exec i s = .next (trapped s cPIPE_UNOWNED 0 (word w)) := by
  rw [hi, notLane_ok s hs, ok_bind, hc, ok_bind, ownsEngine_unowned he]
  exact settle_classA s _ _ _

theorem engineForm_acts (hs : OnScalar s) (hi : exec i s = settle s (do notLane s; check; ownsEngine s w; act))
    (hc : check = .ok ()) (he : (ownedPipes s s.cur).getLsbD 7 = true) : exec i s = settle s act := by
  rw [hi, notLane_ok s hs, ok_bind, hc, ok_bind, ownsEngine_owned he, ok_bind]

end

/-! ## The tile forms -/

section
variable {s : State} {x : TOnly}

theorem exec_trel (x : TOnly) (s : State) : exec (.trel x) s = settle s (do
    notLane s; namesTile s x.t.val (0x800048 + x.enc); ownsEngine s (0x800048 + x.enc)
    hold s (.trel x.t.val) (0x800048 + x.enc) []) := rfl

theorem exec_twait (x : TOnly) (s : State) : exec (.twait x) s = settle s (do
    notLane s; namesTile s x.t.val (0x4D + x.enc); ownsEngine s (0x4D + x.enc)
    if s.c.claimHeld x.t.val || tileBusy s s.cur x.t.val s.c.ord then
      return s.withC { s.c with wait := some (.tile x.t.val) }
    else return s.withC { s.c with wait := none }.advance) := rfl

theorem tclaim_unowned (hs : OnScalar s) (h : tileOwned s s.cur x.t.val = false) :
    exec (.tclaim x) s = .next (trapped s cILLEGAL 2 (word (0x48 + x.enc))) := by
  show execTclaim x s = _
  rw [execTclaim, notLane_ok s hs, ok_bind, h]
  exact settle_classA s _ _ _

theorem tclaim_noEngine (hs : OnScalar s) (h : tileOwned s s.cur x.t.val = true)
    (he : (ownedPipes s s.cur).getLsbD 7 = false) :
    exec (.tclaim x) s = .next (trapped s cPIPE_UNOWNED 0 (word (0x48 + x.enc))) := by
  show execTclaim x s = _
  rw [execTclaim, notLane_ok s hs, ok_bind, h, ownsEngine_unowned he]
  exact settle_classA s _ _ _

theorem tclaim_held (hs : OnScalar s) (h : tileOwned s s.cur x.t.val = true) (he : (ownedPipes s s.cur).getLsbD 7 = true) :
    Holds (.tclaim x) s s (.tclaim x.t.val) (0x48 + x.enc) [] := by
  refine holds_of ?_ (List.forall_mem_nil _) advance_keeps
  show execTclaim x s = _
  rw [execTclaim, notLane_ok s hs, ok_bind, h, ownsEngine_owned he]
  rfl

theorem trel_held (hs : OnScalar s) (h : tileCheck s s.cur x.t.val = none) (he : (ownedPipes s s.cur).getLsbD 7 = true) :
    Holds (.trel x) s s (.trel x.t.val) (0x800048 + x.enc) [] :=
  holds_of (engineForm_acts hs (exec_trel x s) (namesTile_ok h) he) (List.forall_mem_nil _) advance_keeps

theorem twait_done (hs : OnScalar s) (h : tileCheck s s.cur x.t.val = none) (he : (ownedPipes s s.cur).getLsbD 7 = true)
    (hc : s.c.claimHeld x.t.val = false) (hb : tileBusy s s.cur x.t.val s.c.ord = false) :
    exec (.twait x) s = .next (s.withC { s.c with wait := none }.advance) := by
  rw [engineForm_acts hs (exec_twait x s) (namesTile_ok h) he, hc, hb]
  rfl

theorem twait_sleeps (hs : OnScalar s) (h : tileCheck s s.cur x.t.val = none) (he : (ownedPipes s s.cur).getLsbD 7 = true)
    (hc : s.c.claimHeld x.t.val = true ∨ tileBusy s s.cur x.t.val s.c.ord = true) :
    exec (.twait x) s = .next (s.withC { s.c with wait := some (.tile x.t.val) }) := by
  rw [engineForm_acts hs (exec_twait x s) (namesTile_ok h) he, if_pos (Bool.or_eq_true_iff.mpr hc)]
  rfl

end

/-! ## The film forms -/

section
variable {s : State}

theorem exec_fopen_read {x : FOpen} {v : Word} (hs : OnScalar s) (hx : Reads s x.x.val v) :
    exec (.fopen x) s = settle s (do
      if !filmOwned s s.cur x.film.val then throw (.trap (classA cILLEGAL 2 (word (0x0000004F + x.enc)) s.pc))
      if badFilm v then throw (.trap (classA cILLEGAL 5 v s.pc))
      ownsEngine s (0x0000004F + x.enc)
      hold s (.fopen x.film.val v) (0x0000004F + x.enc) []) := by
  show execFopen x s = _
  rw [execFopen, notLane_ok s hs, ok_bind, hx, ok_bind]

theorem exec_fclose (x : FOnly) (s : State) : exec (.fclose x) s = settle s (do
    notLane s; namesFilm s x.film.val (0x80004F + x.enc); ownsEngine s (0x80004F + x.enc)
    hold s (.fclose x.film.val) (0x80004F + x.enc) []) := rfl

theorem exec_fdrop (x : FOnly) (s : State) : exec (.fdrop x) s = settle s (do
    notLane s; namesFilm s x.film.val (0x100004F + x.enc); ownsEngine s (0x100004F + x.enc)
    hold s (.fdrop x.film.val) (0x100004F + x.enc) []) := rfl

theorem exec_fstat (x : FStat) (s : State) : exec (.fstat x) s = settle s (do
    notLane s; namesFilm s x.film.val (0x180004F + x.enc); ownsEngine s (0x180004F + x.enc)
    hold s (.fstat x.film.val x.x.val) (0x180004F + x.enc) [x.x.val]) := rfl

end

/-! ## What each does when it is performed -/

section
variable {s : State} {q n : Nat} {h : Held}

theorem openedFilm_eq (q : Nat) (w : Word) : openedFilm q w
    = { holder := some q, rowb := Fin.ofNat 4 (w.toNat % 4), sb := Fin.ofNat 4 (w.toNat / 4 % 4) } := by
  unfold openedFilm bits
  rw [Nat.pow_zero, Nat.div_one]
  rfl

theorem flags_giveFlags {o : Nat} (ho : (vget (s.core (q / 4)).tiles n {}).claim = some o) :
    ((giveFlags s (q / 4) n).ctx o).flags
      = (s.ctx o).flags ||| gatheredFlags (vget (s.core (q / 4)).tiles n {}).gathered := by
  unfold giveFlags
  simp only [ho]
  split
  · next h0 =>
    rw [h0, show gatheredFlags 0 = 0 by decide]
    exact BitVec.or_zero.symm
  · exact (congrArg Ctx.flags (State.ctx_setCtx s o _) :)

theorem giveFlags_nothing (h : (vget (s.core (q / 4)).tiles n {}).claim = none ∨ (vget (s.core (q / 4)).tiles n {}).gathered = 0) :
    giveFlags s (q / 4) n = s := by
  unfold giveFlags
  dsimp only
  split
  · next o ho =>
    rw [ho] at h
    exact if_pos (h.resolve_left nofun)
  · rfl

end

/-- Settles O46: the tile and film forms check in their order and are held, and what each does when it is performed. -/
theorem tileAndFilmForms : Obligations.TileAndFilmForms := by
  refine ⟨fun x s hs => ?_, fun x s v hs hv => ?_, fun x s hs => ?_, fun x s hs => ?_, fun s q h n => ?_⟩
  · exact ⟨tclaim_unowned hs, fun h => ⟨tclaim_noEngine hs h, tclaim_held hs h⟩,
      fun sub h => ⟨engineForm_refused hs (exec_trel x s) (namesTile_traps h),
        engineForm_refused hs (exec_twait x s) (namesTile_traps h)⟩,
      fun h he => ⟨engineForm_unowned hs (exec_trel x s) (namesTile_ok h) he,
        engineForm_unowned hs (exec_twait x s) (namesTile_ok h) he⟩,
      fun h he => ⟨trel_held hs h he, twait_done hs h he, twait_sleeps hs h he⟩⟩
  · have hx := exec_fopen_read hs hv
    refine ⟨fun h => ?_, fun h hb => ?_, fun h hb he => ?_, fun h hb he => ?_⟩
    · rw [hx, h]
      exact settle_classA s _ _ _
    · rw [hx, h, hb]
      exact settle_classA s _ _ _
    · rw [hx, h, hb, ownsEngine_unowned he]
      exact settle_classA s _ _ _
    · refine holds_of (hx.trans ?_) (List.forall_mem_nil _) advance_keeps
      rw [h, hb, ownsEngine_owned he]
      rfl
  · exact ⟨fun h => ⟨engineForm_refused hs (exec_fclose x s) (namesFilm_closed h),
        engineForm_refused hs (exec_fdrop x s) (namesFilm_closed h)⟩,
      fun h => ⟨fun he => ⟨engineForm_unowned hs (exec_fclose x s) (namesFilm_open h) he,
          engineForm_unowned hs (exec_fdrop x s) (namesFilm_open h) he⟩,
        fun he => ⟨holds_of (engineForm_acts hs (exec_fclose x s) (namesFilm_open h) he) (List.forall_mem_nil _) advance_keeps,
          holds_of (engineForm_acts hs (exec_fdrop x s) (namesFilm_open h) he) (List.forall_mem_nil _) advance_keeps⟩⟩⟩
  · exact ⟨fun h => engineForm_refused hs (exec_fstat x s) (namesFilm_closed h),
      fun h => ⟨engineForm_unowned hs (exec_fstat x s) (namesFilm_open h),
        fun he hr => holds_of (engineForm_acts hs (exec_fstat x s) (namesFilm_open h) he) (ready_one hr) advance_keeps⟩⟩
  · refine ⟨fun hop hc => ?_, fun hop hc => ?_, fun o hop hc ho => ?_, fun hop hb ha => ?_, fun hop hba => ?_,
      giveFlags_nothing, fun o => flags_giveFlags, fun w hop hh => ?_, fun w o hop hh ho => ?_, fun hop hr hcmd => ?_,
      fun hop hr => ?_, fun d hop => ?_⟩ <;> rw [perform, hop]
    · exact if_pos hc
    · dsimp only
      rw [hc, if_neg nofun]
      rfl
    · dsimp only
      rw [hc, if_neg fun h => ho (Option.some.inj h)]
      rfl
    · dsimp only
      rw [hb, ha]
      rfl
    · exact if_pos hba
    · dsimp only
      rw [hh, if_neg (fun h => nomatch h.1), if_neg (fun h => nomatch h.1), openedFilm_eq]
    · dsimp only
      rw [hh]
      exact if_pos ⟨rfl, fun h => ho (Option.some.inj h)⟩
    · dsimp only
      rw [hr, hcmd]
      rfl
    · dsimp only
      rw [hr]
      rfl

end Sys2Proof.Machine
end

