-- ==== Sys2Proof/Proofs/ChannelForms.lean ====
section
/-!
The copy, gather and channel forms, held and performed (O47).
-/
namespace Sys2Proof.Machine

/-! ## The operands of a copy -/

theorem rowBytes_eq (c : Word) : word (bits c 16 16) = ((c >>> 16).setWidth 16).setWidth 64 := by
  refine BitVec.eq_of_toNat_eq ?_
  rw [BitVec.toNat_ofNat, BitVec.toNat_setWidth, BitVec.toNat_setWidth, BitVec.toNat_ushiftRight, Nat.shiftRight_eq_div_pow]

theorem stride_eq (c : Word) : sextBits 32 (c >>> 32) = ((c >>> 32).setWidth 32).signExtend 64 :=
  sextBits_eq 32 (by decide) _

theorem copyOperands_read {s : State} {x : Copy} {w : Nat} {a b c : Word} (ha : Reads s x.a.val a) (hb : Reads s x.b.val b)
    (hc : Reads s x.c.val c) : copyOperands s x w = .ok (a, b, c) := by
  rw [copyOperands, ha, ok_bind, hb, ok_bind, hc]
  rfl

/-! ## The checks of a copy -/

section
variable {s : State} {x : Copy} {w : Nat} {a b c : Word}

theorem copyChecks_unowned (h : chanOwned s s.cur x.ch.val = false) :
    copyChecks s x w a b c = .error (.trap (classA cILLEGAL 7 (word w) s.pc) none) := by
  unfold copyChecks
  rw [h]
  rfl

theorem copyChecks_misaligned (h : chanOwned s s.cur x.ch.val = true) {v : Word}
    (hv : [a, b, ((c >>> 16).setWidth 16).setWidth 64, ((c >>> 32).setWidth 32).signExtend 64].find?
      (fun v => v.toNat % 32 != 0) = some v) :
    copyChecks s x w a b c = .error (.trap (classA cMISALIGNED 0 v s.pc) none) := by
  rw [← rowBytes_eq, ← stride_eq] at hv
  unfold copyChecks
  simp only [h, hv]
  rfl

theorem te0Check_owned (h : (ownedPipes s s.cur).getLsbD 7 = true) : te0Check s w = .ok () := if_pos h

theorem te0Check_unowned (h : (ownedPipes s s.cur).getLsbD 7 = false) :
    te0Check s w = .error (.trap (classA cPIPE_UNOWNED 0 (word w) s.pc) none) := by
  unfold te0Check
  rw [h]
  rfl

end

/-! ## The copy forms -/

section
variable {s : State} {x : Copy} {a b c : Word}

/-- A cpy whose operands are read. -/
theorem exec_cpy_read (hs : OnScalar s) (ha : Reads s x.a.val a) (hb : Reads s x.b.val b) (hc : Reads s x.c.val c) :
    exec (.cpy x) s = settle s (do
      copyChecks s x (0x00000050 + x.enc) a b c
      if x.port.toNat < 4 then te0Check s (0x00000050 + x.enc)
      hold s (.copy (8 * (s.cur / 4) + x.ch.val) x.port.toNat a b c none) (0x00000050 + x.enc) []) := by
  show execCpy x s = _
  rw [execCpy, notLane_ok s hs, ok_bind, copyOperands_read ha hb hc, ok_bind]

theorem cpy_held (hx : exec (.cpy x) s = settle s (do
      copyChecks s x (0x00000050 + x.enc) a b c
      if x.port.toNat < 4 then te0Check s (0x00000050 + x.enc)
      hold s (.copy (8 * (s.cur / 4) + x.ch.val) x.port.toNat a b c none) (0x00000050 + x.enc) []))
    (hck : copyChecks s x (0x50 + x.enc) a b c = .ok ())
    (he : 4 ≤ x.port.toNat ∨ (ownedPipes s s.cur).getLsbD 7 = true) :
    Holds (.cpy x) s s (.copy (8 * (s.cur / 4) + x.ch.val) x.port.toNat a b c none) (0x50 + x.enc) [] := by
  refine holds_of (hx.trans ?_) (List.forall_mem_nil _) advance_keeps
  rw [hck, ok_bind]
  by_cases hp : x.port.toNat < 4
  · rw [if_pos hp, te0Check_owned (he.resolve_left (Nat.not_le.mpr hp))]
    rfl
  · rw [if_neg hp]

theorem cpyM_read {t u : State} {w2 : Nat} {f : VqEntry × List Nat} (hs : OnScalar s) (ha : Reads s x.a.val a)
    (hb : Reads s x.b.val b) (hc : Reads s x.c.val c) (hf : liftB (s.pc + 4) s.pc (fetchWord s s.cur (s.pc + 4)) = .ok (t, w2))
    (hck : copyChecks t x (0x4000050 + x.enc) a b c = .ok ()) (hroom : t.c.sb.length < 16) (hfo : followOn t w2 = .ok (u, f)) :
    exec (.cpyM x) s = settle s (do
      if x.port.toNat < 4 then te0Check u (0x04000050 + x.enc)
      te0Check u w2
      hold u (.copy (8 * (u.cur / 4) + x.ch.val) x.port.toNat a b c (some f)) (0x04000050 + x.enc) [] Ctx.advanceTwo) := by
  show execCpyM x s = _
  rw [execCpyM, notLane_ok s hs, ok_bind]
  dsimp only
  rw [copyOperands_read ha hb hc, ok_bind]
  dsimp only
  rw [hf, ok_bind]
  dsimp only
  rw [hck, ok_bind, if_neg (Nat.not_le.mpr hroom), hfo]
  rfl

theorem advanceTwo_keeps (c : Ctx) : c.advanceTwo.viq = c.viq ∧ c.advanceTwo.run = c.run ∧ c.advanceTwo.sb = c.sb
    ∧ c.advanceTwo.loads = c.loads := ⟨rfl, rfl, rfl, rfl⟩

end

/-! ## The gather -/

section
variable {s : State} {x : GathF} {a c : Word} {is : List Int}

theorem exec_gath_read (hs : OnScalar s) (ha : Reads s x.a.val a) (hc : Reads s x.c.val c)
    (hi : indexOperand s x.b.val x.e (0x51 + x.enc) = .ok is) (ho : chanOwned s s.cur x.ch.val = true) :
    exec (.gath x) s = settle s (do
      if a.toNat % 2 ^ bits c 56 2 ≠ 0 then throw (.trap (classA cMISALIGNED 0 a s.pc))
      if c.toNat % 2 ^ bits c 56 2 ≠ 0 then throw (.trap (classA cMISALIGNED 0 c s.pc))
      stashSettled s
      if bits c 58 6 ≠ 0 ∨ !inSomeWindow s s.cur (bits c 0 56) (2 ^ bits c 56 2 * is.length) then
        throw (.trap (classA cILLEGAL 8 c s.pc))
      if 16 ≤ s.c.sb.length ∨ (x.dup.val ≠ 0 ∧ (!s.c.feK.getLsbD x.dup.val ∨ s.c.vqWritesK x.dup.val)) then throw (.wait s)
      let t := if x.dup.val = 0 then s else s.withC { s.c with feK := setBit s.c.feK x.dup.val false }
      hold t (.gath (8 * (t.cur / 4) + x.ch.val) a (is.map fun i => (a + BitVec.ofInt 64 (i * (2 ^ bits c 56 2 : Nat))).toNat) c
        x.dup.val) (0x00000051 + x.enc) []) := by
  show execGath x s = _
  rw [execGath, notLane_ok s hs, ok_bind, ha, ok_bind, hc, ok_bind, hi, ok_bind, ho]
  rfl

theorem gath_held (hs : OnScalar s) (ha : Reads s x.a.val a) (hc : Reads s x.c.val c)
    (hi : indexOperand s x.b.val x.e (0x51 + x.enc) = .ok is) (ho : chanOwned s s.cur x.ch.val = true)
    (hsrc : a.toNat % 2 ^ bits c 56 2 = 0) (hdst : c.toNat % 2 ^ bits c 56 2 = 0) (hc58 : c.toNat < 2 ^ 58)
    (hst : stashSettled s = .ok ()) (hw : inSomeWindow s s.cur (bits c 0 56) (2 ^ bits c 56 2 * is.length) = true)
    (hroom : s.c.sb.length < 16) (hk : x.dup.val ≠ 0 → s.c.feK.getLsbD x.dup.val = true ∧ s.c.vqWritesK x.dup.val = false) :
    Holds (.gath x) s (if x.dup.val = 0 then s else s.withC { s.c with feK := setBit s.c.feK x.dup.val false })
      (.gath (8 * (s.cur / 4) + x.ch.val) a (is.map fun i => (a + BitVec.ofInt 64 (i * (2 ^ bits c 56 2 : Nat))).toNat) c
        x.dup.val) (0x51 + x.enc) [] := by
  refine holds_of ((exec_gath_read hs ha hc hi ho).trans ?_) (List.forall_mem_nil _) advance_keeps
  have h58 : bits c 58 6 = 0 := by
    unfold bits
    rw [Nat.div_eq_of_lt hc58, Nat.zero_mod]
  have hwait : ¬(16 ≤ s.c.sb.length ∨ (x.dup.val ≠ 0 ∧ ((!s.c.feK.getLsbD x.dup.val) = true ∨ s.c.vqWritesK x.dup.val = true))) := by
    rintro (h | ⟨h0, h⟩)
    · exact absurd hroom (Nat.not_lt.mpr h)
    · rw [(hk h0).1, (hk h0).2] at h
      exact h.elim nofun nofun
  rw [if_neg (not_not_intro hsrc), if_neg (not_not_intro hdst), hst, ok_bind,
    if_neg (by rw [h58, hw]; rintro (h | h); exacts [h rfl, nomatch h]), if_neg hwait]
  by_cases h0 : x.dup.val = 0
  · rw [if_pos h0]
  · rw [if_neg h0]
    rfl

theorem gath_misaligned (hs : OnScalar s) (ha : Reads s x.a.val a) (hc : Reads s x.c.val c)
    (hi : indexOperand s x.b.val x.e (0x51 + x.enc) = .ok is) (ho : chanOwned s s.cur x.ch.val = true)
    (h : a.toNat % 2 ^ bits c 56 2 ≠ 0) : exec (.gath x) s = .next (trapped s cMISALIGNED 0 a) := by
  rw [exec_gath_read hs ha hc hi ho, if_pos h]
  exact settle_classA s _ _ _

end

/-! ## The channel forms -/

theorem cur_continueChan (s : State) (ch : Nat) : (continueChan s ch).cur = s.cur := by
  unfold continueChan
  dsimp only
  split <;> rfl

/-! ## What each does when it is performed -/

section
variable {s : State} {q ch : Nat} {h : Held}

theorem getLsbD_dupMask (is : List Nat) (old : BitVec 8192) (n : Nat) {i : Nat} (hi : i < 8192) :
    ((List.range n).foldl (fun k i => setBit k i ((is.take i).contains (is.getD i 0))) old).getLsbD i
      = if i < n then (is.take i).contains (is.getD i 0) else old.getLsbD i := by
  induction n with
  | zero => rfl
  | succ n ih =>
    rw [List.range_succ, List.foldl_append, List.foldl_cons, List.foldl_nil, getLsbD_setBit _ _ _ _ hi]
    by_cases h : i = n
    · subst h
      rw [if_pos rfl, if_pos (Nat.lt_succ_self i)]
    · rw [if_neg h, ih]
      exact if_congr (by omega) rfl rfl

theorem perform_copy {port : Nat} {a b c : Word} {f : Option (VqEntry × List Nat)} {t u : State}
    (hop : h.op = .copy ch port a b c f) (hroom : (s.chan ch).cmds.length < 8) (ht : registerAll s (q / 4) = .ok t)
    (hu : enterChannel t ch (copyCmd t q ch port a b c f) true = .ok u) : perform s q h = .ok (u, []) := by
  rw [perform, hop]
  dsimp only
  rw [if_neg (Nat.not_le.mpr hroom), ht]
  dsimp only [liftB]
  rw [ok_bind, hu]
  rfl

theorem perform_gath {a c : Word} {is : List Nat} {k : Nat} {t u : State} (hop : h.op = .gath ch a is c k)
    (hroom : (s.chan ch).cmds.length < 8) (hk : ∀ e ∈ (s.ctx q).run, ∀ m ∈ e.roles.ks, m.1 ≠ k)
    (ht : registerAll s (q / 4) = .ok t) (hu : enterChannel t ch (gathCmd t q ch a is c k) true = .ok u) :
    perform s q h = .ok (u.setCtx q ((u.ctx q).setK k (dupMask is (vget (u.ctx q).k k 0))), []) := by
  have hfree : (s.ctx q).run.any (fun e => e.roles.ks.any fun m => m.1 == k) = false := by
    rw [List.any_eq_false]
    intro e he
    rw [Bool.not_eq_true, List.any_eq_false]
    exact fun m hm => fun h => hk e he m hm (beq_iff_eq.mp h)
  rw [perform, hop]
  dsimp only
  rw [if_neg (by rintro (h | h); exacts [absurd hroom (Nat.not_lt.mpr h), Bool.false_ne_true (hfree.symm.trans h)]), ht]
  dsimp only [liftB]
  rw [ok_bind, hu]
  rfl

theorem enterChannel_film {m : Cmd} {bar : Bool} (hm : m.film = true) : enterChannel s ch m bar = .ok { s.setChan ch { s.chan ch with
    cmds := (s.chan ch).cmds ++ [{ m with bar := if bar then (s.chan ch).bar else m.bar, order := s.orders, regs := [] }],
    cancelled := false } with orders := s.orders + 1 } := by
  have hm' : ({ m with bar := if bar then (s.chan ch).bar else m.bar, order := s.orders } : Cmd).film = true := hm
  unfold enterChannel
  dsimp only
  rw [hm']
  rfl

theorem perform_chanWait {n : Nat} (hop : h.op = .chanWait ch (some n)) :
    perform s q h = (if !((s.chan ch).cmds.any fun m => decide (m.order < n)) then .ok (acquireAt s q 3, [])
      else if (s.chan ch).faulted then .error (.trap (chanStop s ch h.ipc))
      else .error (.wait s)) := by
  rw [perform, hop]
  rfl

end

/-- Settles O47: the copy, gather and channel forms check in their order and are held, and what each does when performed. -/
theorem copyAndChannelForms : Obligations.CopyAndChannelForms := by
  refine ⟨fun x s a b c hs ha hb hc => ?_, fun x s a c is hs ha hc hi ho => ?_, fun x s hs ho hr => ?_, fun x s hs ho => ?_,
    fun s q h ch => ?_⟩
  · have hx := exec_cpy_read hs ha hb hc
    refine ⟨fun h => ?_, fun h v hv => ?_, fun hck => ⟨fun he => cpy_held hx hck he, fun hp he => ?_⟩,
      fun t w2 u f hf hck hroom hfo => ?_⟩
    · rw [hx, copyChecks_unowned h]
      exact settle_classA s _ _ _
    · rw [hx, copyChecks_misaligned h hv]
      exact settle_classA s _ _ _
    · rw [hx, hck, ok_bind, if_pos hp, te0Check_unowned he]
      exact settle_classA s _ _ _
    · have hm := cpyM_read hs ha hb hc hf hck hroom hfo
      refine ⟨fun he => ?_, fun he => holds_of (hm.trans ?_) (List.forall_mem_nil _) advanceTwo_keeps⟩
      · rw [hm]
        by_cases hp : x.port.toNat < 4
        · rw [if_pos hp, if_pos hp, te0Check_unowned he]
          rfl
        · rw [if_neg hp, if_neg hp, te0Check_unowned he]
          rfl
      · rw [te0Check_owned he, te0Check_owned he, ok_bind]
        split <;> rfl
  · refine ⟨gath_misaligned hs ha hc hi ho, fun hsrc hdst hc58 hst hw hroom hk =>
      gath_held hs ha hc hi ho hsrc hdst hc58 hst ?_ hroom hk⟩
    unfold bits
    rw [Nat.pow_zero, Nat.div_one]
    exact hw
  · refine ⟨holds_of ?_ (ready_one hr) advance_keeps, holds_of ?_ (ready_one hr) advance_keeps⟩
    · show execChanWm x s = _
      rw [execChanWm, notLane_ok s hs, ok_bind, ho]
      rfl
    · show execChanStat x s = _
      rw [execChanStat, notLane_ok s hs, ok_bind, ho]
      rfl
  · refine ⟨holds_of ?_ (List.forall_mem_nil _) advance_keeps, fun hr => holds_of ?_ (List.forall_mem_nil _) advance_keeps,
      fun hr => holds_of ?_ (List.forall_mem_nil _) advance_keeps⟩
    · show execChanCancel x s = _
      rw [execChanCancel, notLane_ok s hs, ok_bind, ho]
      rfl
    · show execChanWait x s = _
      rw [execChanWait, notLane_ok s hs, ok_bind, ho]
      dsimp only
      rw [hr]
      rfl
    · show execChanWait x s = _
      rw [execChanWait, notLane_ok s hs, ok_bind, ho]
      dsimp only
      rw [hr, if_pos rfl, cur_continueChan]
      rfl
  · refine ⟨fun port a b c f t u hop hroom ht hu => perform_copy hop hroom ht hu, fun a is c k t u hop hroom hk ht hu =>
      ⟨_, perform_gath hop hroom hk ht hu, fun i hi h8 => ?_⟩, fun m bar => enterChannel_film, fun port a b c f hop hfull => ?_,
      fun d hop => ?_, fun d hop => ?_, fun hop => ?_, fun n hop => ?_⟩
    · rw [dupMask, getLsbD_dupMask _ _ _ h8, if_pos hi, List.contains_iff_mem]
    · rw [perform, hop]
      exact if_pos hfull
    · rw [perform, hop]
    · rw [perform, hop]
    · rw [perform, hop]
    · rw [perform_chanWait hop]
      have hany : (s.chan ch).cmds.any (fun m => decide (m.order < n)) = true ↔ ∃ m ∈ (s.chan ch).cmds, m.order < n := by
        simp only [List.any_eq_true, decide_eq_true_eq]
      refine ⟨fun hall => ?_, fun hex hf => ?_, fun hex hf => ⟨chanStop s ch h.ipc, ?_, rfl, rfl, rfl, rfl⟩⟩
      · refine if_pos ?_
        rw [Bool.not_eq_true', ← Bool.not_eq_true, hany]
        rintro ⟨m, hm, hlt⟩
        exact absurd hlt (Nat.not_lt.mpr (hall m hm))
      · rw [hany.mpr hex, hf]
        rfl
      · rw [hany.mpr hex, hf]
        rfl

end Sys2Proof.Machine
end

