-- ==== Sys2Proof/Proofs/TaskForms.lean ====
section
/-!
Enqueue, dependency, grant, end of task and the shutter instruction (O48).
-/
namespace Sys2Proof.Machine

/-! ## The forms as they are held -/

section
variable {s : State} {x : C3} {a b c : Word}

theorem enqTask_held (hs : OnScalar s) (ha : Reads s x.a.val a) (hb : Reads s x.b.val b) (hr : Ready s x.c.val) :
    Holds (.enqTask x) s s (.enq false a b x.c.val) (0x53 + x.enc) [x.c.val] := by
  refine holds_of ?_ (ready_one hr) advance_keeps
  show execEnqTask x s = _
  rw [execEnqTask, notLane_ok s hs, ok_bind, ha, ok_bind, hb, ok_bind]

theorem enqLaunch_held (hs : OnScalar s) (ha : Reads s x.a.val a) (hb : Reads s x.b.val b) (hr : Ready s x.c.val) :
    Holds (.enqLaunch x) s s (.enq true a b x.c.val) (0x10000053 + x.enc) [x.c.val] := by
  refine holds_of ?_ (ready_one hr) advance_keeps
  show execEnqLaunch x s = _
  rw [execEnqLaunch, notLane_ok s hs, ok_bind, ha, ok_bind, hb, ok_bind]

theorem depd_held (hs : OnScalar s) (ha : Reads s x.a.val a) (hb : Reads s x.b.val b) (hc : Reads s x.c.val c) :
    Holds (.depd x) s s (.depd a b c) (0x54 + x.enc) [] := by
  refine holds_of ?_ (List.forall_mem_nil _) advance_keeps
  show execDepd x s = _
  rw [execDepd, notLane_ok s hs, ok_bind, ha, ok_bind, hb, ok_bind, hc, ok_bind]

theorem tdone_held (hs : OnScalar s) (hr : s.c.retry = false) : Holds .tdone s s .tdone 0x56 [] := by
  refine holds_of ?_ (List.forall_mem_nil _) advance_keeps
  show execTdone s = _
  rw [execTdone, notLane_ok s hs, ok_bind, hr]
  rfl

theorem shut_held (hs : OnScalar s) : Holds .shut s s .shut 0x5C [] := by
  refine holds_of ?_ (List.forall_mem_nil _) advance_keeps
  show execShut s = _
  rw [execShut, notLane_ok s hs, ok_bind]

end

/-! ## The grant -/

section
variable {row col rows cols most : Nat}

/-- Where a grant starts: behind a row whose columns are all granted, at the next rows. -/
def grantStart (row col rows cols : Nat) : Nat × Nat :=
  if row < rows ∧ cols ≤ col then (row + min (rows - row) 64, 0) else (row, col)

theorem grant_over (h : rows ≤ (grantStart row col rows cols).1) :
    grant row col rows cols most = (0, 0, (grantStart row col rows cols).1, (grantStart row col rows cols).2) := if_pos h

theorem grant_lastColumns (h : (grantStart row col rows cols).1 < rows)
    (hc : (grantStart row col rows cols).2 + min (cols - (grantStart row col rows cols).2) most = cols) :
    grant row col rows cols most = (min (cols - (grantStart row col rows cols).2) most,
      min (rows - (grantStart row col rows cols).1) 64,
      (grantStart row col rows cols).1 + min (rows - (grantStart row col rows cols).1) 64, 0) :=
  (if_neg (Nat.not_le.mpr h)).trans (if_pos hc)

theorem grant_columns (h : (grantStart row col rows cols).1 < rows)
    (hc : (grantStart row col rows cols).2 + min (cols - (grantStart row col rows cols).2) most ≠ cols) :
    grant row col rows cols most = (min (cols - (grantStart row col rows cols).2) most,
      min (rows - (grantStart row col rows cols).1) 64, (grantStart row col rows cols).1,
      (grantStart row col rows cols).2 + min (cols - (grantStart row col rows cols).2) most) :=
  (if_neg (Nat.not_le.mpr h)).trans (if_neg hc)

end

section
variable {s : State} {x : C1}

theorem pgrant_noTask (hs : OnScalar s) (hvl : s.c.vqWritesVl = false) (h : ∀ p, s.c.task = some p → p.launch = true) :
    exec (.pgrant x) s = .next (trapped s cILLEGAL 0x0B (word (0x55 + x.enc))) := by
  have htask : s.c.task.filter (fun t => !t.launch) = none := by
    rw [Option.filter_eq_none_iff]
    exact fun p hp => by rw [h p hp]; decide
  show execPgrant x s = _
  rw [execPgrant, notLane_ok s hs, ok_bind, hvl]
  dsimp only
  rw [htask]
  exact settle_classA s _ _ _

theorem exec_pgrant {p : TaskRef} (hs : OnScalar s) (hvl : s.c.vqWritesVl = false) (hp : s.c.task = some p)
    (hl : p.launch = false) : exec (.pgrant x) s = settle s (do
      if !tagKnown s.c.sc.cfgTag.toNat then throw (.trap (classA cTAG 0 (word (0x00000055 + x.enc)) s.pc))
      freeDest s x.a.val
      let dims := recWord p.record.toNat 0x10
      let (vl, n, row, col) := grant s.c.sc.curRow.toNat s.c.sc.curCol.toNat (bits dims 0 32) (bits dims 32 32)
        (vlmax s.c.sc.cfgTag.toNat s.c.sc.cfgGrp.val)
      let y := { s.c.sc with vl := vl, curRow := BitVec.ofNat 32 row, curCol := BitVec.ofNat 32 col }
      return s.withC ({ s.c with sc := y }.put x.a.val (word n)).advance) := by
  have htask : s.c.task.filter (fun t => !t.launch) = some p := by
    rw [hp, Option.filter_some, hl]
    rfl
  show execPgrant x s = _
  rw [execPgrant, notLane_ok s hs, ok_bind, hvl]
  dsimp only
  rw [htask]
  rfl

theorem taskRows_eq (n : Nat) : bits (recWord n 0x10) 0 32 = n / 2 ^ 128 % 2 ^ 32 := by
  rw [bits, recWord, BitVec.toNat_ofNat, Nat.pow_zero, Nat.div_one]
  exact Nat.mod_mod_of_dvd _ (by decide)

theorem taskCols_eq (n : Nat) : bits (recWord n 0x10) 32 32 = n / 2 ^ 160 % 2 ^ 32 := by
  rw [bits, recWord, BitVec.toNat_ofNat]
  omega

/-- What a grant gives is the vl, the rows and the cursor that `grant` names. -/
theorem pgrant_gives {p : TaskRef} {vl n r k : Nat} (hs : OnScalar s) (hvl : s.c.vqWritesVl = false) (hp : s.c.task = some p)
    (hl : p.launch = false) (ht : tagKnown s.c.sc.cfgTag.toNat = true) (hr : Ready s x.a.val)
    (hg : grant s.c.sc.curRow.toNat s.c.sc.curCol.toNat (p.record.toNat / 2 ^ 128 % 2 ^ 32) (p.record.toNat / 2 ^ 160 % 2 ^ 32)
      (vlmax s.c.sc.cfgTag.toNat s.c.sc.cfgGrp.val) = (vl, n, r, k)) :
    exec (.pgrant x) s = .next (s.withC (({ s.c with
      sc := { s.c.sc with vl := vl, curRow := BitVec.ofNat 32 r, curCol := BitVec.ofNat 32 k } } : Ctx).put x.a.val (word n)).advance) := by
  unfold Ready at hr
  rw [exec_pgrant hs hvl hp hl, ht]
  dsimp only
  rw [if_neg (by decide), hr, taskRows_eq, taskCols_eq, hg]
  rfl

end

/-! ## The enqueue and the dependency -/

section
variable {s : State} {q : Nat} {h : Held}

theorem queueNumber_eq (qu : Word) : bits qu 0 12 = qu.toNat % 4096 := by
  rw [bits, Nat.pow_zero, Nat.div_one]
  rfl

theorem perform_enq_misaligned {launch : Bool} {qu r : Word} {d : Nat} (hop : h.op = .enq launch qu r d)
    (hr : r.toNat % (if launch then 128 else 64) ≠ 0) : perform s q h = .error (.trap (classA cMISALIGNED 0 r h.ipc)) := by
  rw [perform, hop]
  dsimp only
  rw [enqPerform]
  dsimp only
  rw [if_pos hr]
  rfl

theorem perform_enq {launch : Bool} {qu r : Word} {d b : Nat} {t u v : State} {x : Xl} (hop : h.op = .enq launch qu r d)
    (hr : r.toNat % (if launch then 128 else 64) = 0) (ht : releaseAt s q 4 = .ok t) (hu : translate t q r .r = .ok (u, x))
    (hx : x.ctl = false) (hv : accRead u (u.agent q) x (if launch then 128 else 64) = .ok (v, b)) :
    perform s q h = .ok ((enqueueRecord v (v.pnum q) launch qu b).1, [(d, (enqueueRecord v (v.pnum q) launch qu b).2)]) := by
  rw [perform, hop]
  dsimp only
  rw [enqPerform]
  dsimp only
  rw [if_neg (not_not_intro hr), ht]
  dsimp only [liftB]
  rw [ok_bind, hu]
  dsimp only
  rw [ok_bind]
  dsimp only
  rw [hx, hv]
  rfl

theorem enqueueRecord_of (v : State) (p : Nat) (launch : Bool) (qu : Word) (b st : Nat)
    (hst : enqStatus v p launch qu b = st) :
    (st = 0 → enqueueRecord v p launch qu b
        = (placeRecord v (qu.toNat % 4096) launch b, (v.queue (qu.toNat % 4096)).tail <<< 32))
    ∧ (st = 1 → enqueueRecord v p launch qu b
        = (v.setQueue (qu.toNat % 4096) { v.queue (qu.toNat % 4096) with overflow := true }, 1))
    ∧ (2 ≤ st → enqueueRecord v p launch qu b = (v, word st)) := by
  have hq : bits qu 0 12 = qu.toNat % 4096 := queueNumber_eq qu
  refine ⟨fun h => ?_, fun h => ?_, fun h => ?_⟩
  · rw [enqueueRecord, hst, h, hq]
    rfl
  · rw [enqueueRecord, hst, h, hq]
    rfl
  · rw [enqueueRecord, hst]
    match st, h with
    | n + 2, _ => rfl

theorem enqStatus_unowned (v : State) (p : Nat) (launch : Bool) (qu : Word) (b : Nat)
    (h : 2 ^ 12 ≤ qu.toNat ∨ v.queueOwner (qu.toNat % 4096) ≠ some p) : enqStatus v p launch qu b = 2 := by
  have hq : bits qu 0 12 = qu.toNat % 4096 := queueNumber_eq qu
  rw [enqStatus, hq]
  refine if_pos ?_
  rcases h with h | h
  · left
    have := qu.isLt
    unfold bits
    omega
  · exact .inr (.inl h)

theorem wide_iff (qu : Word) : bits qu 12 52 ≠ 0 ↔ 2 ^ 12 ≤ qu.toNat := by
  have := qu.isLt
  unfold bits
  omega

theorem perform_depd {qu ctr amt : Word} (hop : h.op = .depd qu ctr amt) :
    perform s q h = (depdPerform s q h.ipc (h.word.setWidth 64) qu ctr amt >>= fun t => .ok (t, [])) := by
  rw [perform, hop]
  rfl

theorem perform_depd_counts {qu ctr amt : Word} {t : State} (hop : h.op = .depd qu ctr amt)
    (hbad : ¬(2 ^ 12 ≤ qu.toNat ∨ s.queueOwner (qu.toNat % 4096) ≠ some (s.pnum q))) (hctr : ctr.toNat < 256)
    (ht : releaseAt s q 4 = .ok t) :
    perform s q h = .ok (decrement t q (qu.toNat % 4096) ctr.toNat (amt.toNat % 2 ^ 16), []) := by
  have hq : bits qu 0 12 = qu.toNat % 4096 := queueNumber_eq qu
  have ha : bits amt 0 16 = amt.toNat % 2 ^ 16 := by rw [bits, Nat.pow_zero, Nat.div_one]
  rw [perform_depd hop, depdPerform, hq, ha, if_neg (by rwa [wide_iff])]
  dsimp only
  rw [if_neg (Nat.not_le.mpr hctr), ht]
  rfl

end

/-! ## The end of a task and the shutter -/

section
variable {s : State} {q : Nat} {h : Held}

theorem ended_over (c : Ctx) : c.ended.state = .empty ∧ c.ended.task = none ∧ c.ended.sc = c.sc := ⟨rfl, rfl, rfl⟩

/-- A task over: its completion counted, its stages released and its context ended. -/
def overState (v : State) (q : Nat) (task : Option TaskRef) : State :=
  let y := releaseStages (match task with
    | some t => countCompletion v q t
    | none => v) q
  y.setCtx q (y.ctx q).ended

theorem tdonePerform_of {pc : Word} {task : Option TaskRef} {u v : State} (ht : ((releaseItems s q).ctx q).task = task)
    (hu : releaseAt (releaseItems s q) q (doneScope task) = .ok u)
    (hv : (if postsAt u task then releaseAt u q 4 else .ok u) = .ok v) : tdonePerform s q pc = .ok (overState v q task) := by
  unfold tdonePerform overState
  dsimp only
  rw [ht, hu]
  dsimp only [liftB]
  rw [ok_bind]
  by_cases hp : postsAt u task = true
  · rw [if_pos hp] at hv ⊢
    rw [hv]
    dsimp only
    rw [ok_bind]
    cases task <;> rfl
  · rw [if_neg hp] at hv ⊢
    obtain rfl := Except.ok.inj hv
    rw [ok_bind]
    cases task <;> rfl

theorem perform_tdone {task : Option TaskRef} {u v : State} (hop : h.op = .tdone) (hf : faultedOf s q = none)
    (hr : tdoneReady s q h.ord = true) (hd : (s.ctx q).divs = []) (ht : ((releaseItems s q).ctx q).task = task)
    (hu : releaseAt (releaseItems s q) q (doneScope task) = .ok u)
    (hv : (if postsAt u task then releaseAt u q 4 else .ok u) = .ok v) :
    perform s q h = .ok (overState v q task, []) := by
  rw [perform, hop]
  dsimp only
  rw [hf]
  dsimp only
  rw [if_pos ⟨hr, by rw [hd]; rfl⟩, tdonePerform_of ht hu hv]
  rfl

end

/-- Settles O48: the task forms as they are held, the grant at its cursor, and what each does when it is performed. -/
theorem taskForms : Obligations.TaskForms := by
  refine ⟨fun x s a b hs ha hb => ⟨fun hr => ⟨enqTask_held hs ha hb hr, enqLaunch_held hs ha hb hr⟩,
      fun c hc => depd_held hs ha hb hc⟩, fun s hs hr => ⟨tdone_held hs hr, shut_held hs⟩, fun x s hs hvl => ?_,
    fun s q h launch qu r d hop => ?_, fun s q h qu ctr amt hop => ?_, fun s q h u v hop hf hr hd => ?_, fun s q h hop => ?_⟩
  · refine ⟨pgrant_noTask hs hvl, fun p hp hl => ⟨fun ht => ?_, fun ht hr => ?_⟩⟩
    · rw [exec_pgrant hs hvl hp hl, ht]
      exact settle_classA s _ _ _
    · intro rows cols past row col gives vl
      have hstart : grantStart s.c.sc.curRow.toNat s.c.sc.curCol.toNat rows cols = (row, col) := by
        by_cases h : s.c.sc.curRow.toNat < rows ∧ cols ≤ s.c.sc.curCol.toNat
        · have hpast : past = true := by
            simp only [past, Bool.and_eq_true, decide_eq_true_eq]
            exact h
          unfold row col
          rw [grantStart, if_pos h, if_pos hpast, if_pos hpast]
        · have hpast : ¬past = true := by
            simp only [past, Bool.and_eq_true, decide_eq_true_eq]
            exact h
          unfold row col
          rw [grantStart, if_neg h, if_neg hpast, if_neg hpast]
      have hgives : ∀ {vl n r k}, grant s.c.sc.curRow.toNat s.c.sc.curCol.toNat rows cols
          (vlmax s.c.sc.cfgTag.toNat s.c.sc.cfgGrp.val) = (vl, n, r, k) → gives vl n r k :=
        pgrant_gives hs hvl hp hl ht hr
      refine ⟨fun h => hgives ?_, fun h hc => hgives ?_, fun h hc => hgives ?_⟩
      · rw [grant_over (by rw [hstart]; exact h), hstart]
      · rw [grant_lastColumns (by rw [hstart]; exact h) (by rw [hstart]; exact hc), hstart]
      · rw [grant_columns (by rw [hstart]; exact h) (by rw [hstart]; exact hc), hstart]
  · refine ⟨perform_enq_misaligned hop, fun t u x v b hr ht hu hx hv => ?_⟩
    intro n st
    have hp := perform_enq hop hr ht hu hx hv
    obtain ⟨h0, h1, h2⟩ := enqueueRecord_of v (v.pnum q) launch qu b st rfl
    refine ⟨fun h => ?_, fun h => ?_, fun h => ?_, enqStatus_unowned _ _ _ _ _⟩
    · rw [hp, h0 h]
    · rw [hp, h1 h]
    · rw [hp, h2 h]
  · intro bad
    have hq := queueNumber_eq qu
    refine ⟨fun hbad => ?_, fun hbad hctr => ?_, fun t hbad hctr ht => ?_⟩
    · rw [perform_depd hop, depdPerform, hq, if_pos (by rwa [wide_iff])]
      rfl
    · rw [perform_depd hop, depdPerform, hq, if_neg (by rwa [wide_iff])]
      dsimp only
      rw [if_pos hctr]
      rfl
    · intro n have_ by_
      have hp := perform_depd_counts hop hbad hctr ht
      refine ⟨fun h => ?_, fun h0 hle => ?_, fun hlt => ?_⟩
      · rw [hp, decrement, if_pos h]
      · have hn : ¬(have_ = 0 ∨ have_ < by_) := by omega
        rw [hp, decrement, if_neg h0, if_neg hn]
      · have hn : have_ = 0 ∨ have_ < by_ := .inr hlt
        rw [hp, decrement, if_neg (Nat.ne_of_gt (Nat.zero_lt_of_lt hlt)), if_pos hn]
  · intro task
    have htask : ((releaseItems s q).ctx q).task = task := rfl
    clear_value task
    intro hu hv y
    have hu' : releaseAt (releaseItems s q) q (doneScope task) = .ok u := by cases task <;> exact hu
    have hy : overState v q task = y.setCtx q (y.ctx q).ended := by
      unfold y overState
      cases task <;> rfl
    exact ⟨(perform_tdone hop hf hr hd htask hu' hv).trans (by rw [hy]), ended_over (y.ctx q)⟩
  · refine ⟨shutPerform s q, by rw [perform, hop], fun ha hp hf => ?_, fun h => ?_⟩
    · rw [shutPerform, ha, hp, fireShutter, hf]
      rfl
    · rw [shutPerform]
      refine if_neg ?_
      rcases h with h | h <;> rw [h]
      · exact Bool.false_ne_true
      · rw [Bool.and_false]
        decide

end Sys2Proof.Machine
end

