-- ==== Sys2Proof/Proofs/SystemForms.lean ====
section
/-!
trap, brk, tret, halt, yield and probe (O49).
-/
namespace Sys2Proof.Machine

/-! ## The return from a trap -/

/-- Where a return from a trap goes on. -/
def Ctx.returnPc (c : Ctx) : Word := c.sc.tepc &&& ~~~(3 : Word)

/-- The scalar state a return leaves, its program counter and its repeat frame aside. -/
def Ctx.returned (c : Ctx) : Scal := { c.sc with tvec := setBit c.sc.tvec 0 true }

theorem returnFrom_inLane {c : Ctx} (h : c.lmode = true) : returnFrom c = { c with
    sc := c.returned, ord := c.ord + 1, lpc := vset c.lpc c.trapLane.val c.returnPc, trapv := false, handler := false } := by
  unfold returnFrom
  exact if_pos h

theorem returnFrom_inScalar {c : Ctx} (h : c.lmode = false) : returnFrom c =
    { c with sc := { c.returned with pc := c.returnPc }, ord := c.ord + 1 } := by
  unfold returnFrom
  exact if_neg (ne_true_of_eq_false h)

section
variable {s : State} (hs : OnScalar s)
include hs

theorem tret_waits (hl : s.c.lmode = true) (hq : s.c.quiet = false) : exec .tret s = .next s := by
  show execTret s = _
  unfold execTret
  simp only [notLane_ok s hs, ok_bind, hl, hq]
  exact settle_wait s s hs

theorem tret_inLane (hl : s.c.lmode = true) (hq : s.c.quiet = true) : exec .tret s = .next (s.withC { s.c with
    sc := s.c.returned, ord := s.c.ord + 1, lpc := vset s.c.lpc s.c.trapLane.val s.c.returnPc, trapv := false,
    handler := false }) := by
  show execTret s = _
  unfold execTret
  simp only [notLane_ok s hs, ok_bind, hl, hq, returnFrom_inLane hl]
  rfl

theorem tret_plain (hl : s.c.lmode = false) (hr : s.c.sc.rptAct = false) : exec .tret s = .next (s.withC { s.c with
    sc := { s.c.returned with pc := s.c.returnPc }, ord := s.c.ord + 1 }) := by
  show execTret s = _
  unfold execTret
  simp only [notLane_ok s hs, ok_bind, hl, Ctx.returned, hr, returnFrom_inScalar hl]
  rfl

/-- A return into a replay fetches its rpt word anew. -/
theorem tret_replay (hl : s.c.lmode = false) (hr : s.c.sc.rptAct = true) :
    let r := fetchWord s s.cur (s.c.returnPc - word (4 * (s.c.sc.rptI + 1)))
    (∀ u w, r = .ok (u, w) → exec .tret s = .next (u.withC { s.c with
      sc := { s.c.returned with pc := s.c.returnPc, rptAct := isRpt w, rptRun := isRpt w, rptBuf := [] }, ord := s.c.ord + 1 }))
    ∧ (∀ u, r = .error (.wait u) → exec .tret s = .next u)
    ∧ ∀ c sub a left, r = .error (.stop c sub a left) → exec .tret s = .next (s.withC { s.c with
      sc := { s.c.returned with pc := s.c.returnPc, rptAct := false, rptRun := false }, ord := s.c.ord + 1 }) := by
  have hgo : (!s.c.returned.rptAct) = false := congrArg not hr
  refine ⟨fun u w h => ?_, fun u h => ?_, fun c sub a left h => ?_⟩
  all_goals
    show execTret s = _
    unfold execTret
    simp only [notLane_ok s hs, ok_bind, hl, returnFrom_inScalar hl]
    rw [hgo]
    simp only [Bool.false_and, Bool.or_false, Bool.false_eq_true, if_false]
    have hi : s.c.returned.rptI = s.c.sc.rptI := rfl
    rw [hi, h]
  · rfl
  · exact settle_wait s u hs
  · rfl

end

/-! ## halt and yield -/

/-- What the end of a slice leaves: the context saved, or the report that no room is left. -/
def sliceEnded (s : State) (q : Nat) : State := (saveContext s q).elim (saveFull s q) (countEvent · 2)

theorem sliceEnded_saved {s t : State} {q : Nat} (h : saveContext s q = some t) : sliceEnded s q = countEvent t 2 :=
  congrArg (Option.elim · (saveFull s q) (countEvent · 2)) h

theorem sliceEnded_full {s : State} {q : Nat} (h : saveContext s q = none) : sliceEnded s q = saveFull s q :=
  congrArg (Option.elim · (saveFull s q) (countEvent · 2)) h

section
variable {s : State} (hs : OnScalar s)
include hs

theorem halt_waits (hq : s.c.quiet = false) : exec .halt s = .next s := by
  show execHalt s = _
  unfold execHalt
  simp only [notLane_ok s hs, ok_bind, hq]
  exact settle_wait s s hs

theorem halt_rests (hq : s.c.quiet = true) : exec .halt s = settle s (restReady s s.cur >>= fun u =>
    .ok (postKeeper (u.withC { u.c.advance with
      state := .stopped, resume := u.c.advance.sc.pc, chainF := 0, stepping := false }) s.cur
      { event := 2, pc := u.c.advance.sc.pc })) := by
  show execHalt s = _
  unfold execHalt
  simp only [notLane_ok s hs, ok_bind, hq]
  rfl

theorem yield_waits (h : (s.c.run.any fun e => e.form.op.restart == .complete) = true ∨ tilesSettled s s.cur = false
    ∨ s.c.viq ≠ [] ∨ s.c.sb ≠ [] ∨ s.c.loads ≠ []) : exec .yield s = .next s := by
  show execYield s = _
  unfold execYield
  rw [notLane_ok s hs, ok_bind]
  by_cases hrun : ((s.c.run.any fun e => e.form.op.restart == .complete) || !tilesSettled s s.cur) = true
  · simp only [hrun, if_true]
    exact settle_wait s s hs
  · have hbusy : (!(s.c.viq.isEmpty && s.c.sb.isEmpty && s.c.loads.isEmpty)) = true := by
      rw [Bool.or_eq_true, not_or] at hrun
      rcases h with h | h | h
      · exact absurd h hrun.1
      · exact absurd (congrArg not h) hrun.2
      · simp only [Bool.not_eq_true', Bool.and_eq_false_iff, List.isEmpty_eq_false_iff]
        rcases h with h | h | h
        · exact .inl (.inl h)
        · exact .inl (.inr h)
        · exact .inr h
    simp only [hrun, hbusy, if_true]
    exact settle_wait s s hs

theorem yield_rests (hrun : (s.c.run.any fun e => e.form.op.restart == .complete) = false) (ht : tilesSettled s s.cur = true)
    (hv : s.c.viq = []) (hb : s.c.sb = []) (hl : s.c.loads = []) :
    exec .yield s = settle s (restReady s s.cur >>= fun u => .ok (if s.c.free then passed u
      else sliceEnded (passed u) s.cur)) := by
  show execYield s = _
  unfold execYield
  rw [notLane_ok s hs, ok_bind]
  simp only [hrun, ht, hv, hb, hl]
  refine congrArg (settle s) (congrArg (restReady s s.cur >>= ·) (funext fun u => ?_))
  cases s.c.free with
  | true => rfl
  | false =>
    have h : sliceEnded (passed u) s.cur =
        (saveContext (u.withC u.c.advance) s.cur).elim (saveFull (u.withC u.c.advance) s.cur) (countEvent · 2) := rfl
    rw [if_neg nofun, h]
    cases saveContext (u.withC u.c.advance) s.cur <;> rfl

end

/-! ## probe -/

theorem probe_issues {x : Probe} {s : State} {a : Word} (hs : OnScalar s) (ha : Reads s x.a.val a) (hd : Ready s x.d.val)
    (hf : NoFenceHeld s) :
    Loads (.probe x) s s { newLoad s (0x5F + x.enc) x.d.val a {} 0 false false none with probe := some x.kind.val } [x.d.val] := by
  refine loads_of ?_ (ready_one hd)
  show execProbe x s = _
  unfold execProbe
  rw [notLane_ok s hs, ok_bind, ha, ok_bind, xfenceHeld_of_noFence s hf]
  rfl


/-! ## The word of an outcome -/

theorem foldl_fields_above (l : List (Nat × Nat)) (h : ∀ f ∈ l, 4 ≤ f.2) (n : Nat) :
    ∃ m, l.foldl (fun n (v, lo) => n + v * 2 ^ lo) n = n + 16 * m := by
  induction l generalizing n with
  | nil => exact ⟨0, rfl⟩
  | cons f l ih =>
    obtain ⟨m, hm⟩ := ih (fun g hg => h g (List.mem_cons_of_mem _ hg)) (n + f.1 * 2 ^ f.2)
    obtain ⟨k, hk⟩ := Nat.exists_eq_add_of_le (h f List.mem_cons_self)
    refine ⟨f.1 * 2 ^ k + m, ?_⟩
    rw [List.foldl_cons, hm, hk, Nat.pow_add]
    ring

/-- The low four bits of an outcome: whether it passed, and its failure code above that. -/
theorem outcomeWord_low (fail : Nat) (e : Option (Word × Nat)) (pa : Nat) :
    ∃ m, (outcomeWord fail e pa).toNat = ((fail == 0 && e.isSome).toNat + 2 * fail + 16 * m) % 2 ^ 64 := by
  cases e with
  | none => exact ⟨3, by simp [outcomeWord, packW, word, BitVec.toNat_ofNat]; omega⟩
  | some te =>
    obtain ⟨m, hm⟩ := foldl_fields_above [(te.2, 4), ((teR te.1).toNat, 6), ((teW te.1).toNat, 7), ((teX te.1).toNat, 8),
      ((teC te.1).toNat, 9), ((teH te.1).toNat, 10), ((teG te.1).toNat, 11), (pa / 4096 % 2 ^ 40, 12),
      (teSlot te.1, 52), (teGrain te.1, 55), ((teDev te.1 != 0).toNat, 57)] (by simp) (0 + (fail == 0).toNat * 2 ^ 0 + fail * 2 ^ 1)
    refine ⟨m, ?_⟩
    rw [Option.isSome_some, Bool.and_true]
    have hw : outcomeWord fail (some te) pa = word _ := congrArg word hm
    rw [hw, word, BitVec.toNat_ofNat]
    omega

section
variable {fail : Nat} {e : Option (Word × Nat)} {pa : Nat}

theorem outcomeWord_passed (he : e.isSome = true) : (outcomeWord 0 e pa).getLsbD 0 = true := by
  obtain ⟨m, hm⟩ := outcomeWord_low 0 e pa
  rw [he] at hm
  simp [BitVec.getLsbD, hm, Nat.testBit_zero]
  omega

theorem outcomeWord_failed (hf : fail ≠ 0) : (outcomeWord fail e pa).getLsbD 0 = false := by
  obtain ⟨m, hm⟩ := outcomeWord_low fail e pa
  rw [beq_false_of_ne hf] at hm
  simp [BitVec.getLsbD, hm, Nat.testBit_zero]
  omega

theorem outcomeWord_code (hf : fail < 8) : (outcomeWord fail e pa).toNat / 2 % 8 = fail := by
  obtain ⟨m, hm⟩ := outcomeWord_low fail e pa
  have := Bool.toNat_le (fail == 0 && e.isSome)
  omega

end

section
variable {s : State} {q k : Nat} {a : Word}

theorem probeWord_outside (h : 2 ^ 56 ≤ a.toNat) : probeWord s q k a = .ok (s, 0x32) :=
  if_pos (Nat.pos_iff_ne_zero.mp (Nat.div_pos h (by decide)))

/-- What a probe asks its walk for. -/
def probeNeed (k : Nat) : Need := match k with | 0 => .r | 1 => .w | 2 => .x | _ => .any

/-- The failure code a probe shows for what its walk failed on. -/
def failCode (f : Option Nat) : Nat := match f with | none => 0 | some 0x21 => 3 | some 0x22 => 4 | some _ => 2

theorem failCode_cases (f : Option Nat) : failCode f < 8 ∧ (f ≠ none → failCode f ≠ 0) := by
  unfold failCode
  split <;> simp

/-- The walk a probe makes. -/
def probeWalk (s : State) (q k : Nat) (a : Word) : Except MErr (State × Found) :=
  lookup s (q / 4) (s.pnum q) (s.ctx q).root.toNat (s.ctx q).space a (probeNeed k)

theorem probeWord_inside (h : a.toNat < 2 ^ 56) : probeWord s q k a = match probeWalk s q k a with
    | .error (.wait s) => .error (.wait s)
    | .error (.stop ..) => .ok (s, outcomeWord 2 none 0)
    | .ok (s, f) => match f.fail with
      | none => .ok (s, outcomeWord 0 f.entry f.pa)
      | some 0x21 => .ok (s, outcomeWord 3 f.entry f.pa)
      | some 0x22 => .ok (s, outcomeWord 4 f.entry f.pa)
      | some _ => .ok (s, outcomeWord 2 none 0) :=
  if_neg (not_not_intro (Nat.div_eq_of_lt h))

theorem probeWord_found {t : State} {f : Found} (h : a.toNat < 2 ^ 56) (hw : probeWalk s q k a = .ok (t, f)) :
    ∃ e pa, probeWord s q k a = .ok (t, outcomeWord (failCode f.fail) e pa) ∧ (f.fail = none → e = f.entry) := by
  rw [probeWord_inside h, hw]
  obtain ⟨e, pa, fail⟩ := f
  dsimp only
  unfold failCode
  split
  · exact ⟨e, pa, rfl, fun _ => rfl⟩
  · exact ⟨e, pa, rfl, nofun⟩
  · exact ⟨e, pa, rfl, nofun⟩
  · exact ⟨none, 0, rfl, nofun⟩

theorem probeWord_poisoned {c sub : Nat} {w : Option Word} {u : Option State} (h : a.toNat < 2 ^ 56)
    (hw : probeWalk s q k a = .error (.stop c sub w u)) : probeWord s q k a = .ok (s, 0x34) := by
  rw [probeWord_inside h, hw]
  rfl

end

/-- Settles O49: each system form does what its row says, and probe writes the outcome of its walk. -/
theorem systemForms : Obligations.SystemForms := by
  refine ⟨fun x s hs => ⟨?_, ?_⟩, fun s hs => ⟨fun hl hq => tret_waits hs hl hq, fun hl hq => tret_inLane hs hl hq,
    fun hl hr => tret_plain hs hl hr, fun hl hr => tret_replay hs hl hr⟩,
    fun s hs => ⟨fun hq => halt_waits hs hq, fun hq => ⟨fun t h => ?_, fun u h => ?_⟩⟩,
    fun s hs => ⟨fun h => yield_waits hs h, fun hr ht hv hb hl => ⟨fun t h => ?_, fun u h => ⟨fun hf => ?_, fun hf => ⟨fun t h' => ?_, fun h' => ?_⟩⟩⟩⟩, fun x s a hs ha hd hf => probe_issues hs ha hd hf, fun s q l k t v hp h => ?_, ?_⟩
  · exact (congrArg (settle s) (by rw [notLane_ok s hs, ok_bind]; rfl)).trans (settle_classA s cSOFTWARE 0 (x.code.setWidth 64))
  · exact (congrArg (settle s) (by rw [notLane_ok s hs, ok_bind]; rfl)).trans (settle_classA s cBREAKPOINT 0 (x.code.setWidth 64))
  · rw [halt_rests hs hq, h]
    exact settle_wait s t hs
  · rw [halt_rests hs hq, h]
    rfl
  · rw [yield_rests hs hr ht hv hb hl, h]
    exact settle_wait s t hs
  · rw [yield_rests hs hr ht hv hb hl, h, hf]
    rfl
  · rw [yield_rests hs hr ht hv hb hl, h, hf, ok_bind, sliceEnded_saved h']
    rfl
  · rw [yield_rests hs hr ht hv hb hl, h, hf, ok_bind, sliceEnded_full h']
    rfl
  · rw [loadData, hp]
    dsimp only
    rw [h]
    rfl
  · refine fun s q k a => ⟨probeWord_outside, fun ha => ⟨fun t f hw => ?_, fun c sub w u hw => probeWord_poisoned ha hw⟩⟩
    obtain ⟨e, pa, hv, he⟩ := probeWord_found ha hw
    obtain ⟨hlt, hne⟩ := failCode_cases f.fail
    refine ⟨_, hv, fun hf hs => ?_, fun hf => outcomeWord_failed (hne hf), outcomeWord_code hlt⟩
    rw [he hf, hf]
    exact outcomeWord_passed hs

end Sys2Proof.Machine
end

