-- ==== Sys2Proof/Proofs/BackEndSteps.lean ====
section
/-!
The steps of a sequencer's back end, its tiles and its sleepers (O51).
-/
namespace Sys2Proof.Machine

/-! ## The order of the heads of one core and partition -/

/-- What orders sequencers for the start of their heads (R387): the urgent deadline, the virtual time, the number. -/
def startKey (s : State) (q : Nat) : WithTop Nat ×ₗ ℚ ×ₗ Nat :=
  toLex ((match urgentDeadline s q with
    | some d => (d : WithTop Nat)
    | none => ⊤), toLex (((virtualTime s q).1 : ℚ) / (virtualTime s q).2, q))

theorem virtualTime_pos (s : State) (q : Nat) : 0 < (virtualTime s q).2 := by
  unfold virtualTime
  split
  · exact Nat.lt_of_lt_of_le Nat.one_pos (Nat.le_max_left ..)
  · exact Nat.one_pos

theorem ratio_lt {c n d m : Nat} (hn : 0 < n) (hm : 0 < m) : (c : ℚ) / n < (d : ℚ) / m ↔ c * m < d * n := by
  rw [div_lt_div_iff₀ (Nat.cast_pos.mpr hn) (Nat.cast_pos.mpr hm)]
  exact_mod_cast Iff.rfl

theorem ratio_eq {c n d m : Nat} (hn : 0 < n) (hm : 0 < m) : (c : ℚ) / n = (d : ℚ) / m ↔ c * m = d * n := by
  rw [div_eq_div_iff (Nat.cast_ne_zero.mpr hn.ne') (Nat.cast_ne_zero.mpr hm.ne')]
  exact_mod_cast Iff.rfl

theorem takenBefore_lt {s : State} {a b : Nat} (h : takenBefore s a b = true) : startKey s a < startKey s b := by
  have ha := virtualTime_pos s a
  have hb := virtualTime_pos s b
  unfold takenBefore at h
  unfold startKey
  simp only [Prod.Lex.toLex_lt_toLex, ratio_lt ha hb, ratio_eq ha hb]
  cases hx : urgentDeadline s a <;> cases hy : urgentDeadline s b <;> rw [hx, hy] at h <;> simp at h ⊢
  all_goals exact h

/-- Among ready heads of one core and partition there is one that nothing outranks. -/
theorem exists_notOutranked {s : State} {q : Nat} (h : headReady s q = true) :
    ∃ p, p / 4 = q / 4 ∧ s.pnum p = s.pnum q ∧ headReady s p = true ∧ headOutranked s p = false := by
  let heads := (Finset.range 4).filter fun i => s.pnum (q / 4 * 4 + i) = s.pnum q ∧ headReady s (q / 4 * 4 + i) = true
  have hq : q / 4 * 4 + q % 4 = q := Nat.div_add_mod' q 4
  obtain ⟨i, hi, hmin⟩ := heads.exists_min_image (fun i => startKey s (q / 4 * 4 + i))
    ⟨q % 4, Finset.mem_filter.mpr ⟨Finset.mem_range.mpr (by omega), by rw [hq]; exact ⟨rfl, h⟩⟩⟩
  obtain ⟨hi4, hp, hr⟩ := Finset.mem_filter.mp hi
  have hi4 := Finset.mem_range.mp hi4
  have hcore : (q / 4 * 4 + i) / 4 = q / 4 := by omega
  refine ⟨q / 4 * 4 + i, hcore, hp, hr, ?_⟩
  unfold headOutranked
  rw [hcore, List.any_eq_false]
  intro j hj hout
  simp only [Bool.and_eq_true, beq_iff_eq] at hout
  obtain ⟨⟨⟨-, hpj⟩, ht⟩, hrj⟩ := hout
  exact not_lt_of_ge (hmin j (Finset.mem_filter.mpr ⟨Finset.mem_range.mpr (List.mem_range.mp hj), hpj.trans hp, hrj⟩))
    (takenBefore_lt ht)

/-! ## Steps of the back end -/

/-- A step of a sequencer that is there leaves what its move leaves. -/
theorem stepOf_seq_of {q : Nat} {u t : State} (hq : q < 2048) (h : u = t) : stepOf (isSeq q) u = .next t := h ▸ stepOf_seq hq u

theorem stepOf_tile {c t : Nat} (hc : c < 512) (ht : t < 8) (s : State) : stepOf (isCore c && decide (t < 8)) s = .next s :=
  if_pos (Bool.and_eq_true_iff.mpr ⟨decide_eq_true hc, decide_eq_true ht⟩)

section
variable {s : State} {q : Nat} {e : VqEntry}

theorem backEnd_outranked (h : headOutranked s q = true) : backEnd s q startNext = s := by
  unfold backEnd startNext
  rw [h]
  rfl

theorem headOp_cons {r : List VqEntry} (h : (s.ctx q).viq = e :: r) : headOp s q = some e.form.op := by
  unfold headOp
  rw [h]
  rfl

theorem groupLeft_single (hrun : (s.ctx q).run = [e]) (hr : e.form.op.restart = .element) (hg : (s.ctx q).runG < e.stop) :
    groupLeft (s.ctx q) = true := by
  unfold groupLeft
  rw [runEnd_single hrun, hrun, decide_eq_true hg, Bool.and_true]
  exact beq_iff_eq.mpr hr

theorem sending_single (hrun : (s.ctx q).run = [e]) : sending s q = (e.form.op == .mcast) := by
  unfold sending
  rw [hrun]

theorem inBlocks_plain (hc : ∀ m, e.form.op ≠ .cvt m) : e.inBlocks = false := by
  unfold VqEntry.inBlocks
  split
  · next m h => exact absurd h (hc m)
  · rfl

theorem boundary_alone {c : Ctx} (h : c.run = [e]) : c.boundary =
    if e.inBlocks then (c.runG / 32 + 1) * 32
    else if e.resumed ∧ c.runG < (e.start / 8 + 1) * 8 then
      (c.runG / (if e.form.op.isMem then e.perByte else 1) + 1) * (if e.form.op.isMem then e.perByte else 1)
    else (c.runG / 8 + 1) * 8 := by
  unfold Ctx.boundary
  rw [h]
  rfl

/-- The boundary behind the next group of a started instruction that is no conversion. -/
theorem boundary_started {c : Ctx} (h : c.run = [e]) (hm : e.form.op.isMem = false) (hc : ∀ m, e.form.op ≠ .cvt m) :
    c.boundary = if e.resumed ∧ c.runG < (e.start / 8 + 1) * 8 then c.runG + 1 else (c.runG / 8 + 1) * 8 := by
  simp only [boundary_alone h, inBlocks_plain hc, hm, Bool.false_eq_true, if_false, Nat.div_one, Nat.mul_one]

theorem commitGroup_started (hrun : (s.ctx q).run = [e]) (hm : e.form.op.isMem = false) (hc : ∀ m, e.form.op ≠ .cvt m)
    (hg : (s.ctx q).runG < e.stop) : commitGroup s q = .ok (s.setCtx q
      { ((List.range (min (s.ctx q).boundary e.stop - (s.ctx q).runG)).map ((s.ctx q).runG + ·)).foldl
          (fun (c : Ctx) i => c.element e i) (s.ctx q) with runG := (s.ctx q).boundary, worked := true }) := by
  have hb := boundary_started hrun hm hc
  have hlt : (s.ctx q).runG < (s.ctx q).boundary := by
    rw [hb]
    split <;> omega
  have hmem := memberGroup_register (q := q) hm s (s.ctx q) (lo := (s.ctx q).runG)
    (hi := min (s.ctx q).boundary e.stop) (by omega)
  rw [Nat.min_assoc, Nat.min_self, Ctx.commit, if_neg (ne_true_of_eq_false (inBlocks_plain hc)), List.range'_eq_map_range] at hmem
  unfold commitGroup
  simp only [hrun, runEnd_single hrun, groupMembers, hmem, ok_bind]
  rfl

end

/-! ## Tiles -/

section
variable {s : State} {c t : Nat}

theorem ops_tileFlags (ht : t < 8) : (vget ((tileFlags s c t).core c).tiles t {}).ops = (vget (s.core c).tiles t {}).ops := by
  unfold tileFlags
  split
  · next q hq =>
    split
    · rfl
    · unfold giveFlags
      dsimp only
      rw [hq]
      dsimp only
      split
      · rfl
      · rw [setTile, State.core_setCore, vget_vset_same _ _ _ _ ht]
  · rfl

theorem ops_completeTile {o : TileOp} {r : List TileOp} (ht : t < 8) (ho : (vget (s.core c).tiles t {}).ops = o :: r)
    (hst : o.started = true) : (vget ((completeTile s c t).core c).tiles t {}).ops = r := by
  unfold completeTile
  simp only [ho, hst, Bool.not_true, Bool.false_eq_true, if_false]
  rw [ops_tileFlags ht, State.core_setCore, vget_vset_same _ _ _ _ ht]

theorem startTile_waits {o : TileOp} {r : List TileOp} (ho : (vget (s.core c).tiles t {}).ops = o :: r)
    (h : o.started = true ∨ framesReady (s.core c) o.e.form = false
      ∨ (o.product && (engineBusy (s.core c) || halfRun (s.core c) t)) = true ∨ tileAhead s o.seq t o.e.ord = true) :
    startTile s c t = s := by
  unfold startTile
  dsimp only
  rw [ho]
  refine if_pos ?_
  rcases h with h | h | h | h <;> simp [h]

theorem startTile_starts {o : TileOp} {r : List TileOp} (ho : (vget (s.core c).tiles t {}).ops = o :: r)
    (hs : o.started = false) (hf : framesReady (s.core c) o.e.form = true)
    (hb : (o.product && (engineBusy (s.core c) || halfRun (s.core c) t)) = false) (ha : tileAhead s o.seq t o.e.ord = false) :
    let x := s.core c
    let tl := vget x.tiles t {}
    let tag := if o.e.form.op = .tacc then (o.e.reg o.e.form.c).tag else tl.tag
    let tl := { tl with tag := tag, ops := { o with started := true, owed := false } :: r }
    let u := s.setCore c { x with tiles := vset x.tiles t tl }
    startTile s c t = if o.owed then chargeBeats u o.seq o.beats else u := by
  intro x tl tag tl' u
  unfold startTile
  dsimp only
  rw [ho]
  refine (if_neg (by simp [hs, hf, hb, ha])).trans ?_
  cases hop : o.e.form.op <;> simp only [u, tl', tag, hop] <;> rfl

end

/-! ## Sleepers -/

section
variable {s : State} {q : Nat}

theorem readAgain_wait {f : State → Nat → Except Stop State} {t : State} (h : f s q = .error (.wait t)) : readAgain s q f = t := by
  unfold readAgain
  rw [h]

theorem watched_waita {d k lim : _} {va cmp : Word} {x : Xl} (hw : (s.ctx q).wait = some (.waita d k va x cmp lim)) :
    watched s q = some x := by
  unfold watched
  rw [hw]

/-- A wake and a poll read anew, each for the words it watches. -/
theorem exec_watched {d k lim : _} {va cmp : Word} {x : Xl} (hq : q < 2048)
    (hw : (s.ctx q).wait = some (.waita d k va x cmp lim)) :
    exec (if polled s q x then .waitaPoll q else .waitaWake q) s = .next (readAgain s q waitaRead) := by
  rw [← stepOf_seq hq]
  cases hp : polled s q x with
  | true =>
    show execWaitaPoll q s = _
    unfold execWaitaPoll
    simp only [watched_waita hw, hp, if_true]
  | false =>
    show execWaitaWake q s = _
    unfold execWaitaWake
    simp only [watched_waita hw, hp, Bool.false_eq_true, if_false]

theorem exec_waitaTimeout {d k lim : _} {va cmp : Word} {x : Xl} (hq : q < 2048)
    (hw : (s.ctx q).wait = some (.waita d k va x cmp lim)) (hl : pastLimit s lim = true) :
    exec (.waitaTimeout q) s = .next (readAgain s q waitaRead) := by
  have hp : limitPassed s q = true := by
    unfold limitPassed
    rw [hw]
    exact hl
  rw [← stepOf_seq hq]
  exact congrArg (stepOf (isSeq q)) (if_pos hp)

theorem exec_barWake (hq : q < 2048) : exec (.barWake q) s = .next (readAgain s q barRead) := stepOf_seq hq _

theorem exec_stopComplete (hq : q < 2048) : exec (.stopComplete q) s = .next (stopComplete s q) := stepOf_seq hq _

end

/-- Settles O51: each step of a back end, a tile or a sleeper does what its row says where it can happen. -/
theorem backEndSteps : Obligations.BackEndSteps := by
  refine ⟨?_, fun s q h => exists_notOutranked h, ?_, ?_, ?_, ?_, ?_, ?_⟩
  · intro s q e r hq _ _ ho
    have hb := backEnd_outranked ho
    refine ⟨?_, ?_, ?_⟩
    · exact stepOf_seq_of hq (by rw [hb, ite_self])
    · exact stepOf_seq_of hq (by rw [hb, ite_self])
    · exact stepOf_seq_of hq (by rw [hb, ite_self])
  · intro s q e r hq hv hrun hc ho
    have hop := headOp_cons hv
    have hst := startNext_of hv hrun hc ho
    refine ⟨fun hd hw hm hr => ?_, fun hr => ?_, fun hm => ?_⟩
    · have hmr : ¬(headOp s q = some .mcast ∨ headOp s q = some .recv) := by
        rw [hop]
        rintro (h | h)
        · exact hm (Option.some.inj h)
        · exact hr (Option.some.inj h)
      have hstart : startNext s q = .ok (startedState s q e) := by
        rw [hst]
        cases hcase : e.form.op <;> rw [hcase] at hd hw hm hr
        case tacc | tmma | tmms | twrite => exact absurd rfl hd
        case wst => exact absurd rfl hw
        case mcast => exact absurd rfl hm
        case recv => exact absurd rfl hr
      exact stepOf_seq_of hq ((if_neg hmr).trans (backEnd_ok hstart))
    · have hstart : startNext s q = .ok (boundState s q e) := by rw [hst, hr]
      exact stepOf_seq_of hq ((if_pos (hop.trans (congrArg some hr))).trans (backEnd_ok hstart))
    · have hstart : startNext s q = .ok (startedState (reservedState s q e) q e) := by rw [hst, hm]
      exact stepOf_seq_of hq ((if_pos (hop.trans (congrArg some hm))).trans (backEnd_ok hstart))
  · intro s q e hq hrun
    refine ⟨fun hr hm hc hg => ?_, fun hr hg => ?_, fun hm => ?_⟩
    · have hstep : exec (.groupCommit q) s = _ := stepOf_seq_of hq ((if_pos (groupLeft_single hrun hr hg)).trans
        (backEnd_ok (commitGroup_started hrun hm hc hg)))
      rw [boundary_started hrun hm hc] at hstep
      exact hstep
    · have hne : e.form.op ≠ .mcast := by
        intro h
        rw [h] at hr
        exact absurd hr (by decide)
      have hs : ¬sending s q = true := by rw [sending_single hrun, beq_iff_eq]; exact hne
      exact stepOf_seq_of hq ((if_neg hs).trans (backEnd_ok (completeRun_elements hrun hr (by rwa [runEnd_single hrun]))))
    · have hs : sending s q = true := by rw [sending_single hrun, hm]; rfl
      have hdone : completeRun s q = .ok (retire s (landStrip s q) q (s.ctx q)) := by
        rw [completeRun_of hrun (by rw [hm]; decide), hm]
      exact stepOf_seq_of hq ((if_pos hs).trans (backEnd_ok hdone))
  · intro s c t o r hc ht ho
    refine ⟨fun hs => ⟨_, stepOf_tile hc ht _, rfl, ops_completeTile ht ho hs⟩, fun h => ?_, fun hs hf hb ha => ?_⟩
    · exact (stepOf_tile hc ht _).trans (congrArg Host.Outcome.next (startTile_waits ho h))
    · exact (stepOf_tile hc ht _).trans (congrArg Host.Outcome.next (startTile_starts ho hs hf hb ha))
  · intro s q d k va x cmp lim t y u v hq hw ht w hm hr i holds
    have hread := readAgain_ok (waitaRead_reads hw ht hm hr)
    have hi : exec i s = _ := exec_watched hq hw
    refine ⟨fun h => ?_, fun h hl => ?_, fun l hl hs hu => ?_⟩
    · rw [hi, hread, (waitaCond_iff k (word v) cmp).mpr h]
      rfl
    · have hc : ¬(waitaCond k (word v) cmp || pastLimit u lim) = true := by
        rw [Bool.or_eq_true, pastLimit_iff]
        rintro (hk | ⟨l, hl', hle⟩)
        · exact h ((waitaCond_iff k (word v) cmp).mp hk)
        · exact absurd (hl l hl') (Nat.not_lt.mpr hle)
      rw [hi, hread, if_neg hc]
    · have hs' : pastLimit s lim = true := (pastLimit_iff s lim).mpr ⟨l, hl, hs⟩
      have hu' : pastLimit u lim = true := (pastLimit_iff u lim).mpr ⟨l, hl, hu⟩
      rw [exec_waitaTimeout hq hw hs', hread, hu', Bool.or_true]
      rfl
  · intro s q d va x gen sc aw t y hq hw ht w
    refine ⟨fun hh hc => ?_, fun u v hh hm hr => ?_⟩
    · rw [exec_barWake hq, readAgain, barRead_host hw ht hh hc]
      rfl
    · have hread := barRead_reads hw ht hh hm hr
      rw [exec_barWake hq]
      refine ⟨fun hg => ?_, fun hg ho => ?_, fun z v2 hg ho hz => ?_⟩
      · rw [if_pos hg] at hread
        rw [readAgain_ok hread]
      · rw [if_neg hg, ho] at hread
        rw [readAgain_wait hread]
      · rw [if_neg hg, ho, if_neg Bool.false_ne_true, hz] at hread
        rw [readAgain_ok hread]
        exact ⟨fun h2 => congrArg _ (if_pos h2), fun h2 => congrArg _ (if_neg h2)⟩
  · intro s q u hq hs hrun
    have hex := exec_stopComplete (s := s) hq
    refine ⟨fun hl => ?_, fun hl => ?_⟩
    · exact hex.trans (congrArg Host.Outcome.next (if_neg fun h => by rw [hl] at h; exact absurd h.2.2 (by decide)))
    · have hgo : (s.ctx q).state = .stopping ∧ (s.ctx q).run.isEmpty ∧ !(s.ctx q).laneHeld := ⟨hs, by rw [hrun]; rfl, by rw [hl]; rfl⟩
      have hstop := hex.trans (congrArg Host.Outcome.next (if_pos hgo))
      refine ⟨fun h => ?_, fun h => ?_⟩
      · rw [hstop, restAs, h]
      · rw [hstop, restAs, h]

end Sys2Proof.Machine
end

