-- ==== Sys2Proof/Proofs/EngineSteps.lean ====
section
/-!
The steps of the copy engines, of the kept events and posts, and of the distributors (O52).
-/
namespace Sys2Proof.Machine

/-- A step of an agent that is there leaves what its move leaves. -/
theorem stepOf_there {there : Bool} {u t : State} (ht : there = true) (h : u = t) : stepOf there u = .next t := by
  rw [stepOf, ht, h]
  rfl

/-! ## Channels -/

section
variable {s t u : State} {ch : Nat} {m : Cmd} {r : List Cmd}

theorem sendOwed_nothing (h : (s.chan ch).owed = []) : sendOwed s ch = s := by
  unfold sendOwed
  rw [h]
  rfl

/-- A channel whose first command has started. -/
def startedChan (s : State) (ch : Nat) (m : Cmd) : State :=
  let t := s.setChan ch { s.chan ch with busy := true, wm := m.mark, port := m.port }
  if m.usesPort then { t with ports := put t.ports (portKey ch m.port) ch } else t

theorem startCommand_starts (hm : (s.chan ch).cmds = m :: r) (h : mayStart s ch = true) :
    startCommand s ch = startedChan s ch m := by
  unfold startCommand startedChan
  simp only [h, hm]
  rfl

theorem chan_startedChan (s : State) (ch : Nat) (m : Cmd) :
    (startedChan s ch m).chan ch = { s.chan ch with busy := true, wm := m.mark, port := m.port } := by
  unfold startedChan
  cases m.usesPort
  · exact State.chan_setChan ..
  · exact State.chan_setChan ..

theorem ports_startedChan (h : m.usesPort = true) : find (startedChan s ch m).ports (portKey ch m.port) = some ch := by
  unfold startedChan
  rw [if_pos h]
  exact find_put_same ..

theorem moveGrain_copies {v : Nat} (hk : m.kind ≠ 3) (hf : m.film = false) (hl : m.left ≠ 0)
    (hr : engineRead s ch m (m.src + word m.off) 32 = .ok (t, v)) (hw : engineWrite t ch m m.dst 32 v = .ok u) :
    moveGrain s ch m = .ok (u, m.step) := by
  unfold moveGrain
  simp only [if_neg hk, if_neg hl, hr, withAddr, ok_bind, hf, Bool.false_eq_true, if_false, hw]
  rfl

/-- A command of a gather behind its next element. -/
def Cmd.gathered (m : Cmd) (r : List Nat) (got : List (Nat × Nat)) : Cmd :=
  { m with idx := r, got := got, dst := m.dst + word m.esz, done := m.done + m.esz }

/-- An element that is read for the first time. -/
theorem moveGrain_reads {ea v : Nat} {l : List Nat} (hk : m.kind = 3) (hi : m.idx = ea :: l) (hg : find m.got ea = none)
    (hr : engineRead s ch m (word ea) m.esz = .ok (t, v)) (hw : engineWrite t ch m m.dst m.esz v = .ok u) :
    moveGrain s ch m = .ok (u, m.gathered l (if l.contains ea then put m.got ea v else del m.got ea)) := by
  unfold moveGrain
  simp only [if_pos hk, hi, hg, hr, withAddr, ok_bind, hw]
  rfl

/-- An element that has been read. -/
theorem moveGrain_repeats {ea v : Nat} {l : List Nat} (hk : m.kind = 3) (hi : m.idx = ea :: l) (hg : find m.got ea = some v)
    (hw : engineWrite s ch m m.dst m.esz v = .ok u) :
    moveGrain s ch m = .ok (u, m.gathered l (if l.contains ea then put m.got ea v else del m.got ea)) := by
  unfold moveGrain
  simp only [if_pos hk, hi, hg, withAddr, ok_bind, hw]
  rfl

theorem grainStep_credits (hm : (s.chan ch).cmds = m :: r) (hb : (s.chan ch).busy = true) (hc : creditDue s ch m = true) :
    grainStep s ch = creditStep s ch m := by
  unfold grainStep
  simp only [hm, hb, hc]
  rfl

theorem grainStep_faults {cause sub : Nat} {a : Option Word} {left : Option State} {va : Word}
    (hm : (s.chan ch).cmds = m :: r) (hb : (s.chan ch).busy = true) (hc : creditDue s ch m = false)
    (hg : moveGrain s ch m = .error (.stop cause sub a left, va)) :
    grainStep s ch = chanFault (left.getD s) ch cause sub va := by
  unfold grainStep
  simp only [hm, hb, hc, hg]
  rfl

theorem chan_freePort (s : State) (ch n : Nat) (m : Cmd) : (freePort s ch m).chan n = s.chan n := by
  unfold freePort
  split <;> rfl

/-- A channel whose command has completed, its mask not yet filled. -/
def completedChan (s : State) (ch : Nat) (m : Cmd) : State :=
  (freePort s ch m).setChan ch { s.chan ch with cmds := (s.chan ch).cmds.tail, busy := false, wm := m.mark }

theorem creditNow_silent (h : m.bar.getLsbD 63 = false) :
    creditNow s ch m true = .ok (s, { m with credited := max m.credited m.done }) := by
  have hs : sendCredit s ch m (m.done - m.credited) true = .ok s := if_pos (.inl (by rw [h]; rfl))
  unfold creditNow
  simp only [if_true, hs, ok_bind]
  rfl

theorem completeCommand_completes (hm : (s.chan ch).cmds = m :: r) (hb : (s.chan ch).busy = true) (hl : m.left = 0)
    (hbar : m.bar.getLsbD 63 = false) (hf : m.follow = none) :
    let t := completedChan s ch { m with credited := max m.credited m.done }
    completeCommand s ch = if m.kind = 3 ∧ m.kd ≠ 0 then
      t.setCtx m.seq { t.ctx m.seq with feK := setBit (t.ctx m.seq).feK m.kd true } else t := by
  unfold completeCommand completedChan
  simp only [hm, hb, hl, creditNow_silent hbar, issueFollow, hf, chan_freePort]
  rfl

theorem chan_completedChan (s : State) (ch : Nat) (m : Cmd) : (completedChan s ch m).chan ch
    = { s.chan ch with cmds := (s.chan ch).cmds.tail, busy := false, wm := m.mark } := State.chan_setChan ..

end

/-! ## Slice ends, staging and granules -/

section
variable {s : State}

theorem saveAtSliceEnd_of {q : Nat} (hf : (s.ctx q).free = false) (hr : (s.ctx q).state = .running)
    (hrun : ∀ e ∈ (s.ctx q).run, e.form.op.restart ≠ .complete) (ht : tilesSettled s q = true) :
    saveAtSliceEnd s q = restAs s q (sliceEnded · q) := by
  have hany : ((s.ctx q).run.any fun e => e.form.op.restart == .complete) = false :=
    List.any_eq_false.mpr fun e he h => hrun e he (beq_iff_eq.mp h)
  unfold saveAtSliceEnd
  simp only [hf, hr, hany, ht]
  refine congrArg (restAs s q) (funext fun t => ?_)
  cases h : saveContext t q with
  | none => exact (sliceEnded_full h).symm
  | some u => exact (sliceEnded_saved h).symm

theorem displace_fitting {g : Stage} (n : Nat) (h : stageFits s g = true) : displace n s g = s := by
  cases n with
  | zero => rfl
  | succ n => exact if_pos h

theorem mostUsed_iff {g stack : Nat} : mostUsed s g stack = true ↔
    let l := s.uses.filter fun u => u.1 == g && decide (s.time < u.2.1 + 10000000)
    l ≠ [] ∧ 3 * l.length ≤ 4 * (l.filter fun u => u.2.2 == stack).length := by
  unfold mostUsed
  simp only [Bool.and_eq_true, decide_eq_true_eq, List.countP_eq_length_filter, Bool.not_eq_true', List.isEmpty_eq_false_iff]

/-- A granule that may move does so where the stack that asks has most of its uses. -/
theorem moveGranule_of {g stack : Nat} {x : Granule} (hst : stack < 8) (hx : find s.granules g = some x) (hp : x.pinned = none)
    (hmv : ∀ t, x.moved = some t → t + 10000000 ≤ s.time)
    (hmig : (get s.places (partOfFrame s (g * 512)) {}).migrate = true)
    (hstk : (stacksOf s (partOfFrame s (g * 512))).getLsbD stack = true) (hcnt : stackCount s stack < stackGranules) :
    moveGranule s g stack = if mostUsed s g stack then
      { flushAll s with granules := put (flushAll s).granules g { x with stack := stack, moved := some (flushAll s).time } }
    else s := by
  unfold moveGranule
  simp only [hx, hp, hmig, hstk, decide_eq_true hst, decide_eq_true hcnt, Bool.and_true, Option.isNone_none, Bool.true_and]
  cases hm : x.moved with
  | none =>
    simp only [Bool.not_false, Bool.true_and]
    split <;> rfl
  | some t =>
    simp only [decide_eq_false (Nat.not_lt.mpr (hmv t hm)), Bool.not_false, Bool.true_and]
    split <;> rfl

end

/-- Settles O52: each step of a copy engine, of kept events and posts, and of a distributor does what its row says. -/
theorem engineAndSchedulerSteps : Obligations.EngineAndSchedulerSteps := by
  refine ⟨?_, ?_, ?_, ?_, ?_, ?_, ?_, ?_, ?_, ?_, ?_, ?_⟩
  · intro s ch m r hch hm
    have hthere : isChan ch = true := decide_eq_true hch
    refine ⟨stepOf_there hthere rfl, fun hmay ho => ?_, fun hb => ⟨stepOf_there hthere rfl, ?_, ?_, ?_, ?_, ?_⟩,
      fun hb hl hbar hf => ?_⟩
    · refine ⟨startedChan s ch m, stepOf_there hthere ?_, ?_, ?_, ?_, ports_startedChan⟩
      · rw [sendOwed_nothing ho, startCommand_starts hm hmay]
      · rw [chan_startedChan]
      · rw [chan_startedChan]
        rfl
      · rw [chan_startedChan]
        exact hm
    · exact fun t v u hk hf hl hr hw => moveGrain_copies hk hf hl hr hw
    · intro ea l t v u hk hi hg hr hw
      rw [moveGrain_reads hk hi (by rw [hg]; rfl) hr hw, hg]
      rfl
    · exact fun ea l v u hk hi hg hw => moveGrain_repeats hk hi hg hw
    · exact grainStep_credits hm hb
    · exact fun cause sub a left va hc hg => grainStep_faults hm hb hc hg
    · have hdone := completeCommand_completes hm hb hl hbar hf
      have hchan : (completeCommand s ch).chan ch = { s.chan ch with cmds := (s.chan ch).cmds.tail, busy := false, wm := m.mark } := by
        rw [hdone]
        dsimp only
        split
        · exact chan_completedChan ..
        · exact chan_completedChan ..
      refine ⟨_, stepOf_there hthere rfl, ?_, ?_, fun hk hd hd8 => ?_⟩
      · rw [hchan, hm]
        rfl
      · rw [hchan]
      · rw [hdone]
        dsimp only
        rw [if_pos ⟨hk, hd⟩, State.ctx_setCtx, getLsbD_setBit _ _ _ _ hd8, if_pos rfl]
  · refine fun s ch hch => ⟨fun hf => stepOf_there (decide_eq_true hch) (if_pos hf),
      _, stepOf_there (decide_eq_true hch) rfl, rfl, ?_⟩
    exact congrArg Chan.cancelled (State.chan_setChan ..)
  · exact fun s enl i h => stepOf_there (decide_eq_true h) rfl
  · intro s g e t ws he hl n
    unfold stageGrain
    rw [he]
    dsimp only
    rw [hl]
  · intro s p e hp he
    refine stepOf_there (decide_eq_true hp) ?_
    rw [placeEvent, he]
  · intro s n p hn hf hp
    refine stepOf_there (decide_eq_true hn) ?_
    rw [placePost, hf, hp]
    rfl
  · intro s q hq hr hfree limit hl0 hlim
    have hthere : isSeq q = true := decide_eq_true hq
    have hgo : ¬((s.ctx q).free = true ∨ (s.ctx q).state ≠ .running ∨ limit = 0 ∨ (s.ctx q).sliceUsed < limit) := by
      rw [hfree]
      rintro (h | h | h | h)
      · exact Bool.false_ne_true h
      · exact h hr
      · exact hl0 h
      · exact absurd h (Nat.not_lt.mpr hlim)
    have hend : sliceEnd s q = _ := if_neg hgo
    refine ⟨fun hc => stepOf_there hthere ?_, fun hc hw => stepOf_there hthere ?_, fun hc hlane hm hrun ht u => ?_⟩
    · rw [hend, hc]
      rfl
    · rw [hend, hc]
      refine (if_neg Bool.false_ne_true).trans (if_pos ?_)
      rcases hw with h | ⟨h, h'⟩
      · rw [h]; rfl
      · rw [h, h', Bool.not_false, Bool.and_true, Bool.or_true]
    · have hnow : ((s.ctx q).laneHeld || (!(s.ctx q).movedOn && !stuck s q)) = false := by
        rcases hm with h | h <;> simp [hlane, h]
      have hsave : sliceEnd s q = restAs s q (sliceEnded · q) := by
        rw [hend, hc]
        exact (if_neg Bool.false_ne_true).trans ((if_neg (ne_true_of_eq_false hnow)).trans (saveAtSliceEnd_of hfree hr hrun ht))
      refine ⟨fun hrel => stepOf_there hthere ?_, fun hrel => ⟨fun t hsv => stepOf_there hthere ?_,
        fun hsv => stepOf_there hthere ?_⟩⟩
      · rw [hsave, restAs, hrel]
      · rw [hsave, restAs, hrel]
        exact sliceEnded_saved hsv
      · rw [hsave, restAs, hrel]
        exact sliceEnded_full hsv
  · intro s q p hq hp hfree hst hpo
    refine stepOf_there (decide_eq_true hq) ?_
    unfold selectFor
    simp only [hp, hfree, hst, hpo]
    rfl
  · intro s q t p hq hsel hown
    refine ⟨fun hfull => stepOf_there (decide_eq_true hq) ?_, fun q' u es hfull hch hes => stepOf_there (decide_eq_true hq) ?_⟩
    · rw [bindFor, hsel]
      dsimp only
      rw [hown]
      exact if_pos hfull
    · unfold bindFor
      simp only [hsel, hown, hfull, hch, hes]
      rfl
  · intro s q t p v q' u hq hsel hown hv hch hres
    refine stepOf_there (decide_eq_true hq) ?_
    unfold resumeFor
    simp only [hsel, hown, hv, hch, hres]
    rfl
  · intro s d n i hd hn
    have hthere : (isDie d && isQueue n) = true := Bool.and_eq_true_iff.mpr ⟨decide_eq_true hd, decide_eq_true hn⟩
    refine ⟨fun hno => stepOf_there hthere ?_, fun p w u g hown hw hplan => ⟨fun hs hi => stepOf_there hthere ?_,
      fun hgo => ⟨fun ho => stepOf_there hthere ?_, fun ho hfit => stepOf_there hthere ?_⟩⟩⟩
    · rw [stageSlot, hno]
    all_goals
      unfold stageSlot
      simp only [hown, hw, hplan]
    · exact if_pos ⟨by rw [hs]; rfl, hi⟩
    all_goals
      have hnot : ¬(w.saved.isNone = true ∧ w.slot ≠ i) := by
        rintro ⟨h1, h2⟩
        rcases hgo with h | h
        · rw [Option.isSome_iff_ne_none] at h
          exact h (Option.isNone_iff_eq_none.mp h1)
        · exact h2 h
      rw [if_neg hnot, ho]
    · rfl
    · rw [displace_fitting _ hfit, hfit]
      rfl
  · intro s g stack x hst hx hp hmv hmig hstk hcnt l hl
    have hmove := moveGranule_of hst hx hp hmv hmig hstk hcnt
    refine ⟨fun hfew => stepOf_there (decide_eq_true hst) ?_, fun hmost => stepOf_there (decide_eq_true hst) ?_⟩
    · rw [hmove, if_neg fun h => absurd (mostUsed_iff.mp h).2 (Nat.not_le.mpr hfew)]
    · rw [hmove, if_pos (mostUsed_iff.mpr ⟨hl, hmost⟩)]

end Sys2Proof.Machine
end

