-- ==== Sys2Proof/Proofs/ControlSteps.lean ====
section
/-!
The writes of the control pages that have a row of their own (O53).
-/
namespace Sys2Proof.Machine

/-! ## Contexts -/

section
variable {s : State} {q : Nat}

/-- An empty context that a STOP makes a free-standing one. -/
def Ctx.freed (c : Ctx) : Ctx := { c with
  state := .stopped, free := true, task := none, chainF := 0, lmode := false, handler := false, trapv := false
  sc := { c.sc with rptAct := false, rptRun := false } }

theorem ctlStop_empty (h : (s.ctx q).state = .empty) : ctlStop s q = s.setCtx q (s.ctx q).freed := by
  unfold ctlStop
  simp only [h]
  rfl

theorem ctlStop_resting (h : (s.ctx q).state = .stopped ∨ (s.ctx q).state = .trapped) : ctlStop s q = s := by
  unfold ctlStop
  rcases h with h | h <;> simp only [h]

theorem ctlStop_busy (h : (s.ctx q).state = .running ∨ (s.ctx q).state = .waiting) :
    ctlStop s q = stopComplete (stopContext s q) q := by
  unfold ctlStop
  rcases h with h | h <;> simp only [h]

theorem ctlResume_ignored (h : ¬(serves s q = true ∧ ((s.ctx q).state = .stopped ∨ (s.ctx q).state = .trapped))) :
    ctlResume s q = s := if_neg h

theorem ctlStep_ignored (h : ¬(serves s q = true ∧ ((s.ctx q).state = .stopped ∨ (s.ctx q).state = .trapped))) :
    ctlStep s q = s := if_neg h

theorem ctx_setCtx_saved (t : State) (q : Nat) (c : Ctx) (l : List Saved) : State.ctx { t.setCtx q c with saved := l } q = c :=
  State.ctx_setCtx t q c

theorem ctlDiscard_resting (h : (s.ctx q).state = .stopped ∨ (s.ctx q).state = .trapped) :
    ∃ c : Ctx, (ctlDiscard s q).ctx q = { c.ended with lmode := false, handler := false } := by
  unfold ctlDiscard
  cases cancelContext s q false with
  | mk t l =>
    rcases h with h | h
    · simp only [h]
      exact ⟨_, ctx_setCtx_saved ..⟩
    · simp only [h]
      exact ⟨_, ctx_setCtx_saved ..⟩

theorem ctlDiscard_empty (h : (s.ctx q).state = .empty) : ctlDiscard s q = s := by
  unfold ctlDiscard
  simp only [h]

theorem contextWrite_root {v : Word} (h : (s.ctx q).state ≠ .saved) : contextWrite s q 0x018 v = setRoot s q v := by
  have hst : ((setRoot s q v).ctx q).state ≠ .saved := by
    rw [setRoot, State.ctx_setCtx]
    exact h
  show (match shownImage (setRoot s q v) q with
    | some x => if ((setRoot s q v).ctx q).state = .saved then putW (setRoot s q v) (x.base + 0x1000 + 0x018) v else setRoot s q v
    | none => setRoot s q v) = setRoot s q v
  split
  · exact if_neg hst
  · rfl

end

/-! ## Queues -/

section
variable {s : State} {n : Nat} {v : Word}

theorem queueHead_disabled (h : (s.queue n).en = false) : queueHead s n v = s.setQueue n { s.queue n with head := v } :=
  if_pos (by rw [h]; rfl)

theorem queueHead_enabled (h : (s.queue n).en = true) (hne : v ≠ (s.queue n).head)
    (hle : (v - (s.queue n).head).toNat ≤ ((s.queue n).tail - (s.queue n).head).toNat) :
    queueHead s n v = if ∀ i < (v - (s.queue n).head).toNat, slotKind (slotRec s n ((s.queue n).head + word i).toNat) = 0xE0
      then s.setQueue n { s.queue n with head := v } else s := by
  have hd : (v - (s.queue n).head).toNat ≠ 0 := by
    intro h0
    have hz : v - (s.queue n).head = 0 := BitVec.eq_of_toNat_eq h0
    exact hne (by bv_omega)
  unfold queueHead
  dsimp only
  rw [h]
  refine (if_neg Bool.false_ne_true).trans (if_congr ?_ rfl rfl)
  simp only [hd, hle, ne_eq, not_false_eq_true, true_and, List.all_eq_true, List.mem_range, beq_iff_eq]

theorem queueEnable_sets (h : v.getLsbD 8 = true) : queueEnable s n v
    = s.setQueue n { s.queue n with capacity := if (s.queue n).en then (s.queue n).capacity else min 12 (v.toNat % 16), en := true } := by
  unfold queueEnable bits
  simp only [h, if_true, Nat.pow_zero, Nat.div_one]
  rfl

theorem queueWrite_counter {i : Nat} : queueWrite s n (0x800 + 8 * i) v = s.setQueue n ((s.queue n).setCounter i (v.setWidth 16)) := by
  have hi : (0x800 + 8 * i - 0x800) / 8 = i := by omega
  unfold queueWrite
  dsimp only
  rw [if_neg (by omega), if_pos (by omega), hi]

end

/-! ## Ownership -/

theorem tlb_dropPartTlbs (l : List Nat) (s : State) :
    l.foldl dropPartTlb s = { s with tlb := s.tlb.filter fun t => !l.contains t.part } := by
  induction l generalizing s with
  | nil =>
    rw [List.foldl_nil]
    simp
  | cons p l ih =>
    rw [List.foldl_cons, ih]
    simp only [dropPartTlb, List.filter_filter]
    refine congrArg (fun x => { s with tlb := x }) (List.filter_congr fun t _ => ?_)
    rw [List.contains_cons, Bool.not_or, Bool.and_comm]
    rfl

/-! ## The reset of a partition -/

section
variable {s : State} {p : Nat}

theorem sameContexts_setSlotState (s : State) (n i st : Nat) : SameContexts s (setSlotState s n i st) := sameContexts_homeWrite ..

theorem sameContexts_cancelStage (s : State) (t : Stage) : SameContexts s (cancelStage s t) := by
  unfold cancelStage
  dsimp only
  split
  · exact SameContexts.trans (t := { s with stages := s.stages.erase t }) ⟨rfl, rfl⟩ (sameContexts_setSlotState ..)
  · exact ⟨rfl, rfl⟩

theorem sameContexts_foldl {α : Type} {f : State → α → State} (hf : ∀ s a, SameContexts s (f s a)) (l : List α) (s : State) :
    SameContexts s (l.foldl f s) := by
  induction l generalizing s with
  | nil => exact ⟨rfl, rfl⟩
  | cons a l ih => exact (hf s a).trans (ih _)

theorem sameContexts_cancelStages (s : State) (sel : Stage → Bool) : SameContexts s (cancelStages s sel) :=
  sameContexts_foldl sameContexts_cancelStage _ s

theorem beyond_exportLine (s : State) (b g : Nat) : (exportLine s b g).beyond = s.beyond := by
  refine beyond_iterate (fun i t => beyond_iterate (fun d u => ?_) _ _ t) _ _ s
  have h := leaves_exportWord u d (b + 4 * i) (b := u.beyond) rfl
  cases he : exportWord u d (b + 4 * i) with
  | ok r =>
    rw [he] at h
    exact h
  | error e => rfl

theorem beyond_purgePart (s : State) (p : Nat) : (purgePart s p).beyond = s.beyond := by
  refine (beyond_flushAll _).trans (beyond_foldl (fun t bl => ?_) _ s)
  exact (beyond_applyEvent ..).trans (beyond_exportLine ..)

/-- A context as the reset of a partition leaves it. -/
def resetSeq (s : State) (p : Nat) (x : Nat × Ctx) : Nat × Ctx :=
  if ((s.seqs.map (·.1)).filter fun q => s.partOfSeq q == some p).contains x.1 then
    (x.1, { x.2.ended with reserved := false, lmode := false, handler := false, beats := x.2.beats })
  else x

theorem seqs_resetPartition (h : absent s p = false) : (resetPartition s p).seqs = s.seqs.map (resetSeq s p) := by
  have hsame := (sameContexts_cancelStages s fun t => t.part == p).trans (sameContexts_of_beyond (beyond_purgePart _ p))
  have hmap := congrArg (List.map (resetSeq s p)) hsame.1
  unfold resetPartition
  rw [if_neg (ne_true_of_eq_false h)]
  exact hmap

theorem state_get_map {f : Nat × Ctx → Nat × Ctx} {q : Nat} (hkey : ∀ x, (f x).1 = x.1) (l : List (Nat × Ctx))
    (h : ∀ c, (q, c) ∈ l → (f (q, c)).2.state = .empty) : (get (l.map f) q {}).state = .empty := by
  induction l with
  | nil => rfl
  | cons x l ih =>
    obtain ⟨j, c⟩ := x
    have hf : f (j, c) = (j, (f (j, c)).2) := Prod.ext (hkey (j, c)) rfl
    rw [List.map_cons, hf, get]
    split
    · next hj => exact hj ▸ h c (hj ▸ List.mem_cons_self)
    · exact ih fun d hd => h d (List.mem_cons_of_mem _ hd)

theorem state_resetPartition {q : Nat} (h : absent s p = false) (hq : s.partOfSeq q = some p) :
    ((resetPartition s p).ctx q).state = .empty := by
  rw [State.ctx, seqs_resetPartition h]
  refine state_get_map (fun x => ?_) _ fun c hc => ?_
  · unfold resetSeq
    split <;> rfl
  · have hin : ((s.seqs.map (·.1)).filter fun q => s.partOfSeq q == some p).contains q = true := by
      rw [List.contains_iff_mem, List.mem_filter]
      exact ⟨List.mem_map.mpr ⟨_, hc, rfl⟩, beq_iff_eq.mpr hq⟩
    unfold resetSeq
    rw [if_pos hin]
    rfl

end

/-! ## Slots -/

theorem slot_drainDone {s : State} {sl : Nat} (hsl : sl < 8) (h : (vget s.slots sl {}).draining = true) :
    ∃ f, vget (drainDone s sl).slots sl {} = { vget s.slots sl {} with
      active := true, draining := false, faulting := f, aattr := (vget s.slots sl {}).sattr, aent := (vget s.slots sl {}).sent } := by
  unfold drainDone
  dsimp only
  rw [h]
  exact ⟨_, vget_vset_same _ _ _ _ hsl⟩

/-- Settles O53: each write of a control page with a row of its own does what its row says. -/
theorem controlSteps : Obligations.ControlSteps := by
  refine ⟨?_, ?_, ?_, ?_, ?_, ?_⟩
  · intro s q hq c
    have hthere : isSeq q = true := decide_eq_true hq
    refine ⟨fun he => ?_, fun hb => stepOf_there hthere (ctlStop_busy hb), fun hr => ⟨stepOf_there hthere (ctlStop_resting hr),
      fun hs => ?_, fun hs ho => ?_, fun hs ho => ?_, ?_⟩, fun he => ?_, fun v hv => stepOf_there hthere (contextWrite_root hv)⟩
    · exact ⟨_, stepOf_there hthere (ctlStop_empty he), rfl, rfl, rfl, rfl, rfl, rfl, rfl, rfl, rfl⟩
    · have hno : ¬(serves s q = true ∧ ((s.ctx q).state = .stopped ∨ (s.ctx q).state = .trapped)) := fun h =>
        Bool.false_ne_true (hs.symm.trans h.1)
      exact ⟨stepOf_there hthere (ctlResume_ignored hno), stepOf_there hthere (ctlStep_ignored hno)⟩
    · exact ⟨stepOf_there hthere ((if_pos ⟨hs, hr⟩).trans (if_pos ho)), stepOf_there hthere ((if_pos ⟨hs, hr⟩).trans (if_pos ho))⟩
    · have ho' : ¬resumeOk s q = true := ne_true_of_eq_false ho
      exact ⟨_, stepOf_there hthere ((if_pos ⟨hs, hr⟩).trans (if_neg ho')),
        stepOf_there hthere ((if_pos ⟨hs, hr⟩).trans (if_neg ho')), rfl, rfl, rfl, rfl⟩
    · obtain ⟨d, hd⟩ := ctlDiscard_resting hr
      exact ⟨_, stepOf_there hthere rfl, congrArg Ctx.state hd, congrArg Ctx.task hd, congrArg Ctx.viq hd, congrArg Ctx.sb hd⟩
    · have hno : ¬(serves s q = true ∧ ((s.ctx q).state = .stopped ∨ (s.ctx q).state = .trapped)) := by
        rintro ⟨-, h | h⟩
        · exact nomatch he.symm.trans h
        · exact nomatch he.symm.trans h
      exact ⟨stepOf_there hthere (ctlResume_ignored hno), stepOf_there hthere (ctlStep_ignored hno),
        stepOf_there hthere (ctlDiscard_empty he)⟩
  · intro s n v hn x
    have hthere : isQueue n = true := decide_eq_true hn
    refine ⟨fun h => stepOf_there hthere (queueHead_disabled h), fun h hne hle => ⟨fun hall => ?_, fun hex => ?_⟩,
      fun h => stepOf_there hthere (queueEnable_sets h), fun i hi => ?_⟩
    · exact stepOf_there hthere ((queueHead_enabled h hne hle).trans (if_pos hall))
    · refine stepOf_there hthere ((queueHead_enabled h hne hle).trans (if_neg fun hall => ?_))
      obtain ⟨i, hi, hk⟩ := hex
      exact hk (hall i hi)
    · exact stepOf_there (Bool.and_eq_true_iff.mpr ⟨hthere, decide_eq_true hi⟩) queueWrite_counter
  · intro s c hc x f
    have hcore : isCore c = true := decide_eq_true hc
    refine ⟨stepOf_there hcore (tlb_dropPartTlbs ..), fun i hi => ?_, fun i hi => ?_⟩
    · have hthere : (isCore c && decide (i < 4)) = true := Bool.and_eq_true_iff.mpr ⟨hcore, decide_eq_true hi⟩
      refine ⟨fun he => stepOf_there hthere (if_pos (.inl he)), fun hr => stepOf_there hthere (if_neg ?_),
        fun hf => stepOf_there hthere (if_neg (by rw [hf]; exact Bool.false_ne_true))⟩
      rintro (h | h)
      · exact nomatch hr.symm.trans h
      · exact nomatch hr.symm.trans h
    · have hthere : (isCore c && decide (i < 8)) = true := Bool.and_eq_true_iff.mpr ⟨hcore, decide_eq_true hi⟩
      refine ⟨fun ht => stepOf_there hthere (if_neg (by rw [ht]; exact Bool.false_ne_true)),
        fun hch => stepOf_there hthere (if_neg (by rw [hch]; exact Bool.false_ne_true)), fun hp => stepOf_there hthere ?_⟩
      unfold passItem
      simp only [show ownerOf (vget (s.core c).inForce.pipe i 0) = none from hp]
      rfl
  · intro s p hp x gone
    have hthere : isPart p = true := decide_eq_true hp
    refine ⟨fun h => stepOf_there hthere (if_pos h), fun h => ⟨resetPartition s p, stepOf_there hthere rfl, ?_, ?_,
      fun q hq => state_resetPartition h hq⟩, fun h => stepOf_there hthere ?_, fun i hi v => ?_, fun v h => ?_, fun v h0 h => ?_,
      fun v => stepOf_there hthere rfl, fun v => stepOf_there hthere rfl⟩
    · unfold resetPartition
      rw [if_neg (ne_true_of_eq_false h)]
      exact congrArg Part.pstate (get_put_same ..)
    · unfold resetPartition
      rw [if_neg (ne_true_of_eq_false h), List.all_eq_true]
      exact fun e he => (List.mem_filter.mp he).2
    · exact if_neg (not_not_intro h)
    · exact stepOf_there (Bool.and_eq_true_iff.mpr ⟨hthere, decide_eq_true hi⟩) rfl
    · exact stepOf_there hthere (if_pos (.inl (by unfold bits; omega)))
    · subst h0
      refine stepOf_there hthere ?_
      have hbase : bits v 0 12 = v.toNat % 4096 := congrArg (· % 2 ^ 12) (Nat.div_one v.toNat)
      have hcount : bits v 16 13 = v.toNat / 65536 % 8192 := rfl
      unfold setQueues
      rw [hbase, hcount]
      exact if_neg fun hno => hno.elim (Nat.not_lt.mpr h) Bool.false_ne_true
  · intro s sl hsl t
    refine ⟨fun r w h => stepOf_there (decide_eq_true hsl) ?_, fun hd => ?_⟩
    · unfold loadSlot
      simp only [show validate sl (vget s.slots sl {}).draining (vget s.slots sl {}).sattr (vget s.slots sl {}).sent = (r, w) from h]
      rfl
    · obtain ⟨f, hf⟩ := slot_drainDone hsl hd
      exact ⟨_, stepOf_there (decide_eq_true hsl) rfl, congrArg Slot.active hf, congrArg Slot.draining hf,
        congrArg Slot.aattr hf, congrArg Slot.aent hf⟩
  · exact fun s a v hbase hlt hal => stepOf_there rfl (if_pos ⟨hbase, hlt, hal⟩)

end Sys2Proof.Machine
end

