-- ==== Sys2Proof/Proofs/MemorySteps.lean ====
section
/-!
The steps of the ordering machine and of the homes, and detected errors (O54).
-/
namespace Sys2Proof.Machine

/-! ## Words that are bound together -/

theorem mem_quadWords {u w : Nat} : u ∈ quadWords w ↔ ∃ i < 4, w / 16 * 16 + 4 * i = u := by
  simp only [quadWords, List.mem_map, List.mem_range]

theorem mem_quadWords_self {a : Nat} : a / 4 * 4 ∈ quadWords (a / 4 * 4) :=
  mem_quadWords.mpr ⟨a / 4 % 4, by omega, by omega⟩

theorem quad_of_mem {u w : Nat} (h : u ∈ quadWords w) : w / 16 = u / 16 := by
  obtain ⟨i, hi, rfl⟩ := mem_quadWords.mp h
  omega

theorem nodup_quadWords (w : Nat) : (quadWords w).Nodup := by
  refine List.Nodup.map (fun i j h => ?_) List.nodup_range
  have h : w / 16 * 16 + 4 * i = w / 16 * 16 + 4 * j := h
  omega

theorem getLsbD_quadBit (w i : Nat) (h : i < 4) : (quadBit w).getLsbD i = decide (i = w / 4 % 4) := by
  rw [quadBit, BitVec.getLsbD_ofNat, Nat.testBit_two_pow, decide_eq_true h, Bool.true_and]
  exact decide_eq_decide.mpr eq_comm

theorem mem_boundTo_self (ent : Nat → Option RegWord) (a : Nat) : a / 4 * 4 ∈ boundTo ent (a / 4 * 4) := by
  have hi : a / 4 * 4 / 4 % 4 < 4 := Nat.mod_lt _ (by decide)
  unfold boundTo
  dsimp only
  refine List.mem_filter.mpr ⟨mem_quadWords_self, ?_⟩
  rw [beq_self_eq_true, Bool.true_or, Bool.and_true, bne_iff_ne]
  intro h0
  have hbit := congrArg (·.getLsbD (a / 4 * 4 / 4 % 4)) h0
  have hgrown := iterate_keeps (fun m : BitVec 4 => m.getLsbD (a / 4 * 4 / 4 % 4) = true) (fun _ m =>
    (quadWords (a / 4 * 4)).foldl (fun n u => if (m &&& quadBit u) = 0 then n else match ent u with
      | some r => n ||| r.atom
      | none => n) m) (fun _ m hm => ?_) 4 0 (quadBit (a / 4 * 4)) (by rw [getLsbD_quadBit _ _ hi, decide_eq_true rfl])
  · have hzero : (0 : BitVec 4).getLsbD (a / 4 * 4 / 4 % 4) = false := BitVec.getLsbD_zero
    simp only [BitVec.getLsbD_and, getLsbD_quadBit _ _ hi, decide_true, Bool.and_true, hzero] at hbit
    exact Bool.false_ne_true (hbit.symm.trans hgrown)
  · refine foldl_keeps (fun n : BitVec 4 => n.getLsbD (a / 4 * 4 / 4 % 4) = true) _ (fun n u hn => ?_) _ _ hm
    split
    · exact hn
    · split
      · rw [BitVec.getLsbD_or, hn, Bool.true_or]
      · exact hn

theorem quad_of_boundTo {ent : Nat → Option RegWord} {u w : Nat} (h : u ∈ boundTo ent w) : w / 16 = u / 16 :=
  quad_of_mem (List.mem_filter.mp h).1

theorem nodup_boundTo (ent : Nat → Option RegWord) (w : Nat) : (boundTo ent w).Nodup := by
  unfold boundTo
  exact (nodup_quadWords w).filter _

theorem isSome_of_boundTo {ent : Nat → Option RegWord} {u w : Nat} (h : u ∈ boundTo ent w) (hw : ent w ≠ none) :
    (ent u).isSome = true := by
  have hor := (Bool.and_eq_true_iff.mp (List.mem_filter.mp h).2).2
  rcases Bool.or_eq_true_iff.mp hor with he | hs
  · rw [beq_iff_eq.mp he]
    exact Option.isSome_iff_ne_none.mpr hw
  · exact hs

/-! ## Registering a quad -/

section
variable {c : Nat}

theorem mergeBytes_full {r : RegWord} (h : r.mask = 15) (old : BitVec 32) : mergeBytes r old = r.val := by
  have hbit : ∀ i < 4, r.mask.getLsbD i = true := by
    rw [h]
    decide
  have hb := r.val.isLt
  unfold mergeBytes
  simp only [List.range, List.range.loop, List.foldl_cons, List.foldl_nil, hbit 0 (by decide), hbit 1 (by decide),
    hbit 2 (by decide), hbit 3 (by decide), if_true]
  refine BitVec.eq_of_toNat_eq ?_
  rw [BitVec.toNat_ofNat]
  omega

/-- A word that a core may register at once: it is written whole, no engine holds it, and no core of the die is registered. -/
structure ReadyWord (s : State) (c u : Nat) (r : RegWord) : Prop where
  entry : find s.reg (unitKey c u) = some r
  whole : r.mask = 15
  waits : r.registered = true
  nobody : ∀ o, find s.die (unitKey (coreDie c) u) ≠ some (.core o)

theorem unregisteredAt_ready {s : State} {u : Nat} {r : RegWord} (h : ReadyWord s c u r) : unregisteredAt s c u = some r := by
  unfold unregisteredAt
  rw [h.entry]
  cases hd : find s.die (unitKey (coreDie c) u) with
  | none => exact if_pos h.waits
  | some e =>
    cases e with
    | value v => exact if_pos h.waits
    | core o => exact absurd hd (h.nobody o)

theorem readyWord_of {s : State} {u : Nat} (hu : (unregisteredAt s c u).isSome = true)
    (hr : ∃ r, find s.reg (unitKey c u) = some r ∧ r.mask = 15) (hd : ∀ o, find s.die (unitKey (coreDie c) u) ≠ some (.core o)) :
    ∃ r, ReadyWord s c u r := by
  obtain ⟨r, hf, hm⟩ := hr
  refine ⟨r, hf, hm, ?_, hd⟩
  unfold unregisteredAt at hu
  rw [hf] at hu
  cases hreg : r.registered with
  | true => rfl
  | false =>
    cases he : find s.die (unitKey (coreDie c) u) with
    | none => simp [he, hreg] at hu
    | some e => cases e <;> simp [he, hreg] at hu

/-- What the die point held of a word, as its registration keeps it. -/
def placedBefore (s : State) (c u : Nat) : Option (BitVec 32) := match find s.die (unitKey (coreDie c) u) with
  | some (.value v) => some v
  | _ => none

/-- A word registered with its core. -/
def registered (c : Nat) (t : State) (u : Nat) (r : RegWord) : State := { t with
  reg := put t.reg (unitKey c u) { r with placed := placedBefore t c u }
  die := put t.die (unitKey (coreDie c) u) (.core c) }

theorem registerOne_ready {s : State} {u : Nat} {r : RegWord} (h : ReadyWord s c u r) :
    registerOne s c u = .ok (registered c s u r) := by
  have hold : olderWord s c u r = .ok (s, 0, 0) := by
    unfold olderWord
    cases hd : find s.die (unitKey (coreDie c) u) with
    | none => exact if_pos h.whole
    | some e =>
      cases e with
      | value v => exact if_pos h.whole
      | core o => exact absurd hd (h.nobody o)
  have hmask : r.mask = 15 := h.whole
  have hor : r.atom ||| (0 : BitVec 4) = r.atom := BitVec.or_zero
  unfold registerOne registered placedBefore
  simp only [unregisteredAt_ready h, hold, ok_bind, mergeBytes_full hmask, hor]
  rw [← hmask]
  cases hd : find s.die (unitKey (coreDie c) u) with
  | none => rfl
  | some e =>
    cases e with
    | value v => rfl
    | core o => exact absurd hd (h.nobody o)

theorem registerReady_ready {s : State} {ws : List Nat} (h : ∀ u ∈ ws, (∃ r, ReadyWord s c u r) ∧ engineHolds s u = false) :
    registerReady s c ws = .ok s := by
  unfold registerReady
  induction ws with
  | nil => rfl
  | cons u ws ih =>
    obtain ⟨⟨r, hr⟩, he⟩ := h u List.mem_cons_self
    have hstep : (if engineHolds s u then (.error (.wait s) : Except MErr State)
        else match unregisteredAt s c u, find s.die (unitKey (coreDie c) u) with
          | some _, some (.core _) => .ok s
          | some r, _ => if r.mask = 15 then .ok s else do
            let (s, _) ← dieRead s (coreDie c) u r.grain r.slot
            return s
          | none, _ => .ok s) = .ok s := by
      rw [he, unregisteredAt_ready hr]
      cases hd : find s.die (unitKey (coreDie c) u) with
      | none => exact if_pos hr.whole
      | some e =>
        cases e with
        | value v => exact if_pos hr.whole
        | core o => exact absurd hd (hr.nobody o)
    rw [List.foldlM_cons]
    exact (congrArg (· >>= _) hstep).trans (ih fun v hv => h v (List.mem_cons_of_mem _ hv))

/-- The registry with the words of a quad registered. -/
def registeredWords (s : State) (c : Nat) (ws : List Nat) (l : List (Nat × RegWord)) : List (Nat × RegWord) :=
  ws.foldl (fun l u => match find l (unitKey c u) with
    | some r => put l (unitKey c u) { r with placed := match find s.die (unitKey (coreDie c) u) with
      | some (.value v) => some v
      | _ => none }
    | none => l) l

theorem readyWord_registered {t : State} {u v : Nat} {r x : RegWord} (hne : v ≠ u) (h : ReadyWord t c v x) :
    ReadyWord (registered c t u r) c v x := by
  have hkey : ∀ d, unitKey d v ≠ unitKey d u := fun d he => hne (by unfold unitKey at he; omega)
  refine ⟨(find_put_ne _ _ _ _ (hkey c)).trans h.entry, h.whole, h.waits, fun o he => h.nobody o ?_⟩
  exact (find_put_ne _ _ _ _ (hkey _)).symm.trans he

theorem registerOnes_ready {s : State} {ws : List Nat} (hn : ws.Nodup) : ∀ t : State,
    (∀ u ∈ ws, (∃ r, ReadyWord t c u r) ∧ find t.die (unitKey (coreDie c) u) = find s.die (unitKey (coreDie c) u)) →
    ws.foldlM (fun s w => registerOne s c w) t = .ok { t with
      reg := registeredWords s c ws t.reg
      die := ws.foldl (fun l u => put l (unitKey (coreDie c) u) (.core c)) t.die } := by
  induction ws with
  | nil => exact fun t _ => rfl
  | cons u ws ih =>
    intro t h
    obtain ⟨⟨r, hr⟩, hd⟩ := h u List.mem_cons_self
    obtain ⟨hu, hws⟩ := List.nodup_cons.mp hn
    rw [List.foldlM_cons, registerOne_ready hr, ok_bind, ih hws (registered c t u r) fun v hv => ?_]
    · have hreg : registeredWords s c (u :: ws) t.reg = registeredWords s c ws (registered c t u r).reg := by
        unfold registeredWords registered placedBefore
        rw [List.foldl_cons, hr.entry, hd]
      rw [hreg]
      rfl
    · have hne : v ≠ u := fun he => hu (he ▸ hv)
      obtain ⟨⟨x, hx⟩, hdv⟩ := h v (List.mem_cons_of_mem _ hv)
      exact ⟨⟨x, readyWord_registered hne hx⟩, (find_put_ne _ _ _ _ fun he => hne (by unfold unitKey at he; omega)).trans hdv⟩

theorem registerWord_ready {s : State} {w : Nat} (hw : unregisteredAt s c w ≠ none)
    (h : ∀ u ∈ boundTo (unregisteredAt s c) w, (∃ r, ReadyWord s c u r) ∧ engineHolds s u = false) :
    registerWord s c w = .ok ({ s with
      stamp := s.stamp + 1
      reg := registeredWords s c (boundTo (unregisteredAt s c) w) s.reg
      die := (boundTo (unregisteredAt s c) w).foldl (fun l u => put l (unitKey (coreDie c) u) (.core c)) s.die }, ()) := by
  have hones := registerOnes_ready (s := s) (nodup_boundTo (unregisteredAt s c) w) { s with stamp := s.stamp + 1 } fun u hu => by
    obtain ⟨⟨r, hr⟩, -⟩ := h u hu
    exact ⟨⟨r, hr.entry, hr.whole, hr.waits, hr.nobody⟩, rfl⟩
  obtain ⟨x, hx⟩ := Option.ne_none_iff_exists'.mp hw
  unfold registerWord
  rw [hx]
  dsimp only
  rw [registerReady_ready h, ok_bind, hones]
  rfl

end

/-! ## What an event of a line does -/

theorem testBit_entryActs (e : BitVec 16) {i : Nat} (h : i < 9) : (entryActs e).testBit i = e.getLsbD (i + 3) := by
  show (e.toNat / 2 ^ 3 % 2 ^ 9).testBit i = e.toNat.testBit (i + 3)
  rw [Nat.testBit_mod_two_pow, decide_eq_true h, Bool.true_and, Nat.testBit_div_two_pow]

section
variable {l : Line} {e : BitVec 16} {ev : Nat} {r : Option Nat}

theorem owner_after : (l.after e ev r).owner = if e.getLsbD 5 then r else if e.getLsbD 6 then none else l.owner := by
  unfold Line.after
  dsimp only
  rw [testBit_entryActs e (by decide), testBit_entryActs e (by decide)]

theorem version_after : (l.after e ev r).version =
    if (e.getLsbD 5 = true ∧ l.owner ≠ r) ∨ (e.getLsbD 5 = false ∧ e.getLsbD 6 = true ∧ l.owner ≠ none) then l.version + 1
    else l.version := by
  unfold Line.after
  dsimp only
  rw [testBit_entryActs e (by decide), testBit_entryActs e (by decide)]
  refine if_congr ?_ rfl rfl
  rw [Bool.or_eq_true, Bool.and_eq_true, Bool.and_eq_true, Bool.and_eq_true, decide_eq_true_iff, Bool.not_eq_true',
    Option.isSome_iff_ne_none, and_assoc]

/-- An entry with no action leaves a line in its next state and else as it was. -/
theorem after_quiet (h : entryActs e = 0) : l.after e ev r = { l with state := e.toNat % 8 } := by
  unfold Line.after
  simp only [h, Nat.zero_testBit, Bool.false_eq_true, if_false, Bool.false_and, Bool.and_false, Bool.or_false]

end

theorem lines_setHomeWord (s : State) (w : Nat) (v : BitVec 32) : (setHomeWord s w v).lines = s.lines := by
  have hd : (dirtyLlc s w).lines = s.lines := by
    unfold dirtyLlc
    split <;> rfl
  unfold setHomeWord
  dsimp only
  split <;> exact hd

theorem lines_setPlaced (s : State) (c w : Nat) (v : Option (BitVec 32)) : (setPlaced s c w v).lines = s.lines := by
  unfold setPlaced
  split <;> rfl

theorem lines_overWords {f : State → Nat → State} (hf : ∀ s w, (f s w).lines = s.lines) (s : State) (b n : Nat) :
    (overWords f s b n).lines = s.lines :=
  iterate_keeps (fun t => t.lines = s.lines) _ (fun _ t ht => (hf t _).trans ht) _ _ s rfl

theorem lines_writeBack (s : State) (b : Nat) (l : Line) : (writeBack s b l).lines = s.lines := by
  unfold writeBack
  split
  · rfl
  · refine lines_overWords (fun t w => ?_) s _ _
    split
    · exact lines_setHomeWord t w _
    · split
      · exact lines_setHomeWord t w _
      · rfl
    · rfl

theorem lines_forwardWords (s : State) (b : Nat) (l : Line) (d : Nat) : (forwardWords s b l d).lines = s.lines := by
  unfold forwardWords
  split
  · rfl
  · split
    · rfl
    · refine lines_overWords (fun t w => ?_) s _ _
      have hmove : ∀ v : BitVec 32, State.lines (match find t.die (unitKey d w) with
          | some (.core c) => if pendingExport t c w then setPlaced t c w (some v) else t
          | _ => { t with die := put t.die (unitKey d w) (.value v) }) = t.lines := by
        intro v
        split
        · split
          · exact lines_setPlaced t _ w _
          · rfl
        · rfl
      dsimp only
      split
      · exact hmove _
      · split
        · exact hmove _
        · rfl
      · rfl

theorem lines_ite (p : Prop) [Decidable p] {x y s : State} (hx : x.lines = s.lines) (hy : y.lines = s.lines) :
    (if p then x else y).lines = s.lines := by
  split <;> assumption

/-- An event leaves the other lines as they were. -/
theorem applyEvent_held {s : State} {b ev : Nat} {l : Line} {r : Option Nat} (h : find s.lines b = some l) :
    ∃ t : State, t.lines = s.lines ∧ applyEvent s b ev r =
      if ev = evPURGE ∧ (l.after (entryFor s l ev) ev r).state = 0 then
        ({ t with lines := del t.lines b }, (entryActs (entryFor s l ev)).testBit 8)
      else ({ t with lines := put t.lines b (l.after (entryFor s l ev) ev r) }, (entryActs (entryFor s l ev)).testBit 8) := by
  have hwb := lines_ite ((entryActs (entryFor s l ev)).testBit 7 = true) (lines_writeBack s b l) rfl
  unfold applyEvent
  rw [h]
  cases r with
  | none =>
    refine ⟨_, ?_, rfl⟩
    exact lines_ite _ (lines_ite _ hwb hwb) (lines_ite _ hwb hwb)
  | some d =>
    have hfwd := lines_ite (((entryActs (entryFor s l ev)).testBit 6 && !(entryActs (entryFor s l ev)).testBit 7) = true)
      ((lines_forwardWords _ b l d).trans hwb) hwb
    refine ⟨_, ?_, rfl⟩
    exact lines_ite _ (lines_ite _ (lines_ite _ hfwd hfwd) (lines_ite _ hfwd hfwd))
      (lines_ite _ (lines_ite _ hfwd hfwd) (lines_ite _ hfwd hfwd))

theorem applyEvent_quiet {s : State} {b ev : Nat} {l : Line} {r : Option Nat} (h : find s.lines b = some l)
    (ha : entryActs (entryFor s l ev) = 0) (hp : ev ≠ evPURGE) (hc : ev ≠ evCMO) :
    applyEvent s b ev r = ({ s with lines := put s.lines b (l.after (entryFor s l ev) ev r) }, false) := by
  unfold applyEvent
  simp only [h, ha, Nat.zero_testBit, Bool.false_eq_true, if_false, Bool.false_and, Bool.or_false, hp, hc, false_and, or_false]
  cases r <;> rfl

/-! ## Exports and host lines -/

/-- The words of a quad as a placement at the home hands them on. -/
def exportedValues (s : State) (d : Nat) (us : List Nat) : List (Nat × BitVec 32) := us.map fun u => (u, match unplacedAt s d u with
  | some x => x.val
  | none => homeWord s u)

/-- The words of a quad marked exported. -/
def markExported (d : Nat) (us : List Nat) (t : State) : State := us.foldl (fun t u => match find t.die (unitKey d u) with
  | some (.core c) => match find t.reg (unitKey c u) with
    | some x => { t with reg := put t.reg (unitKey c u) { x with exported := true, atom := 0, placed := none } }
    | none => t
  | _ => t) t

/-- What becomes of a quad once its placement has gone on, waited or been refused. -/
def afterPlacement (d : Nat) (va : Word) (us : List Nat) (m : Except MErr (State × Bool)) : Except MErr (State × Unit) :=
  match m with
  | .ok (t, _) => .ok (markExported d us t, ())
  | .error (.wait t) => .error (.wait t)
  | .error (.stop c sub _ left) => .error (.stop c sub (some va) (left.map fun t => undoWords t d us))

section
variable {s : State} {d w : Nat} {r : RegWord}

theorem exportWord_places (h : unplacedAt s d w = some r) : exportWord s d w = afterPlacement d r.va (boundTo (unplacedAt s d) w)
    (placeGroup s d r.grain r.slot (exportedValues s d (boundTo (unplacedAt s d) w)) none) := by
  unfold exportWord exportPart
  simp only [h, sameLine]
  split
  · next c sub x left heq =>
    exact (congrArg (afterPlacement d r.va (boundTo (unplacedAt s d) w)) heq).symm
  · next hne =>
    cases hm : placeGroup s d r.grain r.slot (exportedValues s d (boundTo (unplacedAt s d) w)) none with
    | ok x => exact (congrArg (fun m : Except MErr (State × Bool) => (m >>= _) >>= _) hm).trans rfl
    | error e =>
      cases e with
      | wait t => exact (congrArg (fun m : Except MErr (State × Bool) => (m >>= _) >>= _) hm).trans rfl
      | stop c sub x left => exact (hne c sub x left hm).elim

theorem exportWord_nothing (h : unplacedAt s d w = none) : exportWord s d w = .ok (s, ()) := by
  unfold exportWord exportPart
  rw [h]
  rfl

theorem find_filter_gone {α : Type} (l : List (Nat × α)) (p : Nat → Bool) {k : Nat} (hk : p k = false) :
    find (l.filter fun x => p x.1) k = none := by
  induction l with
  | nil => rfl
  | cons x l ih =>
    rw [List.filter_cons]
    split
    · next hx =>
      have hne : x.1 ≠ k := fun he => Bool.false_ne_true ((he ▸ hk).symm.trans hx)
      exact (if_neg hne).trans ih
    · exact ih

theorem grainBytes_ge (g : Nat) : 32 ≤ grainBytes g := Nat.le_mul_of_pos_right 32 (Nat.pow_pos (by decide))

/-- The 64-byte lines of the host that a purge of a line covers. -/
def purgedLines (b n : Nat) : List Nat := (List.range ((b + n - b / 64 * 64 + 63) / 64)).map fun i => b / 64 * 64 + 64 * i

theorem mem_purgedLines {b n : Nat} (h : 32 ≤ n) : b / 64 * 64 ∈ purgedLines b n :=
  List.mem_map.mpr ⟨0, List.mem_range.mpr (by omega), by omega⟩

theorem purgedLines_one {b : Nat} (h : b % 32 = 0) : purgedLines b 32 = [b / 64 * 64] := by
  have h1 : (b + 32 - b / 64 * 64 + 63) / 64 = 1 := by omega
  unfold purgedLines
  rw [h1]
  rfl

/-- The bytes a purge of a host line takes for the line's. -/
def purgeSpan (s : State) (b : Nat) : Nat := match find s.lines b with
  | some l => grainBytes l.grain
  | none => 32

theorem purgeSpan_ge (s : State) (b : Nat) : 32 ≤ purgeSpan s b := by
  unfold purgeSpan
  split
  · exact grainBytes_ge _
  · exact Nat.le_refl 32

/-- Both grains of a 64-byte line of the host purged. -/
def purgeBoth (s : State) (k : Nat) : State := (applyEvent (applyEvent s k evPURGE none).1 (k + 32) evPURGE none).1

theorem purgeHost_eq (s : State) (b : Nat) :
    let t := (purgedLines b (purgeSpan s b)).foldl purgeBoth s
    purgeHost s b = { t with cxl := { t.cxl with
      hostLines := t.cxl.hostLines.filter fun p => !(purgedLines b (purgeSpan s b)).contains p.1 } } := rfl

theorem hostLines_purgeHost (s : State) (b : Nat) : find (purgeHost s b).cxl.hostLines (b / 64 * 64) = none := by
  rw [purgeHost_eq]
  refine find_filter_gone _ (fun k => !(purgedLines b (purgeSpan s b)).contains k) ?_
  rw [List.contains_iff_mem.mpr (mem_purgedLines (purgeSpan_ge s b))]
  rfl

end

theorem dieExport_held {s : State} {d b : Nat} {l : Line} {own : Bool} (hl : find s.lines b = some l) (ho : (l.owner == some d) = own) :
    dieExport s d b own = (lineWords b l).foldl (fun t w => memStep t (exportWord t d w)) s := by
  unfold dieExport
  rw [hl, ← ho]
  exact if_neg (by rw [bne_self_eq_false]; exact Bool.false_ne_true)

theorem dropCoreCopy_unregistered {s : State} {c w unit : Nat} {r : RegWord} (h : find s.reg (unitKey c (w / 4 * 4)) = some r)
    (hr : r.registered = false) : dropCoreCopy s c w unit
      = logError { s with reg := del s.reg (unitKey c (w / 4 * 4)) } 2 unit (partOfAddr s w) 0x7FF (w % 2 ^ 52) := by
  unfold dropCoreCopy
  rw [h]
  exact if_neg (ne_true_of_eq_false hr)

/-- Settles O54: each step of the ordering machine and of the homes, and each detected error, does what its row says. -/
theorem memorySteps : Obligations.MemorySteps := by
  refine ⟨?_, ?_, ?_, ?_, ?_, ?_, ?_, ?_, ?_, ?_⟩
  · intro s c a hc w ws
    have hthere : isCore c = true := decide_eq_true hc
    refine ⟨fun hn => ?_, fun hn hall => ?_, fun hn => mem_boundTo_self _ a, fun u hu => quad_of_boundTo hu⟩
    · refine stepOf_there hthere ?_
      rw [registerWord, hn]
      rfl
    · refine stepOf_there hthere ((congrArg (memStep s) (registerWord_ready hn fun u hu => ?_)).trans rfl)
      obtain ⟨hr, he, hd⟩ := hall u hu
      exact ⟨readyWord_of (isSome_of_boundTo hu hn) hr hd, he⟩
  · intro s d a r hd hr us placed
    have hthere : isDie d = true := decide_eq_true hd
    have hput : exec (.exportWord d a) s = .next (memStep s (afterPlacement d r.va us placed)) :=
      stepOf_there hthere (congrArg (memStep s) (exportWord_places hr))
    refine ⟨fun t b h => ?_, fun t h => ?_, fun c sub x left h => ?_⟩
    · rw [hput, h]
      rfl
    · rw [hput, h]
      rfl
    · rw [hput, h]
      rfl
  · intro s d a hd hn
    exact stepOf_there (decide_eq_true hd) (congrArg (memStep s) (exportWord_nothing hn))
  · intro s a b d q ha hb h
    refine stepOf_there (Bool.and_eq_true_iff.mpr ⟨decide_eq_true ha, decide_eq_true hb⟩) ?_
    rw [deliverOne, h]
  · intro s d b l t v hd hl hh hr
    refine stepOf_there (decide_eq_true hd) ?_
    unfold fetchLine
    simp only [hl, hh, hr]
    rfl
  · intro s d b l hd hl each
    have hthere : isDie d = true := decide_eq_true hd
    have heach : (lineWords b l).foldl (fun t w => memStep t (exportWord t d w)) s = each := by
      refine congrArg (fun f => (lineWords b l).foldl f s) (funext fun t => funext fun w => ?_)
      unfold memStep
      split <;> simp_all
    refine ⟨fun ho => stepOf_there hthere ?_, fun ho => stepOf_there hthere ?_, fun hh hu =>
      ⟨fun hw hn => stepOf_there hthere ?_, fun hw hlast => stepOf_there hthere ?_, fun hw hlast => stepOf_there hthere ?_⟩⟩
    · exact (dieExport_held hl (beq_false_of_ne ho)).trans heach
    · exact (dieExport_held hl (beq_iff_eq.mpr ho)).trans heach
    · have hnone : (s.wbls.find? fun x => x.1 == d && x.2.1 == b) = none := by
        rw [List.find?_eq_none]
        intro x hx hxd
        obtain ⟨h1, h2⟩ := Bool.and_eq_true_iff.mp hxd
        exact hn x hx ⟨beq_iff_eq.mp h1, beq_iff_eq.mp h2⟩
      unfold wblStep sendWbl
      simp only [hnone, hl, hh, hu, hw]
      rfl
    · unfold dropLine
      simp only [hl, hh, hu, hw, beq_iff_eq.mpr hlast]
      rfl
    · unfold dropLine
      simp only [hl, hh, hu, hw, beq_false_of_ne hlast]
      rfl
  · intro s d b l v hd hl hw u gone
    have hthere : isDie d = true := decide_eq_true hd
    have hans : wblStep s d b = gone (if l.version = v ∧ l.owner = some d then (applyEvent u b evWBL (some d)).1 else u) := by
      unfold wblStep answerWbl
      simp only [hw, hl]
      rfl
    refine ⟨fun h1 h2 => stepOf_there hthere (hans.trans (congrArg gone (if_pos ⟨h1, h2⟩))), fun h =>
      stepOf_there hthere (hans.trans (congrArg gone (if_neg ?_)))⟩
    rintro ⟨h1, h2⟩
    exact h.elim (fun h => h h1) fun h => h h2
  · intro s b
    refine ⟨rfl, rfl, fun hb => congrArg Host.Outcome.next (if_neg (Nat.not_le.mpr hb)), fun hb =>
      ⟨purgeHost s b, congrArg Host.Outcome.next (if_pos hb), hostLines_purgeHost s b, fun hal hn => ?_⟩⟩
    have hspan : purgeSpan s b = 32 := by
      unfold purgeSpan
      rcases hn with hn | ⟨l, hl, hg⟩
      · rw [hn]
      · rw [hl]
        exact congrArg grainBytes hg
    have hkeep : ∀ k : Nat, (!([b / 64 * 64] : List Nat).contains k) = (k != b / 64 * 64) := fun k => by
      rw [List.contains_cons, List.contains_nil, Bool.or_false]
      rfl
    rw [purgeHost_eq, hspan, purgedLines_one hal]
    simp only [hkeep]
    rfl
  · intro s b l ev r hl e t
    obtain ⟨u, hu, hev⟩ := applyEvent_held (ev := ev) (r := r) hl
    have he : entryFor s l ev = e := rfl
    rw [he] at hev
    refine ⟨?_, ?_, rfl, owner_after, version_after, fun hq hp hc => ?_⟩
    · unfold t
      rw [hev, ← testBit_entryActs e (i := 8) (by decide)]
      split <;> rfl
    · unfold t
      rw [hev, ← hu]
      by_cases hd : ev = evPURGE ∧ e.toNat % 8 = 0
      · exact (congrArg (fun x : State × Bool => x.1.lines) (if_pos hd)).trans (if_pos hd).symm
      · exact (congrArg (fun x : State × Bool => x.1.lines) (if_neg hd)).trans (if_neg hd).symm
    · rw [applyEvent_quiet hl hq hp hc, he, after_quiet hq]
  · intro s
    refine ⟨fun unit p a => rfl, fun c w r hr hreg => ⟨?_, ?_⟩, fun d w v hv ho => ?_, fun a ha => ?_, fun q issued a => rfl,
      fun i t ht => ?_, fun unit a => rfl, fun unit p hp => ?_⟩
    · exact congrArg Host.Outcome.next (dropCoreCopy_unregistered hr hreg)
    · exact congrArg Host.Outcome.next (dropCoreCopy_unregistered hr hreg)
    · refine congrArg Host.Outcome.next ?_
      unfold detect
      simp only [hv]
      refine if_neg ?_
      cases hl : lineAt s w with
      | none => exact Bool.false_ne_true
      | some x => exact fun h => ho x.1 x.2 hl (beq_iff_eq.mp h)
    · exact congrArg Host.Outcome.next (if_neg (by rw [ha]; exact Bool.false_ne_true))
    · refine congrArg Host.Outcome.next ?_
      rw [detect, ht]
    · refine congrArg Host.Outcome.next ?_
      rw [detect, if_pos hp]

end Sys2Proof.Machine
end

