-- ==== Sys2Proof/Proofs/HostSteps.lean ====
section
/-!
The steps of the host link (O55).
-/
namespace Sys2Proof.Machine

/-! ## The host's own accesses -/

section
variable {s : State} {fn off : Nat}

theorem functionOn_of_up (h : functionUp s fn = true) : functionOn s fn = true := (Bool.and_eq_true_iff.mp h).1

theorem unsupported_up (h : functionUp s fn = true) :
    unsupported s fn = { s with link := { s.link with reads := del s.link.reads fn } } := if_pos (functionOn_of_up h)

theorem bar0Load_up (h : functionUp s fn = true) : bar0Load s fn off = answer s fn
    (if (reach s fn (bar0Addr off / 8 * 8)).isSome then (ctlRead s (bar0Addr off / 8 * 8)).toNat else 0) :=
  if_neg (by rw [h]; exact Bool.false_ne_true)

theorem step_bar0Read {r : List Act} (hd : s.dead = false) (ha : s.agenda = .bar0Read fn off :: r) :
    step s = .next (closeStep (bar0Load { s with agenda := r } fn off)) := by
  unfold step nextMove
  rw [ha]
  dsimp only
  rw [hd]
  rfl

theorem bar0Store_up (h : functionUp s fn = true) (n : Nat) (v : Word) : bar0Store s fn off n v =
    if n ≠ 8 ∨ off % 8 ≠ 0 then { s with link := { s.link with badhost := s.link.badhost + 1 } }
    else if reach s fn (bar0Addr off) = some true then ctlWrite s (bar0Addr off) v else s :=
  if_neg (by rw [h]; exact Bool.false_ne_true)

theorem bar2Load_up (h : functionUp s fn = true) (n : Nat) : bar2Load s fn off n = match bar2Addr s fn off n with
    | none => answer s fn 0
    | some a => if engineFree s a n then (let (s, v) := hostRead s a n; answer s fn v) else s :=
  if_neg (by rw [h]; exact Bool.false_ne_true)

theorem bar2Store_up (h : functionUp s fn = true) (bs : List Byte) : bar2Store s fn off bs = match bar2Addr s fn off bs.length with
    | none => s
    | some a => if engineFree s a bs.length then homeWrite s a bs.length (numOf bs) else s :=
  if_neg (by rw [h]; exact Bool.false_ne_true)

theorem bar2Atomic_up (h : functionUp s fn = true) {o : HostOp} {n : Nat} (ho : (hostOpWidths o).contains n = true) (v w : Nat) :
    bar2Atomic s fn off n o v w = match bar2Addr s fn off n with
      | none => if fn = 0 then answer s fn 0 else unsupported s fn
      | some a =>
        if !engineFree s a n then s
        else
          let (s, old) := hostRead (homeSettle s a n) a n
          answer (match hostOpResult o n old v w with
            | some x => homeWrite s a n x
            | none => s) fn old :=
  if_neg (by rw [h, ho]; rintro (h | h) <;> exact Bool.false_ne_true h)

theorem hostRead_clean {a n : Nat} (h : poisoned (homeRead s a n).1 a n = false) : hostRead s a n = homeRead s a n :=
  if_neg (ne_true_of_eq_false h)

end

/-! ## Functions -/

/-- A function that the host has enabled. -/
def Part.enabled (x : Part) (i : Nat) : Part := { x with pstate := if x.pstate = 2 then 2 else 1, removing := false, func := i }

theorem parts_enabled (n : Nat) (s : State) (p : Nat) :
    (((List.range n).foldl (fun s i => s.setPart (i + 1) ((s.part (i + 1)).enabled (i + 1))) s).part p
      = if 1 ≤ p ∧ p ≤ n then (s.part p).enabled p else s.part p)
    ∧ ((List.range n).foldl (fun s i => s.setPart (i + 1) ((s.part (i + 1)).enabled (i + 1))) s).link = s.link := by
  induction n generalizing p with
  | zero => exact ⟨(if_neg (by omega)).symm, rfl⟩
  | succ n ih =>
    rw [List.range_succ, List.foldl_append]
    refine ⟨?_, (ih p).2⟩
    by_cases hp : p = n + 1
    · rw [hp, if_pos (by omega)]
      refine (get_put_same ..).trans ?_
      rw [(ih (n + 1)).1, if_neg (by omega)]
    · refine (get_put_ne _ _ _ _ _ hp).trans ((ih p).1.trans (if_congr (by omega) rfl rfl))

/-! ## Address translation -/

section
variable {s : State} {r : AtsReq} {hpa : Nat} {g : Rights}

theorem atsAnswer_asks (he : grants g r.needs = false) (hm : r.meetings < 3) (hf : s.link.priFailed.getLsbD r.fn = false)
    (hp : s.link.priEnable.getLsbD r.fn = true) : atsAnswer s r (.translated hpa g) = sendPri (setAts s r.id fun x =>
      { x with isPri := true, sent := false, stale := false, meetings := r.meetings + 1 }) := by
  have hmeet : atsAnswer s r (.translated hpa g) = meetAbsent s r := if_pos (by rw [he]; rfl)
  rw [hmeet, meetAbsent, if_neg (by omega), hf, hp]
  rfl

theorem atsAnswer_stale (he : grants g r.needs = true) (hs : r.stale = true) :
    atsAnswer s r (.translated hpa g) = setAts s r.id fun r => { r with done := some (hpa, g) } := by
  unfold atsAnswer
  simp only [he, hs]
  rfl

theorem atsAnswer_fills (he : grants g r.needs = true) (hs : r.stale = false) :
    { fn := r.fn, pasid := r.pasid, page := r.page, hpa := hpa, rights := g, vas := [r.va] } ∈ (atsAnswer s r (.translated hpa g)).atc
      ∧ (atsAnswer s r (.translated hpa g)).ats = s.ats.filter fun x => x.id != r.id := by
  unfold atsAnswer
  simp only [he, hs]
  exact ⟨List.mem_append_right _ (List.mem_singleton.mpr rfl), rfl⟩

theorem invHits_iff {fn lo hi f p page : Nat} {pasid : Option Nat} : invHits fn pasid lo hi f p page = true ↔
    f = fn ∧ (pasid = none ∨ pasid = some p) ∧ lo ≤ page ∧ page ≤ hi := by
  simp only [invHits, Bool.and_eq_true, Bool.or_eq_true, beq_iff_eq, decide_eq_true_eq, and_assoc]

end

/-! ## Failed requests -/

section
variable {s : State} {q : Nat}

theorem failAccess_load {p : Failing} {sub : Nat} (hl : (loadWhere (s.ctx q) p).isSome = true) (hf : s.link.failing = []) :
    failAccess s q false p sub = { s with link := { s.link with failing := [(.seq q, false, sub)] } } := by
  unfold failAccess
  simp only [hl, hf]
  rfl

theorem loadWhere_some {p : Failing} (h : (s.ctx q).loads.any (fun l => l.x.host) = true) (hp : ∀ x : Xl, x.host = true → p x false = true) :
    (loadWhere (s.ctx q) p).isSome = true := by
  obtain ⟨l, hl, hh⟩ := List.any_eq_true.mp h
  exact List.find?_isSome.mpr ⟨l, hl, hp l.x hh⟩

theorem va_halves (l : Load) : l.halves.1.va = l.va := by
  unfold Load.halves
  split <;> rfl

theorem ipc_halves (l : Load) : l.halves.1.ipc = l.ipc := by
  unfold Load.halves
  split <;> rfl

theorem ord_halves (l : Load) : l.halves.1.ord = l.ord := by
  unfold Load.halves
  split <;> rfl

/-- A load whose access stops traps once nothing older is left. -/
theorem loadStep_stops {n sub : Nat} {l : Load} {left : Option State} (hl : (s.ctx q).loads[n]? = some l) (hrun : (s.ctx q).run = [])
    (hv : ∀ e ∈ (s.ctx q).viq, l.ord ≤ e.ord) (hc : (s.ctx q).clearBefore l.ord = true) (hw : (s.ctx q).acquireWaits l = false)
    (hm : (s.ctx q).mayRead l.ord l.x l.n = true) (hd : loadData s q l.halves.1 = .error (.stop cHOST_ABORT sub none left)) :
    loadStep s q n = .error (.trap { classB cHOST_ABORT sub l.va l.ipc with late := true } none) := by
  have hall : ((s.ctx q).viq.all fun e => decide (l.ord ≤ e.ord)) = true :=
    List.all_eq_true.mpr fun e he => decide_eq_true (hv e he)
  unfold loadStep
  simp only [hl, hm, hw, hd, liftB, va_halves, ipc_halves, ord_halves, hrun, hall, hc, Bool.not_true, Bool.or_false,
    Bool.and_false, Bool.false_eq_true, if_false]
  rfl

theorem backEnd_traps {f : State → Nat → Except Stop State} {t : Trap} (h : f s q = .error (.trap t none))
    (hr : ∀ u, releaseAt s q 4 ≠ .error (.wait u)) : backEnd s q f = takeTrap s q t := by
  unfold backEnd takeReady takeGated
  rw [h]
  dsimp only [Option.getD_none]
  split
  · rfl
  · split
    · next u hu => exact absurd hu (hr u)
    · rfl

end

/-- Settles O55: each step of the host link does what its row says. -/
theorem hostSteps : Obligations.HostSteps := by
  refine ⟨?_, ?_, ?_, ?_, ?_, ?_, ?_, ?_, ?_, ?_, ?_, ?_, ?_, ?_, ?_, ?_⟩
  · intro s fn off r hd ha t a hup
    have hload := bar0Load_up (off := off) hup
    have ha' : bar0Addr off / 8 * 8 = a := rfl
    rw [ha'] at hload
    refine ⟨fun w hw => ?_, fun hw => ?_⟩
    · rw [step_bar0Read hd ha, hload, if_pos (by rw [hw, Option.isSome_some])]
    · rw [step_bar0Read hd ha, hload, if_neg (by rw [hw, Option.isSome_none]; exact Bool.false_ne_true)]
  · exact fun s speed width flit cxl atomics h => congrArg Host.Outcome.next (if_pos h)
  · intro s fn off n v hfn hoff hup
    have hthere : (isPart fn && decide (off < 2 ^ 34)) = true := Bool.and_eq_true_iff.mpr ⟨decide_eq_true hfn, decide_eq_true hoff⟩
    have hst := bar0Store_up (off := off) hup n v
    refine ⟨fun h => stepOf_there hthere (hst.trans (if_pos h)), fun hn ho hr => ?_, fun hn ho hr => ?_,
      stepOf_there hthere (unsupported_up hup)⟩
    · have hal : ¬(n ≠ 8 ∨ off % 8 ≠ 0) := fun h => h.elim (fun h => h hn) fun h => h ho
      exact stepOf_there hthere (hst.trans ((if_neg hal).trans (if_pos hr)))
    · have hal : ¬(n ≠ 8 ∨ off % 8 ≠ 0) := fun h => h.elim (fun h => h hn) fun h => h ho
      exact stepOf_there hthere (hst.trans ((if_neg hal).trans (if_neg hr)))
  · intro s fn off n hfn hup
    have hthere : isPart fn = true := decide_eq_true hfn
    refine ⟨fun ha => ⟨stepOf_there hthere ?_, fun bs hbs => stepOf_there hthere ?_, fun o v w ho => stepOf_there hthere ?_⟩,
      fun a ha hfree => ⟨fun hp _ => stepOf_there hthere ?_, fun bs hbs => stepOf_there hthere ?_, fun o v w t old ho hread => ?_⟩⟩
    · rw [bar2Load_up hup, ha]
    · rw [bar2Store_up hup, hbs, ha]
    · rw [bar2Atomic_up hup ho, ha, unsupported_up hup]
    · rw [bar2Load_up hup, ha]
      dsimp only
      rw [if_pos hfree, hostRead_clean hp]
    · rw [bar2Store_up hup, hbs, ha]
      exact if_pos hfree
    · refine stepOf_there hthere ?_
      rw [bar2Atomic_up hup ho, ha]
      dsimp only
      rw [hfree, hread]
      cases o <;> rfl
  · intro s n hv h1 h31
    have hen : enableVfs s n = (List.range n).foldl (fun s i => s.setPart (i + 1) ((s.part (i + 1)).enabled (i + 1)))
        { s with link := { s.link with vfe := true, numvf := n } } := if_neg (by rw [hv]; simp; omega)
    have hparts := parts_enabled n { s with link := { s.link with vfe := true, numvf := n } }
    refine ⟨_, congrArg Host.Outcome.next hen, ?_, ?_, fun p hp1 hpn => ?_⟩
    · rw [(hparts 0).2]
    · rw [(hparts 0).2]
    · rw [(hparts p).1, if_pos ⟨hp1, hpn⟩]
      exact ⟨rfl, rfl, rfl⟩
  · exact fun s h => congrArg Host.Outcome.next (if_pos h)
  · exact fun s h => congrArg (fun t => Host.Outcome.next (resetPartition t 0)) (if_neg (ne_true_of_eq_false h))
  · exact fun s p h1 h32 hst => stepOf_there (Bool.and_eq_true_iff.mpr ⟨decide_eq_true h32, decide_eq_true h1⟩) (if_neg hst)
  · intro s i r a hr
    refine ⟨?_, rfl, fun hpa g => ?_⟩
    · show Host.Outcome.next _ = _
      rw [hr]
    · exact ⟨atsAnswer_asks, atsAnswer_stale, atsAnswer_fills⟩
  · intro s i r a hr
    show Host.Outcome.next _ = _
    rw [hr]
  · intro s fn on alloc hfn
    have hthere : isPart fn = true := decide_eq_true hfn
    refine ⟨fun h => stepOf_there hthere (if_pos h), fun h => ⟨_, stepOf_there hthere (if_neg h), ?_, rfl⟩⟩
    exact (getLsbD_setBit _ _ _ _ hfn).trans (if_pos rfl)
  · intro s fn pasid lo hi hroom
    refine ⟨_, congrArg Host.Outcome.next (if_neg (Nat.not_le.mpr hroom)), rfl, fun e => ?_⟩
    rw [List.mem_filter, Bool.not_eq_true', ← invHits_iff, Bool.not_eq_true]
  · intro s hpos hall
    refine congrArg Host.Outcome.next (if_pos ⟨hpos, List.all_eq_true.mpr fun r hr => ?_⟩)
    rw [hall r hr]
    rfl
  · rintro s q sub i hq hl hf (⟨rfl, rfl, hc⟩ | ⟨rfl, rfl, hc⟩ | ⟨rfl, rfl⟩)
    all_goals have hthere : isAsker (.seq q) = true := decide_eq_true hq
    · refine stepOf_there hthere ((if_neg (ne_true_of_eq_false hc)).trans (failAccess_load (loadWhere_some hl fun x hx => ?_) hf))
      rw [hx]
      rfl
    · refine stepOf_there hthere ((if_neg (ne_true_of_eq_false hc)).trans (failAccess_load (loadWhere_some hl fun x hx => ?_) hf))
      rw [hx]
      rfl
    · refine stepOf_there hthere (failAccess_load (loadWhere_some hl fun x hx => ?_) hf)
      simp [asksHost, hx]
  · intro s who fn pasid iova va n f hf hw
    unfold atsLookup requestOk
    rw [hw, hf]
    rfl
  · intro s q n l sub left hq hl hrun hv hc hw hm hd hr
    exact stepOf_there (decide_eq_true hq) (backEnd_traps (loadStep_stops hl hrun hv hc hw hm hd) hr)

end Sys2Proof.Machine
end

