-- ==== Sys2Proof/Proofs/SharedSteps.lean ====
section
/-!
The steps of host-shared memory and of the peer link (O56).
-/
namespace Sys2Proof.Machine

/-! ## Snoops of the host -/

theorem mode_of_beyond {s t : State} (h : t.beyond = s.beyond) : t.cxl.mode = s.cxl.mode := by
  have := congrArg (fun u : State => u.cxl.mode) h
  exact this

theorem beyond_recallLine (s : State) (a : Nat) : (recallLine s a).beyond = s.beyond := by
  unfold recallLine
  split
  · exact (beyond_flushAll _).trans ((beyond_applyEvent ..).trans (beyond_exportLine ..))
  · rfl

theorem beyond_snoopLine (s : State) (b : Nat) : (snoopLine s b).beyond = s.beyond := by
  unfold snoopLine
  split
  · exact beyond_recallLine s b
  · exact (beyond_recallLine ..).trans (beyond_recallLine ..)

theorem beyond_serveSnoop (s : State) (b k : Nat) : (serveSnoop s b k).beyond = s.beyond := by
  unfold serveSnoop
  dsimp only
  split
  · exact beyond_snoopLine s b
  · exact beyond_snoopLine s b

section
variable {s : State} {b : Nat}

theorem hostSnoop_now (h : (s.cxl.pendReq.any fun p => p.1 == b) = false) (k : Nat) : hostSnoop s b k = serveSnoop s b k :=
  if_neg (ne_true_of_eq_false h)

theorem hostSnoop_later (h : (s.cxl.pendReq.any fun p => p.1 == b) = true) (k : Nat) :
    hostSnoop s b k = { s with cxl := { s.cxl with snoops := s.cxl.snoops ++ [(b, k)] } } := if_pos h

/-- A state whose host holds other lines. -/
def withHostLines (t : State) (l : List (Nat × CxlState)) : State := { t with cxl := { t.cxl with hostLines := l } }

theorem serveSnoop_data {x : CxlState} (h : find (cleanHost (snoopLine s b) b).cxl.hostLines b = some x) :
    serveSnoop s b 0 = withHostLines (cleanHost (snoopLine s b) b) (put (cleanHost (snoopLine s b) b).cxl.hostLines b .s) := by
  unfold serveSnoop
  rw [if_neg (by decide)]
  dsimp only
  rw [h]
  rfl

theorem serveSnoop_inv : serveSnoop s b 1 =
    withHostLines (cleanHost (snoopLine s b) b) (del (cleanHost (snoopLine s b) b).cxl.hostLines b) := by
  unfold serveSnoop
  rw [if_neg (by decide)]
  cases find (cleanHost (snoopLine s b) b).cxl.hostLines b <;> rfl

theorem serveSnoop_cur : serveSnoop s b 2 = snoopLine s b := by
  unfold serveSnoop
  rw [if_pos rfl]
  cases find (snoopLine s b).cxl.hostLines b <;> rfl

/-! ## What the host answers and asks -/

/-- A line granted to a home, with no snoop waiting for it. -/
theorem hostGrant_plain {w : HostReq} (hp : s.cxl.pendReq.find? (fun p => p.1 == b) = some (b, w))
    (hn : ∀ p ∈ s.cxl.snoops, p.1 ≠ b) : hostGrant s b = { s with cxl := { s.cxl with
      pendReq := s.cxl.pendReq.filter fun p => p.1 != b
      snoops := s.cxl.snoops.filter fun p => p.1 != b
      hostLines := put s.cxl.hostLines b (if w = .rdShared then .s else .e) } } := by
  have hnone : (s.cxl.snoops.filter fun p => p.1 == b) = [] :=
    List.filter_eq_nil_iff.mpr fun p hm h => hn p hm (beq_iff_eq.mp h)
  unfold hostGrant
  simp only [hp, hnone]
  rfl

theorem any_pending {w : HostReq} (hp : s.cxl.pendReq.find? (fun p => p.1 == b) = some (b, w))
    (hall : ∀ p ∈ s.cxl.pendReq, p.1 = b → p.2 = w) :
    (s.cxl.pendReq.any fun p => p.1 == b && p.2 != .rdOwnNoData) = (w != .rdOwnNoData) := by
  have hmem := List.mem_of_find?_eq_some hp
  cases hw : w != .rdOwnNoData with
  | true => exact List.any_eq_true.mpr ⟨_, hmem, by rw [hw, Bool.and_true]; exact beq_self_eq_true b⟩
  | false =>
    refine List.any_eq_false.mpr fun p hm h => ?_
    obtain ⟨h1, h2⟩ := Bool.and_eq_true_iff.mp h
    rw [hall p hm (beq_iff_eq.mp h1), hw] at h2
    exact Bool.false_ne_true h2

theorem hostBiasFirst_other (h : s.cxl.mode = 2) : hostBiasFirst s b = some s := if_pos (by rw [h]; decide)

/-- What the host's read of a line leaves before its answer is noted. -/
def readSnooped (s : State) (b : Nat) : State := biConflict (serveSnoop s b 1) b

theorem mode_readSnooped (h : s.cxl.mode = 2) : (readSnooped s b).cxl.mode = 2 := by
  have hs := (mode_of_beyond (beyond_serveSnoop s b 1)).trans h
  unfold readSnooped biConflict
  split
  · exact hs
  · exact hs

theorem hdmRead_mode2 (hin : inHdm s b = true) (hfree : engineFree s b 64 = true) (hm : s.cxl.mode = 2) :
    let u := readSnooped s b
    hdmRead s b = { u with cxl := { u.cxl with
      drs := put u.cxl.drs b (hdmData u b)
      snoopFilter := (b, true) :: u.cxl.snoopFilter.filter fun p => p.1 != b } } := by
  intro u
  have hgo : ¬(s.cxl.mode = 0 ∨ (!inHdm s b) = true ∨ (!engineFree s b 64) = true) := by
    rw [hm, hin, hfree]
    decide
  unfold hdmRead
  rw [if_neg hgo, hostBiasFirst_other hm]
  exact if_pos (mode_readSnooped hm)

theorem hdmWrite_mode2 (hin : inHdm s b = true) (hfree : engineFree s b 64 = true) (hm : s.cxl.mode = 2) (bs : List Byte) :
    let u := if (find s.cxl.hostLines b).isSome then serveSnoop s b 1 else s
    hdmWrite s b bs = { homeWrite u b 64 (numOf (bs.take 64)) with cxl := u.cxl } := by
  have hgo : ¬(s.cxl.mode = 0 ∨ (!inHdm s b) = true ∨ (!engineFree s b 64) = true) := by
    rw [hm, hin, hfree]
    decide
  unfold hdmWrite
  rw [if_neg hgo, hostBiasFirst_other hm]

theorem notMem_others (l : List (Nat × Bool)) (b : Nat) (x : Bool) : (b, x) ∉ l.filter fun p => p.1 != b := fun h =>
  bne_iff_ne.mp (List.mem_filter.mp h).2 rfl

theorem biDone_answers {w : Bool} (h : s.cxl.biWait.find? (fun p => p.1 == b) = some (b, w)) :
    biDone s b = { s with cxl := { s.cxl with
      biWait := s.cxl.biWait.filter fun p => p.1 != b
      snoopFilter := if w then s.cxl.snoopFilter.filter fun p => p.1 != b else (b, false) :: s.cxl.snoopFilter.filter fun p => p.1 != b } } := by
  unfold biDone
  rw [h]

end

/-! ## Peers -/

section
variable {s : State} {dev sp a g sl : Nat} {o : PeerOp}

theorem peerServe_ignored (h : admitted s dev sp a o = false ∨ 0xF000000000000 ≤ a + peerSize o
    ∨ (vget s.slots sl {}).draining = true ∨ (vget s.slots sl {}).active = false) : peerServe s dev sp a g sl o = s := by
  unfold peerServe
  by_cases hc : ctlBase ≤ a + peerSize o ∨ (!admitted s dev sp a o) = true
  · exact if_pos hc
  · refine (if_neg hc).trans (if_pos ?_)
    rcases h with h | h | h | h
    · exact absurd (.inr (by rw [h]; rfl)) hc
    · exact absurd (.inl h) hc
    · exact .inr (.inl h)
    · exact .inr (.inr (by rw [h]; rfl))

theorem peerServe_serves (had : admitted s dev sp a o = true) (hlt : a + peerSize o < 0xF000000000000)
    (hfree : engineFree s a (peerSize o) = true) (hdr : (vget s.slots sl {}).draining = false)
    (hact : (vget s.slots sl {}).active = true) :
    let u := homeSettle (peerLines s g sl (ingressPart s dev sp a o) a (peerSize o)) a (peerSize o)
    peerServe s dev sp a g sl o = if (peerAccess o).2 && homeRefuses u a then u
      else
        let r := hostRead u a (peerSize o)
        let z := if (peerAccess o).1 then peerAnswer r.1 dev a sl r.2 else r.1
        match peerResult o r.2 with
        | some v => homeWrite z a (peerSize o) v
        | none => z := by
  intro u
  have h1 : ¬(ctlBase ≤ a + peerSize o ∨ (!admitted s dev sp a o) = true) := by
    rw [had]
    exact fun h => h.elim (Nat.not_le.mpr hlt) Bool.false_ne_true
  have h2 : ¬((!engineFree s a (peerSize o)) = true ∨ (vget s.slots sl {}).draining = true ∨ (!(vget s.slots sl {}).active) = true) := by
    rw [hfree, hdr, hact]
    decide
  exact (if_neg h1).trans (if_neg h2)

theorem exec_peerRequest (hdev : dev < 1024) (hg : g < 3) (hsl : sl < 8) :
    exec (.peerRequest dev sp a ⟨g, sl, o⟩) s = .next (peerServe s dev sp a g sl o) :=
  stepOf_there (decide_eq_true hdev) (if_pos ⟨hg, hsl⟩)

end

section
variable {s : State} {q : Nat} {l : Load}

theorem failAccess_peer {sub : Nat} (hl : (s.ctx q).loads.find? (fun l => onPeer l.x false) = some l) (hf : s.link.failing = []) :
    failAccess s q true onPeer sub = { s with link := { s.link with failing := [(.seq q, true, sub)] } } := by
  have hw : (loadWhere (s.ctx q) onPeer).isSome = true := (congrArg Option.isSome hl).trans rfl
  unfold failAccess
  simp only [hw, hf]
  rfl

theorem peerRoute_fails {dev : Nat} {f : Asker × Bool × Nat}
    (hf : s.link.failing.find? (fun f => f.1 == .seq q && f.2.1 == true) = some f) :
    peerRoute s (.seq q) dev false = .error (.stop cHOST_ABORT f.2.2) := by
  unfold peerRoute requestOk
  rw [hf]
  rfl

end

/-- Settles O56: each step of host-shared memory and of the peer link does what its row says. -/
theorem sharedMemoryAndPeerSteps : Obligations.SharedMemoryAndPeerSteps := by
  refine ⟨?_, ?_, ?_, ?_, ?_, ?_, ?_, ?_, ?_, ?_, ?_, ?_, ?_⟩
  · intro s a hp b r t gives
    refine ⟨fun x hx => congrArg Host.Outcome.next ((hostSnoop_now hp 0).trans (serveSnoop_data hx)),
      congrArg Host.Outcome.next ((hostSnoop_now hp 1).trans serveSnoop_inv),
      congrArg Host.Outcome.next ((hostSnoop_now hp 2).trans serveSnoop_cur)⟩
  · intro s a k hp
    match k with
    | 0 => exact ⟨_, rfl, congrArg Host.Outcome.next (hostSnoop_later hp 0)⟩
    | 1 => exact ⟨_, rfl, congrArg Host.Outcome.next (hostSnoop_later hp 1)⟩
    | k + 2 =>
      refine ⟨_, rfl, ?_⟩
      rw [Nat.min_eq_right (by omega)]
      exact congrArg Host.Outcome.next (hostSnoop_later hp 2)
  · intro s a w b hp
    refine ⟨fun hn => ⟨_, congrArg Host.Outcome.next (hostGrant_plain hp hn), find_put_same .., fun p hm => ?_, rfl⟩,
      fun hall => ⟨fun hw => ?_, fun hw => ?_⟩⟩
    · exact bne_iff_ne.mp (List.mem_filter.mp hm).2
    · have hany := (any_pending hp hall).trans (bne_iff_ne.mpr hw)
      exact congrArg (fun t => Host.Outcome.next (hostGrant t b)) (if_pos hany)
    · have hany := (any_pending hp hall).trans ((congrArg (· != HostReq.rdOwnNoData) hw).trans rfl)
      exact congrArg (fun t => Host.Outcome.next (hostGrant t b)) (if_neg (ne_true_of_eq_false hany))
  · exact fun s h => congrArg Host.Outcome.next (if_pos h)
  · intro s a b hin hfree hm _
    refine ⟨⟨_, congrArg Host.Outcome.next (hdmRead_mode2 hin hfree hm), List.mem_cons_self, fun hp => ?_⟩,
      fun bs => congrArg Host.Outcome.next (hdmWrite_mode2 hin hfree hm bs)⟩
    exact (find_put_same ..).trans (congrArg some (if_neg (ne_true_of_eq_false hp)))
  · intro s a w b h
    refine ⟨_, congrArg Host.Outcome.next (biDone_answers h), fun p hm => bne_iff_ne.mp (List.mem_filter.mp hm).2, ?_, ?_⟩
    · cases w with
      | true => exact ⟨fun h => absurd h (notMem_others s.cxl.snoopFilter b false), nofun⟩
      | false => exact ⟨fun _ => rfl, fun _ => List.mem_cons_self⟩
    · cases w with
      | true => exact notMem_others s.cxl.snoopFilter b true
      | false => exact fun h => (List.mem_cons.mp h).elim nofun (notMem_others s.cxl.snoopFilter b true)
  · intro s n hl hn
    exact congrArg Host.Outcome.next (if_pos ⟨hl, Nat.le_refl 2, hn⟩)
  · intro s hb hm lo a n i
    have hi : exec i s = .next (flipGo s) := by
      unfold i
      cases hd : s.cxl.flipdir with
      | true => exact congrArg Host.Outcome.next (if_pos hd)
      | false => exact congrArg Host.Outcome.next (if_neg (ne_true_of_eq_false hd))
    have hgo : flipGo s = _ := (if_neg (ne_true_of_eq_false hb)).trans (if_neg (not_not_intro hm))
    refine ⟨fun hlo hhi => ?_, fun hout => ?_⟩
    · rw [hi, hgo]
      exact congrArg Host.Outcome.next (if_neg fun h => h.elim (Nat.not_lt.mpr hlo) (Nat.not_lt.mpr hhi))
    · rw [hi, hgo]
      exact congrArg Host.Outcome.next (if_pos hout)
  · intro s hb
    exact congrArg Host.Outcome.next (if_neg (by rw [hb]; exact Bool.false_ne_true))
  · intro s port hp
    have hthere : decide (port < 36) = true := decide_eq_true hp
    refine ⟨fun hd => stepOf_there hthere (if_neg (by rw [hd]; exact Bool.false_ne_true)),
      stepOf_there hthere (if_neg Bool.false_ne_true)⟩
  · intro s dev sp a g sl o hdev hg hsl n run
    have hrun : run = _ := exec_peerRequest hdev hg hsl
    refine ⟨fun h => hrun.trans (congrArg Host.Outcome.next (peerServe_ignored h)), fun had hlt hfree hdr hact => ?_⟩
    intro u
    have hserve := peerServe_serves (g := g) had hlt hfree hdr hact
    refine ⟨fun hw hr => ?_, fun hwr t old hread => ?_⟩
    · exact hrun.trans (congrArg Host.Outcome.next (hserve.trans (if_pos (Bool.and_eq_true_iff.mpr ⟨hw, hr⟩))))
    · have hno : ¬((peerAccess o).2 && homeRefuses u a) = true := by
        rw [Bool.and_eq_true_iff]
        rintro ⟨h1, h2⟩
        rcases hwr with h | h
        · exact Bool.false_ne_true (h.symm.trans h1)
        · exact Bool.false_ne_true (h.symm.trans h2)
      refine hrun.trans (congrArg Host.Outcome.next (hserve.trans ((if_neg hno).trans ?_)))
      have hread' : hostRead (homeSettle (peerLines s g sl (ingressPart s dev sp a o) a (peerSize o)) a (peerSize o)) a (peerSize o)
        = (t, old) := hread
      rw [hread'] <;> (dsimp only; cases peerResult o old <;> rfl)
  · refine fun s dev a sl v => ⟨fun h => if_neg h, fun b l hl => ?_⟩
    have hl' : lineAt (answer s (32 + dev) v) a = some (b, l) := hl
    unfold peerAnswer
    dsimp only
    rw [if_pos rfl, hl']
  · intro s q l hq hl fails
    have hthere : isAsker (.seq q) = true := decide_eq_true hq
    refine ⟨fun hf => ⟨stepOf_there hthere (failAccess_peer hl hf), stepOf_there hthere (failAccess_peer hl hf)⟩,
      fun dev f hf => peerRoute_fails hf, fun n t rs hn hln hmay hd => stepOf_there hthere ?_⟩
    have hans : peerAnswered s (.seq q) = backEnd s q fun s q => loadStep s q n := by
      unfold peerAnswered
      simp only [hn]
    exact hans.trans (backEnd_ok (loadStep_returns hln hmay hd))

end Sys2Proof.Machine
end

