-- ==== Sys2Proof/Proofs/BoardSteps.lean ====
section
/-!
The steps of the negative store, the shutter, the board and the print engines (O57).
-/
namespace Sys2Proof.Machine

theorem iterate_still {α : Type} {f : Nat → α → α} {x : α} (h : ∀ i, f i x = x) : ∀ n i, iterate f n i x = x
  | 0, _ => rfl
  | n + 1, i => (congrArg (iterate f n (i + 1)) (h i)).trans (iterate_still h n (i + 1))

/-! ## Ranges of bytes and their grains -/

theorem dropRanges_over : ∀ (l : List (Nat × Nat)) (k : Nat), totalBytes l ≤ k → dropRanges l k = []
  | [], _, _ => rfl
  | (b, n) :: r, k, h => by
    have htotal : totalBytes ((b, n) :: r) = n + totalBytes r := by
      unfold totalBytes
      rw [List.map_cons, List.sum_cons]
    rw [htotal] at h
    unfold dropRanges
    rw [if_pos (by omega)]
    exact dropRanges_over r (k - n) (by omega)

theorem nextGrain_over {l : List (Nat × Nat)} {k : Nat} (h : totalBytes l ≤ k) : nextGrain l k = none := by
  unfold nextGrain
  rw [dropRanges_over l k h]

theorem dropRanges_head : ∀ (l : List (Nat × Nat)) (k : Nat) {a n : Nat} {r : List (Nat × Nat)}, dropRanges l k = (a, n) :: r → 0 < n
  | [], _, _, _, _, h => nomatch h
  | (b, m) :: l, k, a, n, r, h => by
    unfold dropRanges at h
    split at h
    · exact dropRanges_head l _ h
    · obtain ⟨h1, -⟩ := List.cons.inj h
      have h2 : m - k = n := (Prod.mk.inj h1).2
      omega

theorem nextGrain_inside {l : List (Nat × Nat)} {k a n : Nat} (h : nextGrain l k = some (a, n)) : a / 32 = (a + n - 1) / 32 ∧ 0 < n := by
  unfold nextGrain at h
  split at h
  · next b m r hd =>
    have hm := dropRanges_head l k hd
    obtain ⟨rfl, rfl⟩ := Prod.mk.inj (Option.some.inj h)
    omega
  · exact nomatch h

theorem length_bytesOf (v n : Nat) : (bytesOf v n).length = n := by
  induction n generalizing v with
  | zero => rfl
  | succ n ih => rw [bytesOf, List.length_cons, ih]

theorem numOf_bytesOf (v n : Nat) : numOf (bytesOf v n) = v % 256 ^ n := by
  induction n generalizing v with
  | zero => exact (Nat.mod_one v).symm
  | succ n ih =>
    have hcons : numOf (bytesOf v (n + 1)) = (BitVec.ofNat 8 v).toNat + 256 * numOf (bytesOf (v / 256) n) := rfl
    rw [hcons, ih, BitVec.toNat_ofNat]
    exact (Nat.mod_mul (x := v) (a := 256) (b := 256 ^ n)).symm.trans (congrArg (v % ·) Nat.pow_succ'.symm)

/-! ## The negative store -/

section
variable {s : State}

theorem saveGrain_over (hr : s.neg.running = some true) (h : totalBytes s.neg.ranges ≤ s.neg.progress.toNat) : saveGrain s = s := by
  unfold saveGrain
  rw [if_neg (not_not_intro hr), nextGrain_over h]

/-- The shards that a save leaves of those it found. -/
def keptShards (n : NegStore) : List Shard :=
  n.shards.filter fun t => !(t.job == n.cmd.job && t.step == n.cmd.step && decide (t.index < n.listed.length))

theorem saveDone_over (hr : s.neg.running = some true) (h : totalBytes s.neg.ranges ≤ s.neg.progress.toNat) :
    saveDone s = if storeBytes < ((keptShards s.neg ++ s.neg.newShards).map (·.size)).sum then negEnd s 6 0
      else (negDone { s with neg := { s.neg with shards := keptShards s.neg ++ s.neg.newShards, taken := [] } }).getD s := by
  have hit : iterate (fun _ s => saveGrain s) (totalGrains s.neg.ranges) 0 s = s := iterate_still (fun _ => saveGrain_over hr h) _ _
  have hgo : ¬(s.neg.running ≠ some true ∨ s.neg.progress.toNat < totalBytes s.neg.ranges) := fun hno =>
    hno.elim (fun hn => hn hr) (Nat.not_lt.mpr h)
  unfold saveDone
  rw [hit]
  exact if_neg hgo

theorem negDone_silent (h : s.neg.cmd.donebar.getLsbD 63 = false) :
    negDone s = some { s with neg := { s.neg with status := 2, running := none } } := if_neg (ne_true_of_eq_false h)

theorem saveGrain_next {a n : Nat} (hr : s.neg.running = some true) (h : nextGrain s.neg.ranges s.neg.progress.toNat = some (a, n)) :
    saveGrain s = if chanHolds s a n || printHolds s a n then s
      else if poisoned s a n then negEnd s 8 (a / 32 * 32)
      else { (homeRead s a n).1 with neg := { (homeRead s a n).1.neg with
        taken := (homeRead s a n).1.neg.taken ++ bytesOf (homeRead s a n).2 n
        progress := (homeRead s a n).1.neg.progress + word n } } := by
  unfold saveGrain
  rw [if_neg (not_not_intro hr), h]

theorem restoreGrain_over (hr : s.neg.running = some false) (hf : restoreFails s = none)
    (h : totalBytes s.neg.restored ≤ s.neg.progress.toNat) : restoreGrain s = s := by
  have hgo : ¬(s.neg.running ≠ some false ∨ (restoreFails s).isSome = true) := by
    rw [hf]
    exact fun hno => hno.elim (fun hn => hn hr) Bool.false_ne_true
  unfold restoreGrain
  rw [if_neg hgo, nextGrain_over h]

theorem restoreDone_over (hr : s.neg.running = some false) (hf : restoreFails s = none)
    (h : totalBytes s.neg.restored ≤ s.neg.progress.toNat) (hd : s.neg.cmd.donebar.getLsbD 63 = false) :
    restoreDone s = { s with neg := { s.neg with status := 2, running := none } } := by
  have hit : iterate (fun _ s => restoreGrain s) (totalGrains s.neg.restored) 0 s = s :=
    iterate_still (fun _ => restoreGrain_over hr hf h) _ _
  unfold restoreDone
  rw [if_neg (not_not_intro hr), hf]
  dsimp only
  rw [hit, if_neg (Nat.not_lt.mpr h), negDone_silent hd]
  rfl

theorem restoreDone_empty (hr : s.neg.running = some false) (h : ∀ t ∈ s.neg.shards, t.job ≠ s.neg.cmd.job ∨ t.complete = false) :
    restoreDone s = negEnd s 4 0 := by
  have hnone : s.neg.ofJob = [] := List.filter_eq_nil_iff.mpr fun t ht hj => by
    obtain ⟨h1, h2⟩ := Bool.and_eq_true_iff.mp hj
    rcases h t ht with hn | hn
    · exact hn (beq_iff_eq.mp h1)
    · exact Bool.false_ne_true (hn.symm.trans h2)
  have hf : restoreFails s = some (negEnd s 4 0) := by
    unfold restoreFails
    rw [hnone]
    rfl
  unfold restoreDone
  rw [if_neg (not_not_intro hr), hf]

/-- A command of the negative store that has begun. -/
def negBegun (s : State) (save : Bool) : State := { s with
  neg := { s.neg with status := 1, running := some save, cmd := s.neg.capture s.orders, progress := 0, faddr := 0, nreport := 0,
                      taken := [] }
  orders := s.orders + 1 }

theorem negStart_restore (hs : s.neg.status ≠ 1) : negStart s false = negBegun s false := if_neg hs

theorem negStart_save (hs : s.neg.status ≠ 1) : negStart s true = match regionFault [] (s.neg.capture s.orders).regions with
    | some a => negEnd (negBegun s true) 7 a
    | none => if s.neg.nreg = 0 ∨ 16 < s.neg.nreg then negEnd (negBegun s true) 7 0 else negBegun s true :=
  (if_neg hs).trans (if_neg Bool.false_ne_true)

end

/-- A new shard of a save is that of its region. -/
theorem newShards_at {n : NegStore} {i : Nat} {r : Word × Word × Word} (h : n.listed[i]? = some r) : ∃ t, n.newShards[i]? = some t
    ∧ t.job = n.cmd.job ∧ t.step = n.cmd.step ∧ t.index = i ∧ t.count = n.listed.length ∧ t.complete = true ∧ t.digest = t.digestOf
    ∧ t.payload = payload (regionForm r) ((n.taken.drop ((n.listed.take i).map regionLen).sum).take (regionLen r)) := by
  obtain ⟨hi, hr⟩ := List.getElem?_eq_some_iff.mp h
  have hget : n.listed.getD i (0, 0, 0) = r := by rw [List.getD_eq_getElem?_getD, h, Option.getD_some]
  have hbytes : totalBytes (n.ranges.take i) = ((n.listed.take i).map regionLen).sum := by
    unfold totalBytes NegStore.ranges
    rw [← List.map_take, List.map_map]
    rfl
  unfold NegStore.newShards
  refine ⟨_, (List.getElem?_map ..).trans (congrArg (Option.map _) (List.getElem?_range hi)), rfl, rfl, rfl, rfl, rfl, rfl, ?_⟩
  · dsimp only
    rw [hget, hbytes, slice]

/-! ## The shutter -/

section
variable {s : State}

/-- A shutter that has fired. -/
def firedBy (s : State) (n : Nat) : State :=
  { s with shutter := { s.shutter with fired := true, source := BitVec.ofNat 3 n, ftime := word s.time } }

theorem fireShutter_open (h : s.shutter.fired = false) (n : Nat) : fireShutter s n = firedBy s n :=
  if_neg (by rw [h, Bool.false_and]; exact Bool.false_ne_true)

theorem fireShutter_latched (hf : s.shutter.fired = true) (h : s.shutter.stills ≠ [] ∨ s.shutter.due ≠ []) (n : Nat) :
    fireShutter s n = s := by
  refine if_pos ?_
  rw [hf]
  rcases h with h | h
  · rw [List.isEmpty_eq_false_iff.mpr h]
    rfl
  · rw [List.isEmpty_eq_false_iff.mpr h, Bool.not_false, Bool.or_true, Bool.true_or, Bool.and_true]

theorem source_fireShutter (hf : s.shutter.fired = true) (hs : s.shutter.stills = []) (hd : s.shutter.due = []) {n : Nat} (hn : n < 8) :
    (fireShutter s n).shutter.source.toNat = min s.shutter.source.toNat n := by
  unfold fireShutter
  rw [hf, hs, hd]
  by_cases h : s.shutter.source.toNat ≤ n
  · rw [Nat.min_eq_left h, if_pos (by rw [decide_eq_true h]; rfl)]
  · rw [Nat.min_eq_right (by omega), if_neg (by rw [decide_eq_false h]; exact Bool.false_ne_true)]
    show (BitVec.ofNat 3 n).toNat = n
    rw [BitVec.toNat_ofNat, Nat.mod_eq_of_lt hn]

theorem eventTrigger_reached (h : s.shutter.reached = true) :
    eventTrigger s = fireShutter { s with shutter := { s.shutter with reached := false } } 3 := if_pos h

end

/-! ## Reports and prints -/

theorem get_map_self {α : Type} (f : Nat → α) (d : α) {i : Nat} (l : List Nat) (h : i ∈ l) : get (l.map fun j => (j, f j)) i d = f i := by
  induction l with
  | nil => exact nomatch h
  | cons j l ih =>
    rw [List.map_cons, get]
    split
    · next hj => rw [hj]
    · next hj => exact ih ((List.mem_cons.mp h).resolve_left (Ne.symm hj))

/-- The first words of a report are those of the nonce it was asked with. -/
theorem report_head (x : BitVec 256) (l m : List Word) (y : Word) {i : Nat} (h : i < 4) :
    let ws := (List.range 4).map (wordOf x ·) ++ l ++ [y] ++ m
    get ((List.range ws.length).map fun j => (j, ws.getD j 0)) i 0 = wordOf x i := by
  intro ws
  have hlen : i < ((List.range 4).map (wordOf x ·)).length := by
    rw [List.length_map, List.length_range]
    exact h
  have hws : ws = (List.range 4).map (wordOf x ·) ++ (l ++ ([y] ++ m)) := by
    unfold ws
    rw [List.append_assoc, List.append_assoc]
  refine (get_map_self _ _ _ (List.mem_range.mpr ?_)).trans ?_
  · rw [hws, List.length_append]
    omega
  · rw [hws, List.getD_append _ _ _ _ hlen, List.getD_eq_getElem?_getD, List.getElem?_map, List.getElem?_range h]
    rfl

section
variable {s : State} {e : Nat} {c : Vector Word 8} {r : List (Vector Word 8)}

theorem printStart_starts (hq : (s.print e).queue = c :: r) (hb : (s.print e).busy = false) (hbar : vget c 5 0 = 0) :
    printStart s e = { flushAll s with prints := put s.prints e { s.print e with busy := true } } := by
  unfold printStart
  dsimp only
  rw [hq]
  refine if_neg ?_
  rw [hb, hbar]
  exact fun h => h.elim Bool.false_ne_true fun h => h.1 rfl

theorem encodes_nothing (p : Print) (h : bits (vget c 1 0) 32 16 = 0) : p.encodes c = false := by
  unfold Print.encodes
  rw [h]
  rfl

theorem printGrain_nothing (hq : (s.print e).queue = c :: r) (h : bits (vget c 1 0) 32 16 = 0) : printGrain s e = s := by
  unfold printGrain
  rw [hq]
  exact if_pos (by rw [encodes_nothing _ h, Bool.not_false, Bool.or_true])

theorem printEnd_nothing (p : Print) (h : bits (vget c 1 0) 32 16 = 0) : printEnd p c r = { p with
    streams := p.streams.filter (fun t => t.1 != bits (vget c 2 0) 8 4), error := 0, queue := r
    orders := p.orders.tail, busy := false, out := none, mark := 0 } := by
  unfold printEnd
  dsimp only
  rw [if_pos h]

theorem printDone_nothing (hq : (s.print e).queue = c :: r) (hb : (s.print e).busy = true) (h : bits (vget c 1 0) 32 16 = 0) :
    printDone s e = (deviceArrive { s with prints := put s.prints e (printEnd (s.print e) c r) } (vget c 7 0).toNat).getD s := by
  have hg := printGrain_nothing hq h
  have hit : ∀ n, iterate (fun _ s => printGrain s e) n 0 s = s := fun n => iterate_still (fun _ => hg) n 0
  unfold printDone
  rw [hq]
  dsimp only
  rw [if_neg (by rw [hb]; exact Bool.false_ne_true), hg, hit, encodes_nothing _ h]
  rfl

end

/-- Settles O57: each step of the negative store, the shutter, the board and the print engines does what its row says. -/
theorem boardSteps : Obligations.BoardSteps := by
  refine ⟨?_, ?_, ?_, ?_, ?_, ?_, ?_, ?_, ?_, ?_, ?_, ?_, ?_, ?_, ?_⟩
  · intro s hs h0 h16 rs t
    refine ⟨congrArg Host.Outcome.next (negStart_restore hs), fun hf => congrArg Host.Outcome.next ((negStart_save hs).trans ?_),
      fun a hf => congrArg Host.Outcome.next ((negStart_save hs).trans ?_)⟩
    · have hf' : regionFault [] (s.neg.capture s.orders).regions = none := hf
      rw [hf']
      exact if_neg fun h => h.elim h0 (Nat.not_lt.mpr h16)
    · have hf' : regionFault [] (s.neg.capture s.orders).regions = some a := hf
      rw [hf']
      rfl
  · intro s hr
    refine ⟨congrArg Host.Outcome.next (if_pos hr), fun hover => ?_⟩
    intro keep total
    have hd := saveDone_over hr hover
    refine ⟨fun h => hd.trans (if_pos h), fun h hdb => hd.trans ((if_neg (Nat.not_lt.mpr h)).trans ?_)⟩
    exact congrArg (Option.getD · s) (negDone_silent
      (s := { s with neg := { s.neg with shards := keptShards s.neg ++ s.neg.newShards, taken := [] } }) hdb)
  · intro s a n hr hn
    obtain ⟨hin, hpos⟩ := nextGrain_inside hn
    have hg := saveGrain_next hr hn
    refine ⟨hin, hpos, fun h => hg.trans (if_pos (Bool.or_eq_true_iff.mpr h)), fun hc hp => ?_⟩
    have hgo : ¬(chanHolds s a n || printHolds s a n) = true := by
      rw [hc, hp]
      exact Bool.false_ne_true
    refine ⟨fun hpo => hg.trans ((if_neg hgo).trans (if_pos hpo)), fun hpo t v ht => ⟨bytesOf v n, ?_, length_bytesOf v n,
      numOf_bytesOf v n⟩⟩
    rw [hg, if_neg hgo, if_neg (ne_true_of_eq_false hpo), ht]
  · intro n
    refine ⟨?_, fun i r h => newShards_at h⟩
    unfold NegStore.newShards
    rw [List.length_map, List.length_range]
  · intro s hr
    exact ⟨congrArg Host.Outcome.next (if_pos hr), restoreDone_empty hr, fun hf h hd => restoreDone_over hr hf h hd⟩
  · exact fun s h => congrArg Host.Outcome.next (if_pos h)
  · intro s hf fires
    refine ⟨congrArg Host.Outcome.next (fireShutter_open hf 4), fun hr => ⟨_, congrArg Host.Outcome.next (eventTrigger_reached hr), ?_⟩,
      fun hr => congrArg Host.Outcome.next (if_neg (ne_true_of_eq_false hr))⟩
    exact fireShutter_open (s := { s with shutter := { s.shutter with reached := false } }) hf 3
  · intro s k
    refine ⟨fun h => if_neg h, fun h => ?_⟩
    unfold countEvent
    rw [if_pos h]
    exact ⟨rfl, rfl⟩
  · intro s hf
    refine ⟨fun h => ⟨congrArg Host.Outcome.next (fireShutter_latched hf h 4), fireShutter_latched hf h⟩,
      fun hs hd n hn => source_fireShutter hf hs hd hn⟩
  · exact fun s => rfl
  · exact fun s => rfl
  · intro s hb
    have hgo : ¬(!s.board.busy) = true := by
      rw [hb]
      exact Bool.false_ne_true
    refine ⟨fun h => congrArg Host.Outcome.next ((if_neg hgo).trans (if_pos h)), fun h => ⟨_, congrArg Host.Outcome.next
      ((if_neg hgo).trans (if_neg (Nat.not_le.mpr h))), rfl, rfl, rfl, rfl, fun i hi => report_head s.board.asked _ _ _ hi⟩⟩
  · exact fun s v hlo hhi => congrArg Host.Outcome.next (if_pos ⟨hlo, hhi⟩)
  · intro s e he p
    have hthere : isPrint e = true := decide_eq_true he
    refine ⟨fun hlen => stepOf_there hthere (if_neg (Nat.not_le.mpr hlen)), fun c r hq =>
      ⟨fun hb hbar => stepOf_there hthere (printStart_starts hq hb hbar), fun hb hz => ?_⟩⟩
    intro u
    have hdone := printDone_nothing hq hb hz
    rw [printEnd_nothing _ hz] at hdone
    refine ⟨fun t ht => stepOf_there hthere (hdone.trans ?_), fun hn => stepOf_there hthere (hdone.trans ?_)⟩
    · exact congrArg (Option.getD · s) ht
    · exact congrArg (Option.getD · s) hn
  · intro s
    refine ⟨powerUp s, rfl, rfl, ?_⟩
    unfold powerUp
    split
    · exact ⟨rfl, rfl, rfl, rfl, rfl, rfl, rfl, rfl, rfl, rfl, Iff.rfl⟩
    · exact ⟨rfl, rfl, rfl, rfl, rfl, rfl, rfl, rfl, rfl, rfl, Iff.rfl⟩

end Sys2Proof.Machine
end

