-- ==== Sys2Proof/Proofs/Updates.lean ====
section
/-!
Updates performed at a home (O31). What `dieTake` leaves is stated for every state, also for one whose registry holds a key
twice: `del` takes out the first entry only, so the second is still found.
-/
namespace Sys2Proof.Machine

/-- A word as the core keeps a copy of it, for which it is not registered. -/
def copiedWord (v : BitVec 32) : RegWord :=
  { val := v, mask := 15, registered := false, exported := false, grain := 0, slot := 0 }

/-- The machine after power-on, but word 0 stands twice in the registry of core 0. -/
def repeatedKey : State := { State.reset with reg := [(unitKey 0 0, copiedWord 1), (unitKey 0 0, copiedWord 2)] }

theorem registerWord_nothing {s : State} {c w : Nat} (h : unregisteredAt s c w = none) : registerWord s c w = .ok (s, ()) := by
  unfold registerWord
  rw [h]

theorem unregisteredAt_of_copy {s : State} {c w : Nat} {r : RegWord} (hr : find s.reg (unitKey c w) = some r)
    (hd : find s.die (unitKey (coreDie c) w) = none) (hcopy : r.registered = false) : unregisteredAt s c w = none := by
  unfold unregisteredAt
  rw [hr, hd]
  show (if r.registered then some r else none) = none
  rw [hcopy]
  rfl

theorem unplacedAt_of_free {s : State} {d w : Nat} (hd : find s.die (unitKey d w) = none) : unplacedAt s d w = none := by
  unfold unplacedAt
  rw [hd]

/-- A word of which the die point holds nothing and the core a copy: the copy is dropped. -/
theorem dieTake_of_copy {s : State} {core w : Nat} {r : RegWord} (hr : find s.reg (unitKey core w) = some r)
    (hd : find s.die (unitKey (coreDie core) w) = none) (hcopy : r.registered = false) :
    dieTake s core w = .ok { s with reg := del s.reg (unitKey core w) } := by
  unfold dieTake
  rw [registerWord_nothing (unregisteredAt_of_copy hr hd hcopy)]
  show (exportWord s (coreDie core) w >>= _) = _
  rw [exportWord_nothing (unplacedAt_of_free hd)]
  show (match find s.die (unitKey (coreDie core) w) with
    | some (.core c) => _
    | _ => _) = _
  rw [hd]
  rfl

theorem dieTake_repeatedKey : dieTake repeatedKey 0 0 = .ok { repeatedKey with reg := [(unitKey 0 0, copiedWord 2)] } :=
  dieTake_of_copy (r := copiedWord 1) rfl rfl rfl

/-- Refutes O31: its clause on `dieTake` (neither a core registered for the word nor a copy left at the issuing core) is said of
every state, and nothing there asks that a key stand once in the registry. In `repeatedKey` word 0 stands twice in that of core 0,
and `dieTake` takes out the first of the two entries only, so that the core still holds a copy. -/
theorem not_updatesPerformed : ¬ Obligations.UpdatesPerformed := by
  unfold Obligations.UpdatesPerformed
  rintro ⟨-, ⟨-, -, -, -, hTake, -⟩, -⟩
  obtain ⟨hgone, -⟩ := hTake repeatedKey 0 0 _ dieTake_repeatedKey
  have hleft : find [(unitKey 0 0, copiedWord 2)] (unitKey 0 0) = some (copiedWord 2) := rfl
  exact nomatch hleft.symm.trans hgone

end Sys2Proof.Machine
end
